-- ==== Sys2Proof/Word.lean ====
section
/-! DEFINITION. The words of the KM-9: bytes, 64-bit words and lane masks (00_scope R4). -/

namespace Sys2Proof

/-- One byte of memory. -/
abbrev Byte := BitVec 8

/-- A 64-bit word: a lane of a vector register, a scalar register, an address while it is computed. -/
abbrev Word := BitVec 64

/-- A set of the 32 lanes of a gang; bit l is lane l. -/
abbrev Lanes := BitVec 32

end Sys2Proof
end

