-- ==== Sys2Proof/Machine/Bits.lean ====
section
/-! DEFINITION. Bit fields, lane sets, byte order and sub-elements (00_scope R4, R12; 06_registers R119). -/

namespace Sys2Proof.Machine

/-- Bits hi down to lo of a natural number. -/
def bits (hi lo n : Nat) : Nat := (n >>> lo) % 2 ^ (hi + 1 - lo)

/-- Bit k of a natural number. -/
def bit (k n : Nat) : Bool := n.testBit k

/-- 1 for true. -/
def b2n (b : Bool) : Nat := if b then 1 else 0

/-- A register value from a natural number. -/
def word (n : Nat) : Word := BitVec.ofNat 64 n

/-- A lane mask from a natural number. -/
def lanesOf (n : Nat) : Lanes := BitVec.ofNat 32 n

/-- Lane numbers 0-31 in ascending order. -/
def allLanes : List Nat := List.range 32

/-- The lanes of a set in ascending order. -/
def lanes (m : Lanes) : List Nat := allLanes.filter fun l => m.getLsbD l

/-- Whether lane l is in the set. -/
def inLanes (m : Lanes) (l : Nat) : Bool := m.getLsbD l

/-- The set holding the lanes that satisfy f. -/
def lanesWhere (f : Nat → Bool) : Lanes :=
  BitVec.ofNat 32 (allLanes.foldl (fun n l => if f l then n + 2 ^ l else n) 0)

/-- The lowest lane of a set, or 32 for the empty set. -/
def lowLane (m : Lanes) : Nat := (lanes m).headD 32

/-- How many lanes a set holds. -/
def countLanes (m : Lanes) : Nat := (lanes m).length

/-- How many bits of the low n bits are set. -/
def popBits : Nat → Nat → Nat
  | 0, _ => 0
  | n + 1, v => popBits n v + b2n (v.testBit n)

/-- The indices below n of the set bits, ascending. -/
def bitList (n v : Nat) : List Nat := (List.range n).filter fun k => v.testBit k

/-- x sign-extended from n bits (Table SC-3). -/
def sext (x n : Nat) : Int :=
  let y := x % 2 ^ n
  if n = 0 then 0 else if y < 2 ^ (n - 1) then (y : Int) else (y : Int) - (2 ^ n : Int)

/-- The low n bits of the two's-complement form of x (Table SC-3). -/
def trunc (x : Int) (n : Nat) : Nat := (x % (2 ^ n : Int)).toNat

/-- Sub-element e of width w of a 64-bit value (R119). -/
def subElem (w e : Nat) (x : Word) : Nat := bits (w * e + w - 1) (w * e) x.toNat

/-- The 64-bit value whose sub-elements of width w are the given ones, element 0 first. -/
def packElems (w : Nat) : List Nat → Nat
  | [] => 0
  | e :: t => e % 2 ^ w + 2 ^ w * packElems w t

/-- Applies f to every sub-element of width w. -/
def mapElems (w : Nat) (f : Nat → Nat) : Word := word (packElems w ((List.range (64 / w)).map f))

/-- n in little-endian order as k bytes (R4). -/
def toBytes : Nat → Nat → List Byte
  | 0, _ => []
  | k + 1, n => BitVec.ofNat 8 n :: toBytes k (n / 256)

/-- The number whose little-endian bytes are given (R4). -/
def ofBytes : List Byte → Nat
  | [] => 0
  | b :: t => b.toNat + 256 * ofBytes t

/-- The bytes of 64-bit words, in order. -/
def wordBytes (ws : List Nat) : List Byte := ws.flatMap (toBytes 8)

/-- Splits bytes into 64-bit words. -/
def bytesWords : Nat → List Byte → List Nat
  | 0, _ => []
  | k + 1, bs => ofBytes (bs.take 8) :: bytesWords k (bs.drop 8)

/-- Replaces bits hi down to lo of n by v. -/
def setBits (hi lo v n : Nat) : Nat :=
  n - (bits hi lo n) * 2 ^ lo + (v % 2 ^ (hi + 1 - lo)) * 2 ^ lo

/-- The least element of a list, or d. -/
def minOr (d : Nat) : List Nat → Nat
  | [] => d
  | x :: t => Nat.min x (minOr x t)

/-- The greatest element of a list, or 0. -/
def maxOf (l : List Nat) : Nat := l.foldl Nat.max 0

end Sys2Proof.Machine
end

