-- ==== Sys2Proof/Syntax.lean ====
section
/-! DEFINITION. The instructions and events of the KM-9: one constructor of Instr for each row of the opcode table
(02_formats R26-R36; spec/opcode_table.json). -/

namespace Sys2Proof

/-- The type codes of Table FM-5 (R35). -/
inductive Ty where
  | none | i8 | i16 | i32 | i64 | n8 | n16 | n32 | n64 | b8 | b16 | b32 | b64
  | f64 | f32 | f16 | bf16 | e4m3 | e5m2 | e3m2 | e2m3 | e2m1 | mx8 | mx4
  deriving DecidableEq, Repr

/-- What stands above bit 63 of a W, L or X instruction (Tables FM-2 and FM-4, R32, R33). -/
inductive Ext where
  /-- W: nothing. -/
  | w
  /-- L: the 32-bit literal of [95:64]. -/
  | l (lit : BitVec 32)
  /-- X: register field c, its last-use bit, the immediate and the extended modifiers. -/
  | x (c : BitVec 11) (luc : Bool) (imm : BitVec 32) (ext : BitVec 20)
  deriving DecidableEq, Repr

/-- The fields of a W, L or X instruction but for LEN, MAJOR and MINOR (Table FM-2, R28). -/
structure Fields where
  cls : BitVec 2
  opt : BitVec 3
  fsel : BitVec 2
  lud : Bool
  lub : Bool
  lua : Bool
  b : BitVec 11
  a : BitVec 11
  d : BitVec 11
  ty : Ty
  tail : Ext
  deriving DecidableEq, Repr

/-- The fields of an S instruction but for LEN, MAJOR and MINOR (R34). -/
structure SFields where
  lud : Bool
  lua : Bool
  sty : BitVec 2
  a : BitVec 8
  d : BitVec 8
  deriving DecidableEq, Repr

/-- A clause header (Table FM-7, R36). -/
structure Header where
  stall : BitVec 8
  nohaz : Bool
  rejoin : Bool
  yld : Bool
  setb : BitVec 4
  seta : BitVec 4
  wait : BitVec 12
  clen : BitVec 6
  deriving DecidableEq, Repr

/-- Names one path: package core number, context, gang slot and path-table index (R343). -/
structure PathRef where
  core : Nat
  ctx : Nat
  slot : Nat
  path : Nat
  deriving DecidableEq, Repr

/-- What firmware and the board bring to power-on reset (22_partitions R417, R419; 00_scope R8): the stepping, firmware versions
(lead, die), whether the lead image verifies and the dies whose image does not, the partition of each third, the supervisor context
and fibre groups of each partition index or third, whether CXL is negotiated, and the fw fields of the power registers and ERRCFG,
with the clusters retired before. -/
structure Board where
  stepping : Nat
  firmware : List Nat
  genuine : Bool
  badDies : List Nat
  map : List Nat
  supctx : List Nat
  fib : List Nat
  cxl : Bool
  linkUp : Bool
  ceiling : Nat
  slope : Nat
  errcfg : Nat
  req : Nat
  retired : List Nat
  deriving DecidableEq, Repr

/-- A request of a peer that arrives over the fabric (19_links R373, R381): an atomic names its operator (10 for cas), type,
operand or new value, and comparand. The last is a peer's answer to requests of this device: an error for the selected lanes of
an operation (R373). -/
inductive PeerReq where
  | load (addr len : Nat)
  | store (addr : Nat) (data : List Byte)
  | atomic (addr op : Nat) (ty : Ty) (y cmp : Word)
  | error (op : Nat) (sel : Lanes)
  deriving DecidableEq, Repr



/-- The instructions: one constructor for each row of the opcode table. The forms a path fetches carry their encoded
fields; the event rows (what the device, its firmware, its links and the outside world do) carry the arguments of the
event. -/
inductive Instr where
  /-- R38: A path whose WAIT flags are all zero decodes a clause header and begins the clause after STALL cycles. -/
  | beginClause (h : Header)
  /-- R98: No operation. -/
  | nop (f : SFields)
  /-- R98: Resets the path's age so that it issues behind every other path of its scheduler. -/
  | yield (f : SFields)
  /-- R101: Decrements every non-zero nesting counter of the path's lanes. -/
  | endif (f : SFields)
  /-- R106: Transfers to sa and lowers DEPTH by one. -/
  | ret (f : SFields)
  /-- R101: Turns off the lanes whose condition fails and jumps to the target when no lane stays active. -/
  | ifOp (f : Fields)
  /-- R101: Swaps the lanes of the two arms and jumps when no lane is active. -/
  | elseOp (f : Fields)
  /-- R102: Enters a loop and adds 2 to the counters of lanes that are already off, or skips the loop when act(p) is empty. -/
  | loop (f : Fields)
  /-- R102: Sets the counter of lanes whose condition holds to k + 2. -/
  | breakOp (f : Fields)
  /-- R102: Sets the counter of lanes whose condition holds to k + 1. -/
  | cont (f : Fields)
  /-- R102: Re-activates continued lanes and either iterates or leaves the loop, clearing the counters of broken lanes. -/
  | endloop (f : Fields)
  /-- R102: Decrements a count, turns off exhausted lanes, then acts as endloop. -/
  | loopn (f : Fields)
  /-- R105: A divergent branch that splits the path into its taken lanes and its fall-through lanes. -/
  | bra (f : Fields)
  /-- R105: A uniform branch that moves the whole path on a scalar condition. -/
  | brs (f : Fields)
  /-- R106: Branches to the target, writes the return address to sd and raises DEPTH. -/
  | call (f : Fields)
  /-- R107: An indirect branch that groups lanes by their 64-bit targets. -/
  | brx (f : Fields)
  /-- R107: An indirect call per target group, writing return addresses and raising DEPTH. -/
  | callx (f : Fields)
  /-- R108: Divides the path by key nibble or by slice without moving it. -/
  | split (f : Fields)
  /-- R110: W form: the path waits at a rejoin with the scalar mask until its waiting group is satisfied, then the group merges. -/
  | rejoin (f : Fields)
  /-- R110: L form of rejoin with a literal lane mask. -/
  | rejoinL (f : Fields)
  /-- R134: S-format copy of vector register a to d. -/
  | movS (f : SFields)
  /-- R134: W-format 64-bit copy, vector or scalar. -/
  | mov (f : Fields)
  /-- R134: S-format broadcast of a scalar into the active lanes of a vector register. -/
  | movsS (f : SFields)
  /-- R134: W-format broadcast of a scalar into a vector register. -/
  | movs (f : Fields)
  /-- R135: Writes a typed literal into every sub-element. -/
  | movl (f : Fields)
  /-- R136: Selects between a and b per sub-element on the old value of d. -/
  | sel (f : Fields)
  /-- R137: Releases a register in the active lanes or in the path's copy. -/
  | vrel (f : Fields)
  /-- R137: Releases a range of vector registers in the active lanes. -/
  | vzero (f : Fields)
  /-- R138: Reads a special register. -/
  | sread (f : Fields)
  /-- R138: Writes a read-write lane special register. -/
  | swrite (f : Fields)
  /-- R87: Copies a launch header with ARGS from sa and submits it to the context's device queue. -/
  | glaunch (f : Fields)
  /-- R87: The lead Phobos takes a glaunch launch, checks it, numbers it and writes sd. -/
  | deviceQueueTake (op : Nat)
  /-- R88: A release atomic addition to a counter, returning the old value. -/
  | gsig (f : Fields)
  /-- R88: Parks the path until the counter is at least sb, with acquire. -/
  | gwait (f : Fields)
  /-- R88: The first write after which a gwait's counter test holds wakes its path, which retires. -/
  | gwaitWake (q : PathRef)
  /-- R88: An acquire-release atomic exchange of a counter. -/
  | gcount (f : Fields)
  /-- R89: Writes the work identifier, one of its fields, or the linear index. -/
  | wid (f : Fields)
  /-- R90: Exits the active lanes, removes them from barriers, and frees the path or ends the gang. -/
  | exit (f : SFields)
  /-- R164: S-format two-address wrapping addition. -/
  | addS (f : SFields)
  /-- R164: S-format two-address wrapping subtraction. -/
  | subS (f : SFields)
  /-- R164: S-format bitwise and. -/
  | andS (f : SFields)
  /-- R164: S-format bitwise or. -/
  | orS (f : SFields)
  /-- R164: S-format bitwise exclusive or. -/
  | xorS (f : SFields)
  /-- R165: S-format shift left. -/
  | shlS (f : SFields)
  /-- R165: S-format logical shift right. -/
  | shrS (f : SFields)
  /-- R165: S-format arithmetic shift right. -/
  | sarS (f : SFields)
  /-- R164: W or L wrapping addition per sub-element. -/
  | add (f : Fields)
  /-- R164: W or L wrapping subtraction. -/
  | sub (f : Fields)
  /-- R164: W or L bitwise and. -/
  | and (f : Fields)
  /-- R164: W or L bitwise or. -/
  | or (f : Fields)
  /-- R164: W or L bitwise exclusive or. -/
  | xor (f : Fields)
  /-- R165: W or L shift left. -/
  | shl (f : Fields)
  /-- R165: W or L logical shift right. -/
  | shr (f : Fields)
  /-- R165: W or L arithmetic shift right. -/
  | sar (f : Fields)
  /-- R164: Saturating addition. -/
  | adds (f : Fields)
  /-- R164: Saturating subtraction. -/
  | subs (f : Fields)
  /-- R164: Absolute difference. -/
  | absd (f : Fields)
  /-- R164: Integer minimum. -/
  | min (f : Fields)
  /-- R164: Integer maximum. -/
  | max (f : Fields)
  /-- R164: Computes a and not b. -/
  | andn (f : Fields)
  /-- R165: Rotates left or right. -/
  | rot (f : Fields)
  /-- R166: Integer absolute value, optionally saturating. -/
  | abs (f : Fields)
  /-- R166: Bitwise complement. -/
  | not (f : Fields)
  /-- R164: Low-half or saturating multiplication. -/
  | mul (f : Fields)
  /-- R164: High half of the double-width product. -/
  | mulh (f : Fields)
  /-- R167: Multiply-add with one truncation or clamp. -/
  | mad (f : Fields)
  /-- R167: Division rounded towards zero, with fixed results for the special cases. -/
  | div (f : Fields)
  /-- R167: Remainder with fixed results for the special cases. -/
  | rem (f : Fields)
  /-- R168: Extracts a bit field. -/
  | bfe (f : Fields)
  /-- R168: Inserts a bit field into d. -/
  | bfi (f : Fields)
  /-- R166: Counts the set bits. -/
  | popc (f : Fields)
  /-- R166: Counts the leading zeros. -/
  | clz (f : Fields)
  /-- R166: Counts the trailing zeros. -/
  | ctz (f : Fields)
  /-- R166: Reverses the bits. -/
  | brev (f : Fields)
  /-- R169: Integer compare producing all-ones or zero masks. -/
  | cmp (f : Fields)
  /-- R170: Forms a 64-bit address from base, scaled index and displacement. -/
  | lea (f : Fields)
  /-- R176: Floating addition with one rounding. -/
  | fadd (f : Fields)
  /-- R176: Floating subtraction. -/
  | fsub (f : Fields)
  /-- R176: Floating multiplication. -/
  | fmul (f : Fields)
  /-- R177: Floating minimum. -/
  | fmin (f : Fields)
  /-- R177: Floating maximum. -/
  | fmax (f : Fields)
  /-- R178: Clears the sign bit. -/
  | fabs (f : Fields)
  /-- R178: Inverts the sign bit. -/
  | fneg (f : Fields)
  /-- R179: Multiplies by 2^n with one rounding. -/
  | fscale (f : Fields)
  /-- R180: Fused multiply-add. -/
  | fma (f : Fields)
  /-- R181: Floating compare producing masks. -/
  | fcmp (f : Fields)
  /-- R182: Writes the class code of each value. -/
  | fclass (f : Fields)
  /-- R183: Packed dot product into two .f32 results. -/
  | fdot (f : Fields)
  /-- R184: Converts one part between types. -/
  | cvt (f : Fields)
  /-- R186: Rounds to an integral value. -/
  | frnd (f : Fields)
  /-- R187: Quantises into a block-scaled register part, choosing block scales. -/
  | cvtq (f : Fields)
  /-- R188: Dequantises a block-scaled part into floating values. -/
  | cvtdq (f : Fields)
  /-- R190: Reciprocal within a bounded error. -/
  | frcp (f : Fields)
  /-- R190: Reciprocal square root within a bounded error. -/
  | frsq (f : Fields)
  /-- R189: Correctly rounded square root. -/
  | fsqrt (f : Fields)
  /-- R189: Correctly rounded division. -/
  | fdiv (f : Fields)
  /-- R190: Base-2 exponential. -/
  | fexp2 (f : Fields)
  /-- R190: Base-2 logarithm. -/
  | flog2 (f : Fields)
  /-- R190: Sine. -/
  | fsin (f : Fields)
  /-- R190: Cosine. -/
  | fcos (f : Fields)
  /-- R190: Hyperbolic tangent. -/
  | ftanh (f : Fields)
  /-- R196: Path-wide vote over the active lanes. -/
  | vote (f : Fields)
  /-- R196: Mask of the active lanes with a non-zero value. -/
  | ballot (f : Fields)
  /-- R196: Selects the lowest active lane. -/
  | elect (f : Fields)
  /-- R197: Writes the path's width, active count, rank or slice set. -/
  | pwidth (f : Fields)
  /-- R196: Writes the mask of active lanes holding an equal value. -/
  | matchOp (f : Fields)
  /-- R201: Shuffle by lane index, with a fallback operand. -/
  | shfl (f : Fields)
  /-- R201: Shuffle by element index. -/
  | shfx (f : Fields)
  /-- R201: Shifts lanes up within segments. -/
  | shfup (f : Fields)
  /-- R201: Shifts lanes down within segments. -/
  | shfdn (f : Fields)
  /-- R201: Broadcasts one lane's sub-element. -/
  | bcast (f : Fields)
  /-- R198: Sequential reduction in ascending lane order. -/
  | lred (f : Fields)
  /-- R198: Inclusive or exclusive sequential scan. -/
  | scan (f : Fields)
  /-- R199: Packs the selected lanes into the lowest active ranks. -/
  | compact (f : Fields)
  /-- R202: Finds the positions of matching keys across the active lanes and counts them. -/
  | isect (f : Fields)
  /-- R212: Scratchpad load, performed indivisibly in the block order. -/
  | lds (f : Fields)
  /-- R212: Scratchpad store. -/
  | sts (f : Fields)
  /-- R214: Cluster-scope scratchpad load from a sibling block. -/
  | ldc (f : Fields)
  /-- R214: Cluster-scope scratchpad store. -/
  | stc (f : Fields)
  /-- R215: A cluster access is performed at its target block, waiting while that block is not resident. -/
  | ldcComplete (op : Nat)
  /-- R216: Queues a background scratchpad copy. -/
  | scopy (f : Fields)
  /-- R216: Queues a background scratchpad fill. -/
  | sfill (f : Fields)
  /-- R218: The copy unit finishes a scopy or sfill and returns its flag. -/
  | scopyComplete (op : Nat)
  /-- R229: Global load through a handle, parking or asynchronous. -/
  | ld (f : Fields)
  /-- R232: Global store through a handle. -/
  | st (f : Fields)
  /-- R233: Gather with a per-lane handle reference. -/
  | gath (f : Fields)
  /-- R233: Scatter with a per-lane handle reference. -/
  | scat (f : Fields)
  /-- R230: The replies to a load or gather arrive, d is written, the waiting entry is freed and the path wakes or the flag returns. -/
  | loadReply (op : Nat) (sel : Lanes) (data : List Word)
  /-- R235: Prefetches lines into home SRAM and L1. -/
  | pref (f : Fields)
  /-- R236: Flushes a range of lines and counts the skipped spans. -/
  | hflush (f : Fields)
  /-- R236: Every line of a flush is done and sd is written. -/
  | hflushComplete (op : Nat)
  /-- R237: Reads a word of a handle entry. -/
  | hget (f : Fields)
  /-- R238: Writes a word of a handle entry and removes the old word from every cache. -/
  | hset (f : Fields)
  /-- R243: Translates an address for a context and reports the result. -/
  | xlat (f : Fields)
  /-- R243: Removes the translations of one page of a context. -/
  | xlatInv (f : Fields)
  /-- R243: Removes every translation of a context. -/
  | xlatAll (f : Fields)
  /-- R241: A translation miss is served by a four-level walk at the home slices. -/
  | pageWalk (fn ctx : Nat) (va : Word)
  /-- R244: Discards the core's cached instruction bytes. -/
  | icinv (f : SFields)
  /-- R253: Waits until the covered accesses meet the conditions of its scope. -/
  | fence (f : SFields)
  /-- R254: Waits for the covered scratchpad and cluster operations. -/
  | sfence (f : SFields)
  /-- R255: Waits for the device-space Ws and writes the greatest W. -/
  | wdone (f : SFields)
  /-- R256: W form: waits until Orrery time reaches T. -/
  | twait (f : Fields)
  /-- R256: L form of twait with a literal addend. -/
  | twaitL (f : Fields)
  /-- R256: Writes the Orrery time, optionally after a gang fence. -/
  | tnow (f : Fields)
  /-- R248: A write reaches its home slice and is assigned its W after the outstanding leases end. -/
  | writeArrival (op : Nat) (sel : Lanes)
  /-- R232: A returned W releases the write from its outstanding counter and completes its flag. -/
  | writeWReturn (op : Nat)
  /-- R261: A host posted or CXL.mem write to device memory takes its W in order of receipt. -/
  | hostWrite (fn addr : Nat) (data : List Byte) (cxl ro : Bool)
  /-- R261: A host read of device memory is performed after the earlier posted writes. A read of the register window has `win`
  (R7, R9). -/
  | hostRead (fn addr len : Nat) (cxl win : Bool)
  /-- R266: A global atomic at the home slice or bridge. -/
  | atom (f : Fields)
  /-- R266: A global compare-and-swap. -/
  | cas (f : Fields)
  /-- R267: The replies carrying old values and Ws arrive and the atomic retires or completes. -/
  | atomicReply (op : Nat) (data : List Word)
  /-- R269: The host grants a sector and the waiting accesses are performed at the bridge. -/
  | ownershipGrant (fn sector : Nat) (excl : Bool) (data : List Byte)
  /-- R270: The bridge releases a sector on a snoop, a flush or for room, writing back M data. -/
  | sectorRelease (fn sector : Nat)
  /-- R271: Accumulates a contribution into the gang's reduction buffer. -/
  | red (f : Fields)
  /-- R273: Drains the gang's reduction entries and waits for their Ws. -/
  | redflush (f : SFields)
  /-- R276: A drained partial reaches its home slice and is combined or held by rank. -/
  | redPartialArrival (op : Nat)
  /-- R278: A scratchpad atomic. -/
  | satom (f : Fields)
  /-- R278: A scratchpad compare-and-swap. -/
  | scas (f : Fields)
  /-- R279: The active lanes arrive at the block barrier and wait. -/
  | bar (f : Fields)
  /-- R279: The lanes arrive at a named barrier and wait. -/
  | nbar (f : Fields)
  /-- R279: The lanes arrive at a named barrier without waiting. -/
  | barx (f : Fields)
  /-- R282: A wave of waiting gangs is released t cycles after the previous one. -/
  | barrierReleaseWave (core ctx block bar : Nat)
  /-- R285: Waits for a barrier object's phase to flip. -/
  | barw (f : Fields)
  /-- R284: An engine counts bytes into a barrier object, flipping its phase. -/
  | objectUpdate (op : Nat)
  /-- R289: Queues a tile copy between global memory and scratchpad. -/
  | cpy (f : Fields)
  /-- R290: Queues a per-lane gather copy into scratchpad. -/
  | cpyg (f : Fields)
  /-- R290: Queues a per-lane scatter copy out of scratchpad. -/
  | cpys (f : Fields)
  /-- R287: A command's bytes are performed or abandoned and it returns its flag and counts to its batch. -/
  | copyComplete (op : Nat) (data : List Byte)
  /-- R294: Closes the open batch and numbers it. -/
  | bclose (f : SFields)
  /-- R295: Waits for a batch horizon or a count of outstanding batches. -/
  | bwait (f : Fields)
  /-- R299: Starts a command-block chain in a free slot. -/
  | cbrun (f : Fields)
  /-- R297: The engine fetches a command block, tests it and runs its operation. -/
  | chainBlock (core ctx slot : Nat)
  /-- R297: A waiting chain re-tests its word every microsecond. -/
  | chainRetest (core ctx slot : Nat)
  /-- R300: Signals a chain or stops it. -/
  | cbsig (f : Fields)
  /-- R300: Reads a chain's state. -/
  | cbstat (f : Fields)
  /-- R310: Posts quarter operations of a dense matrix product into tiles. -/
  | mma (f : Fields)
  /-- R310: Posts a structured-sparse matrix product. -/
  | mmas (f : Fields)
  /-- R310: Posts a block-scaled matrix product. -/
  | mmab (f : Fields)
  /-- R304: The arbiter picks a request and fuses up to four eligible quarter operations into a pass. -/
  | passGrant (cluster : Nat)
  /-- R312: A pass form's operations are applied and its object update is made, and its flag returns. -/
  | passComplete (op : Nat)
  /-- R317: Zeroes a range of tiles. -/
  | azero (f : Fields)
  /-- R318: Scales the rows and columns of a tile. -/
  | ascale (f : Fields)
  /-- R317: Releases a range of tiles. -/
  | arel (f : Fields)
  /-- R320: Loads a tile from scratchpad, or from physical memory with .phys. -/
  | aload (f : Fields)
  /-- R320: Stores a tile to scratchpad, or to physical memory with .phys. -/
  | astore (f : Fields)
  /-- R320: An aload or astore transfer is performed and counted. -/
  | atransferComplete (op : Nat)
  /-- R319: Reads tile rows into vector registers. -/
  | aread (f : Fields)
  /-- R319: Writes vector registers into tile rows. -/
  | awrite (f : Fields)
  /-- R332: S form: fences and advances the Tail window. -/
  | wmarkS (f : SFields)
  /-- R332: W form of wmark, returning the new window number. -/
  | wmark (f : Fields)
  /-- R333: Reads the current or oldest window, a boundary or the bytes used. -/
  | wquery (f : Fields)
  /-- R339: Reverts a stopped context to a window, stopping at irreversible records. -/
  | wcfgRevert (f : Fields)
  /-- R339: Reverts past irreversible records. -/
  | wcfgForce (f : Fields)
  /-- R338: Discards the windows older than k. -/
  | wcfgDrop (f : Fields)
  /-- R329: The window control announces a boundary 256 ns ahead, or joins a pending one. -/
  | windowAdvanceRequest (fn ctx : Nat)
  /-- R329: Orrery time reaches an announced boundary and CUR advances. -/
  | windowBoundary (fn ctx : Nat)
  /-- R330: Every PERIOD µs the timer requests a window advance. -/
  | tailTimer (fn ctx : Nat)
  /-- R349: Software trap with a literal code. -/
  | trapS (f : SFields)
  /-- R349: Software trap with a code from sa. -/
  | trap (f : Fields)
  /-- R349: Resumes, skips or kills a path stopped by a trap. -/
  | tret (f : Fields)
  /-- R358: Reads a system register of a selected copy. -/
  | rsys (f : Fields)
  /-- R358: Writes a system register of a selected copy. -/
  | wsys (f : Fields)
  /-- R341: A write of LIVE = 1 makes a context live. -/
  | ctxctlWrite (fn ctx : Nat) (v : Word)
  /-- R221: Relocating the handle table removes the cached entries of the context. -/
  | htbaseWrite (fn ctx : Nat) (v : Word)
  /-- R221: Sets the page-table root for translations that begin later. -/
  | ptrootWrite (fn ctx : Nat) (v : Word)
  /-- R325: Enables the Tail after checking the region, or disables it and discards the records. -/
  | tlctlWrite (fn ctx : Nat) (v : Word)
  /-- R314: Sets a tile's ownership tag once no operation is pending on it. -/
  | acctagWrite (core tile : Nat) (v : Word)
  /-- R130: Sets the spill region, ignored while slots are in use or below the reserve. -/
  | splbaseWrite (core ctx : Nat) (v : Word)
  /-- R351: Exchanges the active and shadow banks of a core. -/
  | cswapFlip (f : Fields)
  /-- R355: Spills the inactive bank's context to its save area. -/
  | cswapOut (f : Fields)
  /-- R355: Loads a saved context into the empty inactive bank. -/
  | cswapIn (f : Fields)
  /-- R351: The old bank's outstanding work finishes and the bank becomes loaded. -/
  | bankDrainDone (core : Nat)
  /-- R205: The background engine saves another bank's scratchpad unit and reloads the incoming contents. -/
  | unitExchange (core unit : Nat)
  /-- R353: A held operation completes and its result is delivered to its gang, live or saved. -/
  | heldOperationComplete (op : Nat)
  /-- R357: Kills a context and ends its launches. -/
  | ckill (f : Fields)
  /-- R356: Stops every path of a context. -/
  | cstop (f : Fields)
  /-- R356: Lifts a context stop. -/
  | cresume (f : Fields)
  /-- R348: A held trap frame is retried at least every microsecond. -/
  | frameRetry (core : Nat)
  /-- R381: Sends a release addition to a peer word. -/
  | fsig (f : Fields)
  /-- R382: Waits until a multicast-reduce group's DELIV reaches a threshold. -/
  | fwait (f : Fields)
  /-- R376: Drains fibre groups with markers. -/
  | fmcrDrain (f : Fields)
  /-- R376: Takes drained groups dark, holding allowances. -/
  | fmcrDark (f : Fields)
  /-- R441: Relocks groups on a new circuit and releases held allowances. -/
  | fmcrRelock (f : Fields)
  /-- R374: Replaces a route-table entry and re-evaluates held messages. -/
  | fmcrRoute (f : Fields)
  /-- R377: Replaces a multicast-reduce group entry. -/
  | fmcrGroup (f : Fields)
  /-- R383: Reports the states of the fibre groups. -/
  | fmcrQuery (f : Fields)
  /-- R400: Writes a software trace record, and sends a trigger with .trig. -/
  | trc (f : Fields)
  /-- R400: Reads a live slot counter. -/
  | cnt (f : Fields)
  /-- R400: Takes a counter capture. -/
  | cntSnap (f : Fields)
  /-- R400: Reads a word of the latest capture. -/
  | cntSaved (f : Fields)
  /-- R74: The device takes a host queue slot, checks the header and writes STATUS, or stops the queue. -/
  | launchTake (fn q : Nat)
  /-- R77: Every dependence counter of a launch is observed to meet its threshold. -/
  | launchEligible (launch : Nat)
  /-- R82: Phobos writes a bind record that the core accepts or rejects. -/
  | bindRecord (core bank idx : Nat) (words : List Word) (launch : Nat)
  /-- R82: A valid record's block starts its gangs once the bank, time, eligibility, stagger and slots allow. -/
  | blockStart (core bank idx : Nat)
  /-- R90: When every gang has ended and every copy is done, the record is cleared and its units and tiles return. -/
  | blockEnd (core bank idx : Nat)
  /-- R85: A finished launch increments DONE, writes CTIME and STATUS and frees its entries. -/
  | launchComplete (launch : Nat)
  /-- R75: A queue freezes PROG and saves TAIL and PROG to its save area. -/
  | queueSwitchOut (fn q : Nat)
  /-- R75: A queue reloads TAIL from its save area and resumes. -/
  | queueSwitchIn (fn q : Nat)
  /-- R76: A host write of TAIL goes to the live register or to the save area. -/
  | qtailWrite (fn q : Nat) (v : Word)
  /-- R74: A queue configuration write; EN going to 1 sets PROG to TAIL. -/
  | qcfgWrite (fn q : Nat) (v : Word)
  /-- R7: A write to a register without its own row stores per its access codes. -/
  | registerWrite (fn off size : Nat) (v : Word)
  /-- R359: A receiver loses lock on a colour and the pair is rerouted. -/
  | colourFail (src dst colour : Nat)
  /-- R367: The host link leaves the active state and the host becomes unreachable. -/
  | hostLinkDown
  /-- R373: Writes EN, DEVNO or HOSTOK, which restores host reachability only while the link is active. -/
  | fabidWrite (fn : Nat) (v : Word)
  /-- R270: A host snoop makes the bridge release a sector. -/
  | hostSnoop (fn sector : Nat)
  /-- R370: The fabric manager releases an extent, which is revoked after its accesses end. -/
  | poolExtentRelease (fn ext : Nat)
  /-- R370: An extent is granted and its register loaded. -/
  | poolExtentGrant (fn ext : Nat) (v0 v1 : Word)
  /-- R371: The pool directory accepts or rejects a publication. -/
  | poolPublication (fn ext : Nat) (op : Option Nat) (v : Word)
  /-- R373: A peer request arrives and is served, or answered with an error outside EXPWIN. -/
  | peerRequest (fn : Nat) (r : PeerReq)
  /-- R374: A request unanswered for 100 µs ends as unreachable. -/
  | fabricRequestTimeout (op : Nat)
  /-- R374: A live group loses lock, reads down, and its requests end. -/
  | fibreLockLoss (fn group : Nat)
  /-- R376: A far end returns a drain marker. -/
  | markerReturn (fn group : Nat)
  /-- R378: A combined round is written at the member and DELIV increments. -/
  | mcrDelivery (fn group off : Nat) (data : List Byte)
  /-- R379: A member-lost notice discards incomplete rounds and sets LOST. -/
  | memberLost (fn group : Nat)
  /-- R405: A trace trigger arrives, is recorded and may freeze capture. -/
  | triggerReceived (fn dev : Nat) (origin : Word)
  /-- R388: At each 1 µs boundary the loop compares power with the ceiling and adjusts caps or holds. -/
  | ceilingInterval (power : Nat)
  /-- R385: A cluster's clock resumes in its new performance state. -/
  | pstateTransitionDone (cluster : Nat)
  /-- R390: A junction sensor crossing 105 °C or 100 °C sets or clears THOT. -/
  | thermalCap (cluster : Nat) (temp : Nat)
  /-- R394: A quadrant exceeding its trip limit for 50 ns is shut and its state lost. -/
  | overCurrent (quad : Nat)
  /-- R395: Once the lost cores' operations are done, their blocks are relaunched or their launches end with 0x86. -/
  | blockRelaunch (launch : Nat)
  /-- R396: Over-temperature or loss of coolant flow opens the module supply. -/
  | thermalCut (reason chiplet quad : Nat)
  /-- R389: Sets the power ceiling from the function with PIDX 0. -/
  | pwceilWrite (fn : Nat) (v : Word)
  /-- R387: Sets a cluster's requested performance state. -/
  | clpstWrite (fn cluster : Nat) (v : Word)
  /-- R392: Requests the park or unpark of compute dies. -/
  | parkctlWrite (fn : Nat) (v : Word)
  /-- R393: A requested die parks once its banks are empty, its tiles are free or saved and its trace has drained. -/
  | diePark (die : Nat)
  /-- R393: A die comes back up at P7 with empty banks. -/
  | dieUnpark (die : Nat)
  /-- R399: A host write of TAKE captures the slot counters. -/
  | counterTake (fn core : Nat)
  /-- R402: The I/O die moves cluster records to the holding store and writes them to the host ring. -/
  | traceDrain (fn cluster : Nat)
  /-- R403: Configures trace, draining every buffer when EN is written 0. -/
  | trcfgWrite (fn : Nat) (v : Word)
  /-- R408: Holds a path at its next instruction boundary. -/
  | dbgholdHold (fn : Nat) (v : Word)
  /-- R408: Makes a held path ready. -/
  | dbgholdRelease (fn : Nat) (v : Word)
  /-- R410: Stops taking slots and binding blocks in the partition. -/
  | ptcmdQuiesce (fn : Nat)
  /-- R410: QUIESCED sets once every bank is empty and every launch-table entry is free. -/
  | quiesceComplete (fn : Nat)
  /-- R434: Under quiesce, Phobos empties banks whose context has nothing left on the core. -/
  | phobosBankEmpty (core bank : Nat)
  /-- R410: Lifts a quiesce. -/
  | ptcmdRelease (fn : Nat)
  /-- R411: Checks the staged map and starts a reshape or refuses it. -/
  | ptcmdReshape (fn : Nat)
  /-- R412: The affected thirds are cleared and the new map and functions are put in force. -/
  | reshapeComplete
  /-- R413: A correctable error is counted and may retire its instance. -/
  | correctableError (cls inst : Nat)
  /-- R413: An uncorrectable error loses a cluster or faults the partition. -/
  | uncorrectableError (cls inst : Nat)
  /-- R416: GO writes a consistent summary of the device to a host buffer. -/
  | resync (fn : Nat) (v : Word)
  /-- R418: GO writes a signed attestation report. -/
  | attest (fn : Nat) (v : Word) (nonce : List Byte)
  /-- R419: The device verifies firmware, trains links and memory, and presents its functions. -/
  | powerOnReset (b : Board)
  /-- R256: The core's Orrery time reaches the T of a waiting twait, and the path retires. -/
  | twaitExpiry (q : PathRef)
  /-- R253: The covered writes have returned their W and the core's Orrery time reaches the greatest W + 2 ns, so the waiting fence (or tnow.ord, .acq or .... -/
  | fenceRetire (q : PathRef)
  /-- R367: The host link returns to the active state and DPC releases the port, so a later write of HOSTOK = 1 can take effect. -/
  | hostLinkActive
  /-- R365: The host answers a back-invalidate snoop, and the home slice assigns W to the held device write. -/
  | backInvalidateResponse (fn line : Nat) (data : List Byte)
  /-- R441: Every wavelength of a relocking fibre group locks and trains against its far end, the group becomes live, held allowances are released and .... -/
  | fibreGroupLocked (fn group : Nat)
  /-- R376: A drain or relock that has not finished 1 ms after it issued returns status 0x01, and its groups keep their states. -/
  | fmcrTimeout (op : Nat)
  deriving DecidableEq, Repr

end Sys2Proof
end

