-- ==== Sys2Proof/Machine/Numbers.lean ====
section
/-! DEFINITION. Number formats, exact values and the one rounding function (07_numbers R140-R159). -/

namespace Sys2Proof.Machine

open Sys2Proof

/-! ## Types -/

/-- The width of a type's sub-element in bits; 64 where a type has none (R119, R140, R142, R144). -/
def Ty.width : Ty → Nat
  | .i8 | .n8 | .b8 | .e4m3 | .e5m2 | .e3m2 | .e2m3 | .mx8 => 8
  | .i16 | .n16 | .b16 | .f16 | .bf16 => 16
  | .i32 | .n32 | .b32 | .f32 => 32
  | .e2m1 | .mx4 => 4
  | _ => 64

/-- Whether a type is a signed integer. -/
def Ty.signed : Ty → Bool
  | .i8 | .i16 | .i32 | .i64 => true
  | _ => false

/-- Whether a type is a floating format. -/
def Ty.isFloat : Ty → Bool
  | .f64 | .f32 | .f16 | .bf16 | .e4m3 | .e5m2 | .e3m2 | .e2m3 | .e2m1 => true
  | _ => false

/-- The integer value of a sub-element of a type (R140). -/
def Ty.int (t : Ty) (x : Nat) : Int := if Ty.signed t then sext x (Ty.width t) else ((x % 2 ^ Ty.width t : Nat) : Int)
/-- The least value of an integer type. -/
def Ty.least (t : Ty) : Int := if Ty.signed t then -(2 ^ (Ty.width t - 1) : Int) else 0
/-- The greatest value of an integer type. -/
def Ty.most (t : Ty) : Int := if Ty.signed t then 2 ^ (Ty.width t - 1) - 1 else 2 ^ Ty.width t - 1
/-- x clamped to the values of an integer type (Table SC-3). -/
def sat (x : Int) (t : Ty) : Int := if x < Ty.least t then Ty.least t else if Ty.most t < x then Ty.most t else x

/-! ## Floating formats -/

/-- A floating format (Table NF-1): width, fraction bits, bias, the code of the largest finite magnitude, whether it has
infinities, and its canonical NaN. -/
structure Fmt where
  bits : Nat
  m : Nat
  bias : Nat
  top : Nat
  inf : Bool
  nan : Option Nat

/-- The format of a floating type; other types answer .f64 (Table NF-1, R143). -/
def Ty.fmt : Ty → Fmt
  | .f32 => ⟨32, 23, 127, 0x7F7FFFFF, true, some 0x7FC00000⟩
  | .f16 => ⟨16, 10, 15, 0x7BFF, true, some 0x7E00⟩
  | .bf16 => ⟨16, 7, 127, 0x7F7F, true, some 0x7FC0⟩
  | .e5m2 => ⟨8, 2, 15, 0x7B, true, some 0x7E⟩
  | .e4m3 => ⟨8, 3, 7, 0x7E, false, some 0x7F⟩
  | .e3m2 => ⟨6, 2, 3, 0x1F, false, none⟩
  | .e2m3 => ⟨6, 3, 1, 0x1F, false, none⟩
  | .e2m1 => ⟨4, 1, 1, 0x7, false, none⟩
  | _ => ⟨64, 52, 1023, 0x7FEFFFFFFFFFFFFF, true, some 0x7FF8000000000000⟩

/-- An exact value: NaN, an infinity, or a sign with magnitude n × 2^e; zero keeps its sign. -/
inductive Val where
  | nan
  | inf (neg : Bool)
  | fin (neg : Bool) (n : Nat) (e : Int)
  deriving DecidableEq, Repr

/-- The sign of a value; false for NaN. -/
def Val.neg : Val → Bool
  | .nan => false
  | .inf s => s
  | .fin s _ _ => s
/-- Whether a value is NaN. -/
def Val.isNan : Val → Bool
  | .nan => true
  | _ => false
/-- Whether a value is a zero of either sign. -/
def Val.isZero : Val → Bool
  | .fin _ n _ => n == 0
  | _ => false
/-- A value with its sign turned. -/
def Val.negate : Val → Val
  | .nan => .nan
  | .inf s => .inf (!s)
  | .fin s n e => .fin (!s) n e
/-- A value with sign s. -/
def Val.withSign (s : Bool) : Val → Val
  | .nan => .nan
  | .inf _ => .inf s
  | .fin _ n e => .fin s n e
/-- An integer as a value. -/
def Val.ofInt (x : Int) : Val := .fin (decide (x < 0)) x.natAbs 0
/-- The value one. -/
def Val.one : Val := .fin false 1 0

/-- The value of a code of a format (R141-R143); bits above the format's width are ignored (R144). -/
def Fmt.val (f : Fmt) (code : Nat) : Val :=
  let s := code.testBit (f.bits - 1)
  let mag := code % 2 ^ (f.bits - 1)
  if f.top < mag then (if f.inf ∧ mag = f.top + 1 then .inf s else .nan)
  else
    let ef := mag / 2 ^ f.m
    let fr := mag % 2 ^ f.m
    if ef = 0 then .fin s fr (1 - (f.bias : Int) - f.m) else .fin s (2 ^ f.m + fr) ((ef : Int) - f.bias - f.m)

/-- The sign bit of a format over a magnitude code. -/
def Fmt.sign (f : Fmt) (neg : Bool) (mag : Nat) : Nat := if neg then mag + 2 ^ (f.bits - 1) else mag

/-- Exception flags as bits of %fexc (R150). -/
def fxInvalid : Nat := 16
/-- Divide by zero. -/
def fxDivZero : Nat := 8
/-- Overflow. -/
def fxOverflow : Nat := 4
/-- Underflow. -/
def fxUnderflow : Nat := 2
/-- Inexact. -/
def fxInexact : Nat := 1

/-- One step of the stochastic-rounding generator (R152). -/
def srStep (s : Word) : Word := if s.getLsbD 0 then (s >>> 1) ^^^ 0xD800000000000000#64 else s >>> 1
/-- n steps. -/
def srSteps : Nat → Word → Word
  | 0, s => s
  | n + 1, s => srSteps n (srStep s)
/-- The state a lane starts with (R154). -/
def srSeed (seed wid : Word) : Word :=
  let s := seed ^^^ (wid * 0x9E3779B97F4A7C15#64)
  srSteps 64 (if s = 0 then 1 else s)

/-- What a rounding answers: the code, the flags, and the generator state after it. -/
structure Rnd where
  code : Nat
  fx : Nat
  s : Word

/-- Rounds |x| = n × 2^e, n ≠ 0, of sign neg (R148, R153). -/
def Fmt.roundFin (f : Fmt) (mode : Nat) (s : Word) (neg : Bool) (n : Nat) (e : Int) : Rnd :=
  let emin : Int := 1 - (f.bias : Int)
  let ex : Int := (Nat.log2 n : Int) + e
  let qe : Int := (if ex < emin then emin else ex) - f.m
  let k : Nat := (qe - (emin - f.m)).toNat
  let sh : Int := qe - e
  let lo : Nat := if sh ≤ 0 then n <<< (-sh).toNat else n >>> sh.toNat
  let rem : Nat := if sh ≤ 0 then 0 else n % 2 ^ sh.toNat
  let gap : Nat := if sh ≤ 0 then 1 else 2 ^ sh.toNat
  let code (p : Nat) : Nat := k * 2 ^ f.m + p
  if rem = 0 ∧ code lo ≤ f.top then ⟨f.sign neg (code lo), 0, s⟩
  else
    let s' := if mode = 4 ∧ rem ≠ 0 then srSteps 32 s else s
    let up : Bool :=
      if rem = 0 then false
      else match mode with
        | 0 => decide (gap < 2 * rem) || (2 * rem == gap && lo % 2 == 1)
        | 1 => false
        | 2 => neg
        | 3 => !neg
        | _ => decide (s'.toNat % 2 ^ 32 < rem * 2 ^ 32 / gap)
    let pick := if up then lo + 1 else lo
    let c := code pick
    if f.top < c then
      let max := f.sign neg f.top
      let inf := f.sign neg (f.top + 1)
      let r := if !f.inf then max else
        match mode with
        | 0 => inf
        | 1 => max
        | 2 => if neg then inf else max
        | 3 => if neg then max else inf
        | _ => if rem = 0 ∨ up then inf else max
      ⟨r, fxOverflow + fxInexact, s'⟩
    else ⟨f.sign neg c, fxInexact + (if c < 2 ^ f.m then fxUnderflow else 0), s'⟩

/-- round(x, fmt, mode) with the generator state s (R148). -/
def Fmt.round (f : Fmt) (mode : Nat) (s : Word) : Val → Rnd
  | .nan => match f.nan with
    | some c => ⟨c, 0, s⟩
    | none => ⟨0, fxInvalid, s⟩
  | .inf neg => if f.inf then ⟨f.sign neg (f.top + 1), 0, s⟩ else ⟨f.sign neg f.top, fxInvalid, s⟩
  | .fin neg n e => if n = 0 then ⟨f.sign neg 0, 0, s⟩ else f.roundFin mode s neg n e

/-! ## Exact arithmetic -/

/-- An exact value as an integer count of 2^e, for e at or below its own exponent. -/
def Val.scaled (x : Val) (e : Int) : Int :=
  match x with
  | .fin s n k => let v : Int := (n : Int) * (2 ^ (k - e).toNat : Nat); if s then -v else v
  | _ => 0

/-- The least exponent of the finite terms of a list, at most d. -/
def leastExp (d : Int) : List Val → Int
  | [] => d
  | .fin _ _ e :: t => leastExp (if e < d then e else d) t
  | _ :: t => leastExp d t

/-- A product: its value, and whether it is infinity times zero (R157). -/
def Val.mul (x y : Val) : Val × Bool :=
  match x, y with
  | .nan, _ => (.nan, false)
  | _, .nan => (.nan, false)
  | .inf a, .inf b => (.inf (a != b), false)
  | .inf a, .fin b n _ => if n = 0 then (.nan, true) else (.inf (a != b), false)
  | .fin a n _, .inf b => if n = 0 then (.nan, true) else (.inf (a != b), false)
  | .fin a n e, .fin b k g => (.fin (a != b) (n * k) (e + g), false)

/-- The exact sum of terms; bad says that some product among them is infinity times zero. Answers the invalid flag (R157). -/
def exsum (ts : List Val) (nanIn bad : Bool) : Val × Nat :=
  if nanIn then (.nan, 0)
  else if bad then (.nan, fxInvalid)
  else if ts.any Val.isNan then (.nan, 0)
  else
    let pi := ts.any fun t => t == .inf false
    let ni := ts.any fun t => t == .inf true
    if pi && ni then (.nan, fxInvalid)
    else if pi then (.inf false, 0)
    else if ni then (.inf true, 0)
    else
      let e := leastExp 0 ts
      let y := ts.foldl (fun (n : Int) t => n + t.scaled e) 0
      if y = 0 then (.fin (ts.all fun t => t.isZero && t.neg) 0 0, 0) else (.fin (decide (y < 0)) y.natAbs e, 0)

/-- The exact sum of products and addends: the products are given as pairs (R157). NaN among any factor or addend answers NaN
without the flag. -/
def exsumP (prods : List (Val × Val)) (adds : List Val) : Val × Nat :=
  let ps := prods.map fun x => x.1.mul x.2
  exsum (ps.map (·.1) ++ adds) (prods.any (fun x => x.1.isNan || x.2.isNan) || adds.any Val.isNan) (ps.any (·.2))

/-- Compares finite or infinite values: −1, 0 or 1 (zeros of either sign are equal). -/
def Val.cmp (x y : Val) : Int :=
  let rank : Val → Int := fun v => match v with | .inf s => if s then -1 else 1 | _ => 0
  if rank x ≠ rank y then (if rank x < rank y then -1 else 1)
  else if rank x ≠ 0 then 0
  else
    let e := leastExp 0 [x, y]
    let d := x.scaled e - y.scaled e
    if d < 0 then -1 else if d = 0 then 0 else 1

/-- A non-zero quotient of magnitudes a/b as n × 2^e with a sticky last bit, enough for every rounding of a 64-bit format. -/
def divApprox (a b : Nat) : Nat × Int :=
  let sh := 256 + Nat.log2 b
  let q := (a <<< sh) / b
  let st := if (a <<< sh) % b = 0 then 0 else 1
  (2 * q + st, -((sh : Int) + 1))

/-- The integer square root by bisection over n bits. -/
def isqrt (x : Nat) : Nat → Nat → Nat
  | 0, r => r
  | n + 1, r => let c := r + 2 ^ n; isqrt x n (if c * c ≤ x then c else r)

/-- The square root of n × 2^e as m × 2^k with a sticky last bit. -/
def sqrtApprox (n : Nat) (e : Int) : Nat × Int :=
  let odd := e % 2 ≠ 0
  let n' := if odd then 2 * n else n
  let e' := if odd then e - 1 else e
  let x := n' <<< 320
  let r := isqrt x (Nat.log2 x / 2 + 1) 0
  (2 * r + (if r * r = x then 0 else 1), e' / 2 - 161)

/-! ## Conversions to integers -/

/-- Rounds n × 2^e of sign neg to an integer magnitude (R156): the magnitude, whether it changed, and the generator state. -/
def roundInt (mode : Nat) (s : Word) (neg : Bool) (n : Nat) (e : Int) : Nat × Bool × Word :=
  if e ≥ 0 then (n <<< e.toNat, false, s)
  else
    let g := 2 ^ (-e).toNat
    let lo := n / g
    let rem := n % g
    if rem = 0 then (lo, false, s)
    else
      let s' := if mode = 4 then srSteps 32 s else s
      let up : Bool := match mode with
        | 0 => decide (g < 2 * rem) || (2 * rem == g && lo % 2 == 1)
        | 1 => false
        | 2 => neg
        | 3 => !neg
        | _ => decide (s'.toNat % 2 ^ 32 < rem * 2 ^ 32 / g)
      (if up then lo + 1 else lo, true, s')

/-- A value converted to an integer type (R156): the code, flags and generator state. -/
def toInt (t : Ty) (mode : Nat) (s : Word) (x : Val) : Rnd :=
  match x with
  | .nan => ⟨0, fxInvalid, s⟩
  | .inf neg => ⟨trunc (if neg then Ty.least t else Ty.most t) (Ty.width t), fxInvalid, s⟩
  | .fin neg n e =>
    let r := roundInt mode s neg n e
    let v : Int := if neg then -(r.1 : Int) else r.1
    if v < Ty.least t ∨ Ty.most t < v then ⟨trunc (sat v t) (Ty.width t), fxInvalid, r.2.2⟩
    else ⟨trunc v (Ty.width t), if r.2.1 then fxInexact else 0, r.2.2⟩

/-- The value of a sub-element of a floating or integer type. -/
def Ty.val (t : Ty) (x : Nat) : Val := if Ty.isFloat t then (Ty.fmt t).val x else Val.ofInt (Ty.int t x)

end Sys2Proof.Machine
end

