-- ==== Sys2Proof/Machine/Table.lean ====
section
/-! DEFINITION. Sparse tables: lists of (key, value) with strictly rising keys, the one canonical form in which the model
keeps memory, registers and every other numbered thing. -/

namespace Sys2Proof

/-- A sparse table: its keys rise strictly. -/
abbrev Tab (α : Type) := List (Nat × α)

namespace Tab

/-- The entry at key `k`, if listed. -/
def look {α : Type} : Tab α → Nat → Option α
  | [], _ => none
  | (j, v) :: t, k => if j = k then some v else look t k

/-- Whether key `k` is listed. -/
def has {α : Type} (t : Tab α) (k : Nat) : Bool := (look t k).isSome

/-- The value at key `k`, or `d` when it is not listed. -/
def val {α : Type} (d : α) (t : Tab α) (k : Nat) : α := (look t k).getD d

/-- Lists `v` at key `k`, in place of what stood there. -/
def ins {α : Type} : Tab α → Nat → α → Tab α
  | [], k, v => [(k, v)]
  | (j, w) :: t, k, v =>
    if j = k then (k, v) :: t else if k < j then (k, v) :: (j, w) :: t else (j, w) :: ins t k v

/-- Takes key `k` out. -/
def del {α : Type} (t : Tab α) (k : Nat) : Tab α := t.filter fun e => e.1 != k

/-- Sets key `k` to `v` where an unlisted key reads `d`: writing `d` removes the entry. -/
def put {α : Type} [DecidableEq α] (d : α) (t : Tab α) (k : Nat) (v : α) : Tab α :=
  if v = d then del t k else ins t k v

/-- Lists `v` at `k`, or takes `k` out for `none`. -/
def set {α : Type} (t : Tab α) (k : Nat) : Option α → Tab α
  | some v => ins t k v
  | none => del t k

/-- Applies `f` to the entry at `k`, if listed. -/
def upd {α : Type} (t : Tab α) (k : Nat) (f : α → α) : Tab α :=
  match look t k with
  | some v => ins t k (f v)
  | none => t

/-- The keys all lie above `lo` and rise strictly. -/
def above {α : Type} (lo : Nat) : Tab α → Bool
  | [] => true
  | (j, _) :: t => decide (lo < j) && above j t

/-- The canonical form: the keys rise strictly. -/
def wf {α : Type} : Tab α → Bool
  | [] => true
  | (j, _) :: t => above j t

/-- The canonical form of a table whose unlisted keys read `d`: rising keys, and no entry equal to `d`. -/
def wfD {α : Type} [DecidableEq α] (d : α) (t : Tab α) : Bool := wf t && t.all fun e => decide (e.2 ≠ d)

/-- The keys listed. -/
def keys {α : Type} (t : Tab α) : List Nat := t.map (·.1)

/-- The values listed. -/
def vals {α : Type} (t : Tab α) : List α := t.map (·.2)

end Tab

end Sys2Proof
end

