-- ==== Sys2Proof/Machine/State.lean ====
section
/-! DEFINITION. The state of the KM-9 as plain data: package, partitions, contexts, cores, gangs, paths, the operations in
flight, and memory. INVENTORY.md lists each field with the rule that names it. -/

namespace Sys2Proof.Machine

/-! ## Memory -/

/-- The device memory of one partition: bytes by partition-relative address. An unlisted byte reads 0, which is what
bring-up leaves (22_partitions R419). -/
abbrev Memory := Tab Byte

/-- A write that has its W and is not yet visible (13_consistency R248): the bytes from addr on take their values at w.
gk and paths name the gang and the paths for which it is an earlier access; id is its operation. -/
structure PWrite where
  w : Nat
  addr : Nat
  bytes : List Byte
  id : Nat := 0
  gk : Nat := 0
  paths : Nat := 0
  /-- the context whose Tail the write concerns (17_tail R328) -/
  tctx : Option Nat := none
  va : Nat := 0
  /-- a store or atomic of a program (02_formats R48); a slot that the device writes back (06_registers R126) -/
  prog : Bool := false
  spill : Bool := false
  /-- it has no W yet, its line being held by the host (19_links R365) or by a full Tail (17_tail R337); its W is to be later than that of
  every write before it (18_contexts R348) -/
  blocked : Bool := false
  last : Bool := false
  /-- its Tail turned out to be full when its W came (17_tail R337) -/
  full : Bool := false
  deriving DecidableEq, Repr

/-- A translated target (12_handles R239, R223): its space, the address there, and the handle's PEER and TGT. -/
structure Target where
  space : Nat := 0
  pa : Nat := 0
  peer : Nat := 0
  tgt : Nat := 0
  deriving DecidableEq, Repr

/-! ## Operand fields -/

/-- What a register field of a form holds (Table FM-3): nothing, a vector or scalar register, a tile, or a selector or
control value. -/
inductive Kind where
  | none | v | s | t | ctl
  deriving DecidableEq, Repr

/-- The register fields of one encoding of a form, with whether d is read and whether it is written. -/
structure Shape where
  d : Kind := .none
  a : Kind := .none
  b : Kind := .none
  c : Kind := .none
  dR : Bool := false
  dW : Bool := false
  /-- a, and b and c, are read in every lane (09_float R187, R188; 16_matrix R318); how many registers a names (16_matrix R309,
  R319) -/
  wideA : Bool := false
  wide : Bool := false
  aN : Nat := 1
  /-- its register write is not logged in single-step mode (19_links R383) -/
  unlogged : Bool := false
  deriving DecidableEq, Repr

/-- The register fields of an encoding with their classes, its last-use bits, length, flag selection and type. -/
structure Regs where
  d : Nat
  a : Nat
  b : Nat
  c : Nat
  sh : Shape
  lud : Bool
  lua : Bool
  lub : Bool
  luc : Bool
  len : Nat
  fsel : Nat
  deriving DecidableEq, Repr

/-! ## Paths and gangs -/

/-- The clause a path (or a lane of a folded path) is in (02_formats R41), and how many icinv had retired on its core when it was
begun (R48). -/
structure Clause where
  inside : Bool := false
  sync : Nat := 0
  fin : Word := 0
  seta : Nat := 15
  setb : Nat := 15
  yld : Bool := false
  deriving DecidableEq, Repr

/-- STATE of a path-table entry (05_paths Table PA-2). -/
inductive PState where
  | ready | rejoin | parked | stopped | held | barrier
  deriving DecidableEq, Repr

/-- What a parked or barrier-waiting path waits for; it holds the path at the form, unretired. -/
inductive Wait where
  | none
  /-- the completion of operation id, after which the form retires -/
  | op (id : Nat)
  /-- a gwait on the counter at a physical address (04_launch R88) -/
  | gwait (pa : Nat) (thr : Word) (d : Nat)
  /-- a gwait that a write has woken, with the value that met its test -/
  | woken (d : Nat) (v : Word)
  /-- a fence of a scope over the operations below bound (13_consistency R253) -/
  | fence (scope bound : Nat)
  | sfence (bound : Nat)
  | wdone (bound d : Nat)
  | tnow (bound d : Nat)
  | twait (t : Word)
  /-- the release part of an atomic, a gsig or a gcount: the form issues after a fence of this scope -/
  | release (scope bound : Nat)
  /-- an hset of a word of a handle table, which takes place at time t or later (12_handles R238) -/
  | table (pa : Nat) (v : Word) (t : Nat)
  /-- an acquire: the form, whose result is known, retires at time t -/
  | acquire (id : Nat) (t : Nat)
  /-- a redflush, for the partials it sent: those with numbers from lo on, below hi -/
  | redflush (lo hi : Nat)
  /-- for the registers its next instruction reads, which a load is still to write (12_handles R230) -/
  | operands
  /-- for the answer of a unit that comes at time t, after which the form issues again and is done; tab says that it holds a
  waiting-table entry (12_handles R231, R243; 17_tail R333; 18_contexts R349, R358) -/
  | query (t : Nat) (tab : Bool)
  /-- the answer has come -/
  | go (tab : Bool)
  /-- a lane of a folded path at a rejoin (05_paths R114) -/
  | rejoin
  /-- arrived at the block barrier, or at named barrier n -/
  | bar
  | nbar (n : Nat)
  /-- the barrier has opened; the path is released in the wave of cluster cycle t (14_atomics R282) -/
  | released (t : Nat)
  | barw (off : Nat) (phase : Bool)
  /-- a bwait .left (or .upto) with its operand (15_copies R295) -/
  | bwait (left : Bool) (n : Nat) (d : Nat)
  /-- a wmark (17_tail R332): the bound of its covered set; whether its advance request is sent; and the time it waits for, with
  the window it was told -/
  | wmark (bound : Nat) (sent : Bool) (got : Option (Nat × Nat))
  /-- a wcfg.revert or .force that works on context ctx (17_tail R339): its window, its d, and once the walk is over its result
  and the time its last write passes -/
  | revert (ctx k : Nat) (force : Bool) (d : Nat) (res : Option (Word × Nat))
  /-- an fwait on a group for a threshold (19_links R382) -/
  | fwait (thr : Word) (group d : Nat)
  /-- a context command whose work goes on (18_contexts R355-R358): its d, core, context, what it waits for and, for a flip, until
  when -/
  | command (d : Nat) (core ctx : Nat) (op : Nat) (t : Nat)
  /-- an xlat.inv of an address, or an xlat.all, that waits for the accesses that used what it removed: the operations, and those of
  context ctx in the pages (12_handles R243) -/
  | drain (ids : List Nat) (ctx : Nat) (va : Option Nat) (pages : List (Nat × Nat)) (d : Nat)
  /-- a load that failed while its context was swapped out: its trap is raised when the context becomes active (12_handles
  R245) -/
  | failed (cause info fault : Nat) (hit : Lanes)
  deriving DecidableEq, Repr

/-- The trap that stopped a path (18_contexts R345, R346): its cause, the LEVEL of its frame, the address after the
trapping instruction, the resume point, and for cause 0x0A the number of the deadlock. -/
structure TrapRec where
  cause : Nat
  level : Nat
  next : Word
  resume : Word
  group : Nat := 0
  deriving DecidableEq, Repr

/-- A live scalar register of a path: its value and the physical scalar entry that copies may share (06_registers R131). -/
structure SReg where
  v : Word
  phys : Nat
  deriving DecidableEq, Repr

/-- A path-table entry (05_paths Table PA-1) with the clause state, scalar registers and wait of its path. -/
structure Path where
  state : PState := .ready
  folded : Bool := false
  pc : Word := 0
  mask : Lanes := 0
  wmask : Lanes := 0
  depth : Nat := 0
  parent : Nat := 0
  cl : Clause := {}
  age : Nat := 0
  wait : Wait := .none
  /-- the operand fields and bytes of the form the path waits at -/
  form : Option Regs := none
  insn : BitVec 128 := 0
  trap : Option TrapRec := none
  sregs : Tab SReg := []
  /-- the next issue matches no breakpoint (watchpoint) (21_observe R407) -/
  skipBp : Bool := false
  skipWp : Bool := false
  /-- no instruction issues before this cycle of the cluster: the STALL of the clause header (02_formats R38) -/
  stallTo : Nat := 0
  /-- of a folded path that waits at a form or is stopped, the lanes that issued it (R114) -/
  moving : Lanes := 0
  /-- lanes that stand arrived at the barrier form at the PC, where a folded path became an ordinary one among arrived and other
  lanes (R114) -/
  came : Lanes := 0
  /-- a hold was asked for by DBGHOLD (21_observe R408) -/
  holdReq : Bool := false
  deriving DecidableEq, Repr

/-- A fold-array word with the lane's clause state and the form it waits at (05_paths R93, R114). -/
structure FoldLane where
  depth : Nat := 0
  wait : Wait := .none
  wmask : Lanes := 0
  pc : Word := 0
  cl : Clause := {}
  form : Option Regs := none
  insn : BitVec 128 := 0
  deriving DecidableEq, Repr

/-- An entry of a gang's reduction buffer (14_atomics R272). -/
structure RedEntry where
  tgt : Target
  va : Nat := 0
  op : Nat
  ty : Ty
  rank : Option Nat
  part : Tab Word
  launch : Nat := 0
  deriving DecidableEq, Repr

/-- A closed batch of copy commands above the horizon (15_copies R294): which bclose closed it, and its failed commands. -/
structure Batch where
  num : Nat
  failed : Nat := 0
  deriving DecidableEq, Repr

/-- A gang: its path table and what its paths share (05_paths R93). -/
structure Gang where
  part : Nat := 0
  ctx : Nat := 0
  launch : Nat := 0
  block : Nat := 0
  gidx : Nat := 0
  paths : Tab Path := []
  exited : Lanes := 0
  fold : Bool := false
  foldArr : Tab FoldLane := []
  nest : Tab Nat := []
  vregs : Tab Word := []
  fexc : Tab Nat := []
  srng : Tab Word := []
  /-- work identifier of lane 0 (04_launch R66) -/
  wid : Word := 0
  tag : Word := 0
  /-- greatest W returned since the gang started (13_consistency R255) -/
  maxW : Nat := 0
  /-- recently returned Ws, by operation (13_consistency R253) -/
  rets : Tab Nat := []
  reds : List RedEntry := []
  /-- copy batches: how many were closed, the failed commands of the open one, the closed ones above the horizon, the horizon
  and the failed commands no bwait has reported (15_copies R294, R295) -/
  closed : Nat := 0
  openFailed : Nat := 0
  batches : List Batch := []
  horizon : Nat := 0
  unrep : Nat := 0
  deriving DecidableEq, Repr

/-! ## Blocks, launches, contexts -/

/-- A barrier of a block (14_atomics R279, R280): the lanes (32 × gang index + lane) that arrived in the phase, its declared
count, its kept reductions and its members. -/
structure Barrier where
  arrived : List Nat := []
  declared : Nat := 0
  reduced : Nat := 0
  /-- scratchpad copies and cluster accesses that arrived lanes issued before (13_consistency R258) -/
  after : List Nat := []
  members : List Nat := []
  deriving DecidableEq, Repr

/-- A block in place on a core (04_launch R67, R81; 11_scratchpad R206). -/
structure Block where
  part : Nat := 0
  core : Nat := 0
  ctx : Nat := 0
  launch : Nat := 0
  blk : Word := 0
  slots : List Nat := []
  ext1 : Nat := 1
  spb : Nat := 0
  spn : Nat := 0
  accb : Nat := 0
  accn : Nat := 0
  started : Bool := false
  /-- lanes gone from the block barrier's expected count of the current and of later phases (14_atomics R280) -/
  gone : List Nat := []
  goneNext : List Nat := []
  bar : Barrier := {}
  nbars : Tab Barrier := []
  /-- scratchpad bytes by unrotated offset; unlisted bytes are 0 -/
  scr : Tab Byte := []
  deriving DecidableEq, Repr

/-- Where a launch came from: a queue and slot of a function, or the device queue with the number it took. -/
inductive LaunchSrc where
  | host (q slot : Nat)
  | device (num : Nat)
  deriving DecidableEq, Repr

/-- An accepted launch (04_launch R69-R85): its header as read at acceptance and its progress. -/
structure Launch where
  part : Nat
  ctx : Nat
  src : LaunchSrc
  addr : Word
  hdr : List Nat
  doneAt : Option Nat
  /-- the physical address of DONE, while a full Tail holds its increment (17_tail R337) -/
  donePa : Nat := 0
  deps : List (Nat × Nat)
  eligible : Bool := false
  /-- blocks bound, and ended, by block word -/
  bound : List Nat := []
  ended : List Nat := []
  /-- last start on each cluster (R79), keyed 2 × cluster + bank -/
  starts : Tab Nat := []
  /-- the slot of a host launch, translated; the time before which no block may start (17_tail R330); the W of its DONE
  increment, once it has one -/
  slotPa : Nat := 0
  floor : Nat := 0
  doneW : Option Nat := none
  /-- its DONE increment is held by a full Tail (17_tail R337) -/
  doneHeld : Bool := false
  deriving DecidableEq, Repr

/-- A chain slot of a bank (15_copies R296-R301): the block that started it, the address and words of its command block, SIG, its
state (0 ended, 1 running, 2 waiting, 3 error) and ERR, whether .stop was asked, and the operation it waits for, which is its
test's load or its OP. -/
structure Chain where
  block : Nat := 0
  launch : Nat := 0
  addr : Nat := 0
  words : List Nat := []
  sig : Word := 0
  state : Nat := 0
  err : Nat := 0
  stop : Bool := false
  op : Option Nat := none
  test : Bool := false
  deriving DecidableEq, Repr

/-- Where the image of a context on a core is: not on the core, in bank 0 or 1, or in the save area. -/
inductive Place where
  | away | bank (b : Nat) | saved
  deriving DecidableEq, Repr, Inhabited

/-- A context on a core (18_contexts R350-R352; 06_registers R130; 04_launch R81). -/
structure Image where
  place : Place := .away
  splBase : Nat := 0
  splSlots : Nat := 4352
  reloads : Nat := 0
  evicts : Nat := 0
  /-- registers that lie in the spill region, with their slots: vector registers by 4096 × gang slot + register, scalar groups above
  2^20; copies of a scalar group made at a split share a slot (06_registers R127, R131) -/
  spilled : Tab Nat := []
  csave : Nat := 0
  /-- what stood in the device-state part of the save area when the context was last written there (18_contexts R352) -/
  area : Tab Byte := []
  /-- bind records by index: the four words and the launch -/
  records : Tab (List Nat × Nat) := []
  /-- launch table: launch of each entry -/
  ltable : Tab Nat := []
  chains : Tab Chain := []
  deriving DecidableEq, Repr, Inhabited

/-- What a single-stepped instruction has written or changed so far, as the values that stood before it (17_tail R334, R335): its
gang and path, its PC and window; vector lanes (32 × register + lane), scalars, %fexc and %srng lanes, the gang's control state,
bytes of blocks (2^20 × block + offset) and tile elements; none where a register was not live; and whether it has retired but for
its completion. [DEDUCED, unsafe: log 50] -/
structure StepLog where
  fin : Bool := false
  /-- the number from which the operations it started on are numbered; its clause -/
  since : Nat := 0
  cl : Clause := {}
  gk : Nat
  path : Nat
  pc : Word
  window : Nat
  v : Tab (Option Word) := []
  s : Tab (Option Word) := []
  fexc : Tab Nat := []
  srng : Tab Word := []
  ctl : Option Gang := none
  scr : Tab Byte := []
  tiles : Tab (BitVec 32) := []
  deriving DecidableEq, Repr

/-- One retained Tail record (17_tail R326-R328, R334): its window, the line or address it concerns, its sequence number and its
size; a step record keeps what its instruction changed (R335). -/
structure TailRec where
  window : Nat
  addr : Nat
  seq : Nat
  size : Nat
  log : Option StepLog := none
  deriving DecidableEq, Repr

/-- Who asked for a window advance (17_tail R330): a wmark path, a launch that became eligible, a single-stepped path, or a
source that waits for no answer. -/
inductive AdvReq where
  | path (gk p : Nat)
  | launch (id : Nat)
  | step
  | plain
  deriving DecidableEq, Repr

/-- The Tail of a context (17_tail R324-R340). -/
structure TailSt where
  handle : Nat := 0
  period : Nat := 0
  policy : Nat := 0
  launch : Bool := false
  en : Bool := false
  cur : Nat := 0
  old : Nat := 0
  events : Nat := 0
  err : Bool := false
  step : Bool := false
  stepGang : Nat := 0
  stepPath : Nat := 0
  /-- single-stepping: over until TLSTEP is written again; the advance is asked for; the time from which the next instruction may
  issue; the instruction under way -/
  stepOver : Bool := false
  stepAsked : Bool := false
  stepAt : Option Nat := none
  stepLog : Option StepLog := none
  /-- advance requests on their way to the window control -/
  reqs : List AdvReq := []
  /-- boundaries B(k), the announced boundary, the timer base, irreversible records per window -/
  bounds : Tab Nat := []
  announced : Option Nat := none
  timer : Nat := 0
  irrev : Tab Nat := []
  /-- the region: its length and pinned pages (offset, bytes, address), each share's records, oldest first (the irreversible
  area under 2^32, the step area under 2^32 + 1), and each share's next sequence number (of the step area, the next offset) -/
  len : Nat := 0
  pins : List (Nat × Nat × Nat) := []
  shares : Tab (List TailRec) := []
  seqs : Tab Nat := []
  /-- a revert is in progress: no advance request is taken (17_tail R339) -/
  busy : Bool := false
  deriving DecidableEq, Repr

/-- STATE of a context (18_contexts R344). -/
inductive CState where
  | live | stopping | stopped | killing
  deriving DecidableEq, Repr

/-- A trap ring (18_contexts R348). -/
structure Ring where
  base : Nat := 0
  en : Bool := false
  log2n : Nat := 4
  posted : Nat := 0
  esc : Nat := 0
  deriving DecidableEq, Repr

/-- A live context of a partition. -/
structure Context where
  state : CState := .live
  htbase : Nat := 0
  ptroot : Nat := 0
  ring : Ring := {}
  tail : TailSt := {}
  /-- the time at which the last steps of its kill take place (18_contexts R357) -/
  killAt : Nat := 0
  /-- the next number of the device queue's sequence (04_launch R87) -/
  nextNum : Nat := 1
  deriving DecidableEq, Repr

/-! ## Operations in flight -/

/-- One lane's element of a global access: the lane, its target, and how far it has come (0 not performed, 1 performed or
arrived, 2 failed, 3 its W returned or its link reported it done, 4 arrived and waiting for the host's snoop response, since w, 5 held by a full Tail).
va is its device virtual address. For a load val is what it read; for a store it is what it writes. -/
structure Elem where
  lane : Nat
  tgt : Target
  va : Nat := 0
  val : Word := 0
  st : Nat := 0
  w : Nat := 0
  /-- a load through a lease-policy handle (12_handles R224) -/
  lease : Bool := false
  /-- how many lower lanes of the store write the same bytes, which this one supplies (12_handles R232) -/
  more : Nat := 0
  deriving DecidableEq, Repr

/-- Where an operation's result goes: nowhere, the lanes m of a vector register, or a scalar register of the paths of a mask
(06_registers R131). rel says which of them are released once it has landed (R123); a later write of a lane (or path) takes
it out (12_handles R230). -/
inductive Dest where
  | none
  | vec (r : Nat) (m rel : Lanes)
  | scal (r : Nat) (paths rel : Nat)
  deriving DecidableEq, Repr

/-- A piece of a copy command (15_copies R289, R290): its row (or lane), target, device virtual address, unrotated scratchpad
offset and length; st is 5 while a full Tail holds its write at the target's pa, 6 while it waits for a host sector there; data is what was
read of an inward one. -/
structure Piece where
  row : Nat
  tgt : Target
  va : Nat
  y : Nat
  n : Nat
  st : Nat := 0
  data : Option (List Byte) := none
  deriving DecidableEq, Repr

/-- A copy-engine command (15_copies R286-R293): the block whose scratchpad it uses, its direction and rotation, its object, the pieces still to be moved, the rows that wrote bytes several rows write, source bytes
already taken, global bytes whose W has not passed, performed bytes not yet counted, its failure and its batch. -/
structure Copy where
  blk : Nat
  out : Bool
  rot : Nat
  obj : Option Nat
  todo : List Piece
  overlap : Bool
  wrote : Tab Nat := []
  cap : Tab Byte := []
  landing : List (Nat × Nat) := []
  owed : Nat := 0
  failed : Option Nat := none
  batch : Nat := 0
  /-- lines of each row that were dropped (19_links R368) -/
  dropped : List (Nat × Nat) := []
  /-- when it was queued (19_links R374) -/
  since : Option Nat := none
  deriving DecidableEq, Repr

/-- A matrix request (16_matrix R302-R312): form (0 mma, 1 mmas, 2 mmab), type, KG, .z and .bt, its lanes, the descriptors, A in
registers (keyed 32 × register + lane), block, object, class and arrival in core cycles; the quarters still to be granted, as
(q, physical tile), and the results granted but not applied, by tile; source bytes already taken; bytes read and not counted. -/
structure Pass where
  form : Nat
  ty : Ty
  kg : Nat
  z : Bool
  bt : Bool
  act : Lanes
  da : Word
  db : Word
  dc : Word := 0
  areg : Option (Tab Word) := none
  blk : Nat
  obj : Option Nat
  prio : Nat
  arrive : Nat
  todo : List (Nat × Nat)
  ready : List (Nat × List (Nat × BitVec 32)) := []
  cap : Tab Byte := []
  owed : Nat := 0
  deriving DecidableEq, Repr

/-- What a waiting accumulator form does to its tiles (16_matrix R317-R319); lists are by lane or column. -/
inductive TileOp where
  | azero
  | arel
  | ascale (mode : Nat) (act : Lanes) (r s u : List Nat)
  | aread (d : Nat) (ty : Ty) (mode : Nat) (act : Lanes)
  | awrite (ty : Ty) (act : Lanes) (vals : List (List Nat))
  deriving DecidableEq, Repr

/-- An accumulator transfer (16_matrix R320, R321): its direction, physical tile, physical address with .phys, type, mode,
descriptor, block, object, the pieces still to be moved (words of 4 bytes, or lines), the source bytes already taken, the bytes of the tile's image, whether it
has begun, global writes whose W has not passed, and bytes performed but not counted. -/
structure Transfer where
  load : Bool
  tile : Nat
  phys : Option Nat := none
  ty : Ty
  mode : Nat
  desc : Word
  blk : Nat
  obj : Option Nat
  todo : List Nat
  cap : Tab Byte := []
  img : Tab Byte := []
  begun : Bool := false
  w : Nat := 0
  owed : Nat := 0
  deriving DecidableEq, Repr

/-- What an operation does. -/
inductive OpKind where
  /-- load or gather of elements of a type -/
  | load (es : List Elem) (ty : Ty)
  /-- store or scatter -/
  | store (es : List Elem) (bytes : Nat)
  /-- atom, cas: operator (10 for cas), operands and comparands by lane, acquire flag, whether old values go nowhere -/
  | atomic (es : List Elem) (op : Nat) (ty : Ty) (cmp : Tab Word) (acq nr : Bool)
  /-- gsig and gcount -/
  | counter (e : Elem) (add : Bool)
  /-- a drained partial (14_atomics R273) -/
  | partialSum (e : Elem) (op : Nat) (ty : Ty) (rank : Option Nat) (held : Bool)
  /-- a launch issued by glaunch, on its way to the lead Phobos -/
  | glaunch (hdr : List Nat) (addr : Word)
  /-- hflush: the target ranges it covers, and the spans skipped -/
  | hflush (spans : List (Target × Nat)) (skipped : Nat)
  /-- cluster loads and stores (11_scratchpad R214): what is still to be performed, by lane, rank and rotated offset, and what
  was read -/
  | ldc (todo : List (Nat × Nat × Nat)) (got : Tab Word) (ty : Ty)
  | stc (todo : List (Nat × Nat × Nat × Word)) (bytes : Nat)
  /-- scopy and sfill in a block (11_scratchpad R216-R218): source offset and rotation or fill pattern, destination, length,
  the source bytes already taken and the destination words already written -/
  | scopy (blk : Nat) (src : Option (Nat × Nat)) (fill : Word) (dst kd len : Nat) (cap : Tab Byte) (wrote : List Nat)
  /-- a copy-engine command (15_copies R286) -/
  | copy (c : Copy)
  /-- a matrix request (16_matrix R303) -/
  | pass (m : Pass)
  /-- an accumulator form that waits for its place in the order of its tiles (16_matrix R306) -/
  | tile (ts : List Nat) (k : TileOp)
  /-- an accumulator transfer (16_matrix R320) -/
  | atrans (x : Transfer)
  /-- an update of a barrier object by n bytes due at time t (14_atomics R284) -/
  | update (blk obj n t : Nat)
  /-- fsig (19_links R381) -/
  | fsig (e : Elem)
  /-- fmcr.drain (0) or .relock (2) (19_links R376): its groups, those whose markers or locks are still to come, and when it issued -/
  | fmcr (op : Nat) (groups left : List Nat) (start : Nat)
  deriving DecidableEq, Repr

/-- An operation that is outstanding: who issued it, for which paths it is an earlier access, the flags it returns, whether
it counts in its launch's outstanding counter, its result's place, and the operations it must follow. -/
structure Op where
  id : Nat
  part : Nat := 0
  core : Nat := 0
  ctx : Nat := 0
  gk : Nat := 0
  paths : Nat := 0
  flags : List Nat := []
  counts : Bool := false
  entry : Bool := false
  launch : Nat := 0
  block : Nat := 0
  dst : Dest := .none
  after : List Nat := []
  held : Bool := false
  /-- the chain slot that waits for it (15_copies R297) -/
  chain : Option Nat := none
  /-- the path that issued it, with its gang identifier and TAG (17_tail R337) -/
  path : Nat := 0
  gang : Nat := 0
  tag : Word := 0
  kind : OpKind
  deriving DecidableEq, Repr

/-! ## Cores and clusters -/

/-- State of a bank (18_contexts R350). -/
inductive BState where
  | empty | loaded | draining | spilling | loading
  deriving DecidableEq, Repr

/-- An accumulator tag (16_matrix R314). -/
structure AccTag where
  state : Nat := 0
  fresh : Bool := false
  owner : Nat := 0
  deriving DecidableEq, Repr

/-- An icinv that has retired on a core (02_formats R48): how many writes of the partition had landed, and the operations of each
gang that a fence of it had covered. -/
structure Sync where
  landed : Nat
  fenced : Tab Nat
  deriving DecidableEq, Repr

/-- A trap frame held for want of room: the ring it goes to (none: the supervisor ring), its words. -/
structure HeldFrame where
  ctx : Option Nat
  words : List Nat
  deriving DecidableEq, Repr

/-- A core (18_contexts R350; 11_scratchpad R208; 12_handles R231; 14_atomics R277; 16_matrix R323; 21_observe R399). -/
structure Core where
  ctx0 : Option Nat := none
  ctx1 : Option Nat := none
  st0 : BState := .empty
  st1 : BState := .empty
  act : Nat := 0
  swaps : Nat := 0
  /-- a flip that began: the cycle of the cluster at which it ends -/
  flipAt : Option Nat := none
  /-- the inactive bank is being spilled or loaded: the time at which that is over; and a cswap.out waits for the bank's drain
  (18_contexts R355) -/
  moveAt : Option Nat := none
  outPend : Bool := false
  xchg : Nat := 0
  /-- owner bank of the contents of each scratchpad unit (11_scratchpad R205) -/
  units : Tab Nat := []
  wtStalls : Nat := 0
  wtPeak : Nat := 0
  ordErr : Nat := 0
  implicit : Nat := 0
  objErr : Nat := 0
  passes : Nat := 0
  fused : Nat := 0
  acctag : Tab AccTag := []
  /-- tile words, keyed 1,024 × tile + element -/
  tiles : Tab (BitVec 32) := []
  /-- the icinvs that have retired, the newest first; and for each instruction word, by its address / 4, up to which landed write
  the core has seen it (02_formats R48, R49) -/
  syncs : List Sync := []
  seen : Tab Nat := []
  frames : List HeldFrame := []
  /-- slot counters 1-9 but IDLE, which is what remains of TOTAL, and the latest capture, with its time under 10 (21_observe R399);
  the slots in which each scheduler issued that are not counted yet -/
  counts : Tab Nat := []
  captured : Tab Nat := []
  took : Tab Nat := []
  rejects : Nat := 0
  /-- writes of accumulator tags that wait for their tile: tile and value (16_matrix R314) -/
  tagWrites : List (Nat × Nat) := []
  deriving DecidableEq, Repr

/-- A cluster (20_power R385-R391). -/
structure Cluster where
  trans : Nat := 0
  fail : Bool := false
  cur : Nat := 7
  req : Nat := 0
  thot : Bool := false
  cap : Nat := 0
  /-- the transition under way: its state, and when the new clock runs; the clock is held by the loop until holdTo (20_power R385,
  R388) -/
  goal : Option (Nat × Nat) := none
  holdTo : Nat := 0
  slope : Nat := 0
  cycles : Nat := 0
  cycleAt : Nat := 0
  ramp : Nat := 0
  lastPass : Nat := 0
  shut : Bool := false
  /-- no block is bound on it: it retires once its banks are empty (22_partitions R413) -/
  doomed : Bool := false
  retired : Bool := false
  /-- time spent parked or failed, and since when it is (21_observe R398) -/
  off : Nat := 0
  offSince : Option Nat := none
  seq : Nat := 0
  lost : Nat := 0
  trace : List (List Nat) := []
  deriving DecidableEq, Repr

/-! ## Partitions -/

/-- A host queue (04_launch R73). -/
structure Queue where
  base : Nat := 0
  ctx : Nat := 0
  log2n : Nat := 4
  en : Bool := false
  tail : Nat := 0
  prog : Nat := 0
  ovf : Bool := false
  state : Nat := 0
  xerr : Bool := false
  save : Nat := 0
  deriving DecidableEq, Repr

/-- A pool extent (19_links R369). -/
structure PoolExt where
  base : Nat := 0
  state : Nat := 0
  shared : Bool := false
  gen : Nat := 0
  size : Nat := 0
  /-- the publication port (R371): current sequence and tag, and the outcome of the partition's own last publication -/
  seq : Nat := 0
  tag : Nat := 0
  result : Option (Nat × Nat) := none
  deriving DecidableEq, Repr

/-- A fibre group: live 0, drained 1, dark 2 or down 3 (19_links R376). -/
structure Group where
  state : Nat := 0
  deriving DecidableEq, Repr

/-- What an aligned 4-byte word held before a write that changed it (02_formats R49): the number of that write among those that
have landed, and its operation and gang, 0 for a write of an engine or of the host. -/
structure WordVer where
  old : BitVec 32
  seq : Nat
  gk : Nat
  id : Nat
  deriving DecidableEq, Repr

/-- A cached translation (12_handles R241): the leaf's fields. -/
structure TEntry where
  leaf : Nat
  level : Nat
  deriving DecidableEq, Repr

/-- The trace unit of a partition (21_observe R402, R403). -/
structure Trace where
  base : Nat := 0
  log2n : Nat := 0
  en : Bool := false
  prod : Nat := 0
  cons : Nat := 0
  frozen : Bool := false
  arm : Bool := false
  post : Nat := 0
  dst : Tab Nat := []
  cutoff : Nat := 0
  gateLost : Nat := 0
  ovfLost : Nat := 0
  /-- records of the I/O die dropped since its last one (21_observe R402) -/
  ioLost : Nat := 0
  holding : List (List Nat) := []
  /-- the cluster from which the I/O die goes on draining (R402) -/
  turn : Nat := 0
  /-- triggers held while the groups they go by are dark: device and ORIGIN (R405; 19_links R374) -/
  triggers : List (Nat × Nat) := []
  deriving DecidableEq, Repr

/-- The host, fabric and pool links of a partition's function (19_links R363-R383). -/
structure LinkSt where
  active : Bool := false
  cxl : Bool := false
  winerr : Nat := 0
  dropHost : Nat := 0
  dropPeer : Nat := 0
  dropPool : Nat := 0
  dropMcr : Nat := 0
  fgroups : Nat := 0
  fen : Bool := false
  hostok : Bool := false
  /-- the host is reachable (19_links R367) -/
  hostReach : Bool := false
  devno : Nat := 0
  expSize : Nat := 0
  expBase : Nat := 0
  pool : Tab PoolExt := []
  routes : Tab Nat := []
  mcr : Tab Nat := []
  /-- DELIV of each group, and the combined writes still to be counted: group and number of the write (19_links R378) -/
  deliv : Tab Nat := []
  delivAt : List (Nat × Nat) := []
  groups : Tab Group := []
  /-- the groups that an fmcr.relock under way is relocking (19_links R374) -/
  relock : List Nat := []
  /-- sectors the bridge holds, by host address / 64: state 1 exclusive, 2 modified, and the time of the last use (14_atomics
  R269, R270); their bytes stand in memory from address 2^60 + host address on -/
  sectors : Tab (Nat × Nat) := []
  /-- device lines the host holds through CXL.mem (19_links R365) -/
  hostLines : List Nat := []
  deriving DecidableEq, Repr

/-- The fields of DBGHOLD (21_observe R408). -/
structure DbgHold where
  ctx : Nat := 0
  op : Nat := 0
  status : Nat := 0
  path : Nat := 0
  gang : Nat := 0
  deriving DecidableEq, Repr

/-- A partition and its function. -/
structure Part where
  present : Bool := false
  stepping : Nat := 0
  sup : Nat := 0xFFFF
  sring : Ring := {}
  contexts : Tab Context := []
  queues : Tab Queue := []
  ptop : Nat := 0
  ptstatus : Nat := 0
  quiesced : Bool := false
  quiesce : Bool := false
  stage : Nat := 0
  gen : Nat := 0
  link : LinkSt := {}
  trace : Trace := {}
  bps : Tab Nat := []
  wps : Tab Nat := []
  /-- words of the MSI-X table that differ from the reset value of PCI Express (19_links R363) -/
  msix : Tab Nat := []
  /-- its pending-bit array, and the vectors to be signalled behind the STATUS words at their addresses (19_links R363) -/
  pba : Nat := 0
  vectors : List (Nat × Nat) := []
  hold : DbgHold := {}
  /-- the partition has faulted (22_partitions R415) -/
  faulted : Bool := false
  /-- writes that have landed; the earlier contents of each 4-byte word they changed, by its address / 4, the newest first; and by
  gang the operations that a fence of device or system scope of it has covered (02_formats R48, R49) -/
  landed : Nat := 0
  hist : Tab (List WordVer) := []
  fenced : Tab Nat := []
  resyncAddr : Nat := 0
  resyncs : Nat := 0
  attestAddr : Nat := 0
  /-- writes with their W that are not visible yet, in order of W per line -/
  pend : List PWrite := []
  /-- the greatest W of a posted write of the function so far, of those without Relaxed Ordering and of all (13_consistency R261) -/
  hostW : Nat := 0
  hostAll : Nat := 0
  /-- leases: end of the latest lease of each line (13_consistency R248) -/
  leases : Tab Nat := []
  /-- arm words of lines (14_atomics R275) and held partials -/
  arms : Tab Nat := []
  /-- translations in use, keyed ctx × 2^41 + va / 2^16: every successful walk of the page since the last invalidation, the
  newest first (12_handles R241, R242) -/
  tcache : Tab (List TEntry) := []
  deriving DecidableEq, Repr

/-! ## The package -/

/-- Correctable-error history and retired instances (22_partitions R413, R414). -/
structure Health where
  win : Nat := 0
  tclu : Nat := 0
  tslc : Nat := 0
  tcol : Nat := 0
  tfib : Nat := 0
  events : List (Nat × Nat × Nat) := []
  retired : List (Nat × Nat) := []
  retiredCount : Nat := 0
  fib : Tab Nat := []
  deriving DecidableEq, Repr

/-- The power-ceiling loop (20_power R388, R389). -/
structure Ceiling where
  code : Nat := 0
  staged : Option Nat := none
  settle : Nat := 0
  excess : Nat := 0
  pmeas : Nat := 0
  /-- P of the intervals since the settling span, at most 1,000; the hold of each interval in ns; the last boundary -/
  history : List Nat := []
  hold : Nat := 0
  last : Nat := 0
  deriving DecidableEq, Repr

/-- Registers of the package. -/
structure Pkg where
  powered : Bool := true
  up : Bool := false
  /-- thirds held by each partition (01_package R16) -/
  map : List Nat := []
  ceiling : Ceiling := {}
  ocEvents : Nat := 0
  ocShut : Nat := 0
  cutValid : Bool := false
  cutReason : Nat := 0
  cutChiplet : Nat := 0
  cutQuad : Nat := 0
  cuts : Nat := 0
  cutTime : Nat := 0
  /-- trace records each cluster lost to a thermal cut, for which no gap record is written yet (21_observe R404) -/
  gaps : Tab Nat := []
  /-- the supervisor context firmware names for each partition index (18_contexts R342) -/
  supctx : List Nat := []
  parkReq : Nat := 0
  parked : Nat := 0
  /-- ORRT of an ordered pair, keyed 32 × source + destination (19_links R360) -/
  orrt : Tab Nat := []
  health : Health := {}
  firmware : List Nat := []
  genuine : Bool := false
  /-- a reshape in progress: the function that asked and the staged map -/
  reshape : Option (Nat × List Nat) := none
  /-- PTBND of another partition already shows the new map (26_prog_merge R435) -/
  mapShown : Bool := false
  /-- blocks lost to over-current, as (launch, block word) (20_power R395) -/
  lostBlocks : List (Nat × Nat) := []
  deriving DecidableEq, Repr

/-- A message that left the package: kind, partition and its words (host writes, peer and pool writes, interrupts). -/
structure Sent where
  kind : Nat
  part : Nat
  words : List Nat
  deriving DecidableEq, Repr

/-- Everything but memory, time and the agenda. -/
structure Hw where
  pkg : Pkg := {}
  parts : Tab Part := []
  cores : Tab Core := []
  clusters : Tab Cluster := []
  images : Tab Image := []
  gangs : Tab Gang := []
  blocks : Tab Block := []
  launches : Tab Launch := []
  ops : List Op := []
  nextId : Nat := 1
  free : Nat := 0
  phys : Nat := 0
  sent : List Sent := []
  deriving DecidableEq, Repr

/-! ## Turns and the state -/

/-- What moves next: an issue opportunity of a scheduler, one path, an event, or a swap command of Phobos firmware (0 flip, 1 out, 2 in)
for a core and, with in, a context (18_contexts R355). -/
inductive What where
  | slot (core sched : Nat)
  | issue (q : PathRef)
  | event (i : Instr)
  | phobos (op core ctx : Nat)
  deriving DecidableEq, Repr, Inhabited

/-- A turn: how much Orrery time passes first, and what then moves. -/
structure Turn where
  dt : Nat
  what : What
  deriving DecidableEq, Repr, Inhabited

/-- The issue in hand: the path that issues, the bytes of its instruction and their number. -/
structure Cursor where
  q : PathRef := ⟨0, 0, 0, 0⟩
  len : Nat := 0
  insn : BitVec 128 := 0
  deriving DecidableEq, Repr

/-- The whole machine. [DESIGN CHOICE, unsafe: log 4] -/
structure State where
  time : Nat
  agenda : List Turn
  turns : Nat
  cur : Cursor
  mem : Tab Memory
  hw : Hw
  deriving DecidableEq, Repr

/-- Why a step stops. No step of this machine stops with a fault: what the spec calls an error is a trap, a register or a message,
and while the module has no supply a turn changes nothing (20_power R396). -/
inductive Fault where
  deriving DecidableEq, Repr

/-- Why an instruction has no meaning here. -/
inductive Refusal where
  /-- An instruction whose meaning this model does not give yet; raised by exec's refused arms. Safe: the run stops. -/
  | notModelled (mnemonic : String)
  deriving DecidableEq, Repr

/-- An outcome of this machine. -/
abbrev Out := Host.Outcome State Fault Refusal

/-- The machine right after package power-on reset, before bring-up: every field at the value the spec states for reset,
and where it states none at the value the assumption log names (22_partitions R419, 00_scope R8). [DESIGN CHOICE, unsafe: log 1] -/
def State.reset : State :=
  { time := 0, agenda := [], turns := 0, cur := {}, mem := [], hw := {} }

end Sys2Proof.Machine
end

