-- ==== Sys2Proof/Machine/Forms.lean ====
section
/-! DEFINITION. What each instruction form admits: its major and minor opcode, lengths, types, classes, options, the class
of each register field, and the bits it assigns (02_formats R26-R35, R44, R50, R51; the encoding tables of each chapter). -/

namespace Sys2Proof.Machine

/-- A form of a W, L or X major: what Table FM-6 and the form's description admit. -/
structure Form where
  maj : Nat
  min : Nat
  /-- lengths admitted: 1 W, 2 L, 3 X -/
  lens : List Nat
  tys : List Ty
  classes : List Nat
  opts : List Nat
  sh : Fields → Shape
  /-- bits of IMM the form assigns -/
  imm : Nat := 0
  /-- bits of EXT the form assigns, beside bit 0 -/
  ext : Nat := 0
  /-- further combinations that raise cause 0x01 -/
  ill : Fields → Bool := fun _ => false
  /-- further combinations that raise cause 0x02 -/
  rsv : Fields → Bool := fun _ => false
  /-- flag-setting (R44) -/
  fs : Bool := false
  /-- restricted to the supervisor (R51) -/
  sup : Bool := false
  con : Fields → Instr

/-- A form of an S major (R34). STYPE is admitted only where sty says so; d and a hold what their kinds say. -/
structure SForm where
  maj : Nat
  min : Nat
  d : Kind := .none
  a : Kind := .none
  sty : Bool := false
  ill : SFields → Bool := fun _ => false
  dR : Bool := false
  dW : Bool := false
  con : SFields → Instr

end Sys2Proof.Machine

namespace Sys2Proof

open Sys2Proof.Machine

/-! ## Fields of the tail -/

/-- Whether the encoding is L. -/
def Fields.isL (f : Fields) : Bool := match f.tail with | .l _ => true | _ => false
/-- Whether the encoding is X. -/
def Fields.isX (f : Fields) : Bool := match f.tail with | .x .. => true | _ => false
/-- Whether the encoding is W. -/
def Fields.isW (f : Fields) : Bool := match f.tail with | .w => true | _ => false
/-- The literal of an L encoding, else 0. -/
def Fields.lit (f : Fields) : Nat := match f.tail with | .l v => v.toNat | _ => 0
/-- Register field c of an X encoding, else 0. -/
def Fields.c (f : Fields) : Nat := match f.tail with | .x c _ _ _ => c.toNat | _ => 0
/-- LUC of an X encoding. -/
def Fields.luc (f : Fields) : Bool := match f.tail with | .x _ u _ _ => u | _ => false
/-- IMM of an X encoding, else 0. -/
def Fields.imm (f : Fields) : Nat := match f.tail with | .x _ _ i _ => i.toNat | _ => 0
/-- EXT of an X encoding, else 0. -/
def Fields.ext (f : Fields) : Nat := match f.tail with | .x _ _ _ e => e.toNat | _ => 0
/-- The length code: 1 W, 2 L, 3 X (Table FM-1). -/
def Fields.lenCode (f : Fields) : Nat := match f.tail with | .w => 1 | .l _ => 2 | .x .. => 3
/-- The length in bytes. -/
def Fields.len (f : Fields) : Nat := 4 + 4 * f.lenCode
/-- The CLASS value. -/
def Fields.cl (f : Fields) : Nat := f.cls.toNat
/-- The OPT value. -/
def Fields.op (f : Fields) : Nat := f.opt.toNat
/-- The handle index of an immediate that holds a handle reference (R33). -/
def Fields.hIdx (f : Fields) : Nat := bits 11 0 f.imm
/-- The byte offset of an immediate that holds a handle reference (R33). -/
def Fields.hOff (f : Fields) : Nat := bits 31 12 f.imm

end Sys2Proof

namespace Sys2Proof.Machine

/-- The class CLASS gives field d. -/
def dCls (f : Fields) : Kind := if f.cl = 3 then .s else .v
/-- The class CLASS gives field a. -/
def aCls (f : Fields) : Kind := if f.cl = 1 ∨ f.cl = 3 then .s else .v
/-- The class CLASS gives field b. -/
def bCls (f : Fields) : Kind := if f.cl = 2 ∨ f.cl = 3 then .s else .v
/-- The class EXT[0] gives field c. -/
def cCls (f : Fields) : Kind := if bit 0 f.ext then .s else .v

/-! ## Shapes that recur -/

/-- No register field. -/
def shNone (_ : Fields) : Shape := {}
/-- d written, a and b read, all by CLASS; in L the literal stands for b. -/
def shDAB (f : Fields) : Shape := { d := dCls f, a := aCls f, b := if f.isL then .none else bCls f, dW := true }
/-- d written, a read, by CLASS. -/
def shDA (f : Fields) : Shape := { d := dCls f, a := aCls f, dW := true }
/-- d read and written, a and b read, by CLASS. -/
def shRDAB (f : Fields) : Shape := { shDAB f with dR := true }
/-- d written, a, b and c read. -/
def shDABC (f : Fields) : Shape := { d := dCls f, a := aCls f, b := bCls f, c := cCls f, dW := true }
/-- The condition operand of a control-flow form: none with OPT 0b010, else by CLASS (R99). -/
def shCond (f : Fields) : Shape := { a := if f.op = 2 then .none else aCls f }

/-- Every type code of a list of names. -/
abbrev Tys := List Ty
/-- No type. -/
def tyNone : Tys := [.none]
/-- The integer types. -/
def tyInt : Tys := [.i8, .i16, .i32, .i64, .n8, .n16, .n32, .n64]
/-- The bits types. -/
def tyBits : Tys := [.b8, .b16, .b32, .b64]

/-- The special-register selectors of Table RG-4 (R132). -/
def selectors : List Nat :=
  [0, 1, 2, 3, 4, 5, 6, 0x10, 0x11, 0x12, 0x13, 0x14, 0x15, 0x20, 0x21, 0x22, 0x23, 0x24, 0x30, 0x31]
/-- The lane registers of Table RG-4. -/
def laneSelectors : List Nat := [0, 0x10, 0x11, 0x12, 0x13, 0x14, 0x15, 0x30, 0x31]

namespace Forms

/-! ### Control flow (05_paths Table PA-3) -/

def ifOp : Form := { maj := 2, min := 0, lens := [2], tys := tyNone, classes := [0, 1], opts := [0, 1], sh := shCond, con := .ifOp }
def elseOp : Form := { maj := 2, min := 1, lens := [2], tys := tyNone, classes := [0], opts := [0], sh := shNone, con := .elseOp }
def loop : Form := { maj := 2, min := 2, lens := [2], tys := tyNone, classes := [0], opts := [0], sh := shNone, con := .loop }
/-- OPT 0b010 goes only with CLASS 0b00 (R99). -/
def allBad (f : Fields) : Bool := f.op == 2 && f.cl != 0
def breakOp : Form :=
  { maj := 2, min := 3, lens := [2], tys := tyNone, classes := [0, 1], opts := [0, 1, 2], sh := shCond, ill := allBad,
    rsv := fun f => bits 31 6 f.lit != 0, con := .breakOp }
def cont : Form :=
  { maj := 2, min := 4, lens := [2], tys := tyNone, classes := [0, 1], opts := [0, 1, 2], sh := shCond, ill := allBad,
    rsv := fun f => bits 31 6 f.lit != 0, con := .cont }
def endloop : Form := { maj := 2, min := 5, lens := [2], tys := tyNone, classes := [0], opts := [0], sh := shNone, con := .endloop }
def loopn : Form :=
  { maj := 2, min := 6, lens := [2], tys := tyNone, classes := [0, 1], opts := [0], sh := fun f => { a := aCls f }, con := .loopn }
def bra : Form :=
  { maj := 3, min := 0, lens := [2], tys := tyNone, classes := [0, 1], opts := [0, 1, 2], sh := shCond, ill := allBad, con := .bra }
def brs : Form :=
  { maj := 3, min := 1, lens := [2], tys := tyNone, classes := [0, 1], opts := [0, 1, 2], sh := shCond,
    ill := fun f => if f.op = 2 then f.cl != 0 else f.cl != 1, con := .brs }
def call : Form :=
  { maj := 3, min := 2, lens := [2], tys := tyNone, classes := [3], opts := [0], sh := fun _ => { d := .s, dW := true }, con := .call }
def brx : Form := { maj := 4, min := 0, lens := [1], tys := tyNone, classes := [0], opts := [0], sh := fun _ => { a := .v }, con := .brx }
def callx : Form :=
  { maj := 4, min := 1, lens := [1], tys := tyNone, classes := [0], opts := [0], sh := fun _ => { d := .s, a := .v, dW := true },
    con := .callx }
def split : Form :=
  { maj := 5, min := 0, lens := [1], tys := tyNone, classes := [0], opts := [0, 1],
    sh := fun f => { a := if f.op = 1 then .none else .v }, con := .split }
def rejoin : Form :=
  { maj := 5, min := 1, lens := [1, 2], tys := tyNone, classes := [0, 1], opts := [0],
    sh := fun f => { a := if f.isL then .none else .s },
    ill := fun f => if f.isL then f.cl != 0 else f.cl != 1,
    con := fun f => if f.isL then .rejoinL f else .rejoin f }
def nop : SForm := { maj := 1, min := 0, con := .nop }
def yld : SForm := { maj := 1, min := 1, con := .yield }
def endif : SForm := { maj := 1, min := 2, con := .endif }
def ret : SForm := { maj := 1, min := 3, a := .s, con := .ret }

/-! ### Registers (06_registers Table RG-5) -/

def movS : SForm := { maj := 0x10, min := 0, d := .v, a := .v, dW := true, con := .movS }
def movsS : SForm := { maj := 0x10, min := 1, d := .v, a := .s, dW := true, con := .movsS }
def mov : Form := { maj := 0x10, min := 0, lens := [1], tys := tyNone, classes := [0, 3], opts := [0], sh := shDA, con := .mov }
def movs : Form :=
  { maj := 0x10, min := 1, lens := [1], tys := tyNone, classes := [1], opts := [0],
    sh := fun _ => { d := .v, a := .s, dW := true }, con := .movs }
def movl : Form :=
  { maj := 0x11, min := 0, lens := [2], tys := tyInt ++ tyBits ++ [.f64, .f32, .f16, .bf16, .e4m3, .e5m2, .e2m1],
    classes := [0, 3], opts := [0], sh := fun f => { d := dCls f, dW := true }, con := .movl }
def sel : Form :=
  { maj := 0x12, min := 0, lens := [1], tys := tyBits, classes := [0, 1, 2, 3], opts := [0, 1], sh := shRDAB, con := .sel }
def vrel : Form :=
  { maj := 0x12, min := 1, lens := [1], tys := tyNone, classes := [0, 1], opts := [0], sh := fun f => { a := aCls f }, con := .vrel }
def vzero : Form :=
  { maj := 0x12, min := 2, lens := [1], tys := tyNone, classes := [0], opts := [0], sh := fun _ => { d := .v, a := .v }, con := .vzero }
def sread : Form :=
  { maj := 0x13, min := 0, lens := [1], tys := tyNone, classes := [0, 3], opts := [0],
    sh := fun f => { d := dCls f, a := .ctl, dW := true },
    ill := fun f => !(selectors.contains f.a.toNat) || (f.cl == 3 && laneSelectors.contains f.a.toNat), con := .sread }
def swrite : Form :=
  { maj := 0x13, min := 1, lens := [1], tys := tyNone, classes := [0, 1], opts := [0],
    sh := fun f => { d := .ctl, a := aCls f },
    ill := fun f => !([0x30, 0x31].contains f.d.toNat), con := .swrite }

/-! ### Launches (04_launch R87-R90) -/

def glaunch : Form :=
  { maj := 0x14, min := 0, lens := [3], tys := tyNone, classes := [3], opts := [0],
    sh := fun _ => { d := .s, a := .s, b := .s, dW := true }, imm := 0xFFFFFFFF, fs := true, con := .glaunch }
/-- d, a and b scalar, d written. -/
def shSSS (_ : Fields) : Shape := { d := .s, a := .s, b := .s, dW := true }
def gsig : Form := { maj := 0x15, min := 0, lens := [1], tys := tyNone, classes := [3], opts := [0], sh := shSSS, fs := true, con := .gsig }
def gwait : Form := { maj := 0x15, min := 1, lens := [1], tys := tyNone, classes := [3], opts := [0], sh := shSSS, con := .gwait }
def gcount : Form := { maj := 0x15, min := 2, lens := [1], tys := tyNone, classes := [3], opts := [0], sh := shSSS, fs := true, con := .gcount }
def wid : Form :=
  { maj := 0x16, min := 0, lens := [1], tys := tyNone, classes := [0], opts := [0, 1, 2, 3, 4, 5, 6, 7],
    sh := fun _ => { d := .v, dW := true }, con := .wid }
def exit : SForm := { maj := 0x17, min := 0, con := .exit }

/-! ### Integer, logic and address (08_integer Table IN-1) -/

/-- In L format CLASS 0b10 raises cause 0x01 (R163, R175). -/
def lBad (f : Fields) : Bool := f.isL && f.cl == 2
/-- Every class. -/
def cls4 : List Nat := [0, 1, 2, 3]
/-- The classes of a one-source form. -/
def cls1 : List Nat := [0, 1, 3]
/-- A two-source form of lengths W and L. -/
def two (maj min : Nat) (tys : Tys) (con : Fields → Instr) : Form :=
  { maj := maj, min := min, lens := [1, 2], tys := tys, classes := cls4, opts := [0], sh := shDAB, ill := lBad, con := con }
/-- A one-source form of length W. -/
def one (maj min : Nat) (tys : Tys) (con : Fields → Instr) : Form :=
  { maj := maj, min := min, lens := [1], tys := tys, classes := cls1, opts := [0], sh := shDA, con := con }
def add : Form := two 0x18 0 (tyInt ++ tyBits) .add
def sub : Form := two 0x18 1 (tyInt ++ tyBits) .sub
def and : Form := two 0x18 2 tyBits .and
def or : Form := two 0x18 3 tyBits .or
def xor : Form := two 0x18 4 tyBits .xor
def shl : Form := two 0x18 5 tyBits .shl
def shr : Form := two 0x18 6 tyBits .shr
def sar : Form := two 0x18 7 tyBits .sar
/-- A two-operand S form of major 0x18 (R34, R160). -/
def two18 (min : Nat) (con : SFields → Instr) : SForm :=
  { maj := 0x18, min := min, d := .v, a := .v, sty := true, dR := true, dW := true, con := con }
def addS : SForm := two18 0 .addS
def subS : SForm := two18 1 .subS
def andS : SForm := two18 2 .andS
def orS : SForm := two18 3 .orS
def xorS : SForm := two18 4 .xorS
def shlS : SForm := two18 5 .shlS
def shrS : SForm := two18 6 .shrS
def sarS : SForm := two18 7 .sarS
def adds : Form := two 0x19 0 tyInt .adds
def subs : Form := two 0x19 1 tyInt .subs
def absd : Form := two 0x19 2 tyInt .absd
def min : Form := two 0x19 3 tyInt .min
def max : Form := two 0x19 4 tyInt .max
def andn : Form := two 0x19 5 tyBits .andn
def rot : Form := { two 0x19 6 tyBits .rot with opts := [0, 1] }
def abs : Form := { one 0x19 7 [.i8, .i16, .i32, .i64] .abs with opts := [0, 1] }
def not : Form := one 0x19 8 tyBits .not
def mul : Form := { two 0x1A 0 tyInt .mul with opts := [0, 1] }
def mulh : Form := two 0x1A 1 tyInt .mulh
def mad : Form :=
  { maj := 0x1A, min := 2, lens := [3], tys := tyInt, classes := cls4, opts := [0, 1], sh := shDABC, con := .mad }
def div : Form := two 0x1A 3 tyInt .div
def rem : Form := two 0x1A 4 tyInt .rem
/-- The fields of bfe and bfi: b in W, IMM in X (R163). -/
def bfIll (f : Fields) : Bool := f.isX && f.cl == 2
def bfe : Form :=
  { maj := 0x1B, min := 0, lens := [1, 3], tys := tyInt ++ tyBits, classes := cls4, opts := [0],
    sh := fun f => { d := dCls f, a := aCls f, b := if f.isX then .none else bCls f, dW := true }, imm := 0xFFFF, ill := bfIll,
    con := .bfe }
def bfi : Form :=
  { maj := 0x1B, min := 1, lens := [1, 3], tys := tyBits, classes := cls4, opts := [0],
    sh := fun f => { d := dCls f, a := aCls f, b := if f.isX then .none else bCls f, dR := true, dW := true }, imm := 0xFFFF,
    ill := bfIll, con := .bfi }
def popc : Form := one 0x1C 0 tyBits .popc
def clz : Form := one 0x1C 1 tyBits .clz
def ctz : Form := one 0x1C 2 tyBits .ctz
def brev : Form := one 0x1C 3 tyBits .brev
def cmp : Form :=
  { two 0x1D 0 (tyInt ++ tyBits) .cmp with
    opts := [0, 1, 2, 3, 4, 5], ill := fun f => lBad f || (tyBits.contains f.ty && decide (1 < f.op)) }
def lea : Form :=
  { maj := 0x1E, min := 0, lens := [1, 3], tys := [.i32, .i64, .n32, .n64], classes := cls4, opts := [0, 1, 2, 3, 4, 5, 6, 7],
    sh := fun f => { d := dCls f, a := aCls f, b := bCls f, dW := true }, imm := 0xFFFFFFFF, con := .lea }

/-! ### Floating point (09_float Table FP-1) -/

/-- The types of floating arithmetic. -/
def tyF4 : Tys := [.f64, .f32, .f16, .bf16]
/-- Every floating format. -/
def tyF : Tys := [.f64, .f32, .f16, .bf16, .e4m3, .e5m2, .e3m2, .e2m3, .e2m1]
/-- The rounding modes (Table NF-2). -/
def modes : List Nat := [0, 1, 2, 3, 4]
def fadd : Form := { two 0x30 0 tyF4 .fadd with opts := modes }
def fsub : Form := { two 0x30 1 tyF4 .fsub with opts := modes }
def fmul : Form := { two 0x30 2 tyF4 .fmul with opts := modes }
def fmin : Form := two 0x30 3 tyF .fmin
def fmax : Form := two 0x30 4 tyF .fmax
def fabs : Form := one 0x30 5 tyF .fabs
def fneg : Form := one 0x30 6 tyF .fneg
def fscale : Form := { two 0x30 7 tyF4 .fscale with opts := modes }
/-- d read and written in W; c the addend in X (R175). -/
def shAcc (f : Fields) : Shape :=
  if f.isX then { d := dCls f, a := aCls f, b := bCls f, c := cCls f, dW := true }
  else { d := dCls f, a := aCls f, b := bCls f, dR := true, dW := true }
def fma : Form := { maj := 0x31, min := 0, lens := [1, 3], tys := tyF4, classes := cls4, opts := modes, sh := shAcc, con := .fma }
def fcmp : Form := { two 0x32 0 tyF .fcmp with opts := [0, 1, 2, 3, 4, 5, 6, 7] }
def fclass : Form := one 0x32 1 tyF .fclass
def fdot : Form :=
  { maj := 0x33, min := 0, lens := [1, 3], tys := [.f16, .bf16, .e4m3, .e5m2, .e3m2, .e2m3, .e2m1], classes := cls4, opts := modes,
    sh := shAcc, con := .fdot }
/-- The type of a code of Table FM-5. -/
def tyOfCode (n : Nat) : Option Ty :=
  match n with
  | 0x00 => some .none | 0x01 => some .i8 | 0x02 => some .i16 | 0x03 => some .i32 | 0x04 => some .i64
  | 0x05 => some .n8 | 0x06 => some .n16 | 0x07 => some .n32 | 0x08 => some .n64
  | 0x09 => some .b8 | 0x0A => some .b16 | 0x0B => some .b32 | 0x0C => some .b64
  | 0x10 => some .f64 | 0x11 => some .f32 | 0x12 => some .f16 | 0x13 => some .bf16
  | 0x14 => some .e4m3 | 0x15 => some .e5m2 | 0x16 => some .e3m2 | 0x17 => some .e2m3 | 0x18 => some .e2m1
  | 0x1C => some .mx8 | 0x1D => some .mx4
  | _ => none
/-- The source type in a control field (R184, R187). -/
def srcTy (n : Nat) : Ty := (tyOfCode n).getD .none
/-- Parts of a conversion between two widths (R184). -/
def cvtParts (ws wd : Nat) : Nat := Nat.max ws wd / Nat.min ws wd
/-- The types cvt converts between. -/
def tyCvt : Tys := tyInt ++ tyF
def cvt : Form :=
  { maj := 0x34, min := 0, lens := [1], tys := tyCvt, classes := cls1, opts := modes,
    sh := fun f => { d := dCls f, a := aCls f, b := .ctl, dW := true,
                     dR := decide (Ty.width f.ty < Ty.width (srcTy (bits 5 0 f.b.toNat))) },
    ill := fun f =>
      let st := srcTy (bits 5 0 f.b.toNat)
      !(tyCvt.contains st) || decide (cvtParts (Ty.width st) (Ty.width f.ty) ≤ bits 8 6 f.b.toNat) ||
        (tyInt.contains st && tyInt.contains f.ty && decide (1 < f.op)),
    rsv := fun f => bits 10 9 f.b.toNat != 0, con := .cvt }
def frnd : Form := { one 0x34 1 tyF4 .frnd with opts := modes }
/-- Whether IMM of cvtq or cvtdq names an admitted source type and part (R187, R188). -/
def cvtqBad (ok : Tys) (ed : Nat) (f : Fields) (w : Nat) : Bool :=
  let st := srcTy (bits 13 8 f.imm)
  !(ok.contains st) || decide (ed / (64 / w) ≤ bits 2 0 f.imm)
/-- cvtq (R187): EXT[0] = 1 is an undefined value, its c being a vector (Table FM-8). [DEDUCED, unsafe: log 99] -/
def cvtq : Form :=
  { maj := 0x35, min := 0, lens := [3], tys := [.mx8, .mx4], classes := [0], opts := modes,
    sh := fun _ => { d := .v, a := .v, c := .v, dR := true, dW := true, wideA := true }, imm := 0x3F07,
    ill := fun f => bit 0 f.ext || cvtqBad [.f32, .f16, .bf16] (64 / Ty.width f.ty) f (Ty.width (srcTy (bits 13 8 f.imm))), con := .cvtq }
/-- cvtdq (R188), likewise. [DEDUCED, unsafe: log 99] -/
def cvtdq : Form :=
  { maj := 0x35, min := 1, lens := [3], tys := [.f32, .f16, .bf16], classes := [0], opts := modes,
    sh := fun _ => { d := .v, a := .v, c := .v, dW := true, wideA := true, wide := true }, imm := 0x3F07,
    ill := fun f => bit 0 f.ext || cvtqBad [.mx8, .mx4] (64 / Ty.width (srcTy (bits 13 8 f.imm))) f (Ty.width f.ty), con := .cvtdq }
/-- The types of the transcendental forms. -/
def tyF3 : Tys := [.f32, .f16, .bf16]
def frcp : Form := one 0x36 0 tyF3 .frcp
def frsq : Form := one 0x36 1 tyF3 .frsq
def fsqrt : Form := { one 0x36 2 tyF4 .fsqrt with opts := modes }
def fdiv : Form :=
  { maj := 0x36, min := 3, lens := [1], tys := tyF4, classes := cls4, opts := modes, sh := shDAB, con := .fdiv }
def fexp2 : Form := one 0x36 4 tyF3 .fexp2
def flog2 : Form := one 0x36 5 tyF3 .flog2
def fsin : Form := one 0x36 6 tyF3 .fsin
def fcos : Form := one 0x36 7 tyF3 .fcos
def ftanh : Form := one 0x36 8 tyF3 .ftanh

/-! ### Cross-lane forms (10_lanes Table XL-1) -/

/-- d of a form whose b is a control field: scalar when S is set (R195). -/
def shCtl (aK : Kind) (f : Fields) : Shape := { d := if bit 3 f.b.toNat then .s else .v, a := aK, b := .ctl, dW := true }
/-- The reserved bits of the control field of major 0x48 (R195). -/
def ctl48 (f : Fields) : Bool := bits 2 0 f.b.toNat != 0 || bits 10 4 f.b.toNat != 0
def vote : Form :=
  { maj := 0x48, min := 0, lens := [1], tys := tyNone, classes := [0], opts := [0, 1, 2, 3, 4], sh := shCtl .v, rsv := ctl48, con := .vote }
def ballot : Form :=
  { maj := 0x48, min := 1, lens := [1], tys := tyNone, classes := [0], opts := [0], sh := shCtl .v, rsv := ctl48, con := .ballot }
def elect : Form :=
  { maj := 0x48, min := 2, lens := [1], tys := tyNone, classes := [0], opts := [0], sh := shCtl .none, rsv := ctl48, con := .elect }
def pwidth : Form :=
  { maj := 0x48, min := 3, lens := [1], tys := tyNone, classes := [0], opts := [0, 1, 2, 3], sh := shCtl .none,
    ill := fun f => f.op == 2 && bit 3 f.b.toNat, rsv := ctl48, con := .pwidth }
def matchOp : Form :=
  { maj := 0x48, min := 4, lens := [1], tys := tyBits, classes := [0], opts := [0], sh := fun _ => { d := .v, a := .v, dW := true },
    con := .matchOp }
/-- The fields of a shuffle: c is the fallback with OPT 0b000 (R200). -/
def shShf (bK : Fields → Kind) (f : Fields) : Shape :=
  { d := .v, a := .v, b := bK f, c := if f.op = 0 then cCls f else .none, dW := true }
def shfl : Form :=
  { maj := 0x49, min := 0, lens := [3], tys := [.b64], classes := [0, 2], opts := [0, 1, 2], sh := shShf bCls, con := .shfl }
def shfx : Form :=
  { maj := 0x49, min := 1, lens := [3], tys := tyBits, classes := [0, 2], opts := [0, 1, 2], sh := shShf bCls, con := .shfx }
def shfup : Form :=
  { maj := 0x49, min := 2, lens := [3], tys := [.b64], classes := [0], opts := [0, 1, 2], sh := shShf fun _ => .none, imm := 0x71F,
    ill := fun f => decide (5 < bits 10 8 f.imm), con := .shfup }
def shfdn : Form :=
  { maj := 0x49, min := 3, lens := [3], tys := [.b64], classes := [0], opts := [0, 1, 2], sh := shShf fun _ => .none, imm := 0x71F,
    ill := fun f => decide (5 < bits 10 8 f.imm), con := .shfdn }
def bcast : Form :=
  { maj := 0x49, min := 4, lens := [3], tys := tyBits, classes := [0], opts := [0, 1, 2], sh := shShf fun _ => .none, imm := 0x1FF,
    ill := fun f => decide (64 / Ty.width f.ty ≤ bits 8 5 f.imm), con := .bcast }
/-- Whether the operator admits the type and mode (Table XL-2). -/
def redBad (f : Fields) : Bool :=
  let o := bits 2 0 f.b.toNat
  let ok := match o with
    | 0 => (tyInt ++ tyBits ++ tyF4).contains f.ty
    | 1 | 2 => (tyInt ++ tyF4).contains f.ty
    | 3 | 4 | 5 => tyBits.contains f.ty
    | _ => false
  !ok || (f.op != 0 && !(o == 0 && tyF4.contains f.ty))
/-- The types of lred and scan. -/
def tyRed : Tys := tyInt ++ tyBits ++ tyF4
def lred : Form :=
  { maj := 0x4A, min := 0, lens := [1], tys := tyRed, classes := [0], opts := [0, 1, 2, 3], sh := shCtl .v, ill := redBad,
    rsv := fun f => bits 10 4 f.b.toNat != 0, con := .lred }
def scan : Form :=
  { maj := 0x4A, min := 1, lens := [1], tys := tyRed, classes := [0], opts := [0, 1, 2, 3],
    sh := fun _ => { d := .v, a := .v, b := .ctl, dW := true }, ill := redBad, rsv := fun f => bits 10 4 f.b.toNat != 0, con := .scan }
def compact : Form :=
  { maj := 0x4A, min := 2, lens := [1], tys := [.b64], classes := [0], opts := [0, 1],
    sh := fun f => { d := .v, a := .v, b := .v, dR := f.op == 1, dW := true }, con := .compact }
def isect : Form :=
  { maj := 0x4B, min := 0, lens := [3], tys := [.n16, .n32, .n64], classes := [0], opts := [0],
    sh := fun _ => { d := .v, a := .v, b := .v, c := .ctl, dW := true }, ill := fun f => !bit 0 f.ext || decide (255 < f.c), con := .isect }

/-! ### Global access (12_handles Table HD-3) -/

/-- The classes a form with a handle reference admits, by length and OPT[1] (Table HD-3). -/
def refIll (f : Fields) : Bool :=
  if f.isX then (if bit 1 f.op then !([2, 3].contains f.cl) else f.cl == 2) else bit 1 f.op || !([2, 3].contains f.cl)
/-- Fields a (the index) and b (the reference) of a form with a handle reference (R228). -/
def refA (f : Fields) : Kind := if bit 0 f.op then .none else aCls f
/-- Field b holds the scalar reference in W format and with OPT[1]. -/
def refB (f : Fields) : Kind := if f.isX && !bit 1 f.op then .none else .s
/-- The whole of IMM. -/
def immAll : Nat := 0xFFFFFFFF
def ld : Form :=
  { maj := 0x58, min := 0, lens := [1, 3], tys := tyInt ++ tyBits, classes := cls4, opts := [0, 1, 2, 3],
    sh := fun f => { d := dCls f, a := refA f, b := refB f, dW := true }, imm := immAll, ill := refIll, fs := true, con := .ld }
def st : Form :=
  { maj := 0x58, min := 1, lens := [1, 3], tys := tyBits, classes := cls4, opts := [0, 1, 2, 3],
    sh := fun f => { d := dCls f, a := refA f, b := refB f, dR := true }, imm := immAll, ill := refIll, fs := true, con := .st }
def gath : Form :=
  { maj := 0x59, min := 0, lens := [3], tys := tyInt ++ tyBits, classes := [0], opts := [0],
    sh := fun _ => { d := .v, a := .v, dW := true }, imm := immAll, fs := true, con := .gath }
def scat : Form :=
  { maj := 0x59, min := 1, lens := [3], tys := tyBits, classes := [0], opts := [0],
    sh := fun _ => { d := .v, a := .v, dR := true }, imm := immAll, fs := true, con := .scat }
def pref : Form :=
  { maj := 0x5A, min := 0, lens := [1, 3], tys := tyNone, classes := cls4, opts := [0, 1, 2, 3, 4, 5, 6, 7],
    sh := fun f => { a := refA f, b := refB f }, imm := immAll, ill := refIll, con := .pref }
def hflush : Form :=
  { maj := 0x5A, min := 1, lens := [1, 3], tys := tyNone, classes := [3], opts := [0],
    sh := fun f => { d := .s, a := .s, b := if f.isX then .none else .s, dW := true }, imm := immAll, fs := true, con := .hflush }
def hget : Form :=
  { maj := 0x5B, min := 0, lens := [1], tys := tyNone, classes := [3], opts := [0, 1, 2, 3],
    sh := fun _ => { d := .s, a := .s, dW := true }, con := .hget }
def hset : Form :=
  { maj := 0x5B, min := 1, lens := [1], tys := tyNone, classes := [3], opts := [0, 1, 2, 3],
    sh := fun _ => { a := .s, b := .s }, sup := true, con := .hset }
def xlat : Form :=
  { maj := 0x5B, min := 2, lens := [1], tys := tyNone, classes := [3], opts := [0, 1, 2],
    sh := fun f => { d := .s, a := .s, b := if f.op = 2 then .none else .s, dW := true }, sup := true,
    con := fun f => if f.op = 0 then .xlat f else if f.op = 1 then .xlatInv f else .xlatAll f }
def icinv : SForm := { maj := 0x5C, min := 0, con := .icinv }

/-! ### Fences and time (13_consistency Table MO-1) -/

def fence : SForm := { maj := 0x60, min := 0, d := .ctl, ill := fun f => decide (4 < f.d.toNat), con := .fence }
def sfence : SForm := { maj := 0x60, min := 1, con := .sfence }
def wdone : SForm := { maj := 0x60, min := 2, d := .s, dW := true, con := .wdone }
def twait : Form :=
  { maj := 0x61, min := 0, lens := [1, 2], tys := tyNone, classes := [1], opts := [0, 1], sh := fun _ => { a := .s },
    con := fun f => if f.isL then .twaitL f else .twait f }
def tnow : Form :=
  { maj := 0x61, min := 1, lens := [1], tys := tyNone, classes := [3], opts := [0, 1], sh := fun _ => { d := .s, dW := true }, con := .tnow }

/-! ### Scratchpad (11_scratchpad Table SP-2, R216; 14_atomics R278) -/

/-- The combinations of CLASS, OPT and length that R211 refuses, and an undefined rotation (R209). -/
def scrIll (f : Fields) : Bool :=
  (f.cl == 1 && bit 0 f.op) || (f.cl == 2 && bit 1 f.op) || (f.isW && f.op == 3) || (f.isX && decide (4 < bits 22 20 f.imm))
/-- The index of a scratchpad address (R211). -/
def scrA (f : Fields) : Kind := if bit 0 f.op then .none else if f.cl = 1 then .s else .v
/-- The base of a scratchpad address (R211). -/
def scrB (f : Fields) : Kind := if bit 1 f.op then .none else if f.cl = 2 then .s else .v
/-- The bits of IMM that R211 assigns. -/
def scrImm : Nat := 0x77FFFF
/-- A scratchpad load. -/
def scrLd (maj : Nat) (con : Fields → Instr) : Form :=
  { maj := maj, min := 0, lens := [1, 3], tys := tyInt ++ tyBits, classes := [0, 1, 2], opts := [0, 1, 2, 3],
    sh := fun f => { d := .v, a := scrA f, b := scrB f, dW := true }, imm := scrImm, ill := scrIll, con := con }
/-- A scratchpad store. -/
def scrSt (maj : Nat) (con : Fields → Instr) : Form :=
  { maj := maj, min := 1, lens := [1, 3], tys := tyBits, classes := [0, 1, 2], opts := [0, 1, 2, 3],
    sh := fun f => { d := .v, a := scrA f, b := scrB f, dR := true }, imm := scrImm, ill := scrIll, con := con }
def lds : Form := scrLd 0x50 .lds
def sts : Form := scrSt 0x50 .sts
def ldc : Form := scrLd 0x51 .ldc
def stc : Form := scrSt 0x51 .stc
def scopy : Form :=
  { maj := 0x52, min := 0, lens := [3], tys := tyNone, classes := [3], opts := [0],
    sh := fun _ => { d := .s, a := .s, b := .s, dR := true }, imm := 0x3F,
    ill := fun f => decide (4 < bits 2 0 f.imm) || decide (4 < bits 5 3 f.imm), fs := true, con := .scopy }
def sfill : Form :=
  { maj := 0x52, min := 1, lens := [3], tys := tyNone, classes := [3], opts := [0],
    sh := fun _ => { d := .s, a := .s, b := .s, dR := true }, imm := 0x7,
    ill := fun f => decide (4 < bits 2 0 f.imm), fs := true, con := .sfill }
/-- The types of Table AT-3. -/
def tyAtom : Tys := [.i32, .i64, .n32, .n64, .f64, .f32, .b32, .b64]
/-- Whether an operator of Table AT-3 admits a type. -/
def atomAdmits (op : Nat) (t : Ty) : Bool :=
  match op with
  | 0 | 1 | 2 => [Ty.i32, .i64, .n32, .n64, .f64, .f32].contains t
  | 3 | 4 | 5 => [Ty.b32, .b64].contains t
  | 6 => tyAtom.contains t
  | 7 | 8 => [Ty.n32, .n64].contains t
  | 9 => t == .b64
  | _ => false
/-- The operator of satom: .add in W format (R265). -/
def satomOp (f : Fields) : Nat := bits 4 1 f.ext
def satom : Form :=
  { maj := 0x67, min := 0, lens := [1, 3], tys := tyAtom, classes := [0, 1, 2], opts := [0, 1, 2, 3],
    sh := fun f => { d := .v, a := scrA f, b := scrB f, dR := true, dW := true }, imm := scrImm, ext := 0x1E,
    ill := fun f => scrIll f || satomOp f == 9 || !atomAdmits (satomOp f) f.ty, con := .satom }
def scas : Form :=
  { maj := 0x67, min := 1, lens := [3], tys := [.b32, .b64], classes := [0, 1, 2], opts := [0, 1, 2, 3],
    sh := fun f => { d := .v, a := scrA f, b := scrB f, c := cCls f, dR := true, dW := true }, imm := scrImm, ill := scrIll, con := .scas }

/-! ### Atomics, reductions, barriers (14_atomics Table AT-2) -/

/-- A reference in sc needs EXT[0], since c is scalar there (R265). -/
def refCIll (f : Fields) : Bool := bit 1 f.op && !bit 0 f.ext
def atom : Form :=
  { maj := 0x64, min := 0, lens := [3], tys := tyAtom, classes := cls4, opts := [0, 1, 2, 3, 4, 5, 6, 7],
    sh := fun f => { d := if bit 2 f.op then .none else dCls f, a := refA f, b := bCls f, c := if bit 1 f.op then .s else .none,
                     dW := !bit 2 f.op },
    imm := immAll, ext := 0x7E, ill := fun f => refCIll f || !atomAdmits (bits 4 1 f.ext) f.ty, fs := true, con := .atom }
def cas : Form :=
  { maj := 0x64, min := 1, lens := [3], tys := [.b32, .b64], classes := cls4, opts := [0, 1, 2, 3],
    sh := fun f => { d := dCls f, a := refA f, b := bCls f, c := if bit 1 f.op then .s else .none, dR := true, dW := true },
    imm := immAll, ext := 0x60, ill := refCIll, fs := true, con := .cas }
def red : Form :=
  { maj := 0x65, min := 0, lens := [1, 3], tys := tyAtom, classes := cls4, opts := [0, 1, 2, 3],
    sh := fun f => { d := dCls f, a := refA f, b := refB f, c := if bit 4 f.ext then .s else .none, dR := true },
    imm := immAll, ext := 0x1E,
    ill := fun f => refIll f || decide (5 < bits 3 1 f.ext) || !atomAdmits (bits 3 1 f.ext) f.ty || (bit 4 f.ext && !bit 0 f.ext),
    con := .red }
def redflush : SForm := { maj := 0x66, min := 0, con := .redflush }
def bar : Form := { maj := 0x68, min := 0, lens := [1], tys := tyNone, classes := [0], opts := [0], sh := shNone, con := .bar }
/-- Two scalar sources. -/
def shSS (_ : Fields) : Shape := { a := .s, b := .s }
def nbar : Form := { maj := 0x68, min := 1, lens := [1], tys := tyNone, classes := [3], opts := [0], sh := shSS, con := .nbar }
def barx : Form := { maj := 0x68, min := 2, lens := [1], tys := tyNone, classes := [3], opts := [0], sh := shSS, con := .barx }
def barw : Form := { maj := 0x68, min := 3, lens := [1], tys := tyNone, classes := [3], opts := [0], sh := shSS, con := .barw }

/-! ### Copies and chains (15_copies Table CP-1) -/

/-- The bits of IMM that R288 assigns. -/
def cpImm : Nat := 0x7FFFFF
/-- EXT[0] = 0 and an undefined rotation (R288). -/
def cpIll (f : Fields) : Bool := !bit 0 f.ext || decide (4 < bits 22 20 f.imm)
/-- An object offset with NOOBJ (R288). -/
def cpRsv (f : Fields) : Bool := bit 19 f.imm && bits 18 0 f.imm != 0
def cpy : Form :=
  { maj := 0x6C, min := 0, lens := [3], tys := tyNone, classes := [3], opts := [0, 1],
    sh := fun _ => { d := .s, a := .s, b := .s, c := .s, dR := true }, imm := cpImm, ill := cpIll, rsv := cpRsv, fs := true, con := .cpy }
/-- cpyg and cpys. -/
def cpLanes (min : Nat) (con : Fields → Instr) : Form :=
  { maj := 0x6C, min := min, lens := [3], tys := tyNone, classes := [0], opts := [0],
    sh := fun _ => { d := .s, a := .v, b := .s, c := .s, dR := true }, imm := cpImm, ill := cpIll, rsv := cpRsv, fs := true, con := con }
def cpyg : Form := cpLanes 1 .cpyg
def cpys : Form := cpLanes 2 .cpys
def bclose : SForm := { maj := 0x6D, min := 0, d := .s, dW := true, con := .bclose }
/-- d written, a read, both scalar by form. -/
def shSdSa (_ : Fields) : Shape := { d := .s, a := .s, dW := true }
def bwait : Form := { maj := 0x6D, min := 1, lens := [1], tys := tyNone, classes := [3], opts := [0, 1], sh := shSdSa, con := .bwait }
def cbrun : Form := { maj := 0x6E, min := 0, lens := [1], tys := tyNone, classes := [3], opts := [0], sh := shSdSa, con := .cbrun }
def cbsig : Form := { maj := 0x6E, min := 1, lens := [1], tys := tyNone, classes := [3], opts := [0, 1], sh := shSS, con := .cbsig }
def cbstat : Form := { maj := 0x6E, min := 2, lens := [1], tys := tyNone, classes := [3], opts := [0], sh := shSdSa, con := .cbstat }

/-! ### Matrix (16_matrix Table MX-2) -/

/-- The types of mma and mmas. -/
def tyMma : Tys := [.f32, .f16, .bf16, .e4m3, .e5m2, .e3m2, .e2m3, .e2m1]
/-- KG of a pass form (R307). -/
def kgOf (f : Fields) : Nat := bits 23 20 f.imm + 1
/-- The registers that hold A in registers (R309). -/
def aRegs (f : Fields) : Nat := 4 * (32 * kgOf f) / (64 / Ty.width f.ty)
/-- An object offset with NOOBJ (R307). -/
def mxRsv (f : Fields) : Bool := bit 19 f.imm && bits 18 0 f.imm != 0
def mma : Form :=
  { maj := 0x70, min := 0, lens := [3], tys := tyMma, classes := [2, 3], opts := [0, 1, 2, 3],
    sh := fun f => { d := .t, a := if f.cl = 2 then .v else .s, b := .s, dR := true, dW := true, aN := if f.cl = 2 then aRegs f else 1 }, imm := 0xFFFFFF,
    ill := fun f => f.cl == 2 && decide (2047 < f.a.toNat + aRegs f - 1), rsv := mxRsv, fs := true, con := .mma }
/-- mmas and mmab. -/
def mmaC (min : Nat) (tys : Tys) (con : Fields → Instr) : Form :=
  { maj := 0x70, min := min, lens := [3], tys := tys, classes := [3], opts := [0, 1, 2, 3],
    sh := fun _ => { d := .t, a := .s, b := .s, c := .s, dR := true, dW := true }, imm := 0xFFFFFF, ill := fun f => !bit 0 f.ext,
    rsv := mxRsv, fs := true, con := con }
def mmas : Form := mmaC 1 tyMma .mmas
def mmab : Form := mmaC 2 [.mx8, .mx4] .mmab
/-- A range of tiles. -/
def tileRange (min : Nat) (con : Fields → Instr) : Form :=
  { maj := 0x71, min := min, lens := [1], tys := tyNone, classes := [0], opts := [0], sh := fun _ => { d := .t, a := .t, dW := true }, con := con }
def azero : Form := tileRange 0 .azero
/-- ascale; LUC on a vector c is refused (16_matrix R318). [DEDUCED, unsafe: log 81] -/
def ascale : Form :=
  { maj := 0x71, min := 1, lens := [1, 3], tys := [.f32], classes := cls4, opts := [0, 1, 2, 3],
    sh := fun f => { d := .t, a := aCls f, b := bCls f, c := if f.isX then cCls f else .none, dR := true, dW := true, wide := true },
    rsv := fun f => f.luc && !bit 0 f.ext, con := .ascale }
def arel : Form := tileRange 2 .arel
/-- aload and astore: the .phys bit of EXT, with the type and immediate it needs (R307, R321). -/
def atrans (min : Nat) (tys : Tys) (opts : List Nat) (w : Bool) (con : Fields → Instr) : Form :=
  { maj := 0x72, min := min, lens := [3], tys := tys, classes := [2], opts := opts, sh := fun _ => { d := .t, b := .s, dR := !w, dW := w },
    imm := 0xFFFFF, ext := 2, ill := fun f => bit 1 f.ext && f.ty != .f32,
    rsv := fun f => mxRsv f || (bit 1 f.ext && f.imm != 0), fs := true, con := con }
def aload : Form := atrans 0 [.f32, .f16, .bf16] [0] true .aload
def astore : Form := atrans 1 [.f32, .f16, .bf16, .e4m3, .e5m2] [0, 1, 2, 3] false .astore
/-- The registers that hold a tile in a type (R319). -/
def tileRegs' (t : Ty) : Nat := 32 / (64 / Ty.width t)
/-- The registers that hold a tile (R319). -/
def tileRegs (f : Fields) : Nat := tileRegs' f.ty
def aread : Form :=
  { maj := 0x72, min := 2, lens := [3], tys := [.f32, .f16, .bf16, .e4m3, .e5m2], classes := [0], opts := [0, 1, 2, 3],
    sh := fun _ => { d := .v, a := .t, dW := true }, ill := fun f => decide (2047 < f.d.toNat + tileRegs f - 1), con := .aread }
def awrite : Form :=
  { maj := 0x72, min := 3, lens := [3], tys := [.f32, .f16, .bf16], classes := [0], opts := [0],
    sh := fun f => { d := .t, a := .v, dW := true, aN := tileRegs f }, ill := fun f => decide (2047 < f.a.toNat + tileRegs f - 1), con := .awrite }

/-! ### The Tail (17_tail Table TL-3) -/

def wmarkS : SForm := { maj := 0x78, min := 0, con := .wmarkS }
def wmark : Form := { maj := 0x78, min := 0, lens := [1], tys := tyNone, classes := [3], opts := [0], sh := fun _ => { d := .s, dW := true }, con := .wmark }
def wquery : Form :=
  { maj := 0x78, min := 1, lens := [1], tys := tyNone, classes := [3], opts := [0, 1, 2, 3],
    sh := fun f => { d := .s, a := if f.op = 2 then .s else .none, dW := true }, con := .wquery }
/-- d written, a and b read, all scalar by form. -/
def shSdSaSb (_ : Fields) : Shape := { d := .s, a := .s, b := .s, dW := true }
def wcfg : Form :=
  { maj := 0x79, min := 0, lens := [1], tys := tyNone, classes := [3], opts := [0, 1, 2], sh := shSdSaSb, sup := true,
    con := fun f => if f.op = 0 then .wcfgRevert f else if f.op = 1 then .wcfgForce f else .wcfgDrop f }

/-! ### Contexts (18_contexts Table CX-5) -/

/-- trap n: d holds the code. -/
def trapS : SForm := { maj := 0x7A, min := 0, d := .ctl, con := .trapS }
def trap : Form := { maj := 0x7A, min := 0, lens := [1], tys := tyNone, classes := [1], opts := [0], sh := fun _ => { a := .s }, con := .trap }
def tret : Form := { maj := 0x7A, min := 1, lens := [1], tys := tyNone, classes := [3], opts := [0, 1, 2], sh := shSdSa, con := .tret }
/-- The number field of rsys and wsys: b in W format, the immediate in X format. -/
def sysB (f : Fields) : Kind := if f.isX then .none else .s
def rsys : Form :=
  { maj := 0x7B, min := 0, lens := [1, 3], tys := tyNone, classes := [3], opts := [0],
    sh := fun f => { d := .s, a := .s, b := sysB f, dW := true }, imm := 0xFFF, con := .rsys }
def wsys : Form :=
  { maj := 0x7B, min := 1, lens := [1, 3], tys := tyNone, classes := [3], opts := [0],
    sh := fun f => { d := .s, a := .s, b := sysB f, dR := true }, imm := 0xFFF, con := .wsys }
def cswap : Form :=
  { maj := 0x7C, min := 0, lens := [1], tys := tyNone, classes := [3], opts := [0, 1, 2],
    sh := fun f => { d := .s, a := .s, b := if f.op = 2 then .s else .none, dW := true }, sup := true,
    con := fun f => if f.op = 0 then .cswapFlip f else if f.op = 1 then .cswapOut f else .cswapIn f }
/-- A command on a context. -/
def ctxCmd (min : Nat) (con : Fields → Instr) : Form :=
  { maj := 0x7C, min := min, lens := [1], tys := tyNone, classes := [3], opts := [0], sh := shSdSa, sup := true, con := con }
def ckill : Form := ctxCmd 1 .ckill
def cstop : Form := ctxCmd 2 .cstop
def cresume : Form := ctxCmd 3 .cresume

/-! ### Links and observation (19_links Table LK-3, 21_observe R400) -/

def fsig : Form :=
  { maj := 0x7E, min := 0, lens := [3], tys := tyNone, classes := [3], opts := [0], sh := fun _ => { a := .s }, imm := immAll, fs := true,
    con := .fsig }
def fwait : Form := { maj := 0x7E, min := 1, lens := [1], tys := tyNone, classes := [3], opts := [0], sh := shSdSaSb, con := .fwait }
def fmcr : Form :=
  { maj := 0x7E, min := 2, lens := [1], tys := tyNone, classes := [3], opts := [0, 1, 2, 3, 4, 5], sh := fun f => { shSdSaSb f with unlogged := true }, sup := true,
    con := fun f => match f.op with
      | 0 => .fmcrDrain f | 1 => .fmcrDark f | 2 => .fmcrRelock f | 3 => .fmcrRoute f | 4 => .fmcrGroup f | _ => .fmcrQuery f }
def trc : Form := { maj := 0x7E, min := 3, lens := [1], tys := tyNone, classes := [3], opts := [0, 1], sh := shSS, con := .trc }
def cnt : Form :=
  { maj := 0x7E, min := 4, lens := [1], tys := tyNone, classes := [3], opts := [0, 1, 2],
    sh := fun f => { d := .s, a := if f.op = 1 then .none else .s, dW := true },
    con := fun f => if f.op = 0 then .cnt f else if f.op = 1 then .cntSnap f else .cntSaved f }

end Forms

end Sys2Proof.Machine
end

