-- ==== Sys2Proof/Machine/Checks.lean ====
section
/-! DEFINITION. What an encoding must hold to be an instruction: the rows of Table FM-8 that its own bits decide, as checks on
the fields of a form (02_formats R29-R36, R44, R51, R52). -/

namespace Sys2Proof.Machine

open Sys2Proof

/-- The code of a type (Table FM-5). -/
def tyCode (t : Ty) : Nat :=
  match t with
  | .none => 0x00 | .i8 => 0x01 | .i16 => 0x02 | .i32 => 0x03 | .i64 => 0x04
  | .n8 => 0x05 | .n16 => 0x06 | .n32 => 0x07 | .n64 => 0x08
  | .b8 => 0x09 | .b16 => 0x0A | .b32 => 0x0B | .b64 => 0x0C
  | .f64 => 0x10 | .f32 => 0x11 | .f16 => 0x12 | .bf16 => 0x13
  | .e4m3 => 0x14 | .e5m2 => 0x15 | .e3m2 => 0x16 | .e2m3 => 0x17 | .e2m1 => 0x18
  | .mx8 => 0x1C | .mx4 => 0x1D

/-- Whether a register field's value lies outside the range of its class (Table FM-3). -/
def outOfClass (k : Kind) (v : Nat) : Bool :=
  match k with
  | .v => decide (2047 < v)
  | .s => decide (255 < v)
  | .t => decide (191 < v)
  | .none | .ctl => false

/-- Whether a class carries a last-use bit (R31). -/
def carriesLast (k : Kind) : Bool := k == .v || k == .s

/-- Whether a field of class none is not zero, or a last-use bit stands on a field that carries none (Table FM-8). -/
def strayField (k : Kind) (v : Nat) (last : Bool) : Bool := (k == .none && v != 0) || (last && !carriesLast k)

/-- The bits of EXT that a form assigns to an encoding: its own, and bit 0 where it has a field c (R33). [DEDUCED, unsafe: log 99] [DEDUCED, unsafe: log 107] -/
def extMask (fm : Form) (f : Fields) : Nat := if (fm.sh f).c == .none then fm.ext else fm.ext ||| 1

/-- Whether the fields meet a row of Table FM-8 that raises cause 0x01: length, TYPE, CLASS, OPT, a sub-field, a register range. -/
def Form.illegal (fm : Form) (f : Fields) : Bool :=
  !fm.lens.contains f.lenCode || !fm.tys.contains f.ty || !fm.classes.contains f.cl || !fm.opts.contains f.op || fm.ill f ||
    outOfClass (fm.sh f).d f.d.toNat || outOfClass (fm.sh f).a f.a.toNat || outOfClass (fm.sh f).b f.b.toNat ||
    outOfClass (fm.sh f).c f.c

/-- Whether the fields meet a row of Table FM-8 that raises cause 0x02: a field, last-use bit or reserved bit that must be zero is
not, or FSEL is set on a form that is not flag-setting. -/
def Form.reserved (fm : Form) (f : Fields) : Bool :=
  strayField (fm.sh f).d f.d.toNat f.lud || (f.lud && !(fm.sh f).dR) || strayField (fm.sh f).a f.a.toNat f.lua ||
    strayField (fm.sh f).b f.b.toNat f.lub || strayField (fm.sh f).c f.c f.luc || (f.isL && (f.b.toNat != 0 || f.lub)) ||
    f.imm &&& fm.imm != f.imm || f.ext &&& extMask fm f != f.ext || (!fm.fs && f.fsel.toNat != 0) || fm.rsv f

/-- Whether the fields of an S encoding raise cause 0x01 (R34, Table FM-8). Registers of 8 bits are always in range. -/
def SForm.illegal (fm : SForm) (f : SFields) : Bool := (!fm.sty && f.sty.toNat != 0) || fm.ill f

/-- Whether the fields of an S encoding raise cause 0x02. No S form reads d without writing it, so LUD is 0 (R34). -/
def SForm.reserved (fm : SForm) (f : SFields) : Bool :=
  f.lud || strayField fm.d f.d.toNat false || strayField fm.a f.a.toNat f.lua

/-- Whether the fields of a clause header raise cause 0x01 (R38, R44). -/
def headIllegal (h : Header) : Bool :=
  h.clen.toNat == 0 || [12, 13, 14].contains h.seta.toNat || [12, 13, 14].contains h.setb.toNat

end Sys2Proof.Machine
end

