-- ==== Sys2Proof/WellFormed.lean ====
section
/-! DEFINITION. Which instructions an encoding can hold: each constructor's form, and the checks of Table FM-8 on its fields
(02_formats R36, R51). -/

namespace Sys2Proof

open Sys2Proof.Machine

/-- What an instruction is as an encoding: a clause header, an S form, a W, L or X form, or an event, which has none. -/
inductive View where
  | head (h : Header)
  | s (fm : SForm) (f : SFields)
  | w (fm : Form) (f : Fields)
  | event

/-- The form of each instruction (Table FM-6). -/
def view : Instr → View
  | .beginClause h => .head h
  | .nop f => .s Forms.nop f
  | .yield f => .s Forms.yld f
  | .endif f => .s Forms.endif f
  | .ret f => .s Forms.ret f
  | .ifOp f => .w Forms.ifOp f
  | .elseOp f => .w Forms.elseOp f
  | .loop f => .w Forms.loop f
  | .breakOp f => .w Forms.breakOp f
  | .cont f => .w Forms.cont f
  | .endloop f => .w Forms.endloop f
  | .loopn f => .w Forms.loopn f
  | .bra f => .w Forms.bra f
  | .brs f => .w Forms.brs f
  | .call f => .w Forms.call f
  | .brx f => .w Forms.brx f
  | .callx f => .w Forms.callx f
  | .split f => .w Forms.split f
  | .rejoin f => .w Forms.rejoin f
  | .rejoinL f => .w Forms.rejoin f
  | .movS f => .s Forms.movS f
  | .mov f => .w Forms.mov f
  | .movsS f => .s Forms.movsS f
  | .movs f => .w Forms.movs f
  | .movl f => .w Forms.movl f
  | .sel f => .w Forms.sel f
  | .vrel f => .w Forms.vrel f
  | .vzero f => .w Forms.vzero f
  | .sread f => .w Forms.sread f
  | .swrite f => .w Forms.swrite f
  | .glaunch f => .w Forms.glaunch f
  | .deviceQueueTake _ => .event
  | .gsig f => .w Forms.gsig f
  | .gwait f => .w Forms.gwait f
  | .gwaitWake _ => .event
  | .gcount f => .w Forms.gcount f
  | .wid f => .w Forms.wid f
  | .exit f => .s Forms.exit f
  | .addS f => .s Forms.addS f
  | .subS f => .s Forms.subS f
  | .andS f => .s Forms.andS f
  | .orS f => .s Forms.orS f
  | .xorS f => .s Forms.xorS f
  | .shlS f => .s Forms.shlS f
  | .shrS f => .s Forms.shrS f
  | .sarS f => .s Forms.sarS f
  | .add f => .w Forms.add f
  | .sub f => .w Forms.sub f
  | .and f => .w Forms.and f
  | .or f => .w Forms.or f
  | .xor f => .w Forms.xor f
  | .shl f => .w Forms.shl f
  | .shr f => .w Forms.shr f
  | .sar f => .w Forms.sar f
  | .adds f => .w Forms.adds f
  | .subs f => .w Forms.subs f
  | .absd f => .w Forms.absd f
  | .min f => .w Forms.min f
  | .max f => .w Forms.max f
  | .andn f => .w Forms.andn f
  | .rot f => .w Forms.rot f
  | .abs f => .w Forms.abs f
  | .not f => .w Forms.not f
  | .mul f => .w Forms.mul f
  | .mulh f => .w Forms.mulh f
  | .mad f => .w Forms.mad f
  | .div f => .w Forms.div f
  | .rem f => .w Forms.rem f
  | .bfe f => .w Forms.bfe f
  | .bfi f => .w Forms.bfi f
  | .popc f => .w Forms.popc f
  | .clz f => .w Forms.clz f
  | .ctz f => .w Forms.ctz f
  | .brev f => .w Forms.brev f
  | .cmp f => .w Forms.cmp f
  | .lea f => .w Forms.lea f
  | .fadd f => .w Forms.fadd f
  | .fsub f => .w Forms.fsub f
  | .fmul f => .w Forms.fmul f
  | .fmin f => .w Forms.fmin f
  | .fmax f => .w Forms.fmax f
  | .fabs f => .w Forms.fabs f
  | .fneg f => .w Forms.fneg f
  | .fscale f => .w Forms.fscale f
  | .fma f => .w Forms.fma f
  | .fcmp f => .w Forms.fcmp f
  | .fclass f => .w Forms.fclass f
  | .fdot f => .w Forms.fdot f
  | .cvt f => .w Forms.cvt f
  | .frnd f => .w Forms.frnd f
  | .cvtq f => .w Forms.cvtq f
  | .cvtdq f => .w Forms.cvtdq f
  | .frcp f => .w Forms.frcp f
  | .frsq f => .w Forms.frsq f
  | .fsqrt f => .w Forms.fsqrt f
  | .fdiv f => .w Forms.fdiv f
  | .fexp2 f => .w Forms.fexp2 f
  | .flog2 f => .w Forms.flog2 f
  | .fsin f => .w Forms.fsin f
  | .fcos f => .w Forms.fcos f
  | .ftanh f => .w Forms.ftanh f
  | .vote f => .w Forms.vote f
  | .ballot f => .w Forms.ballot f
  | .elect f => .w Forms.elect f
  | .pwidth f => .w Forms.pwidth f
  | .matchOp f => .w Forms.matchOp f
  | .shfl f => .w Forms.shfl f
  | .shfx f => .w Forms.shfx f
  | .shfup f => .w Forms.shfup f
  | .shfdn f => .w Forms.shfdn f
  | .bcast f => .w Forms.bcast f
  | .lred f => .w Forms.lred f
  | .scan f => .w Forms.scan f
  | .compact f => .w Forms.compact f
  | .isect f => .w Forms.isect f
  | .lds f => .w Forms.lds f
  | .sts f => .w Forms.sts f
  | .ldc f => .w Forms.ldc f
  | .stc f => .w Forms.stc f
  | .ldcComplete _ => .event
  | .scopy f => .w Forms.scopy f
  | .sfill f => .w Forms.sfill f
  | .scopyComplete _ => .event
  | .ld f => .w Forms.ld f
  | .st f => .w Forms.st f
  | .gath f => .w Forms.gath f
  | .scat f => .w Forms.scat f
  | .loadReply _ _ _ => .event
  | .pref f => .w Forms.pref f
  | .hflush f => .w Forms.hflush f
  | .hflushComplete _ => .event
  | .hget f => .w Forms.hget f
  | .hset f => .w Forms.hset f
  | .xlat f => .w Forms.xlat f
  | .xlatInv f => .w Forms.xlat f
  | .xlatAll f => .w Forms.xlat f
  | .pageWalk _ _ _ => .event
  | .icinv f => .s Forms.icinv f
  | .fence f => .s Forms.fence f
  | .sfence f => .s Forms.sfence f
  | .wdone f => .s Forms.wdone f
  | .twait f => .w Forms.twait f
  | .twaitL f => .w Forms.twait f
  | .tnow f => .w Forms.tnow f
  | .writeArrival _ _ => .event
  | .writeWReturn _ => .event
  | .hostWrite _ _ _ _ _ => .event
  | .hostRead _ _ _ _ _ => .event
  | .atom f => .w Forms.atom f
  | .cas f => .w Forms.cas f
  | .atomicReply _ _ => .event
  | .ownershipGrant _ _ _ _ => .event
  | .sectorRelease _ _ => .event
  | .red f => .w Forms.red f
  | .redflush f => .s Forms.redflush f
  | .redPartialArrival _ => .event
  | .satom f => .w Forms.satom f
  | .scas f => .w Forms.scas f
  | .bar f => .w Forms.bar f
  | .nbar f => .w Forms.nbar f
  | .barx f => .w Forms.barx f
  | .barrierReleaseWave _ _ _ _ => .event
  | .barw f => .w Forms.barw f
  | .objectUpdate _ => .event
  | .cpy f => .w Forms.cpy f
  | .cpyg f => .w Forms.cpyg f
  | .cpys f => .w Forms.cpys f
  | .copyComplete _ _ => .event
  | .bclose f => .s Forms.bclose f
  | .bwait f => .w Forms.bwait f
  | .cbrun f => .w Forms.cbrun f
  | .chainBlock _ _ _ => .event
  | .chainRetest _ _ _ => .event
  | .cbsig f => .w Forms.cbsig f
  | .cbstat f => .w Forms.cbstat f
  | .mma f => .w Forms.mma f
  | .mmas f => .w Forms.mmas f
  | .mmab f => .w Forms.mmab f
  | .passGrant _ => .event
  | .passComplete _ => .event
  | .azero f => .w Forms.azero f
  | .ascale f => .w Forms.ascale f
  | .arel f => .w Forms.arel f
  | .aload f => .w Forms.aload f
  | .astore f => .w Forms.astore f
  | .atransferComplete _ => .event
  | .aread f => .w Forms.aread f
  | .awrite f => .w Forms.awrite f
  | .wmarkS f => .s Forms.wmarkS f
  | .wmark f => .w Forms.wmark f
  | .wquery f => .w Forms.wquery f
  | .wcfgRevert f => .w Forms.wcfg f
  | .wcfgForce f => .w Forms.wcfg f
  | .wcfgDrop f => .w Forms.wcfg f
  | .windowAdvanceRequest _ _ => .event
  | .windowBoundary _ _ => .event
  | .tailTimer _ _ => .event
  | .trapS f => .s Forms.trapS f
  | .trap f => .w Forms.trap f
  | .tret f => .w Forms.tret f
  | .rsys f => .w Forms.rsys f
  | .wsys f => .w Forms.wsys f
  | .ctxctlWrite _ _ _ => .event
  | .htbaseWrite _ _ _ => .event
  | .ptrootWrite _ _ _ => .event
  | .tlctlWrite _ _ _ => .event
  | .acctagWrite _ _ _ => .event
  | .splbaseWrite _ _ _ => .event
  | .cswapFlip f => .w Forms.cswap f
  | .cswapOut f => .w Forms.cswap f
  | .cswapIn f => .w Forms.cswap f
  | .bankDrainDone _ => .event
  | .unitExchange _ _ => .event
  | .heldOperationComplete _ => .event
  | .ckill f => .w Forms.ckill f
  | .cstop f => .w Forms.cstop f
  | .cresume f => .w Forms.cresume f
  | .frameRetry _ => .event
  | .fsig f => .w Forms.fsig f
  | .fwait f => .w Forms.fwait f
  | .fmcrDrain f => .w Forms.fmcr f
  | .fmcrDark f => .w Forms.fmcr f
  | .fmcrRelock f => .w Forms.fmcr f
  | .fmcrRoute f => .w Forms.fmcr f
  | .fmcrGroup f => .w Forms.fmcr f
  | .fmcrQuery f => .w Forms.fmcr f
  | .trc f => .w Forms.trc f
  | .cnt f => .w Forms.cnt f
  | .cntSnap f => .w Forms.cnt f
  | .cntSaved f => .w Forms.cnt f
  | .launchTake _ _ => .event
  | .launchEligible _ => .event
  | .bindRecord _ _ _ _ _ => .event
  | .blockStart _ _ _ => .event
  | .blockEnd _ _ _ => .event
  | .launchComplete _ => .event
  | .queueSwitchOut _ _ => .event
  | .queueSwitchIn _ _ => .event
  | .qtailWrite _ _ _ => .event
  | .qcfgWrite _ _ _ => .event
  | .registerWrite _ _ _ _ => .event
  | .colourFail _ _ _ => .event
  | .hostLinkDown => .event
  | .fabidWrite _ _ => .event
  | .hostSnoop _ _ => .event
  | .poolExtentRelease _ _ => .event
  | .poolExtentGrant _ _ _ _ => .event
  | .poolPublication _ _ _ _ => .event
  | .peerRequest _ _ => .event
  | .fabricRequestTimeout _ => .event
  | .fibreLockLoss _ _ => .event
  | .markerReturn _ _ => .event
  | .mcrDelivery _ _ _ _ => .event
  | .memberLost _ _ => .event
  | .triggerReceived _ _ _ => .event
  | .ceilingInterval _ => .event
  | .pstateTransitionDone _ => .event
  | .thermalCap _ _ => .event
  | .overCurrent _ => .event
  | .blockRelaunch _ => .event
  | .thermalCut _ _ _ => .event
  | .pwceilWrite _ _ => .event
  | .clpstWrite _ _ _ => .event
  | .parkctlWrite _ _ => .event
  | .diePark _ => .event
  | .dieUnpark _ => .event
  | .counterTake _ _ => .event
  | .traceDrain _ _ => .event
  | .trcfgWrite _ _ => .event
  | .dbgholdHold _ _ => .event
  | .dbgholdRelease _ _ => .event
  | .ptcmdQuiesce _ => .event
  | .quiesceComplete _ => .event
  | .phobosBankEmpty _ _ => .event
  | .ptcmdRelease _ => .event
  | .ptcmdReshape _ => .event
  | .reshapeComplete => .event
  | .correctableError _ _ => .event
  | .uncorrectableError _ _ => .event
  | .resync _ _ => .event
  | .attest _ _ _ => .event
  | .powerOnReset _ => .event
  | .twaitExpiry _ => .event
  | .fenceRetire _ => .event
  | .hostLinkActive => .event
  | .backInvalidateResponse _ _ _ => .event
  | .fibreGroupLocked _ _ => .event
  | .fmcrTimeout _ => .event

/-- Whether an instruction is well formed: its fields meet no row of Table FM-8 that its own bits decide, and, where forms share
a minor code, its OPT or length is that of its constructor. No encoding holds an event. -/
def wellFormed (i : Instr) : Bool :=
  match view i with
  | .head h => !headIllegal h
  | .s fm f => !fm.illegal f && !fm.reserved f
  | .w fm f => !fm.illegal f && !fm.reserved f && decide (fm.con f = i)
  | .event => false

end Sys2Proof
end

