-- ==== Sys2Proof/Decode.lean ====
section
/-! DEFINITION. The decoder, total on any bytes, and the encoder (02_formats R26-R36, R50, R51). -/

namespace Sys2Proof

open Sys2Proof.Machine

/-! ## The opcode map -/

namespace Forms
open Sys2Proof.Machine.Forms

/-- The forms of the W, L and X majors, by major and minor (Table FM-6). -/
def formList : List Form :=
  [ifOp, elseOp, loop, breakOp, cont, endloop, loopn, bra, brs, call, brx, callx] ++
  [split, rejoin, mov, movs, movl, sel, vrel, vzero, sread, swrite, glaunch, gsig] ++
  [gwait, gcount, wid, add, sub, and, or, xor, shl, shr, sar, adds] ++
  [subs, absd, min, max, andn, rot, abs, not, mul, mulh, mad, div] ++
  [rem, bfe, bfi, popc, clz, ctz, brev, cmp, lea, fadd, fsub, fmul] ++
  [fmin, fmax, fabs, fneg, fscale, fma, fcmp, fclass, fdot, cvt, frnd, cvtq] ++
  [cvtdq, frcp, frsq, fsqrt, fdiv, fexp2, flog2, fsin, fcos, ftanh, vote, ballot] ++
  [elect, pwidth, matchOp, shfl, shfx, shfup, shfdn, bcast, lred, scan, compact, isect] ++
  [ld, st, gath, scat, pref, hflush, hget, hset, xlat, twait, tnow, lds] ++
  [sts, ldc, stc, scopy, sfill, satom, scas, atom, cas, red, bar, nbar] ++
  [barx, barw, cpy, cpyg, cpys, bwait, cbrun, cbsig, cbstat, mma, mmas, mmab] ++
  [azero, ascale, arel, aload, astore, aread, awrite, wmark, wquery, wcfg, trap, tret] ++
  [rsys, wsys, cswap, ckill, cstop, cresume, fsig, fwait, fmcr, trc, cnt]

/-- The forms of the S majors. -/
def sformList : List SForm :=
  [nop, yld, endif, ret, movS, movsS, exit, addS, subS, andS, orS, xorS] ++
  [shlS, shrS, sarS, icinv, fence, sfence, wdone, redflush, bclose, wmarkS, trapS]

end Forms

/-! ## Decoding -/

/-- What the bits at an address are: an instruction, an encoding that raises cause 0x01, or one that raises cause 0x02 unless
where it stands raises 0x01 (R52); with its FSEL if its form is flag-setting. -/
inductive Decoded where
  | ok (i : Instr)
  | illegal
  | reserved (fsel : Nat)
  deriving DecidableEq, Repr

/-- The length in bytes of the instruction that begins with these bits (Table FM-1). -/
def extentOf (w : BitVec 128) : Nat := 4 + 4 * (w.extractLsb' 0 2).toNat

/-- The fields of Table FM-2, with the tail the length calls for (Table FM-4, R32) and the type (R35). -/
def fieldsOf (w : BitVec 128) (ty : Ty) : Fields :=
  { cls := w.extractLsb' 62 2, opt := w.extractLsb' 59 3, fsel := w.extractLsb' 57 2, lud := w.getLsbD 56, lub := w.getLsbD 55,
    lua := w.getLsbD 54, b := w.extractLsb' 43 11, a := w.extractLsb' 32 11, d := w.extractLsb' 21 11, ty := ty,
    tail := match (w.extractLsb' 0 2).toNat with
      | 2 => .l (w.extractLsb' 64 32)
      | 3 => .x (w.extractLsb' 64 11) (w.getLsbD 75) (w.extractLsb' 76 32) (w.extractLsb' 108 20)
      | _ => .w }

/-- The fields of an S instruction (R34). -/
def sfieldsOf (w : BitVec 128) : SFields :=
  { lud := w.getLsbD 31, lua := w.getLsbD 30, sty := w.extractLsb' 28 2, a := w.extractLsb' 20 8, d := w.extractLsb' 12 8 }

/-- The fields of a clause header (Table FM-7). -/
def headerOf (w : BitVec 128) : Header :=
  { stall := w.extractLsb' 38 8, nohaz := w.getLsbD 37, rejoin := w.getLsbD 36, yld := w.getLsbD 35, setb := w.extractLsb' 31 4,
    seta := w.extractLsb' 27 4, wait := w.extractLsb' 15 12, clen := w.extractLsb' 9 6 }

/-- Decodes a clause header. -/
def decodeHead (w : BitVec 128) : Decoded :=
  if headIllegal (headerOf w) then .illegal
  else if (w.extractLsb' 46 18).toNat != 0 then .reserved 0
  else .ok (.beginClause (headerOf w))

/-- Decodes an S encoding of a major and minor. -/
def decodeS (w : BitVec 128) (maj min : Nat) : Decoded :=
  match Forms.sformList.find? fun fm => fm.maj == maj && fm.min == min with
  | none => .illegal
  | some fm =>
    let f := sfieldsOf w
    if fm.illegal f then .illegal else if fm.reserved f then .reserved 0 else .ok (fm.con f)

/-- Decodes a W, L or X encoding of a major and minor. -/
def decodeW (w : BitVec 128) (maj min : Nat) : Decoded :=
  match Forms.formList.find? fun fm => fm.maj == maj && fm.min == min, Forms.tyOfCode (w.extractLsb' 15 6).toNat with
  | some fm, some ty =>
    let f := fieldsOf w ty
    if fm.illegal f then .illegal
    else if fm.reserved f then .reserved (if fm.fs then f.fsel.toNat else 0)
    else .ok (fm.con f)
  | _, _ => .illegal

/-- Decodes an instruction from its bits, those past its length ignored (R26-R36, R51). -/
def decode (w : BitVec 128) : Decoded :=
  let maj := (w.extractLsb' 2 7).toNat
  let len := (w.extractLsb' 0 2).toNat
  if maj = 0 then (if len = 1 then decodeHead w else .illegal)
  else if len = 0 then decodeS w maj (w.extractLsb' 9 3).toNat
  else decodeW w maj (w.extractLsb' 9 6).toNat

/-- Decodes the instruction at the head of bytes in memory order; bytes that are missing read 0. -/
def decodeBytes (bs : List Byte) : Decoded := decode (BitVec.ofNat 128 (ofBytes (bs.take 16)))

/-- Whether an encoding is of a form that ends its clause (R39): every form of majors 0x02 to 0x05, ret and exit. -/
def endsClause (w : BitVec 128) : Bool :=
  let maj := (w.extractLsb' 2 7).toNat
  let s := (w.extractLsb' 0 2).toNat == 0
  (decide (2 ≤ maj) && decide (maj ≤ 5)) || (s && maj == 1 && (w.extractLsb' 9 3).toNat == 3) ||
    (s && maj == 0x17 && (w.extractLsb' 9 3).toNat == 0)

/-- The bytes of an instruction whose bits are w, numbered from the least significant bit of its first byte; the bits from nbits
on are 0. -/
def tableBytes (nbits w : Nat) : List Byte := toBytes 16 (w % 2 ^ nbits)

/-- What the decoder reads from an opcode-table word of nbits bits. -/
def decodeTableWord (nbits w : Nat) : Option Instr :=
  match decodeBytes (tableBytes nbits w) with
  | .ok i => some i
  | _ => none

/-! ## Encoding -/

/-- The W strip of an instruction (Table FM-2). -/
def stripOf (fm : Form) (f : Fields) : BitVec 64 :=
  f.cls ++ f.opt ++ f.fsel ++ BitVec.ofBool f.lud ++ BitVec.ofBool f.lub ++ BitVec.ofBool f.lua ++ f.b ++ f.a ++ f.d ++
    BitVec.ofNat 6 (tyCode f.ty) ++ BitVec.ofNat 6 fm.min ++ BitVec.ofNat 7 fm.maj ++ BitVec.ofNat 2 f.lenCode

/-- What stands above the strip (Table FM-4, R32); 0 where the instruction is over. -/
def tailOf : Ext → BitVec 64
  | .w => 0
  | .l v => 0#32 ++ v
  | .x c u i e => e ++ i ++ BitVec.ofBool u ++ c

/-- The word of an S instruction (R34). -/
def swordOf (fm : SForm) (f : SFields) : BitVec 32 :=
  BitVec.ofBool f.lud ++ BitVec.ofBool f.lua ++ f.sty ++ f.a ++ f.d ++ BitVec.ofNat 3 fm.min ++ BitVec.ofNat 7 fm.maj ++ 0#2

/-- The word of a clause header (Table FM-7). -/
def headWord (h : Header) : BitVec 64 :=
  0#18 ++ h.stall ++ BitVec.ofBool h.nohaz ++ BitVec.ofBool h.rejoin ++ BitVec.ofBool h.yld ++ h.setb ++ h.seta ++ h.wait ++ h.clen ++
    0#7 ++ 1#2

/-- The bits of a well-formed instruction, 0 above its length. -/
def encode (i : Instr) : BitVec 128 :=
  match view i with
  | .head h => 0#64 ++ headWord h
  | .s fm f => 0#96 ++ swordOf fm f
  | .w fm f => tailOf f.tail ++ stripOf fm f
  | .event => 0

end Sys2Proof
end

