-- ==== Sys2Proof/Config.lean ====
section
/-! DEFINITION. What the spec leaves open: free values, constants without a body, so that nothing proved about the model
rests on what they are (assumption log 2, 6). -/

namespace Sys2Proof.Config

open Sys2Proof.Machine

/-- The turn that comes when the agenda is empty: what the schedulers, engines, firmware and the outside world do next, and
how much Orrery time passes before it. [DESIGN CHOICE, safe: log 2] -/
opaque nextTurn : Nat → Turn

/-- Draw number n of an open choice or value. -/
opaque free : Nat → Nat

/-- Which of the results its bound admits an .f32 transcendental form returns for an input (09_float R190): by form and input
code. [DEDUCED, safe: log 33] -/
opaque f32Pick : Nat → Nat → Nat

/-- What a save area that does not hold what a cswap.out left there is loaded as (18_contexts R355). -/
opaque restoredImage : Nat → Image

/-- The gangs it then holds, by slot. -/
opaque restoredGangs : Nat → Tab Gang

end Sys2Proof.Config
end

