-- ==== Sys2Proof/Machine/Mem.lean ====
section
/-! DEFINITION. Device memory: reads at an instant, writes that take their W, translation and handle entries
(13_consistency R247-R249; 12_handles R221-R227, R239-R242; 01_package R15, R16, R19). -/

namespace Sys2Proof.Machine

open Sys2Proof

/-! ## Numbers of things -/

/-- The key of the image of a context on a core. -/
def imgKey (core ctx : Nat) : Nat := core * 65536 + ctx
/-- The key of a gang: core, context and slot. -/
def gangKey (core ctx slot : Nat) : Nat := imgKey core ctx * 64 + slot
/-- The core of a gang key. -/
def gkCore (gk : Nat) : Nat := gk / 64 / 65536
/-- The context of a gang key. -/
def gkCtx (gk : Nat) : Nat := gk / 64 % 65536
/-- The slot of a gang key. -/
def gkSlot (gk : Nat) : Nat := gk % 64
/-- The compute die of a core (R15). -/
def coreDie (core : Nat) : Nat := core / 96
/-- The cluster of a core (R15). -/
def coreCluster (core : Nat) : Nat := core / 4
/-- The third of a core (R16). -/
def coreThird (core : Nat) : Nat := core / 288

/-- The partition that holds third t, where the map gives one (R16). -/
def thirdPart (hw : Hw) (t : Nat) : Option Nat := hw.pkg.map[t]?
/-- The partition of a core. -/
def corePart (hw : Hw) (core : Nat) : Option Nat := if core < 864 then thirdPart hw (coreThird core) else none
/-- How many thirds partition p holds. -/
def thirds (hw : Hw) (p : Nat) : Nat := (hw.pkg.map.filter (· == p)).length
/-- The core clock of a performance state in units of 10 MHz (20_power R384). -/
def psClock (cur : Nat) : Nat :=
  match cur with
  | 0 => 200 | 1 => 180 | 2 => 160 | 3 => 140 | 4 => 120 | 5 => 100 | 6 => 80 | _ => 60
/-- Bytes of memory of partition p: 256 GiB for each third (01_package). -/
def partBytes (hw : Hw) (p : Nat) : Nat := thirds hw p * 2 ^ 38
/-- Home slices of partition p (R19). -/
def nSlices (hw : Hw) (p : Nat) : Nat := 64 * thirds hw p
/-- The home slice of a partition-relative address (R19). -/
def homeSlice (n pa : Nat) : Nat :=
  let g := bits 39 8 pa
  let q := g / n
  let k := (q ^^^ (q >>> 8) ^^^ (q >>> 16)) % n
  ((g % n) + k) % n

/-- Partition p, or the unlisted one. -/
def Hw.part (hw : Hw) (p : Nat) : Part := hw.parts.val {} p
/-- Core k, or one at reset. -/
def Hw.core (hw : Hw) (k : Nat) : Core := hw.cores.val {} k
/-- Cluster k, or one at reset. -/
def Hw.cluster (hw : Hw) (k : Nat) : Cluster := hw.clusters.val {} k
/-- The image of a context on a core, or one that is away. -/
def Hw.image (hw : Hw) (core ctx : Nat) : Image := hw.images.val {} (imgKey core ctx)
/-- The core cycles that a cluster has run by time t (00_scope R3; 20_power R385): they follow its clock, that of the new state once a
transition under way ends, stand still while it is held, and stop while it is parked or has failed. -/
def cyclesBy (c : Cluster) (t : Nat) : Nat :=
  if c.offSince.isSome then c.cycles
  else c.cycles + (t - c.cycleAt) * psClock (match c.goal with | some g => g.1 | none => c.cur) / 100
/-- The core cycles that cluster k has run by time t. -/
def clusterCycles (hw : Hw) (k t : Nat) : Nat := cyclesBy (hw.cluster k) t
/-- The cycles of the cluster of a core by time t. -/
def coreCycles (hw : Hw) (core t : Nat) : Nat := clusterCycles hw (coreCluster core) t
/-- Changes partition p. -/
def Hw.setPart (hw : Hw) (p : Nat) (f : Part → Part) : Hw := { hw with parts := hw.parts.ins p (f (hw.part p)) }
/-- Changes core k. -/
def Hw.setCore (hw : Hw) (k : Nat) (f : Core → Core) : Hw := { hw with cores := hw.cores.ins k (f (hw.core k)) }
/-- Changes cluster k. -/
def Hw.setCluster (hw : Hw) (k : Nat) (f : Cluster → Cluster) : Hw := { hw with clusters := hw.clusters.ins k (f (hw.cluster k)) }
/-- Changes the image of a context on a core. -/
def Hw.setImage (hw : Hw) (core ctx : Nat) (f : Image → Image) : Hw :=
  { hw with images := hw.images.ins (imgKey core ctx) (f (hw.image core ctx)) }
/-- Changes a gang. -/
def Hw.setGang (hw : Hw) (gk : Nat) (f : Gang → Gang) : Hw := { hw with gangs := hw.gangs.upd gk f }
/-- Changes context c of partition p, if live. -/
def Hw.setCtx (hw : Hw) (p c : Nat) (f : Context → Context) : Hw :=
  hw.setPart p fun q => { q with contexts := q.contexts.upd c f }
/-- Context c of partition p, if live (18_contexts R341). -/
def Hw.ctx (hw : Hw) (p c : Nat) : Option Context := (hw.part p).contexts.look c
/-- Logs a message that leaves the package (log 7). [DESIGN CHOICE, safe: log 7] -/
def Hw.send (hw : Hw) (kind part : Nat) (words : List Nat) : Hw := { hw with sent := hw.sent ++ [⟨kind, part, words⟩] }

/-- The next draw of an open choice, and the state after it (log 6). [DESIGN CHOICE, safe: log 6] -/
def Hw.draw (hw : Hw) : Nat × Hw := (Config.free hw.free, { hw with free := hw.free + 1 })

/-! ## Reads -/

/-- The memory of partition p. -/
def memOf (m : Tab Memory) (p : Nat) : Memory := m.val [] p
/-- One byte of partition p as every observer sees it now (R249). -/
def rdByte (m : Tab Memory) (p a : Nat) : Byte := (memOf m p).val 0 a
/-- n bytes from address a on. -/
def rdBytes (m : Tab Memory) (p a n : Nat) : List Byte := (List.range n).map fun i => rdByte m p (a + i)
/-- The n-byte number at address a. -/
def rdNat (m : Tab Memory) (p a n : Nat) : Nat := ofBytes (rdBytes m p a n)

/-- The byte a write leaves at address a, if it covers a. -/
def PWrite.byte (w : PWrite) (a : Nat) : Option Byte := if w.addr ≤ a then w.bytes[a - w.addr]? else none
/-- Whether a write covers one of the n bytes from a on. -/
def PWrite.covers (w : PWrite) (a n : Nat) : Bool := decide (a < w.addr + w.bytes.length) && decide (w.addr < a + n)
/-- The byte at address a once every write that has its W is visible. -/
def latestByte (m : Tab Memory) (pend : List PWrite) (p a : Nat) : Byte :=
  pend.foldl (fun b w => (w.byte a).getD b) (rdByte m p a)
/-- n bytes once every write that has its W is visible: what an atomic that takes its W now finds (R247). -/
def latestNat (m : Tab Memory) (hw : Hw) (p a n : Nat) : Nat :=
  ofBytes ((List.range n).map fun i => latestByte m (hw.part p).pend p (a + i))

/-! ## Writes -/

/-- The line of an address: 128 bytes (01_package). -/
def lineOf (a : Nat) : Nat := a / 128

/-- The unit in which writes take their Ws one after another: a line of device memory, or a host sector at the bridge, whose copies stand
from 2^60 on (R248, R262). -/
def orderUnit (a : Nat) : Nat := if a < 2 ^ 60 then lineOf a else a / 64

/-- The W of a write to a line that arrives at time t (R248 item 3): past every lease of the line, and past every W the line
has given that is not past yet. -/
def assignW (q : Part) (line t : Nat) : Nat :=
  let base := Nat.max t (q.leases.val 0 line) + 2
  let last := q.pend.foldl (fun m w => if orderUnit w.addr = line then Nat.max m w.w else m) 0
  if base ≤ last then last + 1 else base

/-- The elements of an operation. -/
def OpKind.elems : OpKind → List Elem
  | .load es _ => es
  | .store es _ => es
  | .atomic es _ _ _ _ _ => es
  | .counter e _ => [e]
  | .partialSum e _ _ _ _ => [e]
  | .fsig e => [e]
  | .copy c => (c.todo.filter fun x => x.st == 5).map fun x => { lane := 0, tgt := x.tgt, va := x.va, st := 5 }
  | _ => []
/-- Lines on which a write of another operation is held by a full Tail: later writes to them wait (R337). -/
def lineHeld (hw : Hw) (p line id : Nat) : Bool :=
  (hw.ops.any fun o => o.part == p && o.id != id && o.held && o.kind.elems.any fun e => e.st == 5 && lineOf e.tgt.pa == line) ||
    hw.launches.any fun l => l.2.part == p && l.2.doneHeld && l.2.donePa / 128 == line

/-- Whether the host holds the line of an address through CXL.mem (19_links R365). -/
def hostHolds (hw : Hw) (p a : Nat) : Bool := decide (a < 2 ^ 60) && (hw.part p).link.hostLines.contains (lineOf a)
/-- Whether a write to an address gets no W yet: the host holds its line, or a full Tail holds a write to it (19_links R365; 17_tail
R337). -/
def lineBlocked (hw : Hw) (p a : Nat) : Bool := hostHolds hw p a || lineHeld hw p (lineOf a) 0
/-- The device asks the host for a line of an address, if the host holds it (19_links R365). -/
def snoop (hw : Hw) (p a : Nat) : Hw := if hostHolds hw p a then hw.send 2 p [lineOf a * 128] else hw

/-- A write that arrives at time t takes its W and is pending (R248); it must lie in one line. Answers the W, which is not yet the last
word where the line is blocked. [DEDUCED, safe: log 73] -/
def putWrite (hw : Hw) (p t a : Nat) (bs : List Byte) (id gk paths : Nat) : Nat × Hw :=
  let w := assignW (hw.part p) (orderUnit a) t
  let b := lineBlocked hw p a
  (w, (snoop hw p a).setPart p fun q => { q with
    pend := q.pend ++ [{ w := w, addr := a, bytes := bs, id := id, gk := gk, paths := paths, blocked := b }] })
/-- A write of the host, whose lines need no snoop (R261). -/
def putHost (hw : Hw) (p t a : Nat) (bs : List Byte) : Nat × Hw :=
  let w := assignW (hw.part p) (orderUnit a) t
  (w, hw.setPart p fun q => { q with pend := q.pend ++ [{ w := w, addr := a, bytes := bs, blocked := lineHeld hw p (lineOf a) 0 }] })

/-- The device's own write of 64-bit words at an 8-byte-aligned address, each with its own arrival and W (18_contexts R348). [DESIGN CHOICE, safe: log 19] -/
def devWrite (hw : Hw) (p t a : Nat) : List Nat → Hw
  | [] => hw
  | v :: vs =>
    let d := hw.draw
    devWrite (putWrite d.2 p (t + d.1 % 1000) a (toBytes 8 v) 0 0 0).2 p t (a + 8) vs

/-- The greatest W still pending in partition p, or t. -/
def lastPend (hw : Hw) (p t : Nat) : Nat := (hw.part p).pend.foldl (fun m w => Nat.max m w.w) t

/-- One word of the device that takes a W later than every write that has one (04_launch R85, 18_contexts R348). -/
def devWriteLast (hw : Hw) (p t a v : Nat) : Hw :=
  let b := lineBlocked hw p a || (hw.part p).pend.any (·.blocked)
  let w := assignW (hw.part p) (orderUnit a) (lastPend hw p t)
  (snoop hw p a).setPart p fun q => { q with pend := q.pend ++ [{ w := w, addr := a, bytes := toBytes 8 v, blocked := b, last := b }] }
/-- Writes that waited for their lines take their W at time t, each line's in the order of arrival and behind every write that has one
(R248; 19_links R365; 17_tail R337). -/
def unblock (hw : Hw) (p t : Nat) : Hw :=
  ((hw.part p).pend.filter (·.blocked)).foldl (fun (h : Hw) w =>
    let q := h.part p
    let before := q.pend.takeWhile (· != w)
    if lineBlocked h p w.addr || before.any (fun x => x.blocked && (w.last || orderUnit x.addr == orderUnit w.addr)) then h
    else h.setPart p fun q => { q with pend := q.pend.erase w ++ [{ w with
      blocked := false, last := false, w := assignW q (orderUnit w.addr) (if w.last then lastPend h p t else t) }] }) hw

/-- Stores bytes at consecutive addresses; a byte equal to 0 is not listed. -/
def storeBytes (m : Memory) (a : Nat) : List Byte → Memory
  | [] => m
  | b :: bs => storeBytes (m.put 0 a b) (a + 1) bs

/-! ## Translation -/

/-- What a leaf gives: KIND, permissions, level and the target of the address. -/
structure Trans where
  kind : Nat
  x : Bool
  a : Bool
  w : Bool
  r : Bool
  level : Nat
  pa : Nat
  deriving DecidableEq, Repr

/-- The bits of an address that lie inside a page of a level. -/
def pageBits (level : Nat) : Nat := if level = 0 then 16 else if level = 1 then 21 else 30

/-- The index of an address at a level (R239). -/
def levelIdx (level va : Nat) : Nat :=
  if level = 3 then bits 56 43 va else if level = 2 then bits 42 30 va else if level = 1 then bits 29 21 va else bits 20 16 va

/-- log2 of the size of a table of a level (R239). -/
def tableBits (level : Nat) : Nat := if level = 3 then 17 else if level = 2 then 16 else if level = 1 then 12 else 8

/-- What leaf e of a level gives for an address. -/
def leafTrans (e level va : Nat) : Trans :=
  { kind := bits 61 59 e, x := bit 58 e, a := bit 57 e, w := bit 56 e, r := bit 55 e, level := level,
    pa := bits 51 8 e * 256 + va % 2 ^ pageBits level }

/-- Whether a leaf entry is well formed (R240). -/
def leafOk (e level : Nat) : Bool :=
  level != 3 && bits 54 52 e == 0 && bits 7 0 e == 0 && (bits 51 8 e * 256) % 2 ^ pageBits level == 0

/-- Whether a non-leaf entry is well formed, and its table lies in the partition (R239, R240). -/
def tableOk (hw : Hw) (p e level : Nat) : Bool :=
  level != 0 && bits 62 52 e == 0 && bits 7 0 e == 0 && bits 51 40 e == 0 &&
    (bits 51 8 e * 256) % 2 ^ tableBits (level - 1) == 0 && decide (bits 51 8 e * 256 < partBytes hw p)

/-- Walks from a table of a level (R239-R241): the leaf and its level, or the failing level. -/
def walkFrom (hw : Hw) (m : Tab Memory) (p va : Nat) : (level table : Nat) → Except Nat TEntry
  | level, table =>
    let e := rdNat m p (table + 8 * levelIdx level va) 8
    if !bit 63 e then .error level
    else if bit 62 e then (if leafOk e level then .ok ⟨e, level⟩ else .error level)
    else if tableOk hw p e level then
      match level with
      | 0 => .error 0
      | l + 1 => walkFrom hw m p va l (bits 51 8 e * 256)
    else .error level

/-- Walks the page tables of a context (R240). -/
def walk (hw : Hw) (m : Tab Memory) (p ctx va : Nat) : Except Nat TEntry :=
  if va ≥ 2 ^ 57 then .error 3
  else match hw.ctx p ctx with
  | none => .error 3
  | some c => if c.ptroot ≥ partBytes hw p then .error 3 else walkFrom hw m p va 3 c.ptroot

/-- The key under which translations of a page are kept. -/
def tKey (ctx va : Nat) : Nat := ctx * 2 ^ 41 + va / 2 ^ 16

/-- Whether a translation kept under key k covers an address of a context (R243). -/
def tCovers (k : Nat) (e : TEntry) (ctx va : Nat) : Bool :=
  k / 2 ^ 41 == ctx && (k % 2 ^ 41 * 2 ^ 16) / 2 ^ pageBits e.level == va / 2 ^ pageBits e.level
/-- The kept translations that cover an address of a context, each once (R242). -/
def knownTrans (q : Part) (ctx va : Nat) : List TEntry :=
  (q.tcache.flatMap fun k => k.2.filter fun e => tCovers k.1 e ctx va).foldl (fun l e => if l.contains e then l else l ++ [e]) []

/-- Translates an address of a context (R240-R242): a translation from some value the entry has held since the last
invalidation. When only one is possible, it is that one; else an open choice decides. [DEDUCED, safe: log 25] -/
def translate (hw : Hw) (m : Tab Memory) (p ctx va : Nat) : Except Nat Trans × Hw :=
  if va ≥ 2 ^ 57 then (.error 3, hw) else
  let use (r : Except Nat TEntry) : Except Nat Trans :=
    match r with
    | .error l => .error l
    | .ok e =>
      let t := leafTrans e.leaf e.level va
      if t.kind = 0 ∧ t.pa ≥ partBytes hw p then .error e.level else .ok t
  let known := knownTrans (hw.part p) ctx va
  let fresh := walk hw m p ctx va
  let add (e : TEntry) : Hw := match use (.ok e) with
    | .ok _ => hw.setPart p fun q => { q with tcache := q.tcache.ins (tKey ctx va) (e :: q.tcache.val [] (tKey ctx va)) }
    | .error _ => hw
  match known, fresh with
  | [], .ok e => (use (.ok e), add e)
  | [], .error l => (.error l, hw)
  | e :: es, r =>
    let same := match r with | .ok e' => decide (e' = e) | .error _ => false
    if es.isEmpty && same then (use (.ok e), hw)
    else
      let d := hw.draw
      let hw' := { (match r with | .ok e' => if (e :: es).contains e' then hw else add e' | .error _ => hw) with free := d.2.free }
      let i := d.1 % (es.length + 2)
      (use (if i = 0 then r else .ok ((e :: es).getD (i - 1) e)), hw')

/-! ## Handles -/

/-- A handle entry: its four words, and whether it lies in the partition's memory (R222, R227). -/
structure Handle where
  base : Nat
  len : Nat
  space : Nat
  policy : Nat
  r : Bool
  w : Bool
  a : Bool
  peer : Nat
  tgt : Nat
  ok : Bool
  deriving DecidableEq, Repr

/-- The address of a word of a handle entry of a context. -/
def handleAddr (c : Context) (h k : Nat) : Nat := c.htbase + 32 * h + 8 * k

/-- Reads handle h of a context, with the validity of R227. [DEDUCED, unsafe: log 26] -/
def readHandle (hw : Hw) (m : Tab Memory) (p ctx h : Nat) : Handle :=
  match hw.ctx p ctx with
  | none => ⟨0, 0, 0, 0, false, false, false, 0, 0, false⟩
  | some c =>
    let inMem := decide (handleAddr c h 0 + 32 ≤ partBytes hw p)
    let rd k := if inMem then rdNat m p (handleAddr c h k) 8 else 0
    let w0 := rd 0
    let w1 := rd 1
    let w2 := rd 2
    let w3 := rd 3
    let sp := bits 62 60 w2
    { base := bits 56 0 w0, len := bits 56 0 w1, space := sp, policy := bits 59 58 w2,
      r := bit 57 w2, w := bit 56 w2, a := bit 55 w2, peer := bits 16 0 w2, tgt := bits 31 0 w3,
      ok := inMem && bit 63 w2 && decide (sp ≤ 4) && decide (bits 59 58 w2 ≠ 3) && bits 63 57 w0 == 0 && bits 63 57 w1 == 0 &&
        bits 54 17 w2 == 0 && bits 63 32 w3 == 0 && (sp == 2 || bits 16 0 w2 == 0) && (sp == 3 || sp == 4 || bits 31 0 w3 == 0) }

end Sys2Proof.Machine
end

