-- ==== Sys2Proof/Machine/Undo.lean ====
section
/-! DEFINITION. The windows of a Tail: boundaries, advance requests and the records each window keeps (17_tail R326-R329,
R337). -/

namespace Sys2Proof.Machine

open Sys2Proof

/-- The window number behind k (R329). -/
def winNext (k : Nat) : Nat := (k + 1) % 2 ^ 32
/-- Whether window a is at or before window b (R329). -/
def winLe (a b : Nat) : Bool := decide ((b + 2 ^ 32 - a % 2 ^ 32) % 2 ^ 32 < 2 ^ 31)
/-- CUR becomes the new number at an announced boundary that has come (R329). -/
def TailSt.roll (t : Nat) (x : TailSt) : TailSt :=
  match x.announced with
  | some b => if b ≤ t then { x with cur := winNext x.cur, announced := none, bounds := x.bounds.ins (winNext x.cur) b } else x
  | none => x
/-- The window that an instant at or after now lies in, by the boundaries announced (R329). -/
def TailSt.winAt (t : Nat) (x : TailSt) : Nat := (x.roll t).cur
/-- An advance request at time t: the window and boundary answered, and the Tail after it (R329). -/
def TailSt.request (t : Nat) (x : TailSt) : Nat × Nat × TailSt :=
  let y := x.roll t
  match y.announced with
  | some b => (winNext y.cur, b, y)
  | none => (winNext y.cur, t + 256, { y with announced := some (t + 256) })
/-- An advance the control makes of itself: while a revert works it is put off (R330, R337, R339). -/
def TailSt.advance (t : Nat) (x : TailSt) : TailSt :=
  if !x.en then x else if x.busy && (x.roll t).announced.isNone then { x with reqs := x.reqs ++ [.plain] } else (x.request t).2.2
/-- Sends an advance request to the control (R330). -/
def TailSt.ask (r : AdvReq) (x : TailSt) : TailSt := if x.en then { x with reqs := x.reqs ++ [r] } else x

/-- The key of the irreversible area, and of the step area (R326). -/
def irrevShare : Nat := 2 ^ 32
/-- The step area. -/
def stepShare : Nat := 2 ^ 32 + 1
/-- Records a share holds: Q for a home slice (R326), 2,048 for the irreversible area. -/
def TailSt.cap (n : Nat) (x : TailSt) (j : Nat) : Nat := if j = irrevShare then 2048 else (x.len - 0x50000) / (160 * n)
/-- The records of a share. -/
def TailSt.recs (x : TailSt) (j : Nat) : List TailRec := x.shares.val [] j
/-- Bytes of the region that hold retained records: USED (R324). -/
def TailSt.usedBytes (x : TailSt) : Nat := x.shares.foldl (fun n s => s.2.foldl (fun n r => n + r.size) n) 0
/-- Discards the records of the windows that f selects, in every area. -/
def TailSt.discard (x : TailSt) (f : Nat → Bool) : TailSt :=
  { x with shares := x.shares.map (fun s => (s.1, s.2.filter fun r => !f r.window)), irrev := x.irrev.filter fun e => !f e.1,
           bounds := x.bounds.filter fun e => !f e.1 }
/-- Discards window OLD (R337). -/
def TailSt.dropOld (x : TailSt) : TailSt := let k := x.old; { x.discard (· == k) with old := winNext k }
/-- Discards windows from OLD on, never CUR, until enough holds, at most fuel of them (R337). -/
def TailSt.recycle (enough : TailSt → Bool) : Nat → TailSt → TailSt
  | 0, x => x
  | n + 1, x => if enough x || x.old == x.cur then x else recycle enough n x.dropOld

/-- The partition-relative address of byte off of the region (R325). -/
def TailSt.at (x : TailSt) (off : Nat) : Nat :=
  match x.pins.find? fun p => decide (p.1 ≤ off) && decide (off < p.1 + p.2.1) with
  | some p => p.2.2 + (off - p.1)
  | none => 0

/-- %window of a context at time t (Table RG-4, R329). -/
def windowOf (hw : Hw) (p ctx t : Nat) : Nat :=
  match hw.ctx p ctx with | some c => if c.tail.en then c.tail.winAt t else 0 | none => 0

end Sys2Proof.Machine
end

