-- ==== Sys2Proof/Machine/StepLog.lean ====
section
/-! DEFINITION. What a single-stepped instruction writes and changes, as its step record will hold it (17_tail R334, R335;
05_paths R91, R93, R118). -/

namespace Sys2Proof.Machine

open Sys2Proof

/-- The values that stand in a table before and not, or otherwise, after: what a step changed. -/
def changed {α : Type} [DecidableEq α] (old new : Tab α) : Tab (Option α) :=
  (old.filterMap fun x => if new.look x.1 = some x.2 then none else some (x.1, some x.2)) ++
    (new.filterMap fun x => if old.has x.1 then none else some (x.1, none))
/-- Logs changes, the first old value of each key standing. -/
def logTab {α : Type} (log : Tab (Option α)) (ch : Tab (Option α)) : Tab (Option α) :=
  ch.foldl (fun t x => if t.has x.1 then t else t.ins x.1 x.2) log
/-- The same where an unlisted key reads d. -/
def logTabD {α : Type} (d : α) (log : Tab α) (ch : Tab (Option α)) : Tab α :=
  ch.foldl (fun t x => if t.has x.1 then t else t.ins x.1 (x.2.getD d)) log
/-- The table image of an entry (Table PA-1). -/
def entryImage (q : Path) : List Nat :=
  [2 ^ 63 + (match q.state with | .ready => 0 | .rejoin => 1 | .parked => 2 | .stopped => 3 | .held => 4 | .barrier => 5) * 2 ^ 60 +
     b2n q.folded * 2 ^ 59 + q.pc.toNat % 2 ^ 57, q.mask.toNat * 2 ^ 32 + q.wmask.toNat, q.depth * 2 ^ 10 + q.parent * 2 ^ 6]
/-- PCTL as it reads (05_paths R93). -/
def pctlWord (g : Gang) : Nat := g.exited.toNat * 2 ^ 32 + b2n g.fold * 2 ^ 16 + g.paths.foldl (fun n x => n + 2 ^ x.1) 0
/-- A fold-array word as it reads (05_paths R93). -/
def foldWord (g : Gang) (l : Nat) : Nat :=
  match g.foldArr.look l with
  | some w => w.depth * 2 ^ 58 + b2n (w.wait == .rejoin) * 2 ^ 57 + w.pc.toNat % 2 ^ 57
  | none => 0
/-- Word i of the nesting counters as it reads (05_paths R93). -/
def nestWord (g : Gang) (i : Nat) : Nat := ((List.range 8).map fun k => g.nest.val 0 (8 * i + k) * 256 ^ k).sum
/-- Whether a step changed a gang's control state otherwise than by moving path p on. -/
def ctlChanged (old new : Gang) (p : Nat) : Bool :=
  let f (g : Gang) := (g.paths.map fun x => (x.1, (entryImage x.2).set 0 (if x.1 = p then 0 else (entryImage x.2).getD 0 0)), pctlWord g,
    allLanes.map (foldWord g), (List.range 4).map (nestWord g))
  decide (f old ≠ f new)
/-- Adds to a step's log what its own issue changed from a to b beside the registers it wrote: registers of its lanes and path, the gang's
control state and tiles of its block (R334, R335). -/
def StepLog.add (log : StepLog) (a b : Hw) : StepLog :=
  match a.gangs.look log.gk, b.gangs.look log.gk with
  | some g, some g' =>
    let core := gkCore log.gk
    let q := (g.paths.look log.path).getD {}
    let q' := (g'.paths.look log.path).getD {}
    let mine (k : Nat) : Bool := inLanes q.mask (k % 32)
    let b' := b.blocks.val {} g.block
    { log with
      v := logTab log.v ((changed g.vregs g'.vregs).filter fun x => mine x.1)
      s := logTab log.s (changed (q.sregs.map fun x => (x.1, x.2.v)) (q'.sregs.map fun x => (x.1, x.2.v)))
      fexc := logTabD 0 log.fexc ((changed g.fexc g'.fexc).filter fun x => mine x.1)
      srng := logTabD 1 log.srng ((changed g.srng g'.srng).filter fun x => mine x.1)
      ctl := if log.ctl.isSome then log.ctl else if ctlChanged g g' log.path then some g else none
      tiles := logTabD 0 log.tiles ((changed (a.core core).tiles (b.core core).tiles).filter fun x =>
        decide (b'.accb ≤ x.1 / 1024) && decide (x.1 / 1024 < b'.accb + b'.accn)) }
  | _, _ => log

/-- Changes the open step log of the path, if it is single-stepped (17_tail R335). -/
def logStep (hw : Hw) (part gk p : Nat) (f : StepLog → StepLog) : Hw :=
  match hw.ctx part (gkCtx gk) with
  | some c => match c.tail.stepLog with
    | some l => if l.gk = gk ∧ l.path = p then hw.setCtx part (gkCtx gk) fun c => { c with tail := { c.tail with stepLog := c.tail.stepLog.map f } } else hw
    | none => hw
  | none => hw
/-- What stood in registers that are written or released: vector lanes and scalars by their keys, the first value standing. -/
def StepLog.regs (g : Gang) (q : Path) (vs ss : List Nat) (l : StepLog) : StepLog :=
  { l with v := vs.foldl (fun t k => if t.has k then t else t.ins k (g.vregs.look k)) l.v
           s := ss.foldl (fun t k => if t.has k then t else t.ins k ((q.sregs.look k).map (·.v))) l.s }
/-- What stood in the %fexc and %srng lanes that are written. -/
def StepLog.flags (g : Gang) (fx sr : List Nat) (l : StepLog) : StepLog :=
  { l with fexc := fx.foldl (fun t k => if t.has k then t else t.ins k (g.fexc.val 0 k)) l.fexc
           srng := sr.foldl (fun t k => if t.has k then t else t.ins k (g.srng.val 1 k)) l.srng }
/-- What stood in the bytes ys of block blk, which are about to be written (11_scratchpad R220). -/
def StepLog.bytes (b : Block) (blk : Nat) (ys : List Nat) (l : StepLog) : StepLog :=
  { l with scr := ys.foldl (fun t y => if t.has (blk * 2 ^ 20 + y) then t else t.ins (blk * 2 ^ 20 + y) (b.scr.val 0 y)) l.scr }

/-- Changes the open step log of the path that operation o was started by, if it was in the stepped instruction (17_tail R334). -/
def logOp (hw : Hw) (o : Op) (f : StepLog → StepLog) : Hw :=
  (bitList 16 o.paths).foldl (fun h p => logStep h o.part o.gk p fun l => if l.since ≤ o.id then f l else l) hw
/-- Operation o is about to write bytes ys of block blk (11_scratchpad R220). -/
def noteScr (o : Op) (blk : Nat) (ys : List Nat) (hw : Hw) : Hw := logOp hw o (StepLog.bytes (hw.blocks.val {} blk) blk ys)
/-- Operation o changed tiles of its core from a to b (16_matrix R322). -/
def noteTiles (o : Op) (a b : Hw) : Hw :=
  logOp b o fun l => { l with tiles := logTabD 0 l.tiles (changed (a.core o.core).tiles (b.core o.core).tiles) }

/-- The stepped instruction of a path retires, but for its completion (17_tail R334). -/
def finStep (hw : Hw) (part gk p : Nat) : Hw := logStep hw part gk p fun l => { l with fin := true }

/-- The stepped instruction of a path made the change from a to b as it issued: its log, if open, takes it in (17_tail R335). -/
def noteStep (part gk p : Nat) (a b : Hw) : Hw := logStep b part gk p fun l => l.add a b

end Sys2Proof.Machine
end

