-- ==== Sys2Proof/Machine/Ops.lean ====
section
/-! DEFINITION. The named operations over paths, registers and operations in flight that every meaning uses: what an issuing
path sees, how an instruction retires, how paths divide and merge, how a trap is taken (00_scope R13; 02_formats R37-R46;
05_paths R91-R116; 06_registers R119-R131; 18_contexts R345-R348). -/

namespace Sys2Proof.Machine

open Sys2Proof

/-! ## The issuing path -/

/-- What an instruction sees when it issues: the machine, the path, its gang, and where they are. -/
structure Env where
  s : State
  gk : Nat
  p : Nat
  g : Gang
  q : Path
  part : Nat
  core : Nat
  ctx : Nat
  slot : Nat

/-- The lanes of an entry that move together: its mask, or for a folded path the lanes that stand at a form it waits at, else the lanes
at the issuing PC (R114). -/
def groupOf (g : Gang) (q : Path) : Lanes :=
  if q.folded then
    if q.moving ≠ 0 then q.moving &&& q.mask
    else lanesWhere fun l => inLanes q.mask l && (match g.foldArr.look l with
      | some w => decide (w.wait = .none) && w.pc == q.pc
      | none => false)
  else q.mask

/-- An entry as the lanes that move together see it: for a folded path that waits at a form, with their PC, clause and DEPTH (R114). -/
def seenAs (g : Gang) (q : Path) : Path :=
  if q.folded && q.moving != 0 then
    let w := g.foldArr.val {} (lowLane (groupOf g q))
    { q with pc := w.pc, cl := w.cl, depth := w.depth }
  else q

/-- The path the cursor names, if the machine holds it. -/
def env (s : State) : Option Env :=
  let r := s.cur.q
  let gk := gangKey r.core r.ctx r.slot
  match s.hw.gangs.look gk with
  | none => none
  | some g =>
    match g.paths.look r.path with
    | none => none
    | some q => some { s := s, gk := gk, p := r.path, g := g, q := seenAs g q, part := g.part, core := r.core, ctx := r.ctx, slot := r.slot }

/-- The machine but for memory, time and agenda. -/
def Env.hw (e : Env) : Hw := e.s.hw
/-- Orrery time of the issue (R246). -/
def Env.now (e : Env) : Nat := e.s.time
/-- Whether the issuing context is the partition's supervisor (18_contexts R342). -/
def Env.sup (e : Env) : Bool := e.ctx == (e.hw.part e.part).sup

/-- cnt(l) (R100). -/
def nestOf (g : Gang) (l : Nat) : Nat := g.nest.val 0 l
/-- act(p): the lanes of the group whose nesting counter is zero (Table SC-3, R114). -/
def actOf (g : Gang) (q : Path) : Lanes := lanesWhere fun l => inLanes (groupOf g q) l && nestOf g l == 0

/-- act(p) of the issuing path. -/
def Env.act (e : Env) : Lanes := actOf e.g e.q
/-- The active lanes in ascending order. -/
def Env.acts (e : Env) : List Nat := lanes e.act
/-- The lanes that move together. -/
def Env.grp (e : Env) : Lanes := groupOf e.g e.q

/-! ## Registers -/

/-- The value of a lane of a vector register; a lane that is not live reads 0 (R121). -/
def Gang.v (g : Gang) (r l : Nat) : Word := g.vregs.val 0 (32 * r + l)
/-- The value of a scalar register of a path (R120, R121). -/
def Path.sr (q : Path) (r : Nat) : Word := match q.sregs.look r with | some x => x.v | none => 0
/-- Lane l of register r of a class, as the issuing path reads it (R29, R120). -/
def Env.reg (e : Env) (k : Kind) (r l : Nat) : Word :=
  match k with
  | .v => e.g.v r l
  | .s => e.q.sr r
  | _ => 0

/-- Whether a write of lane l of vector register r of a gang is pending (R123). -/
def vPending (ops : List Op) (gk r l : Nat) : Bool :=
  ops.any fun o => o.gk == gk && (match o.dst with | .vec d m _ => d == r && inLanes m l | _ => false)
/-- Whether a write of scalar register r of path p of a gang is pending. -/
def sPending (ops : List Op) (gk p r : Nat) : Bool :=
  ops.any fun o => o.gk == gk && (match o.dst with | .scal d m _ => d == r && bit p m | _ => false)
/-- Whether the register of a class is free of pending writes, in the lanes ls (R95, R123). -/
def Env.avail (e : Env) (ls : List Nat) (k : Kind) (r : Nat) : Bool :=
  match k with
  | .v => ls.all fun l => !vPending e.hw.ops e.gk r l
  | .s => !sPending e.hw.ops e.gk e.p r
  | _ => true

/-! ## Operand fields -/

/-- The register fields of a W, L or X encoding of a form. -/
def regsF (fm : Form) (f : Fields) : Regs :=
  { d := f.d.toNat, a := f.a.toNat, b := f.b.toNat, c := f.c, sh := fm.sh f, lud := f.lud, lua := f.lua, lub := f.lub,
    luc := f.luc, len := f.len, fsel := f.fsel.toNat }

/-- The register fields of an S encoding of a form. -/
def regsS (fm : SForm) (f : SFields) : Regs :=
  { d := f.d.toNat, a := f.a.toNat, b := 0, c := 0, sh := { d := fm.d, a := fm.a, dR := fm.dR, dW := fm.dW }, lud := f.lud,
    lua := f.lua, lub := false, luc := false, len := 4, fsel := 0 }

/-- The lanes in which a form reads a vector source: the active ones, or every lane, whatever act(p) holds (09_float R187, R188; 16_matrix
R318). -/
def Env.readLanes (e : Env) (all : Bool) : List Nat := if all then allLanes else e.acts
/-- Whether every register the form reads is available (R95). -/
def Env.ready (e : Env) (r : Regs) : Bool :=
  (!r.sh.dR || e.avail e.acts r.sh.d r.d) && ((List.range r.sh.aN).all fun i => e.avail (e.readLanes r.sh.wideA) r.sh.a (r.a + i)) &&
    e.avail (e.readLanes r.sh.wide) r.sh.b r.b && e.avail (e.readLanes r.sh.wide) r.sh.c r.c

/-! ## Flags and counters of outstanding operations -/

/-- The count of completion flag k of a gang: the outstanding operations that will return it (R42, R43). -/
def flagCount (ops : List Op) (gk k : Nat) : Nat := (ops.filter fun o => o.gk == gk && o.flags.contains k).length

/-- The flags FSEL selects in a clause, each once (R43). -/
def selFlags (cl : Clause) (fsel : Nat) : List Nat :=
  let a := if bit 0 fsel then [cl.seta] else []
  let b := if bit 1 fsel then [cl.setb] else []
  if a = b then a else a ++ b

/-- Whether a selected flag has no room (R43). -/
def Env.flagsFull (e : Env) (fsel : Nat) : Bool := (selFlags e.q.cl fsel).any fun k => decide (flagCount e.hw.ops e.gk k ≥ 63)

/-- The outstanding counter of a launch on a core (04_launch R84). -/
def outstanding (hw : Hw) (core launch : Nat) : Nat :=
  (hw.ops.filter fun o => o.core == core && o.launch == launch && o.counts).length +
    (hw.images.filter fun i => i.1 / 65536 == core).foldl (fun n i => n + (i.2.chains.filter fun c =>
      c.2.launch == launch && (c.2.state == 1 || c.2.state == 2)).length) 0

/-- Whether the outstanding counter has no room (R84). -/
def Env.counterFull (e : Env) : Bool := decide (outstanding e.hw e.core e.g.launch ≥ 2 ^ 20 - 1)

/-- Waiting-table entries in use on a core: loads, gathers, xlat forms and glaunches in flight, and paths in gwait (R231). -/
def waitEntries (hw : Hw) (core : Nat) : Nat :=
  (hw.ops.filter fun o => o.core == core && o.entry).length +
    (hw.gangs.foldl (fun n g => if gkCore g.1 = core then
      n + (g.2.paths.filter fun q => match q.2.wait with
        | .gwait .. | .woken .. | .drain .. | .query _ true | .go true => true
        | _ => false).length else n) 0)

/-- The bank that holds a context on a core. -/
def bankOf (hw : Hw) (core ctx : Nat) : Nat := if (hw.core core).ctx1 = some ctx then 1 else 0
/-- The %gang identifier of a gang (Table RG-4). -/
def gangId (hw : Hw) (gk : Nat) : Nat := gkCore gk * 128 + bankOf hw (gkCore gk) (gkCtx gk) * 64 + gkSlot gk
/-- A new operation of the issuing path, following every earlier operation and pending write of the path. -/
def Env.newOp (e : Env) (r : Regs) (kind : OpKind) : Op :=
  { id := e.hw.nextId, part := e.part, core := e.core, ctx := e.ctx, gk := e.gk, paths := 2 ^ e.p,
    flags := selFlags e.q.cl r.fsel, launch := e.g.launch, block := e.g.block,
    after := ((e.hw.ops.filter fun o => o.gk == e.gk && bit e.p o.paths).map (·.id)) ++
      (((e.hw.part e.part).pend.filter fun w => w.gk == e.gk && bit e.p w.paths).map (·.id)), kind := kind
    path := e.p, gang := gangId e.hw e.gk, tag := e.g.tag }

/-- The destination of an operation: register d in the active lanes, or of the issuing path. -/
def Env.dest (e : Env) (r : Regs) : Dest :=
  match r.sh.d with
  | .v => .vec r.d e.act 0
  | .s => .scal r.d (2 ^ e.p) 0
  | _ => .none

/-! ## Writes, releases, allocation -/

/-- What a retiring instruction writes: lanes of vector registers (keyed 32 × register + lane), scalars of its path,
floating-point exceptions to add, generator states, nesting counters, and operations it starts. -/
structure Writes where
  v : List (Nat × Word) := []
  s : List (Nat × Word) := []
  ex : List (Nat × Nat) := []
  rng : List (Nat × Word) := []
  ops : List Op := []
  /-- further vector registers whose active lanes are released -/
  relV : List Nat := []

/-- The vector registers the fields release by last use (R31, R122). -/
def Regs.relV (r : Regs) : List Nat :=
  (if r.lud && r.sh.d == .v then [r.d] else []) ++ (if r.lua && r.sh.a == .v then [r.a] else []) ++
    (if r.lub && r.sh.b == .v then [r.b] else []) ++ (if r.luc && r.sh.c == .v then [r.c] else [])
/-- The scalar registers the fields release by last use. -/
def Regs.relS (r : Regs) : List Nat :=
  (if r.lud && r.sh.d == .s then [r.d] else []) ++ (if r.lua && r.sh.a == .s then [r.a] else []) ++
    (if r.lub && r.sh.b == .s then [r.b] else []) ++ (if r.luc && r.sh.c == .s then [r.c] else [])

/-- Marks the release of lanes of a register in the operations that will still write them (R123). -/
def markRelV (ops : List Op) (gk r : Nat) (m : Lanes) : List Op :=
  ops.map fun o => if o.gk = gk then (match o.dst with
    | .vec d k rel => if d = r then { o with dst := .vec d k (rel ||| (m &&& k)) } else o
    | _ => o) else o
/-- Marks the release of a scalar of path p in the operations that will still write it. -/
def markRelS (ops : List Op) (gk r p : Nat) : List Op :=
  ops.map fun o => if o.gk = gk then (match o.dst with
    | .scal d k rel => if d = r ∧ bit p k then { o with dst := .scal d k (rel ||| 2 ^ p) } else o
    | _ => o) else o
/-- A later write of lane l of register r: a pending write no longer reaches it (12_handles R230). -/
def claimV (ops : List Op) (gk r l : Nat) : List Op :=
  ops.map fun o => if o.gk = gk then (match o.dst with
    | .vec d m rel => if d = r then { o with dst := .vec d (m &&& ~~~(lanesOf (2 ^ l))) (rel &&& ~~~(lanesOf (2 ^ l))) } else o
    | _ => o) else o
/-- A later write of scalar r of path p. -/
def claimS (ops : List Op) (gk r p : Nat) : List Op :=
  ops.map fun o => if o.gk = gk then (match o.dst with
    | .scal d m rel => if d = r ∧ bit p m then { o with dst := .scal d (m - 2 ^ p) (if bit p rel then rel - 2 ^ p else rel) } else o
    | _ => o) else o

/-- Releases the lanes m of vector register r, after pending writes land (R122, R123). -/
def releaseV (hw : Hw) (gk r : Nat) (m : Lanes) : Hw :=
  { hw.setGang gk fun g => { g with vregs := (lanes m).foldl (fun t l =>
      if vPending hw.ops gk r l then t else t.del (32 * r + l)) g.vregs } with ops := markRelV hw.ops gk r m }
/-- Changes a path of a gang. -/
def setPath (hw : Hw) (gk p : Nat) (f : Path → Path) : Hw := hw.setGang gk fun g => { g with paths := g.paths.upd p f }
/-- Releases scalar r of path p (R122). -/
def releaseS (hw : Hw) (gk p r : Nat) : Hw :=
  { setPath hw gk p fun q => if sPending hw.ops gk p r then q else { q with sregs := q.sregs.del r } with
    ops := markRelS hw.ops gk r p }

/-- Writes lane l of a vector register (key 32 × r + l) of a gang. -/
def writeV (hw : Hw) (gk : Nat) (kv : Nat × Word) : Hw :=
  { hw.setGang gk fun g => { g with vregs := g.vregs.ins kv.1 kv.2 } with ops := claimV hw.ops gk (kv.1 / 32) (kv.1 % 32) }
/-- Writes a scalar of a path, in an entry of its own (R131). -/
def writeS (hw : Hw) (gk p : Nat) (kv : Nat × Word) : Hw :=
  { setPath hw gk p fun q => { q with sregs := q.sregs.ins kv.1 ⟨kv.2, hw.phys⟩ } with
    ops := claimS hw.ops gk kv.1 p, phys := hw.phys + 1 }

/-- Each element once, in order of first occurrence. -/
def dedup : List Nat → List Nat
  | [] => []
  | x :: t => x :: (dedup t).filter (· != x)

/-- The gangs of a context on a core. -/
def gangsOn (hw : Hw) (core ctx : Nat) : List (Nat × Gang) := hw.gangs.filter fun g => g.1 / 64 == imgKey core ctx
/-- The key a vector register of a gang slot has in Image.spilled. -/
def spillKeyV (slot r : Nat) : Nat := slot * 4096 + r
/-- The key a group of 32 scalars of a path has. -/
def spillKeyS (slot p grp : Nat) : Nat := 2 ^ 20 + (slot * 16 + p) * 8 + grp
/-- The vector registers of a gang with a live lane (R124). -/
def liveV (g : Gang) : List Nat := dedup (g.vregs.map (·.1 / 32))
/-- Every vector register and scalar group that is live in a context's gangs on a core, by spill key. -/
def heldKeys (hw : Hw) (core ctx : Nat) : List Nat × List Nat :=
  let gs := gangsOn hw core ctx
  (gs.flatMap fun g => (liveV g.2).map (spillKeyV (gkSlot g.1)),
   gs.flatMap fun g => g.2.paths.flatMap fun q => (dedup (q.2.sregs.map (·.1 / 32))).map (spillKeyS (gkSlot g.1) q.1))
/-- PHYSV: physical vector registers held by a context in its bank (Table RG-3). [DEDUCED, unsafe: log 103] -/
def physV (hw : Hw) (core ctx : Nat) : Nat :=
  let sp := (hw.image core ctx).spilled
  ((heldKeys hw core ctx).1.filter fun k => !sp.has k).length
/-- PHYSS: physical scalar entries held by a context in its bank (Table RG-3); copies share entries (R131). [DEDUCED, unsafe: log 103] -/
def physS (hw : Hw) (core ctx : Nat) : Nat :=
  let sp := (hw.image core ctx).spilled
  (dedup ((gangsOn hw core ctx).flatMap fun g => g.2.paths.flatMap fun q => q.2.sregs.filterMap fun x =>
    if sp.has (spillKeyS (gkSlot g.1) q.1 (x.1 / 32)) then none else some x.2.phys)).length

/-- The vector registers of a gang that a form which has issued is still to write: destinations of operations, and of forms that
paths wait at. -/
def awaitedV (hw : Hw) (gk : Nat) (g : Gang) : List Nat :=
  dedup ((hw.ops.flatMap fun o => if o.gk = gk then (match o.dst, o.kind with
      | .vec r _ _, _ => [r]
      | _, .tile _ (.aread d ty ..) => (List.range (Ty.width ty / 2)).map (d + ·)
      | _, _ => []) else []) ++
    g.paths.filterMap fun q => match q.2.form with
      | some r => if r.sh.dW ∧ r.sh.d = .v then some r.d else none
      | none => none)
/-- The scalars, as (path, register), that a form of a gang is still to write. -/
def awaitedS (hw : Hw) (gk : Nat) (g : Gang) : List (Nat × Nat) :=
  ((hw.ops.flatMap fun o => if o.gk = gk then (match o.dst with | .scal r ps _ => (bitList 16 ps).map fun p => (p, r) | _ => []) else []) ++
    g.paths.filterMap fun q => match q.2.form with
      | some r => if r.sh.dW ∧ r.sh.d = .s then some (q.1, r.d) else none
      | none => none).foldl (fun l x => if l.contains x then l else l ++ [x]) []
/-- Whether scalar r of path p of a gang is live in an entry that no other path shares (R124, R131). -/
def ownS (g : Gang) (p r : Nat) : Bool :=
  match (g.paths.look p).bind fun q => q.sregs.look r with
  | some x => g.paths.all fun q => q.1 == p || q.2.sregs.all fun y => y.2.phys != x.phys
  | none => false
/-- Vector registers of the file that are held, or kept free for a write to come. [DEDUCED, unsafe: log 103] -/
def usedV (hw : Hw) (core ctx : Nat) : Nat :=
  physV hw core ctx + ((gangsOn hw core ctx).map fun g => ((awaitedV hw g.1 g.2).filter fun r => !(liveV g.2).contains r).length).sum
/-- Scalar entries of the file that are held, or kept free for a write to come. [DEDUCED, unsafe: log 103] -/
def usedS (hw : Hw) (core ctx : Nat) : Nat :=
  physS hw core ctx + ((gangsOn hw core ctx).map fun g => ((awaitedS hw g.1 g.2).filter fun x => !ownS g.2 x.1 x.2).length).sum
/-- The spill keys of what a form is still to write, which is not evicted. -/
def awaitedKeys (hw : Hw) (core ctx : Nat) : List Nat :=
  (gangsOn hw core ctx).flatMap fun g => (awaitedV hw g.1 g.2).map (spillKeyV (gkSlot g.1)) ++
    (awaitedS hw g.1 g.2).map fun x => spillKeyS (gkSlot g.1) x.1 (x.2 / 32)

/-- The spilled registers and groups of a context that its gangs still hold (R127). -/
def liveSpilled (hw : Hw) (core ctx : Nat) : Tab Nat :=
  let sp := (hw.image core ctx).spilled
  if sp.isEmpty then [] else
    let ks := heldKeys hw core ctx
    sp.filter fun k => ks.1.contains k.1 || ks.2.contains k.1
/-- SLOTUSE: slots beyond the reserve that are in use (Table RG-3). -/
def slotUse (hw : Hw) (core ctx : Nat) : Nat := (dedup ((liveSpilled hw core ctx).vals.filter fun n => decide (4352 ≤ n))).length
/-- Frees the slots of spilled registers that nothing holds any more. -/
def pruneSpill (hw : Hw) (core ctx : Nat) : Hw :=
  if (hw.image core ctx).spilled.isEmpty then hw
  else hw.setImage core ctx fun i => { i with spilled := liveSpilled hw core ctx }
/-- A slot that is not in use: the one drawn, or the lowest. -/
def freeSlot (i : Image) (d : Nat) : Nat :=
  let used := i.spilled.vals
  let k := 4352 + d % (i.splSlots - 4352)
  if used.contains k then 4352 + ((List.range (used.length + 1)).find? fun j => !used.contains (4352 + j)).getD 0 else k

/-- Evicts registers or groups of one file of a bank while full says that room is lacking, at most n of them, each an open choice
among those resident that this instruction does not touch and no form is still to write, into an open choice of slot (R127). none when
none of them or no slot beyond the reserve is free (R128); must says that the room is for a reload, which never traps.
[DEDUCED, safe: log 31] [DEDUCED, safe: log 31] -/
def evict (hw : Hw) (core ctx : Nat) (scalar must : Bool) (busy : List Nat) (full : Hw → Bool) : Nat → Option Hw
  | 0 => some hw
  | n + 1 =>
    if !full hw then some hw
    else
      let im := hw.image core ctx
      let ks := heldKeys hw core ctx
      let cand := (if scalar then ks.2 else ks.1).filter fun k => !im.spilled.has k && !busy.contains k
      if cand.isEmpty then (if must then some hw else none)
      else if !must && decide (im.splSlots ≤ (dedup im.spilled.vals).length + 4352) then none
      else
        let d := hw.draw
        let d' := d.2.draw
        evict (d'.2.setImage core ctx fun i =>
          { i with spilled := i.spilled.ins (cand.getD (d.1 % cand.length) 0) (freeSlot i d'.1), evicts := (i.evicts + 1) % 2 ^ 32 })
          core ctx scalar must busy full n

/-- Takes the spilled registers an instruction touches back into the file (R127). -/
def reload (hw : Hw) (core ctx : Nat) (touch : List Nat) : Hw :=
  if (hw.image core ctx).spilled.isEmpty then hw
  else
    let sp := liveSpilled hw core ctx
    hw.setImage core ctx fun i =>
      { i with
        spilled := sp.filter fun k => !touch.contains k.1
        reloads := (i.reloads + (sp.filter fun k => touch.contains k.1).length) % 2 ^ 32 }

/-- Evicts for what was reloaded until the files of a bank use at most capV vector registers and capS scalar entries. -/
def makeRoom (hw : Hw) (core ctx : Nat) (busy : List Nat) (capV capS : Nat) : Option Hw :=
  (evict hw core ctx false true busy (fun h => decide (capV < usedV h core ctx)) 4096).bind fun h =>
    evict h core ctx true true busy (fun h => decide (capS < usedS h core ctx)) 8192
/-- Reloads the spilled registers an instruction touches, which never traps, and then makes room for newV vector registers and newS
scalar entries (R127, R128), in files of capV and capS. -/
def roomFor (hw : Hw) (core ctx capV capS newV newS : Nat) (touch : List Nat) : Option Hw :=
  let busy := touch ++ awaitedKeys hw core ctx
  (makeRoom (reload hw core ctx touch) core ctx busy capV capS).bind fun h =>
    (if newV = 0 then some h else evict h core ctx false false busy (fun h => decide (capV - newV < usedV h core ctx)) 4096).bind fun h =>
      if newS = 0 then some h else evict h core ctx true false busy (fun h => decide (capS - newS < usedS h core ctx)) 8192
/-- Makes room for newV vector registers and newS scalar entries beside what a bank holds: 4,096 and 8,192 of them (R124). none means
cause 0x13. -/
def allocate (hw : Hw) (core ctx : Nat) (newV newS : Nat) (touch : List Nat) : Option Hw := roomFor hw core ctx 4096 8192 newV newS touch

/-- Whether a path issues its form again after a wait that came before its effects. -/
def Wait.again : Wait → Bool
  | .release .. | .go _ => true
  | _ => false
/-- Whether the form that a path issues has not issued before, or issues again from its beginning. -/
def Path.fresh (q : Path) : Bool := q.wait.again || q.form.isNone
/-- The spill keys of the registers an instruction reads or writes; one that waited at its form has read before. -/
def touched (e : Env) (r : Regs) (w : Writes) : List Nat :=
  let one (k : Kind) (n : Nat) : List Nat :=
    match k with
    | .v => [spillKeyV e.slot n]
    | .s => [spillKeyS e.slot e.p (n / 32)]
    | _ => []
  (if e.q.fresh then one r.sh.d r.d ++ ((List.range r.sh.aN).flatMap fun i => one r.sh.a (r.a + i)) ++ one r.sh.b r.b ++ one r.sh.c r.c else []) ++
    (dedup (w.v.map (·.1 / 32))).map (spillKeyV e.slot) ++ w.s.map fun x => spillKeyS e.slot e.p (x.1 / 32)

/-- The destination registers of operations. -/
def dstV (ops : List Op) : List Nat := ops.filterMap fun o => match o.dst with | .vec r _ _ => some r | _ => none
/-- The scalar destinations of operations. -/
def dstS (ops : List Op) : List Nat := ops.filterMap fun o => match o.dst with | .scal r _ _ => some r | _ => none

/-- The vector registers among rs that a form of the path takes a physical register for (R124). -/
def Env.newV (e : Env) (hw : Hw) (rs : List Nat) : Nat :=
  ((dedup rs).filter fun n => !(liveV e.g).contains n && !(awaitedV hw e.gk e.g).contains n).length
/-- The scalars among rs that a form of the path takes an entry for. -/
def Env.newS (e : Env) (hw : Hw) (rs : List Nat) : Nat :=
  ((dedup rs).filter fun n => !ownS e.g e.p n && !(awaitedS hw e.gk e.g).contains (e.p, n)).length
/-- Room for the registers that a form writes, or that operations it starts will write (R124, R128). none means cause 0x13. -/
def commitRoom (e : Env) (r : Regs) (w : Writes) (hw : Hw) : Option Hw :=
  allocate hw e.core e.ctx (e.newV hw (w.v.map (·.1 / 32) ++ dstV w.ops)) (e.newS hw (w.s.map (·.1) ++ dstS w.ops)) (touched e r w)

/-- Applies the register effects of a retiring instruction: releases, then writes, then the operations it starts. none means
cause 0x13 (R122, R128). -/
def commit (e : Env) (r : Regs) (w : Writes) (hw : Hw) : Option Hw :=
  match commitRoom e r w hw with
  | none => none
  | some h0 =>
    let h1 := (r.relV ++ w.relV).foldl (fun h n => releaseV h e.gk n e.act) h0
    let h2 := r.relS.foldl (fun h n => releaseS h e.gk e.p n) h1
    let h3 := w.v.foldl (fun h x => writeV h e.gk x) h2
    let h4 := w.s.foldl (fun h x => writeS h e.gk e.p x) h3
    let h5 := h4.setGang e.gk fun g => { g with
      fexc := w.ex.foldl (fun t x => if x.2 = 0 then t else t.ins x.1 (t.val 0 x.1 ||| x.2)) g.fexc
      srng := w.rng.foldl (fun t x => t.ins x.1 x.2) g.srng }
    let claims := w.ops.foldl (fun o n => match n.dst with
      | .vec d m _ => (lanes m).foldl (fun o l => claimV o e.gk d l) o
      | .scal d _ _ => claimS o e.gk d e.p
      | .none => o) h5.ops
    let h6 := logStep h5 e.part e.gk e.p fun l => (l.regs e.g e.q ((r.relV ++ w.relV).flatMap (fun n => e.acts.map fun l => 32 * n + l) ++
      w.v.map (·.1)) (r.relS ++ if r.sh.unlogged then [] else w.s.map (·.1))).flags e.g ((w.ex.filter fun x => x.2 != 0).map (·.1)) (w.rng.map (·.1))
    some { h6 with ops := claims ++ w.ops, nextId := h6.nextId + w.ops.length }

/-! ## Moving paths -/

/-- Whether a lane waits at a barrier that has not opened. -/
def Wait.atBarrier : Wait → Bool
  | .bar | .nbar _ => true
  | _ => false
/-- Whether a lane waits for the wave of a barrier that has opened. -/
def Wait.inWave : Wait → Bool
  | .released _ => true
  | _ => false

/-- A folded entry whose lanes all hold one PC and one DEPTH as the ordinary path it becomes (R114). Lanes that all wait alike go on
waiting; among lanes that do not, the path issues the form at its PC again, those that arrived at a barrier counting as arrived.
[DEDUCED, unsafe: log 17] -/
def unfold (g : Gang) (q : Path) (ls : List Nat) (a : FoldLane) : Path :=
  let fl l := g.foldArr.val {} l
  let q' := { q with folded := false, pc := a.pc, depth := a.depth, cl := a.cl }
  let stands := decide (q.state = .stopped) || decide (q.state = .held)
  if a.wait ≠ .none ∧ (ls.all fun l => decide ((fl l).wait = a.wait)) ∧ !stands then
    { q' with
      state := if a.wait = .rejoin then .rejoin else .barrier
      wmask := if a.wait = .rejoin then ls.foldl (fun m l => m ||| (fl l).wmask) 0 else 0
      wait := if a.wait = .rejoin then .none else a.wait, form := a.form, insn := a.insn }
  else { q' with
    state := if q.state = .rejoin ∨ q.state = .barrier then .ready else q.state
    came := lanesWhere fun l => inLanes q.mask l && (fl l).wait.atBarrier }

/-- Recomputes what a folded entry shows: the lowest PC among its lanes that do not wait, or an ordinary path again when all
its lanes hold one PC and one DEPTH (R114), none of them waiting for a wave while others do not, and no form of it under way.
[DEDUCED, unsafe: log 17] [DEDUCED, unsafe: log 17] -/
def refold (g : Gang) (p : Nat) : Gang :=
  match g.paths.look p with
  | none => g
  | some q =>
    if !q.folded then g else
    let ls := lanes q.mask
    let fl l := g.foldArr.val {} l
    match ls with
    | [] => g
    | l0 :: _ =>
      let a := fl l0
      let same := (ls.all fun l => (fl l).pc == a.pc && (fl l).depth == a.depth) && decide (q.moving = 0) &&
        ((ls.all fun l => !(fl l).wait.inWave) || ls.all fun l => decide ((fl l).wait = a.wait))
      let run := ls.filter fun l => decide ((fl l).wait = .none)
      if same then
        { g with paths := g.paths.ins p (unfold g q ls a), foldArr := ls.foldl (fun t l => t.del l) g.foldArr }
      else match run with
        | [] =>
          if q.state = .stopped ∨ q.state = .held then g
          else { g with paths := g.paths.ins p { q with state := (if (ls.any fun l => decide ((fl l).wait = .rejoin)) then PState.rejoin else PState.barrier) } }
        | r0 :: rs =>
          let low := rs.foldl (fun m l => if (fl l).pc.toNat < (fl m).pc.toNat then l else m) r0
          let b := fl low
          { g with paths := g.paths.ins p { q with
                    pc := b.pc, depth := b.depth, cl := b.cl
                    state := if q.state = .rejoin ∨ q.state = .barrier then .ready else q.state
                    age := if q.state = .rejoin ∨ q.state = .barrier then 0 else q.age } }

/-- Sends the lanes m of path p to a PC in a clause state, their DEPTHs changed by dep. For an ordinary path m is all of it. -/
def sendLanes (g : Gang) (p : Nat) (m : Lanes) (pc : Word) (cl : Clause) (dep : Nat → Nat) : Gang :=
  match g.paths.look p with
  | none => g
  | some q =>
    if q.folded then
      refold { g with
        paths := g.paths.ins p { q with moving := 0 }
        foldArr := (lanes m).foldl (fun t l => t.ins l { t.val {} l with
          pc := pc, cl := cl, depth := dep (t.val {} l).depth, wait := .none, wmask := 0, form := none }) g.foldArr } p
    else { g with paths := g.paths.ins p { q with pc := pc, cl := cl, depth := dep q.depth } }

/-- The clause state after the instruction that ends at pc (R37, R41). -/
def Clause.after (c : Clause) (pc : Word) : Clause := if c.inside && pc == c.fin then { c with inside := false } else c

/-- Moves the issuing lanes past an instruction of len bytes (R37); the last instruction of a clause leaves it. -/
def Env.advance (e : Env) (len : Nat) (hw : Hw) : Hw :=
  let pc := e.q.pc + word len
  hw.setGang e.gk fun g => sendLanes g e.p e.grp pc (e.q.cl.after pc) id

/-- Changes the issuing path. -/
def Env.setPath (e : Env) (hw : Hw) (f : Path → Path) : Hw := Machine.setPath hw e.gk e.p f

/-- Adds path n to everything that counts as earlier for path p (13_consistency R250, 06_registers R131). -/
def inheritOps (hw : Hw) (gk part p n : Nat) : Hw :=
  let more (m : Nat) : Nat := if bit p m then m ||| 2 ^ n else m
  { hw.setPart part fun q => { q with pend := q.pend.map fun w => if w.gk = gk then { w with paths := more w.paths } else w } with
    ops := hw.ops.map fun o => if o.gk = gk then { o with paths := more o.paths, dst := (match o.dst with
      | .scal r m rel => .scal r (more m) (more rel)
      | d => d) } else o }

/-- The free path-table entries of a gang, ascending. -/
def freeEntries (g : Gang) : List Nat := (List.range 16).filter fun i => !g.paths.has i

/-- One group of a division: its lanes, destination, by how much its DEPTH rises and the scalar it writes. -/
structure Group' where
  m : Lanes
  pc : Word
  up : Nat := 0
  sw : Option (Nat × Word) := none

/-- Copies of spilled scalar groups share their slots with the path they are copied from (R131), so that a split needs no room.
[DEDUCED, safe: log 31] [DEDUCED, unsafe: log 104] -/
def shareSlots (hw : Hw) (gk p i : Nat) : Hw :=
  if p = i ∨ (hw.image (gkCore gk) (gkCtx gk)).spilled.isEmpty then hw
  else hw.setImage (gkCore gk) (gkCtx gk) fun im => { im with
    spilled := (List.range 8).foldl (fun t n => t.set (spillKeyS (gkSlot gk) i n) (im.spilled.look (spillKeyS (gkSlot gk) p n))) im.spilled }

/-- Places one group in entry i of a gang, as a copy of path q, which stands in entry p (R104). [DEDUCED, unsafe: log 104] -/
def placeGroup (hw : Hw) (gk : Nat) (q : Path) (p i parent : Nat) (x : Group') : Hw :=
  let h := shareSlots (hw.setGang gk fun g => { g with paths := g.paths.ins i { q with
    mask := x.m, pc := x.pc, cl := {}, depth := q.depth + x.up, parent := parent, age := 0, state := .ready, folded := false, wmask := 0,
    wait := .none, trap := none, stallTo := 0, holdReq := q.holdReq && p == i } }) gk p i
  match x.sw with
  | some kv => writeS h gk i kv
  | none => h

/-- Divides the issuing path into groups (R104): the group of the lowest lane stays, the others take the lowest free entries in
ascending order of their lowest lanes. Answers the number of entries needed when too few are free and FOLD is 0. -/
def Env.divide (e : Env) (hw : Hw) (gs : List Group') : Except Nat Hw :=
  let ne := gs.filter fun x => x.m != 0
  let low := lowLane e.grp
  if e.q.folded then
    let h1 := ne.foldl (fun h x => h.setGang e.gk fun g => { g with foldArr := (lanes x.m).foldl (fun t l =>
      t.ins l { t.val {} l with pc := x.pc, depth := (t.val {} l).depth + x.up, cl := {}, wait := .none, wmask := 0 }) g.foldArr }) hw
    let h2 := ne.foldl (fun h x => match x.sw with | some kv => writeS h e.gk e.p kv | none => h) h1
    .ok (h2.setGang e.gk fun g => refold g e.p)
  else
    let first := ne.filter fun x => inLanes x.m low
    let rest := (lanes e.grp).filterMap fun l => ne.find? fun x => lowLane x.m == l && !inLanes x.m low
    let free := freeEntries e.g
    if rest.length ≤ free.length then
      let h0 := (rest.zip free).foldl (fun h x => inheritOps h e.gk e.part e.p x.2) hw
      let h1 := first.foldl (fun h x => placeGroup h e.gk e.q e.p e.p e.q.parent x) h0
      .ok ((rest.zip free).foldl (fun h x => placeGroup h e.gk e.q e.p x.2 e.p x.1) h1)
    else if e.g.fold then
      let h1 := hw.setGang e.gk fun g => { g with
        paths := g.paths.ins e.p { e.q with folded := true, cl := {}, age := 0 }
        foldArr := ne.foldl (fun t x => (lanes x.m).foldl (fun t l => t.ins l { depth := e.q.depth + x.up, pc := x.pc }) t) g.foldArr }
      let h2 := ne.foldl (fun h x => match x.sw with | some kv => writeS h e.gk e.p kv | none => h) h1
      .ok (h2.setGang e.gk fun g => refold g e.p)
    else .error rest.length

/-- Takes entry i of a gang out of everything that names it. -/
def dropEntry (hw : Hw) (gk part i : Nat) : Hw :=
  let less (m : Nat) : Nat := if bit i m then m - 2 ^ i else m
  let h : Hw := { (hw.setPart part fun q => { q with pend := q.pend.map fun w => if w.gk = gk then { w with paths := less w.paths } else w }).setGang gk
        fun g => { g with paths := g.paths.del i } with
      ops := hw.ops.map fun o => if o.gk = gk then { o with paths := less o.paths, dst := (match o.dst with
      | .scal r m rel => .scal r (less m) (less rel)
      | d => d) } else o }
  pruneSpill h (gkCore gk) (gkCtx gk)

/-- Path k of a gang takes over what counts as earlier for path x (13_consistency R250). -/
def orderBehind (hw : Hw) (gk part x k : Nat) : Hw :=
  let h : Hw := { hw with ops := hw.ops.map fun o => if o.gk = gk ∧ bit x o.paths then { o with paths := o.paths ||| 2 ^ k } else o }
  h.setPart part fun t => { t with pend := t.pend.map fun w => if w.gk = gk ∧ bit x w.paths then { w with paths := w.paths ||| 2 ^ k } else w }

/-- Merges member paths into the entry that holds the lowest lane (R111): lanes unite, scalars come from that member, pending
scalars of the others are discarded, the age is the oldest member's. -/
def mergePaths (hw : Hw) (gk part : Nat) (members : List (Nat × Path)) (pc : Word) (cl : Clause) : Hw :=
  let u := members.foldl (fun m x => m ||| x.2.mask) (0 : Lanes)
  match members.find? fun x => inLanes x.2.mask (lowLane u) with
  | none => hw
  | some (k, q) =>
    let age := members.foldl (fun m x => Nat.max m x.2.age) 0
    let others := members.filter fun x => x.1 != k
    let h1 := others.foldl (fun (h : Hw) (x : Nat × Path) => dropEntry (orderBehind h gk part x.1 k) gk part x.1) hw
    h1.setGang gk fun g => { g with paths := g.paths.ins k { q with mask := u, pc := pc, cl := cl, age := age, state := .ready, wmask := 0, wait := .none } }

/-! ## Traps -/

/-- A cause an instruction raises: its code, INFO, fault address and lane hit mask. -/
structure Trap where
  cause : Nat
  info : Nat := 0
  fault : Nat := 0
  hit : Lanes := 0
  straddle : Option Nat := none

/-- Whether a cause always goes to the supervisor ring (Table CX-2). -/
def causeSup (c : Nat) : Bool := [0x04, 0x07, 0x09, 0x0A, 0x0B, 0x0C, 0x0D, 0x0E, 0x0F, 0x13].contains c

/-- The address of frame k of a ring (R348). -/
def Ring.frameAt (r : Ring) (k : Nat) : Nat := r.base + 0x80 + 128 * (k % 2 ^ r.log2n)

/-- The 16 words of a frame with the ring position of its posting (Table CX-3). -/
def frameWords (ws : List Nat) (seq : Nat) : List Nat := ws.set 8 (bits 31 0 seq * 2 ^ 32 + bits 31 0 (ws.getD 8 0))

/-- Posts a frame to a ring, if it is enabled and has room (R348). -/
def postFrame (hw : Hw) (m : Tab Memory) (p t : Nat) (r : Ring) (ws : List Nat) : Option Hw :=
  if !r.en then none else
  let prod := latestNat m hw p r.base 8
  let cons := rdNat m p (r.base + 8) 8
  if (prod + 2 ^ 64 - cons) % 2 ^ 64 ≥ 2 ^ r.log2n then none
  else
    let h1 := devWrite hw p t (r.frameAt prod) (frameWords ws prod)
    some (devWriteLast h1 p t r.base ((prod + 1) % 2 ^ 64))

/-- Counts a posted frame in its ring (TRAPSTAT, STRAPSTAT POSTED). -/
def Ring.post (r : Ring) : Ring := { r with posted := (r.posted + 1) % 2 ^ 32 }

/-- Delivers a frame (R348): to the context's ring at level C, escalated to the supervisor ring when that is disabled, to the
supervisor ring at level S; held by the core when there is no room. Answers the LEVEL of the frame as well. [DEDUCED, unsafe: log 53] -/
def deliver (hw : Hw) (m : Tab Memory) (p t core ctx : Nat) (sup : Bool) (ws : List Nat) : Nat × Hw :=
  let q := hw.part p
  let ring := match hw.ctx p ctx with | some c => c.ring | none => {}
  if !sup && ring.en then
    (0, match postFrame hw m p t ring ws with
          | some h => h.setCtx p ctx fun c => { c with ring := c.ring.post }
          | none => hw.setCore core fun k => { k with frames := k.frames ++ [⟨some ctx, ws⟩] })
  else
    let lvl := if sup then 1 else 2
    let ws' := ws.set 1 (ws.getD 1 0 + lvl * 2 ^ 46)
    let hw := if sup then hw else hw.setCtx p ctx fun c => { c with ring := { c.ring with esc := (c.ring.esc + 1) % 2 ^ 16 } }
    (lvl, match postFrame hw m p t q.sring ws' with
          | some h => h.setPart p fun q => { q with sring := q.sring.post }
          | none => hw.setCore core fun k => { k with frames := k.frames ++ [⟨none, ws'⟩] })

/-- WIN of a frame: %window, or 0 while the Tail is disabled (Table CX-3). -/
def frameWin (hw : Hw) (p ctx t : Nat) : Nat := windowOf hw p ctx t

/-- Whether the issuing path is single-stepped (17_tail R334). -/
def Env.stepped (e : Env) : Bool :=
  match e.hw.ctx e.part e.ctx with
  | some c => c.tail.en && c.tail.step && !c.tail.stepOver && c.tail.stepGang == gangId e.hw e.gk && c.tail.stepPath == e.p
  | none => false

/-- The bits that name every other valid entry of a gang. -/
def siblings (g : Gang) (p : Nat) : Nat := g.paths.foldl (fun n x => if x.1 = p then n else n + 2 ^ x.1) 0

/-- The frame of Table CX-3 for a path, without LEVEL and SEQ. -/
def trapFrame (s : State) (gk p : Nat) (g : Gang) (q : Path) (t : Trap) (len : Nat) (insn : Nat) : List Nat :=
  let ins := if t.cause = 0x04 then 0 else insn % 2 ^ (8 * len)
  [ t.hit.toNat * 2 ^ 32 + siblings g p * 2 ^ 16 + q.parent * 2 ^ 12 + p * 2 ^ 8 + t.cause,
    gkCtx gk * 2 ^ 48 + gangId s.hw gk, q.pc.toNat, t.straddle.getD q.pc.toNat, t.fault % 2 ^ 64,
    frameWin s.hw g.part (gkCtx gk) s.time * 2 ^ 32 + q.depth * 2 ^ 10, s.time % 2 ^ 64, g.tag.toNat, t.info % 2 ^ 32,
    bits 63 0 ins, bits 127 64 ins, 0, 0, 0, 0, 0 ]

/-- A trap on a path (R345): the path stops, its frame is built and delivered; every other path goes on. -/
def takeTrap (s : State) (hw : Hw) (gk p : Nat) (t : Trap) (len insn : Nat) : Hw :=
  match hw.gangs.look gk with
  | none => hw
  | some g =>
    match g.paths.look p with
    | none => hw
    | some q0 =>
      let q := seenAs g q0
      let sup := causeSup t.cause || gkCtx gk == (hw.part g.part).sup
      let ws := trapFrame { s with hw := hw } gk p g q t len insn
      let d := deliver hw s.mem g.part s.time (gkCore gk) (gkCtx gk) sup ws
      let next := q.pc + word len
      setPath d.2 gk p fun x => { x with
        state := .stopped, wait := .none, form := none, moving := if q.folded then groupOf g q0 else 0
        skipBp := x.skipBp || t.cause == 0x0D, skipWp := x.skipWp || t.cause == 0x0E
        trap := some (TrapRec.mk t.cause d.1 next (if t.cause = 0x15 then next else q.pc) 0) }

/-- A trap on the issuing path. -/
def Env.trap (e : Env) (t : Trap) : Hw := takeTrap e.s e.hw e.gk e.p t e.s.cur.len e.s.cur.insn.toNat

/-- A trap on the issuing path, which waits at a form (12_handles R234). -/
def Env.trapParked (e : Env) (hw : Hw) (t : Trap) : Hw :=
  takeTrap e.s hw e.gk e.p t (match e.q.form with | some r => r.len | none => 0) e.q.insn.toNat

/-! ## Issue -/

/-- What an instruction does when it issues. -/
inductive Res where
  /-- it cannot issue now: nothing changes -/
  | hold
  /-- it raises a cause and has no other effect (R13) -/
  | trap (t : Trap)
  /-- no lane is active: it retires with no effect (R94) -/
  | skip
  /-- it retires with these register effects, the machine otherwise as given, and the path goes on behind it -/
  | done (w : Writes) (hw : Hw)
  /-- it retires with these register effects and has placed its paths itself -/
  | moved (w : Writes) (hw : Hw)
  /-- it waits at the form, the machine as given -/
  | stay (hw : Hw)

/-- The state with another machine in it. -/
def State.with (s : State) (hw : Hw) : State := { s with hw := hw }

/-- SLOTS of the issuing context's region: INFO of cause 0x13 (Table CX-2). -/
def Env.slots (e : Env) : Nat := (e.hw.image e.core e.ctx).splSlots

/-- Cause 0x13 on the issuing path. -/
def Env.spillTrap (e : Env) : Hw := e.trap { cause := 0x13, info := e.slots, hit := e.act }

/-- The path as it stands once its form has retired: ready, and as old as any that has just issued (R95). -/
def Path.retired (q : Path) : Path :=
  { q with age := 0, skipBp := false, skipWp := false, came := 0, wait := .none, form := none
           state := if q.state = .parked ∨ q.state = .barrier then .ready else q.state }
/-- Whether the issuing path is held in hw (21_observe R407). -/
def Env.heldIn (e : Env) (hw : Hw) : Bool :=
  match (hw.gangs.look e.gk).bind fun g => g.paths.look e.p with | some q => decide (q.state = .held) | none => false
/-- Room for the destination of a form that waits, which it will write when it retires (R128); a path held at its form waits for
nothing. -/
def Env.waitRoom (e : Env) (r : Regs) (hw : Hw) : Option Hw :=
  if e.q.fresh && r.sh.dW && !e.heldIn hw then
    let nV := if r.sh.d = .v then e.newV e.hw [r.d] else 0
    let nS := if r.sh.d = .s then e.newS e.hw [r.d] else 0
    roomFor hw e.core e.ctx (4096 + nV) (8192 + nS) nV nS (touched e r {})
  else some hw

/-- Carries out what an instruction does. -/
def Env.finish (e : Env) (r : Regs) : Res → Hw
  | .hold => e.hw
  | .trap t => e.trap t
  | .skip => finStep (e.setPath (e.advance r.len e.hw) Path.retired) e.part e.gk e.p
  | .done w hw =>
    match commit e r w hw with
    | some h => finStep (e.setPath (e.advance r.len h) Path.retired) e.part e.gk e.p
    | none => e.spillTrap
  | .moved w hw =>
    match commit e r w hw with
    | some h => finStep (e.setPath h fun q => { q with age := 0, skipBp := false, skipWp := false, came := 0, wait := .none, form := none }) e.part e.gk e.p
    | none => e.spillTrap
  | .stay hw =>
    match e.waitRoom r hw with
    | some h => h
    | none => e.spillTrap

/-- Whether the issuing path may not issue an instruction of len bytes here: outside a clause, past its end, not last though
it ends its clause, or selecting a flag the header does not name (R37, R39, R44). [DEDUCED, safe: log 14] -/
def Env.badPlace (e : Env) (len : Nat) (ends : Bool) (fsel : Nat) : Bool :=
  let fin := e.q.pc.toNat + len
  !e.q.cl.inside || decide (e.q.cl.fin.toNat < fin) || (ends && e.q.cl.fin.toNat != fin) ||
    (bit 0 fsel && e.q.cl.seta == 15) || (bit 1 fsel && e.q.cl.setb == 15)

/-- The path waits, parked, for the registers that its next instruction reads (12_handles R230). -/
def Env.awaitOperands (e : Env) (r : Regs) : Hw :=
  e.setPath e.hw fun q => { q with
    state := .parked, wait := .operands, form := some { r with sh := { r.sh with dW := false } }, insn := e.s.cur.insn
    moving := if q.folded then e.grp else 0 }

/-- Issues an instruction (R51, R52): cause 0x01 for its place, 0x03 for privilege, and then its body. -/
def issue (s : State) (r : Regs) (ends sup : Bool) (body : Env → Res) : Out :=
  match env s with
  | none => .next s
  | some e =>
    if e.badPlace r.len ends r.fsel then .next (s.with (e.trap { cause := 0x01, hit := e.act }))
    else if sup && !e.sup then .next (s.with (e.trap { cause := 0x03, hit := e.act }))
    else if !e.ready r then .next (s.with (e.awaitOperands r))
    else .next (s.with (e.finish r (body e)))

/-- Issues a form of the lane-wise majors: with no active lane it retires with no effect (R94). -/
def issueAct (s : State) (r : Regs) (sup : Bool) (body : Env → Res) : Out :=
  issue s r false sup fun e => if e.act = 0 then .skip else body e

/-- Issues a W, L or X form. -/
def issueF (fm : Form) (f : Fields) (s : State) (body : Env → Regs → Res) : Out :=
  issueAct s (regsF fm f) fm.sup fun e =>
    if e.flagsFull f.fsel.toNat then .hold else body e (regsF fm f)

/-- Issues an S form. -/
def issueS (fm : SForm) (f : SFields) (s : State) (body : Env → Regs → Res) : Out :=
  issueAct s (regsS fm f) false fun e => body e (regsS fm f)

/-- Results by lane into register d: each active lane, or once for a scalar d (R119, R120). [DEDUCED, unsafe: log 106] -/
def Env.put (e : Env) (r : Regs) (f : Nat → Word) : Writes :=
  match r.sh.d with
  | .v => { v := e.acts.map fun l => (32 * r.d + l, f l) }
  | .s => { s := [(r.d, f (lowLane e.act))] }
  | _ => {}

/-- Leaves the issuing path waiting at its form (05_paths Table PA-2). -/
def Env.park (e : Env) (r : Regs) (st : PState) (w : Wait) (hw : Hw) : Hw :=
  e.setPath hw fun q => { q with
    state := st, wait := w, form := some r, insn := e.s.cur.insn, age := 0, came := 0
    moving := if q.folded then e.grp else 0 }

/-- The issuing lanes of a folded path wait at their form, the others going on (R114). -/
def foldWait (e : Env) (r : Regs) (w : Wait) (m : Lanes) (hw : Hw) : Hw :=
  hw.setGang e.gk fun g => refold { g with
    paths := g.paths.upd e.p fun q => { q with moving := 0, age := 0, wait := .none, form := none, state := if q.state = .parked then .ready else q.state }
    foldArr := (lanes e.grp).foldl (fun t l => t.upd l fun x => { x with wait := w, wmask := m, form := some r, insn := e.s.cur.insn }) g.foldArr } e.p

/-- The form a path waited at retires (R257). -/
def Env.retireParked (e : Env) (w : Writes) (hw : Hw) : Hw :=
  match e.q.form with
  | some r => { e with s := { e.s with cur := { e.s.cur with len := r.len, insn := e.q.insn } } }.finish r (.done w hw)
  | none => hw

/-- Cause 0x13 (R128, Table CX-2). -/
def Env.spill13 (e : Env) : Trap := { cause := 0x13, info := e.slots, hit := e.act }

/-- The fields without their last-use bits: nothing is released before the form retires. -/
def Regs.keep (r : Regs) : Regs := { r with lud := false, lua := false, lub := false, luc := false }

/-- Starts an operation: a blocking form waits parked for it, holding its destination; another goes on (R43, R230). -/
def Env.start (e : Env) (r : Regs) (op : Op) (blocking : Bool) (hw : Hw) : Res :=
  let op := { op with id := hw.nextId }
  if blocking then
    match commit e r.keep { ops := [op] } hw with
    | none => .trap e.spill13
    | some h => .stay (e.park r .parked (.op op.id) h)
  else .done { ops := [op] } hw

/-- A form that a unit is to answer (12_handles R243; 17_tail R333; 18_contexts R349, R358): it waits, parked, for a time that is open, and
then issues again and is done; tab says that it holds a waiting-table entry meanwhile (12_handles R231). [DESIGN CHOICE, safe: log 28] -/
def Env.asks (e : Env) (r : Regs) (tab : Bool) (body : Res) : Res :=
  match e.q.wait with
  | .go _ => body
  | _ =>
    if tab && decide (waitEntries e.hw e.core ≥ 512) then .hold
    else
      let d := e.hw.draw
      let h := if tab then d.2.setCore e.core fun c => { c with wtPeak := Nat.max c.wtPeak (waitEntries d.2 e.core + 1) } else d.2
      .stay (e.park r .parked (.query (e.now + d.1) tab) h)

/-- What a named path would see now. -/
def envAt (s : State) (q : PathRef) : Option Env := env { s with cur := { s.cur with q := q } }

/-- The path of a gang that waits for operation id. -/
def waiterOf (g : Gang) (id : Nat) : Option Nat := (g.paths.find? fun x => decide (x.2.wait = .op id)).map (·.1)

/-- Writes the result of a finished operation where it still belongs, and releases what waited for it (R123). -/
def landDest (hw : Hw) (gk : Nat) (d : Dest) (val : Nat → Word) : Hw :=
  match d with
  | .none => hw
  | .vec r m rel => hw.setGang gk fun g => { g with vregs := (lanes m).foldl (fun t l =>
      if inLanes rel l then t.del (32 * r + l) else t.ins (32 * r + l) (val l)) g.vregs }
  | .scal r ps rel =>
    { (bitList 16 ps).foldl (fun h p => setPath h gk p fun q =>
        { q with sregs := (if bit p rel then q.sregs.del r else q.sregs.ins r ⟨val 0, hw.phys⟩) }) hw with phys := hw.phys + 1 }
/-- Logs what an operation that lands writes, for the paths it belongs to (17_tail R335). -/
def logDest (hw : Hw) (o : Op) : Hw :=
  logOp hw o fun l => match hw.gangs.look o.gk with
    | none => l
    | some g => l.regs g (g.paths.val {} l.path) (match o.dst with | .vec r m _ => (lanes m).map fun l => 32 * r + l | _ => [])
        (match o.dst with | .scal r ps _ => if bit l.path ps then [r] else [] | _ => [])

/-- An operation is done: it goes, its flags and counters with it; the form that waits for it retires with its result, or the
result lands (R43, R84, R123, R230). -/
def landOp (s : State) (o : Op) (val : Nat → Word) : State :=
  let h := { s.hw with ops := s.hw.ops.filter fun x => x.id != o.id }
  match (match h.gangs.look o.gk with | some g => waiterOf g o.id | none => none) with
  | some p =>
    match envAt (s.with h) ⟨gkCore o.gk, gkCtx o.gk, gkSlot o.gk, p⟩ with
    | some e =>
      let w : Writes := match o.dst with
        | .vec r m _ => { v := (lanes m).map fun l => (32 * r + l, val l) }
        | .scal r _ _ => { s := [(r, val 0)] }
        | .none => {}
      s.with (e.retireParked w h)
    | none => s.with h
  | none => s.with (landDest (logDest h o) o.gk o.dst val)

/-- A status or value into scalar d. -/
def putS (r : Regs) (v : Nat) : Writes := { s := [(r.d, word v)] }

end Sys2Proof.Machine
end

