-- ==== Sys2Proof/Machine/Operands.lean ====
section
/-! DEFINITION. Operand forms: literals, sub-elements of registers, and lane-wise computation (02_formats R32; 06_registers
R119, R120; 08_integer R160). -/

namespace Sys2Proof.Machine

open Sys2Proof

/-- A pattern of width w in every sub-element. -/
def spread (w x : Nat) : Word := mapElems w fun _ => x

/-- The literal as the second source of a typed operation (R32). [DEDUCED, unsafe: log 105] -/
def literalFor (t : Ty) (lit : Nat) : Word :=
  match t with
  | .i64 => word (trunc (sext lit 32) 64)
  | .f64 => word (((Ty.fmt .f64).round 0 0 ((Ty.fmt .f32).val lit)).code)
  | _ => spread (Ty.width t) lit

/-- Source a of lane l. -/
def Env.va (e : Env) (r : Regs) (l : Nat) : Word := e.reg r.sh.a r.a l
/-- Source b of lane l: a register, or in L format the literal (R160). -/
def Env.vb (e : Env) (r : Regs) (f : Fields) (l : Nat) : Word := if f.isL then literalFor f.ty f.lit else e.reg r.sh.b r.b l
/-- Source c of lane l. -/
def Env.vc (e : Env) (r : Regs) (l : Nat) : Word := e.reg r.sh.c r.c l
/-- The old value of d in lane l. -/
def Env.vd (e : Env) (r : Regs) (l : Nat) : Word := e.reg r.sh.d r.d l
/-- Scalar operand a. -/
def Env.sa (e : Env) (r : Regs) : Word := e.q.sr r.a
/-- Scalar operand b. -/
def Env.sb (e : Env) (r : Regs) : Word := e.q.sr r.b
/-- Scalar operand d. -/
def Env.sd (e : Env) (r : Regs) : Word := e.q.sr r.d

/-- Computes a word from two, sub-element by sub-element. -/
def zipElems (w : Nat) (g : Nat → Nat → Nat) (x y : Word) : Word := mapElems w fun e => g (subElem w e x) (subElem w e y)
/-- Computes a word from three, sub-element by sub-element. -/
def zip3Elems (w : Nat) (g : Nat → Nat → Nat → Nat) (x y z : Word) : Word :=
  mapElems w fun e => g (subElem w e x) (subElem w e y) (subElem w e z)

/-- The lanes a lane-wise form computes for: the active lanes, or with a scalar d the lowest of them, once (R160, R173). -/
def Env.work (e : Env) (r : Regs) : List Nat := if r.sh.d = .s then [lowLane e.act] else e.acts

/-- A form that computes each lane's result from the lane alone. -/
def lanewise (fm : Form) (f : Fields) (s : State) (g : Env → Regs → Nat → Word) : Out :=
  issueF fm f s fun e r => .done (e.put r (g e r)) e.hw

/-- An S form that computes each lane's result from the old d and a (R34). -/
def lanewiseS (fm : SForm) (f : SFields) (s : State) (g : Word → Word → Word) : Out :=
  issueS fm f s fun e r => .done (e.put r fun l => g (e.vd r l) (e.va r l)) e.hw

/-- The element width STYPE names (R34). -/
def styWidth (sty : BitVec 2) : Nat := 64 / 2 ^ sty.toNat

end Sys2Proof.Machine
end

