-- ==== Sys2Proof/Machine/Writes.lean ====
section
/-! DEFINITION. Writes of a context: their W, the Tail records they leave, the full Tail, irreversible effects, and time that
passes (13_consistency R248, R249; 17_tail R326-R328, R337; 18_contexts R356). -/

namespace Sys2Proof.Machine

open Sys2Proof

/-- Changes an operation. -/
def Hw.setOp (hw : Hw) (id : Nat) (f : Op → Op) : Hw := { hw with ops := hw.ops.map fun o => if o.id = id then f o else o }
/-- Operation id. -/
def Hw.op (hw : Hw) (id : Nat) : Option Op := hw.ops.find? fun o => o.id == id
/-- Takes an operation out: it is done. -/
def Hw.endOp (hw : Hw) (id : Nat) : Hw := { hw with ops := hw.ops.filter fun o => o.id != id }
/-- The operation with other elements. -/
def OpKind.withElems (es : List Elem) : OpKind → OpKind
  | .load _ t => .load es t
  | .store _ n => .store es n
  | .atomic _ a b c d e => .atomic es a b c d e
  | .counter e a => .counter (es.headD e) a
  | .partialSum e a b c d => .partialSum (es.headD e) a b c d
  | .fsig e => .fsig (es.headD e)
  | k => k
/-- Width in bytes of an element of an operation. -/
def OpKind.width : OpKind → Nat
  | .load _ t => Ty.width t / 8
  | .store _ n => n
  | .atomic _ _ t _ _ _ => Ty.width t / 8
  | .partialSum _ _ t _ _ => Ty.width t / 8
  | .copy _ => 128
  | _ => 8

/-- Whether an operation is the work of an engine (02_formats R48). -/
def OpKind.isEngine : OpKind → Bool
  | .copy _ | .atrans _ | .update .. => true
  | _ => false

/-! ## Tail records -/

/-- Writes a record's words into the region from offset off on, as device writes (R326). -/
def putRecord (hw : Hw) (p t : Nat) (x : TailSt) (off : Nat) (ws : List Nat) : Hw :=
  let d := hw.draw
  (((List.range ws.length).zip ws).foldl (fun (h : Hw) w =>
    (putWrite h p (t + d.1 % 1000) (x.at (off + 8 * w.1)) (toBytes 8 w.2) 0 0 0).2) d.2)

/-- Keeps a record of a share and writes it at its place in the ring; sq is its sequence number. -/
def keepRecord (hw : Hw) (p c t j : Nat) (r : TailRec) (off : Nat) (ws : List Nat) : Hw :=
  match hw.ctx p c with
  | none => hw
  | some cx =>
    let h := putRecord hw p t cx.tail off ws
    h.setCtx p c fun cx => { cx with tail := { cx.tail with
      shares := cx.tail.shares.ins j (cx.tail.recs j ++ [r]), seqs := cx.tail.seqs.ins j ((r.seq + 1) % 2 ^ 32) } }

/-- Appends the line record of a write whose W has come, if it is the first to its line in its window (R328). m is memory just
before that W. -/
def recordLine (hw : Hw) (m : Tab Memory) (p : Nat) (w : PWrite) : Hw :=
  match w.tctx with
  | none => hw
  | some c =>
    match hw.ctx p c with
    | none => hw
    | some cx =>
      let x := cx.tail
      let n := nSlices hw p
      let line := lineOf w.addr
      let j := homeSlice n w.addr
      let k := x.winAt w.w
      if !x.en || (x.recs j).any (fun r => r.window == k && r.addr == line) then hw
      else
        let q := x.cap n j
        let sq := x.seqs.val 0 j
        keepRecord hw p c w.w j { window := k, addr := line, seq := sq, size := 160 } (0x50000 + 160 * q * j + 160 * (sq % q))
          ([k * 2 ^ 32 + 1 * 2 ^ 28 + j, w.w, line * 128, sq * 2 ^ 32] ++ bytesWords 16 (rdBytes m p (line * 128) 128))

/-- Whether a write of a context to a line with W w needs a record that no earlier write supplies (R328). -/
def needsRecord (x : TailSt) (pend : List PWrite) (c j line w : Nat) : Bool :=
  let k := x.winAt w
  x.en && !((x.recs j).any fun r => r.window == k && r.addr == line) &&
    !(pend.any fun e => e.tctx == some c && lineOf e.addr == line && x.winAt e.w == k)

/-- Records that pending writes of a context will still append to share j. -/
def reserved (x : TailSt) (pend : List PWrite) (n c j : Nat) : Nat :=
  (dedup ((pend.filter fun e => e.tctx == some c && homeSlice n e.addr == j && needsRecord x [] c j (lineOf e.addr) e.w).map
    fun e => lineOf e.addr * 2 ^ 32 + x.winAt e.w)).length

/-- Stops a context as cstop does (18_contexts R356). -/
def stopCtx (hw : Hw) (p c : Nat) : Hw :=
  hw.setCtx p c fun x => { x with state := if x.state = .live then .stopping else x.state }

/-- Cause 0x0F for a held write of an operation (R337, Table CX-2): the context stops, and the frame names the gang and path
of the write. -/
def tailFullTrap (hw : Hw) (m : Tab Memory) (t : Nat) (o : Op) (va : Nat) : Hw :=
  let h := stopCtx hw o.part o.ctx
  let p := o.path
  let ws : List Nat := match h.gangs.look o.gk with
    | some g =>
      let ws := trapFrame { State.reset with time := t, hw := h } o.gk p g (g.paths.val {} p) { cause := 0x0F, fault := va } 0 0
      if g.paths.has p then ws else (ws.set 2 0).set 3 0
    | none => [p * 2 ^ 8 + 0x0F, o.ctx * 2 ^ 48 + o.gang, 0, 0, va, frameWin h o.part o.ctx t * 2 ^ 32, t, o.tag.toNat, 0, 0, 0, 0, 0, 0, 0, 0]
  (deliver h m o.part t o.core o.ctx true ws).2

/-- The full policy for a write that needs a record and finds no room (R337); room says when there is some. Answers the
machine after it, and whether the append now has room. -/
def tailFull (hw : Hw) (m : Tab Memory) (t : Nat) (o : Op) (va : Nat) (room : TailSt → Bool) : Bool × Hw :=
  match hw.ctx o.part o.ctx with
  | none => (true, hw)
  | some cx =>
    let x := cx.tail.roll t
    let ev := if o.held then x else { x with events := (x.events + 1) % 2 ^ 16 }
    let put (y : TailSt) : Hw := (hw.setCtx o.part o.ctx fun c => { c with tail := y }).setOp o.id fun o => { o with held := true }
    match x.policy with
    | 2 =>
      let y := ev.recycle room ((ev.cur + 2 ^ 32 - ev.old) % 2 ^ 32)
      if room y then (true, hw.setCtx o.part o.ctx fun c => { c with tail := y })
      else (false, put (y.advance t))
    | 1 => (false, if o.held then put ev else tailFullTrap (put ev) m t o va)
    | _ => (false, put ev)

/-- A write of operation o to device memory that arrives at time t: it takes its W, or is held by the full Tail (R248, R328,
R337). Answers the W when it took one. [DEDUCED, safe: log 47] -/
def ctxWrite (hw : Hw) (m : Tab Memory) (t : Nat) (o : Op) (a va : Nat) (bs : List Byte) : Option Nat × Hw :=
  let p := o.part
  let line := lineOf a
  let take (h : Hw) : Option Nat × Hw :=
    let r := putWrite h p t a bs o.id o.gk o.paths
    (some r.1, r.2.setPart p fun q => { q with pend := q.pend.map fun w => if w.id = o.id ∧ w.w = r.1 ∧ w.addr = a then { w with tctx := some o.ctx, va := va, prog := !o.kind.isEngine, blocked := hostHolds hw p a } else w })
  if lineHeld hw p line o.id && !o.held then (none, hw)
  else match hw.ctx p o.ctx with
  | none => take hw
  | some cx =>
    let n := nSlices hw p
    let j := homeSlice n a
    let pend := (hw.part p).pend
    let w := assignW (hw.part p) line t
    let room (x : TailSt) : Bool := !needsRecord x pend o.ctx j line w || decide ((x.recs j).length + reserved x pend n o.ctx j < x.cap n j)
    if room (cx.tail.roll t) then take hw
    else
      let r := tailFull hw m t o va room
      if r.1 then take r.2 else (none, r.2)

/-- An irreversible effect of a context at instant t (R327, R332, R337): effect code, address and peer. It is counted, recorded
when the area has room, and never held. -/
def irreversible (hw : Hw) (p c t va code peer : Nat) : Hw :=
  match hw.ctx p c with
  | none => hw
  | some cx =>
    if !cx.tail.en then hw else
    let room (x : TailSt) : Bool := decide ((x.recs irrevShare).length < 2048)
    let x := cx.tail.roll t
    let k := x.cur
    let y := if room x then x else
      let z := { x with events := (x.events + 1) % 2 ^ 16 }
      if z.policy = 2 then z.recycle room ((z.cur + 2 ^ 32 - z.old) % 2 ^ 32) else z
    let z := { y with irrev := y.irrev.ins k (y.irrev.val 0 k + 1) }
    let h := hw.setCtx p c fun cx => { cx with tail := z }
    if room z then
      let sq := z.seqs.val 0 irrevShare
      keepRecord h p c t irrevShare { window := k, addr := va, seq := sq, size := 32 } (0x40000 + 32 * (sq % 2048))
        [k * 2 ^ 32 + 2 * 2 ^ 28, t, va, sq * 2 ^ 32 + code * 2 ^ 28 + peer]
    else h

/-! ## Time passes -/

/-- Whether an operation of a path still has to be performed at the 8 bytes of a counter (R250). -/
def counterBusy (hw : Hw) (gk p pa : Nat) : Bool :=
  hw.ops.any fun o => o.gk == gk && bit p o.paths && o.kind.elems.any fun e => (e.st == 0 || e.st == 4 || e.st == 5) &&
    e.tgt.space == 0 && decide (pa < e.tgt.pa + o.kind.width) && decide (e.tgt.pa < pa + 8)
/-- A gwait whose test a counter meets goes on, unless an earlier access of its path to the counter is still to be performed (04_launch
R88; 13_consistency R250). -/
def wakeCounter (m : Tab Memory) (p : Nat) (hw : Hw) (sel : Nat → Bool) : Hw :=
  { hw with gangs := hw.gangs.map fun g => if g.2.part = p then (g.1, { g.2 with
      paths := g.2.paths.map fun q => match q.2.wait with
        | .gwait pa thr d =>
          if sel pa ∧ thr.toNat ≤ rdNat m p pa 8 ∧ !counterBusy hw g.1 q.1 pa then
            (q.1, { q.2 with wait := .woken d (word (rdNat m p pa 8)) })
          else q
        | _ => q }) else g }
/-- A write wakes each gwait whose test it meets (04_launch R88). -/
def wakeCounters (m : Tab Memory) (p : Nat) (w : PWrite) (hw : Hw) : Hw :=
  wakeCounter m p hw fun pa => decide (w.addr < pa + 8) && decide (pa < w.addr + w.bytes.length)
/-- Whether some path waits in gwait for an earlier access of its own, though the counter meets its test. -/
def anyGwait (hw : Hw) (p : Nat) : Bool :=
  hw.gangs.any fun g => g.2.part == p && g.2.paths.any fun q => match q.2.wait with | .gwait .. => true | _ => false
/-- The earlier contents of each 4-byte word that a write changes are kept for fetches (02_formats R49). -/
def keepWords (m m' : Tab Memory) (p : Nat) (w : PWrite) (hw : Hw) : Hw :=
  hw.setPart p fun q => { q with
    landed := q.landed + 1
    hist := (List.range (w.bytes.length / 4 + 2)).foldl (fun t i =>
      let k := w.addr / 4 + i
      let old := rdNat m p (4 * k) 4
      if old = rdNat m' p (4 * k) 4 then t
      else t.ins k (⟨BitVec.ofNat 32 old, q.landed + 1, w.gk, if w.prog then w.id else 0⟩ :: t.val [] k)) q.hist }

/-! ### The spill region (06_registers R126-R129) -/

/-- The 64-bit words of the register or scalar group that a spill key names. -/
def slotWords (hw : Hw) (core ctx key : Nat) : List Nat :=
  if key < 2 ^ 20 then
    let g := (hw.gangs.look (gangKey core ctx (key / 4096))).getD {}
    allLanes.map fun l => (g.v (key % 4096) l).toNat
  else
    let k := key - 2 ^ 20
    let q := ((hw.gangs.look (gangKey core ctx (k / 128))).getD {}).paths.val {} (k / 8 % 16)
    allLanes.map fun i => (q.sr (32 * (k % 8) + i)).toNat
/-- Bytes a register of a slot reads after a store to the slot: those of the store where it wrote. -/
def overBytes (w : PWrite) (a : Nat) (v : Word) : Word :=
  word (ofBytes ((List.range 8).map fun i => (w.byte (a + i)).getD (BitVec.ofNat 8 (v.toNat >>> (8 * i)))))
/-- A store to a slot in use: each register held there keeps its value or takes the bytes of the store, an open choice (R129). -/
def storeSlot (w : PWrite) (core ctx : Nat) (hw : Hw) (x : Nat × Nat) : Hw :=
  let a := (hw.image core ctx).splBase + 256 * x.2
  if !w.covers a 256 then hw
  else if x.1 < 2 ^ 20 then
    let d := hw.draw
    if d.1 % 2 = 0 then d.2
    else d.2.setGang (gangKey core ctx (x.1 / 4096)) fun g => { g with vregs := g.vregs.map fun v =>
      if v.1 / 32 = x.1 % 4096 then (v.1, overBytes w (a + 8 * (v.1 % 32)) v.2) else v }
  else
    let k := x.1 - 2 ^ 20
    allLanes.foldl (fun h i =>
      if !w.covers (a + 8 * i) 8 then h
      else
        let d := h.draw
        if d.1 % 2 = 0 then d.2
        else setPath d.2 (gangKey core ctx (k / 128)) (k / 8 % 16) fun q => { q with sregs := q.sregs.map fun y =>
          if y.1 = 32 * (k % 8) + i then (y.1, { y.2 with v := overBytes w (a + 8 * i) y.2.v }) else y }) hw
/-- A write lands on slots of the contexts of a partition. -/
def storeSlots (p : Nat) (w : PWrite) (hw : Hw) : Hw :=
  if w.spill then hw
  else hw.images.foldl (fun h i =>
    if i.2.spilled.isEmpty || corePart hw (i.1 / 65536) != some p then h
    else i.2.spilled.foldl (storeSlot w (i.1 / 65536) (i.1 % 65536)) h) hw
/-- The device writes the slot of a spill key (R126): spill traffic, which leaves no Tail record and is no access. -/
def putSlot (hw : Hw) (p t core ctx slot key : Nat) : Hw :=
  let a := (hw.image core ctx).splBase + 256 * slot
  let ws := slotWords hw core ctx key
  [0, 1].foldl (fun h i =>
    let r := putWrite h p t (a + 128 * i) (wordBytes ((ws.drop (16 * i)).take 16)) 0 0 0
    r.2.setPart p fun q => { q with pend := q.pend.map fun w => if w.addr = a + 128 * i ∧ w.w = r.1 then { w with spill := true } else w }) hw
/-- The backing cache of a core writes slots back as it chooses (R126): an open choice of one slot of a region, or none. -/
def cacheWriteBack (hw : Hw) (t : Nat) : Hw :=
  hw.images.foldl (fun h i =>
    if i.2.spilled.isEmpty || decide (i.2.place = .saved) then h
    else match corePart h (i.1 / 65536) with
    | none => h
    | some p =>
      let d := h.draw
      match i.2.spilled[d.1 % (i.2.spilled.length + 1)]? with
      | some x => putSlot d.2 p t (i.1 / 65536) (i.1 % 65536) x.2 x.1
      | none => d.2) hw

/-- Makes one write visible, with the record it leaves. [DEDUCED, safe: log 30] -/
def landWrite (p : Nat) (x : Tab Memory × Hw) (w : PWrite) : Tab Memory × Hw :=
  let m := x.1.put [] p (storeBytes (memOf x.1 p) w.addr w.bytes)
  (m, storeSlots p w (keepWords x.1 m p w (wakeCounters m p w (recordLine x.2 x.1 p w))))

/-- Whether the record of a write whose W has come finds no room (17_tail R337), which can be only where a boundary was announced
after the W was assigned. -/
def landFull (hw : Hw) (p : Nat) (w : PWrite) : Option Nat :=
  match w.tctx with
  | none => none
  | some c => match hw.ctx p c with
    | none => none
    | some cx =>
      let x := cx.tail
      let n := nSlices hw p
      let j := homeSlice n w.addr
      if x.en && !((x.recs j).any fun r => r.window == x.winAt w.w && r.addr == lineOf w.addr) && decide (x.cap n j ≤ (x.recs j).length) then some c else none
/-- What a full Tail does about such a write (17_tail R337): whether it may land after all, and the machine. [DEDUCED, unsafe: log 51] -/
def landPolicy (hw : Hw) (m : Tab Memory) (t p c : Nat) (w : PWrite) : Bool × Hw :=
  let o : Op := match hw.op w.id with | some o => o | none => { id := w.id, part := p, core := gkCore w.gk, ctx := c, gk := w.gk, path := (bitList 16 w.paths).headD 0, gang := gangId hw w.gk, kind := .scopy 0 none 0 0 0 0 [] [] }
  let n := nSlices hw p
  let j := homeSlice n w.addr
  tailFull hw m t { o with id := 0, held := w.full } w.va fun x => decide ((x.recs j).length < x.cap n j)

/-- Makes every write of partition p whose W is at or below t visible, in the order of W on each line (R249); one that its Tail has no
room for stays, and those behind it on its line. -/
def settlePart (t p : Nat) (m : Tab Memory) (hw : Hw) : Tab Memory × Hw :=
  let h0 := unblock hw p t
  let isDue (w : PWrite) : Bool := decide (w.w ≤ t) && !w.blocked
  let due := (h0.part p).pend.filter isDue
  let r := if due.isEmpty then (m, h0)
    else due.foldl (fun (x : Tab Memory × Hw) w =>
      let stay (h : Hw) : Hw := h.setPart p fun q => { q with pend := q.pend ++ [{ w with w := t + 1, full := true }] }
      if (x.2.part p).pend.any fun y => y.full && orderUnit y.addr == orderUnit w.addr then (x.1, stay x.2)
      else match landFull x.2 p w with
        | none => landWrite p x w
        | some c =>
          let a := landPolicy x.2 x.1 t p c w
          if a.1 then landWrite p (x.1, a.2) w else (x.1, stay a.2)) (m, h0.setPart p fun q => { q with pend := q.pend.filter fun w => !isDue w })
  (r.1, if anyGwait r.2 p then wakeCounter r.1 p r.2 fun _ => true else r.2)

/-- Time moves on by dt: every write that is due becomes visible. -/
def settle (s : State) (dt : Nat) : State :=
  let t := s.time + dt
  let r := (s.hw.parts.map (·.1)).foldl (fun (x : Tab Memory × Hw) p => settlePart t p x.1 x.2) (s.mem, s.hw)
  { s with time := t, mem := r.1, hw := r.2 }

end Sys2Proof.Machine
end

