-- ==== Sys2Proof/Machine/Access.lean ====
section
/-! DEFINITION. Global access: trace records, what a target can reach, and the checks of an access through a handle
(12_handles R225-R227; 19_links R367-R374; 21_observe R401-R407). -/

namespace Sys2Proof.Machine

open Sys2Proof

/-! ## Trace records -/

/-- Whether a record made at time t is discarded uncounted: trace off, or frozen past the cutoff (R402, R405). -/
def traceOff (q : Part) (t : Nat) : Bool := !q.trace.en || (q.trace.frozen && decide (q.trace.cutoff < t))
/-- The gap record of a source that lost n records (R402). -/
def gapRecord (t src n : Nat) : List Nat := [3 * 2 ^ 60, t, 0, src * 2 ^ 48, 0, 0, n, 0]
/-- A cluster makes a record (R401, R402); its words come without SEQ. A full buffer drops it and counts it in OVFLOST. A ninth word of a
kept record is the number dropped before it, for which the I/O die writes a gap record. -/
def addTrace (hw : Hw) (p core t : Nat) (ws : List Nat) : Hw :=
  if traceOff (hw.part p) t then hw else
  let k := coreCluster core
  let c := hw.cluster k
  if c.trace.length ≥ 2048 then
    (hw.setCluster k fun c => { c with lost := c.lost + 1 }).setPart p fun q =>
      { q with trace := { q.trace with ovfLost := (q.trace.ovfLost + 1) % 2 ^ 32 } }
  else
    let r := ws.set 6 (c.seq * 2 ^ 32 + ws.getD 6 0) ++ (if c.lost = 0 then [] else [c.lost])
    hw.setCluster k fun c => { c with trace := c.trace ++ [r], seq := (c.seq + 1) % 2 ^ 32, lost := 0 }
/-- A record of the issuing path (Table OB-3). [DEDUCED, unsafe: log 69] -/
def Env.traceRec (e : Env) (hw : Hw) (kind mask code payload : Nat) : Hw :=
  addTrace hw e.part e.core e.now
    [kind * 2 ^ 60 + e.p * 2 ^ 56 + e.ctx * 2 ^ 32 + mask, e.now, e.q.pc.toNat % 2 ^ 57, code * 2 ^ 48 + gangId e.hw e.gk, payload,
     e.g.tag.toNat, 0, 0]

/-! ## Reachability -/

/-- Whether fibre group g carries traffic: live or drained (R374, R376). -/
def groupCarries (k : LinkSt) (g : Nat) : Bool := let s := (k.groups.val {} g).state; s == 0 || s == 1
/-- The groups that may carry traffic to device d: GMASK and FGROUPS (R374). -/
def routeGroups (k : LinkSt) (d : Nat) : List Nat := bitList 16 ((k.routes.val 0 d) % 65536 &&& k.fgroups)
/-- Whether device d is reachable (R374). -/
def peerReach (k : LinkSt) (d : Nat) : Bool :=
  k.fen && bit 63 (k.routes.val 0 d) && (routeGroups k d).any fun g => (k.groups.val {} g).state != 3 || k.relock.contains g
/-- Whether a message to device d can be sent now, and is not held (R374). -/
def peerSends (k : LinkSt) (d : Nat) : Bool := peerReach k d && (routeGroups k d).any (groupCarries k)
/-- Extent n of the pool. -/
def extent (k : LinkSt) (n : Nat) : PoolExt := k.pool.val {} n
/-- Whether a target is reachable, or its extent granted (R367, R369, R374). -/
def targetUp (k : LinkSt) (t : Target) (width : Nat) : Bool :=
  match t.space with
  | 1 => k.hostReach
  | 2 => peerReach k t.peer
  | 3 => (extent k t.tgt).state == 1 && decide (t.pa + width ≤ (extent k t.tgt).size * 65536)
  | 4 => k.fen
  | _ => true
/-- The cause of an access to a target that cannot be reached (R234), and its INFO (Table CX-2). -/
def downCause (t : Target) : Nat × Nat :=
  match t.space with
  | 1 => (0x10, 0x1FFFF)
  | 3 => (0x11, t.tgt)
  | 2 => (0x10, t.peer)
  | _ => (0x10, 0)

/-! ## References -/

/-- A reference by handle and offset (R225). -/
structure Ref where
  lane : Nat
  h : Nat
  o : Nat
  deriving DecidableEq, Repr

/-- The offset of R225: the sum modulo 2^64. -/
def offSum (off idx : Nat) (disp : Int) : Nat := trunc ((off : Int) + (idx : Int) + disp) 64
/-- The handle, offset and displacement a form's fields give (R225): the immediate, or scalar register n. -/
def Env.refBase (e : Env) (f : Fields) (opt1 : Bool) (n : Nat) : Nat × Nat × Int :=
  if f.isX && !opt1 then (f.hIdx, f.hOff, 0)
  else
    let v := (e.q.sr n).toNat
    (bits 63 52 v, bits 51 0 v, if f.isX then sext f.imm 32 else 0)
/-- The references of a form in the lanes it acts on: each active lane, or the path once with CLASS 0b11 (R225, R226). -/
def Env.refs (e : Env) (r : Regs) (f : Fields) (n : Nat) : List Ref :=
  let b := e.refBase f (bit 1 f.op) n
  let idx (l : Nat) : Nat := if bit 0 f.op then 0 else (e.va r l).toNat
  if f.cl = 3 then [⟨lowLane e.act, b.1, offSum b.2.1 (idx (lowLane e.act)) b.2.2⟩]
  else e.acts.map fun l => ⟨l, b.1, offSum b.2.1 (idx l) b.2.2⟩
/-- The references of a gather or scatter: each lane its own (R225). -/
def Env.gathRefs (e : Env) (r : Regs) (f : Fields) : List Ref :=
  e.acts.map fun l => let v := (e.va r l).toNat; ⟨l, bits 63 52 v, offSum (bits 51 0 v) 0 (sext f.imm 32)⟩

/-! ## Checks -/

/-- What an access needs of the handle and the page, its width in bytes, and how a watchpoint sees it. -/
structure Need where
  spaces : Nat → Bool
  r : Bool := false
  w : Bool := false
  a : Bool := false
  width : Nat
  rd : Bool := false
  wr : Bool := false

/-- Whether handle h is the region of the context's enabled Tail (17_tail R325). -/
def tailHandle (hw : Hw) (p c h : Nat) : Bool := match hw.ctx p c with | some x => x.tail.en && x.tail.handle == h | none => false
/-- Whether a handle meets order 1 of R226. -/
def handleBad (hw : Hw) (p c h : Nat) (n : Need) (x : Handle) : Bool :=
  !x.ok || tailHandle hw p c h || !n.spaces x.space || (n.r && !x.r) || (n.w && !x.w) || (n.a && !x.a)
/-- Whether a page has the permissions an access needs, and the KIND of its space (R240). -/
def pageOk (n : Need) (space : Nat) (t : Trans) : Bool :=
  t.kind == space && (!n.r || t.r) && (!n.w || t.w) && (!n.a || t.a)
/-- The fault address of a handle cause (R226). -/
def handleFault (h o : Nat) : Nat := h * 2 ^ 52 + o % 2 ^ 52

/-- The first row of R226 a lane meets: its order, its INFO and its fault address; or none. With it the lane's target and
address, and the machine after the translation. -/
structure LaneChk where
  bad : Option (Nat × Nat × Nat)
  tgt : Target := {}
  va : Nat := 0
  lease : Bool := false

/-- Whether the page of a translation lies within the pool extent it names, for the pool space (19_links R369). [DEDUCED, safe: log 92] -/
def poolFits (k : LinkSt) (space tgt : Nat) (t : Trans) : Bool :=
  space != 3 || (decide (tgt < 1024) && decide (t.pa - t.pa % 2 ^ pageBits t.level + 2 ^ pageBits t.level ≤ (extent k tgt).size * 65536))

/-- Checks one lane against orders 1 to 6 of R226. A translation that faults is not kept (R241). -/
def laneCheck (hw : Hw) (m : Tab Memory) (p c : Nat) (n : Need) (x : Ref) : LaneChk × Hw :=
  let hd := readHandle hw m p c x.h
  let va := hd.base + x.o
  if handleBad hw p c x.h n hd then ({ bad := some (1, 0, handleFault x.h x.o) }, hw)
  else if hd.len < x.o + n.width then ({ bad := some (2, 0, handleFault x.h x.o) }, hw)
  else if va % n.width ≠ 0 then ({ bad := some (3, 0, va) }, hw)
  else
    let k := (hw.part p).link
    let ex := extent k hd.tgt
    if hd.space = 3 ∧ hd.tgt < 1024 ∧ ex.state ≠ 1 then ({ bad := some (4, hd.tgt, va) }, hw)
    else if (hd.space = 1 ∨ hd.space = 2 ∨ hd.space = 4) ∧ !targetUp k { space := hd.space, peer := hd.peer } 0 then
      ({ bad := some (5, (downCause { space := hd.space, peer := hd.peer }).2, va) }, hw)
    else
      match translate hw m p c va with
      | (.error lvl, h) => ({ bad := some (6, lvl, va) }, h)
      | (.ok t, h) =>
        if !pageOk n hd.space t || !poolFits k hd.space hd.tgt t then ({ bad := some (6, t.level, va) }, { hw with free := h.free })
        else ({ bad := none, tgt := { space := hd.space, pa := t.pa, peer := hd.peer, tgt := hd.tgt }, va := va, lease := (hd.space == 0 && hd.policy == 0) }, h)

/-- The cause code of an order of R226. -/
def orderCause (k : Nat) : Nat :=
  match k with
  | 1 => 0x06 | 2 => 0x05 | 3 => 0x08 | 4 => 0x11 | 5 => 0x10 | _ => 0x07

/-- Checks lanes in order. -/
def laneChecks (hw : Hw) (m : Tab Memory) (p c : Nat) (n : Need) : List Ref → List (Ref × LaneChk) × Hw
  | [] => ([], hw)
  | x :: xs =>
    let a := laneCheck hw m p c n x
    let b := laneChecks a.2 m p c n xs
    ((x, a.1) :: b.1, b.2)

/-! ## Watchpoints -/

/-- The lowest-numbered enabled watchpoint of a context that an access touches: its number, action and hit lanes (R406, R407).
accs lists lane, address and width. -/
def watchHit (q : Part) (ctx : Nat) (rd wr : Bool) (accs : List (Nat × Nat × Nat)) : Option (Nat × Nat × List Nat) :=
  (List.range 8).findSome? fun n =>
    let w0 := q.wps.val 0 (2 * n)
    let w1 := q.wps.val 0 (2 * n + 1)
    let lo := bits 56 0 w0
    let hit := if bit 63 w0 && bits 63 48 w1 == ctx && ((bit 58 w0 && rd) || (bit 59 w0 && wr)) then
        accs.filter fun a => decide (lo < a.2.1 + a.2.2) && decide (a.2.1 < lo + bits 31 0 w1)
      else []
    if hit.isEmpty then none else some (n, bits 62 60 w0, hit.map (·.1))

/-- The outcome of the checks of an access: it stops the form, or passes with its elements. -/
inductive Chk where
  | stop (r : Res)
  | ok (es : List Elem) (hw : Hw)

/-- The watchpoint check (R407): a trap or a hold stops the form; a trace record, made when the form first issues, lets it go on.
A scalar form reports act(p). -/
def Env.watch (e : Env) (hw : Hw) (rd wr scalar : Bool) (accs : List (Nat × Nat × Nat)) : Except Res Hw :=
  match (if e.q.skipWp then none else watchHit (hw.part e.part) e.ctx rd wr accs) with
  | none => .ok hw
  | some (n, act, ls) =>
    let mask := if scalar then e.act else lanesWhere fun l => ls.contains l
    let va := match accs.find? fun a => ls.contains a.1 with | some a => a.2.1 | none => 0
    match act with
    | 1 => .error (.stay (e.setPath hw fun q => { q with state := .held, skipWp := true }))
    | 2 => .ok (if e.q.wait.again then hw else e.traceRec hw 4 mask.toNat (0x100 + n) va)
    | _ => .error (.trap { cause := 0x0E, info := n, fault := va, hit := mask })

/-- Whether an asynchronous acquire of the issuing path is not over, behind which no access of the path issues (14_atomics R267). [DEDUCED, safe: log 41] -/
def Env.acquiring (e : Env) : Bool :=
  e.hw.ops.any fun o => o.gk == e.gk && bit e.p o.paths && (match o.kind with | .atomic _ _ _ _ acq _ => acq | _ => false)

/-- The checks of R226, orders 1 to 7, over the references of a form; scalar says that the form acts once per path. -/
def Env.check (e : Env) (n : Need) (scalar : Bool) (refs : List Ref) : Chk :=
  let c := laneChecks e.hw e.s.mem e.part e.ctx n refs
  let first := minOr 9 (c.1.filterMap fun x => x.2.bad.map (·.1))
  if first = 9 then
    if e.acquiring then .stop .hold
    else match e.watch c.2 n.rd n.wr scalar (c.1.map fun x => (x.1.lane, x.2.va, n.width)) with
    | .error r => .stop r
    | .ok hw => .ok (c.1.map fun x => { lane := x.1.lane, tgt := x.2.tgt, va := x.2.va, lease := x.2.lease }) hw
  else
    let hit := c.1.filter fun x => match x.2.bad with | some b => b.1 == first | none => false
    let low := match hit with | x :: _ => x.2.bad | [] => none
    let b := low.getD (first, 0, 0)
    .stop (.trap { cause := orderCause first, info := b.2.1, fault := b.2.2,
                   hit := if scalar then e.act else lanesWhere fun l => hit.any fun x => x.1.lane == l })

/-- A check at one virtual address rather than through a handle: 8 bytes of device memory with read and write permission
(04_launch R88). -/
def Env.checkWord (e : Env) (va : Nat) (rd wr : Bool) : Chk :=
  if va % 8 ≠ 0 then .stop (.trap { cause := 0x08, fault := va, hit := e.act })
  else match translate e.hw e.s.mem e.part e.ctx va with
    | (.error l, _) => .stop (.trap { cause := 0x07, info := l, fault := va, hit := e.act })
    | (.ok t, h) =>
      if t.kind ≠ 0 ∨ !t.r ∨ !t.w then .stop (.trap { cause := 0x07, info := t.level, fault := va, hit := e.act })
      else if e.acquiring then .stop .hold
      else match e.watch h rd wr true [(0, va, 8)] with
        | .error r => .stop r
        | .ok hw => .ok [{ lane := 0, tgt := { pa := t.pa }, va := va }] hw

/-! ## Failures in flight -/

/-- Whether an operation's elements are still in flight once sent: those of stores and fsig. -/
def OpKind.posts : OpKind → Bool
  | .store .. | .fsig .. => true
  | _ => false
/-- Marks the unfinished elements that f selects as failed (R234, R268), counting those of writes in DROPCNT (R368). -/
def failElems (hw : Hw) (p : Nat) (f : Op → Elem → Bool) : Hw :=
  let fails (o : Op) (e : Elem) : Bool := (e.st == 0 || (e.st == 1 && o.kind.posts) || e.st == 5) && f o e
  let writes (o : Op) : Bool := match o.kind with
    | .store .. | .fsig .. => true
    | .atomic _ _ _ _ _ nr => nr || !o.flags.isEmpty
    | _ => false
  let lost (sp : Nat) : Nat := (hw.ops.filter fun o => o.part == p && writes o).foldl
    (fun n o => n + ((o.kind.elems.filter fun e => fails o e && e.tgt.space == sp).map fun e => 1 + e.more).sum) 0
  { hw.setPart p fun q => { q with link := { q.link with
      dropHost := (q.link.dropHost + lost 1) % 65536, dropPeer := (q.link.dropPeer + lost 2) % 65536
      dropPool := (q.link.dropPool + lost 3) % 65536, dropMcr := (q.link.dropMcr + lost 4) % 65536 } } with
    ops := hw.ops.map fun o => if o.part = p then
      { o with kind := o.kind.withElems (o.kind.elems.map fun e => if fails o e then { e with st := 2 } else e) } else o }

/-- Fails every unfinished element whose target cannot be reached any more. -/
def failDown (hw : Hw) (p : Nat) : Hw := failElems hw p fun o e => e.tgt.space != 0 && !targetUp (hw.part p).link e.tgt o.kind.width

/-- Notes the greatest use of the waiting table (R231). -/
def notePeak (hw : Hw) (core : Nat) : Hw := hw.setCore core fun c => { c with wtPeak := Nat.max c.wtPeak (waitEntries hw core) }
/-- Whether the waiting table of the core is full (R231). -/
def Env.tableFull (e : Env) : Bool := decide (waitEntries e.hw e.core ≥ 512)

end Sys2Proof.Machine
end

