-- ==== Sys2Proof/Machine/Global.lean ====
section
/-! DEFINITION. Loads, stores, gathers, scatters, prefetch, range flush, handle entries, translation maintenance and the
instruction cache (12_handles R221-R245). -/

namespace Sys2Proof.Machine

open Sys2Proof

/-! ## Order among the accesses of a path -/

/-- Whether two elements of given widths overlap (R250). -/
def overlap (a : Target) (n : Nat) (b : Target) (k : Nat) : Bool :=
  a.space == b.space && a.peer == b.peer && a.tgt == b.tgt && decide (a.pa < b.pa + k) && decide (b.pa < a.pa + n)
/-- Whether an element of an operation may be performed: no earlier access of its path to overlapping bytes is still to be
performed (R250). A read also waits for the W of its path's own writes to pass. -/
def clear (hw : Hw) (o : Op) (e : Elem) (n : Nat) (read : Bool) : Bool :=
  !(hw.ops.any fun x => o.after.contains x.id && x.id != o.id &&
      x.kind.elems.any fun y => (y.st == 0 || y.st == 4 || y.st == 5) && overlap y.tgt x.kind.width e.tgt n) &&
    !(read && (hw.part o.part).pend.any fun w => w.id != o.id && o.after.contains w.id &&
      ((e.tgt.space == 0 && w.covers e.tgt.pa n) || (e.tgt.space == 1 && w.covers (2 ^ 60 + e.tgt.pa) n)))

/-! ## Loads -/

/-- A load or gather whose references are given (R229, R230, R233). -/
def loadForm (fm : Form) (f : Fields) (s : State) (refs : Env → Regs → List Ref) : Out :=
  issueF fm f s fun e r =>
    if e.tableFull then .hold
    else match e.check { spaces := fun sp => sp != 4 && (r.fsel == 0 || sp == 0), r := true, width := Ty.width f.ty / 8, rd := true }
        (r.sh.d == .s) (refs e r) with
    | .stop x => x
    | .ok es hw =>
      let op := { e.newOp r (.load (es.map fun x => { x with w := e.now + 1 }) f.ty) with entry := true, dst := e.dest r }
      e.start r op (r.fsel == 0) (hw.setCore e.core fun c => { c with wtPeak := Nat.max c.wtPeak (waitEntries hw e.core + 1) })
/-- ld (R229, R230). -/
def execLd (f : Fields) (s : State) : Out := loadForm Forms.ld f s fun e r => e.refs r f r.b
/-- gath (R233). -/
def execGath (f : Fields) (s : State) : Out := loadForm Forms.gath f s fun e r => e.gathRefs r f

/-- The value a load gives d (R229): sign-extended for the .i types. -/
def loadValue (t : Ty) (x : Nat) : Word := if Ty.signed t then word (trunc (sext x (Ty.width t)) 64) else word (x % 2 ^ Ty.width t)

/-- The bridge's copy of a held host sector stands in memory from here on (14_atomics R269). -/
def bridgeAddr (pa : Nat) : Nat := 2 ^ 60 + pa
/-- Whether the bridge holds the sector of a host address. -/
def sectorHeld (k : LinkSt) (pa : Nat) : Bool := k.sectors.has (pa / 64)
/-- Notes the use of a sector. -/
def touchSector (hw : Hw) (p t pa : Nat) : Hw :=
  hw.setPart p fun q => { q with link := { q.link with sectors := q.link.sectors.upd (pa / 64) fun x => (x.1, t) } }

/-- The home slice grants a lease with a value, or none: an open choice (R248). None is granted while a write of the line is
pending. [DESIGN CHOICE, safe: log 9] -/
def grantLease (hw : Hw) (p t : Nat) (e : Elem) : Hw :=
  let line := lineOf e.tgt.pa
  if !e.lease || (hw.part p).pend.any (fun w => lineOf w.addr == line) then hw
  else
    let d := hw.draw
    let n := d.1 % 2001
    if n = 0 then d.2
    else d.2.setPart p fun q => { q with leases := q.leases.ins line (Nat.max (q.leases.val 0 line) (t + n)) }

/-- The bytes of an extent's publication port as the partition reads them (19_links R371). -/
def portBytes (x : PoolExt) : List Byte :=
  wordBytes [x.seq * 2 ^ 32 + x.tag, match x.result with | some r => r.1 * 2 ^ 32 + r.2 | none => 0xFF]
/-- One lane of a load is performed now (R229, R247): a device element at its home slice, an element of a held host sector at
the bridge, any other with the value x its link brings. -/
def readElem (m : Tab Memory) (t : Nat) (o : Op) (x : Option Word) (hw : Hw) (e : Elem) : Elem × Hw :=
  let n := o.kind.width
  if e.st != 0 || !clear hw o e n true then (e, hw)
  else if e.tgt.space = 0 then ({ e with st := 1, val := word (rdNat m o.part e.tgt.pa n) }, grantLease hw o.part t e)
  else if e.tgt.space = 1 ∧ sectorHeld (hw.part o.part).link e.tgt.pa then
    ({ e with st := 1, val := word (rdNat m o.part (bridgeAddr e.tgt.pa) n) }, touchSector hw o.part t e.tgt.pa)
  else if e.tgt.space = 3 ∧ (extent (hw.part o.part).link e.tgt.tgt).shared ∧ e.tgt.pa + n ≤ 16 then
    (if targetUp (hw.part o.part).link e.tgt n then
      { e with st := 1, val := word (ofBytes (((portBytes (extent (hw.part o.part).link e.tgt.tgt)).drop e.tgt.pa).take n)) } else e, hw)
  else match x with
    | some v => if targetUp (hw.part o.part).link e.tgt n && (e.tgt.space != 2 || peerSends (hw.part o.part).link e.tgt.peer) then
        ({ e with st := 1, val := v }, hw) else (e, hw)
    | none => (e, hw)

/-- Applies f to the elements of a list whose lanes are selected, giving it the reply of its place among them. -/
def mapElemsSel (sel : Nat → Bool) (data : List Word) (f : Option Word → Hw → Elem → Elem × Hw) :
    Nat → Hw → List Elem → List Elem × Hw
  | _, hw, [] => ([], hw)
  | i, hw, e :: es =>
    if sel e.lane then
      let a := f data[i]? hw e
      let b := mapElemsSel sel data f (i + 1) a.2 es
      (a.1 :: b.1, b.2)
    else
      let b := mapElemsSel sel data f i hw es
      (e :: b.1, b.2)

/-- Whether a core runs a context now: it is in the active bank. -/
def runsOn (hw : Hw) (core ctx : Nat) : Bool :=
  let k := hw.core core
  (if k.act = 0 then k.ctx0 else k.ctx1) == some ctx

/-- The blocking form that waits for an operation fails (R234, R268): its path stops with the cause of its lowest failed lane,
at once or when its context is active again (R245). -/
def failWaiter (s : State) (o : Op) (es : List Elem) : State :=
  let h := { s.hw with ops := s.hw.ops.filter fun x => x.id != o.id }
  match (match h.gangs.look o.gk with | some g => waiterOf g o.id | none => none) with
  | none => s.with h
  | some p =>
    match es.find? fun e => e.st == 2 with
    | none => s.with h
    | some e =>
      let c := downCause e.tgt
      let scalar := match o.dst with | .scal .. => true | _ => false
      let hit := lanesWhere fun l => es.any fun x => x.st == 2 && x.lane == l && (downCause x.tgt).1 == c.1
      match envAt (s.with h) ⟨gkCore o.gk, gkCtx o.gk, gkSlot o.gk, p⟩ with
      | none => s.with h
      | some v =>
        let t : Trap := { cause := c.1, info := c.2, fault := e.va, hit := if scalar then v.act else hit }
        if runsOn h (gkCore o.gk) (gkCtx o.gk) then s.with (v.trapParked h t)
        else s.with (setPath h o.gk p fun q => { q with state := .stopped, wait := .failed t.cause t.info t.fault t.hit })

/-- Whether every element of a list is decided. -/
def allDone (es : List Elem) : Bool := es.all fun e => e.st == 1 || e.st == 2 || e.st == 3
/-- The value of lane l of a finished access. -/
def elemVal (es : List Elem) (f : Word → Word) (l : Nat) : Word :=
  match es.find? fun e => e.lane == l with | some e => f e.val | none => match es with | e :: _ => f e.val | [] => 0

/-- Replies of a load or gather arrive (R229, R230, R234): the selected lanes are performed; when every lane is decided the
form ends. -/
def execLoadReply (id : Nat) (sel : Lanes) (data : List Word) (s : State) : Out :=
  match s.hw.op id with
  | some o =>
    match o.kind with
    | .load es ty =>
      let r := mapElemsSel (inLanes sel) data (readElem s.mem s.time o) 0 s.hw es
      let o' := { o with kind := OpKind.load r.1 ty }
      let s' := s.with (r.2.setOp id fun _ => o')
      if !allDone r.1 || o.chain.isSome then .next s'
      else if r.1.any fun e => e.st == 2 then .next (failWaiter s' o' r.1)
      else .next (landOp s' o' (elemVal r.1 fun v => loadValue ty v.toNat))
    | _ => .next s
  | none => .next s

/-! ## Stores -/

/-- Gives the first element with a target n more lanes. -/
def addMore (t : Target) (n : Nat) : List Elem → List Elem
  | [] => []
  | e :: es => if e.tgt = t then { e with more := e.more + n } :: es else e :: addMore t n es
/-- Of lanes that write the same bytes the highest-numbered supplies them (R232), and answers for the others (R368); every lane of a
contribution counts (R378). -/
def lastWriters : List Elem → List Elem
  | [] => []
  | e :: es =>
    let l := lastWriters es
    if e.tgt.space != 4 && es.any (fun x => decide (x.tgt = e.tgt)) then addMore e.tgt (1 + e.more) l else e :: l

/-- A store or scatter whose references are given (R232, R233). -/
def storeForm (fm : Form) (f : Fields) (s : State) (refs : Env → Regs → List Ref) : Out :=
  issueF fm f s fun e r =>
    if e.counterFull then .hold
    else
      let n := Ty.width f.ty / 8
      match e.check { spaces := fun _ => true, w := true, width := n, wr := true } (r.sh.d == .s) (refs e r) with
      | .stop x => x
      | .ok es hw =>
        let es' := es.map fun x => { x with val := word ((e.vd r x.lane).toNat % 2 ^ (8 * n)) }
        .done { ops := [{ e.newOp r (.store (lastWriters es') n) with counts := true, id := hw.nextId }] } hw
/-- st (R232). -/
def execSt (f : Fields) (s : State) : Out := storeForm Forms.st f s fun e r => e.refs r f r.b
/-- scat (R233). -/
def execScat (f : Fields) (s : State) : Out := storeForm Forms.scat f s fun e r => e.gathRefs r f

/-! ## Prefetch and range flush -/

/-- What a prefetch leaves: the translations it used, and where it brings lines into the L1 their leases (R235, R248). A lane that
would meet a cause is dropped. -/
def Env.prefetch (e : Env) (f : Fields) (r : Regs) : Hw :=
  let c := laneChecks e.hw e.s.mem e.part e.ctx { spaces := fun sp => sp != 4, r := true, width := 1 } (e.refs r f r.b)
  c.1.foldl (fun h x => if x.2.bad.isNone && x.2.lease && !bit 2 f.op then
    grantLease h e.part e.now { lane := x.1.lane, tgt := x.2.tgt, lease := true } else h) c.2
/-- pref (R235): it performs no access that a program can observe. -/
def execPref (f : Fields) (s : State) : Out := issueF Forms.pref f s fun e r => .done {} (e.prefetch f r)

/-- The spans of a range of va (R236): the target ranges that translate with R and the space's KIND, and the number skipped. -/
def flushSpans (m : Tab Memory) (p c space tgt fin : Nat) : Nat → Nat → Hw → List (Target × Nat) × Nat × Hw
  | 0, _, hw => ([], 0, hw)
  | k + 1, va, hw =>
    if fin ≤ va then ([], 0, hw)
    else if 2 ^ 57 ≤ va then ([], 1, hw)
    else
      let t := translate hw m p c va
      let next (b : Nat) : Nat := Nat.min fin (va - va % 2 ^ b + 2 ^ b)
      match t.1 with
      | .error l =>
        let b := if l = 3 then 43 else pageBits l
        let r := flushSpans m p c space tgt fin k (next b) t.2
        (r.1, r.2.1 + 1, r.2.2)
      | .ok x =>
        let n := next (pageBits x.level)
        let r := flushSpans m p c space tgt fin k n t.2
        if x.kind = space ∧ x.r ∧ poolFits (hw.part p).link space tgt x then (({ space := space, pa := x.pa, tgt := tgt }, n - va) :: r.1, r.2.1, r.2.2)
        else (r.1, r.2.1 + 1, r.2.2)

/-- hflush (R236). -/
def execHflush (f : Fields) (s : State) : Out :=
  issueF Forms.hflush f s fun e r =>
    let b := e.refBase f false r.b
    let o := b.2.1
    let n := (e.sa r).toNat
    let hd := readHandle e.hw e.s.mem e.part e.ctx b.1
    if e.counterFull then .hold
    else if handleBad e.hw e.part e.ctx b.1 { spaces := fun sp => sp == 0 || sp == 1 || sp == 3, r := true, width := 1 } hd then
      .trap { cause := 0x06, fault := handleFault b.1 o, hit := e.act }
    else if hd.len < o + n then .trap { cause := 0x05, fault := handleFault b.1 o, hit := e.act }
    else if n = 0 then .done (putS r 0) e.hw
    else
      let x := flushSpans e.s.mem e.part e.ctx hd.space hd.tgt (hd.base + o + n) (n / 65536 + 2) (hd.base + o) e.hw
      .done { ops := [{ e.newOp r (.hflush x.1 x.2.1) with counts := true, dst := e.dest r, id := x.2.2.nextId }] } x.2.2

/-- Whether a range of a target and an element overlap. -/
def inSpan (x : Target × Nat) (e : Elem) (n : Nat) : Bool := overlap x.1 x.2 e.tgt n
/-- Releases a sector of the bridge: its accesses are done, a modified one is written back to the host (14_atomics R270). -/
def releaseSector (s : State) (p sec : Nat) (writeBack : Bool) : State :=
  let a := bridgeAddr (64 * sec)
  let hw := match (s.hw.part p).link.sectors.look sec with
    | some (2, _) => if writeBack then s.hw.send 1 p ([64 * sec] ++ bytesWords 8 (rdBytes s.mem p a 64)) else s.hw
    | _ => s.hw
  { s with
    hw := hw.setPart p fun q => { q with link := { q.link with sectors := q.link.sectors.del sec } }
    mem := s.mem.put [] p (storeBytes (memOf s.mem p) a (List.replicate 64 0)) }
/-- Whether the bridge still has a write of a sector to make. -/
def sectorBusy (hw : Hw) (p sec : Nat) : Bool :=
  (hw.part p).pend.any fun w => decide (bridgeAddr (64 * sec) ≤ w.addr) && decide (w.addr < bridgeAddr (64 * sec) + 64)

/-- A range flush is done (R236): covered host sectors are released, covered pool stores are acknowledged. -/
def execHflushComplete (id : Nat) (s : State) : Out :=
  match s.hw.op id with
  | some o =>
    match o.kind with
    | .hflush spans skipped =>
      let secs := (s.hw.part o.part).link.sectors.keys.filter fun k =>
        spans.any fun x => x.1.space == 1 && inSpan x { lane := 0, tgt := { x.1 with pa := 64 * k } } 64
      let waits := secs.any (sectorBusy s.hw o.part) || s.hw.ops.any fun x => x.part == o.part &&
        x.kind.elems.any fun e => e.tgt.space == 3 && e.st == 1 && spans.any fun y => inSpan y e x.kind.width
      if waits then .next s
      else .next (landOp (secs.foldl (fun s k => releaseSector s o.part k true) s) o fun _ => word skipped)
    | _ => .next s
  | none => .next s

/-! ## Handle entries -/

/-- Cause 0x06 with sa as the fault address (R237, R243). -/
def badSa (e : Env) (r : Regs) : Res := .trap { cause := 0x06, fault := (e.sa r).toNat, hit := e.act }
/-- The entry hget and hset name, if it is one (R237): its address. -/
def entryOf (e : Env) (r : Regs) (k : Nat) : Option Nat :=
  let v := (e.sa r).toNat
  match e.hw.ctx e.part (bits 31 16 v) with
  | some c => if handleAddr c (bits 11 0 v) 0 + 32 ≤ partBytes e.hw e.part then some (handleAddr c (bits 11 0 v) k) else none
  | none => none
/-- Whether sa of hget or hset has a bit it may not have (R237). -/
def badBits (e : Env) (r : Regs) : Bool := let v := (e.sa r).toNat; bits 15 12 v != 0 || bits 63 32 v != 0
/-- hget (R237, R238). -/
def execHget (f : Fields) (s : State) : Out :=
  issueF Forms.hget f s fun e r =>
    if badBits e r then badSa e r
    else if !e.sup && bits 31 16 (e.sa r).toNat != e.ctx then .trap { cause := 0x03, hit := e.act }
    else match entryOf e r f.op with
    | none => badSa e r
    | some a => .done (putS r (rdNat e.s.mem e.part a 8)) e.hw
/-- hset (R237, R238): it retires once the table holds the word and no cache holds the old one. -/
def execHset (f : Fields) (s : State) : Out :=
  issueF Forms.hset f s fun e r =>
    if badBits e r then badSa e r
    else match entryOf e r f.op with
    | none => badSa e r
    | some a =>
      .stay (e.park r .parked (.table a (e.sb r) (assignW (e.hw.part e.part) (lineOf a) e.now)) (snoop e.hw e.part a))
/-- A waiting hset takes place, once every lease of its line is over, no other write of it is pending and its line is not held: the
table holds the word from now on (R238). [DEDUCED, safe: log 27] -/
def wakeTable (s : State) (e : Env) (a : Nat) (v : Word) (t : Nat) : State :=
  let q := s.hw.part e.part
  if s.time < t ∨ s.time < q.leases.val 0 (lineOf a) + 2 ∨ lineBlocked s.hw e.part a ∨ q.pend.any (fun w => lineOf w.addr == lineOf a) then s
  else
    let r := landWrite e.part (s.mem, s.hw) { w := s.time, addr := a, bytes := toBytes 8 v.toNat }
    { s with mem := r.1, hw := e.retireParked {} r.2 }

/-! ## Translation -/

/-- xlat (R243): it answers what a load issued at that moment would find. -/
def execXlat (f : Fields) (s : State) : Out :=
  issueF Forms.xlat f s fun e r =>
    let c := (e.sa r).toNat
    if 65536 ≤ c then badSa e r
    else e.asks r true <| match e.hw.ctx e.part c with
    | none => .done (putS r (2 ^ 63 + 0x06)) e.hw
    | some _ =>
      let t := translate e.hw e.s.mem e.part c (e.sb r).toNat
      let v := match t.1 with
        | .error l => 2 ^ 63 + l * 2 ^ 8 + 0x07
        | .ok x => x.kind * 2 ^ 59 + b2n x.x * 2 ^ 58 + b2n x.a * 2 ^ 57 + b2n x.w * 2 ^ 56 + b2n x.r * 2 ^ 55 + x.level * 2 ^ 53 + x.pa
      .done (putS r v) t.2
/-- The operations of a context that used a translation which covers an address that f selects. -/
def opsUsing (hw : Hw) (p c : Nat) (f : Nat → Bool) : List Nat :=
  (hw.ops.filter fun o => o.part == p && o.ctx == c && (match o.kind with
    | .copy .. => true | .hflush .. => true | .atrans .. => true
    | k => k.elems.any fun e => f e.va)).map (·.id)
/-- Whether a context still has, in pages of device memory, a contribution in a reduction buffer or a gwait that is not over
(R243; 14_atomics R272; 04_launch R88). [DEDUCED, unsafe: log 32] -/
def usesPages (hw : Hw) (p c : Nat) (pages : List (Nat × Nat)) : Bool :=
  let lies (pa : Nat) : Bool := pages.any fun x => decide (x.1 ≤ pa) && decide (pa < x.1 + x.2)
  !pages.isEmpty && hw.gangs.any fun g => g.2.part == p && g.2.ctx == c &&
    ((g.2.reds.any fun x => lies x.tgt.pa) || g.2.paths.any fun q => match q.2.wait with | .gwait pa .. => lies pa | _ => false)
/-- The pages of device memory that translations give: start and size. -/
def pagesOf (es : List TEntry) : List (Nat × Nat) :=
  es.filterMap fun e => if bits 61 59 e.leaf = 0 then some (bits 51 8 e.leaf * 256, 2 ^ pageBits e.level) else none
/-- Whether a kept translation of context c goes with an xlat.inv of an address, or an xlat.all (R243). -/
def invalidates (c : Nat) (va : Option Nat) (k : Nat) (x : TEntry) : Bool :=
  match va with
  | some a => tCovers k x c a
  | none => k / 2 ^ 41 == c
/-- The kept translations that f selects go. -/
def dropTrans (hw : Hw) (p : Nat) (f : Nat → TEntry → Bool) : Hw :=
  hw.setPart p fun q => { q with tcache := q.tcache.filterMap fun k =>
    let left := k.2.filter fun x => !f k.1 x
    if left.isEmpty then none else some (k.1, left) }
/-- Removes translations of context c that f selects: the operations that used them, the pages they gave, and the machine without them
(R243). -/
def invalidate (hw : Hw) (p c : Nat) (f : Nat → TEntry → Bool) (va : Option Nat) : List Nat × List (Nat × Nat) × Hw :=
  let gone := (hw.part p).tcache.flatMap fun k => k.2.filter fun x => f k.1 x
  let uses (a : Nat) : Bool := match va with
    | none => true
    | some b => gone.any fun x => a / 2 ^ pageBits x.level == b / 2 ^ pageBits x.level
  (if va.isSome && gone.isEmpty then [] else opsUsing hw p c uses, pagesOf gone, dropTrans hw p f)
/-- xlat.inv and xlat.all (R243): the translations go, and the form waits for the accesses that used them. -/
def xlatForm (f : Fields) (s : State) (va : Env → Regs → Option Nat) : Out :=
  issueF Forms.xlat f s fun e r =>
    let c := (e.sa r).toNat
    if 65536 ≤ c then badSa e r
    else if e.tableFull then .hold
    else match e.hw.ctx e.part c with
    | none => .done (putS r e.now) e.hw
    | some _ =>
      let x := invalidate e.hw e.part c (invalidates c (va e r)) (va e r)
      let h := x.2.2.setCore e.core fun k => { k with wtPeak := Nat.max k.wtPeak (waitEntries e.hw e.core + 1) }
      if x.1.isEmpty && !usesPages e.hw e.part c x.2.1 then .done (putS r e.now) h
      else .stay (e.park r .parked (.drain x.1 c (va e r) x.2.1 r.d) h)
/-- xlat.inv (R243). -/
def execXlatInv (f : Fields) (s : State) : Out := xlatForm f s fun e r => some (e.sb r).toNat
/-- xlat.all (R243). -/
def execXlatAll (f : Fields) (s : State) : Out := xlatForm f s fun _ _ => none
/-- Whether an operation or a write of one of these numbers is still to pass (R243). -/
def stillUnderWay (hw : Hw) (p : Nat) (ids : List Nat) : Bool :=
  (hw.ops.any fun o => ids.contains o.id) || (hw.part p).pend.any fun w => ids.contains w.id
/-- A waiting xlat.inv or xlat.all goes on (R243). It retires once the accesses are over; a value that has come back since it issued and
is not that of the page tables goes as well, with the accesses that used it (R242). -/
def wakeDrain (s : State) (e : Env) (ids : List Nat) (c : Nat) (va : Option Nat) (ps : List (Nat × Nat)) (d : Nat) : State :=
  if stillUnderWay s.hw e.part ids || usesPages s.hw e.part c ps then s
  else
    let old (k : Nat) (x : TEntry) : Bool := invalidates c va k x &&
      (match walk s.hw s.mem e.part c (k % 2 ^ 41 * 2 ^ 16) with | .ok y => decide (y ≠ x) | .error _ => true)
    let r := invalidate s.hw e.part c old va
    if (s.hw.part e.part).tcache.all fun k => k.2.all fun x => !old k.1 x then s.with (e.retireParked { s := [(d, word s.time)] } s.hw)
    else if r.1.isEmpty && !usesPages s.hw e.part c r.2.1 then s.with (e.retireParked { s := [(d, word s.time)] } r.2.2)
    else s.with (e.setPath r.2.2 fun q => { q with wait := .drain r.1 c va r.2.1 d })
/-- A page walk finishes (R241): the translation it found is cached, if it is no fault. -/
def execPageWalk (fn ctx : Nat) (va : Word) (s : State) : Out :=
  match walk s.hw s.mem fn ctx va.toNat with
  | .error _ => .next s
  | .ok x => if (leafTrans x.leaf x.level va.toNat).kind = 0 ∧ partBytes s.hw fn ≤ (leafTrans x.leaf x.level va.toNat).pa then .next s else .next (s.with (s.hw.setPart fn fun q =>
      let old := q.tcache.val [] (tKey ctx va.toNat)
      if old.contains x then q else { q with tcache := q.tcache.ins (tKey ctx va.toNat) (x :: old) }))

/-- icinv (R244; 02_formats R48): clauses begun from now on fetch no word older than the stores that are ordered before it; it acts
whatever act(p) holds. -/
def execIcinv (f : SFields) (s : State) : Out :=
  issue s (regsS Forms.icinv f) false false fun e => 
    let q := e.hw.part e.part
    .done {} (e.hw.setCore e.core fun c => { c with syncs := ⟨q.landed, q.fenced⟩ :: c.syncs })

end Sys2Proof.Machine
end

