-- ==== Sys2Proof/Machine/Flags.lean ====
section
/-! DEFINITION. Predicates, classes and exception flags (07_numbers R150, R151; 08_integer R169; 09_float R173, R177, R181,
R182). -/

namespace Sys2Proof.Machine

open Sys2Proof

/-- An integer predicate (Table IN-5). -/
def intPred (cc : Nat) (x y : Int) : Bool :=
  match cc with
  | 0 => decide (x = y) | 1 => decide (x ≠ y) | 2 => decide (x < y) | 3 => decide (x ≤ y) | 4 => decide (y < x) | _ => decide (y ≤ x)

/-- A floating predicate (Table FP-3). -/
def fltPred (cc : Nat) (x y : Val) : Bool :=
  if x.isNan || y.isNan then cc == 1 || cc == 7
  else
    let c := x.cmp y
    match cc with
    | 0 => decide (c = 0) | 1 => decide (c ≠ 0) | 2 => decide (c < 0) | 3 => decide (c ≤ 0) | 4 => decide (0 < c) | 5 => decide (0 ≤ c)
    | 6 => true | _ => false

/-- All ones of width w for true, else zero (R169). -/
def maskOf (w : Nat) (b : Bool) : Nat := if b then 2 ^ w - 1 else 0

/-- The class code of a value of a format (R182). -/
def classOf (f : Fmt) (x : Val) : Nat :=
  match x with
  | .nan => 8
  | .inf s => if s then 0 else 7
  | .fin s n e =>
    if n = 0 then (if s then 3 else 4)
    else
      let sub := decide (e = 1 - (f.bias : Int) - f.m) && decide (n < 2 ^ f.m)
      if s then (if sub then 2 else 1) else (if sub then 5 else 6)

/-- Orders −0 below +0 (R177). -/
def minLess (x y : Val) : Bool :=
  let c := x.cmp y
  decide (c < 0) || (decide (c = 0) && x.isZero && x.neg && !y.neg)

/-- fmin (max = false) and fmax (max = true) on codes (R177). -/
def fminmax (t : Ty) (max : Bool) (a b : Nat) : Nat :=
  let f := Ty.fmt t
  let x := f.val a
  let y := f.val b
  let keep (c : Nat) : Nat := c % 2 ^ f.bits
  if x.isNan && y.isNan then f.nan.getD 0
  else if x.isNan then keep b
  else if y.isNan then keep a
  else if minLess x y != max then keep a else if minLess y x != max then keep b else keep a

/-- One rounded result: the code, flags and generator state that follow. -/
structure Calc where
  codes : List Nat := []
  fx : Nat := 0
  s : Word

/-- Computes the sub-elements of a lane in ascending order, each drawing from the lane's generator (R173, R153). -/
def calcElems (n : Nat) (g : Nat → Word → Rnd) (s : Word) : Calc :=
  (List.range n).foldl (fun c e => let r := g e c.s; ⟨c.codes ++ [r.code], c.fx ||| r.fx, r.s⟩) ⟨[], 0, s⟩

/-- The generator state of a lane (R152). -/
def Gang.rng (g : Gang) (l : Nat) : Word := g.srng.val 1 l

/-- A floating form: each lane's (or the path's) sub-elements are computed and rounded in order; flags and draws belong to the
lane, or to the lowest active lane for a scalar d (R173). -/
def fpForm (fm : Form) (f : Fields) (s : State) (g : Env → Regs → Nat → Nat → Word → Rnd) : Out :=
  issueF fm f s fun e r =>
    let w := Ty.width f.ty
    let cs := (e.work r).map fun l => (l, calcElems (64 / w) (g e r l) (e.g.rng l))
    let ex := cs.map fun c => (c.1, c.2.fx)
    let rng := cs.map fun c => (c.1, c.2.s)
    let val (c : Calc) : Word := word (packElems w c.codes)
    .done (match r.sh.d with
      | .s => { s := cs.map fun c => (r.d, val c.2), ex := ex, rng := rng }
      | _ => { v := cs.map fun c => (32 * r.d + c.1, val c.2), ex := ex, rng := rng }) e.hw

end Sys2Proof.Machine
end

