-- ==== Sys2Proof/Machine/Lanes.lean ====
section
/-! DEFINITION. Cross-lane instructions (10_lanes R191-R202): they read and write only the active lanes of the issuing path. -/

namespace Sys2Proof.Machine

open Sys2Proof

/-- All ones for true, else zero (R196). -/
def allOnes (b : Bool) : Word := if b then BitVec.allOnes 64 else 0

/-- A form that computes one value for the path (R196). -/
def pathForm (fm : Form) (f : Fields) (s : State) (g : Env → Regs → Word) : Out :=
  lanewise fm f s fun e r _ => g e r

/-- The active lanes whose a is not zero. -/
def trueLanes (e : Env) (r : Regs) : List Nat := e.acts.filter fun l => e.va r l != 0

/-- vote (R196). -/
def execVote (f : Fields) (s : State) : Out :=
  pathForm Forms.vote f s fun e r =>
    let n := (trueLanes e r).length
    let k := e.acts.length
    allOnes (match f.op with
      | 0 => decide (0 < n)
      | 1 => n == k
      | 2 => e.acts.all fun l => e.va r l == e.va r (lowLane e.act)
      | 3 => n == 0
      | _ => decide (k < 2 * n))
/-- ballot (R196). -/
def execBallot (f : Fields) (s : State) : Out :=
  pathForm Forms.ballot f s fun e r => word (lanesWhere fun l => (trueLanes e r).contains l).toNat
/-- elect (R196). -/
def execElect (f : Fields) (s : State) : Out :=
  lanewise Forms.elect f s fun e r l => if r.sh.d = .s then word (lowLane e.act) else allOnes (l == lowLane e.act)
/-- The slice set of a path (05_paths R96). -/
def sliceSet (m : Lanes) : Nat := (List.range 4).foldl (fun n k => if bits (8 * k + 7) (8 * k) m.toNat = 0 then n else n + 2 ^ k) 0
/-- pwidth (R197). -/
def execPwidth (f : Fields) (s : State) : Out :=
  lanewise Forms.pwidth f s fun e _ l =>
    word (match f.op with
      | 0 => countLanes e.q.mask
      | 1 => countLanes e.act
      | 2 => (e.acts.filter fun m => decide (m < l)).length
      | _ => sliceSet e.q.mask)
/-- match (R196). -/
def execMatch (f : Fields) (s : State) : Out :=
  lanewise Forms.matchOp f s fun e r l =>
    let k (m : Nat) : Nat := subElem (Ty.width f.ty) 0 (e.va r m)
    word (lanesWhere fun m => e.acts.contains m && k m == k l).toNat

/-! ## Shuffles -/

/-- The fallback of lane l (R200). -/
def fallback (e : Env) (r : Regs) (f : Fields) (l : Nat) : Word :=
  match f.op with
  | 0 => e.vc r l
  | 1 => e.va r l
  | _ => 0
/-- The whole lane src of a, or the fallback (R200, R201). -/
def shuffleLane (e : Env) (r : Regs) (f : Fields) (l : Nat) (src : Option Nat) : Word :=
  match src with
  | some m => if e.acts.contains m then e.va r m else fallback e r f l
  | none => fallback e r f l
/-- shfl (R201). -/
def execShfl (f : Fields) (s : State) : Out :=
  lanewise Forms.shfl f s fun e r l => shuffleLane e r f l (some ((e.reg r.sh.b r.b l).toNat % 32))
/-- shfx (R201). -/
def execShfx (f : Fields) (s : State) : Out :=
  lanewise Forms.shfx f s fun e r l =>
    let w := Ty.width f.ty
    let n := 64 / w
    mapElems w fun i =>
      let j := subElem w i (e.reg r.sh.b r.b l) % (32 * n)
      if e.acts.contains (j / n) then subElem w (j % n) (e.va r (j / n)) else subElem w i (fallback e r f l)
/-- The source of a shift by k lanes inside a segment (R201). -/
def shiftSrc (f : Fields) (up : Bool) (l : Nat) : Option Nat :=
  let k := bits 4 0 f.imm
  let z := 32 >>> bits 10 8 f.imm
  let src := if up then (if k ≤ l then some (l - k) else none) else (if l + k < 32 then some (l + k) else none)
  match src with
  | some m => if m / z = l / z then some m else none
  | none => none
/-- shfup (R201). -/
def execShfup (f : Fields) (s : State) : Out :=
  lanewise Forms.shfup f s fun e r l => shuffleLane e r f l (shiftSrc f true l)
/-- shfdn (R201). -/
def execShfdn (f : Fields) (s : State) : Out :=
  lanewise Forms.shfdn f s fun e r l => shuffleLane e r f l (shiftSrc f false l)
/-- bcast (R201). -/
def execBcast (f : Fields) (s : State) : Out :=
  lanewise Forms.bcast f s fun e r l =>
    let w := Ty.width f.ty
    let src := bits 4 0 f.imm
    if e.acts.contains src then spread w (subElem w (bits 8 5 f.imm) (e.va r src)) else fallback e r f l

/-! ## Reductions and scans -/

/-- One step of an operator (Table XL-2): the code and the flags. -/
def combElem (o : Nat) (t : Ty) (mode : Nat) (acc x : Nat) : Nat × Nat :=
  let w := Ty.width t
  if Ty.isFloat t then
    match o with
    | 0 =>
      let y := exsumP [] [(Ty.fmt t).val acc, (Ty.fmt t).val x]
      let r := (Ty.fmt t).round mode 0 y.1
      (r.code, r.fx ||| y.2)
    | 1 => (fminmax t false acc x, 0)
    | _ => (fminmax t true acc x, 0)
  else
    (match o with
      | 0 => (acc + x) % 2 ^ w
      | 1 => if Ty.int t acc ≤ Ty.int t x then acc else x
      | 2 => if Ty.int t acc ≤ Ty.int t x then x else acc
      | 3 => acc &&& x
      | 4 => acc ||| x
      | _ => acc ^^^ x, 0)
/-- The exclusive identity (Table XL-2). -/
def combId (o : Nat) (t : Ty) : Nat :=
  let w := Ty.width t
  if Ty.isFloat t then
    (match o with
      | 0 => 0
      | 1 => (Ty.fmt t).top + 1
      | _ => (Ty.fmt t).sign true ((Ty.fmt t).top + 1))
  else match o with
    | 1 => trunc (Ty.most t) w
    | 2 => trunc (Ty.least t) w
    | 3 => 2 ^ w - 1
    | _ => 0
/-- A NaN result is written as the canonical NaN (R143, R198). -/
def canon (t : Ty) (c : Nat) : Nat :=
  if Ty.isFloat t && ((Ty.fmt t).val c).isNan then (Ty.fmt t).nan.getD 0 else c

/-- Combines one element position over the lanes in ascending order: the value each lane receives in an inclusive or exclusive
scan, the final value, and the flags of each step's lane (R198). -/
def scanElem (o : Nat) (t : Ty) (mode : Nat) (excl : Bool) (x : Nat → Nat) : List Nat → List (Nat × Nat) × Nat × List (Nat × Nat)
  | [] => ([], 0, [])
  | l0 :: ls =>
    let r := ls.foldl (fun (a : List (Nat × Nat) × Nat × List (Nat × Nat) × Nat) l =>
      let last := a.2.2.2 == 1
      let c := if excl && last then (a.2.1, 0) else combElem o t mode a.2.1 (x l)
      (a.1 ++ [(l, if excl then a.2.1 else c.1)], c.1, a.2.2.1 ++ [(l, c.2)], a.2.2.2 - 1))
      ([(l0, if excl then combId o t else x l0)], x l0, [], ls.length)
    (r.1, r.2.1, r.2.2.1)

/-- The flags of several steps, united by lane. -/
def flagsByLane (acts : List Nat) (fs : List (Nat × Nat)) : List (Nat × Nat) :=
  acts.map fun l => (l, fs.foldl (fun n f => if f.1 = l then n ||| f.2 else n) 0)

/-- lred (R198). -/
def execLred (f : Fields) (s : State) : Out :=
  issueF Forms.lred f s fun e r =>
    let w := Ty.width f.ty
    let rs := (List.range (64 / w)).map fun i =>
      scanElem (bits 2 0 f.b.toNat) f.ty f.op false (fun l => subElem w i (e.va r l)) e.acts
    let z := word (packElems w (rs.map fun x => canon f.ty x.2.1))
    .done { e.put r (fun _ => z) with ex := flagsByLane e.acts (rs.flatMap (·.2.2)) } e.hw
/-- scan (R198). -/
def execScan (f : Fields) (s : State) : Out :=
  issueF Forms.scan f s fun e r =>
    let w := Ty.width f.ty
    let rs := (List.range (64 / w)).map fun i =>
      scanElem (bits 2 0 f.b.toNat) f.ty f.op (bit 3 f.b.toNat) (fun l => subElem w i (e.va r l)) e.acts
    .done { e.put r (fun l => word (packElems w (rs.map fun x => canon f.ty (Tab.val 0 x.1 l)))) with
      ex := flagsByLane e.acts (rs.flatMap (·.2.2)) } e.hw
/-- compact (R199). -/
def execCompact (f : Fields) (s : State) : Out :=
  lanewise Forms.compact f s fun e r l =>
    let packed := e.acts.filter fun m => e.reg r.sh.b r.b m != 0
    let i := (e.acts.filter fun m => decide (m < l)).length
    match packed[i]? with
    | some m => e.va r m
    | none => if f.op = 1 then e.vd r l else 0
/-- isect (R202). -/
def execIsect (f : Fields) (s : State) : Out :=
  issueF Forms.isect f s fun e r =>
    let w := Ty.width f.ty
    let n := 64 / w
    let pad := 2 ^ w - 1
    let b : List (Nat × Nat) := e.acts.flatMap fun m => (List.range n).filterMap fun i =>
      let k := subElem w i (e.reg r.sh.b r.b m)
      if k = pad then none else some (m * n + i, k)
    let pos (x : Nat) : Nat := if x = pad then pad else match b.find? fun y => y.2 == x with | some y => y.1 | none => pad
    let res := e.acts.map fun l => (l, (List.range n).map fun i => pos (subElem w i (e.va r l)))
    let cnt := (res.flatMap fun x => x.2.filter (· != pad)).length
    .done { v := res.map fun x => (32 * r.d + x.1, word (packElems w x.2)), s := [(r.c, word cnt)] } e.hw

end Sys2Proof.Machine
end

