-- ==== Sys2Proof/Machine/Sync.lean ====
section
/-! DEFINITION. What the paths of a gang and the gangs of a block do together: atomic operators, drains of reduction buffers,
rejoin groups, barriers, and lanes that end (05_paths R110-R112; 14_atomics R266, R273, R279-R282; 04_launch R90). -/

namespace Sys2Proof.Machine

open Sys2Proof

/-! ## Operators -/

/-- The new value of an atomic operator (Table AT-3), rounded to nearest even and with canonical NaNs (R266). [DEDUCED, safe: log 42] -/
def atomNew (op : Nat) (t : Ty) (old y : Nat) : Nat :=
  match op with
  | 0 | 1 | 2 | 3 | 4 | 5 => canon t (combElem op t 0 old y).1
  | 6 => canon t y
  | 7 => if old ≥ y then 0 else old + 1
  | _ => if old = 0 ∨ y < old then y else old - 1

/-! ## Drains -/

/-- The combined value of an entry: its marked lanes in ascending order (R273). -/
def redValue (r : RedEntry) : Nat :=
  match r.part with
  | [] => 0
  | (_, x) :: t => t.foldl (fun y z => atomNew r.op r.ty y z.2.toNat) x.toNat

/-- Adds operations to the machine, giving them the next numbers. -/
def Hw.addOps (hw : Hw) (os : List Op) : Hw :=
  os.foldl (fun h o => { h with ops := h.ops ++ [{ o with id := h.nextId }], nextId := h.nextId + 1 }) hw

/-- Sends the entries of a gang's reduction buffer to their home slices, in the order they were allocated, as part of the drain
that first names them (R273). -/
def drainPart (first : Nat) (hw : Hw) (gk : Nat) : Hw :=
  match hw.gangs.look gk with
  | none => hw
  | some g =>
    (hw.addOps (g.reds.map fun r =>
      { id := 0, after := first :: (hw.ops.filter fun o => o.gk == gk).map (·.id), part := g.part, core := gkCore gk, ctx := gkCtx gk, gk := gk, paths := 0xFFFF, counts := true, launch := r.launch,
        kind := .partialSum { lane := 0, tgt := r.tgt, val := word (redValue r) } r.op r.ty r.rank false })).setGang gk
      fun g => { g with reds := [] }

/-- The drain of one gang's reduction buffer (R273). -/
def drainGang (hw : Hw) (gk : Nat) : Hw := drainPart hw.nextId hw gk
/-- Puts a gang behind those of lower index. -/
def byIndex (x : Nat × Gang) : List (Nat × Gang) → List (Nat × Gang)
  | [] => [x]
  | y :: ys => if x.2.gidx < y.2.gidx then x :: y :: ys else y :: byIndex x ys
/-- One drain of several gangs of a block, in ascending gang index (R273). -/
def drainGangs (hw : Hw) (gs : List (Nat × Gang)) : Hw :=
  (gs.foldr byIndex []).foldl (fun h g => drainPart hw.nextId h g.1) hw

/-! ## Paths that wait -/

/-- The state with a form's retirement at a named path, if the path waits there. -/
def retireAt (s : State) (gk p : Nat) (w : Writes) : State :=
  match envAt s ⟨gkCore gk, gkCtx gk, gkSlot gk, p⟩ with
  | some e => s.with (e.retireParked w e.hw)
  | none => s

/-- The forms that the lanes of path p which f selects wait at, each once. -/
def foldForms (g : Gang) (p : Nat) (f : Nat → FoldLane → Bool) : List Regs :=
  ((g.foldArr.filter fun x => (match g.paths.look p with | some q => inLanes q.mask x.1 | none => false) && f x.1 x.2).filterMap fun x => x.2.form).foldl
    (fun l r => if l.contains r then l else l ++ [r]) []
/-- Releases the last-use scalars of forms that lanes of a path waited at (06_registers R122). -/
def releaseForms (hw : Hw) (gk p : Nat) (rs : List Regs) : Hw :=
  rs.foldl (fun h r => r.relS.foldl (fun h n => releaseS h gk p n) h) hw
/-- The lanes of a folded path that wait as w go on behind their form. -/
def foldRelease (g : Gang) (p : Nat) (w : Wait) : Gang :=
  refold { g with foldArr := g.foldArr.map fun x =>
    if (match g.paths.look p with | some q => inLanes q.mask x.1 | none => false) && decide (x.2.wait = w) then
      let pc := x.2.pc + word (match x.2.form with | some r => r.len | none => 8)
      (x.1, { x.2 with wait := .none, wmask := 0, form := none, pc := pc, cl := x.2.cl.after pc })
    else x } p

/-! ## Rejoin groups -/

/-- A member of a waiting group: an entry, or a waiting lane of a folded entry, with the mask it names. -/
structure Member where
  p : Nat
  m : Lanes
  wmask : Lanes
  folded : Bool
  deriving DecidableEq, Repr

/-- Where the members of a gang wait: (address, DEPTH). -/
def rejoinKeys (g : Gang) : List (Word × Nat) :=
  (g.paths.filterMap fun x => if x.2.state = .rejoin ∧ !x.2.folded then some (x.2.pc, x.2.depth) else none) ++
    (g.paths.flatMap fun x => if x.2.folded then (lanes x.2.mask).filterMap fun l =>
      match g.foldArr.look l with
      | some f => if f.wait = .rejoin then some (f.pc, f.depth) else none
      | none => none
    else [])

/-- The members of the waiting group at an address and DEPTH (R110). -/
def rejoinGroup (g : Gang) (k : Word × Nat) : List Member :=
  g.paths.flatMap fun x =>
    if x.2.folded then (lanes x.2.mask).filterMap fun l =>
      match g.foldArr.look l with
      | some f => if f.wait = .rejoin ∧ (f.pc, f.depth) = k then some ⟨x.1, lanesOf (2 ^ l), f.wmask, true⟩ else none
      | none => none
    else if x.2.state = .rejoin ∧ (x.2.pc, x.2.depth) = k then [⟨x.1, x.2.mask, x.2.wmask, false⟩] else []

/-- The lanes of a group. -/
def groupLanes (ms : List Member) : Lanes := ms.foldl (fun u m => u ||| m.m) 0
/-- Whether a group is satisfied: every member's mask but the exited lanes lies in it (R110). -/
def groupDone (g : Gang) (ms : List Member) : Bool :=
  !ms.isEmpty && ms.all fun m => (m.wmask &&& ~~~g.exited &&& ~~~(groupLanes ms)) == 0

/-- The member of a group that holds its lowest lane. -/
def leadOf (ms : List Member) : Member := (ms.find? fun m => inLanes m.m (lowLane (groupLanes ms))).getD ⟨0, 0, 0, false⟩
/-- The form a member waits at. -/
def Member.form (g : Gang) (m : Member) : Option Regs :=
  if m.folded then (g.foldArr.val {} (lowLane m.m)).form else (g.paths.look m.p).bind (·.form)

/-- Merges the members of a group into one path at an address (R111). Lanes of folded paths leave them, unless the lowest lane belongs
to a folded path that keeps other lanes: then the group's lanes go on as lanes of that path. -/
def mergeMembers (hw : Hw) (gk : Nat) (ms : List Member) (pc : Word) : Hw :=
  match hw.gangs.look gk with
  | none => hw
  | some g =>
    let u := groupLanes ms
    let low := leadOf ms
    let ps := dedup (ms.map (·.p))
    let age := maxOf (ps.map fun p => (g.paths.val {} p).age)
    let depth := if low.folded then (g.foldArr.val {} (lowLane u)).depth else (g.paths.val {} low.p).depth
    let left (p : Nat) : Lanes := match g.paths.look p with
      | some q => if q.folded then q.mask &&& ~~~u else 0
      | none => 0
    let keep := ps.filter fun p => left p != 0
    let lose (h : Hw) (p : Nat) : Hw := (orderBehind h gk g.part p low.p).setGang gk fun g =>
      refold { g with paths := g.paths.upd p fun q => { q with mask := left p } } p
    if keep.contains low.p then
      let h1 := hw.setGang gk fun g => { g with
        paths := g.paths.upd low.p fun q => { q with mask := q.mask ||| u, age := age }
        foldArr := (lanes u).foldl (fun t l => t.ins l { pc := pc, depth := depth }) g.foldArr }
      let h2 := (ps.filter (· != low.p)).foldl (fun h p =>
        if left p = 0 then dropEntry (orderBehind h gk g.part p low.p) gk g.part p else lose h p) h1
      h2.setGang gk fun g => refold g low.p
    else
      let full := (ps.filter fun p => !keep.contains p).filterMap fun p => (g.paths.look p).map fun q =>
        (p, { q with folded := false, moving := 0, depth := depth, mask := (ms.filter fun m => m.p == p).foldl (fun u m => u ||| m.m) 0 })
      let h1 := (mergePaths hw gk g.part full pc {}).setGang gk fun g => { g with
        paths := g.paths.upd low.p fun q => { q with mask := u, age := age, form := none, skipBp := false, skipWp := false, came := 0 }
        foldArr := (lanes u).foldl (fun t l => t.del l) g.foldArr }
      keep.foldl lose h1

/-- Merges a satisfied group (R110, R111): the merged path continues at the clause end, and rejoin retires for each member. -/
def mergeGroup (s : State) (gk : Nat) (ms : List Member) : State :=
  match s.hw.gangs.look gk with
  | none => s
  | some g =>
    let low := leadOf ms
    let at' := if low.folded then (g.foldArr.val {} (lowLane low.m)).pc else (g.paths.val {} low.p).pc
    let len := match low.form g with | some r => r.len | none => 8
    let h0 := (dedup (ms.map (·.p))).foldl (fun h p => releaseForms h gk p
      (((ms.filter fun m => m.p == p).filterMap fun m => m.form g).foldl (fun l r => if l.contains r then l else l ++ [r]) [])) s.hw
    let h1 := mergeMembers h0 gk ms (at' + word len)
    s.with ((dedup (ms.map (·.p))).foldl (fun h p => noteStep g.part gk p s.hw (finStep h g.part gk p)) h1)

/-- Whether every lane of a gang that has not exited waits at a rejoin (R112). -/
def allRejoin (g : Gang) : Bool :=
  !g.paths.isEmpty && g.paths.all fun x =>
    if x.2.folded then (lanes (x.2.mask &&& ~~~g.exited)).all fun l =>
      match g.foldArr.look l with | some f => decide (f.wait = .rejoin) | none => false
    else decide (x.2.state = .rejoin)

/-- A gang whose folded lanes no longer wait at rejoins: each stands at its rejoin, which it will issue again (R112, R114). -/
def unwaited (g : Gang) : Gang :=
  let g' := { g with foldArr := g.foldArr.map fun x => (x.1, if x.2.wait = .rejoin then { x.2 with wait := .none, wmask := 0 } else x.2) }
  (g.paths.filter fun x => x.2.folded).foldl (fun g x => refold g x.1) g'
/-- The rejoin deadlock (R112): every waiting path stops, and cause 0x0A is raised on the lowest of them. -/
def rejoinDeadlock (s : State) (gk : Nat) (g : Gang) : State :=
  let hit := (rejoinKeys g).foldl (fun h k => let ms := rejoinGroup g k
    ms.foldl (fun h m => h ||| (m.wmask &&& ~~~g.exited &&& ~~~(groupLanes ms))) h) (0 : Lanes)
  let g1 := unwaited g
  match g1.paths with
  | [] => s
  | (p, q) :: _ =>
    let w := (g1.foldArr.find? fun x => inLanes q.mask x.1 && x.2.pc == q.pc).map (·.2)
    let form := if q.folded then w.bind (·.form) else q.form
    let insn := if q.folded then (match w with | some x => x.insn | none => 0) else q.insn
    let h := takeTrap s (s.hw.setGang gk fun _ => g1) gk p { cause := 0x0A, hit := hit } (match form with | some r => r.len | none => 8) insn.toNat
    let n := h.nextId
    let tr := (h.gangs.look gk).bind fun g => (g.paths.look p).bind (·.trap)
    s.with { h.setGang gk fun g => { g with paths := g.paths.map fun x =>
      (x.1, { x.2 with state := .stopped, wmask := 0, moving := 0, wait := .none, form := none, trap := tr.map fun t => { t with group := n, resume := x.2.pc } }) } with nextId := n + 1 }

/-- Evaluates the waiting groups of a gang until none is satisfied, then the deadlock condition (R110, R112). -/
def settleRejoin (gk : Nat) : Nat → State → State
  | 0, s => s
  | n + 1, s =>
    match s.hw.gangs.look gk with
    | none => s
    | some g =>
      match (rejoinKeys g).find? fun k => groupDone g (rejoinGroup g k) with
      | some k => settleRejoin gk n (mergeGroup s gk (rejoinGroup g k))
      | none => if allRejoin g then rejoinDeadlock s gk g else s

/-! ## Barriers -/

/-- The number of a lane of a gang in its block. -/
def blockLane (g : Gang) (l : Nat) : Nat := 32 * g.gidx + l
/-- The wave size g and spacing t, in core cycles, of a cluster's current-slope limit register (20_power R391). -/
def waveSize (c : Cluster) : Nat := bits 7 0 c.slope
/-- Wave spacing. -/
def waveSpacing (c : Cluster) : Nat := bits 39 24 c.slope
/-- The gangs of a block, by slot. -/
def blockGangs (hw : Hw) (b : Nat) : List (Nat × Gang) := hw.gangs.filter fun g => g.2.block == b
/-- Whether some path or lane of a gang waits as w. -/
def waitsAs (g : Gang) (w : Wait) : Bool :=
  (g.paths.any fun x => decide (x.2.wait = w) && decide (x.2.state = .barrier)) || g.foldArr.any fun x => decide (x.2.wait = w)

/-- Releases the paths and lanes of a gang that wait as w at a barrier. -/
def releaseGang (s : State) (gk : Nat) (w : Wait) : State :=
  match s.hw.gangs.look gk with
  | none => s
  | some g => g.paths.foldl (fun s x =>
      if x.2.folded then
        if g.foldArr.any fun l => inLanes x.2.mask l.1 && decide (l.2.wait = w) then
          let h := releaseForms s.hw gk x.1 (foldForms g x.1 fun _ l => decide (l.wait = w))
          s.with (finStep (h.setGang gk fun g => foldRelease g x.1 w) g.part gk x.1)
        else s
      else if x.2.wait = w ∧ x.2.state = .barrier then retireAt s gk x.1 {} else s) s

/-- Marks the waiting paths and lanes of a gang for the wave of cycle t. -/
def markReleased (s : State) (gk : Nat) (w : Wait) (t : Nat) : State :=
  s.with (s.hw.setGang gk fun g => { g with
    paths := g.paths.map fun x => (x.1, if x.2.wait = w ∧ x.2.state = .barrier then { x.2 with wait := .released t } else x.2)
    foldArr := g.foldArr.map fun x => (x.1, if x.2.wait = w then { x.2 with wait := .released t } else x.2) })

/-- Releases the waiting gangs of a block in waves, the first now (R282). -/
def releaseWaves (s : State) (b : Nat) (core : Nat) (w : Wait) : State :=
  let c := s.hw.cluster (coreCluster core)
  let gs := (blockGangs s.hw b).filter fun g => waitsAs g.2 w
  let n := if waveSize c = 0 then gs.length else waveSize c
  ((List.range gs.length).zip gs).foldl (fun s x =>
    if x.1 < n then releaseGang s x.2.1 w
    else markReleased s x.2.1 w (coreCycles s.hw core s.time + x.1 / n * waveSpacing c)) s

/-- Changes a block. -/
def Hw.setBlock (hw : Hw) (b : Nat) (f : Block → Block) : Hw := { hw with blocks := hw.blocks.upd b f }

/-- The expected count of the block barrier's current phase (R279, R280). -/
def blockExpected (b : Block) : Nat := 32 * b.ext1 - b.gone.length

/-- Whether an access that lanes issued before they arrived at a barrier is still to be performed (13_consistency R258). -/
def underWay (hw : Hw) (ids : List Nat) : Bool := !ids.isEmpty && hw.ops.any fun o => ids.contains o.id

/-- Opens the block barrier if its arrivals reach its expected count and their scratchpad accesses are performed: buffers drain, then the gangs are released (R282). -/
def openBlock (s : State) (bk : Nat) : State :=
  match s.hw.blocks.look bk with
  | none => s
  | some b =>
    if b.bar.arrived.isEmpty || decide (b.bar.arrived.length < blockExpected b) || underWay s.hw b.bar.after then s
    else
      let h1 := s.hw.setBlock bk fun b => { b with bar := {}, gone := b.gone ++ b.goneNext, goneNext := [] }
      let h2 := drainGangs h1 (blockGangs h1 bk)
      releaseWaves (s.with h2) bk b.core .bar

/-- Opens named barrier n of a block if its arrivals reach its expected count (R279, R280). [DEDUCED, unsafe: log 96] -/
def openNamed (s : State) (bk n : Nat) : State :=
  match s.hw.blocks.look bk with
  | none => s
  | some b =>
    let x := b.nbars.val {} n
    if x.arrived.isEmpty || decide (x.arrived.length < x.declared - x.reduced) || underWay s.hw x.after then s
    else
      let h1 := s.hw.setBlock bk fun b => { b with nbars := b.nbars.ins n { x with arrived := [], after := [], declared := 0, reduced := 0 } }
      releaseWaves (s.with h1) bk b.core (.nbar n)

/-- Opens the barriers of a block that can open. -/
def reopen (s : State) (bk : Nat) : State := (List.range 16).foldl (fun s n => openNamed s bk n) (openBlock s bk)

/-- Takes lanes that exited or were killed out of the barriers of their block, and opens those that now are full (R280). -/
def leaveBarriers (s : State) (bk : Nat) (ls : List Nat) : State :=
  let h := s.hw.setBlock bk fun b => { b with
    gone := b.gone ++ ls.filter fun l => !b.bar.arrived.contains l
    goneNext := b.goneNext ++ ls.filter fun l => b.bar.arrived.contains l
    nbars := b.nbars.map fun x => (x.1,
      let mine := ls.filter fun l => x.2.members.contains l
      { x.2 with members := x.2.members.filter fun l => !ls.contains l
                 reduced := x.2.reduced + (mine.filter fun l => !x.2.arrived.contains l).length }) }
  reopen (s.with h) bk

/-! ## Lanes and gangs that end -/

/-- A number no gang has, for what an ended gang leaves behind. -/
def deadGang : Nat := 2 ^ 40

/-- Whether an operation's reply is addressed to its gang, so that the gang's slot stays taken until it comes (04_launch R90). -/
def OpKind.replies : OpKind → Bool
  | .load .. | .glaunch .. | .hflush .. | .ldc .. | .stc .. | .fsig .. | .fmcr .. => true
  | .atomic _ _ _ _ _ nr => !nr
  | .counter .. => true
  | _ => false

/-- The gang ends (R90, R273): its buffer drains, its registers go, and what is still outstanding no longer returns to it. -/
def endGang (hw : Hw) (gk : Nat) : Hw :=
  let h := drainGang hw gk
  match h.gangs.look gk with
  | none => h
  | some g =>
    let h' : Hw := { h.setPart g.part fun q => { q with pend := q.pend.map fun w => if w.gk = gk then { w with gk := deadGang } else w } with
        gangs := h.gangs.del gk
        ops := h.ops.map fun o => if o.gk = gk then
          { o with flags := [], dst := .none, gk := if o.kind.replies then gk else deadGang } else o }
    pruneSpill h' (gkCore gk) (gkCtx gk)

/-- Lanes m of path p exit or are killed (R90, 18_contexts R349): they leave the path, count as exited, and leave the barriers
of their block; an empty entry is freed, and a gang without paths ends. -/
def endLanes (s : State) (gk p : Nat) (m : Lanes) : State :=
  match s.hw.gangs.look gk with
  | none => s
  | some g =>
    let h1 := s.hw.setGang gk fun g => { g with
      exited := g.exited ||| m
      paths := g.paths.upd p fun q => { q with mask := q.mask &&& ~~~m }
      foldArr := (lanes m).foldl (fun t l => t.del l) g.foldArr }
    let empty := match g.paths.look p with | some q => (q.mask &&& ~~~m) == 0 | none => true
    let h2 := if empty then dropEntry h1 gk g.part p else h1.setGang gk fun g => refold g p
    let s3 := leaveBarriers (s.with h2) g.block ((lanes m).map (blockLane g))
    let s4 := settleRejoin gk 40 s3
    match s4.hw.gangs.look gk with
    | some g => if g.paths.isEmpty then s4.with (endGang s4.hw gk) else s4
    | none => s4

end Sys2Proof.Machine
end

