-- ==== Sys2Proof/Machine/Order.lean ====
section
/-! DEFINITION. Fences, waits for time, and writes that arrive and return their W (13_consistency R248-R262; 12_handles R232-R234;
19_links R365-R378). -/

namespace Sys2Proof.Machine

open Sys2Proof

/-! ## What a fence waits for -/

/-- The operations of a gang issued before bound. -/
def covered (hw : Hw) (gk bound : Nat) : List Op := hw.ops.filter fun o => o.gk == gk && decide (o.id < bound)
/-- Whether every device-space write of an operation has returned its W (R253). -/
def writesBack (o : Op) : Bool :=
  match o.kind with
  | .store es _ => es.all fun e => e.tgt.space != 0 || e.st == 2 || e.st == 3
  | .atomic .. | .counter .. | .partialSum .. => false
  | _ => true
/-- Whether every device-space write of an operation has returned its W: an atomic of another space makes none (R255). -/
def devBack (o : Op) : Bool :=
  match o.kind with
  | .atomic es .. => es.all fun e => e.tgt.space != 0 || e.st == 2 || e.st == 3
  | .partialSum e .. => e.tgt.space != 0
  | _ => writesBack o
/-- Whether a covered operation satisfies the rows of Table MO-2 up to a scope. -/
def fenceOp (scope : Nat) (o : Op) : Bool :=
  (match o.kind with | .load .. => false | _ => true) && writesBack o &&
    (decide (scope < 1) || (match o.kind with | .scopy .. => false | _ => true)) &&
    (decide (scope < 2) || (match o.kind with | .ldc .. | .stc .. => false | _ => true)) &&
    (decide (scope < 3) || (match o.kind with | .store es _ => es.all fun e => e.st != 0 | .fsig e => e.st != 0 | _ => true)) &&
    (decide (scope < 4) || (match o.kind with | .store .. | .fsig .. => false | _ => true))
/-- Whether the greatest returned W of the covered writes + 2 ns has come (R253). -/
def retsPast (g : Gang) (bound t : Nat) : Bool := g.rets.all fun x => decide (bound ≤ x.1) || decide (x.2 + 2 ≤ t)
/-- Whether a fence of a scope with the operations below bound in its covered set retires at time t (R253). -/
def fenceDone (hw : Hw) (gk scope bound t : Nat) : Bool :=
  (covered hw gk bound).all (fenceOp scope) && (match hw.gangs.look gk with | some g => retsPast g bound t | none => true)
/-- Whether an sfence retires (R254). -/
def sfenceDone (hw : Hw) (gk bound : Nat) : Bool :=
  (covered hw gk bound).all fun o => match o.kind with | .scopy .. | .ldc .. | .stc .. => false | _ => true
/-- Whether a wdone retires (R255). -/
def wdoneDone (hw : Hw) (gk bound : Nat) : Bool := (covered hw gk bound).all devBack
/-- A returned W: kept with its operation, and with the greatest of the gang (R255). -/
def noteW (hw : Hw) (gk id w t : Nat) : Hw :=
  hw.setGang gk fun g => { g with maxW := Nat.max g.maxW w, rets := Tab.ins (g.rets.filter fun x => decide (t < x.2 + 2)) id (Nat.max w (g.rets.val 0 id)) }

/-! ## The forms -/

/-- A form of majors 0x60 and 0x61 that waits until done says so, and then writes v (R253-R257). -/
def waitForm (e : Env) (r : Regs) (done : Bool) (w : Wait) (v : Writes) : Res :=
  if done then .done v e.hw else .stay (e.park r .parked w e.hw)
/-- A fence of a scope over the operations below bound retires: one of device or system scope covers stores for a later icinv (02_formats
R48). -/
def fenceOver (hw : Hw) (part gk scope bound : Nat) : Hw :=
  if scope < 3 then hw else hw.setPart part fun q => { q with fenced := q.fenced.ins gk (Nat.max bound (q.fenced.val 0 gk)) }
/-- fence (R253). -/
def execFence (f : SFields) (s : State) : Out :=
  issueS Forms.fence f s fun e r =>
    if fenceDone e.hw e.gk f.d.toNat e.hw.nextId e.now then .done {} (fenceOver e.hw e.part e.gk f.d.toNat e.hw.nextId)
    else .stay (e.park r .parked (.fence f.d.toNat e.hw.nextId) e.hw)
/-- sfence (R254). -/
def execSfence (f : SFields) (s : State) : Out :=
  issueS Forms.sfence f s fun e r => waitForm e r (sfenceDone e.hw e.gk e.hw.nextId) (.sfence e.hw.nextId) {}
/-- wdone (R255). -/
def execWdone (f : SFields) (s : State) : Out :=
  issueS Forms.wdone f s fun e r =>
    waitForm e r (wdoneDone e.hw e.gk e.hw.nextId) (.wdone e.hw.nextId r.d) (putS r e.g.maxW)
/-- The T of a twait (R256). -/
def twaitTime (e : Env) (r : Regs) (f : Fields) : Word :=
  let t := e.sa r + word f.lit
  if f.op = 1 then t + word e.now else t
/-- A twait (R256). -/
def twaitForm (f : Fields) (s : State) : Out :=
  issueF Forms.twait f s fun e r =>
    waitForm e r (decide ((twaitTime e r f).toNat ≤ e.now)) (.twait (twaitTime e r f)) {}
/-- twait with T in a scalar (R256). -/
def execTwait (f : Fields) (s : State) : Out := twaitForm f s
/-- twait with a literal added (R256). -/
def execTwaitL (f : Fields) (s : State) : Out := twaitForm f s
/-- tnow (R256). -/
def execTnow (f : Fields) (s : State) : Out :=
  issueF Forms.tnow f s fun e r =>
    waitForm e r (f.op == 0 || fenceDone e.hw e.gk 0 e.hw.nextId e.now) (.tnow e.hw.nextId r.d) (putS r e.now)
/-- A twait's time has come (R256). -/
def execTwaitExpiry (q : PathRef) (s : State) : Out :=
  match envAt s q with
  | some e => match e.q.wait with
    | .twait t => if t.toNat ≤ s.time ∧ runsOn s.hw e.core e.ctx then .next (s.with (e.retireParked {} s.hw)) else .next s
    | _ => .next s
  | none => .next s

/-! ## Writes that arrive -/

/-- A contribution to a multicast-reduce group (19_links R378): whether it is accepted. -/
def mcrTakes (k : LinkSt) (t : Target) (n : Nat) : Bool :=
  let x := k.mcr.val 0 t.tgt
  bit 63 x && !bit 62 x && (match Forms.tyOfCode (bits 58 53 x) with | some ty => Ty.width ty == 8 * n | none => false) &&
    decide (t.pa + n ≤ bits 28 20 x * 2 ^ 20)

/-- The new value and whether it is written, of an atomic element with operand or new value y and comparand c (14_atomics
R266). -/
def atomWrite (op : Nat) (t : Ty) (old y : Nat) (c : Option Word) : Option Nat :=
  match c with
  | some x => if old = x.toNat % 2 ^ Ty.width t then some y else none
  | none => some (atomNew op t old y)

/-- What an element of an operation does to the n bytes it finds holding old: the bytes it writes, if any, and what it keeps as
its value (an atomic its old value, a store what it stored). -/
def elemEffect (k : OpKind) (e : Elem) (old : Nat) : Option Nat × Word :=
  match k with
  | .atomic _ op ty cmp _ _ =>
    (atomWrite op ty old (e.val.toNat % 2 ^ Ty.width ty) (if op = 10 then some (cmp.val 0 e.lane) else none), word old)
  | .counter _ add => (some (if add then (old + e.val.toNat) % 2 ^ 64 else e.val.toNat), word old)
  | .partialSum _ op ty _ _ => (some (atomNew op ty old e.val.toNat), e.val)
  | _ => (some e.val.toNat, e.val)

/-- The arm word of a line after an oarm with operand y, with held partials of the line (14_atomics R275). -/
def armNew (arm y : Nat) (held : Bool) : Nat :=
  if !bit 63 arm && bits 15 0 y != 0 then 2 ^ 63 + bits 15 0 y
  else if bit 63 arm && bits 15 0 y == 0 && !held then arm - 2 ^ 63
  else arm
/-- Whether a partial is held for a line (R276). -/
def lineHolds (hw : Hw) (p line : Nat) : Bool :=
  hw.ops.any fun o => o.part == p && (match o.kind with | .partialSum e _ _ _ h => h && lineOf e.tgt.pa == line | _ => false)

/-- Whether an operation is an atom.oarm. -/
def OpKind.arms : OpKind → Bool
  | .atomic _ 9 _ _ _ _ => true
  | _ => false
/-- An atom.oarm is performed at the line of an address: its arm word changes, its data does not (14_atomics R275). The bridge keeps arm
words of host lines as a home slice does. [DEDUCED, unsafe: log 95] -/
def armElem (t : Nat) (o : Op) (hw : Hw) (e : Elem) (a : Nat) : Elem × Hw :=
  let line := lineOf a
  let old := (hw.part o.part).arms.val 0 line
  let h := hw.setPart o.part fun q => { q with arms := q.arms.put 0 line (armNew old e.val.toNat (lineHolds hw o.part line)) }
  let r := putWrite h o.part t a [] o.id o.gk o.paths
  ({ e with st := 1, w := r.1, val := word old }, r.2)

/-- An element of an operation is performed at its home slice at time t: it takes its W, or is held by a full Tail, or waits for
the host that holds the line (R248; 19_links R365). -/
def arriveDevice (m : Tab Memory) (t : Nat) (o : Op) (hw : Hw) (e : Elem) : Elem × Hw :=
  let n := o.kind.width
  let line := lineOf e.tgt.pa
  if (hw.part o.part).link.hostLines.contains line then
    ({ e with st := 4, w := t }, hw.send 2 o.part [line * 128])
  else
    if o.kind.arms then armElem t o hw e e.tgt.pa
    else
      let x := elemEffect o.kind e (latestNat m hw o.part e.tgt.pa n)
      match x.1 with
      | none =>
        let r := putWrite hw o.part t e.tgt.pa [] o.id o.gk o.paths
        ({ e with st := 1, w := r.1, val := x.2 }, r.2)
      | some y =>
        match ctxWrite hw m t o e.tgt.pa e.va (toBytes n y) with
        | (some w, h) => ({ e with st := 1, w := w, val := x.2 }, h)
        | (none, h) => ({ e with st := 5 }, h)

/-- A write to a host sector the bridge holds (14_atomics R269). [DEDUCED, unsafe: log 95] -/
def arriveBridge (m : Tab Memory) (t : Nat) (o : Op) (hw : Hw) (e : Elem) : Elem × Hw :=
  let n := o.kind.width
  let a := bridgeAddr e.tgt.pa
  if o.kind.arms then armElem t o hw e a
  else
  let x := elemEffect o.kind e (latestNat m hw o.part a n)
  let r := putWrite hw o.part t a (match x.1 with | some y => toBytes n y | none => []) o.id o.gk o.paths
  let h := r.2.setPart o.part fun q => { q with link := { q.link with
    sectors := q.link.sectors.upd (e.tgt.pa / 64) fun s => (if x.1.isSome then 2 else s.1, t) } }
  ({ e with st := 1, w := r.1, val := x.2 }, h)

/-- Whether an operation is an atomic. -/
def OpKind.isAtomic : OpKind → Bool
  | .atomic .. => true
  | _ => false
/-- Whether an operation is an fsig. -/
def OpKind.isFsig : OpKind → Bool
  | .fsig .. => true
  | _ => false
/-- How the message of an operation names what is to be done: 0 a store, 1 + an atomic's operator, an fsig's addition 1. -/
def OpKind.sentCode : OpKind → Nat
  | .atomic _ op _ _ _ _ => 1 + op
  | .fsig .. => 1
  | _ => 0

/-- A write of an operation reaches its home slice, the bridge or its link (R248, R232; 19_links R366, R378). -/
def arriveElem (m : Tab Memory) (o : Op) (t : Nat) (hw : Hw) (e : Elem) : Elem × Hw :=
  let n := o.kind.width
  let k := (hw.part o.part).link
  if (e.st != 0 && e.st != 5) || !clear hw o e n false then (e, hw)
  else
    let out (code peer : Nat) : Elem × Hw :=
      ({ e with st := 1, w := t + 1 }, irreversible (hw.send 1 o.part ([e.tgt.space, e.tgt.pa, e.tgt.peer, e.tgt.tgt, n, e.val.toNat, o.kind.sentCode] ++
        (if o.kind.isFsig then [t] else if e.tgt.space = 4 then [bits 40 29 (k.mcr.val 0 e.tgt.tgt)] else []))) o.part o.ctx t e.va code peer)
    match e.tgt.space with
    | 0 => arriveDevice m t o hw e
    | 1 =>
      if sectorHeld k e.tgt.pa then
        let r := arriveBridge m t o hw e
        (r.1, irreversible r.2 o.part o.ctx t e.va (if o.kind.isAtomic then 6 else 0) 0)
      else if k.cxl || o.kind.isAtomic then (e, hw) else out 0 0
    | 2 =>
      if o.kind.isAtomic then
        if e.w = 0 ∧ peerSends k e.tgt.peer then ({ (out 6 e.tgt.peer).1 with st := 0, w := t + 1 }, (out 6 e.tgt.peer).2) else (e, hw)
      else if peerSends k e.tgt.peer then out (if o.kind.isFsig then 4 else 2) e.tgt.peer else (e, hw)
    | 3 => if targetUp k e.tgt n then out 1 0 else (e, hw)
    | _ =>
      if !k.fen then (e, hw)
      else if mcrTakes k e.tgt n then out 3 0
      else ({ e with st := 3 }, hw.setPart o.part fun q => { q with link := { q.link with dropMcr := (q.link.dropMcr + 1) % 65536 } })

/-- Applies f to the selected elements of an operation in ascending lane order; an atomic's lane waits for a lower one that names the same
element and is still to be performed, or, of a peer, to be sent (14_atomics R266). -/
def mapInOrder (atomic : Bool) (sel : Elem → Bool) (f : Hw → Elem → Elem × Hw) : List Elem → Hw → List Elem → List Elem × Hw
  | _, hw, [] => ([], hw)
  | before, hw, e :: es =>
    let waits := atomic && before.any fun y => y.tgt == e.tgt && ((y.st == 0 && !(y.tgt.space == 2 && y.w != 0)) || y.st == 4 || y.st == 5)
    let a := if sel e && !waits then f hw e else (e, hw)
    let b := mapInOrder atomic sel f (before ++ [a.1]) a.2 es
    (a.1 :: b.1, b.2)
/-- Writes of an operation reach where their lines are serialised (R248): the selected lanes of a store, a gsig, a gcount or an
atomic. -/
def execWriteArrival (id : Nat) (sel : Lanes) (s : State) : Out :=
  match s.hw.op id with
  | some o =>
    let go := match o.kind with | .store .. | .counter .. | .atomic .. | .fsig .. => true | _ => false
    if go then
      let r := mapInOrder o.kind.isAtomic (fun e => inLanes sel e.lane) (arriveElem s.mem o s.time) [] s.hw o.kind.elems
      .next (s.with (r.2.setOp id fun x =>
        { x with kind := x.kind.withElems r.1, held := x.held && r.1.any fun e => e.st == 5 }))
    else .next s
  | none => .next s

/-- The Ws of performed device elements are noted as returned (R248 item 4). -/
def returnWs (hw : Hw) (o : Op) (es : List Elem) (t : Nat) : Hw :=
  es.foldl (fun h e => if e.st == 1 && e.tgt.space == 0 then noteW h o.gk o.id e.w t else h) hw

/-- A form retires when the core's Orrery time reaches t (R267): at once, or in a wait. -/
def acquireAt (s : State) (o : Op) (w : Nat) (val : Nat → Word) : State :=
  if w + 2 ≤ s.time then landOp s o val
  else s.with { s.hw with gangs := s.hw.gangs.upd o.gk fun g => { g with
    paths := g.paths.map fun x => (x.1, if x.2.wait = .op o.id then { x.2 with wait := .acquire o.id (w + 2) } else x.2) } }

/-- Whether an element of a store is a publication (19_links R371). -/
def isPublication (k : LinkSt) (e : Elem) (n : Nat) : Bool :=
  e.tgt.space == 3 && (extent k e.tgt.tgt).shared && e.tgt.pa == 0 && n == 8
/-- The W of arrived writes returns to the core, or their links report them done (R232, R248): device writes first, then the
others. When the last has, the operation ends. -/
def execWriteWReturn (id : Nat) (s : State) : Out :=
  match s.hw.op id with
  | some o =>
    let es := o.kind.elems
    let dev := es.any fun e => e.st == 1 && e.tgt.space == 0
    let back (e : Elem) : Bool := e.st == 1 && (e.tgt.space == 0) == dev && !isPublication (s.hw.part o.part).link e o.kind.width &&
      (e.tgt.space != 2 || peerSends (s.hw.part o.part).link e.tgt.peer)
    let es' := es.map fun e => if back e then { e with st := 3 } else e
    let h := if dev then returnWs s.hw o es s.time else s.hw
    let o' := { o with kind := o.kind.withElems es' }
    let s' := s.with (h.setOp id fun _ => o')
    match o.kind with
    | .store .. | .fsig .. => .next (if allDone es' && !(es'.any fun e => e.st == 1) && o.chain.isNone then landOp s' o' fun _ => 0 else s')
    | .partialSum e .. => .next (if e.st == 1 then landOp s' o' (fun _ => 0) else s)
    | .counter e add =>
      if e.st != 1 then .next s
      else if add then .next (landOp s' o' fun _ => e.val)
      else .next (acquireAt s' o' e.w fun _ => e.val)
    | _ => .next s
  | none => .next s

/-! ## The host's accesses to device memory -/

/-- Splits bytes at an address into pieces that each lie in one line. -/
def linePieces : Nat → Nat → List Byte → List (Nat × List Byte)
  | 0, _, _ => []
  | k + 1, a, bs =>
    if bs.isEmpty then []
    else
      let n := 128 - a % 128
      (a, bs.take n) :: linePieces k (a + n) (bs.drop n)

/-- Writes that come from outside to device memory of partition p, in order; strict keeps them behind every earlier posted
write (R261); those of the host need no snoop (19_links R365). -/
def outsideWrite (hw : Hw) (p t a : Nat) (bs : List Byte) (strict host : Bool) : Hw :=
  (linePieces (bs.length / 128 + 2) a bs).foldl (fun h x =>
    let t' := if strict then Nat.max t ((h.part p).hostAll - 2) else t
    let r := if host then putHost h p t' x.1 x.2 else putWrite h p t' x.1 x.2 0 0 0
    r.2.setPart p fun q => { q with hostW := (if strict then Nat.max q.hostW r.1 else q.hostW), hostAll := Nat.max q.hostAll r.1 }) hw

/-- A host write to device memory through BAR2 or CXL.mem (R261): Relaxed Ordering lets it take its W early. -/
def execHostWrite (fn addr : Nat) (data : List Byte) (cxl ro : Bool) (s : State) : Out :=
  if (s.hw.part fn).present && (s.hw.part fn).link.active && decide (addr + data.length ≤ partBytes s.hw fn) && (!cxl || (s.hw.part fn).link.cxl) then
    .next (s.with (outsideWrite s.hw fn s.time addr data (!ro || cxl) true))
  else .next s

/-- Whether every earlier posted write of a function without Relaxed Ordering has passed its W (R261). -/
def postedPast (hw : Hw) (fn t : Nat) : Bool := decide ((hw.part fn).hostW ≤ t)

/-- A host read of device memory (R261): performed after every earlier posted write; through CXL.mem the host then holds the
lines (19_links R365). -/
def readMemory (fn addr len : Nat) (cxl : Bool) (s : State) : Out :=
  if (s.hw.part fn).present && (s.hw.part fn).link.active && decide (addr + len ≤ partBytes s.hw fn) && decide ((s.hw.part fn).hostAll ≤ s.time) && (!cxl || (s.hw.part fn).link.cxl) then
    let h := s.hw.send 3 fn (addr :: (rdBytes s.mem fn addr len).map (·.toNat))
    let held := if cxl then (List.range (len / 128 + 2)).filterMap fun i =>
      if (lineOf addr + i) * 128 < addr + len then some (lineOf addr + i) else none else []
    .next (s.with (h.setPart fn fun q => { q with link := { q.link with
      hostLines := q.link.hostLines ++ held.filter fun l => !q.link.hostLines.contains l } }))
  else .next s

end Sys2Proof.Machine
end

