-- ==== Sys2Proof/Machine/Control.lean ====
section
/-! DEFINITION. Clause headers and control flow (02_formats R36-R45; 05_paths R98-R112; 04_launch R90). -/

namespace Sys2Proof.Machine

open Sys2Proof

/-! ## Shared steps -/

/-- Whether lane l meets the condition of a form (R100). -/
def cond (e : Env) (r : Regs) (opt l : Nat) : Bool :=
  match opt with
  | 0 => e.va r l != 0
  | 1 => e.va r l == 0
  | _ => true

/-- The target: PC plus the sign-extended literal (R100). -/
def Env.target (e : Env) (lit : Nat) : Word := e.q.pc + word (trunc (sext lit 32) 64)
/-- The clause end: the address behind the instruction (R100). -/
def Env.clauseEnd (e : Env) (len : Nat) : Word := e.q.pc + word len

/-- The cause a transfer to an address raises, if any: 0x08 when it is not 8-byte aligned, 0x07 when bits [63:57] are not zero
(R38, R100, R106). [DEDUCED, unsafe: log 13] [DEDUCED, safe: log 18] -/
def badTarget (t : Word) (hit : Lanes) : Option Trap :=
  if t.toNat % 8 ≠ 0 then some { cause := 0x08, hit := hit }
  else if 2 ^ 57 ≤ t.toNat then some { cause := 0x07, info := 3, fault := t.toNat, hit := hit }
  else none

/-- Sends every lane that moves together to an address, at the header there, its DEPTH changed by dep. -/
def Env.goto (e : Env) (pc : Word) (dep : Nat → Nat) (hw : Hw) : Hw :=
  hw.setGang e.gk fun g => sendLanes g e.p e.grp pc {} dep

/-- Transfers control to a target, or raises the cause it deserves (R100). -/
def Env.jump (e : Env) (w : Writes) (t : Word) (dep : Nat → Nat) (hw : Hw) : Res :=
  match badTarget t e.act with
  | some x => .trap x
  | none => .moved w (e.goto t dep hw)

/-- Continues at the clause end. -/
def Env.fall (e : Env) (len : Nat) (w : Writes) (hw : Hw) : Res := .moved w (e.goto (e.clauseEnd len) id hw)

/-- Sets nesting counters of the gang; a counter of zero is not listed. -/
def setNest (g : Gang) (cs : List (Nat × Nat)) : Gang := { g with nest := cs.foldl (fun t x => t.put 0 x.1 x.2) g.nest }

/-- The lanes of a set whose counters in a list of new counters are zero. -/
def liveAfter (m : Lanes) (cs : List (Nat × Nat)) (g : Gang) : List Nat := (lanes m).filter fun l => nestOf (setNest g cs) l == 0

/-- Writes new counters and then transfers when sel says so, else falls through (R101, R102). -/
def Env.structured (e : Env) (r : Regs) (cs : List (Nat × Nat)) (w : Writes) (takes : Bool) (t : Word) : Res :=
  let hw := e.hw.setGang e.gk fun g => setNest g cs
  if takes then e.jump w t id hw else e.fall r.len w hw

/-- Issues a control-flow form, which acts whatever act(p) holds (R94). -/
def issueC (fm : Form) (f : Fields) (s : State) (body : Env → Regs → Res) : Out :=
  issue s (regsF fm f) true false fun e => body e (regsF fm f)

/-- The nesting overflow trap (R101, R102). -/
def nestTrap (m : Lanes) : Res := .trap { cause := 0x0B, hit := m }

/-! ## Clause headers -/

/-- Whether a path can merge with path q of a gang at the header it begins (R109). -/
def mergeable (q x : Path) : Bool :=
  decide (x.state = .ready) && !x.folded && x.pc == q.pc && !x.cl.inside && x.depth == q.depth

/-- The machine after the path at a header begins the clause (R38). -/
def begun (hw : Hw) (gk p core now : Nat) (h : Header) : Hw :=
  hw.setGang gk fun g => match g.paths.look p with
    | none => g
    | some q =>
      let cl : Clause := { inside := true, sync := (hw.core core).syncs.length, fin := q.pc + word (8 * h.clen.toNat), seta := h.seta.toNat
                           setb := h.setb.toNat, yld := h.yld }
      let g1 := sendLanes g p (groupOf g q) (q.pc + 8) (cl.after (q.pc + 8)) id
      { g1 with paths := g1.paths.upd p fun q => { q with stallTo := coreCycles hw core now + h.stall.toNat, skipBp := false } }

/-- The members of the merge that a path can make at a REJOIN header (R109): the paths that qualify, and its own lanes there, those of a
folded path one by one. -/
def headMembers (e : Env) : List Member :=
  let own : List Member := if e.q.folded then ((lanes e.grp).filter fun l => (e.g.foldArr.val {} l).depth == e.q.depth).map fun l => ⟨e.p, lanesOf (2 ^ l), 0, true⟩
    else [⟨e.p, e.q.mask, 0, false⟩]
  own ++ (e.g.paths.filter fun x => x.1 != e.p && mergeable e.q x.2).map fun x => ⟨x.1, x.2.mask, 0, false⟩

/-- A clause header (R36-R38, R44, R45): with every WAIT flag at zero the path begins the clause; at a REJOIN header it merges
with every qualifying path or begins alone, an open choice (R109). [DEDUCED, safe: log 16] -/
def execBeginClause (h : Header) (s : State) : Out :=
  match env s with
  | none => .next s
  | some e =>
    if e.q.cl.inside || h.clen == 0 || (h.seta.toNat ≥ 12 && h.seta != 15) || (h.setb.toNat ≥ 12 && h.setb != 15) then
      .next (s.with (e.trap { cause := 0x01, hit := e.act }))
    else if (bitList 12 h.wait.toNat).any fun k => decide (flagCount e.hw.ops e.gk k ≠ 0) then .next s
    else
      let others := e.g.paths.filter fun x => x.1 != e.p && mergeable e.q x.2
      if h.rejoin && !others.isEmpty then
        let d := e.hw.draw
        if d.1 % 2 = 1 then
          let ms := headMembers e
          .next (s.with (begun (mergeMembers d.2 e.gk ms e.q.pc) e.gk (leadOf ms).p e.core e.now h))
        else .next (s.with (begun d.2 e.gk e.p e.core e.now h))
      else .next (s.with (begun e.hw e.gk e.p e.core e.now h))

/-! ## nop, yield, structured forms -/

/-- nop (R98). -/
def execNop (f : SFields) (s : State) : Out := issue s (regsS Forms.nop f) false false fun e => .done {} e.hw
/-- yield (R98): the path's age is reset when it retires. -/
def execYield (f : SFields) (s : State) : Out := issue s (regsS Forms.yld f) false false fun e => .done {} e.hw
/-- endif (R101). -/
def execEndif (f : SFields) (s : State) : Out :=
  issue s (regsS Forms.endif f) false false fun e =>
    .done {} (e.hw.setGang e.gk fun g => setNest g ((lanes e.grp).filterMap fun l =>
      if nestOf e.g l > 0 then some (l, nestOf e.g l - 1) else none))
/-- if (R101). -/
def execIf (f : Fields) (s : State) : Out :=
  issueC Forms.ifOp f s fun e r =>
    let ls := lanes e.grp
    if ls.any fun l => nestOf e.g l == 63 then nestTrap (lanesWhere fun l => inLanes e.grp l && nestOf e.g l == 63)
    else
      let cs := ls.filterMap fun l =>
        if nestOf e.g l > 0 then some (l, nestOf e.g l + 1) else if cond e r f.op l then none else some (l, 1)
      e.structured r cs {} (liveAfter e.grp cs e.g).isEmpty (e.target f.lit)
/-- else (R101). -/
def execElse (f : Fields) (s : State) : Out :=
  issueC Forms.elseOp f s fun e r =>
    let cs := (lanes e.grp).filterMap fun l =>
      if nestOf e.g l = 0 then some (l, 1) else if nestOf e.g l = 1 then some (l, 0) else none
    e.structured r cs {} (liveAfter e.grp cs e.g).isEmpty (e.target f.lit)
/-- loop (R102). -/
def execLoop (f : Fields) (s : State) : Out :=
  issueC Forms.loop f s fun e r =>
    if e.act = 0 then e.jump {} (e.target f.lit) id e.hw
    else if (lanes e.grp).any fun l => decide (nestOf e.g l > 61) then
      nestTrap (lanesWhere fun l => inLanes e.grp l && decide (nestOf e.g l > 61))
    else e.structured r ((lanes e.grp).filterMap fun l => if nestOf e.g l > 0 then some (l, nestOf e.g l + 2) else none) {} false 0
/-- break and cont with the counter value v (R102). -/
def leaveLoop (fm : Form) (f : Fields) (s : State) (v : Nat) : Out :=
  issueC fm f s fun e r =>
    if 63 < v then nestTrap e.act
    else e.structured r (e.acts.filterMap fun l => if cond e r f.op l then some (l, v) else none) {} false 0
/-- break (R102): k levels of if, then 2. -/
def execBreak (f : Fields) (s : State) : Out := leaveLoop Forms.breakOp f s (bits 5 0 f.lit + 2)
/-- cont (R102). -/
def execCont (f : Fields) (s : State) : Out := leaveLoop Forms.cont f s (bits 5 0 f.lit + 1)
/-- endloop from its second line, with the counters cs already changed (R102). -/
def Env.loopEnd (e : Env) (r : Regs) (f : Fields) (cs : List (Nat × Nat)) (w : Writes) : Res :=
  let g := setNest e.g cs
  if !(liveAfter e.grp cs e.g).isEmpty then e.structured r cs w true (e.target f.lit)
  else
    let more := (lanes e.grp).filterMap fun l =>
      if nestOf g l = 2 then some (l, 0) else if nestOf g l ≥ 3 then some (l, nestOf g l - 2) else none
    e.structured r (cs ++ more) w false 0
/-- The counters of continued lanes, cleared (R102). -/
def continued (e : Env) : List (Nat × Nat) := (lanes e.grp).filterMap fun l => if nestOf e.g l = 1 then some (l, 0) else none
/-- endloop (R102). -/
def execEndloop (f : Fields) (s : State) : Out := issueC Forms.endloop f s fun e r => e.loopEnd r f (continued e) {}
/-- loopn (R102): the count step, then endloop from its second line. -/
def execLoopn (f : Fields) (s : State) : Out :=
  issueC Forms.loopn f s fun e r =>
    let c0 := continued e
    let ls := liveAfter e.grp c0 e.g
    if r.sh.a = .v then
      if ls.all fun l => !vPending e.hw.ops e.gk r.a l then
        let cs := c0 ++ ls.filterMap fun l => if (e.g.v r.a l).toNat ≤ 1 then some (l, 2) else none
        e.loopEnd r f cs { v := ls.map fun l => (32 * r.a + l, if (e.g.v r.a l).toNat ≤ 1 then 0 else e.g.v r.a l - 1) }
      else .stay (e.awaitOperands { r with sh := { r.sh with wideA := true } })
    else if ls.isEmpty then e.loopEnd r f c0 {}
    else if (e.sa r).toNat ≤ 1 then e.loopEnd r f (c0 ++ ls.map fun l => (l, 2)) { s := [(r.a, 0)] }
    else e.loopEnd r f c0 { s := [(r.a, e.sa r - 1)] }

/-! ## Branches, calls, splits -/

/-- Divides the path, or raises the path overflow (R104). -/
def Env.split (e : Env) (hw : Hw) (gs : List Group') : Res :=
  match e.divide hw gs with
  | .ok h => .moved {} h
  | .error n => .trap { cause := 0x09, info := n, hit := e.act }

/-- bra (R105). -/
def execBra (f : Fields) (s : State) : Out :=
  issueC Forms.bra f s fun e r =>
    let taken := lanesWhere fun l => inLanes e.act l && cond e r f.op l
    match (if taken = 0 then none else badTarget (e.target f.lit) taken) with
    | some t => .trap t
    | none => e.split e.hw [⟨taken, e.target f.lit, 0, none⟩, ⟨e.grp &&& ~~~taken, e.clauseEnd r.len, 0, none⟩]
/-- brs (R105). -/
def execBrs (f : Fields) (s : State) : Out :=
  issueC Forms.brs f s fun e r =>
    if cond e r f.op 0 then e.jump {} (e.target f.lit) id e.hw else e.fall r.len {} e.hw
/-- The greatest DEPTH among the lanes that move together (R106, R114). -/
def Env.deepest (e : Env) : Nat :=
  if e.q.folded then maxOf ((lanes e.grp).map fun l => (e.g.foldArr.val {} l).depth) else e.q.depth
/-- call (R106). -/
def execCall (f : Fields) (s : State) : Out :=
  issueC Forms.call f s fun e r =>
    if e.act = 0 then e.fall r.len {} e.hw
    else match badTarget (e.target f.lit) e.act with
    | some t => .trap t
    | none =>
      if e.deepest ≥ 63 then nestTrap e.act
      else .moved { s := [(r.d, e.clauseEnd r.len)] } (e.goto (e.target f.lit) (· + 1) e.hw)
/-- ret (R106). -/
def execRet (f : SFields) (s : State) : Out :=
  issue s (regsS Forms.ret f) true false fun e => e.jump {} (e.sa (regsS Forms.ret f)) (· - 1) e.hw

/-- The distinct targets of the active lanes in a, by ascending lowest lane (R107). -/
def targets (e : Env) (r : Regs) : List Nat := dedup (e.acts.map fun l => (e.va r l).toNat)
/-- The lanes that name a target. -/
def namers (e : Env) (r : Regs) (t : Nat) : Lanes := lanesWhere fun l => inLanes e.act l && (e.va r l).toNat == t
/-- The groups of brx and callx: one for each target, and the lanes that are off at the clause end (R107). -/
def xGroups (e : Env) (r : Regs) (call : Bool) : List Group' :=
  (targets e r).map (fun t => ⟨namers e r t, word t, b2n call,
      if call then some (r.d, e.clauseEnd r.len) else none⟩) ++
    [⟨e.grp &&& ~~~e.act, e.clauseEnd r.len, 0, none⟩]
/-- The traps of brx and callx on their targets, with the lanes that meet each (R107). -/
def xTrap (e : Env) (r : Regs) : Option Trap :=
  let un := lanesWhere fun l => inLanes e.act l && (e.va r l).toNat % 8 != 0
  let far := lanesWhere fun l => inLanes e.act l && decide (2 ^ 57 ≤ (e.va r l).toNat)
  if un ≠ 0 then some { cause := 0x08, hit := un }
  else if far ≠ 0 then some { cause := 0x07, info := 3, fault := (e.va r (lowLane far)).toNat, hit := far }
  else none
/-- brx (R107). -/
def execBrx (f : Fields) (s : State) : Out :=
  issueC Forms.brx f s fun e r =>
    match xTrap e r with
    | some t => .trap t
    | none => e.split e.hw (xGroups e r false)
/-- The scalar entries that the return addresses of callx take: one in each copy, but for one that the path owns and no copy keeps
(R124, R131). -/
def callEntries (e : Env) (r : Regs) : Nat :=
  let gs := (xGroups e r true).filter fun x => x.m != 0
  let n := (gs.filter fun x => x.sw.isSome).length
  if e.q.folded then (if n = 0 then 0 else e.newS e.hw [r.d])
  else n - b2n (n == gs.length && e.newS e.hw [r.d] == 0)
/-- callx (R107). -/
def execCallx (f : Fields) (s : State) : Out :=
  issueC Forms.callx f s fun e r =>
    match xTrap e r with
    | some t => .trap t
    | none =>
      if e.deepest ≥ 63 ∧ e.act ≠ 0 then nestTrap e.act
      else match e.divide e.hw (xGroups e r true) with
        | .error n => .trap { cause := 0x09, info := n, hit := e.act }
        | .ok _ =>
          match allocate e.hw e.core e.ctx 0 (callEntries e r) [spillKeyS e.slot e.p (r.d / 32)] with
          | none => .trap e.spill13
          | some hw => e.split hw (xGroups e r true)
/-- split (R108): by key, or by slice; lanes that are off join the group of the lowest active lane. -/
def execSplit (f : Fields) (s : State) : Out :=
  issueC Forms.split f s fun e r =>
    let key (l : Nat) : Nat := if f.op = 1 then l / 8 else (e.va r l).toNat % 16
    let low := key (lowLane e.act)
    let ks := dedup (e.acts.map key)
    let gs : List Group' := if e.act = 0 then [⟨e.grp, e.clauseEnd r.len, 0, none⟩]
      else ks.map fun k => ⟨lanesWhere fun l => inLanes e.grp l && (if inLanes e.act l then key l == k else k == low),
        e.clauseEnd r.len, 0, none⟩
    e.split e.hw gs

/-! ## rejoin, exit -/

/-- The path (or the issuing lanes of a folded path) waits at the rejoin with mask m (R110, R114). -/
def waitRejoin (e : Env) (r : Regs) (m : Lanes) : Hw :=
  if e.q.folded then foldWait e r .rejoin m e.hw
  else e.setPath (e.park r .rejoin .none e.hw) fun q => { q with wmask := m }

/-- rejoin (R110): the path waits, and the waiting groups of its gang are evaluated. -/
def rejoinWith (f : Fields) (s : State) (m : Env → Regs → Lanes) : Out :=
  match issueC Forms.rejoin f s fun e r => .stay (waitRejoin e r (m e r)) with
  | .next t => match env t with
    | some e => .next (settleRejoin e.gk 40 t)
    | none => .next t
  | o => o
/-- rejoin with the scalar mask (R110). -/
def execRejoin (f : Fields) (s : State) : Out := rejoinWith f s fun e r => lanesOf (e.sa r).toNat
/-- rejoin with the literal mask (R110). -/
def execRejoinL (f : Fields) (s : State) : Out := rejoinWith f s fun _ _ => lanesOf f.lit

/-- exit (R90): the active lanes end; the rest of the path goes on at the clause end. -/
def execExit (f : SFields) (s : State) : Out :=
  match env s with
  | none => .next s
  | some e =>
    let moved := issue s (regsS Forms.exit f) true false fun e => .moved {} (e.goto (e.clauseEnd 4) id e.hw)
    if e.badPlace 4 true 0 then moved
    else match moved with
      | .next t => if e.act = 0 then .next t else .next (endLanes t e.gk e.p e.act)
      | o => o

end Sys2Proof.Machine
end

