-- ==== Sys2Proof/Machine/Registers.lean ====
section
/-! DEFINITION. Register instructions and special registers (06_registers R132-R138). -/

namespace Sys2Proof.Machine

open Sys2Proof

/-- A mov form copies a into d (R134). -/
def execMov (f : Fields) (s : State) : Out := lanewise Forms.mov f s fun e r l => e.va r l
/-- movs (R134). -/
def execMovs (f : Fields) (s : State) : Out := lanewise Forms.movs f s fun e r l => e.va r l
/-- The S encoding of mov (R34, R134). -/
def execMovS (f : SFields) (s : State) : Out := lanewiseS Forms.movS f s fun _ a => a
/-- The S encoding of movs. -/
def execMovsS (f : SFields) (s : State) : Out := lanewiseS Forms.movsS f s fun _ a => a
/-- movl (R135). -/
def execMovl (f : Fields) (s : State) : Out := lanewise Forms.movl f s fun _ _ _ => literalFor f.ty f.lit
/-- sel (R136): the old d is the condition. -/
def execSel (f : Fields) (s : State) : Out :=
  lanewise Forms.sel f s fun e r l =>
    zip3Elems (Ty.width f.ty) (fun c x y => if (c != 0) != (f.op == 1) then x else y) (e.vd r l) (e.va r l) (e.vb r f l)

/-- A form that only releases: its fields are not read (R137). -/
def releaseForm (fm : Form) (f : Fields) (s : State) (body : Env → Regs → Res) : Out :=
  let r := regsF fm f
  issueAct s { r with sh := {}, lua := false, lub := false, lud := false } false fun e => body e r
/-- vrel (R137). [DEDUCED, safe: log 91] -/
def execVrel (f : Fields) (s : State) : Out :=
  releaseForm Forms.vrel f s fun e r =>
    if r.sh.a = .s then .done {} (releaseS e.hw e.gk e.p r.a) else .done { relV := [r.a] } e.hw
/-- vzero (R137): registers d to a inclusive; those that hold nothing need no release. -/
def execVzero (f : Fields) (s : State) : Out :=
  releaseForm Forms.vzero f s fun e r =>
    .done { relV := (dedup (liveV e.g ++ awaitedV e.hw e.gk e.g)).filter fun n => decide (r.d ≤ n) && decide (n ≤ r.a) } e.hw

/-! ## Work identifiers and special registers -/

/-- The header words of a launch. -/
def Hw.hdr (hw : Hw) (launch : Nat) : List Nat := match hw.launches.look launch with | some l => l.hdr | none => []
/-- Word k of a launch header (Table LN-1). -/
def hdrWord (h : List Nat) (k : Nat) : Nat := h.getD k 0
/-- Width of field k of a work identifier (R66): 5 for field 0, W1-W5 of the header. -/
def widWidth (h : List Nat) (k : Nat) : Nat := if k = 0 then 5 else bits (6 * k - 1) (6 * k - 6) (hdrWord h 1)
/-- Position of field k (R66). -/
def widPos (h : List Nat) : Nat → Nat
  | 0 => 0
  | k + 1 => widPos h k + widWidth h k
/-- Field k of a work identifier (R66). -/
def widField (h : List Nat) (k wid : Nat) : Nat := (wid >>> widPos h k) % 2 ^ widWidth h k
/-- EXTk of a header (R67). -/
def hdrExt (h : List Nat) (k : Nat) : Nat := hdrWord h (1 + k)
/-- The work identifier of lane l of a gang (R66). -/
def Gang.widOf (g : Gang) (l : Nat) : Nat := g.wid.toNat + l
/-- The linear value of a work identifier (R89). -/
def widLin (h : List Nat) (w : Nat) : Nat :=
  let x (k : Nat) : Nat := widField h k w
  (x 1 + hdrExt h 1 * (x 2 + hdrExt h 2 * (x 3 + hdrExt h 3 * (x 4 + hdrExt h 4 * x 5)))) * 32 + x 0
/-- wid (R89). -/
def execWid (f : Fields) (s : State) : Out :=
  lanewise Forms.wid f s fun e _ l =>
    let h := e.hw.hdr e.g.launch
    let w := e.g.widOf l
    word (match f.op with
      | 0 => w
      | 6 => widLin h w
      | 7 => widField h 0 w
      | k => widField h k w)

/-- %flags (R46): bit k set when the count of fk is not zero. -/
def flagsWord (e : Env) : Nat := (List.range 12).foldl (fun n k => if flagCount e.hw.ops e.gk k = 0 then n else n + 2 ^ k) 0
/-- The value of a special register in lane l (Table RG-4). -/
def special (e : Env) (sel l : Nat) : Word :=
  match sel with
  | 0x000 => word l
  | 0x001 => word (countLanes e.q.mask)
  | 0x002 => word e.p
  | 0x003 => word (gangId e.hw e.gk)
  | 0x004 => word e.q.mask.toNat
  | 0x005 => word e.act.toNat
  | 0x006 => word e.q.depth
  | 0x020 => word e.now
  | 0x021 => word (windowOf e.hw e.part e.ctx e.now)
  | 0x022 => word (flagsWord e)
  | 0x023 => word e.ctx
  | 0x024 => e.g.tag
  | 0x030 => word (e.g.fexc.val 0 l)
  | 0x031 => e.g.rng l
  | k => word (widField (e.hw.hdr e.g.launch) (k - 0x10) (e.g.widOf l))
/-- sread (R138). -/
def execSread (f : Fields) (s : State) : Out := lanewise Forms.sread f s fun e r l => special e r.a l
/-- swrite (R138, R132, R154): %fexc takes bits [4:0]; a zero written to %srng is stored as 1. -/
def execSwrite (f : Fields) (s : State) : Out :=
  issueF Forms.swrite f s fun e r =>
    if r.d = 0x30 then
      .done {} (e.hw.setGang e.gk fun g => { g with fexc := e.acts.foldl (fun t l => t.ins l ((e.va r l).toNat % 32)) g.fexc })
    else .done { rng := e.acts.map fun l => (l, if e.va r l = 0 then 1 else e.va r l) } e.hw

end Sys2Proof.Machine
end

