-- ==== Sys2Proof/Machine/Scratch.lean ====
section
/-! DEFINITION. Scratchpad: loads, stores, cluster accesses, background copies and scratchpad atomics (11_scratchpad R203-R220;
14_atomics R278). -/

namespace Sys2Proof.Machine

open Sys2Proof

/-! ## Addresses -/

/-- swz(x, k) (R209). -/
def swz (x k : Nat) : Nat := x ^^^ (((x >>> 8) % 2 ^ k) <<< 4)
/-- SCR of a launch header: 32 KiB units of scratchpad (Table LN-1). -/
def hdrScr (h : List Nat) : Nat := bits 37 34 (hdrWord h 1)
/-- C3 of a launch header. -/
def hdrC3 (h : List Nat) : Bool := bit 33 (hdrWord h 1)
/-- Bytes of scratchpad of the issuing block (R209). -/
def Env.scrBytes (e : Env) : Nat := hdrScr (e.hw.hdr e.g.launch) * 32768
/-- The rotation code of a scratchpad form (R211). -/
def rotOf (f : Fields) : Nat := bits 22 20 f.imm
/-- x(l) of R211. -/
def scrAddr (e : Env) (r : Regs) (f : Fields) (l : Nat) : Nat :=
  ((if bit 1 f.op then 0 else (e.reg r.sh.b r.b l).toNat) + (if bit 0 f.op then 0 else (e.va r l).toNat) + bits 18 0 f.imm) % 2 ^ 64
/-- A fault address in scratchpad (R212). -/
def scrFault (x : Nat) : Nat := x % 2 ^ 60 + 0xF * 2 ^ 60

/-- The causes of a scratchpad access (R212): misalignment, then bounds. -/
def scrTrap (e : Env) (addr : Nat → Nat) (n : Nat) (out : Nat → Bool) : Option Trap :=
  let un := e.acts.filter fun l => addr l % n != 0
  let far := e.acts.filter fun l => out (addr l)
  match un, far with
  | l :: _, _ => some { cause := 0x08, fault := scrFault (addr l), hit := lanesWhere fun k => un.contains k }
  | [], l :: _ => some { cause := 0x05, fault := scrFault (addr l), hit := lanesWhere fun k => far.contains k }
  | [], [] => none

/-! ## Bytes of a block -/

/-- n bytes of a block's scratchpad from rotated offset y on, as a number. -/
def scrRead (b : Block) (y n : Nat) : Nat := ofBytes ((List.range n).map fun i => b.scr.val 0 (y + i))
/-- Stores bytes into a block's scratchpad. -/
def scrStore (b : Block) (y : Nat) (bs : List Byte) : Block := { b with scr := storeBytes b.scr y bs }

/-- A byte of the source of a background copy: taken earlier, or as it stands now (R218). -/
def copySrc (b : Block) (src : Option (Nat × Nat)) (fill : Word) (dst i : Nat) (cap : Tab Byte) : Byte :=
  match cap.look i with
  | some x => x
  | none => match src with
    | some (s, ks) => b.scr.val 0 (swz (s + i) ks)
    | none => BitVec.ofNat 8 (fill.toNat >>> (8 * ((dst + i) % 8)))

/-- Takes the bytes of 4-byte word wd of a block, but those taken before. -/
def takeWord (b : Block) (cap : Tab Byte) (wd : Nat) : Tab Byte :=
  (List.range 4).foldl (fun t j => if t.has (4 * wd + j) then t else t.ins (4 * wd + j) (b.scr.val 0 (4 * wd + j))) cap
/-- Takes the source bytes of a background copy, an outward copy, an aload or a matrix request that lie in 4-byte word wd, before they
change (R217, R218; 15_copies R292; 16_matrix R309, R320). -/
def captureWord (b : Block) (k : OpKind) (wd : Nat) : OpKind :=
  match k with
  | .pass x => .pass { x with cap := takeWord b x.cap wd }
  | .copy c => .copy { c with cap := takeWord b c.cap wd }
  | .atrans x => .atrans { x with cap := takeWord b x.cap wd }
  | .scopy blk (some (s, ks)) fill dst kd len cap wrote =>
    .scopy blk (some (s, ks)) fill dst kd len ((List.range 4).foldl (fun t j =>
      let i := swz (4 * wd + j) ks - s
      if s ≤ swz (4 * wd + j) ks ∧ i < len ∧ !t.has i then t.ins i (b.scr.val 0 (4 * wd + j)) else t) cap) wrote
  | k => k
/-- A background copy writes its destination bytes in 4-byte word wd now (R218). -/
def performWord (b : Block) (k : OpKind) (wd : Nat) : Block × OpKind :=
  match captureWord b k wd with
  | .scopy blk src fill dst kd len cap wrote =>
    if wrote.contains wd then (b, k)
    else
      let b' := (List.range 4).foldl (fun b' j =>
        let x := swz (4 * wd + j) kd
        if dst ≤ x ∧ x - dst < len then scrStore b' (4 * wd + j) [copySrc b src fill dst (x - dst) cap] else b') b
      (b', .scopy blk src fill dst kd len cap (wd :: wrote))
  | k' => (b, k')
/-- The bytes of word wd that a background copy has still to write. -/
def copyBytes (k : OpKind) (wd : Nat) : List Nat :=
  match k with
  | .scopy _ _ _ dst kd len _ wrote => if wrote.contains wd then [] else
      ((List.range 4).map (4 * wd + ·)).filter fun y => decide (dst ≤ swz y kd) && decide (swz y kd - dst < len)
  | _ => []
/-- Whether a background copy reads (or writes) a byte of word wd of a block. -/
def copyTouches (k : OpKind) (blk wd : Nat) (dest : Bool) : Bool :=
  match k with
  | .scopy b src _ dst kd len _ _ => b == blk && ((List.range 4).any fun j =>
      if dest then decide (dst ≤ swz (4 * wd + j) kd) && decide (swz (4 * wd + j) kd - dst < len)
      else match src with
        | some (s, ks) => decide (s ≤ swz (4 * wd + j) ks) && decide (swz (4 * wd + j) ks - s < len)
        | none => false)
  | .pass _ | .copy _ | .atrans _ => !dest
  | _ => false

/-- A word of a block is about to be read or written while background copies are in flight: each copy that writes the word has
done so or not, and each copy that reads a word about to change has taken it or not, by open choices (R218). [DEDUCED, safe: log 36] -/
def touchWord (blk wd : Nat) (write : Bool) (hw : Hw) (id : Nat) : Hw :=
  match hw.op id, hw.blocks.look blk with
  | some o, some b =>
    let h1 := if write && copyTouches o.kind blk wd false then
        let d := hw.draw
        if d.1 % 2 = 1 then d.2.setOp id fun x => { x with kind := captureWord b x.kind wd } else d.2
      else hw
    if copyTouches o.kind blk wd true then
      let d := h1.draw
      if d.1 % 2 = 1 then
        match d.2.op id with
        | some o => let r := performWord b o.kind wd
                    ((noteScr o blk (copyBytes o.kind wd) d.2).setBlock blk fun _ => r.1).setOp id fun x => { x with kind := r.2 }
        | none => d.2
      else d.2
    else h1
  | _, _ => hw
/-- An access of operation self (0: of an instruction) touches bytes of a block's scratchpad (R218). -/
def touchScrOf (self : Nat) (hw : Hw) (blk : Nat) (ys : List Nat) (write : Bool) : Hw :=
  let ids := (hw.ops.filterMap fun o => match o.kind with
    | .scopy b .. => if b = blk then some o.id else none
    | .pass x => if x.blk = blk ∧ write ∧ !x.todo.isEmpty then some o.id else none
    | .copy c => if c.blk = blk ∧ c.out ∧ write ∧ !c.todo.isEmpty then some o.id else none
    | .atrans x => if x.blk = blk ∧ x.load ∧ write ∧ x.phys = none ∧ !x.todo.isEmpty then some o.id else none
    | _ => none).filter (· != self)
  if ids.isEmpty then hw
  else (dedup (ys.map (· / 4))).foldl (fun h wd => ids.foldl (touchWord blk wd write) h) hw
/-- An access of an instruction touches bytes of a block's scratchpad (R218). -/
def touchScr (hw : Hw) (blk : Nat) (ys : List Nat) (write : Bool) : Hw := touchScrOf 0 hw blk ys write

/-! ## Units -/

/-- Whether a unit of a block is being exchanged: it holds contents of the other bank (R205, R206). -/
def unitBusy (hw : Hw) (b : Block) (y : Nat) : Bool :=
  match (hw.core b.core).units.look (b.spb + y / 32768) with
  | some k => k != bankOf hw b.core b.ctx
  | none => false

/-! ## Loads and stores -/

/-- The block of the issuing gang. -/
def Env.blk (e : Env) : Block := e.hw.blocks.val {} e.g.block
/-- A scratchpad form over the issuing block (R212, R213): body gets the rotated offset of each lane and the machine once
in-flight copies have been met. -/
def scrForm (fm : Form) (f : Fields) (s : State) (write : Bool) (body : Env → Regs → (Nat → Nat) → Hw → Res) : Out :=
  issueF fm f s fun e r =>
    let n := Ty.width f.ty / 8
    match scrTrap e (scrAddr e r f) n fun x => decide (e.scrBytes < x + n) with
    | some t => .trap t
    | none =>
      let y (l : Nat) : Nat := swz (scrAddr e r f l) (rotOf f)
      if e.acquiring || e.acts.any fun l => unitBusy e.hw e.blk (y l) then .hold
      else body e r y (touchScr e.hw e.g.block (e.acts.map y) write)
/-- The word of a barrier object that holds PHASE and PENDING (14_atomics R283). -/
def objWord (hw : Hw) (bk off : Nat) : Nat := scrRead (hw.blocks.val {} bk) off 8
/-- Paths in barw whose object's PHASE now differs retire (14_atomics R285). -/
def wakeBarw (s : State) (bk : Nat) : State :=
  (blockGangs s.hw bk).foldl (fun s x => x.2.paths.foldl (fun s q => match q.2.wait with
    | .barw off ph => if q.2.state = .barrier ∧ runsOn s.hw (gkCore x.1) (gkCtx x.1) ∧ bit 63 (objWord s.hw bk off) ≠ ph then retireAt s x.1 q.1 {} else s
    | _ => s) s) s
/-- A write to the scratchpad of the issuing block may end the wait of a barw. -/
def thenWake (s : State) (o : Out) : Out :=
  match o, env s with
  | .next t, some e => .next (wakeBarw t e.g.block)
  | o, _ => o

/-- The stepped path is about to write n bytes at each of the offsets ys of its block (R220). -/
def Env.noteScr (e : Env) (n : Nat) (ys : List Nat) (hw : Hw) : Hw :=
  logStep hw e.part e.gk e.p (StepLog.bytes (hw.blocks.val {} e.g.block) e.g.block (ys.flatMap fun y => (List.range n).map (y + ·)))
/-- lds (R212). [DEDUCED, safe: log 38] -/
def execLds (f : Fields) (s : State) : Out :=
  scrForm Forms.lds f s false fun e r y hw =>
    let b := hw.blocks.val {} e.g.block
    .done (e.put r fun l => loadValue f.ty (scrRead b (y l) (Ty.width f.ty / 8))) hw
/-- sts (R212): the highest-numbered lane supplies bytes that several write. -/
def execSts (f : Fields) (s : State) : Out :=
  thenWake s <| scrForm Forms.sts f s true fun e r y hw =>
    .done {} ((e.noteScr (Ty.width f.ty / 8) (e.acts.map y) hw).setBlock e.g.block fun b =>
      e.acts.foldl (fun b l => scrStore b (y l) (toBytes (Ty.width f.ty / 8) (e.vd r l).toNat)) b)

/-- A scratchpad atomic (14_atomics R278): lanes in ascending order, each on what the one before it left. -/
def satomForm (fm : Form) (f : Fields) (s : State) (g : Env → Regs → Nat → Nat → Option Nat) : Out :=
  thenWake s <| scrForm fm f s true fun e r y hw =>
    let n := Ty.width f.ty / 8
    let x := e.acts.foldl (fun (x : Block × List (Nat × Word) × List Nat) l =>
      let old := scrRead x.1 (y l) n
      let z := (32 * r.d + l, loadValue f.ty old)
      match g e r l old with
      | some v => (scrStore x.1 (y l) (toBytes n v), x.2.1 ++ [z], x.2.2 ++ [y l])
      | none => (x.1, x.2.1 ++ [z], x.2.2)) (hw.blocks.val {} e.g.block, [], [])
    .done { v := x.2.1 } ((e.noteScr n x.2.2 hw).setBlock e.g.block fun _ => x.1)
/-- satom (R278). -/
def execSatom (f : Fields) (s : State) : Out :=
  satomForm Forms.satom f s fun e r l old => some (atomNew (Forms.satomOp f) f.ty old ((e.vd r l).toNat % 2 ^ Ty.width f.ty))
/-- scas (R278). -/
def execScas (f : Fields) (s : State) : Out :=
  satomForm Forms.scas f s fun e r l old =>
    if old = (e.vd r l).toNat % 2 ^ Ty.width f.ty then some ((e.vc r l).toNat % 2 ^ Ty.width f.ty) else none

/-! ## Cluster accesses -/

/-- Whether a cluster address is out of bounds (R214). -/
def clusterOut (e : Env) (x n : Nat) : Bool :=
  let h := e.hw.hdr e.g.launch
  !hdrC3 h || decide (2 ^ 27 ≤ x) || decide (hdrExt h 2 ≤ bits 26 19 x) || decide (e.scrBytes < bits 18 0 x + n)
/-- A cluster form (R214): body gets rank and rotated offset of each lane. -/
def clusterForm (fm : Form) (f : Fields) (s : State) (body : Env → Regs → (Nat → Nat × Nat) → Res) : Out :=
  issueF fm f s fun e r =>
    let n := Ty.width f.ty / 8
    match scrTrap e (scrAddr e r f) n fun x => clusterOut e x n with
    | some t => .trap t
    | none => if e.acquiring then .hold else body e r fun l => (bits 26 19 (scrAddr e r f l), swz (bits 18 0 (scrAddr e r f l)) (rotOf f))
/-- Lanes by ascending rank. -/
def byRank (ls : List Nat) (y : Nat → Nat × Nat) : List Nat :=
  (List.range 256).flatMap fun k => ls.filter fun l => (y l).1 == k
/-- ldc (R212, R215). -/
def execLdc (f : Fields) (s : State) : Out :=
  clusterForm Forms.ldc f s fun e r y =>
    .done { ops := [{ e.newOp r (.ldc ((byRank e.acts y).map fun l => (l, (y l).1, (y l).2)) [] f.ty) with dst := e.dest r }] } e.hw
/-- stc (R212, R215). -/
def execStc (f : Fields) (s : State) : Out :=
  clusterForm Forms.stc f s fun e r y =>
    .done { ops := [e.newOp r (.stc ((byRank e.acts y).map fun l => (l, (y l).1, (y l).2, e.vd r l)) (Ty.width f.ty / 8))] } e.hw

/-- The block of a rank in the cluster group of a block (R214). -/
def groupBlock (hw : Hw) (b : Block) (rank : Nat) : Option Nat :=
  let h := hw.hdr b.launch
  let o := widPos h 2
  let w := setBits (o + widWidth h 2 - 1) o rank b.blk.toNat
  let w := if widWidth h 2 = 0 then b.blk.toNat else w
  (hw.blocks.find? fun x => x.2.launch == b.launch && x.2.started && x.2.blk.toNat == w && coreCluster x.2.core == coreCluster b.core).map (·.1)
/-- The rank an operation has still to reach next, if it is a cluster access. -/
def nextRank (k : OpKind) : Option Nat :=
  match k with
  | .ldc ((_, r, _) :: _) _ _ => some r
  | .stc ((_, r, _, _) :: _) _ => some r
  | _ => none
/-- Whether an operation still has to reach a rank. -/
def reaches (k : OpKind) (r : Nat) : Bool :=
  match k with
  | .ldc t _ _ => t.any fun x => x.2.1 == r
  | .stc t _ => t.any fun x => x.2.1 == r
  | _ => false

/-- A cluster access is performed at its next target block, in one step for the lanes that name it, once that block is resident
(R215); after the last block the form completes. -/
def execLdcComplete (id : Nat) (s : State) : Out :=
  match s.hw.op id with
  | none => .next s
  | some o =>
    match nextRank o.kind with
    | some rank =>
      match (s.hw.blocks.look o.block).bind fun b => groupBlock s.hw b rank with
      | none => .next s
      | some bk =>
        let b := s.hw.blocks.val {} bk
        let early := s.hw.ops.any fun x => o.after.contains x.id && x.id != id && reaches x.kind rank
        if early || !runsOn s.hw b.core b.ctx then .next s
        else match o.kind with
        | .ldc todo got ty =>
          let mine := todo.filter fun x => x.2.1 == rank
          if mine.any fun x => unitBusy s.hw b x.2.2 then .next s
          else
            let h := touchScr s.hw bk (mine.map (·.2.2)) false
            let b := h.blocks.val {} bk
            let got' := mine.foldl (fun t x => t.ins x.1 (loadValue ty (scrRead b x.2.2 (Ty.width ty / 8)))) got
            let rest := todo.filter fun x => x.2.1 != rank
            if rest.isEmpty then .next (reopen (landOp (s.with h) o fun l => got'.val 0 l) o.block)
            else .next (s.with (h.setOp id fun x => { x with kind := .ldc rest got' ty }))
        | .stc todo n =>
          let mine := todo.filter fun x => x.2.1 == rank
          if mine.any fun x => unitBusy s.hw b x.2.2.1 then .next s
          else
            let h := (noteScr o bk (mine.flatMap fun x => (List.range n).map (x.2.2.1 + ·)) (touchScr s.hw bk (mine.map (·.2.2.1)) true)).setBlock bk fun b =>
              mine.foldl (fun b x => scrStore b x.2.2.1 (toBytes n x.2.2.2.toNat)) b
            let rest := todo.filter fun x => x.2.1 != rank
            if rest.isEmpty then .next (reopen (wakeBarw (landOp (s.with h) o fun _ => 0) bk) o.block)
            else .next (wakeBarw (s.with (h.setOp id fun x => { x with kind := .stc rest n })) bk)
        | _ => .next s
    | none => .next s

/-! ## Background copies -/

/-- Background copies in flight on a core (R218). -/
def copiesOn (hw : Hw) (core : Nat) : Nat := (hw.ops.filter fun o => o.core == core && (match o.kind with | .scopy .. => true | _ => false)).length
/-- The rotated offsets of len bytes from offset a on. -/
def rotated (a k len : Nat) : List Nat := (List.range len).map fun i => swz (a + i) k
/-- scopy and sfill (R216, R217): rot says that some rotation is not 0. [DEDUCED, unsafe: log 37] -/
def copyForm (fm : Form) (f : Fields) (s : State) (src : Bool) : Out :=
  issueF fm f s fun e r =>
    let d := (e.sd r).toNat
    let a := (e.sa r).toNat
    let n := (e.sb r).toNat
    let kd := bits 2 0 f.imm
    let ks := bits 5 3 f.imm
    if (kd != 0 || ks != 0) && (d % 16 != 0 || (src && a % 16 != 0) || n % 16 != 0) then
      .trap { cause := 0x08, hit := e.act }
    else if e.scrBytes < d + n then .trap { cause := 0x05, fault := scrFault d, hit := e.act }
    else if src && decide (e.scrBytes < a + n) then .trap { cause := 0x05, fault := scrFault a, hit := e.act }
    else if n = 0 then .done {} e.hw
    else if e.acquiring || decide (32 ≤ copiesOn e.hw e.core) || ((rotated d kd n).any (unitBusy e.hw e.blk)) ||
      (src && (rotated a ks n).any (unitBusy e.hw e.blk)) then .hold
    else .done { ops := [e.newOp r (.scopy e.g.block (if src then some (a, ks) else none) (e.sa r) d kd n [] [])] } e.hw
/-- scopy (R216-R218). -/
def execScopy (f : Fields) (s : State) : Out := copyForm Forms.scopy f s true
/-- sfill (R216-R218). -/
def execSfill (f : Fields) (s : State) : Out := copyForm Forms.sfill f s false

/-- Finishes a background copy: every source byte is taken, then every destination byte written (R217). -/
def finishCopy (b : Block) (src : Option (Nat × Nat)) (fill : Word) (dst kd len : Nat) (cap : Tab Byte) (wrote : List Nat) : Block :=
  let bytes := (List.range len).map fun i => (swz (dst + i) kd, copySrc b src fill dst i cap)
  bytes.foldl (fun b x => if wrote.contains (x.1 / 4) then b else scrStore b x.1 [x.2]) b
/-- A scopy or sfill finishes (R218), once no unit it names is being exchanged (R206): other operations in flight meet the words it reads
and writes. -/
def execScopyComplete (id : Nat) (s : State) : Out :=
  match s.hw.op id with
  | some o =>
    match o.kind with
    | .scopy blk src _ dst kd len _ _ =>
      let b := s.hw.blocks.val {} blk
      let from' := match src with | some (a, ks) => rotated a ks len | none => []
      if ((rotated dst kd len) ++ from').any (unitBusy s.hw b) then .next s
      else
        let h := touchScrOf id (touchScrOf id s.hw blk from' false) blk (rotated dst kd len) true
        match h.op id with
        | some x => match x.kind with
          | .scopy _ _ fill _ _ _ cap wrote =>
            let ys := (rotated dst kd len).filter fun y => !wrote.contains (y / 4)
            .next (reopen (wakeBarw (landOp (s.with ((noteScr o blk ys h).setBlock blk fun b => finishCopy b src fill dst kd len cap wrote)) o fun _ => 0) blk) o.block)
          | _ => .next s
        | none => .next s
    | _ => .next s
  | none => .next s

end Sys2Proof.Machine
end

