-- ==== Sys2Proof/Machine/Atomics.lean ====
section
/-! DEFINITION. Global atomics, host sectors, reductions and ordered-reduction lines (14_atomics R264-R277). -/

namespace Sys2Proof.Machine

open Sys2Proof

/-! ## atom and cas -/

/-- Whether a form holds for its release (R251, R267): the scope it waits as, which takes in scratchpad and cluster accesses, and the bound
of its covered set; none when the wait is over. -/
def Env.releasing (e : Env) (peer : Bool) : Option (Nat × Nat) :=
  let bound := match e.q.wait with | .release _ b => b | _ => e.hw.nextId
  let scope := if peer then 4 else 2
  if fenceDone e.hw e.gk scope bound e.now then none else some (scope, bound)

/-- An atomic form (R264-R267): its operator, operands by lane and comparands. -/
def atomicForm (fm : Form) (f : Fields) (s : State) (op : Nat) (nr : Bool) (cmp : Env → Regs → Nat → Option Word) : Out :=
  issueF fm f s fun e r =>
    let k := (e.hw.part e.part).link
    let n := Ty.width f.ty / 8
    if e.counterFull then .hold
    else match e.check { spaces := fun sp => sp == 0 || (sp == 1 && k.cxl) || sp == 2, a := true, width := n, rd := true, wr := true }
        (f.cl == 3) (e.refs r f r.c) with
    | .stop x => x
    | .ok es hw =>
      let rel := if bit 6 f.ext then e.releasing (es.any fun x => x.tgt.space == 2) else none
      match rel with
      | some (sc, b) => .stay (e.park r .parked (.release sc b) e.hw)
      | none =>
        let es' := es.map fun x => { x with val := word ((e.vb r f x.lane).toNat % 2 ^ (8 * n)) }
        let cs := es.foldl (fun t x => match cmp e r x.lane with | some v => Tab.ins t x.lane v | none => t) ([] : Tab Word)
        let acq := bit 5 f.ext
        e.start r { e.newOp r (.atomic es' op f.ty cs acq nr) with counts := true, dst := if nr then .none else e.dest r }
          (r.fsel == 0 && !nr) hw
/-- atom (R266, R267). -/
def execAtom (f : Fields) (s : State) : Out := atomicForm Forms.atom f s (bits 4 1 f.ext) (bit 2 f.op) fun _ _ _ => none
/-- cas (R266, R267). -/
def execCas (f : Fields) (s : State) : Out := atomicForm Forms.cas f s 10 false fun e r l => some (e.vd r l)

/-- What an atomic gives d in lane l. -/
def atomicVal (o : Op) (es : List Elem) (l : Nat) : Word :=
  match o.kind with
  | .atomic _ _ ty .. => elemVal es (fun v => loadValue ty v.toNat) l
  | .counter e _ => e.val
  | _ => 0

/-- What an asynchronous atomic with failed lanes gives d in lane l: no rule gives a failed lane's value. [DEDUCED, safe: log 39] -/
def failedVal (n : Nat) (o : Op) (es : List Elem) (l : Nat) : Word :=
  let fails := match o.dst with | .scal .. => es.any fun e => e.st == 2 | _ => es.any fun e => e.lane == l && e.st == 2
  if fails then word (Config.free (n + l)) else atomicVal o es l

/-- A reply from a peer to one lane of an atomic that was sent. -/
def peerReply (x : Option Word) (hw : Hw) (e : Elem) : Elem × Hw :=
  match x with
  | some v => if e.st == 0 && e.tgt.space == 2 && e.w != 0 then ({ e with st := 1, val := v }, hw) else (e, hw)
  | none => (e, hw)

/-- Replies to an atomic (R267, R268): the lanes still to be performed are performed in ascending order, peers answer with data;
when every lane is decided the W of each has returned and the form ends, an acquire at the greatest W + 2. -/
def execAtomicReply (id : Nat) (data : List Word) (s : State) : Out :=
  match s.hw.op id with
  | some o =>
    match o.kind with
    | .atomic es _ _ _ acq _ =>
      let r0 := mapInOrder true (fun _ => true) (arriveElem s.mem o s.time) [] s.hw es
      let lanesOut := (r0.1.filter fun e => e.tgt.space == 2 && e.st == 0).map (·.lane)
      let r := mapElemsSel (fun l => lanesOut.contains l) data peerReply 0 r0.2 r0.1
      let o' := { o with kind := o.kind.withElems r.1, held := o.held && r.1.any fun e => e.st == 5 }
      let s' := s.with (r.2.setOp id fun _ => o')
      if !allDone r.1 || o.chain.isSome then .next s'
      else
        let s2 := s'.with (returnWs s'.hw o' r.1 s.time)
        let waits := match s2.hw.gangs.look o.gk with | some g => (waiterOf g id).isSome | none => false
        if waits && r.1.any fun e => e.st == 2 then .next (failWaiter s2 o' r.1)
        else
          let w := maxOf ((r.1.filter fun e => e.tgt.space != 2).map (·.w))
          .next (if acq && decide (w ≠ 0) && waits then acquireAt s2 o' w (atomicVal o' r.1)
            else if acq && decide (w ≠ 0) && decide (s.time < w + 2) then s2
            else if r.1.any fun e => e.st == 2 then
              landOp (s2.with { s2.hw with free := s2.hw.free + 32 }) o' (failedVal s2.hw.free o' r.1)
            else landOp s2 o' (atomicVal o' r.1))
    | _ => .next s
  | none => .next s

/-! ## Host sectors -/

/-- Whether some access waits for a host sector: an unperformed store or atomic element in it, or a copy to the host. -/
def wantsSector (hw : Hw) (fn sec : Nat) : Bool :=
  hw.ops.any fun o => o.part == fn && match o.kind with
    | .copy c => c.out && c.todo.any fun x => x.tgt.space == 1 && decide (x.tgt.pa < 64 * sec + 64) && decide (64 * sec < x.tgt.pa + x.n)
    | .load .. => false
    | k => k.elems.any fun e => e.tgt.space == 1 && e.st == 0 && e.tgt.pa / 64 == sec
/-- The host grants exclusive ownership of a line the bridge asked for (R269), with its 64 bytes. -/
def execOwnershipGrant (fn sec : Nat) (excl : Bool) (data : List Byte) (s : State) : Out :=
  let k := (s.hw.part fn).link
  if k.cxl && k.hostReach && excl && data.length == 64 && !k.sectors.has sec && decide (k.sectors.length < 8192) && wantsSector s.hw fn sec then
    .next { s with
      hw := s.hw.setPart fn fun q => { q with link := { q.link with sectors := q.link.sectors.ins sec (1, s.time) } }
      mem := s.mem.put [] fn (storeBytes (memOf s.mem fn) (bridgeAddr (64 * sec)) data) }
  else .next s
/-- The bridge releases its least recently used sector for room (R270). -/
def execSectorRelease (fn sec : Nat) (s : State) : Out :=
  let k := (s.hw.part fn).link
  match k.sectors.look sec with
  | some x =>
    if decide (8192 ≤ k.sectors.length) && (k.sectors.all fun y => decide (x.2 ≤ y.2.2)) && !sectorBusy s.hw fn sec then .next (releaseSector s fn sec true)
    else .next s
  | none => .next s
/-- A host snoop of a line (R270): the bridge completes the accesses that have a W, releases the sector and answers. -/
def execHostSnoop (fn sec : Nat) (s : State) : Out :=
  if (s.hw.part fn).link.sectors.has sec && sectorBusy s.hw fn sec then .next s
  else
    let s' := releaseSector s fn sec true
    .next (s'.with (s'.hw.send 4 fn [sec]))

/-! ## Reductions -/

/-- Counts an implicit flush of a core (R277). -/
def noteImplicit (hw : Hw) (core : Nat) : Hw := hw.setCore core fun c => { c with implicit := (c.implicit + 1) % 65536 }
/-- One lane's contribution to a gang's reduction buffer (R271, R272). -/
def contribute (gk launch op : Nat) (ty : Ty) (rank : Option Nat) (hw : Hw) (e : Elem) : Hw :=
  match hw.gangs.look gk with
  | none => hw
  | some g =>
    let same (x : RedEntry) : Bool := decide (x.tgt = e.tgt) && x.op == op && x.ty == ty && decide (x.rank = rank)
    let clash := g.reds.any fun x => decide (x.tgt = e.tgt) && (x.op != op || x.ty != ty)
    let hit := g.reds.any same
    let h := if clash || (!hit && decide (16 ≤ g.reds.length)) then drainGang (noteImplicit hw (gkCore gk)) gk else hw
    h.setGang gk fun g =>
      if g.reds.any same then
        { g with reds := g.reds.map fun x => if same x then { x with part := x.part.ins e.lane (match x.part.look e.lane with
                  | some v => word (atomNew op ty v.toNat e.val.toNat)
                  | none => e.val) } else x }
      else { g with reds := g.reds ++ [{ tgt := e.tgt, va := e.va, op := op, ty := ty, rank := rank, part := [(e.lane, e.val)], launch := launch }] }
/-- red (R271, R272, R276). [DEDUCED, safe: log 29] -/
def execRed (f : Fields) (s : State) : Out :=
  issueF Forms.red f s fun e r =>
    let n := Ty.width f.ty / 8
    let ord := bit 4 f.ext
    let rk := (e.q.sr r.c).toNat
    if e.counterFull then .hold
    else match e.check { spaces := fun sp => sp == 0, a := true, width := n, wr := true } (f.cl == 3) (e.refs r f r.b) with
    | .stop x => x
    | .ok es hw =>
      if ord && decide (65536 ≤ rk) then .trap { cause := 0x14, hit := e.act }
      else
        let h := (es.map fun x => { x with val := word ((e.vd r x.lane).toNat % 2 ^ (8 * n)) }).foldl
          (contribute e.gk e.g.launch (bits 3 1 f.ext) f.ty (if ord then some rk else none)) hw
        .done {} (if e.stepped then drainGang h e.gk else h)
/-- redflush (R273): it retires when the W of every partial it sent has returned. -/
def execRedflush (f : SFields) (s : State) : Out :=
  issueS Forms.redflush f s fun e r =>
    if e.counterFull then .hold
    else if e.g.reds.isEmpty then .done {} e.hw
    else .stay (e.park r .parked (.redflush e.hw.nextId (e.hw.nextId + e.g.reds.length)) (drainGang e.hw e.gk))

/-- Whether two partials come from one drain (R276). -/
def sameDrain (a b : Op) : Bool := a.after.headD 0 == b.after.headD 0
/-- A partial is combined at its home slice (R273): one combined write. One of an ordered line counts as held until it is performed. -/
def combine (m : Tab Memory) (t : Nat) (hw : Hw) (o : Op) : Hw :=
  match o.kind with
  | .partialSum e op ty rank h =>
    let r := arriveDevice m t o hw e
    r.2.setOp o.id fun x => { x with kind := .partialSum r.1 op ty rank h, held := r.1.st == 5 }
  | _ => hw
/-- Counts a partial combined as unordered (R276). -/
def noteOrdErr (hw : Hw) (core : Nat) : Hw := hw.setCore core fun c => { c with ordErr := (c.ordErr + 1) % 65536 }
/-- The partials of rank k held for a line, in allocation order. -/
def heldRank (hw : Hw) (p line k : Nat) : List Op :=
  hw.ops.filter fun o => o.part == p && match o.kind with
    | .partialSum e _ _ rank h => h && lineOf e.tgt.pa == line && decide (rank = some k)
    | _ => false
/-- How far the element of a partial has come. -/
def partialSt (o : Op) : Nat := match o.kind with | .partialSum e .. => e.st | _ => 0
/-- Combines every held partial of rank NEXT in allocation order, and goes on with the next rank once all of them are performed (R276). -/
def combineNext (m : Tab Memory) (t p line : Nat) : Nat → Hw → Hw
  | 0, hw => hw
  | n + 1, hw =>
    let arm := (hw.part p).arms.val 0 line
    let next := bits 31 16 arm
    let os := heldRank hw p line next
    if !bit 63 arm || os.isEmpty then hw
    else
      let h := os.foldl (fun (h : Hw) o =>
        if (heldRank h p line next).any fun x => decide (x.id < o.id) && (partialSt x == 4 || partialSt x == 5) then h
        else if partialSt o = 0 ∨ partialSt o = 5 then combine m t h o else h) hw
      if (heldRank h p line next).any fun o => partialSt o == 0 || partialSt o == 4 || partialSt o == 5 then h
      else
        let h1 : Hw := { h with ops := h.ops.map fun o => if os.any fun x => x.id == o.id then (match o.kind with
          | .partialSum e a b c _ => { o with kind := .partialSum e a b c false }
          | _ => o) else o }
        let arm1 := setBits 31 16 (next + 1) arm
        let arm2 := if next + 1 = bits 15 0 arm then arm1 - 2 ^ 63 else arm1
        combineNext m t p line n (h1.setPart p fun q => { q with arms := q.arms.put 0 line arm2 })
/-- The ordered lines of a partition that wait for a partial go on, as far as they can (R276). -/
def combineLines (m : Tab Memory) (t p : Nat) (hw : Hw) : Hw :=
  (dedup (hw.ops.filterMap fun o => match o.kind with
    | .partialSum e _ _ _ true => if o.part = p then some (lineOf e.tgt.pa) else none
    | _ => none)).foldl (fun h l => combineNext m t p l 65536 h) hw

/-- A partial reaches its home slice (R273, R276): combined at arrival, or on an armed line held for its rank, the partials of
one drain for a line together. -/
def execRedPartialArrival (id : Nat) (s : State) : Out :=
  match s.hw.op id with
  | some o =>
    match o.kind with
    | .partialSum e _ _ rank held =>
      let n := nSlices s.hw o.part
      let before := s.hw.ops.any fun x => sameDrain x o && decide (x.id < id) && (match x.kind with
        | .partialSum y _ _ _ h => y.st == 0 && !h && homeSlice n y.tgt.pa == homeSlice n e.tgt.pa
        | _ => false)
      if held || (e.st != 0 && e.st != 5) || before || !clear s.hw o e o.kind.width false then .next s
      else if e.st == 5 then .next (s.with (combine s.mem s.time s.hw o))
      else
        let line := lineOf e.tgt.pa
        let arm := (s.hw.part o.part).arms.val 0 line
        match rank with
        | none => .next (s.with (combine s.mem s.time (if bit 63 arm then noteOrdErr s.hw o.core else s.hw) o))
        | some k =>
          let mine := s.hw.ops.filter fun x => x.gk == o.gk && sameDrain x o && (match x.kind with
            | .partialSum y _ _ rk h => y.st == 0 && !h && lineOf y.tgt.pa == line && decide (rk = some k)
            | _ => false)
          let full := (s.hw.ops.filter fun x => x.part == o.part && (match x.kind with
            | .partialSum y _ _ _ h => h && homeSlice n y.tgt.pa == homeSlice n e.tgt.pa
            | _ => false)).length
          if bit 63 arm && decide (bits 31 16 arm ≤ k) && decide (k < bits 15 0 arm) && (heldRank s.hw o.part line k).isEmpty &&
              decide (full < 4096) then
            let h := (mine.take (4096 - full)).foldl (fun (h : Hw) x => h.setOp x.id fun x => match x.kind with
              | .partialSum y a b c _ => { x with kind := .partialSum y a b c true }
              | _ => x) s.hw
            .next (s.with (combineNext s.mem s.time o.part line 65536 h))
          else .next (s.with (combine s.mem s.time (noteOrdErr s.hw o.core) o))
    | _ => .next s
  | none => .next s

/-- The host answers a back-invalidate snoop (19_links R365): what it held modified comes back, and the writes that waited for
it take their W. -/
def execBackInvalidateResponse (fn line : Nat) (data : List Byte) (s : State) : Out :=
  if (s.hw.part fn).link.hostLines.contains line && decide (data.length ≤ 128) then
    let h0 := s.hw.setPart fn fun q => { q with link := { q.link with hostLines := q.link.hostLines.filter fun l => l != line } }
    let h1 := unblock (if data.isEmpty then h0 else outsideWrite h0 fn s.time (128 * line) data true true) fn s.time
    .next (s.with (combineLines s.mem s.time fn (h1.ops.foldl (fun (h : Hw) o =>
      if o.part = fn then
        let r := mapInOrder o.kind.isAtomic (fun e => e.st == 4 && lineOf e.tgt.pa == line)
          (fun hw e => arriveDevice s.mem s.time o hw { e with st := 0 }) [] h o.kind.elems
        r.2.setOp o.id fun x => { x with kind := x.kind.withElems r.1 }
      else h) h1)))
  else .next s

end Sys2Proof.Machine
end

