-- ==== Sys2Proof/Machine/Barriers.lean ====
section
/-! DEFINITION. Block barriers, named barriers, barrier objects (14_atomics R279-R285). -/

namespace Sys2Proof.Machine

open Sys2Proof

/-- Cause 0x14 (R281). -/
def barTrap (e : Env) : Res := .trap { cause := 0x14, hit := e.act }
/-- The lanes of the block that arrive: those active that do not stand arrived (05_paths R114). -/
def arriving (e : Env) : List Nat := (e.acts.filter fun l => !inLanes e.q.came l).map (blockLane e.g)
/-- The scratchpad copies and cluster accesses that the issuing path has issued and that are still to be performed (13_consistency R258). -/
def scratchOps (e : Env) : List Nat :=
  e.hw.ops.filterMap fun o => if o.gk = e.gk ∧ bit e.p o.paths then (match o.kind with
    | .scopy .. | .ldc .. | .stc .. => some o.id
    | _ => none) else none
/-- The issuing path, or the issuing lanes of a folded path, waits at a barrier (R279, R280). -/
def waitBar (e : Env) (r : Regs) (w : Wait) (hw : Hw) : Hw :=
  if e.q.folded then foldWait e r w 0 hw else e.park r .barrier w hw

/-- bar (R279, R281). -/
def execBar (f : Fields) (s : State) : Out :=
  match issueF Forms.bar f s fun e r =>
    let b := e.blk
    if (lanes e.q.mask).any fun l => nestOf e.g l != 0 then barTrap e
    else if blockExpected b < b.bar.arrived.length + (arriving e).length then barTrap e
    else .stay (waitBar e r .bar (e.hw.setBlock e.g.block fun b => { b with
      bar := { b.bar with arrived := b.bar.arrived ++ arriving e, after := b.bar.after ++ scratchOps e } })) with
  | .next t => match env s with
    | some e => .next (openBlock t e.g.block)
    | none => .next t
  | o => o

/-- The causes of nbar and barx (R281). Arrivals that declare a count may pass what reductions leave of it, which opens the barrier (R280).
[DEDUCED, unsafe: log 96] [DEDUCED, unsafe: log 96] -/
def namedBad (e : Env) (r : Regs) : Bool :=
  let n := (e.sa r).toNat
  let c := (e.sb r).toNat
  let b := e.blk.nbars.val {} (n % 16)
  decide (16 ≤ n) || c == 0 || decide (32 * e.blk.ext1 < c) || (!b.arrived.isEmpty && b.declared != c) ||
    decide ((if b.arrived.isEmpty then c else c - b.reduced) < b.arrived.length + (arriving e).length)
/-- The lanes arrive at a named barrier (R279): the first arrival declares the count. -/
def arriveNamed (e : Env) (r : Regs) : Hw :=
  e.hw.setBlock e.g.block fun b =>
    let n := (e.sa r).toNat % 16
    let x := b.nbars.val {} n
    { b with nbars := b.nbars.ins n { x with
              declared := if x.arrived.isEmpty then (e.sb r).toNat else x.declared
              arrived := x.arrived ++ arriving e
              after := x.after ++ scratchOps e
              members := dedup (x.members ++ arriving e) } }
/-- A named-barrier form, then the opening it may bring. -/
def namedForm (fm : Form) (f : Fields) (s : State) (body : Env → Regs → Res) : Out :=
  match issueF fm f s fun e r => if namedBad e r then barTrap e else body e r with
  | .next t => match env s with
    | some e => .next (openNamed t e.g.block ((e.sa (regsF fm f)).toNat % 16))
    | none => .next t
  | o => o
/-- nbar (R279). -/
def execNbar (f : Fields) (s : State) : Out :=
  namedForm Forms.nbar f s fun e r => .stay (waitBar e r (.nbar ((e.sa r).toNat % 16)) (arriveNamed e r))
/-- barx (R279): the path continues. -/
def execBarx (f : Fields) (s : State) : Out := namedForm Forms.barx f s fun e r => .done {} (arriveNamed e r)

/-- The cluster cycles at which waiting paths and lanes of a gang are due in a wave. -/
def waveTimes (g : Gang) : List Nat :=
  dedup ((g.paths.filterMap fun x => match x.2.wait with | .released t => some t | _ => none) ++
    g.foldArr.filterMap fun x => match x.2.wait with | .released t => some t | _ => none)
/-- A wave of a barrier's release is due (R282). -/
def execBarrierReleaseWave (core ctx block _bar : Nat) (s : State) : Out :=
  .next ((blockGangs s.hw block).foldl (fun s x =>
    if gkCore x.1 = core ∧ gkCtx x.1 = ctx then
      (waveTimes x.2).foldl (fun s t => if t ≤ coreCycles s.hw core s.time then releaseGang s x.1 (.released t) else s) s
    else s) s)

/-- barw (R285). -/
def execBarw (f : Fields) (s : State) : Out :=
  issueF Forms.barw f s fun e r =>
    let a := (e.sa r).toNat
    let ph := bit 0 (e.sb r).toNat
    if a % 16 ≠ 0 then .trap { cause := 0x08, fault := scrFault a, hit := e.act }
    else if e.scrBytes < a + 16 then .trap { cause := 0x05, fault := scrFault a, hit := e.act }
    else if e.acquiring || unitBusy e.hw e.blk a then .hold
    else
      let h := touchScr e.hw e.g.block [a, a + 4] false
      if bit 63 (objWord h e.g.block a) ≠ ph then .done {} h
      else .stay (e.park r .barrier (.barw a ph) h)

/-- The counting of n bytes into a barrier object (R284): the words after, or none where the update is discarded. -/
def objCount : Nat → Nat → Nat → Nat → Nat × Nat
  | 0, w0, _, _ => (w0, 0)
  | fuel + 1, w0, reload, n =>
    let pend := bits 39 0 w0
    if n < pend then (w0 - n, 0)
    else objCount fuel ((w0 - pend + reload + 2 ^ 63) % 2 ^ 64) reload (n - pend)
/-- An engine's update of a barrier object by n bytes (R284). -/
def updateObject (hw : Hw) (o : Op) (blk obj n : Nat) : Hw :=
  match hw.blocks.look blk with
  | none => hw
  | some b =>
    let h := touchScr hw blk [obj, obj + 4, obj + 8, obj + 12] true
    let b' := h.blocks.val b blk
    let w0 := scrRead b' obj 8
    let w1 := scrRead b' (obj + 8) 8
    if bits 39 0 w0 = 0 ∨ bits 39 0 w1 = 0 ∨ bits 62 40 w0 ≠ 0 ∨ bits 63 40 w1 ≠ 0 then
      h.setCore b.core fun c => { c with objErr := (c.objErr + 1) % 65536 }
    else (noteScr o blk ((List.range 8).map (obj + ·)) h).setBlock blk fun b => scrStore b obj (toBytes 8 (objCount (n + 1) w0 (bits 39 0 w1) n).1)
/-- An engine's update of a barrier object is made (R259, R284). -/
def execObjectUpdate (id : Nat) (s : State) : Out :=
  match s.hw.op id with
  | some o =>
    match o.kind with
    | .update blk obj n t =>
      let held := match s.hw.blocks.look blk with | some b => unitBusy s.hw b obj | none => false
      if s.time < t || held then .next s
      else .next (wakeBarw (landOp (s.with (updateObject s.hw o blk obj n)) o fun _ => 0) blk)
    | _ => .next s
  | none => .next s

end Sys2Proof.Machine
end

