-- ==== Sys2Proof/Machine/Launch.lean ====
section
/-! DEFINITION. Launches: headers, queues, bind records, blocks that start and end, counters (04_launch R66-R90). -/

namespace Sys2Proof.Machine

open Sys2Proof

/-! ## What a partition has -/

/-- Whether a cluster is live: not shut down, not retired, and its die not parked (20_power R392-R394; 22_partitions R413). -/
def clusterLive (hw : Hw) (k : Nat) : Bool :=
  let c := hw.cluster k
  !c.shut && !c.retired && !c.fail && !bit (k / 24) hw.pkg.parked
/-- The clusters of a partition. -/
def partClusters (hw : Hw) (p : Nat) : List Nat := (List.range 216).filter fun k => thirdPart hw (k / 72) == some p
/-- The live clusters of a partition. -/
def liveClusters (hw : Hw) (p : Nat) : List Nat := (partClusters hw p).filter (clusterLive hw)
/-- Whether a core can run: its package is up and its cluster is live. -/
def coreUp (hw : Hw) (core : Nat) : Bool := hw.pkg.up && clusterLive hw (coreCluster core)
/-- The context in a bank of a core. -/
def bankCtx (hw : Hw) (core b : Nat) : Option Nat := if b = 0 then (hw.core core).ctx0 else (hw.core core).ctx1
/-- Whether the context runs: it is live, not stopped or being killed (18_contexts R344, R356). -/
def ctxRuns (hw : Hw) (p c : Nat) : Bool := match hw.ctx p c with | some x => decide (x.state = .live) | none => false

/-! ## Header checks -/

/-- DONE and the dependences of a header: address words 10, and 12, 14, 16, 18 (Table LN-1). -/
def hdrDone (h : List Nat) : Nat := hdrWord h 10
/-- Dependence k: address and threshold. -/
def hdrDep (h : List Nat) (k : Nat) : Nat × Nat := (hdrWord h (12 + 2 * k), hdrWord h (13 + 2 * k))
/-- A counter address of a header translated: some none for an unused one, none where R70 refuses it. -/
def counterAt (hw : Hw) (m : Tab Memory) (p c va : Nat) : Option (Option Nat) × Hw :=
  if va = 0 then (some none, hw)
  else if va % 8 ≠ 0 then (none, hw)
  else match translate hw m p c va with
    | (.ok t, h) => if t.kind = 0 ∧ t.r ∧ t.w then (some (some t.pa), h) else (none, h)
    | (.error _, h) => (none, h)
/-- PRIO of a launch (04_launch R78). -/
def hdrPrio (h : List Nat) : Nat := bits 31 30 (hdrWord h 1)
/-- ACC of a header. -/
def hdrAcc (h : List Nat) : Nat := bits 45 38 (hdrWord h 1)
/-- Whether a header is malformed by R70, its counters apart. -/
def hdrBad (h : List Nat) : Bool :=
  let w := [1, 2, 3, 4, 5].map fun k => (widWidth h k, hdrExt h k)
  hdrWord h 0 % 64 != 0 || decide (2 ^ 57 ≤ hdrWord h 0) || decide (64 < 5 + (w.map (·.1)).sum) ||
    (w.any fun x => x.2 == 0 || decide (2 ^ x.1 < x.2)) || decide (48 < hdrExt h 1) || decide (192 < hdrAcc h) ||
    bits 63 62 (hdrWord h 1) != 0 || hdrWord h 11 != 0 || [20, 21, 22, 23].any fun k => hdrWord h k != 0
/-- Blocks of a launch that one core holds in one bank (R71). -/
def blocksPerCore (h : List Nat) : Nat :=
  let a := 48 / hdrExt h 1
  let b := if hdrScr h = 0 then a else 15 / hdrScr h
  let c := if hdrAcc h = 0 then a else 192 / hdrAcc h
  Nat.min a (Nat.min b c)
/-- The blocks of a launch (R67). -/
def blockCount (h : List Nat) : Nat := hdrExt h 2 * hdrExt h 3 * hdrExt h 4 * hdrExt h 5
/-- Whether the launch's blocks can all be resident at once on n live clusters (R71). -/
def allFit (h : List Nat) (n : Nat) : Bool :=
  if hdrC3 h then decide (hdrExt h 3 * hdrExt h 4 * hdrExt h 5 ≤ n * (4 * blocksPerCore h / hdrExt h 2))
  else decide (blockCount h ≤ n * (4 * blocksPerCore h))
/-- The status a header that passes R70 gets from R71. [DEDUCED, safe: log 20] -/
def fitStatus (hw : Hw) (p : Nat) (h : List Nat) : Nat :=
  let n := (liveClusters hw p).length
  if blocksPerCore h = 0 ∨ n = 0 ∨ (hdrC3 h ∧ 4 * blocksPerCore h < hdrExt h 2) then 0x82
  else if bit 32 (hdrWord h 1) && !allFit h n then 0x83
  else 0x01

/-- Checks a header and accepts or refuses it (R70, R71): the status, and the machine with the launch where it is accepted. -/
def takeHeader (hw : Hw) (m : Tab Memory) (p c : Nat) (src : LaunchSrc) (addr : Word) (slotPa : Nat) (h : List Nat) : Nat × Hw :=
  if hdrBad h then (0x81, hw)
  else
    let d := counterAt hw m p c (hdrDone h)
    let ds := (List.range 4).foldl (fun (x : Option (List (Nat × Nat)) × Hw) k =>
      match x.1 with
      | none => x
      | some l => match counterAt x.2 m p c (hdrDep h k).1 with
        | (none, hw) => (none, hw)
        | (some none, hw) => (some l, hw)
        | (some (some pa), hw) => (some (l ++ [(pa, (hdrDep h k).2)]), hw)) (some [], d.2)
    match d.1, ds.1 with
    | some done, some deps =>
      let st := fitStatus hw p h
      if st = 1 then
        (1, { ds.2 with
          launches := ds.2.launches.ins ds.2.nextId { part := p, ctx := c, src := src, addr := addr, hdr := h, doneAt := done,
                                                      deps := deps, slotPa := slotPa }
          nextId := ds.2.nextId + 1 })
      else (st, ds.2)
    | _, _ => (0x81, ds.2)

/-! ## Host queues -/

/-- Queue q of a function. -/
def Part.queue (q : Part) (n : Nat) : Queue := q.queues.val {} n
/-- Changes a queue. -/
def Hw.setQueue (hw : Hw) (p n : Nat) (f : Queue → Queue) : Hw := hw.setPart p fun q => { q with queues := q.queues.ins n (f (q.queue n)) }
/-- Counts a rejected window access (19_links R364). -/
def noteWinErr (hw : Hw) (p : Nat) : Hw := hw.setPart p fun q => { q with link := { q.link with winerr := (q.link.winerr + 1) % 2 ^ 32 } }
/-- A host write to the register window of a function (13_consistency R261; 22_partitions R412): during a reshape of its partition
it has no effect and is counted. [DESIGN CHOICE, unsafe: log 74] -/
def windowWrite (fn : Nat) (s : State) (body : Out) : Out :=
  let q := s.hw.part fn
  if !s.hw.pkg.up || !q.present || !postedPast s.hw fn s.time then .next s
  else if q.ptstatus = 0xFF then .next (s.with (noteWinErr s.hw fn)) else body
/-- Writes a STATUS word of a host slot, behind which the vector of the queue is signalled where the code asks for it (R72; 19_links
R363). -/
def writeStatus (hw : Hw) (p t q pa code : Nat) : Hw :=
  let h := devWriteLast hw p t (pa + 0xC0) code
  if code = 2 ∨ 0x81 ≤ code then h.setPart p fun x => { x with vectors := x.vectors ++ [(q, pa + 0xC0)] } else h
/-- Word n of the MSI-X table at reset: each vector is masked. [PRESUMED, unsafe: log 75] -/
def msixReset (n : Nat) : Nat := if n % 2 = 1 then 2 ^ 32 else 0
/-- A word of the MSI-X table of a function: of vector q the address 2 q and the data and mask 2 q + 1. -/
def msixWord (hw : Hw) (p n : Nat) : Nat := (hw.part p).msix.val (msixReset n) n
/-- Vector q is signalled (19_links R363): its message goes out, or while it is masked its pending bit is set. -/
def signalVector (hw : Hw) (p q : Nat) : Hw :=
  if bit 32 (msixWord hw p (2 * q + 1)) then hw.setPart p fun x => { x with pba := x.pba ||| 2 ^ q }
  else hw.send 5 p [q, msixWord hw p (2 * q), bits 31 0 (msixWord hw p (2 * q + 1))]
/-- The first n vectors that wait are signalled in their order, up to one whose STATUS write is not visible yet (19_links R363). -/
def signalVectors (p : Nat) : Nat → Hw → Hw
  | 0, hw => hw
  | n + 1, hw =>
    match (hw.part p).vectors with
    | [] => hw
    | (q, a) :: r =>
      if (hw.part p).pend.any fun w => w.covers a 8 then hw
      else signalVectors p n (signalVector (hw.setPart p fun x => { x with vectors := r }) p q)
/-- A word of the MSI-X table is written: a vector that is no longer masked and pending is signalled. -/
def writeMsix (hw : Hw) (p n v : Nat) : Hw :=
  let h := hw.setPart p fun q => { q with msix := q.msix.put (msixReset n) n (if n % 2 = 1 then bits 32 0 v else v / 4 * 4 % 2 ^ 64) }
  if n % 2 = 1 ∧ !bit 32 v ∧ bit (n / 2) (h.part p).pba then
    signalVector (h.setPart p fun x => { x with pba := x.pba - 2 ^ (n / 2) }) p (n / 2)
  else h

/-- The device takes a host queue slot, or stops the queue (R74). [DEDUCED, unsafe: log 101] -/
def execLaunchTake (fn q : Nat) (s : State) : Out :=
  let x := (s.hw.part fn).queue q
  let n := (x.tail + 2 ^ 32 - x.prog) % 2 ^ 32
  if !(s.hw.part fn).present || !decide (q < 64) || !x.en || x.state != 0 || n == 0 || (s.hw.part fn).quiesce then .next s
  else if 2 ^ x.log2n < n then .next (s.with (s.hw.setQueue fn q fun x => { x with ovf := true, state := 3 }))
  else
    let stop : Out := .next (s.with (s.hw.setQueue fn q fun x => { x with xerr := true, state := 3 }))
    match s.hw.ctx fn x.ctx with
    | none => stop
    | some c =>
      if c.state = .killing then .next s
      else
        let va := x.base + 256 * (x.prog % 2 ^ x.log2n)
        match translate s.hw s.mem fn x.ctx va with
        | (.error _, _) => stop
        | (.ok t, h0) =>
          if t.kind ≠ 0 ∨ !t.r ∨ !t.w then stop
          else
            let hdr := bytesWords 24 (rdBytes s.mem fn t.pa 192)
            let r := takeHeader h0 s.mem fn x.ctx (.host q (x.prog % 2 ^ x.log2n)) (word va) t.pa hdr
            let h := writeStatus r.2 fn s.time q t.pa r.1
            .next (s.with (h.setQueue fn q fun x => { x with prog := (x.prog + 1) % 2 ^ 32 }))

/-- The address of a queue's save area, if it translates writable (R75). [DEDUCED, unsafe: log 22] -/
def saveArea (hw : Hw) (m : Tab Memory) (p : Nat) (x : Queue) : Option Nat :=
  match translate hw m p x.ctx x.save with
  | (.ok t, _) => if t.kind = 0 ∧ t.r ∧ t.w then some t.pa else none
  | (.error _, _) => none
/-- A queue is switched out (R75): first PROG freezes; then TAIL, PROG and the device's own queue state, which is open, are saved. [DESIGN CHOICE, safe: log 97] [DEDUCED, unsafe: log 102] -/
def execQueueSwitchOut (fn q : Nat) (s : State) : Out :=
  let x := (s.hw.part fn).queue q
  if !x.en then .next s
  else if x.state = 0 then .next (s.with (s.hw.setQueue fn q fun x => { x with state := 1 }))
  else if x.state = 1 then
    let h := match saveArea s.hw s.mem fn x with
      | some a =>
        (List.range 6).foldl (fun (h : Hw) i => let d := h.draw; devWriteLast d.2 fn s.time (a + 16 + 8 * i) (d.1 % 2 ^ 64))
          (devWriteLast (devWriteLast s.hw fn s.time a x.tail) fn s.time (a + 8) x.prog)
      | none => s.hw
    .next (s.with (h.setQueue fn q fun x => { x with state := 2 }))
  else .next s
/-- A queue is switched in (R75): TAIL is reloaded from the save area. -/
def execQueueSwitchIn (fn q : Nat) (s : State) : Out :=
  let x := (s.hw.part fn).queue q
  if x.state ≠ 2 then .next s
  else
    let t := match saveArea s.hw s.mem fn x with | some a => latestNat s.mem s.hw fn a 8 % 2 ^ 32 | none => x.tail
    .next (s.with (s.hw.setQueue fn q fun x => { x with tail := t, state := 0 }))
/-- A host write of QTAIL (R75, R76): to the register, and while the queue is out to its save area. -/
def execQtailWrite (fn q : Nat) (v : Word) (s : State) : Out :=
  windowWrite fn s <|
    let x := (s.hw.part fn).queue q
    let t := v.toNat % 2 ^ 32
    if 64 ≤ q then .next s else
    let h := if x.state = 1 ∨ x.state = 2 then
        match saveArea s.hw s.mem fn x with | some a => devWriteLast s.hw fn s.time a t | none => s.hw
      else s.hw
    .next (s.with (h.setQueue fn q fun x => { x with tail := t }))
/-- A host write of QCFG (R74): while EN is 1 only EN changes; EN going to 1 sets PROG to TAIL. [DESIGN CHOICE, unsafe: log 100] -/
def execQcfgWrite (fn q : Nat) (v : Word) (s : State) : Out :=
  windowWrite fn s <|
    let x := (s.hw.part fn).queue q
    if 64 ≤ q then .next s else
    let n := Nat.max 4 (bits 7 4 v.toNat)
    let c := bits 63 48 v.toNat
    let en := bit 0 v.toNat
    let h := if x.en && (n != x.log2n || c != x.ctx) then noteWinErr s.hw fn else s.hw
    .next (s.with (h.setQueue fn q fun x =>
      { x with
        ctx := if x.en then x.ctx else c
        log2n := if x.en then x.log2n else n
        en := en
        prog := if en && !x.en then x.tail else x.prog
        state := if en && !x.en then 0 else x.state }))

/-! ## Eligibility -/

/-- A launch's dependences are observed (R77): those met are met for good; with none left it is eligible, and its Tail window
advances where LAUNCH asks for it (17_tail R330). -/
def execLaunchEligible (launch : Nat) (s : State) : Out :=
  match s.hw.launches.look launch with
  | none => .next s
  | some l =>
    if l.eligible then .next s
    else
      let left := l.deps.filter fun d => decide (rdNat s.mem l.part d.1 8 < d.2)
      if !left.isEmpty then .next (s.with { s.hw with launches := s.hw.launches.ins launch { l with deps := left } })
      else
        let adv := match s.hw.ctx l.part l.ctx with | some c => c.tail.en && c.tail.launch | none => false
        let h := { s.hw with launches := s.hw.launches.ins launch { l with deps := [], eligible := true, floor := if adv then 2 ^ 64 else 0 } }
        .next (s.with (if adv then h.setCtx l.part l.ctx fun c => { c with tail := c.tail.ask (.launch launch) } else h))

/-! ## Bind records and blocks -/

/-- The slots of a bind record, ascending (Table LN-3). -/
def recSlots (w : List Nat) : List Nat := bitList 48 (bits 47 0 (w.getD 2 0))
/-- ACCB, ACCN, SPB and SPN of a bind record. -/
def recAcc (w : List Nat) : Nat × Nat := (bits 24 17 (w.getD 3 0), bits 16 9 (w.getD 3 0))
/-- SPB and SPN. -/
def recScr (w : List Nat) : Nat × Nat := (bits 8 5 (w.getD 3 0), bits 4 1 (w.getD 3 0))
/-- LIDX. -/
def recLidx (w : List Nat) : Nat := bits 30 25 (w.getD 3 0)
/-- Whether two ranges (first, count) meet: an empty one meets none. -/
def meet (a b : Nat × Nat) : Bool := a.2 != 0 && b.2 != 0 && decide (a.1 < b.1 + b.2) && decide (b.1 < a.1 + a.2)
/-- Whether a core rejects a record beside the valid ones of its bank (R82). -/
def recBad (others : List (List Nat)) (ext1 : Nat) (w : List Nat) : Bool :=
  (recSlots w).length != ext1 || decide (192 < (recAcc w).1 + (recAcc w).2) || decide (15 < (recScr w).1 + (recScr w).2) ||
    others.any fun o => ((recSlots o).any fun k => (recSlots w).contains k) || meet (recAcc o) (recAcc w) || meet (recScr o) (recScr w)
/-- Whether a block word names a block of a launch: fields 0 and 1 zero, the others below their extents (R67, Table LN-3). -/
def blockOf (h : List Nat) (b : Nat) : Bool :=
  b % 2 ^ widPos h 2 == 0 && decide (b < 2 ^ widPos h 6) && [2, 3, 4, 5].all fun k => decide (widField h k b < hdrExt h k)
/-- The context a bank has for a record of a launch: the one it holds, or for an empty bank the launch's, if the core holds that
context nowhere else (R81; log 40). [DEDUCED, unsafe: log 40] -/
def bindCtx (hw : Hw) (core bank c : Nat) : Option Nat :=
  match bankCtx hw core bank with
  | some x => some x
  | none => if (hw.image core c).place = .away then some c else none
/-- Gives an empty bank a context. -/
def fillBank (hw : Hw) (core bank c : Nat) : Hw :=
  if (bankCtx hw core bank).isSome then hw
  else (hw.setCore core fun k => if bank = 0 then { k with ctx0 := some c, st0 := .loaded } else { k with ctx1 := some c, st1 := .loaded }).setImage
    core c fun i => { i with place := .bank bank }
/-- Whether a bank is neither being spilled nor loaded (18_contexts R350). -/
def bankStill (hw : Hw) (core bank : Nat) : Bool :=
  match (if bank = 0 then (hw.core core).st0 else (hw.core core).st1) with | .spilling | .loading => false | _ => true
/-- Whether two blocks of a launch are of one cluster group (R68): fields 3 to 5 agree. -/
def sameGroup (h : List Nat) (a b : Nat) : Bool := a >>> widPos h 3 == b >>> widPos h 3
/-- The cores that hold a bind record of a launch whose block word f selects, with the bank (R81). -/
def boundOn (hw : Hw) (launch : Nat) (f : Nat → Bool) : List (Nat × Nat) :=
  hw.images.filterMap fun i => match i.2.place with
    | .bank b => if i.2.records.vals.any fun r => r.2 == launch && f (r.1.getD 0 0) then some (i.1 / 65536, b) else none
    | _ => none
/-- Whether a block of an eligible launch of a more urgent class waits for slots of a bank (R78). -/
def outranked (hw : Hw) (core bank : Nat) (l : Launch) : Bool :=
  hw.launches.any fun x => x.2.part == l.part && x.2.eligible && decide (hdrPrio x.2.hdr < hdrPrio l.hdr) &&
    decide (x.2.bound.length < blockCount x.2.hdr) && bindCtx hw core bank x.2.ctx == some x.2.ctx && ctxRuns hw x.2.part x.2.ctx
/-- Whether Phobos may write a record of a launch into a bank (R68, R78, R81): it agrees with the header, a cluster group stays on one
cluster, no more urgent block waits for the slots, and the core and its bank are there. [DEDUCED, safe: log 21] -/
def recGood (hw : Hw) (core bank idx : Nat) (w : List Nat) (launch : Nat) (l : Launch) : Bool :=
  let im := hw.image core l.ctx
  decide (core < 864) && decide (bank < 2) && decide (idx < 48) && w.length == 4 && bit 31 (w.getD 3 0) &&
    bits 63 48 (w.getD 2 0) == 0 && bits 63 32 (w.getD 3 0) == 0 && !bit 0 (w.getD 3 0) &&
    (recAcc w).2 == hdrAcc l.hdr && (recScr w).2 == hdrScr l.hdr &&
    bindCtx hw core bank l.ctx == some l.ctx && (match hw.ctx l.part l.ctx with | some c => decide (c.state ≠ .killing) | none => false) &&
    bankStill hw core bank && corePart hw core == some l.part && coreUp hw core && !bit (coreDie core) hw.pkg.parkReq &&
    !(hw.cluster (coreCluster core)).doomed && !(hw.part l.part).quiesce && !im.records.has idx &&
    blockOf l.hdr (w.getD 0 0) && !l.bound.contains (w.getD 0 0) && !outranked hw core bank l &&
    (!hdrC3 l.hdr || (boundOn hw launch fun b => sameGroup l.hdr b (w.getD 0 0)).all fun x => coreCluster x.1 == coreCluster core) &&
    (match im.ltable.look (recLidx w) with | some n => n == launch | none => !(im.ltable.vals.contains launch))
/-- Phobos writes a bind record of an accepted launch into a bank's slot table (R81-R83), which gives the launch its entry in the bank's
launch table: the core accepts or rejects the record. -/
def execBindRecord (core bank idx : Nat) (words : List Word) (launch : Nat) (s : State) : Out :=
  match s.hw.launches.look launch with
  | none => .next s
  | some l =>
    let c := l.ctx
    let w := words.map (·.toNat)
    if !recGood s.hw core bank idx w launch l then .next s
    else
      let h := (fillBank s.hw core bank c).setImage core c fun i => { i with ltable := i.ltable.ins (recLidx w) launch }
      if recBad ((s.hw.image core c).records.vals.map (·.1)) (hdrExt l.hdr 1) w then
        .next (s.with (h.setCore core fun k => { k with rejects := k.rejects + 1 }))
      else
        .next (s.with { h.setImage core c fun i => { i with records := i.records.ins idx (w, launch) } with
          launches := h.launches.ins launch { l with bound := w.getD 0 0 :: l.bound } })

/-- A gang at its start (R82). -/
def startGang (p c launch block g blk : Nat) (l : Launch) (phys : Nat) : Gang :=
  let w := blk + 32 * g
  { part := p, ctx := c, launch := launch, block := block, gidx := g, wid := word w, tag := word (hdrWord l.hdr 9)
    paths := [(0, { pc := word (hdrWord l.hdr 0), mask := BitVec.allOnes 32,
                    sregs := [(0, ⟨word (hdrWord l.hdr 8), phys⟩), (1, ⟨l.addr, phys + 1⟩)] })]
    srng := allLanes.map fun i => (i, srSeed (word (hdrWord l.hdr 7)) (word (w + i))) }
/-- Changes an accumulator tag. -/
def setTag (c : Core) (t : Nat) (f : AccTag → AccTag) : Core := { c with acctag := c.acctag.ins t (f (c.acctag.val {} t)) }
/-- A tile of a record at the start of a block of context c (16_matrix R315). -/
def tagStart (c : Nat) (k : Core) (t : Nat) : Core :=
  setTag k t fun x => if x.state = 0 then x else if x.owner = c then { x with state := 0, fresh := false } else { x with fresh := true }
/-- A tile of a record that is cleared (16_matrix R315). -/
def tagEnd (c : Nat) (k : Core) (t : Nat) : Core :=
  setTag k t fun x => { x with state := if x.owner = c ∧ x.state ≠ 0 then 0 else x.state, fresh := false }
/-- The tiles of a record. -/
def recTiles (w : List Nat) : List Nat := (List.range (recAcc w).2).map ((recAcc w).1 + ·)
/-- The units of a record. -/
def recUnits (w : List Nat) : List Nat := (List.range (recScr w).2).map ((recScr w).1 + ·)
/-- Units that valid records of a bank hold (11_scratchpad R203). -/
def heldUnits (hw : Hw) (core bank : Nat) : List Nat :=
  match bankCtx hw core bank with
  | some c => dedup ((hw.image core c).records.vals.flatMap fun r => recUnits r.1)
  | none => []
/-- The block that a record has started. -/
def recBlock (hw : Hw) (core c launch : Nat) (w : List Nat) : Option Nat :=
  (hw.blocks.find? fun b => b.2.core == core && b.2.ctx == c && b.2.launch == launch && b.2.blk.toNat == w.getD 0 0).map (·.1)
/-- Whether a gang slot still holds a gang of an earlier block or a reply addressed to one (R82, R90). -/
def slotTaken (hw : Hw) (gk : Nat) : Bool := hw.gangs.has gk || hw.ops.any fun o => o.gk == gk
/-- Whether the blocks a block has to be resident with are (R68, R80): those of its cluster group, or of a co-resident launch, are all
bound, in active banks. -/
def together (hw : Hw) (launch : Nat) (l : Launch) (b : Nat) : Bool :=
  let active (f : Nat → Bool) : Bool := (boundOn hw launch f).all fun x => (hw.core x.1).act == x.2
  (!bit 32 (hdrWord l.hdr 1) || (l.bound.length == blockCount l.hdr && active fun _ => true)) &&
    (!hdrC3 l.hdr || ((l.bound.filter fun x => sameGroup l.hdr x b).length == hdrExt l.hdr 2 && active fun x => sameGroup l.hdr x b))
/-- Whether the block of a record can start (R68, R79, R80, R82; 11_scratchpad R206). -/
def startable (s : State) (core bank c : Nat) (w : List Nat) (launch : Nat) (l : Launch) : Bool :=
  let k := s.hw.core core
  k.act == bank && k.flipAt.isNone && coreUp s.hw core && ctxRuns s.hw l.part c && decide (w.getD 1 0 ≤ s.time) &&
    l.eligible && decide (l.floor ≤ s.time) && (recBlock s.hw core c launch w).isNone && together s.hw launch l (w.getD 0 0) &&
    (match l.starts.look (2 * coreCluster core + bank) with | some t => decide (t + bits 61 46 (hdrWord l.hdr 1) ≤ s.time) | none => true) &&
    ((recSlots w).all fun n => !slotTaken s.hw (gangKey core c n)) &&
    ((recUnits w).all fun u => match k.units.look u with | some b => b == bank | none => true)
/-- A valid record's block starts its gangs, if it can (R79, R82). -/
def startBlock (core bank idx : Nat) (s : State) : State :=
  match bankCtx s.hw core bank with
  | none => s
  | some c =>
    match (s.hw.image core c).records.look idx with
    | none => s
    | some (w, launch) =>
      match s.hw.launches.look launch with
      | none => s
      | some l =>
        if !startable s core bank c w launch l then s
        else
          let bk := s.hw.nextId
          let ss := recSlots w
          let b : Block := { part := l.part, core := core, ctx := c, launch := launch, blk := word (w.getD 0 0), slots := ss
                             ext1 := hdrExt l.hdr 1, spb := (recScr w).1, spn := (recScr w).2, accb := (recAcc w).1
                             accn := (recAcc w).2, started := true }
          let gs := ((List.range ss.length).zip ss).map fun x =>
            (gangKey core c x.2, startGang l.part c launch bk x.1 (w.getD 0 0) l (s.hw.phys + 2 * x.1))
          let h := s.hw.setCore core fun k =>
            let k1 := (recTiles w).foldl (tagStart c) k
            { k1 with units := (recUnits w).foldl (fun t u => t.ins u bank) k1.units }
          let h1 : Hw := { h with
            blocks := h.blocks.ins bk b, nextId := bk + 1, phys := h.phys + 2 * ss.length
            gangs := gs.foldl (fun t x => t.ins x.1 x.2) h.gangs
            launches := h.launches.ins launch { l with starts := l.starts.ins (2 * coreCluster core + bank) s.time } }
          s.with ((makeRoom h1 core c [] 4096 8192).getD h1)
/-- A record's block starts, if it can (R82). -/
def execBlockStart (core bank idx : Nat) (s : State) : Out := .next (startBlock core bank idx s)
/-- Every block starts that can (R82): its first moment, as far as turns tell moments apart. -/
def startDue (s : State) : State :=
  (s.hw.images.flatMap fun i => match i.2.place with
    | .bank b => i.2.records.keys.map fun k => (i.1 / 65536, b, k)
    | _ => []).foldl (fun s x => startBlock x.1 x.2.1 x.2.2 s) s

/-- Whether a block is over: its gangs have ended and what it issued for its core is done (R90; 16_matrix R312). -/
def blockOver (hw : Hw) (bk : Nat) : Bool :=
  !(hw.gangs.any fun g => g.2.block == bk) && !(hw.ops.any fun o => o.block == bk && match o.kind with
    | .copy .. | .scopy .. | .pass .. | .tile .. | .atrans .. | .update .. | .ldc .. | .stc .. => true
    | _ => false) && !(hw.images.any fun i => i.2.chains.any fun c => c.2.block == bk && (c.2.state == 1 || c.2.state == 2))
/-- Clears the record of a block (R90): its units return to the L1 unless the other bank also holds them (11_scratchpad R207). -/
def clearRecord (hw : Hw) (core c : Nat) (x : Nat × List Nat × Nat) : Hw :=
  let w := x.2.1
  let bank := bankOf hw core c
  let h := (hw.setImage core c fun i => { i with records := i.records.del x.1 }).setCore core fun k =>
    let k1 := (recTiles w).foldl (tagEnd c) k
    { k1 with units := (recUnits w).foldl (fun t u => if bankCtx hw core bank != some c || (heldUnits hw core (1 - bank)).contains u then t else t.del u) k1.units }
  match recBlock h core c x.2.2 w with
  | some bk => { h with blocks := h.blocks.del bk }
  | none => h
/-- A block's record is cleared (R90); those of a cluster group together, when every block of the group is over (11_scratchpad
R207). -/
def execBlockEnd (core bank idx : Nat) (s : State) : Out :=
  match bankCtx s.hw core bank with
  | none => .next s
  | some c =>
    match (s.hw.image core c).records.look idx with
    | none => .next s
    | some (w, launch) =>
      match s.hw.launches.look launch, recBlock s.hw core c launch w with
      | some l, some bk =>
        let mine := (s.hw.blocks.filter fun b => b.2.launch == launch &&
          (b.1 == bk || (hdrC3 l.hdr && sameGroup l.hdr b.2.blk.toNat (w.getD 0 0))))
        let size := if hdrC3 l.hdr then hdrExt l.hdr 2 else 1
        if mine.length != size || !(mine.all fun b => blockOver s.hw b.1) then .next s
        else
          let recs := mine.flatMap fun b => ((s.hw.image b.2.core b.2.ctx).records.filter fun r =>
            r.2.2 == launch && r.2.1.getD 0 0 == b.2.blk.toNat).map fun r => (b.2, r)
          let h := recs.foldl (fun h x => clearRecord h x.1.core x.1.ctx (x.2.1, x.2.2.1, x.2.2.2)) s.hw
          .next (s.with { h with launches := h.launches.ins launch { l with ended := l.ended ++ mine.map fun b => b.2.blk.toNat } })
      | _, _ => .next s

/-! ## Completion -/

/-- Takes a launch out of the launch tables of every core (R85). -/
def freeLaunch (hw : Hw) (launch : Nat) : Hw :=
  { hw with launches := hw.launches.del launch
            images := hw.images.map fun i => (i.1, { i.2 with ltable := i.2.ltable.filter fun e => e.2 != launch }) }
/-- A launch ends before completion with a status code (R86; 20_power R395). -/
def endLaunch (hw : Hw) (t launch code : Nat) : Hw :=
  match hw.launches.look launch with
  | none => hw
  | some l =>
    freeLaunch (match l.src with | .host q _ => writeStatus hw l.part t q l.slotPa code | .device _ => hw) launch
/-- Whether a launch has nothing left (R85). -/
def launchOver (hw : Hw) (launch : Nat) (l : Launch) : Bool :=
  l.ended.length == blockCount l.hdr && !(hw.gangs.any fun g => g.2.launch == launch || g.2.reds.any fun r => r.launch == launch) &&
    !(hw.ops.any fun o => o.launch == launch && o.counts)
/-- A finished launch adds 1 to DONE, writes CTIME and STATUS and frees its entries (R85). [DEDUCED, unsafe: log 23] -/
def execLaunchComplete (launch : Nat) (s : State) : Out :=
  match s.hw.launches.look launch with
  | none => .next s
  | some l =>
    if !launchOver s.hw launch l || (match s.hw.ctx l.part l.ctx with | some c => decide (c.state = .killing) | none => false) then .next s
    else
      let finish (h0 : Hw) : Out :=
        let h1 := match s.hw.ctx l.part l.ctx with
          | some c => if c.tail.launch then h0.setCtx l.part l.ctx fun c => { c with tail := c.tail.ask .plain } else h0
          | none => h0
        let h2 := match l.src with
          | .host q _ => writeStatus (devWriteLast h1 l.part s.time (l.slotPa + 0xC8) s.time) l.part s.time q l.slotPa 2
          | .device _ => h1
        .next (s.with (freeLaunch h2 launch))
      match l.doneAt, l.doneW with
      | none, _ => finish s.hw
      | some a, none =>
        if hostHolds s.hw l.part a then .next (s.with (snoop s.hw l.part a)) else
        let o : Op := { id := s.hw.nextId, part := l.part, ctx := l.ctx, held := l.doneHeld, kind := .counter { lane := 0, tgt := { pa := a } } true }
        let t := lastPend s.hw l.part s.time
        match ctxWrite s.hw s.mem t o a (hdrDone l.hdr) (toBytes 8 ((latestNat s.mem s.hw l.part a 8 + 1) % 2 ^ 64)) with
        | (some w, h) => .next (s.with { h with launches := h.launches.ins launch { l with doneW := some w, doneHeld := false }, nextId := h.nextId + 1 })
        | (none, h) => .next (s.with { h with launches := h.launches.ins launch { l with doneHeld := true, donePa := a }, nextId := h.nextId + 1 })
      | some _, some w => if w ≤ s.time then finish s.hw else .next s

/-! ## glaunch, gsig, gwait, gcount -/

/-- Reads a header of 192 bytes at a 64-byte-aligned virtual address: its words, or the failing level and address. -/
def readHeader (e : Env) (va : Nat) : Except (Nat × Nat) (List Nat × List Nat × Hw) :=
  (List.range 3).foldl (fun (x : Except (Nat × Nat) (List Nat × List Nat × Hw)) (i : Nat) =>
    match x with
    | .error l => .error l
    | .ok (ws, pas, h) => match translate h e.s.mem e.part e.ctx (va + 64 * i) with
      | (.error l, _) => .error (l, va + 64 * i)
      | (.ok t, h') => if t.kind = 0 ∧ t.r then .ok (ws ++ bytesWords 8 (rdBytes e.s.mem e.part t.pa 64), pas ++ [t.pa], h') else .error (t.level, va + 64 * i))
    (.ok ([], [], e.hw))
/-- Launches of a context that stand in the device queue, not yet taken (R87). -/
def queuedLaunches (hw : Hw) (p c : Nat) : Nat :=
  (hw.ops.filter fun o => o.part == p && o.ctx == c && (match o.kind with | .glaunch hdr _ => !hdr.isEmpty | _ => false)).length
/-- glaunch (R87). -/
def execGlaunch (f : Fields) (s : State) : Out :=
  issueF Forms.glaunch f s fun e r =>
    let o := offSum f.hOff (e.sb r).toNat 0
    let hd := readHandle e.hw e.s.mem e.part e.ctx f.hIdx
    let va := hd.base + o
    if e.tableFull then .hold
    else if handleBad e.hw e.part e.ctx f.hIdx { spaces := fun sp => sp == 0, r := true, width := 192 } hd then
      .trap { cause := 0x06, fault := handleFault f.hIdx o, hit := e.act }
    else if hd.len < o + 192 then .trap { cause := 0x05, fault := handleFault f.hIdx o, hit := e.act }
    else if va % 64 ≠ 0 then .trap { cause := 0x08, fault := va, hit := e.act }
    else match readHeader e va with
    | .error l => .trap { cause := 0x07, info := l.1, fault := va, hit := e.act }
    | .ok (ws, pas, hw) =>
      match e.watch hw true false true [(0, va, 192)] with
      | .error x => x
      | .ok hw =>
        let hdr := if 1024 ≤ queuedLaunches e.hw e.part e.ctx then [] else ws.set 8 (e.sa r).toNat
        let op := { e.newOp r (.glaunch hdr (word va)) with entry := true, dst := e.dest r }
        if pas.any fun pa => !clear e.hw { op with id := 0 } { lane := 0, tgt := { pa := pa } } 64 true then .hold
        else .done { ops := [op] } (hw.setCore e.core fun c => { c with wtPeak := Nat.max c.wtPeak (waitEntries hw e.core + 1) })

/-- The lead Phobos takes a glaunch launch (R87): it is checked and numbered, and sd is written. -/
def execDeviceQueueTake (id : Nat) (s : State) : Out :=
  match s.hw.op id with
  | some o =>
    match o.kind, s.hw.ctx o.part o.ctx with
    | .glaunch hdr addr, some c =>
      if c.state = .killing then .next s
      else if hdr.isEmpty then .next (landOp s o fun _ => word 0x84)
      else
        let r := takeHeader s.hw s.mem o.part o.ctx (.device c.nextNum) addr 0 hdr
        if r.1 = 1 then
          let h := r.2.setCtx o.part o.ctx fun c => { c with nextNum := if c.nextNum = 0xFFFFFFFF then 1 else c.nextNum + 1 }
          .next (landOp (s.with h) o fun _ => word (c.nextNum * 2 ^ 32 + 1))
        else .next (landOp (s.with r.2) o fun _ => word r.1)
    | _, _ => .next s
  | none => .next s

/-- gsig and gcount (R88): a release, and for gcount an acquire. [DEDUCED, safe: log 24] -/
def counterForm (fm : Form) (f : Fields) (s : State) (add : Bool) : Out :=
  issueF fm f s fun e r =>
    if e.counterFull then .hold
    else match e.checkWord (e.sa r).toNat true true with
    | .stop x => x
    | .ok es hw =>
      match e.releasing false with
      | some (sc, b) => .stay (e.park r .parked (.release sc b) e.hw)
      | none => e.start r { e.newOp r (.counter { es.headD { lane := 0, tgt := {} } with val := e.sb r } add) with counts := true, dst := e.dest r } (!add) hw
/-- gsig (R88). -/
def execGsig (f : Fields) (s : State) : Out := counterForm Forms.gsig f s true
/-- gcount (R88). -/
def execGcount (f : Fields) (s : State) : Out := counterForm Forms.gcount f s false
/-- gwait (R88). -/
def execGwait (f : Fields) (s : State) : Out :=
  issueF Forms.gwait f s fun e r =>
    if e.tableFull then .hold
    else match e.checkWord (e.sa r).toNat true false with
    | .stop x => x
    | .ok es hw =>
      let pa := (es.headD { lane := 0, tgt := {} }).tgt.pa
      let busy := counterBusy e.hw e.gk e.p pa || (e.hw.part e.part).pend.any fun w => w.gk == e.gk && bit e.p w.paths &&
        decide (w.addr < pa + 8) && decide (pa < w.addr + w.bytes.length)
      let v := rdNat e.s.mem e.part pa 8
      if !busy && decide ((e.sb r).toNat ≤ v) then .done (putS r v) hw
      else .stay (notePeak (e.park r .parked (.gwait pa (e.sb r) r.d) hw) e.core)
/-- A gwait that a write has woken retires (R88). -/
def execGwaitWake (q : PathRef) (s : State) : Out :=
  match envAt s q with
  | some e => match e.q.wait with
    | .woken d v => .next (if runsOn s.hw e.core e.ctx then s.with (e.retireParked { s := [(d, v)] } s.hw) else s)
    | _ => .next s
  | none => .next s

end Sys2Proof.Machine
end

