-- ==== Sys2Proof/Machine/Copies.lean ====
section
/-! DEFINITION. Copy engines, batches and command blocks (15_copies R286-R301). -/

namespace Sys2Proof.Machine

open Sys2Proof

/-! ## Batches -/

/-- The number that the n-th bclose of a gang assigns, and for n = 0 the H of a gang none of whose batches has completed (R294):
0 is never assigned. -/
def batchNum (n : Nat) : Nat := if n = 0 then 0 else (n - 1) % (2 ^ 32 - 1) + 1
/-- Whether every command of batch n of a gang has completed. -/
def batchDone (hw : Hw) (gk n : Nat) : Bool :=
  !(hw.ops.any fun o => o.gk == gk && (match o.kind with | .copy c => o.chain.isNone && c.batch == n | _ => false))
/-- The horizon moves past the closed batches that have completed (R294). -/
def horizonOver (hw : Hw) (gk : Nat) : List Batch → Gang → Gang
  | [], g => g
  | b :: bs, g => if batchDone hw gk b.num then horizonOver hw gk bs { g with horizon := b.num, unrep := g.unrep + b.failed, batches := bs } else g
/-- Moves the horizon of a gang as far as it goes. -/
def moveHorizon (hw : Hw) (gk : Nat) : Hw := hw.setGang gk fun g => horizonOver hw gk g.batches g
/-- Closed batches of a gang that have not completed. -/
def openCount (hw : Hw) (gk : Nat) (g : Gang) : Nat := (g.batches.filter fun b => !batchDone hw gk b.num).length
/-- Whether number b is within the horizon (R294, R295). -/
def withinHorizon (g : Gang) (b : Nat) : Bool := b == 0 || decide ((batchNum g.horizon + 2 ^ 32 - b % 2 ^ 32) % 2 ^ 32 < 2 ^ 31)
/-- Whether a bwait is met (R295). -/
def bwaitMet (g : Gang) (left : Bool) (n : Nat) : Bool :=
  if left then decide (16 ≤ n) || decide (g.closed - g.horizon ≤ n) else withinHorizon g n
/-- What bwait writes (R295). -/
def bwaitValue (g : Gang) : Nat := batchNum g.horizon + Nat.min g.unrep 0xFFFF * 2 ^ 32

/-- bclose (R294). -/
def execBclose (f : SFields) (s : State) : Out :=
  issueS Forms.bclose f s fun e r =>
    if 16 ≤ openCount e.hw e.gk e.g then .hold
    else
      let n := e.g.closed + 1
      let h := e.hw.setGang e.gk fun g =>
        { g with closed := n, openFailed := 0, batches := g.batches ++ [{ num := n, failed := g.openFailed }] }
      .done (putS r (batchNum n)) (moveHorizon h e.gk)
/-- bwait (R295). -/
def execBwait (f : Fields) (s : State) : Out :=
  issueF Forms.bwait f s fun e r =>
    let n := (e.sa r).toNat
    let left := f.op == 1
    if !left && n != 0 && (decide (2 ^ 32 ≤ n) || (decide (e.g.closed < 2 ^ 32 - 1) && decide (e.g.closed < n))) then
      .trap { cause := 0x14, hit := e.act }
    else if bwaitMet e.g left n then .done (putS r (bwaitValue e.g)) (e.hw.setGang e.gk fun g => { g with unrep := 0 })
    else .stay (e.park r .parked (.bwait left n r.d) e.hw)
/-- The bwaits of a gang that are met retire, in ascending path index (R295). -/
def wakeBwait (s : State) (gk : Nat) : State :=
  if !runsOn s.hw (gkCore gk) (gkCtx gk) then s else
  (List.range 16).foldl (fun s p => match envAt s ⟨gkCore gk, gkCtx gk, gkSlot gk, p⟩ with
    | some e => match e.q.wait with
      | .bwait left n d =>
        if e.q.state = .parked ∧ bwaitMet e.g left n then
          s.with (e.retireParked (putS { d := d, a := 0, b := 0, c := 0, sh := {}, lud := false, lua := false, lub := false, luc := false,
                                         len := 8, fsel := 0 } (bwaitValue e.g)) (s.hw.setGang gk fun g => { g with unrep := 0 }))
        else s
      | _ => s
    | none => s) s

/-! ## Copy forms -/

/-- Commands in the queue of a core (R286). -/
def copiesQueued (hw : Hw) (core : Nat) : Nat :=
  (hw.ops.filter fun o => o.core == core && o.chain.isNone && (match o.kind with | .copy _ => true | _ => false)).length

/-- The operands of a copy form: D, n, m, G, P, rotation, direction and object. -/
structure CopyArgs where
  d : Nat
  n : Nat
  m : Nat
  g : Nat
  p : Nat
  rot : Nat
  out : Bool
  obj : Option Nat
/-- Whether the tile is empty. -/
def CopyArgs.empty (x : CopyArgs) : Bool := x.n == 0 || x.m == 0
/-- How far a range of m rows of n bytes, pitch p, reaches from its start (R291). -/
def CopyArgs.reach (x : CopyArgs) (pitch : Nat) : Nat := (x.m - 1) * pitch + x.n
/-- The first value of R291 item 3 that is misaligned, as its fault address; va is the global start. [DEDUCED, unsafe: log 94] -/
def CopyArgs.misaligned (x : CopyArgs) (va : Nat) : Option Nat :=
  let a := if x.rot = 0 then 4 else 16
  if va % a ≠ 0 ∨ x.g % a ≠ 0 then some (va % 2 ^ 64)
  else if x.n % a ≠ 0 ∨ x.d % a ≠ 0 ∨ x.p % a ≠ 0 then some (scrFault x.d)
  else match x.obj with | some o => if o % 16 ≠ 0 then some (scrFault o) else none | none => none
/-- The cause and INFO for a link that is down, or an extent revoked (R291 item 4). -/
def linkDown (k : LinkSt) (t : Target) : Option (Nat × Nat) :=
  if t.space = 0 then none
  else if t.space = 3 then (if t.tgt < 1024 ∧ (extent k t.tgt).state ≠ 1 then some (downCause t) else none)
  else if targetUp k t 0 then none else some (downCause t)

/-- What a reference of a copy form meets in R291: the item, cause, INFO and fault address, or none. lane is 0 for cpy. -/
def copyCheck (e : Env) (x : CopyArgs) (lane h o : Nat) : Option (Nat × Nat × Nat × Nat) :=
  let hd := readHandle e.hw e.s.mem e.part e.ctx h
  let need : Need := { spaces := fun sp => sp != 4, r := !x.out, w := x.out, width := 1 }
  if handleBad e.hw e.part e.ctx h need hd then some (1, 0x06, 0, handleFault h o)
  else if !x.empty && decide (hd.len < o + x.reach x.g) then some (2, 0x05, 0, handleFault h o)
  else if !x.empty && decide (e.scrBytes < x.d + lane * x.p + x.reach x.p) then some (2, 0x05, 0, scrFault x.d)
  else if (match x.obj with | some o => decide (e.scrBytes < o + 16) | none => false) then some (2, 0x05, 0, scrFault (x.obj.getD 0))
  else match x.misaligned (hd.base + o) with
    | some a => some (3, 0x08, 0, a)
    | none => match linkDown (e.hw.part e.part).link { space := hd.space, peer := hd.peer, tgt := hd.tgt } with
      | some c => some (if c.1 = 0x11 then 4 else 5, c.1, c.2, (hd.base + o) % 2 ^ 64)
      | none => none

/-- n bytes from va and y on in pieces, one in each line, for the host one in each sector (13_consistency R247; 14_atomics R269). -/
def rowPieces (row : Nat) (tgt : Target) : Nat → Nat → Nat → Nat → List Piece
  | 0, _, _, _ => []
  | k + 1, va, y, n =>
    if n = 0 then []
    else
      let w := Nat.min n (if tgt.space = 1 then 64 - va % 64 else 128 - va % 128)
      { row := row, tgt := tgt, va := va, y := y, n := w } :: rowPieces row tgt k (va + w) (y + w) (n - w)
/-- The pieces of a tile (R289). -/
def tilePieces (x : CopyArgs) (tgt : Target) (va : Nat) : List Piece :=
  (List.range x.m).flatMap fun j => rowPieces j tgt (x.n / 4 + 1) (va + j * x.g) (x.d + j * x.p) x.n
/-- Whether rows of a tile overlap at the destination (R289). -/
def CopyArgs.overlap (x : CopyArgs) : Bool := decide (1 < x.m) && decide ((if x.out then x.g else x.p) < x.n)

/-- Checks and queues a copy form (R286-R291): refs are its references; lanewise says that each is a lane's own. -/
def queueCopy (e : Env) (r : Regs) (x : CopyArgs) (lanewise : Bool) (refs : List Ref) : Res :=
  if e.acquiring || decide (128 ≤ copiesQueued e.hw e.core) then .hold else
  let bad := refs.filterMap fun a => (copyCheck e x (if lanewise then a.lane else 0) a.h a.o).map fun b => (a.lane, b)
  let first := minOr 9 (bad.map (·.2.1))
  match bad.filter fun b => b.2.1 == first with
  | b :: bs =>
    .trap { cause := b.2.2.1, info := b.2.2.2.1, fault := b.2.2.2.2,
            hit := if lanewise then lanesWhere fun l => (b :: bs).any fun y => y.1 == l else e.act }
  | [] =>
    if x.empty then .done {} e.hw
    else if e.counterFull then .hold
    else
      let pieces (a : Ref) : List Piece :=
        let hd := readHandle e.hw e.s.mem e.part e.ctx a.h
        let tgt : Target := { space := hd.space, peer := hd.peer, tgt := hd.tgt }
        if lanewise then rowPieces a.lane tgt (x.n / 4 + 1) (hd.base + a.o) (x.d + a.lane * x.p) x.n
        else tilePieces x tgt (hd.base + a.o)
      let c : Copy := { blk := e.g.block, out := x.out, rot := x.rot, obj := x.obj, todo := refs.flatMap pieces
                        overlap := lanewise || x.overlap, batch := e.g.closed + 1 }
      e.start r { e.newOp r (.copy c) with counts := true } e.stepped e.hw
/-- The rotation and object a copy form's immediate gives (R288). -/
def copyImm (f : Fields) : Nat × Option Nat := (bits 22 20 f.imm, if bit 19 f.imm then none else some (bits 18 0 f.imm))
/-- P: sc[18:0]. -/
def Env.pitch (e : Env) (r : Regs) : Nat := bits 18 0 (e.q.sr r.c).toNat
/-- cpy (R289). -/
def execCpy (f : Fields) (s : State) : Out :=
  issueF Forms.cpy f s fun e r =>
    let b := (e.sb r).toNat
    let a := (e.sa r).toNat
    let x : CopyArgs := { d := (e.sd r).toNat, n := bits 15 0 b, m := bits 31 16 b, g := bits 63 32 b, p := e.pitch r
                          rot := (copyImm f).1, out := f.op == 1, obj := (copyImm f).2 }
    queueCopy e r x false [⟨lowLane e.act, bits 63 52 a, bits 51 0 a⟩]
/-- cpyg and cpys (R290). -/
def lanesCopy (fm : Form) (f : Fields) (s : State) (out : Bool) : Out :=
  issueF fm f s fun e r =>
    let x : CopyArgs := { d := (e.sd r).toNat, n := bits 15 0 (e.sb r).toNat, m := 1, g := 0, p := e.pitch r, rot := (copyImm f).1
                          out := out, obj := (copyImm f).2 }
    queueCopy e r x true (e.acts.map fun l => let v := (e.va r l).toNat; ⟨l, bits 63 52 v, bits 51 0 v⟩)
/-- cpyg (R290). -/
def execCpyg (f : Fields) (s : State) : Out := lanesCopy Forms.cpyg f s false
/-- cpys (R290). -/
def execCpys (f : Fields) (s : State) : Out := lanesCopy Forms.cpys f s true

/-! ## The engine -/

/-- The rotated offset of byte i of a piece. -/
def Copy.at (c : Copy) (x : Piece) (i : Nat) : Nat := swz (x.y + i) c.rot
/-- A source byte of a piece of an outward copy: taken earlier, or as it stands now (R292). -/
def Copy.src (c : Copy) (b : Block) (x : Piece) (i : Nat) : Byte := (c.cap.look (c.at x i)).getD (b.scr.val 0 (c.at x i))
/-- The destination key of byte i of a piece: of a global one its target space, peer or extent, and address. -/
def Copy.key (c : Copy) (x : Piece) (i : Nat) : Nat :=
  if c.out then ((x.tgt.space * 2 ^ 17 + x.tgt.peer) * 2 ^ 32 + x.tgt.tgt) * 2 ^ 57 + x.va + i else x.y + i
/-- Whether byte i of a piece still reaches its destination: no higher row wrote it (R289, R290). -/
def Copy.live (c : Copy) (x : Piece) (i : Nat) : Bool := !c.overlap || decide (c.wrote.val 0 (c.key x i) ≤ x.row)
/-- Notes the row that wrote the bytes of a piece. -/
def Copy.noteRow (c : Copy) (x : Piece) : Copy :=
  if !c.overlap then c else
  { c with wrote := (List.range x.n).foldl (fun t i => if c.live x i then t.ins (c.key x i) x.row else t) c.wrote }
/-- Runs of consecutive live bytes of a piece from byte i on: their first bytes and contents. -/
def Copy.runs (c : Copy) (b : Block) (x : Piece) : Nat → Nat → List (Nat × List Byte)
  | 0, _ => []
  | k + 1, i =>
    let rest := c.runs b x k (i + 1)
    if !c.live x i then rest
    else match rest with
      | (j, bs) :: t => if j = i + 1 then (i, c.src b x i :: bs) :: t else (i, [c.src b x i]) :: rest
      | [] => [(i, [c.src b x i])]

/-- Where the bytes of a piece lie now (R292, R293): its target, or the cause its access fails with. -/
def pieceTarget (hw : Hw) (m : Tab Memory) (o : Op) (c : Copy) (x : Piece) : Except Nat Target × Hw :=
  if 2 ^ 57 ≤ x.va then (.error 0x07, hw) else
  let t := translate hw m o.part o.ctx x.va
  match t.1 with
  | .error _ => (.error 0x07, t.2)
  | .ok y =>
    let tg : Target := { x.tgt with pa := y.pa }
    if y.kind ≠ x.tgt.space ∨ !poolFits (hw.part o.part).link x.tgt.space x.tgt.tgt y ∨ (c.out && !y.w) ∨ (!c.out && !y.r) then (.error 0x07, t.2)
    else if tg.space != 0 && !targetUp (hw.part o.part).link tg x.n then (.error (downCause tg).1, t.2)
    else (.ok tg, t.2)

/-- Counts n performed bytes: for the object now, or once w has passed (R259, R284). -/
def Copy.count (c : Copy) (n : Nat) (w : Option Nat) : Copy :=
  match w with
  | some w => { c with landing := c.landing ++ [(w, n)] }
  | none => { c with owed := c.owed + n }

/-- The engine's write of a run of bytes of an outward piece (R292): device writes take their W, others leave through their link
with an irreversible record, and are performed at a time that is open (13_consistency R259). Answers the time from which they count. -/
def writeRun (m : Tab Memory) (t : Nat) (o : Op) (tg : Target) (va : Nat) (st : Option (Option Nat) × Hw) (run : Nat × List Byte) :
    Option (Option Nat) × Hw :=
  match st.1 with
  | none => st
  | some w0 =>
    let hw := st.2
    let a := tg.pa + run.1
    let k := (hw.part o.part).link
    let sent (h : Hw) : Option (Option Nat) × Hw := let d := h.draw; (some (some (Nat.max (t + d.1) (w0.getD 0))), d.2)
    let strip (h : Hw) : Hw := h.setPart o.part fun q => { q with pend := q.pend.map fun w => if w.id = o.id then { w with paths := 0 } else w }
    match tg.space with
    | 0 =>
      if k.hostLines.contains (lineOf a) then (none, hw.send 2 o.part [lineOf a * 128])
      else match ctxWrite hw m t o a (va + run.1) run.2 with
      | (some w, h) => (some (some (Nat.max w (w0.getD 0))), strip h)
      | (none, h) => (none, h)
    | 1 =>
      if sectorHeld k a then
        let r := putWrite hw o.part t (bridgeAddr a) run.2 o.id 0 0
        (some (some (Nat.max r.1 (w0.getD 0))), irreversible (r.2.setPart o.part fun q => { q with link := { q.link with
          sectors := q.link.sectors.upd (a / 64) fun _ => (2, t) } }) o.part o.ctx t (va + run.1) 0 0)
      else if k.cxl then (none, hw)
      else sent (irreversible (hw.send 1 o.part ([1, a, 0, 0, run.2.length] ++ run.2.map (·.toNat))) o.part o.ctx t (va + run.1) 0 0)
    | 2 =>
      if !peerSends k tg.peer then (none, hw)
      else sent (irreversible (hw.send 1 o.part ([2, a, tg.peer, 0, run.2.length] ++ run.2.map (·.toNat))) o.part o.ctx t (va + run.1) 2 tg.peer)
    | _ => sent (irreversible (hw.send 1 o.part ([3, a, 0, tg.tgt, run.2.length] ++ run.2.map (·.toNat))) o.part o.ctx t (va + run.1) 1 0)

/-- Drops an abandoned write of a space (R293; 19_links R368). -/
def noteDrop (hw : Hw) (p space : Nat) : Hw :=
  hw.setPart p fun q => { q with link := { q.link with
    dropHost := (q.link.dropHost + b2n (space == 1)) % 65536, dropPeer := (q.link.dropPeer + b2n (space == 2)) % 65536
    dropPool := (q.link.dropPool + b2n (space == 3)) % 65536, dropMcr := (q.link.dropMcr + b2n (space == 4)) % 65536 } }

/-- A piece is abandoned (R293): its bytes count as performed, and a dropped write counts once for its line (19_links R368). -/
def abandon (o : Op) (c : Copy) (x : Piece) (cause : Nat) (hw : Hw) : Copy × Hw :=
  let line := (x.row, x.va / 128)
  ({ c with failed := some (c.failed.getD cause), owed := c.owed + x.n, dropped := if c.dropped.contains line then c.dropped else line :: c.dropped },
   if c.out && !c.dropped.contains line then noteDrop hw o.part x.tgt.space else hw)
/-- Whether the scratchpad accesses that the issuing path made before a command are performed (13_consistency R259). -/
def sourcesReady (hw : Hw) (o : Op) : Bool :=
  !(hw.ops.any fun x => o.after.contains x.id && (match x.kind with | .scopy .. | .ldc .. | .stc .. => true | _ => false))
/-- The words of an inward piece with the bytes that its read found. -/
def readWords (x : Piece) (bs : List Byte) : List Piece :=
  (List.range (x.n / 4)).map fun i => { x with va := x.va + 4 * i, y := x.y + 4 * i, n := 4, data := some ((bs.drop (4 * i)).take 4) }
/-- One piece of a command is moved (R289-R293): what is left of it, the command and the machine. data is what a link brings. An inward
piece is read whole and then written word by word (13_consistency R247; 11_scratchpad R218). -/
def movePiece (m : Tab Memory) (t : Nat) (o : Op) (c : Copy) (x : Piece) (data : List Byte) (hw : Hw) : List Piece × Copy × Hw :=
  let b := hw.blocks.val {} c.blk
  let ys := (List.range x.n).map (c.at x)
  if ys.any (unitBusy hw b) || (c.out && !sourcesReady hw o) then ([x], c, hw)
  else match x.data with
  | some bs =>
    let live := ((List.range x.n).filter fun i => c.live x i).map (c.at x)
    let h := (noteScr o c.blk live (touchScrOf o.id hw c.blk ys true)).setBlock c.blk fun b =>
      ((List.range x.n).zip bs).foldl (fun b y => if c.live x y.1 then scrStore b (c.at x y.1) [y.2] else b) b
    ([], (c.noteRow x).count x.n none, h)
  | none =>
    let pt := pieceTarget hw m o c x
    match pt.1 with
    | .error k => ([], abandon o c x k pt.2)
    | .ok tg =>
      let k := (pt.2.part o.part).link
      if c.out then
        let h := touchScrOf o.id pt.2 c.blk ys false
        let r := (c.runs (h.blocks.val {} c.blk) x x.n 0).foldl (writeRun m t o tg x.va) (some none, h)
        match r.1 with
        | none =>
          let held := tg.space == 0 && (match r.2.op o.id with | some y => y.held | none => false)
          ([if held then { x with tgt := tg, st := 5 } else if tg.space = 1 ∧ k.cxl then { x with tgt := tg, st := 6 } else x], c, r.2)
        | some w => ([], (c.noteRow x).count x.n w, r.2)
      else
        let got : Option (List Byte) :=
          if tg.space = 0 then some (rdBytes m o.part tg.pa x.n)
          else if tg.space = 1 ∧ sectorHeld k tg.pa then some (rdBytes m o.part (bridgeAddr tg.pa) x.n)
          else if tg.space = 2 ∧ !peerSends k tg.peer then none
          else if data.length < x.n then none else some (data.take x.n)
        match got with
        | none => ([x], c, pt.2)
        | some bs => (readWords x bs, c, pt.2)

/-- Moves pieces one after the other; those that have to wait stay in the command. Data from a link is used up in order. -/
def movePieces (m : Tab Memory) (t : Nat) (o : Op) : List Piece → List Byte → Copy → Hw → List Piece × Copy × Hw
  | [], _, c, hw => ([], c, hw)
  | x :: xs, data, c, hw =>
    let r := movePiece m t o c x data hw
    let b := movePieces m t o xs (if x.tgt.space = 0 ∨ c.out ∨ x.data.isSome then data else data.drop x.n) r.2.1 r.2.2
    (r.1 ++ b.1, b.2)

/-- Takes the source bytes of pieces of an outward copy as they stand now (R292). -/
def capture (c : Copy) (b : Block) (xs : List Piece) : Copy :=
  { c with cap := xs.foldl (fun t x => (List.range x.n).foldl (fun t i => if t.has (c.at x i) then t else t.ins (c.at x i) (b.scr.val 0 (c.at x i))) t) c.cap }

/-- Whether nothing of a command is left but its completion (R287): every byte moved, passed and counted. -/
def copyOver (hw : Hw) (id : Nat) (c : Copy) : Bool :=
  c.todo.isEmpty && c.landing.isEmpty && c.owed == 0 &&
    !(hw.ops.any fun o => o.after.contains id && (match o.kind with | .update .. => true | _ => false))

/-- Counts performed bytes into the command's object when it is time: at the latest with the last byte (R292). -/
def payObject (hw : Hw) (t : Nat) (o : Op) (c : Copy) (now : Bool) : Copy × Hw :=
  match c.obj with
  | none => ({ c with owed := 0 }, hw)
  | some off =>
    if c.owed = 0 ∨ (!now && !(c.todo.isEmpty && c.landing.isEmpty)) then (c, hw)
    else
      ({ c with owed := 0 },
       { hw with
          ops := hw.ops ++ [{ id := hw.nextId, part := o.part, core := o.core, ctx := o.ctx, gk := o.gk, paths := o.paths, block := o.block
                              launch := o.launch, after := [o.id], kind := .update c.blk off c.owed t }]
          nextId := hw.nextId + 1 })

/-- A command that is overlap completes (R287, R294): its flag and counters return and its batch counts it. -/
def finishCopyOp (s : State) (o : Op) (c : Copy) : State :=
  let s1 := landOp s o fun _ => 0
  let fail := b2n c.failed.isSome
  let h := s1.hw.setGang o.gk fun g => { g with
    openFailed := if c.batch = g.closed + 1 then g.openFailed + fail else g.openFailed
    batches := g.batches.map fun b => if b.num = c.batch then { b with failed := b.failed + fail } else b }
  wakeBwait (s1.with (moveHorizon h o.gk)) o.gk

/-- The engine works on a command (R286-R293): it moves some of the pieces that are left, chosen freely, or takes source bytes
of some, counts what is performed, and completes the command when nothing is left. data is what links bring. [DEDUCED, safe: log 43] -/
def execCopyComplete (id : Nat) (data : List Byte) (s : State) : Out :=
  match s.hw.op id with
  | some o =>
    match o.kind with
    | .copy c0 =>
      let due : List (Nat × Nat) := c0.landing.filter fun (x : Nat × Nat) => decide (x.1 + 2 ≤ s.time)
      let c1 := { c0 with landing := c0.landing.filter (fun (x : Nat × Nat) => !decide (x.1 + 2 ≤ s.time)), owed := c0.owed + (due.map fun (x : Nat × Nat) => x.2).sum }
      let d := s.hw.draw
      let i := d.1 % c1.todo.length
      let k := 1 + d.1 / 8192 % (c1.todo.length - i)
      let mine := (c1.todo.drop i).take k
      let rest (l : List Piece) : List Piece := c1.todo.take i ++ l ++ c1.todo.drop (i + k)
      let x : Copy × Hw :=
        if c1.todo.isEmpty then (c1, s.hw)
        else if c1.out && d.1 / 2 ^ 40 % 2 == 1 then
          let ys := mine.flatMap fun (x : Piece) => (List.range x.n).map (c1.at x)
          if !sourcesReady s.hw o || ys.any (unitBusy s.hw (s.hw.blocks.val {} c1.blk)) then (c1, d.2)
          else
            let h := touchScrOf id d.2 c1.blk ys false
            (capture c1 (h.blocks.val {} c1.blk) mine, h)
        else
          let r := movePieces s.mem s.time o mine data c1 d.2
          ({ r.2.1 with todo := rest r.1 }, r.2.2)
      let y := payObject x.2 s.time o x.1 (d.1 / 2 ^ 41 % 2 == 1)
      let h := y.2.setOp id fun o => { o with kind := .copy y.1, held := o.held && y.1.todo.any fun p => p.st == 5 }
      let s1 := wakeBarw (s.with h) c0.blk
      match s1.hw.op id with
      | some o1 => if copyOver s1.hw id y.1 && o.chain.isNone then .next (finishCopyOp s1 o1 y.1) else .next s1
      | none => .next s1
    | _ => .next s
  | none => .next s

/-! ## Chains -/

/-- A word of a chain's command block (Table CP-2). -/
def Chain.w (c : Chain) (k : Nat) : Nat := c.words.getD k 0
/-- Whether a command block is malformed (R296, R297): a reserved field, an undefined code, or a link that names no block. [DEDUCED, unsafe: log 35] -/
def blockBad (w : Nat → Nat) : Bool :=
  bits 63 57 (w 0) != 0 || bits 63 57 (w 1) != 0 || bits 63 17 (w 2) != 0 || decide (4 < bits 16 14 (w 2)) || bits 11 10 (w 2) == 3 ||
    decide (3 < bits 9 7 (w 2)) || bits 6 5 (w 2) == 3 || bit 4 (w 2) || decide (3 < bits 3 0 (w 2)) || bits 63 57 (w 8) != 0 ||
    w 0 % 128 != 0 || w 1 % 128 != 0 || (List.range 7).any fun k => w (9 + k) != 0
/-- The test of a block on word v (R297): unsigned. -/
def chainTest (c : Chain) (v : Nat) : Bool :=
  let x := v &&& c.w 5
  match bits 9 7 (c.w 2) with
  | 0 => x == c.w 4 | 1 => x != c.w 4 | 2 => decide (x < c.w 4) | _ => decide (c.w 4 ≤ x)
/-- A chain goes to a link: to its block, or it ends (R297, R299). -/
def Chain.follow (c : Chain) (a : Nat) : Chain :=
  if a = 0 then { c with state := 0, op := none, test := false }
  else if c.stop then { c with state := 0, op := none, test := false }
  else { c with state := 1, addr := a, words := [], op := none, test := false }
/-- A chain stops in the error state (R298). -/
def Chain.fail (c : Chain) (k : Nat) : Chain := { c with state := 3, err := k, op := none, test := false }

/-- Changes a chain. -/
def setChain (hw : Hw) (core ctx slot : Nat) (c : Chain) : Hw := hw.setImage core ctx fun i => { i with chains := i.chains.ins slot c }
/-- Starts an operation for a chain, which waits for it. -/
def chainOp (hw : Hw) (p core ctx slot : Nat) (c : Chain) (test : Bool) (k : OpKind) : Hw :=
  setChain { hw with ops := hw.ops ++ [{ id := hw.nextId, part := p, core := core, ctx := ctx, gk := deadGang, launch := c.launch
                                         block := c.block, chain := some slot, kind := k }]
                     nextId := hw.nextId + 1 } core ctx slot { c with state := 1, op := some hw.nextId, test := test }

/-- The target of a chain's access (R297): the page gives the space and the permission; which peer or extent such a page means
no handle says, and it is an open value. need picks the permission. -/
def chainTarget (hw : Hw) (m : Tab Memory) (p ctx va : Nat) (need : Trans → Bool) : Except Nat Target × Hw :=
  if 2 ^ 57 ≤ va then (.error 0x07, hw) else
  let t := translate hw m p ctx va
  match t.1 with
  | .error _ => (.error 0x07, t.2)
  | .ok y =>
    if !need y then (.error 0x07, t.2)
    else if y.kind = 0 ∨ y.kind = 1 then (.ok { space := y.kind, pa := y.pa }, t.2)
    else
      let d := t.2.draw
      (.ok { space := y.kind, pa := y.pa, peer := if y.kind = 2 then d.1 % 2 ^ 17 else 0, tgt := if y.kind = 2 then 0 else d.1 % 1024 }, d.2)

/-- Whether every page that [va, fin) touches translates with the kind and permission of the first (R298). -/
def chainRange (m : Tab Memory) (p ctx kind fin : Nat) (need : Trans → Bool) : Nat → Nat → Hw → Bool × Hw
  | 0, _, hw => (true, hw)
  | k + 1, va, hw =>
    if fin ≤ va then (true, hw)
    else if 2 ^ 57 ≤ va then (false, hw)
    else
      let t := translate hw m p ctx va
      match t.1 with
      | .error _ => (false, t.2)
      | .ok y => if y.kind = kind ∧ need y then chainRange m p ctx kind fin need k (va - va % 2 ^ pageBits y.level + 2 ^ pageBits y.level) t.2 else (false, t.2)

/-- Starts the COPY of a chain block, after the checks of R298. -/
def chainCopy (hw : Hw) (m : Tab Memory) (p core ctx slot : Nat) (c : Chain) : Hw :=
  let v := c.w 7
  let out := bit 12 (c.w 2)
  let x : CopyArgs := { d := bits 18 0 (c.w 8), n := bits 15 0 v, m := bits 31 16 v, g := bits 63 32 v, p := bits 37 19 (c.w 8)
                        rot := bits 16 14 (c.w 2), out := out, obj := if bit 13 (c.w 2) then none else some (bits 56 38 (c.w 8)) }
  let ga := c.w 6
  let bytes := hdrScr (hw.hdr c.launch) * 32768
  let fin (h : Hw) (e : Option Nat) : Hw := setChain h core ctx slot (match e with | some k => c.fail k | none => c.follow (c.w 0))
  let far := (!x.empty && decide (bytes < x.d + x.reach x.p)) || match x.obj with | some o => decide (bytes < o + 16) | none => false
  let need (y : Trans) : Bool := if out then y.w else y.r
  if x.empty then
    if far then fin hw (some 0x05) else if (x.misaligned ga).isSome then fin hw (some 0x08) else fin hw none
  else
    let t := chainTarget hw m p ctx ga need
    match t.1 with
    | .error k => fin t.2 (some k)
    | .ok tg =>
      let r := chainRange m p ctx tg.space (ga + x.reach x.g) need (x.reach x.g / 65536 + 2) ga t.2
      if !r.1 then fin r.2 (some 0x07)
      else if tg.space = 4 then fin r.2 (some 0x06)
      else if far then fin r.2 (some 0x05)
      else if (x.misaligned ga).isSome then fin r.2 (some 0x08)
      else match linkDown (hw.part p).link tg with
        | some k => fin r.2 (some k.1)
        | none => chainOp r.2 p core ctx slot c false (.copy
            { blk := c.block, out := out, rot := x.rot, obj := x.obj, todo := tilePieces x { tg with pa := 0 } ga, overlap := x.overlap })

/-- Runs the operation of a chain block whose test passed (R297). -/
def chainRun (hw : Hw) (m : Tab Memory) (p core ctx slot : Nat) (c : Chain) : Hw :=
  let ga := c.w 6
  let bad (h : Hw) (k : Nat) : Hw := setChain h core ctx slot (c.fail k)
  match bits 3 0 (c.w 2) with
  | 0 => setChain hw core ctx slot (c.follow (c.w 0))
  | 1 => chainCopy hw m p core ctx slot c
  | op =>
    if ga % 8 ≠ 0 then bad hw 0x08
    else
      let t := chainTarget hw m p ctx ga fun y => if op = 2 then y.w else y.a
      match t.1 with
      | .error k => bad t.2 k
      | .ok tg =>
        let k := (hw.part p).link
        if op ≠ 2 ∧ (tg.space = 3 ∨ tg.space = 4 ∨ (tg.space = 1 ∧ !k.cxl)) then bad t.2 0x06
        else match linkDown k tg with
        | some x => bad t.2 x.1
        | none =>
          let e : Elem := { lane := 0, tgt := tg, va := ga, val := word (c.w 7) }
          chainOp t.2 p core ctx slot c false (if op = 2 then .store [e] 8 else .atomic [e] 0 .n64 [] false true)

/-- A chain acts on the outcome of its test (R297). -/
def chainTested (hw : Hw) (m : Tab Memory) (p core ctx slot : Nat) (c : Chain) (pass : Bool) : Hw :=
  let c' := { c with op := none, test := false }
  if pass then
    chainRun hw m p core ctx slot (if bits 6 5 (c.w 2) = 2 then { c' with state := 1, sig := c.sig &&& ~~~(word (c.w 5)) } else { c' with state := 1 })
  else match bits 11 10 (c.w 2) with
  | 0 => setChain hw core ctx slot { c' with state := if c.stop then 0 else 2 }
  | 1 => setChain hw core ctx slot (c'.follow (c.w 0))
  | _ => setChain hw core ctx slot (c'.follow (c.w 1))

/-- A chain evaluates the test of its block (R297): a word of device memory is read now, another through its link. -/
def chainEval (hw : Hw) (m : Tab Memory) (p core ctx slot : Nat) (c : Chain) : Hw :=
  match bits 6 5 (c.w 2) with
  | 0 => chainTested hw m p core ctx slot c true
  | 2 => chainTested hw m p core ctx slot c (chainTest c c.sig.toNat)
  | _ =>
    let ta := c.w 3
    if ta % 8 ≠ 0 then setChain hw core ctx slot (c.fail 0x08)
    else
      let t := chainTarget hw m p ctx ta fun y => y.r
      match t.1 with
      | .error k => setChain t.2 core ctx slot (c.fail k)
      | .ok tg =>
        if tg.space = 0 then chainTested t.2 m p core ctx slot c (chainTest c (rdNat m p tg.pa 8))
        else if tg.space = 4 then setChain t.2 core ctx slot (c.fail 0x06)
        else match linkDown (hw.part p).link tg with
        | some x => setChain t.2 core ctx slot (c.fail x.1)
        | none => chainOp t.2 p core ctx slot c true (.load [{ lane := 0, tgt := tg, va := ta }] .n64)

/-- Whether the operation a chain waits for is overlap, every W of it passed at every chiplet (R259, R297). -/
def chainOpOver (hw : Hw) (t : Nat) (o : Op) : Bool :=
  match o.kind with
  | .copy c => copyOver hw o.id c
  | .store es _ => es.all fun e => e.st == 2 || (e.st == 3 && decide (e.w + 2 ≤ t || e.tgt.space ≠ 0))
  | k => k.elems.all fun e => e.st == 2 || ((e.st == 1 || e.st == 3) && decide (e.w + 2 ≤ t || e.tgt.space ≠ 0))
/-- The cause with which the operation of a chain failed, if it did (R298). -/
def chainOpErr (o : Op) : Option Nat :=
  match o.kind with
  | .copy c => c.failed
  | k => (k.elems.find? fun e => e.st == 2).map fun e => (downCause e.tgt).1

/-- A chain goes on (R296-R299): it fetches its block, evaluates its test and starts its operation, or takes the end of an
operation. The chains of a bank that does not run only finish what they had started, and will test anew (R301). -/
def execChainBlock (core ctx slot : Nat) (s : State) : Out :=
  match corePart s.hw core, (s.hw.image core ctx).chains.look slot with
  | some p, some c =>
    if c.state ≠ 1 then .next s
    else match c.op with
    | some id =>
      match s.hw.op id with
      | none => .next (s.with (setChain s.hw core ctx slot (c.follow (c.w 0))))
      | some o =>
        if !chainOpOver s.hw s.time o then .next s
        else
          let h := s.hw.endOp id
          match chainOpErr o with
          | some k => .next (s.with (setChain h core ctx slot (c.fail k)))
          | none =>
            if c.test && !runsOn s.hw core ctx then .next (s.with (setChain h core ctx slot { c with op := none, test := false }))
            else if c.test then .next (s.with (chainTested h s.mem p core ctx slot c (chainTest c (elemVal o.kind.elems (fun v => v) 0).toNat)))
            else .next (s.with (setChain h core ctx slot (c.follow (c.w 0))))
    | none =>
      if !runsOn s.hw core ctx || !coreUp s.hw core then .next s
      else if c.stop then .next (s.with (setChain s.hw core ctx slot { c with state := 0 }))
      else
        let t := translate s.hw s.mem p ctx c.addr
        match t.1 with
        | .error _ => .next (s.with (setChain t.2 core ctx slot (c.fail 0x04)))
        | .ok y =>
          if y.kind ≠ 0 ∨ !y.r then .next (s.with (setChain t.2 core ctx slot (c.fail 0x04)))
          else
            let c' := { c with words := bytesWords 16 (rdBytes s.mem p y.pa 128) }
            if blockBad c'.w then .next (s.with (setChain t.2 core ctx slot (c'.fail 0x01)))
            else .next (s.with (chainEval t.2 s.mem p core ctx slot c'))
  | _, _ => .next s
/-- A waiting chain re-tests its word (R297). -/
def execChainRetest (core ctx slot : Nat) (s : State) : Out :=
  match corePart s.hw core, (s.hw.image core ctx).chains.look slot with
  | some p, some c =>
    if c.state = 2 ∧ runsOn s.hw core ctx ∧ coreUp s.hw core then .next (s.with (chainEval s.hw s.mem p core ctx slot c)) else .next s
  | _, _ => .next s

/-- cbrun (R299): the slots of ended chains are freed, and the lowest free slot is taken; it never stalls. -/
def execCbrun (f : Fields) (s : State) : Out :=
  issueF Forms.cbrun f s fun e r =>
    let a := (e.sa r).toNat
    if 2 ^ 57 ≤ a then .trap { cause := 0x07, info := 3, hit := e.act }
    else if a % 128 ≠ 0 then .trap { cause := 0x08, hit := e.act }
    else
      let h := e.hw.setImage e.core e.ctx fun i => { i with chains := i.chains.filter fun c => c.2.state == 1 || c.2.state == 2 }
      match (List.range 16).find? fun k => !(h.image e.core e.ctx).chains.has k with
      | none => .done (putS r (2 ^ 63)) h
      | some k => .done (putS r k) (setChain h e.core e.ctx k { block := e.g.block, launch := e.g.launch, addr := a, state := 1 })
/-- The chain that slot n means for the issuing block (R300). -/
def Env.chain (e : Env) (n : Nat) : Option Chain :=
  if 15 < n then none else match (e.hw.image e.core e.ctx).chains.look n with
  | some c => if c.block = e.g.block then some c else none
  | none => none
/-- cbsig (R300): a waiting chain re-tests at once, or with .stop ends. -/
def execCbsig (f : Fields) (s : State) : Out :=
  issueF Forms.cbsig f s fun e r =>
    let n := (e.sa r).toNat
    match e.chain n with
    | none => .done {} e.hw
    | some c =>
      let set (c : Chain) : Hw := setChain e.hw e.core e.ctx n c
      if f.op = 1 then .done {} (set (if c.state = 2 then { c with state := 0 } else if c.state = 1 then { c with stop := true } else c))
      else
        let c' := { c with sig := c.sig ||| e.sb r }
        if c.state = 2 then .done {} (chainEval (set c') e.s.mem e.part e.core e.ctx n c') else .done {} (set c')
/-- cbstat (R300). -/
def execCbstat (f : Fields) (s : State) : Out :=
  issueF Forms.cbstat f s fun e r =>
    match e.chain (e.sa r).toNat with
    | none => .done (putS r 0) e.hw
    | some c => .done (putS r (c.state * 2 ^ 62 + bits 56 7 c.addr * 2 ^ 7 + (if c.state = 3 then c.err else 0))) e.hw

end Sys2Proof.Machine
end

