-- ==== Sys2Proof/Machine/Float.lean ====
section
/-! DEFINITION. Floating-point and special-function instructions (09_float R172-R190). -/

namespace Sys2Proof.Machine

open Sys2Proof

/-! ## Arithmetic -/

/-- Rounds an exact result and adds the flag its computation raised. -/
def rndWith (t : Ty) (mode : Nat) (s : Word) (x : Val × Nat) : Rnd :=
  let r := (Ty.fmt t).round mode s x.1
  { r with fx := r.fx ||| x.2 }

/-- A two-source arithmetic form (R176, R177, R179): g gives the rounded result of a sub-element. -/
def fpTwo (fm : Form) (f : Fields) (s : State) (g : Nat → Nat → Word → Rnd) : Out :=
  fpForm fm f s fun e r l i st =>
    g (subElem (Ty.width f.ty) i (e.va r l)) (subElem (Ty.width f.ty) i (e.vb r f l)) st

/-- A one-source form: g gives the result of a sub-element. -/
def fpOne (fm : Form) (f : Fields) (s : State) (g : Nat → Word → Rnd) : Out :=
  fpForm fm f s fun e r l i st => g (subElem (Ty.width f.ty) i (e.va r l)) st

/-- The value of a code of a type. -/
def fv (t : Ty) (c : Nat) : Val := (Ty.fmt t).val c

/-- fadd (R176). -/
def execFadd (f : Fields) (s : State) : Out :=
  fpTwo Forms.fadd f s fun x y st => rndWith f.ty f.op st (exsumP [] [fv f.ty x, fv f.ty y])
/-- fsub (R176). -/
def execFsub (f : Fields) (s : State) : Out :=
  fpTwo Forms.fsub f s fun x y st => rndWith f.ty f.op st (exsumP [] [fv f.ty x, (fv f.ty y).negate])
/-- fmul (R176). -/
def execFmul (f : Fields) (s : State) : Out :=
  fpTwo Forms.fmul f s fun x y st =>
    let p := (fv f.ty x).mul (fv f.ty y)
    rndWith f.ty f.op st (p.1, if p.2 then fxInvalid else 0)
/-- fmin (R177). -/
def execFmin (f : Fields) (s : State) : Out := fpTwo Forms.fmin f s fun x y st => ⟨fminmax f.ty false x y, 0, st⟩
/-- fmax (R177). -/
def execFmax (f : Fields) (s : State) : Out := fpTwo Forms.fmax f s fun x y st => ⟨fminmax f.ty true x y, 0, st⟩
/-- A sign change of a code (R178): a NaN becomes canonical. -/
def signOp (t : Ty) (g : Bool → Bool) (x : Nat) : Nat :=
  let fm := Ty.fmt t
  if (fm.val x).isNan then fm.nan.getD 0
  else fm.sign (g (x.testBit (fm.bits - 1))) (x % 2 ^ (fm.bits - 1))
/-- fabs (R178). -/
def execFabs (f : Fields) (s : State) : Out := fpOne Forms.fabs f s fun x st => ⟨signOp f.ty (fun _ => false) x, 0, st⟩
/-- fneg (R178). -/
def execFneg (f : Fields) (s : State) : Out := fpOne Forms.fneg f s fun x st => ⟨signOp f.ty (fun b => !b) x, 0, st⟩
/-- x × 2^n for a value that is then rounded to a format of at most 64 bits. Past ±4,096 every n overflows, or underflows, alike. -/
def Val.scale (x : Val) (n : Int) : Val :=
  match x with
  | .fin s m e => .fin s m (e + max (-4096) (min 4096 n))
  | v => v
/-- fscale (R179): in L format n is the literal's low w bits as signed, or the sign-extended literal for w = 64. -/
def execFscale (f : Fields) (s : State) : Out :=
  fpForm Forms.fscale f s fun e r l i st =>
    let w := Ty.width f.ty
    let n : Int := if f.isL then sext f.lit (Nat.min w 32) else sext (subElem w i (e.vb r f l)) w
    rndWith f.ty f.op st ((fv f.ty (subElem w i (e.va r l))).scale n, 0)
/-- fma (R180): the addend is c in X and the old d in W. -/
def execFma (f : Fields) (s : State) : Out :=
  fpForm Forms.fma f s fun e r l i st =>
    let w := Ty.width f.ty
    let u := if f.isX then e.vc r l else e.vd r l
    rndWith f.ty f.op st (exsumP [(fv f.ty (subElem w i (e.va r l)), fv f.ty (subElem w i (e.vb r f l)))] [fv f.ty (subElem w i u)])
/-- fcmp (R181). -/
def execFcmp (f : Fields) (s : State) : Out :=
  lanewise Forms.fcmp f s fun e r l =>
    zipElems (Ty.width f.ty) (fun x y => maskOf (Ty.width f.ty) (fltPred f.op (fv f.ty x) (fv f.ty y))) (e.va r l) (e.vb r f l)
/-- fclass (R182). -/
def execFclass (f : Fields) (s : State) : Out :=
  lanewise Forms.fclass f s fun e r l =>
    mapElems (Ty.width f.ty) fun i => classOf (Ty.fmt f.ty) (fv f.ty (subElem (Ty.width f.ty) i (e.va r l)))
/-- The two .f32 results of a dot product of one lane (R183). -/
def dotLane (t : Ty) (mode : Nat) (a b u : Word) (st : Word) : Calc :=
  let w := Ty.width t
  let q := 64 / w / 2
  calcElems 2 (fun j st =>
    let terms := (List.range q).map fun i => (fv t (subElem w (j * q + i) a), fv t (subElem w (j * q + i) b))
    rndWith .f32 mode st (exsumP terms [fv .f32 (subElem 32 j u)])) st
/-- fdot (R183). -/
def execFdot (f : Fields) (s : State) : Out :=
  issueF Forms.fdot f s fun e r =>
    let cs := (e.work r).map fun l =>
      (l, dotLane f.ty f.op (e.va r l) (e.vb r f l) (if f.isX then e.vc r l else e.vd r l) (e.g.rng l))
    let ex := cs.map fun c => (c.1, c.2.fx)
    let rng := cs.map fun c => (c.1, c.2.s)
    .done (match r.sh.d with
      | .s => { s := cs.map fun c => (r.d, word (packElems 32 c.2.codes)), ex := ex, rng := rng }
      | _ => { v := cs.map fun c => (32 * r.d + c.1, word (packElems 32 c.2.codes)), ex := ex, rng := rng }) e.hw

/-! ## Conversions -/

/-- conv() of one element (R185, R156). -/
def convElem (st dt : Ty) (opt : Nat) (s : Word) (x : Nat) : Rnd :=
  if Ty.isFloat dt then (Ty.fmt dt).round opt s (Ty.val st x)
  else if Ty.isFloat st then toInt dt opt s (fv st x)
  else
    let v := Ty.int st x
    ⟨trunc (if opt = 1 then sat v dt else v) (Ty.width dt), 0, s⟩

/-- One lane of cvt (R184): the element results in ascending order, placed over the old d when narrowing. -/
def cvtLane (st dt : Ty) (opt k : Nat) (a old : Word) (s : Word) : Word × Nat × Word :=
  let ws := Ty.width st
  let wd := Ty.width dt
  let n := 64 / Nat.max ws wd
  let c := calcElems n (fun e s => convElem st dt opt s (subElem ws (if ws < wd then k * n + e else e) a)) s
  let v := if ws < wd then word (packElems wd c.codes)
    else mapElems wd fun i => if k * n ≤ i ∧ i < k * n + n then c.codes.getD (i - k * n) 0 else subElem wd i old
  (v, c.fx, c.s)
/-- cvt (R184, R185). -/
def execCvt (f : Fields) (s : State) : Out :=
  issueF Forms.cvt f s fun e r =>
    let st := Forms.srcTy (bits 5 0 r.b)
    let cs := (e.work r).map fun l => (l, cvtLane st f.ty f.op (bits 8 6 r.b) (e.va r l) (e.vd r l) (e.g.rng l))
    let ex := cs.map fun c => (c.1, c.2.2.1)
    let rng := cs.map fun c => (c.1, c.2.2.2)
    .done (match r.sh.d with
      | .s => { s := cs.map fun c => (r.d, c.2.1), ex := ex, rng := rng }
      | _ => { v := cs.map fun c => (32 * r.d + c.1, c.2.1), ex := ex, rng := rng }) e.hw
/-- frnd of one code (R186). -/
def frndElem (t : Ty) (mode : Nat) (st : Word) (x : Nat) : Rnd :=
  let fm := Ty.fmt t
  match fm.val x with
  | .fin neg n ex =>
    let i := roundInt mode st neg n ex
    let r := fm.round 0 st (.fin neg i.1 0)
    ⟨r.code, if i.2.1 then fxInexact else 0, i.2.2⟩
  | v => ⟨(fm.round 0 st v).code, 0, st⟩
/-- frnd (R186). -/
def execFrnd (f : Fields) (s : State) : Out := fpOne Forms.frnd f s fun x st => frndElem f.ty f.op st x

/-- The scale byte of a block of source values (R187). -/
def blockScale (emax : Int) (xs : List Val) : Nat :=
  if xs.any fun x => match x with | .fin .. => false | _ => true then 0xFF
  else
    let lg (x : Val) : Option Int := match x with
      | .fin _ n e => if n = 0 then none else some ((Nat.log2 n : Int) + e)
      | _ => none
    match (xs.filterMap lg) with
    | [] => 127
    | g :: gs =>
      let v := gs.foldl (fun (m : Int) x => if m < x then x else m) g - emax + 127
      if v < 0 then 0 else if 254 < v then 254 else v.toNat
/-- The element type of a block-scaled type (R145). -/
def mxElem (t : Ty) : Ty := if t = .mx8 then .e4m3 else .e2m1
/-- What cvtq writes (R187): the elements of a part, and their blocks' scales in register c. [DEDUCED, safe: log 34] -/
def cvtqWrites (f : Fields) (e : Env) (r : Regs) : Writes :=
  let st := Forms.srcTy (bits 13 8 f.imm)
  let k := bits 2 0 f.imm
  let ws := Ty.width st
  let et := mxElem f.ty
  let wd := Ty.width et
  let ea := 64 / ws
  let ed := 64 / wd
  let n := 32 * ea
  let src (i : Nat) : Val := fv st (subElem ws (i % ea) (e.g.v r.a (i / ea)))
  let scales := (List.range ea).map fun b => blockScale (if f.ty = .mx8 then 8 else 2) ((List.range 32).map fun i => src (32 * b + i))
  let first := k * n / ed
  let ls := e.acts.filter fun l => decide (first ≤ l) && decide (l < first + n / ed)
  let cs := ls.map fun l => (l, calcElems ed (fun i sg =>
    let j := l * ed + i - k * n
    let sc := scales.getD (j / 32) 0
    let x := src j
    if sc = 0xFF then ⟨0, (match x with | .fin .. => 0 | _ => fxInvalid), sg⟩
    else (Ty.fmt et).round f.op sg (x.scale (127 - (sc : Int)))) (e.g.rng l))
  let nScale := 32 * ed / 32 / 8
  let b0 := k * n / 32
  let scl (l : Nat) : Word := if l < nScale then
      mapElems 8 fun i => let b := 8 * l + i; if b0 ≤ b ∧ b < b0 + ea then scales.getD (b - b0) 0 else subElem 8 i (e.g.v r.c l)
    else 0
  { v := (cs.map fun c => (32 * r.d + c.1, word (packElems wd c.2.codes))) ++ e.acts.map fun l => (32 * r.c + l, scl l)
    ex := cs.map fun c => (c.1, c.2.fx), rng := cs.map fun c => (c.1, c.2.s) }

/-- The value of a scaled element (R145). -/
def mxVal (t : Ty) (scale code : Nat) : Val :=
  if scale = 0xFF then .nan else (fv (mxElem t) code).scale ((scale : Int) - 127)

/-- cvtq (R187). -/
def execCvtq (f : Fields) (s : State) : Out := issueF Forms.cvtq f s fun e r => .done (cvtqWrites f e r) e.hw

/-- What cvtdq writes (R188): the elements of a part, each with the scale of its block. -/
def cvtdqWrites (f : Fields) (e : Env) (r : Regs) : Writes :=
  let st := Forms.srcTy (bits 13 8 f.imm)
  let k := bits 2 0 f.imm
  let wd := Ty.width f.ty
  let wsrc := Ty.width (mxElem st)
  let ed := 64 / wd
  let es := 64 / wsrc
  let n := 32 * ed
  let cs := e.acts.map fun l => (l, calcElems ed (fun i sg =>
    let j := k * n + ed * l + i
    let b := j / 32
    let sc := subElem 8 (b % 8) (e.g.v r.c (b / 8))
    (Ty.fmt f.ty).round f.op sg (mxVal st sc (subElem wsrc (j % es) (e.g.v r.a (j / es))))) (e.g.rng l))
  { v := cs.map fun c => (32 * r.d + c.1, word (packElems wd c.2.codes))
    ex := cs.map fun c => (c.1, c.2.fx), rng := cs.map fun c => (c.1, c.2.s) }
/-- cvtdq (R188). -/
def execCvtdq (f : Fields) (s : State) : Out := issueF Forms.cvtdq f s fun e r => .done (cvtdqWrites f e r) e.hw

/-! ## Roots and quotients -/

/-- fdiv of values (R189, Table FP-4): an exact or sticky quotient, and the flag raised. -/
def divVal (x y : Val) : Val × Nat :=
  match x, y with
  | .nan, _ => (.nan, 0)
  | _, .nan => (.nan, 0)
  | .inf _, .inf _ => (.nan, fxInvalid)
  | .inf a, .fin b _ _ => (.inf (a != b), 0)
  | .fin a _ _, .inf b => (.fin (a != b) 0 0, 0)
  | .fin a n e, .fin b k g =>
    if k = 0 then (if n = 0 then (.nan, fxInvalid) else (.inf (a != b), fxDivZero))
    else if n = 0 then (.fin (a != b) 0 0, 0)
    else
      let d := divApprox n k
      (.fin (a != b) d.1 (d.2 + e - g), 0)
/-- fdiv (R189). -/
def execFdiv (f : Fields) (s : State) : Out :=
  fpTwo Forms.fdiv f s fun x y st => rndWith f.ty f.op st (divVal (fv f.ty x) (fv f.ty y))
/-- The square root of a value (R189, Table FP-4). -/
def sqrtVal (x : Val) : Val × Nat :=
  match x with
  | .nan => (.nan, 0)
  | .inf s => if s then (.nan, fxInvalid) else (x, 0)
  | .fin s n e => if n = 0 then (x, 0) else if s then (.nan, fxInvalid) else let r := sqrtApprox n e; (.fin false r.1 r.2, 0)
/-- fsqrt (R189). -/
def execFsqrt (f : Fields) (s : State) : Out := fpOne Forms.fsqrt f s fun x st => rndWith f.ty f.op st (sqrtVal (fv f.ty x))

/-! ## Transcendental functions, in fixed point with 640 fraction bits -/

/-- Fraction bits of the fixed-point values below. -/
def fxp : Nat := 640
/-- ln 2 in fixed point. -/
def fxLn2 : Nat := 3162442850577000144542819255265044123884198300717798677536341180773118696995660441338367561063358767323571958122307070903190084685977847936741854327993944726832264493303953239866611699627604094
/-- pi with 960 fraction bits. -/
def piFix : Nat := 30615806905139915665663922169602170975562277536238047750101850773809220656895262491390727005986389620851822782464924582965618464916339145232158588030744978607859272054131815091970856514828501308908953848378773103296859656007609461646780962398367491915723054701869866215387751966203169405974
/-- Sum of a power series: term starts at t and is multiplied by x / (i+1) ... given by next. -/
def series (next : Nat → Int → Int) : Nat → Nat → Int → Int
  | 0, _, _ => 0
  | n + 1, i, t => t + series next n (i + 1) (next i t)
/-- e^x for 0 ≤ x < 1 in fixed point. -/
def fxExp (x : Int) : Int := series (fun i t => t * x / (2 ^ fxp : Int) / ((i : Int) + 1)) 130 0 (2 ^ fxp)
/-- 2 atanh z in fixed point, |z| ≤ 1/3. -/
def fxAtanh2 (z : Int) : Int :=
  let z2 := z * z / (2 ^ fxp : Int)
  ((List.range 210).foldl (fun (a : Int × Int) (i : Nat) => (a.1 + a.2 / (2 * (i : Int) + 1), a.2 * z2 / (2 ^ fxp : Int))) (0, z)).1 * 2
/-- sin r in fixed point, |r| ≤ 1. -/
def fxSin (r : Int) : Int :=
  let r2 := r * r / (2 ^ fxp : Int)
  series (fun i t => -(t * r2 / (2 ^ fxp : Int) / ((2 * (i : Int) + 2) * (2 * (i : Int) + 3)))) 80 0 r
/-- cos r in fixed point, |r| ≤ 1. -/
def fxCos (r : Int) : Int :=
  let r2 := r * r / (2 ^ fxp : Int)
  series (fun i t => -(t * r2 / (2 ^ fxp : Int) / ((2 * (i : Int) + 1) * (2 * (i : Int) + 2)))) 80 0 (2 ^ fxp)
/-- A fixed-point result as a value that no format represents: the last bit is sticky. -/
def fxVal (neg : Bool) (x : Int) : Val := .fin (neg != decide (x < 0)) (2 * x.natAbs + 1) (-((fxp : Int) + 1))
/-- n × 2^e in fixed point, rounded down. -/
def toFix (n : Nat) (e : Int) : Int :=
  let k := e + fxp
  if k ≥ 0 then ((n * 2 ^ k.toNat : Nat) : Int) else ((n / 2 ^ (-k).toNat : Nat) : Int)

/-- 2^x: exact for an integer x, else with a sticky bit. -/
def exp2Val (neg : Bool) (n : Nat) (e : Int) : Val :=
  if e ≥ 0 ∨ n % 2 ^ (-e).toNat = 0 then
    let k : Nat := if e ≥ 0 then (if (16 : Int) < e then 4096 else n * 2 ^ e.toNat) else n / 2 ^ (-e).toNat
    let k := Nat.min k 4096
    .fin false 1 (if neg then -(k : Int) else k)
  else
    let ip := n / 2 ^ (-e).toNat
    if 4096 ≤ ip then .fin false 3 (if neg then -4097 else 4096)
    else
      let x := if neg then -(toFix n e) - 1 else toFix n e
      let i := x / (2 ^ fxp : Int)
      let fr := x % (2 ^ fxp : Int)
      let v := fxExp (fr * (fxLn2 : Int) / (2 ^ fxp : Int))
      (fxVal false v).scale i
/-- log2 x for x > 0. -/
def log2Val (n : Nat) (e : Int) : Val :=
  let k := Nat.log2 n
  let ex : Int := (k : Int) + e
  if n = 2 ^ k then .ofInt ex
  else
    let m := toFix n (-(k : Int))
    let z := (m - 2 ^ fxp) * 2 ^ fxp / (m + 2 ^ fxp)
    fxVal false (ex * 2 ^ fxp + fxAtanh2 z * 2 ^ fxp / (fxLn2 : Int))
/-- The quadrant and remainder of an argument: x = k π/2 + r. -/
def reducePi (n : Nat) (e : Int) : Nat × Int :=
  let x : Int := if e + 960 ≥ 0 then ((n * 2 ^ (e + 960).toNat : Nat) : Int) else ((n / 2 ^ (-(e + 960)).toNat : Nat) : Int)
  let half : Int := (piFix : Int) / 2
  let k := (2 * x + half) / (2 * half)
  (((k % 4).toNat), (x - k * half) / (2 ^ 320 : Int))
/-- sin x of a non-zero finite x. -/
def sinVal (neg : Bool) (n : Nat) (e : Int) : Val :=
  let q := reducePi n e
  fxVal neg (match q.1 with | 0 => fxSin q.2 | 1 => fxCos q.2 | 2 => -(fxSin q.2) | _ => -(fxCos q.2))
/-- cos x of a non-zero finite x. -/
def cosVal (n : Nat) (e : Int) : Val :=
  let q := reducePi n e
  fxVal false (match q.1 with | 0 => fxCos q.2 | 1 => -(fxSin q.2) | 2 => -(fxCos q.2) | _ => fxSin q.2)
/-- tanh x of a non-zero finite x: x − x³/3 + 2x⁵/15 below 2^−40, else (1 − u)/(1 + u) with u = e^(−2x), which is below 1. -/
def tanhVal (neg : Bool) (n : Nat) (e : Int) : Val :=
  let ex : Int := (Nat.log2 n : Int) + e
  if ex < -40 then
    let x := toFix n e
    let x2 := x * x / (2 ^ fxp : Int)
    let x3 := x2 * x / (2 ^ fxp : Int)
    fxVal neg (x - x3 / 3 + x3 * x2 / (2 ^ fxp : Int) * 2 / 15)
  else if 8 ≤ ex then fxVal neg (2 ^ fxp - 1)
  else
    let y := 2 * toFix n e * (2 ^ fxp : Int) / (fxLn2 : Int)
    let i := y / (2 ^ fxp : Int)
    let fr := y % (2 ^ fxp : Int)
    let ev := fxExp (fr * (fxLn2 : Int) / (2 ^ fxp : Int))
    let u := (2 ^ (2 * fxp) : Int) / ev / (2 ^ i.toNat : Int)
    fxVal neg (min ((2 ^ fxp - u) * 2 ^ fxp / (2 ^ fxp + u)) (2 ^ fxp - 1))

/-- Whether a code lies within b units in the last place of Y (R190). -/
def within (fm : Fmt) (b : Nat) (y : Val) (code : Nat) : Bool :=
  match y with
  | .fin _ n e =>
    let ey : Int := (Nat.log2 n : Int) + e
    let u : Int := (if ey < 1 - (fm.bias : Int) then 1 - (fm.bias : Int) else ey) - fm.m
    let g := leastExp u [y, fm.val code]
    decide (((fm.val code).scaled g - y.scaled g).natAbs ≤ b * 2 ^ (u - g).toNat)
  | _ => false

/-- The .f32 result of a transcendental form for an exact Y: Y itself where it is representable, else one of the results the
bound b admits, the same for every run of one input (R190). -/
def pickF32 (form b inp : Nat) (y : Val) : Rnd :=
  let fm := Ty.fmt .f32
  let rz := fm.round 1 0 y
  if rz.fx = 0 then ⟨rz.code, 0, 0⟩
  else
    let exceeds := (y.withSign false).cmp (fm.val fm.top)
    if 0 < exceeds then ⟨fm.sign y.neg (fm.top + 1), fxOverflow + fxInexact, 0⟩
    else
      let base : Int := (rz.code % 2 ^ 31 : Nat)
      let cand : List Nat := (List.range 9).filterMap fun (j : Nat) =>
        let i : Int := base + j - 4
        let neg := if i < 0 then !y.neg else y.neg
        if fm.top < i.natAbs then none else some (fm.sign neg i.natAbs)
      let ok := (cand ++ [fm.sign (!y.neg) 0]).filter (within fm b y)
      let c := ok.getD (Config.f32Pick form inp % ok.length) rz.code
      ⟨c, fxInexact + (if c % 2 ^ 31 < 2 ^ 23 then fxUnderflow else 0), 0⟩

/-- The result of a transcendental form: .f16 and .bf16 correctly rounded, .f32 within the bound (R190). -/
def transc (t : Ty) (form b inp : Nat) (st : Word) (y : Val) : Rnd :=
  match y, t with
  | .fin _ n _, .f32 => if n = 0 then rndWith t 0 st (y, 0) else { pickF32 form b inp y with s := st }
  | _, _ => rndWith t 0 st (y, 0)

/-- frcp (R190, Table FP-4). -/
def execFrcp (f : Fields) (s : State) : Out :=
  fpOne Forms.frcp f s fun x st =>
    let d := divVal Val.one (fv f.ty x)
    if d.2 = 0 then transc f.ty 0 1 x st d.1 else rndWith f.ty 0 st d
/-- frsq (R190). -/
def execFrsq (f : Fields) (s : State) : Out :=
  fpOne Forms.frsq f s fun x st =>
    match fv f.ty x with
    | .nan => rndWith f.ty 0 st (.nan, 0)
    | .inf neg => if neg then rndWith f.ty 0 st (.nan, fxInvalid) else rndWith f.ty 0 st (.fin false 0 0, 0)
    | .fin neg n e =>
      if n = 0 then rndWith f.ty 0 st (.inf neg, fxDivZero)
      else if neg then rndWith f.ty 0 st (.nan, fxInvalid)
      else
        let d := divApprox 1 n
        let r := sqrtApprox d.1 (d.2 - e)
        transc f.ty 1 1 x st (.fin false r.1 r.2)
/-- fexp2 (R190). -/
def execFexp2 (f : Fields) (s : State) : Out :=
  fpOne Forms.fexp2 f s fun x st =>
    match fv f.ty x with
    | .nan => rndWith f.ty 0 st (.nan, 0)
    | .inf neg => rndWith f.ty 0 st (if neg then .fin false 0 0 else .inf false, 0)
    | .fin neg n e => transc f.ty 2 2 x st (if n = 0 then Val.one else exp2Val neg n e)
/-- flog2 (R190). -/
def execFlog2 (f : Fields) (s : State) : Out :=
  fpOne Forms.flog2 f s fun x st =>
    match fv f.ty x with
    | .nan => rndWith f.ty 0 st (.nan, 0)
    | .inf neg => if neg then rndWith f.ty 0 st (.nan, fxInvalid) else rndWith f.ty 0 st (.inf false, 0)
    | .fin neg n e =>
      if n = 0 then rndWith f.ty 0 st (.inf true, fxDivZero)
      else if neg then rndWith f.ty 0 st (.nan, fxInvalid)
      else transc f.ty 3 2 x st (log2Val n e)
/-- fsin (R190). -/
def execFsin (f : Fields) (s : State) : Out :=
  fpOne Forms.fsin f s fun x st =>
    match fv f.ty x with
    | .nan => rndWith f.ty 0 st (.nan, 0)
    | .inf _ => rndWith f.ty 0 st (.nan, fxInvalid)
    | .fin neg n e => transc f.ty 4 2 x st (if n = 0 then .fin neg 0 0 else sinVal neg n e)
/-- fcos (R190). -/
def execFcos (f : Fields) (s : State) : Out :=
  fpOne Forms.fcos f s fun x st =>
    match fv f.ty x with
    | .nan => rndWith f.ty 0 st (.nan, 0)
    | .inf _ => rndWith f.ty 0 st (.nan, fxInvalid)
    | .fin _ n e => transc f.ty 5 2 x st (if n = 0 then Val.one else cosVal n e)
/-- ftanh (R190). -/
def execFtanh (f : Fields) (s : State) : Out :=
  fpOne Forms.ftanh f s fun x st =>
    match fv f.ty x with
    | .nan => rndWith f.ty 0 st (.nan, 0)
    | .inf neg => transc f.ty 6 2 x st (.fin neg 1 0)
    | .fin neg n e => transc f.ty 6 2 x st (if n = 0 then .fin neg 0 0 else tanhVal neg n e)

end Sys2Proof.Machine
end

