-- ==== Sys2Proof/Machine/Matrix.lean ====
section
/-! DEFINITION. Matrix passes, accumulator tiles, their order and ownership (16_matrix R302-R323). -/

namespace Sys2Proof.Machine

open Sys2Proof

/-! ## Tiles -/

/-- Element (i, j) of physical tile t of a core. -/
def tileElem (c : Core) (t i j : Nat) : BitVec 32 := c.tiles.val 0 (1024 * t + 32 * i + j)
/-- Stores elements of a tile, as (32 × i + j, value). -/
def tileStore (c : Core) (t : Nat) (xs : List (Nat × BitVec 32)) : Core :=
  { c with tiles := xs.foldl (fun m x => m.put 0 (1024 * t + x.1) x.2) c.tiles }
/-- Makes every element of a tile +0. -/
def tileZero (c : Core) (t : Nat) : Core := { c with tiles := c.tiles.filter fun x => x.1 / 1024 != t }
/-- The tag of a tile (R314). -/
def tagOf (hw : Hw) (core t : Nat) : AccTag := (hw.core core).acctag.val {} t
/-- Whether a use of tile t by context c raises cause 0x0C (R315). -/
def tileForeign (hw : Hw) (core c t : Nat) : Bool := let x := tagOf hw core t; x.state != 0 && !(x.state == 1 && x.owner == c)
/-- A use of a tile takes it when it is free (R315). -/
def takeTile (hw : Hw) (core c t : Nat) : Hw :=
  if (tagOf hw core t).state = 0 then hw.setCore core fun k => setTag (tileZero k t) t fun x => { x with state := 1, owner := c, fresh := false } else hw

/-! ## The order of a tile -/

/-- The physical tiles an operation still has to be applied to (R306). -/
def OpKind.tiles : OpKind → List Nat
  | .pass m => m.todo.map (·.2) ++ m.ready.map (·.1)
  | .tile ts _ => ts
  | .atrans x => if x.load || !x.begun then [x.tile] else []
  | _ => []
/-- Whether an earlier operation on a tile has not been applied (R306). -/
def tileBusy (hw : Hw) (core t id : Nat) : Bool :=
  hw.ops.any fun o => o.core == core && decide (o.id < id) && o.kind.tiles.contains t
/-- Entries of the reservation table that a core holds (R303). -/
def reservations (hw : Hw) (core : Nat) : Nat :=
  (hw.ops.filter fun o => o.core == core && (match o.kind with
    | .pass m => !m.todo.isEmpty
    | .atrans x => !x.begun
    | _ => false)).length
/-- Whether the reservation table has no entry for a core (R303). -/
def reservesFull (hw : Hw) (core : Nat) : Bool :=
  decide (32 ≤ reservations hw core) ||
    decide (64 ≤ ((List.range 4).map fun i => reservations hw (4 * coreCluster core + i)).sum)

/-- The values a waiting form writes into vector registers, by (32 × register + lane) (R319). -/
def areadValues (c : Core) (t d : Nat) (ty : Ty) (mode : Nat) (act : Lanes) : List (Nat × Word) :=
  let n := 64 / Ty.width ty
  (List.range (32 / n)).flatMap fun m => (lanes act).map fun l => (32 * (d + m) + l,
    word (packElems (Ty.width ty) ((List.range n).map fun e => ((Ty.fmt ty).round mode 0 (fv .f32 (tileElem c t l (n * m + e)).toNat)).code)))
/-- Applies a form to its tiles (R317-R319). -/
def applyTile (c : Nat) (k : Core) (ts : List Nat) (x : TileOp) : Core :=
  match x with
  | .azero => ts.foldl tileZero k
  | .arel => ts.foldl (fun k t => setTag k t fun a =>
      if a.state = 0 then a else if a.owner = c then { a with state := 0, fresh := false } else { a with fresh := true }) k
  | .ascale mode act r s u =>
    ts.foldl (fun k t => tileStore k t ((lanes act).flatMap fun i => (List.range 32).map fun j =>
      let x := (fv .f32 (tileElem k t i j).toNat).mul (fv .f32 (r.getD i 0))
      let y := x.1.mul (fv .f32 (s.getD j 0))
      (32 * i + j, BitVec.ofNat 32 ((Ty.fmt .f32).round mode 0 (exsum [y.1, fv .f32 (u.getD j 0)] (x.1.isNan || y.1.isNan) (x.2 || y.2)).1).code))) k
  | .aread .. => k
  | .awrite ty act vals =>
    ts.foldl (fun k t => tileStore k t ((lanes act).flatMap fun i => (List.range 32).map fun j =>
      (32 * i + j, BitVec.ofNat 32 ((Ty.fmt .f32).round 0 0 (fv ty ((vals.getD i []).getD j 0))).code))) k

/-- A form whose turn has come is applied, and its path goes on (R306). -/
def landTile (s : State) (o : Op) (ts : List Nat) (k : TileOp) : State :=
  let h0 := s.hw.endOp o.id
  let h1 := match k with | .arel => h0 | _ => ts.foldl (fun h t => takeTile h o.core o.ctx t) h0
  let h2 := noteTiles o s.hw (h1.setCore o.core fun c => applyTile o.ctx c ts k)
  match (match h2.gangs.look o.gk with | some g => waiterOf g o.id | none => none) with
  | some p => match envAt (s.with h2) ⟨gkCore o.gk, gkCtx o.gk, gkSlot o.gk, p⟩ with
    | some e => match k with
      | .aread d ty mode act => s.with (e.retireParked { v := areadValues (h2.core o.core) (ts.headD 0) d ty mode act } h2)
      | .awrite ty .. => s.with (e.retireParked { relV := match e.q.form with
          | some r => if r.lua then (List.range (Forms.tileRegs' ty)).map (r.a + ·) else []
          | none => [] } h2)
      | _ => s.with (e.retireParked {} h2)
    | none => s.with h2
  | none => s.with h2
/-- Applies every waiting form of a core whose turn has come, in their order (R306). -/
def runTiles (core : Nat) : Nat → State → State
  | 0, s => s
  | n + 1, s =>
    match s.hw.ops.find? fun o => o.core == core && (match o.kind with | .tile ts _ => ts.all fun t => !tileBusy s.hw core t o.id | _ => false) with
    | some o => match o.kind with
      | .tile ts k => runTiles core n (landTile s o ts k)
      | _ => s
    | none => s

/-- The fault address of a tile beyond a block's allotment (R311). -/
def tileFault (n : Nat) : Nat := 0xE00000000000FF00 + n
/-- Cause 0x0C for tile n of a block (R315). -/
def foreignTrap (t n : Nat) (hit : Lanes) : Trap := { cause := 0x0C, info := t, fault := 0xE000000000000000 + 256 * t + n, hit := hit }
/-- The traps of a form on tiles ns of the block: beyond ACCN, then where use says so ownership (R317-R319). -/
def tileTrap (e : Env) (ns : List Nat) (use : Bool) : Option Trap :=
  let b := e.blk
  match ns.find? fun n => decide (b.accn ≤ n) with
  | some n => some { cause := 0x05, fault := tileFault n, hit := e.act }
  | none => match (if use then ns.find? fun n => tileForeign e.hw e.core e.ctx (b.accb + n) else none) with
    | some n => some (foreignTrap (b.accb + n) n e.act)
    | none => none
/-- A form that applies to tiles in their order, the path waiting for it, ready but unable to issue (R306); the registers an aread is to
write have their room from its issue on (R319). -/
def tileForm (e : Env) (r : Regs) (ns : List Nat) (use : Bool) (k : TileOp) : Res :=
  match tileTrap e ns use with
  | some t => .trap t
  | none =>
    let ts := ns.map (e.blk.accb + ·)
    if ts.isEmpty then .done {} e.hw
    else
      let h := if use then ts.foldl (fun h t => takeTile h e.core e.ctx t) e.hw else e.hw
      if ts.any fun t => tileBusy h e.core t h.nextId then
        let op := { e.newOp { r with fsel := 0 } (.tile ts k) with id := h.nextId }
        let wait (h : Hw) : Res := .stay (e.park r .ready (.op op.id) { h with ops := h.ops ++ [op], nextId := h.nextId + 1 })
        match k with
        | .aread d ty .. =>
          let ds := (List.range (Forms.tileRegs' ty)).map (d + ·)
          match allocate h e.core e.ctx (e.newV h ds) 0 (ds.map (spillKeyV e.slot)) with
          | some h => wait h
          | none => .trap e.spill13
        | _ => wait h
      else
        let h' := h.setCore e.core fun c => applyTile e.ctx c ts k
        match k with
        | .aread d ty mode act => .done { v := areadValues (h'.core e.core) (ts.headD 0) d ty mode act } h'
        | .awrite ty .. => .done { relV := if r.lua then (List.range (Forms.tileRegs' ty)).map (r.a + ·) else [] } h'
        | _ => .done {} h'

/-- The tiles T to U. -/
def rangeTiles (f : Fields) : List Nat := (List.range (f.a.toNat + 1 - f.d.toNat)).map (f.d.toNat + ·)
/-- azero (R317). -/
def execAzero (f : Fields) (s : State) : Out := issueF Forms.azero f s fun e r => tileForm e r (rangeTiles f) true .azero
/-- arel (R317). -/
def execArel (f : Fields) (s : State) : Out := issueF Forms.arel f s fun e r => tileForm e r (rangeTiles f) false .arel
/-- The low word of operand field n of a class, in lane l. -/
def low32 (e : Env) (k : Kind) (n l : Nat) : Nat := (e.reg k n l).toNat % 2 ^ 32
/-- ascale (R318). -/
def execAscale (f : Fields) (s : State) : Out :=
  issueF Forms.ascale f s fun e r =>
    let col (k : Kind) (n : Nat) : List Nat := allLanes.map fun l => if k = .none then 0 else low32 e k n l
    tileForm e r [r.d] true (.ascale f.op e.act (col r.sh.a r.a) (col r.sh.b r.b) (col r.sh.c r.c))
/-- aread (R319). -/
def execAread (f : Fields) (s : State) : Out :=
  issueF Forms.aread f s fun e r => tileForm e r [r.a] true (.aread r.d f.ty f.op e.act)
/-- awrite (R319). -/
def execAwrite (f : Fields) (s : State) : Out :=
  issueF Forms.awrite f s fun e r =>
    let w := Ty.width f.ty
    let n := 64 / w
    let row (l : Nat) : List Nat := (List.range 32).map fun j => subElem w (j % n) (e.g.v (r.a + j / n) l)
    tileForm e r [r.d] true (.awrite f.ty e.act (allLanes.map fun l => if inLanes e.act l then row l else []))

/-! ## Descriptors and operands -/

/-- The fields of a descriptor (R308). -/
def dRot (d : Word) : Nat := bits 59 57 d.toNat
/-- TP, MT or ST. -/
def dTp (d : Word) : Nat := bits 56 38 d.toNat
/-- PITCH, MP or SB. -/
def dPitch (d : Word) : Nat := bits 37 19 d.toNat
/-- BASE, MB or SA. -/
def dBase (d : Word) : Nat := bits 18 0 d.toNat

/-- Whether lanes of act(p) lie in slice q. -/
def sliceAct (act : Lanes) (q : Nat) : Bool := (List.range 8).any fun i => inLanes act (8 * q + i)
/-- K of a pass form. -/
def Pass.k (m : Pass) : Nat := 32 * m.kg
/-- The element type whose codes the operands hold. -/
def Pass.elem (m : Pass) : Ty := match m.ty with | .mx8 => .e4m3 | .mx4 => .e2m1 | t => t
/-- Elements in a row of A (R309). -/
def Pass.aLen (m : Pass) : Nat := if m.form = 1 then m.k / 2 else m.k

/-- The unrotated byte ranges (first, length, quarter) that a pass form reads from scratchpad (R309); quarter 4 means all. -/
def Pass.ranges (m : Pass) (qs : List Nat) : List (Nat × Nat × Nat) :=
  let w := Ty.width m.elem
  let a := if m.areg.isSome then [] else qs.flatMap fun q => (List.range 32).map fun i => (dBase m.da + q * dTp m.da + i * dPitch m.da, m.aLen * w / 8, q)
  let b := if m.bt then (List.range m.k).map fun k => (dBase m.db + k * dPitch m.db, 32 * w / 8, 4)
    else (List.range 32).map fun j => (dBase m.db + j * dPitch m.db, m.k * w / 8, 4)
  let c := match m.form with
    | 1 => qs.flatMap fun q => (List.range 32).map fun i => (dBase m.dc + q * dTp m.dc + i * dPitch m.dc, 4 * m.kg, q)
    | 2 => (qs.map fun q => (dBase m.dc + q * dTp m.dc, 32 * m.kg, q)) ++ [(dPitch m.dc, 32 * m.kg, 4)]
    | _ => []
  a ++ b ++ c
/-- Scratchpad bytes one quarter operation reads (R312). -/
def Pass.bytes (m : Pass) : Nat := ((m.ranges [0]).map (·.2.1)).sum

/-- A byte of the block's scratchpad as a pass reads it at its grant: as it stands, or taken earlier where use says so. -/
def Pass.byte (m : Pass) (b : Block) (use : Nat) (y : Nat) : Nat :=
  match m.cap.look y with
  | some v => if bit (y / 4) use then v.toNat else (b.scr.val 0 y).toNat
  | none => (b.scr.val 0 y).toNat
/-- Element e of a row of elements at unrotated offset x, with rotation k (R309). -/
def Pass.code (m : Pass) (b : Block) (use x k e : Nat) : Nat :=
  let w := Ty.width m.elem
  if w = 4 then bits (4 * (e % 2) + 3) (4 * (e % 2)) (m.byte b use (swz (x + e / 2) k))
  else ((List.range (w / 8)).map fun i => m.byte b use (swz (x + e * (w / 8) + i) k) * 256 ^ i).sum
/-- Element h of row i of the A operand of quarter q (R309). -/
def Pass.aCode (m : Pass) (b : Block) (use q i h : Nat) : Nat :=
  match m.areg with
  | some t =>
    let n := 64 / Ty.width m.elem
    subElem (Ty.width m.elem) (h % n) (t.val 0 (32 * (i / 8 * (m.k / n) + h / n) + 8 * q + i % 8))
  | none => m.code b use (dBase m.da + q * dTp m.da + i * dPitch m.da) (dRot m.da) h
/-- Element (k, j) of the B operand (R309). -/
def Pass.bCode (m : Pass) (b : Block) (use k j : Nat) : Nat :=
  if m.bt then m.code b use (dBase m.db + k * dPitch m.db) (dRot m.db) j else m.code b use (dBase m.db + j * dPitch m.db) (dRot m.db) k
/-- pos(h) of row i of mmas (R309, R310). -/
def Pass.pos (m : Pass) (b : Block) (use q i h : Nat) : Nat :=
  let u := h / 2
  let nib := m.byte b use (dBase m.dc + q * dTp m.dc + i * dPitch m.dc + u / 2) / 16 ^ (u % 2) % 16
  if h % 2 = 0 then nib % 4 else nib / 4 % 4
/-- The two factors of term h of K-group g (R310). -/
def Pass.term (m : Pass) (b : Block) (use q i j g h : Nat) : Val × Val :=
  let t := m.elem
  match m.form with
  | 1 =>
    let x := 16 * g + h
    (fv t (m.aCode b use q i x), fv t (m.bCode b use (4 * (x / 2) + m.pos b use q i x) j))
  | 2 =>
    let k := 32 * g + h
    (mxVal m.ty (m.byte b use (dBase m.dc + q * dTp m.dc + 32 * g + i)) (m.aCode b use q i k),
     mxVal m.ty (m.byte b use (dPitch m.dc + 32 * g + j)) (m.bCode b use k j))
  | _ => let k := 32 * g + h; (fv t (m.aCode b use q i k), fv t (m.bCode b use k j))
/-- Element (i, j) of a quarter operation's result (R158, R310). -/
def Pass.result (m : Pass) (b : Block) (use q i j : Nat) (old : BitVec 32) : BitVec 32 :=
  let f := Ty.fmt .f32
  BitVec.ofNat 32 ((List.range m.kg).foldl (fun acc g =>
    let ts := (List.range (if m.form = 1 then 16 else 32)).map (m.term b use q i j g)
    let t := (f.round 0 0 (exsumP ts []).1).code
    (f.round 0 0 (exsum [f.val acc, f.val t] false false).1).code) (if m.z then 0 else old.toNat))
/-- The elements a quarter operation leaves in its tile (R310). -/
def Pass.quarter (m : Pass) (b : Block) (use q : Nat) (old : Nat → Nat → BitVec 32) : List (Nat × BitVec 32) :=
  (List.range 32).flatMap fun i =>
    if m.areg.isSome && !inLanes m.act (8 * q + i % 8) then [] else (List.range 32).map fun j => (32 * i + j, m.result b use q i j (old i j))

/-! ## The pass forms -/

/-- The first misaligned value of R311 item 2, if any. -/
def misaligned16 (vs : List Nat) : Option Nat := vs.find? fun v => v % 16 != 0
/-- The traps of R311 items 2 and 3: over byte ranges, and descriptors whose rotation is undefined. -/
def scratchTrap (e : Env) (vs : List Nat) (ranges : List (Nat × Nat × Nat)) (rots : List (Word × Nat)) (obj : Option Nat) : Option Trap :=
  let lim := e.scrBytes
  match misaligned16 (vs ++ obj.toList) with
  | some v => some { cause := 0x08, fault := scrFault v, hit := e.act }
  | none =>
    let far := (ranges.filterMap fun x => if lim < x.1 + x.2.1 then some (Nat.max x.1 lim, x.2.2) else none) ++
      (rots.filterMap fun d => if 4 < dRot d.1 then some (dBase d.1, d.2) else none) ++
      (match obj with | some o => if lim < o + 16 then [(o, 4)] else [] | none => [])
    match far with
    | [] => none
    | x :: xs =>
      let qs := (x :: xs).map (·.2)
      some { cause := 0x05, fault := scrFault (minOr x.1 (xs.map (·.1)))
             hit := if qs.contains 4 then e.act else lanesWhere fun l => inLanes e.act l && qs.contains (l / 8) }

/-- The object of a matrix form (R307). -/
def mxObj (f : Fields) : Option Nat := if bit 19 f.imm then none else some (bits 18 0 f.imm)

/-- A pass form (R302, R303, R307-R312). -/
def passForm (fm : Form) (f : Fields) (s : State) (form : Nat) : Out :=
  issueF fm f s fun e r =>
    let inReg := form == 0 && f.cl == 2
    let nReg := Forms.aRegs f
    let qs := (List.range 4).filter (sliceAct e.act)
    let b := e.blk
    let m : Pass := { form := form, ty := f.ty, kg := Forms.kgOf f, z := bit 0 f.op, bt := bit 1 f.op, act := e.act, da := e.sa r, db := e.sb r
                      dc := e.q.sr r.c, blk := e.g.block, obj := mxObj f, prio := hdrPrio (e.hw.hdr e.g.launch)
                      arrive := clusterCycles e.hw (coreCluster e.core) e.now, todo := qs.map fun q => (q, b.accb + r.d + q)
                      areg := if inReg then some ((List.range nReg).flatMap fun i => allLanes.map fun l => (32 * i + l, e.g.v (r.a + i) l)) else none }
    let far := qs.filter fun q => decide (b.accn ≤ r.d + q)
    let foreign := qs.filter fun q => tileForeign e.hw e.core e.ctx (b.accb + r.d + q)
    if e.acquiring || reservesFull e.hw e.core then .hold
    else match far with
    | q :: _ => .trap { cause := 0x05, fault := tileFault (r.d + q), hit := lanesWhere fun l => inLanes e.act l && far.contains (l / 8) }
    | [] =>
      match scratchTrap e ((if inReg then [] else [dBase m.da, dPitch m.da]) ++ [dBase m.db, dPitch m.db] ++ (if inReg then [] else [dTp m.da]))
          (m.ranges qs) ((if inReg then [] else [(m.da, 4)]) ++ [(m.db, 4)]) m.obj with
      | some t => .trap t
      | none =>
        match foreign with
        | q :: _ => .trap (foreignTrap (b.accb + r.d + q) (r.d + q) (lanesWhere fun l => inLanes e.act l && foreign.contains (l / 8)))
        | [] =>
          let h1 := qs.foldl (fun h q => takeTile h e.core e.ctx (b.accb + r.d + q)) e.hw
          let h2 := if inReg && r.lua then (List.range (nReg - 1)).foldl (fun h i => releaseV h e.gk (r.a + 1 + i) e.act) h1 else h1
          e.start r (e.newOp r (.pass m)) e.stepped h2
/-- mma (R310). -/
def execMma (f : Fields) (s : State) : Out := passForm Forms.mma f s 0
/-- mmas (R310). -/
def execMmas (f : Fields) (s : State) : Out := passForm Forms.mmas f s 1
/-- mmab (R310). -/
def execMmab (f : Fields) (s : State) : Out := passForm Forms.mmab f s 2

/-! ## The arbiter -/

/-- The quarter operations of a request that are eligible (R306), once the scratchpad accesses its path made before are performed
(13_consistency R259). -/
def eligibleOps (hw : Hw) (o : Op) : List (Nat × Nat) :=
  match o.kind with
  | .pass m => if !sourcesReady hw o then [] else m.todo.filter fun x => !tileBusy hw o.core x.2 o.id && !(m.ready.any fun y => y.1 == x.2)
  | _ => []
/-- The effective class of a request after n core cycles (R304). -/
def effClass (m : Pass) (n : Nat) : Nat := m.prio - (n - m.arrive) / 1024
/-- Whether two requests share the B key (R305). -/
def sameB (a b : Pass) : Bool :=
  a.form == b.form && a.ty == b.ty && a.kg == b.kg && a.bt == b.bt && dRot a.db == dRot b.db && dPitch a.db == dPitch b.db &&
    dBase a.db == dBase b.db && (a.form != 2 || dPitch a.dc == dPitch b.dc)
/-- The request the arbiter picks among those with an eligible operation (R304). -/
def pickRequest (n : Nat) : List (Op × Pass) → Option (Op × Pass)
  | [] => none
  | x :: xs => match pickRequest n xs with
    | some y => if effClass y.2 n < effClass x.2 n then some y else some x
    | none => some x
/-- The rotated offsets that quarter operation q of a request reads (R309). -/
def Pass.reads (m : Pass) (q : Nat) : List Nat :=
  let na := if m.areg.isSome then 0 else 32
  let nb := if m.bt then m.k else 32
  let rs := m.ranges [q]
  let part (k : Nat) (l : List (Nat × Nat × Nat)) : List Nat := l.flatMap fun x => rotated x.1 k x.2.1
  part (dRot m.da) (rs.take na) ++ part (dRot m.db) ((rs.drop na).take nb) ++ part 0 (rs.drop (na + nb))
/-- Grants one quarter operation: its operands are read and its result stands ready (R305, R310). -/
def grantQuarter (hw : Hw) (id : Nat) (x : Nat × Nat) : Hw :=
  match hw.op id with
  | some o => match o.kind with
    | .pass m =>
      let hw := touchScrOf id hw m.blk (m.reads x.1) false
      let d := if m.cap.isEmpty then (0, hw) else hw.draw
      let b := d.2.blocks.val {} m.blk
      let h := noteTiles o d.2 (takeTile d.2 o.core o.ctx x.2)
      let c := h.core o.core
      h.setOp id fun o => { o with kind := .pass { m with
        todo := m.todo.filter (fun y => y != x)
        ready := m.ready ++ [(x.2, m.quarter b d.1 x.1 (tileElem c x.2))], owed := m.owed + m.bytes } }
    | _ => hw
  | none => hw
/-- Whether the current ramp lets a pass start now (20_power R391): at most one each 4 cycles until MXRAMP cycles have passed
since the engine's first start after 1,000 idle cycles. -/
def rampAllows (c : Cluster) (n : Nat) : Bool := decide (c.ramp ≤ n) || decide (c.lastPass + 4 ≤ n)
/-- Notes the start of a pass for the ramp. -/
def rampStart (n : Nat) (c : Cluster) : Cluster :=
  { c with ramp := if c.lastPass + 1000 ≤ n then n + bits 55 40 c.slope else c.ramp, lastPass := n }
/-- The arbiter of a cluster picks a request and fuses a pass (R304, R305). [DEDUCED, safe: log 44] -/
def execPassGrant (cluster : Nat) (s : State) : Out :=
  let hw := s.hw
  let n := clusterCycles hw cluster s.time
  let reqs := hw.ops.filterMap fun o => if coreCluster o.core = cluster ∧ !(eligibleOps hw o).isEmpty then
    (match o.kind with | .pass m => some (o, m) | _ => none) else none
  match pickRequest n reqs with
  | none => .next s
  | some (o, m) =>
    let c := hw.cluster cluster
    if !clusterLive hw cluster || c.goal.isSome || decide (s.time < c.holdTo) || !rampAllows c n then .next s
    else
      let others := reqs.filter fun x => x.1.id != o.id && x.1.block == o.block && sameB m x.2
      let places := ((eligibleOps hw o).map fun x => (o.id, o.core, x)) ++ others.flatMap fun x => (eligibleOps hw x.1).map fun y => (x.1.id, x.1.core, y)
      let pass := places.take 4
      let h1 := pass.foldl (fun h x => grantQuarter h x.1 x.2.2) hw
      let cores := dedup (pass.map (·.2.1))
      let h2 := cores.foldl (fun h k => h.setCore k fun x => { x with
        passes := (x.passes + 1) % 2 ^ 32
        fused := if 2 ≤ pass.length then (x.fused + (pass.filter fun y => y.2.1 == k).length) % 65536 else x.fused }) h1
      .next (s.with (h2.setCluster cluster (rampStart n)))

/-- Counts bytes a request or transfer has performed into its object (R312, R320): the update, and the machine. -/
def payInto (hw : Hw) (t : Nat) (o : Op) (blk : Nat) (obj : Option Nat) (n : Nat) : Hw :=
  match obj with
  | none => hw
  | some off => if n = 0 then hw else
    { hw with
      ops := hw.ops ++ [{ id := hw.nextId, part := o.part, core := o.core, ctx := o.ctx, gk := o.gk, paths := o.paths, block := o.block
                          launch := o.launch, after := [o.id], kind := .update blk off n t }]
      nextId := hw.nextId + 1 }
/-- Whether an operation still owes an object update. -/
def owesUpdate (hw : Hw) (id : Nat) : Bool := hw.ops.any fun o => o.after.contains id && (match o.kind with | .update .. => true | _ => false)
/-- Granted operations of a request are applied to their tiles; the request completes when every one is and its object has
counted its bytes (R306, R312). -/
def execPassComplete (id : Nat) (s : State) : Out :=
  match s.hw.op id with
  | some o =>
    match o.kind with
    | .pass m =>
      let h1 := noteTiles o s.hw (m.ready.foldl (fun h x => h.setCore o.core fun c => tileStore c x.1 x.2) s.hw)
      let h2 := h1.setOp id fun o => { o with kind := .pass { m with ready := [], owed := 0 } }
      let h3 := payInto h2 s.time o m.blk m.obj m.owed
      let s1 := runTiles o.core s.hw.ops.length (s.with h3)
      if m.todo.isEmpty && !owesUpdate s1.hw id then
        match s1.hw.op id with
        | some o => .next (landOp s1 o fun _ => 0)
        | none => .next s1
      else .next s1
    | _ => .next s
  | none => .next s

/-! ## Accumulator transfers -/

/-- Bytes in a row of a transferred tile (R320). -/
def Transfer.rowBytes (x : Transfer) : Nat := 4 * Ty.width x.ty
/-- The rotated offset of byte i of the image of a tile (R320). -/
def Transfer.at (x : Transfer) (i : Nat) : Nat := swz (dBase x.desc + i / x.rowBytes * dPitch x.desc + i % x.rowBytes) (dRot x.desc)
/-- The bytes a tile is stored as: round(element, t, mode) (R320). -/
def tileImage (c : Core) (t : Nat) (ty : Ty) (mode : Nat) : Tab Byte :=
  let bs := (List.range 1024).flatMap fun k =>
    toBytes (Ty.width ty / 8) ((Ty.fmt ty).round mode 0 (fv .f32 (tileElem c t (k / 32) (k % 32)).toNat)).code
  (List.range bs.length).zip bs
/-- The elements a tile takes from an image: exact .f32 values (R320). [DEDUCED, safe: log 45] -/
def imageTile (img : Tab Byte) (ty : Ty) : List (Nat × BitVec 32) :=
  let w := Ty.width ty / 8
  let bs := img.vals
  (List.range 1024).map fun k =>
    let c := ofBytes ((bs.drop (w * k)).take w)
    (k, BitVec.ofNat 32 ((Ty.fmt .f32).round 0 0 (fv ty c)).code)

/-- aload and astore (R320, R321). -/
def transferForm (fm : Form) (f : Fields) (s : State) (load : Bool) : Out :=
  let phys := bit 1 f.ext
  issueF { fm with sup := phys } f s fun e r =>
    let d := e.sb r
    let x : Transfer := { load := load, tile := if phys then r.d else e.blk.accb + r.d, phys := if phys then some d.toNat else none, ty := f.ty
                          mode := f.op, desc := d, blk := e.g.block, obj := if phys then none else mxObj f
                          todo := List.range (if phys then 32 else 32 * Ty.width f.ty) }
    let trap : Option Trap :=
      if phys then
        (if d.toNat % 4096 ≠ 0 then some { cause := 0x08, hit := e.act }
         else if partBytes e.hw e.part < d.toNat + 4096 then some { cause := 0x07, info := 0xFF, hit := e.act } else none)
      else if e.blk.accn ≤ r.d then some { cause := 0x05, fault := tileFault r.d, hit := e.act }
      else match scratchTrap e [dBase d, dPitch d] ((List.range 32).map fun i => (dBase d + i * dPitch d, x.rowBytes, 4)) [(d, 4)] x.obj with
        | some t => some t
        | none => if tileForeign e.hw e.core e.ctx x.tile then some (foreignTrap x.tile r.d e.act) else none
    if e.acquiring || reservesFull e.hw e.core then .hold
    else match trap with
    | some t => .trap t
    | none => e.start r (e.newOp r (.atrans x)) e.stepped (if phys then e.hw else takeTile e.hw e.core e.ctx x.tile)
/-- aload (R320, R321). -/
def execAload (f : Fields) (s : State) : Out := transferForm Forms.aload f s true
/-- astore (R320, R321). -/
def execAstore (f : Fields) (s : State) : Out := transferForm Forms.astore f s false

/-- Moves one piece of a transfer: a word of scratchpad, or with .phys a line of memory (R320, R321). -/
def moveTransfer (m : Tab Memory) (t : Nat) (o : Op) (st : Transfer × Hw) (k : Nat) : Transfer × Hw :=
  let x := st.1
  let hw := st.2
  match x.phys with
  | some pa =>
    if x.load then
      ({ x with img := ((List.range 128).zip (rdBytes m o.part (pa + 128 * k) 128)).foldl (fun i b => i.ins (128 * k + b.1) b.2) x.img }, hw)
    else
      let r := putWrite hw o.part t (pa + 128 * k) ((List.range 128).map fun i => x.img.val 0 (128 * k + i)) o.id 0 0
      ({ x with w := Nat.max x.w r.1 }, r.2)
  | none =>
    let ys := (List.range 4).map fun i => x.at (4 * k + i)
    let h := touchScrOf o.id hw x.blk ys (!x.load)
    if x.load then
      ({ x with img := (List.range 4).foldl (fun t i => t.ins (4 * k + i) ((x.cap.look (x.at (4 * k + i))).getD ((h.blocks.val {} x.blk).scr.val 0 (x.at (4 * k + i))))) x.img, owed := x.owed + 4 }, h)
    else
      ({ x with owed := x.owed + 4 },
       (noteScr o x.blk ys h).setBlock x.blk fun b => (List.range 4).foldl (fun b i => scrStore b (x.at (4 * k + i)) [x.img.val 0 (4 * k + i)]) b)
/-- The transfer port works on a transfer whose turn has come (R306, R320): some of its pieces move, chosen freely, or with .phys in row order; a load is
applied to its tile when it holds every byte; it completes when all is performed and counted. [DEDUCED, safe: log 46] -/
def execAtransferComplete (id : Nat) (s : State) : Out :=
  match s.hw.op id with
  | some o =>
    match o.kind with
    | .atrans x0 =>
      if !x0.begun && tileBusy s.hw o.core x0.tile id then .next s
      else
        let h0 := if x0.begun || x0.phys.isSome then s.hw else noteTiles o s.hw (takeTile s.hw o.core o.ctx x0.tile)
        let x1 := if x0.begun then x0 else
          { x0 with begun := true, img := if x0.load then [] else tileImage (h0.core o.core) x0.tile x0.ty x0.mode }
        let b := h0.blocks.val {} x1.blk
        if x1.phys.isNone && ((x1.load && !sourcesReady h0 o) || x1.todo.any fun (k : Nat) => unitBusy h0 b (x1.at (4 * k))) then .next s
        else
          let d := h0.draw
          let i := if x1.phys.isSome then 0 else d.1 % x1.todo.length
          let n := 1 + d.1 / 4096 % (x1.todo.length - i)
          let mv := if x1.todo.isEmpty then (x1, h0) else ((x1.todo.drop i).take n).foldl (moveTransfer s.mem s.time o) (x1, d.2)
          let x2 := { mv.1 with todo := x1.todo.take i ++ x1.todo.drop (i + n) }
          let full := x2.todo.isEmpty
          let apply := x2.load && full && !x0.todo.isEmpty
          let h1 := if apply then noteTiles o mv.2 (mv.2.setCore o.core fun c => tileStore c x2.tile (imageTile x2.img x2.ty)) else mv.2
          let pay := if full || d.1 / 2 ^ 40 % 2 == 1 then x2.owed else 0
          let x3 := { x2 with owed := x2.owed - pay }
          let h2 := payInto (h1.setOp id fun o => { o with kind := if x3.load && full then .atrans { x3 with load := false, img := [] } else .atrans x3 }) s.time o x3.blk x3.obj pay
          let s1 := wakeBarw (runTiles o.core s.hw.ops.length (s.with h2)) x3.blk
          if full && x3.owed == 0 && !owesUpdate s1.hw id && decide (x3.w + 2 ≤ s.time || x3.w = 0) && !((s1.hw.part o.part).pend.any fun w => w.id == id) then
            match s1.hw.op id with
            | some o => .next (landOp s1 o fun _ => 0)
            | none => .next s1
          else .next s1
    | _ => .next s
  | none => .next s

end Sys2Proof.Machine
end

