-- ==== Sys2Proof/Machine/Tail.lean ====
section
/-! DEFINITION. The Tail: configuration, window marks, single-step mode and reverts (17_tail R324-R340). -/

namespace Sys2Proof.Machine

open Sys2Proof

/-! ## Configuration -/

/-- The Tail of a context. -/
def Hw.tail (hw : Hw) (p c : Nat) : TailSt := match hw.ctx p c with | some x => x.tail | none => {}
/-- Changes the Tail of a context. -/
def Hw.setTail (hw : Hw) (p c : Nat) (f : TailSt → TailSt) : Hw := hw.setCtx p c fun x => { x with tail := f x.tail }
/-- Pins the pages of a region: (offset, bytes, address) of each, or none where one does not translate with R and W (R325). -/
def pinPages (m : Tab Memory) (p c base len : Nat) : Nat → Nat → Hw → Option (List (Nat × Nat × Nat)) × Hw
  | 0, _, hw => (some [], hw)
  | k + 1, off, hw =>
    if len ≤ off then (some [], hw)
    else
      let t := translate hw m p c (base + off)
      match t.1 with
      | .error _ => (none, t.2)
      | .ok y =>
        if y.kind ≠ 0 ∨ !y.r ∨ !y.w then (none, t.2)
        else
          let n := Nat.min (len - off) (2 ^ pageBits y.level - (base + off) % 2 ^ pageBits y.level)
          let b := pinPages m p c base len k (off + n) t.2
          match b.1 with
          | some l => (some ((off, n, y.pa) :: l), b.2)
          | none => (none, b.2)
/-- A Tail that is off, its configuration kept (R325). -/
def TailSt.off (x : TailSt) : TailSt :=
  { handle := x.handle, period := x.period, policy := x.policy, launch := x.launch, events := x.events, err := x.err, step := x.step
    stepGang := x.stepGang, stepPath := x.stepPath, stepOver := x.stepOver, timer := x.timer, reqs := x.reqs }
/-- A write of TLCTL (R324, R325): the fields, then EN going up or down. -/
def writeTlctl (hw : Hw) (m : Tab Memory) (p t c v : Nat) : Hw :=
  match hw.ctx p c with
  | none => hw
  | some cx =>
    let x := cx.tail
    let per := bits 47 32 v
    let y := { x with
      handle := if x.en then x.handle else bits 63 52 v
      period := per
      policy := if bits 5 4 v = 3 then x.policy else bits 5 4 v
      launch := bit 3 v
      timer := if per = x.period then x.timer else t }
    if x.en && !bit 0 v then hw.setTail p c fun _ => y.off
    else if !x.en && bit 0 v then
      let hd := readHandle hw m p c y.handle
      let n := nSlices hw p
      let refuse (h : Hw) : Hw := h.setTail p c fun _ => { y with err := true }
      if !hd.ok || !hd.r || !hd.w || hd.space != 0 || decide (hd.len < 0x50000 + 160 * 64 * n) then refuse hw
      else
        let r := pinPages m p c hd.base hd.len (hd.len / 65536 + 2) 0 hw
        match r.1 with
        | none => refuse r.2
        | some pins => r.2.setTail p c fun _ => { y.off with
            en := true, err := false, cur := 1, old := 1, bounds := [(1, t)], timer := t, len := hd.len, pins := pins }
    else hw.setTail p c fun _ => y
/-- A write of TLCTL takes effect (R325). -/
def execTlctlWrite (fn ctx : Nat) (v : Word) (s : State) : Out := .next (s.with (writeTlctl s.hw s.mem fn s.time ctx v.toNat))

/-- TLCTL as it reads. -/
def TailSt.ctl (x : TailSt) : Nat :=
  x.handle * 2 ^ 52 + x.period * 2 ^ 32 + x.policy * 16 + b2n x.launch * 8 + b2n x.en
/-- TLSTAT as it reads at time t. -/
def TailSt.stat (x : TailSt) (t : Nat) : Nat := if x.en then x.winAt t * 2 ^ 32 + x.old else 0
/-- Whether some write of a context is held under the stall or trap policy: HELD (R324). -/
def tailHeld (hw : Hw) (p c : Nat) : Bool := (hw.tail p c).policy != 2 &&
  ((hw.part p).pend.any (fun w => w.full && w.tctx == some c) || (hw.ops.any fun o => o.part == p && o.ctx == c && o.held) || hw.launches.any fun l => l.2.part == p && l.2.ctx == c && l.2.doneHeld)
/-- TLUSE as it reads. -/
def tailUse (hw : Hw) (p c : Nat) : Nat :=
  let x := hw.tail p c
  x.events * 2 ^ 48 + b2n x.err * 2 ^ 47 + b2n (tailHeld hw p c) * 2 ^ 46 + x.usedBytes % 2 ^ 40
/-- TLSTEP as it reads. -/
def TailSt.stepWord (x : TailSt) : Nat := b2n x.step * 2 ^ 63 + x.stepGang * 16 + x.stepPath

/-! ## Windows -/

/-- An advance request reaches the control (R329, R330): it announces a boundary or joins the pending one, and answers who
asked. Which of the requests on their way arrives first is open. While a revert works none is taken but those that join a boundary it
waits for (R339). -/
def execWindowAdvanceRequest (fn ctx : Nat) (s : State) : Out :=
  let x := s.hw.tail fn ctx
  if x.reqs.isEmpty || (x.busy && (x.roll s.time).announced.isNone) then .next s
  else
    let d := if x.reqs.length = 1 then (0, s.hw) else s.hw.draw
    let i := d.1 % x.reqs.length
    let q := x.reqs.getD i .plain
    let y := { x with reqs := x.reqs.take i ++ x.reqs.drop (i + 1) }
    let r := if x.en then y.request s.time else (0, s.time, y)
    let h := d.2.setTail fn ctx fun _ => r.2.2
    .next (s.with (match q with
      | .path gk p => setPath h gk p fun q => match q.wait with
        | .wmark b true none => { q with wait := .wmark b true (some (if x.en then r.2.1 + 2 else 0, r.1)) }
        | _ => q
      | .launch id => { h with launches := h.launches.upd id fun l => { l with floor := if x.en then r.2.1 else 0 } }
      | .step => h.setTail fn ctx fun y => { y with stepAt := some (r.2.1 + 2) }
      | .plain => h))
/-- Orrery time reaches an announced boundary: CUR advances (R329). -/
def execWindowBoundary (fn ctx : Nat) (s : State) : Out := .next (s.with (s.hw.setTail fn ctx (TailSt.roll s.time)))
/-- The timer of a Tail asks for an advance every PERIOD µs (R330). -/
def execTailTimer (fn ctx : Nat) (s : State) : Out :=
  let x := s.hw.tail fn ctx
  let due := x.timer + 1000 * x.period
  if x.en && x.period != 0 && decide (due ≤ s.time) then
    .next (s.with (s.hw.setTail fn ctx fun x => { x.advance s.time with timer := due }))
  else .next s

/-! ## wmark and wquery -/

/-- The fence of a wmark is over (R332): without a Tail it is done, else it asks the control. -/
def askWmark (e : Env) (bound : Nat) (hw : Hw) : Hw :=
  (e.setPath hw fun q => { q with wait := .wmark bound true none }).setTail e.part e.ctx fun x => x.ask (.path e.gk e.p)
/-- What wmark writes: nothing in S format. -/
def wmarkWrites (r : Regs) (k : Nat) : Writes := if r.sh.dW then putS r k else {}
/-- A wmark (R332). -/
def wmarkBody (e : Env) (r : Regs) : Res :=
  let b := e.hw.nextId
  let en := (e.hw.tail e.part e.ctx).en
  if fenceDone e.hw e.gk 3 b e.now then
    if !en then .done (wmarkWrites r 0) e.hw
    else .stay (askWmark e b (e.park r .parked (.wmark b true none) e.hw))
  else .stay (e.park r .parked (.wmark b false none) e.hw)
/-- wmark (R332). -/
def execWmarkS (f : SFields) (s : State) : Out := issueS Forms.wmarkS f s wmarkBody
/-- wmark with a window (R332). -/
def execWmark (f : Fields) (s : State) : Out := issueF Forms.wmark f s wmarkBody
/-- A waiting wmark goes on (R332). -/
def wakeWmark (e : Env) (bound : Nat) (sent : Bool) (got : Option (Nat × Nat)) : Hw :=
  let r := e.q.form.getD (regsS Forms.wmarkS ⟨false, false, 0, 0, 0⟩)
  if !sent then
    if !fenceDone e.hw e.gk 3 bound e.now then e.hw
    else if (e.hw.tail e.part e.ctx).en then askWmark e bound e.hw
    else e.retireParked (wmarkWrites r 0) e.hw
  else match got with
  | some (t, k) => if t ≤ e.now then e.retireParked (wmarkWrites r k) e.hw else e.hw
  | none => e.hw

/-- wquery (R333): .cur is answered by the core, the others by the window control. -/
def execWquery (f : Fields) (s : State) : Out :=
  issueF Forms.wquery f s fun e r =>
    let x := (e.hw.tail e.part e.ctx).roll e.now
    let k := (e.sa r).toNat % 2 ^ 32
    let v := match f.op with
      | 0 => x.cur
      | 1 => x.old
      | 2 => if winLe x.old k && winLe k x.cur then x.bounds.val 0 k else match x.announced with
        | some b => if k = winNext x.cur then b else 0
        | none => 0
      | _ => x.usedBytes
    let res : Res := .done (putS r (if x.en then v else 0)) e.hw
    if f.op = 0 then res else e.asks r false res

/-! ## Single-step mode -/

/-- An item of a step record (R335): code, number, mask, word 1 and payload, padded to 16 bytes. -/
def stepItem (code num mask w1 : Nat) (bs : List Byte) : List Byte :=
  wordBytes [code * 2 ^ 56 + num * 2 ^ 32 + mask, w1] ++ bs ++ List.replicate ((16 - bs.length % 16) % 16) 0
/-- Splits keyed bytes into runs: the first key and the bytes. -/
def byteRuns : Tab Byte → List (Nat × List Byte)
  | [] => []
  | (k, b) :: t =>
    match byteRuns t with
    | (j, bs) :: r => if j = k + 1 then (k, b :: bs) :: r else (k, [b]) :: (j, bs) :: r
    | [] => [(k, [b])]
/-- The cluster address of a byte of a block (11_scratchpad R214). -/
def clusterAddr (hw : Hw) (key : Nat) : Nat :=
  let b := hw.blocks.val {} (key / 2 ^ 20)
  (if hdrC3 (hw.hdr b.launch) then widField (hw.hdr b.launch) 2 b.blk.toNat else 0) * 2 ^ 19 + key % 2 ^ 19
/-- The items of a step record (Table TL-4). -/
def stepItems (hw : Hw) (log : StepLog) : List (List Byte) :=
  let g := (hw.gangs.look log.gk).getD {}
  let core := gkCore log.gk
  let maskOf (ls : List Nat) : Nat := (lanesWhere fun l => ls.contains l).toNat
  let vs := (dedup (log.v.map (·.1 / 32))).map fun r =>
    let mine : Tab (Option Word) := log.v.filter fun x => x.1 / 32 == r
    let old (l : Nat) : Option Word := match Tab.look mine (32 * r + l) with | some x => x | none => g.vregs.look (32 * r + l)
    stepItem 1 r (maskOf (mine.map (·.1 % 32))) (lanesWhere fun l => (old l).isSome).toNat (wordBytes (allLanes.map fun l => ((old l).getD 0).toNat))
  let ss := log.s.map fun x => stepItem 2 x.1 0 (b2n x.2.isSome) (wordBytes [(x.2.getD 0).toNat])
  let fx := if log.fexc.isEmpty then [] else
    [stepItem 3 0x30 (maskOf log.fexc.keys) 0 (wordBytes (allLanes.map fun l => log.fexc.val (g.fexc.val 0 l) l))]
  let sr := if log.srng.isEmpty then [] else
    [stepItem 3 0x31 (maskOf log.srng.keys) 0 (wordBytes (allLanes.map fun l => (log.srng.val (g.rng l) l).toNat))]
  let ct := match log.ctl with
    | none => []
    | some o => [stepItem 4 0 0 0 (wordBytes (((List.range 16).flatMap fun i => match o.paths.look i with | some q => entryImage q | none => [0, 0, 0]) ++
        [pctlWord o] ++ allLanes.map (foldWord o) ++ (List.range 4).map (nestWord o)))]
  let sc := (byteRuns log.scr).map fun x => stepItem 5 0 0 (clusterAddr hw x.1 + x.2.length * 2 ^ 32) x.2
  let b := hw.blocks.val {} g.block
  let ts := (dedup (log.tiles.map (·.1 / 1024))).map fun t =>
    stepItem 6 (t - b.accb) 0 0 ((List.range 1024).flatMap fun k => toBytes 4 (log.tiles.val ((hw.core core).tiles.val 0 (1024 * t + k)) (1024 * t + k)).toNat)
  vs ++ ss ++ fx ++ sr ++ ct ++ sc ++ ts

/-- Whether an instruction under way of a stepped path is complete (R334): nothing it started is outstanding and every write it
made has its W passed. -/
def stepComplete (hw : Hw) (p gk path : Nat) : Bool :=
  !(hw.ops.any fun o => o.gk == gk && bit path o.paths) && !((hw.part p).pend.any fun w => w.gk == gk && bit path w.paths)
/-- Bytes of the step area that hold records. -/
def stepUsed (x : TailSt) : Nat := ((x.recs stepShare).map (·.size)).sum
/-- The stepped instruction retires: its record is appended, or the policy of a full Tail applies (R334, R335, R337). -/
def appendStep (s : State) (p c : Nat) (log : StepLog) : Hw :=
  let hw := s.hw
  let x := (hw.tail p c).roll s.time
  let items := stepItems hw log
  let size := 32 + (items.map (·.length)).sum
  let room (x : TailSt) : Bool := decide (stepUsed x + size ≤ 0x40000)
  let put (x : TailSt) : Hw :=
    let off := x.seqs.val 0 stepShare
    let win := if winLe x.old log.window && winLe log.window x.cur then log.window else x.cur
    let ws := bytesWords (size / 8) (wordBytes [win * 2 ^ 32 + 3 * 2 ^ 28, s.time, log.pc.toNat, items.length * 2 ^ 48 + size % 2 ^ 32] ++ items.flatten)
    let h := hw.setTail p c fun _ => { x with
      stepLog := none, stepAsked := false, stepAt := none
      shares := x.shares.ins stepShare (x.recs stepShare ++ [{ window := win, addr := log.pc.toNat, seq := off, size := size, log := some log }])
      seqs := x.seqs.ins stepShare ((off + size) % 0x40000) }
    ((List.range ws.length).zip ws).foldl (fun (h : Hw) w => (putWrite h p s.time (x.at ((off + 8 * w.1) % 0x40000)) (toBytes 8 w.2) 0 0 0).2) h
  if room x then put x
  else
    let ev := if x.stepAt.isSome then x else { x with events := (x.events + 1) % 2 ^ 16, stepAt := some 0 }
    let hold := hw.setTail p c fun _ => ev
    match x.policy with
    | 2 =>
      let y := ev.recycle room ((ev.cur + 2 ^ 32 - ev.old) % 2 ^ 32)
      if room y then put y else hw.setTail p c fun _ => y.advance s.time
    | 1 =>
      let h := stopCtx hold p c
      match (h.gangs.look log.gk).bind fun g => (g.paths.look log.path).map fun q => (g, q) with
      | some (g, q) => if x.stepAt.isSome then hold else
        (deliver h s.mem p s.time (gkCore log.gk) c true (trapFrame { s with hw := h } log.gk log.path g q { cause := 0x0F } 0 0)).2
      | none => hold
    | _ => hold

/-- Whether a path is being single-stepped (R334). -/
def steppedAt (hw : Hw) (p c gk path : Nat) : Bool :=
  let x := hw.tail p c
  x.en && x.step && !x.stepOver && x.stepGang == gangId hw gk && x.stepPath == path
/-- The window whose boundary, with 2 ns, is time t (R334). -/
def windowAt (x : TailSt) (t now : Nat) : Nat := ((x.bounds.find? fun b => b.2 + 2 == t).map (·.1)).getD (x.winAt now)
/-- What stands before the issue of a single-stepped path (R334): whether it may issue now, and the machine. A new instruction
waits for its window; one under way goes on; the next waits until the record of one that has retired is appended. -/
def stepGate (s : State) (e : Env) : Bool × Hw :=
  if !steppedAt e.hw e.part e.ctx e.gk e.p then (true, e.hw)
  else
    let x := e.hw.tail e.part e.ctx
    match x.stepLog with
    | some log =>
      if log.fin then (false, e.hw)
      else if log.gk == e.gk && log.path == e.p && log.pc == e.q.pc && e.q.cl.inside then (true, e.hw)
      else (false, e.hw.setTail e.part e.ctx fun x => { x with stepLog := none })
    | none =>
      if !e.q.cl.inside then (true, e.hw)
      else match x.stepAt with
      | some t =>
        if t ≤ s.time then (true, e.hw.setTail e.part e.ctx fun x => { x with
          stepAsked := false, stepAt := none
          stepLog := some { gk := e.gk, path := e.p, pc := e.q.pc, since := e.hw.nextId, cl := e.q.cl, window := windowAt x t s.time } })
        else (false, e.hw)
      | none =>
        if x.stepAsked then (false, e.hw)
        else (false, e.hw.setTail e.part e.ctx fun x => { (x.ask .step) with stepAsked := true })
/-- The path that a context single-steps, if it is there. -/
def steppedPath (hw : Hw) (p c : Nat) : Option Path :=
  let x := hw.tail p c
  (hw.gangs.find? fun g => g.2.part == p && gkCtx g.1 == c && gangId hw g.1 == x.stepGang).bind fun g => g.2.paths.look x.stepPath
/-- What single-stepping makes of a turn of the machine from a to b: an instruction that trapped leaves no record, and stepping is over
once its entry is freed (R334). -/
def stepAfter (p c : Nat) (a b : Hw) : Hw :=
  let x := b.tail p c
  let drop (x : TailSt) : TailSt := if (x.stepLog.map (·.fin)).getD true then x else { x with stepLog := none, stepAsked := false, stepAt := none }
  match steppedPath b p c with
  | none => if x.step && (steppedPath a p c).isSome then b.setTail p c fun x => { drop x with stepOver := true } else b
  | some q => if q.state = .stopped then b.setTail p c drop else b
/-- The instruction of a context that was single-stepped and has retired but for its record is complete: the record is appended
(R334, R335). -/
def stepRetire (s : State) (p c : Nat) : State :=
  match (s.hw.tail p c).stepLog with
  | some log => if log.fin && stepComplete s.hw p log.gk log.path then s.with (appendStep s p c log) else s
  | none => s

/-! ### Stepping back -/

/-- Sets a table entry of a gang to an image (R118, Table PA-1): what no image shows is taken from the entry as it stands where its STATE is
the same, else from the entry as it stood before the instruction. -/
def restoreEntry (hw : Hw) (old : Gang) (g : Gang) (i w0 w1 w2 : Nat) : Gang :=
  if !bit 63 w0 then { g with paths := g.paths.del i }
  else
    let st : PState := match bits 62 60 w0 with | 0 => .ready | 1 => .rejoin | 2 => .parked | 3 => .stopped | 4 => .held | _ => .barrier
    let gone (q : Path) : Bool := match q.wait with | .op id => (hw.op id).isNone | _ => false
    let b := match g.paths.look i with
      | some q => if q.state = st then q else { old.paths.val q i with sregs := q.sregs }
      | none => old.paths.val {} i
    let b' := if gone b then { b with state := .ready, wait := .none, form := none } else { b with state := st }
    { g with paths := g.paths.ins i { b' with
        folded := bit 59 w0, pc := word (bits 56 0 w0), mask := lanesOf (bits 63 32 w1), wmask := lanesOf (bits 31 0 w1)
        depth := bits 15 10 w2, parent := bits 9 6 w2 } }
/-- Sets the lane words of a gang's folded paths to those of an item (R93, R118). -/
def restoreFold (old g : Gang) (ws : List Nat) : Tab FoldLane :=
  let m := g.paths.foldl (fun m q => if q.2.folded then m ||| q.2.mask else m) (0 : Lanes)
  (lanes m).foldl (fun t l =>
    let w := ws.getD l 0
    let b := match g.foldArr.look l with
      | some b => if decide (b.wait = Wait.rejoin) = bit 57 w then b else old.foldArr.val {} l
      | none => old.foldArr.val {} l
    t.ins l { b with depth := bits 63 58 w, pc := word (bits 56 0 w) }) []
/-- Restores a gang's control state from an item of code 4 (Table TL-4). -/
def restoreControl (hw : Hw) (log : StepLog) (ws : List Nat) (g : Gang) : Gang :=
  let old := log.ctl.getD g
  let g1 := (List.range 16).foldl (fun g i => restoreEntry hw old g i (ws.getD (3 * i) 0) (ws.getD (3 * i + 1) 0) (ws.getD (3 * i + 2) 0)) g
  let g2 := { g1 with exited := lanesOf (bits 63 32 (ws.getD 48 0)), fold := bit 16 (ws.getD 48 0), foldArr := restoreFold old g1 (ws.drop 49) }
  { g2 with nest := (List.range 32).foldl (fun t l => t.put 0 l (bits 5 0 (ws.getD (81 + l / 8) 0 >>> (8 * (l % 8))))) g2.nest }
/-- Restores one item of a step record (R336, Table TL-4). -/
def undoItem (log : StepLog) (code num w1 : Nat) (mask : Lanes) (ws : List Nat) (hw : Hw) : Hw :=
  let gang (f : Gang → Gang) : Hw := hw.setGang log.gk f
  let g := (hw.gangs.look log.gk).getD {}
  let b := hw.blocks.val {} g.block
  match code with
  | 1 => gang fun g => { g with vregs := (lanes mask).foldl (fun t l =>
      t.set (32 * (num % 256) + l) (if bit l w1 then some (word (ws.getD l 0)) else none)) g.vregs }
  | 2 => { setPath hw log.gk log.path fun q => { q with sregs := q.sregs.set (num % 256) (if bit 0 w1 then some ⟨word (ws.getD 0 0), hw.phys⟩ else none) } with
      phys := hw.phys + 1 }
  | 3 => gang fun g =>
      if num = 0x30 then { g with fexc := (lanes mask).foldl (fun t l => t.put 0 l (ws.getD l 0 % 64)) g.fexc }
      else { g with srng := (lanes mask).foldl (fun t l => t.ins l (word (ws.getD l 0))) g.srng }
  | 4 => gang (restoreControl hw log ws)
  | 5 =>
    let bk := if hdrC3 (hw.hdr b.launch) then groupBlock hw b (bits 26 19 w1) else some g.block
    match bk with
    | some k => hw.setBlock k fun b => scrStore b (bits 18 0 w1) ((wordBytes ws).take (bits 50 32 w1))
    | none => hw
  | _ => hw.setCore (gkCore log.gk) fun c => tileStore c (b.accb + num) ((List.range 1024).map fun k =>
      (k, BitVec.ofNat 32 (ws.getD (k / 2) 0 >>> (32 * (k % 2)))))
/-- Words of the payload of an item (R335). -/
def itemWords (code w1 : Nat) : Nat :=
  match code with
  | 1 | 3 => 32
  | 2 => 2
  | 4 => 86
  | 5 => 2 * ((bits 50 32 w1 + 15) / 16)
  | 6 => 512
  | _ => 0
/-- Restores the items that the words of a step record hold (R336), whatever they are (R325); an item that has no payload ends the record. -/
def undoItems (log : StepLog) : Nat → List Nat → Hw → Hw
  | n + 1, w0 :: w1 :: ws, hw =>
    let code := bits 63 56 w0
    let k := itemWords code w1
    if k = 0 then hw else undoItems log n (ws.drop k) (undoItem log code (bits 43 32 w0) w1 (lanesOf (bits 31 0 w0)) (ws.take k) hw)
  | _, _, hw => hw
/-- Whether an item of code 4 stands among the words of a step record. -/
def hasControl : Nat → List Nat → Bool
  | n + 1, w0 :: w1 :: ws => bits 63 56 w0 == 4 || (itemWords (bits 63 56 w0) w1 != 0 && hasControl n (ws.drop (itemWords (bits 63 56 w0) w1)))
  | _, _ => false
/-- Steps back one instruction (R336): its items, then the path at its PC, which no image shows to be inside its clause. -/
def undoStep (log : StepLog) (pc items : Nat) (ws : List Nat) (hw : Hw) : Hw :=
  setPath (undoItems log items ws hw) log.gk log.path fun q => { q with
    pc := if hasControl items ws then q.pc else word pc, state := .ready, wait := .none, form := none, moving := 0, cl := log.cl, trap := none }
/-- Steps back an instruction that has retired but for its record (R334, R336). -/
def StepLog.undo (log : StepLog) (hw : Hw) : Hw :=
  let is := stepItems hw log
  undoStep log log.pc.toNat is.length (bytesWords (is.flatten.length / 8) is.flatten) hw

/-! ## Reverting -/

/-- The result word of wcfg (R338). -/
def wcfgResult (r passed st : Nat) : Word := word (r * 2 ^ 32 + Nat.min passed 0xFFFF * 2 ^ 16 + st)
/-- Whether a context is stopped: CTXCTL.STATE reads stopped (R338). -/
def ctxStopped (hw : Hw) (p c : Nat) : Bool := match hw.ctx p c with | some x => decide (x.state = .stopped) | none => false
/-- An operation without the writes a full Tail holds (R339): they are never performed; the old value an atomic would have
returned is an open value. -/
def dropHeld (s : State) (o : Op) : State :=
  let d := s.hw.draw
  match o.kind with
  | .copy c =>
    let gone := c.todo.filter fun x => x.st == 5
    s.with (s.hw.setOp o.id fun o => { o with held := false, kind := .copy { c with
      todo := c.todo.filter (fun (x : Piece) => x.st != 5), owed := c.owed + (gone.map (·.n)).sum } })
  | k =>
    let es := k.elems.map fun e => if e.st == 5 then { e with st := 3, w := 0, val := if k.isAtomic then word d.1 else e.val } else e
    let o' := { o with held := false, kind := k.withElems es }
    let s' := s.with (d.2.setOp o.id fun _ => o')
    if allDone es && o.chain.isNone then landOp s' o' (fun l => elemVal es (fun v => v) l) else s'
/-- Discards every write of a context that a full Tail holds (R339): those with a W that has come, DONE increments, and those of operations. -/
def discardHeld (s0 : State) (p c : Nat) : State :=
  let h := s0.hw.setPart p fun q => { q with pend := q.pend.filter fun w => !(w.full && w.tctx == some c) }
  let s := s0.with { h with launches := h.launches.map fun l =>
    if l.2.part = p ∧ l.2.ctx = c ∧ l.2.doneHeld then (l.1, { l.2 with doneHeld := false, doneAt := none }) else l }
  (s.hw.ops.filter fun o => o.part == p && o.ctx == c && (o.held || o.kind.elems.any fun e => e.st == 5)).foldl
    (fun s o => match s.hw.op o.id with | some o => dropHeld s o | none => s) s
/-- A byte of partition p once every write that has its W is visible. -/
def soonByte (s : State) (p a : Nat) : Byte := latestByte s.mem (s.hw.part p).pend p a
/-- Writes back the line records of a window, whatever bytes they hold (R325, R340): the greatest W it gives, or w. -/
def applyLines (s : State) (p : Nat) (x : TailSt) (j w : Nat) : Nat × Hw :=
  let n := nSlices s.hw p
  let recs := x.shares.flatMap fun sh => if sh.1 < irrevShare then (sh.2.filter fun r => r.window == j).map fun r => (sh.1, r) else []
  recs.foldl (fun (y : Nat × Hw) r =>
    let q := x.cap n r.1
    let off := 0x50000 + 160 * q * r.1 + 160 * (r.2.seq % q)
    let rd (k i : Nat) : List Byte := (List.range k).map fun a => soonByte s p (x.at (off + i + a))
    let line := bits 39 7 (ofBytes (rd 8 16)) * 128
    if partBytes s.hw p < line + 128 then y
    else
      let z := putWrite y.2 p s.time line (rd 128 32) 0 0 0
      (Nat.max y.1 z.1, z.2)) (w, s.hw)
/-- Steps back the instruction of a step record by what the region holds of it (R325, R336). -/
def applyStep (s : State) (p : Nat) (x : TailSt) (hw : Hw) (r : TailRec) : Hw :=
  match r.log with
  | none => hw
  | some log =>
    let ws := bytesWords (r.size / 8) ((List.range r.size).map fun i => soonByte s p (x.at ((r.seq + i) % 0x40000)))
    undoStep log (bits 56 0 (ws.getD 2 0)) (bits 63 48 (ws.getD 3 0)) (ws.drop 4) hw
/-- Applies window j (R340): its lines, then its step record, or the instruction of that window whose record a full Tail holds (R337). -/
def applyWindow (s : State) (p : Nat) (x : TailSt) (j w : Nat) : Nat × Hw :=
  let a := applyLines s p x j w
  let h := match x.stepLog with
    | some l => if l.fin && l.window == j then l.undo a.2 else a.2
    | none => a.2
  (a.1, ((x.recs stepShare).filter fun r => r.window == j).reverse.foldl (applyStep s p x) h)
/-- The walk of R339 from window j on, at most fuel windows: the reached window, the irreversible count passed, the greatest W. -/
def revertWalk (p : Nat) (x : TailSt) (k : Nat) (force : Bool) : Nat → Nat → Nat → Nat → Nat → State → Nat × Nat × Nat × State
  | 0, _, r, passed, w, s => (r, passed, w, s)
  | n + 1, j, r, passed, w, s =>
    if !winLe k j then (r, passed, w, s)
    else
      let c := x.irrev.val 0 j
      if c ≠ 0 ∧ !force then (r, passed, w, s)
      else
        let a := applyWindow s p x j w
        revertWalk p x k force n ((j + 2 ^ 32 - 1) % 2 ^ 32) j (passed + c) a.1 (s.with a.2)
/-- The sequence number a share goes on with once the records of a revert are gone: that of its oldest discarded record. [DEDUCED, unsafe: log 49] -/
def seqsAfter (x : TailSt) (gone : Nat → Bool) : Tab Nat :=
  x.seqs.map fun e => match (x.recs e.1).find? fun r => gone r.window with | some r => (e.1, r.seq) | none => e
/-- The walk of a revert is made, once no announced boundary is to come (R339): its result, and when its last write passes. -/
def doRevert (s : State) (p c k : Nat) (force : Bool) : Word × Nat × State :=
  let s1 := discardHeld s p c
  let x := (s1.hw.tail p c).roll s.time
  let top := winNext x.cur
  let r := revertWalk p x k force (((x.cur + 2 ^ 32 - k) % 2 ^ 32) + 1) x.cur top 0 s.time s1
  let s2 := r.2.2.2
  let st := if r.1 = k then 0 else 4
  if r.1 = top then (wcfgResult r.1 r.2.1 st, s.time, s2)
  else
    let gone (j : Nat) : Bool := winLe r.1 j
    let h := s2.hw.setTail p c fun _ => { x.discard gone with
      seqs := seqsAfter x gone, cur := r.1, busy := true, stepAsked := false, stepAt := none
      stepLog := x.stepLog.bind fun l => if !gone l.window then some l else if l.fin then none else some { l with window := r.1 } }
    (wcfgResult r.1 r.2.1 st, r.2.2.1, s2.with h)
/-- A revert completes (R339): B(CUR) is the time of completion where windows were applied, and requests are taken again. -/
def endRevert (hw : Hw) (p t c : Nat) : Hw :=
  hw.setTail p c fun x => { x with busy := false, bounds := if x.bounds.has x.cur then x.bounds else x.bounds.ins x.cur t }
/-- A waiting revert goes on (R339): the walk also waits for the writes of the context that have their W but have not passed it. [DEDUCED, unsafe: log 48] -/
def wakeRevert (s : State) (e : Env) (c k : Nat) (force : Bool) (d : Nat) : Option (Word × Nat) → Hw
  | some (v, t) =>
    if t ≤ s.time then e.retireParked { s := [(d, v)] } (endRevert s.hw e.part s.time c) else s.hw
  | none =>
    let x := (s.hw.tail e.part c).roll s.time
    if x.announced.isSome || ((s.hw.part e.part).pend.any fun w => w.tctx == some c && !w.full) then s.hw
    else
      let r := doRevert s e.part c k force
      setPath r.2.2.hw e.gk e.p fun q => { q with wait := .revert c k force d (some (r.1, r.2.1)) }

/-- wcfg (R338): body gets the Tail of the context named, the window and the context. -/
def wcfgForm (f : Fields) (s : State) (body : Env → Regs → TailSt → Nat → Nat → Res) : Out :=
  issueF Forms.wcfg f s fun e r =>
    let a := (e.sa r).toNat
    let b := (e.sb r).toNat
    if 65536 ≤ a ∨ 2 ^ 32 ≤ b then .trap { cause := 0x02, hit := e.act }
    else
      let x := (e.hw.tail e.part a).roll e.now
      if !x.en then .done (putS r 3) e.hw else body e r x b a
/-- wcfg.revert and wcfg.force (R338, R339). -/
def wcfgBack (f : Fields) (s : State) (force : Bool) : Out :=
  wcfgForm f s fun e r x k c =>
    if !ctxStopped e.hw e.part c then .done (putS r 1) e.hw
    else if !(winLe x.old k && winLe k x.cur) then .done (putS r 2) e.hw
    else if x.busy then .hold
    else .stay (e.park r .parked (.revert c k force r.d none) (e.hw.setTail e.part c fun _ => { x with busy := true }))
/-- wcfg.revert (R339). -/
def execWcfgRevert (f : Fields) (s : State) : Out := wcfgBack f s false
/-- wcfg.force (R339). -/
def execWcfgForce (f : Fields) (s : State) : Out := wcfgBack f s true
/-- wcfg.drop (R338). -/
def execWcfgDrop (f : Fields) (s : State) : Out :=
  wcfgForm f s fun e r x k c =>
    if !winLe k x.cur || !winLe x.old k then .done (putS r 2) e.hw
    else .done { s := [(r.d, wcfgResult k 0 0)] } (e.hw.setTail e.part c fun _ =>
      { x.discard (fun j => !winLe k j) with old := k })

end Sys2Proof.Machine
end

