-- ==== Sys2Proof/Machine/Contexts.lean ====
section
/-! DEFINITION. Contexts: system registers, traps and returns, banks, stops and kills (18_contexts R341-R358). -/

namespace Sys2Proof.Machine

open Sys2Proof

/-! ## Target words -/

/-- What a target word names (R343). -/
structure SysTarget where
  bad : Bool
  ctx : Nat
  core : Nat
  slot : Nat
  path : Nat
/-- Reads target word v for the issuing path (R343). -/
def Env.sysTarget (e : Env) (v : Word) : SysTarget :=
  let n := v.toNat
  { bad := bits 47 32 n != 0 || bits 29 21 n != 0
    ctx := if bit 31 n then e.ctx else bits 63 48 n
    core := if bit 30 n then e.core else bits 16 7 n
    slot := bits 5 0 n
    path := bits 20 17 n }
/-- Whether a core number names a core of partition p (R343, R358): not one of a parked die. -/
def coreNamed (hw : Hw) (p core : Nat) : Bool := corePart hw core == some p && !bit (coreDie core) hw.pkg.parked
/-- Cause 0x06 for a target word (R343, R358). -/
def targetTrap (e : Env) : Res := .trap { cause := 0x06, hit := e.act }
/-- The gang a target word names, in either bank or a save area. -/
def SysTarget.gk (x : SysTarget) : Nat := gangKey x.core x.ctx x.slot

/-! ## Live contexts -/

/-- A context becomes live (R341). -/
def makeLive (hw : Hw) (p c : Nat) : Hw :=
  if c = 0xFFFF ∨ (hw.ctx p c).isSome ∨ 4096 ≤ (hw.part p).contexts.length then hw
  else { hw.setPart p fun q => { q with contexts := q.contexts.ins c {} } with
    images := hw.images.filter fun i => !(i.1 % 65536 == c && corePart hw (i.1 / 65536) == some p) }
/-- A write of CTXCTL takes effect (R341). -/
def execCtxctlWrite (fn ctx : Nat) (v : Word) (s : State) : Out :=
  .next (s.with (if bit 0 v.toNat && (s.hw.part fn).present then makeLive s.hw fn ctx else s.hw))
/-- A write of HTBASE takes effect (12_handles R221). -/
def execHtbaseWrite (fn ctx : Nat) (v : Word) (s : State) : Out :=
  .next (s.with (s.hw.setCtx fn ctx fun c => { c with htbase := bits 39 17 v.toNat * 2 ^ 17 }))
/-- A write of PTROOT takes effect (12_handles R221). -/
def execPtrootWrite (fn ctx : Nat) (v : Word) (s : State) : Out :=
  .next (s.with (s.hw.setCtx fn ctx fun c => { c with ptroot := bits 39 17 v.toNat * 2 ^ 17 }))
/-- A write of SPLBASE (06_registers R130). -/
def writeSplbase (hw : Hw) (core ctx v : Nat) : Hw :=
  if slotUse hw core ctx = 0 then hw.setImage core ctx fun i => { i with splBase := bits 39 16 v * 2 ^ 16 } else hw
/-- A write of SPLBASE takes effect (06_registers R130). -/
def execSplbaseWrite (core ctx : Nat) (v : Word) (s : State) : Out :=
  match corePart s.hw core with
  | some p => .next (s.with (if (s.hw.ctx p ctx).isSome then writeSplbase s.hw core ctx v.toNat else s.hw))
  | none => .next s
/-- Whether some operation is pending on a tile (16_matrix R314). -/
def tilePending (hw : Hw) (core t : Nat) : Bool := hw.ops.any fun o => o.core == core && o.kind.tiles.contains t
/-- An accumulator tag takes a value (16_matrix R314). -/
def setAccTag (hw : Hw) (core t v : Nat) : Hw :=
  if bits 63 62 v = 3 then hw
  else hw.setCore core fun k => setTag k t fun x => { x with state := bits 63 62 v, owner := bits 47 32 v }
/-- A write of an accumulator tag takes effect, once no operation is pending on the tile; those that wait go in their order
(16_matrix R314). -/
def execAcctagWrite (core tile : Nat) (v : Word) (s : State) : Out :=
  let q := (s.hw.core core).tagWrites
  let ok := match q.find? fun x => x.1 == tile with | some x => x.2 == v.toNat | none => true
  if decide (864 ≤ core) || decide (192 ≤ tile) || tilePending s.hw core tile || !ok then .next s
  else .next (s.with (setAccTag (s.hw.setCore core fun k => { k with tagWrites := k.tagWrites.erase (tile, v.toNat) }) core tile v.toNat))

/-! ## System registers -/

/-- The scopes of Table CX-1. -/
inductive Scope where
  | context | ctxCore | core | gang | path | partition
  deriving DecidableEq, Repr
/-- The scope of register n and whether a user context may read it; none for an unassigned number (Table CX-1). -/
def sysReg (n : Nat) : Option (Scope × Bool) :=
  if n = 0x000 then some (.context, true)
  else if n = 0x010 ∨ n = 0x011 then some (.context, false)
  else if 0x020 ≤ n ∧ n ≤ 0x023 then some (.context, true)
  else if n = 0x030 ∨ n = 0x031 then some (.context, true)
  else if 0x100 ≤ n ∧ n ≤ 0x104 then some (.ctxCore, true)
  else if 0x200 ≤ n ∧ n ≤ 0x204 then some (.core, true)
  else if 0x300 ≤ n ∧ n < 0x300 + 192 then some (.core, true)
  else if n = 0x400 then some (.gang, true)
  else if 0x410 ≤ n ∧ n ≤ 0x413 then some (.gang, true)
  else if 0x440 ≤ n ∧ n < 0x440 + 32 then some (.gang, true)
  else if 0x500 ≤ n ∧ n ≤ 0x502 then some (.path, true)
  else if n = 0x600 ∨ n = 0x601 then some (.partition, false)
  else if n = 0x602 then some (.partition, true)
  else none

/-- CTXCTL as it reads (R344). -/
def ctxctl (hw : Hw) (p c : Nat) : Nat :=
  let st := match hw.ctx p c with
    | none => 0
    | some x => match x.state with | .live => 1 | .stopping => 1 | .stopped => 2 | .killing => 3
  c * 2 ^ 48 + b2n ((hw.part p).sup == c) * 2 ^ 47 + st * 2 ^ 45 + b2n (st != 0)
/-- TRAPCFG and STRAPCFG as they read (R348). -/
def Ring.cfg (r : Ring) : Nat := bits 39 16 r.base * 2 ^ 40 + b2n r.en * 256 + r.log2n
/-- Frames held for a ring of partition p, saturating (R348). -/
def heldFrames (hw : Hw) (p : Nat) (c : Option Nat) : Nat :=
  Nat.min 65535 ((hw.cores.filter fun k => corePart hw k.1 == some p).map fun k => (k.2.frames.filter fun f => f.ctx == c).length).sum
/-- Whether a context is in a bank of a core. -/
def inBank (hw : Hw) (core c : Nat) : Bool := (hw.core core).ctx0 == some c || (hw.core core).ctx1 == some c
/-- A set of small numbers as a bit mask. -/
def maskOfList (l : List Nat) : Nat := (dedup l).foldl (fun n k => n + 2 ^ k) 0
/-- SRAMMAP as it reads (Table SP-1). -/
def srammap (hw : Hw) (core : Nat) : Nat :=
  let h0 := heldUnits hw core 0
  let h1 := heldUnits hw core 1
  maskOfList h1 * 2 ^ 48 + maskOfList h0 * 2 ^ 32 + (16 - (dedup (h0 ++ h1)).length) * 2 ^ 16 + (hw.core core).xchg
/-- The code of a bank state (R350). -/
def BState.code : BState → Nat
  | .empty => 0 | .loaded => 1 | .draining => 2 | .spilling => 3 | .loading => 4
/-- BANKCTL as it reads (R350). -/
def bankctl (k : Core) : Nat :=
  k.ctx1.getD 0xFFFF * 2 ^ 48 + k.ctx0.getD 0xFFFF * 2 ^ 32 + k.swaps * 2 ^ 16 + k.act * 256 + k.st1.code * 16 + k.st0.code
/-- Reduction-buffer entries in use in the active bank (Table AT-4). -/
def redsInUse (hw : Hw) (core : Nat) : Nat :=
  match bankCtx hw core (hw.core core).act with
  | some c => ((gangsOn hw core c).map fun g => g.2.reds.length).sum
  | none => 0
/-- CLAIM of a tile: the context of the active bank's record that holds it (16_matrix R314). -/
def tileClaim (hw : Hw) (core t : Nat) : Nat :=
  match bankCtx hw core (hw.core core).act with
  | some c => if (hw.image core c).records.vals.any fun r => (recTiles r.1).contains t then c else 0xFFFF
  | none => 0xFFFF
/-- ACCTAG t as it reads (16_matrix R314). -/
def acctag (hw : Hw) (core t : Nat) : Nat :=
  let x := tagOf hw core t
  x.state * 2 ^ 62 + b2n x.fresh * 2 ^ 61 + x.owner * 2 ^ 32 + tileClaim hw core t * 2 ^ 16 + t

/-- A core-scope register as it reads. -/
def readCoreReg (hw : Hw) (core n : Nat) : Nat :=
  let k := hw.core core
  if n = 0x200 then bankctl k
  else if n = 0x201 then srammap hw core
  else if n = 0x202 then k.wtStalls * 2 ^ 32 + k.wtPeak % 1024 * 2 ^ 16 + waitEntries hw core
  else if n = 0x203 then k.ordErr * 2 ^ 48 + k.implicit * 2 ^ 32 + k.objErr * 2 ^ 16 + redsInUse hw core
  else if n = 0x204 then k.passes * 2 ^ 32 + k.fused * 2 ^ 16 + reservations hw core
  else acctag hw core (n - 0x300)
/-- A register of a live context as it reads, scopes context and ctx/core. -/
def readCtxReg (hw : Hw) (p t c core n : Nat) : Nat :=
  match hw.ctx p c with
  | none => 0
  | some x =>
    let im := hw.image core c
    match n with
    | 0x010 => x.htbase
    | 0x011 => x.ptroot
    | 0x020 => x.tail.ctl
    | 0x021 => x.tail.stat t
    | 0x022 => tailUse hw p c
    | 0x023 => x.tail.stepWord
    | 0x030 => x.ring.cfg
    | 0x031 => x.ring.posted * 2 ^ 32 + heldFrames hw p (some c) * 2 ^ 16 + x.ring.esc
    | 0x100 => im.splBase
    | 0x101 => im.splSlots
    | 0x102 => slotUse hw core c * 2 ^ 40 + (if inBank hw core c then physV hw core c * 2 ^ 27 + physS hw core c * 2 ^ 13 else 0)
    | 0x103 => im.reloads * 2 ^ 32 + im.evicts
    | _ => im.csave
/-- A gang- or path-scope register as it reads; a slot or entry that holds nothing reads 0 (R344). -/
def readGangReg (hw : Hw) (gk path n : Nat) : Nat :=
  match hw.gangs.look gk with
  | none => 0
  | some g =>
    if n = 0x400 then pctlWord g
    else if n < 0x440 then nestWord g (n - 0x410)
    else if n < 0x500 then foldWord g (n - 0x440)
    else match g.paths.look path with
      | some q => (entryImage q).getD (n - 0x500) 0
      | none => 0
/-- What rsys reads (R344, R358): all ones where the target names nothing. -/
def readSys (hw : Hw) (p t n : Nat) (sc : Scope) (x : SysTarget) : Nat :=
  let core := sc == .ctxCore || sc == .core || sc == .gang || sc == .path
  if core && !coreNamed hw p x.core then 2 ^ 64 - 1
  else match sc with
  | .partition =>
    let q := hw.part p
    if n = 0x600 then q.sring.cfg
    else if n = 0x601 then q.sring.posted * 2 ^ 32 + heldFrames hw p none * 2 ^ 16
    else q.sup
  | .core => readCoreReg hw x.core n
  | .gang | .path => if (hw.ctx p x.ctx).isSome then readGangReg hw x.gk x.path n else 0
  | _ => if n = 0 then ctxctl hw p x.ctx else readCtxReg hw p t x.ctx x.core n

/-- A write of TRAPCFG or STRAPCFG (R348): while EN is 1 only EN changes. -/
def Ring.write (r : Ring) (v : Nat) : Ring :=
  if r.en then { r with en := bit 8 v } else { r with base := bits 63 40 v * 2 ^ 16, en := bit 8 v, log2n := Nat.max 4 (bits 3 0 v) }
/-- A write of SPLSIZE, with the slots in use (06_registers R130). -/
def Image.setSlots (i : Image) (use v : Nat) : Image :=
  let n := bits 23 0 v
  if n < 4352 ∨ n < 4352 + use then i else { i with splSlots := n }
/-- A write of CSAVE (R352). -/
def Image.setSave (i : Image) (v : Nat) : Image := if i.place = .away then { i with csave := bits 39 21 v * 2 ^ 21 } else i
/-- A write of a core-scope register. -/
def writeCoreReg (hw : Hw) (core n v : Nat) : Hw :=
  if n = 0x200 then hw.setCore core fun k => { k with swaps := bits 31 16 v }
  else if n = 0x201 then hw.setCore core fun k => { k with xchg := bits 15 0 v }
  else if n = 0x202 then hw.setCore core fun k => { k with wtStalls := bits 63 32 v, wtPeak := bits 25 16 v }
  else if n = 0x203 then hw.setCore core fun k => { k with ordErr := bits 63 48 v, implicit := bits 47 32 v, objErr := bits 31 16 v }
  else if n = 0x204 then hw.setCore core fun k => { k with passes := bits 63 32 v, fused := bits 31 16 v }
  else if tilePending hw core (n - 0x300) || (hw.core core).tagWrites.any fun x => x.1 == n - 0x300 then
    hw.setCore core fun k => { k with tagWrites := k.tagWrites ++ [(n - 0x300, v)] }
  else setAccTag hw core (n - 0x300) v
/-- A write of a register of a live context. -/
def writeCtxReg (hw : Hw) (m : Tab Memory) (p t c core n v : Nat) : Hw :=
  match n with
  | 0x010 => hw.setCtx p c fun x => { x with htbase := bits 39 17 v * 2 ^ 17 }
  | 0x011 => hw.setCtx p c fun x => { x with ptroot := bits 39 17 v * 2 ^ 17 }
  | 0x020 => writeTlctl hw m p t c v
  | 0x022 => hw.setTail p c fun x => { x with events := bits 63 48 v }
  | 0x023 => hw.setTail p c fun x =>
      { x with step := bit 63 v, stepGang := bits 20 4 v, stepPath := bits 3 0 v, stepOver := false, stepAsked := false
               stepAt := if (x.stepLog.map (·.fin)).getD false then x.stepAt else none, stepLog := x.stepLog.filter (·.fin) }
  | 0x030 => hw.setCtx p c fun x => { x with ring := x.ring.write v }
  | 0x031 => hw.setCtx p c fun x => { x with ring := { x.ring with posted := bits 63 32 v, esc := bits 15 0 v } }
  | 0x100 => writeSplbase hw core c v
  | 0x101 => hw.setImage core c fun i => i.setSlots (slotUse hw core c) v
  | 0x103 => hw.setImage core c fun i => { i with reloads := bits 63 32 v, evicts := bits 31 0 v }
  | 0x104 => hw.setImage core c fun i => i.setSave v
  | _ => hw
/-- What wsys writes (R344, R358). -/
def writeSys (hw : Hw) (m : Tab Memory) (p t n : Nat) (sc : Scope) (x : SysTarget) (v : Nat) : Hw :=
  let core := sc == .ctxCore || sc == .core || sc == .gang || sc == .path
  if core && !coreNamed hw p x.core then hw
  else match sc with
  | .partition =>
    if n = 0x600 then hw.setPart p fun q => { q with sring := q.sring.write v }
    else if n = 0x601 then hw.setPart p fun q => { q with sring := { q.sring with posted := bits 63 32 v } }
    else hw
  | .core => writeCoreReg hw x.core n v
  | .gang => if (hw.ctx p x.ctx).isSome ∧ n = 0x400 then hw.setGang x.gk fun g => { g with fold := bit 16 v } else hw
  | .path => hw
  | _ => if n = 0 then (if bit 0 v then makeLive hw p x.ctx else hw)
    else if (hw.ctx p x.ctx).isSome then writeCtxReg hw m p t x.ctx x.core n v else hw

/-- Whether a user context's access raises cause 0x03 (R344, R358). -/
def userDenied (e : Env) (sc : Scope) (reads write : Bool) (x : SysTarget) : Bool :=
  !e.sup && (write || !reads || match sc with
    | .partition => false
    | .core => coreNamed e.hw e.part x.core && !inBank e.hw x.core e.ctx
    | _ => x.ctx != e.ctx)
/-- A form that reaches a system register (R358). -/
def sysForm (fm : Form) (f : Fields) (s : State) (write : Bool) (body : Env → Regs → Nat → Scope → SysTarget → Res) : Out :=
  issueF fm f s fun e r =>
    let x := e.sysTarget (e.sa r)
    let n := if f.isX then bits 11 0 f.imm else (e.sb r).toNat
    if x.bad then targetTrap e
    else match sysReg n with
    | none => .trap { cause := 0x01, hit := e.act }
    | some (sc, reads) => if userDenied e sc reads write x then .trap { cause := 0x03, hit := e.act } else body e r n sc x
/-- Whether an access names another core than the issuing one, for which its path waits (R358). -/
def otherCore (e : Env) (sc : Scope) (x : SysTarget) : Bool :=
  (match sc with | .ctxCore | .core | .gang | .path => true | _ => false) && coreNamed e.hw e.part x.core && x.core != e.core
/-- rsys (R358). -/
def execRsys (f : Fields) (s : State) : Out :=
  sysForm Forms.rsys f s false fun e r n sc x =>
    let res : Res := .done (putS r (readSys e.hw e.part e.now n sc x)) e.hw
    if otherCore e sc x then e.asks r false res else res
/-- wsys (R358). -/
def execWsys (f : Fields) (s : State) : Out :=
  sysForm Forms.wsys f s true fun e r n sc x =>
    let res : Res := .done {} (writeSys e.hw e.s.mem e.part e.now n sc x (e.sd r).toNat)
    if otherCore e sc x then e.asks r false res else res

/-! ## Traps -/

/-- trap n (R349). -/
def execTrapS (f : SFields) (s : State) : Out :=
  issueS Forms.trapS f s fun e _ => .trap { cause := 0x15, info := f.d.toNat, hit := e.act }
/-- trap sa (R349). -/
def execTrap (f : Fields) (s : State) : Out :=
  issueF Forms.trap f s fun e r => .trap { cause := 0x15, info := (e.sa r).toNat % 2 ^ 32, hit := e.act }

/-- A path stopped by a trap goes on at an address (R349); of a folded path, the lanes that were stopped at the form (05_paths R114). -/
def resumeAt (hw : Hw) (gk p : Nat) (pc : Word) : Hw :=
  hw.setGang gk fun g => match g.paths.look p with
    | none => g
    | some q =>
      let v := seenAs g q
      let g1 := { g with paths := g.paths.ins p { q with
        state := .ready, trap := none, wait := .none, age := 0, skipBp := q.skipBp && pc == v.pc, skipWp := q.skipWp && pc == v.pc } }
      if pc = v.pc ∧ !q.folded then g1 else sendLanes g1 p (groupOf g q) pc (if pc = v.pc then v.cl else v.cl.after pc) id
/-- The paths that a rejoin deadlock stopped become ready, each to issue its rejoin again (05_paths R112). -/
def resumeDeadlock (hw : Hw) (gk group : Nat) : Hw :=
  hw.setGang gk fun g => { g with paths := g.paths.map fun x => match x.2.trap with
    | some r => if r.cause = 0x0A ∧ r.group = group ∧ x.2.state = .stopped then
        (x.1, { x.2 with state := .ready, age := 0, pc := if x.2.folded then x.2.pc else r.resume, trap := none, wait := .none }) else x
    | none => x }
/-- tret on a stopped path of gang gk (R349): the status and the machine. -/
def doTret (s : State) (gk p : Nat) (q : Path) (t : TrapRec) (op : Nat) : Nat × Hw :=
  if op = 2 then (0, (endLanes (s.with (setPath s.hw gk p fun q => { q with trap := none })) gk p q.mask).hw)
  else if op = 1 then
    if t.cause = 0x04 ∨ t.cause = 0x0A then (2, s.hw) else (0, resumeAt s.hw gk p t.next)
  else if t.cause = 0x0A then (0, resumeDeadlock s.hw gk t.group)
  else (0, resumeAt s.hw gk p t.resume)
/-- tret (R349): its path waits until it is applied. -/
def execTret (f : Fields) (s : State) : Out :=
  issueF Forms.tret f s fun e r =>
    let x := e.sysTarget (e.sa r)
    if x.bad then targetTrap e
    else if !e.sup && x.ctx != e.ctx then .trap { cause := 0x03, hit := e.act }
    else e.asks r false (match (if coreNamed e.hw e.part x.core then (e.hw.gangs.look x.gk).bind fun g => g.paths.look x.path else none) with
    | none => .done (putS r 3) e.hw
    | some q =>
      match q.trap with
      | none => .done (putS r 2) e.hw
      | some t =>
        if q.state ≠ .stopped then .done (putS r 2) e.hw
        else if !e.sup && t.level != 0 then .trap { cause := 0x03, hit := e.act }
        else
          let y := doTret e.s x.gk x.path q t f.op
          .done (putS r y.1) y.2)

/-- A held frame escalates: its LEVEL is 0b10, for the tret of its path as well (R346, R349). -/
def escalate (hw : Hw) (core c : Nat) (ws : List Nat) : Hw :=
  setPath hw (gangKey core c (bits 5 0 (ws.getD 1 0))) (bits 11 8 (ws.getD 0 0)) fun q => { q with
    trap := q.trap.map fun t => if t.cause = bits 7 0 (ws.getD 0 0) ∧ q.pc.toNat = ws.getD 2 0 then { t with level := 2 } else t }
/-- A held frame is tried again (R348): the oldest of each ring first, none past one that still finds no room; frames of a ring
that is now disabled escalate. -/
def retryFrames (hw : Hw) (m : Tab Memory) (p t core : Nat) : List HeldFrame → List (Option Nat) → Hw → Hw
  | [], _, h => h
  | f :: fs, stuck, h =>
    let older := hw.cores.any fun k => k.1 != core && corePart hw k.1 == some p &&
      k.2.frames.any fun g => g.ctx == f.ctx && decide (g.words.getD 6 0 < f.words.getD 6 0)
    let keep : Hw := h.setCore core fun k => { k with frames := k.frames ++ [f] }
    if stuck.contains f.ctx || older then retryFrames hw m p t core fs (f.ctx :: stuck) keep
    else
      let ring := match f.ctx with
        | some c => match h.ctx p c with | some x => x.ring | none => {}
        | none => (h.part p).sring
      match f.ctx with
      | some c =>
        if !ring.en then
          let h1 := escalate (h.setCtx p c fun x => { x with ring := { x.ring with esc := (x.ring.esc + 1) % 2 ^ 16 } }) core c f.words
          let ws := f.words.set 1 (f.words.getD 1 0 + 2 * 2 ^ 46)
          retryFrames hw m p t core fs stuck (match (if stuck.contains none then none else postFrame h1 m p t (h1.part p).sring ws) with
            | some h2 => h2.setPart p fun q => { q with sring := q.sring.post }
            | none => h1.setCore core fun k => { k with frames := k.frames ++ [⟨none, ws⟩] })
        else match postFrame h m p t ring f.words with
          | some h2 => retryFrames hw m p t core fs stuck (h2.setCtx p c fun x => { x with ring := x.ring.post })
          | none => retryFrames hw m p t core fs (f.ctx :: stuck) keep
      | none => match postFrame h m p t ring f.words with
          | some h2 => retryFrames hw m p t core fs stuck (h2.setPart p fun q => { q with sring := q.sring.post })
          | none => retryFrames hw m p t core fs (none :: stuck) keep
/-- The held frames of a core are tried again (R348). -/
def execFrameRetry (core : Nat) (s : State) : Out :=
  match corePart s.hw core with
  | some p =>
    let fs := (s.hw.core core).frames
    .next (s.with (retryFrames s.hw s.mem p s.time core fs [] (s.hw.setCore core fun k => { k with frames := [] })))
  | none => .next s

/-! ## Held operations and quiet contexts -/

/-- Whether an element waits for an event that no bounded time assures (R353). -/
def elemHeld (hw : Hw) (o : Op) (e : Elem) : Bool :=
  let k := (hw.part o.part).link
  (e.st == 5 && (hw.tail o.part o.ctx).policy != 2) ||
    (e.st == 1 && (hw.tail o.part o.ctx).policy != 2 && (hw.part o.part).pend.any fun w => w.id == o.id && (w.full || (w.blocked && lineHeld hw o.part (lineOf w.addr) 0))) ||
    ((e.st == 0 || e.st == 1) && e.tgt.space == 2 && peerReach k e.tgt.peer && !peerSends k e.tgt.peer) ||
    (e.st == 0 && e.tgt.space == 1 && k.cxl && !sectorHeld k e.tgt.pa && (match o.kind with | .load .. => false | _ => true))
/-- Whether an operation is held (R353): all that is left of it waits so. -/
def opHeld (hw : Hw) (o : Op) : Bool :=
  let es := o.kind.elems
  match o.kind with
  | .copy c => !c.todo.isEmpty && c.todo.all fun x => x.st == 6 || (x.st == 5 && (hw.tail o.part o.ctx).policy != 2) ||
      (x.tgt.space == 2 && peerReach (hw.part o.part).link x.tgt.peer && !peerSends (hw.part o.part).link x.tgt.peer)
  | _ => !es.isEmpty && (es.any (elemHeld hw o)) && es.all fun e => e.st == 2 || e.st == 3 || elemHeld hw o e
/-- Whether the background work of a context on a core is finished (02_formats R46, R353). -/
def workDone (hw : Hw) (p core ctx : Nat) : Bool :=
  hw.ops.all fun o => !(o.part == p && o.core == core && o.ctx == ctx) || opHeld hw o
/-- Whether a context that no longer issues is stopped (R356): all its work everywhere is finished. -/
def ctxQuiet (hw : Hw) (p c : Nat) : Bool := hw.ops.all fun o => !(o.part == p && o.ctx == c) || opHeld hw o

/-- A held operation completes wherever its gang is (R353): what it waited for has come. -/
def execHeldOperationComplete (id : Nat) (s : State) : Out :=
  let s := s.with (match s.hw.op id with | some o => combineLines s.mem s.time o.part s.hw | none => s.hw)
  match s.hw.op id with
  | some o =>
    if !(o.held || o.kind.elems.any fun e => e.st == 5 || ((e.st == 0 || e.st == 1) && e.tgt.space != 0)) then .next s
    else match o.kind with
    | .copy _ => execCopyComplete id [] s
    | .partialSum .. => execRedPartialArrival id s
    | .atomic .. => execAtomicReply id [] s
    | .load .. => execLoadReply id (BitVec.allOnes 32) [] s
    | _ => match execWriteArrival id (BitVec.allOnes 32) s with
      | .next t => execWriteWReturn id t
      | x => x
  | none => .next s

/-! ## Banks -/

/-- Sets the state of a bank. -/
def setBank (hw : Hw) (core b : Nat) (st : BState) : Hw := hw.setCore core fun k => if b = 0 then { k with st0 := st } else { k with st1 := st }
/-- The state of a bank. -/
def bankState (hw : Hw) (core b : Nat) : BState := if b = 0 then (hw.core core).st0 else (hw.core core).st1
/-- Whether a wait ends at a swap, its form issuing again on resumption (R351). -/
def Wait.reissues : Wait → Bool
  | .operands | .query .. | .go _ | .gwait .. | .woken .. | .fence .. | .sfence .. | .wdone .. | .tnow .. | .twait .. | .release .. | .barw .. | .bwait .. | .wmark .. | .fwait ..
  | .command .. => true
  | _ => false
/-- The paths of a context that becomes active (R351; 05_paths R117; 12_handles R245): forms that waited issue again, ages are
equal, failed replies raise their traps, and waiting groups are evaluated. -/
def wakeContext (s : State) (core c : Nat) : State :=
  let again (q : Path) : Path := if q.wait.reissues then { q with wait := .none, form := none, moving := 0, state := .ready, age := 0 } else { q with age := 0 }
  let fix (g : Gang) : Gang := (g.paths.filter fun q => q.2.folded && q.2.wait.reissues).foldl (fun x q => refold x q.1)
    { g with paths := g.paths.map fun q => (q.1, again q.2) }
  let h := { s.hw with gangs := s.hw.gangs.map fun g => if g.1 / 64 = imgKey core c then (g.1, fix g.2) else g }
  let fails := (gangsOn h core c).flatMap fun g => g.2.paths.filterMap fun q => match q.2.wait with
    | .failed k i f m => some (g.1, q.1, ({ cause := k, info := i, fault := f, hit := m } : Trap), (match q.2.form with | some r => r.len | none => 0), q.2.insn.toNat)
    | _ => none
  let h2 := fails.foldl (fun h x => takeTrap s h x.1 x.2.1 x.2.2.1 x.2.2.2.1 x.2.2.2.2) h
  ((gangsOn h2 core c).map (·.1)).foldl (fun s gk => settleRejoin gk 40 s) (s.with h2)
/-- The flip of a core falls (R351). [DEDUCED, safe: log 90] -/
def doFlip (s : State) (core : Nat) : State :=
  let k := s.hw.core core
  let b := 1 - k.act
  let h := s.hw.setCore core fun k => { k with act := b, flipAt := none, swaps := (k.swaps + 1) % 65536 }
  let h := if (bankCtx h core k.act).isSome then setBank h core k.act .draining else h
  match bankCtx h core b with
  | some c => wakeContext (s.with h) core c
  | none => s.with h

/-- The bytes of unit u of the block of a context that holds it. -/
def unitBytes (hw : Hw) (core c u : Nat) : List Byte :=
  match hw.blocks.find? fun b => b.2.core == core && b.2.ctx == c && decide (b.2.spb ≤ u) && decide (u < b.2.spb + b.2.spn) with
  | some b => (List.range 32768).map fun i => b.2.scr.val 0 ((u - b.2.spb) * 32768 + i)
  | none => List.replicate 32768 0
/-- Writes bytes as the device does, line by line; spill traffic appends no Tail record (06_registers R127). -/
def spillWrite (hw : Hw) (p t a : Nat) (bs : List Byte) : Hw :=
  (linePieces (bs.length / 128 + 2) a bs).foldl (fun h x => (putWrite h p t x.1 x.2 0 0 0).2) hw
/-- Whether a bank number names a bank: the owner 2 of a unit means that the contents of the bank that holds it lie in its save area. -/
def isBank (b : Nat) : Bool := decide (b < 2)
/-- A unit of a block of a context is reloaded from the context's save area (11_scratchpad R205). -/
def reloadUnit (s : State) (hw : Hw) (p core c u : Nat) : Hw :=
  let a := (hw.image core c).csave + 0x40000 + 32768 * u
  { hw with blocks := hw.blocks.map fun b =>
      if b.2.core = core ∧ b.2.ctx = c ∧ b.2.spb ≤ u ∧ u < b.2.spb + b.2.spn then
        (b.1, scrStore b.2 ((u - b.2.spb) * 32768) ((List.range 32768).map fun i => latestByte s.mem (hw.part p).pend p (a + i)))
      else b }
/-- The background engine saves a unit that holds the inactive bank's contents, gives it to the active bank, and reloads what that bank's
block had in it (11_scratchpad R205; 18_contexts R355). [DEDUCED, unsafe: log 79] -/
def execUnitExchange (core unit : Nat) (s : State) : Out :=
  let k := s.hw.core core
  match k.units.look unit, corePart s.hw core with
  | some b, some p =>
    if b == k.act || !(heldUnits s.hw core k.act).contains unit || decide (15 ≤ unit) then .next s
    else
      let h := match (if isBank b then bankCtx s.hw core b else none) with
        | some c => if (heldUnits s.hw core b).contains unit then
            spillWrite s.hw p s.time ((s.hw.image core c).csave + 0x40000 + 32768 * unit) (unitBytes s.hw core c unit) else s.hw
        | none => s.hw
      let h1 := match bankCtx s.hw core k.act with | some c => reloadUnit s h p core c unit | none => h
      .next (s.with (h1.setCore core fun k => { k with units := k.units.ins unit k.act, xchg := (k.xchg + 1) % 65536 }))
  | _, _ => .next s

/-- Memory of a save area that holds device state (Table CX-4). -/
def areaBytes (m : Tab Memory) (p a : Nat) : Tab Byte :=
  (memOf m p).filter fun x => decide (a + 0x1000 ≤ x.1) && decide (x.1 < a + 0x40000)
/-- Empties a bank of a core: units that the other bank holds are still to be exchanged (11_scratchpad R205, R207). -/
def emptyBank (hw : Hw) (core b : Nat) : Hw :=
  hw.setCore core fun k =>
    let k1 := { k with units := k.units.filter fun u => u.2 != b || (heldUnits hw core (1 - b)).contains u.1 }
    let k2 := if b = k.act then k1 else { k1 with moveAt := none, outPend := false }
    if b = 0 then { k2 with ctx0 := none, st0 := .empty } else { k2 with ctx1 := none, st1 := .empty }
/-- The gang images of a save area (05_paths R91, R117): of each gang slot its path table, PCTL, fold array and nesting counters, as 85 words
with open ones behind them, 5,120 bytes in all. -/
def gangImage (hw : Hw) (core c n k : Nat) : List Nat :=
  let g := (hw.gangs.look (gangKey core c k)).getD {}
  ((List.range 16).flatMap fun i => match g.paths.look i with | some q => entryImage q | none => [0, 0, 0]) ++ [pctlWord g] ++
    allLanes.map (foldWord g) ++ (List.range 4).map (nestWord g) ++ (List.range 555).map fun i => Config.free (n + 640 * k + i) % 2 ^ 64
/-- The device state of a save area: gang images from 0x1000 on, and from there to 0x40000 what the device keeps beside them, which is open
(Table CX-4). -/
def deviceState (hw : Hw) (core c n : Nat) : List Byte :=
  wordBytes (((List.range 48).flatMap (gangImage hw core c n)) ++ (List.range 1536).map fun i => Config.free (n + 30720 + i) % 2 ^ 64)
/-- Where the registers of a context go at a swap-out (06_registers R128): each that has no slot gets one of the reserve, from an open one
on. -/
def reserveSlots (hw : Hw) (core c d : Nat) : Tab Nat :=
  let sp := liveSpilled hw core c
  let ks := heldKeys hw core c
  let new := (ks.1 ++ ks.2).filter fun k => !sp.has k
  ((List.range new.length).zip new).foldl (fun t x => t.ins x.2 ((d + x.1) % 4352)) sp
/-- The context of the inactive bank is written out (R352, R355; 06_registers R128): its registers to their slots, the units whose contents
it holds, and its save area, but for the first two words. Answers when the last write has passed. -/
def spillOut (hw : Hw) (p t core c : Nat) : Nat × Hw :=
  let a := (hw.image core c).csave
  let b := bankOf hw core c
  let d := hw.draw
  let h0 := d.2.setImage core c fun i => { i with spilled := reserveSlots hw core c d.1 }
  let h1 := ((h0.image core c).spilled).foldl (fun h x => putSlot h p t core c x.2 x.1) h0
  let us := (heldUnits hw core b).filter fun u => (hw.core core).units.look u == some b
  let h2 := us.foldl (fun h u => spillWrite h p t (a + 0x40000 + 32768 * u) (unitBytes hw core c u)) h1
  let h3 := spillWrite h2 p t (a + 0x10) (List.replicate 4080 0)
  let h4 := spillWrite { h3 with free := h3.free + 32256 } p t (a + 0x1000) (deviceState hw core c h3.free)
  (lastPend h4 p t + 2, h4)
/-- Whether the save header of a context on a core is valid and names it (R355). -/
def headerValid (hw : Hw) (m : Tab Memory) (p core c : Nat) : Bool :=
  let w := latestNat m hw p (hw.image core c).csave 8
  bit 63 w && bits 47 32 w == c
/-- The device state of a save area is restored into a bank (R355): what the last spill left, or, where the area does not hold
that, any outcome within the context. Units that its records hold are reloaded from their slots when the bank is active. [DESIGN CHOICE, unsafe: log 78] -/
def restoreIn (s : State) (p core b c : Nat) : Hw :=
  let im := s.hw.image core c
  let h0 := (putWrite s.hw p s.time im.csave (toBytes 8 (c * 2 ^ 32 + core)) 0 0 0).2
  let h1 := if im.place = .saved ∧ areaBytes s.mem p im.csave = im.area then h0
    else
      let d := h0.draw
      let gs : Tab Gang := (Config.restoredGangs d.1).filterMap fun g => if g.1 < 48 then
        some (gangKey core c g.1, { g.2 with part := p, ctx := c, launch := 0, block := 0 }) else none
      { d.2.setImage core c fun _ => { Config.restoredImage d.1 with csave := im.csave, records := [], ltable := [], chains := [] } with
        gangs := gs.foldl (fun t x => t.ins x.1 x.2) (d.2.gangs.filter fun g => g.1 / 64 != imgKey core c) }
  let h2 := h1.setImage core c fun i => { i with place := .bank b, area := [], spilled := i.spilled.filter fun x => decide (4352 ≤ x.2) }
  let us := dedup ((h2.image core c).records.vals.flatMap fun r => recUnits r.1)
  let h3 := h2.setCore core fun k => { k with units := us.foldl (fun t u => if t.has u then t else t.ins u 2) k.units }
  h3.setCore core fun k => if b = 0 then { k with ctx0 := some c, st0 := .loaded } else { k with ctx1 := some c, st1 := .loaded }

/-- The inactive bank of a core begins to be spilled (R355). -/
def startSpill (hw : Hw) (p t core c : Nat) : Hw :=
  let x := spillOut (setBank hw core (1 - (hw.core core).act) .spilling) p t core c
  x.2.setCore core fun k => { k with moveAt := some x.1, outPend := false }
/-- The inactive bank of a core begins to be loaded (R355); how long that takes is open. -/
def startLoad (hw : Hw) (t core c : Nat) : Hw :=
  let d := hw.draw
  (setBank d.2 core (1 - (hw.core core).act) .loading).setCore core fun k =>
    let k1 := { k with moveAt := some (t + d.1) }
    if k.act = 0 then { k1 with ctx1 := some c } else { k1 with ctx0 := some c }
/-- A spill or a load is over (R355): a spill, once none of its writes waits for the host, by the time of its completion and the header. -/
def endMove (s : State) (core : Nat) : State :=
  let b := 1 - (s.hw.core core).act
  let h := s.hw.setCore core fun k => { k with moveAt := none }
  match corePart h core, bankCtx h core b, bankState h core b with
  | some p, some c, .spilling =>
    if (h.part p).pend.any (·.blocked) then s
    else
      let a := (h.image core c).csave
      let h1 := devWriteLast h p s.time (a + 8) ((s.hw.core core).moveAt.getD s.time)
      let h2 := devWriteLast h1 p s.time a (2 ^ 63 + c * 2 ^ 32 + core)
      s.with ((emptyBank h2 core b).setImage core c fun i => { i with place := .saved, area := areaBytes s.mem p a })
  | some p, some c, .loading => s.with (restoreIn (s.with h) p core b c)
  | _, _, _ => s.with h
/-- The old bank's outstanding work is finished (R351); a cswap.out that waits for that goes on (R355). -/
def execBankDrainDone (core : Nat) (s : State) : Out :=
  let b := 1 - (s.hw.core core).act
  match corePart s.hw core, bankCtx s.hw core b with
  | some p, some c =>
    if bankState s.hw core b = .draining ∧ workDone s.hw p core c then
      .next (s.with (if (s.hw.core core).outPend then startSpill s.hw p s.time core c else setBank s.hw core b .loaded))
    else .next s
  | _, _ => .next s

/-- What a context command waits for (R355-R357): the end of a flip. -/
def cmdFlip : Nat := 0
/-- The end of a spill, and of the drain before it. -/
def cmdOut : Nat := 1
/-- The end of a load. -/
def cmdLoad : Nat := 2
/-- That the context is stopped. -/
def cmdStop : Nat := 3
/-- That the context is no longer being killed. -/
def cmdKill : Nat := 4

/-- The core a cswap acts on (R355), once its target word is good, no flip of it is under way and no other .out
waits there. -/
def swapForm (f : Fields) (s : State) (body : Env → Regs → Nat → Res) : Out :=
  issueF Forms.cswap f s fun e r =>
    let x := e.sysTarget (e.sa r)
    if x.bad then targetTrap e
    else if !coreNamed e.hw e.part x.core then .done (putS r 3) e.hw
    else if (e.hw.core x.core).flipAt.isSome || (e.hw.core x.core).outPend then .hold
    else body e r x.core
/-- Whether a bank is in motion (R355). -/
def bankBusy (st : BState) : Bool := match st with | .draining | .spilling | .loading => true | _ => false
/-- cswap.flip (R351, R355): when the path's own context goes, it retires before the flip. -/
def execCswapFlip (f : Fields) (s : State) : Out :=
  swapForm f s fun e r core =>
    let k := e.hw.core core
    if bankBusy k.st0 || bankBusy k.st1 then .done (putS r 1) e.hw
    else
      let t := coreCycles e.hw core e.now + 64
      let h := e.hw.setCore core fun k => { k with flipAt := some t }
      if core = e.core then .done (putS r 0) h else .stay (e.park r .parked (.command r.d core 0 cmdFlip t) h)
/-- cswap.out (R355). -/
def execCswapOut (f : Fields) (s : State) : Out :=
  swapForm f s fun e r core =>
    let b := 1 - (e.hw.core core).act
    match bankState e.hw core b, bankCtx e.hw core b with
    | .loaded, some c => .stay (e.park r .parked (.command r.d core c cmdOut 0) (startSpill e.hw e.part e.now core c))
    | .draining, some c =>
      .stay (e.park r .parked (.command r.d core c cmdOut 0) (e.hw.setCore core fun k => { k with outPend := true }))
    | _, _ => .done (putS r 2) e.hw
/-- cswap.in (R355). -/
def execCswapIn (f : Fields) (s : State) : Out :=
  swapForm f s fun e r core =>
    let c := (e.sb r).toNat % 65536
    let b := 1 - (e.hw.core core).act
    match e.hw.ctx e.part c with
    | none => .done (putS r 3) e.hw
    | some _ =>
      if bankState e.hw core b ≠ .empty ∨ inBank e.hw core c ∨ !headerValid e.hw e.s.mem e.part core c then .done (putS r 2) e.hw
      else .stay (e.park r .parked (.command r.d core c cmdLoad 0) (startLoad e.hw e.now core c))

/-- A command that names a context (R355-R357): the statuses 3, 4 and 1. -/
def ctxForm (fm : Form) (f : Fields) (s : State) (guard : Bool) (body : Env → Regs → Nat → Context → Res) : Out :=
  issueF fm f s fun e r =>
    let x := e.sysTarget (e.sa r)
    if x.bad then targetTrap e
    else match e.hw.ctx e.part x.ctx with
    | none => .done (putS r 3) e.hw
    | some c =>
      if guard && x.ctx == (e.hw.part e.part).sup then .done (putS r 4) e.hw
      else if c.state = .killing then .done (putS r 1) e.hw
      else body e r x.ctx c
/-- cstop (R356). -/
def execCstop (f : Fields) (s : State) : Out :=
  ctxForm Forms.cstop f s true fun e r c x =>
    if x.state = .stopped then .done (putS r 0) e.hw
    else .stay (e.park r .parked (.command r.d 0 c cmdStop 0) (stopCtx e.hw e.part c))
/-- cresume (R356). [DEDUCED, unsafe: log 80] -/
def execCresume (f : Fields) (s : State) : Out :=
  ctxForm Forms.cresume f s false fun e r c x =>
    if x.state ≠ .stopped then .done (putS r 2) e.hw
    else .done (putS r 0) (e.hw.setCtx e.part c fun x => { x with state := .live })

/-- Whether a killed context's operation lives on at its target (R357): a write that left its core, a reply's entry or a
command to the I/O die. -/
def OpKind.outlives : OpKind → Bool
  | .store .. | .atomic .. | .counter .. | .partialSum .. | .fsig .. | .load .. | .hflush .. | .fmcr .. => true
  | _ => false
/-- Takes a context off a core (R357): its bank is empty, its tiles free, its records and frames gone. -/
def killOnCore (hw : Hw) (core c : Nat) : Hw :=
  let h1 := if (hw.core core).ctx0 = some c then emptyBank hw core 0 else hw
  let h2 := if (hw.core core).ctx1 = some c then emptyBank h1 core 1 else h1
  h2.setCore core fun k => { k with
    frames := k.frames.filter fun f => f.ctx != some c && f.words.getD 1 0 / 2 ^ 48 != c
    acctag := (((hw.image core c).records.vals.flatMap fun r => recTiles r.1).foldl (tagEnd c) k).acctag.map fun x => (x.1, if x.2.owner = c ∧ x.2.state ≠ 0 then { x.2 with state := 0, fresh := false } else x.2) }
/-- The multicast-reduce groups a context's handle table names (R357). -/
def mcrHandles (hw : Hw) (m : Tab Memory) (p c : Nat) : List Nat :=
  dedup ((List.range 4096).filterMap fun h => let x := readHandle hw m p c h; if x.ok && x.space == 4 then some x.tgt else none)
/-- A context is killed (R357): everything of it but what has left its cores. -/
def doKill (s : State) (p c : Nat) : Hw :=
  let s1 := discardHeld s p c
  let h0 := s1.hw.setTail p c TailSt.off
  let mine (gk : Nat) : Bool := gkCtx gk == c && corePart h0 (gkCore gk) == some p
  let cores := (h0.cores.map (·.1)).filter fun k => corePart h0 k == some p
  let h1 := cores.foldl (fun h k => killOnCore h k c) h0
  { h1.setPart p fun q => { q with pend := q.pend.map fun w => if w.tctx = some c then { w with tctx := none, paths := 0 } else w } with
    gangs := h1.gangs.filter fun g => !mine g.1
    blocks := h1.blocks.filter fun b => !(b.2.part == p && b.2.ctx == c)
    images := h1.images.filter fun i => !(i.1 % 65536 == c && corePart h1 (i.1 / 65536) == some p)
    ops := h1.ops.filterMap fun o => if o.part = p ∧ o.ctx = c then
      (if o.kind.outlives then some { o with ctx := 0xFFFF, gk := deadGang, paths := 0, flags := [], counts := false, dst := .none, chain := none, held := false } else none)
      else some o }
/-- The last steps of a kill (R357): launches end, fabric switches hear of it, and the context is no longer live. -/
def endKill (s : State) (p c : Nat) : Hw :=
  let ls := s.hw.launches.filter fun l => l.2.part == p && l.2.ctx == c
  let h1 := ls.foldl (fun h l => endLaunch h s.time l.1 0x85) s.hw
  let h2 := if (s.hw.part p).link.fen then (mcrHandles s.hw s.mem p c).foldl (fun h g => h.send 6 p [g, s.time]) h1 else h1
  h2.setPart p fun q => { q with contexts := q.contexts.del c, tcache := q.tcache.filter fun k => k.1 / 2 ^ 41 != c }
/-- A kill begins (R357); how long its steps take is open. -/
def startKill (s : State) (p c : Nat) : Hw :=
  let d := (doKill s p c).draw
  d.2.setCtx p c fun x => { x with state := .killing, killAt := s.time + d.1 }
/-- ckill (R357). -/
def execCkill (f : Fields) (s : State) : Out :=
  ctxForm Forms.ckill f s true fun e r c _ => .stay (e.park r .parked (.command r.d 0 c cmdKill 0) (startKill e.s e.part c))

/-- What time alone brings about: flips whose 64 cycles are over, spills and loads that are over, kills that are over, and stopping
contexts that have become quiet (R351, R355-R357). [DESIGN CHOICE, safe: log 52] -/
def tick (s : State) : State :=
  let due (t : Option Nat) : Bool := match t with | some t => decide (t ≤ s.time) | none => false
  let flips (k : Nat × Core) : Bool := match k.2.flipAt with | some n => decide (n ≤ coreCycles s.hw k.1 s.time) | none => false
  let s1 := (s.hw.cores.filter flips).foldl (fun s k => doFlip s k.1) s
  let s2 := (s1.hw.cores.filter fun k => due k.2.moveAt).foldl (fun s k => endMove s k.1) s1
  let ends := s2.hw.parts.flatMap fun p => p.2.contexts.filterMap fun c =>
    if c.2.state = .killing ∧ c.2.killAt ≤ s.time then some (p.1, c.1) else none
  let s3 := ends.foldl (fun s x => s.with (endKill s x.1 x.2)) s2
  let stops := s3.hw.parts.flatMap fun p => p.2.contexts.filterMap fun c =>
    if c.2.state = .stopping ∧ ctxQuiet s3.hw p.1 c.1 then some (p.1, c.1) else none
  s3.with (stops.foldl (fun h x => h.setCtx x.1 x.2 fun c => { c with state := .stopped }) s3.hw)

/-! ### Swap commands of Phobos firmware -/

/-- The cores that a co-resident launch with a block on one of the cores ks has blocks on, loaded or saved, beside ks (04_launch R80). -/
def corWiden (hw : Hw) (ks : List Nat) : List Nat :=
  let cor (l : Nat) : Bool := match hw.launches.look l with | some x => bit 32 (hdrWord x.hdr 1) | none => false
  let on (i : Nat × Image) : List Nat := (i.2.records.vals.map (·.2)).filter cor
  let ls := (hw.images.filter fun i => ks.contains (i.1 / 65536)).flatMap on
  dedup (ks ++ (hw.images.filter fun i => (on i).any ls.contains).map (·.1 / 65536))
/-- The cores that are swapped with a core: co-resident launches are pre-empted only as a whole (04_launch R80). -/
def corCores (hw : Hw) (core : Nat) : List Nat := (List.range hw.launches.length).foldl (fun ks _ => corWiden hw ks) [core]
/-- A swap command of Phobos firmware (R355), for a core and those whose launches go with it, all in one moment (04_launch R80); where it
cannot be done it has no effect. -/
def phobosSwap (op core ctx : Nat) (s : State) : State :=
  let ks := corCores s.hw core
  let still (k : Nat) : Bool := (s.hw.core k).flipAt.isNone && !(s.hw.core k).outPend
  if decide (864 ≤ core) || !(ks.all still) then s
  else match op with
  | 0 =>
    if ks.any fun k => bankBusy (s.hw.core k).st0 || bankBusy (s.hw.core k).st1 then s
    else s.with (ks.foldl (fun h k => h.setCore k fun c => { c with flipAt := some (coreCycles s.hw k s.time + 64) }) s.hw)
  | 1 => s.with (ks.foldl (fun h k =>
      let b := 1 - (h.core k).act
      match corePart h k, bankState h k b, bankCtx h k b with
      | some p, .loaded, some c => startSpill h p s.time k c
      | _, .draining, some _ => h.setCore k fun c => { c with outPend := true }
      | _, _, _ => h) s.hw)
  | _ => s.with (ks.foldl (fun h k =>
      match corePart h k with
      | some p => if (h.ctx p ctx).isSome && decide (bankState h k (1 - (h.core k).act) = .empty) && !inBank h k ctx && headerValid h s.mem p k ctx then
          startLoad h s.time k ctx else h
      | none => h) s.hw)

/-- Whether a context is being killed. -/
def ctxKilling (hw : Hw) (p c : Nat) : Bool := match hw.ctx p c with | some x => decide (x.state = .killing) | none => false
/-- A waiting context command retires when what it waits for has come (R355-R357). -/
def wakeCommand (s : State) (e : Env) (d core c op t : Nat) : Hw :=
  let retire (h : Hw) : Hw := e.retireParked { s := [(d, 0)] } h
  let b := 1 - (s.hw.core core).act
  match op with
  | 0 => if t ≤ coreCycles s.hw core s.time ∧ (s.hw.core core).flipAt.isNone then retire s.hw else s.hw
  | 1 => if bankCtx s.hw core b = some c ∧ (bankState s.hw core b = .draining ∨ bankState s.hw core b = .spilling) then s.hw else retire s.hw
  | 2 => if bankCtx s.hw core b = some c ∧ bankState s.hw core b = .loading then s.hw else retire s.hw
  | 3 => if ctxStopped s.hw e.part c then retire s.hw else s.hw
  | _ => if ctxKilling s.hw e.part c then s.hw else retire s.hw

end Sys2Proof.Machine
end

