-- ==== Sys2Proof/Machine/Integer.lean ====
section
/-! DEFINITION. Integer, logic and address instructions (08_integer R160-R171). -/

namespace Sys2Proof.Machine

open Sys2Proof

/-- A two-source form: f on the values of the type's sub-elements, truncated (R164). -/
def intTwo (fm : Form) (f : Fields) (s : State) (g : Ty → Int → Int → Int) : Out :=
  lanewise fm f s fun e r l =>
    let w := Ty.width f.ty
    zipElems w (fun x y => trunc (g f.ty (Ty.int f.ty x) (Ty.int f.ty y)) w) (e.va r l) (e.vb r f l)

/-- A two-source form on bit patterns (R164, R165). -/
def patTwo (fm : Form) (f : Fields) (s : State) (g : Nat → Nat → Nat → Nat) : Out :=
  lanewise fm f s fun e r l => zipElems (Ty.width f.ty) (g (Ty.width f.ty)) (e.va r l) (e.vb r f l)

/-- The S encoding of a two-source form on bit patterns (R34, R160). -/
def patTwoS (fm : SForm) (f : SFields) (s : State) (g : Nat → Nat → Nat → Nat) : Out :=
  lanewiseS fm f s (zipElems (styWidth f.sty) (g (styWidth f.sty)))

/-- A one-source form on bit patterns (R166). -/
def patOne (fm : Form) (f : Fields) (s : State) (g : Nat → Nat → Nat) : Out :=
  lanewise fm f s fun e r l => let w := Ty.width f.ty; mapElems w fun i => g w (subElem w i (e.va r l))

/-! ## Functions of Table IN-2 and R165-R168 -/

/-- x + y modulo 2^w. -/
def fnAdd (w x y : Nat) : Nat := (x + y) % 2 ^ w
/-- x − y modulo 2^w. -/
def fnSub (w x y : Nat) : Nat := (x + 2 ^ w - y) % 2 ^ w
/-- Shift left; 0 for k ≥ w (R165). -/
def fnShl (w x k : Nat) : Nat := if k < w then (x <<< k) % 2 ^ w else 0
/-- Shift right with zeros; 0 for k ≥ w. -/
def fnShr (w x k : Nat) : Nat := if k < w then x >>> k else 0
/-- Arithmetic shift right; copies of the sign for k ≥ w. -/
def fnSar (w x k : Nat) : Nat := trunc (sext x w / (2 ^ (if k < w then k else w) : Int)) w
/-- Rotate left by k mod w, or right (R165). -/
def fnRot (right : Bool) (w x k : Nat) : Nat :=
  let j := if right then (w - k % w) % w else k % w
  ((x <<< j) ||| (x >>> (w - j))) % 2 ^ w
/-- The quotient towards zero (Table IN-3). -/
def fnDiv (_ : Ty) (x y : Int) : Int := if y = 0 then -1 else Int.tdiv x y
/-- The remainder (Table IN-3). -/
def fnRem (_ : Ty) (x y : Int) : Int := if y = 0 then x else x - y * Int.tdiv x y
/-- Leading zeros of x from bit w − 1. -/
def fnClz (w x : Nat) : Nat := if x = 0 then w else w - 1 - Nat.log2 x
/-- Trailing zeros of the low n bits of x. -/
def ctzFrom : Nat → Nat → Nat
  | 0, _ => 0
  | n + 1, x => if x % 2 = 1 then 0 else 1 + ctzFrom n (x / 2)
/-- The low n bits of x in reverse order. -/
def revBits : Nat → Nat → Nat → Nat
  | 0, _, acc => acc
  | n + 1, x, acc => revBits n (x / 2) (2 * acc + x % 2)
/-- The effective field length (R168). -/
def bfLen (w pos len : Nat) : Nat := if pos ≥ w then 0 else Nat.min len (w - pos)
/-- bfe of one sub-element (R168). -/
def fnBfe (t : Ty) (pos len x : Nat) : Nat :=
  let w := Ty.width t
  let m := bfLen w pos len
  if m = 0 then 0
  else
    let fld := (x >>> pos) % 2 ^ m
    if Ty.signed t then trunc (sext fld m) w else fld
/-- bfi of one sub-element (R168). -/
def fnBfi (w pos len base ins : Nat) : Nat :=
  let m := bfLen w pos len
  if m = 0 then base else setBits (pos + m - 1) pos ins base
/-- pos and len of a bit-field form in lane l (R168). -/
def bfCtl (e : Env) (r : Regs) (f : Fields) (l : Nat) : Nat × Nat :=
  let c := if f.isX then f.imm else (e.vb r f l).toNat
  (bits 7 0 c, bits 15 8 c)

/-! ## Meanings -/

def execAdd (f : Fields) (s : State) : Out := patTwo Forms.add f s fnAdd
def execSub (f : Fields) (s : State) : Out := patTwo Forms.sub f s fnSub
def execAnd (f : Fields) (s : State) : Out := patTwo Forms.and f s fun _ x y => x &&& y
def execOr (f : Fields) (s : State) : Out := patTwo Forms.or f s fun _ x y => x ||| y
def execXor (f : Fields) (s : State) : Out := patTwo Forms.xor f s fun _ x y => x ^^^ y
def execShl (f : Fields) (s : State) : Out := patTwo Forms.shl f s fnShl
def execShr (f : Fields) (s : State) : Out := patTwo Forms.shr f s fnShr
def execSar (f : Fields) (s : State) : Out := patTwo Forms.sar f s fnSar
def execAddS (f : SFields) (s : State) : Out := patTwoS Forms.addS f s fnAdd
def execSubS (f : SFields) (s : State) : Out := patTwoS Forms.subS f s fnSub
def execAndS (f : SFields) (s : State) : Out := patTwoS Forms.andS f s fun _ x y => x &&& y
def execOrS (f : SFields) (s : State) : Out := patTwoS Forms.orS f s fun _ x y => x ||| y
def execXorS (f : SFields) (s : State) : Out := patTwoS Forms.xorS f s fun _ x y => x ^^^ y
def execShlS (f : SFields) (s : State) : Out := patTwoS Forms.shlS f s fnShl
def execShrS (f : SFields) (s : State) : Out := patTwoS Forms.shrS f s fnShr
def execSarS (f : SFields) (s : State) : Out := patTwoS Forms.sarS f s fnSar
def execAdds (f : Fields) (s : State) : Out := intTwo Forms.adds f s fun t x y => sat (x + y) t
def execSubs (f : Fields) (s : State) : Out := intTwo Forms.subs f s fun t x y => sat (x - y) t
def execAbsd (f : Fields) (s : State) : Out := intTwo Forms.absd f s fun _ x y => ((x - y).natAbs : Int)
def execMin (f : Fields) (s : State) : Out := intTwo Forms.min f s fun _ x y => if x ≤ y then x else y
def execMax (f : Fields) (s : State) : Out := intTwo Forms.max f s fun _ x y => if x ≤ y then y else x
def execAndn (f : Fields) (s : State) : Out := patTwo Forms.andn f s fun w x y => x &&& (2 ^ w - 1 - y)
def execRot (f : Fields) (s : State) : Out := patTwo Forms.rot f s (fnRot (f.op == 1))
def execAbs (f : Fields) (s : State) : Out :=
  patOne Forms.abs f s fun w x =>
    let v : Int := (Ty.int f.ty x).natAbs
    trunc (if f.op = 1 then sat v f.ty else v) w
def execNot (f : Fields) (s : State) : Out := patOne Forms.not f s fun w x => 2 ^ w - 1 - x
def execMul (f : Fields) (s : State) : Out := intTwo Forms.mul f s fun t x y => if f.op = 1 then sat (x * y) t else x * y
def execMulh (f : Fields) (s : State) : Out := intTwo Forms.mulh f s fun t x y => (x * y) / (2 ^ Ty.width t : Int)
def execMad (f : Fields) (s : State) : Out :=
  lanewise Forms.mad f s fun e r l =>
    let w := Ty.width f.ty
    zip3Elems w (fun x y u =>
      let v := Ty.int f.ty x * Ty.int f.ty y + Ty.int f.ty u
      trunc (if f.op = 1 then sat v f.ty else v) w) (e.va r l) (e.vb r f l) (e.vc r l)
def execDiv (f : Fields) (s : State) : Out := intTwo Forms.div f s fnDiv
def execRem (f : Fields) (s : State) : Out := intTwo Forms.rem f s fnRem
def execBfe (f : Fields) (s : State) : Out :=
  lanewise Forms.bfe f s fun e r l =>
    let c := bfCtl e r f l
    mapElems (Ty.width f.ty) fun i => fnBfe f.ty c.1 c.2 (subElem (Ty.width f.ty) i (e.va r l))
def execBfi (f : Fields) (s : State) : Out :=
  lanewise Forms.bfi f s fun e r l =>
    let c := bfCtl e r f l
    zipElems (Ty.width f.ty) (fnBfi (Ty.width f.ty) c.1 c.2) (e.vd r l) (e.va r l)
def execPopc (f : Fields) (s : State) : Out := patOne Forms.popc f s popBits
def execClz (f : Fields) (s : State) : Out := patOne Forms.clz f s fnClz
def execCtz (f : Fields) (s : State) : Out := patOne Forms.ctz f s ctzFrom
def execBrev (f : Fields) (s : State) : Out := patOne Forms.brev f s fun w x => revBits w x 0
def execCmp (f : Fields) (s : State) : Out :=
  lanewise Forms.cmp f s fun e r l =>
    let w := Ty.width f.ty
    zipElems w (fun x y => maskOf w (intPred f.op (Ty.int f.ty x) (Ty.int f.ty y))) (e.va r l) (e.vb r f l)
/-- lea (R170): address a, index b of the type's reading, shift OPT, displacement IMM in X. -/
def execLea (f : Fields) (s : State) : Out :=
  lanewise Forms.lea f s fun e r l =>
    let b := (e.vb r f l).toNat
    let idx : Int := match f.ty with
      | .i32 => sext b 32
      | .n32 => ((b % 2 ^ 32 : Nat) : Int)
      | _ => (b : Int)
    let disp : Int := if f.isX then sext f.imm 32 else 0
    word (trunc (((e.va r l).toNat : Int) + idx * (2 ^ f.op : Int) + disp) 64)

end Sys2Proof.Machine
end

