-- ==== Sys2Proof/Machine/Links.lean ====
section
/-! DEFINITION. The links: the host link, pool extents, the optical fabric, multicast-reduce groups and the forms that use them
(19_links R363-R383; 27_prog_ring R440, R441). -/

namespace Sys2Proof.Machine

open Sys2Proof

/-- Changes the links of a partition's function. -/
def Hw.setLink (hw : Hw) (p : Nat) (f : LinkSt → LinkSt) : Hw := hw.setPart p fun q => { q with link := f q.link }

/-! ## The host link -/

/-- The bridge drops every held sector (R367): modified ones are counted in DROPCNT.HOST. -/
def dropSectors (s : State) (p : Nat) : State :=
  let secs := (s.hw.part p).link.sectors
  let lost := (secs.filter fun x => x.2.1 == 2).length
  let h := s.hw.setPart p fun q => { q with pend := q.pend.filter fun w => decide (w.addr < 2 ^ 60) }
  let s1 := secs.keys.foldl (fun s k => releaseSector s p k false) (s.with h)
  s1.with (s1.hw.setLink p fun k => { k with dropHost := (k.dropHost + lost) % 65536 })
/-- The host becomes unreachable for a partition (R367). -/
def loseHost (s : State) (p : Nat) : State :=
  let s1 := s.with (s.hw.setLink p fun k => { k with active := false, hostok := false, hostReach := false })
  dropSectors (s1.with (failDown s1.hw p)) p
/-- The link leaves the active state, or DPC contains the port (R367): for every function. [DEDUCED, safe: log 72] -/
def execHostLinkDown (s : State) : Out := .next (((s.hw.parts.filter fun p => p.2.present).map (·.1)).foldl loseHost s)
/-- The link is active again (R367): no host is reachable until its driver says so. -/
def execHostLinkActive (s : State) : Out :=
  .next (s.with (((s.hw.parts.filter fun p => p.2.present).map (·.1)).foldl (fun h p => h.setLink p fun k => { k with active := true }) s.hw))
/-- A write of FABID (R367, R373). -/
def writeFabid (k : LinkSt) (v : Nat) : LinkSt :=
  let ok := bit 30 v && k.active
  { k with fen := bit 31 v, hostok := ok, hostReach := k.hostReach || ok, devno := if k.fen then k.devno else bits 16 0 v }
/-- A host write of FABID takes effect (R373): with EN = 0 every target of the fabric is unreachable. -/
def execFabidWrite (fn : Nat) (v : Word) (s : State) : Out :=
  windowWrite fn s <|
    let h := s.hw.setLink fn fun k => writeFabid k v.toNat
    .next (s.with (failDown h fn))

/-! ## Pool extents -/

/-- Changes extent n. -/
def setExtent (hw : Hw) (p n : Nat) (f : PoolExt → PoolExt) : Hw := hw.setLink p fun k => { k with pool := k.pool.ins n (f (extent k n)) }
/-- Whether an access to an extent is in flight (R370). -/
def extentBusy (hw : Hw) (p n : Nat) : Bool :=
  hw.ops.any fun o => o.part == p && o.kind.elems.any fun e => e.tgt.space == 3 && e.tgt.tgt == n
/-- The fabric manager releases an extent (R370): it is revoking, its accesses end, and once none is in flight it is revoked and the
release acknowledged. -/
def execPoolExtentRelease (fn ext : Nat) (s : State) : Out :=
  let x := extent (s.hw.part fn).link ext
  if 1024 ≤ ext then .next s
  else if x.state = 1 then
    .next (s.with (failDown (setExtent s.hw fn ext fun x => { x with state := 2 }) fn))
  else if x.state = 2 ∧ !extentBusy s.hw fn ext then
    .next (s.with ((setExtent s.hw fn ext fun x => { x with state := 3 }).send 7 fn [ext]))
  else .next s
/-- The fabric manager grants an extent (R370): what its publication port holds is the pool's. [DESIGN CHOICE, safe: log 59] -/
def execPoolExtentGrant (fn ext : Nat) (v0 v1 : Word) (s : State) : Out :=
  let x := extent (s.hw.part fn).link ext
  if 1024 ≤ ext ∨ x.state = 1 ∨ x.state = 2 ∨ !(s.hw.part fn).present then .next s
  else
    let d := s.hw.draw
    .next (s.with (failDown (setExtent d.2 fn ext fun x =>
      { base := bits 51 16 v0.toNat, state := 1, shared := bit 61 v1.toNat, gen := (x.gen + 1) % 65536, size := bits 31 0 v1.toNat
        seq := bits 63 32 d.1, tag := bits 31 0 d.1 }) fn))
/-- The word of POOLEXT n, 0 or 1, as it reads (R369). -/
def extentWord (x : PoolExt) (i : Nat) : Nat :=
  if i = 0 then x.base * 2 ^ 16 else x.state * 2 ^ 62 + b2n x.shared * 2 ^ 61 + x.gen * 2 ^ 32 + x.size
/-- The directory takes a publication v (R371): the extent after it, and whether it was accepted. -/
def publish (x : PoolExt) (v : Nat) : Bool × PoolExt :=
  if bits 63 32 v = (x.seq + 1) % 2 ^ 32 then (true, { x with seq := bits 63 32 v, tag := bits 31 0 v }) else (false, x)
/-- The pool directory takes a publication (R371): of a store of this partition that has been sent, or of another party. -/
def execPoolPublication (fn ext : Nat) (op : Option Nat) (v : Word) (s : State) : Out :=
  let k := (s.hw.part fn).link
  let x := extent k ext
  if x.state ≠ 1 ∨ !x.shared then .next s
  else match op with
  | none => .next (s.with (setExtent s.hw fn ext fun x => (publish x v.toNat).2))
  | some id =>
    match s.hw.op id with
    | none => .next s
    | some o =>
      let mine (e : Elem) : Bool := e.st == 1 && e.tgt.tgt == ext && isPublication k e o.kind.width
      match o.kind.elems.find? mine with
      | none => .next s
      | some e =>
        if o.part ≠ fn then .next s
        else
          let r := publish x e.val.toNat
          let h := setExtent s.hw fn ext fun _ => { r.2 with result := some (bits 63 32 e.val.toNat, if r.1 then 0 else 1) }
          let es := o.kind.elems.map fun y => if y.lane == e.lane then { y with st := 3 } else y
          let o' := { o with kind := o.kind.withElems es }
          let s' := s.with (h.setOp id fun _ => o')
          .next (if allDone es && !(es.any fun e => e.st == 1) && o.chain.isNone then landOp s' o' fun _ => 0 else s')

/-! ## The fabric -/

/-- Whether a range of addresses is exported to peers (R373). -/
def exported (hw : Hw) (p a n : Nat) : Bool :=
  let k := (hw.part p).link
  k.fen && decide (k.expBase * 2 ^ 20 ≤ a) && decide (a + n ≤ (k.expBase + k.expSize) * 2 ^ 20) && decide (a + n ≤ partBytes hw p)
/-- Whether an element's request to a peer is on its way. -/
def onItsWay (k : LinkSt) (o : Op) (e : Elem) : Bool :=
  e.tgt.space == 2 && peerSends k e.tgt.peer && ((e.st == 1 && o.kind.posts) || (e.st == 0 && e.w != 0))
/-- The pieces of a command that may be on their way to a peer for which f holds. -/
def Copy.fabric (c : Copy) (k : LinkSt) (f : Nat → Bool) : List Piece :=
  c.todo.filter fun x => x.tgt.space == 2 && peerSends k x.tgt.peer && f x.tgt.peer
/-- Abandons the chosen pieces of the copy commands of a partition (15_copies R293). -/
def failPieces (hw : Hw) (p : Nat) (pick : Op → Copy → List Piece) : Hw :=
  hw.ops.foldl (fun h o => match o.kind with
    | .copy c =>
      let bad := pick o c
      if o.part ≠ p ∨ bad.isEmpty then h
      else
        let r := bad.foldl (fun (y : Copy × Hw) x => abandon o y.1 x 0x10 y.2) ({ c with todo := c.todo.filter fun x => !bad.contains x }, h)
        r.2.setOp o.id fun o => { o with kind := .copy r.1 }
    | _ => h) hw
/-- Requests of one operation end as unreachable (R373, R374): the elements f selects, or the first of a command's pieces. -/
def endRequests (hw : Hw) (p op : Nat) (f : Elem → Bool) (peer : Nat → Bool) : Hw :=
  let k := (hw.part p).link
  failElems (failPieces hw p fun o c => if o.id = op then (c.fabric k peer).take 1 else []) p fun x e => x.id == op && onItsWay k x e && f e

/-- A peer's request arrives (R373, R381): it is served at the home slices, or answered with an error. Its writes leave no Tail
record. [DEDUCED, unsafe: log 95] -/
def execPeerRequest (fn : Nat) (r : PeerReq) (s : State) : Out :=
  let error : Out := .next (s.with (s.hw.send 9 fn []))
  if !(s.hw.part fn).present then .next s
  else match r with
  | .error op sel => .next (s.with (endRequests s.hw fn op (fun e => sel.getLsbD e.lane) fun _ => true))
  | .load a n => if exported s.hw fn a n then .next (s.with (s.hw.send 8 fn (a :: (rdBytes s.mem fn a n).map (·.toNat)))) else error
  | .store a bs =>
    if exported s.hw fn a bs.length then .next (s.with ((outsideWrite s.hw fn s.time a bs false false).send 8 fn [a])) else error
  | .atomic a op ty y c =>
    let n := Ty.width ty / 8
    if n = 0 ∨ a % n ≠ 0 ∨ !(op = 10 ∨ Forms.atomAdmits op ty) then .next s
    else if !exported s.hw fn a n then error
    else if op = 9 then
      let old := (s.hw.part fn).arms.val 0 (lineOf a)
      .next (s.with ((s.hw.setPart fn fun q => { q with
        arms := q.arms.put 0 (lineOf a) (armNew old y.toNat (lineHolds s.hw fn (lineOf a))) }).send 8 fn [a, old]))
    else
      let old := latestNat s.mem s.hw fn a n
      let h := match atomWrite op ty old (y.toNat % 2 ^ Ty.width ty) (if op = 10 then some c else none) with
        | some v => (putWrite s.hw fn s.time a (toBytes n v) 0 0 0).2
        | none => s.hw
      .next (s.with (h.send 8 fn [a, old]))
/-- The group that carries a message to device d now (R374). -/
def carrier (k : LinkSt) (d : Nat) : Option Nat := (routeGroups k d).find? (groupCarries k)
/-- A request goes unanswered for 100 µs (R374): no request of a command is older than the command. -/
def execFabricRequestTimeout (op : Nat) (s : State) : Out :=
  match s.hw.op op with
  | some o =>
    let old := match o.kind with | .copy c => (match c.since with | some t => decide (t + 100000 ≤ s.time) | none => false) | _ => true
    .next (if old then s.with (endRequests s.hw o.part op (fun e => decide (e.w + 100000 ≤ s.time + 1)) fun _ => true) else s)
  | none => .next s
/-- Ends the requests that a group carries (R374); how many pieces of a command it carries is open. [DEDUCED, safe: log 57] -/
def failCarried (hw : Hw) (p g : Nat) : Hw :=
  let k := (hw.part p).link
  let d := hw.draw
  failElems (failPieces d.2 p fun _ c =>
      let ps := c.fabric k fun x => carrier k x == some g
      ps.take (d.1 % (ps.length + 1))) p
    fun o e => onItsWay k o e && carrier k e.tgt.peer == some g
/-- Sets the state of fibre groups (R376). -/
def setGroups (hw : Hw) (p st : Nat) (gs : List Nat) : Hw :=
  hw.setLink p fun k => { k with
    groups := gs.foldl (fun t g => t.ins g { state := st }) k.groups, relock := if st = 0 then gs.foldl List.erase k.relock else k.relock }
/-- A relock that is under way is over without its locks (R374, R376): messages held for its groups alone end. -/
def endRelock (hw : Hw) (p op : Nat) (gs : List Nat) : Hw :=
  if op = 2 then failDown (hw.setLink p fun k => { k with relock := gs.foldl List.erase k.relock }) p else hw
/-- An fmcr.relock begins. [DESIGN CHOICE, unsafe: log 54] -/
def beginRelock (hw : Hw) (p op : Nat) (gs : List Nat) : Hw :=
  if op = 2 then hw.setLink p fun k => { k with relock := k.relock ++ gs } else hw
/-- The state of a fibre group. [DESIGN CHOICE, unsafe: log 84] -/
def groupState (k : LinkSt) (g : Nat) : Nat := (k.groups.val {} g).state
/-- A group loses lock (R374): when it was live its requests end, and it reads down. [DESIGN CHOICE, unsafe: log 56] -/
def loseGroup (hw : Hw) (p g : Nat) : Hw :=
  let st := groupState (hw.part p).link g
  failDown (setGroups (if st = 0 then failCarried hw p g else hw) p 3 [g]) p
/-- A fibre group loses lock (R374). -/
def execFibreLockLoss (fn group : Nat) (s : State) : Out :=
  let k := (s.hw.part fn).link
  if bit group k.fgroups && decide (group < 16) && groupCarries k group then .next (s.with (loseGroup s.hw fn group)) else .next s

/-- The status an fmcr of groups gets before it acts (R376): the states it may start from. [DEDUCED, safe: log 58] -/
def fmcrStatus (k : LinkSt) (gs : List Nat) (from' : List Nat) : Nat :=
  if gs.any fun g => !bit g k.fgroups then 3 else if gs.any fun g => !from'.contains (groupState k g) then 2 else 0
/-- fmcr.drain and .relock (R376): the form waits for markers or locks. [DEDUCED, safe: log 82] -/
def fmcrWait (f : Fields) (s : State) (op : Nat) (from' : List Nat) : Out :=
  issueF Forms.fmcr f s fun e r =>
    let gs := bitList 16 ((e.sa r).toNat % 65536)
    let st := fmcrStatus (e.hw.part e.part).link gs from'
    let markers (h : Hw) : Hw := if op = 0 then gs.foldl (fun h g => h.send 15 e.part [g, e.now]) h else h
    if st ≠ 0 ∨ gs.isEmpty then .done (putS r st) e.hw
    else e.start r { e.newOp r (.fmcr op gs gs e.now) with dst := e.dest r } true (markers (beginRelock e.hw e.part op gs))
/-- fmcr.drain (R376). -/
def execFmcrDrain (f : Fields) (s : State) : Out := fmcrWait f s 0 [0, 1]
/-- fmcr.relock (R376, R441). -/
def execFmcrRelock (f : Fields) (s : State) : Out := fmcrWait f s 2 [2, 3]
/-- fmcr.dark (R376, R440). -/
def execFmcrDark (f : Fields) (s : State) : Out :=
  issueF Forms.fmcr f s fun e r =>
    let gs := bitList 16 ((e.sa r).toNat % 65536)
    let st := fmcrStatus (e.hw.part e.part).link gs [1]
    .done (putS r st) (if st = 0 then setGroups e.hw e.part 2 gs else e.hw)
/-- fmcr.route (R374, R383): held messages are looked at again. -/
def execFmcrRoute (f : Fields) (s : State) : Out :=
  issueF Forms.fmcr f s fun e r =>
    let d := (e.sa r).toNat
    let v := (e.sb r).toNat
    if 2 ^ 17 ≤ d then .done (putS r 2) e.hw
    else
      let entry := b2n (bit 63 v) * 2 ^ 63 + bits 35 32 v * 2 ^ 32 + bits 15 0 v
      let h := e.hw.setLink e.part fun k => { k with routes := k.routes.put 0 d entry }
      .done (putS r ((e.hw.part e.part).link.routes.val 0 d)) (failDown h e.part)
/-- Whether a group entry's OP and TYPE form an admitted pair (R377). -/
def mcrPair (op ty : Nat) : Bool :=
  match Forms.tyOfCode ty with
  | some t => decide (op ≤ 5) && Forms.atomAdmits op t || (op == 0 && [Ty.f16, .bf16].contains t)
  | none => false
/-- fmcr.group (R377, R383). -/
def execFmcrGroup (f : Fields) (s : State) : Out :=
  issueF Forms.fmcr f s fun e r =>
    let g := (e.sa r).toNat
    let v := (e.sb r).toNat
    if 4096 ≤ g then .done (putS r 2) e.hw
    else
      let v1 := setBits 62 62 0 v
      let v2 := if mcrPair (bits 61 59 v) (bits 58 53 v) then v1 else setBits 63 63 0 v1
      .done (putS r ((e.hw.part e.part).link.mcr.val 0 g)) (e.hw.setLink e.part fun k =>
        { k with mcr := k.mcr.put 0 g v2, deliv := k.deliv.del g, delivAt := k.delivAt.filter fun x => x.1 != g })
/-- The states of the fibre groups as fmcr.query gives them (R383). -/
def groupStates (k : LinkSt) : Nat := ((List.range 16).map fun g => (if bit g k.fgroups then groupState k g else 3) * 4 ^ g).sum
/-- fmcr.query (R383). -/
def execFmcrQuery (f : Fields) (s : State) : Out :=
  issueF Forms.fmcr f s fun e r => .done (putS r (groupStates (e.hw.part e.part).link)) e.hw

/-- The fmcr operations of a partition that still wait for a group. -/
def fmcrFor (hw : Hw) (p op g : Nat) : List Op :=
  hw.ops.filter fun o => o.part == p && match o.kind with | .fmcr k _ left _ => k == op && left.contains g | _ => false
/-- A group of waiting fmcr operations is ready: those it completes set their groups' state and land with status 0 (R376); of a drain only
groups that still carry traffic become drained. -/
def fmcrStep (s : State) (p op g st : Nat) : State :=
  (fmcrFor s.hw p op g).foldl (fun s o => match s.hw.op o.id with
    | some o => match o.kind with
      | .fmcr k gs left t =>
        let left' := left.filter (· != g)
        if left'.isEmpty then landOp (s.with (setGroups s.hw p st (if op = 0 then gs.filter (groupCarries (s.hw.part p).link) else gs))) o fun _ => 0
        else s.with (s.hw.setOp o.id fun o => { o with kind := .fmcr k gs left' t })
      | _ => s
    | none => s) s
/-- The far end of a group has returned its markers (R376): flits were flowing both ways. -/
def execMarkerReturn (fn group : Nat) (s : State) : Out :=
  if groupCarries (s.hw.part fn).link group then .next (fmcrStep s fn 0 group 1) else .next s
/-- A relocking group has locked and trained (R376, R441); a retired one never does (22_partitions R413). -/
def execFibreGroupLocked (fn group : Nat) (s : State) : Out :=
  if s.hw.pkg.health.retired.contains (3, group) || groupCarries (s.hw.part fn).link group then .next s else .next (fmcrStep s fn 2 group 0)
/-- A drain or relock has not finished after 1 ms (R376): status 1, and its groups keep their states. -/
def execFmcrTimeout (op : Nat) (s : State) : Out :=
  match s.hw.op op with
  | some o => match o.kind with
    | .fmcr k gs _ t => if t + 1000000 ≤ s.time then .next (landOp (s.with (endRelock s.hw o.part k gs)) o fun _ => 1) else .next s
    | _ => .next s
  | none => .next s

/-! ## fsig and fwait -/

/-- fsig (R381). [DEDUCED, safe: log 83] -/
def execFsig (f : Fields) (s : State) : Out :=
  issueF Forms.fsig f s fun e r =>
    if e.counterFull then .hold
    else match e.check { spaces := fun sp => sp == 2, a := true, width := 8, rd := true, wr := true } true
        [⟨lowLane e.act, f.hIdx, f.hOff⟩] with
    | .stop x => x
    | .ok es hw =>
      match e.releasing true with
      | some (sc, b) => .stay (e.park r .parked (.release sc b) e.hw)
      | none =>
        let x := es.headD { lane := 0, tgt := {} }
        .done { ops := [{ e.newOp r (.fsig { x with val := e.sa r }) with counts := true, id := hw.nextId }] } hw

/-- DELIV of a group. -/
def delivOf (hw : Hw) (p g : Nat) : Nat := (hw.part p).link.deliv.val 0 g
/-- Whether a group is lost (R379). -/
def groupLost (hw : Hw) (p g : Nat) : Bool := bit 62 ((hw.part p).link.mcr.val 0 g)
/-- Cause 0x12 for a lost group (R379). -/
def lostTrap (e : Env) (g : Nat) : Trap := { cause := 0x12, info := g, hit := e.act }
/-- fwait (R382). -/
def execFwait (f : Fields) (s : State) : Out :=
  issueF Forms.fwait f s fun e r =>
    let h := (e.sa r).toNat
    let x := readHandle e.hw e.s.mem e.part e.ctx h
    let k := (e.hw.part e.part).link
    if 4096 ≤ h ∨ !x.ok ∨ x.space ≠ 4 ∨ 4096 ≤ x.tgt ∨ !bit 63 (k.mcr.val 0 x.tgt) then .trap { cause := 0x06, hit := e.act }
    else if !k.fen then .trap { cause := 0x10, hit := e.act }
    else if groupLost e.hw e.part x.tgt then .trap (lostTrap e x.tgt)
    else if (e.sb r).toNat ≤ delivOf e.hw e.part x.tgt then .done (putS r (delivOf e.hw e.part x.tgt)) e.hw
    else .stay (e.park r .parked (.fwait (e.sb r) x.tgt r.d) e.hw)
/-- A waiting fwait goes on (R379, R382). -/
def wakeFwait (e : Env) (thr : Word) (g d : Nat) : Hw :=
  if groupLost e.hw e.part g then e.trapParked e.hw (lostTrap e g)
  else if thr.toNat ≤ delivOf e.hw e.part g then e.retireParked { s := [(d, word (delivOf e.hw e.part g))] } e.hw
  else e.hw

/-! ## Multicast-reduce groups -/

/-- One round of the combining tree (R378): pairs are combined, an odd last value is carried. -/
def combPairs (op : Nat) (t : Ty) : List Nat → List Nat
  | x :: y :: r => atomNew op t x y :: combPairs op t r
  | l => l
/-- The fixed tree of R378 over the contributions in ascending rank, in at most k rounds. -/
def combTree (op : Nat) (t : Ty) : Nat → List Nat → Nat
  | 0, l => l.headD 0
  | k + 1, l => if l.length ≤ 1 then l.headD 0 else combTree op t k (combPairs op t l)
/-- The contributions of a round, n bytes each, in ascending rank. -/
def contributions (n : Nat) : Nat → List Byte → List Nat
  | 0, _ => []
  | k + 1, bs => ofBytes (bs.take n) :: contributions n k (bs.drop n)
/-- The switch holds every contribution of a round, given one after another in ascending rank (R378): their combination is delivered at this
member as one write at WBASE + o, counted once its W has passed. [DESIGN CHOICE, unsafe: log 60] -/
def execMcrDelivery (fn group off : Nat) (data : List Byte) (s : State) : Out :=
  let k := (s.hw.part fn).link
  let v := k.mcr.val 0 group
  let m := bits 52 41 v + 1
  match Forms.tyOfCode (bits 58 53 v) with
  | none => .next s
  | some t =>
    let n := Ty.width t / 8
    let a := bits 19 0 v * 2 ^ 20 + off
    if k.fen && bit 63 v && !bit 62 v && data.length == m * n && decide (0 < n) && off % n == 0 && decide (off + n ≤ bits 28 20 v * 2 ^ 20) &&
        decide (a + n ≤ partBytes s.hw fn) then
      let x := canon t (combTree (bits 61 59 v) t 12 (contributions n m data))
      let h := (putWrite s.hw fn s.time a (toBytes n x) s.hw.nextId 0 0).2
      .next (s.with ({ h with nextId := h.nextId + 1 }.setLink fn fun k => { k with delivAt := k.delivAt ++ [(group, s.hw.nextId)] }))
    else .next s
/-- Counts the combined writes whose W has passed (R378). -/
def countDeliveries (hw : Hw) : Hw :=
  { hw with parts := hw.parts.map fun p =>
      let due := p.2.link.delivAt.filter fun x => !(p.2.pend.any fun w => w.id == x.2)
      if due.isEmpty then p
      else (p.1, { p.2 with link := { p.2.link with
        deliv := due.foldl (fun d x => d.ins x.1 ((d.val 0 x.1 + 1) % 2 ^ 64)) p.2.link.deliv
        delivAt := p.2.link.delivAt.filter fun x => !due.contains x } }) }
/-- A member-lost notice (R379): LOST is set, and waits on the group end with cause 0x12. [DEDUCED, unsafe: log 55] -/
def execMemberLost (fn group : Nat) (s : State) : Out :=
  let v := (s.hw.part fn).link.mcr.val 0 group
  if !bit 63 v || !(s.hw.part fn).link.fen then .next s
  else
    let h := s.hw.setLink fn fun k => { k with mcr := k.mcr.put 0 group (setBits 62 62 1 v) }
    let waits := h.gangs.flatMap fun g => g.2.paths.filterMap fun q => match q.2.wait with
      | .fwait thr n d => if n = group ∧ g.2.part = fn ∧ runsOn h (gkCore g.1) (gkCtx g.1) then some (g.1, q.1, thr, d) else none
      | _ => none
    .next (waits.foldl (fun s x => match envAt s ⟨gkCore x.1, gkCtx x.1, gkSlot x.1, x.2.1⟩ with
      | some e => s.with (wakeFwait e x.2.2.1 group x.2.2.2)
      | none => s) (s.with h))

end Sys2Proof.Machine
end

