-- ==== Sys2Proof/Machine/Observe.lean ====
section
/-! DEFINITION. Slot counters, trace, triggers and debug holds (21_observe R398-R408). -/

namespace Sys2Proof.Machine

open Sys2Proof

/-! ## Slot counters -/

/-- Orrery time a cluster has been up by time t: neither parked nor failed (R398). -/
def upTime (c : Cluster) (t : Nat) : Nat := t - c.off - (match c.offSince with | some u => t - u | none => 0)
/-- A cluster stops counting slots at time t: it is parked or has failed. -/
def stopSlots (t : Nat) (c : Cluster) : Cluster := { c with offSince := some (c.offSince.getD t), cycles := cyclesBy c t }
/-- A cluster counts slots again. -/
def startSlots (t : Nat) (c : Cluster) : Cluster :=
  match c.offSince with | some u => { c with off := c.off + (t - u), offSince := none, cycleAt := Nat.max t c.cycleAt } | none => c
/-- TOTAL of a core: two slots of each of its four schedulers for every nanosecond (R398, R399). -/
def slotTotal (hw : Hw) (core t : Nat) : Nat := 8 * upTime (hw.cluster (coreCluster core)) t
/-- PWRHELD of a core: the slots beyond the cycles of its clock, each of which is one issue opportunity of each scheduler (R95, R398). -/
def slotHeld (hw : Hw) (core t : Nat) : Nat := slotTotal hw core t - 4 * coreCycles hw core t
/-- Counter i of a core at time t, as Table OB-2 numbers them: IDLE is what the other leaves leave of TOTAL (R399). -/
def slotCounter (hw : Hw) (core t i : Nat) : Nat :=
  let c := (hw.core core).counts
  if i = 0 then slotTotal hw core t
  else if i = 7 then slotHeld hw core t
  else if i = 8 then slotTotal hw core t - (((List.range 6).map fun j => c.val 0 (j + 1)).sum + slotHeld hw core t)
  else c.val 0 i
/-- A capture of a core's counters at time t (R399). -/
def capture' (hw : Hw) (core t : Nat) : Hw :=
  let vs := (List.range 10).map (slotCounter hw core t)
  hw.setCore core fun k => { k with captured := ((List.range 10).zip vs).foldl (fun c x => c.ins x.1 x.2) ([(10, t)] : Tab Nat) }
/-- A word of the latest capture: 0-9 a counter, 10 STIME. -/
def capturedWord (hw : Hw) (core i : Nat) : Nat := (hw.core core).captured.val 0 i
/-- The scheduler of a gang slot: each has 12 slots (04_launch R81). -/
def slotSched (slot : Nat) : Nat := slot / 12
/-- Counts n slots of a leaf. -/
def addSlots (leaf n : Nat) (c : Tab Nat) : Tab Nat := if n = 0 ∨ leaf = 8 then c else c.ins leaf (c.val 0 leaf + n)
/-- Classifies n issue opportunities of one scheduler of a core (R398): those that issued, and the others, whose leaf is given. [DESIGN CHOICE, safe: log 67] -/
def countSched (leaf : Hw → Nat → Nat → Nat × Hw) (n core : Nat) (hw : Hw) (sched : Nat) : Hw :=
  let took := Nat.min n ((hw.core core).took.val 0 sched)
  let d := leaf hw core sched
  d.2.setCore core fun k => { k with
    took := k.took.put 0 sched (k.took.val 0 sched - took)
    counts := addSlots 1 took (addSlots d.1 (n - took) k.counts) }
/-- Classifies the slots of every core that has been in use: core k has had n k cycles (R398). -/
def countSlots (leaf : Hw → Nat → Nat → Nat × Hw) (hw : Hw) (n : Nat → Nat) : Hw :=
  hw.cores.keys.foldl (fun h k => if n k = 0 then h else (List.range 4).foldl (countSched leaf (n k) k) h) hw
/-- An instruction of a scheduler issues; first in its slot (R398, R399). -/
def noteIssue (hw : Hw) (core sched : Nat) (first : Bool) : Hw :=
  hw.setCore core fun k => { k with
    counts := k.counts.ins 9 (k.counts.val 0 9 + 1)
    took := if first then k.took.ins sched (k.took.val 0 sched + 1) else k.took }

/-- cnt (R400). -/
def execCnt (f : Fields) (s : State) : Out :=
  issueF Forms.cnt f s fun e r =>
    let i := (e.sa r).toNat % 16
    .done (putS r (if 9 < i then 0 else slotCounter e.hw e.core e.now i)) e.hw
/-- cnt.snap (R400). -/
def execCntSnap (f : Fields) (s : State) : Out :=
  issueF Forms.cnt f s fun e r => .done (putS r e.now) (capture' e.hw e.core e.now)
/-- cnt.saved (R400). -/
def execCntSaved (f : Fields) (s : State) : Out :=
  issueF Forms.cnt f s fun e r =>
    let i := (e.sa r).toNat % 16
    .done (putS r (if 9 < i then 0 else capturedWord e.hw e.core i)) e.hw
/-- A host write of TAKE = 1 (R399): a core outside the partition counts in WINERR. -/
def execCounterTake (fn core : Nat) (s : State) : Out :=
  windowWrite fn s <| .next (s.with (if corePart s.hw core = some fn then capture' s.hw core s.time else noteWinErr s.hw fn))

/-! ## Trace -/

/-- Changes the trace unit of a partition. -/
def Hw.setTrace (hw : Hw) (p : Nat) (f : Trace → Trace) : Hw := hw.setPart p fun q => { q with trace := f q.trace }
/-- The I/O die makes a record (R401, R402). -/
def addIoTrace (hw : Hw) (p t : Nat) (ws : List Nat) : Hw :=
  if traceOff (hw.part p) t then hw
  else if 65536 < (hw.part p).trace.holding.length + (if (hw.part p).trace.ioLost = 0 then 1 else 2) then
    hw.setTrace p fun x => { x with ovfLost := (x.ovfLost + 1) % 2 ^ 32, ioLost := x.ioLost + 1 }
  else
    let d := if (hw.part p).trace.ioLost = 0 then (0, hw) else hw.draw
    d.2.setTrace p fun x => { x with
      holding := x.holding ++ (if x.ioLost = 0 then [] else [gapRecord t (d.1 % 65536) x.ioLost]) ++ [ws], ioLost := 0 }
/-- The I/O die accepts a record of cluster k (R402): a software record is an irreversible effect then (17_tail R332). The gap record of
records dropped before it comes first; it is the I/O die's own. -/
def acceptRecord (hw : Hw) (p t k : Nat) (ws : List Nat) : Hw :=
  let x := (hw.part p).trace
  let passes (time : Nat) : Bool := !(x.frozen && decide (x.cutoff < time))
  let gap := if ws.getD 8 0 ≠ 0 && passes t then [gapRecord t k (ws.getD 8 0)] else []
  let h := hw.setTrace p fun x => { x with holding := x.holding ++ gap ++ if passes (ws.getD 1 0) then [ws.take 8] else [] }
  if passes (ws.getD 1 0) && ws.getD 0 0 / 2 ^ 60 == 1 then irreversible h p (bits 47 32 (ws.getD 0 0)) t 0 5 0 else h
/-- The oldest held record goes to the ring, if it has room (R402). [DESIGN CHOICE, unsafe: log 68] -/
def ringRecord (hw : Hw) (p : Nat) : Hw :=
  let x := (hw.part p).trace
  let n := 2 ^ (x.log2n + 10)
  match x.holding with
  | [] => hw
  | r :: rs =>
    if n ≤ (x.prod + 2 ^ 32 - x.cons) % 2 ^ 32 then hw
    else (hw.send 11 p ((x.base + 64 * (x.prod % n)) :: r)).setTrace p fun x => { x with holding := rs, prod := (x.prod + 1) % 2 ^ 32 }
/-- The cluster whose turn it is to be drained: the next in ascending order that holds a record (R402). -/
def drainTurn (hw : Hw) (p : Nat) : Option Nat :=
  let ks := (partClusters hw p).filter fun k => !(hw.cluster k).trace.isEmpty
  match ks.find? fun k => decide ((hw.part p).trace.turn ≤ k) with
  | some k => some k
  | none => ks.head?
/-- The I/O die drains a record of the cluster whose turn it is, if the holding store has room, and writes the oldest held one to the ring
(R402). -/
def execTraceDrain (fn cluster : Nat) (s : State) : Out :=
  let h := match (s.hw.cluster cluster).trace with
    | r :: rs =>
      if drainTurn s.hw fn = some cluster ∧ (s.hw.part fn).trace.holding.length + (if r.getD 8 0 = 0 then 1 else 2) ≤ 65536 then
        (acceptRecord (s.hw.setCluster cluster fun c => { c with trace := rs }) fn s.time cluster r).setTrace fn fun x => { x with turn := cluster + 1 }
      else s.hw
    | [] => s.hw
  .next (s.with (ringRecord h fn))
/-- A cluster's buffer moves into the holding store (R404). -/
def gateCluster (hw : Hw) (p t k : Nat) : Hw :=
  (hw.cluster k).trace.foldl (fun h r => acceptRecord h p t k r) (hw.setCluster k fun c => { c with trace := [] })
/-- A write of TRCFG (R403, R404): EN written 0 drains every buffer; EN going to 1 writes the gap records a thermal cut left. -/
def execTrcfgWrite (fn : Nat) (v : Word) (s : State) : Out :=
  windowWrite fn s <|
    let n := v.toNat
    let on := bit 0 n && !(s.hw.part fn).trace.en
    let h1 := if bit 0 n then s.hw else (partClusters s.hw fn).foldl (fun h k => gateCluster h fn s.time k) s.hw
    let mine := h1.pkg.gaps.filter fun g => on && (partClusters h1 fn).contains g.1
    let h2 := { h1 with pkg := { h1.pkg with gaps := h1.pkg.gaps.filter fun g => !(on && (partClusters h1 fn).contains g.1) } }
    .next (s.with (h2.setTrace fn fun x => { x with
      base := bits 63 12 n * 4096, log2n := bits 11 8 n, en := bit 0 n, holding := x.holding ++ mine.map fun g => gapRecord s.time g.1 g.2 }))
/-- Trace records of a cluster are lost to forced gating (R404): the gap record is the first written afterwards. -/
def loseTrace (hw : Hw) (p t k : Nat) : Hw :=
  let n := (hw.cluster k).trace.length
  let h := hw.setCluster k fun c => { c with trace := [] }
  if n = 0 then h
  else h.setTrace p fun x => { x with gateLost := (x.gateLost + n) % 2 ^ 32, holding := gapRecord t k n :: x.holding }
/-- A freeze of capture (R405). -/
def freeze (cut : Nat) (x : Trace) : Trace := if x.arm && !x.frozen then { x with frozen := true, cutoff := (cut + 1000 * x.post) % 2 ^ 64 } else x
/-- The devices of TRDST (R403). -/
def triggerDsts (x : Trace) : List Nat := (List.range 4).filterMap fun n => let v := x.dst.val 0 n; if bit 63 v then some (bits 16 0 v) else none
/-- Triggers go to their devices (R405), once a group carries them; those to a device that has become unreachable are lost (19_links R374). -/
def sendTriggers (hw : Hw) (p : Nat) : Hw :=
  let k := (hw.part p).link
  let ts := (hw.part p).trace.triggers
  if ts.isEmpty then hw
  else ((ts.filter fun x => peerSends k x.1).foldl (fun h x => h.send 12 p [x.1, x.2]) hw).setTrace p fun x => { x with
    triggers := ts.filter fun x => peerReach k x.1 && !peerSends k x.1 }
/-- trc (R400): a software record; .trig sends the trigger too (R405). -/
def execTrc (f : Fields) (s : State) : Out :=
  issueF Forms.trc f s fun e r =>
    let h := e.traceRec e.hw 1 e.act.toNat ((e.sb r).toNat % 65536) (e.sa r).toNat
    if f.op = 0 then .done {} h
    else
      let x := (e.hw.part e.part).trace
      let dsts := (triggerDsts x).filter fun d => peerReach (e.hw.part e.part).link d
      let sent := sendTriggers (h.setTrace e.part fun x => { x with triggers := x.triggers ++ dsts.map fun d => (d, e.now) }) e.part
      let rec' := [5 * 2 ^ 60 + e.p * 2 ^ 56 + e.ctx * 2 ^ 32 + e.act.toNat, e.now, e.q.pc.toNat % 2 ^ 57, gangId e.hw e.gk, 0, e.g.tag.toNat, 0, 0]
      .done {} ((addIoTrace sent e.part e.now rec').setTrace e.part (freeze e.now))
/-- A trigger arrives (R405). -/
def execTriggerReceived (fn dev : Nat) (origin : Word) (s : State) : Out :=
  if !(s.hw.part fn).link.fen then .next s
  else .next (s.with ((addIoTrace s.hw fn s.time [2 * 2 ^ 60, s.time, 0, 0, 0, 0, dev % 2 ^ 17, origin.toNat]).setTrace fn (freeze s.time)))

/-! ## Holds -/

/-- The gang and path DBGHOLD names (R408, 18_contexts R343). -/
def holdTarget (hw : Hw) (p : Nat) (v : Nat) : Option (Nat × Nat × Path) :=
  let core := bits 16 7 v
  let gk := gangKey core (bits 63 48 v) (bits 5 0 v)
  if !coreNamed hw p core then none
  else (hw.gangs.look gk).bind fun g => (g.paths.look (bits 20 17 v)).map fun q => (gk, bits 20 17 v, q)
/-- Stores the fields of DBGHOLD with a STATUS. -/
def putHold (hw : Hw) (p v st : Nat) : Hw :=
  hw.setPart p fun q => { q with hold := { ctx := bits 63 48 v, op := bits 47 46 v, status := st, path := bits 20 17 v, gang := bits 16 0 v } }
/-- Whether a path that is ready waits in its tiles' order for the form it stands at (16_matrix R306). -/
def Wait.inOrder : Wait → Bool
  | .op _ => true
  | _ => false
/-- A hold (R408): a path at an instruction boundary is held now, a parked or waiting one once its wait ends. [DEDUCED, unsafe: log 70] -/
def execDbgholdHold (fn : Nat) (v : Word) (s : State) : Out :=
  windowWrite fn s <| .next (s.with (match holdTarget s.hw fn v.toNat with
    | none => putHold s.hw fn v.toNat 1
    | some (gk, p, q) =>
      match q.state with
      | .ready => putHold (setPath s.hw gk p fun q => if q.wait.inOrder then { q with holdReq := true } else { q with state := .held }) fn v.toNat 0
      | .parked | .barrier => putHold (setPath s.hw gk p fun q => { q with holdReq := true }) fn v.toNat 0
      | _ => putHold s.hw fn v.toNat 2))
/-- A release (R408): a held path is ready. -/
def execDbgholdRelease (fn : Nat) (v : Word) (s : State) : Out :=
  windowWrite fn s <| .next (s.with (match holdTarget s.hw fn v.toNat with
    | none => putHold s.hw fn v.toNat 1
    | some (gk, p, q) =>
      if q.state = .held then putHold (setPath s.hw gk p fun q => { q with state := .ready, holdReq := false, age := 0 }) fn v.toNat 0
      else putHold s.hw fn v.toNat 2))
/-- Paths asked to hold whose wait has ended are held (R408). -/
def takeHolds (hw : Hw) : Hw :=
  let now (q : Path) : Bool := q.holdReq && q.state == .ready && !q.wait.inOrder
  { hw with gangs := hw.gangs.map fun g => if g.2.paths.any fun q => now q.2 then
    (g.1, { g.2 with paths := g.2.paths.map fun q => if now q.2 then (q.1, { q.2 with state := .held, holdReq := false }) else q }) else g }

end Sys2Proof.Machine
end

