-- ==== Sys2Proof/Machine/Power.lean ====
section
/-! DEFINITION. Performance states, the power ceiling, die parking, over-current and the thermal cut (20_power R384-R397). -/

namespace Sys2Proof.Machine

open Sys2Proof

/-! ## Performance states -/

/-- The effective state of a cluster (R386). -/
def effState (c : Cluster) : Nat := Nat.max c.req (Nat.max c.cap (if c.thot then 4 else 0))
/-- Whether a state draws from the high rail (Table PW-1). -/
def onHigh (st : Nat) : Bool := decide (st < 4)
/-- The clock of a cluster is held from time t to u: its cycles stop (R385). -/
def holdClock (t u : Nat) (c : Cluster) : Cluster :=
  { c with cycles := cyclesBy c t, cycleAt := Nat.max u c.cycleAt }
/-- Begins a transition towards the effective state, where there is none under way (R385, R386). -/
def retarget (t : Nat) (c : Cluster) : Cluster :=
  if c.goal.isSome || effState c == c.cur || c.shut || c.retired || c.fail then c
  else
    let u := t + (if onHigh c.cur = onHigh (effState c) then 100 else 150)
    { holdClock t u c with goal := some (effState c, u) }
/-- Changes a cluster and lets it follow its effective state. -/
def setReq (hw : Hw) (t k : Nat) (f : Cluster → Cluster) : Hw :=
  hw.setCluster k fun c => if clusterLive hw k then retarget t (f c) else f c
/-- By time t a transition has ended if its latency is over: the new clock runs (R385), and a newer effective state begins the next
transition then (R386). -/
def endTransition (t : Nat) (c : Cluster) : Cluster :=
  match c.goal with
  | none => c
  | some (g, u) =>
    if t < u ∨ c.offSince.isSome then c else retarget u { c with goal := none, cur := g, trans := (c.trans + 1) % 2 ^ 32 }
/-- Every cluster by time t: at most two transitions end, for the second reaches the effective state. -/
def endTransitions (hw : Hw) (t : Nat) : Hw :=
  { hw with clusters := hw.clusters.map fun k => (k.1, endTransition t (endTransition t k.2)) }
/-- A cluster's clock resumes in its new state (R385, R386). [DEDUCED, safe: log 61] -/
def execPstateTransitionDone (cluster : Nat) (s : State) : Out :=
  match (s.hw.cluster cluster).goal with
  | none => .next s
  | some (_, u) => if s.time < u then .next s else .next (s.with (s.hw.setCluster cluster (endTransition s.time)))
/-- The junction sensor of a cluster reads temp °C (R390). -/
def execThermalCap (cluster : Nat) (temp : Nat) (s : State) : Out :=
  if cluster < 216 then
    .next (s.with (setReq s.hw s.time cluster fun c => { c with thot := if 105 ≤ temp then true else if temp ≤ 100 then false else c.thot }))
  else .next s
/-- CLPST as it reads (R387). -/
def clpst (c : Cluster) : Nat :=
  c.trans * 2 ^ 32 + b2n (c.fail || c.shut || c.retired) * 2 ^ 11 + c.cur * 2 ^ 8 + b2n c.thot * 128 + c.cap * 16 + c.req
/-- A host write of CLPST (R387). -/
def execClpstWrite (fn cluster : Nat) (v : Word) (s : State) : Out :=
  windowWrite fn s <| .next (s.with (
    if cluster < 216 ∧ thirdPart s.hw (cluster / 72) = some fn then
      setReq s.hw s.time cluster fun c => { c with trans := bits 63 32 v.toNat, req := bits 2 0 v.toNat }
    else noteWinErr s.hw fn))

/-! ## The ceiling loop -/

/-- The clusters of the package that are live. -/
def allLive (hw : Hw) : List Nat := (List.range 216).filter fun k => (thirdPart hw (k / 72)).isSome && clusterLive hw k
/-- The ceiling in W of a code (R389). -/
def ceilingW (code : Nat) : Nat := 1200 + 25 * code
/-- Whether the mean of a list of measurements is at most n (R388). -/
def meanAtMost (l : List Nat) (n : Nat) : Bool := decide (l.sum ≤ n * l.length)
/-- The hold of an interval in ns: the fraction (P − C) ÷ P of it, rounded up to 10 ns (R388). -/
def loopHold (p c : Nat) : Nat := ((p - c) * 100 + p - 1) / p * 10
/-- Holds the clock of every live cluster for the first part of the interval that begins at t. -/
def holdAll (hw : Hw) (t n : Nat) : Hw :=
  (allLive hw).foldl (fun h k => h.setCluster k fun c => { holdClock t (t + n) c with holdTo := t + n }) hw
/-- A boundary of the ceiling loop (R388, R389): power is the module input power over the interval just ended. [DEDUCED, unsafe: log 62] -/
def execCeilingInterval (power : Nat) (s : State) : Out :=
  let x := s.hw.pkg.ceiling
  if s.time < x.last + 1000 ∨ !s.hw.pkg.up then .next s
  else
    let x1 : Ceiling := match x.staged with
      | some c => { x with code := c, staged := none, settle := 10, history := [] }
      | none => if 0 < x.settle then { x with settle := x.settle - 1 } else { x with history := (power :: x.history).take 1000 }
    let c := ceilingW x1.code
    let x2 : Ceiling := { x1 with last := x.last + 1000, pmeas := power % 65536, excess := if c < power then (x1.excess + 1) % 65536 else x1.excess }
    let put (hw : Hw) (x : Ceiling) : Hw := { hw with pkg := { hw.pkg with ceiling := x } }
    let live := allLive s.hw
    let caps (f : Nat → Nat) : Hw := live.foldl (fun h k => setReq h s.time k fun c => { c with cap := f c.cap }) s.hw
    if c < power then
      if live.any fun k => decide ((s.hw.cluster k).cap < 7) then
        let h := put (caps fun n => if n < 7 then n + 1 else n) x2
        .next (s.with (if x2.hold = 0 then h else holdAll h s.time x2.hold))
      else
        let n := loopHold power c
        .next (s.with (holdAll (put s.hw { x2 with hold := n }) s.time n))
    else if power + 50 ≤ c ∧ x2.settle = 0 ∧ x2.history ≠ [] ∧ meanAtMost x2.history (c - 50) then
      if x2.hold = 0 then .next (s.with (put (caps fun n => n - 1) x2))
      else .next (s.with (put s.hw { x2 with hold := 0 }))
    else .next (s.with (if x2.hold = 0 then put s.hw x2 else holdAll (put s.hw x2) s.time x2.hold))
/-- PWCEIL as it reads (R389). -/
def pwceil (x : Ceiling) : Nat := x.excess * 2 ^ 48 + x.pmeas * 2 ^ 32 + x.staged.getD x.code
/-- A host write of PWCEIL (R389): only from the function with PIDX 0, with a code up to 192. [DEDUCED, unsafe: log 63] -/
def execPwceilWrite (fn : Nat) (v : Word) (s : State) : Out :=
  windowWrite fn s <| .next (s.with (
    if fn = 0 ∧ bits 7 0 v.toNat ≤ 192 then
      let x := s.hw.pkg.ceiling
      { s.hw with pkg := { s.hw.pkg with ceiling := { x with
        excess := bits 63 48 v.toNat
        staged := if bits 7 0 v.toNat = x.staged.getD x.code then x.staged else some (bits 7 0 v.toNat) } } }
    else noteWinErr s.hw fn))

/-! ## Current slope and parking -/

/-- CSLOPE after a write (R391): WAVEG above 48 is 48. -/
def slopeWord (v : Nat) : Nat := bits 55 40 v * 2 ^ 40 + bits 39 24 v * 2 ^ 24 + Nat.min 48 (bits 7 0 v)
/-- The dies of a partition as a mask. -/
def partDies (hw : Hw) (p : Nat) : Nat := maskOfList ((List.range 9).filter fun d => thirdPart hw (d / 3) == some p)
/-- PARKCTL as it reads in a function (R392). -/
def parkctl (hw : Hw) (p : Nat) : Nat :=
  let m := partDies hw p
  (hw.pkg.parked &&& m) * 2 ^ 32 + ((hw.pkg.parkReq &&& m) - (hw.pkg.parkReq &&& hw.pkg.parked &&& m)) * 2 ^ 16 + (hw.pkg.parkReq &&& m)
/-- A host write of PARKCTL (R392): dies outside the partition are ignored and counted. -/
def execParkctlWrite (fn : Nat) (v : Word) (s : State) : Out :=
  windowWrite fn s <|
    let m := partDies s.hw fn
    let r := bits 8 0 v.toNat
    let h := if (r &&& m) = r then s.hw else noteWinErr s.hw fn
    .next (s.with { h with pkg := { h.pkg with parkReq := h.pkg.parkReq - (h.pkg.parkReq &&& m) + (r &&& m) } })
/-- The clusters of a die. -/
def dieClusters (die : Nat) : List Nat := (List.range 24).map (24 * die + ·)
/-- The cores of a cluster. -/
def clusterCores (k : Nat) : List Nat := (List.range 4).map (4 * k + ·)
/-- Whether both banks of a core are empty. -/
def banksEmpty (hw : Hw) (core : Nat) : Bool := (hw.core core).ctx0.isNone && (hw.core core).ctx1.isNone
/-- A requested die parks if its banks are empty, its tiles free or saved and its trace drained (R393). -/
def parkDie (die : Nat) (s : State) : State :=
  let cs := dieClusters die
  let ok := decide (die < 9) && bit die s.hw.pkg.parkReq && !bit die s.hw.pkg.parked && cs.all fun k =>
    (s.hw.cluster k).trace.isEmpty && (clusterCores k).all fun c =>
      banksEmpty s.hw c && (s.hw.core c).acctag.all fun t => t.2.state == 0 || t.2.state == 2
  if !ok then s
  else s.with (cs.foldl (fun h k => h.setCluster k (stopSlots s.time)) { s.hw with pkg := { s.hw.pkg with parked := s.hw.pkg.parked + 2 ^ die } })
/-- A requested die parks, if it can (R393). -/
def execDiePark (die : Nat) (s : State) : Out := .next (parkDie die s)
/-- Every die parks that can (R393): its first moment, as far as turns tell moments apart. -/
def parkDue (s : State) : State := if s.hw.pkg.parkReq = 0 then s else (List.range 9).foldl (fun s d => parkDie d s) s
/-- A die whose request is cleared comes back (R393): P7, empty banks, every unit L1, every tile free. -/
def execDieUnpark (die : Nat) (s : State) : Out :=
  if !bit die s.hw.pkg.parked || bit die s.hw.pkg.parkReq then .next s
  else
    let h : Hw := { s.hw with pkg := { s.hw.pkg with parked := s.hw.pkg.parked - 2 ^ die } }
    .next (s.with ((dieClusters die).foldl (fun h k =>
      let h1 := (clusterCores k).foldl (fun h c => h.setCore c fun x => { x with units := [], acctag := [], tiles := [], syncs := [], seen := [] }) h
      setReq h1 s.time k fun c => if c.shut || c.retired || c.fail then c else { startSlots s.time c with cur := 7, goal := none }) h))

/-! ## Lost clusters -/

/-- The block words a core's banks hold, by launch: those that have not ended (R395). -/
def boundBlocks (hw : Hw) (core : Nat) : List (Nat × Nat) :=
  (hw.images.filter fun i => i.1 / 65536 == core && (match i.2.place with | .bank _ => true | _ => false)).flatMap
    fun i => i.2.records.vals.map fun r => (r.2, r.1.getD 0 0)
/-- Everything a core holds is lost (R394); what its operations have sent goes on. [DEDUCED, unsafe: log 66] -/
def loseCore (hw : Hw) (core : Nat) : Hw :=
  let here (c : Nat) : Bool := match (hw.image core c).place with | .bank _ => true | _ => false
  let mine (gk : Nat) : Bool := gkCore gk == core && here (gkCtx gk)
  let lost := boundBlocks hw core
  let h1 := { hw with
    pkg := { hw.pkg with lostBlocks := hw.pkg.lostBlocks ++ lost.filter fun b => !hw.pkg.lostBlocks.contains b }
    parts := hw.parts.map fun (q : Nat × Part) => (q.1, { q.2 with pend := q.2.pend.map fun (w : PWrite) => if mine w.gk then { w with gk := deadGang, paths := 0 } else w })
    gangs := hw.gangs.filter fun g => !mine g.1
    blocks := hw.blocks.filter fun b => !(b.2.core == core && here b.2.ctx)
    images := hw.images.filter fun i => !(i.1 / 65536 == core && (match i.2.place with | .bank _ => true | _ => false))
    ops := hw.ops.filterMap fun (o : Op) => if o.core = core then
      (if o.kind.outlives then some { o with gk := deadGang, paths := 0, flags := [], dst := .none, chain := none } else none)
      else some o }
  h1.setCore core fun k => { counts := k.counts, captured := k.captured, swaps := k.swaps, xchg := k.xchg }
/-- A cluster is lost (R394): its cores, its trace records (21_observe R404). -/
def loseCluster (hw : Hw) (t k : Nat) (f : Cluster → Cluster) : Hw :=
  let h := (clusterCores k).foldl loseCore hw
  let h1 := match thirdPart h (k / 72) with | some p => loseTrace h p t k | none => h
  h1.setCluster k fun c => { stopSlots t (f c) with goal := none }
/-- A quadrant is shut (R394); quad is 4 × die + quadrant. -/
def execOverCurrent (quad : Nat) (s : State) : Out :=
  if 36 ≤ quad ∨ bit quad s.hw.pkg.ocShut ∨ !s.hw.pkg.up then .next s
  else
    let ks := (List.range 6).map fun i => 24 * (quad / 4) + 6 * (quad % 4) + i
    let h := ks.foldl (fun h k => loseCluster h s.time k fun c => { c with shut := true }) s.hw
    .next (s.with { h with pkg := { h.pkg with ocShut := h.pkg.ocShut + 2 ^ quad, ocEvents := (h.pkg.ocEvents + 1) % 65536 } })
/-- Whether a launch's lost blocks can be placed again (R395): a live core holds a block or a live cluster a group, and a co-resident
launch still fits. -/
def canRelaunch (hw : Hw) (l : Launch) : Bool :=
  let n := (liveClusters hw l.part).length
  decide (0 < n) && decide (0 < blocksPerCore l.hdr) && (!hdrC3 l.hdr || decide (hdrExt l.hdr 2 ≤ 4 * blocksPerCore l.hdr)) &&
    (!bit 32 (hdrWord l.hdr 1) || allFit l.hdr n)
/-- Blocks of a launch that a core still holds, or keeps saved, are gone from it. -/
def dropBlocks (hw : Hw) (launch : Nat) (these : Nat → Bool) : Hw :=
  let recs := hw.images.flatMap fun i => (i.2.records.filter fun r => r.2.2 == launch && these (r.2.1.getD 0 0)).map fun r =>
    (i.1 / 65536, i.1 % 65536, r)
  let mine (gk : Nat) : Bool := match (hw.gangs.look gk).bind fun g => hw.blocks.look g.block with
    | some b => b.launch == launch && these b.blk.toNat
    | none => false
  let h := { hw with gangs := hw.gangs.filter fun g => !mine g.1, ops := hw.ops.filter fun o => !mine o.gk || o.kind.outlives }
  recs.foldl (fun h x => clearRecord h x.1 x.2.1 (x.2.2.1, x.2.2.2.1, x.2.2.2.2)) h
/-- The lost blocks of a launch are to be bound again once what left the lost cores is done (R395): with them every other block of a
lost cluster group; or the launch ends with 0x86. -/
def execBlockRelaunch (launch : Nat) (s : State) : Out :=
  let lost := (s.hw.pkg.lostBlocks.filter fun b => b.1 == launch).map (·.2)
  match s.hw.launches.look launch with
  | none => .next (s.with { s.hw with pkg := { s.hw.pkg with lostBlocks := s.hw.pkg.lostBlocks.filter fun b => b.1 != launch } })
  | some l =>
    if lost.isEmpty || s.hw.ops.any (fun o => o.launch == launch && o.gk == deadGang && o.counts && !coreUp s.hw o.core) then .next s
    else
      let h : Hw := { s.hw with pkg := { s.hw.pkg with lostBlocks := s.hw.pkg.lostBlocks.filter fun b => b.1 != launch } }
      if !canRelaunch h l then
        let recs := h.images.flatMap fun i => (i.2.records.filter fun r => r.2.2 == launch).map fun r => (i.1 / 65536, i.1 % 65536, r)
        let h1 : Hw := { h with gangs := h.gangs.filter fun g => g.2.launch != launch
                                ops := h.ops.filter fun o => o.launch != launch || o.kind.outlives }
        let gone := recs.foldl (fun h x => clearRecord h x.1 x.2.1 (x.2.2.1, x.2.2.2.1, x.2.2.2.2)) h1
        .next (s.with (endLaunch gone s.time launch 0x86))
      else
        let again (b : Nat) : Bool := lost.contains b || (hdrC3 l.hdr && lost.any fun x => sameGroup l.hdr x b)
        let h1 := dropBlocks h launch fun b => again b && !lost.contains b
        .next (s.with { h1 with launches := h1.launches.ins launch { l with
          bound := l.bound.filter fun b => !again b, ended := l.ended.filter fun b => !again b } })

/-- The module's supply opens (R396, R397; 21_observe R404): only always-on fields keep their values. quad counts for compute dies. [DESIGN CHOICE, unsafe: log 64] -/
def execThermalCut (reason chiplet quad : Nat) (s : State) : Out :=
  if !s.hw.pkg.powered ∨ reason = 0 ∨ 2 < reason then .next s
  else
    let k := s.hw.pkg
    let held (p : Part) (c : Nat) : Nat := (p.trace.holding.filter fun r =>
      (r.getD 0 0 / 2 ^ 60 == 1 || r.getD 0 0 / 2 ^ 60 == 4) && coreCluster (r.getD 3 0 % 2 ^ 17 / 128) == c).length
    let lostOf (p : Nat × Part) (c : Nat) : Nat := (s.hw.cluster c).trace.length + held p.2 c
    let gaps := s.hw.parts.foldl (fun t p => (partClusters s.hw p.1).foldl (fun t c =>
      if lostOf p c = 0 then t else t.ins c (t.val 0 c + lostOf p c)) t) k.gaps
    let parts := s.hw.parts.map fun p =>
      let n := ((partClusters s.hw p.1).map fun c => (s.hw.cluster c).trace.length).sum + p.2.trace.holding.length
      (p.1, ({ trace := { gateLost := (p.2.trace.gateLost + n) % 2 ^ 32 } } : Part))
    let hw : Hw := { parts := parts, nextId := s.hw.nextId, free := s.hw.free, phys := s.hw.phys, sent := s.hw.sent
                     pkg := { powered := false, gaps := gaps, cutValid := true, cuts := (k.cuts + 1) % 65536
                              cutReason := reason
                              cutChiplet := if reason = 1 then chiplet % 32 else 0x1F
                              cutQuad := if reason = 1 ∧ chiplet < 9 then quad % 4 else 0
                              cutTime := s.time } }
    .next { s with mem := [], hw := hw }
/-- THCUT0 as it reads (R397). -/
def thcut0 (k : Pkg) : Nat := b2n k.cutValid * 2 ^ 63 + k.cutReason * 2 ^ 59 + k.cutChiplet * 2 ^ 54 + k.cutQuad * 2 ^ 52 + k.cuts * 2 ^ 36

end Sys2Proof.Machine
end

