-- ==== Sys2Proof/Machine/Partitions.lean ====
section
/-! DEFINITION. Partitions and device health: quiesce and reshape, errors and retirement, Orrery colours, RESYNC and attestation,
bring-up (19_links R359-R362; 22_partitions R409-R419; 26_prog_merge R434, R435). -/

namespace Sys2Proof.Machine

open Sys2Proof

/-! ## Registers of a partition -/

/-- The package registers with a change. -/
def Hw.setPkg (hw : Hw) (f : Pkg → Pkg) : Hw := { hw with pkg := f hw.pkg }
/-- The map a STAGE or CUR value gives: the partition of each third (Table PT-1). -/
def mapOf (v : Nat) : List Nat := [bits 1 0 v, bits 3 2 v, bits 5 4 v]
/-- The value of a map. -/
def mapWord (m : List Nat) : Nat := m.getD 0 0 + 4 * m.getD 1 0 + 16 * m.getD 2 0
/-- Whether a map is one of the four shapes of Table PK-2, each partition indexed by its lowest third. -/
def shapeOk (m : List Nat) : Bool := [[0, 0, 0], [0, 0, 2], [0, 1, 1], [0, 1, 2]].contains m
/-- The thirds a map gives partition p. -/
def thirdsOf (m : List Nat) (p : Nat) : List Nat := (List.range 3).filter fun t => m[t]? == some p
/-- The memory chiplets of a partition as a mask (R16). -/
def memSet (hw : Hw) (p : Nat) : Nat := maskOfList ((List.range 12).filter fun m => thirdPart hw (m / 4) == some p)
/-- PKGINV (01_package R23). -/
def pkginv (hw : Hw) (p : Nat) : Nat :=
  (hw.part p).stepping * 2 ^ 56 + p * 2 ^ 48 + thirds hw p * 2 ^ 46 + memSet hw p * 2 ^ 34 + partDies hw p * 2 ^ 25 +
    (hw.pkg.parked &&& partDies hw p) * 2 ^ 16 + nSlices hw p % 256 * 256 + (liveClusters hw p).length
/-- CUR of PTBND: the map in force, or the one a reshape is bringing once a function has read it (R409; 26_prog_merge R435). -/
def curMap (k : Pkg) : List Nat := match k.reshape with | some (_, m) => if k.mapShown then m else k.map | none => k.map
/-- PTBND (R409). -/
def ptbnd (hw : Hw) (p : Nat) : Nat := mapWord (curMap hw.pkg) * 256 + (hw.part p).stage
/-- A read of PTBND while a reshape is in progress shows the map before it or, from some read on, the one after it (26_prog_merge R435). -/
def showMap (hw : Hw) : Hw :=
  if hw.pkg.reshape.isNone || hw.pkg.mapShown then hw
  else let d := hw.draw; { d.2 with pkg := { d.2.pkg with mapShown := d.1 % 2 == 1 } }
/-- PTILV (R409). -/
def ptilv (hw : Hw) (p : Nat) : Nat := (hw.part p).gen * 2 ^ 48 + memSet hw p * 2 ^ 36 + nSlices hw p * 2 ^ 28
/-- PTCMD (R409). -/
def ptcmd (q : Part) : Nat := q.ptop * 2 ^ 62 + b2n q.quiesced * 2 ^ 16 + q.ptstatus * 256
/-- Whether a queue reads BUSY (04_launch R76). -/
def queueBusy (hw : Hw) (p n : Nat) : Bool :=
  let x := (hw.part p).queue n
  x.en && (x.tail != x.prog || x.state == 1 || hw.launches.any fun l => l.2.part == p && (match l.2.src with | .host q _ => q == n | _ => false))

/-! ## Quiesce -/

/-- Stores a PTCMD command and its status. -/
def putCmd (hw : Hw) (p op st : Nat) : Hw := hw.setPart p fun q => { q with ptop := op, ptstatus := st }
/-- OP = quiesce (R410). -/
def execPtcmdQuiesce (fn : Nat) (s : State) : Out :=
  windowWrite fn s <| .next (s.with ((putCmd s.hw fn 1 0).setPart fn fun q => { q with quiesce := true }))
/-- OP = release (R410); a faulted partition stays quiesced (R415). [DEDUCED, unsafe: log 87] -/
def execPtcmdRelease (fn : Nat) (s : State) : Out :=
  windowWrite fn s <| .next (s.with (
    if (s.hw.part fn).quiesce && !(s.hw.part fn).faulted then (putCmd s.hw fn 2 0).setPart fn fun q => { q with quiesce := false, quiesced := false }
    else putCmd s.hw fn 2 2))
/-- Whether every bank of a partition is empty and every launch-table entry free (R410). -/
def allEmpty (hw : Hw) (p : Nat) : Bool :=
  (hw.cores.all fun k => corePart hw k.1 != some p || banksEmpty hw k.1) &&
    hw.images.all fun i => corePart hw (i.1 / 65536) != some p || i.2.ltable.isEmpty
/-- QUIESCED sets, if it may (R410). -/
def quiesceDone (hw : Hw) (p : Nat) : Hw :=
  if (hw.part p).quiesce && allEmpty hw p then hw.setPart p fun q => { q with quiesced := true } else hw
/-- QUIESCED sets (R410). -/
def execQuiesceComplete (fn : Nat) (s : State) : Out := .next (s.with (quiesceDone s.hw fn))
/-- Every partition that is quiesced reads so (R410). -/
def quiesceDue (s : State) : State :=
  s.with ((s.hw.parts.filter fun p => p.2.quiesce && !p.2.quiesced).foldl (fun h p => quiesceDone h p.1) s.hw)
/-- Under a quiesce Phobos empties a bank whose context has nothing left on the core (R434): the context stays live. -/
def execPhobosBankEmpty (core bank : Nat) (s : State) : Out :=
  match corePart s.hw core, bankCtx s.hw core bank with
  | some p, some c =>
    let im := s.hw.image core c
    if (s.hw.part p).quiesce && decide (bank < 2) && im.records.isEmpty && im.ltable.isEmpty && workDone s.hw p core c &&
        !((s.hw.core core).units.any fun u => u.2 == bank) && !bankBusy (bankState s.hw core bank) && (s.hw.core core).flipAt.isNone then
      .next (s.with ((emptyBank s.hw core bank).setImage core c fun i => { i with place := .away }))
    else .next s
  | _, _ => .next s

/-! ## Reshape -/

/-- The partitions a reshape to map m written to function fn affects (R411). -/
def affected (hw : Hw) (fn : Nat) (m : List Nat) : List Nat :=
  (List.range 3).filter fun p => !(thirdsOf hw.pkg.map p).isEmpty && (thirdsOf hw.pkg.map p != thirdsOf m p || p == fn)
/-- OP = reshape (R411, R435). -/
def execPtcmdReshape (fn : Nat) (s : State) : Out :=
  windowWrite fn s <|
    let m := mapOf (s.hw.part fn).stage
    let ps := affected s.hw fn m
    .next (s.with (
      if s.hw.pkg.reshape.isSome then noteWinErr s.hw fn
      else if !shapeOk m then putCmd s.hw fn 3 4
      else if ps.any fun p => (List.range 64).any (queueBusy s.hw p) then putCmd s.hw fn 3 1
      else if ps.any fun p => !(s.hw.part p).quiesced then putCmd s.hw fn 3 2
      else ps.foldl (fun h p => h.setPart p fun q => { q with ptstatus := 0xFF })
        ((putCmd s.hw fn 3 0xFF).setPkg fun k => { k with reshape := some (fn, m) })))
/-- The union of the FIB fields of some thirds (R412, R414). -/
def fibUnion (k : Pkg) (ts : List Nat) : Nat := ts.foldl (fun n t => n ||| k.health.fib.val 0 t) 0
/-- A core after its third was reshaped (R412): its counters stand. -/
def coreCleared (k : Core) : Core :=
  { counts := k.counts, captured := k.captured, took := k.took, swaps := k.swaps, xchg := k.xchg, wtStalls := k.wtStalls, wtPeak := k.wtPeak
    ordErr := k.ordErr, implicit := k.implicit, objErr := k.objErr, passes := k.passes, fused := k.fused, rejects := k.rejects }
/-! ## Orrery colours -/

/-- The partition a chiplet belongs to; none for the I/O die, which belongs to each (R15, R16). -/
def chipPart (hw : Hw) (c : Nat) : Option Nat :=
  if c < 9 then thirdPart hw (c / 3) else if c < 21 then thirdPart hw ((c - 9) / 4) else none
/-- EN of a pair: the boundary registers enable it (R360, R412). -/
def orrtEn (hw : Hw) (i j : Nat) : Bool :=
  i != j && decide (i < 22) && decide (j < 22) && (i == 21 || j == 21 || (chipPart hw i == chipPart hw j && (chipPart hw i).isSome))
/-- What is kept of ORRT (i, j): Table LK-1 without EN, and the relay in use in [45:41]. -/
def orrtKept (hw : Hw) (i j : Nat) : Nat := hw.pkg.orrt.val 3 (32 * i + j)
/-- ORRT (i, j) as it reads (R360). -/
def orrt (hw : Hw) (i j : Nat) : Nat :=
  if i = j then 0 else bits 39 0 (orrtKept hw i j) + b2n (orrtEn hw i j) * 8
/-- Whether both colours of an enabled pair work. -/
def pairWhole (hw : Hw) (i j : Nat) : Bool := orrtEn hw i j && bits 1 0 (orrtKept hw i j) == 3
/-- Whether chiplet k may relay for (i, j) (R361); a pair with both colours is never relayed itself. -/
def relayOk (hw : Hw) (i j k : Nat) : Bool := k != i && k != j && pairWhole hw i k && pairWhole hw k j
/-- The relay a pair takes: RELAY when eligible, else the lowest-numbered one (R361). -/
def relayFor (hw : Hw) (i j : Nat) : Option Nat :=
  let r := bits 20 16 (orrtKept hw i j)
  if relayOk hw i j r then some r else (List.range 22).find? (relayOk hw i j)
/-- Changes what is kept of ORRT (i, j). -/
def setOrrt (hw : Hw) (i j : Nat) (f : Nat → Nat) : Hw :=
  hw.setPkg fun k => { k with orrt := k.orrt.put 3 (32 * i + j) (f (k.orrt.val 3 (32 * i + j))) }
/-- The route of a pair is chosen anew (R361, R362): VIA and the relay follow. -/
def reroute (hw : Hw) (i j : Nat) : Hw :=
  let v := orrtKept hw i j
  let n := bits 1 0 v
  match (if !orrtEn hw i j ∨ n = 3 ∨ (n ≠ 0 ∧ !bit 8 v) then none else relayFor hw i j) with
  | some k => setOrrt hw i j fun v => setBits 45 41 k (setBits 4 4 1 v)
  | none => setOrrt hw i j fun v => setBits 45 41 0 (setBits 4 4 0 v)
/-- Whether some pair has lost both colours and has no relay. -/
def cutOff (hw : Hw) (i j : Nat) : Bool := orrtEn hw i j && bits 1 0 (orrtKept hw i j) == 0 && (relayFor hw i j).isNone
/-- A chiplet is retired as failed (R361): no block goes to a compute die's clusters. -/
def retireChiplet (hw : Hw) (k : Nat) : Hw :=
  let h := hw.setPkg fun x => { x with health := { x.health with
    retired := x.health.retired ++ [(4, k)], retiredCount := (x.health.retiredCount + 1) % 65536 } }
  if k < 9 then (dieClusters k).foldl (fun h c => h.setCluster c fun x => { x with doomed := true }) h else h
/-- Routes a pair anew whose relay is no longer eligible, or that has no colour and finds a relay (R361). -/
def repairRoute (hw : Hw) (x : Nat × Nat) : Hw :=
  let a := x.1 / 32
  let b := x.1 % 32
  let v := orrtKept hw a b
  if (bit 4 v && !relayOk hw a b (bits 45 41 v)) || (!bit 4 v && bits 1 0 v == 0) then reroute hw a b else hw
/-- One chiplet of a pair that is cut off is retired, unless one of them is (R361). -/
def retireCut (hw : Hw) (x : Nat × Nat) : Hw :=
  let i := x.1 / 32
  let j := x.1 % 32
  if cutOff hw i j && !(hw.pkg.health.retired.contains (4, i) || hw.pkg.health.retired.contains (4, j)) then
    let d := hw.draw
    retireChiplet d.2 (if d.1 % 2 = 0 then i else j)
  else hw
/-- What follows a change of what pairs can carry (R361). [DEDUCED, unsafe: log 85] -/
def settleRoutes (hw : Hw) : Hw :=
  let h := hw.pkg.orrt.foldl repairRoute hw
  h.pkg.orrt.foldl retireCut h
/-- A colour of a pair fails (R359-R362): the pair and every pair relayed over it are routed anew. -/
def failColour (hw : Hw) (i j c : Nat) : Hw :=
  if i = j ∨ 22 ≤ i ∨ 22 ≤ j ∨ 2 ≤ c ∨ !bit c (orrtKept hw i j) then hw
  else
    let h1 := setOrrt hw i j fun v => setBits 39 24 (bits 39 24 v + 1) (setBits c c 0 v)
    settleRoutes (reroute h1 i j)
/-- A receiver loses lock on a colour of a pair, 0 the even one (R359). -/
def execColourFail (src dst colour : Nat) (s : State) : Out := .next (s.with (failColour s.hw src dst colour))
/-- A host write of ORRT (R360). -/
def writeOrrt (hw : Hw) (fn n v : Nat) : Hw :=
  let i := n / 22
  let j := n % 22
  if i = j then hw
  else if i = 21 ∨ j = 21 ∨ (chipPart hw i = some fn ∧ chipPart hw j = some fn) then
    setOrrt hw i j fun x => setBits 39 24 (bits 39 24 v) (setBits 20 16 (bits 20 16 v) (setBits 8 8 (bits 8 8 v) x))
  else noteWinErr hw fn

/-! ### The end of a reshape -/

/-- The state of fibre group g, as the function that has it reads it; a retired group is down (R413). -/
def fibreState (hw : Hw) (g : Nat) : Nat :=
  if hw.pkg.health.retired.contains (3, g) then 3
  else match hw.parts.find? fun p => bit g p.2.link.fgroups with | some p => groupState p.2.link g | none => 0
/-- The fibre groups of a mask with the states they have. -/
def fibreGroups (hw : Hw) (n : Nat) : Tab Group := (bitList 16 n).foldl (fun t g => t.ins g { state := fibreState hw g }) []
/-- A function after a reshape (R412): the partition of its index as at reset, or none; its fibre groups stay in the states they had in hw. -/
def reshaped (hw : Hw) (m : List Nat) (p : Nat) (q : Part) : Part :=
  let k := hw.pkg
  let ts := thirdsOf m p
  let here := !ts.isEmpty
  let gs := if here then fibUnion k ts else 0
  { present := here, stepping := q.stepping, sup := if here then k.supctx.getD p 0xFFFF else 0xFFFF, stage := mapWord m
    gen := (q.gen + 1) % 65536, resyncs := q.resyncs, trace := { gateLost := q.trace.gateLost }
    link := { active := q.link.active, cxl := q.link.cxl, hostReach := q.link.hostReach, fgroups := gs, groups := fibreGroups hw gs } }
/-- The reshape completes (R412): the affected thirds are cleared, the new map is in force and its functions present themselves. [DEDUCED, safe: log 88] -/
def execReshapeComplete (s : State) : Out :=
  match s.hw.pkg.reshape with
  | none => .next s
  | some (fn, m) =>
    let olds := affected s.hw fn m
    let ts := olds.flatMap (thirdsOf s.hw.pkg.map)
    let ps := olds ++ (List.range 3).filter fun p => !olds.contains p && (thirdsOf m p).any fun t => ts.contains t
    let inThirds (core : Nat) : Bool := ts.contains (coreThird core)
    let gone := (s.hw.launches.filter fun l => ps.contains l.2.part).map (·.1)
    let h : Hw := { s.hw with
      pkg := { s.hw.pkg with map := m, reshape := none, mapShown := false, lostBlocks := s.hw.pkg.lostBlocks.filter fun b => !gone.contains b.1 }
      cores := s.hw.cores.map fun k => if inThirds k.1 then (k.1, coreCleared k.2) else k
      clusters := s.hw.clusters.map fun k => if ts.contains (k.1 / 72) then (k.1, { k.2 with trace := [], seq := 0, lost := 0 }) else k
      images := s.hw.images.filter fun i => !inThirds (i.1 / 65536)
      gangs := s.hw.gangs.filter fun g => !ps.contains g.2.part
      blocks := s.hw.blocks.filter fun b => !ps.contains b.2.part
      launches := s.hw.launches.filter fun l => !ps.contains l.2.part
      ops := s.hw.ops.filter fun o => !ps.contains o.part }
    let h1 := ps.foldl (fun h p => h.setPart p (reshaped s.hw m p)) h
    let moved (x : Nat × Nat) : Bool := orrtEn s.hw (x.1 / 32) (x.1 % 32) != orrtEn h1 (x.1 / 32) (x.1 % 32)
    let h2 := settleRoutes ((h1.pkg.orrt.filter moved).foldl (fun h x => reroute h (x.1 / 32) (x.1 % 32)) h1)
    let h3 := (List.range 3).foldl (fun h p => if (h.part p).present then h.setPart p fun q => { q with ptstatus := 0 } else h) h2
    .next { s with mem := s.mem.filter fun x => !ps.contains x.1, hw := h3 }

/-! ## Errors and retirement -/

/-- The threshold of a class (R414): 0 cluster, 1 slice, 2 colour, 3 fibre group. -/
def threshold (x : Health) (cls : Nat) : Nat :=
  match cls with | 0 => x.tclu | 1 => x.tslc | 2 => x.tcol | _ => x.tfib
/-- Whether an instance of a class exists: clusters, home slices, colours as 42 × chiplet + colour, fibre groups (Table PT-2). -/
def instanceOk (cls inst : Nat) : Bool :=
  match cls with | 0 => decide (inst < 216) | 1 => decide (inst < 192) | 2 => decide (inst < 924) | 3 => decide (inst < 16) | _ => false
/-- The chiplet of an instance. -/
def instanceChip (cls inst : Nat) : Nat :=
  match cls with | 0 => inst / 24 | 1 => 9 + inst / 16 | 2 => inst / 42 | _ => 21
/-- Errors of an instance in the span that ends at t (R413). -/
def errorsIn (x : Health) (t : Nat) (f : Nat → Nat → Bool) : Nat :=
  (x.events.filter fun e => f e.1 e.2.1 && decide (t < e.2.2 + x.win * 1000000)).length
/-- What retirement does (Table PT-2). -/
def retireEffect (hw : Hw) (cls inst : Nat) : Hw :=
  match cls with
  | 0 => hw.setCluster inst fun c => { c with doomed := true }
  | 2 => failColour hw (inst / 42) ((inst / 42 + inst % 42 / 2 + 1) % 22) (inst % 2)
  | 3 => ((hw.parts.filter fun p => bit inst p.2.link.fgroups).map (·.1)).foldl (fun h p => loseGroup h p inst) hw
  | _ => hw
/-- A correctable error (R413). -/
def correctable (hw : Hw) (t cls inst : Nat) : Hw :=
  let h := hw.setPkg fun k => { k with health := { k.health with events := k.health.events ++ [(cls, inst, t)] } }
  let x := h.pkg.health
  if threshold x cls = 0 ∨ x.retired.contains (cls, inst) ∨ errorsIn x t (fun c i => c == cls && i == inst) < threshold x cls then h
  else retireEffect (h.setPkg fun k => { k with health := { k.health with
    retired := k.health.retired ++ [(cls, inst)], retiredCount := (k.health.retiredCount + 1) % 65536 } }) cls inst
/-- A correctable error is counted (R413). -/
def execCorrectableError (cls inst : Nat) (s : State) : Out :=
  if instanceOk cls inst && s.hw.pkg.up then .next (s.with (correctable s.hw s.time cls inst)) else .next s
/-- Retired clusters whose banks are empty stop (R413). [DEDUCED, safe: log 86] -/
def retireDoomed (hw : Hw) (t : Nat) : Hw :=
  ((hw.clusters.filter fun k => k.2.doomed && !k.2.retired && (clusterCores k.1).all (banksEmpty hw)).map (·.1)).foldl
    (fun h k => h.setCluster k fun c => stopSlots t { c with retired := true, goal := none }) hw
/-- A partition faults (R415): every context is killed, and it reads quiesced. -/
def faultPartition (s : State) (p : Nat) : State :=
  let s1 := ((s.hw.part p).contexts.map (·.1)).foldl (fun s c => let s' := s.with (doKill s p c); s'.with (endKill s' p c)) s
  s1.with ((s1.hw.setPart p fun q => { q with quiesce := true, quiesced := true, faulted := true }).send 10 p [])
/-- An uncorrectable error (R413). -/
def execUncorrectableError (cls inst : Nat) (s : State) : Out :=
  if !instanceOk cls inst || !s.hw.pkg.up then .next s
  else match cls with
  | 0 => .next (if clusterLive s.hw inst then s.with (loseCluster s.hw s.time inst fun c => { c with retired := true }) else s)
  | 1 => .next (match thirdPart s.hw (inst / 64) with | some p => faultPartition s p | none => s)
  | 2 => .next (s.with (correctable s.hw s.time 2 inst))
  | _ =>
    let carried (o : Op) : Bool :=
      let k := (s.hw.part o.part).link
      bit inst k.fgroups && ((o.kind.elems.any fun e => onItsWay k o e && carrier k e.tgt.peer == some inst) ||
        match o.kind with | .copy c => !(c.fabric k fun x => carrier k x == some inst).isEmpty | _ => false)
    match s.hw.ops.filter carried with
    | [] => .next s
    | o :: os =>
      let d := s.hw.draw
      let x := (o :: os).getD (d.1 % (os.length + 1)) o
      let k := (s.hw.part x.part).link
      .next (s.with (endRequests d.2 x.part x.id (fun e => carrier k e.tgt.peer == some inst) fun y => carrier k y == some inst))
/-- ERRCFG as it reads (R414). -/
def errcfg (x : Health) : Nat := x.win * 2 ^ 48 + x.tclu * 2 ^ 40 + x.tslc * 2 ^ 32 + x.tcol * 2 ^ 24 + x.tfib * 2 ^ 16 + x.retiredCount
/-- ERRCFG after a write (R414): a window of 0 is stored as 1. -/
def writeErrcfg (x : Health) (v : Nat) : Health :=
  { x with win := Nat.max 1 (bits 63 48 v), tclu := bits 47 40 v, tslc := bits 39 32 v, tcol := bits 31 24 v, tfib := bits 23 16 v }

/-! ## RESYNC and attestation -/

/-- FABID as it reads (R373). -/
def fabid (k : LinkSt) : Nat := k.fgroups * 2 ^ 32 + b2n k.fen * 2 ^ 31 + b2n k.hostok * 2 ^ 30 + k.devno
/-- OCSTAT as it reads (20_power R394). -/
def ocstat (k : Pkg) : Nat := k.ocEvents * 2 ^ 48 + k.ocShut
/-- The word of chiplet k in the summary (Table PT-3). -/
def chipletWord (hw : Hw) (t k : Nat) : Nat :=
  let failed := ((List.range 22).filter (· != k)).map fun j => 2 - popBits 2 (orrtKept hw k j)
  let bad := hw.pkg.health.retired.contains (4, k) ||
    (decide (k < 9) && (dieClusters k).all fun c => let x := hw.cluster c; x.fail || x.shut || x.retired)
  failed.sum * 2 ^ 48 + Nat.min 65535 (errorsIn hw.pkg.health t fun c i => instanceChip c i == k) * 2 ^ 32 + b2n bad
/-- The summary at time t as words by offset (Table PT-3). -/
def resyncWords (hw : Hw) (p t : Nat) : List (Nat × Nat) :=
  [(0x008, t), (0x010, pkginv hw p), (0x018, ptilv hw p), (0x020, ptbnd hw p), (0x028, pwceil hw.pkg.ceiling), (0x030, parkctl hw p),
   (0x038, ocstat hw.pkg), (0x040, thcut0 hw.pkg), (0x048, hw.pkg.cutTime), (0x050, fabid (hw.part p).link),
   (0x058, hw.pkg.firmware.getD 0 0 % 2 ^ 32 * 2 ^ 32 + hw.pkg.firmware.getD 1 0 % 2 ^ 32),
   (0x060, (hw.part p).sup * 2 ^ 16 + (hw.part p).contexts.length), (0x068, errcfg hw.pkg.health)] ++
  ((List.range 216).map fun c => (0x080 + 8 * c, if thirdPart hw (c / 72) = some p then clpst (hw.cluster c) else 0)) ++
  ((List.range 22).map fun k => (0x740 + 8 * k, chipletWord hw t k)) ++
  (([0x070, 0x078] ++ (List.range 258).map fun i => 0x7F0 + 8 * i).map fun a => (a, 0))
/-- RESYNC (R416): the summary goes to the host buffer, word 0x000 last. -/
def execResync (fn : Nat) (v : Word) (s : State) : Out :=
  windowWrite fn s <|
    let a := bits 63 12 v.toNat * 4096
    let h := s.hw.setPart fn fun q => { q with resyncAddr := a }
    if !bit 0 v.toNat then .next (s.with h)
    else
      let n := ((s.hw.part fn).resyncs + 1) % 2 ^ 32
      let h1 := h.setPart fn fun q => { q with resyncs := n }
      let h2 := h1.send 13 fn (a :: (resyncWords s.hw fn s.time).flatMap fun w => [w.1, w.2])
      .next (s.with (h2.send 13 fn [a, 0, 2 ^ 32 + n]))
/-- n open values (log 6). -/
def draws (hw : Hw) (n : Nat) : List Nat × Hw := ((List.range n).map fun i => Config.free (hw.free + i) % 2 ^ 64, { hw with free := hw.free + n })
/-- ATTEST (R418): the report, with the values only the device's identity gives open. [DESIGN CHOICE, safe: log 89] -/
def execAttest (fn : Nat) (v : Word) (nonce : List Byte) (s : State) : Out :=
  windowWrite fn s <|
    let a := bits 63 12 v.toNat * 4096
    let h := s.hw.setPart fn fun q => { q with attestAddr := a }
    if !bit 0 v.toNat || nonce.length != 32 then .next (s.with h)
    else
      let d := draws h (1 + 24 + 8 + 414)
      let sig := d.1.drop 25
      let ws := [d.1.getD 0 0, s.time, pkginv s.hw fn] ++ bytesWords 4 nonce ++ (d.1.drop 1).take 24 ++ [0] ++ sig.take 421 ++ [sig.getD 421 0 % 2 ^ 40] ++ List.replicate 26 0
      .next (s.with (d.2.send 14 fn ((a + 0x100) :: ws)))

/-! ## Bring-up -/

/-- A cluster at power-on (20_power R387, R391; 22_partitions R417). -/
def bootCluster (b : Board) (k : Nat) : Cluster :=
  let c : Cluster := { req := b.req % 8, slope := slopeWord b.slope, fail := b.badDies.contains (k / 24), retired := b.retired.contains k }
  if c.fail || c.retired then stopSlots 0 c else retarget 0 c
/-- The package at power-on (R419): always-on fields keep their values (00_scope R8). -/
def bootPkg (b : Board) (k : Pkg) : Pkg :=
  { powered := true, up := b.genuine, map := b.map, ceiling := { code := Nat.min 192 b.ceiling, settle := 10 }
    cutValid := k.cutValid, cutReason := k.cutReason, cutChiplet := k.cutChiplet, cutQuad := k.cutQuad, cuts := k.cuts, cutTime := k.cutTime
    gaps := k.gaps, supctx := b.supctx, firmware := b.firmware, genuine := b.genuine
    health := writeErrcfg { fib := ((List.range 3).zip b.fib).map fun x => (x.1, x.2 % 65536) } b.errcfg }
/-- Power-on reset and bring-up (R417, R419): memory reads zero, Orrery time starts at 0, and the functions of the board's shape
present themselves. The counters of the model itself go on. [DESIGN CHOICE, unsafe: log 71] -/
def execPowerOnReset (b : Board) (s : State) : Out :=
  if !shapeOk b.map then .next s
  else
    let k := bootPkg b s.hw.pkg
    let part (p : Nat) : Part :=
      let ts := thirdsOf b.map p
      let here := !ts.isEmpty && b.genuine
      { present := here, stepping := b.stepping % 256, sup := if here then b.supctx.getD p 0xFFFF else 0xFFFF, stage := mapWord b.map
        trace := { gateLost := (s.hw.part p).trace.gateLost }
        link := { active := b.linkUp, cxl := b.cxl, hostReach := b.linkUp, fgroups := if here then fibUnion k ts else 0 } }
    .next { s with
      time := 0, mem := []
      hw := { pkg := k, parts := (List.range 3).map fun p => (p, part p), clusters := (List.range 216).map fun c => (c, bootCluster b c)
              nextId := s.hw.nextId, free := s.hw.free, phys := s.hw.phys, sent := s.hw.sent } }

end Sys2Proof.Machine
end

