-- ==== Sys2Proof/Machine/Window.lean ====
section
/-! DEFINITION. The register window of a function: what every register reads, and the writes that have no row of their own
(00_scope R7-R9; 04_launch R73-R76; 19_links R360, R364, R368, R369, R373; 20_power R387-R397; 21_observe R399-R408;
22_partitions R409-R418). -/

namespace Sys2Proof.Machine

open Sys2Proof

/-! ## Reads -/

/-- Whether word address off is the k-th word of n from base on, step apart: its index. -/
def regIdx (base step n off : Nat) : Option Nat :=
  if base ≤ off ∧ off < base + step * n then some ((off - base) / step) else none
/-- A register of queue q as it reads (04_launch R73). -/
def readQueue (hw : Hw) (p q r : Nat) : Nat :=
  let x := (hw.part p).queue q
  match r with
  | 0x00 => x.base
  | 0x08 => x.ctx * 2 ^ 48 + x.log2n * 16 + b2n x.en
  | 0x10 => x.tail
  | 0x18 => x.prog
  | 0x20 => b2n x.ovf * 16 + b2n (queueBusy hw p q) * 8 + x.state * 2 + b2n x.xerr
  | 0x28 => x.save
  | _ => 0
/-- DROPCNT as it reads (19_links R368). -/
def dropcnt (k : LinkSt) : Nat := k.dropHost * 2 ^ 48 + k.dropPeer * 2 ^ 32 + k.dropPool * 2 ^ 16 + k.dropMcr
/-- TRFRZ as it reads (21_observe R403). -/
def trfrz (x : Trace) : Nat := b2n x.frozen * 2 ^ 63 + b2n x.arm * 2 ^ 62 + x.post * 2 ^ 32
/-- DBGHOLD as it reads (21_observe R408). -/
def dbghold (x : DbgHold) : Nat := x.ctx * 2 ^ 48 + x.op * 2 ^ 46 + x.status * 2 ^ 32 + x.path * 2 ^ 17 + x.gang
/-- The registers below 0x1000 as they read. -/
def readLow (hw : Hw) (p off : Nat) : Nat :=
  let q := hw.part p
  let x := q.trace
  match off with
  | 0x0040 => pkginv hw p
  | 0x0048 => q.link.winerr
  | 0x0108 => fabid q.link
  | 0x0110 => dropcnt q.link
  | 0x0118 => q.link.expSize * 2 ^ 40 + q.link.expBase * 2 ^ 20
  | 0x0200 => pwceil hw.pkg.ceiling
  | 0x0208 => parkctl hw p
  | 0x0210 => ocstat hw.pkg
  | 0x0218 => thcut0 hw.pkg
  | 0x0220 => hw.pkg.cutTime
  | 0x0300 => x.base + x.log2n * 256 + b2n x.en
  | 0x0308 => x.prod
  | 0x0310 => x.cons
  | 0x0318 => x.gateLost * 2 ^ 32 + x.ovfLost
  | 0x0320 => trfrz x
  | 0x0348 => x.cutoff
  | 0x0600 => dbghold q.hold
  | 0x0700 => ptcmd q
  | 0x0708 => ptbnd hw p
  | 0x0710 => ptilv hw p
  | 0x0720 => hw.pkg.health.fib.val 0 0 + hw.pkg.health.fib.val 0 1 * 2 ^ 16 + hw.pkg.health.fib.val 0 2 * 2 ^ 32
  | 0x0728 => errcfg hw.pkg.health
  | 0x0730 => q.resyncAddr
  | 0x0738 => q.attestAddr
  | _ =>
    match regIdx 0x0328 8 4 off with
    | some n => x.dst.val 0 n
    | none => match regIdx 0x0400 8 32 off with
      | some n => q.bps.val 0 n
      | none => match regIdx 0x0500 8 16 off with
        | some n => q.wps.val 0 n
        | none => 0
/-- What an aligned 8-byte host read of the window of function p gives (00_scope R7, R9; 22_partitions R412): all ones while the
function has no partition or its reshape runs. [DEDUCED, safe: log 76] [DESIGN CHOICE, unsafe: log 98] -/
def windowRead (hw : Hw) (p off : Nat) : Nat :=
  if !hw.pkg.up || !(hw.part p).present || (hw.part p).ptstatus == 0xFF || off % 8 != 0 then 2 ^ 64 - 1
  else if off < 0x1000 then readLow hw p off
  else match regIdx 0x1000 0x40 64 off with
  | some q => readQueue hw p q (off % 0x40)
  | none => match regIdx 0x2000 8 484 off with
    | some n => orrt hw (n / 22) (n % 22)
    | none => match regIdx 0x4000 16 1024 off with
      | some n => extentWord (extent (hw.part p).link n) (off % 16 / 8)
      | none => match regIdx 0x8000 8 216 off with
        | some c => clpst (hw.cluster c)
        | none => match regIdx 0x9000 8 216 off with
          | some c => (hw.cluster c).slope
          | none => match regIdx 0x20000 0x80 864 off with
            | some k => if corePart hw k = some p then (if off % 0x80 ≤ 0x50 then capturedWord hw k (off % 0x80 / 8) else 0) else 0
            | none => match regIdx 0x10000 8 128 off with
              | some n => msixWord hw p n
              | none => if off = 0x18000 then (hw.part p).pba else 0

/-- The register of a function's window that a read of n bytes at an offset reaches, and whether the access is counted: a narrow or
misaligned one, one during a reshape, and one of a core of another partition (R9; 21_observe R399; 22_partitions R412). [DEDUCED, safe: log 8] [DESIGN CHOICE, unsafe: log 98] -/
def readCounted (hw : Hw) (p off n : Nat) : Bool :=
  n != 8 || off % 8 != 0 || (hw.part p).ptstatus == 0xFF ||
    (match regIdx 0x20000 0x80 864 off with | some k => corePart hw k != some p | none => false)
/-- A host read (13_consistency R261): of device memory, or with `win` of the register window, which answers all ones where the read
is narrow or misaligned (R9), or wider than 8 bytes, of which R9 does not speak. [DESIGN CHOICE, safe: log 93] [DESIGN CHOICE, unsafe: log 98] -/
def execHostRead (fn addr len : Nat) (cxl win : Bool) (s : State) : Out :=
  if !win then readMemory fn addr len cxl s
  else
    let q := s.hw.part fn
    if !s.hw.pkg.up || !postedPast s.hw fn s.time then .next s
    else
      let h0 := if len = 8 ∧ addr = 0x0708 ∧ q.ptstatus ≠ 0xFF then showMap s.hw else s.hw
      let v := if len = 8 then windowRead h0 fn addr else 2 ^ 64 - 1
      let h := if q.present && readCounted h0 fn addr len then noteWinErr h0 fn else h0
      .next (s.with (h.send 3 fn [addr, v % 2 ^ (8 * Nat.min len 8)]))

/-! ## Writes -/

/-- A write of QBASE or QSAVE to value n, the old one being x (04_launch R74): while EN is 1 a change is ignored and counted. -/
def writeLocked (hw : Hw) (p q old n : Nat) (f : Queue → Queue) : Hw :=
  if ((hw.part p).queue q).en then (if old = n then hw else noteWinErr hw p) else hw.setQueue p q f
/-- A write of a queue register other than QCFG and QTAIL (04_launch R73, R74). -/
def writeQueue (hw : Hw) (p q r v : Nat) : Hw :=
  let x := (hw.part p).queue q
  match r with
  | 0x00 => let n := bits 56 8 v * 256; writeLocked hw p q x.base n fun x => { x with base := n }
  | 0x20 => hw.setQueue p q fun x => { x with ovf := x.ovf && !bit 4 v, xerr := x.xerr && !bit 0 v }
  | 0x28 => let n := bits 56 6 v * 64; writeLocked hw p q x.save n fun x => { x with save := n }
  | _ => hw
/-- What a breakpoint or watchpoint word keeps (21_observe R406): KIND is read as zero in breakpoints. -/
def debugWord (watch : Bool) (n v : Nat) : Nat :=
  if n % 2 = 0 then bits 63 60 v * 2 ^ 60 + (if watch then bits 59 58 v * 2 ^ 58 else 0) + bits 56 0 v
  else bits 63 48 v * 2 ^ 48 + bits 31 0 v
/-- Writes below 0x1000 that have no row of their own. -/
def writeLow (hw : Hw) (p off v : Nat) : Hw :=
  match off with
  | 0x0048 => hw.setLink p fun k => { k with winerr := bits 31 0 v }
  | 0x0110 => hw.setLink p fun k =>
      { k with dropHost := bits 63 48 v, dropPeer := bits 47 32 v, dropPool := bits 31 16 v, dropMcr := bits 15 0 v }
  | 0x0118 => hw.setLink p fun k => { k with expSize := bits 59 40 v, expBase := bits 39 20 v }
  | 0x0210 => hw.setPkg fun k => { k with ocEvents := bits 63 48 v }
  | 0x0218 => if bit 63 v then hw.setPkg fun k => { k with cutValid := false, cutReason := 0, cutChiplet := 0, cutQuad := 0, cutTime := 0 } else hw
  | 0x0310 => hw.setTrace p fun x => { x with cons := bits 31 0 v }
  | 0x0318 => hw.setTrace p fun x => { x with gateLost := bits 63 32 v, ovfLost := bits 31 0 v }
  | 0x0320 => hw.setTrace p fun x => { x with frozen := x.frozen && !bit 63 v, arm := bit 62 v, post := bits 47 32 v }
  | 0x0600 => hw.setPart p fun q =>
      { q with hold := { q.hold with ctx := bits 63 48 v, op := bits 47 46 v, path := bits 20 17 v, gang := bits 16 0 v } }
  | 0x0700 => hw.setPart p fun q => { q with ptop := 0 }
  | 0x0708 => hw.setPart p fun q => { q with stage := bits 5 0 v }
  | 0x0728 => if p = 0 then hw.setPkg fun k => { k with health := writeErrcfg k.health v } else noteWinErr hw p
  | _ =>
    match regIdx 0x0328 8 4 off with
    | some n => hw.setTrace p fun x => { x with dst := x.dst.put 0 n (b2n (bit 63 v) * 2 ^ 63 + bits 16 0 v) }
    | none => match regIdx 0x0400 8 32 off with
      | some n => hw.setPart p fun q => { q with bps := q.bps.put 0 n (debugWord false n v) }
      | none => match regIdx 0x0500 8 16 off with
        | some n => hw.setPart p fun q => { q with wps := q.wps.put 0 n (debugWord true n v) }
        | none => hw
/-- A write at or above 0x1000 that has no row of its own. -/
def writeHigh (hw : Hw) (p off v : Nat) : Hw :=
  match regIdx 0x1000 0x40 64 off with
  | some q => writeQueue hw p q (off % 0x40) v
  | none => match regIdx 0x2000 8 484 off with
    | some n => writeOrrt hw p n v
    | none => match regIdx 0x9000 8 216 off with
      | some c => if thirdPart hw (c / 72) = some p then hw.setCluster c fun x => { x with slope := slopeWord v } else noteWinErr hw p
      | none => match regIdx 0x20000 0x80 864 off with
        | some k => if corePart hw k = some p then hw else noteWinErr hw p
        | none => match regIdx 0x10000 8 128 off with
          | some n => writeMsix hw p n v
          | none => hw
/-- A host write to the register window of a function (R7, R9): narrow or misaligned ones have no effect and are counted; a register
with a row of its own is written as that row says. Wider ones, and those of 4 bytes to the MSI-X table, are taken as narrow ones are.
[DEDUCED, safe: log 77] [DEDUCED, safe: log 77] [DESIGN CHOICE, unsafe: log 98] -/
def execRegisterWrite (fn off size : Nat) (v : Word) (s : State) : Out :=
  if size ≠ 8 ∨ off % 8 ≠ 0 then windowWrite fn s (.next (s.with (noteWinErr s.hw fn)))
  else if off < 0x1000 then
    match off with
    | 0x0108 => execFabidWrite fn v s
    | 0x0200 => execPwceilWrite fn v s
    | 0x0208 => execParkctlWrite fn v s
    | 0x0300 => execTrcfgWrite fn v s
    | 0x0730 => execResync fn v s
    | 0x0738 => let d := draws s.hw 4; execAttest fn v (wordBytes d.1) (s.with d.2)
    | 0x0600 =>
      match bits 47 46 v.toNat with
      | 1 => execDbgholdHold fn v s
      | 2 => execDbgholdRelease fn v s
      | _ => windowWrite fn s (.next (s.with (writeLow s.hw fn off v.toNat)))
    | 0x0700 =>
      match bits 63 62 v.toNat with
      | 1 => execPtcmdQuiesce fn s
      | 2 => execPtcmdRelease fn s
      | 3 => execPtcmdReshape fn s
      | _ => windowWrite fn s (.next (s.with (writeLow s.hw fn off v.toNat)))
    | _ => windowWrite fn s (.next (s.with (writeLow s.hw fn off v.toNat)))
  else match regIdx 0x1000 0x40 64 off with
  | some q =>
    if off % 0x40 = 0x08 then execQcfgWrite fn q v s
    else if off % 0x40 = 0x10 then execQtailWrite fn q v s
    else windowWrite fn s (.next (s.with (writeHigh s.hw fn off v.toNat)))
  | none => match regIdx 0x8000 8 216 off with
    | some c => execClpstWrite fn c v s
    | none => match regIdx 0x20000 0x80 864 off with
      | some k =>
        if off % 0x80 = 0x58 ∧ bit 0 v.toNat then execCounterTake fn k s
        else windowWrite fn s (.next (s.with (writeHigh s.hw fn off v.toNat)))
      | none => windowWrite fn s (.next (s.with (writeHigh s.hw fn off v.toNat)))

end Sys2Proof.Machine
end

