-- ==== Sys2Proof/Machine/Wake.lean ====
section
/-! DEFINITION. What a waiting path waits for has come about (13_consistency R253-R257; 12_handles R238, R243; 14_atomics R267,
R273; 17_tail R332, R339; 18_contexts R355-R357; 19_links R382). -/

namespace Sys2Proof.Machine

open Sys2Proof

/-- Whether a partial numbered from lo on, below hi, has not returned its W (14_atomics R273). -/
def partialsOut (hw : Hw) (lo hi : Nat) : Bool :=
  hw.ops.any fun o => decide (lo ≤ o.id) && decide (o.id < hi) && (match o.kind with | .partialSum .. => true | _ => false)
/-- The result of an operation whose acquire is over (14_atomics R267). -/
def acquired (o : Op) (l : Nat) : Word :=
  match o.kind with
  | .atomic es .. => atomicVal o es l
  | .counter e _ => e.val
  | _ => 0
/-- The acquire of a path retires at the time it was given (14_atomics R267). -/
def wakeAcquire (s : State) (e : Env) (id t : Nat) : State :=
  if s.time < t then s
  else match s.hw.op id with
  | some o => landOp (s.with (e.setPath s.hw fun q => { q with wait := .op id })) o (acquired o)
  | none => s

/-- A path that waits in a context its core runs goes on, if what it waits for has come about. -/
def wakeRunning (s : State) (e : Env) : State :=
  match e.q.wait with
  | .fence sc b => if fenceDone s.hw e.gk sc b s.time then s.with (e.retireParked {} (fenceOver s.hw e.part e.gk sc b)) else s
  | .sfence b => if sfenceDone s.hw e.gk b then s.with (e.retireParked {} s.hw) else s
  | .wdone b d => if wdoneDone s.hw e.gk b then s.with (e.retireParked { s := [(d, word e.g.maxW)] } s.hw) else s
  | .tnow b d => if fenceDone s.hw e.gk 0 b s.time then s.with (e.retireParked { s := [(d, word s.time)] } s.hw) else s
  | .twait t => if t.toNat ≤ s.time then s.with (e.retireParked {} s.hw) else s
  | .release sc b =>
    if e.q.state = .parked ∧ fenceDone s.hw e.gk sc b s.time then s.with (e.setPath s.hw fun q => { q with state := .ready, wait := .release sc 0, age := 0, skipBp := true }) else s
  | .wmark b sent got => s.with (wakeWmark e b sent got)
  | .revert c k force d res => s.with (wakeRevert s e c k force d res)
  | .command d core c op t => s.with (wakeCommand s e d core c op t)
  | .fwait thr g d => s.with (wakeFwait e thr g d)
  | .acquire id t => wakeAcquire s e id t
  | .redflush lo hi => if partialsOut s.hw lo hi then s else s.with (e.retireParked {} s.hw)
  | .drain ids c va ps d => wakeDrain s e ids c va ps d
  | .table a v t => wakeTable s e a v t
  | .query t tab =>
    if t ≤ s.time then s.with (e.setPath s.hw fun q => { q with state := .ready, wait := .go tab, age := 0, skipBp := true }) else s
  | _ => s
/-- A path that waits in a context its core does not run: only what is owed to operations under way goes on (18_contexts R351). -/
def wakeAside (s : State) (e : Env) : State :=
  match e.q.wait with
  | .acquire id t => wakeAcquire s e id t
  | .redflush lo hi => if partialsOut s.hw lo hi then s else s.with (e.retireParked {} s.hw)
  | .drain ids c va ps d => wakeDrain s e ids c va ps d
  | _ => s
/-- The wait of a path is over (R253). -/
def execFenceRetire (q : PathRef) (s : State) : Out :=
  match envAt s q with
  | some e => .next (if runsOn s.hw e.core e.ctx then wakeRunning s e else wakeAside s e)
  | none => .next s

end Sys2Proof.Machine
end

