-- ==== Sys2Proof/Machine/Dispatch.lean ====
section
/-! DEFINITION. The meaning of every instruction and event, one arm each. -/

namespace Sys2Proof.Machine

open Sys2Proof

/-- What an instruction or event does to the machine; an instruction acts for the path in the cursor. -/
def exec (i : Instr) (s : State) : Host.Outcome State Fault Refusal :=
  match i with
  | .beginClause h => Sys2Proof.Machine.execBeginClause h s
  | .nop f => Sys2Proof.Machine.execNop f s
  | .yield f => Sys2Proof.Machine.execYield f s
  | .endif f => Sys2Proof.Machine.execEndif f s
  | .ret f => Sys2Proof.Machine.execRet f s
  | .ifOp f => Sys2Proof.Machine.execIf f s
  | .elseOp f => Sys2Proof.Machine.execElse f s
  | .loop f => Sys2Proof.Machine.execLoop f s
  | .breakOp f => Sys2Proof.Machine.execBreak f s
  | .cont f => Sys2Proof.Machine.execCont f s
  | .endloop f => Sys2Proof.Machine.execEndloop f s
  | .loopn f => Sys2Proof.Machine.execLoopn f s
  | .bra f => Sys2Proof.Machine.execBra f s
  | .brs f => Sys2Proof.Machine.execBrs f s
  | .call f => Sys2Proof.Machine.execCall f s
  | .brx f => Sys2Proof.Machine.execBrx f s
  | .callx f => Sys2Proof.Machine.execCallx f s
  | .split f => Sys2Proof.Machine.execSplit f s
  | .rejoin f => Sys2Proof.Machine.execRejoin f s
  | .rejoinL f => Sys2Proof.Machine.execRejoinL f s
  | .movS f => Sys2Proof.Machine.execMovS f s
  | .mov f => Sys2Proof.Machine.execMov f s
  | .movsS f => Sys2Proof.Machine.execMovsS f s
  | .movs f => Sys2Proof.Machine.execMovs f s
  | .movl f => Sys2Proof.Machine.execMovl f s
  | .sel f => Sys2Proof.Machine.execSel f s
  | .vrel f => Sys2Proof.Machine.execVrel f s
  | .vzero f => Sys2Proof.Machine.execVzero f s
  | .sread f => Sys2Proof.Machine.execSread f s
  | .swrite f => Sys2Proof.Machine.execSwrite f s
  | .glaunch f => Sys2Proof.Machine.execGlaunch f s
  | .deviceQueueTake op => Sys2Proof.Machine.execDeviceQueueTake op s
  | .gsig f => Sys2Proof.Machine.execGsig f s
  | .gwait f => Sys2Proof.Machine.execGwait f s
  | .gwaitWake q => Sys2Proof.Machine.execGwaitWake q s
  | .gcount f => Sys2Proof.Machine.execGcount f s
  | .wid f => Sys2Proof.Machine.execWid f s
  | .exit f => Sys2Proof.Machine.execExit f s
  | .addS f => Sys2Proof.Machine.execAddS f s
  | .subS f => Sys2Proof.Machine.execSubS f s
  | .andS f => Sys2Proof.Machine.execAndS f s
  | .orS f => Sys2Proof.Machine.execOrS f s
  | .xorS f => Sys2Proof.Machine.execXorS f s
  | .shlS f => Sys2Proof.Machine.execShlS f s
  | .shrS f => Sys2Proof.Machine.execShrS f s
  | .sarS f => Sys2Proof.Machine.execSarS f s
  | .add f => Sys2Proof.Machine.execAdd f s
  | .sub f => Sys2Proof.Machine.execSub f s
  | .and f => Sys2Proof.Machine.execAnd f s
  | .or f => Sys2Proof.Machine.execOr f s
  | .xor f => Sys2Proof.Machine.execXor f s
  | .shl f => Sys2Proof.Machine.execShl f s
  | .shr f => Sys2Proof.Machine.execShr f s
  | .sar f => Sys2Proof.Machine.execSar f s
  | .adds f => Sys2Proof.Machine.execAdds f s
  | .subs f => Sys2Proof.Machine.execSubs f s
  | .absd f => Sys2Proof.Machine.execAbsd f s
  | .min f => Sys2Proof.Machine.execMin f s
  | .max f => Sys2Proof.Machine.execMax f s
  | .andn f => Sys2Proof.Machine.execAndn f s
  | .rot f => Sys2Proof.Machine.execRot f s
  | .abs f => Sys2Proof.Machine.execAbs f s
  | .not f => Sys2Proof.Machine.execNot f s
  | .mul f => Sys2Proof.Machine.execMul f s
  | .mulh f => Sys2Proof.Machine.execMulh f s
  | .mad f => Sys2Proof.Machine.execMad f s
  | .div f => Sys2Proof.Machine.execDiv f s
  | .rem f => Sys2Proof.Machine.execRem f s
  | .bfe f => Sys2Proof.Machine.execBfe f s
  | .bfi f => Sys2Proof.Machine.execBfi f s
  | .popc f => Sys2Proof.Machine.execPopc f s
  | .clz f => Sys2Proof.Machine.execClz f s
  | .ctz f => Sys2Proof.Machine.execCtz f s
  | .brev f => Sys2Proof.Machine.execBrev f s
  | .cmp f => Sys2Proof.Machine.execCmp f s
  | .lea f => Sys2Proof.Machine.execLea f s
  | .fadd f => Sys2Proof.Machine.execFadd f s
  | .fsub f => Sys2Proof.Machine.execFsub f s
  | .fmul f => Sys2Proof.Machine.execFmul f s
  | .fmin f => Sys2Proof.Machine.execFmin f s
  | .fmax f => Sys2Proof.Machine.execFmax f s
  | .fabs f => Sys2Proof.Machine.execFabs f s
  | .fneg f => Sys2Proof.Machine.execFneg f s
  | .fscale f => Sys2Proof.Machine.execFscale f s
  | .fma f => Sys2Proof.Machine.execFma f s
  | .fcmp f => Sys2Proof.Machine.execFcmp f s
  | .fclass f => Sys2Proof.Machine.execFclass f s
  | .fdot f => Sys2Proof.Machine.execFdot f s
  | .cvt f => Sys2Proof.Machine.execCvt f s
  | .frnd f => Sys2Proof.Machine.execFrnd f s
  | .cvtq f => Sys2Proof.Machine.execCvtq f s
  | .cvtdq f => Sys2Proof.Machine.execCvtdq f s
  | .frcp f => Sys2Proof.Machine.execFrcp f s
  | .frsq f => Sys2Proof.Machine.execFrsq f s
  | .fsqrt f => Sys2Proof.Machine.execFsqrt f s
  | .fdiv f => Sys2Proof.Machine.execFdiv f s
  | .fexp2 f => Sys2Proof.Machine.execFexp2 f s
  | .flog2 f => Sys2Proof.Machine.execFlog2 f s
  | .fsin f => Sys2Proof.Machine.execFsin f s
  | .fcos f => Sys2Proof.Machine.execFcos f s
  | .ftanh f => Sys2Proof.Machine.execFtanh f s
  | .vote f => Sys2Proof.Machine.execVote f s
  | .ballot f => Sys2Proof.Machine.execBallot f s
  | .elect f => Sys2Proof.Machine.execElect f s
  | .pwidth f => Sys2Proof.Machine.execPwidth f s
  | .matchOp f => Sys2Proof.Machine.execMatch f s
  | .shfl f => Sys2Proof.Machine.execShfl f s
  | .shfx f => Sys2Proof.Machine.execShfx f s
  | .shfup f => Sys2Proof.Machine.execShfup f s
  | .shfdn f => Sys2Proof.Machine.execShfdn f s
  | .bcast f => Sys2Proof.Machine.execBcast f s
  | .lred f => Sys2Proof.Machine.execLred f s
  | .scan f => Sys2Proof.Machine.execScan f s
  | .compact f => Sys2Proof.Machine.execCompact f s
  | .isect f => Sys2Proof.Machine.execIsect f s
  | .lds f => Sys2Proof.Machine.execLds f s
  | .sts f => Sys2Proof.Machine.execSts f s
  | .ldc f => Sys2Proof.Machine.execLdc f s
  | .stc f => Sys2Proof.Machine.execStc f s
  | .ldcComplete op => Sys2Proof.Machine.execLdcComplete op s
  | .scopy f => Sys2Proof.Machine.execScopy f s
  | .sfill f => Sys2Proof.Machine.execSfill f s
  | .scopyComplete op => Sys2Proof.Machine.execScopyComplete op s
  | .ld f => Sys2Proof.Machine.execLd f s
  | .st f => Sys2Proof.Machine.execSt f s
  | .gath f => Sys2Proof.Machine.execGath f s
  | .scat f => Sys2Proof.Machine.execScat f s
  | .loadReply op sel data => Sys2Proof.Machine.execLoadReply op sel data s
  | .pref f => Sys2Proof.Machine.execPref f s
  | .hflush f => Sys2Proof.Machine.execHflush f s
  | .hflushComplete op => Sys2Proof.Machine.execHflushComplete op s
  | .hget f => Sys2Proof.Machine.execHget f s
  | .hset f => Sys2Proof.Machine.execHset f s
  | .xlat f => Sys2Proof.Machine.execXlat f s
  | .xlatInv f => Sys2Proof.Machine.execXlatInv f s
  | .xlatAll f => Sys2Proof.Machine.execXlatAll f s
  | .pageWalk fn ctx va => Sys2Proof.Machine.execPageWalk fn ctx va s
  | .icinv f => Sys2Proof.Machine.execIcinv f s
  | .fence f => Sys2Proof.Machine.execFence f s
  | .sfence f => Sys2Proof.Machine.execSfence f s
  | .wdone f => Sys2Proof.Machine.execWdone f s
  | .twait f => Sys2Proof.Machine.execTwait f s
  | .twaitL f => Sys2Proof.Machine.execTwaitL f s
  | .tnow f => Sys2Proof.Machine.execTnow f s
  | .writeArrival op sel => Sys2Proof.Machine.execWriteArrival op sel s
  | .writeWReturn op => Sys2Proof.Machine.execWriteWReturn op s
  | .hostWrite fn addr data cxl ro => Sys2Proof.Machine.execHostWrite fn addr data cxl ro s
  | .hostRead fn addr len cxl win => Sys2Proof.Machine.execHostRead fn addr len cxl win s
  | .atom f => Sys2Proof.Machine.execAtom f s
  | .cas f => Sys2Proof.Machine.execCas f s
  | .atomicReply op data => Sys2Proof.Machine.execAtomicReply op data s
  | .ownershipGrant fn sector excl data => Sys2Proof.Machine.execOwnershipGrant fn sector excl data s
  | .sectorRelease fn sector => Sys2Proof.Machine.execSectorRelease fn sector s
  | .red f => Sys2Proof.Machine.execRed f s
  | .redflush f => Sys2Proof.Machine.execRedflush f s
  | .redPartialArrival op => Sys2Proof.Machine.execRedPartialArrival op s
  | .satom f => Sys2Proof.Machine.execSatom f s
  | .scas f => Sys2Proof.Machine.execScas f s
  | .bar f => Sys2Proof.Machine.execBar f s
  | .nbar f => Sys2Proof.Machine.execNbar f s
  | .barx f => Sys2Proof.Machine.execBarx f s
  | .barrierReleaseWave core ctx block bar => Sys2Proof.Machine.execBarrierReleaseWave core ctx block bar s
  | .barw f => Sys2Proof.Machine.execBarw f s
  | .objectUpdate op => Sys2Proof.Machine.execObjectUpdate op s
  | .cpy f => Sys2Proof.Machine.execCpy f s
  | .cpyg f => Sys2Proof.Machine.execCpyg f s
  | .cpys f => Sys2Proof.Machine.execCpys f s
  | .copyComplete op data => Sys2Proof.Machine.execCopyComplete op data s
  | .bclose f => Sys2Proof.Machine.execBclose f s
  | .bwait f => Sys2Proof.Machine.execBwait f s
  | .cbrun f => Sys2Proof.Machine.execCbrun f s
  | .chainBlock core ctx slot => Sys2Proof.Machine.execChainBlock core ctx slot s
  | .chainRetest core ctx slot => Sys2Proof.Machine.execChainRetest core ctx slot s
  | .cbsig f => Sys2Proof.Machine.execCbsig f s
  | .cbstat f => Sys2Proof.Machine.execCbstat f s
  | .mma f => Sys2Proof.Machine.execMma f s
  | .mmas f => Sys2Proof.Machine.execMmas f s
  | .mmab f => Sys2Proof.Machine.execMmab f s
  | .passGrant cluster => Sys2Proof.Machine.execPassGrant cluster s
  | .passComplete op => Sys2Proof.Machine.execPassComplete op s
  | .azero f => Sys2Proof.Machine.execAzero f s
  | .ascale f => Sys2Proof.Machine.execAscale f s
  | .arel f => Sys2Proof.Machine.execArel f s
  | .aload f => Sys2Proof.Machine.execAload f s
  | .astore f => Sys2Proof.Machine.execAstore f s
  | .atransferComplete op => Sys2Proof.Machine.execAtransferComplete op s
  | .aread f => Sys2Proof.Machine.execAread f s
  | .awrite f => Sys2Proof.Machine.execAwrite f s
  | .wmarkS f => Sys2Proof.Machine.execWmarkS f s
  | .wmark f => Sys2Proof.Machine.execWmark f s
  | .wquery f => Sys2Proof.Machine.execWquery f s
  | .wcfgRevert f => Sys2Proof.Machine.execWcfgRevert f s
  | .wcfgForce f => Sys2Proof.Machine.execWcfgForce f s
  | .wcfgDrop f => Sys2Proof.Machine.execWcfgDrop f s
  | .windowAdvanceRequest fn ctx => Sys2Proof.Machine.execWindowAdvanceRequest fn ctx s
  | .windowBoundary fn ctx => Sys2Proof.Machine.execWindowBoundary fn ctx s
  | .tailTimer fn ctx => Sys2Proof.Machine.execTailTimer fn ctx s
  | .trapS f => Sys2Proof.Machine.execTrapS f s
  | .trap f => Sys2Proof.Machine.execTrap f s
  | .tret f => Sys2Proof.Machine.execTret f s
  | .rsys f => Sys2Proof.Machine.execRsys f s
  | .wsys f => Sys2Proof.Machine.execWsys f s
  | .ctxctlWrite fn ctx v => Sys2Proof.Machine.execCtxctlWrite fn ctx v s
  | .htbaseWrite fn ctx v => Sys2Proof.Machine.execHtbaseWrite fn ctx v s
  | .ptrootWrite fn ctx v => Sys2Proof.Machine.execPtrootWrite fn ctx v s
  | .tlctlWrite fn ctx v => Sys2Proof.Machine.execTlctlWrite fn ctx v s
  | .acctagWrite core tile v => Sys2Proof.Machine.execAcctagWrite core tile v s
  | .splbaseWrite core ctx v => Sys2Proof.Machine.execSplbaseWrite core ctx v s
  | .cswapFlip f => Sys2Proof.Machine.execCswapFlip f s
  | .cswapOut f => Sys2Proof.Machine.execCswapOut f s
  | .cswapIn f => Sys2Proof.Machine.execCswapIn f s
  | .bankDrainDone core => Sys2Proof.Machine.execBankDrainDone core s
  | .unitExchange core unit => Sys2Proof.Machine.execUnitExchange core unit s
  | .heldOperationComplete op => Sys2Proof.Machine.execHeldOperationComplete op s
  | .ckill f => Sys2Proof.Machine.execCkill f s
  | .cstop f => Sys2Proof.Machine.execCstop f s
  | .cresume f => Sys2Proof.Machine.execCresume f s
  | .frameRetry core => Sys2Proof.Machine.execFrameRetry core s
  | .fsig f => Sys2Proof.Machine.execFsig f s
  | .fwait f => Sys2Proof.Machine.execFwait f s
  | .fmcrDrain f => Sys2Proof.Machine.execFmcrDrain f s
  | .fmcrDark f => Sys2Proof.Machine.execFmcrDark f s
  | .fmcrRelock f => Sys2Proof.Machine.execFmcrRelock f s
  | .fmcrRoute f => Sys2Proof.Machine.execFmcrRoute f s
  | .fmcrGroup f => Sys2Proof.Machine.execFmcrGroup f s
  | .fmcrQuery f => Sys2Proof.Machine.execFmcrQuery f s
  | .trc f => Sys2Proof.Machine.execTrc f s
  | .cnt f => Sys2Proof.Machine.execCnt f s
  | .cntSnap f => Sys2Proof.Machine.execCntSnap f s
  | .cntSaved f => Sys2Proof.Machine.execCntSaved f s
  | .launchTake fn q => Sys2Proof.Machine.execLaunchTake fn q s
  | .launchEligible launch => Sys2Proof.Machine.execLaunchEligible launch s
  | .bindRecord core bank idx words launch => Sys2Proof.Machine.execBindRecord core bank idx words launch s
  | .blockStart core bank idx => Sys2Proof.Machine.execBlockStart core bank idx s
  | .blockEnd core bank idx => Sys2Proof.Machine.execBlockEnd core bank idx s
  | .launchComplete launch => Sys2Proof.Machine.execLaunchComplete launch s
  | .queueSwitchOut fn q => Sys2Proof.Machine.execQueueSwitchOut fn q s
  | .queueSwitchIn fn q => Sys2Proof.Machine.execQueueSwitchIn fn q s
  | .qtailWrite fn q v => Sys2Proof.Machine.execQtailWrite fn q v s
  | .qcfgWrite fn q v => Sys2Proof.Machine.execQcfgWrite fn q v s
  | .registerWrite fn off size v => Sys2Proof.Machine.execRegisterWrite fn off size v s
  | .colourFail src dst colour => Sys2Proof.Machine.execColourFail src dst colour s
  | .hostLinkDown => Sys2Proof.Machine.execHostLinkDown s
  | .fabidWrite fn v => Sys2Proof.Machine.execFabidWrite fn v s
  | .hostSnoop fn sector => Sys2Proof.Machine.execHostSnoop fn sector s
  | .poolExtentRelease fn ext => Sys2Proof.Machine.execPoolExtentRelease fn ext s
  | .poolExtentGrant fn ext v0 v1 => Sys2Proof.Machine.execPoolExtentGrant fn ext v0 v1 s
  | .poolPublication fn ext op v => Sys2Proof.Machine.execPoolPublication fn ext op v s
  | .peerRequest fn r => Sys2Proof.Machine.execPeerRequest fn r s
  | .fabricRequestTimeout op => Sys2Proof.Machine.execFabricRequestTimeout op s
  | .fibreLockLoss fn group => Sys2Proof.Machine.execFibreLockLoss fn group s
  | .markerReturn fn group => Sys2Proof.Machine.execMarkerReturn fn group s
  | .mcrDelivery fn group off data => Sys2Proof.Machine.execMcrDelivery fn group off data s
  | .memberLost fn group => Sys2Proof.Machine.execMemberLost fn group s
  | .triggerReceived fn dev origin => Sys2Proof.Machine.execTriggerReceived fn dev origin s
  | .ceilingInterval power => Sys2Proof.Machine.execCeilingInterval power s
  | .pstateTransitionDone cluster => Sys2Proof.Machine.execPstateTransitionDone cluster s
  | .thermalCap cluster temp => Sys2Proof.Machine.execThermalCap cluster temp s
  | .overCurrent quad => Sys2Proof.Machine.execOverCurrent quad s
  | .blockRelaunch launch => Sys2Proof.Machine.execBlockRelaunch launch s
  | .thermalCut reason chiplet quad => Sys2Proof.Machine.execThermalCut reason chiplet quad s
  | .pwceilWrite fn v => Sys2Proof.Machine.execPwceilWrite fn v s
  | .clpstWrite fn cluster v => Sys2Proof.Machine.execClpstWrite fn cluster v s
  | .parkctlWrite fn v => Sys2Proof.Machine.execParkctlWrite fn v s
  | .diePark die => Sys2Proof.Machine.execDiePark die s
  | .dieUnpark die => Sys2Proof.Machine.execDieUnpark die s
  | .counterTake fn core => Sys2Proof.Machine.execCounterTake fn core s
  | .traceDrain fn cluster => Sys2Proof.Machine.execTraceDrain fn cluster s
  | .trcfgWrite fn v => Sys2Proof.Machine.execTrcfgWrite fn v s
  | .dbgholdHold fn v => Sys2Proof.Machine.execDbgholdHold fn v s
  | .dbgholdRelease fn v => Sys2Proof.Machine.execDbgholdRelease fn v s
  | .ptcmdQuiesce fn => Sys2Proof.Machine.execPtcmdQuiesce fn s
  | .quiesceComplete fn => Sys2Proof.Machine.execQuiesceComplete fn s
  | .phobosBankEmpty core bank => Sys2Proof.Machine.execPhobosBankEmpty core bank s
  | .ptcmdRelease fn => Sys2Proof.Machine.execPtcmdRelease fn s
  | .ptcmdReshape fn => Sys2Proof.Machine.execPtcmdReshape fn s
  | .reshapeComplete => Sys2Proof.Machine.execReshapeComplete s
  | .correctableError cls inst => Sys2Proof.Machine.execCorrectableError cls inst s
  | .uncorrectableError cls inst => Sys2Proof.Machine.execUncorrectableError cls inst s
  | .resync fn v => Sys2Proof.Machine.execResync fn v s
  | .attest fn v nonce => Sys2Proof.Machine.execAttest fn v nonce s
  | .powerOnReset b => Sys2Proof.Machine.execPowerOnReset b s
  | .twaitExpiry q => Sys2Proof.Machine.execTwaitExpiry q s
  | .fenceRetire q => Sys2Proof.Machine.execFenceRetire q s
  | .hostLinkActive => Sys2Proof.Machine.execHostLinkActive s
  | .backInvalidateResponse fn line data => Sys2Proof.Machine.execBackInvalidateResponse fn line data s
  | .fibreGroupLocked fn group => Sys2Proof.Machine.execFibreGroupLocked fn group s
  | .fmcrTimeout op => Sys2Proof.Machine.execFmcrTimeout op s

end Sys2Proof.Machine
end

