-- ==== Sys2Proof/Machine/Issue.lean ====
section
/-! DEFINITION. How a path comes to issue: fetch, breakpoints, decoding, the choice of a scheduler, and what the passing of time
brings (02_formats R37, R38, R47-R52; 05_paths R95-R97; 21_observe R407). -/

namespace Sys2Proof.Machine

open Sys2Proof

/-! ## Fetch -/

/-- What a fetch gives: the failing address if some byte cannot be fetched, the length of the extent and its bits. -/
structure Fetched where
  bad : Option Nat := none
  len : Nat := 4
  insn : BitVec 128 := 0
  deriving DecidableEq, Repr

/-- The values that a word has held, with the number of the landed write that gave it each, the newest first (R49). -/
def versions (now : BitVec 32) : List WordVer → List (Nat × BitVec 32)
  | [] => [(0, now)]
  | x :: t => (x.seq, now) :: versions x.old t
/-- The newest write of a word that R48 lets no fetch of a clause miss which was begun when n icinvs had retired on the core: it had landed
when the last of these retired, and a fence of its gang had covered it, or it was made by an engine or the host. [DEDUCED, unsafe: log 10] -/
def syncedWrite (syncs : List Sync) (n : Nat) (ws : List WordVer) : Nat :=
  match syncs.drop (syncs.length - n) with
  | [] => 0
  | x :: _ => (ws.filter fun w => decide (w.seq ≤ x.landed) && (w.id == 0 || decide (w.id < x.fenced.val 0 w.gk))).foldl (fun m w => Nat.max m w.seq) 0

/-- Fetches the aligned word at an address of a context, for a clause begun when n icinvs had retired on the core (R47-R49; 12_handles R240):
from a page of device memory that permits execution. It is one of the values the word has held since the newest write that R48 lets no fetch
miss, and since the one that the core fetched last: an open choice. -/
def fetchWord (m : Tab Memory) (part core ctx n va : Nat) (hw : Hw) : Option (BitVec 32) × Hw :=
  match translate hw m part ctx va with
  | (.error _, h) => (none, h)
  | (.ok t, h) =>
    if t.kind ≠ 0 ∨ !t.x then (none, h)
    else
      let now := BitVec.ofNat 32 (rdNat m part t.pa 4)
      let ws := (h.part part).hist.val [] (t.pa / 4)
      let low := Nat.max (syncedWrite (h.core core).syncs n ws) ((h.core core).seen.val 0 (t.pa / 4))
      match versions now ws with
      | [] => (some now, h)
      | v :: vs =>
        let older := if v.1 ≤ low then [] else (vs.filter fun x => decide (low < x.1)) ++ ((vs.find? fun x => decide (x.1 ≤ low)).map fun x => [x]).getD []
        if older.isEmpty then (some v.2, if v.1 = 0 then h else h.setCore core fun c => { c with seen := c.seen.ins (t.pa / 4) v.1 })
        else
          let d := h.draw
          let x := (v :: older).getD (d.1 % (older.length + 1)) v
          (some x.2, d.2.setCore core fun c => { c with seen := c.seen.ins (t.pa / 4) x.1 })

/-- Fetches k further words: the failing address, and the words. -/
def fetchMore (m : Tab Memory) (part core ctx n : Nat) : Nat → Nat → Hw → (Option Nat × List Nat) × Hw
  | 0, _, hw => ((none, []), hw)
  | k + 1, va, hw =>
    match fetchWord m part core ctx n va hw with
    | (none, h) => ((some va, []), h)
    | (some w, h) =>
      let r := fetchMore m part core ctx n k (va + 4) h
      ((r.1.1, w.toNat :: r.1.2), r.2)

/-- Fetches the instruction at an address (R47). Where its first word cannot be fetched, its extent counts as 16 bytes. [DEDUCED, unsafe: log 11] -/
def fetchInsn (m : Tab Memory) (part core ctx n va : Nat) (hw : Hw) : Fetched × Hw :=
  match fetchWord m part core ctx n va hw with
  | (none, h) => ({ bad := some va, len := 16 }, h)
  | (some w, h) =>
    let r := fetchMore m part core ctx n (w.toNat % 4) (va + 4) h
    ({ bad := r.1.1, len := 4 * (w.toNat % 4 + 1), insn := BitVec.ofNat 128 (packElems 32 (w.toNat :: r.1.2)) }, r.2)

/-- The address of the first byte of an extent that lies in a second line of 64 bytes, or its first byte (R47). -/
def straddleOf (pc len : Nat) : Nat := let e := pc - pc % 64 + 64; if e < pc + len then e else pc

/-! ## Breakpoints -/

/-- The lowest-numbered breakpoint that matches (21_observe R407): its number, action and hit lanes. -/
def breakHit (q : Part) (ctx pc : Nat) (act : Lanes) : Option (Nat × Nat × Lanes) :=
  (List.range 16).findSome? fun n =>
    let w0 := q.bps.val 0 (2 * n)
    let w1 := q.bps.val 0 (2 * n + 1)
    let hit := act &&& lanesOf (bits 31 0 w1)
    if bit 63 w0 && bits 56 0 w0 == pc && bits 63 48 w1 == ctx && hit != 0 then some (n, bits 62 60 w0, hit) else none

/-! ## Issue -/

/-- How many icinvs had retired on the core when the issuing path began the clause it fetches from, or is about to begin (R48). -/
def Env.synced (e : Env) : Nat := if e.q.cl.inside then e.q.cl.sync else (e.hw.core e.core).syncs.length
/-- What the issuing path fetches at its PC. -/
def Env.fetch (e : Env) (m : Tab Memory) (hw : Hw) : Fetched × Hw := fetchInsn m e.part e.core e.ctx e.synced e.q.pc.toNat hw
/-- Whether a path that is ready waits for nothing else: at a form of its tiles it does (16_matrix R306). -/
def Wait.lets : Wait → Bool
  | .none | .go _ | .release .. => true
  | _ => false
/-- Whether the issuing path may do anything now (R38, R92, R95; 14_atomics R282; 18_contexts R350, R351, R356). -/
def Env.mayIssue (e : Env) : Bool :=
  decide (e.q.state = .ready) && e.q.wait.lets && (!e.q.cl.inside || decide (e.q.stallTo ≤ coreCycles e.hw e.core e.now)) &&
    runsOn e.hw e.core e.ctx && (e.hw.core e.core).flipAt.isNone && ctxRuns e.hw e.part e.ctx

/-- The cause of an encoding that meets a row of cause 0x02: 0x01 where it stands where no instruction may (R52). -/
def reservedCause (e : Env) (w : BitVec 128) (fsel : Nat) : Nat :=
  if (w.extractLsb' 2 7).toNat = 0 then (if e.q.cl.inside then 0x01 else 0x02)
  else if e.badPlace (extentOf w) (endsClause w) fsel then 0x01 else 0x02

/-- Whether what an instruction does beside its register writes is not logged (18_contexts R358; 19_links R383). -/
def unlogged : Instr → Bool
  | .wsys _ | .fmcrDrain _ | .fmcrDark _ | .fmcrRelock _ | .fmcrRoute _ | .fmcrGroup _ | .fmcrQuery _ => true
  | _ => false
/-- Runs an instruction of a path; what it changes goes into the path's step log, if one is open (17_tail R335). -/
def runLogged (s : State) (e : Env) (i : Instr) : Out :=
  match exec i s with
  | .next t => .next (if unlogged i then t else t.with (noteStep e.part e.gk e.p s.hw t.hw))
  | o => o
/-- Runs the instruction in the cursor (R51, R52). -/
def runFetched (s : State) (e : Env) : Out :=
  match decode s.cur.insn with
  | .ok i => runLogged s e i
  | .illegal => .next (s.with (e.trap { cause := 0x01, hit := e.act }))
  | .reserved fsel => .next (s.with (e.trap { cause := reservedCause e s.cur.insn fsel, hit := e.act }))

/-- The path reaches the instruction it has fetched: a breakpoint acts, or it runs (21_observe R407). [DEDUCED, safe: log 12] -/
def reach (s : State) (e : Env) : Out :=
  match (if e.q.skipBp then none else breakHit (e.hw.part e.part) e.ctx e.q.pc.toNat e.act) with
  | none => runFetched s e
  | some (n, act, hit) =>
    match act with
    | 1 => .next (s.with (e.setPath e.hw fun q => { q with state := .held, skipBp := true }))
    | 2 =>
      let t := s.with (e.setPath (e.traceRec e.hw 4 hit.toNat n 0) fun q => { q with skipBp := true })
      match env t with
      | some e' => runFetched t e'
      | none => .next t
    | _ => .next (s.with (e.trap { cause := 0x0D, info := n, hit := hit }))

/-- The state with a path and what it fetched in the cursor. -/
def State.aim (s : State) (q : PathRef) (f : Fetched) : State := { s with cur := ⟨q, f.len, f.insn⟩ }

/-- A path's turn: it fetches what stands at its PC and issues it, if it may (R38, R47, R95; 17_tail R334). -/
def issuePath (q : PathRef) (s : State) : Out :=
  match envAt s q with
  | none => .next s
  | some e =>
    if !e.mayIssue then .next s
    else
      let g := stepGate s e
      if !g.1 then .next (s.with g.2)
      else
        let f := e.fetch s.mem g.2
        let t := (s.with f.2).aim q f.1
        match env t with
        | none => .next t
        | some e' =>
          match f.1.bad with
          | some a => .next (t.with (e'.trap { cause := 0x04, fault := a, hit := e'.act, straddle := some (straddleOf e'.q.pc.toNat f.1.len) }))
          | none => reach t e'

/-- The state an outcome leaves, or the one before. -/
def after (s : State) : Out → State
  | .next t => t
  | _ => s

/-! ## A scheduler's opportunity -/

/-- What of a path shows that it has issued. -/
structure PathMark where
  pc : Word
  cl : Clause
  state : PState
  wait : Wait
  mask : Lanes
  fold : Tab FoldLane
  deriving DecidableEq
/-- The mark of a path, if it is there. -/
def markOf (s : State) (q : PathRef) : Option PathMark :=
  (s.hw.gangs.look (gangKey q.core q.ctx q.slot)).bind fun g => (g.paths.look q.path).map fun x => ⟨x.pc, x.cl, x.state, x.wait, x.mask, g.foldArr⟩

/-- Whether a path waits for the operands of its next instruction (12_handles R230). -/
def awaits (s : State) (q : PathRef) : Bool := (markOf s q).any fun x => decide (x.wait = .operands)
/-- Whether a path can issue now (R95): its turn moves it, parks it at its form, stops it or ends it. -/
def canIssue (s : State) (q : PathRef) : Bool :=
  let t := after s (issuePath q s)
  !awaits t q && decide (markOf t q ≠ markOf s q)
/-- The paths that wait for operands park (12_handles R230). -/
def parkAwaiting (s : State) (qs : List PathRef) : State :=
  qs.foldl (fun s q => let t := after s (issuePath q s); if awaits t q then t else s) s
/-- Paths whose operands have come are ready again (12_handles R230). -/
def wakeOperands (s : State) : State :=
  let qs := s.hw.gangs.flatMap fun g => g.2.paths.filterMap fun q =>
    if q.2.wait = .operands then some (⟨gkCore g.1, gkCtx g.1, gkSlot g.1, q.1⟩ : PathRef) else none
  qs.foldl (fun s q => match envAt s q with
    | some e =>
      if runsOn s.hw e.core e.ctx && (match e.q.form with | some r => e.ready r | none => true) then
        s.with (s.hw.setGang e.gk fun g => refold { g with paths := g.paths.upd e.p fun q => { q with
          state := .ready, wait := .none, form := none, moving := 0, age := 0 } } e.p)
      else s
    | none => s) s

/-- Puts a path behind those at least as old. -/
def insertOld (x : Nat × PathRef) : List (Nat × PathRef) → List (Nat × PathRef)
  | [] => [x]
  | y :: t => if y.1 < x.1 then x :: y :: t else y :: insertOld x t

/-- The ready paths of a scheduler in a context for which sel holds, the oldest first, then by gang slot and path index (R95). -/
def byAge (hw : Hw) (core ctx sched : Nat) (sel : Path → Bool) : List PathRef :=
  let all := ((gangsOn hw core ctx).filter fun g => slotSched (gkSlot g.1) == sched).flatMap fun g =>
    g.2.paths.filterMap fun q => if q.2.state = .ready ∧ sel q.2 then some (q.2.age, (⟨core, ctx, gkSlot g.1, q.1⟩ : PathRef)) else none
  ((all.foldl (fun l x => insertOld x l) []).map (·.2))

/-- Every path of a scheduler is one opportunity older (R95); a path that becomes ready is of age 0, but by a merge (R111). -/
def older (hw : Hw) (core ctx sched : Nat) : Hw :=
  { hw with gangs := hw.gangs.map fun g => if g.1 / 64 = imgKey core ctx ∧ slotSched (gkSlot g.1) = sched then
    (g.1, { g.2 with paths := g.2.paths.map fun q => (q.1, { q.2 with age := q.2.age + 1 }) }) else g }

/-- The slice set of a path, by its MASK (R96). -/
def slicesOf (s : State) (q : PathRef) : Nat :=
  match (s.hw.gangs.look (gangKey q.core q.ctx q.slot)).bind fun g => g.paths.look q.path with | some x => sliceSet x.mask | none => 0

/-- The paths that issue with the first: up to three more of its gang, oldest first, of slice sets disjoint from those chosen
(R96). -/
def companions (s : State) (q : PathRef) (cands : List PathRef) : List PathRef :=
  (cands.filter fun x => x.slot == q.slot && x.path != q.path).foldl (fun l x =>
    if l.length < 4 ∧ l.all (fun (y : PathRef) => slicesOf s y &&& slicesOf s x == 0) ∧ canIssue s x then l ++ [x] else l) [q]

/-- The paths of a set in ascending path index (R96). -/
def inIndexOrder (qs : List PathRef) : List PathRef := (List.range 16).flatMap fun i => qs.filter fun q => q.path == i

/-- Whether a form needs a waiting-table entry (12_handles R231). -/
def usesTable : Instr → Bool
  | .ld _ | .gath _ | .xlat _ | .xlatInv _ | .xlatAll _ | .glaunch _ | .gwait _ => true
  | _ => false

/-- Whether a path is held by a full waiting table alone (Table HD-2). -/
def heldByTable (s : State) (q : PathRef) : Bool :=
  match envAt s q with
  | none => false
  | some e =>
    if !e.mayIssue || !e.q.cl.inside || !e.tableFull then false
    else match decode (e.fetch s.mem e.hw).1.insn with
      | .ok i => usesTable i && (match view i with
        | .w fm f => e.ready (regsF fm f) && !e.flagsFull f.fsel.toNat
        | _ => false)
      | _ => false

/-- Asks for the windows that single-stepped paths of a scheduler wait for (17_tail R334). -/
def askSteps (s : State) (qs : List PathRef) : State :=
  qs.foldl (fun s q => match envAt s q with
    | some e => if e.mayIssue then (let g := stepGate s e; if g.1 then s else s.with g.2) else s
    | none => s) s

/-- The instructions of one opportunity, as if one after another (R96). -/
def issueAll (s : State) (core sched : Nat) (qs : List PathRef) : State :=
  let t := (inIndexOrder qs).foldl (fun s q => after s (issuePath q s)) s
  t.with ((List.range qs.length).foldl (fun h i => noteIssue h core sched (i == 0)) t.hw)

/-- Whether a path is there and stands at a header. -/
def atHeader (s : State) (q : PathRef) : Bool := (markOf s q).any fun x => !x.cl.inside
/-- An issue opportunity of a scheduler for the context its core runs (R38, R95, R96): paths at a header begin their clause if they
may, then the oldest path that can issue does, with its companions. [DEDUCED, safe: log 15] -/
def opportunity (s : State) (core ctx sched : Nat) : State :=
  let s1 := s.with (older s.hw core ctx sched)
  let s2 := (byAge s1.hw core ctx sched fun q => !q.cl.inside).foldl (fun s q => if atHeader s q then after s (issuePath q s) else s) s1
  let s2' := parkAwaiting s2 (byAge s2.hw core ctx sched fun q => q.cl.inside)
  let cands := byAge s2'.hw core ctx sched fun q => q.cl.inside
  let s3 := askSteps s2' cands
  let s4 := if cands.any (heldByTable s3) then s3.with (s3.hw.setCore core fun k => { k with wtStalls := (k.wtStalls + 1) % 2 ^ 32 }) else s3
  match cands.find? (canIssue s4) with
  | none => s4
  | some q => issueAll s4 core sched (companions s4 q cands)

/-- Whether a form needs an entry of the reservation table (16_matrix R303). -/
def reserves : Instr → Bool
  | .mma _ | .mmas _ | .mmab _ | .aload _ | .astore _ => true
  | _ => false
/-- Whether an operation is a pass, or of aload or astore (Table OB-1). -/
def OpKind.isMatrix : OpKind → Bool
  | .pass _ | .atrans _ => true
  | _ => false
/-- Whether a header waits for flags of which every outstanding operation is of the matrix engine (Table OB-1). -/
def matrixFlags (e : Env) (h : Header) : Bool :=
  let os := e.hw.ops.filter fun o => o.gk == e.gk && (bitList 12 h.wait.toNat).any o.flags.contains
  !os.isEmpty && os.all fun o => o.kind.isMatrix
/-- The leaf of the slots that a scheduler's oldest ready path does not use (Table OB-1, rows 4 to 6): a path that could issue waits for
instruction bytes, or for what the model gives no time, an open choice. -/
def readyLeaf (s : State) (q : PathRef) : Nat × Hw :=
  match envAt s q with
  | none => (4, s.hw)
  | some e =>
    if e.q.cl.inside && decide (coreCycles e.hw e.core e.now < e.q.stallTo) then (2, s.hw)
    else if e.q.wait.inOrder then (5, s.hw)
    else if canIssue s q then
      let d := s.hw.draw
      (if d.1 % 2 = 0 then 2 else 4, d.2)
    else match decode (e.fetch s.mem e.hw).1.insn with
    | .ok (.beginClause h) => (if matrixFlags e h then 5 else 4, s.hw)
    | .ok i => (if reserves i && reservesFull e.hw e.core then 5 else 4, s.hw)
    | _ => (4, s.hw)
/-- Whether a wait is one of those of row 8 of Table OB-1. -/
def Wait.barrier : Wait → Bool
  | .gwait .. | .woken .. | .twait .. | .fwait .. | .barw .. | .released _ => true
  | _ => false
/-- The leaf of a scheduler's slots in which nothing issues, its clock apart (Table OB-1): idle, then by its oldest ready path, then
by what its paths wait for. -/
def waitLeaf (s : State) (core sched : Nat) : Nat × Hw :=
  match bankCtx s.hw core (s.hw.core core).act with
  | none => (8, s.hw)
  | some c =>
    let gs := (gangsOn s.hw core c).filter fun g => slotSched (gkSlot g.1) == sched
    let qs := gs.flatMap fun g => g.2.paths.vals
    if gs.isEmpty || ctxStopped s.hw ((corePart s.hw core).getD 0) c then (8, s.hw)
    else match byAge s.hw core c sched fun _ => true with
    | q :: _ => readyLeaf s q
    | [] =>
      let bar (q : Path) : Bool := q.state == .barrier || q.wait.barrier
      (if qs.any fun q => q.state == .parked && !bar q then 4 else if qs.any bar then 6 else 3, s.hw)

/-- Whether a core's schedulers have issue opportunities now: its cluster runs and its clock is not held (R95; 20_power R385,
R388). -/
def coreClocked (s : State) (core : Nat) : Bool :=
  let c := s.hw.cluster (coreCluster core)
  coreUp s.hw core && c.goal.isNone && decide (c.holdTo ≤ s.time)

/-- A cycle of a scheduler. -/
def slotTurn (core sched : Nat) (s : State) : State :=
  if !coreClocked s core then s
  else match bankCtx s.hw core (s.hw.core core).act with
  | some c => opportunity s core c sched
  | none => s

/-! ## Turns -/

/-- Copy commands queued in the turn before were so at time t. -/
def stampCopies (hw : Hw) (t : Nat) : Hw :=
  { hw with ops := hw.ops.map fun o => match o.kind with
      | .copy c => if c.since.isNone then { o with kind := .copy { c with since := some t } } else o
      | _ => o }
/-- Messages that were held go out: vectors behind their STATUS words, and triggers (19_links R363, R374; 21_observe R405). -/
def sendHeld (hw : Hw) : Hw :=
  (hw.parts.map (·.1)).foldl (fun h p => sendTriggers (signalVectors p (h.part p).vectors.length h) p) hw
/-- What the passing of dt ns brings about (06_registers R126; 13_consistency R249; 18_contexts R351, R356; 19_links R378; 21_observe R398;
22_partitions R413). -/
def passTime (s : State) (dt : Nat) : State :=
  let s0 := s.with (stampCopies s.hw s.time)
  let h := endTransitions s0.hw (s0.time + dt)
  let ran (core : Nat) : Nat := coreCycles h core (s0.time + dt) - coreCycles s0.hw core s0.time
  let s1 := s0.with (if dt = 0 then h else countSlots (fun h core sched => waitLeaf (s0.with h) core sched) h ran)
  let s2 := settle s1 dt
  let s3 := tick (s2.with (sendHeld (countDeliveries (cacheWriteBack s2.hw s2.time))))
  s3.with (retireDoomed s3.hw s3.time)

/-- The contexts that single-step, or whose stepped instruction still owes its record. -/
def stepping (hw : Hw) : List (Nat × Nat) :=
  hw.parts.flatMap fun p => p.2.contexts.filterMap fun c =>
    if c.2.tail.en && (c.2.tail.step || c.2.tail.stepLog.isSome) then some (p.1, c.1) else none
/-- What single-stepping makes of a turn from s to t (17_tail R334, R335). -/
def noteSteps (s t : State) : State :=
  (stepping t.hw).foldl (fun u x => stepRetire (u.with (stepAfter x.1 x.2 s.hw u.hw)) x.1 x.2) t

/-- One turn, once its time has passed. A path named by the agenda issues by itself; one named by the open order of turns has its
scheduler's opportunity. An event is never a form, which only a path issues; a swap command comes from Phobos firmware (18_contexts R355). [DESIGN CHOICE, unsafe: log 3] [DESIGN CHOICE, safe: log 65] -/
def runTurn (listed : Bool) (w : What) (s : State) : Out :=
  match w with
  | .slot core sched => .next (slotTurn core sched s)
  | .issue q => if listed then issuePath q s else .next (slotTurn q.core (slotSched q.slot) s)
  | .event i => match view i with
    | .event => exec i s
    | _ => .next s
  | .phobos op core ctx => .next (phobosSwap op core ctx s)

/-- The turn that comes next, whether the agenda listed it, and the state without it. -/
def takeTurn (s : State) : Bool × Turn × State :=
  match s.agenda with
  | t :: r => (true, t, { s with agenda := r })
  | [] => (false, Config.nextTurn s.turns, { s with turns := s.turns + 1 })

/-- Whether a turn brings supply back (22_partitions R419). -/
def isPowerOn : What → Bool
  | .event (.powerOnReset _) => true
  | _ => false

/-- What stands after every turn: blocks start and dies park that can, quiesced partitions read so (20_power R393; 22_partitions R410), holds fall, operands that have come let their paths go on (04_launch R82; 21_observe
R408; 12_handles R230), and single-stepping takes note (17_tail R334). -/
def settleTurn (s : State) : Out → Out
  | .next t =>
    let t1 := quiesceDue (parkDue (startDue (t.with (retireDoomed t.hw t.time))))
    let t2 := wakeOperands (t1.with (takeHolds t1.hw))
    .next (noteSteps s t2)
  | o => o

/-- The machine moves on by one turn: time passes, then something moves. Without supply only power-on reset does (20_power
R396). -/
def advance (s : State) : Out :=
  let x := takeTurn s
  let t := x.2.1
  if !x.2.2.hw.pkg.powered && !isPowerOn t.what then .next x.2.2
  else
    let s1 := passTime x.2.2 t.dt
    settleTurn s1 (runTurn x.1 t.what s1)

end Sys2Proof.Machine
end

