-- ==== Sys2Proof/Machine/Place.lean ====
section
/-! DEFINITION. A machine that is about to fetch one given instruction: what a launch and bring-up would have set up for it
(assumption log 5). -/

namespace Sys2Proof.Machine

open Sys2Proof

/-- The context, the address of the instruction, and the addresses of the tables that map it. -/
def placeCtx : Nat := 1
/-- Where the instruction stands. -/
def placePc : Nat := 0x400108
/-- The root table; the table of level 2 follows at twice its address. -/
def placeRoot : Nat := 0x20000
/-- The path that issues it: core 0, gang slot 0, entry 0. -/
def placeRef : PathRef := ⟨0, placeCtx, 0, 0⟩

/-- Bytes of memory stored over what stood there. -/
def placeBytes (m : Memory) (bs : List Byte) : Memory :=
  let m1 := storeBytes m placeRoot (toBytes 8 (2 ^ 63 + 2 * placeRoot))
  let m2 := storeBytes m1 (2 * placeRoot) (toBytes 8 (2 ^ 63 + 2 ^ 62 + 2 ^ 58 + 2 ^ 57 + 2 ^ 56 + 2 ^ 55))
  storeBytes m2 placePc bs

/-- The path: at a clause header, or at the last instruction of a clause. -/
def placePath (w : BitVec 128) : Path :=
  { pc := word placePc, mask := BitVec.allOnes 32,
    cl := if (w.extractLsb' 2 7).toNat = 0 then {} else { inside := true, fin := word (placePc + extentOf w), seta := 0, setb := 1 } }

/-- The machine around the instruction. -/
def placeHw (hw : Hw) (w : BitVec 128) : Hw :=
  let g : Gang := { part := 0, ctx := placeCtx, paths := [(0, placePath w)] }
  let h : Hw := { hw with
    pkg := { hw.pkg with powered := true, up := true, map := [0, 0, 0] }
    gangs := hw.gangs.ins (gangKey 0 placeCtx 0) g
    ops := [] }
  let h1 := h.setPart 0 fun q => { q with
    present := true, bps := [], pend := [], hist := [], tcache := []
    contexts := q.contexts.ins placeCtx { ptroot := placeRoot } }
  let h2 := h1.setCore 0 fun k => { k with ctx0 := some placeCtx, st0 := .loaded, act := 0, flipAt := none, syncs := [], seen := [] }
  h2.setImage 0 placeCtx fun i => { i with place := .bank 0 }

/-- The state in which the next step fetches and runs the instruction whose bits are w, those from nbits on 0. -/
def placeWord (s : State) (nbits w : Nat) : State :=
  let bs := tableBytes nbits w
  { s with
    mem := s.mem.ins 0 (placeBytes (memOf s.mem 0) bs)
    hw := placeHw s.hw (BitVec.ofNat 128 (ofBytes bs))
    agenda := ⟨0, .issue placeRef⟩ :: s.agenda }

end Sys2Proof.Machine
end

