-- ==== Sys2Proof/Machine/Step.lean ====
section
/-! DEFINITION. The step of the machine, and the placing of one instruction for the next step (assumption log 2, 5). -/

namespace Sys2Proof.Machine

open Sys2Proof

/-- One step: the next turn of the machine. -/
def step (s : State) : Host.Outcome State Fault Refusal := advance s

/-- s with the instruction whose bits are w placed at the PC of one ready path, in partition 0, and that path's turn next. [DESIGN CHOICE, safe: log 5] -/
def State.withFetchWord (s : State) (nbits w : Nat) : State := placeWord s nbits w

end Sys2Proof.Machine
end

