-- ==== Sys2Proof/Safety.lean ====
section
/-! DEFINITION. The terms in which statements about the machine are made: the canonical form of memory, when a form issues, and
what a retired instruction has written and left alone. -/

namespace Sys2Proof.Machine

open Sys2Proof

/-! ## The invariant -/

/-- The canonical form of one partition's memory: addresses rise strictly, and no byte that reads as an unlisted one is listed. -/
abbrev Memory.wf (m : Memory) : Bool := Tab.wfD 0 m
/-- The canonical form of memory: every partition listed once, in order, with bytes listed canonically. -/
def memWf (m : Tab Memory) : Bool := Tab.wfD [] m && m.all fun e => Memory.wf e.2
/-- What every step keeps: memory has one form, so that equal memories are equal data. -/
def State.Inv (s : State) : Prop := memWf s.mem = true

/-! ## Issue -/

/-- The path in the cursor can issue a W, L or X form (R39, R43, R44, R52, R94, R95): it is in its clause, in the mode the form
needs, with a lane active, its operands free of pending writes and room in the flags. -/
structure Issues (fm : Form) (f : Fields) (s : State) (e : Env) : Prop where
  here : env s = some e
  place : e.badPlace f.len false f.fsel.toNat = false
  mode : fm.sup = true → e.sup = true
  ready : e.ready (regsF fm f) = true
  active : e.act ≠ 0
  room : e.flagsFull f.fsel.toNat = false

/-- The path in the cursor can issue an S form. -/
structure IssuesS (fm : SForm) (f : SFields) (s : State) (e : Env) : Prop where
  here : env s = some e
  place : e.badPlace 4 false 0 = false
  ready : e.ready (regsS fm f) = true
  active : e.act ≠ 0

/-- The path in the cursor can issue a control-flow form, which ends its clause and acts with or without active lanes (R94, R100). -/
structure IssuesC (fm : Form) (f : Fields) (s : State) (e : Env) : Prop where
  here : env s = some e
  place : e.badPlace f.len true f.fsel.toNat = false
  ready : e.ready (regsF fm f) = true

/-! ## What an instruction wrote -/

/-- The value a list of writes leaves at a key: that of the last one. -/
def lastWrite {α : Type} (l : List (Nat × α)) (k : Nat) : Option α := (l.reverse.find? fun x => x.1 == k).map (·.2)
/-- An operation without its destination. -/
def Op.bare (o : Op) : Op := { o with dst := .none }

/-- A context without the log of a single-stepped instruction under way (17_tail R334). -/
def Context.unlogged (c : Context) : Context := { c with tail := { c.tail with stepLog := none } }
/-- Partition q' is partition q but for the logs of single-stepped instructions under way. -/
structure SamePart (q q' : Part) : Prop where
  rest : ∃ t, q' = { q with contexts := t }
  ctx : ∀ c, (q'.contexts.look c).map Context.unlogged = (q.contexts.look c).map Context.unlogged

/-- Machine b is machine a but for one gang, the operations in flight, the spilled registers, the logs of single-stepped instructions and the
counters of names and open choices. -/
structure OnlyGang (gk : Nat) (a b : Hw) : Prop where
  pkg : b.pkg = a.pkg
  parts : ∀ p, SamePart (a.part p) (b.part p)
  cores : b.cores = a.cores
  clusters : b.clusters = a.clusters
  blocks : b.blocks = a.blocks
  launches : b.launches = a.launches
  sent : b.sent = a.sent
  others : ∀ k, k ≠ gk → b.gangs.look k = a.gangs.look k

/-- Machines that differ at most in the logs of single-stepped instructions. -/
structure SameButLogs (a b : Hw) : Prop where
  rest : b = { a with parts := b.parts }
  parts : ∀ p, SamePart (a.part p) (b.part p)
/-- Machines that differ at most in which registers are spilled and in the counter of open choices (06_registers R127). -/
def SameButImages (a b : Hw) : Prop := b = { a with images := b.images, free := b.free }

/-- What register writes and releases have made of gang g: g' (R31, R122, R123); ops are the operations in flight before them. -/
structure WroteGang (e : Env) (r : Regs) (w : Writes) (ops : List Op) (g g' : Gang) : Prop where
  /-- every vector register lane written holds its value -/
  v : ∀ k x, lastWrite w.v k = some x → g'.vregs.look k = some x
  /-- every other lane is as it was, unless the instruction released its register -/
  vFrame : ∀ k, lastWrite w.v k = none → (k / 32 ∉ r.relV ++ w.relV ∨ inLanes e.act (k % 32) = false) →
    g'.vregs.look k = g.vregs.look k
  /-- a released lane that nothing will still write is no longer live, and reads 0 (R121) -/
  vRel : ∀ n l, n ∈ r.relV ++ w.relV → l < 32 → inLanes e.act l = true → vPending ops e.gk n l = false →
    lastWrite w.v (32 * n + l) = none → g'.vregs.look (32 * n + l) = none
  /-- every scalar of the path written holds its value -/
  s : ∀ q', g'.paths.look e.p = some q' → ∀ n x, lastWrite w.s n = some x → q'.sr n = x
  /-- every other scalar of the path is as it was, unless released -/
  sFrame : ∀ q q', g.paths.look e.p = some q → g'.paths.look e.p = some q' →
    ∀ n, lastWrite w.s n = none → n ∉ r.relS → q'.sregs.look n = q.sregs.look n
  /-- a released scalar that nothing will still write is no longer live -/
  sRel : ∀ q', g'.paths.look e.p = some q' → ∀ n, n ∈ r.relS → sPending ops e.gk e.p n = false →
    lastWrite w.s n = none → q'.sregs.look n = none
  /-- every other path of the gang is as it was -/
  paths : ∀ p, p ≠ e.p → g'.paths.look p = g.paths.look p
  /-- exception flags are added and never cleared (07_numbers R151); generator states change only where written -/
  fexc : ∀ l, g'.fexc.val 0 l = w.ex.foldl (fun n x => if x.1 = l then n ||| x.2 else n) (g.fexc.val 0 l)
  srng : ∀ l, lastWrite w.rng l = none → g'.srng.look l = g.srng.look l
  srngW : ∀ l x, lastWrite w.rng l = some x → g'.srng.look l = some x
  /-- nesting counters, work identifier, tag and the lanes that have exited are as they were -/
  nest : g'.nest = g.nest
  wid : g'.wid = g.wid
  tag : g'.tag = g.tag
  exited : g'.exited = g.exited

/-- The issuing instruction retired with register writes w, the machine otherwise as hw: registers and flags are as WroteGang says,
nothing else changed, the operations it started are in flight, and a path that is not folded stands behind the instruction (R37). -/
structure Retired (e : Env) (r : Regs) (w : Writes) (hw : Hw) (t : State) : Prop where
  mem : t.mem = e.s.mem
  time : t.time = e.s.time
  only : OnlyGang e.gk hw t.hw
  ops : ∃ l, t.hw.ops = l ++ w.ops ∧ l.map Op.bare = hw.ops.map Op.bare
  gang : ∀ g, hw.gangs.look e.gk = some g → ∃ g', t.hw.gangs.look e.gk = some g' ∧ WroteGang e r w hw.ops g g'
  path : ∀ g q, hw.gangs.look e.gk = some g → g.paths.look e.p = some q → q.folded = false →
    ∃ g' q', t.hw.gangs.look e.gk = some g' ∧ g'.paths.look e.p = some q' ∧ q'.pc = e.q.pc + word r.len ∧ q'.mask = q.mask ∧
      q'.cl = e.q.cl.after (e.q.pc + word r.len) ∧ q'.depth = q.depth ∧ (q.state = .ready → q'.state = .ready)

/-- A control transfer retired with register writes w, the machine otherwise as hw: the path, unless folded, stands at the header at pc,
outside any clause, its DEPTH changed by dep (R37, R100). -/
structure Transferred (e : Env) (r : Regs) (w : Writes) (pc : Word) (dep : Nat → Nat) (hw : Hw) (t : State) : Prop where
  mem : t.mem = e.s.mem
  time : t.time = e.s.time
  only : OnlyGang e.gk hw t.hw
  ops : ∃ l, t.hw.ops = l ++ w.ops ∧ l.map Op.bare = hw.ops.map Op.bare
  gang : ∀ g, hw.gangs.look e.gk = some g → ∃ g', t.hw.gangs.look e.gk = some g' ∧ WroteGang e r w hw.ops g g'
  path : ∀ g q, hw.gangs.look e.gk = some g → g.paths.look e.p = some q → q.folded = false →
    ∃ g' q', t.hw.gangs.look e.gk = some g' ∧ g'.paths.look e.p = some q' ∧ q'.pc = pc ∧ q'.cl = {} ∧ q'.mask = q.mask ∧
      q'.depth = dep q.depth ∧ q'.state = q.state

/-! ## Completion -/

/-- The register files have room for what an instruction writes, or registers can be spilled for it (R122, R128). -/
def Room (e : Env) (r : Regs) (w : Writes) (hw : Hw) : Prop := (commit e r w hw).isSome = true
/-- The same for a form that writes its destination d. -/
def RoomD (e : Env) (r : Regs) : Prop := Room e r (e.put r fun _ => 0) e.hw

/-- Instruction i retires: it answers a next state, in which it wrote w and did what hw holds. -/
def Retires (i : Instr) (s : State) (e : Env) (r : Regs) (w : Writes) (hw : Hw) : Prop :=
  ∃ t, exec i s = .next t ∧ Retired e r w hw t
/-- Instruction i retires with its path at the header at pc. -/
def Transfers (i : Instr) (s : State) (e : Env) (r : Regs) (w : Writes) (pc : Word) (dep : Nat → Nat) (hw : Hw) : Prop :=
  ∃ t, exec i s = .next t ∧ Transferred e r w pc dep hw t
/-- Instruction i takes a trap, with no other effect (R13, R345). -/
def Traps (i : Instr) (s : State) (e : Env) (t : Trap) : Prop := exec i s = .next (s.with (e.trap t))
/-- Instruction i cannot issue: nothing changes, and it is tried again (R95). -/
def Holds (i : Instr) (s : State) : Prop := exec i s = .next s

/-- What one element of a result is computed from: element j of sources a, b, c and of the old d, and the whole of source b. -/
structure Srcs where
  a : Nat
  b : Nat
  c : Nat
  d : Nat
  lane : Word

/-- The sources of element j in lane l of a form. -/
def srcs (fm : Form) (f : Fields) (e : Env) (l j : Nat) : Srcs :=
  let w := Ty.width f.ty
  let r := regsF fm f
  { a := subElem w j (e.va r l), b := subElem w j (e.vb r f l), c := subElem w j (e.vc r l), d := subElem w j (e.vd r l),
    lane := e.vb r f l }

/-- Wherever the form may issue it retires, and each element of d it writes meets P (R119, R120, R160). -/
def ByElement (fm : Form) (con : Fields → Instr) (P : Fields → Srcs → Nat → Prop) : Prop :=
  ∀ f s e, f.ty ∈ fm.tys → Issues fm f s e → RoomD e (regsF fm f) →
    ∃ x : Nat → Word, (∀ l j, j < 64 / Ty.width f.ty → P f (srcs fm f e l j) (subElem (Ty.width f.ty) j (x l))) ∧
      Retires (con f) s e (regsF fm f) (e.put (regsF fm f) x) e.hw

/-- The same for an S form, whose elements of STYPE's width come from the old d and a (R34). -/
def ByElementS (fm : SForm) (con : SFields → Instr) (P : Nat → Nat → Nat → Nat → Prop) : Prop :=
  ∀ f s e, IssuesS fm f s e → RoomD e (regsS fm f) →
    ∃ x : Nat → Word, (∀ l j, j < 64 / styWidth f.sty → P (styWidth f.sty) (subElem (styWidth f.sty) j (e.vd (regsS fm f) l))
        (subElem (styWidth f.sty) j (e.va (regsS fm f) l)) (subElem (styWidth f.sty) j (x l))) ∧
      Retires (con f) s e (regsS fm f) (e.put (regsS fm f) x) e.hw

/-- Wherever the form may issue it retires, and each lane of d it writes holds g. -/
def ByLane (fm : Form) (con : Fields → Instr) (g : Fields → Env → Regs → Nat → Word) : Prop :=
  ∀ f s e, Issues fm f s e → RoomD e (regsF fm f) →
    Retires (con f) s e (regsF fm f) (e.put (regsF fm f) (g f e (regsF fm f))) e.hw

/-- Wherever the S form may issue it retires, and d holds a. -/
def CopiesS (fm : SForm) (con : SFields → Instr) : Prop :=
  ∀ f s e, IssuesS fm f s e → RoomD e (regsS fm f) → Retires (con f) s e (regsS fm f) (e.put (regsS fm f) (e.va (regsS fm f))) e.hw

/-- What a floating form writes: in each lane it works for (the lowest active one for a scalar d) the elements g gives in ascending
order, the flags they raise, and the generator state they leave (R153, R173). -/
def roundedWrites (f : Fields) (e : Env) (r : Regs) (g : Nat → Nat → Word → Rnd) : Writes :=
  let w := Ty.width f.ty
  let c (l : Nat) : Calc := calcElems (64 / w) (g l) (e.g.rng l)
  let ls := e.work r
  { v := if r.sh.d = .s then [] else ls.map fun l => (32 * r.d + l, word (packElems w (c l).codes))
    s := if r.sh.d = .s then ls.map fun l => (r.d, word (packElems w (c l).codes)) else []
    ex := ls.map fun l => (l, (c l).fx)
    rng := ls.map fun l => (l, (c l).s) }

/-- Wherever the form may issue it retires, each element rounded as P says: its code, its flags and the generator after it. -/
def ByRounding (fm : Form) (con : Fields → Instr) (P : Fields → Srcs → Word → Rnd → Prop) : Prop :=
  ∀ f s e, f.ty ∈ fm.tys → Issues fm f s e → Room e (regsF fm f) (roundedWrites f e (regsF fm f) fun _ _ st => ⟨0, 0, st⟩) e.hw →
    ∃ g : Nat → Nat → Word → Rnd, (∀ l j st, P f (srcs fm f e l j) st (g l j st)) ∧
      Retires (con f) s e (regsF fm f) (roundedWrites f e (regsF fm f) g) e.hw

/-- Wherever the form may issue it retires, and each lane of d it writes meets P. -/
def ByLaneP (fm : Form) (con : Fields → Instr) (P : Fields → Env → Regs → Nat → Word → Prop) : Prop :=
  ∀ f s e, Issues fm f s e → RoomD e (regsF fm f) → ∃ x : Nat → Word, (∀ l, l < 32 → inLanes e.act l = true → P f e (regsF fm f) l (x l)) ∧
    Retires (con f) s e (regsF fm f) (e.put (regsF fm f) x) e.hw

/-- Wherever the form may issue, of a type it takes and with room for its destination, it answers a next state, in which it has retired. -/
def Completes (fm : Form) (con : Fields → Instr) : Prop :=
  ∀ f s e, f.ty ∈ fm.tys → Issues fm f s e → RoomD e (regsF fm f) → ∃ w t, exec (con f) s = .next t ∧ Retired e (regsF fm f) w e.hw t

/-- Wherever the form may issue it retires, having written w. -/
def Writing (fm : Form) (con : Fields → Instr) (w : Fields → Env → Regs → Writes) : Prop :=
  ∀ f s e, Issues fm f s e → Room e (regsF fm f) (w f e (regsF fm f)) e.hw → Retires (con f) s e (regsF fm f) (w f e (regsF fm f)) e.hw

/-- What a form writes whose lanes each have one value, with the flags they raise and the generator state they leave. -/
def calcWrites (e : Env) (r : Regs) (c : Nat → Word × Nat × Word) : Writes :=
  { v := if r.sh.d = .s then [] else (e.work r).map fun l => (32 * r.d + l, (c l).1)
    s := if r.sh.d = .s then (e.work r).map fun l => (r.d, (c l).1) else []
    ex := (e.work r).map fun l => (l, (c l).2.1)
    rng := (e.work r).map fun l => (l, (c l).2.2) }

/-- Instruction i stays at its form, the machine as hw, once there is room for the register it will write (05_paths Table PA-2; 06_registers
R128). -/
def Stays (i : Instr) (s : State) (e : Env) (r : Regs) (hw : Hw) : Prop :=
  ∀ h, e.waitRoom r hw = some h → exec i s = .next (s.with h) ∧ SameButImages hw h
/-- Instruction i leaves its path waiting at the form, the machine otherwise as hw. -/
def Parks (i : Instr) (s : State) (e : Env) (r : Regs) (st : PState) (w : Wait) (hw : Hw) : Prop := Stays i s e r (e.park r st w hw)

/-- Instruction i asks a unit and waits for its answer, for a time that is open; tab says that it holds a waiting-table entry meanwhile
(12_handles R231, R243; 17_tail R333; 18_contexts R349, R358). -/
def Asks (i : Instr) (s : State) (e : Env) (r : Regs) (tab : Bool) : Prop :=
  (tab = true → waitEntries e.hw e.core < 512) →
    ∃ h, h = { e.hw with cores := h.cores, free := h.free } ∧ (∀ k, h.core k = { e.hw.core k with wtPeak := (h.core k).wtPeak }) ∧
      Parks i s e r .parked (.query (e.now + e.hw.draw.1) tab) h
/-- The unit that the path asked has answered: the form is done when it issues again. -/
def Env.answered (e : Env) : Prop := ∃ tab, e.q.wait = .go tab

/-- The issuing gang with nesting counters t. -/
def Env.nested (e : Env) (t : Tab Nat) : Hw := e.hw.setGang e.gk fun g => { g with nest := t }

/-- Instruction i transfers its path to pc with nesting counters cnt (05_paths R100-R102). -/
def Flows (i : Instr) (s : State) (e : Env) (r : Regs) (w : Writes) (cnt : Nat → Nat) (pc : Word) : Prop :=
  ∃ t : Tab Nat, (∀ l, t.val 0 l = cnt l) ∧
    (Room e r w (e.goto pc id (e.nested t)) → Transfers i s e r w pc id (e.nested t))

/-- The path has been divided into groups gs: each that has lanes is a path of its own at its PC, that of the path's lowest lane in the path's
entry, the others in entries that were free (05_paths R104, 06_registers R131). -/
structure Divided (e : Env) (r : Regs) (gs : List Group') (t : State) : Prop where
  mem : t.mem = e.s.mem
  time : t.time = e.s.time
  others : ∀ k, k ≠ e.gk → t.hw.gangs.look k = e.hw.gangs.look k
  blocks : t.hw.blocks = e.hw.blocks
  gang : ∃ g', t.hw.gangs.look e.gk = some g' ∧ g'.nest = e.g.nest ∧ g'.exited = e.g.exited ∧
    (∀ k, (k / 32 ∉ r.relV ∨ inLanes e.act (k % 32) = false) → g'.vregs.look k = e.g.vregs.look k) ∧
    (∀ i q, e.g.paths.look i = some q → i ≠ e.p → g'.paths.look i = some q) ∧
    ∀ x ∈ gs, x.m ≠ 0 → ∃ i q, g'.paths.look i = some q ∧ (i = e.p ↔ inLanes x.m (lowLane e.grp) = true) ∧
      (i ≠ e.p → e.g.paths.look i = none ∧ i < 16 ∧ q.parent = e.p) ∧ q.mask = x.m ∧ q.pc = x.pc ∧ q.cl = {} ∧ q.state = .ready ∧
      q.depth = e.q.depth + x.up ∧ ∀ n, n ∉ r.relS → match x.sw with
        | some kv => q.sr n = if n = kv.1 then kv.2 else e.q.sr n
        | none => q.sregs.look n = e.q.sregs.look n

/-- The path holds the lanes of groups gs as a folded path, or as one path where they all stand at one PC (05_paths R104, R114). -/
structure Folded (e : Env) (gs : List Group') (t : State) : Prop where
  mem : t.mem = e.s.mem
  time : t.time = e.s.time
  gang : ∃ g' q', t.hw.gangs.look e.gk = some g' ∧ g'.nest = e.g.nest ∧ (∀ i, i ≠ e.p → g'.paths.look i = e.g.paths.look i) ∧
    g'.paths.look e.p = some q' ∧ q'.mask = e.q.mask ∧ ∀ x ∈ gs, ∀ l, l < 32 → inLanes x.m l = true →
      (if q'.folded then (g'.foldArr.val {} l).pc else q'.pc) = x.pc

/-- Instruction i divides its path into groups gs (05_paths R104): with entries free for all but one, each becomes a path; with too few it
folds them where FOLD is 1, as it does for a path that is folded, and else traps. -/
def Splits (i : Instr) (s : State) (e : Env) (r : Regs) (gs : List Group') : Prop :=
  let n := (gs.filter fun x => x.m != 0).length
  (e.q.folded = false → n ≤ (freeEntries e.g).length + 1 → ∃ t, exec i s = .next t ∧ Divided e r gs t) ∧
  (e.q.folded = true ∨ (freeEntries e.g).length + 1 < n ∧ e.g.fold = true → ∃ t, exec i s = .next t ∧ Folded e gs t) ∧
  (e.q.folded = false → (freeEntries e.g).length + 1 < n → e.g.fold = false → Traps i s e { cause := 0x09, info := n - 1, hit := e.act })

/-- Groups by the targets that the active lanes name in a, the lanes that are off standing at the clause end (05_paths R107). -/
def ByTarget (e : Env) (r : Regs) (gs : List Group') : Prop :=
  (∀ x ∈ gs, x.m ≠ 0 → (∀ l, l < 32 → inLanes x.m l = (inLanes e.act l && e.va r l == x.pc)) ∨
    (x.pc = e.clauseEnd r.len ∧ x.m = e.grp &&& ~~~e.act)) ∧
  ∀ l, l < 32 → inLanes e.grp l = true → ∃ x ∈ gs, inLanes x.m l = true

/-- Machine b is machine a but for its partitions. -/
def OnlyParts (a b : Hw) : Prop := b = { a with parts := b.parts }

/-- No operation but self reads or writes scratchpad of block bk by itself (11_scratchpad R218). -/
def NoCopies (self : Nat) (hw : Hw) (bk : Nat) : Prop := ∀ o ∈ hw.ops, o.id ≠ self → match o.kind with
  | .scopy b .. => b ≠ bk
  | .pass x => x.blk ≠ bk
  | .copy c => c.blk ≠ bk
  | .atrans x => x.blk ≠ bk
  | _ => True

/-- A table of bytes after storing byte strings in order: a byte holds what the last string covering it gives it, and every other
byte is as it was. -/
structure Stored (old new : Tab Byte) (l : List (Nat × List Byte)) : Prop where
  frame : ∀ y, (∀ x ∈ l, y < x.1 ∨ x.1 + x.2.length ≤ y) → new.val 0 y = old.val 0 y
  last : ∀ (i : Nat) (x : Nat × List Byte) (k : Nat), l[i]? = some x → k < x.2.length → (∀ (j : Nat) (z : Nat × List Byte), i < j → l[j]? = some z → x.1 + k < z.1 ∨ z.1 + z.2.length ≤ x.1 + k) →
    new.val 0 (x.1 + k) = x.2.getD k 0

/-- Instruction i starts operation op, the machine otherwise as hw: a blocking form waits parked for it and holds its destination,
another goes on (R43, R230). -/
def Starts (i : Instr) (s : State) (e : Env) (r : Regs) (op : Op) (blocking : Bool) (hw : Hw) : Prop :=
  let o := { op with id := hw.nextId }
  if blocking then ∀ h, commit e r.keep { ops := [o] } hw = some h → Parks i s e r .parked (.op hw.nextId) h
  else Room e r { ops := [o] } hw → Retires i s e r { ops := [o] } hw

/-- Path q, which waits at its form, goes on behind it with register writes w, the machine otherwise as hw (13_consistency R257). -/
def Resumes (i : Instr) (s : State) (e : Env) (w : Writes) (hw : Hw) : Prop :=
  ∀ r, e.q.form = some r → Room e r w hw → ∃ t, exec i s = .next t ∧ Retired e r w hw t

/-- A wmark (17_tail R332): without a Tail it is done once its fence is over, else it asks the control for a window; it waits for its
fence and for the answer. -/
def MarksWindow (i : Instr) (s : State) (e : Env) (r : Regs) : Prop :=
  let b := e.hw.nextId
  (fenceDone e.hw e.gk 3 b s.time = false → Parks i s e r .parked (.wmark b false none) e.hw) ∧
  (fenceDone e.hw e.gk 3 b s.time = true → (e.hw.tail e.part e.ctx).en = false → Room e r (wmarkWrites r 0) e.hw →
    Retires i s e r (wmarkWrites r 0) e.hw) ∧
  (fenceDone e.hw e.gk 3 b s.time = true → ∀ cx, e.hw.ctx e.part e.ctx = some cx → cx.tail.en = true →
    ∃ x : TailSt, x.reqs = cx.tail.reqs ++ [.path e.gk e.p] ∧ x.cur = cx.tail.cur ∧ x.en = true ∧
      Parks i s e r .parked (.wmark b true none) (e.hw.setCtx e.part e.ctx fun c => { c with tail := x }))

/-- Instruction i retires with value v in its scalar d, the machine otherwise as hw. -/
def Answers (i : Instr) (s : State) (e : Env) (r : Regs) (v : Nat) (hw : Hw) : Prop :=
  Room e r (putS r v) hw → Retires i s e r (putS r v) hw

/-- The register window of function fn takes a host write now: the package is up, the function present, its earlier posted writes have
passed, and no reshape is under way (13_consistency R261; 22_partitions R412). -/
structure WindowOpen (s : State) (fn : Nat) : Prop where
  up : s.hw.pkg.up = true
  present : (s.hw.part fn).present = true
  past : postedPast s.hw fn s.time = true
  still : (s.hw.part fn).ptstatus ≠ 0xFF

/-- A waiting context command of path q: the machine runs its context, and it has come to a stage (18_contexts R355-R357). -/
structure Commands (s : State) (q : PathRef) (e : Env) (d core ctx op t : Nat) : Prop where
  here : envAt s q = some e
  runs : runsOn s.hw e.core e.ctx = true
  wait : e.q.wait = .command d core ctx op t

/-- Machine b is machine a but for one core. -/
def OnlyCore (k : Nat) (a b : Hw) : Prop := b = { a with cores := b.cores } ∧ ∀ j, j ≠ k → b.core j = a.core j

/-- An event changes nothing but the machine's devices: memory, time, gangs and blocks stay. -/
structure Quiet (s t : State) : Prop where
  mem : t.mem = s.mem
  time : t.time = s.time
  gangs : t.hw.gangs = s.hw.gangs
  blocks : t.hw.blocks = s.hw.blocks

end Sys2Proof.Machine
end

