-- ==== Sys2Proof/Certificates/Slice0/Obligations.lean ====
section
/-! DEFINITION. The statements about the machine. -/

open Sys2Proof Sys2Proof.Machine

/-! ## Integer -/

/-- Sums and differences are taken modulo 2^w, element by element (08_integer R160-R164). Saturation, distance, absolute value, least
and greatest, in the reading of the type (R161, R164, R166). Products, quotients and remainders; division by zero gives all ones, and
its remainder the dividend (R164, Table IN-3). Where the spec leaves it open this rests on the model's choices (log 106). -/
def Obligations.IntegerArithmetic : Prop :=
  (ByElement Forms.add .add (fun f x v => v = (x.a + x.b) % 2 ^ Ty.width f.ty) ∧
   ByElement Forms.sub .sub (fun f x v => (v : Int) = ((x.a : Int) - x.b) % 2 ^ Ty.width f.ty) ∧
   ByElementS Forms.addS .addS (fun w d a v => v = (d + a) % 2 ^ w) ∧
   ByElementS Forms.subS .subS (fun w d a v => (v : Int) = ((d : Int) - a) % 2 ^ w)) ∧
  (ByElement Forms.adds .adds (fun f x v => Ty.int f.ty v = sat (Ty.int f.ty x.a + Ty.int f.ty x.b) f.ty) ∧
   ByElement Forms.subs .subs (fun f x v => Ty.int f.ty v = sat (Ty.int f.ty x.a - Ty.int f.ty x.b) f.ty) ∧
   ByElement Forms.absd .absd (fun f x v => v = (Ty.int f.ty x.a - Ty.int f.ty x.b).natAbs) ∧
   ByElement Forms.min .min (fun f x v => Ty.int f.ty v = min (Ty.int f.ty x.a) (Ty.int f.ty x.b)) ∧
   ByElement Forms.max .max (fun f x v => Ty.int f.ty v = max (Ty.int f.ty x.a) (Ty.int f.ty x.b)) ∧
   ByElement Forms.abs .abs (fun f x v => if f.op = 1 then Ty.int f.ty v = sat ((Ty.int f.ty x.a).natAbs : Int) f.ty
     else v = (Ty.int f.ty x.a).natAbs)) ∧
  (ByElement Forms.mul .mul (fun f x v => if f.op = 1 then Ty.int f.ty v = sat (Ty.int f.ty x.a * Ty.int f.ty x.b) f.ty
     else v = x.a * x.b % 2 ^ Ty.width f.ty) ∧
   ByElement Forms.mulh .mulh (fun f x v => Ty.int f.ty v = Ty.int f.ty x.a * Ty.int f.ty x.b / 2 ^ Ty.width f.ty) ∧
   ByElement Forms.mad .mad (fun f x v => if f.op = 1 then Ty.int f.ty v = sat (Ty.int f.ty x.a * Ty.int f.ty x.b + Ty.int f.ty x.c) f.ty
     else v = (x.a * x.b + x.c) % 2 ^ Ty.width f.ty) ∧
   ByElement Forms.div .div (fun f x v => if x.b = 0 then v = 2 ^ Ty.width f.ty - 1
     else v = trunc ((Ty.int f.ty x.a).tdiv (Ty.int f.ty x.b)) (Ty.width f.ty)) ∧
   ByElement Forms.rem .rem (fun f x v => if x.b = 0 then v = x.a else Ty.int f.ty v = (Ty.int f.ty x.a).tmod (Ty.int f.ty x.b)))

/-- Bitwise forms act on each bit (R164). Shifts by the unsigned value of the second source: past the width a shift gives zeros or
copies of the sign, and a rotation counts modulo the width (R165). Counts of bits, bit order, and bit fields (R166-R168). A comparison
gives all ones or zero (R169); lea adds an index of the type's reading, shifted, and a displacement (R170). -/
def Obligations.IntegerLogic : Prop :=
  (ByElement Forms.and .and (fun _ x v => ∀ k, v.testBit k = (x.a.testBit k && x.b.testBit k)) ∧
   ByElement Forms.or .or (fun _ x v => ∀ k, v.testBit k = (x.a.testBit k || x.b.testBit k)) ∧
   ByElement Forms.xor .xor (fun _ x v => ∀ k, v.testBit k = (x.a.testBit k ^^ x.b.testBit k)) ∧
   ByElement Forms.andn .andn (fun _ x v => ∀ k, v.testBit k = (x.a.testBit k && !x.b.testBit k)) ∧
   ByElement Forms.not .not (fun f x v => ∀ k, k < Ty.width f.ty → v.testBit k = !x.a.testBit k) ∧
   ByElementS Forms.andS .andS (fun _ d a v => ∀ k, v.testBit k = (d.testBit k && a.testBit k)) ∧
   ByElementS Forms.orS .orS (fun _ d a v => ∀ k, v.testBit k = (d.testBit k || a.testBit k)) ∧
   ByElementS Forms.xorS .xorS (fun _ d a v => ∀ k, v.testBit k = (d.testBit k ^^ a.testBit k))) ∧
  (ByElement Forms.shl .shl (fun f x v => v = if x.b < Ty.width f.ty then x.a * 2 ^ x.b % 2 ^ Ty.width f.ty else 0) ∧
   ByElement Forms.shr .shr (fun _ x v => v = x.a / 2 ^ x.b) ∧
   ByElement Forms.sar .sar (fun f x v => sext v (Ty.width f.ty) = sext x.a (Ty.width f.ty) / 2 ^ min x.b (Ty.width f.ty)) ∧
   ByElement Forms.rot .rot (fun f x v => ∀ k, k < Ty.width f.ty → v.testBit k = x.a.testBit
     ((if f.op = 1 then k + x.b % Ty.width f.ty else k + (Ty.width f.ty - x.b % Ty.width f.ty)) % Ty.width f.ty)) ∧
   ByElementS Forms.shlS .shlS (fun w d a v => v = if a < w then d * 2 ^ a % 2 ^ w else 0) ∧
   ByElementS Forms.shrS .shrS (fun _ d a v => v = d / 2 ^ a) ∧
   ByElementS Forms.sarS .sarS (fun w d a v => sext v w = sext d w / 2 ^ min a w)) ∧
  (ByElement Forms.popc .popc (fun f x v => v = ((List.range (Ty.width f.ty)).filter fun k => x.a.testBit k).length) ∧
   ByElement Forms.clz .clz (fun f x v => v ≤ Ty.width f.ty ∧ (∀ k, Ty.width f.ty - v ≤ k → x.a.testBit k = false) ∧
     (v < Ty.width f.ty → x.a.testBit (Ty.width f.ty - 1 - v) = true)) ∧
   ByElement Forms.ctz .ctz (fun f x v => v ≤ Ty.width f.ty ∧ (∀ k, k < v → x.a.testBit k = false) ∧
     (v < Ty.width f.ty → x.a.testBit v = true)) ∧
   ByElement Forms.brev .brev (fun f x v => ∀ k, k < Ty.width f.ty → v.testBit k = x.a.testBit (Ty.width f.ty - 1 - k)) ∧
   ByElement Forms.bfe .bfe (fun f x v =>
     let c := if f.isX then f.imm else x.lane.toNat
     let m := if Ty.width f.ty ≤ c % 256 then 0 else min (c / 256 % 256) (Ty.width f.ty - c % 256)
     ∀ k, k < Ty.width f.ty → v.testBit k = if k < m then x.a.testBit (c % 256 + k)
       else Ty.signed f.ty && decide (0 < m) && x.a.testBit (c % 256 + (m - 1))) ∧
   ByElement Forms.bfi .bfi (fun f x v =>
     let c := if f.isX then f.imm else x.lane.toNat
     let m := if Ty.width f.ty ≤ c % 256 then 0 else min (c / 256 % 256) (Ty.width f.ty - c % 256)
     ∀ k, k < Ty.width f.ty → v.testBit k = if c % 256 ≤ k ∧ k < c % 256 + m then x.a.testBit (k - c % 256) else x.d.testBit k)) ∧
  (ByElement Forms.cmp .cmp (fun f x v =>
     let a := Ty.int f.ty x.a
     let b := Ty.int f.ty x.b
     v = if (match f.op with
         | 0 => decide (a = b) | 1 => decide (a ≠ b) | 2 => decide (a < b) | 3 => decide (a ≤ b) | 4 => decide (b < a)
         | _ => decide (b ≤ a)) = true
       then 2 ^ Ty.width f.ty - 1 else 0) ∧
   ByLane Forms.lea .lea (fun f e r l => word (trunc (((e.va r l).toNat : Int) +
     (match f.ty with
       | .i32 => sext (e.vb r f l).toNat 32
       | .n32 => (((e.vb r f l).toNat % 2 ^ 32 : Nat) : Int)
       | _ => ((e.vb r f l).toNat : Int)) * (2 ^ f.op : Int) + if f.isX then sext f.imm 32 else 0) 64)))

/-! ## Floating point -/

/-- Each arithmetic form computes exactly and rounds once, with the flags of its operands and of the rounding (07_numbers R148-R153;
09_float R176, R179, R180, R189). -/
def Obligations.FloatArithmetic : Prop :=
  ByRounding Forms.fadd .fadd (fun f x st y => y = rndWith f.ty f.op st (exsumP [] [fv f.ty x.a, fv f.ty x.b])) ∧
  ByRounding Forms.fsub .fsub (fun f x st y => y = rndWith f.ty f.op st (exsumP [] [fv f.ty x.a, (fv f.ty x.b).negate])) ∧
  ByRounding Forms.fmul .fmul (fun f x st y => y = rndWith f.ty f.op st
    (((fv f.ty x.a).mul (fv f.ty x.b)).1, if ((fv f.ty x.a).mul (fv f.ty x.b)).2 then fxInvalid else 0)) ∧
  ByRounding Forms.fma .fma (fun f x st y => y = rndWith f.ty f.op st
    (exsumP [(fv f.ty x.a, fv f.ty x.b)] [fv f.ty (if f.isX then x.c else x.d)])) ∧
  ByRounding Forms.fscale .fscale (fun f x st y => y = rndWith f.ty f.op st
    ((fv f.ty x.a).scale (if f.isL then sext f.lit (min (Ty.width f.ty) 32) else sext x.b (Ty.width f.ty)), 0)) ∧
  ByRounding Forms.fdiv .fdiv (fun f x st y => y = rndWith f.ty f.op st (divVal (fv f.ty x.a) (fv f.ty x.b))) ∧
  ByRounding Forms.fsqrt .fsqrt (fun f x st y => y = rndWith f.ty f.op st (sqrtVal (fv f.ty x.a)))

/-- fmin and fmax answer one of their sources, NaN only where both are; fabs and fneg change the sign bit alone; none raises a flag or
draws (R177, R178). frnd rounds to an integral value, raising at most inexact; fcmp gives all ones or zero, fclass the class, neither
with a flag (R181, R182, R186). -/
def Obligations.FloatSelection : Prop :=
  (ByRounding Forms.fmin .fmin (fun f x st y => y.fx = 0 ∧ y.s = st ∧
     ((fv f.ty x.a).isNan = true → (fv f.ty x.b).isNan = false → y.code = x.b) ∧
     ((fv f.ty x.a).isNan = false → (fv f.ty x.b).isNan = true → y.code = x.a) ∧
     ((fv f.ty x.a).isNan = true → (fv f.ty x.b).isNan = true → y.code = (Ty.fmt f.ty).nan.getD 0) ∧
     ((fv f.ty x.a).isNan = false → (fv f.ty x.b).isNan = false → (y.code = x.a % 2 ^ (Ty.fmt f.ty).bits ∨ y.code = x.b % 2 ^ (Ty.fmt f.ty).bits) ∧
       minLess (fv f.ty x.a) (fv f.ty y.code) = false ∧ minLess (fv f.ty x.b) (fv f.ty y.code) = false)) ∧
   ByRounding Forms.fmax .fmax (fun f x st y => y.fx = 0 ∧ y.s = st ∧
     ((fv f.ty x.a).isNan = true → (fv f.ty x.b).isNan = false → y.code = x.b) ∧
     ((fv f.ty x.a).isNan = false → (fv f.ty x.b).isNan = true → y.code = x.a) ∧
     ((fv f.ty x.a).isNan = true → (fv f.ty x.b).isNan = true → y.code = (Ty.fmt f.ty).nan.getD 0) ∧
     ((fv f.ty x.a).isNan = false → (fv f.ty x.b).isNan = false → (y.code = x.a % 2 ^ (Ty.fmt f.ty).bits ∨ y.code = x.b % 2 ^ (Ty.fmt f.ty).bits) ∧
       minLess (fv f.ty y.code) (fv f.ty x.a) = false ∧ minLess (fv f.ty y.code) (fv f.ty x.b) = false)) ∧
   ByRounding Forms.fabs .fabs (fun f x st y => y.fx = 0 ∧ y.s = st ∧
     y.code = if (fv f.ty x.a).isNan then (Ty.fmt f.ty).nan.getD 0 else x.a % 2 ^ ((Ty.fmt f.ty).bits - 1)) ∧
   ByRounding Forms.fneg .fneg (fun f x st y => y.fx = 0 ∧ y.s = st ∧
     if (fv f.ty x.a).isNan then y.code = (Ty.fmt f.ty).nan.getD 0 else
       y.code < 2 ^ (Ty.fmt f.ty).bits ∧ y.code % 2 ^ ((Ty.fmt f.ty).bits - 1) = x.a % 2 ^ ((Ty.fmt f.ty).bits - 1) ∧
         y.code.testBit ((Ty.fmt f.ty).bits - 1) = !x.a.testBit ((Ty.fmt f.ty).bits - 1))) ∧
  (ByRounding Forms.frnd .frnd (fun f x st y => match fv f.ty x.a with
     | .fin neg n e =>
       y.code = ((Ty.fmt f.ty).round 0 st (.fin neg (roundInt f.op st neg n e).1 0)).code ∧
         y.fx = (if (roundInt f.op st neg n e).2.1 then fxInexact else 0) ∧ y.s = (roundInt f.op st neg n e).2.2
     | v => y.code = ((Ty.fmt f.ty).round 0 st v).code ∧ y.fx = 0 ∧ y.s = st) ∧
   ByElement Forms.fcmp .fcmp (fun f x v => v = if fltPred f.op (fv f.ty x.a) (fv f.ty x.b) = true then 2 ^ Ty.width f.ty - 1 else 0) ∧
   ByElement Forms.fclass .fclass (fun f x v => v = classOf (Ty.fmt f.ty) (fv f.ty x.a)))

/-- The special cases of Table FP-4, each with its flag, for every transcendental form; none of them draws (R190). Where the spec
leaves it open this rests on the model's choices (log 33, 34). Dot products and conversions: each element of each lane, its flags and
its draws (R183-R188; 07_numbers R145, R156). -/
def Obligations.FloatSpecials : Prop :=
  (ByRounding Forms.frcp .frcp (fun f x st y => match fv f.ty x.a with
     | .nan => y = rndWith f.ty 0 st (.nan, 0)
     | .inf neg => y = rndWith f.ty 0 st (.fin neg 0 0, 0)
     | .fin neg n _ => y.s = st ∧ (n = 0 → y = rndWith f.ty 0 st (.inf neg, fxDivZero)) ∧
         (n ≠ 0 → f.ty ≠ .f32 → y = rndWith f.ty 0 st (divVal Val.one (fv f.ty x.a)))) ∧
   ByRounding Forms.frsq .frsq (fun f x st y => match fv f.ty x.a with
     | .nan => y = rndWith f.ty 0 st (.nan, 0)
     | .inf neg => y = if neg then rndWith f.ty 0 st (.nan, fxInvalid) else rndWith f.ty 0 st (.fin false 0 0, 0)
     | .fin neg n _ => y.s = st ∧ (n = 0 → y = rndWith f.ty 0 st (.inf neg, fxDivZero)) ∧
         (n ≠ 0 → neg = true → y = rndWith f.ty 0 st (.nan, fxInvalid))) ∧
   ByRounding Forms.fexp2 .fexp2 (fun f x st y => match fv f.ty x.a with
     | .nan => y = rndWith f.ty 0 st (.nan, 0)
     | .inf neg => y = rndWith f.ty 0 st (if neg then .fin false 0 0 else .inf false, 0)
     | .fin _ n _ => y.s = st ∧ (n = 0 → y = rndWith f.ty 0 st (Val.one, 0))) ∧
   ByRounding Forms.flog2 .flog2 (fun f x st y => match fv f.ty x.a with
     | .nan => y = rndWith f.ty 0 st (.nan, 0)
     | .inf neg => y = if neg then rndWith f.ty 0 st (.nan, fxInvalid) else rndWith f.ty 0 st (.inf false, 0)
     | .fin neg n _ => y.s = st ∧ (n = 0 → y = rndWith f.ty 0 st (.inf true, fxDivZero)) ∧
         (n ≠ 0 → neg = true → y = rndWith f.ty 0 st (.nan, fxInvalid))) ∧
   ByRounding Forms.fsin .fsin (fun f x st y => match fv f.ty x.a with
     | .nan => y = rndWith f.ty 0 st (.nan, 0)
     | .inf _ => y = rndWith f.ty 0 st (.nan, fxInvalid)
     | .fin neg n _ => y.s = st ∧ (n = 0 → y = rndWith f.ty 0 st (.fin neg 0 0, 0))) ∧
   ByRounding Forms.fcos .fcos (fun f x st y => match fv f.ty x.a with
     | .nan => y = rndWith f.ty 0 st (.nan, 0)
     | .inf _ => y = rndWith f.ty 0 st (.nan, fxInvalid)
     | .fin _ n _ => y.s = st ∧ (n = 0 → y = rndWith f.ty 0 st (Val.one, 0))) ∧
   ByRounding Forms.ftanh .ftanh (fun f x st y => match fv f.ty x.a with
     | .nan => y = rndWith f.ty 0 st (.nan, 0)
     | .inf neg => y = rndWith f.ty 0 st (.fin neg 1 0, 0)
     | .fin neg n _ => y.s = st ∧ (n = 0 → y = rndWith f.ty 0 st (.fin neg 0 0, 0)))) ∧
  ((∀ f s e, Issues Forms.fdot f s e → f.ty ∈ Forms.fdot.tys → Room e (regsF Forms.fdot f) (calcWrites e (regsF Forms.fdot f) fun _ => (0, 0, 0)) e.hw →
     let r := regsF Forms.fdot f
     let w := Ty.width f.ty
     let q := 64 / w / 2
     let half (l j : Nat) : Val × Nat := exsumP ((List.range q).map fun i =>
         (fv f.ty (subElem w (j * q + i) (e.va r l)), fv f.ty (subElem w (j * q + i) (e.vb r f l))))
       [fv .f32 (subElem 32 j (if f.isX then e.vc r l else e.vd r l))]
     let z0 (l : Nat) : Rnd := rndWith .f32 f.op (e.g.rng l) (half l 0)
     let z1 (l : Nat) : Rnd := rndWith .f32 f.op (z0 l).s (half l 1)
     ∃ c : Nat → Word × Nat × Word, Retires (.fdot f) s e r (calcWrites e r c) e.hw ∧ ∀ l,
       subElem 32 0 (c l).1 = (z0 l).code % 2 ^ 32 ∧ subElem 32 1 (c l).1 = (z1 l).code % 2 ^ 32 ∧
         (c l).2.1 = (z0 l).fx ||| (z1 l).fx ∧ (c l).2.2 = (z1 l).s) ∧
   (∀ f s e, Issues Forms.cvt f s e → f.ty ∈ Forms.cvt.tys → Forms.srcTy (bits 5 0 (regsF Forms.cvt f).b) ∈ Forms.cvt.tys →
     Room e (regsF Forms.cvt f) (calcWrites e (regsF Forms.cvt f) fun _ => (0, 0, 0)) e.hw →
     let r := regsF Forms.cvt f
     let st := Forms.srcTy (bits 5 0 r.b)
     let ws := Ty.width st
     let wd := Ty.width f.ty
     let n := 64 / max ws wd
     let k := bits 8 6 r.b
     let src (l i : Nat) : Nat := subElem ws (if ws < wd then k * n + i else i) (e.va r l)
     let conv (sg : Word) (x : Nat) (z : Rnd) : Prop :=
       (Ty.isFloat f.ty = true → Ty.isFloat st = true → z = (Ty.fmt f.ty).round f.op sg (fv st x)) ∧
       (Ty.isFloat f.ty = true → Ty.isFloat st = false → z = (Ty.fmt f.ty).round f.op sg (Val.ofInt (Ty.int st x))) ∧
       (Ty.isFloat f.ty = false → Ty.isFloat st = true → match fv st x with
         | .nan => z = ⟨0, fxInvalid, sg⟩
         | .inf neg => z = ⟨trunc (if neg then Ty.least f.ty else Ty.most f.ty) wd, fxInvalid, sg⟩
         | .fin neg m g =>
           let i := roundInt f.op sg neg m g
           let v : Int := if neg then -(i.1 : Int) else i.1
           z.s = i.2.2 ∧ z.code = trunc (sat v f.ty) wd ∧
             z.fx = if v < Ty.least f.ty ∨ Ty.most f.ty < v then fxInvalid else if i.2.1 then fxInexact else 0) ∧
       (Ty.isFloat f.ty = false → Ty.isFloat st = false →
         z = ⟨trunc (if f.op = 1 then sat (Ty.int st x) f.ty else Ty.int st x) wd, 0, sg⟩)
     ∃ (c : Nat → Word × Nat × Word) (z : Nat → Nat → Rnd), Retires (.cvt f) s e r (calcWrites e r c) e.hw ∧ ∀ l,
       (∀ i, i < n → conv (if i = 0 then e.g.rng l else (z l (i - 1)).s) (src l i) (z l i) ∧
         subElem wd (if ws < wd then i else k * n + i) (c l).1 = if ws < wd ∨ k * n + i < 64 / wd then (z l i).code % 2 ^ wd else subElem wd (k * n + i) (c l).1) ∧
       (¬ ws < wd → ∀ i, i < 64 / wd → (i < k * n ∨ k * n + n ≤ i) → subElem wd i (c l).1 = subElem wd i (e.vd r l)) ∧
       (c l).2.1 = ((List.range n).map fun i => (z l i).fx).foldl (· ||| ·) 0 ∧ (c l).2.2 = (z l (n - 1)).s) ∧
   (∀ f s e, Issues Forms.cvtq f s e → Forms.cvtq.ill f = false → f.ty ∈ Forms.cvtq.tys → Room e (regsF Forms.cvtq f) (cvtqWrites f e (regsF Forms.cvtq f)) e.hw →
     let r := regsF Forms.cvtq f
     let st := Forms.srcTy (bits 13 8 f.imm)
     let et : Ty := if f.ty = .mx8 then .e4m3 else .e2m1
     let emax : Int := if f.ty = .mx8 then 8 else 2
     let ea := 64 / Ty.width st
     let ed := 64 / Ty.width et
     let at' := bits 2 0 f.imm * (32 * ea)
     let x (i : Nat) : Val := fv st (subElem (Ty.width st) (i % ea) (e.g.v r.a (i / ea)))
     let lg (v : Val) : Option Int := match v with | .fin _ n g => if n = 0 then none else some ((Nat.log2 n : Int) + g) | _ => none
     let special (v : Val) : Prop := ∀ neg n g, v ≠ .fin neg n g
     ∃ (w : Writes) (sc : Nat → Nat), Retires (.cvtq f) s e r w e.hw ∧ w.s = [] ∧ w.ops = [] ∧ w.relV = [] ∧
       (∀ b, b < ea →
         ((∃ i, i < 32 ∧ special (x (32 * b + i))) → sc b = 0xFF) ∧
         ((∀ i, i < 32 → ¬ special (x (32 * b + i))) →
           ((∀ i, i < 32 → lg (x (32 * b + i)) = none) → sc b = 127) ∧
           ∀ m, (∃ i, i < 32 ∧ lg (x (32 * b + i)) = some m) → (∀ i y, i < 32 → lg (x (32 * b + i)) = some y → y ≤ m) →
             (sc b : Int) = max 0 (min (m - emax + 127) 254))) ∧
       (r.c ≠ r.d → ∀ l, l < 32 → inLanes e.act l = true →
         ((l < at' / ed ∨ at' / ed + 32 * ea / ed ≤ l) → lastWrite w.v (32 * r.d + l) = none) ∧
         (at' / ed ≤ l → l < at' / ed + 32 * ea / ed → f.op ≠ 4 → ∃ y, lastWrite w.v (32 * r.d + l) = some y ∧ ∀ i, i < ed →
           let j := l * ed + i - at'
           subElem (Ty.width et) i y = if sc (j / 32) = 0xFF then 0
             else ((Ty.fmt et).round f.op (e.g.rng l) ((x j).scale (127 - (sc (j / 32) : Int)))).code % 2 ^ Ty.width et) ∧
         ∃ y, lastWrite w.v (32 * r.c + l) = some y ∧ ∀ i, i < 8 →
           subElem 8 i y = if ed / 8 ≤ l then 0 else if at' / 32 ≤ 8 * l + i ∧ 8 * l + i < at' / 32 + ea then sc (8 * l + i - at' / 32) % 256
             else subElem 8 i (e.g.v r.c l))) ∧
   (∀ f s e, Issues Forms.cvtdq f s e → f.ty ∈ Forms.cvtdq.tys → Room e (regsF Forms.cvtdq f) (cvtdqWrites f e (regsF Forms.cvtdq f)) e.hw →
     let r := regsF Forms.cvtdq f
     let st := Forms.srcTy (bits 13 8 f.imm)
     let et : Ty := if st = .mx8 then .e4m3 else .e2m1
     let ed := 64 / Ty.width f.ty
     let es := 64 / Ty.width et
     let j (l i : Nat) : Nat := bits 2 0 f.imm * (32 * ed) + ed * l + i
     let scale (l i : Nat) : Nat := subElem 8 (j l i / 32 % 8) (e.g.v r.c (j l i / 32 / 8))
     ∃ w : Writes, Retires (.cvtdq f) s e r w e.hw ∧ w.s = [] ∧ w.ops = [] ∧ w.relV = [] ∧
       ∀ l, l < 32 → inLanes e.act l = true → ∃ y, lastWrite w.v (32 * r.d + l) = some y ∧ (f.op ≠ 4 → ∀ i, i < ed →
         subElem (Ty.width f.ty) i y = ((Ty.fmt f.ty).round f.op (e.g.rng l) (if scale l i = 0xFF then .nan else
           (fv et (subElem (Ty.width et) (j l i % es) (e.g.v r.a (j l i / es)))).scale ((scale l i : Int) - 127))).code % 2 ^ Ty.width f.ty)) ∧
   Completes Forms.frcp .frcp ∧ Completes Forms.frsq .frsq ∧ Completes Forms.fexp2 .fexp2 ∧ Completes Forms.flog2 .flog2 ∧
   Completes Forms.fsin .fsin ∧ Completes Forms.fcos .fcos ∧ Completes Forms.ftanh .ftanh ∧ Completes Forms.fdot .fdot ∧
   Completes Forms.cvt .cvt ∧ Completes Forms.cvtdq .cvtdq ∧
   (∀ f s e, Issues Forms.cvtq f s e → Forms.cvtq.ill f = false → f.ty ∈ Forms.cvtq.tys → Room e (regsF Forms.cvtq f) (cvtqWrites f e (regsF Forms.cvtq f)) e.hw →
     ∃ w t, exec (.cvtq f) s = .next t ∧ Retired e (regsF Forms.cvtq f) w e.hw t))

/-! ## Lanes -/

/-- Votes, ballots, matches and widths read the active lanes alone (10_lanes R191, R196, R197). A shuffle gives a lane the source
lane's value where that lane is active, and the fallback of OPT elsewhere (R200, R201). -/
def Obligations.LaneVotes : Prop :=
  (ByLaneP Forms.vote .vote (fun f e r _ x => x = allOnes (match f.op with
     | 0 => e.acts.any fun l => e.va r l != 0
     | 1 => e.acts.all fun l => e.va r l != 0
     | 2 => e.acts.all fun l => e.va r l == e.va r (lowLane e.act)
     | 3 => e.acts.all fun l => e.va r l == 0
     | _ => decide (e.acts.length < 2 * (e.acts.filter fun l => e.va r l != 0).length))) ∧
   ByLaneP Forms.ballot .ballot (fun _ e r _ x => ∀ k, x.getLsbD k = (inLanes e.act k && e.va r k != 0)) ∧
   ByLaneP Forms.elect .elect (fun _ e r l x => x = if r.sh.d = .s then word (lowLane e.act) else allOnes (l == lowLane e.act)) ∧
   ByLaneP Forms.matchOp .matchOp (fun f e r l x => ∀ k, x.getLsbD k =
     (inLanes e.act k && subElem (Ty.width f.ty) 0 (e.va r k) == subElem (Ty.width f.ty) 0 (e.va r l))) ∧
   ByLaneP Forms.pwidth .pwidth (fun f e _ l x => x = word (match f.op with
     | 0 => countLanes e.q.mask
     | 1 => countLanes e.act
     | 2 => (e.acts.filter fun m => decide (m < l)).length
     | _ => sliceSet e.q.mask))) ∧
  (ByLaneP Forms.shfl .shfl (fun f e r l x => x =
     if inLanes e.act ((e.reg r.sh.b r.b l).toNat % 32) then e.va r ((e.reg r.sh.b r.b l).toNat % 32) else fallback e r f l) ∧
   ByLaneP Forms.shfx .shfx (fun f e r l x => ∀ j, j < 64 / Ty.width f.ty → subElem (Ty.width f.ty) j x =
     let n := 64 / Ty.width f.ty
     let k := subElem (Ty.width f.ty) j (e.reg r.sh.b r.b l) % (32 * n)
     if inLanes e.act (k / n) then subElem (Ty.width f.ty) (k % n) (e.va r (k / n)) else subElem (Ty.width f.ty) j (fallback e r f l)) ∧
   ByLaneP Forms.shfup .shfup (fun f e r l x => x =
     let k := bits 4 0 f.imm
     let z := 32 >>> bits 10 8 f.imm
     if k ≤ l ∧ (l - k) / z = l / z ∧ inLanes e.act (l - k) then e.va r (l - k) else fallback e r f l) ∧
   ByLaneP Forms.shfdn .shfdn (fun f e r l x => x =
     let k := bits 4 0 f.imm
     let z := 32 >>> bits 10 8 f.imm
     if l + k < 32 ∧ (l + k) / z = l / z ∧ inLanes e.act (l + k) then e.va r (l + k) else fallback e r f l) ∧
   ByLaneP Forms.bcast .bcast (fun f e r l x =>
     if inLanes e.act (bits 4 0 f.imm) then ∀ j, j < 64 / Ty.width f.ty →
         subElem (Ty.width f.ty) j x = subElem (Ty.width f.ty) (bits 8 5 f.imm) (e.va r (bits 4 0 f.imm))
     else x = fallback e r f l))

/-- Reductions and scans combine the active lanes in ascending order (R198, Table XL-2); compact packs the lanes that b selects (R199);
isect finds each element among those of b (R202). -/
def Obligations.LaneReductions : Prop :=
  (∀ f s e, Issues Forms.lred f s e → RoomD e (regsF Forms.lred f) →
    let r := regsF Forms.lred f
    let w := Ty.width f.ty
    let o := bits 2 0 f.b.toNat
    let comb (j : Nat) (ls : List Nat) : Nat := match ls with
      | [] => 0
      | l0 :: ls => ls.foldl (fun acc l => (combElem o f.ty f.op acc (subElem w j (e.va r l))).1) (subElem w j (e.va r l0))
    ∃ z ex, (∀ j, j < 64 / w → subElem w j z = canon f.ty (comb j e.acts) % 2 ^ w) ∧ (Ty.isFloat f.ty = false → ∀ x ∈ ex, x.2 = 0) ∧
      Retires (.lred f) s e r { e.put r (fun _ => z) with ex := ex } e.hw) ∧
  (∀ f s e, Issues Forms.scan f s e → RoomD e (regsF Forms.scan f) →
    let r := regsF Forms.scan f
    let w := Ty.width f.ty
    let o := bits 2 0 f.b.toNat
    let comb (j : Nat) (ls : List Nat) : Nat := match ls with
      | [] => combId o f.ty
      | l0 :: ls => ls.foldl (fun acc l => (combElem o f.ty f.op acc (subElem w j (e.va r l))).1) (subElem w j (e.va r l0))
    ∃ x ex, (∀ l j, l < 32 → inLanes e.act l = true → j < 64 / w → subElem w j (x l) = canon f.ty (comb j
        (e.acts.filter fun m => if bit 3 f.b.toNat then decide (m < l) else decide (m ≤ l))) % 2 ^ w) ∧
      (Ty.isFloat f.ty = false → ∀ y ∈ ex, y.2 = 0) ∧ Retires (.scan f) s e r { e.put r x with ex := ex } e.hw) ∧
  ByLaneP Forms.compact .compact (fun f e r l x =>
    let picked (m : Nat) : Bool := inLanes e.act m && e.reg r.sh.b r.b m != 0
    let rank := (e.acts.filter fun m => decide (m < l)).length
    (∀ m, m < 32 → picked m = true → (e.acts.filter fun k => decide (k < m) && picked k).length = rank → x = e.va r m) ∧
      ((e.acts.filter picked).length ≤ rank → x = if f.op = 1 then e.vd r l else 0)) ∧
  (∀ f s e, f.ty ∈ Forms.isect.tys → Issues Forms.isect f s e →
    let r := regsF Forms.isect f
    let w := Ty.width f.ty
    let n := 64 / w
    let pad := 2 ^ w - 1
    let here (p : Nat) : Prop := p < 32 * n ∧ inLanes e.act (p / n) = true
    let b (p : Nat) : Nat := subElem w (p % n) (e.reg r.sh.b r.b (p / n))
    Room e r { v := e.acts.map fun l => (32 * r.d + l, 0), s := [(r.c, 0)] } e.hw →
    ∃ x : Nat → Word, (∀ l j, l < 32 → inLanes e.act l = true → j < n →
        let k := subElem w j (e.va r l)
        (k = pad → subElem w j (x l) = pad) ∧
        (k ≠ pad → (∀ p, here p → b p ≠ k) → subElem w j (x l) = pad) ∧
        (∀ p, k ≠ pad → here p → b p = k → (∀ p', p' < p → here p' → b p' ≠ k) → subElem w j (x l) = p)) ∧
      Retires (.isect f) s e r { v := e.acts.map fun l => (32 * r.d + l, x l), s := [(r.c, word
        ((e.acts.map fun l => ((List.range n).filter fun j => subElem w j (x l) != pad).length).sum))] } e.hw)

/-! ## Registers -/

/-- Moves, literals, selects, and what special registers read (06_registers R134-R136, R138; 04_launch R89). Where the spec leaves it
open this rests on the model's choices (log 105). Writing %fexc takes bits [4:0] of each lane, %srng turns 0 into 1 (R132, R138); vrel
and vzero release what they name, nothing else (R137). -/
def Obligations.RegisterMoves : Prop :=
  (ByLane Forms.mov .mov (fun _ e r l => e.va r l) ∧
   ByLane Forms.movs .movs (fun _ e r l => e.va r l) ∧
   CopiesS Forms.movS .movS ∧ CopiesS Forms.movsS .movsS ∧
   ByLane Forms.movl .movl (fun f _ _ _ => literalFor f.ty f.lit) ∧
   ByElement Forms.sel .sel (fun f x v => v = if (x.d ≠ 0) ↔ f.op ≠ 1 then x.a else x.b) ∧
   ByLane Forms.sread .sread (fun _ e r l => special e r.a l) ∧
   ByLane Forms.wid .wid (fun f e _ l => word (match f.op with
     | 0 => e.g.widOf l
     | 6 => widLin (e.hw.hdr e.g.launch) (e.g.widOf l)
     | 7 => (e.g.widOf l) % 32
     | k => widField (e.hw.hdr e.g.launch) k (e.g.widOf l)))) ∧
  ((∀ f s e, Issues Forms.swrite f s e → f.d.toNat = 0x30 → Room e (regsF Forms.swrite f) {} e.hw →
     ∃ t : Tab Nat, (∀ l, l < 32 → t.val 0 l = if inLanes e.act l then (e.va (regsF Forms.swrite f) l).toNat % 32 else e.g.fexc.val 0 l) ∧
       Retires (.swrite f) s e (regsF Forms.swrite f) {} (e.hw.setGang e.gk fun g => { g with fexc := t })) ∧
   (∀ f s e, Issues Forms.swrite f s e → f.d.toNat ≠ 0x30 → Room e (regsF Forms.swrite f) {} e.hw →
     Retires (.swrite f) s e (regsF Forms.swrite f) { rng := e.acts.map fun l =>
       (l, if e.va (regsF Forms.swrite f) l = 0 then 1 else e.va (regsF Forms.swrite f) l) } e.hw) ∧
   (∀ f s e, env s = some e → e.badPlace f.len false f.fsel.toNat = false → e.act ≠ 0 →
     let r := { regsF Forms.vrel f with sh := {}, lua := false, lub := false, lud := false }
     ((regsF Forms.vrel f).sh.a ≠ .s → Room e r { relV := [f.a.toNat] } e.hw → Retires (.vrel f) s e r { relV := [f.a.toNat] } e.hw) ∧
     ((regsF Forms.vrel f).sh.a = .s → Room e r {} (releaseS e.hw e.gk e.p f.a.toNat) →
       Retires (.vrel f) s e r {} (releaseS e.hw e.gk e.p f.a.toNat))) ∧
   (∀ f s e, env s = some e → e.badPlace f.len false f.fsel.toNat = false → e.act ≠ 0 →
     let r := { regsF Forms.vzero f with sh := {}, lua := false, lub := false, lud := false }
     let ns := (dedup (liveV e.g ++ awaitedV e.hw e.gk e.g)).filter fun n => decide (f.d.toNat ≤ n) && decide (n ≤ f.a.toNat)
     Room e r { relV := ns } e.hw → Retires (.vzero f) s e r { relV := ns } e.hw))

/-! ## Control flow -/

/-- A header whose WAIT flags are all zero begins its clause, with its end, its flags and its stall; one with a WAIT flag that is
counting does not (02_formats R37, R38, R41, R45). Where the spec leaves it open this rests on the model's choices (log 12, 15, 16). -/
def Obligations.ClauseBegins : Prop :=
  ∀ h s e, env s = some e → e.q.cl.inside = false → e.q.folded = false → headIllegal h = false →
    ((∀ k, k < 12 → h.wait.getLsbD k = true → flagCount e.hw.ops e.gk k = 0) →
      (h.rejoin = true → ∀ x ∈ e.g.paths, x.1 = e.p ∨ mergeable e.q x.2 = false) →
      ∃ t g' q', exec (.beginClause h) s = .next t ∧ t.mem = s.mem ∧ t.time = s.time ∧ OnlyGang e.gk s.hw t.hw ∧ t.hw.ops = s.hw.ops ∧
        t.hw.gangs.look e.gk = some g' ∧ g'.vregs = e.g.vregs ∧ g'.nest = e.g.nest ∧ (∀ p, p ≠ e.p → g'.paths.look p = e.g.paths.look p) ∧
        g'.paths.look e.p = some q' ∧ q'.pc = e.q.pc + 8 ∧ q'.mask = e.q.mask ∧ q'.sregs = e.q.sregs ∧ q'.depth = e.q.depth ∧
        q'.stallTo = coreCycles s.hw e.core s.time + h.stall.toNat ∧
        q'.cl = { inside := 1 < h.clen.toNat, sync := (s.hw.core e.core).syncs.length, fin := e.q.pc + word (8 * h.clen.toNat)
                  seta := h.seta.toNat, setb := h.setb.toNat, yld := h.yld }) ∧
    ((∃ k, k < 12 ∧ h.wait.getLsbD k = true ∧ flagCount e.hw.ops e.gk k ≠ 0) → Holds (.beginClause h) s)

/-- nop and yield only move on (R98). -/
def Obligations.PlainFlow : Prop :=
  (∀ f s e, env s = some e → e.badPlace 4 false 0 = false → Room e (regsS Forms.nop f) {} e.hw →
    Retires (.nop f) s e (regsS Forms.nop f) {} e.hw) ∧
  (∀ f s e, env s = some e → e.badPlace 4 false 0 = false → Room e (regsS Forms.yld f) {} e.hw →
    Retires (.yield f) s e (regsS Forms.yld f) {} e.hw)

/-- if turns off the lanes whose condition fails and goes to its target when none is left; else exchanges the lanes of its own level; endif
lowers every nesting counter of its lanes that is not zero (R101). -/
def Obligations.IfElse : Prop :=
  (∀ f s e, IssuesC Forms.ifOp f s e → (∀ l, l < 32 → inLanes e.grp l = true → nestOf e.g l ≠ 63) →
    let r := regsF Forms.ifOp f
    let cnt (l : Nat) : Nat := if inLanes e.grp l then
      (if 0 < nestOf e.g l then nestOf e.g l + 1 else if cond e r f.op l then 0 else 1) else nestOf e.g l
    ((∃ l, l < 32 ∧ inLanes e.grp l = true ∧ cnt l = 0) → Flows (.ifOp f) s e r {} cnt (e.clauseEnd r.len)) ∧
    ((∀ l, l < 32 → inLanes e.grp l = true → cnt l ≠ 0) → badTarget (e.target f.lit) e.act = none →
      Flows (.ifOp f) s e r {} cnt (e.target f.lit))) ∧
  (∀ f s e, IssuesC Forms.elseOp f s e →
    let r := regsF Forms.elseOp f
    let cnt (l : Nat) : Nat := if inLanes e.grp l then
      (if nestOf e.g l = 0 then 1 else if nestOf e.g l = 1 then 0 else nestOf e.g l) else nestOf e.g l
    ((∃ l, l < 32 ∧ inLanes e.grp l = true ∧ cnt l = 0) → Flows (.elseOp f) s e r {} cnt (e.clauseEnd r.len)) ∧
    ((∀ l, l < 32 → inLanes e.grp l = true → cnt l ≠ 0) → badTarget (e.target f.lit) e.act = none →
      Flows (.elseOp f) s e r {} cnt (e.target f.lit))) ∧
  (∀ f s e, IssuesC Forms.ifOp f s e → (∃ l, l < 32 ∧ inLanes e.grp l = true ∧ nestOf e.g l = 63) →
    ∃ hit, Traps (.ifOp f) s e { cause := 0x0B, hit := hit } ∧ ∀ l, inLanes hit l = (inLanes e.grp l && nestOf e.g l == 63)) ∧
  (∀ f s e, env s = some e → e.badPlace 4 false 0 = false →
    ∃ t : Tab Nat, (∀ l, t.val 0 l = if inLanes e.grp l then nestOf e.g l - 1 else nestOf e.g l) ∧
      (Room e (regsS Forms.endif f) {} (e.nested t) → Retires (.endif f) s e (regsS Forms.endif f) {} (e.nested t)))

/-- Entering, leaving, continuing and closing loops, with and without a count; loop, break and cont trap where a counter would pass 63
(R102). -/
def Obligations.Loops : Prop :=
  (∀ f s e, IssuesC Forms.loop f s e → e.act ≠ 0 → (∀ l, l < 32 → inLanes e.grp l = true → nestOf e.g l ≤ 61) →
    Flows (.loop f) s e (regsF Forms.loop f) {} (fun l => if inLanes e.grp l && decide (0 < nestOf e.g l) then nestOf e.g l + 2
      else nestOf e.g l) (e.clauseEnd (regsF Forms.loop f).len)) ∧
  (∀ f s e, IssuesC Forms.breakOp f s e → f.lit % 64 + 2 ≤ 63 →
    Flows (.breakOp f) s e (regsF Forms.breakOp f) {} (fun l => if inLanes e.act l && cond e (regsF Forms.breakOp f) f.op l then f.lit % 64 + 2
      else nestOf e.g l) (e.clauseEnd (regsF Forms.breakOp f).len)) ∧
  (∀ f s e, IssuesC Forms.cont f s e → f.lit % 64 + 1 ≤ 63 →
    Flows (.cont f) s e (regsF Forms.cont f) {} (fun l => if inLanes e.act l && cond e (regsF Forms.cont f) f.op l then f.lit % 64 + 1
      else nestOf e.g l) (e.clauseEnd (regsF Forms.cont f).len)) ∧
  (∀ f s e, IssuesC Forms.endloop f s e →
    let r := regsF Forms.endloop f
    ((∃ l, l < 32 ∧ inLanes e.grp l = true ∧ nestOf e.g l ≤ 1) → badTarget (e.target f.lit) e.act = none →
      Flows (.endloop f) s e r {} (fun l => if inLanes e.grp l && nestOf e.g l == 1 then 0 else nestOf e.g l) (e.target f.lit)) ∧
    ((∀ l, l < 32 → inLanes e.grp l = true → 2 ≤ nestOf e.g l) →
      Flows (.endloop f) s e r {} (fun l => if inLanes e.grp l then nestOf e.g l - 2 else nestOf e.g l) (e.clauseEnd r.len))) ∧
  (∀ f s e, IssuesC Forms.loopn f s e →
    let r := regsF Forms.loopn f
    let live (l : Nat) : Bool := inLanes e.grp l && decide (nestOf e.g l ≤ 1)
    let leave (l : Nat) : Bool := if r.sh.a = .v then decide ((e.g.v r.a l).toNat ≤ 1) else decide ((e.q.sr r.a).toNat ≤ 1)
    let cnt (l : Nat) : Nat := if live l then (if leave l then 2 else 0) else nestOf e.g l
    let w : Writes := if r.sh.a = .v then
        { v := ((lanes e.grp).filter live).map fun l => (32 * r.a + l, if leave l then 0 else e.g.v r.a l - 1) }
      else if (lanes e.grp).any live then { s := [(r.a, if leave 0 then 0 else e.q.sr r.a - 1)] } else {}
    (r.sh.a = .v → ∀ l, l < 32 → live l = true → vPending e.hw.ops e.gk r.a l = false) →
    ((∃ l, l < 32 ∧ live l = true ∧ leave l = false) → badTarget (e.target f.lit) e.act = none →
      Flows (.loopn f) s e r w cnt (e.target f.lit)) ∧
    ((∀ l, l < 32 → live l = true → leave l = true) →
      Flows (.loopn f) s e r w (fun l => if inLanes e.grp l then cnt l - 2 else nestOf e.g l) (e.clauseEnd r.len))) ∧
  (∀ f s e, IssuesC Forms.loop f s e →
    let r := regsF Forms.loop f
    (e.act = 0 → badTarget (e.target f.lit) e.act = none → Room e r {} (e.goto (e.target f.lit) id e.hw) →
      Transfers (.loop f) s e r {} (e.target f.lit) id e.hw) ∧
    (e.act ≠ 0 → (∃ l, l < 32 ∧ inLanes e.grp l = true ∧ 61 < nestOf e.g l) →
      ∃ hit, Traps (.loop f) s e { cause := 0x0B, hit := hit } ∧ ∀ l, inLanes hit l = (inLanes e.grp l && decide (61 < nestOf e.g l)))) ∧
  (∀ f s e, IssuesC Forms.breakOp f s e → 63 < f.lit % 64 + 2 → Traps (.breakOp f) s e { cause := 0x0B, hit := e.act }) ∧
  (∀ f s e, IssuesC Forms.cont f s e → 63 < f.lit % 64 + 1 → Traps (.cont f) s e { cause := 0x0B, hit := e.act })

/-- Uniform branches, calls and returns transfer the whole path; a call writes the clause end to its link register, raises DEPTH by one
and traps past 63, and a return lowers it (R105, R106). Where the spec leaves it open this rests on the model's choices (log 13, 18). A
target that is not 8-byte aligned raises cause 0x08, one past 2^57 cause 0x07, with no other effect (R38, R100, R106). -/
def Obligations.CallsReturns : Prop :=
  ((∀ f s e, IssuesC Forms.brs f s e →
     let r := regsF Forms.brs f
     (cond e r f.op 0 = true → badTarget (e.target f.lit) e.act = none → Room e r {} (e.goto (e.target f.lit) id e.hw) →
       Transfers (.brs f) s e r {} (e.target f.lit) id e.hw) ∧
     (cond e r f.op 0 = false → Room e r {} (e.goto (e.clauseEnd r.len) id e.hw) →
       Transfers (.brs f) s e r {} (e.clauseEnd r.len) id e.hw)) ∧
   (∀ f s e, IssuesC Forms.call f s e → e.act ≠ 0 →
     let r := regsF Forms.call f
     let w : Writes := { s := [(r.d, e.clauseEnd r.len)] }
     (badTarget (e.target f.lit) e.act = none → e.deepest < 63 → Room e r w (e.goto (e.target f.lit) (· + 1) e.hw) →
       Transfers (.call f) s e r w (e.target f.lit) (· + 1) e.hw) ∧
     (badTarget (e.target f.lit) e.act = none → 63 ≤ e.deepest → Traps (.call f) s e { cause := 0x0B, hit := e.act })) ∧
   (∀ f s e, env s = some e → e.badPlace 4 true 0 = false → e.ready (regsS Forms.ret f) = true →
     let r := regsS Forms.ret f
     badTarget (e.sa r) e.act = none → Room e r {} (e.goto (e.sa r) (· - 1) e.hw) →
     Transfers (.ret f) s e r {} (e.sa r) (· - 1) e.hw) ∧
   (∀ f s e, IssuesC Forms.call f s e → e.act = 0 → Room e (regsF Forms.call f) {} (e.goto (e.clauseEnd (regsF Forms.call f).len) id e.hw) →
     Transfers (.call f) s e (regsF Forms.call f) {} (e.clauseEnd (regsF Forms.call f).len) id e.hw)) ∧
  ((∀ f s e, IssuesC Forms.brs f s e → cond e (regsF Forms.brs f) f.op 0 = true →
     ((e.target f.lit).toNat % 8 ≠ 0 → Traps (.brs f) s e { cause := 0x08, hit := e.act }) ∧
     ((e.target f.lit).toNat % 8 = 0 → 2 ^ 57 ≤ (e.target f.lit).toNat →
       Traps (.brs f) s e { cause := 0x07, info := 3, fault := (e.target f.lit).toNat, hit := e.act })) ∧
   (∀ f s e, env s = some e → e.badPlace 4 true 0 = false → e.ready (regsS Forms.ret f) = true →
     ((e.sa (regsS Forms.ret f)).toNat % 8 ≠ 0 → Traps (.ret f) s e { cause := 0x08, hit := e.act }) ∧
     ((e.sa (regsS Forms.ret f)).toNat % 8 = 0 → 2 ^ 57 ≤ (e.sa (regsS Forms.ret f)).toNat →
       Traps (.ret f) s e { cause := 0x07, info := 3, fault := (e.sa (regsS Forms.ret f)).toNat, hit := e.act })))

/-- Dividing a path that is not folded (R104): the group with its lowest lane keeps the entry; each other group is in the lowest free
entry left, in the order of the groups' lowest lanes, with its own lanes, PC and DEPTH, and nothing else of the gang changes. Where the
spec leaves it open this rests on the model's choices (log 17). Divergent forms divide the path into the groups their rules name: bra,
brx, callx and split (R104, R105, R107, R108). Where too few entries are free they fold the path, or trap. -/
def Obligations.PathDivision : Prop :=
  (∀ s e m1 m2 pc1 pc2 n rest h, env s = some e → e.q.folded = false → m1 ≠ 0 → m2 ≠ 0 → m1 &&& m2 = 0 → m1 ||| m2 = e.q.mask →
     inLanes m1 (lowLane e.q.mask) = true → freeEntries e.g = n :: rest →
     e.divide e.hw [⟨m1, pc1, 0, none⟩, ⟨m2, pc2, 0, none⟩] = .ok h →
     ∃ g' q1 q2, h.gangs.look e.gk = some g' ∧ g'.vregs = e.g.vregs ∧ g'.nest = e.g.nest ∧
       (∀ i, i ≠ e.p → i ≠ n → g'.paths.look i = e.g.paths.look i) ∧
       g'.paths.look e.p = some q1 ∧ q1.mask = m1 ∧ q1.pc = pc1 ∧ q1.state = .ready ∧ q1.cl = {} ∧ q1.sregs = e.q.sregs ∧ q1.depth = e.q.depth ∧
       g'.paths.look n = some q2 ∧ q2.mask = m2 ∧ q2.pc = pc2 ∧ q2.state = .ready ∧ q2.cl = {} ∧ q2.sregs = e.q.sregs ∧
       q2.depth = e.q.depth ∧ q2.parent = e.p) ∧
  ((∀ f s e, IssuesC Forms.bra f s e → badTarget (e.target f.lit) e.act = none →
     ∃ taken, (∀ l, inLanes taken l = (inLanes e.act l && cond e (regsF Forms.bra f) f.op l)) ∧
       Splits (.bra f) s e (regsF Forms.bra f)
         [⟨taken, e.target f.lit, 0, none⟩, ⟨e.grp &&& ~~~taken, e.clauseEnd (regsF Forms.bra f).len, 0, none⟩]) ∧
   (∀ f s e, IssuesC Forms.brx f s e →
     (∀ l, l < 32 → inLanes e.act l = true → (e.va (regsF Forms.brx f) l).toNat % 8 = 0 ∧ (e.va (regsF Forms.brx f) l).toNat < 2 ^ 57) →
     ∃ gs : List Group', (∀ x ∈ gs, x.up = 0 ∧ x.sw = none) ∧ ByTarget e (regsF Forms.brx f) gs ∧ Splits (.brx f) s e (regsF Forms.brx f) gs) ∧
   (∀ f s e, IssuesC Forms.callx f s e → e.deepest < 63 →
     (∀ l, l < 32 → inLanes e.act l = true → (e.va (regsF Forms.callx f) l).toNat % 8 = 0 ∧ (e.va (regsF Forms.callx f) l).toNat < 2 ^ 57) →
     let r := regsF Forms.callx f
     (allocate e.hw e.core e.ctx 0 (callEntries e r) [spillKeyS e.slot e.p (r.d / 32)]).isSome = true →
     ∃ gs : List Group', (∀ x ∈ gs, (x.up = 1 ∧ x.sw = some (r.d, e.clauseEnd r.len)) ∨ (x.up = 0 ∧ x.sw = none ∧ x.m &&& e.act = 0)) ∧
       ByTarget e r gs ∧ Splits (.callx f) s e r gs) ∧
   (∀ f s e, IssuesC Forms.callx f s e → 63 ≤ e.deepest → e.act ≠ 0 → xTrap e (regsF Forms.callx f) = none →
     Traps (.callx f) s e { cause := 0x0B, hit := e.act }) ∧
   (∀ f s e, IssuesC Forms.split f s e → e.act ≠ 0 →
     let key (l : Nat) : Nat := if f.op = 1 then l / 8 else (e.va (regsF Forms.split f) l).toNat % 16
     ∃ gs : List Group', (∀ x ∈ gs, x.pc = e.clauseEnd (regsF Forms.split f).len ∧ x.up = 0 ∧ x.sw = none) ∧
       (∀ x ∈ gs, ∃ l0, l0 < 32 ∧ inLanes e.act l0 = true ∧ ∀ l, inLanes x.m l = (inLanes e.grp l &&
         (if inLanes e.act l then key l == key l0 else key l0 == key (lowLane e.act)))) ∧
       (∀ l0, l0 < 32 → inLanes e.act l0 = true → ∃ x ∈ gs, inLanes x.m l0 = true) ∧
       Splits (.split f) s e (regsF Forms.split f) gs) ∧
   (∀ f s e, IssuesC Forms.split f s e → e.act = 0 →
     Splits (.split f) s e (regsF Forms.split f) [⟨e.grp, e.clauseEnd (regsF Forms.split f).len, 0, none⟩]))

/-- rejoin waits with its mask, and the waiting groups of the gang are evaluated: a mask of the path's own lanes lets it go on at once at the
clause end (R110, R111). exit ends its active lanes, and the rest go on at the clause end; without lanes left the entry is freed, and a gang
without paths ends (04_launch R90). Where the spec leaves it open this rests on the model's choices (log 17). -/
def Obligations.RejoinExit : Prop :=
  (∀ f s e i m, (i = Instr.rejoin f ∧ m = lanesOf (e.sa (regsF Forms.rejoin f)).toNat) ∨ (i = Instr.rejoinL f ∧ m = lanesOf f.lit) →
    IssuesC Forms.rejoin f s e → e.q.folded = false →
    let r := regsF Forms.rejoin f
    exec i s = .next (settleRejoin e.gk 40 (s.with (e.setPath (e.park r .rejoin .none e.hw) fun q => { q with wmask := m }))) ∧
    (e.q.mask ≠ 0 → m &&& ~~~e.q.mask = 0 → (∀ x ∈ e.g.paths, x.1 ≠ e.p → x.2.state ≠ .rejoin ∧ x.2.folded = false) → Tab.wf e.g.paths = true →
      ∃ t g' q', exec i s = .next t ∧ t.mem = s.mem ∧ t.time = s.time ∧ t.hw.gangs.look e.gk = some g' ∧ g'.vregs = e.g.vregs ∧
        g'.nest = e.g.nest ∧ (∀ k, k ≠ e.p → g'.paths.look k = e.g.paths.look k) ∧ g'.paths.look e.p = some q' ∧ q'.pc = e.clauseEnd r.len ∧
        q'.cl = {} ∧ q'.state = .ready ∧ q'.mask = e.q.mask ∧ q'.depth = e.q.depth ∧ q'.parent = e.q.parent ∧
        ∀ n, n ∉ r.relS → q'.sregs.look n = e.q.sregs.look n)) ∧
  (∀ f s e, env s = some e → e.badPlace 4 true 0 = false →
    let r := regsS Forms.exit f
    (e.act ≠ 0 → ∃ t, Transferred e r {} (e.clauseEnd 4) id e.hw t ∧ exec (.exit f) s = .next (endLanes t e.gk e.p e.act)) ∧
    (e.act = 0 → Transfers (.exit f) s e r {} (e.clauseEnd 4) id e.hw) ∧
    (e.act ≠ 0 → e.q.folded = false → e.q.state = .ready → (∀ x ∈ e.g.paths, x.2.state ≠ .rejoin ∧ x.2.folded = false) →
      (∀ b, s.hw.blocks.look e.g.block = some b → b.bar.arrived = [] ∧ ∀ x ∈ b.nbars, x.2.arrived = []) →
      ∃ t, exec (.exit f) s = .next t ∧ t.mem = s.mem ∧ t.time = s.time ∧ (∀ k, k ≠ e.gk → t.hw.gangs.look k = s.hw.gangs.look k) ∧
        (e.q.mask ≠ e.act → ∃ g' q', t.hw.gangs.look e.gk = some g' ∧ g'.exited = e.g.exited ||| e.act ∧ g'.vregs = e.g.vregs ∧
          (∀ k, k ≠ e.p → g'.paths.look k = e.g.paths.look k) ∧ g'.paths.look e.p = some q' ∧ q'.mask = e.q.mask &&& ~~~e.act ∧
          q'.pc = e.clauseEnd 4 ∧ q'.state = .ready ∧ q'.sregs = e.q.sregs) ∧
        (e.q.mask = e.act → (∃ x ∈ e.g.paths, x.1 ≠ e.p) → ∃ g', t.hw.gangs.look e.gk = some g' ∧ g'.exited = e.g.exited ||| e.act ∧
          g'.vregs = e.g.vregs ∧ ∀ k, g'.paths.look k = if k = e.p then none else e.g.paths.look k) ∧
        (e.q.mask = e.act → (∀ x ∈ e.g.paths, x.1 = e.p) → t.hw.gangs.look e.gk = none)))

/-! ## Scratchpad -/

/-- lds reads, ldc starts to read, each lane at its own address; a misaligned or out-of-bounds lane raises cause 0x08 or 0x05 at the
lowest such lane's address (11_scratchpad R209-R214). sts stores each lane's element, the highest lane's where several write; stc
starts to; satom and scas act lane by lane on what the lane before left (R212-R214; 14_atomics R278). Where the spec leaves it open
this rests on the model's choices (log 36, 38). -/
def Obligations.ScratchAccess : Prop :=
  ((∀ f s e, Issues Forms.lds f s e →
     let r := regsF Forms.lds f
     let n := Ty.width f.ty / 8
     let x := scrAddr e r f
     let y (l : Nat) : Nat := swz (x l) (rotOf f)
     (e.acquiring = false →
       (∀ l, l < 32 → inLanes e.act l = true → x l % n = 0 ∧ x l + n ≤ e.scrBytes ∧ unitBusy e.hw e.blk (y l) = false) →
       let hw := touchScr e.hw e.g.block (e.acts.map y) false
       let w := e.put r fun l => loadValue f.ty (scrRead (hw.blocks.val {} e.g.block) (y l) n)
       Room e r w hw → Retires (.lds f) s e r w hw) ∧
     (∀ l0, l0 < 32 → inLanes e.act l0 = true → x l0 % n ≠ 0 → (∀ l, l < l0 → inLanes e.act l = true → x l % n = 0) →
       ∃ hit, (∀ l, inLanes hit l = (inLanes e.act l && x l % n != 0)) ∧
         Traps (.lds f) s e { cause := 0x08, fault := scrFault (x l0), hit := hit }) ∧
     (∀ l0, l0 < 32 → inLanes e.act l0 = true → e.scrBytes < x l0 + n → (∀ l, l < 32 → inLanes e.act l = true → x l % n = 0) →
       (∀ l, l < l0 → inLanes e.act l = true → x l + n ≤ e.scrBytes) →
       ∃ hit, (∀ l, inLanes hit l = (inLanes e.act l && decide (e.scrBytes < x l + n))) ∧
         Traps (.lds f) s e { cause := 0x05, fault := scrFault (x l0), hit := hit })) ∧
   (∀ f s e, Issues Forms.ldc f s e →
     let r := regsF Forms.ldc f
     let n := Ty.width f.ty / 8
     let x := scrAddr e r f
     e.acquiring = false → (∀ l, l < 32 → inLanes e.act l = true → x l % n = 0 ∧ clusterOut e (x l) n = false) →
       ∃ todo : List (Nat × Nat × Nat), todo.Perm (e.acts.map fun l => (l, bits 26 19 (x l), swz (bits 18 0 (x l)) (rotOf f))) ∧
         todo.Pairwise (fun a b => a.2.1 ≤ b.2.1) ∧
         let w : Writes := { ops := [{ e.newOp r (.ldc todo [] f.ty) with dst := e.dest r }] }
         (Room e r w e.hw → Retires (.ldc f) s e r w e.hw)) ∧
   (∀ self hw bk ys write, NoCopies self hw bk → touchScrOf self hw bk ys write = hw)) ∧
  ((∀ f s e, Issues Forms.sts f s e →
     let r := regsF Forms.sts f
     let n := Ty.width f.ty / 8
     let y (l : Nat) : Nat := swz (scrAddr e r f l) (rotOf f)
     e.acquiring = false →
     (∀ l, l < 32 → inLanes e.act l = true → scrAddr e r f l % n = 0 ∧ scrAddr e r f l + n ≤ e.scrBytes ∧ unitBusy e.hw e.blk (y l) = false) →
       let hw := touchScr e.hw e.g.block (e.acts.map y) true
       ∀ b, hw.blocks.look e.g.block = some b →
         ∃ scr t, Stored b.scr scr (e.acts.map fun l => (y l, toBytes n (e.vd r l).toNat)) ∧
           Retired e r {} (hw.setBlock e.g.block fun b => { b with scr := scr }) t ∧ exec (.sts f) s = .next (wakeBarw t e.g.block)) ∧
   (∀ f s e, Issues Forms.stc f s e →
     let r := regsF Forms.stc f
     let n := Ty.width f.ty / 8
     let x := scrAddr e r f
     e.acquiring = false → (∀ l, l < 32 → inLanes e.act l = true → x l % n = 0 ∧ clusterOut e (x l) n = false) →
       ∃ todo : List (Nat × Nat × Nat × Word),
         todo.Perm (e.acts.map fun l => (l, bits 26 19 (x l), swz (bits 18 0 (x l)) (rotOf f), e.vd r l)) ∧
         todo.Pairwise (fun a b => a.2.1 ≤ b.2.1) ∧
         let w : Writes := { ops := [e.newOp r (.stc todo n)] }
         (Room e r w e.hw → Retires (.stc f) s e r w e.hw)) ∧
   (∀ (fm : Form) (con : Fields → Instr) (g : Fields → Env → Regs → Nat → Nat → Option Nat),
     (fm = Forms.satom ∧ con = Instr.satom ∧ g = (fun f e r l old => some (atomNew (Forms.satomOp f) f.ty old ((e.vd r l).toNat % 2 ^ Ty.width f.ty)))) ∨
       (fm = Forms.scas ∧ con = Instr.scas ∧ g = (fun f e r l old => if old = (e.vd r l).toNat % 2 ^ Ty.width f.ty
         then some ((e.vc r l).toNat % 2 ^ Ty.width f.ty) else none)) →
     ∀ f s e, Issues fm f s e →
       let r := regsF fm f
       let n := Ty.width f.ty / 8
       let y (l : Nat) : Nat := swz (scrAddr e r f l) (rotOf f)
       e.acquiring = false →
       (∀ l, l < 32 → inLanes e.act l = true → scrAddr e r f l % n = 0 ∧ scrAddr e r f l + n ≤ e.scrBytes ∧ unitBusy e.hw e.blk (y l) = false) →
         let hw := touchScr e.hw e.g.block (e.acts.map y) true
         Room e r { v := e.acts.map fun l => (32 * r.d + l, 0) } hw →
         ∃ (b : Nat → Block) (t : State), b 0 = hw.blocks.val {} e.g.block ∧
           (∀ i l, e.acts[i]? = some l → b (i + 1) = match g f e r l (scrRead (b i) (y l) n) with
             | some v => scrStore (b i) (y l) (toBytes n v)
             | none => b i) ∧
           Retired e r { v := e.acts.mapIdx fun i l => (32 * r.d + l, loadValue f.ty (scrRead (b i) (y l) n)) }
             (hw.setBlock e.g.block fun _ => b e.acts.length) t ∧
           exec (con f) s = .next (wakeBarw t e.g.block)))

/-- scopy and sfill start a background copy; its end stores what its source held, byte by byte; a cluster access is performed at its
target block, the block of the lowest rank it has still to reach (R215-R218). Where the spec leaves it open this rests on the model's choices (log 36, 37). -/
def Obligations.ScratchCopies : Prop :=
  (∀ f s e, Issues Forms.scopy f s e →
    let r := regsF Forms.scopy f
    let d := (e.sd r).toNat
    let a := (e.sa r).toNat
    let n := (e.sb r).toNat
    let op := e.newOp r (.scopy e.g.block (some (a, bits 5 3 f.imm)) (e.sa r) d (bits 2 0 f.imm) n [] [])
    d + n ≤ e.scrBytes → a + n ≤ e.scrBytes → n ≠ 0 → e.acquiring = false → copiesOn e.hw e.core < 32 →
    (∀ y ∈ rotated d (bits 2 0 f.imm) n ++ rotated a (bits 5 3 f.imm) n, unitBusy e.hw e.blk y = false) →
    (bits 2 0 f.imm = 0 ∧ bits 5 3 f.imm = 0 ∨ d % 16 = 0 ∧ a % 16 = 0 ∧ n % 16 = 0) → Room e r { ops := [op] } e.hw →
    Retires (.scopy f) s e r { ops := [op] } e.hw) ∧
  (∀ f s e, Issues Forms.sfill f s e →
    let r := regsF Forms.sfill f
    let d := (e.sd r).toNat
    let n := (e.sb r).toNat
    let op := e.newOp r (.scopy e.g.block none (e.sa r) d (bits 2 0 f.imm) n [] [])
    d + n ≤ e.scrBytes → n ≠ 0 → e.acquiring = false → copiesOn e.hw e.core < 32 →
    (∀ y ∈ rotated d (bits 2 0 f.imm) n, unitBusy e.hw e.blk y = false) →
    (bits 2 0 f.imm = 0 ∧ bits 5 3 f.imm = 0 ∨ d % 16 = 0 ∧ n % 16 = 0) → Room e r { ops := [op] } e.hw →
    Retires (.sfill f) s e r { ops := [op] } e.hw) ∧
  (∀ id s o blk src fill dst kd len cap wrote b, s.hw.op id = some o → o.kind = .scopy blk src fill dst kd len cap wrote →
    s.hw.blocks.look blk = some b →
    let from' := match src with
      | some (a, ks) => rotated a ks len
      | none => []
    (∀ y ∈ rotated dst kd len ++ from', unitBusy s.hw b y = false) →
    let h := touchScrOf id (touchScrOf id s.hw blk from' false) blk (rotated dst kd len) true
    ∀ b1, h.blocks.look blk = some b1 → h.op id = some o →
    ∃ scr h1, Stored b1.scr scr (((List.range len).filter fun i => !wrote.contains (swz (dst + i) kd / 4)).map fun i =>
        (swz (dst + i) kd, [copySrc b1 src fill dst i cap])) ∧ SameButLogs h h1 ∧
      exec (.scopyComplete id) s =
        .next (reopen (wakeBarw (landOp (s.with (h1.setBlock blk fun b => { b with scr := scr })) o fun _ => 0) blk) o.block)) ∧
  (∀ id s o b0 rank bk b, s.hw.op id = some o → s.hw.blocks.look o.block = some b0 →
    nextRank o.kind = some rank → groupBlock s.hw b0 rank = some bk → s.hw.blocks.look bk = some b →
    (∀ x ∈ s.hw.ops, x.id ∈ o.after → x.id ≠ id → reaches x.kind rank = false) → runsOn s.hw b.core b.ctx = true →
    (∀ todo got ty, o.kind = .ldc todo got ty → (∀ x ∈ todo, x.2.1 = rank → unitBusy s.hw b x.2.2 = false) → (todo.map (·.1)).Nodup →
      let h := touchScr s.hw bk ((todo.filter fun x => x.2.1 == rank).map (·.2.2)) false
      ∃ got' : Tab Word,
        (∀ x ∈ todo, x.2.1 = rank → got'.val 0 x.1 = loadValue ty (scrRead (h.blocks.val {} bk) x.2.2 (Ty.width ty / 8))) ∧
        (∀ l, (∀ x ∈ todo, x.2.1 = rank → x.1 ≠ l) → got'.val 0 l = got.val 0 l) ∧
        ((∃ x ∈ todo, x.2.1 ≠ rank) → exec (.ldcComplete id) s =
          .next (s.with (h.setOp id fun x => { x with kind := .ldc (todo.filter fun x => x.2.1 != rank) got' ty }))) ∧
        ((∀ x ∈ todo, x.2.1 = rank) → exec (.ldcComplete id) s = .next (reopen (landOp (s.with h) o fun l => got'.val 0 l) o.block))) ∧
    (∀ todo n, o.kind = .stc todo n → (∀ x ∈ todo, x.2.1 = rank → unitBusy s.hw b x.2.2.1 = false) →
      let h := touchScr s.hw bk ((todo.filter fun x => x.2.1 == rank).map (·.2.2.1)) true
      ∀ b1, h.blocks.look bk = some b1 →
      ∃ scr h1, Stored b1.scr scr ((todo.filter fun x => x.2.1 == rank).map fun x => (x.2.2.1, toBytes n x.2.2.2.toNat)) ∧ SameButLogs h h1 ∧
        let h' := h1.setBlock bk fun b => { b with scr := scr }
        ((∃ x ∈ todo, x.2.1 ≠ rank) → exec (.ldcComplete id) s =
          .next (wakeBarw (s.with (h'.setOp id fun x => { x with kind := .stc (todo.filter fun x => x.2.1 != rank) n })) bk)) ∧
        ((∀ x ∈ todo, x.2.1 = rank) → exec (.ldcComplete id) s =
          .next (reopen (wakeBarw (landOp (s.with h') o fun _ => 0) bk) o.block))))

/-! ## Global memory -/

/-- Loads, stores, gathers and scatters whose checks pass start an operation that holds each lane's element; prefetches write no register; a
reply performs a load's device elements at once and ends it (12_handles R225-R235, 13_consistency R247). Where the spec leaves it open this rests on the model's choices (log 9, 25). -/
def Obligations.GlobalAccess : Prop :=
  (∀ (fm : Form) (con : Fields → Instr) (refs : Env → Regs → Fields → List Ref),
    (fm = Forms.ld ∧ con = Instr.ld ∧ refs = (fun e r f => e.refs r f r.b)) ∨
      (fm = Forms.gath ∧ con = Instr.gath ∧ refs = (fun e r f => e.gathRefs r f)) →
    ∀ f s e, Issues fm f s e → e.tableFull = false →
      let r := regsF fm f
      let n : Need := { spaces := fun sp => sp != 4 && (r.fsel == 0 || sp == 0), r := true, width := Ty.width f.ty / 8, rd := true }
      (∀ es hw, e.check n (r.sh.d == .s) (refs e r f) = .ok es hw →
        Starts (con f) s e r { e.newOp r (.load (es.map fun x => { x with w := e.now + 1 }) f.ty) with entry := true, dst := e.dest r }
          (r.fsel == 0) (hw.setCore e.core fun c => { c with wtPeak := Nat.max c.wtPeak (waitEntries hw e.core + 1) })) ∧
      (∀ t, e.check n (r.sh.d == .s) (refs e r f) = .stop (.trap t) → Traps (con f) s e t)) ∧
  (∀ (fm : Form) (con : Fields → Instr) (refs : Env → Regs → Fields → List Ref),
    (fm = Forms.st ∧ con = Instr.st ∧ refs = (fun e r f => e.refs r f r.b)) ∨
      (fm = Forms.scat ∧ con = Instr.scat ∧ refs = (fun e r f => e.gathRefs r f)) →
    ∀ f s e, Issues fm f s e → e.counterFull = false →
      let r := regsF fm f
      let n := Ty.width f.ty / 8
      let need : Need := { spaces := fun _ => true, w := true, width := n, wr := true }
      (∀ es hw, e.check need (r.sh.d == .s) (refs e r f) = .ok es hw →
        let op := { e.newOp r (.store (lastWriters (es.map fun x => { x with val := word ((e.vd r x.lane).toNat % 2 ^ (8 * n)) })) n)
          with counts := true, id := hw.nextId }
        Room e r { ops := [op] } hw → Retires (con f) s e r { ops := [op] } hw) ∧
      (∀ t, e.check need (r.sh.d == .s) (refs e r f) = .stop (.trap t) → Traps (con f) s e t)) ∧
  (∀ f s e, Issues Forms.pref f s e →
    let h := e.prefetch f (regsF Forms.pref f)
    h = { e.hw with parts := h.parts, free := h.free } ∧ (∀ p, (h.part p).pend = (e.hw.part p).pend) ∧
      Retires (.pref f) s e (regsF Forms.pref f) {} h) ∧
  (∀ id sel data s o es ty, s.hw.op id = some o → o.kind = .load es ty → o.chain = none →
    (∀ x ∈ es, x.st = 0 ∧ x.tgt.space = 0 ∧ inLanes sel x.lane = true ∧ clear s.hw o x (Ty.width ty / 8) true = true) →
    ∃ h o' v, exec (.loadReply id sel data) s = .next (landOp (s.with h) o' v) ∧ o'.id = o.id ∧ o'.gk = o.gk ∧ o'.dst = o.dst ∧
      h.gangs = s.hw.gangs ∧ h.blocks = s.hw.blocks ∧ h.sent = s.hw.sent ∧ h.ops.map (·.id) = s.hw.ops.map (·.id) ∧
      (∀ p, (h.part p).pend = (s.hw.part p).pend) ∧
      ∀ l x, es.find? (fun x => x.lane == l) = some x → v l = loadValue ty (rdNat s.mem o.part x.tgt.pa (Ty.width ty / 8)))

/-- The first of the seven orders of R226 that some lane meets gives the cause, and the lanes that meet it the hit mask. Where the spec leaves it open this rests on the model's choices (log 92). -/
def Obligations.AccessOrder : Prop :=
  (∀ (e : Env) n scalar refs k, k < 9 →
    let cs := (laneChecks e.hw e.s.mem e.part e.ctx n refs).1
    (∃ x ∈ cs, ∃ b, x.2.bad = some b ∧ b.1 = k) → (∀ x ∈ cs, ∀ b, x.2.bad = some b → k ≤ b.1) →
    ∃ info fault hit, e.check n scalar refs = .stop (.trap { cause := orderCause k, info := info, fault := fault, hit := hit }) ∧
      (scalar = true → hit = e.act) ∧
      (scalar = false → ∀ l, l < 32 → (inLanes hit l = true ↔ ∃ x ∈ cs, x.1.lane = l ∧ ∃ b, x.2.bad = some b ∧ b.1 = k))) ∧
  (∀ hw m p c n x, handleBad hw p c x.h n (readHandle hw m p c x.h) = true →
    (laneCheck hw m p c n x).1.bad = some (1, 0, handleFault x.h x.o)) ∧
  (∀ hw m p c n x, handleBad hw p c x.h n (readHandle hw m p c x.h) = false → (readHandle hw m p c x.h).len < x.o + n.width →
    (laneCheck hw m p c n x).1.bad = some (2, 0, handleFault x.h x.o)) ∧
  (∀ hw m p c n x, handleBad hw p c x.h n (readHandle hw m p c x.h) = false → x.o + n.width ≤ (readHandle hw m p c x.h).len →
    ((readHandle hw m p c x.h).base + x.o) % n.width ≠ 0 →
    (laneCheck hw m p c n x).1.bad = some (3, 0, (readHandle hw m p c x.h).base + x.o))

/-- Handle entries are read and written whole; a translation answers its page or its cause; a range flush and an invalidation wait for
what they cover (12_handles R236-R245). Where the spec leaves it open this rests on the model's choices (log 25, 26, 27, 28, 32). -/
def Obligations.HandlesTranslation : Prop :=
  (∀ f s e, Issues Forms.hget f s e →
    let r := regsF Forms.hget f
    ∀ a, badBits e r = false → (e.sup = true ∨ bits 31 16 (e.sa r).toNat = e.ctx) → entryOf e r f.op = some a →
      Room e r (putS r (rdNat s.mem e.part a 8)) e.hw → Retires (.hget f) s e r (putS r (rdNat s.mem e.part a 8)) e.hw) ∧
  (∀ f s e, Issues Forms.hset f s e →
    let r := regsF Forms.hset f
    (badBits e r = true ∨ entryOf e r f.op = none → Traps (.hset f) s e { cause := 0x06, fault := (e.sa r).toNat, hit := e.act }) ∧
    ∀ a, badBits e r = false → entryOf e r f.op = some a →
      Parks (.hset f) s e r .parked (.table a (e.sb r) (assignW (e.hw.part e.part) (lineOf a) s.time)) (snoop e.hw e.part a)) ∧
  (∀ q s e a v t, envAt s q = some e → e.q.wait = .table a v t → runsOn s.hw e.core e.ctx = true →
    (s.time < t ∨ s.time < (s.hw.part e.part).leases.val 0 (lineOf a) + 2 → Holds (.fenceRetire q) s) ∧
    (t ≤ s.time → (s.hw.part e.part).leases.val 0 (lineOf a) + 2 ≤ s.time → lineBlocked s.hw e.part a = false →
      (∀ w ∈ (s.hw.part e.part).pend, lineOf w.addr ≠ lineOf a) → ∃ t', exec (.fenceRetire q) s = .next t' ∧
        ∀ p x, rdByte t'.mem p x = if p = e.part ∧ a ≤ x ∧ x < a + 8 then (toBytes 8 v.toNat).getD (x - a) 0 else rdByte s.mem p x)) ∧
  (∀ f s e, Issues Forms.xlat f s e →
    let r := regsF Forms.xlat f
    let c := (e.sa r).toNat
    (65536 ≤ c → ∀ i, i = Instr.xlat f ∨ i = .xlatInv f ∨ i = .xlatAll f →
      Traps i s e { cause := 0x06, fault := (e.sa r).toNat, hit := e.act }) ∧
    (c < 65536 → ¬ e.answered → Asks (.xlat f) s e r true) ∧
    (c < 65536 → e.answered →
    (e.hw.ctx e.part c = none → Room e r (putS r (2 ^ 63 + 0x06)) e.hw → Retires (.xlat f) s e r (putS r (2 ^ 63 + 0x06)) e.hw) ∧
    (∀ x l hw, e.hw.ctx e.part c = some x → translate e.hw s.mem e.part c (e.sb r).toNat = (.error l, hw) →
      Room e r (putS r (2 ^ 63 + l * 2 ^ 8 + 0x07)) hw → Retires (.xlat f) s e r (putS r (2 ^ 63 + l * 2 ^ 8 + 0x07)) hw) ∧
    (∀ x t hw, e.hw.ctx e.part c = some x → translate e.hw s.mem e.part c (e.sb r).toNat = (.ok t, hw) →
      let v := t.kind * 2 ^ 59 + b2n t.x * 2 ^ 58 + b2n t.a * 2 ^ 57 + b2n t.w * 2 ^ 56 + b2n t.r * 2 ^ 55 + t.level * 2 ^ 53 + t.pa
      Room e r (putS r v) hw → Retires (.xlat f) s e r (putS r v) hw)) ∧
    (∀ (i : Instr) (va : Option Nat), (i = .xlatInv f ∧ va = some (e.sb r).toNat) ∨ (i = .xlatAll f ∧ va = none) → c < 65536 →
      e.tableFull = false →
      (e.hw.ctx e.part c = none → Room e r (putS r e.now) e.hw → Retires i s e r (putS r e.now) e.hw) ∧
      (∀ x, e.hw.ctx e.part c = some x → ∃ h : Hw, h = { e.hw with parts := h.parts, cores := h.cores } ∧
        (∀ k, h.core k = { e.hw.core k with wtPeak := (h.core k).wtPeak }) ∧ (∀ p, p ≠ e.part → h.part p = e.hw.part p) ∧
        (∀ k ys y, (h.part e.part).tcache.look k = some ys → y ∈ ys → invalidates c va k y = false) ∧
        ((∃ ids ps, (ids ≠ [] ∨ usesPages e.hw e.part c ps = true) ∧ Parks i s e r .parked (.drain ids c va ps r.d) h) ∨
          (Room e r (putS r e.now) h → Retires i s e r (putS r e.now) h))))) ∧
  (∀ fn ctx va s x, walk s.hw s.mem fn ctx va.toNat = .ok x →
    ¬ ((leafTrans x.leaf x.level va.toNat).kind = 0 ∧ partBytes s.hw fn ≤ (leafTrans x.leaf x.level va.toNat).pa) →
    ∃ t, exec (.pageWalk fn ctx va) s = .next t ∧ x ∈ (t.hw.part fn).tcache.val [] (tKey ctx va.toNat) ∧ t.mem = s.mem ∧
      t.hw.gangs = s.hw.gangs ∧ (∀ k, k ≠ tKey ctx va.toNat → (t.hw.part fn).tcache.look k = (s.hw.part fn).tcache.look k)) ∧
  (∀ f s e, env s = some e → e.badPlace 4 false 0 = false → e.ready (regsS Forms.icinv f) = true →
    let q := e.hw.part e.part
    let hw := e.hw.setCore e.core fun c => { c with syncs := ⟨q.landed, q.fenced⟩ :: c.syncs }
    Retires (.icinv f) s e (regsS Forms.icinv f) {} hw) ∧
  (∀ f s e, Issues Forms.hflush f s e → e.counterFull = false →
    let r := regsF Forms.hflush f
    let b := e.refBase f false r.b
    let n := (e.sa r).toNat
    let hd := readHandle e.hw s.mem e.part e.ctx b.1
    let bad := handleBad e.hw e.part e.ctx b.1 { spaces := fun sp => sp == 0 || sp == 1 || sp == 3, r := true, width := 1 } hd
    (bad = true → Traps (.hflush f) s e { cause := 0x06, fault := handleFault b.1 b.2.1, hit := e.act }) ∧
    (bad = false → hd.len < b.2.1 + n → Traps (.hflush f) s e { cause := 0x05, fault := handleFault b.1 b.2.1, hit := e.act }) ∧
    (bad = false → b.2.1 + n ≤ hd.len → n = 0 → Room e r (putS r 0) e.hw → Retires (.hflush f) s e r (putS r 0) e.hw) ∧
    (bad = false → b.2.1 + n ≤ hd.len → n ≠ 0 → ∀ spans skipped hw,
      flushSpans s.mem e.part e.ctx hd.space hd.tgt (hd.base + b.2.1 + n) (n / 65536 + 2) (hd.base + b.2.1) e.hw = (spans, skipped, hw) →
      let w : Writes := { ops := [{ e.newOp r (.hflush spans skipped) with counts := true, dst := e.dest r, id := hw.nextId }] }
      Room e r w hw → Retires (.hflush f) s e r w hw)) ∧
  (∀ id s o spans skipped, s.hw.op id = some o → o.kind = .hflush spans skipped → (∀ x ∈ spans, x.1.space = 0) →
    exec (.hflushComplete id) s = .next (landOp s o fun _ => word skipped))

/-! ## Order -/

/-- A write that reaches its home slice takes a W past the time, past every lease and past every W its line has given; its W returns
to the gang; the host's writes and reads of device memory (13_consistency R248, R255, R261; 19_links R365). Where the spec leaves it open this rests on the model's choices (log 9, 73). -/
def Obligations.WriteOrder : Prop :=
  (∀ q line t, t + 2 ≤ assignW q line t ∧ q.leases.val 0 line + 2 ≤ assignW q line t ∧
    ∀ p ∈ q.pend, orderUnit p.addr = line → p.w < assignW q line t) ∧
  (∀ id sel s o x n, s.hw.op id = some o → o.kind = .store [x] n → inLanes sel x.lane = true → x.st = 0 → x.tgt.space = 0 →
    clear s.hw o x n false = true → (s.hw.part o.part).link.hostLines.contains (lineOf x.tgt.pa) = false →
    lineHeld s.hw o.part (lineOf x.tgt.pa) o.id = false → (∀ cx, s.hw.ctx o.part o.ctx = some cx → cx.tail.en = false) →
    let w := assignW (s.hw.part o.part) (orderUnit x.tgt.pa) s.time
    ∃ t p o', exec (.writeArrival id sel) s = .next t ∧ (t.hw.part o.part).pend = (s.hw.part o.part).pend ++ [p] ∧ p.w = w ∧
      p.addr = x.tgt.pa ∧ p.bytes = toBytes n x.val.toNat ∧ p.gk = o.gk ∧ p.paths = o.paths ∧ t.mem = s.mem ∧ t.time = s.time ∧
      t.hw.gangs = s.hw.gangs ∧ t.hw.op id = some o' ∧ o'.kind = .store [{ x with st := 1, w := w }] n) ∧
  (∀ id s o es n g, s.hw.op id = some o → o.kind = .store es n → o.chain = none → (∀ x ∈ es, x.st = 1 ∧ x.tgt.space = 0) →
    s.hw.gangs.look o.gk = some g →
    ∃ h o' g', exec (.writeWReturn id) s = .next (landOp (s.with h) o' fun _ => 0) ∧ o'.id = o.id ∧ o'.gk = o.gk ∧
      h.gangs.look o.gk = some g' ∧ g'.paths = g.paths ∧ g'.vregs = g.vregs ∧ g.maxW ≤ g'.maxW ∧ (∀ x ∈ es, x.w ≤ g'.maxW) ∧
      (g'.maxW = g.maxW ∨ ∃ x ∈ es, g'.maxW = x.w)) ∧
  (∀ fn addr data cxl ro s, (s.hw.part fn).present = true → (s.hw.part fn).link.active = true →
    addr + data.length ≤ partBytes s.hw fn → (cxl = true → (s.hw.part fn).link.cxl = true) →
    ∃ t, exec (.hostWrite fn addr data cxl ro) s = .next t ∧ t.mem = s.mem ∧ t.time = s.time ∧ t.hw.gangs = s.hw.gangs ∧
      (∀ p, p ≠ fn → t.hw.part p = s.hw.part p) ∧
      (∀ a, latestByte t.mem (t.hw.part fn).pend fn a =
        if addr ≤ a ∧ a < addr + data.length then data.getD (a - addr) 0 else latestByte s.mem (s.hw.part fn).pend fn a) ∧
      ∃ l, (t.hw.part fn).pend = (s.hw.part fn).pend ++ l ∧ ∀ p ∈ l, s.time + 2 ≤ p.w ∧
        p.w ≤ (t.hw.part fn).hostAll ∧
        (ro = false ∨ cxl = true → (s.hw.part fn).hostAll ≤ p.w ∧ p.w ≤ (t.hw.part fn).hostW)) ∧
  (∀ fn addr len s, (s.hw.part fn).present = true → (s.hw.part fn).link.active = true → addr + len ≤ partBytes s.hw fn →
    (s.hw.part fn).hostAll ≤ s.time →
    ∃ t, exec (.hostRead fn addr len false false) s = .next t ∧ t.mem = s.mem ∧ t.hw.gangs = s.hw.gangs ∧
      t.hw.sent = s.hw.sent ++ [⟨3, fn, addr :: (rdBytes s.mem fn addr len).map (·.toNat)⟩]) ∧
  (∀ fn addr len s, (s.hw.part fn).present = true → (s.hw.part fn).link.active = true → addr + len ≤ partBytes s.hw fn →
    (s.hw.part fn).hostAll ≤ s.time → (s.hw.part fn).link.cxl = true →
    ∃ t, exec (.hostRead fn addr len true false) s = .next t ∧ t.mem = s.mem ∧
      t.hw.sent = s.hw.sent ++ [⟨3, fn, addr :: (rdBytes s.mem fn addr len).map (·.toNat)⟩] ∧
      (∀ a, addr ≤ a → a < addr + len → lineOf a ∈ (t.hw.part fn).link.hostLines) ∧
      (∀ l, l ∈ (s.hw.part fn).link.hostLines → l ∈ (t.hw.part fn).link.hostLines)) ∧
  (∀ fn line data s, line ∈ (s.hw.part fn).link.hostLines → data.length ≤ 128 →
    (∀ o ∈ s.hw.ops, o.part = fn → ∀ x ∈ o.kind.elems, x.st ≠ 4) → (∀ w ∈ (s.hw.part fn).pend, w.blocked = false) →
    (∀ o ∈ s.hw.ops, o.part = fn → ∀ x a b c, o.kind ≠ .partialSum x a b c true) →
    ∃ t, exec (.backInvalidateResponse fn line data) s = .next t ∧ t.mem = s.mem ∧ line ∉ (t.hw.part fn).link.hostLines ∧
      (∀ l, l ≠ line → (l ∈ (t.hw.part fn).link.hostLines ↔ l ∈ (s.hw.part fn).link.hostLines)) ∧
      ∀ a, latestByte t.mem (t.hw.part fn).pend fn a =
        if 128 * line ≤ a ∧ a < 128 * line + data.length then data.getD (a - 128 * line) 0
        else latestByte s.mem (s.hw.part fn).pend fn a) ∧
  (∀ hw p t, ∀ w' ∈ ((unblock hw p t).part p).pend, w' ∈ (hw.part p).pend ∨
    (t + 2 ≤ w'.w ∧ w'.blocked = false ∧ ∃ w ∈ (hw.part p).pend, w.blocked = true ∧ w'.addr = w.addr ∧ w'.bytes = w.bytes))

/-- When time passes, exactly the writes whose W has come become visible, in the order they took it; every other byte stays, and time
moves by what passed (R249). A write to a line that the host holds takes its W once the line is back (19_links R365). -/
def Obligations.WritesBecomeVisible : Prop :=
  ∀ s dt, Tab.wf s.hw.parts = true → (settle s dt).time = s.time + dt ∧
    ((∀ p c cx, s.hw.ctx p c = some cx → cx.tail.en = false) → (∀ p, ∀ w ∈ (s.hw.part p).pend, w.full = false) →
      ∀ p a, rdByte (settle s dt).mem p a = (((unblock s.hw p (s.time + dt)).part p).pend.filter fun w =>
        decide (w.w ≤ s.time + dt) && !w.blocked).foldl (fun b w => (w.byte a).getD b) (rdByte s.mem p a))

/-- Fences, sfence, wdone, twait and tnow retire at once where what they wait for has come about, and else wait; their waits end when
it has (R253-R257). -/
def Obligations.FencesAndTime : Prop :=
  (∀ f s e, IssuesS Forms.fence f s e →
    (fenceDone e.hw e.gk f.d.toNat e.hw.nextId e.now = true →
      Retires (.fence f) s e (regsS Forms.fence f) {} (fenceOver e.hw e.part e.gk f.d.toNat e.hw.nextId)) ∧
    (fenceDone e.hw e.gk f.d.toNat e.hw.nextId e.now = false →
      Parks (.fence f) s e (regsS Forms.fence f) .parked (.fence f.d.toNat e.hw.nextId) e.hw)) ∧
  (∀ f s e, IssuesS Forms.sfence f s e →
    (sfenceDone e.hw e.gk e.hw.nextId = true →
      Retires (.sfence f) s e (regsS Forms.sfence f) {} e.hw) ∧
    (sfenceDone e.hw e.gk e.hw.nextId = false →
      Parks (.sfence f) s e (regsS Forms.sfence f) .parked (.sfence e.hw.nextId) e.hw)) ∧
  (∀ f s e, IssuesS Forms.wdone f s e →
    let r := regsS Forms.wdone f
    (wdoneDone e.hw e.gk e.hw.nextId = true → Room e r (putS r e.g.maxW) e.hw → Retires (.wdone f) s e r (putS r e.g.maxW) e.hw) ∧
    (wdoneDone e.hw e.gk e.hw.nextId = false → Parks (.wdone f) s e r .parked (.wdone e.hw.nextId r.d) e.hw)) ∧
  (∀ f s e, Issues Forms.twait f s e →
    let r := regsF Forms.twait f
    let t := e.sa r + word f.lit + (if f.op = 1 then word s.time else 0)
    ∀ i, i = Instr.twait f ∨ i = Instr.twaitL f →
      (t.toNat ≤ s.time → Retires i s e r {} e.hw) ∧
      (s.time < t.toNat → Parks i s e r .parked (.twait t) e.hw)) ∧
  (∀ f s e, Issues Forms.tnow f s e →
    let r := regsF Forms.tnow f
    (f.op = 0 ∨ fenceDone e.hw e.gk 0 e.hw.nextId s.time = true → Room e r (putS r s.time) e.hw →
      Retires (.tnow f) s e r (putS r s.time) e.hw) ∧
    (f.op ≠ 0 → fenceDone e.hw e.gk 0 e.hw.nextId s.time = false →
      Parks (.tnow f) s e r .parked (.tnow e.hw.nextId r.d) e.hw)) ∧
  (∀ q s e t, envAt s q = some e → e.q.wait = .twait t →
    (t.toNat ≤ s.time → runsOn s.hw e.core e.ctx = true → Resumes (.twaitExpiry q) s e {} s.hw) ∧
    (s.time < t.toNat ∨ runsOn s.hw e.core e.ctx = false → Holds (.twaitExpiry q) s)) ∧
  (∀ q s e, envAt s q = some e → runsOn s.hw e.core e.ctx = true →
    (∀ sc b, e.q.wait = .fence sc b →
      (fenceDone s.hw e.gk sc b s.time = true → Resumes (.fenceRetire q) s e {} (fenceOver s.hw e.part e.gk sc b)) ∧
      (fenceDone s.hw e.gk sc b s.time = false → Holds (.fenceRetire q) s)) ∧
    (∀ b, e.q.wait = .sfence b →
      (sfenceDone s.hw e.gk b = true → Resumes (.fenceRetire q) s e {} s.hw) ∧
      (sfenceDone s.hw e.gk b = false → Holds (.fenceRetire q) s)) ∧
    (∀ b d, e.q.wait = .wdone b d →
      (wdoneDone s.hw e.gk b = true → Resumes (.fenceRetire q) s e { s := [(d, word e.g.maxW)] } s.hw) ∧
      (wdoneDone s.hw e.gk b = false → Holds (.fenceRetire q) s)) ∧
    (∀ b d, e.q.wait = .tnow b d →
      (fenceDone s.hw e.gk 0 b s.time = true → Resumes (.fenceRetire q) s e { s := [(d, word s.time)] } s.hw) ∧
      (fenceDone s.hw e.gk 0 b s.time = false → Holds (.fenceRetire q) s))) ∧
  (∀ hw gk sc sc' b t, sc ≤ sc' → fenceDone hw gk sc' b t = true → fenceDone hw gk sc b t = true) ∧
  (∀ hw part gk sc b, ∃ q : Part, fenceOver hw part gk sc b = (if sc < 3 then hw else hw.setPart part fun _ => q) ∧
    q = { hw.part part with fenced := q.fenced } ∧ b ≤ q.fenced.val 0 gk ∧ ∀ k, k ≠ gk → q.fenced.look k = (hw.part part).fenced.look k)

/-- An operation that ends is gone; where no path waits for it, its result is in the lanes it still reaches, and in no other
(06_registers R123, 12_handles R230). Where the spec leaves it open this rests on the model's choices (log 91). -/
def Obligations.OperationEnds : Prop :=
  ∀ s o v g, s.hw.gangs.look o.gk = some g → waiterOf g o.id = none →
    let t := landOp s o v
    t.mem = s.mem ∧ t.time = s.time ∧ t.hw.ops = s.hw.ops.filter (fun x => x.id != o.id) ∧ OnlyGang o.gk s.hw t.hw ∧
    ∃ g', t.hw.gangs.look o.gk = some g' ∧ g'.nest = g.nest ∧ g'.exited = g.exited ∧
      (o.dst = .none → g' = g) ∧
      (∀ r m rel, o.dst = .vec r m rel → g'.paths = g.paths ∧
        (∀ l, l < 32 → inLanes m l = true → inLanes rel l = false → g'.vregs.look (32 * r + l) = some (v l)) ∧
        (∀ l, l < 32 → inLanes m l = true → inLanes rel l = true → g'.vregs.look (32 * r + l) = none) ∧
        (∀ k, (∀ l, l < 32 → inLanes m l = true → k ≠ 32 * r + l) → g'.vregs.look k = g.vregs.look k)) ∧
      (∀ r ps rel, o.dst = .scal r ps rel → g'.vregs = g.vregs ∧
        ∀ p q, g.paths.look p = some q → ∃ q', g'.paths.look p = some q' ∧ q'.pc = q.pc ∧ q'.mask = q.mask ∧ q'.state = q.state ∧
          (∀ n, n ≠ r → q'.sregs.look n = q.sregs.look n) ∧
          (p < 16 → ps.testBit p = true → rel.testBit p = false → q'.sr r = v 0) ∧
          (p < 16 → ps.testBit p = true → rel.testBit p = true → q'.sregs.look r = none) ∧
          (ps.testBit p = false → q'.sregs = q.sregs))

/-! ## Atomics and barriers -/

/-- atom and cas start an operation once their release part is over; a reply performs a device element at once, in the line's order
(14_atomics R264-R268). Where the spec leaves it open this rests on the model's choices (log 39, 41, 42). -/
def Obligations.Atomics : Prop :=
  (∀ (fm : Form) (con : Fields → Instr) (op : Fields → Nat) (nr : Fields → Bool) (cmp : Env → Regs → Nat → Option Word),
    (fm = Forms.atom ∧ con = Instr.atom ∧ op = (fun f => bits 4 1 f.ext) ∧ nr = (fun f => bit 2 f.op) ∧ cmp = (fun _ _ _ => none)) ∨
      (fm = Forms.cas ∧ con = Instr.cas ∧ op = (fun _ => 10) ∧ nr = (fun _ => false) ∧ cmp = (fun e r l => some (e.vd r l))) →
    ∀ f s e, Issues fm f s e → e.counterFull = false →
      let r := regsF fm f
      let k := (e.hw.part e.part).link
      let n := Ty.width f.ty / 8
      let need : Need := { spaces := fun sp => sp == 0 || (sp == 1 && k.cxl) || sp == 2, a := true, width := n, rd := true, wr := true }
      (∀ t, e.check need (f.cl == 3) (e.refs r f r.c) = .stop (.trap t) → Traps (con f) s e t) ∧
      (∀ es hw, e.check need (f.cl == 3) (e.refs r f r.c) = .ok es hw →
        let peer := es.any fun x => x.tgt.space == 2
        (bit 6 f.ext = false ∨ e.releasing peer = none →
          ∃ cs : Tab Word, (∀ x ∈ es, ∀ v, cmp e r x.lane = some v → cs.look x.lane = some v) ∧ (∀ l, cmp e r l = none → cs.look l = none) ∧
            let a : OpKind := .atomic (es.map fun x => { x with val := word ((e.vb r f x.lane).toNat % 2 ^ (8 * n)) })
              (op f) f.ty cs (bit 5 f.ext) (nr f)
            Starts (con f) s e r { e.newOp r a with counts := true, dst := if nr f then .none else e.dest r }
              (r.fsel == 0 && !nr f) hw) ∧
        (bit 6 f.ext = true → ∀ sc b, e.releasing peer = some (sc, b) → Parks (con f) s e r .parked (.release sc b) e.hw))) ∧
  (∀ id data s o x op ty cmp acq nr g, s.hw.op id = some o → o.kind = .atomic [x] op ty cmp acq nr → o.chain = none → op ≠ 9 →
    x.st = 0 → x.tgt.space = 0 → clear s.hw o x (Ty.width ty / 8) false = true →
    (s.hw.part o.part).link.hostLines.contains (lineOf x.tgt.pa) = false → lineHeld s.hw o.part (lineOf x.tgt.pa) o.id = false →
    (∀ cx, s.hw.ctx o.part o.ctx = some cx → cx.tail.en = false) → s.hw.gangs.look o.gk = some g →
    let n := Ty.width ty / 8
    let old := latestNat s.mem s.hw o.part x.tgt.pa n
    let y := x.val.toNat % 2 ^ Ty.width ty
    let w := assignW (s.hw.part o.part) (orderUnit x.tgt.pa) s.time
    let new : Option Nat := if op = 10 then (if old = (cmp.val 0 x.lane).toNat % 2 ^ Ty.width ty then some y else none)
      else some (atomNew op ty old y)
    ∃ h o' v p g', exec (.atomicReply id data) s =
        .next (if acq then (if (waiterOf g id).isSome then acquireAt (s.with h) o' w v else s.with h) else landOp (s.with h) o' v) ∧
      o'.id = o.id ∧ o'.gk = o.gk ∧ o'.dst = o.dst ∧ v x.lane = loadValue ty (word old).toNat ∧
      (h.part o.part).pend = (s.hw.part o.part).pend ++ [p] ∧ p.w = w ∧ p.addr = x.tgt.pa ∧
      p.bytes = (match new with | some z => toBytes n z | none => []) ∧
      h.gangs.look o.gk = some g' ∧ g'.maxW = max g.maxW w ∧ g'.paths = g.paths ∧ g'.vregs = g.vregs) ∧
  (∀ s o w v g, s.time < w + 2 → s.hw.gangs.look o.gk = some g → ∃ g', acquireAt s o w v = s.with { s.hw with gangs := s.hw.gangs.ins o.gk g' } ∧
    g'.vregs = g.vregs ∧ ∀ p q, g.paths.look p = some q → ∃ q', g'.paths.look p = some q' ∧
      (q.wait = .op o.id → q' = { q with wait := .acquire o.id (w + 2) }) ∧ (q.wait ≠ .op o.id → q' = q))

/-- The bridge's host sectors: granted with their bytes, released in order of use or by a snoop, written back when modified
(14_atomics R269, R270). Where the spec leaves it open this rests on the model's choices (log 7). -/
def Obligations.HostSectors : Prop :=
  (∀ fn sec data s, (s.hw.part fn).link.cxl = true → (s.hw.part fn).link.hostReach = true → data.length = 64 →
    (s.hw.part fn).link.sectors.has sec = false → (s.hw.part fn).link.sectors.length < 8192 → wantsSector s.hw fn sec = true →
    ∃ t, exec (.ownershipGrant fn sec true data) s = .next t ∧ t.time = s.time ∧ t.hw.gangs = s.hw.gangs ∧ t.hw.ops = s.hw.ops ∧
      (t.hw.part fn).link.sectors.look sec = some (1, s.time) ∧
      (∀ k, k ≠ sec → (t.hw.part fn).link.sectors.look k = (s.hw.part fn).link.sectors.look k) ∧
      (∀ k, k < 64 → rdByte t.mem fn (bridgeAddr (64 * sec) + k) = data.getD k 0) ∧
      (∀ p a, (p ≠ fn ∨ a < bridgeAddr (64 * sec) ∨ bridgeAddr (64 * sec) + 64 ≤ a) → rdByte t.mem p a = rdByte s.mem p a)) ∧
  (∀ (i : Instr) (fn sec : Nat) (s : State) (x : Nat × Nat) (tail : List Sent),
    (s.hw.part fn).link.sectors.look sec = some x → sectorBusy s.hw fn sec = false →
    (i = .hostSnoop fn sec ∧ tail = [⟨4, fn, [sec]⟩]) ∨
      (i = .sectorRelease fn sec ∧ tail = [] ∧ 8192 ≤ (s.hw.part fn).link.sectors.length ∧
        ∀ y ∈ (s.hw.part fn).link.sectors, x.2 ≤ y.2.2) →
    ∃ t, exec i s = .next t ∧ t.hw.gangs = s.hw.gangs ∧ (t.hw.part fn).link.sectors.look sec = none ∧
      (∀ k, k ≠ sec → (t.hw.part fn).link.sectors.look k = (s.hw.part fn).link.sectors.look k) ∧
      t.hw.sent = s.hw.sent ++ (if x.1 = 2 then
        [⟨1, fn, [64 * sec] ++ bytesWords 8 (rdBytes s.mem fn (bridgeAddr (64 * sec)) 64)⟩] else []) ++ tail ∧
      ∀ p a, (p ≠ fn ∨ a < bridgeAddr (64 * sec) ∨ bridgeAddr (64 * sec) + 64 ≤ a) → rdByte t.mem p a = rdByte s.mem p a)

/-- Reductions: a contribution joins its entry or opens one, a redflush waits for the partials it sends, and a partial of no rank is
combined where it arrives (R271-R277). Where the spec leaves it open this rests on the model's choices (log 29). -/
def Obligations.Reductions : Prop :=
  (∀ f s e, Issues Forms.red f s e → e.counterFull = false →
    let r := regsF Forms.red f
    let n := Ty.width f.ty / 8
    let rk := (e.q.sr r.c).toNat
    let need : Need := { spaces := fun sp => sp == 0, a := true, width := n, wr := true }
    ∀ es hw, e.check need (f.cl == 3) (e.refs r f r.b) = .ok es hw →
      (bit 4 f.ext = true → 65536 ≤ rk → Traps (.red f) s e { cause := 0x14, hit := e.act }) ∧
      (bit 4 f.ext = false ∨ rk < 65536 →
        let h0 := (es.map fun x => { x with val := word ((e.vd r x.lane).toNat % 2 ^ (8 * n)) }).foldl
          (contribute e.gk e.g.launch (bits 3 1 f.ext) f.ty (if bit 4 f.ext then some rk else none)) hw
        let h := if e.stepped then drainGang h0 e.gk else h0
        Retires (.red f) s e r {} h)) ∧
  (∀ gk launch op ty rank hw x g, hw.gangs.look gk = some g → (∀ y ∈ g.reds, y.tgt ≠ x.tgt) → g.reds.length < 16 →
    ∃ g', (contribute gk launch op ty rank hw x).gangs.look gk = some g' ∧
      g'.reds = g.reds ++ [{ tgt := x.tgt, va := x.va, op := op, ty := ty, rank := rank, part := [(x.lane, x.val)], launch := launch }] ∧
      (contribute gk launch op ty rank hw x).ops = hw.ops ∧ g'.paths = g.paths ∧ g'.vregs = g.vregs) ∧
  (∀ f s e, IssuesS Forms.redflush f s e → e.counterFull = false →
    let r := regsS Forms.redflush f
    (e.g.reds = [] → Retires (.redflush f) s e r {} e.hw) ∧
    (e.g.reds ≠ [] → Parks (.redflush f) s e r .parked (.redflush e.hw.nextId (e.hw.nextId + e.g.reds.length)) (drainGang e.hw e.gk)) ∧
    (drainGang e.hw e.gk).ops.length = e.hw.ops.length + e.g.reds.length) ∧
  (∀ id s o x op ty, s.hw.op id = some o → o.kind = .partialSum x op ty none false → x.st = 0 → x.tgt.space = 0 →
    (∀ y ∈ s.hw.ops, y.id = id ∨ sameDrain y o = false) → clear s.hw o x (Ty.width ty / 8) false = true →
    (s.hw.part o.part).link.hostLines.contains (lineOf x.tgt.pa) = false → lineHeld s.hw o.part (lineOf x.tgt.pa) o.id = false →
    (∀ cx, s.hw.ctx o.part o.ctx = some cx → cx.tail.en = false) →
    let n := Ty.width ty / 8
    let w := assignW (s.hw.part o.part) (orderUnit x.tgt.pa) s.time
    ∃ t p, exec (.redPartialArrival id) s = .next t ∧ t.mem = s.mem ∧ (t.hw.part o.part).pend = (s.hw.part o.part).pend ++ [p] ∧
      p.w = w ∧ p.addr = x.tgt.pa ∧ p.bytes = toBytes n (atomNew op ty (latestNat s.mem s.hw o.part x.tgt.pa n) x.val.toNat) ∧
      (bit 63 ((s.hw.part o.part).arms.val 0 (lineOf x.tgt.pa)) = true →
        (t.hw.core o.core).ordErr = ((s.hw.core o.core).ordErr + 1) % 65536))

/-- Barriers: an arrival counts its lanes and waits, a full barrier opens and starts a new phase, and barrier objects count bytes
(R279-R285). Where the spec leaves it open this rests on the model's choices (log 96). -/
def Obligations.Barriers : Prop :=
  (∀ f s e, Issues Forms.bar f s e →
    let r := regsF Forms.bar f
    ((∃ l, l < 32 ∧ inLanes e.q.mask l = true ∧ nestOf e.g l ≠ 0) ∨ blockExpected e.blk < e.blk.bar.arrived.length + (arriving e).length →
      exec (.bar f) s = .next (openBlock (s.with (e.trap { cause := 0x14, hit := e.act })) e.g.block)) ∧
    ((∀ l, l < 32 → inLanes e.q.mask l = true → nestOf e.g l = 0) → e.blk.bar.arrived.length + (arriving e).length ≤ blockExpected e.blk →
      exec (.bar f) s = .next (openBlock (s.with (waitBar e r .bar (e.hw.setBlock e.g.block fun b =>
        { b with bar := { b.bar with arrived := b.bar.arrived ++ arriving e, after := b.bar.after ++ scratchOps e } }))) e.g.block))) ∧
  (∀ s bk b, s.hw.blocks.look bk = some b →
    (b.bar.arrived.length < blockExpected b ∨ underWay s.hw b.bar.after = true → openBlock s bk = s) ∧
    (b.bar.arrived ≠ [] → blockExpected b ≤ b.bar.arrived.length → underWay s.hw b.bar.after = false → ∃ b', (openBlock s bk).hw.blocks.look bk = some b' ∧ b'.bar = {} ∧
      b'.gone = b.gone ++ b.goneNext ∧ b'.goneNext = [])) ∧
  (∀ f s e, Issues Forms.nbar f s e →
    let r := regsF Forms.nbar f
    let n := (e.sa r).toNat % 16
    (namedBad e r = true → exec (.nbar f) s = .next (openNamed (s.with (e.trap { cause := 0x14, hit := e.act })) e.g.block n)) ∧
    (namedBad e r = false → exec (.nbar f) s = .next (openNamed (s.with (waitBar e r (.nbar n) (arriveNamed e r))) e.g.block n))) ∧
  (∀ f s e, Issues Forms.barx f s e →
    let r := regsF Forms.barx f
    let n := (e.sa r).toNat % 16
    (namedBad e r = true → exec (.barx f) s = .next (openNamed (s.with (e.trap { cause := 0x14, hit := e.act })) e.g.block n)) ∧
    (namedBad e r = false →
      ∃ t, Retired e r {} (arriveNamed e r) t ∧ exec (.barx f) s = .next (openNamed t e.g.block n))) ∧
  (∀ e r b, e.hw.blocks.look e.g.block = some b → namedBad e r = false →
    ∃ b' x, (arriveNamed e r).blocks.look e.g.block = some b' ∧ b'.nbars.look ((e.sa r).toNat) = some x ∧
      x.arrived = (b.nbars.val {} (e.sa r).toNat).arrived ++ arriving e ∧ x.declared = (e.sb r).toNat ∧
      ∀ k, k ≠ (e.sa r).toNat → b'.nbars.look k = b.nbars.look k) ∧
  (∀ core ctx bk bar s gk g t, blockGangs s.hw bk = [(gk, g)] → gkCore gk = core → gkCtx gk = ctx → waveTimes g = [t] →
    (t ≤ coreCycles s.hw core s.time → exec (.barrierReleaseWave core ctx bk bar) s = .next (releaseGang s gk (.released t))) ∧
    (coreCycles s.hw core s.time < t → Holds (.barrierReleaseWave core ctx bk bar) s)) ∧
  (∀ f s e, Issues Forms.barw f s e →
    let r := regsF Forms.barw f
    let a := (e.sa r).toNat
    let ph := bit 0 (e.sb r).toNat
    (a % 16 ≠ 0 → Traps (.barw f) s e { cause := 0x08, fault := scrFault a, hit := e.act }) ∧
    (a % 16 = 0 → e.scrBytes < a + 16 → Traps (.barw f) s e { cause := 0x05, fault := scrFault a, hit := e.act }) ∧
    (a % 16 = 0 → a + 16 ≤ e.scrBytes → e.acquiring = false → unitBusy e.hw e.blk a = false →
      let h := touchScr e.hw e.g.block [a, a + 4] false
      (bit 63 (objWord h e.g.block a) ≠ ph → Retires (.barw f) s e r {} h) ∧
      (bit 63 (objWord h e.g.block a) = ph → Parks (.barw f) s e r .barrier (.barw a ph) h))) ∧
  (∀ id s o blk obj n t b, s.hw.op id = some o → o.kind = .update blk obj n t → s.hw.blocks.look blk = some b → t ≤ s.time →
    unitBusy s.hw b obj = false →
    exec (.objectUpdate id) s = .next (wakeBarw (landOp (s.with (updateObject s.hw o blk obj n)) o fun _ => 0) blk)) ∧
  (∀ hw o blk obj n b, hw.blocks.look blk = some b → NoCopies 0 hw blk →
    let w0 := scrRead b obj 8
    let w1 := scrRead b (obj + 8) 8
    bits 39 0 w0 ≠ 0 → bits 39 0 w1 ≠ 0 → bits 62 40 w0 = 0 → bits 63 40 w1 = 0 →
    ∃ b', (updateObject hw o blk obj n).blocks.look blk = some b' ∧
      (n < bits 39 0 w0 → scrRead b' obj 8 = w0 - n) ∧
      (n = bits 39 0 w0 → bits 39 0 (scrRead b' obj 8) = bits 39 0 w1 ∧ bit 63 (scrRead b' obj 8) = !bit 63 w0) ∧
      ∀ y, (y < obj ∨ obj + 8 ≤ y) → b'.scr.val 0 y = b.scr.val 0 y)

/-! ## Copies -/

/-- A copy form whose checks pass queues its command; an empty tile does nothing; an inward piece writes exactly the bytes its global
source holds; a command with nothing left ends (15_copies R286-R293). Where the spec leaves it open this rests on the model's choices
(log 43). Batches: bclose closes the open one and answers its number, bwait answers the horizon or waits (R294, R295). -/
def Obligations.CopyCommands : Prop :=
  ((∀ f s e, Issues Forms.cpy f s e → e.acquiring = false → copiesQueued e.hw e.core < 128 →
     let r := regsF Forms.cpy f
     let b := (e.sb r).toNat
     let a := (e.sa r).toNat
     let x : CopyArgs := { d := (e.sd r).toNat, n := bits 15 0 b, m := bits 31 16 b, g := bits 63 32 b, p := e.pitch r
                           rot := bits 22 20 f.imm, out := f.op == 1, obj := if bit 19 f.imm then none else some (bits 18 0 f.imm) }
     let hd := readHandle e.hw s.mem e.part e.ctx (bits 63 52 a)
     (∀ k c i t, copyCheck e x 0 (bits 63 52 a) (bits 51 0 a) = some (k, c, i, t) → k < 9 →
       Traps (.cpy f) s e { cause := c, info := i, fault := t, hit := e.act }) ∧
     (copyCheck e x 0 (bits 63 52 a) (bits 51 0 a) = none → x.empty = true → Retires (.cpy f) s e r {} e.hw) ∧
     (copyCheck e x 0 (bits 63 52 a) (bits 51 0 a) = none → x.empty = false → e.counterFull = false →
       Starts (.cpy f) s e r { e.newOp r (.copy
         { blk := e.g.block, out := x.out, rot := x.rot, obj := x.obj, overlap := x.overlap, batch := e.g.closed + 1
           todo := tilePieces x { space := hd.space, peer := hd.peer, tgt := hd.tgt } (hd.base + bits 51 0 a) }) with counts := true }
         e.stepped e.hw)) ∧
   (∀ (fm : Form) (con : Fields → Instr) (out : Bool), (fm = Forms.cpyg ∧ con = Instr.cpyg ∧ out = false) ∨
       (fm = Forms.cpys ∧ con = Instr.cpys ∧ out = true) →
     ∀ f s e, Issues fm f s e → e.acquiring = false → copiesQueued e.hw e.core < 128 →
       let r := regsF fm f
       let x : CopyArgs := { d := (e.sd r).toNat, n := bits 15 0 (e.sb r).toNat, m := 1, g := 0, p := e.pitch r
                             rot := bits 22 20 f.imm, out := out, obj := if bit 19 f.imm then none else some (bits 18 0 f.imm) }
       let hd (l : Nat) : Handle := readHandle e.hw s.mem e.part e.ctx (bits 63 52 (e.va r l).toNat)
       (∀ l, l < 32 → inLanes e.act l = true → copyCheck e x l (bits 63 52 (e.va r l).toNat) (bits 51 0 (e.va r l).toNat) = none) →
       (x.n = 0 → Retires (con f) s e r {} e.hw) ∧
       (x.n ≠ 0 → e.counterFull = false →
         Starts (con f) s e r { e.newOp r (.copy
           { blk := e.g.block, out := out, rot := x.rot, obj := x.obj, overlap := true, batch := e.g.closed + 1
             todo := e.acts.flatMap fun l => rowPieces l { space := (hd l).space, peer := (hd l).peer, tgt := (hd l).tgt } (x.n / 4 + 1)
               ((hd l).base + bits 51 0 (e.va r l).toNat) (x.d + l * x.p) x.n }) with counts := true } e.stepped e.hw)) ∧
   (∀ m t o c x data hw h tg b, pieceTarget hw m o c x = (.ok tg, h) → tg.space = 0 → hw.blocks.look c.blk = some b →
     h.blocks.look c.blk = some b → (∀ i, i < x.n → unitBusy hw b (c.at x i) = false) → x.data = none →
     (c.out = false → movePiece m t o c x data hw = (readWords x (rdBytes m o.part tg.pa x.n), c, h)) ∧
     (c.out = true → c.overlap = false → c.cap = [] → 0 < x.n → sourcesReady hw o = true → NoCopies o.id h c.blk →
       (h.part o.part).link.hostLines.contains (lineOf tg.pa) = false → lineHeld h o.part (lineOf tg.pa) o.id = false →
       (∀ cx, h.ctx o.part o.ctx = some cx → cx.tail.en = false) →
       ∃ c' h' p, movePiece m t o c x data hw = ([], c', h') ∧ p ∈ (h'.part o.part).pend ∧ p.addr = tg.pa ∧
         p.bytes = (List.range x.n).map (fun i => b.scr.val 0 (c.at x i)) ∧ t + 2 ≤ p.w)) ∧
   (∀ m t o c x data bs hw b, x.data = some bs → bs.length = x.n → c.out = false → c.overlap = false → hw.blocks.look c.blk = some b →
     (∀ i, i < x.n → unitBusy hw b (c.at x i) = false) → NoCopies o.id hw c.blk →
     ∃ c' h' b', movePiece m t o c x data hw = ([], c', h') ∧ c'.owed = c.owed + x.n ∧ c'.failed = c.failed ∧ c'.todo = c.todo ∧
       h'.gangs = hw.gangs ∧ (∀ p, SamePart (hw.part p) (h'.part p)) ∧ h'.blocks.look c.blk = some b' ∧
       Stored b.scr b'.scr ((List.range x.n).map fun i => (c.at x i, [bs.getD i 0]))) ∧
   (∀ id data s o c, s.hw.op id = some o → o.kind = .copy c → o.chain = none → c.todo = [] → c.landing = [] → c.owed = 0 →
     (∀ y ∈ s.hw.ops, y.after.contains id = true → ∀ a b k t, y.kind ≠ .update a b k t) →
     (∀ g ∈ s.hw.gangs, ∀ q ∈ g.2.paths, ∀ off ph, q.2.wait ≠ .barw off ph) →
     ∃ h o' c', exec (.copyComplete id data) s = .next (finishCopyOp (s.with h) o' c') ∧ o'.id = o.id ∧ o'.gk = o.gk ∧ o'.dst = o.dst ∧
       c'.batch = c.batch ∧ c'.failed = c.failed ∧ h.gangs = s.hw.gangs ∧ h.blocks = s.hw.blocks)) ∧
  ((∀ f s e, IssuesS Forms.bclose f s e →
     let r := regsS Forms.bclose f
     let n := e.g.closed + 1
     let hw := moveHorizon (e.hw.setGang e.gk fun g =>
       { g with closed := n, openFailed := 0, batches := g.batches ++ [{ num := n, failed := g.openFailed }] }) e.gk
     (16 ≤ openCount e.hw e.gk e.g → Holds (.bclose f) s) ∧
     (openCount e.hw e.gk e.g < 16 → Room e r (putS r (batchNum n)) hw → Retires (.bclose f) s e r (putS r (batchNum n)) hw)) ∧
   (∀ f s e, Issues Forms.bwait f s e →
     let r := regsF Forms.bwait f
     let n := (e.sa r).toNat
     let left := f.op == 1
     let bad := !left && n != 0 && (decide (2 ^ 32 ≤ n) || (decide (e.g.closed < 2 ^ 32 - 1) && decide (e.g.closed < n)))
     (bad = true → Traps (.bwait f) s e { cause := 0x14, hit := e.act }) ∧
     (bad = false → bwaitMet e.g left n = true →
       let hw := e.hw.setGang e.gk fun g => { g with unrep := 0 }
       Room e r (putS r (bwaitValue e.g)) hw → Retires (.bwait f) s e r (putS r (bwaitValue e.g)) hw) ∧
     (bad = false → bwaitMet e.g left n = false → Parks (.bwait f) s e r .parked (.bwait left n r.d) e.hw)) ∧
   (∀ n, batchNum (n + 1) ≠ 0 ∧ batchNum (n + 1) < 2 ^ 32) ∧
   (∀ g n, 0 < n → g.horizon < 2 ^ 31 → (n ≤ g.horizon → bwaitMet g false n = true) ∧
     (g.horizon < n → n < 2 ^ 31 → bwaitMet g false n = false)))

/-- Chains: cbrun takes the lowest free slot; a block is fetched, checked and tested, an access or a link that fails stops the chain in
the error state; signals and status reach only chains of the issuing block (R296-R301). Where the spec leaves it open this rests on the model's choices (log 35). -/
def Obligations.Chains : Prop :=
  (∀ f s e, Issues Forms.cbrun f s e →
    let r := regsF Forms.cbrun f
    let a := (e.sa r).toNat
    let cs : Tab Chain := (e.hw.image e.core e.ctx).chains.filter fun c => c.2.state == 1 || c.2.state == 2
    let h0 := e.hw.setImage e.core e.ctx fun i => { i with chains := cs }
    (2 ^ 57 ≤ a → Traps (.cbrun f) s e { cause := 0x07, info := 3, hit := e.act }) ∧
    (a < 2 ^ 57 → a % 128 ≠ 0 → Traps (.cbrun f) s e { cause := 0x08, hit := e.act }) ∧
    (a < 2 ^ 57 → a % 128 = 0 →
      (∀ k, k < 16 → cs.has k = false → (∀ j, j < k → cs.has j = true) →
        let hw := setChain h0 e.core e.ctx k { block := e.g.block, launch := e.g.launch, addr := a, state := 1 }
        Room e r (putS r k) hw → Retires (.cbrun f) s e r (putS r k) hw) ∧
      ((∀ k, k < 16 → cs.has k = true) → Room e r (putS r (2 ^ 63)) h0 → Retires (.cbrun f) s e r (putS r (2 ^ 63)) h0))) ∧
  (∀ core ctx slot s p c, corePart s.hw core = some p → (s.hw.image core ctx).chains.look slot = some c → c.state = 1 → c.op = none →
    runsOn s.hw core ctx = true → coreUp s.hw core = true →
    (c.stop = true → exec (.chainBlock core ctx slot) s = .next (s.with (setChain s.hw core ctx slot { c with state := 0 }))) ∧
    (c.stop = false →
      (∀ l h, translate s.hw s.mem p ctx c.addr = (.error l, h) →
        exec (.chainBlock core ctx slot) s = .next (s.with (setChain h core ctx slot (c.fail 0x04)))) ∧
      (∀ y h, translate s.hw s.mem p ctx c.addr = (.ok y, h) → y.kind = 0 → y.r = true →
        let c' := { c with words := bytesWords 16 (rdBytes s.mem p y.pa 128) }
        (blockBad c'.w = true → exec (.chainBlock core ctx slot) s = .next (s.with (setChain h core ctx slot (c'.fail 0x01)))) ∧
        (blockBad c'.w = false → exec (.chainBlock core ctx slot) s = .next (s.with (chainEval h s.mem p core ctx slot c')))))) ∧
  (∀ core ctx slot s p c, corePart s.hw core = some p → (s.hw.image core ctx).chains.look slot = some c → c.state = 2 →
    runsOn s.hw core ctx = true → coreUp s.hw core = true →
    exec (.chainRetest core ctx slot) s = .next (s.with (chainEval s.hw s.mem p core ctx slot c))) ∧
  (∀ hw m p core ctx slot c, bits 6 5 (c.w 2) = 2 → chainTest c c.sig.toNat = false → bits 11 10 (c.w 2) = 0 → c.stop = false →
    (chainEval hw m p core ctx slot c) = setChain hw core ctx slot { c with op := none, test := false, state := 2 }) ∧
  (∀ f s e, Issues Forms.cbsig f s e →
    let r := regsF Forms.cbsig f
    let n := (e.sa r).toNat
    (e.chain n = none → Retires (.cbsig f) s e r {} e.hw) ∧
    (∀ c, e.chain n = some c →
      let c1 := { c with sig := c.sig ||| e.sb r }
      let hw := if f.op = 1 then setChain e.hw e.core e.ctx n
            (if c.state = 2 then { c with state := 0 } else if c.state = 1 then { c with stop := true } else c)
          else if c.state = 2 then chainEval (setChain e.hw e.core e.ctx n c1) s.mem e.part e.core e.ctx n c1
          else setChain e.hw e.core e.ctx n c1
      Retires (.cbsig f) s e r {} hw)) ∧
  (∀ f s e, Issues Forms.cbstat f s e →
    let r := regsF Forms.cbstat f
    let v := match e.chain (e.sa r).toNat with
      | none => 0
      | some c => c.state * 2 ^ 62 + bits 56 7 c.addr * 2 ^ 7 + (if c.state = 3 then c.err else 0)
    Room e r (putS r v) e.hw → Retires (.cbstat f) s e r (putS r v) e.hw)

/-! ## Matrix -/

/-- The pass forms check their tiles and their scratchpad ranges, take their tiles and queue a request of the quarters whose lanes are
active (16_matrix R302, R303, R307-R312). Where the spec leaves it open this rests on the model's choices (log 44). -/
def Obligations.MatrixPasses : Prop :=
  ∀ (fm : Form) (con : Fields → Instr) (form : Nat), (fm = Forms.mma ∧ con = Instr.mma ∧ form = 0) ∨
      (fm = Forms.mmas ∧ con = Instr.mmas ∧ form = 1) ∨ (fm = Forms.mmab ∧ con = Instr.mmab ∧ form = 2) →
    ∀ f s e, Issues fm f s e → e.acquiring = false → reservesFull e.hw e.core = false →
      let r := regsF fm f
      let inReg := form == 0 && f.cl == 2
      let nReg := Forms.aRegs f
      let qs := (List.range 4).filter (sliceAct e.act)
      let m : Pass := { form := form, ty := f.ty, kg := Forms.kgOf f, z := bit 0 f.op, bt := bit 1 f.op, act := e.act, da := e.sa r
                        db := e.sb r, dc := e.q.sr r.c, blk := e.g.block, obj := mxObj f, prio := hdrPrio (e.hw.hdr e.g.launch)
                        arrive := clusterCycles e.hw (coreCluster e.core) e.now, todo := qs.map fun q => (q, e.blk.accb + r.d + q)
                        areg := if inReg then some ((List.range nReg).flatMap fun i => allLanes.map fun l =>
                          (32 * i + l, e.g.v (r.a + i) l)) else none }
      let trap := scratchTrap e ((if inReg then [] else [dBase m.da, dPitch m.da]) ++ [dBase m.db, dPitch m.db] ++
        (if inReg then [] else [dTp m.da])) (m.ranges qs) ((if inReg then [] else [(m.da, 4)]) ++ [(m.db, 4)]) m.obj
      (inReg = true → ∀ i l, i < nReg → l < 32 → inLanes e.act l = true → vPending e.hw.ops e.gk (r.a + i) l = false) →
      (∀ q, q ∈ qs → e.blk.accn ≤ r.d + q → (∀ q', q' ∈ qs → q' < q → r.d + q' < e.blk.accn) →
        ∃ hit, (∀ l, inLanes hit l = (inLanes e.act l && decide (e.blk.accn ≤ r.d + l / 8))) ∧
          Traps (con f) s e { cause := 0x05, fault := tileFault (r.d + q), hit := hit }) ∧
      ((∀ q, q ∈ qs → r.d + q < e.blk.accn) →
        (∀ t, trap = some t → Traps (con f) s e t) ∧
        (trap = none → (∃ q, q ∈ qs ∧ tileForeign e.hw e.core e.ctx (e.blk.accb + r.d + q) = true) →
          ∃ n hit, Traps (con f) s e (foreignTrap (e.blk.accb + r.d + n) (r.d + n) hit)) ∧
        (trap = none → (∀ q, q ∈ qs → tileForeign e.hw e.core e.ctx (e.blk.accb + r.d + q) = false) →
          let h1 := qs.foldl (fun h q => takeTile h e.core e.ctx (e.blk.accb + r.d + q)) e.hw
          let h2 := if inReg && r.lua then (List.range (nReg - 1)).foldl (fun h i => releaseV h e.gk (r.a + 1 + i) e.act) h1 else h1
          Starts (con f) s e r (e.newOp r (.pass m)) e.stepped h2))

/-- The arbiter grants the eligible quarters of a request, at most four at a time; their results are applied to their tiles, and the
request then ends (R304-R306, R310, R312). Where the spec leaves it open this rests on the model's choices (log 44). -/
def Obligations.MatrixGrants : Prop :=
  (∀ cluster s o m, s.hw.op o.id = some o → o.kind = .pass m → coreCluster o.core = cluster → eligibleOps s.hw o ≠ [] → m.cap = [] →
    (∀ y ∈ s.hw.ops, y = o ∨ coreCluster y.core ≠ cluster ∨ eligibleOps s.hw y = []) →
    (∀ y ∈ s.hw.ops, ∀ src fill dst kd len cap wr, y.kind ≠ .scopy m.blk src fill dst kd len cap wr) →
    clusterLive s.hw cluster = true → (s.hw.cluster cluster).goal = none → (s.hw.cluster cluster).holdTo ≤ s.time →
    rampAllows (s.hw.cluster cluster) (clusterCycles s.hw cluster s.time) = true →
    ∃ t o' m', exec (.passGrant cluster) s = .next t ∧ t.mem = s.mem ∧ t.hw.gangs = s.hw.gangs ∧ t.hw.blocks = s.hw.blocks ∧
      t.hw.op o.id = some o' ∧ o'.kind = .pass m' ∧ m'.todo = m.todo.filter (fun y => !((eligibleOps s.hw o).take 4).contains y) ∧
      m'.ready.map (·.1) = m.ready.map (·.1) ++ ((eligibleOps s.hw o).take 4).map (·.2) ∧
      (t.hw.cluster cluster).lastPass = clusterCycles s.hw cluster s.time) ∧
  (∀ cluster s, (∀ y ∈ s.hw.ops, coreCluster y.core ≠ cluster ∨ eligibleOps s.hw y = []) → Holds (.passGrant cluster) s) ∧
  (∀ (m : Pass) b use q old i j, i < 32 → j < 32 → (m.areg.isSome = true → inLanes m.act (8 * q + i % 8) = true) →
    (32 * i + j, m.result b use q i j (old i j)) ∈ m.quarter b use q old) ∧
  (∀ (m : Pass) b use q i j (old : BitVec 32), m.form = 0 → m.kg = 1 →
    m.result b use q i j old =
      let f := Ty.fmt .f32
      let sum := (f.round 0 0 (exsumP ((List.range 32).map fun k =>
        (fv m.elem (m.aCode b use q i k), fv m.elem (m.bCode b use k j))) []).1).code
      BitVec.ofNat 32 (f.round 0 0 (exsum [f.val (if m.z then 0 else old.toNat), f.val sum] false false).1).code) ∧
  (∀ id s o m t xs, s.hw.op id = some o → o.kind = .pass m → m.todo = [] → m.obj = none → m.ready = [(t, xs)] → (xs.map (·.1)).Nodup →
    (∀ x ∈ xs, x.1 < 1024) →
    (∀ y ∈ s.hw.ops, y.core = o.core → ∀ a b, y.kind ≠ .tile a b) →
    (∀ y ∈ s.hw.ops, y.after.contains id = true → ∀ a b k u, y.kind ≠ .update a b k u) →
    ∃ h o', exec (.passComplete id) s = .next (landOp (s.with h) o' fun _ => 0) ∧ o'.id = o.id ∧ o'.gk = o.gk ∧ o'.dst = o.dst ∧
      h.gangs = s.hw.gangs ∧ h.blocks = s.hw.blocks ∧ (∀ p, SamePart (s.hw.part p) (h.part p)) ∧ (∀ k, k ≠ o.core → h.core k = s.hw.core k) ∧
      (∀ i j v, i < 32 → j < 32 → (32 * i + j, v) ∈ xs → tileElem (h.core o.core) t i j = v) ∧
      (∀ u i j, i < 32 → j < 32 → (u ≠ t ∨ ∀ v, (32 * i + j, v) ∉ xs) → tileElem (h.core o.core) u i j = tileElem (s.hw.core o.core) u i j))

/-- Accumulator forms apply to their tiles in the order of the tiles: at once where nothing earlier is still to be applied, else the
path waits; a tile beyond the allotment or of another context traps (R306, R315, R317-R319). Where the spec leaves it open this rests
on the model's choices (log 45). What the forms leave in their tiles: zeros; a free tile, or the mark of a foreign release; x·r·s + u
rounded once; the values of the registers (R314, R317-R319). -/
def Obligations.TileForms : Prop :=
  (∀ f s (i : Instr) (fm : Form) (ns : Env → List Nat) (use : Bool) (k : Env → TileOp) (w : Env → Core → Writes),
     (i = .azero f ∧ fm = Forms.azero ∧ ns = (fun _ => rangeTiles f) ∧ use = true ∧ k = (fun _ => .azero) ∧ w = (fun _ _ => {})) ∨
     (i = .arel f ∧ fm = Forms.arel ∧ ns = (fun _ => rangeTiles f) ∧ use = false ∧ k = (fun _ => .arel) ∧ w = (fun _ _ => {})) ∨
     (i = .ascale f ∧ fm = Forms.ascale ∧ ns = (fun _ => [f.d.toNat]) ∧ use = true ∧ w = (fun _ _ => {}) ∧
       k = (fun e => let r := regsF Forms.ascale f
         let col (c : Kind) (n : Nat) : List Nat := allLanes.map fun l => if c = .none then 0 else low32 e c n l
         .ascale f.op e.act (col r.sh.a r.a) (col r.sh.b r.b) (col r.sh.c r.c))) ∨
     (i = .aread f ∧ fm = Forms.aread ∧ ns = (fun _ => [f.a.toNat]) ∧ use = true ∧ k = (fun e => .aread f.d.toNat f.ty f.op e.act) ∧
       w = (fun e c => { v := areadValues c (e.blk.accb + f.a.toNat) f.d.toNat f.ty f.op e.act })) ∨
     (i = .awrite f ∧ fm = Forms.awrite ∧ ns = (fun _ => [f.d.toNat]) ∧ use = true ∧
       k = (fun e => .awrite f.ty e.act (allLanes.map fun l => if inLanes e.act l then
         (List.range 32).map fun j => subElem (Ty.width f.ty) (j % (64 / Ty.width f.ty)) (e.g.v (f.a.toNat + j / (64 / Ty.width f.ty)) l) else [])) ∧
       w = (fun _ _ => { relV := if f.lua then (List.range (Forms.tileRegs' f.ty)).map (f.a.toNat + ·) else [] })) →
     ∀ e, Issues fm f s e → (∀ m l, l < 32 → vPending e.hw.ops e.gk m l = false) →
       let r := regsF fm f
       let ts := (ns e).map (e.blk.accb + ·)
       let h := if use then ts.foldl (fun h t => takeTile h e.core e.ctx t) e.hw else e.hw
       let ds := (List.range (Forms.tileRegs' f.ty)).map (f.d.toNat + ·)
       (∀ t, tileTrap e (ns e) use = some t → Traps i s e t) ∧
       (tileTrap e (ns e) use = none → ts = [] → Retires i s e r {} e.hw) ∧
       (tileTrap e (ns e) use = none → ts ≠ [] → (∃ t ∈ ts, tileBusy h e.core t h.nextId = true) →
         (i = .aread f → (allocate h e.core e.ctx (e.newV h ds) 0 (ds.map (spillKeyV e.slot))).isSome = true) →
         ∃ h1, SameButImages h h1 ∧ Parks i s e r .ready (.op h.nextId)
           { h1 with ops := h1.ops ++ [{ e.newOp { r with fsel := 0 } (.tile ts (k e)) with id := h.nextId }], nextId := h1.nextId + 1 }) ∧
       (tileTrap e (ns e) use = none → ts ≠ [] → (∀ t ∈ ts, tileBusy h e.core t h.nextId = false) →
         let h' := h.setCore e.core fun c => applyTile e.ctx c ts (k e)
         Room e r (w e (h'.core e.core)) h' → Retires i s e r (w e (h'.core e.core)) h')) ∧
  ((∀ c k ts u i j, i < 32 → j < 32 → tileElem (applyTile c k ts .azero) u i j = if u ∈ ts then 0 else tileElem k u i j) ∧
   (∀ c k t u, (applyTile c k [t] .arel).tiles = k.tiles ∧
     let old := k.acctag.val {} u
     let new := (applyTile c k [t] .arel).acctag.val {} u
     (u ≠ t → new = old) ∧
     (u = t → old.state ≠ 0 → old.owner = c → new.state = 0) ∧
     (u = t → old.state ≠ 0 → old.owner ≠ c → new.fresh = true ∧ new.state = old.state ∧ new.owner = old.owner)) ∧
   (∀ c k t mode act r s u i j, i < 32 → j < 32 →
     (inLanes act i = true →
       let x := (fv .f32 (tileElem k t i j).toNat).mul (fv .f32 (r.getD i 0))
       let y := x.1.mul (fv .f32 (s.getD j 0))
       tileElem (applyTile c k [t] (.ascale mode act r s u)) t i j = BitVec.ofNat 32 ((Ty.fmt .f32).round mode 0
         (exsum [y.1, fv .f32 (u.getD j 0)] (x.1.isNan || y.1.isNan) (x.2 || y.2)).1).code) ∧
     (inLanes act i = false → tileElem (applyTile c k [t] (.ascale mode act r s u)) t i j = tileElem k t i j) ∧
     ∀ v, v ≠ t → tileElem (applyTile c k [t] (.ascale mode act r s u)) v i j = tileElem k v i j) ∧
   (∀ c k t ty act vals i j, i < 32 → j < 32 →
     (inLanes act i = true → tileElem (applyTile c k [t] (.awrite ty act vals)) t i j =
       BitVec.ofNat 32 ((Ty.fmt .f32).round 0 0 (fv ty ((vals.getD i []).getD j 0))).code) ∧
     (inLanes act i = false → tileElem (applyTile c k [t] (.awrite ty act vals)) t i j = tileElem k t i j) ∧
     ∀ v, v ≠ t → tileElem (applyTile c k [t] (.awrite ty act vals)) v i j = tileElem k v i j))

/-- aload and astore check the tile and the range and queue a transfer; its port moves words between the tile's image and scratchpad; a
transfer with nothing left ends (R320, R321). Where the spec leaves it open this rests on the model's choices (log 45, 46). -/
def Obligations.TileTransfers : Prop :=
  (∀ (fm : Form) (con : Fields → Instr) (load : Bool), (fm = Forms.aload ∧ con = Instr.aload ∧ load = true) ∨
      (fm = Forms.astore ∧ con = Instr.astore ∧ load = false) →
    ∀ f s e, Issues fm f s e → e.acquiring = false → reservesFull e.hw e.core = false →
      let r := regsF fm f
      let d := e.sb r
      let x : Transfer := { load := load, tile := e.blk.accb + r.d, ty := f.ty, mode := f.op, desc := d, blk := e.g.block, obj := mxObj f
                            todo := List.range (32 * Ty.width f.ty) }
      (bit 1 f.ext = false →
        let trap := scratchTrap e [dBase d, dPitch d] ((List.range 32).map fun i => (dBase d + i * dPitch d, x.rowBytes, 4)) [(d, 4)] x.obj
        (e.blk.accn ≤ r.d → Traps (con f) s e { cause := 0x05, fault := tileFault r.d, hit := e.act }) ∧
        (r.d < e.blk.accn → ∀ t, trap = some t → Traps (con f) s e t) ∧
        (r.d < e.blk.accn → trap = none → tileForeign e.hw e.core e.ctx x.tile = false →
          Starts (con f) s e r (e.newOp r (.atrans x)) e.stepped (takeTile e.hw e.core e.ctx x.tile))) ∧
      (bit 1 f.ext = true →
        (e.sup = false → Traps (con f) s e { cause := 0x03, hit := e.act }) ∧
        (e.sup = true → d.toNat % 4096 ≠ 0 → Traps (con f) s e { cause := 0x08, hit := e.act }) ∧
        (e.sup = true → d.toNat % 4096 = 0 → d.toNat + 4096 ≤ partBytes e.hw e.part →
          Starts (con f) s e r (e.newOp r (.atrans { x with tile := r.d, phys := some d.toNat, obj := none, todo := List.range 32 }))
            e.stepped e.hw))) ∧
  (∀ m t o (x : Transfer) hw k b, x.phys = none → x.load = false → hw.blocks.look x.blk = some b → NoCopies o.id hw x.blk →
    ∃ b', (moveTransfer m t o (x, hw) k).1 = { x with owed := x.owed + 4 } ∧
      (moveTransfer m t o (x, hw) k).2.blocks.look x.blk = some b' ∧
      Stored b.scr b'.scr ((List.range 4).map fun i => (x.at (4 * k + i), [x.img.val 0 (4 * k + i)]))) ∧
  (∀ id s o x, s.hw.op id = some o → o.kind = .atrans x → x.begun = true → x.load = false → x.todo = [] → x.owed = 0 →
    (x.w = 0 ∨ x.w + 2 ≤ s.time) → (∀ w ∈ (s.hw.part o.part).pend, w.id ≠ id) → (∀ y ∈ s.hw.ops, y.core = o.core → ∀ a b, y.kind ≠ .tile a b) →
    (∀ y ∈ s.hw.ops, y.after.contains id = true → ∀ a b k u, y.kind ≠ .update a b k u) →
    (∀ g ∈ s.hw.gangs, ∀ q ∈ g.2.paths, ∀ off ph, q.2.wait ≠ .barw off ph) →
    ∃ h o', exec (.atransferComplete id) s = .next (landOp (s.with h) o' fun _ => 0) ∧ o'.id = o.id ∧ o'.gk = o.gk ∧
      h.gangs = s.hw.gangs ∧ h.blocks = s.hw.blocks ∧ h.parts = s.hw.parts)

/-! ## Tail -/

/-- wmark, wquery and the window control: a request announces a boundary 256 ns ahead or joins the pending one, CUR advances when the
boundary comes, and the timer asks each period (17_tail R324-R333). Where the spec leaves it open this rests on the model's choices (log 47, 50). -/
def Obligations.TailWindows : Prop :=
  (∀ f s e, IssuesS Forms.wmarkS f s e → MarksWindow (.wmarkS f) s e (regsS Forms.wmarkS f)) ∧
  (∀ f s e, Issues Forms.wmark f s e → MarksWindow (.wmark f) s e (regsF Forms.wmark f)) ∧
  (∀ q s e b t k r, envAt s q = some e → runsOn s.hw e.core e.ctx = true → e.q.wait = .wmark b true (some (t, k)) → e.q.form = some r →
    (t ≤ s.time → Resumes (.fenceRetire q) s e (wmarkWrites r k) s.hw) ∧ (s.time < t → Holds (.fenceRetire q) s)) ∧
  (∀ f s e, Issues Forms.wquery f s e →
    let r := regsF Forms.wquery f
    let x := (e.hw.tail e.part e.ctx).roll s.time
    let k := (e.sa r).toNat % 2 ^ 32
    (f.op ≠ 0 → ¬ e.answered → Asks (.wquery f) s e r false) ∧
    (f.op = 0 ∨ e.answered →
      (x.en = false → Room e r (putS r 0) e.hw → Retires (.wquery f) s e r (putS r 0) e.hw) ∧
      (x.en = true → f.op = 0 → Room e r (putS r x.cur) e.hw → Retires (.wquery f) s e r (putS r x.cur) e.hw) ∧
      (x.en = true → f.op = 1 → Room e r (putS r x.old) e.hw → Retires (.wquery f) s e r (putS r x.old) e.hw) ∧
      (x.en = true → f.op = 2 → winLe x.old k = true → winLe k x.cur = true → Room e r (putS r (x.bounds.val 0 k)) e.hw →
        Retires (.wquery f) s e r (putS r (x.bounds.val 0 k)) e.hw) ∧
      (x.en = true → f.op = 3 → Room e r (putS r x.usedBytes) e.hw → Retires (.wquery f) s e r (putS r x.usedBytes) e.hw))) ∧
  (∀ fn ctx s cx q, s.hw.ctx fn ctx = some cx → cx.tail.reqs = [q] → cx.tail.busy = false → cx.tail.en = true →
    let y := cx.tail.roll s.time
    let b := y.announced.getD (s.time + 256)
    ∃ t cx', exec (.windowAdvanceRequest fn ctx) s = .next t ∧ t.mem = s.mem ∧ t.hw.ctx fn ctx = some cx' ∧ cx'.tail.announced = some b ∧
      cx'.tail.cur = y.cur ∧ cx'.tail.reqs = [] ∧
      (∀ gk p g pa n, q = .path gk p → s.hw.gangs.look gk = some g → g.paths.look p = some pa → pa.wait = .wmark n true none →
        ∃ g' pa', t.hw.gangs.look gk = some g' ∧ g'.paths.look p = some pa' ∧ pa'.wait = .wmark n true (some (b + 2, winNext y.cur))) ∧
      (∀ id l, q = .launch id → s.hw.launches.look id = some l → t.hw.launches.look id = some { l with floor := b })) ∧
  (∀ fn ctx s cx b, s.hw.ctx fn ctx = some cx → cx.tail.announced = some b →
    ∃ t cx', exec (.windowBoundary fn ctx) s = .next t ∧ t.mem = s.mem ∧ t.hw.gangs = s.hw.gangs ∧ t.hw.ctx fn ctx = some cx' ∧
      (b ≤ s.time → cx'.tail.cur = winNext cx.tail.cur ∧ cx'.tail.announced = none ∧ cx'.tail.bounds.look (winNext cx.tail.cur) = some b) ∧
      (s.time < b → cx' = cx)) ∧
  (∀ fn ctx s cx, s.hw.ctx fn ctx = some cx → cx.tail.en = true → cx.tail.period ≠ 0 → cx.tail.busy = false →
    (cx.tail.timer + 1000 * cx.tail.period ≤ s.time →
      ∃ t cx', exec (.tailTimer fn ctx) s = .next t ∧ t.hw.ctx fn ctx = some cx' ∧ cx'.tail.timer = cx.tail.timer + 1000 * cx.tail.period ∧
        cx'.tail.announced = some ((cx.tail.roll s.time).announced.getD (s.time + 256))) ∧
    (s.time < cx.tail.timer + 1000 * cx.tail.period → Holds (.tailTimer fn ctx) s)) ∧
  (∀ fn ctx v s cx, s.hw.ctx fn ctx = some cx → cx.tail.en = true → bit 0 v.toNat = false →
    ∃ t cx', exec (.tlctlWrite fn ctx v) s = .next t ∧ t.mem = s.mem ∧ t.hw.gangs = s.hw.gangs ∧ t.hw.ctx fn ctx = some cx' ∧
      cx'.tail.en = false ∧ cx'.tail.shares = [] ∧ cx'.tail.handle = cx.tail.handle) ∧
  (∀ fn ctx v s cx, s.hw.ctx fn ctx = some cx → cx.tail.en = false → bit 0 v.toNat = true →
    (readHandle s.hw s.mem fn ctx (bits 63 52 v.toNat)).ok = false →
    ∃ t cx', exec (.tlctlWrite fn ctx v) s = .next t ∧ t.hw.ctx fn ctx = some cx' ∧ cx'.tail.en = false ∧ cx'.tail.err = true ∧
      cx'.tail.handle = bits 63 52 v.toNat)

/-- wcfg: its status words, dropping old windows, starting a revert; a revert without force stops at a window with irreversible effects
(R338, R339). Where the spec leaves it open this rests on the model's choices (log 48, 49, 50). -/
def Obligations.TailReverts : Prop :=
  (∀ f s e, Issues Forms.wcfg f s e →
    let r := regsF Forms.wcfg f
    let c := (e.sa r).toNat
    let k := (e.sb r).toNat
    let x := (e.hw.tail e.part c).roll s.time
    ∀ i, i = Instr.wcfgRevert f ∨ i = Instr.wcfgForce f ∨ i = Instr.wcfgDrop f →
      (65536 ≤ c ∨ 2 ^ 32 ≤ k → Traps i s e { cause := 0x02, hit := e.act }) ∧
      (c < 65536 → k < 2 ^ 32 →
        (x.en = false → Room e r (putS r 3) e.hw → Retires i s e r (putS r 3) e.hw) ∧
        (x.en = true → i = .wcfgDrop f →
          (winLe k x.cur = false ∨ winLe x.old k = false → Room e r (putS r 2) e.hw → Retires i s e r (putS r 2) e.hw) ∧
          (winLe k x.cur = true → winLe x.old k = true →
            let hw := e.hw.setTail e.part c fun _ => { x.discard (fun j => !winLe k j) with old := k }
            let w : Writes := { s := [(r.d, wcfgResult k 0 0)] }
            Room e r w hw → Retires i s e r w hw)) ∧
        (x.en = true → i ≠ .wcfgDrop f →
          (ctxStopped e.hw e.part c = false → Room e r (putS r 1) e.hw → Retires i s e r (putS r 1) e.hw) ∧
          (ctxStopped e.hw e.part c = true → (winLe x.old k = false ∨ winLe k x.cur = false) →
            Room e r (putS r 2) e.hw → Retires i s e r (putS r 2) e.hw) ∧
          (ctxStopped e.hw e.part c = true → winLe x.old k = true → winLe k x.cur = true → x.busy = true → Holds i s) ∧
          (ctxStopped e.hw e.part c = true → winLe x.old k = true → winLe k x.cur = true → x.busy = false →
            ∃ force, (force = true ↔ i = .wcfgForce f) ∧
              Parks i s e r .parked (.revert c k force r.d none) (e.hw.setTail e.part c fun _ => { x with busy := true }))))) ∧
  (∀ s p c k, let x := ((discardHeld s p c).hw.tail p c).roll s.time
    winLe k x.cur = true → x.irrev.val 0 x.cur ≠ 0 → k ≠ winNext x.cur →
      (doRevert s p c k false).1 = wcfgResult (winNext x.cur) 0 4 ∧ (doRevert s p c k false).2.2 = discardHeld s p c) ∧
  (∀ q s e c k force d v t, envAt s q = some e → runsOn s.hw e.core e.ctx = true → e.q.wait = .revert c k force d (some (v, t)) →
    (t ≤ s.time → Resumes (.fenceRetire q) s e { s := [(d, v)] } (endRevert s.hw e.part s.time c)) ∧
    (s.time < t → Holds (.fenceRetire q) s))

/-! ## Traps and system registers -/

/-- trap takes cause 0x15 with its code; tret refuses a bad target, another context and a level that is not its own, answers 3 and 2
where there is nothing to return to, and else returns as it says (18_contexts R343, R349). Where the spec leaves it open this rests on the model's choices (log 28, 53). -/
def Obligations.TrapForms : Prop :=
  (∀ f s e, IssuesS Forms.trapS f s e → Traps (.trapS f) s e { cause := 0x15, info := f.d.toNat, hit := e.act }) ∧
  (∀ f s e, Issues Forms.trap f s e →
    Traps (.trap f) s e { cause := 0x15, info := (e.sa (regsF Forms.trap f)).toNat % 2 ^ 32, hit := e.act }) ∧
  (∀ f s e, Issues Forms.tret f s e →
    let r := regsF Forms.tret f
    let x := e.sysTarget (e.sa r)
    let q := if coreNamed e.hw e.part x.core then (e.hw.gangs.look x.gk).bind fun g => g.paths.look x.path else none
    (x.bad = true → Traps (.tret f) s e { cause := 0x06, hit := e.act }) ∧
    (x.bad = false → e.sup = false → x.ctx ≠ e.ctx → Traps (.tret f) s e { cause := 0x03, hit := e.act }) ∧
    (x.bad = false → (e.sup = true ∨ x.ctx = e.ctx) → ¬ e.answered → Asks (.tret f) s e r false) ∧
    (x.bad = false → (e.sup = true ∨ x.ctx = e.ctx) → e.answered →
      (q = none → Answers (.tret f) s e r 3 e.hw) ∧
      (∀ y, q = some y → (y.trap = none ∨ y.state ≠ .stopped) → Answers (.tret f) s e r 2 e.hw) ∧
      (∀ y t, q = some y → y.trap = some t → y.state = .stopped → e.sup = false → t.level ≠ 0 →
        Traps (.tret f) s e { cause := 0x03, hit := e.act }) ∧
      (∀ y t, q = some y → y.trap = some t → y.state = .stopped → (e.sup = true ∨ t.level = 0) →
        (f.op = 0 → t.cause ≠ 0x0A → Answers (.tret f) s e r 0 (resumeAt e.hw x.gk x.path t.resume)) ∧
        (f.op = 0 → t.cause = 0x0A → ∀ g, e.hw.gangs.look x.gk = some g → ∃ h g', Answers (.tret f) s e r 0 h ∧
          OnlyGang x.gk e.hw h ∧ h.gangs.look x.gk = some g' ∧ ∀ i z, g.paths.look i = some z → ∃ z', g'.paths.look i = some z' ∧
            (∀ k, z.trap = some k → k.cause = 0x0A → k.group = t.group → z.state = .stopped →
              z' = { z with state := .ready, age := 0, pc := if z.folded then z.pc else k.resume, trap := none, wait := .none }) ∧
            (z.trap = none ∨ z.state ≠ .stopped → z' = z)) ∧
        (f.op = 1 → t.cause = 0x04 ∨ t.cause = 0x0A → Answers (.tret f) s e r 2 e.hw) ∧
        (f.op = 1 → t.cause ≠ 0x04 → t.cause ≠ 0x0A → Answers (.tret f) s e r 0 (resumeAt e.hw x.gk x.path t.next)) ∧
        (f.op = 2 → Answers (.tret f) s e r 0
          (endLanes (e.s.with (setPath e.hw x.gk x.path fun q => { q with trap := none })) x.gk x.path y.mask).hw)))) ∧
  (∀ hw gk p pc g q, hw.gangs.look gk = some g → g.paths.look p = some q → q.folded = false →
    OnlyGang gk hw (resumeAt hw gk p pc) ∧ ∃ g', (resumeAt hw gk p pc).gangs.look gk = some g' ∧
      (∀ i, i ≠ p → g'.paths.look i = g.paths.look i) ∧ g'.vregs = g.vregs ∧
      g'.paths.look p = some { q with state := .ready, trap := none, wait := .none, age := 0, pc := pc
                                      skipBp := q.skipBp && pc == q.pc, skipWp := q.skipWp && pc == q.pc
                                      cl := if pc = q.pc then q.cl else q.cl.after pc })

/-- Taking a trap: the path stops with what a return needs, every other path and gang stays, and the frame of Table CX-3 is written to
the ring of its level, the producer word last; without room the core holds it (18_contexts R345-R348). Where the spec leaves it open this rests on the model's choices (log 13, 53). -/
def Obligations.TrapEntry : Prop :=
  ∀ s e (t : Trap), env s = some e →
    let h := e.trap t
    let next := e.q.pc + word s.cur.len
    (h.ops = s.hw.ops ∧ h.blocks = s.hw.blocks ∧ h.launches = s.hw.launches ∧ h.images = s.hw.images ∧
      ((s.hw.part e.part).link.hostLines = [] → h.sent = s.hw.sent) ∧ h.clusters = s.hw.clusters ∧ h.pkg = s.hw.pkg ∧ (∀ k, k ≠ e.gk → h.gangs.look k = s.hw.gangs.look k)) ∧
    (∃ g' q' k, h.gangs.look e.gk = some g' ∧ g' = { e.g with paths := g'.paths } ∧
      (∀ i, i ≠ e.p → g'.paths.look i = e.g.paths.look i) ∧ g'.paths.look e.p = some q' ∧ q'.state = .stopped ∧
      q'.mask = e.q.mask ∧ q'.sregs = e.q.sregs ∧ (e.q.folded = false → q'.pc = e.q.pc ∧ q'.cl = e.q.cl ∧ q'.depth = e.q.depth) ∧ q'.trap = some k ∧ k.cause = t.cause ∧
      k.next = next ∧ k.resume = (if t.cause = 0x15 then next else e.q.pc)) ∧
    ∀ (lvl : Nat) (ring : Ring) (c : Option Nat),
      let sup := causeSup t.cause || gkCtx e.gk == (s.hw.part e.part).sup
      let own : Ring := match s.hw.ctx e.part (gkCtx e.gk) with | some x => x.ring | none => {}
      (lvl = 0 ∧ sup = false ∧ own.en = true ∧ ring = own ∧ c = some (gkCtx e.gk)) ∨
        (lvl = 1 ∧ sup = true ∧ ring = (s.hw.part e.part).sring ∧ c = none) ∨
        (lvl = 2 ∧ sup = false ∧ own.en = false ∧ ring = (s.hw.part e.part).sring ∧ c = none) →
      let prod := latestNat s.mem s.hw e.part ring.base 8
      let cons := rdNat s.mem e.part (ring.base + 8) 8
      let ins := if t.cause = 0x04 then 0 else s.cur.insn.toNat % 2 ^ (8 * s.cur.len)
      let frame (seq : Nat) : List Nat :=
        [ t.hit.toNat * 2 ^ 32 + siblings e.g e.p * 2 ^ 16 + e.q.parent * 2 ^ 12 + e.p * 2 ^ 8 + t.cause,
          gkCtx e.gk * 2 ^ 48 + gangId s.hw e.gk + lvl * 2 ^ 46, e.q.pc.toNat, t.straddle.getD e.q.pc.toNat, t.fault % 2 ^ 64,
          windowOf s.hw e.part (gkCtx e.gk) s.time * 2 ^ 32 + e.q.depth * 2 ^ 10, s.time % 2 ^ 64, e.g.tag.toNat,
          seq % 2 ^ 32 * 2 ^ 32 + t.info % 2 ^ 32, bits 63 0 ins, bits 127 64 ins, 0, 0, 0, 0, 0 ]
      let queue := (s.hw.core (gkCore e.gk)).frames
      let full := !ring.en || decide (2 ^ ring.log2n ≤ (prod + 2 ^ 64 - cons) % 2 ^ 64)
      (full = false → h.cores = s.hw.cores ∧ ∃ l w, (h.part e.part).pend = (s.hw.part e.part).pend ++ l ++ [w] ∧
        w.addr = ring.base ∧ w.bytes = toBytes 8 ((prod + 1) % 2 ^ 64) ∧ (∀ y ∈ l ++ (s.hw.part e.part).pend, y.w < w.w) ∧
        ∀ i, i < 16 → ∃ y ∈ l, y.addr = ring.frameAt prod + 8 * i ∧ y.bytes = toBytes 8 ((frame prod).getD i 0)) ∧
      (full = true → (h.part e.part).pend = (s.hw.part e.part).pend ∧
        ∃ f, (h.core (gkCore e.gk)).frames = queue ++ [f] ∧ f.ctx = c ∧ f.words = frame 0)

/-- rsys and wsys refuse a bad target, an unassigned register and what a user context may not reach, and else read and write the
register; the register rows of the window act alike (18_contexts R341-R344, R358; 12_handles R221). Where the spec leaves it open this rests on the model's choices (log 28). -/
def Obligations.SystemRegisters : Prop :=
  (∀ (fm : Form) (con : Fields → Instr) (write : Bool), (fm = Forms.rsys ∧ con = Instr.rsys ∧ write = false) ∨
      (fm = Forms.wsys ∧ con = Instr.wsys ∧ write = true) →
    ∀ f s e, Issues fm f s e →
      let r := regsF fm f
      let x := e.sysTarget (e.sa r)
      let n := if f.isX then bits 11 0 f.imm else (e.sb r).toNat
      (x.bad = true → Traps (con f) s e { cause := 0x06, hit := e.act }) ∧
      (x.bad = false → sysReg n = none → Traps (con f) s e { cause := 0x01, hit := e.act }) ∧
      (∀ sc reads, x.bad = false → sysReg n = some (sc, reads) →
        (userDenied e sc reads write x = true → Traps (con f) s e { cause := 0x03, hit := e.act }) ∧
        (userDenied e sc reads write x = false → otherCore e sc x = true → ¬ e.answered → Asks (con f) s e r false) ∧
        (userDenied e sc reads write x = false → otherCore e sc x = false ∨ e.answered →
          (write = false → Answers (con f) s e r (readSys e.hw e.part e.now n sc x) e.hw) ∧
          (write = true → let hw := writeSys e.hw s.mem e.part e.now n sc x (e.sd r).toNat
            Room e r {} hw → Retires (con f) s e r {} hw)))) ∧
  (∀ e sc reads x, e.sup = true → userDenied e sc reads true x = false ∧ userDenied e sc reads false x = false) ∧
  (∀ e sc reads x, e.sup = false → userDenied e sc reads true x = true ∧ (reads = false → userDenied e sc reads false x = true)) ∧
  (∀ e x, e.sup = false → x.ctx ≠ e.ctx → userDenied e .context true false x = true ∧ userDenied e .ctxCore true false x = true ∧
    userDenied e .gang true false x = true ∧ userDenied e .path true false x = true) ∧
  (∀ hw m p t n sc x v, n ≠ 0 → sc ≠ .context → sc ≠ .partition → coreNamed hw p x.core = false →
    readSys hw p t n sc x = 2 ^ 64 - 1 ∧ writeSys hw m p t n sc x v = hw) ∧
  (∀ hw m p t x v c, hw.ctx p x.ctx = some c → ∀ n, n = 0x010 ∨ n = 0x011 →
    let h := writeSys hw m p t n .context x v
    readSys h p t n .context x = bits 39 17 v * 2 ^ 17 ∧ OnlyParts hw h ∧
      (∀ k, k ≠ x.ctx → h.ctx p k = hw.ctx p k) ∧ ∀ k, k ≠ p → h.part k = hw.part k) ∧
  (∀ hw m p t x v c, hw.ctx p x.ctx = some c → ∃ c', (writeSys hw m p t 0x030 .context x v).ctx p x.ctx = some c' ∧
    c'.ring.en = bit 8 v ∧ c'.ring.posted = c.ring.posted ∧ c'.ring.esc = c.ring.esc ∧
    (c.ring.en = true → c'.ring.base = c.ring.base ∧ c'.ring.log2n = c.ring.log2n) ∧
    (c.ring.en = false → c'.ring.base = bits 63 40 v * 2 ^ 16 ∧ c'.ring.log2n = max 4 (bits 3 0 v))) ∧
  (∀ fn ctx v s, ∃ t, exec (.ctxctlWrite fn ctx v) s = .next t ∧ Quiet s t ∧
    (bit 0 v.toNat = false → t = s) ∧
    (bit 0 v.toNat = true → (s.hw.part fn).present = true → ctx ≠ 0xFFFF → s.hw.ctx fn ctx = none →
      (s.hw.part fn).contexts.length < 4096 → t.hw.ctx fn ctx = some {}) ∧
    (∀ c, s.hw.ctx fn ctx = some c → t.hw.ctx fn ctx = some c) ∧ ∀ k, k ≠ ctx → t.hw.ctx fn k = s.hw.ctx fn k) ∧
  (∀ fn ctx v s c, s.hw.ctx fn ctx = some c →
    (∃ t, exec (.htbaseWrite fn ctx v) s = .next t ∧ Quiet s t ∧ t.hw.ctx fn ctx = some { c with htbase := bits 39 17 v.toNat * 2 ^ 17 }) ∧
    (∃ t, exec (.ptrootWrite fn ctx v) s = .next t ∧ Quiet s t ∧ t.hw.ctx fn ctx = some { c with ptroot := bits 39 17 v.toNat * 2 ^ 17 })) ∧
  (∀ core ctx v s p c, corePart s.hw core = some p → s.hw.ctx p ctx = some c →
    ∃ t, exec (.splbaseWrite core ctx v) s = .next t ∧ Quiet s t ∧
      (slotUse s.hw core ctx = 0 → (t.hw.image core ctx) = { s.hw.image core ctx with splBase := bits 39 16 v.toNat * 2 ^ 16 }) ∧
      (slotUse s.hw core ctx ≠ 0 → t.hw.image core ctx = s.hw.image core ctx)) ∧
  (∀ core tile v s, core < 864 → tile < 192 → tilePending s.hw core tile = false →
    (∀ x ∈ (s.hw.core core).tagWrites, x.1 ≠ tile) →
    ∃ t, exec (.acctagWrite core tile v) s = .next t ∧ Quiet s t ∧
      (bits 63 62 v.toNat = 3 → (t.hw.core core).acctag = (s.hw.core core).acctag) ∧
      (bits 63 62 v.toNat ≠ 3 → (tagOf t.hw core tile).state = bits 63 62 v.toNat ∧ (tagOf t.hw core tile).owner = bits 47 32 v.toNat ∧
        (tagOf t.hw core tile).fresh = (tagOf s.hw core tile).fresh ∧ ∀ k, k ≠ tile → tagOf t.hw core k = tagOf s.hw core k))

/-! ## Contexts -/

/-- cstop, cresume and ckill: their status words, what they do at once, and the end of what they wait for (18_contexts R356, R357). Where the spec leaves it open this rests on the model's choices (log 52, 80). -/
def Obligations.ContextCommands : Prop :=
  (∀ (fm : Form) (con : Fields → Instr) (guard : Bool), (fm = Forms.cstop ∧ con = Instr.cstop ∧ guard = true) ∨
      (fm = Forms.cresume ∧ con = Instr.cresume ∧ guard = false) ∨ (fm = Forms.ckill ∧ con = Instr.ckill ∧ guard = true) →
    ∀ f s e, Issues fm f s e →
      let r := regsF fm f
      let x := e.sysTarget (e.sa r)
      (x.bad = true → Traps (con f) s e { cause := 0x06, hit := e.act }) ∧
      (x.bad = false → e.hw.ctx e.part x.ctx = none → Answers (con f) s e r 3 e.hw) ∧
      (∀ c, x.bad = false → e.hw.ctx e.part x.ctx = some c →
        (guard = true → x.ctx = (e.hw.part e.part).sup → Answers (con f) s e r 4 e.hw) ∧
        ((guard = false ∨ x.ctx ≠ (e.hw.part e.part).sup) →
          (c.state = .killing → Answers (con f) s e r 1 e.hw) ∧
          (con f = .cstop f → c.state = .stopped → Answers (con f) s e r 0 e.hw) ∧
          (con f = .cstop f → c.state = .live ∨ c.state = .stopping →
            Parks (con f) s e r .parked (.command r.d 0 x.ctx cmdStop 0)
              (e.hw.setCtx e.part x.ctx fun y => { y with state := .stopping })) ∧
          (con f = .cresume f → c.state = .stopped →
            Answers (con f) s e r 0 (e.hw.setCtx e.part x.ctx fun y => { y with state := .live })) ∧
          (con f = .cresume f → c.state ≠ .stopped → c.state ≠ .killing → Answers (con f) s e r 2 e.hw) ∧
          (con f = .ckill f → c.state ≠ .killing →
            Parks (con f) s e r .parked (.command r.d 0 x.ctx cmdKill 0) (startKill s e.part x.ctx))))) ∧
  (∀ s p c x, s.hw.ctx p c = some x → ∃ y, (startKill s p c).ctx p c = some y ∧ y.state = .killing ∧ s.time ≤ y.killAt) ∧
  (∀ s p c, let h := doKill s p c
    (∀ gk, gkCtx gk = c → corePart h (gkCore gk) = some p → h.gangs.look gk = none) ∧
    (∀ k b, h.blocks.look k = some b → b.part ≠ p ∨ b.ctx ≠ c) ∧
    (∀ o ∈ h.ops, o.part = p → o.ctx = c → c = 0xFFFF) ∧
    (∀ k, k % 65536 = c → corePart h (k / 65536) = some p → h.images.look k = none)) ∧
  (∀ q s e d core c t, Commands s q e d core c cmdStop t →
    (ctxStopped s.hw e.part c = true → Resumes (.fenceRetire q) s e { s := [(d, 0)] } s.hw) ∧
    (ctxStopped s.hw e.part c = false → Holds (.fenceRetire q) s)) ∧
  (∀ q s e d core c t, Commands s q e d core c cmdKill t →
    (ctxKilling s.hw e.part c = true → Holds (.fenceRetire q) s) ∧
    (ctxKilling s.hw e.part c = false → Resumes (.fenceRetire q) s e { s := [(d, 0)] } s.hw)) ∧
  (∀ s p c x, s.hw.ctx p c = some x → (∀ k ∈ s.hw.cores, k.2.flipAt = none ∧ k.2.moveAt = none) →
    (x.state = .killing → x.killAt ≤ s.time → (tick s).hw.ctx p c = none) ∧
    (x.state = .stopping → ctxQuiet s.hw p c = true → (∀ y ∈ s.hw.parts, ∀ z ∈ y.2.contexts, z.2.state ≠ .killing) →
      ctxStopped (tick s).hw p c = true))

/-- cswap: its status words; a flip takes 64 core cycles, .out waits for the drain and writes the save area, .in restores it; unit
exchange, the end of a drain and held frames (18_contexts R348, R350-R355; 11_scratchpad R205). Where the spec leaves it open this rests on the model's choices (log 52, 53, 78, 79). -/
def Obligations.Banks : Prop :=
  (∀ f s e, Issues Forms.cswap f s e →
    let r := regsF Forms.cswap f
    let x := e.sysTarget (e.sa r)
    let k := e.hw.core x.core
    let b := 1 - k.act
    let c := (e.sb r).toNat % 65536
    (∀ i, i = Instr.cswapFlip f ∨ i = Instr.cswapOut f ∨ i = Instr.cswapIn f →
      (x.bad = true → Traps i s e { cause := 0x06, hit := e.act }) ∧
      (x.bad = false → coreNamed e.hw e.part x.core = false → Answers i s e r 3 e.hw) ∧
      (x.bad = false → coreNamed e.hw e.part x.core = true → k.flipAt ≠ none ∨ k.outPend = true → Holds i s)) ∧
    (x.bad = false → coreNamed e.hw e.part x.core = true → k.flipAt = none → k.outPend = false →
      (bankBusy k.st0 = true ∨ bankBusy k.st1 = true → Answers (.cswapFlip f) s e r 1 e.hw) ∧
      (bankBusy k.st0 = false → bankBusy k.st1 = false →
        let t := coreCycles e.hw x.core s.time + 64
        let h := e.hw.setCore x.core fun k => { k with flipAt := some t }
        (x.core = e.core → Answers (.cswapFlip f) s e r 0 h) ∧
        (x.core ≠ e.core → Parks (.cswapFlip f) s e r .parked (.command r.d x.core 0 cmdFlip t) h)) ∧
      (∀ y, bankCtx e.hw x.core b = some y →
        (bankState e.hw x.core b = .loaded →
          Parks (.cswapOut f) s e r .parked (.command r.d x.core y cmdOut 0) (startSpill e.hw e.part s.time x.core y)) ∧
        (bankState e.hw x.core b = .draining →
          Parks (.cswapOut f) s e r .parked (.command r.d x.core y cmdOut 0) (e.hw.setCore x.core fun k => { k with outPend := true }))) ∧
      (bankCtx e.hw x.core b = none ∨ (bankState e.hw x.core b ≠ .loaded ∧ bankState e.hw x.core b ≠ .draining) →
        Answers (.cswapOut f) s e r 2 e.hw) ∧
      (e.hw.ctx e.part c = none → Answers (.cswapIn f) s e r 3 e.hw) ∧
      (∀ y, e.hw.ctx e.part c = some y →
        (bankState e.hw x.core b ≠ .empty ∨ inBank e.hw x.core c = true ∨ headerValid e.hw s.mem e.part x.core c = false →
          Answers (.cswapIn f) s e r 2 e.hw) ∧
        (bankState e.hw x.core b = .empty → inBank e.hw x.core c = false → headerValid e.hw s.mem e.part x.core c = true →
          Parks (.cswapIn f) s e r .parked (.command r.d x.core c cmdLoad 0) (startLoad e.hw s.time x.core c))))) ∧
  (∀ s core, let b := (s.hw.core core).act
    bankCtx s.hw core (1 - b) = none →
    (doFlip s core).mem = s.mem ∧ OnlyCore core s.hw (doFlip s core).hw ∧ ((doFlip s core).hw.core core).act = 1 - b ∧
    ((doFlip s core).hw.core core).flipAt = none ∧ ((doFlip s core).hw.core core).swaps = ((s.hw.core core).swaps + 1) % 65536 ∧
    ((bankCtx s.hw core b).isSome = true → bankState (doFlip s core).hw core b = .draining)) ∧
  (∀ q s e d core c t, Commands s q e d core c cmdFlip t →
    (t ≤ coreCycles s.hw core s.time → (s.hw.core core).flipAt = none → Resumes (.fenceRetire q) s e { s := [(d, 0)] } s.hw) ∧
    (coreCycles s.hw core s.time < t ∨ (s.hw.core core).flipAt ≠ none → Holds (.fenceRetire q) s)) ∧
  (∀ q s e d core c t, Commands s q e d core c cmdOut t →
    let b := 1 - (s.hw.core core).act
    (bankCtx s.hw core b = some c → bankState s.hw core b = .draining ∨ bankState s.hw core b = .spilling → Holds (.fenceRetire q) s) ∧
    (bankCtx s.hw core b ≠ some c ∨ (bankState s.hw core b ≠ .draining ∧ bankState s.hw core b ≠ .spilling) →
      Resumes (.fenceRetire q) s e { s := [(d, 0)] } s.hw)) ∧
  (∀ hw p t core c, (hw.core core).act < 2 → let b := 1 - (hw.core core).act
    let x := spillOut (setBank hw core b .spilling) p t core c
    (startSpill hw p t core c).part p = x.2.part p ∧ bankState (startSpill hw p t core c) core b = .spilling ∧
      ((startSpill hw p t core c).core core).moveAt = some x.1) ∧
  (∀ hw p t core c, let x := spillOut hw p t core c
    let a := (hw.image core c).csave
    (∃ l, (x.2.part p).pend = (hw.part p).pend ++ l ∧ (∀ y ∈ (hw.part p).pend ++ l, y.w + 2 ≤ x.1) ∧
      (∀ i, i < 4080 → ∃ y ∈ l, y.byte (a + 0x10 + i) = some 0) ∧
      ∀ u, u ∈ heldUnits hw core (bankOf hw core c) → (hw.core core).units.look u = some (bankOf hw core c) → ∀ i, i < 32768 →
        ∃ y ∈ l, y.byte (a + 0x40000 + 32768 * u + i) = (unitBytes hw core c u)[i]?) ∧
    x.2.gangs = hw.gangs ∧ x.2.blocks = hw.blocks ∧
      ∀ k, k ∈ (heldKeys hw core c).1 ++ (heldKeys hw core c).2 → ((x.2.image core c).spilled.look k).isSome = true) ∧
  (∀ s core p c, (s.hw.core core).act < 2 → let b := 1 - (s.hw.core core).act
    let h := (endMove s core).hw
    corePart s.hw core = some p → bankCtx s.hw core b = some c →
      (bankState s.hw core b = .spilling → (∃ y ∈ (s.hw.part p).pend, y.blocked = true) → endMove s core = s) ∧
      (bankState s.hw core b = .spilling → (∀ y ∈ (s.hw.part p).pend, y.blocked = false) →
        bankCtx h core b = none ∧ bankState h core b = .empty ∧ (h.image core c).place = .saved ∧
        ∃ y z, (h.part p).pend = (s.hw.part p).pend ++ [y, z] ∧ y.addr = (s.hw.image core c).csave + 8 ∧ z.addr = (s.hw.image core c).csave ∧
          y.bytes = toBytes 8 ((s.hw.core core).moveAt.getD s.time) ∧ z.bytes = toBytes 8 (2 ^ 63 + c * 2 ^ 32 + core) ∧ y.w < z.w ∧
          ∀ w ∈ (s.hw.part p).pend, w.w < y.w) ∧
      (bankState s.hw core b = .loading → bankCtx h core b = some c ∧ bankState h core b = .loaded ∧ (h.image core c).place = .bank b ∧
        ((s.hw.image core c).place = .saved → areaBytes s.mem p (s.hw.image core c).csave = (s.hw.image core c).area →
          h.gangs = s.hw.gangs))) ∧
  (∀ q s e d core c t, Commands s q e d core c cmdLoad t → let b := 1 - (s.hw.core core).act
    (bankCtx s.hw core b = some c → bankState s.hw core b = .loading → Holds (.fenceRetire q) s) ∧
    (bankCtx s.hw core b ≠ some c ∨ bankState s.hw core b ≠ .loading → Resumes (.fenceRetire q) s e { s := [(d, 0)] } s.hw)) ∧
  (∀ core s p c, let b := 1 - (s.hw.core core).act
    corePart s.hw core = some p → bankCtx s.hw core b = some c → bankState s.hw core b = .draining → workDone s.hw p core c = true →
      exec (.bankDrainDone core) s = .next (s.with
        (if (s.hw.core core).outPend then startSpill s.hw p s.time core c else setBank s.hw core b .loaded))) ∧
  (∀ core unit s p b, let k := s.hw.core core
    k.units.look unit = some b → corePart s.hw core = some p → b ≠ k.act → (heldUnits s.hw core k.act).contains unit = true → unit < 15 →
    ∃ t, exec (.unitExchange core unit) s = .next t ∧ t.mem = s.mem ∧ t.time = s.time ∧ t.hw.gangs = s.hw.gangs ∧
      (∀ c, bankCtx s.hw core k.act = some c → ∀ n y, s.hw.blocks.look n = some y → y.core ≠ core ∨ y.ctx ≠ c → t.hw.blocks.look n = some y) ∧
      (t.hw.core core).units.look unit = some k.act ∧
      (t.hw.core core).xchg = (k.xchg + 1) % 65536 ∧ ∀ u, u ≠ unit → (t.hw.core core).units.look u = k.units.look u) ∧
  (∀ id s o x n g, s.hw.op id = some o → o.kind = .store [x] n → o.held = true → x.st = 5 → o.chain = none → x.tgt.space = 0 →
    clear s.hw o x n false = true → (s.hw.part o.part).link.hostLines.contains (lineOf x.tgt.pa) = false →
    (∀ cx, s.hw.ctx o.part o.ctx = some cx → cx.tail.en = false) → s.hw.gangs.look o.gk = some g →
    (∀ y ∈ s.hw.ops, ∀ a b c d, y.kind ≠ .partialSum a b c d true) →
    let w := assignW (s.hw.part o.part) (orderUnit x.tgt.pa) s.time
    ∃ h o' p g', exec (.heldOperationComplete id) s = .next (landOp (s.with h) o' fun _ => 0) ∧ o'.id = o.id ∧ o'.gk = o.gk ∧
      (h.part o.part).pend = (s.hw.part o.part).pend ++ [p] ∧ p.w = w ∧ p.addr = x.tgt.pa ∧ p.bytes = toBytes n x.val.toNat ∧
      h.gangs.look o.gk = some g' ∧ g'.paths = g.paths ∧ g'.vregs = g.vregs ∧ w ≤ g'.maxW) ∧
  (∀ core s p ws, corePart s.hw core = some p → (s.hw.core core).frames = [⟨none, ws⟩] →
    (∀ k ∈ s.hw.cores, k.1 = core ∨ k.2.frames = []) →
    let ring := (s.hw.part p).sring
    let full := !ring.en || decide (2 ^ ring.log2n ≤ (latestNat s.mem s.hw p ring.base 8 + 2 ^ 64 - rdNat s.mem p (ring.base + 8) 8) % 2 ^ 64)
    ∃ t, exec (.frameRetry core) s = .next t ∧ Quiet s t ∧
      (full = true → (t.hw.core core).frames = [⟨none, ws⟩]) ∧
      (full = false → (t.hw.core core).frames = [] ∧ (t.hw.part p).sring.posted = (ring.posted + 1) % 2 ^ 32 ∧
        ∃ l w, (t.hw.part p).pend = (s.hw.part p).pend ++ l ++ [w] ∧ w.addr = ring.base ∧ ∀ y ∈ l, y.w < w.w))

/-! ## Links -/

/-- The host link going down and coming back, FABID, and pool extents granted, revoked and published (19_links R367-R373). Where the spec leaves it open this rests on the model's choices (log 59, 71, 72, 92). -/
def Obligations.PoolAndHost : Prop :=
  (∀ s, ∃ t, exec .hostLinkDown s = .next t ∧ t.time = s.time ∧ t.hw.gangs = s.hw.gangs ∧ t.hw.blocks = s.hw.blocks ∧
    (∀ p a, a < 2 ^ 60 → rdByte t.mem p a = rdByte s.mem p a) ∧
    ∀ p q, s.hw.parts.look p = some q → q.present = true →
      let k := (t.hw.part p).link
      k.active = false ∧ k.hostok = false ∧ k.hostReach = false ∧ (∀ sec, k.sectors.look sec = none) ∧
        ∀ w ∈ (t.hw.part p).pend, w.addr < 2 ^ 60) ∧
  (∀ s, ∃ t, exec .hostLinkActive s = .next t ∧ Quiet s t ∧ ∀ p q, s.hw.parts.look p = some q → q.present = true →
    (t.hw.part p).link.active = true ∧ (t.hw.part p).link.hostReach = q.link.hostReach) ∧
  (∀ fn v s, WindowOpen s fn →
    let k := (s.hw.part fn).link
    ∃ t, exec (.fabidWrite fn v) s = .next t ∧ Quiet s t ∧
      let y := (t.hw.part fn).link
      y.fen = bit 31 v.toNat ∧ y.hostok = (bit 30 v.toNat && k.active) ∧ y.hostReach = (k.hostReach || y.hostok) ∧
        y.devno = (if k.fen = true then k.devno else bits 16 0 v.toNat) ∧ y.routes = k.routes ∧ y.mcr = k.mcr) ∧
  (∀ fn ext s, ext < 1024 →
    let x := extent (s.hw.part fn).link ext
    (x.state = 1 → ∃ t, exec (.poolExtentRelease fn ext) s = .next t ∧ Quiet s t ∧
      extent (t.hw.part fn).link ext = { x with state := 2 } ∧ t.hw.sent = s.hw.sent) ∧
    (x.state = 2 → extentBusy s.hw fn ext = false → ∃ t, exec (.poolExtentRelease fn ext) s = .next t ∧ Quiet s t ∧
      extent (t.hw.part fn).link ext = { x with state := 3 } ∧ t.hw.sent = s.hw.sent ++ [⟨7, fn, [ext]⟩]) ∧
    (x.state ≠ 1 → (x.state ≠ 2 ∨ extentBusy s.hw fn ext = true) → Holds (.poolExtentRelease fn ext) s)) ∧
  (∀ fn ext v0 v1 s, ext < 1024 → (s.hw.part fn).present = true →
    let x := extent (s.hw.part fn).link ext
    x.state ≠ 1 → x.state ≠ 2 → ∃ t, exec (.poolExtentGrant fn ext v0 v1) s = .next t ∧ Quiet s t ∧
      let y := extent (t.hw.part fn).link ext
      y.base = bits 51 16 v0.toNat ∧ y.state = 1 ∧ y.shared = bit 61 v1.toNat ∧ y.gen = (x.gen + 1) % 65536 ∧ y.size = bits 31 0 v1.toNat ∧
        ∀ n, n ≠ ext → extent (t.hw.part fn).link n = extent (s.hw.part fn).link n) ∧
  (∀ fn ext v s, let x := extent (s.hw.part fn).link ext
    x.state = 1 → x.shared = true → ∃ t, exec (.poolPublication fn ext none v) s = .next t ∧ Quiet s t ∧
      let y := extent (t.hw.part fn).link ext
      (bits 63 32 v.toNat = (x.seq + 1) % 2 ^ 32 → y = { x with seq := bits 63 32 v.toNat, tag := bits 31 0 v.toNat }) ∧
      (bits 63 32 v.toNat ≠ (x.seq + 1) % 2 ^ 32 → y = x)) ∧
  (∀ fn ext v s id o z, let x := extent (s.hw.part fn).link ext
    x.state = 1 → x.shared = true → s.hw.op id = some o → o.part = fn → o.kind = .store [z] 8 → o.chain = none → z.st = 1 →
    z.tgt.space = 3 → z.tgt.tgt = ext → z.tgt.pa = 0 →
    ∃ h o', exec (.poolPublication fn ext (some id) v) s = .next (landOp (s.with h) o' fun _ => 0) ∧ o'.id = o.id ∧ o'.gk = o.gk ∧
      h.gangs = s.hw.gangs ∧
      (extent (h.part fn).link ext).result =
        some (bits 63 32 z.val.toNat, if bits 63 32 z.val.toNat = (x.seq + 1) % 2 ^ 32 then 0 else 1))

/-- fmcr and what its groups do: their states and status words, routes, group entries; markers, locks, time-outs and the loss of lock;
a peer's requests (19_links R373-R377, R383). Where the spec leaves it open this rests on the model's choices (log 54, 56, 57, 58, 82, 84, 95). -/
def Obligations.FabricGroups : Prop :=
  (∀ k gs ok, ((∃ g ∈ gs, bit g k.fgroups = false) → fmcrStatus k gs ok = 3) ∧
    ((∀ g ∈ gs, bit g k.fgroups = true) → (∃ g ∈ gs, groupState k g ∉ ok) → fmcrStatus k gs ok = 2) ∧
    ((∀ g ∈ gs, bit g k.fgroups = true) → (∀ g ∈ gs, groupState k g ∈ ok) → fmcrStatus k gs ok = 0)) ∧
  (∀ f s e, Issues Forms.fmcr f s e →
    let r := regsF Forms.fmcr f
    let k := (e.hw.part e.part).link
    let gs := bitList 16 ((e.sa r).toNat % 65536)
    (∀ i op ok, (i = Instr.fmcrDrain f ∧ op = 0 ∧ ok = [0, 1]) ∨ (i = Instr.fmcrRelock f ∧ op = 2 ∧ ok = [2, 3]) →
      (fmcrStatus k gs ok ≠ 0 ∨ gs = [] → Answers i s e r (fmcrStatus k gs ok) e.hw) ∧
      (fmcrStatus k gs ok = 0 → gs ≠ [] → Starts i s e r { e.newOp r (.fmcr op gs gs s.time) with dst := e.dest r } true
        (if op = 0 then gs.foldl (fun h g => h.send 15 e.part [g, s.time]) e.hw else beginRelock e.hw e.part op gs))) ∧
    (fmcrStatus k gs [1] ≠ 0 → Answers (.fmcrDark f) s e r (fmcrStatus k gs [1]) e.hw) ∧
    (fmcrStatus k gs [1] = 0 → Answers (.fmcrDark f) s e r 0 (setGroups e.hw e.part 2 gs)) ∧
    (2 ^ 17 ≤ (e.sa r).toNat → Answers (.fmcrRoute f) s e r 2 e.hw) ∧
    ((e.sa r).toNat < 2 ^ 17 →
      let v := (e.sb r).toNat
      Answers (.fmcrRoute f) s e r (k.routes.val 0 (e.sa r).toNat) (failDown (e.hw.setLink e.part fun k =>
        { k with routes := k.routes.put 0 (e.sa r).toNat (b2n (bit 63 v) * 2 ^ 63 + bits 35 32 v * 2 ^ 32 + bits 15 0 v) }) e.part)) ∧
    (4096 ≤ (e.sa r).toNat → Answers (.fmcrGroup f) s e r 2 e.hw) ∧
    ((e.sa r).toNat < 4096 → ∃ h, Answers (.fmcrGroup f) s e r (k.mcr.val 0 (e.sa r).toNat) h ∧ OnlyParts e.hw h ∧
      let v := (e.sb r).toNat
      let g := (e.sa r).toNat
      let y := (h.part e.part).link.mcr.val 0 g
      (mcrPair (bits 61 59 v) (bits 58 53 v) = true → y = setBits 62 62 0 v) ∧
        (mcrPair (bits 61 59 v) (bits 58 53 v) = false → y = setBits 63 63 0 (setBits 62 62 0 v)) ∧ delivOf h e.part g = 0 ∧
        ∀ n, n ≠ g → (h.part e.part).link.mcr.val 0 n = k.mcr.val 0 n ∧ delivOf h e.part n = delivOf e.hw e.part n) ∧
    Answers (.fmcrQuery f) s e r (groupStates k) e.hw) ∧
  (∀ hw p st gs g, groupState ((setGroups hw p st gs).part p).link g = if g ∈ gs then st else groupState (hw.part p).link g) ∧
  (∀ (i : Instr) (fn group op st : Nat) s o gs left t0,
    (i = .markerReturn fn group ∧ op = 0 ∧ st = 1 ∧ groupCarries (s.hw.part fn).link group = true) ∨
      (i = .fibreGroupLocked fn group ∧ op = 2 ∧ st = 0 ∧ groupCarries (s.hw.part fn).link group = false ∧
        s.hw.pkg.health.retired.contains (3, group) = false) →
    fmcrFor s.hw fn op group = [o] → s.hw.op o.id = some o → o.kind = .fmcr op gs left t0 →
      ((∀ g ∈ left, g = group) → exec i s = .next (landOp (s.with
        (setGroups s.hw fn st (if op = 0 then gs.filter (groupCarries (s.hw.part fn).link) else gs))) o fun _ => 0)) ∧
      ((∃ g ∈ left, g ≠ group) → ∃ t o', exec i s = .next t ∧ Quiet s t ∧ t.hw.op o.id = some o' ∧
        o'.kind = .fmcr op gs (left.filter (· != group)) t0 ∧ t.hw.parts = s.hw.parts)) ∧
  (∀ op s o k gs left t0, s.hw.op op = some o → o.kind = .fmcr k gs left t0 →
    (t0 + 1000000 ≤ s.time → exec (.fmcrTimeout op) s = .next (landOp (s.with (endRelock s.hw o.part k gs)) o fun _ => 1)) ∧
    (s.time < t0 + 1000000 → Holds (.fmcrTimeout op) s)) ∧
  (∀ fn group s, group < 16 → bit group (s.hw.part fn).link.fgroups = true →
    (groupCarries (s.hw.part fn).link group = true → ∃ t, exec (.fibreLockLoss fn group) s = .next t ∧ Quiet s t ∧
      groupState (t.hw.part fn).link group = 3 ∧
      ∀ g, g ≠ group → groupState (t.hw.part fn).link g = groupState (s.hw.part fn).link g) ∧
    (groupCarries (s.hw.part fn).link group = false → Holds (.fibreLockLoss fn group) s)) ∧
  (∀ op s o x ty, s.hw.op op = some o → (∀ y ∈ s.hw.ops, y.id = op → y = o) → o.kind = .load [x] ty → x.st = 0 → x.w ≠ 0 →
    x.tgt.space = 2 → peerSends (s.hw.part o.part).link x.tgt.peer = true → x.w + 100000 ≤ s.time →
    ∃ t o', exec (.fabricRequestTimeout op) s = .next t ∧ Quiet s t ∧ t.hw.op op = some o' ∧ o'.kind = .load [{ x with st := 2 }] ty ∧
      ∀ id y, id ≠ op → s.hw.op id = some y → t.hw.op id = some y) ∧
  (∀ fn a n s, (s.hw.part fn).present = true →
    (exported s.hw fn a n = true → exec (.peerRequest fn (.load a n)) s =
      .next (s.with (s.hw.send 8 fn (a :: (rdBytes s.mem fn a n).map (·.toNat))))) ∧
    (exported s.hw fn a n = false → exec (.peerRequest fn (.load a n)) s = .next (s.with (s.hw.send 9 fn [])))) ∧
  (∀ fn a bs s, (s.hw.part fn).present = true → (s.hw.part fn).link.hostLines = [] →
    (exported s.hw fn a bs.length = false → exec (.peerRequest fn (.store a bs)) s = .next (s.with (s.hw.send 9 fn []))) ∧
    (exported s.hw fn a bs.length = true → ∃ t, exec (.peerRequest fn (.store a bs)) s = .next t ∧ Quiet s t ∧
      t.hw.sent = s.hw.sent ++ [⟨8, fn, [a]⟩] ∧
      ∀ b, latestByte t.mem (t.hw.part fn).pend fn b =
        if a ≤ b ∧ b < a + bs.length then bs.getD (b - a) 0 else latestByte s.mem (s.hw.part fn).pend fn b)) ∧
  (∀ fn a ty y c s, (s.hw.part fn).present = true → 0 < Ty.width ty / 8 → a % (Ty.width ty / 8) = 0 → Forms.atomAdmits 9 ty = true →
    exported s.hw fn a (Ty.width ty / 8) = true →
    let old := (s.hw.part fn).arms.val 0 (lineOf a)
    ∃ t, exec (.peerRequest fn (.atomic a 9 ty y c)) s = .next t ∧ Quiet s t ∧ t.hw.sent = s.hw.sent ++ [⟨8, fn, [a, old]⟩] ∧
      (t.hw.part fn).arms.val 0 (lineOf a) = armNew old y.toNat (lineHolds s.hw fn (lineOf a)) ∧ (t.hw.part fn).pend = (s.hw.part fn).pend) ∧
  (∀ fn a op ty y c s, (s.hw.part fn).present = true → (s.hw.part fn).link.hostLines = [] → 0 < Ty.width ty / 8 → a % (Ty.width ty / 8) = 0 → op ≠ 9 →
    (op = 10 ∨ Forms.atomAdmits op ty = true) → exported s.hw fn a (Ty.width ty / 8) = true →
    ∃ t, exec (.peerRequest fn (.atomic a op ty y c)) s = .next t ∧ Quiet s t ∧
      t.hw.sent = s.hw.sent ++ [⟨8, fn, [a, latestNat s.mem s.hw fn a (Ty.width ty / 8)]⟩])

/-- fsig, fwait, delivered rounds and lost members (19_links R378-R382). Where the spec leaves it open this rests on the model's choices (log 55, 60). -/
def Obligations.Multicast : Prop :=
  (∀ f s e, Issues Forms.fsig f s e →
    let r := regsF Forms.fsig f
    let need : Need := { spaces := fun sp => sp == 2, a := true, width := 8, rd := true, wr := true }
    let refs : List Ref := [⟨lowLane e.act, f.hIdx, f.hOff⟩]
    (∀ t, e.counterFull = false → e.check need true refs = .stop (.trap t) → Traps (.fsig f) s e t) ∧
    (∀ es hw, e.counterFull = false → e.check need true refs = .ok es hw →
      (∀ sc b, e.releasing true = some (sc, b) → Parks (.fsig f) s e r .parked (.release sc b) e.hw) ∧
      (e.releasing true = none →
        let x := es.headD { lane := 0, tgt := {} }
        let w : Writes := { ops := [{ e.newOp r (.fsig { x with val := e.sa r }) with counts := true, id := hw.nextId }] }
        Room e r w hw → Retires (.fsig f) s e r w hw))) ∧
  (∀ f s e, Issues Forms.fwait f s e →
    let r := regsF Forms.fwait f
    let h := (e.sa r).toNat
    let x := readHandle e.hw s.mem e.part e.ctx h
    let k := (e.hw.part e.part).link
    let good := h < 4096 ∧ x.ok = true ∧ x.space = 4 ∧ x.tgt < 4096 ∧ bit 63 (k.mcr.val 0 x.tgt) = true
    (¬ good → Traps (.fwait f) s e { cause := 0x06, hit := e.act }) ∧
    (good → k.fen = false → Traps (.fwait f) s e { cause := 0x10, hit := e.act }) ∧
    (good → k.fen = true → groupLost e.hw e.part x.tgt = true → Traps (.fwait f) s e { cause := 0x12, info := x.tgt, hit := e.act }) ∧
    (good → k.fen = true → groupLost e.hw e.part x.tgt = false →
      ((e.sb r).toNat ≤ delivOf e.hw e.part x.tgt → Answers (.fwait f) s e r (delivOf e.hw e.part x.tgt) e.hw) ∧
      (delivOf e.hw e.part x.tgt < (e.sb r).toNat → Parks (.fwait f) s e r .parked (.fwait (e.sb r) x.tgt r.d) e.hw))) ∧
  (∀ q s e thr g d, envAt s q = some e → runsOn s.hw e.core e.ctx = true → e.q.wait = .fwait thr g d →
    (groupLost s.hw e.part g = true → exec (.fenceRetire q) s =
      .next (s.with (e.trapParked s.hw { cause := 0x12, info := g, hit := e.act }))) ∧
    (groupLost s.hw e.part g = false → thr.toNat ≤ delivOf s.hw e.part g →
      Resumes (.fenceRetire q) s e { s := [(d, word (delivOf s.hw e.part g))] } s.hw) ∧
    (groupLost s.hw e.part g = false → delivOf s.hw e.part g < thr.toNat → Holds (.fenceRetire q) s)) ∧
  (∀ fn group off data s ty,
    let k := (s.hw.part fn).link
    let v := k.mcr.val 0 group
    let m := bits 52 41 v + 1
    let n := Ty.width ty / 8
    let a := bits 19 0 v * 2 ^ 20 + off
    k.fen = true → bit 63 v = true → bit 62 v = false → Forms.tyOfCode (bits 58 53 v) = some ty → 0 < n → data.length = m * n →
    off % n = 0 → off + n ≤ bits 28 20 v * 2 ^ 20 → a + n ≤ partBytes s.hw fn →
    ∃ t p, exec (.mcrDelivery fn group off data) s = .next t ∧ Quiet s t ∧ (t.hw.part fn).pend = (s.hw.part fn).pend ++ [p] ∧
      p.addr = a ∧ p.bytes = toBytes n (canon ty (combTree (bits 61 59 v) ty 12 (contributions n m data))) ∧ p.id = s.hw.nextId ∧
      p.w = assignW (s.hw.part fn) (orderUnit a) s.time ∧ t.hw.nextId = s.hw.nextId + 1 ∧
      (t.hw.part fn).link.delivAt = k.delivAt ++ [(group, s.hw.nextId)] ∧ (t.hw.part fn).link.deliv = k.deliv) ∧
  (∀ n m bs, contributions n (m + 1) bs = ofBytes (bs.take n) :: contributions n m (bs.drop n)) ∧
  (∀ op ty x y r, combPairs op ty (x :: y :: r) = atomNew op ty x y :: combPairs op ty r) ∧
  (∀ op ty l, l.length ≤ 4096 → (combTree op ty 12 l = if l.length ≤ 1 then l.headD 0 else combTree op ty 12 (combPairs op ty l))) ∧
  (∀ hw p g i, (hw.part p).link.delivAt = [(g, i)] →
    ((∀ w ∈ (hw.part p).pend, w.id ≠ i) → delivOf (countDeliveries hw) p g = (delivOf hw p g + 1) % 2 ^ 64) ∧
    ((∃ w ∈ (hw.part p).pend, w.id = i) → delivOf (countDeliveries hw) p g = delivOf hw p g) ∧
    ∀ n, n ≠ g → delivOf (countDeliveries hw) p n = delivOf hw p n) ∧
  (∀ fn group s, (bit 63 ((s.hw.part fn).link.mcr.val 0 group) = false ∨ (s.hw.part fn).link.fen = false → Holds (.memberLost fn group) s) ∧
    (bit 63 ((s.hw.part fn).link.mcr.val 0 group) = true → (s.hw.part fn).link.fen = true → (∀ g ∈ s.hw.gangs, ∀ q ∈ g.2.paths, ∀ a b c, q.2.wait ≠ .fwait a b c) →
      ∃ t, exec (.memberLost fn group) s = .next t ∧ Quiet s t ∧ groupLost t.hw fn group = true ∧
        ∀ n, n ≠ group → (t.hw.part fn).link.mcr.val 0 n = (s.hw.part fn).link.mcr.val 0 n))

/-! ## Observation -/

/-- trc, cnt and the trace, trigger, counter and hold registers (21_observe R399-R408). Where the spec leaves it open this rests on the model's choices (log 67, 68, 69, 70). -/
def Obligations.Observation : Prop :=
  (∀ f s e, Issues Forms.trc f s e →
    let r := regsF Forms.trc f
    let h := e.traceRec e.hw 1 e.act.toNat ((e.sb r).toNat % 65536) (e.sa r).toNat
    let k := (s.hw.part e.part).link
    let ts := (s.hw.part e.part).trace.triggers ++
      ((triggerDsts (s.hw.part e.part).trace).filter fun d => peerReach k d).map fun d => (d, s.time)
    (f.op = 0 → Retires (.trc f) s e r {} h) ∧
    (f.op ≠ 0 → ∃ h', Retires (.trc f) s e r {} h' ∧ h'.gangs = s.hw.gangs ∧ h'.ops = s.hw.ops ∧
      h'.sent = s.hw.sent ++ (ts.filter fun x => peerSends k x.1).map (fun x => ⟨12, e.part, [x.1, x.2]⟩) ∧
      (h'.part e.part).trace.triggers = (ts.filter fun x => peerReach k x.1 && !peerSends k x.1) ∧
      ((s.hw.part e.part).trace.arm = true → (h'.part e.part).trace.frozen = true))) ∧
  (∀ hw p core t ws, traceOff (hw.part p) t = false → (hw.cluster (coreCluster core)).trace.length < 2048 →
    (hw.cluster (coreCluster core)).lost = 0 →
    let c := hw.cluster (coreCluster core)
    ((addTrace hw p core t ws).cluster (coreCluster core)).trace = c.trace ++ [ws.set 6 (c.seq * 2 ^ 32 + ws.getD 6 0)] ∧
      ((addTrace hw p core t ws).cluster (coreCluster core)).seq = (c.seq + 1) % 2 ^ 32) ∧
  (∀ f s e, Issues Forms.cnt f s e →
    let r := regsF Forms.cnt f
    let i := (e.sa r).toNat % 16
    (i ≤ 9 → Answers (.cnt f) s e r (slotCounter e.hw e.core s.time i) e.hw) ∧ (9 < i → Answers (.cnt f) s e r 0 e.hw) ∧
    Answers (.cntSnap f) s e r s.time (capture' e.hw e.core s.time) ∧
    (i ≤ 9 → Answers (.cntSaved f) s e r (capturedWord e.hw e.core i) e.hw) ∧ (9 < i → Answers (.cntSaved f) s e r 0 e.hw)) ∧
  (∀ hw core t i, (i ≤ 9 → capturedWord (capture' hw core t) core i = slotCounter hw core t i) ∧
    capturedWord (capture' hw core t) core 10 = t) ∧
  (∀ fn core s, WindowOpen s fn →
    (corePart s.hw core = some fn → exec (.counterTake fn core) s = .next (s.with (capture' s.hw core s.time))) ∧
    (corePart s.hw core ≠ some fn → ∃ t, exec (.counterTake fn core) s = .next t ∧ Quiet s t ∧ t.hw.cores = s.hw.cores ∧
      (t.hw.part fn).link.winerr = ((s.hw.part fn).link.winerr + 1) % 2 ^ 32)) ∧
  (∀ hw p core t ws, traceOff (hw.part p) t = false → 2048 ≤ (hw.cluster (coreCluster core)).trace.length →
    let c := hw.cluster (coreCluster core)
    (addTrace hw p core t ws).cluster (coreCluster core) = { c with lost := c.lost + 1 } ∧
      ((addTrace hw p core t ws).part p).trace.ovfLost = ((hw.part p).trace.ovfLost + 1) % 2 ^ 32) ∧
  (∀ fn cluster s, drainTurn s.hw fn ≠ some cluster → ∃ t, exec (.traceDrain fn cluster) s = .next t ∧ Quiet s t ∧
    t.hw.clusters = s.hw.clusters) ∧
  (∀ fn cluster s r rs,
    let x := (s.hw.part fn).trace
    (s.hw.cluster cluster).trace = r :: rs → drainTurn s.hw fn = some cluster → x.holding = [] → x.frozen = false → r.length ≤ 8 →
    r.getD 0 0 / 2 ^ 60 ≠ 1 → (x.prod + 2 ^ 32 - x.cons) % 2 ^ 32 < 2 ^ (x.log2n + 10) →
    ∃ t, exec (.traceDrain fn cluster) s = .next t ∧ Quiet s t ∧ (t.hw.cluster cluster).trace = rs ∧ (t.hw.part fn).trace.turn = cluster + 1 ∧
      t.hw.sent = s.hw.sent ++ [⟨11, fn, (x.base + 64 * (x.prod % 2 ^ (x.log2n + 10))) :: r⟩] ∧
      (t.hw.part fn).trace.prod = (x.prod + 1) % 2 ^ 32) ∧
  (∀ fn v s, WindowOpen s fn → ∃ t, exec (.trcfgWrite fn v) s = .next t ∧ Quiet s t ∧
    (t.hw.part fn).trace.base = bits 63 12 v.toNat * 4096 ∧ (t.hw.part fn).trace.log2n = bits 11 8 v.toNat ∧
    (t.hw.part fn).trace.en = bit 0 v.toNat) ∧
  (∀ fn dev origin s, ((s.hw.part fn).link.fen = false → Holds (.triggerReceived fn dev origin) s) ∧
    ((s.hw.part fn).link.fen = true → ∃ t, exec (.triggerReceived fn dev origin) s = .next t ∧ Quiet s t ∧
      let x := (s.hw.part fn).trace
      let y := (t.hw.part fn).trace
      (x.arm = true → x.frozen = false → y.frozen = true ∧ y.cutoff = (s.time + 1000 * x.post) % 2 ^ 64) ∧
        (x.arm = false ∨ x.frozen = true → y.frozen = x.frozen ∧ y.cutoff = x.cutoff))) ∧
  (∀ fn v s, WindowOpen s fn →
    (holdTarget s.hw fn v.toNat = none → ∀ i, i = Instr.dbgholdHold fn v ∨ i = Instr.dbgholdRelease fn v →
      ∃ t, exec i s = .next t ∧ Quiet s t ∧ (t.hw.part fn).hold.status = 1) ∧
    ∀ gk p q, holdTarget s.hw fn v.toNat = some (gk, p, q) →
      (q.state = .ready → q.wait.inOrder = false → ∃ t g' , exec (.dbgholdHold fn v) s = .next t ∧ t.mem = s.mem ∧ (t.hw.part fn).hold.status = 0 ∧
        t.hw.gangs.look gk = some g' ∧ g'.paths.look p = some { q with state := .held }) ∧
      (q.state = .parked ∨ q.state = .barrier ∨ q.state = .ready ∧ q.wait.inOrder = true → ∃ t g', exec (.dbgholdHold fn v) s = .next t ∧ t.mem = s.mem ∧
        (t.hw.part fn).hold.status = 0 ∧ t.hw.gangs.look gk = some g' ∧ g'.paths.look p = some { q with holdReq := true }) ∧
      (q.state = .stopped ∨ q.state = .held ∨ q.state = .rejoin →
        ∃ t, exec (.dbgholdHold fn v) s = .next t ∧ Quiet s t ∧ (t.hw.part fn).hold.status = 2) ∧
      (q.state = .held → ∃ t g', exec (.dbgholdRelease fn v) s = .next t ∧ t.mem = s.mem ∧ (t.hw.part fn).hold.status = 0 ∧
        t.hw.gangs.look gk = some g' ∧ g'.paths.look p = some { q with state := .ready, holdReq := false, age := 0 }) ∧
      (q.state ≠ .held → ∃ t, exec (.dbgholdRelease fn v) s = .next t ∧ Quiet s t ∧ (t.hw.part fn).hold.status = 2)) ∧
  (∀ hw gk g p q, hw.gangs.look gk = some g → g.paths.look p = some q → ∃ g', (takeHolds hw).gangs.look gk = some g' ∧
    g'.vregs = g.vregs ∧ g'.paths.look p = some (if q.holdReq = true ∧ q.state = .ready ∧ q.wait.inOrder = false then
      { q with state := .held, holdReq := false } else q))

/-! ## Launches -/

/-- glaunch, gsig, gcount and gwait check, wait and start as their rules say; a taken glaunch answers its number or status; a write wakes
the gwaits whose test it meets (04_launch R87, R88). Where the spec leaves it open this rests on the model's choices (log 24). -/
def Obligations.LaunchForms : Prop :=
  (∀ f s e, Issues Forms.glaunch f s e →
    let r := regsF Forms.glaunch f
    let o := offSum f.hOff (e.sb r).toNat 0
    let hd := readHandle e.hw s.mem e.part e.ctx f.hIdx
    let bad := handleBad e.hw e.part e.ctx f.hIdx { spaces := fun sp => sp == 0, r := true, width := 192 } hd
    (e.tableFull = true → Holds (.glaunch f) s) ∧
    (e.tableFull = false →
      (bad = true → Traps (.glaunch f) s e { cause := 0x06, fault := handleFault f.hIdx o, hit := e.act }) ∧
      (bad = false → hd.len < o + 192 → Traps (.glaunch f) s e { cause := 0x05, fault := handleFault f.hIdx o, hit := e.act }) ∧
      (bad = false → o + 192 ≤ hd.len → (hd.base + o) % 64 ≠ 0 →
        Traps (.glaunch f) s e { cause := 0x08, fault := hd.base + o, hit := e.act }) ∧
      (bad = false → o + 192 ≤ hd.len → (hd.base + o) % 64 = 0 →
        (∀ l, readHeader e (hd.base + o) = .error l → Traps (.glaunch f) s e { cause := 0x07, info := l.1, fault := hd.base + o, hit := e.act }) ∧
        (∀ ws pas hw hw', readHeader e (hd.base + o) = .ok (ws, pas, hw) → e.watch hw true false true [(0, hd.base + o, 192)] = .ok hw' →
          let hdr := if 1024 ≤ queuedLaunches e.hw e.part e.ctx then [] else ws.set 8 (e.sa r).toNat
          let op := { e.newOp r (.glaunch hdr (word (hd.base + o))) with entry := true, dst := e.dest r }
          let h := hw'.setCore e.core fun c => { c with wtPeak := max c.wtPeak (waitEntries hw' e.core + 1) }
          (∀ pa ∈ pas, clear e.hw { op with id := 0 } { lane := 0, tgt := { pa := pa } } 64 true = true) →
          Room e r { ops := [op] } h → Retires (.glaunch f) s e r { ops := [op] } h)))) ∧
  (∀ (fm : Form) (con : Fields → Instr) (add : Bool), (fm = Forms.gsig ∧ con = Instr.gsig ∧ add = true) ∨
      (fm = Forms.gcount ∧ con = Instr.gcount ∧ add = false) →
    ∀ f s e, Issues fm f s e →
      let r := regsF fm f
      (∀ t, e.counterFull = false → e.checkWord (e.sa r).toNat true true = .stop (.trap t) → Traps (con f) s e t) ∧
      (∀ es hw, e.counterFull = false → e.checkWord (e.sa r).toNat true true = .ok es hw →
        (∀ sc b, e.releasing false = some (sc, b) → Parks (con f) s e r .parked (.release sc b) e.hw) ∧
        (e.releasing false = none → Starts (con f) s e r
          { e.newOp r (.counter { es.headD { lane := 0, tgt := {} } with val := e.sb r } add) with counts := true, dst := e.dest r } (!add) hw))) ∧
  (∀ f s e, Issues Forms.gwait f s e →
    let r := regsF Forms.gwait f
    (e.tableFull = true → Holds (.gwait f) s) ∧
    (∀ t, e.tableFull = false → e.checkWord (e.sa r).toNat true false = .stop (.trap t) → Traps (.gwait f) s e t) ∧
    (∀ es hw, e.tableFull = false → e.checkWord (e.sa r).toNat true false = .ok es hw →
      let pa := (es.headD { lane := 0, tgt := {} }).tgt.pa
      let v := rdNat s.mem e.part pa 8
      let busy := counterBusy e.hw e.gk e.p pa || (e.hw.part e.part).pend.any fun w => w.gk == e.gk && bit e.p w.paths &&
        decide (w.addr < pa + 8) && decide (pa < w.addr + w.bytes.length)
      (busy = false → (e.sb r).toNat ≤ v → Answers (.gwait f) s e r v hw) ∧
      (busy = true ∨ v < (e.sb r).toNat →
        Stays (.gwait f) s e r (notePeak (e.park r .parked (.gwait pa (e.sb r) r.d) hw) e.core)))) ∧
  (∀ q s e, envAt s q = some e → ((∀ d v, e.q.wait ≠ .woken d v) ∨ runsOn s.hw e.core e.ctx = false → Holds (.gwaitWake q) s) ∧
    ∀ d v, e.q.wait = .woken d v → runsOn s.hw e.core e.ctx = true → Resumes (.gwaitWake q) s e { s := [(d, v)] } s.hw) ∧
  (∀ m p (w : PWrite) hw gk g k q, hw.gangs.look gk = some g → g.paths.look k = some q → g.part = p →
    ∃ g' q', (wakeCounters m p w hw).gangs.look gk = some g' ∧ g'.paths.look k = some q' ∧ g'.vregs = g.vregs ∧
      (∀ pa thr d, q.wait = .gwait pa thr d → w.addr < pa + 8 → pa < w.addr + w.bytes.length → thr.toNat ≤ rdNat m p pa 8 →
        counterBusy hw gk k pa = false → q' = { q with wait := .woken d (word (rdNat m p pa 8)) }) ∧
      (∀ pa thr d, q.wait = .gwait pa thr d → rdNat m p pa 8 < thr.toNat → q' = q) ∧
      ((∀ pa thr d, q.wait ≠ .gwait pa thr d) → q' = q)) ∧
  (∀ id s o c hdr addr, s.hw.op id = some o → o.kind = .glaunch hdr addr → s.hw.ctx o.part o.ctx = some c → c.state ≠ .killing →
    let x := takeHeader s.hw s.mem o.part o.ctx (.device c.nextNum) addr 0 hdr
    (hdr = [] → exec (.deviceQueueTake id) s = .next (landOp s o fun _ => word 0x84)) ∧
    (hdr ≠ [] → x.1 ≠ 1 → exec (.deviceQueueTake id) s = .next (landOp (s.with x.2) o fun _ => word x.1)) ∧
    (hdr ≠ [] → x.1 = 1 → ∃ h, exec (.deviceQueueTake id) s = .next (landOp (s.with h) o fun _ => word (c.nextNum * 2 ^ 32 + 1)) ∧
      h.launches = x.2.launches ∧ h.gangs = x.2.gangs ∧ ∀ c', h.ctx o.part o.ctx = some c' →
        c'.nextNum = if c.nextNum = 0xFFFFFFFF then 1 else c.nextNum + 1))

/-- From queue to completion: headers checked, launches accepted, eligible, bound, started, ended and reported (04_launch R70-R85, R90). Where the spec leaves it open this rests on the model's choices (log 20, 21, 23, 40, 101). -/
def Obligations.LaunchFlow : Prop :=
  (∀ hw m p c src addr pa h, (hdrBad h = true → takeHeader hw m p c src addr pa h = (0x81, hw)) ∧
    (hdrBad h = false → hdrDone h = 0 → (∀ k, k < 4 → (hdrDep h k).1 = 0) →
      let st := fitStatus hw p h
      (takeHeader hw m p c src addr pa h).1 = st ∧ (st ≠ 1 → (takeHeader hw m p c src addr pa h).2 = hw) ∧
      (st = 1 → (takeHeader hw m p c src addr pa h).2 = { hw with
        launches := hw.launches.ins hw.nextId { part := p, ctx := c, src := src, addr := addr, hdr := h, doneAt := none, deps := [], slotPa := pa }
        nextId := hw.nextId + 1 }))) ∧
  (∀ fn q s, let x := (s.hw.part fn).queue q
    let n := (x.tail + 2 ^ 32 - x.prog) % 2 ^ 32
    let va := x.base + 256 * (x.prog % 2 ^ x.log2n)
    (x.en = false ∨ x.state ≠ 0 ∨ n = 0 ∨ (s.hw.part fn).quiesce = true → Holds (.launchTake fn q) s) ∧
    ((s.hw.part fn).present = true → q < 64 → x.en = true → x.state = 0 → n ≠ 0 → (s.hw.part fn).quiesce = false →
      (2 ^ x.log2n < n → exec (.launchTake fn q) s = .next (s.with (s.hw.setQueue fn q fun x => { x with ovf := true, state := 3 }))) ∧
      (n ≤ 2 ^ x.log2n → s.hw.ctx fn x.ctx = none →
        exec (.launchTake fn q) s = .next (s.with (s.hw.setQueue fn q fun x => { x with xerr := true, state := 3 }))) ∧
      (∀ c l h, n ≤ 2 ^ x.log2n → s.hw.ctx fn x.ctx = some c → c.state ≠ .killing → translate s.hw s.mem fn x.ctx va = (.error l, h) →
        exec (.launchTake fn q) s = .next (s.with (s.hw.setQueue fn q fun x => { x with xerr := true, state := 3 }))) ∧
      (∀ c t h, n ≤ 2 ^ x.log2n → s.hw.ctx fn x.ctx = some c → c.state ≠ .killing → translate s.hw s.mem fn x.ctx va = (.ok t, h) →
        t.kind ≠ 0 ∨ t.r = false ∨ t.w = false →
        exec (.launchTake fn q) s = .next (s.with (s.hw.setQueue fn q fun x => { x with xerr := true, state := 3 }))) ∧
      (∀ c t h, n ≤ 2 ^ x.log2n → s.hw.ctx fn x.ctx = some c → c.state ≠ .killing → translate s.hw s.mem fn x.ctx va = (.ok t, h) →
        t.kind = 0 → t.r = true → t.w = true →
        let r := takeHeader h s.mem fn x.ctx (.host q (x.prog % 2 ^ x.log2n)) (word va) t.pa (bytesWords 24 (rdBytes s.mem fn t.pa 192))
        ∃ y w, exec (.launchTake fn q) s = .next y ∧ y.mem = s.mem ∧ y.hw.launches = r.2.launches ∧ y.hw.gangs = r.2.gangs ∧
          ((y.hw.part fn).queue q).prog = (x.prog + 1) % 2 ^ 32 ∧ (y.hw.part fn).pend = (r.2.part fn).pend ++ [w] ∧
          w.addr = t.pa + 0xC0 ∧ w.bytes = toBytes 8 r.1))) ∧
  (∀ n s l, s.hw.launches.look n = some l → (l.eligible = true → Holds (.launchEligible n) s) ∧
    (l.eligible = false →
      let left := l.deps.filter fun d => decide (rdNat s.mem l.part d.1 8 < d.2)
      ∃ t l', exec (.launchEligible n) s = .next t ∧ Quiet s t ∧ t.hw.launches.look n = some l' ∧ l'.deps = left ∧
        l'.eligible = left.isEmpty ∧ l'.hdr = l.hdr ∧ l'.bound = l.bound ∧ l'.ended = l.ended)) ∧
  (∀ core bank idx (words : List Word) n s l, s.hw.launches.look n = some l →
    let im := s.hw.image core l.ctx
    let w := words.map (·.toNat)
    (recGood s.hw core bank idx w n l = false → Holds (.bindRecord core bank idx words n) s) ∧
    (recGood s.hw core bank idx w n l = true → ∃ t, exec (.bindRecord core bank idx words n) s = .next t ∧ Quiet s t ∧
      (t.hw.image core l.ctx).ltable.look (recLidx w) = some n ∧
      (recBad (im.records.vals.map (·.1)) (hdrExt l.hdr 1) w = true → (t.hw.image core l.ctx).records = im.records ∧
        t.hw.launches = s.hw.launches ∧ (t.hw.core core).rejects = (s.hw.core core).rejects + 1) ∧
      (recBad (im.records.vals.map (·.1)) (hdrExt l.hdr 1) w = false → (t.hw.image core l.ctx).records.look idx = some (w, n) ∧
        (∀ k, k ≠ idx → (t.hw.image core l.ctx).records.look k = im.records.look k) ∧
        t.hw.launches.look n = some { l with bound := w.getD 0 0 :: l.bound }))) ∧
  (∀ hw core bank idx w n l,
    ((recAcc w).2 ≠ hdrAcc l.hdr ∨ (recScr w).2 ≠ hdrScr l.hdr ∨ outranked hw core bank l = true ∨
      (∀ c, hw.ctx l.part l.ctx = some c → c.state = .killing) ∨
      (hdrC3 l.hdr = true ∧ ∃ x ∈ boundOn hw n fun b => sameGroup l.hdr b (w.getD 0 0), coreCluster x.1 ≠ coreCluster core)) →
    recGood hw core bank idx w n l = false) ∧
  (∀ os ext1 w, recBad os ext1 w = true ↔ (recSlots w).length ≠ ext1 ∨ 192 < (recAcc w).1 + (recAcc w).2 ∨ 15 < (recScr w).1 + (recScr w).2 ∨
    ∃ o ∈ os, (∃ k ∈ recSlots o, k ∈ recSlots w) ∨ (∃ k ∈ recTiles o, k ∈ recTiles w) ∨ ∃ k ∈ recUnits o, k ∈ recUnits w) ∧
  (∀ core bank idx s c w n l, bankCtx s.hw core bank = some c → (s.hw.image core c).records.look idx = some (w, n) →
    s.hw.launches.look n = some l →
    let stag := bits 61 46 (hdrWord l.hdr 1)
    (bit 32 (hdrWord l.hdr 1) = true → l.bound.length ≠ blockCount l.hdr → Holds (.blockStart core bank idx) s) ∧
    (hdrC3 l.hdr = true → (l.bound.filter fun x => sameGroup l.hdr x (w.getD 0 0)).length ≠ hdrExt l.hdr 2 →
      Holds (.blockStart core bank idx) s) ∧
    (together s.hw n l (w.getD 0 0) = true → (s.hw.core core).act = bank → (s.hw.core core).flipAt = none → coreUp s.hw core = true → ctxRuns s.hw l.part c = true →
    w.getD 1 0 ≤ s.time → l.eligible = true → l.floor ≤ s.time → recBlock s.hw core c n w = none →
    (∀ t, l.starts.look (2 * coreCluster core + bank) = some t → t + stag ≤ s.time) →
    (∀ k ∈ recSlots w, slotTaken s.hw (gangKey core c k) = false) → (∀ u ∈ recUnits w, ∀ b, (s.hw.core core).units.look u = some b → b = bank) →
    ∃ t b, exec (.blockStart core bank idx) s = .next t ∧ t.mem = s.mem ∧ t.time = s.time ∧ t.hw.ops = s.hw.ops ∧
      t.hw.blocks.look s.hw.nextId = some b ∧ b.launch = n ∧ b.core = core ∧ b.ctx = c ∧ b.blk = word (w.getD 0 0) ∧ b.slots = recSlots w ∧
      (b.accb, b.accn) = recAcc w ∧ (b.spb, b.spn) = recScr w ∧ b.scr = [] ∧
      (∀ k ∈ recSlots w, ∃ g q, t.hw.gangs.look (gangKey core c k) = some g ∧ g.block = s.hw.nextId ∧ g.launch = n ∧
        g.tag = word (hdrWord l.hdr 9) ∧ g.vregs = [] ∧ g.exited = 0 ∧ g.paths = [(0, q)] ∧ q.pc = word (hdrWord l.hdr 0) ∧
        q.mask = BitVec.allOnes 32 ∧ q.state = .ready ∧ q.cl.inside = false ∧ q.sr 0 = word (hdrWord l.hdr 8) ∧ q.sr 1 = l.addr) ∧
      (∀ gk, (∀ k ∈ recSlots w, gk ≠ gangKey core c k) → t.hw.gangs.look gk = s.hw.gangs.look gk))) ∧
  (∀ core bank idx s c w n l bk b, bankCtx s.hw core bank = some c → (s.hw.image core c).records.look idx = some (w, n) →
    s.hw.launches.look n = some l → recBlock s.hw core c n w = some bk → hdrC3 l.hdr = false →
    (s.hw.blocks.filter fun x => x.2.launch == n && x.1 == bk) = [(bk, b)] →
    (blockOver s.hw bk = false → Holds (.blockEnd core bank idx) s) ∧
    (blockOver s.hw bk = true → ∃ t l', exec (.blockEnd core bank idx) s = .next t ∧ t.mem = s.mem ∧ t.hw.gangs = s.hw.gangs ∧
      t.hw.blocks.look bk = none ∧ (t.hw.image core c).records.look idx = none ∧ t.hw.launches.look n = some l' ∧
      l'.ended = l.ended ++ [b.blk.toNat])) ∧
  (∀ n s l, s.hw.launches.look n = some l →
    let killing := ∃ c, s.hw.ctx l.part l.ctx = some c ∧ c.state = .killing
    (launchOver s.hw n l = false ∨ killing → Holds (.launchComplete n) s) ∧
    (launchOver s.hw n l = true → ¬ killing →
      (l.doneAt = none ∨ (∃ w, l.doneW = some w ∧ w ≤ s.time) → ∃ t, exec (.launchComplete n) s = .next t ∧ Quiet s t ∧
        t.hw.launches.look n = none ∧ (∀ k, k ≠ n → t.hw.launches.look k = s.hw.launches.look k) ∧
        (∀ i ∈ t.hw.images, ∀ x ∈ i.2.ltable, x.2 ≠ n) ∧
        (∀ q slot, l.src = .host q slot → (t.hw.part l.part).vectors = (s.hw.part l.part).vectors ++ [(q, l.slotPa + 0xC0)] ∧
          ∃ x y, (t.hw.part l.part).pend = (s.hw.part l.part).pend ++ [x, y] ∧ x.addr = l.slotPa + 0xC8 ∧ x.bytes = toBytes 8 s.time ∧
            y.addr = l.slotPa + 0xC0 ∧ y.bytes = toBytes 8 2 ∧ x.w < y.w)) ∧
      (∀ a w, l.doneAt = some a → l.doneW = some w → s.time < w → Holds (.launchComplete n) s) ∧
      (∀ a, l.doneAt = some a → l.doneW = none → hostHolds s.hw l.part a = true →
        exec (.launchComplete n) s = .next (s.with (snoop s.hw l.part a))) ∧
      (∀ a, l.doneAt = some a → l.doneW = none → hostHolds s.hw l.part a = false → lineHeld s.hw l.part (lineOf a) s.hw.nextId = false →
        (∀ c, s.hw.ctx l.part l.ctx = some c → c.tail.en = false) →
        ∃ t p, exec (.launchComplete n) s = .next t ∧ Quiet s t ∧ (t.hw.part l.part).pend = (s.hw.part l.part).pend ++ [p] ∧ p.addr = a ∧
          p.bytes = toBytes 8 ((latestNat s.mem s.hw l.part a 8 + 1) % 2 ^ 64) ∧
          t.hw.launches.look n = some { l with doneW := some p.w, doneHeld := false }))) ∧
  (∀ hw p q a r, (hw.part p).vectors = (q, a) :: r →
    ((∃ w ∈ (hw.part p).pend, w.covers a 8 = true) → signalVectors p 1 hw = hw) ∧
    ((∀ w ∈ (hw.part p).pend, w.covers a 8 = false) →
      ((signalVectors p 1 hw).part p).vectors = r ∧
      (bit 32 (msixWord hw p (2 * q + 1)) = true → (signalVectors p 1 hw).sent = hw.sent ∧ bit q ((signalVectors p 1 hw).part p).pba = true) ∧
      (bit 32 (msixWord hw p (2 * q + 1)) = false → (signalVectors p 1 hw).sent = hw.sent ++
        [⟨5, p, [q, msixWord hw p (2 * q), bits 31 0 (msixWord hw p (2 * q + 1))]⟩])))

/-- The queue registers, a write of any register, and blocks to be bound again (04_launch R73-R76; 00_scope R7, R9; 20_power R395). Where the spec leaves it open this rests on the model's choices (log 22, 74, 75, 76, 77, 97, 98, 100, 102). -/
def Obligations.QueueRegisters : Prop :=
  (∀ fn q s, let x := (s.hw.part fn).queue q
    (x.en = true → x.state = 0 → exec (.queueSwitchOut fn q) s = .next (s.with (s.hw.setQueue fn q fun x => { x with state := 1 }))) ∧
    (x.en = true → x.state = 1 → ∃ t, exec (.queueSwitchOut fn q) s = .next t ∧ Quiet s t ∧ ((t.hw.part fn).queue q) = { x with state := 2 } ∧
      ∀ a, saveArea s.hw s.mem fn x = some a → ∃ y z l, (t.hw.part fn).pend = (s.hw.part fn).pend ++ y :: z :: l ∧ y.addr = a ∧
        y.bytes = toBytes 8 x.tail ∧ z.addr = a + 8 ∧ z.bytes = toBytes 8 x.prog ∧ l.map (·.addr) = (List.range 6).map fun i => a + 16 + 8 * i) ∧
    (x.en = false ∨ 2 ≤ x.state → Holds (.queueSwitchOut fn q) s) ∧
    (x.state ≠ 2 → Holds (.queueSwitchIn fn q) s) ∧
    (x.state = 2 → ∃ t, exec (.queueSwitchIn fn q) s = .next t ∧ Quiet s t ∧ ((t.hw.part fn).queue q).state = 0 ∧
      ((t.hw.part fn).queue q).prog = x.prog ∧
      (∀ a, saveArea s.hw s.mem fn x = some a → ((t.hw.part fn).queue q).tail = latestNat s.mem s.hw fn a 8 % 2 ^ 32) ∧
      (saveArea s.hw s.mem fn x = none → ((t.hw.part fn).queue q).tail = x.tail))) ∧
  (∀ fn q v s, WindowOpen s fn → q < 64 →
    let x := (s.hw.part fn).queue q
    (∃ t, exec (.qtailWrite fn q v) s = .next t ∧ Quiet s t ∧ (t.hw.part fn).queue q = { x with tail := v.toNat % 2 ^ 32 } ∧
      (x.state ≠ 1 → x.state ≠ 2 → (t.hw.part fn).pend = (s.hw.part fn).pend) ∧
      ∀ a, x.state = 1 ∨ x.state = 2 → saveArea s.hw s.mem fn x = some a →
        ∃ y, (t.hw.part fn).pend = (s.hw.part fn).pend ++ [y] ∧ y.addr = a ∧ y.bytes = toBytes 8 (v.toNat % 2 ^ 32)) ∧
    (∃ t, exec (.qcfgWrite fn q v) s = .next t ∧ Quiet s t ∧
      let y := (t.hw.part fn).queue q
      y.en = bit 0 v.toNat ∧ y.tail = x.tail ∧ y.base = x.base ∧
        (x.en = true → y.ctx = x.ctx ∧ y.log2n = x.log2n ∧ y.prog = x.prog ∧ y.state = x.state) ∧
        (x.en = false → y.ctx = bits 63 48 v.toNat ∧ y.log2n = max 4 (bits 7 4 v.toNat) ∧
          (bit 0 v.toNat = true → y.prog = x.tail ∧ y.state = 0) ∧ (bit 0 v.toNat = false → y.prog = x.prog)))) ∧
  (∀ fn off size v s, WindowOpen s fn →
    (size ≠ 8 ∨ off % 8 ≠ 0 → ∃ t, exec (.registerWrite fn off size v) s = .next t ∧ Quiet s t ∧
      (t.hw.part fn) = { s.hw.part fn with link := { (s.hw.part fn).link with winerr := ((s.hw.part fn).link.winerr + 1) % 2 ^ 32 } }) ∧
    (size = 8 →
      (off = 0x0048 → ∃ t, exec (.registerWrite fn off size v) s = .next t ∧ Quiet s t ∧ (t.hw.part fn).link.winerr = bits 31 0 v.toNat) ∧
      (off = 0x0118 → ∃ t, exec (.registerWrite fn off size v) s = .next t ∧ Quiet s t ∧
        (t.hw.part fn).link.expSize = bits 59 40 v.toNat ∧ (t.hw.part fn).link.expBase = bits 39 20 v.toNat) ∧
      (off = 0x0708 → ∃ t, exec (.registerWrite fn off size v) s = .next t ∧ Quiet s t ∧ (t.hw.part fn).stage = bits 5 0 v.toNat) ∧
      (∀ n, n < 32 → off = 0x0400 + 8 * n → ∃ t, exec (.registerWrite fn off size v) s = .next t ∧ Quiet s t ∧
        (t.hw.part fn).bps.val 0 n = debugWord false n v.toNat) ∧
      (∀ n, n < 16 → off = 0x0500 + 8 * n → ∃ t, exec (.registerWrite fn off size v) s = .next t ∧ Quiet s t ∧
        (t.hw.part fn).wps.val 0 n = debugWord true n v.toNat))) ∧
  (∀ n s, s.hw.launches.look n = none → ∃ t, exec (.blockRelaunch n) s = .next t ∧ Quiet s t ∧
    t.hw.pkg.lostBlocks = s.hw.pkg.lostBlocks.filter fun b => b.1 != n) ∧
  (∀ n s l, let lost := (s.hw.pkg.lostBlocks.filter fun b => b.1 == n).map (·.2)
    s.hw.launches.look n = some l → (lost = [] → Holds (.blockRelaunch n) s) ∧
    (lost ≠ [] → (∀ o ∈ s.hw.ops, o.launch ≠ n ∨ o.gk ≠ deadGang) →
      let h : Hw := { s.hw with pkg := { s.hw.pkg with lostBlocks := s.hw.pkg.lostBlocks.filter fun b => b.1 != n } }
      (canRelaunch h l = true → ∃ t l', exec (.blockRelaunch n) s = .next t ∧ t.mem = s.mem ∧ t.time = s.time ∧
        (hdrC3 l.hdr = false → Quiet s t) ∧ (∀ gk g, t.hw.gangs.look gk = some g → s.hw.gangs.look gk = some g) ∧ t.hw.launches.look n = some l' ∧
        (∀ b ∈ lost, b ∉ l'.bound ∧ b ∉ l'.ended) ∧ (hdrC3 l.hdr = false → ∀ b, b ∉ lost → (b ∈ l'.bound ↔ b ∈ l.bound))) ∧
      (canRelaunch h l = false → ∃ t, exec (.blockRelaunch n) s = .next t ∧ t.mem = s.mem ∧ t.hw.launches.look n = none ∧
        (∀ gk g, t.hw.gangs.look gk = some g → g.launch ≠ n) ∧
        ∀ q slot, l.src = .host q slot → ∃ w, w ∈ (t.hw.part l.part).pend ∧ w.addr = l.slotPa + 0xC0 ∧ w.bytes = toBytes 8 0x86)))

/-! ## Power -/

/-- The ceiling loop and performance states (20_power R385-R390). Where the spec leaves it open this rests on the model's choices (log 61, 62, 63). -/
def Obligations.PowerStates : Prop :=
  (∀ power s, let x := s.hw.pkg.ceiling
    (s.time < x.last + 1000 ∨ s.hw.pkg.up = false → Holds (.ceilingInterval power) s) ∧
    (x.last + 1000 ≤ s.time → s.hw.pkg.up = true → ∃ t, exec (.ceilingInterval power) s = .next t ∧ Quiet s t ∧
      let y := t.hw.pkg.ceiling
      let code := x.staged.getD x.code
      let c := ceilingW code
      y.last = x.last + 1000 ∧ y.pmeas = power % 65536 ∧ y.code = code ∧ y.staged = none ∧
      (c < power → y.excess = (x.excess + 1) % 65536) ∧ (power ≤ c → y.excess = x.excess) ∧
      (c < power → (∃ k ∈ allLive s.hw, (s.hw.cluster k).cap < 7) → y.hold = x.hold ∧ ∀ k ∈ allLive s.hw,
        (t.hw.cluster k).cap = if (s.hw.cluster k).cap < 7 then (s.hw.cluster k).cap + 1 else (s.hw.cluster k).cap) ∧
      (c < power → (∀ k ∈ allLive s.hw, 7 ≤ (s.hw.cluster k).cap) → y.hold = loopHold power c ∧
        ∀ k ∈ allLive s.hw, (t.hw.cluster k).holdTo = s.time + loopHold power c) ∧
      (x.staged = none → x.settle = 0 → power + 50 ≤ c → meanAtMost ((power :: x.history).take 1000) (c - 50) = true →
        y.hold = 0 ∧ (x.hold = 0 → ∀ k ∈ allLive s.hw, (t.hw.cluster k).cap = (s.hw.cluster k).cap - 1) ∧
          (x.hold ≠ 0 → t.hw.clusters = s.hw.clusters)))) ∧
  (∀ k s, ((s.hw.cluster k).goal = none → Holds (.pstateTransitionDone k) s) ∧
    ∀ g u, (s.hw.cluster k).goal = some (g, u) → (s.time < u → Holds (.pstateTransitionDone k) s) ∧
      (u ≤ s.time → (s.hw.cluster k).offSince = none → ∃ t, exec (.pstateTransitionDone k) s = .next t ∧ Quiet s t ∧ (t.hw.cluster k).cur = g ∧
        (t.hw.cluster k).trans = ((s.hw.cluster k).trans + 1) % 2 ^ 32 ∧ effState (t.hw.cluster k) = effState (s.hw.cluster k) ∧
        (effState (s.hw.cluster k) = g → (t.hw.cluster k).goal = none) ∧ ∀ j, j ≠ k → t.hw.cluster j = s.hw.cluster j)) ∧
  (∀ k temp s, k < 216 → ∃ t, exec (.thermalCap k temp) s = .next t ∧ Quiet s t ∧
    (105 ≤ temp → (t.hw.cluster k).thot = true) ∧ (temp ≤ 100 → (t.hw.cluster k).thot = false) ∧
    (100 < temp → temp < 105 → (t.hw.cluster k).thot = (s.hw.cluster k).thot) ∧
    (t.hw.cluster k).req = (s.hw.cluster k).req ∧ (t.hw.cluster k).cur = (s.hw.cluster k).cur) ∧
  (∀ fn k v s, WindowOpen s fn →
    (k < 216 → thirdPart s.hw (k / 72) = some fn → ∃ t, exec (.clpstWrite fn k v) s = .next t ∧ Quiet s t ∧
      (t.hw.cluster k).req = bits 2 0 v.toNat ∧ (t.hw.cluster k).trans = bits 63 32 v.toNat ∧ (t.hw.cluster k).cur = (s.hw.cluster k).cur ∧
      (clusterLive s.hw k = true → (s.hw.cluster k).goal = none → effState (t.hw.cluster k) ≠ (s.hw.cluster k).cur →
        (t.hw.cluster k).goal = some (effState (t.hw.cluster k),
          s.time + if onHigh (s.hw.cluster k).cur = onHigh (effState (t.hw.cluster k)) then 100 else 150))) ∧
    (216 ≤ k ∨ thirdPart s.hw (k / 72) ≠ some fn → ∃ t, exec (.clpstWrite fn k v) s = .next t ∧ Quiet s t ∧ t.hw.clusters = s.hw.clusters ∧
      (t.hw.part fn).link.winerr = ((s.hw.part fn).link.winerr + 1) % 2 ^ 32)) ∧
  (∀ fn v s, WindowOpen s fn →
    (fn = 0 → bits 7 0 v.toNat ≤ 192 → ∃ t, exec (.pwceilWrite fn v) s = .next t ∧ Quiet s t ∧ t.hw.parts = s.hw.parts ∧
      t.hw.pkg.ceiling.excess = bits 63 48 v.toNat ∧
      t.hw.pkg.ceiling.staged.getD t.hw.pkg.ceiling.code = bits 7 0 v.toNat ∧ t.hw.pkg.ceiling.code = s.hw.pkg.ceiling.code) ∧
    (fn ≠ 0 ∨ 192 < bits 7 0 v.toNat → ∃ t, exec (.pwceilWrite fn v) s = .next t ∧ Quiet s t ∧ t.hw.pkg = s.hw.pkg ∧
      (t.hw.part fn).link.winerr = ((s.hw.part fn).link.winerr + 1) % 2 ^ 32))

/-- Parking, over-current and the thermal cut (20_power R392-R397). Where the spec leaves it open this rests on the model's choices (log 64, 65, 66). -/
def Obligations.PowerLoss : Prop :=
  (∀ fn v s, WindowOpen s fn → ∃ t, exec (.parkctlWrite fn v) s = .next t ∧ Quiet s t ∧ t.hw.clusters = s.hw.clusters ∧
    ∀ d, d < 9 → (bit d (partDies s.hw fn) = true → bit d t.hw.pkg.parkReq = bit d v.toNat) ∧
      (bit d (partDies s.hw fn) = false → bit d t.hw.pkg.parkReq = bit d s.hw.pkg.parkReq)) ∧
  (∀ die s, die < 9 → bit die s.hw.pkg.parkReq = true → bit die s.hw.pkg.parked = false →
    (∀ k ∈ dieClusters die, (s.hw.cluster k).trace = [] ∧ ∀ c ∈ clusterCores k, banksEmpty s.hw c = true ∧
      ∀ t ∈ (s.hw.core c).acctag, t.2.state = 0 ∨ t.2.state = 2) →
    ∃ t, exec (.diePark die) s = .next t ∧ Quiet s t ∧ t.hw.cores = s.hw.cores ∧
      ∀ d, bit d t.hw.pkg.parked = (decide (d = die) || bit d s.hw.pkg.parked)) ∧
  (∀ die s, bit die s.hw.pkg.parkReq = false ∨ bit die s.hw.pkg.parked = true → Holds (.diePark die) s) ∧
  (∀ die s, bit die s.hw.pkg.parked = true → bit die s.hw.pkg.parkReq = false → ∃ t, exec (.dieUnpark die) s = .next t ∧ Quiet s t ∧
    (∀ d, bit d t.hw.pkg.parked = (decide (d ≠ die) && bit d s.hw.pkg.parked)) ∧
    ∀ k ∈ dieClusters die, (∀ c ∈ clusterCores k, (t.hw.core c).units = [] ∧ (t.hw.core c).acctag = [] ∧ (t.hw.core c).syncs = []) ∧
      ((s.hw.cluster k).shut = false → (s.hw.cluster k).retired = false → (s.hw.cluster k).fail = false → (t.hw.cluster k).cur = 7)) ∧
  (∀ quad s, let ks := (List.range 6).map fun i => 24 * (quad / 4) + 6 * (quad % 4) + i
    (36 ≤ quad ∨ bit quad s.hw.pkg.ocShut = true ∨ s.hw.pkg.up = false → Holds (.overCurrent quad) s) ∧
    (quad < 36 → bit quad s.hw.pkg.ocShut = false → s.hw.pkg.up = true → ∃ t, exec (.overCurrent quad) s = .next t ∧ t.mem = s.mem ∧
      t.time = s.time ∧ bit quad t.hw.pkg.ocShut = true ∧ t.hw.pkg.ocEvents = (s.hw.pkg.ocEvents + 1) % 65536 ∧
      (∀ k ∈ ks, (t.hw.cluster k).shut = true ∧ (t.hw.cluster k).goal = none ∧
        ((thirdPart s.hw (k / 72)).isSome = true → (t.hw.cluster k).trace = [])) ∧
      (∀ k, k ∉ ks → t.hw.cluster k = s.hw.cluster k) ∧
      (∀ gk, coreCluster (gkCore gk) ∉ ks → t.hw.gangs.look gk = s.hw.gangs.look gk) ∧
      (∀ gk b, coreCluster (gkCore gk) ∈ ks → (s.hw.image (gkCore gk) (gkCtx gk)).place = .bank b → t.hw.gangs.look gk = none))) ∧
  (∀ reason chiplet quad s, (s.hw.pkg.powered = false ∨ reason = 0 ∨ 2 < reason → Holds (.thermalCut reason chiplet quad) s) ∧
    (s.hw.pkg.powered = true → reason = 1 ∨ reason = 2 → ∃ t, exec (.thermalCut reason chiplet quad) s = .next t ∧ t.mem = [] ∧
      t.time = s.time ∧ t.hw.pkg.powered = false ∧ t.hw.pkg.cutValid = true ∧ t.hw.pkg.cutReason = reason ∧
      t.hw.pkg.cutChiplet = (if reason = 1 then chiplet % 32 else 0x1F) ∧ t.hw.pkg.cuts = (s.hw.pkg.cuts + 1) % 65536 ∧
      t.hw.pkg.cutTime = s.time ∧ t.hw.gangs = [] ∧ t.hw.ops = [] ∧ t.hw.launches = [])) ∧
  (∀ s, s.hw.pkg.powered = false → isPowerOn (takeTurn s).2.1.what = false → step s = .next (takeTurn s).2.2)

/-! ## Partitions -/

/-- Quiesce, release and reshape (22_partitions R410-R412, R415). Where the spec leaves it open this rests on the model's choices (log 87, 88). -/
def Obligations.PartitionCommands : Prop :=
  (∀ fn s, WindowOpen s fn →
    let q := s.hw.part fn
    exec (.ptcmdQuiesce fn) s = .next (s.with (s.hw.setPart fn fun q => { q with ptop := 1, ptstatus := 0, quiesce := true })) ∧
    (q.quiesce = true → q.faulted = false → exec (.ptcmdRelease fn) s =
      .next (s.with (s.hw.setPart fn fun q => { q with ptop := 2, ptstatus := 0, quiesce := false, quiesced := false }))) ∧
    (q.quiesce = false ∨ q.faulted = true → exec (.ptcmdRelease fn) s =
      .next (s.with (s.hw.setPart fn fun q => { q with ptop := 2, ptstatus := 2 }))) ∧
    let m := mapOf q.stage
    let ps := affected s.hw fn m
    (s.hw.pkg.reshape = none →
      (shapeOk m = false → exec (.ptcmdReshape fn) s = .next (s.with (s.hw.setPart fn fun q => { q with ptop := 3, ptstatus := 4 }))) ∧
      (shapeOk m = true → (∃ p ∈ ps, ∃ n, n < 64 ∧ queueBusy s.hw p n = true) →
        exec (.ptcmdReshape fn) s = .next (s.with (s.hw.setPart fn fun q => { q with ptop := 3, ptstatus := 1 }))) ∧
      (shapeOk m = true → (∀ p ∈ ps, ∀ n, n < 64 → queueBusy s.hw p n = false) → (∃ p ∈ ps, (s.hw.part p).quiesced = false) →
        exec (.ptcmdReshape fn) s = .next (s.with (s.hw.setPart fn fun q => { q with ptop := 3, ptstatus := 2 }))) ∧
      (shapeOk m = true → (∀ p ∈ ps, ∀ n, n < 64 → queueBusy s.hw p n = false) → (∀ p ∈ ps, (s.hw.part p).quiesced = true) →
        ∃ t, exec (.ptcmdReshape fn) s = .next t ∧ Quiet s t ∧ t.hw.pkg.reshape = some (fn, m) ∧
          ∀ p ∈ fn :: ps, (t.hw.part p).ptstatus = 0xFF))) ∧
  (∀ fn s, (s.hw.part fn).quiesce = true → allEmpty s.hw fn = true →
    exec (.quiesceComplete fn) s = .next (s.with (s.hw.setPart fn fun q => { q with quiesced := true }))) ∧
  (∀ fn s, (s.hw.part fn).quiesce = false ∨ allEmpty s.hw fn = false → Holds (.quiesceComplete fn) s) ∧
  (∀ core bank s p c, corePart s.hw core = some p → bankCtx s.hw core bank = some c → (s.hw.part p).quiesce = true → bank < 2 →
    (s.hw.image core c).records = [] → (s.hw.image core c).ltable = [] → workDone s.hw p core c = true →
    (∀ u ∈ (s.hw.core core).units, u.2 ≠ bank) → bankBusy (bankState s.hw core bank) = false → (s.hw.core core).flipAt = none →
    ∃ t, exec (.phobosBankEmpty core bank) s = .next t ∧ Quiet s t ∧ bankCtx t.hw core bank = none ∧
      bankState t.hw core bank = .empty ∧ (t.hw.image core c).place = .away ∧ t.hw.parts = s.hw.parts) ∧
  (∀ s, s.hw.pkg.reshape = none → Holds .reshapeComplete s) ∧
  (∀ s fn m, s.hw.pkg.reshape = some (fn, m) →
    let olds := affected s.hw fn m
    let ts := olds.flatMap (thirdsOf s.hw.pkg.map)
    let ps := olds ++ (List.range 3).filter fun p => !olds.contains p && (thirdsOf m p).any fun t => ts.contains t
    ∃ t, exec .reshapeComplete s = .next t ∧ t.time = s.time ∧ t.hw.pkg.map = m ∧ t.hw.pkg.reshape = none ∧
      (∀ p, p ∉ ps → t.hw.part p = (if p < 3 ∧ (s.hw.part p).present = true then { s.hw.part p with ptstatus := 0 } else s.hw.part p) ∧ ∀ a, rdByte t.mem p a = rdByte s.mem p a) ∧
      (∀ p ∈ ps, (∀ a, rdByte t.mem p a = 0) ∧ (t.hw.part p).present = !(thirdsOf m p).isEmpty ∧ (t.hw.part p).contexts = [] ∧
        (t.hw.part p).pend = [] ∧ (t.hw.part p).quiesced = false ∧ (t.hw.part p).ptstatus = 0 ∧ (t.hw.part p).stage = mapWord m ∧
        (t.hw.part p).gen = ((s.hw.part p).gen + 1) % 65536) ∧
      (∀ gk g, t.hw.gangs.look gk = some g → g.part ∉ ps) ∧ (∀ o ∈ t.hw.ops, o.part ∉ ps) ∧
      (∀ core, coreThird core ∈ ts → banksEmpty t.hw core = true))

/-- Errors and retirement, lost colours, RESYNC, attestation and bring-up (22_partitions R413-R419; 19_links R359-R362). Where the spec leaves it open this rests on the model's choices (log 71, 85, 86, 89). -/
def Obligations.DeviceHealth : Prop :=
  (∀ cls inst s, instanceOk cls inst = true → s.hw.pkg.up = true →
    let x := s.hw.pkg.health
    let n := errorsIn { x with events := x.events ++ [(cls, inst, s.time)] } s.time (fun c i => c == cls && i == inst)
    (threshold x cls = 0 ∨ x.retired.contains (cls, inst) = true ∨ n < threshold x cls → exec (.correctableError cls inst) s =
      .next (s.with { s.hw with pkg := { s.hw.pkg with health := { x with events := x.events ++ [(cls, inst, s.time)] } } })) ∧
    (threshold x cls ≠ 0 → x.retired.contains (cls, inst) = false → threshold x cls ≤ n →
      ∃ t, exec (.correctableError cls inst) s = .next t ∧ Quiet s t ∧ (cls, inst) ∈ t.hw.pkg.health.retired ∧
        (cls = 0 → (t.hw.cluster inst).doomed = true) ∧ (cls < 2 → t.hw.pkg.health.retiredCount = (x.retiredCount + 1) % 65536))) ∧
  (∀ hw t k, (hw.cluster k).doomed = true → (∀ c ∈ clusterCores k, banksEmpty hw c = true) →
    ((retireDoomed hw t).cluster k).retired = true ∧ (retireDoomed hw t).gangs = hw.gangs) ∧
  (∀ inst s, inst < 216 → s.hw.pkg.up = true → clusterLive s.hw inst = true →
    ∃ t, exec (.uncorrectableError 0 inst) s = .next t ∧ t.mem = s.mem ∧ t.time = s.time ∧ (t.hw.cluster inst).retired = true ∧
      ∀ k, k ≠ inst → t.hw.cluster k = s.hw.cluster k) ∧
  (∀ inst s p, inst < 192 → s.hw.pkg.up = true → thirdPart s.hw (inst / 64) = some p → (s.hw.part p).contexts = [] →
    exec (.uncorrectableError 1 inst) s =
      .next (s.with ((s.hw.setPart p fun q => { q with quiesce := true, quiesced := true, faulted := true }).send 10 p []))) ∧
  (∀ fn v s, WindowOpen s fn → ∃ t, exec (.resync fn v) s = .next t ∧ Quiet s t ∧
    (t.hw.part fn).resyncAddr = bits 63 12 v.toNat * 4096 ∧ (bit 0 v.toNat = false → t.hw.sent = s.hw.sent) ∧
    (bit 0 v.toNat = true → let a := bits 63 12 v.toNat * 4096
      let n := ((s.hw.part fn).resyncs + 1) % 2 ^ 32
      (t.hw.part fn).resyncs = n ∧ t.hw.sent = s.hw.sent ++
        [⟨13, fn, a :: (resyncWords s.hw fn s.time).flatMap fun w => [w.1, w.2]⟩, ⟨13, fn, [a, 0, 2 ^ 32 + n]⟩])) ∧
  (∀ fn v nonce s, WindowOpen s fn → nonce.length = 32 → bit 0 v.toNat = true → ∃ t ws, exec (.attest fn v nonce) s = .next t ∧ Quiet s t ∧
    t.hw.sent = s.hw.sent ++ [⟨14, fn, (bits 63 12 v.toNat * 4096 + 0x100) :: ws⟩] ∧ ws.length = 480 ∧ ws.getD 1 0 = s.time ∧
    ws.getD 2 0 = pkginv s.hw fn ∧ (ws.drop 3).take 4 = bytesWords 4 nonce) ∧
  (∀ b s, shapeOk b.map = false → Holds (.powerOnReset b) s) ∧
  (∀ b s, shapeOk b.map = true → ∃ t, exec (.powerOnReset b) s = .next t ∧ t.time = 0 ∧ t.mem = [] ∧ t.hw.gangs = [] ∧ t.hw.ops = [] ∧
    t.hw.launches = [] ∧ t.hw.pkg.powered = true ∧ t.hw.pkg.up = b.genuine ∧ t.hw.pkg.map = b.map ∧
    t.hw.pkg.ceiling.code = min 192 b.ceiling ∧ t.hw.pkg.cuts = s.hw.pkg.cuts ∧ t.hw.pkg.cutValid = s.hw.pkg.cutValid ∧
    t.hw.pkg.cutTime = s.hw.pkg.cutTime ∧
    (∀ p, p < 3 → (t.hw.part p).present = (!(thirdsOf b.map p).isEmpty && b.genuine) ∧ (t.hw.part p).contexts = [] ∧
      (t.hw.part p).trace.gateLost = (s.hw.part p).trace.gateLost) ∧
    (∀ k, k < 216 → (t.hw.cluster k).cur = 7 ∧ (t.hw.cluster k).req = b.req % 8)) ∧
  (∀ i j c s, (i = j ∨ 22 ≤ i ∨ 22 ≤ j ∨ 2 ≤ c ∨ bit c (orrtKept s.hw i j) = false → Holds (.colourFail i j c) s) ∧
    (i ≠ j → i < 22 → j < 22 → c < 2 → bit c (orrtKept s.hw i j) = true → ∃ t, exec (.colourFail i j c) s = .next t ∧ Quiet s t ∧
      bit c (orrtKept t.hw i j) = false ∧ bit (1 - c) (orrtKept t.hw i j) = bit (1 - c) (orrtKept s.hw i j) ∧
      ∀ a b, b < 32 → (a ≠ i ∨ b ≠ j) → bits 1 0 (orrtKept t.hw a b) = bits 1 0 (orrtKept s.hw a b)))

/-! ## The machine -/

/-- The machine after power-on reset and before bring-up: nothing runs, no byte of memory is set, every register that is not brought up
reads all ones, clusters are in P7, no context, queue, ring or trace is enabled, and memory has its form (00_scope R8; 22_partitions
R419; 20_power R385). Where the spec leaves it open this rests on the model's choices (log 1). -/
def Obligations.ResetState : Prop :=
  let s := State.reset
  s.Inv ∧ s.time = 0 ∧ (∀ p a, rdByte s.mem p a = 0) ∧ s.hw.gangs = [] ∧ s.hw.blocks = [] ∧ s.hw.launches = [] ∧ s.hw.ops = [] ∧
    s.hw.sent = [] ∧ s.hw.pkg.up = false ∧ s.hw.pkg.reshape = none ∧
    (∀ p, (s.hw.part p).present = false ∧ (s.hw.part p).contexts = [] ∧ (s.hw.part p).sring.en = false ∧ (s.hw.part p).trace.en = false ∧
      (s.hw.part p).sup = 0xFFFF ∧ (∀ q, ((s.hw.part p).queue q).en = false) ∧ ∀ off, windowRead s.hw p off = 2 ^ 64 - 1) ∧
    (∀ k, (s.hw.cluster k).cur = 7 ∧ (s.hw.cluster k).goal = none) ∧ ∀ k, banksEmpty s.hw k = true ∧ (s.hw.core k).act = 0

/-- Every step keeps the canonical form of memory (13_consistency R249; the model's own invariant). -/
def Obligations.InvariantKept : Prop :=
  ∀ s t, s.Inv → step s = .next t → t.Inv

/-- No instruction and no event changes committed memory or the time, but for power-on reset, a reshape, the loss of supply and an hset that
retires: a write becomes visible only when time reaches its W (13_consistency R248, R249; 12_handles R238). Bytes from 2^60 on are the
bridge's host sectors. -/
def Obligations.OnlyTimeStores : Prop :=
  ∀ i s t, exec i s = .next t → (∀ b, i ≠ .powerOnReset b) → (∀ a b c, i ≠ .thermalCut a b c) →
    t.time = s.time ∧ t.agenda = s.agenda ∧
    (i ≠ .reshapeComplete → ∀ p a, a < 2 ^ 60 →
      (∀ q e x v w, i = .fenceRetire q → envAt s q = some e → e.q.wait = .table x v w → p = e.part → a < x ∨ x + 8 ≤ a) →
      rdByte t.mem p a = rdByte s.mem p a)

/-- Decoding the bits of a well-formed instruction gives it back, with every field at every value it admits (02_formats R26-R36). -/
def Obligations.EncodeDecode : Prop :=
  ∀ i, wellFormed i = true → decode (encode i) = .ok i

/-- A turn runs what it names, once its time has passed: an event its own meaning; a path the instruction that the bytes at its PC
decode to, or the trap they deserve, its step log taking in what changed; a scheduler its opportunity; and what stands after every turn is
added. A fetched word is one the word has held since the write that R48 lets no fetch miss (02_formats R37, R47-R52; 17_tail R335). Where the
spec leaves it open this rests on the model's choices (log 2, 3, 10, 11). -/
def Obligations.StepRuns : Prop :=
  (∀ s dt i r, s.agenda = ⟨dt, .event i⟩ :: r → view i = .event → s.hw.pkg.powered = true →
    let s1 := passTime { s with agenda := r } dt
    step s = settleTurn s1 (exec i s1)) ∧
  (∀ s dt q r, s.agenda = ⟨dt, .issue q⟩ :: r → s.hw.pkg.powered = true →
    let s1 := passTime { s with agenda := r } dt
    ∀ e h f e', envAt s1 q = some e → e.mayIssue = true → stepGate s1 e = (true, h) →
      e.fetch s1.mem h = f → env ((s1.with f.2).aim q f.1) = some e' →
      let t := (s1.with f.2).aim q f.1
      (∀ a, f.1.bad = some a → step s = settleTurn s1 (.next (t.with (e'.trap
        { cause := 0x04, fault := a, hit := e'.act, straddle := some (straddleOf e'.q.pc.toNat f.1.len) })))) ∧
      (f.1.bad = none → e'.q.skipBp = true ∨ breakHit (t.hw.part e'.part) e'.ctx e'.q.pc.toNat e'.act = none →
        (∀ i, decode f.1.insn = .ok i → step s = settleTurn s1 (runLogged t e' i)) ∧
        (decode f.1.insn = .illegal → step s = settleTurn s1 (.next (t.with (e'.trap { cause := 0x01, hit := e'.act })))) ∧
        (∀ n, decode f.1.insn = .reserved n → ∃ c, (c = 0x01 ∨ c = 0x02) ∧
          step s = settleTurn s1 (.next (t.with (e'.trap { cause := c, hit := e'.act })))))) ∧
  (∀ s e i t, exec i s = .next t → ∃ h, runLogged s e i = .next (t.with h) ∧ SameButLogs t.hw h) ∧
  (∀ s dt core sched r, s.agenda = ⟨dt, .slot core sched⟩ :: r → s.hw.pkg.powered = true →
    let s1 := passTime { s with agenda := r } dt
    step s = settleTurn s1 (.next (slotTurn core sched s1))) ∧
  (∀ s, s.agenda = [] → s.hw.pkg.powered = true → ∀ dt i, Config.nextTurn s.turns = ⟨dt, .event i⟩ → view i = .event →
    let s1 := passTime { s with turns := s.turns + 1 } dt
    step s = settleTurn s1 (exec i s1)) ∧
  (∀ m p core ctx n va hw t h, translate hw m p ctx va = (.ok t, h) →
    let now := BitVec.ofNat 32 (rdNat m p t.pa 4)
    let ws := (h.part p).hist.val [] (t.pa / 4)
    (t.kind ≠ 0 ∨ t.x = false → (fetchWord m p core ctx n va hw).1 = none) ∧
    (t.kind = 0 → t.x = true →
      ∃ w, (fetchWord m p core ctx n va hw).1 = some w ∧ (w = now ∨ ∃ x ∈ ws, w = x.old) ∧
        (∀ x r, ws = x :: r → x.seq ≤ syncedWrite (h.core core).syncs n ws → w = now))) ∧
  (∀ m p core ctx n va hw l h, translate hw m p ctx va = (.error l, h) → (fetchWord m p core ctx n va hw).1 = none) ∧
  (∀ s dt, (passTime s dt).time = s.time + dt)

/-- Every instruction and event answers a next state in every state, and so does every step: the model stops nowhere (its own claim). -/
def Obligations.NothingStops : Prop :=
  (∀ i s, ∃ t, exec i s = .next t) ∧ ∀ s, ∃ t, step s = .next t

/-- What every form checks before it acts: its place in the clause, its privilege, its operands, and whether a lane is active
(02_formats R37, R39, R43, R44, R51, R52; 05_paths R94, R95). Where the spec leaves it open this rests on the model's choices (log 14, 15). -/
def Obligations.IssueGuards : Prop :=
  (∀ i fm f s e, view i = .w fm f → (∀ x, i ≠ .rejoin x ∧ i ≠ .rejoinL x) → env s = some e →
    let r := regsF fm f
    let ends := decide (2 ≤ fm.maj) && decide (fm.maj ≤ 5)
    (e.badPlace f.len ends f.fsel.toNat = true → Traps i s e { cause := 0x01, hit := e.act }) ∧
    (e.badPlace f.len ends f.fsel.toNat = false → fm.sup = true → e.sup = false → Traps i s e { cause := 0x03, hit := e.act }) ∧
    (e.badPlace f.len ends f.fsel.toNat = false → (fm.sup = true → e.sup = true) →
      (∀ x, i ≠ .vrel x ∧ i ≠ .vzero x) →
      (e.ready r = false → exec i s = .next (s.with (e.awaitOperands r))) ∧
      (e.ready r = true → ends = false → e.act = 0 → Retires i s e r.keep {} e.hw) ∧
      (e.ready r = true → ends = false → e.act ≠ 0 → e.flagsFull f.fsel.toNat = true → Holds i s))) ∧
  (∀ i fm f s e, view i = .s fm f → (∀ x, i ≠ .exit x) → env s = some e →
    let ends := decide (fm.maj = 1) && decide (fm.min = 3)
    (e.badPlace 4 ends 0 = true → Traps i s e { cause := 0x01, hit := e.act }) ∧
    (e.badPlace 4 ends 0 = false → e.ready (regsS fm f) = false → exec i s = .next (s.with (e.awaitOperands (regsS fm f))))) ∧
  (∀ (e : Env) len fsel, e.q.cl.inside = false → e.badPlace len false fsel = true ∧ e.badPlace len true fsel = true) ∧
  (∀ (e : Env) ends fsel len, e.q.cl.fin.toNat < e.q.pc.toNat + len → e.badPlace len ends fsel = true) ∧
  (∀ (e : Env) fsel len, e.q.cl.fin.toNat ≠ e.q.pc.toNat + len → e.badPlace len true fsel = true)

/-- Words written out from the encodings of the spec decode to the instructions they stand for (02_formats R28-R36). -/
def Obligations.WordsDecode : Prop :=
  decodeTableWord 64 0x00000027F8008601 = some (.beginClause
    { stall := 0, nohaz := true, rejoin := false, yld := false, setb := 15, seta := 15, wait := 1, clen := 3 }) ∧
  decodeTableWord 64 0x0040200300E18061 = some (.add { cls := 0, opt := 0, fsel := 0, lud := false, lub := false, lua := true
                                                       b := 4, a := 3, d := 7, ty := .i32, tail := .w }) ∧
  decodeTableWord 32 0x00709040 = some (.movS { lud := false, lua := false, sty := 0, a := 7, d := 9 }) ∧
  decodeTableWord 64 0xC0002804000007F9 = some (.trc { cls := 3, opt := 0, fsel := 0, lud := false, lub := false, lua := false
                                                       b := 5, a := 4, d := 0, ty := .none, tail := .w }) ∧
  decodeTableWord 64 0xC000000A018003F1 = some (.ckill { cls := 3, opt := 0, fsel := 0, lud := false, lub := false, lua := false
                                                         b := 0, a := 10, d := 12, ty := .none, tail := .w }) ∧
  decodeTableWord 64 0 = none
end

