-- ==== Sys2Proof/Laws/Elements.lean ====
section
/-! SUPPORT. Laws of sub-elements: what is read back from a word made element by element (06_registers R119). -/

namespace Sys2Proof.Machine

open Sys2Proof

theorem width_pos (t : Ty) : 0 < Ty.width t := by cases t <;> decide

theorem packElems_lt (w : Nat) (l : List Nat) : packElems w l < 2 ^ (w * l.length) := by
  induction l with
  | nil => simp [packElems]
  | cons x l ih =>
    rw [packElems, List.length_cons, Nat.mul_succ, Nat.pow_add, Nat.mul_comm (2 ^ (w * l.length))]
    have h1 : x % 2 ^ w < 2 ^ w := Nat.mod_lt _ (Nat.two_pow_pos w)
    calc x % 2 ^ w + 2 ^ w * packElems w l < 2 ^ w + 2 ^ w * packElems w l := by omega
      _ = 2 ^ w * (packElems w l + 1) := by rw [Nat.mul_add, Nat.mul_one, Nat.add_comm]
      _ ≤ 2 ^ w * 2 ^ (w * l.length) := Nat.mul_le_mul_left _ ih

theorem packElems_get (w : Nat) (l : List Nat) (j : Nat) (hj : j < l.length) :
    packElems w l / 2 ^ (w * j) % 2 ^ w = l.getD j 0 % 2 ^ w := by
  induction l generalizing j with
  | nil => simp at hj
  | cons x l ih =>
    cases j with
    | zero => simp [packElems]
    | succ j =>
      have hp : 0 < 2 ^ w := Nat.two_pow_pos w
      have hd : (x % 2 ^ w + 2 ^ w * packElems w l) / 2 ^ w = packElems w l := by
        rw [Nat.add_mul_div_left _ _ hp, Nat.div_eq_of_lt (Nat.mod_lt _ hp), Nat.zero_add]
      rw [packElems, Nat.mul_succ, Nat.add_comm (w * j), Nat.pow_add, ← Nat.div_div_eq_div_mul, hd, ih j (by simpa using hj)]
      simp

/-- An element of a packed word. -/
theorem subElem_pack {w : Nat} (hw : 0 < w) (l : List Nat) (hl : w * l.length ≤ 64) (j : Nat) (hj : j < l.length) :
    subElem w j (word (packElems w l)) = l.getD j 0 % 2 ^ w := by
  have h1 : packElems w l < 2 ^ 64 := Nat.lt_of_lt_of_le (packElems_lt w l) (Nat.pow_le_pow_right (by omega) hl)
  have h2 : w * j + w - 1 + 1 - w * j = w := by omega
  simp only [subElem, bits, word, BitVec.toNat_ofNat, Nat.mod_eq_of_lt h1, Nat.shiftRight_eq_div_pow, h2]
  exact packElems_get w l j hj

/-- An element of a word made element by element. -/
theorem subElem_mapElems {w j : Nat} (hw : 0 < w) (hj : j < 64 / w) (g : Nat → Nat) : subElem w j (mapElems w g) = g j % 2 ^ w := by
  rw [mapElems, subElem_pack hw _ (by simpa using Nat.mul_div_le 64 w) j (by simpa using hj)]
  simp [List.getD, hj]

theorem subElem_lt {w j : Nat} (hw : 0 < w) (x : Word) : subElem w j x < 2 ^ w := by
  have h2 : w * j + w - 1 + 1 - w * j = w := by omega
  simp only [subElem, bits, h2]; exact Nat.mod_lt _ (Nat.two_pow_pos w)

/-- An element of a word computed from two. -/
theorem subElem_zipElems {w j : Nat} (hw : 0 < w) (hj : j < 64 / w) (g : Nat → Nat → Nat) (x y : Word) :
    subElem w j (zipElems w g x y) = g (subElem w j x) (subElem w j y) % 2 ^ w := subElem_mapElems hw hj _

/-- An element of a word computed from three. -/
theorem subElem_zip3Elems {w j : Nat} (hw : 0 < w) (hj : j < 64 / w) (g : Nat → Nat → Nat → Nat) (x y z : Word) :
    subElem w j (zip3Elems w g x y z) = g (subElem w j x) (subElem w j y) (subElem w j z) % 2 ^ w := subElem_mapElems hw hj _

end Sys2Proof.Machine
end

