-- ==== Sys2Proof/Laws/Table.lean ====
section
/-! SUPPORT. Laws of sparse tables: reads after changes, and the canonical form they keep. -/

namespace Sys2Proof.Tab

variable {α : Type}

@[simp] theorem look_nil (k : Nat) : look ([] : Tab α) k = none := rfl

@[simp] theorem look_ins_same (t : Tab α) (k : Nat) (v : α) : look (ins t k v) k = some v := by
  induction t with
  | nil => simp [ins, look]
  | cons e t ih =>
    obtain ⟨j, w⟩ := e
    simp only [ins]
    split
    · simp [look]
    · split
      · simp [look]
      · rename_i h _; simp [look, h, ih]

theorem look_ins_other (t : Tab α) {k j : Nat} (v : α) (h : j ≠ k) : look (ins t k v) j = look t j := by
  induction t with
  | nil => simp [ins, look, Ne.symm h]
  | cons e t ih =>
    obtain ⟨i, w⟩ := e
    simp only [ins]
    split
    · rename_i hik; subst hik; simp [look, Ne.symm h]
    · split
      · simp [look, Ne.symm h]
      · simp only [look, ih]

theorem look_ins (t : Tab α) (k j : Nat) (v : α) : look (ins t k v) j = if j = k then some v else look t j := by
  split
  · subst_vars; simp
  · exact look_ins_other t v ‹_›

@[simp] theorem look_del_same (t : Tab α) (k : Nat) : look (del t k) k = none := by
  induction t with
  | nil => rfl
  | cons e t ih =>
    simp only [del, List.filter_cons]
    by_cases h : e.1 = k
    · simpa [h, del] using ih
    · simp only [bne_iff_ne, ne_eq, h, not_false_eq_true, if_true, look, if_false]; exact ih

theorem look_del_other (t : Tab α) {k j : Nat} (h : j ≠ k) : look (del t k) j = look t j := by
  induction t with
  | nil => rfl
  | cons e t ih =>
    simp only [del, List.filter_cons] at ih ⊢
    by_cases he : e.1 = k
    · simp [he, look, ← ih, Ne.symm h]
    · by_cases hj : e.1 = j
      · simp [look, hj, h]
      · simp [he, look, hj, ← ih]

theorem look_del (t : Tab α) (k j : Nat) : look (del t k) j = if j = k then none else look t j := by
  split
  · subst_vars; simp
  · exact look_del_other t ‹_›

theorem look_put [DecidableEq α] (d : α) (t : Tab α) (k j : Nat) (v : α) :
    look (put d t k v) j = if j = k then (if v = d then none else some v) else look t j := by
  unfold put; split <;> simp [look_ins, look_del, *]

theorem val_put [DecidableEq α] (d : α) (t : Tab α) (k j : Nat) (v : α) :
    val d (put d t k v) j = if j = k then v else val d t j := by
  unfold val; rw [look_put]; split <;> [split <;> simp_all; rfl]

theorem val_ins (d : α) (t : Tab α) (k j : Nat) (v : α) : val d (ins t k v) j = if j = k then v else val d t j := by
  unfold val; rw [look_ins]; split <;> simp

theorem look_upd (t : Tab α) (k j : Nat) (f : α → α) :
    look (upd t k f) j = if j = k then (look t k).map f else look t j := by
  unfold upd
  cases h : look t k with
  | none => by_cases hj : j = k <;> simp [hj, h]
  | some v => rw [look_ins]; simp

/-! ## The canonical form -/

theorem above_mono {lo lo' : Nat} (h : lo' ≤ lo) : ∀ t : Tab α, above lo t = true → above lo' t = true
  | [], _ => rfl
  | (j, _) :: t, ha => by
    simp only [above, Bool.and_eq_true, decide_eq_true_eq] at ha ⊢
    exact ⟨by omega, ha.2⟩

theorem above_ins {lo k : Nat} (v : α) (hk : lo < k) : ∀ t : Tab α, above lo t = true → above lo (ins t k v) = true
  | [], _ => by simp [ins, above, hk]
  | (j, w) :: t, ha => by
    simp only [above, Bool.and_eq_true, decide_eq_true_eq] at ha
    simp only [ins]
    split
    · subst_vars; simp [above, ha]
    · split
      · simp [above, *]
      · simp only [above, Bool.and_eq_true, decide_eq_true_eq]
        exact ⟨ha.1, above_ins v (by omega) t ha.2⟩

theorem above_filter (p : Nat × α → Bool) : ∀ (lo : Nat) (t : Tab α), above lo t = true → above lo (t.filter p) = true
  | _, [], _ => rfl
  | lo, (j, w) :: t, ha => by
    simp only [above, Bool.and_eq_true, decide_eq_true_eq] at ha
    have ih := above_filter p j t ha.2
    rw [List.filter_cons]
    split
    · simp [above, ha.1, ih]
    · exact above_mono (by omega) _ ih

theorem wf_of_above {lo : Nat} : ∀ t : Tab α, above lo t = true → wf t = true
  | [], _ => rfl
  | (_, _) :: _, ha => by simp only [above, Bool.and_eq_true] at ha; exact ha.2

theorem wf_ins (t : Tab α) (k : Nat) (v : α) (h : wf t = true) : wf (ins t k v) = true := by
  match t, h with
  | [], _ => rfl
  | (j, w) :: t, h =>
    simp only [wf] at h
    simp only [ins]
    split
    · subst_vars; exact h
    · split
      · simp [wf, above, *]
      · simp only [wf]; exact above_ins v (by omega) t h

theorem wf_filter (p : Nat × α → Bool) (t : Tab α) (h : wf t = true) : wf (t.filter p) = true := by
  match t, h with
  | [], _ => rfl
  | (j, w) :: t, h =>
    have := above_filter p j t h
    rw [List.filter_cons]; split
    · exact this
    · exact wf_of_above _ this

theorem wf_del (t : Tab α) (k : Nat) (h : wf t = true) : wf (del t k) = true := wf_filter _ t h

theorem mem_ins {t : Tab α} {k : Nat} {v : α} {e : Nat × α} (h : e ∈ ins t k v) : e = (k, v) ∨ e ∈ t := by
  induction t with
  | nil => simpa [ins] using h
  | cons a t ih =>
    obtain ⟨j, w⟩ := a
    simp only [ins] at h
    split at h
    · simp only [List.mem_cons] at h ⊢; tauto
    · split at h
      · simp only [List.mem_cons] at h ⊢; tauto
      · simp only [List.mem_cons] at h ⊢
        rcases h with h | h
        · tauto
        · rcases ih h with h | h <;> tauto

variable [DecidableEq α]

theorem wfD_nil (d : α) : wfD d ([] : Tab α) = true := rfl

theorem wfD_put (d : α) (t : Tab α) (k : Nat) (v : α) (h : wfD d t = true) : wfD d (put d t k v) = true := by
  simp only [wfD, Bool.and_eq_true, List.all_eq_true, decide_eq_true_eq] at h ⊢
  unfold put
  split
  · exact ⟨wf_del t k h.1, fun x hx => h.2 x (List.mem_of_mem_filter hx)⟩
  · refine ⟨wf_ins t k v h.1, fun x hx => ?_⟩
    rcases mem_ins hx with rfl | hx
    · assumption
    · exact h.2 x hx

theorem wfD_filter (d : α) (p : Nat × α → Bool) (t : Tab α) (h : wfD d t = true) : wfD d (t.filter p) = true := by
  simp only [wfD, Bool.and_eq_true, List.all_eq_true, decide_eq_true_eq] at h ⊢
  exact ⟨wf_filter p t h.1, fun x hx => h.2 x (List.mem_of_mem_filter hx)⟩

end Sys2Proof.Tab
end

