-- ==== Sys2Proof/Laws/Memory.lean ====
section
/-! SUPPORT. Laws of memory: what a store leaves at each address, and the canonical form every memory operation keeps. -/

namespace Sys2Proof.Machine

open Sys2Proof

/-- A byte after a store: the byte stored there, else what was there. -/
theorem val_storeBytes (m : Memory) (a : Nat) (bs : List Byte) (k : Nat) :
    (storeBytes m a bs).val 0 k = if a ≤ k ∧ k < a + bs.length then bs.getD (k - a) 0 else m.val 0 k := by
  induction bs generalizing m a with
  | nil => simp [storeBytes]
  | cons b bs ih =>
    rw [storeBytes, ih, Tab.val_put]
    by_cases h : k = a
    · subst h; simp
    · by_cases h2 : a + 1 ≤ k ∧ k < a + 1 + bs.length
      · have e : k - a = k - (a + 1) + 1 := by omega
        rw [if_pos h2, if_pos (by simp only [List.length_cons]; omega), e]; simp
      · rw [if_neg h2, if_neg h, if_neg (by simp only [List.length_cons]; omega)]

theorem storeBytes_wf (m : Memory) (a : Nat) (bs : List Byte) (h : Memory.wf m = true) : Memory.wf (storeBytes m a bs) = true := by
  induction bs generalizing m a with
  | nil => exact h
  | cons b bs ih => exact ih _ _ (Tab.wfD_put 0 m a b h)

theorem memWf_iff (m : Tab Memory) : memWf m = true ↔ Tab.wfD [] m = true ∧ ∀ e ∈ m, Memory.wf e.2 = true := by
  simp [memWf, List.all_eq_true]

theorem memWf_nil : memWf [] = true := rfl

theorem look_mem {α : Type} {t : Tab α} {k : Nat} {v : α} (h : t.look k = some v) : (k, v) ∈ t := by
  induction t with
  | nil => cases h
  | cons e t ih =>
    obtain ⟨j, w⟩ := e
    simp only [Tab.look] at h
    split at h
    · subst_vars; cases h; exact List.mem_cons_self ..
    · exact List.mem_cons_of_mem _ (ih h)

theorem memOf_wf {m : Tab Memory} (h : memWf m = true) (p : Nat) : Memory.wf (memOf m p) = true := by
  unfold memOf Tab.val
  cases hl : m.look p with
  | none => rfl
  | some v => exact ((memWf_iff m).1 h).2 _ (look_mem hl)

/-- Putting back a canonical memory keeps the form. -/
theorem memWf_put {m : Tab Memory} (h : memWf m = true) (p : Nat) {v : Memory} (hv : Memory.wf v = true) :
    memWf (m.put [] p v) = true := by
  obtain ⟨h1, h2⟩ := (memWf_iff m).1 h
  refine (memWf_iff _).2 ⟨Tab.wfD_put [] m p v h1, fun e he => ?_⟩
  unfold Tab.put at he
  split at he
  · exact h2 e (List.mem_of_mem_filter he)
  · rcases Tab.mem_ins he with rfl | he
    · exact hv
    · exact h2 e he

/-- Taking partitions out keeps the form. -/
theorem memWf_filter {m : Tab Memory} (h : memWf m = true) (f : Nat × Memory → Bool) : memWf (m.filter f) = true := by
  obtain ⟨h1, h2⟩ := (memWf_iff m).1 h
  exact (memWf_iff _).2 ⟨Tab.wfD_filter [] f m h1, fun e he => h2 e (List.mem_of_mem_filter he)⟩

/-- A store to one partition keeps the form. -/
theorem memWf_store {m : Tab Memory} (h : memWf m = true) (p a : Nat) (bs : List Byte) :
    memWf (m.put [] p (storeBytes (memOf m p) a bs)) = true :=
  memWf_put h p (storeBytes_wf _ _ _ (memOf_wf h p))

/-- A byte of any partition after a store to one. -/
theorem rdByte_store (m : Tab Memory) (p a : Nat) (bs : List Byte) (q k : Nat) :
    rdByte (m.put [] p (storeBytes (memOf m p) a bs)) q k =
      if q = p ∧ a ≤ k ∧ k < a + bs.length then bs.getD (k - a) 0 else rdByte m q k := by
  unfold rdByte memOf
  rw [Tab.val_put]
  by_cases hq : q = p
  · subst hq
    rw [if_pos rfl, val_storeBytes]
    by_cases h : a ≤ k ∧ k < a + bs.length
    · rw [if_pos h, if_pos ⟨rfl, h⟩]
    · rw [if_neg h, if_neg fun x => h x.2]
  · rw [if_neg hq, if_neg fun x => hq x.1]

theorem landWrite_wf (p : Nat) (x : Tab Memory × Hw) (w : PWrite) (h : memWf x.1 = true) : memWf (landWrite p x w).1 = true :=
  memWf_store h ..

/-- A fold over writes keeps the form when each of its steps does. -/
theorem foldl_memWf {α : Type} (f : Tab Memory × Hw → α → Tab Memory × Hw) (hf : ∀ x w, memWf x.1 = true → memWf (f x w).1 = true)
    (ws : List α) (x : Tab Memory × Hw) (h : memWf x.1 = true) : memWf (ws.foldl f x).1 = true := by
  induction ws generalizing x with
  | nil => exact h
  | cons w ws ih => exact ih _ (hf x w h)

theorem settlePart_wf (t p : Nat) (m : Tab Memory) (hw : Hw) (h : memWf m = true) : memWf (settlePart t p m hw).1 = true := by
  simp only [settlePart]
  split
  · exact h
  · refine foldl_memWf _ (fun x w hx => ?_) _ _ h
    split
    · exact hx
    · split
      · exact landWrite_wf p x w hx
      · split
        · exact landWrite_wf p _ w hx
        · exact hx

theorem foldl_settle_wf (t : Nat) (l : List Nat) (x : Tab Memory × Hw) (h : memWf x.1 = true) :
    memWf (l.foldl (fun (x : Tab Memory × Hw) p => settlePart t p x.1 x.2) x).1 = true :=
  foldl_memWf _ (fun x _ => settlePart_wf _ _ x.1 x.2) _ _ h

/-- Time keeps memory canonical. -/
theorem settle_wf (s : State) (dt : Nat) (h : memWf s.mem = true) : memWf (settle s dt).mem = true := by
  simp only [settle]
  exact foldl_settle_wf (s.time + dt) _ (s.mem, s.hw) h

/-- Releasing a sector keeps memory canonical. -/
theorem releaseSector_wf (s : State) (p sec : Nat) (b : Bool) (h : memWf s.mem = true) : memWf (releaseSector s p sec b).mem = true := by
  simp only [releaseSector]
  generalize bridgeAddr (64 * sec) = a
  generalize List.replicate 64 (0 : Byte) = bs
  exact memWf_store h p a bs

end Sys2Proof.Machine
end

