-- ==== Sys2Proof/Laws/State.lean ====
section
/-! SUPPORT. What each update of the machine leaves as it was: one lemma per field and update, true by unfolding. -/

namespace Sys2Proof.Machine

open Sys2Proof

@[simp] theorem Hw.setPart_pkg (hw : Hw) (p : Nat) (f : Part → Part) : (hw.setPart p f).pkg = hw.pkg := rfl
@[simp] theorem Hw.setPart_cores (hw : Hw) (p : Nat) (f : Part → Part) : (hw.setPart p f).cores = hw.cores := rfl
@[simp] theorem Hw.setPart_clusters (hw : Hw) (p : Nat) (f : Part → Part) : (hw.setPart p f).clusters = hw.clusters := rfl
@[simp] theorem Hw.setPart_images (hw : Hw) (p : Nat) (f : Part → Part) : (hw.setPart p f).images = hw.images := rfl
@[simp] theorem Hw.setPart_gangs (hw : Hw) (p : Nat) (f : Part → Part) : (hw.setPart p f).gangs = hw.gangs := rfl
@[simp] theorem Hw.setPart_blocks (hw : Hw) (p : Nat) (f : Part → Part) : (hw.setPart p f).blocks = hw.blocks := rfl
@[simp] theorem Hw.setPart_launches (hw : Hw) (p : Nat) (f : Part → Part) : (hw.setPart p f).launches = hw.launches := rfl
@[simp] theorem Hw.setPart_ops (hw : Hw) (p : Nat) (f : Part → Part) : (hw.setPart p f).ops = hw.ops := rfl
@[simp] theorem Hw.setPart_nextId (hw : Hw) (p : Nat) (f : Part → Part) : (hw.setPart p f).nextId = hw.nextId := rfl
@[simp] theorem Hw.setPart_free (hw : Hw) (p : Nat) (f : Part → Part) : (hw.setPart p f).free = hw.free := rfl
@[simp] theorem Hw.setPart_phys (hw : Hw) (p : Nat) (f : Part → Part) : (hw.setPart p f).phys = hw.phys := rfl
@[simp] theorem Hw.setPart_sent (hw : Hw) (p : Nat) (f : Part → Part) : (hw.setPart p f).sent = hw.sent := rfl

@[simp] theorem Hw.setCore_pkg (hw : Hw) (p : Nat) (f : Core → Core) : (hw.setCore p f).pkg = hw.pkg := rfl
@[simp] theorem Hw.setCore_parts (hw : Hw) (p : Nat) (f : Core → Core) : (hw.setCore p f).parts = hw.parts := rfl
@[simp] theorem Hw.setCore_clusters (hw : Hw) (p : Nat) (f : Core → Core) : (hw.setCore p f).clusters = hw.clusters := rfl
@[simp] theorem Hw.setCore_images (hw : Hw) (p : Nat) (f : Core → Core) : (hw.setCore p f).images = hw.images := rfl
@[simp] theorem Hw.setCore_gangs (hw : Hw) (p : Nat) (f : Core → Core) : (hw.setCore p f).gangs = hw.gangs := rfl
@[simp] theorem Hw.setCore_blocks (hw : Hw) (p : Nat) (f : Core → Core) : (hw.setCore p f).blocks = hw.blocks := rfl
@[simp] theorem Hw.setCore_launches (hw : Hw) (p : Nat) (f : Core → Core) : (hw.setCore p f).launches = hw.launches := rfl
@[simp] theorem Hw.setCore_ops (hw : Hw) (p : Nat) (f : Core → Core) : (hw.setCore p f).ops = hw.ops := rfl
@[simp] theorem Hw.setCore_nextId (hw : Hw) (p : Nat) (f : Core → Core) : (hw.setCore p f).nextId = hw.nextId := rfl
@[simp] theorem Hw.setCore_free (hw : Hw) (p : Nat) (f : Core → Core) : (hw.setCore p f).free = hw.free := rfl
@[simp] theorem Hw.setCore_phys (hw : Hw) (p : Nat) (f : Core → Core) : (hw.setCore p f).phys = hw.phys := rfl
@[simp] theorem Hw.setCore_sent (hw : Hw) (p : Nat) (f : Core → Core) : (hw.setCore p f).sent = hw.sent := rfl

@[simp] theorem Hw.setCluster_pkg (hw : Hw) (p : Nat) (f : Cluster → Cluster) : (hw.setCluster p f).pkg = hw.pkg := rfl
@[simp] theorem Hw.setCluster_parts (hw : Hw) (p : Nat) (f : Cluster → Cluster) : (hw.setCluster p f).parts = hw.parts := rfl
@[simp] theorem Hw.setCluster_cores (hw : Hw) (p : Nat) (f : Cluster → Cluster) : (hw.setCluster p f).cores = hw.cores := rfl
@[simp] theorem Hw.setCluster_images (hw : Hw) (p : Nat) (f : Cluster → Cluster) : (hw.setCluster p f).images = hw.images := rfl
@[simp] theorem Hw.setCluster_gangs (hw : Hw) (p : Nat) (f : Cluster → Cluster) : (hw.setCluster p f).gangs = hw.gangs := rfl
@[simp] theorem Hw.setCluster_blocks (hw : Hw) (p : Nat) (f : Cluster → Cluster) : (hw.setCluster p f).blocks = hw.blocks := rfl
@[simp] theorem Hw.setCluster_launches (hw : Hw) (p : Nat) (f : Cluster → Cluster) : (hw.setCluster p f).launches = hw.launches := rfl
@[simp] theorem Hw.setCluster_ops (hw : Hw) (p : Nat) (f : Cluster → Cluster) : (hw.setCluster p f).ops = hw.ops := rfl
@[simp] theorem Hw.setCluster_nextId (hw : Hw) (p : Nat) (f : Cluster → Cluster) : (hw.setCluster p f).nextId = hw.nextId := rfl
@[simp] theorem Hw.setCluster_free (hw : Hw) (p : Nat) (f : Cluster → Cluster) : (hw.setCluster p f).free = hw.free := rfl
@[simp] theorem Hw.setCluster_phys (hw : Hw) (p : Nat) (f : Cluster → Cluster) : (hw.setCluster p f).phys = hw.phys := rfl
@[simp] theorem Hw.setCluster_sent (hw : Hw) (p : Nat) (f : Cluster → Cluster) : (hw.setCluster p f).sent = hw.sent := rfl

@[simp] theorem Hw.setImage_pkg (hw : Hw) (c x : Nat) (f : Image → Image) : (hw.setImage c x f).pkg = hw.pkg := rfl
@[simp] theorem Hw.setImage_parts (hw : Hw) (c x : Nat) (f : Image → Image) : (hw.setImage c x f).parts = hw.parts := rfl
@[simp] theorem Hw.setImage_cores (hw : Hw) (c x : Nat) (f : Image → Image) : (hw.setImage c x f).cores = hw.cores := rfl
@[simp] theorem Hw.setImage_clusters (hw : Hw) (c x : Nat) (f : Image → Image) : (hw.setImage c x f).clusters = hw.clusters := rfl
@[simp] theorem Hw.setImage_gangs (hw : Hw) (c x : Nat) (f : Image → Image) : (hw.setImage c x f).gangs = hw.gangs := rfl
@[simp] theorem Hw.setImage_blocks (hw : Hw) (c x : Nat) (f : Image → Image) : (hw.setImage c x f).blocks = hw.blocks := rfl
@[simp] theorem Hw.setImage_launches (hw : Hw) (c x : Nat) (f : Image → Image) : (hw.setImage c x f).launches = hw.launches := rfl
@[simp] theorem Hw.setImage_ops (hw : Hw) (c x : Nat) (f : Image → Image) : (hw.setImage c x f).ops = hw.ops := rfl
@[simp] theorem Hw.setImage_nextId (hw : Hw) (c x : Nat) (f : Image → Image) : (hw.setImage c x f).nextId = hw.nextId := rfl
@[simp] theorem Hw.setImage_free (hw : Hw) (c x : Nat) (f : Image → Image) : (hw.setImage c x f).free = hw.free := rfl
@[simp] theorem Hw.setImage_phys (hw : Hw) (c x : Nat) (f : Image → Image) : (hw.setImage c x f).phys = hw.phys := rfl
@[simp] theorem Hw.setImage_sent (hw : Hw) (c x : Nat) (f : Image → Image) : (hw.setImage c x f).sent = hw.sent := rfl

@[simp] theorem Hw.setGang_pkg (hw : Hw) (k : Nat) (f : Gang → Gang) : (hw.setGang k f).pkg = hw.pkg := rfl
@[simp] theorem Hw.setGang_parts (hw : Hw) (k : Nat) (f : Gang → Gang) : (hw.setGang k f).parts = hw.parts := rfl
@[simp] theorem Hw.setGang_cores (hw : Hw) (k : Nat) (f : Gang → Gang) : (hw.setGang k f).cores = hw.cores := rfl
@[simp] theorem Hw.setGang_clusters (hw : Hw) (k : Nat) (f : Gang → Gang) : (hw.setGang k f).clusters = hw.clusters := rfl
@[simp] theorem Hw.setGang_images (hw : Hw) (k : Nat) (f : Gang → Gang) : (hw.setGang k f).images = hw.images := rfl
@[simp] theorem Hw.setGang_blocks (hw : Hw) (k : Nat) (f : Gang → Gang) : (hw.setGang k f).blocks = hw.blocks := rfl
@[simp] theorem Hw.setGang_launches (hw : Hw) (k : Nat) (f : Gang → Gang) : (hw.setGang k f).launches = hw.launches := rfl
@[simp] theorem Hw.setGang_ops (hw : Hw) (k : Nat) (f : Gang → Gang) : (hw.setGang k f).ops = hw.ops := rfl
@[simp] theorem Hw.setGang_nextId (hw : Hw) (k : Nat) (f : Gang → Gang) : (hw.setGang k f).nextId = hw.nextId := rfl
@[simp] theorem Hw.setGang_free (hw : Hw) (k : Nat) (f : Gang → Gang) : (hw.setGang k f).free = hw.free := rfl
@[simp] theorem Hw.setGang_phys (hw : Hw) (k : Nat) (f : Gang → Gang) : (hw.setGang k f).phys = hw.phys := rfl
@[simp] theorem Hw.setGang_sent (hw : Hw) (k : Nat) (f : Gang → Gang) : (hw.setGang k f).sent = hw.sent := rfl

@[simp] theorem Hw.setCtx_pkg (hw : Hw) (p c : Nat) (f : Context → Context) : (hw.setCtx p c f).pkg = hw.pkg := rfl
@[simp] theorem Hw.setCtx_cores (hw : Hw) (p c : Nat) (f : Context → Context) : (hw.setCtx p c f).cores = hw.cores := rfl
@[simp] theorem Hw.setCtx_clusters (hw : Hw) (p c : Nat) (f : Context → Context) : (hw.setCtx p c f).clusters = hw.clusters := rfl
@[simp] theorem Hw.setCtx_images (hw : Hw) (p c : Nat) (f : Context → Context) : (hw.setCtx p c f).images = hw.images := rfl
@[simp] theorem Hw.setCtx_gangs (hw : Hw) (p c : Nat) (f : Context → Context) : (hw.setCtx p c f).gangs = hw.gangs := rfl
@[simp] theorem Hw.setCtx_blocks (hw : Hw) (p c : Nat) (f : Context → Context) : (hw.setCtx p c f).blocks = hw.blocks := rfl
@[simp] theorem Hw.setCtx_launches (hw : Hw) (p c : Nat) (f : Context → Context) : (hw.setCtx p c f).launches = hw.launches := rfl
@[simp] theorem Hw.setCtx_ops (hw : Hw) (p c : Nat) (f : Context → Context) : (hw.setCtx p c f).ops = hw.ops := rfl
@[simp] theorem Hw.setCtx_nextId (hw : Hw) (p c : Nat) (f : Context → Context) : (hw.setCtx p c f).nextId = hw.nextId := rfl
@[simp] theorem Hw.setCtx_free (hw : Hw) (p c : Nat) (f : Context → Context) : (hw.setCtx p c f).free = hw.free := rfl
@[simp] theorem Hw.setCtx_phys (hw : Hw) (p c : Nat) (f : Context → Context) : (hw.setCtx p c f).phys = hw.phys := rfl
@[simp] theorem Hw.setCtx_sent (hw : Hw) (p c : Nat) (f : Context → Context) : (hw.setCtx p c f).sent = hw.sent := rfl

@[simp] theorem Hw.send_pkg (hw : Hw) (k p : Nat) (ws : List Nat) : (hw.send k p ws).pkg = hw.pkg := rfl
@[simp] theorem Hw.send_parts (hw : Hw) (k p : Nat) (ws : List Nat) : (hw.send k p ws).parts = hw.parts := rfl
@[simp] theorem Hw.send_cores (hw : Hw) (k p : Nat) (ws : List Nat) : (hw.send k p ws).cores = hw.cores := rfl
@[simp] theorem Hw.send_clusters (hw : Hw) (k p : Nat) (ws : List Nat) : (hw.send k p ws).clusters = hw.clusters := rfl
@[simp] theorem Hw.send_images (hw : Hw) (k p : Nat) (ws : List Nat) : (hw.send k p ws).images = hw.images := rfl
@[simp] theorem Hw.send_gangs (hw : Hw) (k p : Nat) (ws : List Nat) : (hw.send k p ws).gangs = hw.gangs := rfl
@[simp] theorem Hw.send_blocks (hw : Hw) (k p : Nat) (ws : List Nat) : (hw.send k p ws).blocks = hw.blocks := rfl
@[simp] theorem Hw.send_launches (hw : Hw) (k p : Nat) (ws : List Nat) : (hw.send k p ws).launches = hw.launches := rfl
@[simp] theorem Hw.send_ops (hw : Hw) (k p : Nat) (ws : List Nat) : (hw.send k p ws).ops = hw.ops := rfl
@[simp] theorem Hw.send_nextId (hw : Hw) (k p : Nat) (ws : List Nat) : (hw.send k p ws).nextId = hw.nextId := rfl
@[simp] theorem Hw.send_free (hw : Hw) (k p : Nat) (ws : List Nat) : (hw.send k p ws).free = hw.free := rfl
@[simp] theorem Hw.send_phys (hw : Hw) (k p : Nat) (ws : List Nat) : (hw.send k p ws).phys = hw.phys := rfl

@[simp] theorem Hw.setOp_pkg (hw : Hw) (i : Nat) (f : Op → Op) : (hw.setOp i f).pkg = hw.pkg := rfl
@[simp] theorem Hw.setOp_parts (hw : Hw) (i : Nat) (f : Op → Op) : (hw.setOp i f).parts = hw.parts := rfl
@[simp] theorem Hw.setOp_cores (hw : Hw) (i : Nat) (f : Op → Op) : (hw.setOp i f).cores = hw.cores := rfl
@[simp] theorem Hw.setOp_clusters (hw : Hw) (i : Nat) (f : Op → Op) : (hw.setOp i f).clusters = hw.clusters := rfl
@[simp] theorem Hw.setOp_images (hw : Hw) (i : Nat) (f : Op → Op) : (hw.setOp i f).images = hw.images := rfl
@[simp] theorem Hw.setOp_gangs (hw : Hw) (i : Nat) (f : Op → Op) : (hw.setOp i f).gangs = hw.gangs := rfl
@[simp] theorem Hw.setOp_blocks (hw : Hw) (i : Nat) (f : Op → Op) : (hw.setOp i f).blocks = hw.blocks := rfl
@[simp] theorem Hw.setOp_launches (hw : Hw) (i : Nat) (f : Op → Op) : (hw.setOp i f).launches = hw.launches := rfl
@[simp] theorem Hw.setOp_nextId (hw : Hw) (i : Nat) (f : Op → Op) : (hw.setOp i f).nextId = hw.nextId := rfl
@[simp] theorem Hw.setOp_free (hw : Hw) (i : Nat) (f : Op → Op) : (hw.setOp i f).free = hw.free := rfl
@[simp] theorem Hw.setOp_phys (hw : Hw) (i : Nat) (f : Op → Op) : (hw.setOp i f).phys = hw.phys := rfl
@[simp] theorem Hw.setOp_sent (hw : Hw) (i : Nat) (f : Op → Op) : (hw.setOp i f).sent = hw.sent := rfl

@[simp] theorem Hw.setPkg_parts (hw : Hw) (f : Pkg → Pkg) : (hw.setPkg f).parts = hw.parts := rfl
@[simp] theorem Hw.setPkg_cores (hw : Hw) (f : Pkg → Pkg) : (hw.setPkg f).cores = hw.cores := rfl
@[simp] theorem Hw.setPkg_clusters (hw : Hw) (f : Pkg → Pkg) : (hw.setPkg f).clusters = hw.clusters := rfl
@[simp] theorem Hw.setPkg_images (hw : Hw) (f : Pkg → Pkg) : (hw.setPkg f).images = hw.images := rfl
@[simp] theorem Hw.setPkg_gangs (hw : Hw) (f : Pkg → Pkg) : (hw.setPkg f).gangs = hw.gangs := rfl
@[simp] theorem Hw.setPkg_blocks (hw : Hw) (f : Pkg → Pkg) : (hw.setPkg f).blocks = hw.blocks := rfl
@[simp] theorem Hw.setPkg_launches (hw : Hw) (f : Pkg → Pkg) : (hw.setPkg f).launches = hw.launches := rfl
@[simp] theorem Hw.setPkg_ops (hw : Hw) (f : Pkg → Pkg) : (hw.setPkg f).ops = hw.ops := rfl
@[simp] theorem Hw.setPkg_nextId (hw : Hw) (f : Pkg → Pkg) : (hw.setPkg f).nextId = hw.nextId := rfl
@[simp] theorem Hw.setPkg_free (hw : Hw) (f : Pkg → Pkg) : (hw.setPkg f).free = hw.free := rfl
@[simp] theorem Hw.setPkg_phys (hw : Hw) (f : Pkg → Pkg) : (hw.setPkg f).phys = hw.phys := rfl
@[simp] theorem Hw.setPkg_sent (hw : Hw) (f : Pkg → Pkg) : (hw.setPkg f).sent = hw.sent := rfl

@[simp] theorem Hw.setLink_pkg (hw : Hw) (p : Nat) (f : LinkSt → LinkSt) : (hw.setLink p f).pkg = hw.pkg := rfl
@[simp] theorem Hw.setLink_cores (hw : Hw) (p : Nat) (f : LinkSt → LinkSt) : (hw.setLink p f).cores = hw.cores := rfl
@[simp] theorem Hw.setLink_clusters (hw : Hw) (p : Nat) (f : LinkSt → LinkSt) : (hw.setLink p f).clusters = hw.clusters := rfl
@[simp] theorem Hw.setLink_images (hw : Hw) (p : Nat) (f : LinkSt → LinkSt) : (hw.setLink p f).images = hw.images := rfl
@[simp] theorem Hw.setLink_gangs (hw : Hw) (p : Nat) (f : LinkSt → LinkSt) : (hw.setLink p f).gangs = hw.gangs := rfl
@[simp] theorem Hw.setLink_blocks (hw : Hw) (p : Nat) (f : LinkSt → LinkSt) : (hw.setLink p f).blocks = hw.blocks := rfl
@[simp] theorem Hw.setLink_launches (hw : Hw) (p : Nat) (f : LinkSt → LinkSt) : (hw.setLink p f).launches = hw.launches := rfl
@[simp] theorem Hw.setLink_ops (hw : Hw) (p : Nat) (f : LinkSt → LinkSt) : (hw.setLink p f).ops = hw.ops := rfl
@[simp] theorem Hw.setLink_nextId (hw : Hw) (p : Nat) (f : LinkSt → LinkSt) : (hw.setLink p f).nextId = hw.nextId := rfl
@[simp] theorem Hw.setLink_free (hw : Hw) (p : Nat) (f : LinkSt → LinkSt) : (hw.setLink p f).free = hw.free := rfl
@[simp] theorem Hw.setLink_phys (hw : Hw) (p : Nat) (f : LinkSt → LinkSt) : (hw.setLink p f).phys = hw.phys := rfl
@[simp] theorem Hw.setLink_sent (hw : Hw) (p : Nat) (f : LinkSt → LinkSt) : (hw.setLink p f).sent = hw.sent := rfl

@[simp] theorem Hw.setBlock_pkg (hw : Hw) (b : Nat) (f : Block → Block) : (hw.setBlock b f).pkg = hw.pkg := rfl
@[simp] theorem Hw.setBlock_parts (hw : Hw) (b : Nat) (f : Block → Block) : (hw.setBlock b f).parts = hw.parts := rfl
@[simp] theorem Hw.setBlock_cores (hw : Hw) (b : Nat) (f : Block → Block) : (hw.setBlock b f).cores = hw.cores := rfl
@[simp] theorem Hw.setBlock_clusters (hw : Hw) (b : Nat) (f : Block → Block) : (hw.setBlock b f).clusters = hw.clusters := rfl
@[simp] theorem Hw.setBlock_images (hw : Hw) (b : Nat) (f : Block → Block) : (hw.setBlock b f).images = hw.images := rfl
@[simp] theorem Hw.setBlock_gangs (hw : Hw) (b : Nat) (f : Block → Block) : (hw.setBlock b f).gangs = hw.gangs := rfl
@[simp] theorem Hw.setBlock_launches (hw : Hw) (b : Nat) (f : Block → Block) : (hw.setBlock b f).launches = hw.launches := rfl
@[simp] theorem Hw.setBlock_ops (hw : Hw) (b : Nat) (f : Block → Block) : (hw.setBlock b f).ops = hw.ops := rfl
@[simp] theorem Hw.setBlock_nextId (hw : Hw) (b : Nat) (f : Block → Block) : (hw.setBlock b f).nextId = hw.nextId := rfl
@[simp] theorem Hw.setBlock_free (hw : Hw) (b : Nat) (f : Block → Block) : (hw.setBlock b f).free = hw.free := rfl
@[simp] theorem Hw.setBlock_phys (hw : Hw) (b : Nat) (f : Block → Block) : (hw.setBlock b f).phys = hw.phys := rfl
@[simp] theorem Hw.setBlock_sent (hw : Hw) (b : Nat) (f : Block → Block) : (hw.setBlock b f).sent = hw.sent := rfl

@[simp] theorem Hw.draw_pkg (hw : Hw) : hw.draw.2.pkg = hw.pkg := rfl
@[simp] theorem Hw.draw_parts (hw : Hw) : hw.draw.2.parts = hw.parts := rfl
@[simp] theorem Hw.draw_cores (hw : Hw) : hw.draw.2.cores = hw.cores := rfl
@[simp] theorem Hw.draw_clusters (hw : Hw) : hw.draw.2.clusters = hw.clusters := rfl
@[simp] theorem Hw.draw_images (hw : Hw) : hw.draw.2.images = hw.images := rfl
@[simp] theorem Hw.draw_gangs (hw : Hw) : hw.draw.2.gangs = hw.gangs := rfl
@[simp] theorem Hw.draw_blocks (hw : Hw) : hw.draw.2.blocks = hw.blocks := rfl
@[simp] theorem Hw.draw_launches (hw : Hw) : hw.draw.2.launches = hw.launches := rfl
@[simp] theorem Hw.draw_ops (hw : Hw) : hw.draw.2.ops = hw.ops := rfl
@[simp] theorem Hw.draw_nextId (hw : Hw) : hw.draw.2.nextId = hw.nextId := rfl
@[simp] theorem Hw.draw_phys (hw : Hw) : hw.draw.2.phys = hw.phys := rfl
@[simp] theorem Hw.draw_sent (hw : Hw) : hw.draw.2.sent = hw.sent := rfl
@[simp] theorem Hw.draw_free (hw : Hw) : hw.draw.2.free = hw.free + 1 := rfl

@[simp] theorem State.with_time (s : State) (hw : Hw) : (s.with hw).time = s.time := rfl
@[simp] theorem State.with_agenda (s : State) (hw : Hw) : (s.with hw).agenda = s.agenda := rfl
@[simp] theorem State.with_turns (s : State) (hw : Hw) : (s.with hw).turns = s.turns := rfl
@[simp] theorem State.with_cur (s : State) (hw : Hw) : (s.with hw).cur = s.cur := rfl
@[simp] theorem State.with_mem (s : State) (hw : Hw) : (s.with hw).mem = s.mem := rfl
@[simp] theorem State.with_hw (s : State) (hw : Hw) : (s.with hw).hw = hw := rfl
@[simp] theorem State.with_self (s : State) : s.with s.hw = s := rfl
@[simp] theorem State.with_with (s : State) (a b : Hw) : (s.with a).with b = s.with b := rfl
@[simp] theorem State.aim_time (s : State) (q : PathRef) (f : Fetched) : (s.aim q f).time = s.time := rfl
@[simp] theorem State.aim_agenda (s : State) (q : PathRef) (f : Fetched) : (s.aim q f).agenda = s.agenda := rfl
@[simp] theorem State.aim_turns (s : State) (q : PathRef) (f : Fetched) : (s.aim q f).turns = s.turns := rfl
@[simp] theorem State.aim_mem (s : State) (q : PathRef) (f : Fetched) : (s.aim q f).mem = s.mem := rfl
@[simp] theorem State.aim_hw (s : State) (q : PathRef) (f : Fetched) : (s.aim q f).hw = s.hw := rfl

@[simp] theorem writeV_pkg (hw : Hw) (gk : Nat) (kv : Nat × Word) : (writeV hw gk kv).pkg = hw.pkg := rfl
@[simp] theorem writeV_parts (hw : Hw) (gk : Nat) (kv : Nat × Word) : (writeV hw gk kv).parts = hw.parts := rfl
@[simp] theorem writeV_cores (hw : Hw) (gk : Nat) (kv : Nat × Word) : (writeV hw gk kv).cores = hw.cores := rfl
@[simp] theorem writeV_clusters (hw : Hw) (gk : Nat) (kv : Nat × Word) : (writeV hw gk kv).clusters = hw.clusters := rfl
@[simp] theorem writeV_images (hw : Hw) (gk : Nat) (kv : Nat × Word) : (writeV hw gk kv).images = hw.images := rfl
@[simp] theorem writeV_blocks (hw : Hw) (gk : Nat) (kv : Nat × Word) : (writeV hw gk kv).blocks = hw.blocks := rfl
@[simp] theorem writeV_launches (hw : Hw) (gk : Nat) (kv : Nat × Word) : (writeV hw gk kv).launches = hw.launches := rfl
@[simp] theorem writeV_nextId (hw : Hw) (gk : Nat) (kv : Nat × Word) : (writeV hw gk kv).nextId = hw.nextId := rfl
@[simp] theorem writeV_free (hw : Hw) (gk : Nat) (kv : Nat × Word) : (writeV hw gk kv).free = hw.free := rfl
@[simp] theorem writeV_phys (hw : Hw) (gk : Nat) (kv : Nat × Word) : (writeV hw gk kv).phys = hw.phys := rfl
@[simp] theorem writeV_sent (hw : Hw) (gk : Nat) (kv : Nat × Word) : (writeV hw gk kv).sent = hw.sent := rfl

@[simp] theorem writeS_pkg (hw : Hw) (gk p : Nat) (kv : Nat × Word) : (writeS hw gk p kv).pkg = hw.pkg := rfl
@[simp] theorem writeS_parts (hw : Hw) (gk p : Nat) (kv : Nat × Word) : (writeS hw gk p kv).parts = hw.parts := rfl
@[simp] theorem writeS_cores (hw : Hw) (gk p : Nat) (kv : Nat × Word) : (writeS hw gk p kv).cores = hw.cores := rfl
@[simp] theorem writeS_clusters (hw : Hw) (gk p : Nat) (kv : Nat × Word) : (writeS hw gk p kv).clusters = hw.clusters := rfl
@[simp] theorem writeS_images (hw : Hw) (gk p : Nat) (kv : Nat × Word) : (writeS hw gk p kv).images = hw.images := rfl
@[simp] theorem writeS_blocks (hw : Hw) (gk p : Nat) (kv : Nat × Word) : (writeS hw gk p kv).blocks = hw.blocks := rfl
@[simp] theorem writeS_launches (hw : Hw) (gk p : Nat) (kv : Nat × Word) : (writeS hw gk p kv).launches = hw.launches := rfl
@[simp] theorem writeS_nextId (hw : Hw) (gk p : Nat) (kv : Nat × Word) : (writeS hw gk p kv).nextId = hw.nextId := rfl
@[simp] theorem writeS_free (hw : Hw) (gk p : Nat) (kv : Nat × Word) : (writeS hw gk p kv).free = hw.free := rfl
@[simp] theorem writeS_sent (hw : Hw) (gk p : Nat) (kv : Nat × Word) : (writeS hw gk p kv).sent = hw.sent := rfl

@[simp] theorem releaseV_pkg (hw : Hw) (gk r : Nat) (m : Lanes) : (releaseV hw gk r m).pkg = hw.pkg := rfl
@[simp] theorem releaseV_parts (hw : Hw) (gk r : Nat) (m : Lanes) : (releaseV hw gk r m).parts = hw.parts := rfl
@[simp] theorem releaseV_cores (hw : Hw) (gk r : Nat) (m : Lanes) : (releaseV hw gk r m).cores = hw.cores := rfl
@[simp] theorem releaseV_clusters (hw : Hw) (gk r : Nat) (m : Lanes) : (releaseV hw gk r m).clusters = hw.clusters := rfl
@[simp] theorem releaseV_images (hw : Hw) (gk r : Nat) (m : Lanes) : (releaseV hw gk r m).images = hw.images := rfl
@[simp] theorem releaseV_blocks (hw : Hw) (gk r : Nat) (m : Lanes) : (releaseV hw gk r m).blocks = hw.blocks := rfl
@[simp] theorem releaseV_launches (hw : Hw) (gk r : Nat) (m : Lanes) : (releaseV hw gk r m).launches = hw.launches := rfl
@[simp] theorem releaseV_nextId (hw : Hw) (gk r : Nat) (m : Lanes) : (releaseV hw gk r m).nextId = hw.nextId := rfl
@[simp] theorem releaseV_free (hw : Hw) (gk r : Nat) (m : Lanes) : (releaseV hw gk r m).free = hw.free := rfl
@[simp] theorem releaseV_phys (hw : Hw) (gk r : Nat) (m : Lanes) : (releaseV hw gk r m).phys = hw.phys := rfl
@[simp] theorem releaseV_sent (hw : Hw) (gk r : Nat) (m : Lanes) : (releaseV hw gk r m).sent = hw.sent := rfl

@[simp] theorem releaseS_pkg (hw : Hw) (gk p r : Nat) : (releaseS hw gk p r).pkg = hw.pkg := rfl
@[simp] theorem releaseS_parts (hw : Hw) (gk p r : Nat) : (releaseS hw gk p r).parts = hw.parts := rfl
@[simp] theorem releaseS_cores (hw : Hw) (gk p r : Nat) : (releaseS hw gk p r).cores = hw.cores := rfl
@[simp] theorem releaseS_clusters (hw : Hw) (gk p r : Nat) : (releaseS hw gk p r).clusters = hw.clusters := rfl
@[simp] theorem releaseS_images (hw : Hw) (gk p r : Nat) : (releaseS hw gk p r).images = hw.images := rfl
@[simp] theorem releaseS_blocks (hw : Hw) (gk p r : Nat) : (releaseS hw gk p r).blocks = hw.blocks := rfl
@[simp] theorem releaseS_launches (hw : Hw) (gk p r : Nat) : (releaseS hw gk p r).launches = hw.launches := rfl
@[simp] theorem releaseS_nextId (hw : Hw) (gk p r : Nat) : (releaseS hw gk p r).nextId = hw.nextId := rfl
@[simp] theorem releaseS_free (hw : Hw) (gk p r : Nat) : (releaseS hw gk p r).free = hw.free := rfl
@[simp] theorem releaseS_phys (hw : Hw) (gk p r : Nat) : (releaseS hw gk p r).phys = hw.phys := rfl
@[simp] theorem releaseS_sent (hw : Hw) (gk p r : Nat) : (releaseS hw gk p r).sent = hw.sent := rfl

@[simp] theorem setPath_pkg (hw : Hw) (gk p : Nat) (f : Path → Path) : (setPath hw gk p f).pkg = hw.pkg := rfl
@[simp] theorem setPath_parts (hw : Hw) (gk p : Nat) (f : Path → Path) : (setPath hw gk p f).parts = hw.parts := rfl
@[simp] theorem setPath_cores (hw : Hw) (gk p : Nat) (f : Path → Path) : (setPath hw gk p f).cores = hw.cores := rfl
@[simp] theorem setPath_clusters (hw : Hw) (gk p : Nat) (f : Path → Path) : (setPath hw gk p f).clusters = hw.clusters := rfl
@[simp] theorem setPath_images (hw : Hw) (gk p : Nat) (f : Path → Path) : (setPath hw gk p f).images = hw.images := rfl
@[simp] theorem setPath_blocks (hw : Hw) (gk p : Nat) (f : Path → Path) : (setPath hw gk p f).blocks = hw.blocks := rfl
@[simp] theorem setPath_launches (hw : Hw) (gk p : Nat) (f : Path → Path) : (setPath hw gk p f).launches = hw.launches := rfl
@[simp] theorem setPath_ops (hw : Hw) (gk p : Nat) (f : Path → Path) : (setPath hw gk p f).ops = hw.ops := rfl
@[simp] theorem setPath_nextId (hw : Hw) (gk p : Nat) (f : Path → Path) : (setPath hw gk p f).nextId = hw.nextId := rfl
@[simp] theorem setPath_free (hw : Hw) (gk p : Nat) (f : Path → Path) : (setPath hw gk p f).free = hw.free := rfl
@[simp] theorem setPath_phys (hw : Hw) (gk p : Nat) (f : Path → Path) : (setPath hw gk p f).phys = hw.phys := rfl
@[simp] theorem setPath_sent (hw : Hw) (gk p : Nat) (f : Path → Path) : (setPath hw gk p f).sent = hw.sent := rfl

end Sys2Proof.Machine
end

