-- ==== Sys2Proof/Laws/Retire.lean ====
section
/-! SUPPORT. What retiring does, said once: the frame of every step of `commit` and `advance`, and the lemma that a retired
instruction is `Retired`. -/

namespace Sys2Proof.Machine

open Sys2Proof

/-! ## Tables of gangs -/

theorem setGang_look (hw : Hw) (gk k : Nat) (f : Gang → Gang) :
    (hw.setGang gk f).gangs.look k = if k = gk then (hw.gangs.look gk).map f else hw.gangs.look k := Tab.look_upd _ _ _ _

theorem SamePart.refl (q : Part) : SamePart q q := ⟨⟨_, rfl⟩, fun _ => rfl⟩
theorem SamePart.trans {a b c : Part} (h : SamePart a b) (k : SamePart b c) : SamePart a c := by
  obtain ⟨t, rfl⟩ := h.rest
  obtain ⟨t', rfl⟩ := k.rest
  exact ⟨⟨t', rfl⟩, fun i => (k.ctx i).trans (h.ctx i)⟩

theorem OnlyGang.refl (gk : Nat) (a : Hw) : OnlyGang gk a a := ⟨rfl, fun _ => .refl _, rfl, rfl, rfl, rfl, rfl, fun _ _ => rfl⟩

theorem OnlyGang.trans {gk : Nat} {a b c : Hw} (h : OnlyGang gk a b) (k : OnlyGang gk b c) : OnlyGang gk a c :=
  ⟨k.pkg.trans h.pkg, fun p => (h.parts p).trans (k.parts p), k.cores.trans h.cores, k.clusters.trans h.clusters, k.blocks.trans h.blocks,
   k.launches.trans h.launches, k.sent.trans h.sent, fun i hi => (k.others i hi).trans (h.others i hi)⟩

theorem onlyGang_setGang (hw : Hw) (gk : Nat) (f : Gang → Gang) : OnlyGang gk hw (hw.setGang gk f) :=
  ⟨rfl, fun _ => .refl _, rfl, rfl, rfl, rfl, rfl, fun k hk => by rw [setGang_look]; simp [hk]⟩

theorem onlyGang_ops {gk : Nat} {a b : Hw} (h : OnlyGang gk a b) (o : List Op) (n m : Nat) :
    OnlyGang gk a { b with ops := o, nextId := n, phys := m } := ⟨h.1, h.2, h.3, h.4, h.5, h.6, h.7, h.8⟩

/-! ## The log of a stepped instruction -/

theorem SameButLogs.only {a b : Hw} (h : SameButLogs a b) (gk : Nat) : OnlyGang gk a b := by
  have := h.rest
  exact ⟨by rw [this], h.parts, by rw [this], by rw [this], by rw [this], by rw [this], by rw [this], fun k _ => by rw [this]⟩
theorem SameButLogs.gangs {a b : Hw} (h : SameButLogs a b) : b.gangs = a.gangs := by rw [h.rest]
theorem SameButLogs.ops {a b : Hw} (h : SameButLogs a b) : b.ops = a.ops := by rw [h.rest]

/-- Logging what a stepped instruction writes changes the log alone. -/
theorem logStep_frame (hw : Hw) (part gk p : Nat) (f : StepLog → StepLog) : SameButLogs hw (logStep hw part gk p f) := by
  have h0 : SameButLogs hw hw := ⟨rfl, fun _ => .refl _⟩
  unfold logStep
  split
  · split
    · split
      · refine ⟨rfl, fun i => ?_⟩
        simp only [Hw.setCtx, Hw.setPart, Hw.part, Tab.val_ins]
        split
        · subst i
          refine ⟨⟨_, rfl⟩, fun c => ?_⟩
          simp only [Tab.look_upd]
          split
          · rename_i h; rw [h]; cases Tab.look _ (gkCtx gk) <;> rfl
          · rfl
        · exact .refl _
      · exact h0
    · exact h0
  · exact h0

theorem finStep_frame (hw : Hw) (part gk p : Nat) : SameButLogs hw (finStep hw part gk p) := logStep_frame ..

/-! ## Operations in flight keep all but their destinations -/

theorem bare_markRelV (ops : List Op) (gk r : Nat) (m : Lanes) : (markRelV ops gk r m).map Op.bare = ops.map Op.bare := by
  simp only [markRelV, List.map_map]; congr 1; funext o; simp only [Function.comp]; (repeat' split) <;> rfl
theorem bare_markRelS (ops : List Op) (gk r p : Nat) : (markRelS ops gk r p).map Op.bare = ops.map Op.bare := by
  simp only [markRelS, List.map_map]; congr 1; funext o; simp only [Function.comp]; (repeat' split) <;> rfl
theorem bare_claimV (ops : List Op) (gk r l : Nat) : (claimV ops gk r l).map Op.bare = ops.map Op.bare := by
  simp only [claimV, List.map_map]; congr 1; funext o; simp only [Function.comp]; (repeat' split) <;> rfl
theorem bare_claimS (ops : List Op) (gk r p : Nat) : (claimS ops gk r p).map Op.bare = ops.map Op.bare := by
  simp only [claimS, List.map_map]; congr 1; funext o; simp only [Function.comp]; (repeat' split) <;> rfl

theorem vPending_markRelV (ops : List Op) (gk r : Nat) (m : Lanes) (gk' n l : Nat) :
    vPending (markRelV ops gk r m) gk' n l = vPending ops gk' n l := by
  simp only [vPending, markRelV, List.any_map]; congr 1; funext o; simp only [Function.comp]
  by_cases h : o.gk = gk
  · simp only [h, if_true]; cases hd : o.dst with
    | vec d k rel => by_cases hdr : d = r <;> simp [hdr, hd, h]
    | _ => simp [hd, h]
  · simp [h]

theorem sPending_markRelS (ops : List Op) (gk r p : Nat) (gk' q n : Nat) :
    sPending (markRelS ops gk r p) gk' q n = sPending ops gk' q n := by
  simp only [sPending, markRelS, List.any_map]; congr 1; funext o; simp only [Function.comp]
  by_cases h : o.gk = gk
  · simp only [h, if_true]; cases hd : o.dst with
    | scal d k rel => by_cases hdr : d = r ∧ bit p k = true <;> simp [hdr, hd, h]
    | _ => simp [hd, h]
  · simp [h]
theorem sPending_markRelV (ops : List Op) (gk r : Nat) (m : Lanes) (gk' q n : Nat) :
    sPending (markRelV ops gk r m) gk' q n = sPending ops gk' q n := by
  simp only [sPending, markRelV, List.any_map]; congr 1; funext o; simp only [Function.comp]
  by_cases h : o.gk = gk
  · simp only [h, if_true]; cases hd : o.dst with
    | vec d k rel => by_cases hdr : d = r <;> simp [hdr, hd, h]
    | _ => simp [hd, h]
  · simp [h]

/-! ## Allocation -/

theorem SameButImages.refl (a : Hw) : SameButImages a a := rfl
theorem SameButImages.trans {a b c : Hw} (h : SameButImages a b) (k : SameButImages b c) : SameButImages a c := by
  unfold SameButImages at *; rw [k, h]

theorem evict_frame (core ctx : Nat) (sc must : Bool) (busy : List Nat) (full : Hw → Bool) : ∀ (n : Nat) (hw h : Hw),
    evict hw core ctx sc must busy full n = some h → SameButImages hw h
  | 0, hw, h, he => by simp only [evict, Option.some.injEq] at he; subst he; rfl
  | n + 1, hw, h, he => by
    rw [evict] at he
    cases sc <;> cases must <;> simp only [if_true, if_false, Bool.false_eq_true, Bool.not_true, Bool.not_false, Bool.true_and,
      Bool.false_and] at he
    all_goals
      repeat' split at he
      all_goals first
        | cases he; rfl
        | cases he
        | exact SameButImages.trans (by exact rfl) (evict_frame core ctx _ _ busy full n _ h he)

theorem reload_frame (hw : Hw) (core ctx : Nat) (touch : List Nat) : SameButImages hw (reload hw core ctx touch) := by
  unfold reload; split <;> rfl

theorem makeRoom_frame {hw h : Hw} {core ctx v s : Nat} {busy : List Nat} (he : makeRoom hw core ctx busy v s = some h) :
    SameButImages hw h := by
  obtain ⟨h1, e1, e2⟩ := Option.bind_eq_some_iff.1 he
  exact (evict_frame _ _ _ _ _ _ _ _ _ e1).trans (evict_frame _ _ _ _ _ _ _ _ _ e2)

/-- Making room changes which registers are spilled, and nothing else (06_registers R127). -/
theorem roomFor_frame {hw h : Hw} {core ctx cv cs v s : Nat} {t : List Nat} (he : roomFor hw core ctx cv cs v s t = some h) :
    SameButImages hw h := by
  obtain ⟨h1, e1, e2⟩ := Option.bind_eq_some_iff.1 he
  obtain ⟨h2, e2, e3⟩ := Option.bind_eq_some_iff.1 e2
  refine ((reload_frame ..).trans (makeRoom_frame e1)).trans (SameButImages.trans (b := h2) ?_ ?_)
  · split at e2
    · cases e2; rfl
    · exact evict_frame _ _ _ _ _ _ _ _ _ e2
  · split at e3
    · cases e3; rfl
    · exact evict_frame _ _ _ _ _ _ _ _ _ e3

theorem commitRoom_frame {e : Env} {r : Regs} {w : Writes} {hw h : Hw} (he : commitRoom e r w hw = some h) : SameButImages hw h :=
  roomFor_frame he

/-! ## Register writes, one gang at a time -/

/-- Machine b is machine a with gang g in the place gk, where a held one. -/
structure GangAs (gk : Nat) (a b : Hw) (g g' : Gang) : Prop where
  only : OnlyGang gk a b
  bare : b.ops.map Op.bare = a.ops.map Op.bare
  old : a.gangs.look gk = some g
  new : b.gangs.look gk = some g'

theorem GangAs.refl {gk : Nat} {a : Hw} {g : Gang} (h : a.gangs.look gk = some g) : GangAs gk a a g g := ⟨.refl _ _, rfl, h, h⟩
theorem GangAs.trans {gk : Nat} {a b c : Hw} {g g' g'' : Gang} (h : GangAs gk a b g g') (k : GangAs gk b c g' g'') : GangAs gk a c g g'' :=
  ⟨h.only.trans k.only, k.bare.trans h.bare, h.old, k.new⟩

theorem gangAs_setGang {gk : Nat} {a : Hw} {g : Gang} (f : Gang → Gang) (h : a.gangs.look gk = some g) :
    GangAs gk a (a.setGang gk f) g (f g) :=
  ⟨onlyGang_setGang _ _ _, rfl, h, by rw [setGang_look]; simp [h]⟩

theorem gangAs_writeV {gk : Nat} {a : Hw} {g : Gang} (kv : Nat × Word) (h : a.gangs.look gk = some g) :
    GangAs gk a (writeV a gk kv) g { g with vregs := g.vregs.ins kv.1 kv.2 } :=
  let k := gangAs_setGang (fun g => { g with vregs := g.vregs.ins kv.1 kv.2 }) h
  ⟨⟨rfl, k.only.parts, rfl, rfl, rfl, rfl, rfl, k.only.others⟩, bare_claimV _ _ _ _, h, k.new⟩

theorem gangAs_writeS {gk p : Nat} {a : Hw} {g : Gang} (kv : Nat × Word) (h : a.gangs.look gk = some g) :
    GangAs gk a (writeS a gk p kv) g
      { g with paths := g.paths.upd p fun q => { q with sregs := q.sregs.ins kv.1 ⟨kv.2, a.phys⟩ } } :=
  let k := gangAs_setGang (fun g => { g with paths := g.paths.upd p fun q => { q with sregs := q.sregs.ins kv.1 ⟨kv.2, a.phys⟩ } }) h
  ⟨⟨rfl, k.only.parts, rfl, rfl, rfl, rfl, rfl, k.only.others⟩, bare_claimS _ _ _ _, h, k.new⟩

theorem gangAs_releaseV {gk r : Nat} {m : Lanes} {a : Hw} {g : Gang} (h : a.gangs.look gk = some g) :
    GangAs gk a (releaseV a gk r m) g { g with vregs := (lanes m).foldl (fun t l =>
      if vPending a.ops gk r l then t else t.del (32 * r + l)) g.vregs } :=
  let k := gangAs_setGang (fun g => { g with vregs := (lanes m).foldl (fun t l =>
      if vPending a.ops gk r l then t else t.del (32 * r + l)) g.vregs }) h
  ⟨⟨rfl, k.only.parts, rfl, rfl, rfl, rfl, rfl, k.only.others⟩, bare_markRelV _ _ _ _, h, k.new⟩

theorem gangAs_releaseS {gk p r : Nat} {a : Hw} {g : Gang} (h : a.gangs.look gk = some g) :
    GangAs gk a (releaseS a gk p r) g
      { g with paths := g.paths.upd p fun q => if sPending a.ops gk p r then q else { q with sregs := q.sregs.del r } } :=
  let k := gangAs_setGang (fun g => { g with paths := g.paths.upd p fun q => if sPending a.ops gk p r then q else { q with sregs := q.sregs.del r } }) h
  ⟨⟨rfl, k.only.parts, rfl, rfl, rfl, rfl, rfl, k.only.others⟩, bare_markRelS _ _ _ _, h, k.new⟩

/-! ## Folds -/

theorem lastWrite_nil {α : Type} (k : Nat) : lastWrite ([] : List (Nat × α)) k = none := rfl
theorem lastWrite_cons {α : Type} (l : List (Nat × α)) (x : Nat × α) (k : Nat) :
    lastWrite (x :: l) k = match lastWrite l k with | some v => some v | none => if x.1 = k then some x.2 else none := by
  simp only [lastWrite, List.reverse_cons, List.find?_append, List.find?_cons, List.find?_nil]
  cases h : l.reverse.find? (fun x => x.1 == k) with
  | some v => rfl
  | none =>
    by_cases hk : x.1 = k
    · simp [hk]
    · have : (x.1 == k) = false := by simpa using hk
      simp [this, hk]

/-- Insertions from a list: each key reads the last value written, else what it read. -/
theorem look_foldl_ins {α : Type} (l : List (Nat × α)) (t : Tab α) (k : Nat) :
    (l.foldl (fun t x => t.ins x.1 x.2) t).look k = match lastWrite l k with | some v => some v | none => t.look k := by
  induction l generalizing t with
  | nil => rfl
  | cons x l ih =>
    rw [List.foldl_cons, ih, lastWrite_cons]
    cases lastWrite l k with
    | some v => rfl
    | none =>
      simp only [Tab.look_ins]
      by_cases h : x.1 = k
      · simp [h]
      · simp [h, Ne.symm h]

theorem look_foldl_del {α : Type} (c : Nat → Bool) (r : Nat) (l : List Nat) (t : Tab α) (k : Nat) :
    (∀ i ∈ l, 32 * r + i = k → c i = true) →
    (l.foldl (fun t i => if c i then t else t.del (32 * r + i)) t).look k = t.look k := by
  intro h
  induction l generalizing t with
  | nil => rfl
  | cons i l ih =>
    rw [List.foldl_cons, ih _ fun j hj => h j (List.mem_cons_of_mem _ hj)]
    by_cases hc : c i
    · simp [hc]
    · have : 32 * r + i ≠ k := fun e => hc (h i (List.mem_cons_self ..) e)
      simp [hc, Tab.look_del_other _ (Ne.symm this)]

theorem look_foldl_del_mem {α : Type} (c : Nat → Bool) (r i : Nat) (l : List Nat) (t : Tab α) (hc : c i = false) :
    i ∈ l ∨ t.look (32 * r + i) = none →
    (l.foldl (fun t i => if c i then t else t.del (32 * r + i)) t).look (32 * r + i) = none := by
  induction l generalizing t with
  | nil => simp
  | cons j l ih =>
    intro h
    rw [List.foldl_cons]; apply ih
    by_cases hj : j = i
    · subst hj; right; simp [hc]
    · rcases h with h | h
      · left; simpa [Ne.symm hj] using h
      · right; split
        · exact h
        · rw [Tab.look_del]; simp [h]

theorem mem_lanes {m : Lanes} {l : Nat} : l ∈ lanes m ↔ l < 32 ∧ inLanes m l = true := by
  simp [lanes, inLanes, allLanes, List.mem_filter, List.mem_range]

/-! ## Releasing and writing several registers -/

/-- Pending writes of a gang are the same in two machines. -/
structure SamePending (gk : Nat) (a b : List Op) : Prop where
  v : ∀ n l, vPending b gk n l = vPending a gk n l
  s : ∀ p n, sPending b gk p n = sPending a gk p n

theorem foldl_releaseV {gk : Nat} {m : Lanes} (L : List Nat) {a : Hw} {g : Gang} (h : a.gangs.look gk = some g) :
    ∃ t, GangAs gk a (L.foldl (fun x n => releaseV x gk n m) a) g { g with vregs := t } ∧
      SamePending gk a.ops (L.foldl (fun x n => releaseV x gk n m) a).ops ∧
      ∀ k, t.look k = if k / 32 ∈ L ∧ inLanes m (k % 32) = true ∧ vPending a.ops gk (k / 32) (k % 32) = false then none
        else g.vregs.look k := by
  induction L generalizing a g with
  | nil => exact ⟨g.vregs, .refl h, ⟨fun _ _ => rfl, fun _ _ => rfl⟩, fun k => by simp⟩
  | cons n L ih =>
    have h1 := gangAs_releaseV (r := n) (m := m) h
    obtain ⟨t, h2, h3, h4⟩ := ih h1.new
    refine ⟨t, h1.trans h2, ⟨fun i l => ?_, fun p i => ?_⟩, fun k => ?_⟩
    · rw [List.foldl_cons, h3.v]; exact vPending_markRelV ..
    · rw [List.foldl_cons, h3.s]; exact sPending_markRelV ..
    · rw [h4]
      have e : ∀ i l, vPending (releaseV a gk n m).ops gk i l = vPending a.ops gk i l := fun i l => vPending_markRelV ..
      simp only [e]
      have hk : 32 * (k / 32) + k % 32 = k := Nat.div_add_mod k 32
      by_cases hn : k / 32 = n
      · subst hn
        by_cases hc : inLanes m (k % 32) = true ∧ vPending a.ops gk (k / 32) (k % 32) = false
        · have := look_foldl_del_mem (fun l => vPending a.ops gk (k / 32) l) (k / 32) (k % 32) (lanes m) g.vregs hc.2
            (.inl (mem_lanes.2 ⟨Nat.mod_lt _ (by omega), hc.1⟩))
          rw [hk] at this
          simp [hc, this]
        · have := look_foldl_del (fun l => vPending a.ops gk (k / 32) l) (k / 32) (lanes m) g.vregs k (fun i hi he => by
            have : i = k % 32 := by have := (mem_lanes.1 hi).1; omega
            subst this; by_contra hv
            exact hc ⟨(mem_lanes.1 hi).2, by simpa using hv⟩)
          simp only [this]
          by_cases hL : k / 32 ∈ L <;> simp [hL, hc]
      · have := look_foldl_del (fun l => vPending a.ops gk n l) n (lanes m) g.vregs k (fun i hi he => by
            have := (mem_lanes.1 hi).1; omega)
        simp [this, hn]

theorem foldl_writeV {gk : Nat} (L : List (Nat × Word)) {a : Hw} {g : Gang} (h : a.gangs.look gk = some g) :
    GangAs gk a (L.foldl (fun x kv => writeV x gk kv) a) g { g with vregs := L.foldl (fun t x => t.ins x.1 x.2) g.vregs } := by
  induction L generalizing a g with
  | nil => exact .refl h
  | cons x L ih => exact (gangAs_writeV x h).trans (ih (gangAs_writeV x h).new)

/-- A path with other scalars. -/
def Path.regs (q : Path) (x : Tab SReg) : Path := { q with sregs := x }

/-- Path p of gang g' is that of g with other scalars, as F has them, and every other path is the same. -/
structure PathAs (p : Nat) (F : Tab SReg → Tab SReg → Prop) (t t' : Tab Path) : Prop where
  other : ∀ i, i ≠ p → t'.look i = t.look i
  none : t.look p = none → t'.look p = none
  some : ∀ q, t.look p = some q → ∃ r, t'.look p = some (q.regs r) ∧ F q.sregs r

theorem PathAs.trans {p : Nat} {F G H : Tab SReg → Tab SReg → Prop} {a b c : Tab Path} (h : PathAs p F a b) (k : PathAs p G b c)
    (hH : ∀ x y z, F x y → G y z → H x z) : PathAs p H a c :=
  ⟨fun i hi => (k.other i hi).trans (h.other i hi), fun e => k.none (h.none e), fun q hq => by
    obtain ⟨r, h1, h2⟩ := h.some q hq
    obtain ⟨r', h3, h4⟩ := k.some _ h1
    exact ⟨r', h3, hH _ _ _ h2 h4⟩⟩

theorem pathAs_upd {p : Nat} {F : Tab SReg → Tab SReg → Prop} (t : Tab Path) (f : Tab SReg → Tab SReg) (hf : ∀ x, F x (f x)) :
    PathAs p F t (t.upd p fun q => { q with sregs := f q.sregs }) :=
  ⟨fun i hi => by rw [Tab.look_upd]; simp [hi], fun e => by rw [Tab.look_upd]; simp [e], fun q hq => ⟨f q.sregs, by
    rw [Tab.look_upd]; simp [hq, Path.regs], hf _⟩⟩

theorem foldl_releaseS {gk p : Nat} (L : List Nat) {a : Hw} {g : Gang} (h : a.gangs.look gk = some g) :
    ∃ t, GangAs gk a (L.foldl (fun x n => releaseS x gk p n) a) g { g with paths := t } ∧
      PathAs p (fun x y => ∀ n, y.look n = if n ∈ L ∧ sPending a.ops gk p n = false then none else x.look n) g.paths t := by
  induction L generalizing a g with
  | nil => exact ⟨g.paths, .refl h, ⟨fun _ _ => rfl, fun e => e, fun q hq => ⟨q.sregs, hq, fun n => by simp⟩⟩⟩
  | cons n L ih =>
    have h1 := gangAs_releaseS (p := p) (r := n) h
    obtain ⟨t, h2, h4⟩ := ih h1.new
    refine ⟨t, h1.trans h2, ?_⟩
    have e : ∀ i, sPending (releaseS a gk p n).ops gk p i = sPending a.ops gk p i := fun i => sPending_markRelS ..
    have h0 : PathAs p (fun x y => ∀ i, y.look i = if i = n ∧ sPending a.ops gk p n = false then none else x.look i) g.paths
        (g.paths.upd p fun q => if sPending a.ops gk p n then q else { q with sregs := q.sregs.del n }) := by
      by_cases hp : sPending a.ops gk p n = true
      · have := pathAs_upd (p := p) (F := fun x y => ∀ i, y.look i = if i = n ∧ sPending a.ops gk p n = false then none else x.look i)
          g.paths (fun x => x) (by simp [hp])
        simpa [hp] using this
      · have := pathAs_upd (p := p) (F := fun x y => ∀ i, y.look i = if i = n ∧ sPending a.ops gk p n = false then none else x.look i)
          g.paths (fun x => x.del n) (by simp [hp, Tab.look_del])
        simpa [hp] using this
    refine h0.trans h4 fun x y z hxy hyz i => ?_
    rw [hyz, hxy, e]
    by_cases hi : i = n
    · subst hi; by_cases hp : sPending a.ops gk p i <;> simp [hp]
    · simp [hi]

theorem foldl_writeS {gk p : Nat} (L : List (Nat × Word)) {a : Hw} {g : Gang} (h : a.gangs.look gk = some g) :
    ∃ t, GangAs gk a (L.foldl (fun x kv => writeS x gk p kv) a) g { g with paths := t } ∧
      PathAs p (fun x y => ∀ n, (∀ v, lastWrite L n = some v → ∃ e, y.look n = some ⟨v, e⟩) ∧ (lastWrite L n = none → y.look n = x.look n))
        g.paths t := by
  induction L generalizing a g with
  | nil => exact ⟨g.paths, .refl h, ⟨fun _ _ => rfl, fun e => e, fun q hq => ⟨q.sregs, hq, fun n => by simp [lastWrite_nil]⟩⟩⟩
  | cons kv L ih =>
    have h1 := gangAs_writeS (p := p) kv h
    obtain ⟨t, h2, h4⟩ := ih h1.new
    refine ⟨t, h1.trans h2, ?_⟩
    refine (pathAs_upd (F := fun x y => ∀ i, y.look i = if i = kv.1 then some ⟨kv.2, a.phys⟩ else x.look i) g.paths
      (fun x => x.ins kv.1 ⟨kv.2, a.phys⟩) (fun x i => Tab.look_ins ..)).trans h4 fun x y z hxy hyz n => ?_
    rw [lastWrite_cons]
    constructor
    · intro v hv
      cases hl : lastWrite L n with
      | some u => rw [hl] at hv; simp only [Option.some.injEq] at hv; subst hv; exact (hyz n).1 _ hl
      | none =>
        rw [hl] at hv
        by_cases hk : kv.1 = n
        · simp only [hk, if_true, Option.some.injEq] at hv; subst hv
          exact ⟨a.phys, by rw [(hyz n).2 hl, hxy]; simp [hk]⟩
        · simp [hk] at hv
    · intro hv
      cases hl : lastWrite L n with
      | some u => rw [hl] at hv; cases hv
      | none =>
        rw [hl] at hv
        by_cases hk : kv.1 = n
        · simp [hk] at hv
        · rw [(hyz n).2 hl, hxy]; simp [Ne.symm hk]

/-! ## Retirement -/

theorem bare_foldl {α : Type} (f : List Op → α → List Op) (hf : ∀ o x, (f o x).map Op.bare = o.map Op.bare) (L : List α) (o : List Op) :
    (L.foldl f o).map Op.bare = o.map Op.bare := by
  induction L generalizing o with
  | nil => rfl
  | cons x L ih => rw [List.foldl_cons, ih, hf]

theorem fexc_foldl (L : List (Nat × Nat)) (t : Tab Nat) (l : Nat) :
    (L.foldl (fun t x => if x.2 = 0 then t else t.ins x.1 (t.val 0 x.1 ||| x.2)) t).val 0 l =
      L.foldl (fun n x => if x.1 = l then n ||| x.2 else n) (t.val 0 l) := by
  induction L generalizing t with
  | nil => rfl
  | cons x L ih =>
    rw [List.foldl_cons, List.foldl_cons, ih]; congr 1
    by_cases h0 : x.2 = 0
    · simp [h0]
    · rw [if_neg h0, Tab.val_ins]
      by_cases hl : x.1 = l
      · simp [hl]
      · simp [hl, Ne.symm hl]

/-- What the issuing path's gang has become before the path moves. -/
theorem commit_spec {e : Env} {r : Regs} {w : Writes} {hw h : Hw} {g : Gang} (hc : commit e r w hw = some h)
    (hg : hw.gangs.look e.gk = some g) :
    OnlyGang e.gk hw h ∧ (∃ l, h.ops = l ++ w.ops ∧ l.map Op.bare = hw.ops.map Op.bare) ∧
      ∃ g' : Gang, h.gangs.look e.gk = some g' ∧ WroteGang e r w hw.ops g g' ∧
        ((g.paths.look e.p = none → g'.paths.look e.p = none) ∧
          ∀ q : Path, g.paths.look e.p = some q → ∃ x : Tab SReg, g'.paths.look e.p = some (q.regs x)) := by
  simp only [commit] at hc
  split at hc
  · cases hc
  rename_i h0 ha
  simp only [Option.some.injEq] at hc
  have hs := commitRoom_frame ha
  have hg0 : h0.gangs.look e.gk = some g := by rw [hs]; exact hg
  have ho0 : h0.ops = hw.ops := by rw [hs]
  have only0 : OnlyGang e.gk hw h0 := by rw [hs]; exact ⟨rfl, fun _ => .refl _, rfl, rfl, rfl, rfl, rfl, fun _ _ => rfl⟩
  obtain ⟨t1, A1, P1, V1⟩ := foldl_releaseV (m := e.act) (r.relV ++ w.relV) hg0
  generalize (r.relV ++ w.relV).foldl (fun x n => releaseV x e.gk n e.act) h0 = h1 at *
  obtain ⟨t2, A2, S2⟩ := foldl_releaseS (p := e.p) r.relS A1.new
  generalize r.relS.foldl (fun x n => releaseS x e.gk e.p n) h1 = h2 at *
  have A3 := foldl_writeV w.v A2.new
  generalize w.v.foldl (fun x kv => writeV x e.gk kv) h2 = h3 at *
  obtain ⟨t4, A4, S4⟩ := foldl_writeS (p := e.p) w.s A3.new
  generalize w.s.foldl (fun x kv => writeS x e.gk e.p kv) h3 = h4 at *
  have A := ((A1.trans A2).trans A3).trans A4
  have A5 := gangAs_setGang (fun g => { g with
      fexc := w.ex.foldl (fun t x => if x.2 = 0 then t else t.ins x.1 (t.val 0 x.1 ||| x.2)) g.fexc
      srng := w.rng.foldl (fun t x => t.ins x.1 x.2) g.srng }) A4.new
  generalize hl : logStep _ e.part e.gk e.p _ = h6 at hc
  have L : SameButLogs _ h6 := hl ▸ logStep_frame ..
  subst hc
  have S := S2.trans (H := fun x z => ∀ n, (∀ v, lastWrite w.s n = some v → ∃ e, z.look n = some ⟨v, e⟩) ∧
      (lastWrite w.s n = none → z.look n = if n ∈ r.relS ∧ sPending h1.ops e.gk e.p n = false then none else x.look n)) S4
    (fun x y z hxy hyz n => ⟨(hyz n).1, fun hn => by rw [(hyz n).2 hn, hxy]⟩)
  refine ⟨only0.trans (A.only.trans (A5.only.trans (onlyGang_ops (L.only _) _ _ h6.phys))), ⟨_, rfl, ?_⟩, _,
    (congrArg (Tab.look · e.gk) L.gangs).trans A5.new, ?_, fun hn => S.none hn, fun q hq => ?_⟩
  · refine (bare_foldl _ ?_ _ _).trans (A.bare.trans (by rw [ho0]))
    intro o n
    cases n.dst with
    | none => rfl
    | vec d m k => exact bare_foldl _ (fun o l => bare_claimV ..) _ _
    | scal d m k => exact bare_claimS ..
  · refine { v := fun k x hk => ?_, vFrame := fun k hk hr => ?_, vRel := fun n l hn hl hi hp hk => ?_, s := fun q' hq' n x hn => ?_,
             sFrame := fun q q' hq hq' n hn hr => ?_, sRel := fun q' hq' n hr hp hn => ?_, paths := fun p hp => S.other p hp,
             fexc := fun l => fexc_foldl .., srng := fun l hl => ?_, srngW := fun l x hl => ?_,
             nest := rfl, wid := rfl, tag := rfl, exited := rfl }
    · show (w.v.foldl (fun t x => t.ins x.1 x.2) t1).look k = _
      rw [look_foldl_ins, hk]
    · show (w.v.foldl (fun t x => t.ins x.1 x.2) t1).look k = _
      rw [look_foldl_ins, hk]; simp only [V1]
      rcases hr with hr | hr <;> simp [hr]
    · show (w.v.foldl (fun t x => t.ins x.1 x.2) t1).look _ = _
      rw [look_foldl_ins, hk]; simp only [V1]
      have h1 : (32 * n + l) / 32 = n := by omega
      have h2 : (32 * n + l) % 32 = l := by omega
      rw [h1, h2]; rw [← ho0] at hp; rw [if_pos ⟨hn, hi, hp⟩]
    · replace hq' : t4.look e.p = some q' := hq'
      cases hq : g.paths.look e.p with
      | none => rw [S.none hq] at hq'; cases hq'
      | some q =>
        obtain ⟨y, hy, hF⟩ := S.some q hq
        rw [hy] at hq'; cases hq'
        obtain ⟨i, hi⟩ := (hF n).1 x hn
        simp [Path.sr, Path.regs, hi]
    · replace hq' : t4.look e.p = some q' := hq'
      obtain ⟨y, hy, hF⟩ := S.some q hq
      rw [hy] at hq'; cases hq'
      simp [Path.regs, (hF n).2 hn, hr]
    · replace hq' : t4.look e.p = some q' := hq'
      cases hq : g.paths.look e.p with
      | none => rw [S.none hq] at hq'; cases hq'
      | some q =>
        obtain ⟨y, hy, hF⟩ := S.some q hq
        rw [hy] at hq'; cases hq'
        have : sPending h1.ops e.gk e.p n = false := by rw [P1.s, ho0]; exact hp
        simp [Path.regs, (hF n).2 hn, hr, this]
    · show (w.rng.foldl (fun t x => t.ins x.1 x.2) g.srng).look l = _
      rw [look_foldl_ins, hl]
    · show (w.rng.foldl (fun t x => t.ins x.1 x.2) g.srng).look l = _
      rw [look_foldl_ins, hl]
  · obtain ⟨y, hy, -⟩ := S.some q hq
    exact ⟨y, hy⟩

/-! ## The path moves -/

/-- Gang g' is gang g but for where path p is: its registers, the other paths and every other field are the same. -/
structure MovedGang (p : Nat) (g g' : Gang) : Prop where
  rest : ∃ t x, g' = { g with paths := t, foldArr := x }
  other : ∀ i, i ≠ p → g'.paths.look i = g.paths.look i
  path : ∀ q', g'.paths.look p = some q' → ∃ q, g.paths.look p = some q ∧ q'.sregs = q.sregs
  held : ∀ q, g.paths.look p = some q → ∃ q', g'.paths.look p = some q'

theorem MovedGang.trans {p : Nat} {a b c : Gang} (h : MovedGang p a b) (k : MovedGang p b c) : MovedGang p a c := by
  obtain ⟨t, x, rfl⟩ := h.rest
  obtain ⟨t', x', rfl⟩ := k.rest
  refine ⟨⟨t', x', rfl⟩, fun i hi => (k.other i hi).trans (h.other i hi), fun q' hq => ?_, fun q hq => ?_⟩
  · obtain ⟨q1, h1, h2⟩ := k.path q' hq
    obtain ⟨q2, h3, h4⟩ := h.path q1 h1
    exact ⟨q2, h3, h2.trans h4⟩
  · obtain ⟨q1, h1⟩ := h.held q hq
    exact k.held q1 h1

theorem movedGang_self {p : Nat} (g : Gang) : MovedGang p g g :=
  ⟨⟨g.paths, g.foldArr, rfl⟩, fun _ _ => rfl, fun q hq => ⟨q, hq, rfl⟩, fun q hq => ⟨q, hq⟩⟩

/-- One path entry replaced by one with the same scalars. -/
theorem movedGang_ins {p : Nat} {g : Gang} {q : Path} (hq : g.paths.look p = some q) (q' : Path) (hs : q'.sregs = q.sregs)
    (x : Tab FoldLane) : MovedGang p g { g with paths := g.paths.ins p q', foldArr := x } :=
  ⟨⟨_, _, rfl⟩, fun _ hi => Tab.look_ins_other _ _ hi, fun y hy => ⟨q, hq, by
    have : some q' = some y := (Tab.look_ins_same g.paths p q').symm.trans hy
    cases this; exact hs⟩, fun _ _ => ⟨q', Tab.look_ins_same ..⟩⟩

theorem unfold_sregs (g : Gang) (q : Path) (ls : List Nat) (a : FoldLane) : (unfold g q ls a).sregs = q.sregs := by
  unfold unfold; simp only []; split <;> rfl

theorem movedGang_refold (g : Gang) (p : Nat) : MovedGang p g (refold g p) := by
  simp only [refold]
  split
  · exact movedGang_self g
  rename_i q hq
  split
  · exact movedGang_self g
  split
  · exact movedGang_self g
  split
  · exact movedGang_ins hq _ (unfold_sregs ..) _
  split
  · split
    · exact movedGang_self g
    · exact movedGang_ins hq _ (by rfl) g.foldArr
  · exact movedGang_ins hq _ (by rfl) g.foldArr

theorem movedGang_sendLanes (g : Gang) (p : Nat) (m : Lanes) (pc : Word) (cl : Clause) (d : Nat → Nat) :
    MovedGang p g (sendLanes g p m pc cl d) := by
  simp only [sendLanes]
  split
  · exact movedGang_self g
  rename_i q hq
  split
  · refine MovedGang.trans ?_ (movedGang_refold _ _)
    exact movedGang_ins hq _ (by rfl) _
  · exact movedGang_ins hq _ (by rfl) g.foldArr

theorem sendLanes_path {g : Gang} {p : Nat} {q : Path} (hq : g.paths.look p = some q) (hf : q.folded = false) (m : Lanes) (pc : Word)
    (cl : Clause) (d : Nat → Nat) : (sendLanes g p m pc cl d).paths.look p = some { q with pc := pc, cl := cl, depth := d q.depth } := by
  simp [sendLanes, hq, hf]

theorem movedGang_upd {p : Nat} (g : Gang) (f : Path → Path) (hf : ∀ q, (f q).sregs = q.sregs) :
    MovedGang p g { g with paths := g.paths.upd p f } := by
  unfold Tab.upd
  split
  · rename_i q hq; exact movedGang_ins hq _ (hf q) g.foldArr
  · exact movedGang_self g

/-- The machine after register effects, the path moved on. -/
theorem finish_done {e : Env} {r : Regs} {w : Writes} {hw h : Hw} (hc : commit e r w hw = some h) :
    SameButLogs (e.setPath (e.advance r.len h) Path.retired) (e.finish r (.done w hw)) := by
  simp only [Env.finish, hc]; exact finStep_frame ..

/-- An instruction that is done is retired: it wrote what it was to write and nothing else changed. -/
theorem retired_done {e : Env} {r : Regs} {w : Writes} {hw : Hw} (hc : (commit e r w hw).isSome)
    (hg : (hw.gangs.look e.gk).isSome) : Retired e r w hw (e.s.with (e.finish r (.done w hw))) := by
  obtain ⟨h, hc⟩ := Option.isSome_iff_exists.1 hc
  obtain ⟨g, hg⟩ := Option.isSome_iff_exists.1 hg
  obtain ⟨ho, hops, g1, hg1, W, hn, hs⟩ := commit_spec hc hg
  have L := finish_done hc
  have A1 := gangAs_setGang (fun g => sendLanes g e.p e.grp (e.q.pc + word r.len) (e.q.cl.after (e.q.pc + word r.len)) id) hg1
  have A2 := gangAs_setGang (fun g => { g with paths := g.paths.upd e.p Path.retired }) A1.new
  have M := (movedGang_sendLanes g1 e.p e.grp (e.q.pc + word r.len) (e.q.cl.after (e.q.pc + word r.len)) id).trans
    (movedGang_upd _ Path.retired fun q => rfl)
  have hnew : (e.finish r (.done w hw)).gangs.look e.gk = _ := (congrArg (Tab.look · e.gk) L.gangs).trans A2.new
  refine ⟨rfl, rfl, (ho.trans (A1.trans A2).only).trans (L.only _), ?_, fun g' hg' => ?_, fun g' q hg' hq hf => ?_⟩
  · obtain ⟨l, h1, h2⟩ := hops
    exact ⟨l, L.ops.trans h1, h2⟩
  · rw [hg] at hg'; cases hg'
    refine ⟨_, hnew, ?_⟩
    obtain ⟨t, x, hM⟩ := M.rest
    refine { v := fun k x hk => ?_, vFrame := fun k hk hr => ?_, vRel := fun n l hn hl hi hp hk => ?_, s := fun q' hq' n x hn => ?_,
             sFrame := fun q q' hq hq' n hn hr => ?_, sRel := fun q' hq' n hr hp hn => ?_, paths := fun p hp => ?_,
             fexc := fun l => ?_, srng := fun l hl => ?_, srngW := fun l x hl => ?_, nest := ?_, wid := ?_, tag := ?_, exited := ?_ }
    · rw [hM]; exact W.v k x hk
    · rw [hM]; exact W.vFrame k hk hr
    · rw [hM]; exact W.vRel n l hn hl hi hp hk
    · obtain ⟨q1, h1, h2⟩ := M.path q' hq'
      have := W.s q1 h1 n x hn
      simpa [Path.sr, h2] using this
    · obtain ⟨q1, h1, h2⟩ := M.path q' hq'
      rw [h2]; exact W.sFrame q q1 hq h1 n hn hr
    · obtain ⟨q1, h1, h2⟩ := M.path q' hq'
      rw [h2]; exact W.sRel q1 h1 n hr hp hn
    · exact (M.other p hp).trans (W.paths p hp)
    · rw [hM]; exact W.fexc l
    · rw [hM]; exact W.srng l hl
    · rw [hM]; exact W.srngW l x hl
    · rw [hM]; exact W.nest
    · rw [hM]; exact W.wid
    · rw [hM]; exact W.tag
    · rw [hM]; exact W.exited
  · rw [hg] at hg'; cases hg'
    obtain ⟨x, hx⟩ := hs q hq
    have h2 := sendLanes_path hx hf e.grp (e.q.pc + word r.len) (e.q.cl.after (e.q.pc + word r.len)) id
    refine ⟨_, Path.retired { q.regs x with pc := _, cl := _, depth := _ }, hnew, ?_, rfl, rfl, rfl, rfl, fun hr => ?_⟩
    · rw [show ∀ t : Gang, ({ t with paths := t.paths.upd e.p Path.retired } : Gang).paths = t.paths.upd e.p Path.retired from fun _ => rfl,
        Tab.look_upd, if_pos rfl, h2]; rfl
    · simp [Path.retired, Path.regs, hr]

/-! ## Without the gang -/

/-- What register effects change of the machine, whether or not it holds the gang. -/
structure Within (gk : Nat) (a b : Hw) : Prop where
  only : OnlyGang gk a b
  bare : b.ops.map Op.bare = a.ops.map Op.bare
  gone : a.gangs.look gk = none → b.gangs.look gk = none

theorem Within.refl (gk : Nat) (a : Hw) : Within gk a a := ⟨.refl _ _, rfl, id⟩
theorem Within.trans {gk : Nat} {a b c : Hw} (h : Within gk a b) (k : Within gk b c) : Within gk a c :=
  ⟨h.only.trans k.only, k.bare.trans h.bare, fun e => k.gone (h.gone e)⟩
theorem within_setGang (hw : Hw) (gk : Nat) (f : Gang → Gang) : Within gk hw (hw.setGang gk f) :=
  ⟨onlyGang_setGang .., rfl, fun e => by rw [setGang_look]; simp [e]⟩
theorem within_ops {gk : Nat} {a b : Hw} (h : Within gk a b) (o : List Op) (n m : Nat) (ho : o.map Op.bare = b.ops.map Op.bare) :
    Within gk a { b with ops := o, nextId := n, phys := m } := ⟨onlyGang_ops h.only o n m, ho.trans h.bare, h.gone⟩
theorem within_foldl {α : Type} {gk : Nat} {f : Hw → α → Hw} (hf : ∀ h x, Within gk h (f h x)) (l : List α) (a : Hw) :
    Within gk a (l.foldl f a) := by
  induction l generalizing a with
  | nil => exact .refl _ _
  | cons x l ih => exact (hf a x).trans (ih _)

theorem commit_within {e : Env} {r : Regs} {w : Writes} {hw h : Hw} (hc : commit e r w hw = some h) :
    OnlyGang e.gk hw h ∧ (∃ l, h.ops = l ++ w.ops ∧ l.map Op.bare = hw.ops.map Op.bare) ∧
      (hw.gangs.look e.gk = none → h.gangs.look e.gk = none) := by
  simp only [commit] at hc
  split at hc
  · cases hc
  rename_i h0 ha
  simp only [Option.some.injEq] at hc
  have hs := commitRoom_frame ha
  have A0 : Within e.gk hw h0 := by rw [hs]; exact ⟨⟨rfl, fun _ => .refl _, rfl, rfl, rfl, rfl, rfl, fun _ _ => rfl⟩, rfl, id⟩
  have A1 := within_foldl (gk := e.gk) (f := fun x n => releaseV x e.gk n e.act)
    (fun h n => within_ops (within_setGang ..) _ h.nextId h.phys (bare_markRelV ..)) (r.relV ++ w.relV) h0
  generalize (r.relV ++ w.relV).foldl (fun x n => releaseV x e.gk n e.act) h0 = h1 at *
  have A2 := within_foldl (gk := e.gk) (f := fun x n => releaseS x e.gk e.p n)
    (fun h n => within_ops (within_setGang ..) _ h.nextId h.phys (bare_markRelS ..)) r.relS h1
  generalize r.relS.foldl (fun x n => releaseS x e.gk e.p n) h1 = h2 at *
  have A3 := within_foldl (gk := e.gk) (f := fun x kv => writeV x e.gk kv)
    (fun h n => within_ops (within_setGang ..) _ h.nextId h.phys (bare_claimV ..)) w.v h2
  generalize w.v.foldl (fun x kv => writeV x e.gk kv) h2 = h3 at *
  have A4 := within_foldl (gk := e.gk) (f := fun x kv => writeS x e.gk e.p kv)
    (fun h n => within_ops (within_setGang ..) _ h.nextId (h.phys + 1) (bare_claimS ..)) w.s h3
  generalize w.s.foldl (fun x kv => writeS x e.gk e.p kv) h3 = h4 at *
  have A := (((A0.trans A1).trans A2).trans A3).trans A4
  have A5 := A.trans (within_setGang h4 e.gk fun g => { g with
      fexc := w.ex.foldl (fun t x => if x.2 = 0 then t else t.ins x.1 (t.val 0 x.1 ||| x.2)) g.fexc
      srng := w.rng.foldl (fun t x => t.ins x.1 x.2) g.srng })
  generalize hl : logStep _ e.part e.gk e.p _ = h6 at hc
  have L : SameButLogs _ h6 := hl ▸ logStep_frame ..
  subst hc
  refine ⟨A5.only.trans (onlyGang_ops (L.only _) _ _ h6.phys), ⟨_, rfl, ?_⟩, fun hn => (congrArg (Tab.look · e.gk) L.gangs).trans (A5.gone hn)⟩
  refine (bare_foldl _ ?_ _ _).trans A5.bare
  intro o n
  cases n.dst with
  | none => rfl
  | vec d m k => exact bare_foldl _ (fun o l => bare_claimV ..) _ _
  | scal d m k => exact bare_claimS ..

/-- An instruction that is done is retired, whatever became of its gang. -/
theorem retired_any {e : Env} {r : Regs} {w : Writes} {hw : Hw} (hc : (commit e r w hw).isSome) :
    Retired e r w hw (e.s.with (e.finish r (.done w hw))) := by
  by_cases hg : (hw.gangs.look e.gk).isSome
  · exact retired_done hc hg
  obtain ⟨h, hc⟩ := Option.isSome_iff_exists.1 hc
  have hn : hw.gangs.look e.gk = none := by simpa using hg
  obtain ⟨ho, ⟨l, h1, h2⟩, -⟩ := commit_within hc
  have L := finish_done hc
  refine ⟨rfl, rfl, (ho.trans ((onlyGang_setGang _ _ _).trans (onlyGang_setGang _ _ _))).trans (L.only _), ⟨l, L.ops.trans h1, h2⟩,
    fun g hg' => ?_, fun g q hg' => ?_⟩ <;> (rw [hn] at hg'; cases hg')

/-! ## Issue -/

/-- What an issuing path sees: its gang, and its entry as the lanes that move together see it. -/
theorem env_spec {s : State} {e : Env} (h : env s = some e) :
    e.s = s ∧ e.hw.gangs.look e.gk = some e.g ∧ ∃ q, e.g.paths.look e.p = some q ∧ e.q = seenAs e.g q := by
  simp only [env] at h
  split at h
  · cases h
  rename_i g hg
  split at h
  · cases h
  rename_i q hq
  cases h
  exact ⟨rfl, hg, q, hq, rfl⟩

theorem env_state {s : State} {e : Env} (h : env s = some e) : e.s = s := (env_spec h).1
theorem env_gang {s : State} {e : Env} (h : env s = some e) : (e.hw.gangs.look e.gk).isSome := by rw [(env_spec h).2.1]; rfl

/-- A form that passes every check carries out its body. -/
theorem issue_ok {s : State} {r : Regs} {ends sup : Bool} {body : Env → Res} {e : Env} (h : env s = some e)
    (hp : e.badPlace r.len ends r.fsel = false) (hm : sup = true → e.sup = true) (hr : e.ready r = true) :
    issue s r ends sup body = .next (s.with (e.finish r (body e))) := by
  have hs : (sup && !e.sup) = false := by cases sup <;> simp_all
  simp [issue, h, hp, hs, hr]

/-- A W, L or X form that may issue carries out its body. -/
theorem issueF_ok {fm : Form} {f : Fields} {s : State} {e : Env} (h : Issues fm f s e) (body : Env → Regs → Res) :
    issueF fm f s body = .next (s.with (e.finish (regsF fm f) (body e (regsF fm f)))) := by
  rw [issueF, issueAct, issue_ok h.here h.place h.mode h.ready, if_neg h.active, h.room]; rfl

/-- An S form that may issue carries out its body. -/
theorem issueS_ok {fm : SForm} {f : SFields} {s : State} {e : Env} (h : IssuesS fm f s e) (body : Env → Regs → Res) :
    issueS fm f s body = .next (s.with (e.finish (regsS fm f) (body e (regsS fm f)))) := by
  rw [issueS, issueAct, issue_ok h.here h.place (by simp) h.ready, if_neg h.active]

/-- A W, L or X form whose body is done is retired. -/
theorem issueF_done {fm : Form} {f : Fields} {s : State} {e : Env} (h : Issues fm f s e) {body : Env → Regs → Res} {w : Writes} {hw : Hw}
    (hb : body e (regsF fm f) = .done w hw) (hc : (commit e (regsF fm f) w hw).isSome) (hg : (hw.gangs.look e.gk).isSome) :
    ∃ t, issueF fm f s body = .next t ∧ Retired e (regsF fm f) w hw t := by
  refine ⟨_, issueF_ok h body, ?_⟩
  have := retired_done hc hg
  rwa [env_state h.here, ← hb] at this

/-- An S form whose body is done is retired. -/
theorem issueS_done {fm : SForm} {f : SFields} {s : State} {e : Env} (h : IssuesS fm f s e) {body : Env → Regs → Res} {w : Writes} {hw : Hw}
    (hb : body e (regsS fm f) = .done w hw) (hc : (commit e (regsS fm f) w hw).isSome) (hg : (hw.gangs.look e.gk).isSome) :
    ∃ t, issueS fm f s body = .next t ∧ Retired e (regsS fm f) w hw t := by
  refine ⟨_, issueS_ok h body, ?_⟩
  have := retired_done hc hg
  rwa [env_state h.here, ← hb] at this

/-- A lane-wise form retires with its results. -/
theorem lanewise_done {fm : Form} {f : Fields} {s : State} {e : Env} (h : Issues fm f s e) {g : Env → Regs → Nat → Word}
    (hc : (commit e (regsF fm f) (e.put (regsF fm f) (g e (regsF fm f))) e.hw).isSome) :
    ∃ t, lanewise fm f s g = .next t ∧ Retired e (regsF fm f) (e.put (regsF fm f) (g e (regsF fm f))) e.hw t :=
  issueF_done h rfl hc (env_gang h.here)

/-- A lane-wise S form retires with its results. -/
theorem lanewiseS_done {fm : SForm} {f : SFields} {s : State} {e : Env} (h : IssuesS fm f s e) {g : Word → Word → Word}
    (hc : (commit e (regsS fm f) (e.put (regsS fm f) fun l => g (e.vd (regsS fm f) l) (e.va (regsS fm f) l)) e.hw).isSome) :
    ∃ t, lanewiseS fm f s g = .next t ∧
      Retired e (regsS fm f) (e.put (regsS fm f) fun l => g (e.vd (regsS fm f) l) (e.va (regsS fm f) l)) e.hw t :=
  issueS_done h rfl hc (env_gang h.here)

/-! ## Control transfers -/

theorem wroteGang_moved {e : Env} {r : Regs} {w : Writes} {ops : List Op} {a b c : Gang} (M : MovedGang e.p a b)
    (W : WroteGang e r w ops b c) : WroteGang e r w ops a c := by
  obtain ⟨t, x, rfl⟩ := M.rest
  exact { v := W.v, vFrame := W.vFrame, vRel := W.vRel, s := W.s, sRel := W.sRel, fexc := W.fexc, srng := W.srng, srngW := W.srngW,
          nest := W.nest, wid := W.wid, tag := W.tag, exited := W.exited,
          paths := fun p hp => (W.paths p hp).trans (M.other p hp),
          sFrame := fun q q' hq hq' n hn hr => by
            obtain ⟨q1, h1⟩ := M.held q hq
            obtain ⟨q2, h3, h4⟩ := M.path q1 h1
            rw [hq] at h3; cases h3
            rw [← h4]; exact W.sFrame q1 q' h1 hq' n hn hr }

theorem moved_wroteGang {e : Env} {r : Regs} {w : Writes} {ops : List Op} {a b c : Gang} (W : WroteGang e r w ops a b)
    (M : MovedGang e.p b c) : WroteGang e r w ops a c := by
  obtain ⟨t, x, rfl⟩ := M.rest
  exact { v := W.v, vFrame := W.vFrame, vRel := W.vRel, fexc := W.fexc, srng := W.srng, srngW := W.srngW,
          nest := W.nest, wid := W.wid, tag := W.tag, exited := W.exited,
          paths := fun p hp => (M.other p hp).trans (W.paths p hp),
          s := fun q' hq' n x hn => by
            obtain ⟨q1, h1, h2⟩ := M.path q' hq'
            have := W.s q1 h1 n x hn
            simpa [Path.sr, h2] using this
          sFrame := fun q q' hq hq' n hn hr => by
            obtain ⟨q1, h1, h2⟩ := M.path q' hq'
            rw [h2]; exact W.sFrame q q1 hq h1 n hn hr
          sRel := fun q' hq' n hr hp hn => by
            obtain ⟨q1, h1, h2⟩ := M.path q' hq'
            rw [h2]; exact W.sRel q1 h1 n hr hp hn }

/-- What finishing a control transfer does to its path. -/
def ageless (q : Path) : Path := { q with age := 0, skipBp := false, skipWp := false, came := 0, wait := .none, form := none }

/-- A control transfer that moved its path to pc is done. -/
theorem moved_done {e : Env} {r : Regs} {w : Writes} {pc : Word} {dep : Nat → Nat} {hw : Hw}
    (hc : (commit e r w (e.goto pc dep hw)).isSome) (hg : (hw.gangs.look e.gk).isSome) :
    Transferred e r w pc dep hw (e.s.with (e.finish r (.moved w (e.goto pc dep hw)))) := by
  obtain ⟨h, hc⟩ := Option.isSome_iff_exists.1 hc
  obtain ⟨g, hg⟩ := Option.isSome_iff_exists.1 hg
  have A0 := gangAs_setGang (fun g => sendLanes g e.p e.grp pc {} dep) hg
  obtain ⟨ho, hops, g1, hg1, W, hn, hs⟩ := commit_spec hc A0.new
  have A2 := gangAs_setGang (fun g => { g with paths := g.paths.upd e.p ageless }) hg1
  have L : SameButLogs (e.setPath h ageless) (e.finish r (.moved w (e.goto pc dep hw))) := by
    simp only [Env.finish, hc]; exact finStep_frame ..
  have hnew : (e.finish r (.moved w (e.goto pc dep hw))).gangs.look e.gk = _ := (congrArg (Tab.look · e.gk) L.gangs).trans A2.new
  have M0 := movedGang_sendLanes g e.p e.grp pc {} dep
  have M2 := movedGang_upd (p := e.p) g1 ageless fun q => rfl
  refine ⟨rfl, rfl, ((A0.only.trans ho).trans A2.only).trans (L.only _), ?_, fun g' hg' => ?_, fun g' q hg' hq hf => ?_⟩
  · obtain ⟨l, h1, h2⟩ := hops
    exact ⟨l, L.ops.trans h1, h2⟩
  · rw [hg] at hg'; cases hg'
    exact ⟨_, hnew, moved_wroteGang (wroteGang_moved M0 W) M2⟩
  · rw [hg] at hg'; cases hg'
    obtain ⟨x, hx⟩ := hs _ (sendLanes_path hq hf e.grp pc {} dep)
    refine ⟨_, ageless (Path.regs { q with pc := pc, cl := {}, depth := dep q.depth } x), hnew, ?_, rfl, rfl, rfl, rfl, rfl⟩
    rw [show ∀ t : Gang, ({ t with paths := t.paths.upd e.p ageless } : Gang).paths = t.paths.upd e.p ageless from fun _ => rfl,
      Tab.look_upd, if_pos rfl, hx]; rfl

/-! ## Room -/

theorem commit_isSome {e : Env} {r : Regs} {w : Writes} {hw : Hw} : (commit e r w hw).isSome = (commitRoom e r w hw).isSome := by
  simp only [commit]
  split <;> rename_i h <;> exact (congrArg Option.isSome h).symm

/-- Room depends on which registers are written, not on the values. -/
theorem room_congr {e : Env} {r : Regs} {w w' : Writes} {hw : Hw} (hv : w.v.map (·.1) = w'.v.map (·.1)) (hs : w.s.map (·.1) = w'.s.map (·.1))
    (ho : w.ops = w'.ops) : Room e r w hw ↔ Room e r w' hw := by
  have h1 : w.v.map (fun x => x.1 / 32) = w'.v.map (fun x => x.1 / 32) := by
    have := congrArg (List.map (· / 32)) hv; simpa [List.map_map, Function.comp_def] using this
  have h2 : w.s.map (fun x => spillKeyS e.slot e.p (x.1 / 32)) = w'.s.map (fun x => spillKeyS e.slot e.p (x.1 / 32)) := by
    have := congrArg (List.map (fun n => spillKeyS e.slot e.p (n / 32))) hs; simpa [List.map_map, Function.comp_def] using this
  have ht : touched e r w = touched e r w' := by simp only [touched, h1, h2]
  unfold Room; rw [commit_isSome, commit_isSome, commitRoom, commitRoom, h1, hs, ho, ht]

/-- Room for d is room for any values in d. -/
theorem roomD_put {e : Env} {r : Regs} (h : RoomD e r) (x : Nat → Word) : Room e r (e.put r x) e.hw := by
  refine (room_congr ?_ ?_ ?_).1 h <;> unfold Env.put <;> cases r.sh.d <;> simp [Function.comp_def]

/-- A floating form retires with its rounded results. -/
theorem fpForm_done {fm : Form} {f : Fields} {s : State} {e : Env} (h : Issues fm f s e) (g : Env → Regs → Nat → Nat → Word → Rnd)
    (hr : Room e (regsF fm f) (roundedWrites f e (regsF fm f) fun _ _ st => ⟨0, 0, st⟩) e.hw) :
    ∃ t, fpForm fm f s g = .next t ∧ Retired e (regsF fm f) (roundedWrites f e (regsF fm f) (g e (regsF fm f))) e.hw t := by
  have hw : ∀ hr' : Room e (regsF fm f) (roundedWrites f e (regsF fm f) (g e (regsF fm f))) e.hw,
      ∃ t, fpForm fm f s g = .next t ∧ Retired e (regsF fm f) (roundedWrites f e (regsF fm f) (g e (regsF fm f))) e.hw t := by
    intro hr'
    refine issueF_done h ?_ hr' (env_gang h.here)
    simp only [roundedWrites, List.map_map, Function.comp_def]
    cases (regsF fm f).sh.d <;> rfl
  refine hw ((room_congr ?_ ?_ ?_).1 hr) <;> simp only [roundedWrites] <;> cases (regsF fm f).sh.d <;>
    simp [Function.comp_def]

/-! ## Room -/

theorem evict_must (core ctx : Nat) (sc : Bool) (busy : List Nat) (full : Hw → Bool) : ∀ (n : Nat) (hw : Hw),
    (evict hw core ctx sc true busy full n).isSome = true
  | 0, _ => rfl
  | n + 1, hw => by
    have ih := evict_must core ctx sc busy full n
    unfold evict
    cases sc <;> simp only [if_true, if_false, Bool.not_true, Bool.false_and, Bool.false_eq_true] <;> split <;>
      first | rfl | (split <;> first | rfl | exact ih _)
/-- Room for what is reloaded is always made (06_registers R127). -/
theorem makeRoom_isSome (hw : Hw) (core ctx : Nat) (busy : List Nat) (v s : Nat) : (makeRoom hw core ctx busy v s).isSome = true := by
  unfold makeRoom
  obtain ⟨h, e⟩ := Option.isSome_iff_exists.1 (evict_must core ctx false busy (fun h => decide (v < usedV h core ctx)) 4096 hw)
  rw [e]
  exact evict_must ..
/-- An instruction that writes no register, and starts nothing that will, always finds room. -/
theorem room_nil {e : Env} {r : Regs} {w : Writes} {hw : Hw} (hv : w.v = []) (hs : w.s = []) (ov : dstV w.ops = []) (os : dstS w.ops = []) :
    Room e r w hw := by
  unfold Room
  rw [commit_isSome]
  unfold commitRoom
  rw [hv, hs, ov, os]
  simp only [Env.newV, Env.newS, List.map_nil, List.append_nil, dedup, List.filter_nil, List.length_nil, allocate, roomFor, if_true]
  obtain ⟨h, e'⟩ := Option.isSome_iff_exists.1 (makeRoom_isSome (reload hw e.core e.ctx (touched e r w)) e.core e.ctx
    (touched e r w ++ awaitedKeys hw e.core e.ctx) 4096 8192)
  simp [e']
/-- Making room for a form that waits changes which registers are spilled, and nothing else (06_registers R127, R128). -/
theorem waitRoom_frame {e : Env} {r : Regs} {hw h : Hw} (he : e.waitRoom r hw = some h) : SameButImages hw h := by
  unfold Env.waitRoom at he
  split at he
  · exact roomFor_frame he
  · cases he; exact .refl _

end Sys2Proof.Machine
end

