-- ==== Sys2Proof/Tests/Slice0.lean ====
section
/-! SUPPORT. Small tests: words of the spec's encodings and what they decode to, terms that are not well-formed, single
instructions on small states, and for each statement states and operands that meet its hypotheses. -/

namespace Sys2Proof.Tests

set_option Elab.async false

open Sys2Proof Sys2Proof.Machine

/-! ## Small states -/

/-- The gang of the small states. -/
def gk : Nat := gangKey 0 1 0
/-- A path at the last instruction of a clause, of len bytes, in a machine that is up; flags 0 and 1 are its clause's. -/
def base (len : Nat) : State :=
  let s := State.reset.withFetchWord 32 0x40
  let cl : Clause := { inside := true, fin := word (placePc + len), seta := 0, setb := 1 }
  { s with
    cur := ⟨placeRef, len, 0⟩
    agenda := []
    hw := s.hw.setGang gk fun g => { g with paths := g.paths.upd 0 fun q => { q with cl := cl } } }
/-- The state with its machine changed. -/
def onHw (f : Hw → Hw) (s : State) : State := { s with hw := f s.hw }
/-- The state with its gang changed. -/
def onGang (f : Gang → Gang) (s : State) : State := onHw (fun h => h.setGang gk f) s
/-- The state with its path changed. -/
def onPath (f : Path → Path) (s : State) : State := onGang (fun g => { g with paths := g.paths.upd 0 f }) s
/-- The state with its partition changed. -/
def onPart (f : Part → Part) (s : State) : State := onHw (fun h => h.setPart 0 f) s
/-- The state with its core changed. -/
def onCore (f : Core → Core) (s : State) : State := onHw (fun h => h.setCore 0 f) s
/-- The state with its context changed. -/
def onCtx (f : Context → Context) (s : State) : State := onHw (fun h => h.setCtx 0 1 f) s
/-- The state with its links changed. -/
def onLink (f : LinkSt → LinkSt) (s : State) : State := onPart (fun q => { q with link := f q.link }) s
/-- The state with its block changed. -/
def onBlock (f : Block → Block) (s : State) : State :=
  onHw (fun h => { h with blocks := h.blocks.ins 0 (f { core := 0, ctx := 1, slots := [0], spn := 1, accn := 4 }) }) s
/-- The state with these scalars in its path. -/
def sr (l : List (Nat × Nat)) (s : State) : State :=
  onPath (fun q => { q with sregs := l.foldl (fun t x => t.ins x.1 { v := word x.2, phys := x.1 }) q.sregs }) s
/-- The state with a vector register whose lane l holds f l. -/
def vr (n : Nat) (f : Nat → Nat) (s : State) : State :=
  onGang (fun g => { g with vregs := allLanes.foldl (fun t l => t.ins (32 * n + l) (word (f l))) g.vregs }) s
/-- The state with n bytes of v at an address of device memory. -/
def poke (a n v : Nat) (s : State) : State := { s with mem := s.mem.ins 0 (storeBytes (memOf s.mem 0) a (toBytes n v)) }
/-- The state in supervisor mode. -/
def sup (s : State) : State := onPart (fun q => { q with sup := 1 }) s
/-- Handle h of the context: a device range with every permission. -/
def handle (h b n : Nat) (s : State) : State :=
  poke (32 * h) 8 b (poke (32 * h + 8) 8 n (poke (32 * h + 16) 8 (2 ^ 63 + 7 * 2 ^ 55) s))

/-- The state with the launch of its block: word 1 of its header, and extents of 1. -/
def launched (w1 : Nat) (s : State) : State :=
  let l : Launch :=
    { part := 0, ctx := 1, src := .host 0 0, addr := 0, hdr := [0x400100, w1, 1, 1, 1, 1, 1] ++ List.replicate 17 0, doneAt := none, deps := [] }
  onHw (fun h => { h with launches := h.launches.ins 0 l }) s
/-- The state with one block of 32 KiB of scratchpad and four tiles. -/
def block (s : State) : State := onBlock id (launched (2 ^ 34) s)
/-- The state with an operation in flight. -/
def flying (o : Op) (s : State) : State := onHw (fun h => { h with ops := h.ops ++ [o], nextId := 100 }) s
/-- An operation of the path, number 10. -/
def op10 (k : OpKind) : Op := { id := 10, ctx := 1, gk := gk, paths := 1, kind := k }

/-- Fields of a W, L or X instruction. -/
def fl (ty : Ty := .none) (cls : Nat := 0) (opt : Nat := 0) (d : Nat := 0) (a : Nat := 0) (b : Nat := 0) (tail : Ext := .w)
    (fsel : Nat := 0) (lua : Bool := false) : Fields :=
  { cls := BitVec.ofNat 2 cls, opt := BitVec.ofNat 3 opt, fsel := BitVec.ofNat 2 fsel, lud := false, lub := false, lua := lua
    b := BitVec.ofNat 11 b, a := BitVec.ofNat 11 a, d := BitVec.ofNat 11 d, ty := ty, tail := tail }
/-- Fields of an S instruction. -/
def sf (d : Nat := 0) (a : Nat := 0) (sty : Nat := 0) : SFields :=
  { lud := false, lua := false, sty := BitVec.ofNat 2 sty, a := BitVec.ofNat 8 a, d := BitVec.ofNat 8 d }
/-- A literal. -/
def lit (n : Nat) : Ext := .l (BitVec.ofNat 32 n)
/-- The fields of X. -/
def ex (c : Nat := 0) (imm : Nat := 0) (ext : Nat := 0) : Ext := .x (BitVec.ofNat 11 c) false (BitVec.ofNat 32 imm) (BitVec.ofNat 20 ext)

/-- The first encoding of a form, with registers 5 to 8. -/
def first (fm : Form) : Fields :=
  fl (fm.tys.headD .none) (fm.classes.headD 0) (fm.opts.headD 0) 5 6 7
    (match fm.lens.headD 1 with | 1 => .w | 2 => lit 8 | _ => ex 8)

/-! ## Hypotheses met -/

/-- Whether a W, L or X form may issue here, and p holds. -/
def okF (fm : Form) (f : Fields) (s : State) (p : Env → Regs → Bool) : Bool :=
  match env s with
  | none => false
  | some e => !e.badPlace f.len false f.fsel.toNat && (!fm.sup || e.sup) && e.ready (regsF fm f) && decide (e.act ≠ 0) &&
      !e.flagsFull f.fsel.toNat && p e (regsF fm f)
/-- The same for an S form. -/
def okS (fm : SForm) (f : SFields) (s : State) (p : Env → Regs → Bool) : Bool :=
  match env s with
  | none => false
  | some e => !e.badPlace 4 false 0 && e.ready (regsS fm f) && decide (e.act ≠ 0) && p e (regsS fm f)
/-- The same for a control-flow form. -/
def okC (fm : Form) (f : Fields) (s : State) (p : Env → Regs → Bool) : Bool :=
  match env s with
  | none => false
  | some e => !e.badPlace f.len true f.fsel.toNat && e.ready (regsF fm f) && p e (regsF fm f)
/-- Whether a path is in hand, and p holds. -/
def okE (s : State) (p : Env → Bool) : Bool := match env s with | none => false | some e => p e
/-- Whether the machine holds a path, and p holds of what it would see. -/
def okA (s : State) (q : PathRef) (p : Env → Bool) : Bool := match envAt s q with | none => false | some e => p e
/-- Whether there is room for register writes. -/
def roomB (e : Env) (r : Regs) (w : Writes) (hw : Hw) : Bool := (commit e r w hw).isSome

theorem okF_spec {fm : Form} {f : Fields} {s : State} {p : Env → Regs → Bool} (h : okF fm f s p = true) :
    ∃ e, Issues fm f s e ∧ p e (regsF fm f) = true := by
  unfold okF at h
  cases he : env s with
  | none => simp [he] at h
  | some e =>
    simp only [he, Bool.and_eq_true, Bool.or_eq_true, Bool.not_eq_true', decide_eq_true_eq] at h
    exact ⟨e, ⟨he, h.1.1.1.1.1, fun hs => by rcases h.1.1.1.1.2 with k | k <;> simp_all, h.1.1.1.2, h.1.1.2, h.1.2⟩, h.2⟩

theorem okS_spec {fm : SForm} {f : SFields} {s : State} {p : Env → Regs → Bool} (h : okS fm f s p = true) :
    ∃ e, IssuesS fm f s e ∧ p e (regsS fm f) = true := by
  unfold okS at h
  cases he : env s with
  | none => simp [he] at h
  | some e =>
    simp only [he, Bool.and_eq_true, Bool.not_eq_true', decide_eq_true_eq] at h
    exact ⟨e, ⟨he, h.1.1.1, h.1.1.2, h.1.2⟩, h.2⟩

theorem okC_spec {fm : Form} {f : Fields} {s : State} {p : Env → Regs → Bool} (h : okC fm f s p = true) :
    ∃ e, IssuesC fm f s e ∧ p e (regsF fm f) = true := by
  unfold okC at h
  cases he : env s with
  | none => simp [he] at h
  | some e =>
    simp only [he, Bool.and_eq_true, Bool.not_eq_true'] at h
    exact ⟨e, ⟨he, h.1.1, h.1.2⟩, h.2⟩

/-! ## Words of the spec

Each word is the example the spec gives beside its encoding. -/

/-- Words of a clause header (R38) and S forms (R34) and the instructions they stand for. -/
theorem test_decode_header : ([
    (decodeTableWord 64 0x00000027F8008601, some (.beginClause { stall := 0, nohaz := true, rejoin := false, yld := false, setb := 15, seta := 15, wait := 1, clen := 3 })),
    (decodeTableWord 32 0x00000204, some (.yield (sf))),
    (decodeTableWord 32 0x50509060, some (.addS { sf 9 5 1 with lua := true })),
    (decodeTableWord 32 0x20409E60, some (.sarS (sf 9 4 2))),
    (decodeTableWord 32 0x0000005C, some (.exit (sf)))] : List (Option Instr × Option Instr)).all (fun x => x.1 == x.2) = true := by
  decide +kernel

/-- Words of 05_paths and the instructions they stand for. -/
theorem test_decode_flow : ([
    (decodeTableWord 96 0x0000002C000000020000000E, some (.bra (fl (a := 2) (tail := lit 0x2C)))),
    (decodeTableWord 96 0x00000024100000000000020E, some (.brs (fl (opt := 2) (tail := lit 0x24)))),
    (decodeTableWord 96 0xFFFFFFA44000000500000C0A, some (.loopn (fl (cls := 1) (a := 5) (tail := lit 0xFFFFFFA4)))),
    (decodeTableWord 96 0x0000028CC00000000100040E, some (.call (fl (cls := 3) (d := 8) (tail := lit 0x28C)))),
    (decodeTableWord 96 0x0000003C080000130000000A, some (.ifOp (fl (opt := 1) (a := 19) (tail := lit 0x3C)))),
    (decodeTableWord 32 0x00800604, some (.ret (sf 0 8)))] : List (Option Instr × Option Instr)).all (fun x => x.1 == x.2) = true := by
  decide +kernel

/-- Words of 06_registers and the instructions they stand for. -/
theorem test_decode_registers : ([
    (decodeTableWord 32 0x00402240, some (.movsS (sf 2 4))),
    (decodeTableWord 96 0x3FC000000000000000888046, some (.movl (fl (ty := .f32) (d := 4) (tail := lit 0x3FC00000)))),
    (decodeTableWord 64 0x0000380600A58049, some (.sel (fl (ty := .b32) (d := 5) (a := 6) (b := 7)))),
    (decodeTableWord 64 0x000000080600024D, some (.swrite (fl (d := 48) (a := 8))))] : List (Option Instr × Option Instr)).all (fun x => x.1 == x.2) = true := by
  decide +kernel

/-- Words of 08_integer and the instructions they stand for. -/
theorem test_decode_integer : ([
    (decodeTableWord 64 0x0000600B01410065, some (.adds (fl (ty := .i16) (d := 10) (a := 11) (b := 12)))),
    (decodeTableWord 64 0x8000181502838269, some (.mulh (fl (ty := .n32) (cls := 2) (d := 20) (a := 21) (b := 3)))),
    (decodeTableWord 128 0x0000000000000007080030050081846B, some (.mad (fl (ty := .i32) (opt := 1) (d := 4) (a := 5) (b := 6) (tail := ex 7)))),
    (decodeTableWord 64 0x1000200300418075, some (.cmp (fl (ty := .i32) (opt := 2) (d := 2) (a := 3) (b := 4))))] : List (Option Instr × Option Instr)).all (fun x => x.1 == x.2) = true := by
  decide +kernel

/-- Words of 09_float and the instructions they stand for. -/
theorem test_decode_float : ([
    (decodeTableWord 128 0x000000000000000708003005008880C7, some (.fma (fl (ty := .f32) (opt := 1) (d := 4) (a := 5) (b := 6) (tail := ex 7)))),
    (decodeTableWord 64 0x0000000700C882D9, some (.frsq (fl (ty := .f32) (d := 6) (a := 7)))),
    (decodeTableWord 128 0x000000000110001600000015028E00D7, some (.cvtq (fl (ty := .mx8) (d := 20) (a := 21) (tail := ex 22 0x1100))))] : List (Option Instr × Option Instr)).all (fun x => x.1 == x.2) = true := by
  decide +kernel

/-- Words of 10_lanes and the instructions they stand for. -/
theorem test_decode_lanes : ([
    (decodeTableWord 64 0x0800000200E00121, some (.vote (fl (opt := 1) (d := 7) (a := 2)))),
    (decodeTableWord 128 0x00000000000010000800000400660727, some (.shfdn (fl (ty := .b64) (opt := 1) (d := 3) (a := 4) (tail := ex 0 1)))),
    (decodeTableWord 64 0x0000B01502860529, some (.compact (fl (ty := .b64) (d := 20) (a := 21) (b := 22))))] : List (Option Instr × Option Instr)).all (fun x => x.1 == x.2) = true := by
  decide +kernel

/-- Words of 11_scratchpad, 12_handles, 13_consistency, 14_atomics and the instructions they stand for. -/
theorem test_decode_memory : ([
    (decodeTableWord 64 0x8000180201058141, some (.lds (fl (ty := .b32) (cls := 2) (d := 8) (a := 2) (b := 3)))),
    (decodeTableWord 64 0x8000200301260361, some (.st (fl (ty := .b64) (cls := 2) (d := 9) (a := 3) (b := 4)))),
    (decodeTableWord 64 0xD000000800E0016D, some (.hget (fl (cls := 3) (opt := 2) (d := 7) (a := 8)))),
    (decodeTableWord 96 0x000001F44800000600000186, some (.twaitL (fl (cls := 1) (opt := 1) (a := 6) (tail := lit 500)))),
    (decodeTableWord 128 0x00000000000110000000480201038193, some (.atom (fl (ty := .n32) (d := 8) (a := 2) (b := 9) (tail := ex 0 17)))),
    (decodeTableWord 64 0xC0001802000003A1, some (.nbar (fl (cls := 3) (a := 2) (b := 3)))),
    (decodeTableWord 64 0xC8000004006003B5, some (.bwait (fl (cls := 3) (opt := 1) (d := 3) (a := 4))))] : List (Option Instr × Option Instr)).all (fun x => x.1 == x.2) = true := by
  decide +kernel

/-- Words of 16_matrix and the instructions they stand for. -/
theorem test_decode_matrix : ([
    (decodeTableWord 128 0x0000000100040000C2002804000A01C3, some (.mma (fl (ty := .e4m3) (cls := 3) (a := 4) (b := 5) (fsel := 1) (tail := ex 0 0x100040)))),
    (decodeTableWord 128 0x0000100080000008C0003806008A03C3, some (.mmas (fl (ty := .e4m3) (cls := 3) (d := 4) (a := 6) (b := 7) (tail := ex 8 0x80000 1)))),
    (decodeTableWord 64 0x0000001F020005C5, some (.arel (fl (d := 16) (a := 31))))] : List (Option Instr × Option Instr)).all (fun x => x.1 == x.2) = true := by
  decide +kernel

/-- Words of 17_tail, 18_contexts, 19_links, 21_observe and the instructions they stand for. -/
theorem test_decode_system : ([
    (decodeTableWord 64 0xD000000700C003E1, some (.wquery (fl (cls := 3) (opt := 2) (d := 6) (a := 7)))),
    (decodeTableWord 64 0xC8002003004001E5, some (.wcfgForce (fl (cls := 3) (opt := 1) (d := 2) (a := 3) (b := 4)))),
    (decodeTableWord 128 0x0000000000102000C0000005008001EF, some (.rsys (fl (cls := 3) (d := 4) (a := 5) (tail := ex 0 0x102)))),
    (decodeTableWord 64 0xD0002003004001F1, some (.cswapIn (fl (cls := 3) (opt := 2) (d := 2) (a := 3) (b := 4)))),
    (decodeTableWord 64 0xD8003005004005F9, some (.fmcrRoute (fl (cls := 3) (opt := 3) (d := 2) (a := 5) (b := 6)))),
    (decodeTableWord 64 0xC0000003004009F9, some (.cnt (fl (cls := 3) (d := 2) (a := 3))))] : List (Option Instr × Option Instr)).all (fun x => x.1 == x.2) = true := by
  decide +kernel

/-! ## Terms that no encoding holds -/

/-- One ill-formed term for each check of Table FM-8, each refused. -/
theorem test_ill_formed : ([
    wellFormed (.bar (fl (tail := ex))),  -- a length the form has not
    wellFormed (.add (fl (ty := .f32) (d := 1))),  -- a type the form has not
    wellFormed (.cstop (fl (cls := 1))),  -- a class the form has not
    wellFormed (.tret (fl (cls := 3) (opt := 3))),  -- an option the form has not
    wellFormed (.mmas (fl (ty := .e4m3) (cls := 3) (tail := ex 8 (2 ^ 19)))),  -- a sub-field of no value
    wellFormed (.cbstat (fl (cls := 3) (d := 256))),  -- d beyond its class
    wellFormed (.cbstat (fl (cls := 3) (a := 256))),  -- a beyond its class
    wellFormed (.cbsig (fl (cls := 3) (b := 256))),  -- b beyond its class
    wellFormed (.mmas (fl (ty := .e4m3) (cls := 3) (tail := ex 256 (2 ^ 19) 1))),  -- c beyond its class
    wellFormed (.cbsig (fl (cls := 3) (d := 1))),  -- d of class none not zero
    wellFormed (.tnow (fl (cls := 3) (a := 1))),  -- a of class none not zero
    wellFormed (.tnow (fl (cls := 3) (b := 1))),  -- b of class none not zero
    wellFormed (.cbstat { fl (cls := 3) with lud := true }),  -- last use of d where d is not read
    wellFormed (.azero { fl (a := 3) with lua := true }),  -- last use of a tile
    wellFormed (.add (fl (ty := .i32) (b := 1) (tail := lit 0))),  -- b beside a literal
    wellFormed (.rsys (fl (cls := 3) (tail := ex 0 4096))),  -- an immediate bit the form has not
    wellFormed (.rsys (fl (cls := 3) (tail := ex 0 0 1))),  -- an EXT bit the form has not
    wellFormed (.cbstat (fl (cls := 3) (fsel := 1))),  -- FSEL on a form that sets no flag
    wellFormed (.mma (fl (ty := .f16) (cls := 3) (tail := ex 0 (2 ^ 19 + 16)))),  -- a reserved sub-field
    wellFormed (.cswapOut (fl (cls := 3))),  -- a minor code whose option names another form
    wellFormed (.wdone (sf 1 0 1)),  -- STYPE of an S form that has none
    wellFormed (.wdone (sf 1 1)),  -- a field of class none of an S form
    wellFormed (.addS { sf 1 2 with lud := true }),  -- LUD of an S form
    wellFormed (.beginClause { stall := 0, nohaz := false, rejoin := false, yld := false, setb := 15, seta := 15, wait := 0, clen := 0 }),  -- a header of no length
    wellFormed (.beginClause { stall := 0, nohaz := false, rejoin := false, yld := false, setb := 15, seta := 12, wait := 0, clen := 1 }),  -- a header that sets flag 12
    wellFormed (.hostLinkDown)   -- an event
    ] : List Bool).all (! ·) = true := by
  decide +kernel

/-- The same forms with their fields right are well formed. -/
theorem test_well_formed : ([
    wellFormed (.bar fl),
    wellFormed (.add (fl (ty := .i32) (d := 1))),
    wellFormed (.mmas (fl (ty := .e4m3) (cls := 3) (tail := ex 8 (2 ^ 19) 1))),
    wellFormed (.cbstat (fl (cls := 3) (d := 255) (a := 255))),
    wellFormed (.rsys (fl (cls := 3) (tail := ex 0 4095))),
    wellFormed (.cswapOut (fl (cls := 3) (opt := 1))),
    wellFormed (.wdone (sf 255))
    ] : List Bool).all id = true := by
  decide +kernel

/-! ## Worked examples of the spec -/

/-- What lane l of vector register r holds after an instruction; 0 where it answers no next state. -/
def laneAfter (o : Host.Outcome State Fault Refusal) (r l : Nat) : Nat :=
  match o with
  | .next s => ((s.hw.gangs.val {} gk).v r l).toNat
  | _ => 0

/-- Sources v11 and v12 of the worked example of 08_integer. -/
def intSources : State := vr 12 (fun _ => 0x0020FFFFFFFE0001) (vr 11 (fun _ => 0x7FF080000005FFFF) (base 8))

/-- The worked example of 08_integer: six forms over .i16 (R164, R167). -/
theorem test_worked_integer :
    let f := fl (ty := .i16) (d := 13) (a := 11) (b := 12)
    [laneAfter (exec (.add f) intSources) 13 0, laneAfter (exec (.adds f) intSources) 13 0, laneAfter (exec (.mul f) intSources) 13 0,
      laneAfter (exec (.mulh f) intSources) 13 0, laneAfter (exec (.div f) intSources) 13 0, laneAfter (exec (.rem f) intSources) 13 0] =
    [0x80107FFF00030000, 0x7FFF800000030000, 0xFE008000FFF6FFFF, 0x000F0000FFFFFFFF, 0x03FF8000FFFEFFFF, 0x0010000000010000] := by
  decide +kernel

/-- The bit fields of the worked example of 08_integer, pos 4 and len 12, then pos 28 (R168). -/
theorem test_worked_bit_field :
    let s := vr 9 (fun _ => 0xABCD) (base 16)
    let f (ty : Ty) (c : Nat) := fl (ty := ty) (d := 8) (a := 9) (tail := ex 0 c)
    [laneAfter (exec (.bfe (f .i32 0x0C04)) s) 8 1, laneAfter (exec (.bfe (f .n32 0x0C04)) s) 8 1, laneAfter (exec (.bfe (f .n32 0x0C1C)) s) 8 1] =
    [0xFFFFFABC, 0xABC, 0] := by
  decide +kernel

/-- The stochastic-rounding generator of 07_numbers, twice from the state 3 (R152). -/
theorem test_worked_generator : [srStep 3, srSteps 2 3] = [0xD800000000000001#64, 0xB400000000000000#64] := by
  decide +kernel

/-- The logarithm of 8 is 3 (R190, 09_float). -/
theorem test_worked_logarithm :
    laneAfter (exec (.flog2 (fl (ty := .f32) (d := 6) (a := 7))) (vr 7 (fun _ => 0x41000000) (base 8))) 6 0 % 2 ^ 32 = 0x40400000 := by
  decide +kernel

/-- Sources of the worked example of 09_float. -/
def quantSources : State :=
  vr 22 (fun l => if l = 0 then 0xAAAAAAAAAAAAAAAA else if l = 5 then 0x1234 else 0)
    (vr 21 (fun l => if l = 0 then 0x4040000042C80000 else if l = 1 then 0xBC23D70A else 0) (base 16))

/-- Quantising the block of the worked example of 09_float: codes and scale bytes (R187, R148). -/
theorem test_worked_quantise :
    let o := exec (.cvtq (fl (ty := .mx8) (d := 20) (a := 21) (tail := ex 22 0x1100))) quantSources
    [laneAfter o 20 0, laneAfter o 20 1, laneAfter o 22 0, laneAfter o 22 5] = [0x92547C, 0, 0xAAAAAAAAAAAA7F7D, 0] := by
  decide +kernel

/-- Reading the block back (R188). -/
theorem test_worked_dequantise :
    let s := vr 22 (fun l => if l = 0 then 0xAAAAAAAAAAAA7F7D else 0) (vr 20 (fun l => if l = 0 then 0x92547C else 0) (base 16))
    let o := exec (.cvtdq (fl (ty := .f32) (d := 30) (a := 20) (tail := ex 22 0x1C00))) s
    [laneAfter o 30 0, laneAfter o 30 1, laneAfter o 30 2] = [0x4040000042C00000, 0xBC200000, 0] := by
  decide +kernel

/-! ## Every hypothesis of a statement is met somewhere -/

/-- States and operands for the hypotheses of IntegerArithmetic. -/
theorem test_meets_IntegerArithmetic : ([
    ([Forms.add, Forms.sub, Forms.adds, Forms.subs, Forms.absd, Forms.min, Forms.max, Forms.abs, Forms.mul, Forms.mulh, Forms.mad, Forms.div, Forms.rem].all fun fm => okF fm (first fm) (base (first fm).len) fun e r => fm.tys.contains (first fm).ty && roomB e r (e.put r fun _ => 0) e.hw),
    ([Forms.addS, Forms.subS].all fun fm => okS fm (sf 5 6) (base 4) fun e r => roomB e r (e.put r fun _ => 0) e.hw)] : List Bool).all id = true := by
  decide +kernel

/-- States and operands for the hypotheses of IntegerLogic. -/
theorem test_meets_IntegerLogic : ([
    ([Forms.and, Forms.or, Forms.xor, Forms.andn, Forms.not, Forms.shl, Forms.shr, Forms.sar, Forms.rot, Forms.popc, Forms.clz, Forms.ctz, Forms.brev, Forms.bfe, Forms.bfi, Forms.cmp].all fun fm => okF fm (first fm) (base (first fm).len) fun e r => fm.tys.contains (first fm).ty && roomB e r (e.put r fun _ => 0) e.hw),
    ([Forms.lea].all fun fm => okF fm (first fm) (base (first fm).len) fun e r => roomB e r (e.put r fun _ => 0) e.hw),
    ([Forms.andS, Forms.orS, Forms.xorS, Forms.shlS, Forms.shrS, Forms.sarS].all fun fm => okS fm (sf 5 6) (base 4) fun e r => roomB e r (e.put r fun _ => 0) e.hw)] : List Bool).all id = true := by
  decide +kernel

/-- States and operands for the hypotheses of FloatArithmetic. -/
theorem test_meets_FloatArithmetic : ([
    ([Forms.fadd, Forms.fsub, Forms.fmul, Forms.fma, Forms.fscale, Forms.fdiv, Forms.fsqrt].all fun fm => okF fm (first fm) (base (first fm).len) fun e r => fm.tys.contains (first fm).ty && roomB e r (roundedWrites (first fm) e r fun _ _ st => ⟨0, 0, st⟩) e.hw)] : List Bool).all id = true := by
  decide +kernel

/-- States and operands for the hypotheses of FloatSelection. -/
theorem test_meets_FloatSelection : ([
    ([Forms.fcmp, Forms.fclass].all fun fm => okF fm (first fm) (base (first fm).len) fun e r => fm.tys.contains (first fm).ty && roomB e r (e.put r fun _ => 0) e.hw),
    ([Forms.fmin, Forms.fmax, Forms.fabs, Forms.fneg, Forms.frnd].all fun fm => okF fm (first fm) (base (first fm).len) fun e r => fm.tys.contains (first fm).ty && roomB e r (roundedWrites (first fm) e r fun _ _ st => ⟨0, 0, st⟩) e.hw)] : List Bool).all id = true := by
  decide +kernel

/-- States and operands for the hypotheses of FloatSpecials. -/
theorem test_meets_FloatSpecials : ([
    ([Forms.frcp, Forms.frsq, Forms.fexp2, Forms.flog2, Forms.fsin, Forms.fcos, Forms.ftanh].all fun fm => okF fm (first fm) (base (first fm).len) fun e r => fm.tys.contains (first fm).ty && roomB e r (roundedWrites (first fm) e r fun _ _ st => ⟨0, 0, st⟩) e.hw),
    okF Forms.fdot (first Forms.fdot) (base 8) (fun e r => roomB e r (calcWrites e r fun _ => (0, 0, 0)) e.hw),
    okF Forms.cvt (first Forms.cvt) (base 8) (fun e r => roomB e r (calcWrites e r fun _ => (0, 0, 0)) e.hw),
    okF Forms.cvtq (fl (ty := .mx8) (d := 20) (a := 21) (tail := ex 22 0x1100)) (base 16) (fun e r => let f := fl (ty := .mx8) (d := 20) (a := 21) (tail := ex 22 0x1100); roomB e r (cvtqWrites f e r) e.hw),
    okF Forms.cvtdq (fl (ty := .f32) (d := 30) (a := 20) (tail := ex 22 0x1C00)) (base 16) (fun e r => let f := fl (ty := .f32) (d := 30) (a := 20) (tail := ex 22 0x1C00); roomB e r (cvtdqWrites f e r) e.hw)] : List Bool).all id = true := by
  decide +kernel

/-- States and operands for the hypotheses of LaneVotes. -/
theorem test_meets_LaneVotes : ([
    ([Forms.vote, Forms.ballot, Forms.elect, Forms.matchOp, Forms.pwidth, Forms.shfl, Forms.shfx, Forms.shfup, Forms.shfdn, Forms.bcast].all fun fm => okF fm (first fm) (base (first fm).len) fun e r => roomB e r (e.put r fun _ => 0) e.hw)] : List Bool).all id = true := by
  decide +kernel

/-- States and operands for the hypotheses of LaneReductions. -/
theorem test_meets_LaneReductions : ([
    ([Forms.compact].all fun fm => okF fm (first fm) (base (first fm).len) fun e r => roomB e r (e.put r fun _ => 0) e.hw),
    okF Forms.lred (fl (ty := .f32) (d := 4) (a := 10) (b := 8)) (base 8) (fun e r => roomB e r (e.put r fun _ => 0) e.hw),
    okF Forms.scan (fl (ty := .i64) (d := 12) (a := 3) (b := 8)) (base 8) (fun e r => roomB e r (e.put r fun _ => 0) e.hw),
    okF Forms.isect (fl (ty := .n64) (d := 5) (a := 6) (b := 7) (tail := ex 8 0 1)) (base 16) (fun e r => let f := fl (ty := .n64) (d := 5) (a := 6) (b := 7) (tail := ex 8 0 1); Forms.isect.tys.contains f.ty && roomB e r { v := e.acts.map fun l => (32 * r.d + l, 0), s := [(r.c, 0)] } e.hw)] : List Bool).all id = true := by
  decide +kernel

/-- States and operands for the hypotheses of RegisterMoves. -/
theorem test_meets_RegisterMoves : ([
    ([Forms.sel].all fun fm => okF fm (first fm) (base (first fm).len) fun e r => fm.tys.contains (first fm).ty && roomB e r (e.put r fun _ => 0) e.hw),
    ([Forms.mov, Forms.movs, Forms.movl, Forms.sread, Forms.wid].all fun fm => okF fm (first fm) (base (first fm).len) fun e r => roomB e r (e.put r fun _ => 0) e.hw),
    ([Forms.movS, Forms.movsS].all fun fm => okS fm (sf 5 6) (base 4) fun e r => roomB e r (e.put r fun _ => 0) e.hw),
    okF Forms.swrite (fl (d := 0x30) (a := 6)) (base 8) (fun e r => let f := fl (d := 0x30) (a := 6); f.d.toNat = 0x30 ∧ roomB e r {} e.hw),
    okF Forms.swrite (fl (d := 0x31) (a := 6)) (base 8) (fun e r => let f := fl (d := 0x31) (a := 6); f.d.toNat ≠ 0x30 ∧ roomB e r {} e.hw),
    okE (vr 9 (fun l => l) (base 8)) (fun e => let f := fl (a := 9); let r := { regsF Forms.vrel f with sh := {}, lua := false, lub := false, lud := false }; !e.badPlace f.len false f.fsel.toNat && decide (e.act ≠ 0) && decide ((regsF Forms.vrel f).sh.a ≠ .s) && roomB e r { relV := [9] } e.hw),
    okE (sr [(9, 5)] (base 8)) (fun e => let f := fl (cls := 1) (a := 9); let r := { regsF Forms.vrel f with sh := {}, lua := false, lub := false, lud := false }; !e.badPlace f.len false f.fsel.toNat && decide (e.act ≠ 0) && decide ((regsF Forms.vrel f).sh.a = .s) && roomB e r {} (releaseS e.hw e.gk e.p 9)),
    okE (vr 9 (fun l => l) (base 8)) (fun e => let f := fl (d := 8) (a := 9); let r := { regsF Forms.vzero f with sh := {}, lua := false, lub := false, lud := false }; !e.badPlace f.len false f.fsel.toNat && decide (e.act ≠ 0) && roomB e r { relV := (dedup (liveV e.g ++ awaitedV e.hw e.gk e.g)).filter fun n => decide (f.d.toNat ≤ n) && decide (n ≤ f.a.toNat) } e.hw)] : List Bool).all id = true := by
  decide +kernel

/-- States and operands for the hypotheses of PoolAndHost. -/
theorem test_meets_PoolAndHost : ([
    (let s := onPart (fun q => { q with pend := [{ w := 9, addr := 2 ^ 60 + 640, bytes := [1#8] }, { w := 9, addr := 640, bytes := [1#8] }], link := { q.link with active := true, hostok := true, hostReach := true, sectors := [(10, 2, 5)] } }) (poke (2 ^ 60 + 640) 8 3 (base 8)); (s.hw.part 0).present),
    (let s := onLink (fun k => { k with hostReach := true }) (base 8); (s.hw.part 0).present),
    (let s := onLink (fun k => { k with active := true, devno := 5, fen := true }) (base 8); s.hw.pkg.up && (s.hw.part 0).present && postedPast s.hw 0 s.time && (s.hw.part 0).ptstatus != 255),
    (let s := onLink (fun k => { k with pool := [(1023, { state := 1 }), (5, { state := 2 }), (6, { state := 3 })] }) (base 8); (extent (s.hw.part 0).link 1023).state == 1 && (extent (s.hw.part 0).link 5).state == 2 && (extent (s.hw.part 0).link 6).state == 3 && !extentBusy s.hw 0 5),
    (let s := onLink (fun k => { k with pool := [(1023, { state := 3, gen := 65535 }), (5, { state := 1 })] }) (base 8); (s.hw.part 0).present && (extent (s.hw.part 0).link 1023).state == 3),
    (let s := onLink (fun k => { k with pool := [(5, { state := 1, shared := true, seq := 2 ^ 32 - 1 })] }) (base 8); (let x := extent (s.hw.part 0).link 5; x.state == 1 && x.shared)),
    (let s := flying (op10 (.store [{ lane := 0, tgt := { space := 3, tgt := 5 }, val := 7, st := 1 }] 8)) (onLink (fun k => { k with pool := [(5, { state := 1, shared := true, seq := 2 ^ 32 - 1 })] }) (base 8)); (let x := extent (s.hw.part 0).link 5; x.state == 1 && x.shared) && (match s.hw.op 10 with | some o => o.chain.isNone && o.part == 0 | none => false))] : List Bool).all id = true := by
  decide +kernel

/-- States and operands for the hypotheses of FabricGroups. -/
theorem test_meets_FabricGroups1 : ([
    (let k : LinkSt := { fgroups := 3, groups := [(1, { state := 2 })] }; (([0, 2] : List Nat).any fun g => !bit g k.fgroups) && (([0, 1] : List Nat).all fun g => bit g k.fgroups) && (([0, 1] : List Nat).any fun g => !([0, 1] : List Nat).contains (groupState k g)) && (([0, 1] : List Nat).all fun g => ([0, 2] : List Nat).contains (groupState k g))),
    okF Forms.fmcr (fl (cls := 3) (opt := 0) (d := 4) (a := 6) (b := 7)) (sup (sr [(6, 2 ^ 15), (7, 0)] (onLink (fun k => { k with fgroups := 0xFFFF, groups := [(15, { state := 2 })] }) (base 8)))) (fun e r => let k := (e.hw.part e.part).link; let gs := bitList 16 ((e.sa r).toNat % 65536); fmcrStatus k gs [0, 1] == 2 && roomB e r (putS r 2) e.hw),
    okF Forms.fmcr (fl (cls := 3) (opt := 0) (d := 4) (a := 6) (b := 7)) (sup (sr [(6, 0), (7, 0)] (onLink (fun k => { k with fgroups := 0xFFFF, groups := [(15, { state := 2 })] }) (base 8)))) (fun e r => let k := (e.hw.part e.part).link; let gs := bitList 16 ((e.sa r).toNat % 65536); fmcrStatus k gs [0, 1] == 0 && gs.isEmpty && roomB e r (putS r 0) e.hw),
    okF Forms.fmcr (fl (cls := 3) (opt := 0) (d := 4) (a := 6) (b := 7)) (sup (sr [(6, 2 ^ 15), (7, 0)] (onLink (fun k => { k with fgroups := 0xFFFF, groups := [(15, { state := 1 })] }) (base 8)))) (fun e r => let k := (e.hw.part e.part).link; let gs := bitList 16 ((e.sa r).toNat % 65536); fmcrStatus k gs [0, 1] == 0 && !gs.isEmpty),
    okF Forms.fmcr (fl (cls := 3) (opt := 2) (d := 4) (a := 6) (b := 7)) (sup (sr [(6, 2 ^ 15), (7, 0)] (onLink (fun k => { k with fgroups := 0xFFFF, groups := [(15, { state := 1 })] }) (base 8)))) (fun e r => let k := (e.hw.part e.part).link; let gs := bitList 16 ((e.sa r).toNat % 65536); fmcrStatus k gs [2, 3] == 2 && roomB e r (putS r 2) e.hw),
    okF Forms.fmcr (fl (cls := 3) (opt := 2) (d := 4) (a := 6) (b := 7)) (sup (sr [(6, 0), (7, 0)] (onLink (fun k => { k with fgroups := 0xFFFF, groups := [(15, { state := 1 })] }) (base 8)))) (fun e r => let k := (e.hw.part e.part).link; let gs := bitList 16 ((e.sa r).toNat % 65536); fmcrStatus k gs [2, 3] == 0 && gs.isEmpty && roomB e r (putS r 0) e.hw),
    okF Forms.fmcr (fl (cls := 3) (opt := 2) (d := 4) (a := 6) (b := 7)) (sup (sr [(6, 2 ^ 15), (7, 0)] (onLink (fun k => { k with fgroups := 0xFFFF, groups := [(15, { state := 3 })] }) (base 8)))) (fun e r => let k := (e.hw.part e.part).link; let gs := bitList 16 ((e.sa r).toNat % 65536); fmcrStatus k gs [2, 3] == 0 && !gs.isEmpty),
    okF Forms.fmcr (fl (cls := 3) (opt := 1) (d := 4) (a := 6) (b := 7)) (sup (sr [(6, 1), (7, 0)] (onLink (fun k => { k with fgroups := 0xFFFF, groups := [] }) (base 8)))) (fun e r => let k := (e.hw.part e.part).link; let gs := bitList 16 ((e.sa r).toNat % 65536); fmcrStatus k gs [1] == 2 && roomB e r (putS r 2) e.hw),
    okF Forms.fmcr (fl (cls := 3) (opt := 1) (d := 4) (a := 6) (b := 7)) (sup (sr [(6, 1), (7, 0)] (onLink (fun k => { k with fgroups := 0xFFFF, groups := [(0, { state := 1 })] }) (base 8)))) (fun e r => let k := (e.hw.part e.part).link; let gs := bitList 16 ((e.sa r).toNat % 65536); fmcrStatus k gs [1] == 0 && roomB e r (putS r 0) (setGroups e.hw e.part 2 gs)),
    okF Forms.fmcr (fl (cls := 3) (opt := 3) (d := 4) (a := 6) (b := 7)) (sup (sr [(6, 2 ^ 17), (7, 0)] (onLink (fun k => { k with fgroups := 0xFFFF, groups := [] }) (base 8)))) (fun e r => roomB e r (putS r 2) e.hw),
    okF Forms.fmcr (fl (cls := 3) (opt := 3) (d := 4) (a := 6) (b := 7)) (sup (sr [(6, 2 ^ 17 - 1), (7, 2 ^ 63 + 5)] (onLink (fun k => { k with fgroups := 0xFFFF, groups := [] }) (base 8)))) (fun e r => let v := (e.sb r).toNat; let h := failDown (e.hw.setLink e.part fun k => { k with routes := k.routes.put 0 (e.sa r).toNat (b2n (bit 63 v) * 2 ^ 63 + bits 35 32 v * 2 ^ 32 + bits 15 0 v) }) e.part; let x := (e.hw.part e.part).link.routes.val 0 (e.sa r).toNat; decide ((e.sa r).toNat < 2 ^ 17) && roomB e r (putS r x) h),
    okF Forms.fmcr (fl (cls := 3) (opt := 4) (d := 4) (a := 6) (b := 7)) (sup (sr [(6, 4096), (7, 0)] (onLink (fun k => { k with fgroups := 0xFFFF, groups := [] }) (base 8)))) (fun e r => roomB e r (putS r 2) e.hw),
    okF Forms.fmcr (fl (cls := 3) (opt := 4) (d := 4) (a := 6) (b := 7)) (sup (sr [(6, 4095), (7, 2 ^ 63 + 2 ^ 62 + (((List.range 64).find? fun c => Forms.tyOfCode c == some .i32).getD 0) * 2 ^ 53 + 7)] (onLink (fun k => { k with fgroups := 0xFFFF, groups := [] }) (base 8)))) (fun e r => decide ((e.sa r).toNat < 4096) && mcrPair (bits 61 59 (e.sb r).toNat) (bits 58 53 (e.sb r).toNat) == true),
    okF Forms.fmcr (fl (cls := 3) (opt := 4) (d := 4) (a := 6) (b := 7)) (sup (sr [(6, 4095), (7, 2 ^ 63 + 2 ^ 62 + 7 * 2 ^ 59 + 63 * 2 ^ 53 + 7)] (onLink (fun k => { k with fgroups := 0xFFFF, groups := [] }) (base 8)))) (fun e r => decide ((e.sa r).toNat < 4096) && mcrPair (bits 61 59 (e.sb r).toNat) (bits 58 53 (e.sb r).toNat) == false),
    okF Forms.fmcr (fl (cls := 3) (opt := 5) (d := 4) (a := 6) (b := 7)) (sup (sr [(6, 0), (7, 0)] (onLink (fun k => { k with fgroups := 0xFFFF, groups := [(15, { state := 3 })] }) (base 8)))) (fun e r => roomB e r (putS r (groupStates (e.hw.part e.part).link)) e.hw),
    (let s := flying { op10 (.fmcr 0 [3, 5] [3] 0) with dst := .scal 4 1 0 } (onPath (fun q => { q with state := .parked, wait := .op 10, form := some (regsF Forms.fmcr (fl (cls := 3) (d := 4))) }) (onLink (fun k => { k with fgroups := 0xFFFF, groups := [(3, { state := 0 })] }) (base 8))); (fmcrFor s.hw 0 0 3).map (·.id) == [10] && groupCarries (s.hw.part 0).link 3 == true && !s.hw.pkg.health.retired.contains (3, 3)),
    (let s := flying { op10 (.fmcr 0 [3, 5] [3, 5] 0) with dst := .scal 4 1 0 } (onPath (fun q => { q with state := .parked, wait := .op 10, form := some (regsF Forms.fmcr (fl (cls := 3) (d := 4))) }) (onLink (fun k => { k with fgroups := 0xFFFF, groups := [(3, { state := 0 })] }) (base 8))); (fmcrFor s.hw 0 0 3).map (·.id) == [10] && groupCarries (s.hw.part 0).link 3 == true && !s.hw.pkg.health.retired.contains (3, 3)),
    (let s := flying { op10 (.fmcr 2 [3, 5] [3] 0) with dst := .scal 4 1 0 } (onPath (fun q => { q with state := .parked, wait := .op 10, form := some (regsF Forms.fmcr (fl (cls := 3) (d := 4))) }) (onLink (fun k => { k with fgroups := 0xFFFF, groups := [(3, { state := 3 })] }) (base 8))); (fmcrFor s.hw 0 2 3).map (·.id) == [10] && groupCarries (s.hw.part 0).link 3 == false && !s.hw.pkg.health.retired.contains (3, 3)),
    (let s := flying { op10 (.fmcr 2 [3, 5] [3, 5] 0) with dst := .scal 4 1 0 } (onPath (fun q => { q with state := .parked, wait := .op 10, form := some (regsF Forms.fmcr (fl (cls := 3) (d := 4))) }) (onLink (fun k => { k with fgroups := 0xFFFF, groups := [(3, { state := 3 })] }) (base 8))); (fmcrFor s.hw 0 2 3).map (·.id) == [10] && groupCarries (s.hw.part 0).link 3 == false && !s.hw.pkg.health.retired.contains (3, 3)),
    (let s := flying { op10 (.fmcr 2 [3, 5] [3] 0) with dst := .scal 4 1 0 } (onPath (fun q => { q with state := .parked, wait := .op 10, form := some (regsF Forms.fmcr (fl (cls := 3) (d := 4))) }) (onLink (fun k => { k with fgroups := 0xFFFF, groups := [] }) (base 8)));  let s := { s with time := 1000000 }; (s.hw.op 10).isSome && decide (0 + 1000000 ≤ s.time))] : List Bool).all id = true := by
  decide +kernel

/-- The same, continued. -/
theorem test_meets_FabricGroups2 : ([
    (let s := flying { op10 (.fmcr 2 [3, 5] [3] 0) with dst := .scal 4 1 0 } (onPath (fun q => { q with state := .parked, wait := .op 10, form := some (regsF Forms.fmcr (fl (cls := 3) (d := 4))) }) (onLink (fun k => { k with fgroups := 0xFFFF, groups := [] }) (base 8)));  let s := { s with time := 999999 }; (s.hw.op 10).isSome && decide (s.time < 0 + 1000000)),
    (let s := onLink (fun k => { k with fgroups := 0xFFFF, groups := [(14, { state := 2 })] }) (base 8); bit 15 (s.hw.part 0).link.fgroups && groupCarries (s.hw.part 0).link 15 && !groupCarries (s.hw.part 0).link 14),
    (let s := flying (op10 (.load [{ lane := 0, tgt := { space := 2, peer := 7 }, w := 1 }] .b32)) (onLink (fun k => { k with fen := true, fgroups := 1, routes := [(7, 2 ^ 63 + 1)] }) { base 8 with time := 100001 }); (s.hw.op 10).isSome && peerSends (s.hw.part 0).link 7 && decide (1 + 100000 ≤ s.time)),
    (let s := poke 0x4FFFFC 4 5 (onLink (fun k => { k with fen := true, expBase := 4, expSize := 1 }) (base 8)); (s.hw.part 0).present && exported s.hw 0 0x4FFFFC 4 && !exported s.hw 0 0x4FFFFD 4),
    (let s := poke 0x4FFFFC 4 5 (onLink (fun k => { k with fen := true, expBase := 4, expSize := 1 }) (base 8)); (s.hw.part 0).present && (s.hw.part 0).link.hostLines.isEmpty && exported s.hw 0 0x4FFFFC 2 && !exported s.hw 0 0x4FFFFF 2),
    (let s := poke 0x4FFFFC 4 5 (onLink (fun k => { k with fen := true, expBase := 4, expSize := 1 }) (base 8)); (s.hw.part 0).present && (s.hw.part 0).link.hostLines.isEmpty && Forms.atomAdmits 0 .i32 && exported s.hw 0 0x4FFFFC 4),
    (let s := onPart (fun q => { q with arms := [(0x4FFF80, 6)] }) (onLink (fun k => { k with fen := true, expBase := 4, expSize := 1 }) (base 8)); (s.hw.part 0).present && decide (0x4FFFF8 % (Ty.width .b64 / 8) = 0) && Forms.atomAdmits 9 .b64 && exported s.hw 0 0x4FFFF8 8),
    (let s := flying { op10 (.fmcr 0 [3, 5] [3] 0) with dst := .scal 4 1 0 } (onPath (fun q => { q with state := .parked, wait := .op 10, form := some (regsF Forms.fmcr (fl (cls := 3) (d := 4))) }) (onLink (fun k => { k with fgroups := 0xFFFF, groups := [(3, { state := 0 }), (5, { state := 3 })] }) (base 8))); (fmcrFor s.hw 0 0 3).map (·.id) == [10] && groupCarries (s.hw.part 0).link 3 && !groupCarries (s.hw.part 0).link 5)] : List Bool).all id = true := by
  decide +kernel

/-- States and operands for the hypotheses of Multicast: an fsig trapping, waiting for its release and starting; an fwait at its threshold and below; lost groups. -/
theorem test_meets_Multicast : ([
    okF Forms.fsig (fl (cls := 3) (a := 6) (tail := ex 0 1)) (base 16) (fun e _ => let f := fl (cls := 3) (a := 6) (tail := ex 0 1); let need : Need := { spaces := fun sp => sp == 2, a := true, width := 8, rd := true, wr := true }; let refs : List Ref := [⟨lowLane e.act, f.hIdx, f.hOff⟩]; !e.counterFull && (match e.check need true refs with | .stop (.trap t) => t.cause == 6 | _ => false)),
    okF Forms.fsig (fl (cls := 3) (a := 6) (tail := ex 0 1)) (poke 0x40008 8 (2 ^ 63 + 2 ^ 62 + 2 ^ 60 + 7 * 2 ^ 55) <| poke 32 8 (2 ^ 30) (poke 40 8 8 (poke 48 8 (2 ^ 63 + 2 * 2 ^ 60 + 7 * 2 ^ 55 + 7) (onLink (fun k => { k with fen := true, fgroups := 1, routes := [(7, 2 ^ 63 + 1)] }) (base 16))))) (fun e r => let f := fl (cls := 3) (a := 6) (tail := ex 0 1); let need : Need := { spaces := fun sp => sp == 2, a := true, width := 8, rd := true, wr := true }; let refs : List Ref := [⟨lowLane e.act, f.hIdx, f.hOff⟩]; !e.counterFull && (match e.check need true refs with | .ok es hw => (e.releasing true).isNone && roomB e r { ops := [{ e.newOp r (.fsig (es.headD { lane := 0, tgt := {} })) with counts := true }] } hw | _ => false)),
    okF Forms.fsig (fl (cls := 3) (a := 6) (tail := ex 0 1)) (flying (op10 (.store [{ lane := 0, tgt := {} }] 8)) <| poke 0x40008 8 (2 ^ 63 + 2 ^ 62 + 2 ^ 60 + 7 * 2 ^ 55) <| poke 32 8 (2 ^ 30) (poke 40 8 8 (poke 48 8 (2 ^ 63 + 2 * 2 ^ 60 + 7 * 2 ^ 55 + 7) (onLink (fun k => { k with fen := true, fgroups := 1, routes := [(7, 2 ^ 63 + 1)] }) (base 16))))) (fun e _ => let f := fl (cls := 3) (a := 6) (tail := ex 0 1); let need : Need := { spaces := fun sp => sp == 2, a := true, width := 8, rd := true, wr := true }; let refs : List Ref := [⟨lowLane e.act, f.hIdx, f.hOff⟩]; !e.counterFull && (match e.check need true refs with | .ok _ _ => (e.releasing true).isSome | _ => false)),
    okF Forms.fwait (fl (cls := 3) (d := 4) (a := 6) (b := 7)) (sr [(6, 4096), (7, 4)] (base 8)) (fun e r => 4096 ≤ (e.sa r).toNat),
    okF Forms.fwait (fl (cls := 3) (d := 4) (a := 6) (b := 7)) (sr [(6, 1), (7, 4)] (poke 48 8 (2 ^ 63 + 4 * 2 ^ 60) (poke 56 8 9 (onLink (fun k => { k with fen := false, mcr := [(9, 2 ^ 63 + 2 ^ 20 + 4 + 2 ^ 53 * (((List.range 64).find? fun c => Forms.tyOfCode c == some .i32).getD 0))], deliv := [(9, 4)] }) (base 8))))) (fun e r => let s := sr [(6, 1), (7, 4)] (poke 48 8 (2 ^ 63 + 4 * 2 ^ 60) (poke 56 8 9 (onLink (fun k => { k with fen := false, mcr := [(9, 2 ^ 63 + 2 ^ 20 + 4 + 2 ^ 53 * (((List.range 64).find? fun c => Forms.tyOfCode c == some .i32).getD 0))], deliv := [(9, 4)] }) (base 8)))); let x := readHandle e.hw s.mem e.part e.ctx (e.sa r).toNat; let k := (e.hw.part e.part).link; decide ((e.sa r).toNat < 4096 ∧ x.ok = true ∧ x.space = 4 ∧ x.tgt < 4096 ∧ bit 63 (k.mcr.val 0 x.tgt) = true) && !k.fen),
    okF Forms.fwait (fl (cls := 3) (d := 4) (a := 6) (b := 7)) (sr [(6, 1), (7, 4)] (poke 48 8 (2 ^ 63 + 4 * 2 ^ 60) (poke 56 8 9 (onLink (fun k => { k with fen := true, mcr := [(9, 2 ^ 63 + 2 ^ 20 + 4 + 2 ^ 53 * (((List.range 64).find? fun c => Forms.tyOfCode c == some .i32).getD 0) + 2 ^ 62)], deliv := [(9, 4)] }) (base 8))))) (fun e r => let s := sr [(6, 1), (7, 4)] (poke 48 8 (2 ^ 63 + 4 * 2 ^ 60) (poke 56 8 9 (onLink (fun k => { k with fen := true, mcr := [(9, 2 ^ 63 + 2 ^ 20 + 4 + 2 ^ 53 * (((List.range 64).find? fun c => Forms.tyOfCode c == some .i32).getD 0) + 2 ^ 62)], deliv := [(9, 4)] }) (base 8)))); let x := readHandle e.hw s.mem e.part e.ctx (e.sa r).toNat; let k := (e.hw.part e.part).link; decide ((e.sa r).toNat < 4096 ∧ x.ok = true ∧ x.space = 4 ∧ x.tgt < 4096 ∧ bit 63 (k.mcr.val 0 x.tgt) = true) && k.fen && groupLost e.hw e.part x.tgt),
    okF Forms.fwait (fl (cls := 3) (d := 4) (a := 6) (b := 7)) (sr [(6, 1), (7, 4)] (poke 48 8 (2 ^ 63 + 4 * 2 ^ 60) (poke 56 8 9 (onLink (fun k => { k with fen := true, mcr := [(9, 2 ^ 63 + 2 ^ 20 + 4 + 2 ^ 53 * (((List.range 64).find? fun c => Forms.tyOfCode c == some .i32).getD 0))], deliv := [(9, 4)] }) (base 8))))) (fun e r => let s := sr [(6, 1), (7, 4)] (poke 48 8 (2 ^ 63 + 4 * 2 ^ 60) (poke 56 8 9 (onLink (fun k => { k with fen := true, mcr := [(9, 2 ^ 63 + 2 ^ 20 + 4 + 2 ^ 53 * (((List.range 64).find? fun c => Forms.tyOfCode c == some .i32).getD 0))], deliv := [(9, 4)] }) (base 8)))); let x := readHandle e.hw s.mem e.part e.ctx (e.sa r).toNat; let k := (e.hw.part e.part).link; decide ((e.sa r).toNat < 4096 ∧ x.ok = true ∧ x.space = 4 ∧ x.tgt < 4096 ∧ bit 63 (k.mcr.val 0 x.tgt) = true) && k.fen && !groupLost e.hw e.part x.tgt && decide ((e.sb r).toNat ≤ delivOf e.hw e.part x.tgt) && roomB e r (putS r 4) e.hw),
    okF Forms.fwait (fl (cls := 3) (d := 4) (a := 6) (b := 7)) (sr [(6, 1), (7, 5)] (poke 48 8 (2 ^ 63 + 4 * 2 ^ 60) (poke 56 8 9 (onLink (fun k => { k with fen := true, mcr := [(9, 2 ^ 63 + 2 ^ 20 + 4 + 2 ^ 53 * (((List.range 64).find? fun c => Forms.tyOfCode c == some .i32).getD 0))], deliv := [(9, 4)] }) (base 8))))) (fun e r => let s := sr [(6, 1), (7, 5)] (poke 48 8 (2 ^ 63 + 4 * 2 ^ 60) (poke 56 8 9 (onLink (fun k => { k with fen := true, mcr := [(9, 2 ^ 63 + 2 ^ 20 + 4 + 2 ^ 53 * (((List.range 64).find? fun c => Forms.tyOfCode c == some .i32).getD 0))], deliv := [(9, 4)] }) (base 8)))); let x := readHandle e.hw s.mem e.part e.ctx (e.sa r).toNat; let k := (e.hw.part e.part).link; decide ((e.sa r).toNat < 4096 ∧ x.ok = true ∧ x.space = 4 ∧ x.tgt < 4096 ∧ bit 63 (k.mcr.val 0 x.tgt) = true) && k.fen && !groupLost e.hw e.part x.tgt && decide (delivOf e.hw e.part x.tgt < (e.sb r).toNat)),
    okA (onPath (fun q => { q with state := .parked, wait := .fwait 4 9 4, form := some (regsF Forms.fwait (fl (cls := 3) (d := 4))) }) (onLink (fun k => { k with fen := true, mcr := [(9, 2 ^ 63 + 2 ^ 20 + 4 + 2 ^ 53 * (((List.range 64).find? fun c => Forms.tyOfCode c == some .i32).getD 0) + 2 ^ 62)], deliv := [(9, 4)] }) (base 8))) placeRef (fun e => let s := onPath (fun q => { q with state := .parked, wait := .fwait 4 9 4, form := some (regsF Forms.fwait (fl (cls := 3) (d := 4))) }) (onLink (fun k => { k with fen := true, mcr := [(9, 2 ^ 63 + 2 ^ 20 + 4 + 2 ^ 53 * (((List.range 64).find? fun c => Forms.tyOfCode c == some .i32).getD 0) + 2 ^ 62)], deliv := [(9, 4)] }) (base 8)); runsOn s.hw e.core e.ctx && decide (e.q.wait = .fwait 4 9 4) && groupLost s.hw e.part 9),
    okA (onPath (fun q => { q with state := .parked, wait := .fwait 4 9 4, form := some (regsF Forms.fwait (fl (cls := 3) (d := 4))) }) (onLink (fun k => { k with fen := true, mcr := [(9, 2 ^ 63 + 2 ^ 20 + 4 + 2 ^ 53 * (((List.range 64).find? fun c => Forms.tyOfCode c == some .i32).getD 0))], deliv := [(9, 4)] }) (base 8))) placeRef (fun e => let s := onPath (fun q => { q with state := .parked, wait := .fwait 4 9 4, form := some (regsF Forms.fwait (fl (cls := 3) (d := 4))) }) (onLink (fun k => { k with fen := true, mcr := [(9, 2 ^ 63 + 2 ^ 20 + 4 + 2 ^ 53 * (((List.range 64).find? fun c => Forms.tyOfCode c == some .i32).getD 0))], deliv := [(9, 4)] }) (base 8)); runsOn s.hw e.core e.ctx && decide (e.q.wait = .fwait 4 9 4) && !groupLost s.hw e.part 9 && decide ((4 : Word).toNat ≤ delivOf s.hw e.part 9)),
    okA (onPath (fun q => { q with state := .parked, wait := .fwait 5 9 4, form := some (regsF Forms.fwait (fl (cls := 3) (d := 4))) }) (onLink (fun k => { k with fen := true, mcr := [(9, 2 ^ 63 + 2 ^ 20 + 4 + 2 ^ 53 * (((List.range 64).find? fun c => Forms.tyOfCode c == some .i32).getD 0))], deliv := [(9, 4)] }) (base 8))) placeRef (fun e => let s := onPath (fun q => { q with state := .parked, wait := .fwait 5 9 4, form := some (regsF Forms.fwait (fl (cls := 3) (d := 4))) }) (onLink (fun k => { k with fen := true, mcr := [(9, 2 ^ 63 + 2 ^ 20 + 4 + 2 ^ 53 * (((List.range 64).find? fun c => Forms.tyOfCode c == some .i32).getD 0))], deliv := [(9, 4)] }) (base 8)); runsOn s.hw e.core e.ctx && decide (e.q.wait = .fwait 5 9 4) && !groupLost s.hw e.part 9 && decide (delivOf s.hw e.part 9 < (5 : Word).toNat)),
    (let s := onLink (fun k => { k with fen := true, mcr := [(9, 2 ^ 63 + 2 ^ 20 + 4 + 2 ^ 53 * (((List.range 64).find? fun c => Forms.tyOfCode c == some .i32).getD 0))], deliv := [(9, 4)] }) (base 8); let k := (s.hw.part 0).link; let v := k.mcr.val 0 9; k.fen && bit 63 v && !bit 62 v && Forms.tyOfCode (bits 58 53 v) == some .i32 && decide (Ty.width .i32 = 8 * 4 ∧ 0xFFFFC + 4 ≤ bits 28 20 v * 2 ^ 20 ∧ bits 19 0 v * 2 ^ 20 + 0xFFFFC + 4 ≤ partBytes s.hw 0)),
    (let s := onLink (fun k => { k with fen := true, mcr := [(9, 2 ^ 63 + 2 ^ 41 * 2 + 2 ^ 20 + 4 + 2 ^ 53 * (((List.range 64).find? fun c => Forms.tyOfCode c == some .i32).getD 0))], deliv := [(9, 4)] }) (base 8); let k := (s.hw.part 0).link; let v := k.mcr.val 0 9; let data := [1#8, 0#8, 0#8, 0#8, 2#8, 0#8, 0#8, 0#8, 0xFD#8, 0xFF#8, 0xFF#8, 0xFF#8]; k.fen && bit 63 v && !bit 62 v && Forms.tyOfCode (bits 58 53 v) == some .i32 && decide (bits 52 41 v + 1 = 3 ∧ data.length = 3 * 4 ∧ 0xFFFF8 + 4 ≤ bits 28 20 v * 2 ^ 20) && contributions 4 3 data == [1, 2, 2 ^ 32 - 3]),
    (let s := onPart (fun q => { q with pend := [{ w := 9, addr := 0, bytes := [], id := 4 }] }) (onLink (fun k => { k with delivAt := [(9, 5)] }) (onLink (fun k => { k with fen := true, deliv := [(9, 2 ^ 64 - 1), (8, 3)] }) (base 8))); (s.hw.part 0).link.delivAt == [(9, 5)] && (s.hw.part 0).pend.all (fun w => w.id != 5) && (s.hw.part 0).pend.length == 1),
    (let s := onPart (fun q => { q with pend := [{ w := 9, addr := 0, bytes := [], id := 5 }] }) (onLink (fun k => { k with delivAt := [(9, 5)], deliv := [(9, 2 ^ 64 - 1)] }) (base 8)); (s.hw.part 0).link.delivAt == [(9, 5)] && (s.hw.part 0).pend.any (fun w => w.id == 5)),
    (let s := onLink (fun k => { k with fen := true, mcr := [(9, 2 ^ 63 + 2 ^ 20 + 4 + 2 ^ 53 * (((List.range 64).find? fun c => Forms.tyOfCode c == some .i32).getD 0))], deliv := [(9, 4)] }) (base 8); bit 63 ((s.hw.part 0).link.mcr.val 0 9) && !bit 63 ((s.hw.part 0).link.mcr.val 0 8) && s.hw.gangs.all (fun g => g.2.paths.all fun q => match q.2.wait with | .fwait .. => false | _ => true))] : List Bool).all id = true := by
  decide +kernel

/-- States and operands for the hypotheses of Observation. -/
theorem test_meets_Observation1 : ([
    okF Forms.trc (fl (cls := 3) (opt := 0) (a := 6) (b := 7)) (onPart (fun q => { q with trace := { q.trace with en := true, arm := true, dst := [(0, 2 ^ 63 + 7)] } }) (onLink (fun k => { k with fen := true, fgroups := 1, routes := [(7, 2 ^ 63 + 1)] }) (sr [(6, 9), (7, 65537)] (base 8)))) (fun e r => let h := e.traceRec e.hw 1 e.act.toNat ((e.sb r).toNat % 65536) (e.sa r).toNat; roomB e r {} h),
    okF Forms.trc (fl (cls := 3) (opt := 1) (a := 6) (b := 7)) (onPart (fun q => { q with trace := { q.trace with en := true, arm := true, dst := [(0, 2 ^ 63 + 7)] } }) (onLink (fun k => { k with fen := true, fgroups := 1, routes := [(7, 2 ^ 63 + 1)] }) (sr [(6, 9), (7, 65537)] (base 8)))) (fun e _ => let s := onPart (fun q => { q with trace := { q.trace with en := true, arm := true, dst := [(0, 2 ^ 63 + 7)] } }) (onLink (fun k => { k with fen := true, fgroups := 1, routes := [(7, 2 ^ 63 + 1)] }) (sr [(6, 9), (7, 65537)] (base 8))); let f := fl (cls := 3) (opt := 1) (a := 6) (b := 7); f.op != 0 && (s.hw.part 0).trace.arm && (triggerDsts (s.hw.part e.part).trace).any (peerReach (s.hw.part e.part).link)),
    okF Forms.trc (fl (cls := 3) (opt := 1) (a := 6) (b := 7)) (onPart (fun q => { q with trace := { q.trace with triggers := [(9, 1), (7, 3)], en := true, arm := true, dst := [(0, 2 ^ 63 + 7)] } }) (onLink (fun k => { k with fen := true, fgroups := 1, groups := [(0, { state := 2 })], routes := [(7, 2 ^ 63 + 1)] }) (sr [(6, 9), (7, 65537)] { base 8 with time := 11 }))) (fun e _ => let s := onPart (fun q => { q with trace := { q.trace with triggers := [(9, 1), (7, 3)], en := true, arm := true, dst := [(0, 2 ^ 63 + 7)] } }) (onLink (fun k => { k with fen := true, fgroups := 1, groups := [(0, { state := 2 })], routes := [(7, 2 ^ 63 + 1)] }) (sr [(6, 9), (7, 65537)] { base 8 with time := 11 })); let f := fl (cls := 3) (opt := 1) (a := 6) (b := 7); f.op != 0 && (s.hw.part 0).trace.arm && (triggerDsts (s.hw.part e.part).trace).any (peerReach (s.hw.part e.part).link) && !peerSends (s.hw.part e.part).link 7),
    (let s := onHw (fun h => h.setCluster 0 fun c => { c with trace := List.replicate 2047 [], seq := 2 ^ 32 - 1 }) (onPart (fun q => { q with trace := { q.trace with en := true, arm := true, dst := [(0, 2 ^ 63 + 7)] } }) (onLink (fun k => { k with fen := true, fgroups := 1, routes := [(7, 2 ^ 63 + 1)] }) (sr [(6, 9), (7, 65537)] (base 8)))); !traceOff (s.hw.part 0) 5 && decide ((s.hw.cluster 0).trace.length < 2048) && (s.hw.cluster 0).lost == 0),
    okF Forms.cnt (fl (cls := 3) (opt := 0) (d := 4) (a := 6)) (sr [(6, 9)] (base 8)) (fun e r => let s := sr [(6, 9)] (base 8); roomB e r (putS r (slotCounter e.hw e.core s.time 9)) e.hw),
    okF Forms.cnt (fl (cls := 3) (opt := 0) (d := 4) (a := 6)) (sr [(6, 10)] (base 8)) (fun e r => roomB e r (putS r 0) e.hw),
    okF Forms.cnt (fl (cls := 3) (opt := 1) (d := 4)) (sr [(6, 0)] (base 8)) (fun e r => let s := sr [(6, 0)] (base 8); roomB e r (putS r s.time) (capture' e.hw e.core s.time)),
    okF Forms.cnt (fl (cls := 3) (opt := 2) (d := 4) (a := 6)) (sr [(6, 9)] (base 8)) (fun e r => roomB e r (putS r (capturedWord e.hw e.core 9)) e.hw),
    okF Forms.cnt (fl (cls := 3) (opt := 2) (d := 4) (a := 6)) (sr [(6, 15)] (base 8)) (fun e r => roomB e r (putS r 0) e.hw),
    (let s := onLink (fun k => { k with winerr := 2 ^ 32 - 1 }) (base 8); s.hw.pkg.up && (s.hw.part 0).present && postedPast s.hw 0 s.time && (s.hw.part 0).ptstatus != 255 && corePart s.hw 863 == some 0 && corePart s.hw 864 != some 0),
    (let h := (onPart (fun q => { q with trace := { en := true, ovfLost := 2 ^ 32 - 1 } }) (onHw (fun h => h.setCluster 0 fun c => { c with trace := List.replicate 2048 [1], lost := 3, seq := 9 }) (base 8))).hw; !traceOff (h.part 0) 8 && decide (2048 ≤ (h.cluster (coreCluster 0)).trace.length)),
    (let s := onPart (fun q => { q with trace := { turn := 6 } }) (onHw (fun h => (h.setCluster 5 fun c => { c with trace := [[3]] }).setCluster 7 fun c => { c with trace := [[3]] }) (base 8)); drainTurn s.hw 0 == some 7),
    (let s := onPart (fun q => { q with trace := { base := 0x1000, en := true, prod := 2 ^ 32 - 1, cons := 2 ^ 32 - 1 - 1023 } }) (onHw (fun h => h.setCluster 5 fun c => { c with trace := [[2 ^ 61, 2], [3]] }) (base 8)); drainTurn s.hw 0 == some 5 && (let x := (s.hw.part 0).trace; x.holding.isEmpty && !x.frozen && decide ((x.prod + 2 ^ 32 - x.cons) % 2 ^ 32 < 2 ^ (x.log2n + 10))) && (s.hw.cluster 5).trace.length == 2),
    (let s := base 8; s.hw.pkg.up && (s.hw.part 0).present && postedPast s.hw 0 s.time && (s.hw.part 0).ptstatus != 255),
    (let s := onPart (fun q => { q with trace := { arm := true, post := 3 } }) (onLink (fun k => { k with fen := true }) { base 8 with time := 5 }); let z := base 8; (s.hw.part 0).link.fen && (s.hw.part 0).trace.arm && !(s.hw.part 0).trace.frozen && !(z.hw.part 0).link.fen),
    (let s := onPath (fun q => { q with state := .ready }) (base 8); s.hw.pkg.up && (s.hw.part 0).present && postedPast s.hw 0 s.time && (s.hw.part 0).ptstatus != 255 && (match holdTarget s.hw 0 (2 ^ 48) with | some (k, p, q) => k == gk && p == 0 && decide (q.state = .ready) | none => false)),
    (let s := onPath (fun q => { q with state := .parked }) (base 8); s.hw.pkg.up && (s.hw.part 0).present && postedPast s.hw 0 s.time && (s.hw.part 0).ptstatus != 255 && (match holdTarget s.hw 0 (2 ^ 48) with | some (k, p, q) => k == gk && p == 0 && decide (q.state = .parked) | none => false)),
    (let s := onPath (fun q => { q with state := .stopped }) (base 8); s.hw.pkg.up && (s.hw.part 0).present && postedPast s.hw 0 s.time && (s.hw.part 0).ptstatus != 255 && (match holdTarget s.hw 0 (2 ^ 48) with | some (k, p, q) => k == gk && p == 0 && decide (q.state = .stopped) | none => false)),
    (let s := onPath (fun q => { q with state := .held }) (base 8); s.hw.pkg.up && (s.hw.part 0).present && postedPast s.hw 0 s.time && (s.hw.part 0).ptstatus != 255 && (match holdTarget s.hw 0 (2 ^ 48) with | some (k, p, q) => k == gk && p == 0 && decide (q.state = .held) | none => false)),
    (let s := base 8; s.hw.pkg.up && (s.hw.part 0).present && postedPast s.hw 0 s.time && (s.hw.part 0).ptstatus != 255 && (holdTarget s.hw 0 (2 ^ 48 + 2 ^ 17)).isNone)] : List Bool).all id = true := by
  decide +kernel

/-- The same, continued. -/
theorem test_meets_Observation2 : ([
    (let s := onPath (fun q => { q with holdReq := true }) (base 8); (match s.hw.gangs.look gk with | some g => (match g.paths.look 0 with | some q => q.holdReq && decide (q.state = .ready) | none => false) | none => false))] : List Bool).all id = true := by
  decide +kernel

/-- States and operands for the hypotheses of LaunchForms. -/
theorem test_meets_LaunchForms1 : ([
    okF Forms.glaunch (fl (cls := 3) (d := 4) (a := 6) (tail := ex 0 1)) (onHw (fun h => { h with ops := (List.range 512).map fun k => { id := k, gk := gk + 64, entry := true, kind := .load [] .b32 } }) (base 16)) (fun e _ => e.tableFull),
    okF Forms.glaunch (fl (cls := 3) (d := 4) (a := 6) (tail := ex 0 1)) (base 16) (fun e r => let s := base 16; let f := fl (cls := 3) (d := 4) (a := 6) (tail := ex 0 1); let o := offSum f.hOff (e.sb r).toNat 0; let hd := readHandle e.hw s.mem e.part e.ctx f.hIdx; let bad := handleBad e.hw e.part e.ctx f.hIdx { spaces := fun sp => sp == 0, r := true, width := 192 } hd; !e.tableFull && bad),
    okF Forms.glaunch (fl (cls := 3) (d := 4) (a := 6) (tail := ex 0 1)) (handle 1 0x600000 191 (base 16)) (fun e r => let s := handle 1 0x600000 191 (base 16); let f := fl (cls := 3) (d := 4) (a := 6) (tail := ex 0 1); let o := offSum f.hOff (e.sb r).toNat 0; let hd := readHandle e.hw s.mem e.part e.ctx f.hIdx; let bad := handleBad e.hw e.part e.ctx f.hIdx { spaces := fun sp => sp == 0, r := true, width := 192 } hd; !e.tableFull && !bad && decide (hd.len < o + 192)),
    okF Forms.glaunch (fl (cls := 3) (d := 4) (a := 6) (tail := ex 0 1)) (handle 1 0x600020 192 (base 16)) (fun e r => let s := handle 1 0x600020 192 (base 16); let f := fl (cls := 3) (d := 4) (a := 6) (tail := ex 0 1); let o := offSum f.hOff (e.sb r).toNat 0; let hd := readHandle e.hw s.mem e.part e.ctx f.hIdx; let bad := handleBad e.hw e.part e.ctx f.hIdx { spaces := fun sp => sp == 0, r := true, width := 192 } hd; !e.tableFull && !bad && decide (o + 192 ≤ hd.len ∧ (hd.base + o) % 64 ≠ 0)),
    okF Forms.glaunch (fl (cls := 3) (d := 4) (a := 6) (tail := ex 0 1)) (handle 1 (2 ^ 40) 192 (base 16)) (fun e r => let s := handle 1 (2 ^ 40) 192 (base 16); let f := fl (cls := 3) (d := 4) (a := 6) (tail := ex 0 1); let o := offSum f.hOff (e.sb r).toNat 0; let hd := readHandle e.hw s.mem e.part e.ctx f.hIdx; let bad := handleBad e.hw e.part e.ctx f.hIdx { spaces := fun sp => sp == 0, r := true, width := 192 } hd; !e.tableFull && !bad && decide (o + 192 ≤ hd.len ∧ (hd.base + o) % 64 = 0) && (match readHeader e (hd.base + o) with | .error _ => true | .ok _ => false)),
    okF Forms.glaunch (fl (cls := 3) (d := 4) (a := 6) (tail := ex 0 1)) (handle 1 0x600000 192 (base 16)) (fun e r => let s := handle 1 0x600000 192 (base 16); let f := fl (cls := 3) (d := 4) (a := 6) (tail := ex 0 1); let o := offSum f.hOff (e.sb r).toNat 0; let hd := readHandle e.hw s.mem e.part e.ctx f.hIdx; !e.tableFull && !(handleBad e.hw e.part e.ctx f.hIdx { spaces := fun sp => sp == 0, r := true, width := 192 } hd) && decide (o + 192 ≤ hd.len ∧ (hd.base + o) % 64 = 0) && (match readHeader e (hd.base + o) with | .ok (ws, pas, hw) => (match e.watch hw true false true [(0, hd.base + o, 192)] with | .ok hw' => (let hdr := if 1024 ≤ queuedLaunches e.hw e.part e.ctx then [] else ws.set 8 (e.sa r).toNat; let op := { e.newOp r (.glaunch hdr (word (hd.base + o))) with entry := true, dst := e.dest r }; let h := hw'.setCore e.core fun c => { c with wtPeak := max c.wtPeak (waitEntries hw' e.core + 1) }; (pas.all fun pa => clear e.hw { op with id := 0 } { lane := 0, tgt := { pa := pa } } 64 true) && roomB e r { ops := [op] } h) | .error _ => false) | .error _ => false)),
    okF Forms.gsig (fl (cls := 3) (d := 4) (a := 6) (b := 7)) (sr [(6, 4)] (base 8)) (fun e r => !e.counterFull && (match e.checkWord (e.sa r).toNat true true with | .stop (.trap _) => true | _ => false)),
    okF Forms.gsig (fl (cls := 3) (d := 4) (a := 6) (b := 7)) (sr [(6, 0x600000), (7, 5)] (base 8)) (fun e r => !e.counterFull && (match e.checkWord (e.sa r).toNat true true with | .ok es hw => (e.releasing false).isNone && roomB e r { ops := [{ e.newOp r (.counter { es.headD { lane := 0, tgt := {} } with val := e.sb r } true) with counts := true, dst := e.dest r }] } hw | _ => false)),
    okF Forms.gsig (fl (cls := 3) (d := 4) (a := 6) (b := 7)) (flying (op10 (.store [{ lane := 0, tgt := {} }] 8)) (sr [(6, 0x600000), (7, 5)] (base 8))) (fun e r => !e.counterFull && (match e.checkWord (e.sa r).toNat true true with | .ok _ _ => (e.releasing false).isSome | _ => false)),
    okF Forms.gcount (fl (cls := 3) (d := 4) (a := 6) (b := 7)) (sr [(6, 4)] (base 8)) (fun e r => !e.counterFull && (match e.checkWord (e.sa r).toNat true true with | .stop (.trap _) => true | _ => false)),
    okF Forms.gcount (fl (cls := 3) (d := 4) (a := 6) (b := 7)) (sr [(6, 0x600000), (7, 5)] (base 8)) (fun e r => !e.counterFull && (match e.checkWord (e.sa r).toNat true true with | .ok es hw => (e.releasing false).isNone && true | _ => false)),
    okF Forms.gcount (fl (cls := 3) (d := 4) (a := 6) (b := 7)) (flying (op10 (.store [{ lane := 0, tgt := {} }] 8)) (sr [(6, 0x600000), (7, 5)] (base 8))) (fun e r => !e.counterFull && (match e.checkWord (e.sa r).toNat true true with | .ok _ _ => (e.releasing false).isSome | _ => false)),
    okF Forms.gwait (fl (cls := 3) (d := 4) (a := 6) (b := 7)) (onHw (fun h => { h with ops := (List.range 512).map fun k => { id := k, gk := gk + 64, entry := true, kind := .load [] .b32 } }) (base 8)) (fun e _ => e.tableFull),
    okF Forms.gwait (fl (cls := 3) (d := 4) (a := 6) (b := 7)) (sr [(6, 2 ^ 57)] (base 8)) (fun e r => !e.tableFull && (match e.checkWord (e.sa r).toNat true false with | .stop (.trap _) => true | _ => false)),
    okF Forms.gwait (fl (cls := 3) (d := 4) (a := 6) (b := 7)) (poke 0x600000 8 5 (sr [(6, 0x600000), (7, 5)] (base 8))) (fun e r => let s := poke 0x600000 8 5 (sr [(6, 0x600000), (7, 5)] (base 8)); !e.tableFull && (match e.checkWord (e.sa r).toNat true false with | .ok es hw => (let pa := (es.headD { lane := 0, tgt := {} }).tgt.pa; let busy := counterBusy e.hw e.gk e.p pa || (e.hw.part e.part).pend.any fun w => w.gk == e.gk && bit e.p w.paths && decide (w.addr < pa + 8) && decide (pa < w.addr + w.bytes.length); let v := rdNat s.mem e.part pa 8; !busy && decide ((e.sb r).toNat ≤ v) && roomB e r (putS r v) hw) | _ => false)),
    okF Forms.gwait (fl (cls := 3) (d := 4) (a := 6) (b := 7)) (poke 0x600000 8 4 (sr [(6, 0x600000), (7, 5)] (base 8))) (fun e r => let s := poke 0x600000 8 4 (sr [(6, 0x600000), (7, 5)] (base 8)); !e.tableFull && (match e.checkWord (e.sa r).toNat true false with | .ok es hw => (let pa := (es.headD { lane := 0, tgt := {} }).tgt.pa; let busy := counterBusy e.hw e.gk e.p pa || (e.hw.part e.part).pend.any fun w => w.gk == e.gk && bit e.p w.paths && decide (w.addr < pa + 8) && decide (pa < w.addr + w.bytes.length); let v := rdNat s.mem e.part pa 8; decide (v < (e.sb r).toNat)) | _ => false)),
    okA (onPath (fun q => { q with state := .parked, wait := .woken 4 9, form := some (regsF Forms.gwait (fl (cls := 3) (d := 4))) }) (base 8)) placeRef (fun e => decide (e.q.wait = .woken 4 9)),
    okA (onPath (fun q => { q with state := .parked, wait := .gwait 8 9 4 }) (base 8)) placeRef (fun e => (match e.q.wait with | .woken .. => false | _ => true)),
    (let s := poke 0x600000 8 5 (onPath (fun q => { q with state := .parked, wait := .gwait 0x600000 5 4 }) (base 8)); let w : PWrite := { w := 0, addr := 0x600007, bytes := [0#8] }; (match s.hw.gangs.look gk with | some g => g.part == 0 && (g.paths.look 0).isSome | none => false) && decide (w.addr < 0x600000 + 8 ∧ 0x600000 < w.addr + w.bytes.length ∧ (5 : Word).toNat ≤ rdNat s.mem 0 0x600000 8) && !counterBusy s.hw gk 0 0x600000),
    (let s := poke 0x600000 8 4 (onPath (fun q => { q with state := .parked, wait := .gwait 0x600000 5 4 }) (base 8)); let w : PWrite := { w := 0, addr := 0x600000, bytes := [4#8] }; (match s.hw.gangs.look gk with | some g => g.part == 0 && (g.paths.look 0).isSome | none => false) && decide (rdNat s.mem 0 0x600000 8 < (5 : Word).toNat))] : List Bool).all id = true := by
  decide +kernel

/-- The same, continued. -/
theorem test_meets_LaunchForms2 : ([
    (let s := flying { op10 (.glaunch [] 0x600000) with dst := .scal 4 1 0, entry := true } (onCtx (fun c => { c with nextNum := 2 ^ 32 - 1 }) (base 8)); (match s.hw.op 10, s.hw.ctx 0 1 with | some o, some c => o.part == 0 && o.ctx == 1 && decide (c.state ≠ .killing ∧ c.nextNum = 2 ^ 32 - 1) | _, _ => false)),
    (let s := flying { op10 (.glaunch ([0x400101, 0, 1, 1, 1, 1, 1] ++ List.replicate 17 0) 0x600000) with dst := .scal 4 1 0, entry := true } (onCtx (fun c => { c with nextNum := 2 ^ 32 - 1 }) (base 8)); let x := takeHeader s.hw s.mem 0 1 (.device (2 ^ 32 - 1)) 0x600000 0 ([0x400101, 0, 1, 1, 1, 1, 1] ++ List.replicate 17 0); (match s.hw.op 10, s.hw.ctx 0 1 with | some o, some c => o.part == 0 && o.ctx == 1 && decide (c.state ≠ .killing ∧ c.nextNum = 2 ^ 32 - 1) | _, _ => false) && x.1 != 1),
    (let s := flying { op10 (.glaunch ([0x400100, 0, 1, 1, 1, 1, 1] ++ List.replicate 17 0) 0x600000) with dst := .scal 4 1 0, entry := true } (onCtx (fun c => { c with nextNum := 2 ^ 32 - 1 }) (base 8)); let x := takeHeader s.hw s.mem 0 1 (.device (2 ^ 32 - 1)) 0x600000 0 ([0x400100, 0, 1, 1, 1, 1, 1] ++ List.replicate 17 0); (match s.hw.op 10, s.hw.ctx 0 1 with | some o, some c => o.part == 0 && o.ctx == 1 && decide (c.state ≠ .killing ∧ c.nextNum = 2 ^ 32 - 1) | _, _ => false) && x.1 == 1)] : List Bool).all id = true := by
  decide +kernel

/-- States and operands for the hypotheses of LaunchFlow: headers bad, good and too large; a queue empty, overflowing, of no context, unmapped and taken; each stage of a launch. -/
theorem test_meets_LaunchFlow1 : ([
    (let s := base 8; hdrBad ([0x400101, 0, 1, 1, 1, 1, 1] ++ List.replicate 17 0) && !hdrBad ([0x400100, 0, 1, 1, 1, 1, 1] ++ List.replicate 17 0) && hdrDone ([0x400100, 0, 1, 1, 1, 1, 1] ++ List.replicate 17 0) == 0 && fitStatus s.hw 0 ([0x400100, 0, 1, 1, 1, 1, 1] ++ List.replicate 17 0) == 1 && fitStatus s.hw 0 ([0x400100, 2 ^ 32, 48, 2 ^ 16, 1, 1, 1] ++ List.replicate 17 0) != 1),
    (let s := onHw (fun h => h.setQueue 0 63 fun _ => { en := true, ctx := 1, tail := 5, prog := 5 }) (base 8); let x := (s.hw.part 0).queue 63; let n := (x.tail + 2 ^ 32 - x.prog) % 2 ^ 32; (s.hw.part 0).present && !(s.hw.part 0).quiesce && n == 0),
    (let s := onHw (fun h => h.setQueue 0 63 fun _ => { en := true, ctx := 1, tail := 16, prog := 2 ^ 32 - 1 }) (base 8); let x := (s.hw.part 0).queue 63; let n := (x.tail + 2 ^ 32 - x.prog) % 2 ^ 32; (s.hw.part 0).present && !(s.hw.part 0).quiesce && decide (2 ^ x.log2n < n) && x.en && x.state == 0),
    (let s := onHw (fun h => h.setQueue 0 63 fun _ => { en := true, ctx := 9, tail := 15, prog := 2 ^ 32 - 1 }) (base 8); let x := (s.hw.part 0).queue 63; let n := (x.tail + 2 ^ 32 - x.prog) % 2 ^ 32; (s.hw.part 0).present && !(s.hw.part 0).quiesce && decide (n ≤ 2 ^ x.log2n) && (s.hw.ctx 0 9).isNone && n != 0),
    (let s := onHw (fun h => h.setQueue 0 63 fun _ => { en := true, ctx := 1, tail := 1, base := 2 ^ 40 }) (base 8); let x := (s.hw.part 0).queue 63; let n := (x.tail + 2 ^ 32 - x.prog) % 2 ^ 32; (s.hw.part 0).present && !(s.hw.part 0).quiesce && n == 1 && (s.hw.ctx 0 1).isSome && (match translate s.hw s.mem 0 1 (2 ^ 40) with | (.error _, _) => true | _ => false)),
    (let s := onHw (fun h => h.setQueue 0 63 fun _ => { en := true, ctx := 1, tail := 0, prog := 2 ^ 32 - 1, base := 0x600000 }) (base 8); let x := (s.hw.part 0).queue 63; let n := (x.tail + 2 ^ 32 - x.prog) % 2 ^ 32; (s.hw.part 0).present && !(s.hw.part 0).quiesce && n == 1 && (s.hw.ctx 0 1).isSome && (match translate s.hw s.mem 0 1 (0x600000 + 256 * 15) with | (.ok t, _) => t.kind == 0 && t.r && t.w | _ => false)),
    (let s := onHw (fun h => { h with launches := [(7, { part := 0, ctx := 1, src := .host 3 5, addr := 0x77, hdr := ([0x400100, 0, 1, 1, 1, 1, 1] ++ List.replicate 17 0), doneAt := none, deps := [(0x600000, 5), (0x600008, 6)] })] }) (poke 0x600000 8 5 (base 8)); (match s.hw.launches.look 7 with | some l => !l.eligible | none => false)),
    (let s := onHw (fun h => { h with launches := [(7, { part := 0, ctx := 1, src := .host 3 5, addr := 0x77, hdr := ([0x400100, 0, 1, 1, 1, 1, 1] ++ List.replicate 17 0), doneAt := none, deps := [], eligible := true })] }) (base 8); (match s.hw.launches.look 7 with | some l => l.eligible | none => false)),
    (let s := onHw (fun h => h.setImage 0 1 fun i => { i with ltable := [(0, 7)] }) (onHw (fun h => { h with launches := [(7, { part := 0, ctx := 1, src := .host 3 5, addr := 0x77, hdr := ([0x400100, 0, 1, 1, 1, 1, 1] ++ List.replicate 17 0), doneAt := none, deps := [], eligible := true })] }) (base 8)); let im := s.hw.image 0 1; bit 31 (([0, 0, 2, 2147483648] : List Nat).getD 3 0) && bankCtx s.hw 0 0 == some 1 && corePart s.hw 0 == some 0 && coreUp s.hw 0 && !bit 0 s.hw.pkg.parkReq && !(s.hw.cluster 0).doomed && !(s.hw.part 0).quiesce && !im.records.has 47 && blockOf ([0x400100, 0, 1, 1, 1, 1, 1] ++ List.replicate 17 0) 0 && im.ltable.look 0 == some 7 && !recBad (im.records.vals.map (·.1)) (hdrExt ([0x400100, 0, 1, 1, 1, 1, 1] ++ List.replicate 17 0) 1) [0, 0, 2, 2147483648] && recBad (im.records.vals.map (·.1)) (hdrExt ([0x400100, 0, 1, 1, 1, 1, 1] ++ List.replicate 17 0) 1) [0, 0, 6, 2147483648]),
    (let s := onHw (fun h => h.setImage 0 1 fun i => { i with ltable := [(0, 7)], records := [(47, [0, 0, 2, 2147483648], 7)] }) (onHw (fun h => { h with launches := [(7, { part := 0, ctx := 1, src := .host 3 5, addr := 0x77, hdr := ([0x400100, 0, 1, 1, 1, 1, 1] ++ List.replicate 17 0), doneAt := none, deps := [], eligible := true, bound := [0] })] }) (base 8)); (s.hw.core 0).act == 0 && (s.hw.core 0).flipAt.isNone && coreUp s.hw 0 && ctxRuns s.hw 0 1 && (recBlock s.hw 0 1 7 [0, 0, 2, 2147483648]).isNone && (recSlots [0, 0, 2, 2147483648]).all (fun k => !slotTaken s.hw (gangKey 0 1 k)) && (recUnits [0, 0, 2, 2147483648]).isEmpty),
    (let s := onHw (fun h => { h with blocks := [(9, { core := 0, ctx := 1, launch := 7, slots := [1] })] }) (onHw (fun h => h.setImage 0 1 fun i => { i with ltable := [(0, 7)], records := [(47, [0, 0, 2, 2147483648], 7)] }) (onHw (fun h => { h with launches := [(7, { part := 0, ctx := 1, src := .host 3 5, addr := 0x77, hdr := ([0x400100, 0, 1, 1, 1, 1, 1] ++ List.replicate 17 0), doneAt := none, deps := [], eligible := true, bound := [0] })] }) (base 8))); recBlock s.hw 0 1 7 [0, 0, 2, 2147483648] == some 9 && !hdrC3 ([0x400100, 0, 1, 1, 1, 1, 1] ++ List.replicate 17 0) && blockOver s.hw 9 && (s.hw.blocks.filter fun x => x.2.launch == 7 && x.1 == 9).length == 1),
    (let s := onHw (fun h => { h with blocks := [(9, { core := 0, ctx := 1, launch := 7, slots := [1] })], gangs := h.gangs.ins (gangKey 0 1 1) { block := 9 } }) (onHw (fun h => h.setImage 0 1 fun i => { i with ltable := [(0, 7)], records := [(47, [0, 0, 2, 2147483648], 7)] }) (onHw (fun h => { h with launches := [(7, { part := 0, ctx := 1, src := .host 3 5, addr := 0x77, hdr := ([0x400100, 0, 1, 1, 1, 1, 1] ++ List.replicate 17 0), doneAt := none, deps := [], eligible := true, bound := [0] })] }) (base 8))); recBlock s.hw 0 1 7 [0, 0, 2, 2147483648] == some 9 && !hdrC3 ([0x400100, 0, 1, 1, 1, 1, 1] ++ List.replicate 17 0) && !blockOver s.hw 9),
    (let s := onHw (fun h => { h with launches := [(7, { part := 0, ctx := 1, src := .host 3 5, addr := 0x77, hdr := ([0x400100, 0, 1, 1, 1, 1, 1] ++ List.replicate 17 0), doneAt := none, deps := [], eligible := true })] }) (base 8); (match s.hw.launches.look 7 with | some l => !launchOver s.hw 7 l | none => false)),
    (let s := onHw (fun h => { h with gangs := [] }) (onHw (fun h => { h with launches := [(7, { part := 0, ctx := 1, src := .host 3 5, addr := 0x77, hdr := ([0x400100, 0, 1, 1, 1, 1, 1] ++ List.replicate 17 0), doneAt := none, deps := [], ended := [0], slotPa := 0x600000 })] }) (base 8)); (match s.hw.launches.look 7 with | some l => launchOver s.hw 7 l | none => false)),
    (let s := poke 0x600100 8 (2 ^ 64 - 1) (onHw (fun h => { h with gangs := [] }) (onHw (fun h => { h with launches := [(7, { part := 0, ctx := 1, src := .host 3 5, addr := 0x77, hdr := ([0x400100, 0, 1, 1, 1, 1, 1] ++ List.replicate 17 0), doneAt := some 0x600100, deps := [], ended := [0] })] }) (base 8))); (match s.hw.launches.look 7 with | some l => launchOver s.hw 7 l | none => false) && (match s.hw.ctx 0 1 with | some c => !c.tail.en | none => false) && s.hw.ops.isEmpty),
    (let s := onHw (fun h => { h with gangs := [] }) (onHw (fun h => { h with launches := [(7, { part := 0, ctx := 1, src := .host 3 5, addr := 0x77, hdr := ([0x400100, 0, 1, 1, 1, 1, 1] ++ List.replicate 17 0), doneAt := some 0x600100, doneW := some 6, deps := [], ended := [0] })] }) (base 8)); (match s.hw.launches.look 7 with | some l => launchOver s.hw 7 l | none => false) && decide (s.time < 6)),
    (let s := poke 0x40000 8 (2 ^ 63 + 2 ^ 62 + 2 ^ 58 + 2 ^ 57 + 2 ^ 55) (onHw (fun h => (h.setQueue 0 63 fun _ => { en := true, ctx := 1, tail := 0, prog := 2 ^ 32 - 1, base := 0x600000 }).setPart 0 fun q => { q with tcache := [] }) (base 8)); let x := (s.hw.part 0).queue 63; let n := (x.tail + 2 ^ 32 - x.prog) % 2 ^ 32; (s.hw.part 0).present && !(s.hw.part 0).quiesce && n == 1 && (s.hw.ctx 0 1).isSome && (match translate s.hw s.mem 0 1 (0x600000 + 256 * 15) with | (.ok t, _) => t.kind != 0 || !t.r || !t.w | _ => false)),
    (let s := onHw (fun h => h.setImage 0 1 fun i => { i with ltable := [(0, 7)], records := [] }) (onHw (fun h => { h with launches := [(7, { part := 0, ctx := 1, src := .host 3 5, addr := 0x77, hdr := [0x400100, 2 ^ 30, 1, 1, 1, 1, 1] ++ List.replicate 17 0, doneAt := none, deps := [], eligible := true }), (8, { part := 0, ctx := 1, src := .host 3 5, addr := 0x77, hdr := [0x400100, 0, 1, 1, 1, 1, 1] ++ List.replicate 17 0, doneAt := none, deps := [], eligible := true })] }) (base 8)); (s.hw.launches.look 7).isSome && !(match s.hw.launches.look 7 with | some l => recGood s.hw 0 0 47 [0, 0, 2, 2147483648] 7 l | none => false) && (match s.hw.launches.look 7 with | some l => outranked s.hw 0 0 l | none => false)),
    (let s := onHw (fun h => h.setImage 0 1 fun i => { i with ltable := [(0, 7)], records := [] }) (onHw (fun h => { h with launches := [(7, { part := 0, ctx := 1, src := .host 3 5, addr := 0x77, hdr := [0x400100, 0, 1, 1, 1, 1, 1] ++ List.replicate 17 0, doneAt := none, deps := [], eligible := true })] }) (base 8)); !(match s.hw.launches.look 7 with | some l => recGood s.hw 0 0 47 [0, 0, 2, 2 ^ 31 + 2] 7 l | none => false) && !(match s.hw.launches.look 7 with | some l => recGood s.hw 0 0 47 [0, 0, 2, 2 ^ 31 + 1] 7 l | none => false) && (match s.hw.launches.look 7 with | some l => recGood s.hw 0 0 47 [0, 0, 2, 2147483648] 7 l | none => false)),
    (let s := onHw (fun h => h.setImage 0 1 fun i => { i with ltable := [(0, 7)], records := [(47, [0, 0, 2, 2147483648], 7)] }) (onHw (fun h => { h with launches := [(7, { part := 0, ctx := 1, src := .host 3 5, addr := 0x77, hdr := [0x400100, 2 ^ 32, 1, 1, 2, 1, 1] ++ List.replicate 17 0, doneAt := none, deps := [], eligible := true, bound := [0] })] }) (base 8)); (match s.hw.launches.look 7 with | some l => bit 32 (hdrWord l.hdr 1) && l.bound.length != blockCount l.hdr | none => false) && bankCtx s.hw 0 0 == some 1)] : List Bool).all id = true := by
  decide +kernel

/-- The same, continued. -/
theorem test_meets_LaunchFlow2 : ([
    (let s := onHw (fun h => h.setImage 0 1 fun i => { i with ltable := [(0, 7)], records := [(47, [0, 0, 2, 2147483648], 7)] }) (onHw (fun h => { h with launches := [(7, { part := 0, ctx := 1, src := .host 3 5, addr := 0x77, hdr := [0x400100, 2 ^ 33, 1, 2, 1, 1, 1] ++ List.replicate 17 0, doneAt := none, deps := [], eligible := true, bound := [0] })] }) (base 8)); (match s.hw.launches.look 7 with | some l => hdrC3 l.hdr && (l.bound.filter fun x => sameGroup l.hdr x 0).length != hdrExt l.hdr 2 | none => false) && bankCtx s.hw 0 0 == some 1),
    (let s := onCtx (fun c => { c with state := .killing }) (onHw (fun h => { h with gangs := [], launches := [(7, { part := 0, ctx := 1, src := .host 3 5, addr := 0x77, hdr := [0x400100, 0, 1, 1, 1, 1, 1] ++ List.replicate 17 0, doneAt := none, deps := [], eligible := true, ended := [0], slotPa := 0x600000 })] }) (base 8)); (match s.hw.ctx 0 1 with | some c => decide (c.state = .killing) | none => false) && (match s.hw.launches.look 7 with | some l => launchOver s.hw 7 l | none => false)),
    (let s := onLink (fun k => { k with hostLines := [lineOf 0x600100] }) (onHw (fun h => { h with gangs := [], launches := [(7, { part := 0, ctx := 1, src := .host 3 5, addr := 0x77, hdr := [0x400100, 0, 1, 1, 1, 1, 1] ++ List.replicate 17 0, doneAt := some 0x600100, deps := [], eligible := true, ended := [0] })] }) (base 8)); (match s.hw.launches.look 7 with | some l => launchOver s.hw 7 l | none => false) && hostHolds s.hw 0 0x600100),
    (let s := onPart (fun q => { q with vectors := [(63, 0x6000C0)], msix := [(127, 7)], pend := [{ w := 9, addr := 0x6000C8, bytes := [0#8] }] }) (base 8); let z := onPart (fun q => { q with vectors := [(63, 0x6000C0)], msix := [(127, 2 ^ 32 + 7)], pend := [] }) (base 8); let y := onPart (fun q => { q with pend := [{ w := 9, addr := 0x6000C7, bytes := [0#8] }] }) z; (s.hw.part 0).pend.all (fun w => !w.covers 0x6000C0 8) && bit 32 (msixWord z.hw 0 127) && !bit 32 (msixWord s.hw 0 127) && (y.hw.part 0).pend.any (fun w => w.covers 0x6000C0 8))] : List Bool).all id = true := by
  decide +kernel

/-- States and operands for the hypotheses of QueueRegisters. -/
theorem test_meets_QueueRegisters : ([
    (let s := onHw (fun h => h.setQueue 0 63 fun _ => { en := true, ctx := 1, tail := 5 }) (base 8); let x := (s.hw.part 0).queue 63; x.en && x.state == 0),
    (let s := onHw (fun h => h.setQueue 0 63 fun _ => { en := true, ctx := 1, tail := 5, prog := 3, state := 1, save := 0x600000 }) (base 8); let x := (s.hw.part 0).queue 63; x.en && x.state == 1 && saveArea s.hw s.mem 0 x == some 0x600000),
    (let s := onHw (fun h => h.setQueue 0 63 fun _ => { en := true, state := 2 }) (base 8); let x := (s.hw.part 0).queue 63; x.state == 2),
    (let s := onHw (fun h => h.setQueue 0 63 fun _ => { en := true, state := 1 }) (base 8); let x := (s.hw.part 0).queue 63; x.state != 2),
    (let s := poke 0x600000 8 (2 ^ 32 + 9) (onHw (fun h => h.setQueue 0 63 fun _ => { en := true, ctx := 1, tail := 5, prog := 3, state := 2, save := 0x600000 }) (base 8)); let x := (s.hw.part 0).queue 63; x.state == 2 && saveArea s.hw s.mem 0 x == some 0x600000),
    (let s := onHw (fun h => h.setQueue 0 63 fun _ => { en := true, ctx := 9, tail := 5, state := 2, save := 0x600000 }) (base 8); let x := (s.hw.part 0).queue 63; x.state == 2 && (saveArea s.hw s.mem 0 x).isNone),
    (let s := onHw (fun h => h.setQueue 0 63 fun _ => { en := true, ctx := 1, tail := 5, prog := 3, state := 1, save := 0x600000 }) (base 8); let x := (s.hw.part 0).queue 63; s.hw.pkg.up && (s.hw.part 0).present && postedPast s.hw 0 s.time && (s.hw.part 0).ptstatus != 255 && saveArea s.hw s.mem 0 x == some 0x600000),
    (let s := onHw (fun h => h.setQueue 0 63 fun _ => { tail := 5, prog := 3, state := 3 }) (base 8); let x := (s.hw.part 0).queue 63; s.hw.pkg.up && (s.hw.part 0).present && postedPast s.hw 0 s.time && (s.hw.part 0).ptstatus != 255 && !x.en),
    (let s := onLink (fun k => { k with winerr := 2 ^ 32 - 1 }) (base 8); s.hw.pkg.up && (s.hw.part 0).present && postedPast s.hw 0 s.time && (s.hw.part 0).ptstatus != 255),
    (let s := onHw (fun h => { h with pkg := { h.pkg with lostBlocks := [(7, 0), (8, 3)] } }) (base 8); (s.hw.launches.look 7).isNone),
    (let s := onHw (fun h => { h with launches := [(7, { part := 0, ctx := 1, src := .host 3 5, addr := 0x77, hdr := ([0x400100, 0, 1, 1, 1, 1, 1] ++ List.replicate 17 0), doneAt := none, deps := [] })] }) (base 8); (s.hw.launches.look 7).isSome && s.hw.pkg.lostBlocks.isEmpty),
    (let s := onHw (fun h => { h with pkg := { h.pkg with lostBlocks := [(7, 0), (8, 3)] } }) (onHw (fun h => { h with launches := [(7, { part := 0, ctx := 1, src := .host 3 5, addr := 0x77, hdr := ([0x400100, 0, 1, 1, 1, 1, 1] ++ List.replicate 17 0), doneAt := none, deps := [], bound := [0, 1], ended := [0, 2] })] }) (base 8)); (match s.hw.launches.look 7 with | some l => canRelaunch { s.hw with pkg := { s.hw.pkg with lostBlocks := [(8, 3)] } } l | none => false) && s.hw.ops.isEmpty),
    (let s := onHw (fun h => { h with pkg := { h.pkg with lostBlocks := [(7, 0), (8, 3)] } }) (onHw (fun h => { h with clusters := (List.range 216).foldl (fun t k => t.put {} k { retired := true }) h.clusters }) (onHw (fun h => { h with launches := [(7, { part := 0, ctx := 1, src := .host 3 5, addr := 0x77, hdr := ([0x400100, 0, 1, 1, 1, 1, 1] ++ List.replicate 17 0), doneAt := none, deps := [], bound := [0, 1], slotPa := 0x600000 })] }) (base 8))); (match s.hw.launches.look 7 with | some l => !canRelaunch { s.hw with pkg := { s.hw.pkg with lostBlocks := [(8, 3)] } } l | none => false) && s.hw.ops.isEmpty)] : List Bool).all id = true := by
  decide +kernel

/-- States and operands for the hypotheses of PowerStates: a boundary early and on time, above and below the ceiling, with clusters that have room and with none; transitions due and not due. -/
theorem test_meets_PowerStates : ([
    (let s := onHw (fun h => { h with pkg := { h.pkg with ceiling := { last := 2001 } } }) { base 8 with time := 3000 }; let x := s.hw.pkg.ceiling; decide (s.time < x.last + 1000)),
    (let s := onHw (fun h => { h with pkg := { h.pkg with ceiling := { last := 2000, code := 2, staged := some 0, hold := 5, excess := 65535 } } }) { base 8 with time := 3000 }; let x := s.hw.pkg.ceiling; decide (x.last + 1000 ≤ s.time) && s.hw.pkg.up && decide (ceilingW (x.staged.getD x.code) < 1201) && (allLive s.hw).any fun k => decide ((s.hw.cluster k).cap < 7)),
    (let s := onHw (fun h => { h with pkg := { h.pkg with ceiling := { last := 2000 } }, clusters := (List.range 216).foldl (fun t k => t.put {} k { cap := 7 }) [] }) { base 8 with time := 3000 }; let x := s.hw.pkg.ceiling; decide (x.last + 1000 ≤ s.time) && s.hw.pkg.up && decide (ceilingW (x.staged.getD x.code) < 1300) && !(allLive s.hw).isEmpty && (allLive s.hw).all fun k => decide (7 ≤ (s.hw.cluster k).cap)),
    (let s := onHw (fun h => { h with pkg := { h.pkg with ceiling := { last := 2000 } }, clusters := (List.range 216).foldl (fun t k => t.put {} k { cap := 7 }) [] }) { base 8 with time := 3000 }; let x := s.hw.pkg.ceiling; decide (x.last + 1000 ≤ s.time ∧ x.staged = none ∧ x.settle = 0 ∧ x.hold = 0 ∧ 1150 + 50 ≤ ceilingW x.code) && s.hw.pkg.up && meanAtMost ((1150 :: x.history).take 1000) (ceilingW x.code - 50)),
    (let s := onHw (fun h => { h with pkg := { h.pkg with ceiling := { last := 2000, hold := 10 } }, clusters := (List.range 216).foldl (fun t k => t.put {} k { cap := 7 }) [] }) { base 8 with time := 3000 }; let x := s.hw.pkg.ceiling; decide (x.last + 1000 ≤ s.time ∧ x.staged = none ∧ x.settle = 0 ∧ x.hold ≠ 0 ∧ 1150 + 50 ≤ ceilingW x.code) && s.hw.pkg.up && meanAtMost ((1150 :: x.history).take 1000) (ceilingW x.code - 50)),
    (let s := onHw (fun h => h.setCluster 215 fun c => { c with goal := none }) { base 8 with time := 3000 }; (s.hw.cluster 215).goal.isNone),
    (let s := onHw (fun h => h.setCluster 215 fun c => { c with goal := some (3, 3001) }) { base 8 with time := 3000 }; (s.hw.cluster 215).goal == some (3, 3001) && decide (s.time < 3001)),
    (let s := onHw (fun h => h.setCluster 215 fun c => { c with goal := some (3, 3000), req := 3, cur := 7, trans := 2 ^ 32 - 1 }) { base 8 with time := 3000 }; (s.hw.cluster 215).goal == some (3, 3000) && decide (3000 ≤ s.time) && effState (s.hw.cluster 215) == 3),
    (let s := onHw (fun h => h.setCluster 215 fun c => { c with thot := true }) { base 8 with time := 3000 }; let z := onHw (fun h => h.setCluster 215 fun c => { c with thot := false }) { base 8 with time := 3000 }; (s.hw.cluster 215).thot && !(z.hw.cluster 215).thot),
    (let s := onHw (fun h => h.setCluster 215 fun c => { c with cur := 3 }) { base 8 with time := 3000 }; s.hw.pkg.up && (s.hw.part 0).present && postedPast s.hw 0 s.time && (s.hw.part 0).ptstatus != 255 && thirdPart s.hw (215 / 72) == some 0 && clusterLive s.hw 215 && (s.hw.cluster 215).goal.isNone),
    (let s := base 8; s.hw.pkg.up && (s.hw.part 0).present && postedPast s.hw 0 s.time && (s.hw.part 0).ptstatus != 255),
    (let s := base 8; s.hw.pkg.up && (s.hw.part 0).present && postedPast s.hw 0 s.time && (s.hw.part 0).ptstatus != 255 && decide (bits 7 0 (0x00070000000000C0 : Nat) ≤ 192 ∧ 192 < bits 7 0 (0xC1 : Nat)))] : List Bool).all id = true := by
  decide +kernel

/-- States and operands for the hypotheses of PowerLoss. -/
theorem test_meets_PowerLoss : ([
    (let s := onHw (fun h => { h with pkg := { h.pkg with map := [0, 1, 1], parkReq := 8 } }) (base 8); s.hw.pkg.up && (s.hw.part 0).present && postedPast s.hw 0 s.time && (s.hw.part 0).ptstatus != 255 && bit 2 (partDies s.hw 0) && !bit 3 (partDies s.hw 0)),
    (let s := onHw (fun h => { h with pkg := { h.pkg with parkReq := 256, parked := 1 } }) (base 8); bit 8 s.hw.pkg.parkReq && !bit 8 s.hw.pkg.parked && (dieClusters 8).all fun k => (s.hw.cluster k).trace.isEmpty && (clusterCores k).all fun c => banksEmpty s.hw c && (s.hw.core c).acctag.isEmpty),
    (let s := onHw (fun h => { h with pkg := { h.pkg with parkReq := 256, parked := 256 } }) (base 8); bit 8 s.hw.pkg.parked && !bit 7 s.hw.pkg.parkReq),
    (let s := onHw (fun h => (h.setCluster 215 fun c => { c with cur := 3 }).setCore 863 fun k => { k with syncs := [⟨0, []⟩], seen := [(4, 7)], units := [(1, 1)] }) (onHw (fun h => { h with pkg := { h.pkg with parked := 257 } }) (base 8)); bit 8 s.hw.pkg.parked && !bit 8 s.hw.pkg.parkReq && (let c := s.hw.cluster 215; !c.shut && !c.retired && !c.fail)),
    (let s := onHw (fun h => { h with pkg := { h.pkg with ocShut := 2 ^ 35 } }) (base 8); bit 35 s.hw.pkg.ocShut && s.hw.pkg.up),
    (let s := onHw (fun h => h.setCluster 0 fun c => { c with goal := some (3, 4), trace := [[1]] }) (onHw (fun h => { h with pkg := { h.pkg with ocEvents := 65535 } }) (base 8)); !bit 0 s.hw.pkg.ocShut && s.hw.pkg.up && s.hw.gangs.has gk && decide ((s.hw.image (gkCore gk) (gkCtx gk)).place = .bank 0) && (thirdPart s.hw 0).isSome),
    (let s := onHw (fun h => { h with pkg := { h.pkg with powered := false } }) (base 8); !s.hw.pkg.powered),
    (let s := onHw (fun h => { h with pkg := { h.pkg with cuts := 65535 } }) ({ base 8 with time := 9 }); s.hw.pkg.powered),
    (let s := { onHw (fun h => { h with pkg := { h.pkg with powered := false } }) (base 8) with agenda := [⟨3, .event .hostLinkDown⟩] }; !s.hw.pkg.powered && !isPowerOn (takeTurn s).2.1.what)] : List Bool).all id = true := by
  decide +kernel

/-- States and operands for the hypotheses of PartitionCommands. -/
theorem test_meets_PartitionCommands : ([
    (let s := base 8; s.hw.pkg.up && (s.hw.part 0).present && postedPast s.hw 0 s.time && (s.hw.part 0).ptstatus != 255 && !(s.hw.part 0).quiesce),
    (let s := onPart (fun q => { q with quiesce := true, quiesced := true }) (base 8); s.hw.pkg.up && (s.hw.part 0).present && postedPast s.hw 0 s.time && (s.hw.part 0).ptstatus != 255 && (s.hw.part 0).quiesce && !(s.hw.part 0).faulted),
    (let s := onPart (fun q => { q with stage := 1 }) (base 8); let m := mapOf (s.hw.part 0).stage; s.hw.pkg.up && (s.hw.part 0).present && postedPast s.hw 0 s.time && (s.hw.part 0).ptstatus != 255 && s.hw.pkg.reshape.isNone && !shapeOk m),
    (let s := onPart (fun q => { q with stage := 20, queues := [(63, { en := true, tail := 1 })] }) (base 8); let m := mapOf (s.hw.part 0).stage; s.hw.pkg.up && (s.hw.part 0).present && postedPast s.hw 0 s.time && (s.hw.part 0).ptstatus != 255 && s.hw.pkg.reshape.isNone && shapeOk m && (affected s.hw 0 m).contains 0 && queueBusy s.hw 0 63),
    (let s := onPart (fun q => { q with stage := 20 }) (base 8); let m := mapOf (s.hw.part 0).stage; s.hw.pkg.up && (s.hw.part 0).present && postedPast s.hw 0 s.time && (s.hw.part 0).ptstatus != 255 && s.hw.pkg.reshape.isNone && shapeOk m && (affected s.hw 0 m).all (fun p => (List.range 64).all fun n => !queueBusy s.hw p n) && (affected s.hw 0 m).any fun p => !(s.hw.part p).quiesced),
    (let s := onPart (fun q => { q with stage := 20, quiesced := true }) (base 8); let m := mapOf (s.hw.part 0).stage; s.hw.pkg.up && (s.hw.part 0).present && postedPast s.hw 0 s.time && (s.hw.part 0).ptstatus != 255 && s.hw.pkg.reshape.isNone && shapeOk m && (affected s.hw 0 m).all (fun p => (List.range 64).all fun n => !queueBusy s.hw p n) && (affected s.hw 0 m).all fun p => (s.hw.part p).quiesced),
    (let s := onHw (fun h => { h with cores := [], images := [] }) (onPart (fun q => { q with quiesce := true }) (base 8)); (s.hw.part 0).quiesce && allEmpty s.hw 0),
    (let s := onPart (fun q => { q with quiesce := true }) (base 8); !allEmpty s.hw 0),
    (let s := onPart (fun q => { q with quiesce := true }) (base 8); corePart s.hw 0 == some 0 && bankCtx s.hw 0 0 == some 1 && (s.hw.part 0).quiesce && (s.hw.image 0 1).records.isEmpty && (s.hw.image 0 1).ltable.isEmpty && workDone s.hw 0 0 1 && (s.hw.core 0).units.isEmpty && !bankBusy (bankState s.hw 0 0) && (s.hw.core 0).flipAt.isNone),
    (let s := base 8; s.hw.pkg.reshape.isNone),
    (let s := onHw (fun h => { h with pkg := { h.pkg with reshape := some (0, [0, 1, 2]) } }) (base 8); s.hw.pkg.reshape == some (0, [0, 1, 2]) && affected s.hw 0 [0, 1, 2] == [0]),
    (let s := onHw (fun h => { h with pkg := { h.pkg with map := [0, 1, 1], reshape := some (1, [0, 1, 2]) } }) (poke 0x400000 1 7 (base 8)); s.hw.pkg.reshape == some (1, [0, 1, 2]) && affected s.hw 1 [0, 1, 2] == [1])] : List Bool).all id = true := by
  decide +kernel

/-- States and operands for the hypotheses of DeviceHealth. -/
theorem test_meets_DeviceHealth : ([
    (let s := onHw (fun h => { h with pkg := { h.pkg with health := { win := 1, tclu := 2, events := [(0, 215, 2000000)] } } }) ({ base 8 with time := 3000000 }); let x := s.hw.pkg.health; let n := errorsIn { x with events := x.events ++ [(0, 215, s.time)] } s.time (fun c i => c == 0 && i == 215); instanceOk 0 215 && s.hw.pkg.up && decide (n < threshold x 0)),
    (let s := onHw (fun h => { h with pkg := { h.pkg with health := { win := 1, tclu := 2, events := [(0, 215, 2000001)], retiredCount := 65535 } } }) ({ base 8 with time := 3000000 }); let x := s.hw.pkg.health; let n := errorsIn { x with events := x.events ++ [(0, 215, s.time)] } s.time (fun c i => c == 0 && i == 215); instanceOk 0 215 && s.hw.pkg.up && decide (threshold x 0 ≠ 0 ∧ threshold x 0 ≤ n) && !x.retired.contains (0, 215)),
    (let s := onHw (fun h => h.setCluster 215 fun c => { c with doomed := true }) { base 8 with time := 3000 }; (s.hw.cluster 215).doomed && (clusterCores 215).all fun c => banksEmpty s.hw c),
    (let s := base 8; s.hw.pkg.up && clusterLive s.hw 215),
    (let s := onPart (fun q => { q with contexts := [] }) (base 8); s.hw.pkg.up && thirdPart s.hw (191 / 64) == some 0 && (s.hw.part 0).contexts.isEmpty),
    (let s := onPart (fun q => { q with resyncs := 2 ^ 32 - 1 }) (base 8); s.hw.pkg.up && (s.hw.part 0).present && postedPast s.hw 0 s.time && (s.hw.part 0).ptstatus != 255 && bit 0 (0x5001 : Nat) && !bit 0 (0x5000 : Nat)),
    (let s := base 8; s.hw.pkg.up && (s.hw.part 0).present && postedPast s.hw 0 s.time && (s.hw.part 0).ptstatus != 255 && bit 0 (1 : Nat) && (List.replicate 32 (0#8)).length == 32),
    (!shapeOk ({ stepping := 1, firmware := [], genuine := true, badDies := [], map := [1, 1, 1], supctx := [0, 0, 0], fib := [], cxl := true, linkUp := true, ceiling := 200, slope := 0, errcfg := 0, req := 9, retired := [] } : Board).map && shapeOk ({ stepping := 1, firmware := [], genuine := true, badDies := [], map := [0, 0, 2], supctx := [0, 0, 0], fib := [], cxl := true, linkUp := true, ceiling := 200, slope := 0, errcfg := 0, req := 9, retired := [] } : Board).map),
    (let s := base 8; bit 1 (orrtKept s.hw 0 21) && !bit 1 (orrtKept (onHw (fun h => { h with pkg := { h.pkg with orrt := [(21, 1)] } }) s).hw 0 21))] : List Bool).all id = true := by
  decide +kernel

/-- States and operands for the hypotheses of InvariantKept. -/
theorem test_meets_InvariantKept : ([
    (memWf State.reset.mem && (match step (State.reset.withFetchWord 32 4) with | .next t => memWf t.mem | _ => false))] : List Bool).all id = true := by
  decide +kernel

/-- States and operands for the hypotheses of OnlyTimeStores. -/
theorem test_meets_OnlyTimeStores : ([
    okS Forms.addS (sf 9 7) (base 4) (fun _ _ => true)] : List Bool).all id = true := by
  decide +kernel

/-- States and operands for the hypotheses of EncodeDecode. -/
theorem test_meets_EncodeDecode : ([
    (let i := Instr.add (fl (ty := .i32) (d := 7) (a := 3) (b := 4) (lua := true)); wellFormed i)] : List Bool).all id = true := by
  decide +kernel

/-- States and operands for the hypotheses of StepRuns. -/
theorem test_meets_StepRuns : ([
    (let s := { base 8 with agenda := [⟨5, .event .hostLinkDown⟩] }; (match view .hostLinkDown with | .event => true | _ => false) && s.hw.pkg.powered),
    (let s := State.reset.withFetchWord 32 4; s.hw.pkg.powered && (match s.agenda with | [⟨dt, .issue q⟩] => (let s1 := passTime { s with agenda := [] } dt; match envAt s1 q with | some e => e.mayIssue && (let g := stepGate s1 e; g.1 && (let f := e.fetch s1.mem g.2; f.1.bad.isNone && (let t := (s1.with f.2).aim q f.1; (match env t with | some e' => (breakHit (t.hw.part e'.part) e'.ctx e'.q.pc.toNat e'.act).isNone | none => false) && (match decode f.1.insn with | .ok _ => true | _ => false)))) | none => false) | _ => false)),
    (let s := State.reset.withFetchWord 32 0x7C; (match s.agenda with | [⟨dt, .issue q⟩] => (let s1 := passTime { s with agenda := [] } dt; match envAt s1 q with | some e => (let g := stepGate s1 e; let f := e.fetch s1.mem g.2; f.1.bad.isNone && (match decode f.1.insn with | .illegal => true | _ => false)) | none => false) | _ => false)),
    (let s := State.reset.withFetchWord 32 0x00100004; (match s.agenda with | [⟨dt, .issue q⟩] => (let s1 := passTime { s with agenda := [] } dt; match envAt s1 q with | some e => (let g := stepGate s1 e; let f := e.fetch s1.mem g.2; f.1.bad.isNone && (match decode f.1.insn with | .reserved _ => true | _ => false)) | none => false) | _ => false)),
    (let s := onPath (fun q => { q with pc := 0x40000000 }) (State.reset.withFetchWord 32 4); (match s.agenda with | [⟨dt, .issue q⟩] => (let s1 := passTime { s with agenda := [] } dt; match envAt s1 q with | some e => e.mayIssue && (let g := stepGate s1 e; let f := e.fetch s1.mem g.2; g.1 && f.1.bad == some 0x40000000) | none => false) | _ => false)),
    (let s := base 8; (match translate s.hw s.mem 0 1 0x400108 with | (.ok t, h) => t.kind == 0 && t.x && ((h.part 0).hist.val [] (t.pa / 4)).isEmpty | _ => false) && (match translate s.hw s.mem 0 1 (2 ^ 40) with | (.error _, _) => true | _ => false)),
    (let s := onCore (fun k => { k with syncs := [⟨7, [(gk, 3)]⟩] }) (onPart (fun q => { q with hist := [(0x400108 / 4, [⟨9, 6, gk, 2⟩])], landed := 8 }) (poke 0x40008 8 (2 ^ 63 + 2 ^ 62 + 2 ^ 59 + 2 ^ 58 + 2 ^ 55) (base 8))); let ws := (s.hw.part 0).hist.val [] (0x400108 / 4); (match translate s.hw s.mem 0 1 0x400108 with | (.ok t, h) => t.kind == 0 && t.x && t.pa == 0x400108 && ws == [⟨9, 6, gk, 2⟩] && decide (6 ≤ syncedWrite (h.core 0).syncs 1 ws ∧ syncedWrite (h.core 0).syncs 0 ws < 6) | _ => false) && (match translate s.hw s.mem 0 1 (2 ^ 30) with | (.ok t, _) => t.kind != 0 | _ => false)),
    (let s := { State.reset.withFetchWord 32 4 with agenda := [⟨5, .slot 0 0⟩] }; s.hw.pkg.powered && coreClocked (passTime { s with agenda := [] } 5) 0)] : List Bool).all id = true := by
  decide +kernel

/-- States and operands for the hypotheses of IssueGuards. -/
theorem test_meets_IssueGuards : ([
    okE (base 4) (fun e => let f := fl (ty := .i32) (cls := 0) (d := 7) (a := 3) (b := 4); let r := regsF Forms.add f; e.badPlace f.len false 0),
    okE (base 8) (fun e => let f := fl (cls := 3) (d := 5) (a := 6); let r := regsF Forms.cstop f; !e.badPlace f.len false 0 && Forms.cstop.sup && !e.sup),
    okE (flying { op10 (.load [] .b32) with dst := .vec 3 8 0 } (base 8)) (fun e => let f := fl (ty := .i32) (cls := 0) (d := 7) (a := 3) (b := 4); let r := regsF Forms.add f; !e.badPlace f.len false 0 && !e.ready r),
    okE (onPath (fun q => { q with mask := 0 }) (base 8)) (fun e => let f := fl (ty := .i32) (cls := 0) (d := 7) (a := 3) (b := 4); let r := regsF Forms.add f; !e.badPlace f.len false 0 && e.ready r && decide (e.act = 0)),
    okE (onPath (fun q => { q with mask := 0 }) (base 8)) (fun e => let f := { fl (cls := 3) (d := 4) (a := 6) with lua := true }; let r := regsF Forms.cnt f; !e.badPlace f.len false 0 && e.ready r && decide (e.act = 0)),
    okE (onHw (fun h => { h with ops := (List.range 63).map fun k => { id := k, gk := gk, paths := 1, flags := [1], kind := .load [] .b32 } }) (base 16)) (fun e => let f := fl (ty := .i32) (d := 5) (a := 6) (opt := 1) (tail := ex 0 (4 * 4096 + 1)) (fsel := 2); let r := regsF Forms.ld f; !e.badPlace f.len false f.fsel.toNat && e.ready r && decide (e.act ≠ 0) && e.flagsFull f.fsel.toNat),
    okE (base 0) (fun e => e.badPlace 4 false 0),
    okE (flying { op10 (.load [] .b32) with dst := .vec 7 8 0 } (base 4)) (fun e => !e.badPlace 4 false 0 && !e.ready (regsS Forms.addS (sf 9 7))),
    okE (onPath (fun q => { q with cl := {} }) (base 8)) (fun e => !e.q.cl.inside),
    okE (base 8) (fun e => decide (e.q.cl.fin.toNat < e.q.pc.toNat + 12 ∧ e.q.cl.fin.toNat ≠ e.q.pc.toNat + 4))] : List Bool).all id = true := by
  decide +kernel

/-- States and operands for the hypotheses of ClauseBegins. -/
theorem test_meets_ClauseBegins : ([
    okE (onPath (fun q => { q with cl := {} }) (base 8)) (fun e => let h : Header := ⟨9, true, true, false, 15, 11, 1, 3⟩; !e.q.cl.inside && !e.q.folded && !headIllegal h && ((List.range 12).all fun k => !h.wait.getLsbD k || flagCount e.hw.ops e.gk k == 0) && h.rejoin && e.g.paths.all fun x => x.1 == e.p || !mergeable e.q x.2),
    okE (onGang (fun g => { g with paths := g.paths.ins 1 { mask := 3, pc := word placePc } }) (onPath (fun q => { q with cl := {} }) (base 8))) (fun e => let h : Header := ⟨0, true, false, true, 15, 11, 1, 1⟩; !e.q.cl.inside && !e.q.folded && !headIllegal h && !h.rejoin && (List.range 12).all fun k => !h.wait.getLsbD k || flagCount e.hw.ops e.gk k == 0),
    okE (onHw (fun h => { h with ops := [{ id := 0, gk := gk, flags := [0], kind := .ldc [] [] .b32 }] }) (onPath (fun q => { q with cl := {} }) (base 8))) (fun e => let h : Header := ⟨0, true, false, false, 15, 11, 1, 3⟩; !e.q.cl.inside && !e.q.folded && !headIllegal h && (List.range 12).any fun k => h.wait.getLsbD k && flagCount e.hw.ops e.gk k != 0)] : List Bool).all id = true := by
  decide +kernel

/-- States and operands for the hypotheses of PlainFlow. -/
theorem test_meets_PlainFlow : ([
    okE (base 4) (fun e => !e.badPlace 4 false 0 && roomB e (regsS Forms.nop (sf 0 0)) {} e.hw),
    okE (onPath (fun q => { q with mask := 0 }) (base 4)) (fun e => !e.badPlace 4 false 0 && roomB e (regsS Forms.yld (sf 0 0)) {} e.hw)] : List Bool).all id = true := by
  decide +kernel

/-- States and operands for the hypotheses of IfElse: if, then and else, whether a lane stays on or none, and a full counter. -/
theorem test_meets_IfElse : ([
    okC Forms.ifOp (fl (a := 6) (tail := lit 0x38)) (vr 6 (fun l => l % 2) (onGang (fun g => { g with nest := [(31, 62)] }) (base 12))) (fun e r => let f := fl (a := 6) (tail := lit 0x38); (allLanes.all fun l => nestOf e.g l != 63) && (allLanes.any fun l => nestOf e.g l == 0 && cond e r f.op l)),
    okC Forms.ifOp (fl (a := 6) (tail := lit 0x38)) (base 12) (fun e r => let f := fl (a := 6) (tail := lit 0x38); (allLanes.all fun l => nestOf e.g l == 0 && !cond e r f.op l) && (badTarget (e.target f.lit) e.act).isNone),
    okC Forms.elseOp (fl (tail := lit 0x38)) (onGang (fun g => { g with nest := [(31, 1)] }) (base 12)) (fun e _ => allLanes.any fun l => nestOf e.g l == 1),
    okC Forms.elseOp (fl (tail := lit 0x38)) (base 12) (fun e _ => let f := fl (tail := lit 0x38); (allLanes.all fun l => nestOf e.g l != 1) && (badTarget (e.target f.lit) e.act).isNone),
    okC Forms.ifOp (fl (a := 6) (tail := lit 0x38)) (onGang (fun g => { g with nest := [(31, 63)] }) (base 12)) (fun e _ => allLanes.any fun l => inLanes e.grp l && nestOf e.g l == 63),
    okE (base 4) (fun e => !e.badPlace 4 false 0 && roomB e (regsS Forms.endif (sf 0 0)) {} (e.nested []))] : List Bool).all id = true := by
  decide +kernel

/-- States and operands for the hypotheses of Loops: every loop form, going round and leaving, and the counters that are too high. -/
theorem test_meets_Loops : ([
    okC Forms.loop (fl (tail := lit 0x38)) (onGang (fun g => { g with nest := [(31, 61)] }) (base 12)) (fun e _ => e.act != 0 && allLanes.all fun l => decide (nestOf e.g l ≤ 61)),
    okC Forms.breakOp (fl (a := 6) (tail := lit 61)) (vr 6 (fun l => l % 2) (base 12)) (fun _ _ => let f := fl (a := 6) (tail := lit 61); f.lit % 64 + 2 ≤ 63),
    okC Forms.cont (fl (a := 6) (tail := lit 62)) (vr 6 (fun l => l % 2) (base 12)) (fun _ _ => let f := fl (a := 6) (tail := lit 62); f.lit % 64 + 1 ≤ 63),
    okC Forms.endloop (fl (tail := lit 0x38)) (onGang (fun g => { g with nest := allLanes.map fun l => (l, l + 1) }) (base 12)) (fun e _ => let f := fl (tail := lit 0x38); (allLanes.any fun l => decide (nestOf e.g l ≤ 1)) && (badTarget (e.target f.lit) e.act).isNone),
    okC Forms.endloop (fl (tail := lit 0x38)) (onGang (fun g => { g with nest := allLanes.map fun l => (l, l + 2) }) (base 12)) (fun e _ => allLanes.all fun l => decide (2 ≤ nestOf e.g l)),
    okC Forms.loopn (fl (a := 6) (tail := lit 0x38)) (vr 6 (fun l => l) (onGang (fun g => { g with nest := [(30, 1), (31, 2)] }) (base 12))) (fun e r => let f := fl (a := 6) (tail := lit 0x38); r.sh.a == .v && (allLanes.any fun l => decide (nestOf e.g l ≤ 1) && decide (1 < (e.g.v r.a l).toNat)) && (badTarget (e.target f.lit) e.act).isNone),
    okC Forms.loopn (fl (cls := 1) (a := 6) (tail := lit 0x38)) (sr [(6, 2)] (base 12)) (fun e r => let f := fl (cls := 1) (a := 6) (tail := lit 0x38); r.sh.a != .v && decide (1 < (e.q.sr r.a).toNat) && (badTarget (e.target f.lit) e.act).isNone),
    okC Forms.loopn (fl (a := 6) (tail := lit 0x38)) (vr 6 (fun _ => 1) (onGang (fun g => { g with nest := [(30, 1), (31, 2)] }) (base 12))) (fun e r => r.sh.a == .v && allLanes.all fun l => decide (2 ≤ nestOf e.g l) || decide ((e.g.v r.a l).toNat ≤ 1)),
    okC Forms.loopn (fl (cls := 1) (a := 6) (tail := lit 0x38)) (sr [(6, 1)] (base 12)) (fun e r => r.sh.a != .v && decide ((e.q.sr r.a).toNat ≤ 1)),
    okC Forms.loop (fl (tail := lit 0x38)) (onPath (fun q => { q with mask := 0 }) (base 12)) (fun e r => let f := fl (tail := lit 0x38); e.act == 0 && (badTarget (e.target f.lit) e.act).isNone && roomB e r {} (e.goto (e.target f.lit) id e.hw)),
    okC Forms.loop (fl (tail := lit 0x38)) (onGang (fun g => { g with nest := [(31, 62)] }) (base 12)) (fun e _ => e.act != 0 && allLanes.any fun l => decide (61 < nestOf e.g l)),
    okC Forms.breakOp (fl (tail := lit 62)) (base 12) (fun _ _ => let f := fl (tail := lit 62); 63 < f.lit % 64 + 2),
    okC Forms.cont (fl (tail := lit 63)) (base 12) (fun _ _ => let f := fl (tail := lit 63); 63 < f.lit % 64 + 1)] : List Bool).all id = true := by
  decide +kernel

/-- States and operands for the hypotheses of CallsReturns: taken and not, the deepest call, and both kinds of bad target. -/
theorem test_meets_CallsReturns : ([
    okC Forms.brs (fl (cls := 1) (a := 6) (tail := lit 0x38)) (sr [(6, 1)] (base 12)) (fun e r => let f := fl (cls := 1) (a := 6) (tail := lit 0x38); cond e r f.op 0 && (badTarget (e.target f.lit) e.act).isNone && roomB e r {} (e.goto (e.target f.lit) id e.hw)),
    okC Forms.brs (fl (cls := 1) (a := 6) (tail := lit 0x38)) (base 12) (fun e r => let f := fl (cls := 1) (a := 6) (tail := lit 0x38); !cond e r f.op 0 && roomB e r {} (e.goto (e.clauseEnd r.len) id e.hw)),
    okC Forms.call (fl (cls := 3) (d := 4) (tail := lit 0x38)) (onPath (fun q => { q with depth := 62 }) (base 12)) (fun e r => let f := fl (cls := 3) (d := 4) (tail := lit 0x38); e.act != 0 && (badTarget (e.target f.lit) e.act).isNone && decide (e.deepest < 63) && roomB e r { s := [(r.d, e.clauseEnd r.len)] } (e.goto (e.target f.lit) (· + 1) e.hw)),
    okC Forms.call (fl (cls := 3) (d := 4) (tail := lit 0x38)) (onPath (fun q => { q with depth := 63 }) (base 12)) (fun e _ => let f := fl (cls := 3) (d := 4) (tail := lit 0x38); e.act != 0 && (badTarget (e.target f.lit) e.act).isNone && decide (63 ≤ e.deepest)),
    okE (sr [(6, 2 ^ 57 - 8)] (base 4)) (fun e => let r := regsS Forms.ret (sf 0 6); !e.badPlace 4 true 0 && e.ready r && (badTarget (e.sa r) e.act).isNone && roomB e r {} (e.goto (e.sa r) (· - 1) e.hw)),
    okC Forms.brs (fl (cls := 1) (a := 6) (tail := lit 0x34)) (sr [(6, 1)] (base 12)) (fun e r => let f := fl (cls := 1) (a := 6) (tail := lit 0x34); cond e r f.op 0 && decide ((e.target f.lit).toNat % 8 ≠ 0)),
    okC Forms.brs (fl (cls := 1) (a := 6) (tail := lit 0xFF800000)) (sr [(6, 1)] (base 12)) (fun e r => let f := fl (cls := 1) (a := 6) (tail := lit 0xFF800000); cond e r f.op 0 && decide ((e.target f.lit).toNat % 8 = 0 ∧ 2 ^ 57 ≤ (e.target f.lit).toNat)),
    okE (sr [(6, 4)] (base 4)) (fun e => let r := regsS Forms.ret (sf 0 6); !e.badPlace 4 true 0 && e.ready r && decide ((e.sa r).toNat % 8 ≠ 0)),
    okE (sr [(6, 2 ^ 57)] (base 4)) (fun e => let r := regsS Forms.ret (sf 0 6); !e.badPlace 4 true 0 && e.ready r && decide ((e.sa r).toNat % 8 = 0 ∧ 2 ^ 57 ≤ (e.sa r).toNat)),
    okC Forms.call (fl (cls := 3) (d := 4) (tail := lit 0x38)) (onGang (fun g => { g with nest := allLanes.map fun l => (l, 1) }) (base 12)) (fun e r => e.act == 0 && roomB e r {} (e.goto (e.clauseEnd r.len) id e.hw))] : List Bool).all id = true := by
  decide +kernel

/-- States and operands for the hypotheses of PathDivision. -/
theorem test_meets_PathDivision : ([
    okE (base 8) (fun e => let m1 : Lanes := 0x00FF00FF; let m2 : Lanes := 0xFF00FF00; !e.q.folded && m1 &&& m2 == 0 && m1 ||| m2 == e.q.mask && inLanes m1 (lowLane e.q.mask) && (freeEntries e.g).head? == some 1 && (match e.divide e.hw [⟨m1, 0x400200, 0, none⟩, ⟨m2, 0x400300, 0, none⟩] with | .ok _ => true | .error _ => false)),
    okC Forms.bra (fl (a := 6) (tail := lit 0x38)) (vr 6 (fun l => l % 2) (base 12)) (fun e _ => let f := fl (a := 6) (tail := lit 0x38); (badTarget (e.target f.lit) e.act).isNone),
    okC Forms.brx (fl (a := 6)) (vr 6 (fun l => 0x400200 + 8 * (l % 3)) (onGang (fun g => { g with nest := [(5, 1)] }) (base 8))) (fun e r => allLanes.all fun l => !inLanes e.act l || decide ((e.va r l).toNat % 8 = 0 ∧ (e.va r l).toNat < 2 ^ 57)),
    okC Forms.callx (fl (a := 6) (d := 4)) (vr 6 (fun l => 0x400200 + 8 * (l % 3)) (onPath (fun q => { q with depth := 62 }) (base 8))) (fun e r => decide (e.deepest < 63) && (allocate e.hw e.core e.ctx 0 (callEntries e r) [spillKeyS e.slot e.p (r.d / 32)]).isSome && allLanes.all fun l => !inLanes e.act l || decide ((e.va r l).toNat % 8 = 0 ∧ (e.va r l).toNat < 2 ^ 57)),
    okC Forms.split (fl (a := 6)) (vr 6 (fun l => l) (base 8)) (fun e _ => e.act != 0),
    okC Forms.bra (fl (a := 6) (tail := lit 0x38)) (vr 6 (fun l => l % 2) (onGang (fun g => { g with fold := false, paths := ((g.paths.upd 0 fun q => { q with mask := 0x1FFFF }) ++ (List.range 15).map fun i => (i + 1, { mask := lanesOf (2 ^ (i + 17)), pc := 0x400800 })) }) (base 12))) (fun e r => let f := fl (a := 6) (tail := lit 0x38); (badTarget (e.target f.lit) e.act).isNone && !e.g.fold && !e.q.folded && decide ((freeEntries e.g).length + 1 < 2) && lanesWhere (fun l => inLanes e.act l && cond e r f.op l) == 0x0AAAA),
    okC Forms.bra (fl (a := 6) (tail := lit 0x38)) (vr 6 (fun l => l % 2) (onGang (fun g => { g with fold := true, paths := ((g.paths.upd 0 fun q => { q with mask := 0x1FFFF }) ++ (List.range 15).map fun i => (i + 1, { mask := lanesOf (2 ^ (i + 17)), pc := 0x400800 })) }) (base 12))) (fun e r => let f := fl (a := 6) (tail := lit 0x38); (badTarget (e.target f.lit) e.act).isNone && e.g.fold && !e.q.folded && decide ((freeEntries e.g).length + 1 < 2) && lanesWhere (fun l => inLanes e.act l && cond e r f.op l) == 0x0AAAA),
    okC Forms.bra (fl (a := 6) (tail := lit 0x38)) (vr 6 (fun l => l % 2) (onGang (fun g => { g with fold := true, foldArr := allLanes.map fun l => (l, { pc := word placePc, cl := (g.paths.val {} 0).cl }) }) (onPath (fun q => { q with folded := true }) (base 12)))) (fun e _ => let f := fl (a := 6) (tail := lit 0x38); (badTarget (e.target f.lit) e.act).isNone && e.q.folded && e.grp == lanesOf (2 ^ 32 - 1)),
    okC Forms.callx (fl (a := 6) (d := 4)) (vr 6 (fun l => 0x400200) (onPath (fun q => { q with depth := 63 }) (base 8))) (fun e r => decide (63 ≤ e.deepest) && e.act != 0 && (xTrap e r).isNone),
    okC Forms.split (fl (opt := 1)) (onGang (fun g => { g with nest := allLanes.map fun l => (l, 1) }) (base 8)) (fun e _ => e.act == 0),
    okC Forms.split (fl (opt := 1)) (onGang (fun g => { g with nest := [(9, 1)] }) (base 8)) (fun e _ => e.act != 0)] : List Bool).all id = true := by
  decide +kernel

/-- States and operands for the hypotheses of RejoinExit. -/
theorem test_meets_RejoinExit : ([
    okC Forms.rejoin (fl (cls := 1) (a := 6)) (sr [(6, 0xFFFFFFFF)] (base 8)) (fun e r => !e.q.folded && decide (e.q.mask ≠ 0 ∧ lanesOf (e.sa r).toNat &&& ~~~e.q.mask = 0) && (e.g.paths.all fun x => x.1 == e.p || (decide (x.2.state ≠ .rejoin) && !x.2.folded)) && decide (Tab.wf e.g.paths)),
    okC Forms.rejoin (fl (tail := lit 0x1FF)) (onPath (fun q => { q with mask := 0x1FF }) (onGang (fun g => { g with paths := g.paths.ins 3 { mask := 0x200, state := .rejoin, wmask := 1 } }) (base 12))) (fun e _ => !e.q.folded),
    okE (onGang (fun g => { g with nest := [(31, 1)] }) (base 4)) (fun e => !e.badPlace 4 true 0 && e.act != 0 && roomB e (regsS Forms.exit (sf 0 0)) {} (e.goto (e.clauseEnd 4) id e.hw)),
    okC Forms.rejoin (fl (tail := lit 0x1FF)) (onPath (fun q => { q with mask := 0x3FF }) (base 12)) (fun e _ => let f := fl (tail := lit 0x1FF); !e.q.folded && decide (e.q.mask ≠ 0 ∧ lanesOf f.lit &&& ~~~e.q.mask = 0) && (e.g.paths.all fun x => x.1 == e.p || (decide (x.2.state ≠ .rejoin) && !x.2.folded)) && decide (Tab.wf e.g.paths)),
    okE (onGang (fun g => { g with nest := allLanes.map fun l => (l, 1) }) (base 4)) (fun e => !e.badPlace 4 true 0 && e.act == 0),
    okE (onGang (fun g => { g with nest := [(31, 1)] }) (base 4)) (fun e => let s := onGang (fun g => { g with nest := [(31, 1)] }) (base 4); !e.badPlace 4 true 0 && e.act != 0 && !e.q.folded && e.q.state == .ready && (e.g.paths.all fun x => decide (x.2.state ≠ .rejoin) && !x.2.folded) && (match s.hw.blocks.look e.g.block with | some b => b.bar.arrived.isEmpty && b.nbars.all fun x => x.2.arrived.isEmpty | none => true) && e.q.mask != e.act),
    okE (onGang (fun g => { g with paths := (g.paths.upd 0 fun q => { q with mask := 3 }).ins 5 { mask := 12 } }) (base 4)) (fun e => let s := onGang (fun g => { g with paths := (g.paths.upd 0 fun q => { q with mask := 3 }).ins 5 { mask := 12 } }) (base 4); !e.badPlace 4 true 0 && e.act != 0 && !e.q.folded && e.q.state == .ready && (e.g.paths.all fun x => decide (x.2.state ≠ .rejoin) && !x.2.folded) && (match s.hw.blocks.look e.g.block with | some b => b.bar.arrived.isEmpty && b.nbars.all fun x => x.2.arrived.isEmpty | none => true) && e.q.mask == e.act && e.g.paths.any fun x => x.1 != e.p),
    okE (base 4) (fun e => let s := base 4; !e.badPlace 4 true 0 && e.act != 0 && !e.q.folded && e.q.state == .ready && (e.g.paths.all fun x => decide (x.2.state ≠ .rejoin) && !x.2.folded) && (match s.hw.blocks.look e.g.block with | some b => b.bar.arrived.isEmpty && b.nbars.all fun x => x.2.arrived.isEmpty | none => true) && e.q.mask == e.act && e.g.paths.all fun x => x.1 == e.p)] : List Bool).all id = true := by
  decide +kernel

/-- States and operands for the hypotheses of ScratchAccess: accesses at the last bytes of the block, one byte further, and misaligned. -/
theorem test_meets_ScratchAccess : ([
    okF Forms.lds (fl (ty := .i32) (d := 5) (a := 6) (opt := 2)) (block (vr 6 (fun l => 32764 - 4 * l) (base 8))) (fun e r => let f := fl (ty := .i32) (d := 5) (a := 6) (opt := 2); let x := scrAddr e r f; !e.acquiring && (allLanes.all fun l => x l % 4 == 0 && decide (x l + 4 ≤ e.scrBytes) && !unitBusy e.hw e.blk (swz (x l) (rotOf f))) && roomB e r (e.put r fun _ => 0) (touchScr e.hw e.g.block (e.acts.map fun l => swz (x l) (rotOf f)) false)),
    okF Forms.lds (fl (ty := .i32) (d := 5) (a := 6) (opt := 2)) (block (vr 6 (fun l => if 5 ≤ l then 2 else 0) (base 8))) (fun e r => let f := fl (ty := .i32) (d := 5) (a := 6) (opt := 2); let x := scrAddr e r f; x 5 % 4 ≠ 0 ∧ (List.range 5).all (fun l => x l % 4 == 0)),
    okF Forms.lds (fl (ty := .i32) (d := 5) (a := 6) (opt := 2)) (block (vr 6 (fun l => if l = 5 then 32768 else 0) (base 8))) (fun e r => let f := fl (ty := .i32) (d := 5) (a := 6) (opt := 2); let x := scrAddr e r f; e.scrBytes < x 5 + 4 ∧ allLanes.all (fun l => x l % 4 == 0) ∧ (List.range 5).all (fun l => decide (x l + 4 ≤ e.scrBytes))),
    okF Forms.ldc (fl (ty := .i32) (d := 5) (a := 6) (opt := 2)) (onBlock id (launched (2 ^ 34 + 2 ^ 33) (vr 6 (fun l => 32764 - 4 * l) (base 8)))) (fun e r => let f := fl (ty := .i32) (d := 5) (a := 6) (opt := 2); let x := scrAddr e r f; !e.acquiring && (allLanes.all fun l => x l % 4 == 0 && !clusterOut e (x l) 4) && roomB e r { ops := [{ e.newOp r (.ldc [] [] f.ty) with dst := e.dest r }] } e.hw),
    (let hw := (flying { op10 (.scopy 0 none 0 0 0 4 [] []) with id := 11 } (flying (op10 (.stc [] 4)) (block (base 8)))).hw; hw.ops.all fun o => o.id == 11 || (match o.kind with | .scopy b .. => b != 0 | .pass x => x.blk != 0 | .copy c => c.blk != 0 | .atrans x => x.blk != 0 | _ => true)),
    okF Forms.sts (fl (ty := .b32) (d := 5) (a := 6) (opt := 2)) (block (vr 6 (fun l => 32764 - 4 * (l / 2)) (vr 5 (fun l => l) (base 8)))) (fun e r => let f := fl (ty := .b32) (d := 5) (a := 6) (opt := 2); let x := scrAddr e r f; !e.acquiring && (allLanes.all fun l => x l % 4 == 0 && decide (x l + 4 ≤ e.scrBytes) && !unitBusy e.hw e.blk (swz (x l) (rotOf f))) && e.hw.blocks.has e.g.block && roomB e r {} (touchScr e.hw e.g.block (e.acts.map fun l => swz (x l) (rotOf f)) true)),
    okF Forms.stc (fl (ty := .b32) (d := 5) (a := 6) (opt := 2)) (onBlock id (launched (2 ^ 34 + 2 ^ 33) (vr 6 (fun l => 32764 - 4 * l) (base 8)))) (fun e r => let f := fl (ty := .b32) (d := 5) (a := 6) (opt := 2); let x := scrAddr e r f; !e.acquiring && (allLanes.all fun l => x l % 4 == 0 && !clusterOut e (x l) 4) && roomB e r { ops := [e.newOp r (.stc [] 4)] } e.hw),
    okF Forms.satom (fl (ty := .n32) (d := 5) (a := 6) (opt := 2)) (block (vr 6 (fun l => 32764 - 4 * (l / 2)) (vr 5 (fun l => l) (base 8)))) (fun e r => let f := fl (ty := .n32) (d := 5) (a := 6) (opt := 2); let x := scrAddr e r f; !e.acquiring && (allLanes.all fun l => x l % 4 == 0 && decide (x l + 4 ≤ e.scrBytes) && !unitBusy e.hw e.blk (swz (x l) (rotOf f))) && roomB e r { v := e.acts.map fun l => (32 * r.d + l, 0) } (touchScr e.hw e.g.block (e.acts.map fun l => swz (x l) (rotOf f)) true)),
    okF Forms.scas (fl (ty := .b32) (d := 5) (a := 6) (opt := 2) (tail := ex 8)) (block (vr 6 (fun l => 32764 - 4 * (l / 2)) (vr 5 (fun l => l) (base 16)))) (fun e r => let f := fl (ty := .b32) (d := 5) (a := 6) (opt := 2) (tail := ex 8); let x := scrAddr e r f; !e.acquiring && (allLanes.all fun l => x l % 4 == 0 && decide (x l + 4 ≤ e.scrBytes) && !unitBusy e.hw e.blk (swz (x l) (rotOf f))) && roomB e r { v := e.acts.map fun l => (32 * r.d + l, 0) } (touchScr e.hw e.g.block (e.acts.map fun l => swz (x l) (rotOf f)) true))] : List Bool).all id = true := by
  decide +kernel

/-- States and operands for the hypotheses of ScratchCopies. -/
theorem test_meets_ScratchCopies : ([
    okF Forms.scopy (fl (cls := 3) (d := 5) (a := 6) (b := 7) (tail := ex)) (block (sr [(5, 32760), (6, 0), (7, 8)] (base 16))) (fun e r => let f := fl (cls := 3) (d := 5) (a := 6) (b := 7) (tail := ex); let d := (e.sd r).toNat; let a := (e.sa r).toNat; let n := (e.sb r).toNat; d + n ≤ e.scrBytes ∧ a + n ≤ e.scrBytes ∧ n ≠ 0 ∧ !e.acquiring ∧ (rotated d (bits 2 0 f.imm) n ++ rotated a (bits 5 3 f.imm) n).all (fun y => !unitBusy e.hw e.blk y) ∧ copiesOn e.hw e.core < 32 ∧ (bits 2 0 f.imm = 0 ∧ bits 5 3 f.imm = 0 ∨ d % 16 = 0 ∧ a % 16 = 0 ∧ n % 16 = 0) ∧ roomB e r { ops := [e.newOp r (.scopy 0 none 0 d 0 n [] [])] } e.hw),
    okF Forms.sfill (fl (cls := 3) (d := 5) (a := 6) (b := 7) (tail := ex 0 1)) (block (sr [(5, 32752), (6, 9), (7, 16)] (base 16))) (fun e r => let f := fl (cls := 3) (d := 5) (a := 6) (b := 7) (tail := ex 0 1); let d := (e.sd r).toNat; let n := (e.sb r).toNat; d + n ≤ e.scrBytes ∧ n ≠ 0 ∧ !e.acquiring ∧ (rotated d (bits 2 0 f.imm) n).all (fun y => !unitBusy e.hw e.blk y) ∧ copiesOn e.hw e.core < 32 ∧ (bits 2 0 f.imm = 0 ∧ bits 5 3 f.imm = 0 ∨ d % 16 = 0 ∧ n % 16 = 0) ∧ roomB e r { ops := [e.newOp r (.scopy 0 none 0 d 0 n [] [])] } e.hw),
    (let s := flying (op10 (.scopy 0 (some (0, 0)) 0 32760 0 8 [] [])) (onBlock (fun b => { b with scr := [(0, 1), (7, 2)] }) (launched (2 ^ 34) (base 8))); (match s.hw.op 10, s.hw.blocks.look 0 with | some o, some b => (match o.kind with | .scopy blk src _ dst kd len _ _ => blk == 0 && (let fr := (match src with | some (a, ks) => rotated a ks len | none => []); ((rotated dst kd len ++ fr).all fun y => !unitBusy s.hw b y) && (let h := touchScrOf 10 (touchScrOf 10 s.hw blk fr false) blk (rotated dst kd len) true; (h.blocks.look blk).isSome && decide (h.op 10 = some o))) | _ => false) | _, _ => false)),
    (let s := flying (op10 (.scopy 0 none 0x0102030405060708 16 0 8 [] [5])) (onBlock (fun b => { b with scr := [(20, 9)] }) (launched (2 ^ 34) (base 8))); (match s.hw.op 10, s.hw.blocks.look 0 with | some o, some b => (match o.kind with | .scopy blk src _ dst kd len _ _ => blk == 0 && (let fr := (match src with | some (a, ks) => rotated a ks len | none => []); ((rotated dst kd len ++ fr).all fun y => !unitBusy s.hw b y) && (let h := touchScrOf 10 (touchScrOf 10 s.hw blk fr false) blk (rotated dst kd len) true; (h.blocks.look blk).isSome && decide (h.op 10 = some o))) | _ => false) | _, _ => false)),
    (let s := flying (op10 (.ldc [(3, 0, 8), (4, 1, 8)] [] .i32)) (onBlock (fun b => { b with started := true, scr := [(8, 0xFF), (9, 0xFF), (10, 0xFF), (11, 0xFF)] }) (launched (2 ^ 34 + 2 ^ 33) (base 8))); (match s.hw.op 10, s.hw.gangs.look gk, s.hw.blocks.look 0 with | some o, some g, some b => nextRank o.kind == some 0 && groupBlock s.hw b 0 == some g.block && o.after.isEmpty && runsOn s.hw b.core b.ctx && !unitBusy s.hw b 8 | _, _, _ => false)),
    (let s := flying { op10 (.ldc [(3, 0, 8)] [] .i32) with dst := .vec 5 8 0 } (onBlock (fun b => { b with started := true, scr := [(8, 0xFF)] }) (launched (2 ^ 34 + 2 ^ 33) (base 8))); (match s.hw.op 10, s.hw.gangs.look gk, s.hw.blocks.look 0 with | some o, some g, some b => nextRank o.kind == some 0 && groupBlock s.hw b 0 == some g.block && runsOn s.hw b.core b.ctx && !unitBusy s.hw b 8 | _, _, _ => false)),
    (let s := flying (op10 (.stc [(3, 0, 8, 0x1234), (4, 1, 8, 0)] 4)) (onBlock (fun b => { b with started := true }) (launched (2 ^ 34 + 2 ^ 33) (base 8))); (match s.hw.op 10, s.hw.gangs.look gk, s.hw.blocks.look 0 with | some o, some g, some b => nextRank o.kind == some 0 && groupBlock s.hw b 0 == some g.block && runsOn s.hw b.core b.ctx && !unitBusy s.hw b 8 | _, _, _ => false)),
    (let s := flying (op10 (.stc [(3, 0, 8, 0x1234)] 4)) (onBlock (fun b => { b with started := true }) (launched (2 ^ 34 + 2 ^ 33) (base 8))); (match s.hw.op 10, s.hw.gangs.look gk, s.hw.blocks.look 0 with | some o, some g, some b => nextRank o.kind == some 0 && groupBlock s.hw b 0 == some g.block && runsOn s.hw b.core b.ctx && !unitBusy s.hw b 8 | _, _, _ => false))] : List Bool).all id = true := by
  decide +kernel

/-- States and operands for the hypotheses of GlobalAccess: an access through a handle at its last byte, by a blocking form and by one that sets a flag; and each trap. -/
theorem test_meets_GlobalAccess : ([
    okF Forms.ld (fl (ty := .i32) (d := 5) (opt := 1) (tail := ex 0 (4 * 4096 + 1))) (handle 1 0x400000 8 (base 16)) (fun e r => let f := fl (ty := .i32) (d := 5) (opt := 1) (tail := ex 0 (4 * 4096 + 1)); !e.tableFull && (let n : Need := { spaces := fun sp => sp != 4 && (r.fsel == 0 || sp == 0), r := true, width := 4, rd := true }; match e.check n (r.sh.d == .s) (e.refs r f r.b) with | .ok es hw => (commit e r.keep { ops := [{ e.newOp r (.load es f.ty) with dst := e.dest r }] } hw).isSome | .stop _ => false)),
    okF Forms.ld (fl (ty := .i32) (d := 5) (opt := 1) (tail := ex 0 (8 * 4096 + 1))) (handle 1 0x400000 8 (base 16)) (fun e r => let f := fl (ty := .i32) (d := 5) (opt := 1) (tail := ex 0 (8 * 4096 + 1)); !e.tableFull && (let n : Need := { spaces := fun sp => sp != 4 && (r.fsel == 0 || sp == 0), r := true, width := 4, rd := true }; match e.check n (r.sh.d == .s) (e.refs r f r.b) with | .stop (.trap t) => t.cause == 5 | _ => false)),
    okF Forms.gath (fl (ty := .b64) (d := 5) (a := 6) (tail := ex) (fsel := 1)) (handle 1 0x400000 256 (vr 6 (fun l => 2 ^ 52 + 8 * l) (base 16))) (fun e r => let f := fl (ty := .b64) (d := 5) (a := 6) (tail := ex) (fsel := 1); !e.tableFull && (let n : Need := { spaces := fun sp => sp != 4 && (r.fsel == 0 || sp == 0), r := true, width := 8, rd := true }; match e.check n (r.sh.d == .s) (e.gathRefs r f) with | .ok es hw => roomB e r { ops := [{ e.newOp r (.load es f.ty) with dst := e.dest r }] } hw | .stop _ => false)),
    okF Forms.gath (fl (ty := .b64) (d := 5) (a := 6) (tail := ex)) (handle 1 0x400004 256 (vr 6 (fun l => 2 ^ 52 + 8 * l) (base 16))) (fun e r => let f := fl (ty := .b64) (d := 5) (a := 6) (tail := ex); !e.tableFull && (let n : Need := { spaces := fun sp => sp != 4 && (r.fsel == 0 || sp == 0), r := true, width := 8, rd := true }; match e.check n (r.sh.d == .s) (e.gathRefs r f) with | .stop (.trap t) => t.cause == 8 | _ => false)),
    okF Forms.st (fl (ty := .b8) (d := 5) (opt := 1) (tail := ex 0 (7 * 4096 + 1))) (handle 1 0x400000 8 (base 16)) (fun e r => let f := fl (ty := .b8) (d := 5) (opt := 1) (tail := ex 0 (7 * 4096 + 1)); !e.counterFull && (let n : Need := { spaces := fun _ => true, w := true, width := 1, wr := true }; match e.check n (r.sh.d == .s) (e.refs r f r.b) with | .ok es hw => roomB e r { ops := [{ e.newOp r (.store es 1) with counts := true }] } hw | .stop _ => false)),
    okF Forms.st (fl (ty := .b8) (d := 5) (opt := 1) (tail := ex 0 1)) (base 16) (fun e r => let f := fl (ty := .b8) (d := 5) (opt := 1) (tail := ex 0 1); !e.counterFull && (let n : Need := { spaces := fun _ => true, w := true, width := 1, wr := true }; match e.check n (r.sh.d == .s) (e.refs r f r.b) with | .stop (.trap t) => t.cause == 6 | _ => false)),
    okF Forms.scat (fl (ty := .b64) (d := 5) (a := 6) (tail := ex) (fsel := 1)) (handle 1 0x400000 256 (vr 6 (fun l => 2 ^ 52 + 8 * (l / 2)) (base 16))) (fun e r => let f := fl (ty := .b64) (d := 5) (a := 6) (tail := ex) (fsel := 1); !e.counterFull && (let n : Need := { spaces := fun _ => true, w := true, width := 8, wr := true }; match e.check n (r.sh.d == .s) (e.gathRefs r f) with | .ok es hw => roomB e r { ops := [{ e.newOp r (.store es 8) with counts := true }] } hw | .stop _ => false)),
    okF Forms.scat (fl (ty := .b64) (d := 5) (a := 6) (tail := ex)) (base 16) (fun e r => let f := fl (ty := .b64) (d := 5) (a := 6) (tail := ex); !e.counterFull && (let n : Need := { spaces := fun _ => true, w := true, width := 8, wr := true }; match e.check n (r.sh.d == .s) (e.gathRefs r f) with | .stop (.trap _) => true | _ => false)),
    okF Forms.pref (fl (opt := 1) (tail := ex)) (base 16) (fun e r => let f := fl (opt := 1) (tail := ex); roomB e r {} (e.prefetch f r)),
    (let s := poke 0x400000 4 0x80000001 (flying { op10 (.load [{ lane := 3, tgt := { pa := 0x400000 } }] .i32) with dst := .vec 5 8 0 } (base 8)); (match s.hw.op 10 with | some o => o.chain.isNone && clear s.hw o { lane := 3, tgt := { pa := 0x400000 } } 4 true | none => false))] : List Bool).all id = true := by
  decide +kernel

/-- States and operands for the hypotheses of AccessOrder. -/
theorem test_meets_AccessOrder : ([
    okE (handle 1 0x400000 8 (base 8)) (fun e => let n : Need := { spaces := fun _ => true, r := true, width := 4 }; let cs := (laneChecks e.hw e.s.mem e.part e.ctx n [⟨0, 1, 0⟩, ⟨3, 1, 8⟩, ⟨4, 1, 5⟩]).1; (cs.any fun x => match x.2.bad with | some b => b.1 == 2 | none => false) && cs.all fun x => match x.2.bad with | some b => decide (2 ≤ b.1) | none => true),
    okE (base 8) (fun e => let n : Need := { spaces := fun _ => true, r := true, width := 4 }; handleBad e.hw e.part e.ctx 1 n (readHandle e.hw e.s.mem e.part e.ctx 1)),
    okE (handle 1 0x400000 8 (base 8)) (fun e => let n : Need := { spaces := fun _ => true, r := true, width := 4 }; !handleBad e.hw e.part e.ctx 1 n (readHandle e.hw e.s.mem e.part e.ctx 1) && decide ((readHandle e.hw e.s.mem e.part e.ctx 1).len < 5 + 4)),
    okE (handle 1 0x400000 8 (base 8)) (fun e => let n : Need := { spaces := fun _ => true, r := true, width := 4 }; let h := readHandle e.hw e.s.mem e.part e.ctx 1; !handleBad e.hw e.part e.ctx 1 n h && decide (3 + 4 ≤ h.len) && decide ((h.base + 3) % 4 ≠ 0))] : List Bool).all id = true := by
  decide +kernel

/-- States and operands for the hypotheses of HandlesTranslation: handle words, each outcome of a translation, flushes of a good, a short and no handle. -/
theorem test_meets_HandlesTranslation1 : ([
    okF Forms.hget (fl (cls := 3) (opt := 1) (d := 5) (a := 6)) (handle 1 0x400000 8 (sr [(6, 0x10001)] (base 8))) (fun e r => let f := fl (cls := 3) (opt := 1) (d := 5) (a := 6); !badBits e r && decide (e.sup = true ∨ bits 31 16 (e.sa r).toNat = e.ctx) && entryOf e r f.op == some 40 && roomB e r (putS r (rdNat e.s.mem e.part 40 8)) e.hw),
    okF Forms.hset (fl (cls := 3) (opt := 1) (a := 6) (b := 7)) (sup (sr [(6, 0x10001), (7, 9)] (base 8))) (fun e r => let f := fl (cls := 3) (opt := 1) (a := 6) (b := 7); !badBits e r && entryOf e r f.op == some 40),
    okF Forms.hset (fl (cls := 3) (opt := 1) (a := 6) (b := 7)) (sup (sr [(6, 0x1FFFFFFFF), (7, 9)] (base 8))) (fun e r => let f := fl (cls := 3) (opt := 1) (a := 6) (b := 7); badBits e r || (entryOf e r f.op).isNone),
    okA (onPath (fun q => { q with state := .parked, wait := .table 40 9 1, form := some (regsF Forms.hset (fl (cls := 3))) }) (sup { base 8 with time := 0 })) placeRef (fun e => let s := onPath (fun q => { q with state := .parked, wait := .table 40 9 1, form := some (regsF Forms.hset (fl (cls := 3))) }) (sup { base 8 with time := 0 }); runsOn s.hw e.core e.ctx && decide (e.q.wait = .table 40 9 1) && decide (s.time < 1)),
    okA (onPath (fun q => { q with state := .parked, wait := .table 40 9 1, form := some (regsF Forms.hset (fl (cls := 3))) }) (sup { base 8 with time := 5 })) placeRef (fun e => let s := onPath (fun q => { q with state := .parked, wait := .table 40 9 1, form := some (regsF Forms.hset (fl (cls := 3))) }) (sup { base 8 with time := 5 }); runsOn s.hw e.core e.ctx && decide (e.q.wait = .table 40 9 1) && decide (1 ≤ s.time ∧ (s.hw.part e.part).leases.val 0 (lineOf 40) + 2 ≤ s.time) && !lineBlocked s.hw e.part 40 && ((s.hw.part e.part).pend.all fun w => lineOf w.addr != lineOf 40)),
    okF Forms.xlat (fl (cls := 3) (opt := 2) (d := 5) (a := 6) (b := 7)) (sup (sr [(6, 65536)] (base 8))) (fun e r => decide (65536 ≤ (e.sa r).toNat)),
    okF Forms.xlat (fl (cls := 3) (opt := 1) (d := 5) (a := 6) (b := 7)) (sup (sr [(6, 65536)] (base 8))) (fun e r => decide (65536 ≤ (e.sa r).toNat)),
    okF Forms.xlat (fl (cls := 3) (opt := 0) (d := 5) (a := 6) (b := 7)) (sup (sr [(6, 65536)] (base 8))) (fun e r => decide (65536 ≤ (e.sa r).toNat)),
    okF Forms.xlat (fl (cls := 3) (d := 5) (a := 6) (b := 7)) (sup (sr [(6, 65535)] (base 8))) (fun e r => decide ((e.sa r).toNat < 65536) && decide (e.q.wait = .none) && decide (waitEntries e.hw e.core < 512)),
    okF Forms.xlat (fl (cls := 3) (d := 5) (a := 6) (b := 7)) (onPath (fun q => { q with wait := .go true }) (sup (sr [(6, 65535)] (base 8)))) (fun e r => decide (e.q.wait = .go true) && decide ((e.sa r).toNat < 65536) && (e.hw.ctx e.part (e.sa r).toNat).isNone && roomB e r (putS r 0) e.hw),
    okF Forms.xlat (fl (cls := 3) (d := 5) (a := 6) (b := 7)) (onPath (fun q => { q with wait := .go true }) (sup (sr [(6, 1), (7, 2 ^ 40)] (base 8)))) (fun e r => decide (e.q.wait = .go true) && (e.hw.ctx e.part (e.sa r).toNat).isSome && (match translate e.hw e.s.mem e.part 1 (e.sb r).toNat with | (.error _, hw) => roomB e r (putS r 0) hw | _ => false)),
    okF Forms.xlat (fl (cls := 3) (d := 5) (a := 6) (b := 7)) (onPath (fun q => { q with wait := .go true }) (sup (sr [(6, 1), (7, 0x400123)] (base 8)))) (fun e r => decide (e.q.wait = .go true) && (e.hw.ctx e.part (e.sa r).toNat).isSome && (match translate e.hw e.s.mem e.part 1 (e.sb r).toNat with | (.ok _, hw) => roomB e r (putS r 0) hw | _ => false)),
    okF Forms.xlat (fl (cls := 3) (opt := 1) (d := 5) (a := 6) (b := 7)) (onPart (fun q => { q with tcache := [(2 ^ 41 + 0x40, [⟨5, 2⟩])] }) (sup (sr [(6, 1), (7, 0x400123)] (base 8)))) (fun e r => !e.tableFull && (e.hw.ctx e.part (e.sa r).toNat).isSome && roomB e r (putS r e.now) ((e.hw.setPart e.part fun q => { q with tcache := [] }).setCore e.core fun k => { k with wtPeak := Nat.max k.wtPeak (waitEntries e.hw e.core + 1) })),
    okF Forms.xlat (fl (cls := 3) (opt := 2) (d := 5) (a := 6)) (onGang (fun g => { g with reds := [{ tgt := { pa := 0x40000010 }, op := 0, ty := .i32, rank := none, part := [] }] }) (onPart (fun q => { q with tcache := [(2 ^ 41 + 0x40, [⟨0x40000000, 2⟩])] }) (sup (sr [(6, 1)] (base 8))))) (fun e r => !e.tableFull && (e.hw.ctx e.part (e.sa r).toNat).isSome),
    okF Forms.xlat (fl (cls := 3) (opt := 2) (d := 5) (a := 6)) (flying (op10 (.load [] .b32)) (onPart (fun q => { q with tcache := [(2 ^ 41 + 0x40, [⟨5, 2⟩]), (2 ^ 42, [⟨5, 2⟩])] }) (sup (sr [(6, 1), (7, 0x400123)] (base 8))))) (fun e r => !e.tableFull && (e.hw.ctx e.part (e.sa r).toNat).isSome),
    (let s := base 8; (match walk s.hw s.mem 0 1 0x400123 with | .ok x => !((leafTrans x.leaf x.level 0x400123).kind == 0 && decide (partBytes s.hw 0 ≤ (leafTrans x.leaf x.level 0x400123).pa)) | .error _ => false)),
    okE (onPart (fun q => { q with landed := 5, fenced := [(gk, 3)] }) (onPath (fun q => { q with mask := 0 }) (base 4))) (fun e => !e.badPlace 4 false 0 && e.ready (regsS Forms.icinv (sf 0 0)) && roomB e (regsS Forms.icinv (sf 0 0)) {} (e.hw.setCore e.core fun c => { c with syncs := ⟨(e.hw.part e.part).landed, (e.hw.part e.part).fenced⟩ :: c.syncs })),
    okF Forms.hflush (fl (cls := 3) (d := 5) (a := 6) (tail := ex 0 1)) (handle 1 0x400000 8 (base 16)) (fun e r => !e.counterFull && roomB e r (putS r 0) e.hw),
    okF Forms.hflush (fl (cls := 3) (d := 5) (a := 6) (tail := ex 0 1)) (base 16) (fun e r => let f := fl (cls := 3) (d := 5) (a := 6) (tail := ex 0 1); let b := e.refBase f false r.b; handleBad e.hw e.part e.ctx b.1 { spaces := fun sp => sp == 0 || sp == 1 || sp == 3, r := true, width := 1 } (readHandle e.hw e.s.mem e.part e.ctx b.1)),
    okF Forms.hflush (fl (cls := 3) (d := 5) (a := 6) (tail := ex 0 1)) (handle 1 0x400000 8 (sr [(6, 9)] (base 16))) (fun e r => let f := fl (cls := 3) (d := 5) (a := 6) (tail := ex 0 1); let b := e.refBase f false r.b; let hd := readHandle e.hw e.s.mem e.part e.ctx b.1; !handleBad e.hw e.part e.ctx b.1 { spaces := fun sp => sp == 0 || sp == 1 || sp == 3, r := true, width := 1 } hd && decide (hd.len < b.2.1 + (e.sa r).toNat))] : List Bool).all id = true := by
  decide +kernel

/-- The same, continued. -/
theorem test_meets_HandlesTranslation2 : ([
    okF Forms.hflush (fl (cls := 3) (d := 5) (a := 6) (tail := ex 0 1)) (handle 1 0x400000 8 (sr [(6, 8)] (base 16))) (fun e r => let f := fl (cls := 3) (d := 5) (a := 6) (tail := ex 0 1); let b := e.refBase f false r.b; let hd := readHandle e.hw e.s.mem e.part e.ctx b.1; let n := (e.sa r).toNat; let x := flushSpans e.s.mem e.part e.ctx hd.space hd.tgt (hd.base + b.2.1 + n) (n / 65536 + 2) (hd.base + b.2.1) e.hw; !handleBad e.hw e.part e.ctx b.1 { spaces := fun sp => sp == 0 || sp == 1 || sp == 3, r := true, width := 1 } hd && decide (b.2.1 + n ≤ hd.len) && roomB e r { ops := [{ e.newOp r (.hflush x.1 x.2.1) with counts := true, dst := e.dest r }] } x.2.2),
    (let s := flying { op10 (.hflush [({ pa := 0x400000 }, 8)] 3) with dst := .scal 5 1 0 } (base 8); (match s.hw.op 10 with | some o => (match o.kind with | .hflush sp _ => sp.all fun x => x.1.space == 0 | _ => false) | none => false))] : List Bool).all id = true := by
  decide +kernel

/-- States and operands for the hypotheses of WriteOrder: a store in the shadow of a lease and of an earlier write of its line; outside writes and reads at the end of memory; a line the host holds. -/
theorem test_meets_WriteOrder : ([
    (let s := onPart (fun q => { q with pend := [{ w := 9, addr := 0x400004, bytes := [1#8] }], leases := [(0x8000, 30)] }) (flying (op10 (.store [{ lane := 3, tgt := { pa := 0x400000 }, val := 7 }] 8)) (base 8)); (match s.hw.op 10 with | some o => clear s.hw o { lane := 3, tgt := { pa := 0x400000 }, val := 7 } 8 false && !lineHeld s.hw 0 0x8000 10 && !(s.hw.part 0).link.hostLines.contains 0x8000 && (match s.hw.ctx 0 1 with | some cx => !cx.tail.en | none => true) | none => false)),
    (let s := flying (op10 (.store [{ lane := 3, tgt := { pa := 0x400000 }, st := 1, w := 70 }, { lane := 4, tgt := { pa := 0x400010 }, st := 1, w := 60 }] 8)) (base 8); (match s.hw.op 10 with | some o => o.chain.isNone && (s.hw.gangs.look o.gk).isSome | none => false)),
    (let s := onLink (fun k => { k with active := true, cxl := true }) (base 8); let n := partBytes s.hw 0; (s.hw.part 0).present && (s.hw.part 0).link.active && (s.hw.part 0).link.cxl && decide ((n - 3) + [1#8, 2#8, 3#8].length ≤ n)),
    (let s := onLink (fun k => { k with active := true, cxl := true }) (poke 0x400000 4 0x12345678 (base 8)); (s.hw.part 0).present && (s.hw.part 0).link.active && (s.hw.part 0).link.cxl && decide (0x400000 + 4 ≤ partBytes s.hw 0) && decide ((s.hw.part 0).hostW ≤ s.time)),
    (let s := onPart (fun q => { q with pend := [{ w := 9, addr := 0x400080, bytes := [3#8] }] }) (onLink (fun k => { k with active := true, cxl := true, hostLines := [0x8000, 0x8001] }) (base 8)); (s.hw.part 0).link.hostLines.contains 0x8000 && (s.hw.ops.all fun o => o.kind.elems.all fun x => x.st != 4) && ((s.hw.part 0).pend.all fun w => !w.blocked) && (s.hw.ops.all fun o => match o.kind with | .partialSum _ _ _ _ c => !c | _ => true)),
    (let hw := (onPart (fun q => { q with pend := [{ w := 9, addr := 0x400080, bytes := [3#8], blocked := true }, { w := 10, addr := 0x400100, bytes := [4#8], blocked := true }] }) (onLink (fun k => { k with hostLines := [0x8002] }) (base 8))).hw; ((unblock hw 0 20).part 0).pend.length == 2 && ((hw.part 0).pend.all fun w => w.blocked))] : List Bool).all id = true := by
  decide +kernel

/-- States and operands for the hypotheses of WritesBecomeVisible. -/
theorem test_meets_WritesBecomeVisible : ([
    (let s := onPart (fun q => { q with pend := [{ w := 9, addr := 0x400004, bytes := [1#8] }, { w := 11, addr := 0x400004, bytes := [2#8, 3#8] }, { w := 12, addr := 0x400004, bytes := [5#8] }, { w := 9, addr := 0x400080, bytes := [5#8], blocked := true }] }) (onLink (fun k => { k with hostLines := [0x8001] }) (base 8)); Tab.wf s.hw.parts && (s.hw.parts.all fun p => (p.2.contexts.all fun c => !c.2.tail.en) && p.2.pend.all fun w => !w.full))] : List Bool).all id = true := by
  decide +kernel

/-- States and operands for the hypotheses of FencesAndTime: each form with its operations over and with one in flight, and each wait that ends or goes on. -/
theorem test_meets_FencesAndTime1 : ([
    okS Forms.fence (sf 4) (base 4) (fun e _ => fenceDone e.hw e.gk 4 e.hw.nextId e.now),
    okS Forms.fence (sf 2) (base 4) (fun e _ => fenceDone e.hw e.gk 2 e.hw.nextId e.now),
    okS Forms.fence (sf 0) (flying (op10 (.store [{ lane := 0, tgt := {} }] 8)) (base 4)) (fun e _ => !fenceDone e.hw e.gk 0 e.hw.nextId e.now),
    okS Forms.sfence (sf) (base 4) (fun e r => sfenceDone e.hw e.gk e.hw.nextId && roomB e r {} e.hw),
    okS Forms.sfence (sf) (flying (op10 (.stc [] 8)) (base 4)) (fun e _ => !sfenceDone e.hw e.gk e.hw.nextId),
    okS Forms.wdone (sf 4) (onGang (fun g => { g with maxW := 77 }) (base 4)) (fun e r => wdoneDone e.hw e.gk e.hw.nextId && roomB e r (putS r e.g.maxW) e.hw),
    okS Forms.wdone (sf 4) (flying (op10 (.store [{ lane := 0, tgt := {} }] 8)) (base 4)) (fun e _ => !wdoneDone e.hw e.gk e.hw.nextId),
    okF Forms.twait (fl (cls := 1) (a := 6)) (base 8) (fun e r => let s := base 8; let f := fl (cls := 1) (a := 6); decide ((e.sa r + word f.lit + (if f.op = 1 then word s.time else 0)).toNat ≤ s.time) && roomB e r {} e.hw),
    okF Forms.twait (fl (cls := 1) (opt := 1) (a := 6) (tail := lit 1)) (base 12) (fun e r => let s := base 12; let f := fl (cls := 1) (opt := 1) (a := 6) (tail := lit 1); decide (s.time < (e.sa r + word f.lit + (if f.op = 1 then word s.time else 0)).toNat)),
    okF Forms.tnow (fl (cls := 3) (d := 5)) (flying (op10 (.store [{ lane := 0, tgt := {} }] 8)) (base 8)) (fun e r => let s := flying (op10 (.store [{ lane := 0, tgt := {} }] 8)) (base 8); let f := fl (cls := 3) (d := 5); decide (f.op = 0 ∨ fenceDone e.hw e.gk 0 e.hw.nextId s.time = true) && roomB e r (putS r s.time) e.hw),
    okF Forms.tnow (fl (cls := 3) (opt := 1) (d := 5)) (flying (op10 (.store [{ lane := 0, tgt := {} }] 8)) (base 8)) (fun e _ => let s := flying (op10 (.store [{ lane := 0, tgt := {} }] 8)) (base 8); let f := fl (cls := 3) (opt := 1) (d := 5); decide (f.op ≠ 0) && !fenceDone e.hw e.gk 0 e.hw.nextId s.time),
    okA (onPath (fun q => { q with state := .parked, wait := .twait 5, form := some (regsF Forms.twait (fl (cls := 3) (a := 6))) }) { base 8 with time := 5 }) placeRef (fun e => let s := onPath (fun q => { q with state := .parked, wait := .twait 5, form := some (regsF Forms.twait (fl (cls := 3) (a := 6))) }) { base 8 with time := 5 }; decide (e.q.wait = .twait 5 ∧ (5 : Word).toNat ≤ s.time)),
    okA (onPath (fun q => { q with state := .parked, wait := .twait 5, form := some (regsF Forms.twait (fl (cls := 3) (a := 6))) }) { base 8 with time := 4 }) placeRef (fun e => let s := onPath (fun q => { q with state := .parked, wait := .twait 5, form := some (regsF Forms.twait (fl (cls := 3) (a := 6))) }) { base 8 with time := 4 }; decide (e.q.wait = .twait 5 ∧ s.time < (5 : Word).toNat)),
    okA (onPath (fun q => { q with state := .parked, wait := .fence 3 10, form := some (regsS Forms.fence (sf 3)) }) (flying (op10 (.store [{ lane := 0, tgt := {} }] 8)) (base 8))) placeRef (fun e => let s := onPath (fun q => { q with state := .parked, wait := .fence 3 10, form := some (regsS Forms.fence (sf 3)) }) (flying (op10 (.store [{ lane := 0, tgt := {} }] 8)) (base 8)); runsOn s.hw e.core e.ctx && decide (e.q.wait = .fence 3 10) && fenceDone s.hw e.gk 3 10 s.time),
    okA (onPath (fun q => { q with state := .parked, wait := .fence 3 11, form := some (regsS Forms.fence (sf 3)) }) (flying (op10 (.store [{ lane := 0, tgt := {} }] 8)) (base 8))) placeRef (fun e => let s := onPath (fun q => { q with state := .parked, wait := .fence 3 11, form := some (regsS Forms.fence (sf 3)) }) (flying (op10 (.store [{ lane := 0, tgt := {} }] 8)) (base 8)); runsOn s.hw e.core e.ctx && decide (e.q.wait = .fence 3 11) && !fenceDone s.hw e.gk 3 11 s.time),
    okA (onPath (fun q => { q with state := .parked, wait := .sfence 10, form := some (regsS Forms.sfence (sf 3)) }) (flying (op10 (.stc [] 8)) (base 8))) placeRef (fun e => let s := onPath (fun q => { q with state := .parked, wait := .sfence 10, form := some (regsS Forms.sfence (sf 3)) }) (flying (op10 (.stc [] 8)) (base 8)); runsOn s.hw e.core e.ctx && decide (e.q.wait = .sfence 10) && sfenceDone s.hw e.gk 10),
    okA (onPath (fun q => { q with state := .parked, wait := .sfence 11, form := some (regsS Forms.sfence (sf 3)) }) (flying (op10 (.stc [] 8)) (base 8))) placeRef (fun e => let s := onPath (fun q => { q with state := .parked, wait := .sfence 11, form := some (regsS Forms.sfence (sf 3)) }) (flying (op10 (.stc [] 8)) (base 8)); runsOn s.hw e.core e.ctx && decide (e.q.wait = .sfence 11) && !sfenceDone s.hw e.gk 11),
    okA (onPath (fun q => { q with state := .parked, wait := .wdone 10 4, form := some (regsS Forms.wdone (sf 4)) }) (flying (op10 (.store [{ lane := 0, tgt := {} }] 8)) (base 8))) placeRef (fun e => let s := onPath (fun q => { q with state := .parked, wait := .wdone 10 4, form := some (regsS Forms.wdone (sf 4)) }) (flying (op10 (.store [{ lane := 0, tgt := {} }] 8)) (base 8)); runsOn s.hw e.core e.ctx && decide (e.q.wait = .wdone 10 4) && wdoneDone s.hw e.gk 10),
    okA (onPath (fun q => { q with state := .parked, wait := .wdone 11 4, form := some (regsS Forms.wdone (sf 4)) }) (flying (op10 (.store [{ lane := 0, tgt := {} }] 8)) (base 8))) placeRef (fun e => let s := onPath (fun q => { q with state := .parked, wait := .wdone 11 4, form := some (regsS Forms.wdone (sf 4)) }) (flying (op10 (.store [{ lane := 0, tgt := {} }] 8)) (base 8)); runsOn s.hw e.core e.ctx && decide (e.q.wait = .wdone 11 4) && !wdoneDone s.hw e.gk 11),
    okA (onPath (fun q => { q with state := .parked, wait := .tnow 10 4, form := some (regsF Forms.tnow (fl (d := 4))) }) (flying (op10 (.store [{ lane := 0, tgt := {} }] 8)) (base 8))) placeRef (fun e => let s := onPath (fun q => { q with state := .parked, wait := .tnow 10 4, form := some (regsF Forms.tnow (fl (d := 4))) }) (flying (op10 (.store [{ lane := 0, tgt := {} }] 8)) (base 8)); runsOn s.hw e.core e.ctx && decide (e.q.wait = .tnow 10 4) && fenceDone s.hw e.gk 0 10 s.time)] : List Bool).all id = true := by
  decide +kernel

/-- The same, continued. -/
theorem test_meets_FencesAndTime2 : ([
    okA (onPath (fun q => { q with state := .parked, wait := .tnow 11 4, form := some (regsF Forms.tnow (fl (d := 4))) }) (flying (op10 (.store [{ lane := 0, tgt := {} }] 8)) (base 8))) placeRef (fun e => let s := onPath (fun q => { q with state := .parked, wait := .tnow 11 4, form := some (regsF Forms.tnow (fl (d := 4))) }) (flying (op10 (.store [{ lane := 0, tgt := {} }] 8)) (base 8)); runsOn s.hw e.core e.ctx && decide (e.q.wait = .tnow 11 4) && !fenceDone s.hw e.gk 0 11 s.time)] : List Bool).all id = true := by
  decide +kernel

/-- States and operands for the hypotheses of OperationEnds. -/
theorem test_meets_OperationEnds : ([
    (let s := flying { op10 (.load [] .b32) with dst := .vec 5 0xF 0x2 } (base 8); ((s.hw.op 10).isSome && (match s.hw.gangs.look gk with | some g => (waiterOf g 10).isNone | none => false))),
    (let s := flying { op10 (.load [] .b32) with dst := .scal 5 1 0 } (base 8); ((s.hw.op 10).isSome && (match s.hw.gangs.look gk with | some g => (waiterOf g 10).isNone | none => false)))] : List Bool).all id = true := by
  decide +kernel

/-- States and operands for the hypotheses of Atomics: atom and cas that start, that trap, and that wait for their release; the performance of an add and of a cas that fails, with an acquire. -/
theorem test_meets_Atomics : ([
    okF Forms.atom (fl (ty := .i32) (cls := 0) (opt := 1) (d := 5) (b := 7) (tail := ex 0 (4 * 4096 + 1))) (handle 1 0x400000 8 (base 16)) (fun e r => let f := fl (ty := .i32) (cls := 0) (opt := 1) (d := 5) (b := 7) (tail := ex 0 (4 * 4096 + 1)); !e.counterFull && (let n : Need := { spaces := fun sp => sp == 0 || sp == 2, a := true, width := 4, rd := true, wr := true }; match e.check n (f.cl == 3) (e.refs r f r.c) with | .ok es hw => decide (bit 6 f.ext = false) && roomB e r { ops := [{ e.newOp r (.atomic es 0 f.ty [] false (bit 2 f.op)) with counts := true }] } hw | .stop _ => false)),
    okF Forms.cas (fl (ty := .b64) (cls := 0) (opt := 1) (d := 5) (b := 7) (tail := ex 0 1)) (base 16) (fun e r => let f := fl (ty := .b64) (cls := 0) (opt := 1) (d := 5) (b := 7) (tail := ex 0 1); !e.counterFull && (let n : Need := { spaces := fun sp => sp == 0 || sp == 2, a := true, width := 8, rd := true, wr := true }; match e.check n (f.cl == 3) (e.refs r f r.c) with | .stop (.trap t) => t.cause == 6 | _ => false)),
    okF Forms.cas (fl (ty := .b64) (cls := 0) (opt := 1) (d := 5) (b := 7) (tail := ex 0 1 64)) (handle 1 0x400000 8 (flying (op10 (.store [{ lane := 0, tgt := {} }] 8)) (base 16))) (fun e r => let f := fl (ty := .b64) (cls := 0) (opt := 1) (d := 5) (b := 7) (tail := ex 0 1 64); !e.counterFull && (let n : Need := { spaces := fun sp => sp == 0 || sp == 2, a := true, width := 8, rd := true, wr := true }; match e.check n (f.cl == 3) (e.refs r f r.c) with | .ok es hw => bit 6 f.ext && (e.releasing (es.any fun x => x.tgt.space == 2)).isSome | .stop _ => false)),
    (let s := poke 0x400000 4 0xFFFFFFFF (flying { op10 (.atomic [{ lane := 3, tgt := { pa := 0x400000 }, val := 2 }] 0 .i32 [] false false) with dst := .vec 5 8 0 } (base 8)); (match s.hw.op 10 with | some o => o.chain.isNone && clear s.hw o { lane := 3, tgt := { pa := 0x400000 }, val := 2 } 4 false && !lineHeld s.hw 0 0x8000 10 && (match s.hw.ctx 0 1 with | some cx => !cx.tail.en | none => true) && (s.hw.gangs.look o.gk).isSome | none => false)),
    (let s := poke 0x400000 4 5 (flying { op10 (.atomic [{ lane := 3, tgt := { pa := 0x400000 }, val := 2 }] 10 .b32 [(3, 6)] true false) with dst := .vec 5 8 0 } (base 8)); (match s.hw.op 10 with | some o => o.chain.isNone && clear s.hw o { lane := 3, tgt := { pa := 0x400000 }, val := 2 } 4 false && !lineHeld s.hw 0 0x8000 10 && (match s.hw.ctx 0 1 with | some cx => !cx.tail.en | none => true) && (s.hw.gangs.look o.gk).isSome | none => false)),
    (let s := poke 0x400000 4 5 (onPath (fun q => { q with state := .parked, wait := .op 10, form := some (regsF Forms.cas (fl (d := 5))) }) (flying { op10 (.atomic [{ lane := 3, tgt := { pa := 0x400000 }, val := 2 }] 10 .b32 [(3, 5)] true false) with dst := .vec 5 8 0 } (base 8))); (match s.hw.op 10 with | some o => o.chain.isNone && clear s.hw o { lane := 3, tgt := { pa := 0x400000 }, val := 2 } 4 false && !lineHeld s.hw 0 0x8000 10 && (match s.hw.ctx 0 1 with | some cx => !cx.tail.en | none => true) && (match s.hw.gangs.look o.gk with | some g => (waiterOf g 10).isSome | none => false) | none => false)),
    (let s := onPath (fun q => { q with state := .parked, wait := .op 10 }) (flying (op10 (.atomic [] 0 .b32 [] true false)) (base 8)); (match s.hw.op 10 with | some o => decide (s.time < s.time + 1 + 2) && (s.hw.gangs.look o.gk).isSome | none => false))] : List Bool).all id = true := by
  decide +kernel

/-- States and operands for the hypotheses of HostSectors. -/
theorem test_meets_HostSectors : ([
    (let s := flying (op10 (.store [{ lane := 0, tgt := { space := 1, pa := 64 * 9 } }] 8)) (onLink (fun k => { k with cxl := true, hostReach := true }) (base 8)); let k := (s.hw.part 0).link; k.cxl && k.hostReach && !k.sectors.has 9 && decide (k.sectors.length < 8192) && wantsSector s.hw 0 9),
    (let s := onLink (fun k => { k with cxl := true, sectors := [(9, 2, 5)] }) (poke (bridgeAddr 576) 8 3 (base 8)); (s.hw.part 0).link.sectors.look 9 == some (2, 5) && !sectorBusy s.hw 0 9),
    (let s := onLink (fun k => { k with cxl := true, sectors := (List.range 8192).map fun n => (n, 1, 5 + n) }) (base 8); let x := (s.hw.part 0).link.sectors; x.look 0 == some (1, 5) && decide (8192 ≤ x.length) && (x.all fun y => decide (5 ≤ y.2.2)) && !sectorBusy s.hw 0 0)] : List Bool).all id = true := by
  decide +kernel

/-- States and operands for the hypotheses of Reductions. -/
theorem test_meets_Reductions : ([
    okF Forms.red (fl (ty := .i32) (opt := 1) (d := 5) (tail := ex 3 (4 * 4096 + 1) 17)) (handle 1 0x400000 8 (sr [(3, 65536)] (base 16))) (fun e r => let f := fl (ty := .i32) (opt := 1) (d := 5) (tail := ex 3 (4 * 4096 + 1) 17); !e.counterFull && bit 4 f.ext && decide (65536 ≤ (e.q.sr r.c).toNat) && (match e.check { spaces := fun sp => sp == 0, a := true, width := 4, wr := true } (f.cl == 3) (e.refs r f r.b) with | .ok _ _ => true | .stop _ => false)),
    okF Forms.red (fl (ty := .i32) (opt := 1) (d := 5) (tail := ex 3 (4 * 4096 + 1) 17)) (handle 1 0x400000 8 (sr [(3, 65535)] (base 16))) (fun e r => let f := fl (ty := .i32) (opt := 1) (d := 5) (tail := ex 3 (4 * 4096 + 1) 17); !e.counterFull && decide ((e.q.sr r.c).toNat < 65536) && (match e.check { spaces := fun sp => sp == 0, a := true, width := 4, wr := true } (f.cl == 3) (e.refs r f r.b) with | .ok es hw => roomB e r {} ((es.map fun x => { x with val := word ((e.vd r x.lane).toNat % 2 ^ 32) }).foldl (contribute e.gk e.g.launch (bits 3 1 f.ext) f.ty (some (e.q.sr r.c).toNat)) hw) | .stop _ => false)),
    (let s := onGang (fun g => { g with reds := (List.range 15).map fun n => { tgt := { pa := 4 * n }, op := 0, ty := .i32, rank := none, part := [] } }) (base 8); (match s.hw.gangs.look gk with | some g => decide (g.reds.length < 16) && g.reds.all fun y => y.tgt != { pa := 0x100 } | none => false)),
    okS Forms.redflush (sf) (base 4) (fun e r => !e.counterFull && e.g.reds.isEmpty && roomB e r {} e.hw),
    okS Forms.redflush (sf) (onGang (fun g => { g with reds := [{ tgt := { pa := 8 }, op := 0, ty := .i32, rank := none, part := [] }] }) (base 4)) (fun e _ => !e.counterFull && !e.g.reds.isEmpty),
    (let s := onPart (fun q => { q with arms := [(0x8000, 2 ^ 63)] }) (onCore (fun k => { k with ordErr := 65535 }) (poke 0x400000 4 9 (flying (op10 (.partialSum { lane := 3, tgt := { pa := 0x400000 }, val := 2 } 0 .i32 none false)) (base 8)))); (match s.hw.op 10 with | some o => (s.hw.ops.all fun y => y.id == 10 || !sameDrain y o) && clear s.hw o { lane := 3, tgt := { pa := 0x400000 }, val := 2 } 4 false && !lineHeld s.hw 0 0x8000 10 && (match s.hw.ctx 0 1 with | some cx => !cx.tail.en | none => true) && bit 63 ((s.hw.part o.part).arms.val 0 0x8000) | none => false))] : List Bool).all id = true := by
  decide +kernel

/-- States and operands for the hypotheses of Barriers: bar, nbar and barx that arrive, that open their barrier and that trap; barrier objects misaligned, past the end, with the phase changed and not, and each end of a phase. -/
theorem test_meets_Barriers : ([
    okF Forms.bar (fl) (onGang (fun g => { g with nest := [(0, 1)] }) (block (base 8))) (fun e _ => allLanes.any fun l => inLanes e.q.mask l && nestOf e.g l != 0),
    okF Forms.bar (fl) (flying (op10 (.stc [(3, 1, 8, 0)] 4)) (block (base 8))) (fun e _ => (allLanes.all fun l => !inLanes e.q.mask l || nestOf e.g l == 0) && decide (e.blk.bar.arrived.length + (arriving e).length ≤ blockExpected e.blk)),
    okF Forms.bar (fl) (block (base 8)) (fun e _ => (allLanes.all fun l => !inLanes e.q.mask l || nestOf e.g l == 0) && decide (e.blk.bar.arrived.length + (arriving e).length ≤ blockExpected e.blk)),
    okF Forms.bar (fl) (onHw (fun h => h.setBlock 0 fun b => { b with bar := { b.bar with arrived := [5] } }) (block (base 8))) (fun e _ => decide (blockExpected e.blk < e.blk.bar.arrived.length + (arriving e).length)),
    (let s := onHw (fun h => h.setBlock 0 fun b => { b with bar := { b.bar with arrived := List.range 31 } }) (block (base 8)); (match s.hw.blocks.look 0 with | some b => decide (b.bar.arrived.length < blockExpected b) | none => false)),
    (let s := flying (op10 (.stc [(3, 1, 8, 0)] 4)) (onHw (fun h => h.setBlock 0 fun b => { b with bar := { b.bar with arrived := List.range 32, after := [10] } }) (block (base 8))); (match s.hw.blocks.look 0 with | some b => underWay s.hw b.bar.after | none => false)),
    (let s := onHw (fun h => h.setBlock 0 fun b => { b with gone := [3], goneNext := [4], bar := { b.bar with arrived := List.range 31 } }) (block (base 8)); (match s.hw.blocks.look 0 with | some b => !b.bar.arrived.isEmpty && decide (blockExpected b ≤ b.bar.arrived.length) | none => false)),
    okF Forms.nbar (fl (cls := 3) (a := 6) (b := 7)) (sr [(6, 15), (7, 31)] (block (base 8))) (fun e r => namedBad e r),
    okF Forms.nbar (fl (cls := 3) (a := 6) (b := 7)) (sr [(6, 15), (7, 32)] (block (base 8))) (fun e r => !namedBad e r && (e.hw.blocks.look e.g.block).isSome),
    okF Forms.barx (fl (cls := 3) (a := 6) (b := 7)) (sr [(6, 16), (7, 32)] (block (base 8))) (fun e r => namedBad e r),
    okF Forms.barx (fl (cls := 3) (a := 6) (b := 7)) (sr [(6, 3), (7, 32)] (block (base 8))) (fun e r => !namedBad e r && roomB e r {} (arriveNamed e r)),
    okF Forms.nbar (fl (cls := 3) (a := 6) (b := 7)) (sr [(6, 3), (7, 32)] (block (base 8))) (fun e r => !namedBad e r),
    (let s := onPath (fun q => { q with state := .barrier, wait := .released 5 }) { block (base 8) with time := 500 }; (match blockGangs s.hw 0 with | [(k, g)] => decide (k = gk ∧ gkCore k = 0 ∧ gkCtx k = 1 ∧ waveTimes g = [5] ∧ 5 ≤ coreCycles s.hw 0 s.time) | _ => false)),
    (let s := onPath (fun q => { q with state := .barrier, wait := .released 600 }) { block (base 8) with time := 5 }; (match blockGangs s.hw 0 with | [(k, g)] => decide (k = gk ∧ gkCore k = 0 ∧ gkCtx k = 1 ∧ waveTimes g = [600] ∧ coreCycles s.hw 0 s.time < 600) | _ => false)),
    okF Forms.barw (fl (cls := 3) (a := 6) (b := 7)) (sr [(6, 8)] (block (base 8))) (fun e r => decide ((e.sa r).toNat % 16 ≠ 0)),
    okF Forms.barw (fl (cls := 3) (a := 6) (b := 7)) (sr [(6, 32768)] (block (base 8))) (fun e r => decide ((e.sa r).toNat % 16 = 0 ∧ e.scrBytes < (e.sa r).toNat + 16)),
    okF Forms.barw (fl (cls := 3) (a := 6) (b := 7)) (sr [(6, 32752), (7, 1)] (block (base 8))) (fun e r => let a := (e.sa r).toNat; decide (a % 16 = 0 ∧ a + 16 ≤ e.scrBytes ∧ bit 63 (objWord e.hw e.g.block a) ≠ bit 0 (e.sb r).toNat) && !e.acquiring && !unitBusy e.hw e.blk a && roomB e r {} e.hw),
    okF Forms.barw (fl (cls := 3) (a := 6) (b := 7)) (sr [(6, 32752), (7, 2)] (block (base 8))) (fun e r => let a := (e.sa r).toNat; decide (a % 16 = 0 ∧ a + 16 ≤ e.scrBytes ∧ bit 63 (objWord e.hw e.g.block a) = bit 0 (e.sb r).toNat) && !e.acquiring && !unitBusy e.hw e.blk a),
    (let s := flying (op10 (.update 0 16 4 3)) { block (base 8) with time := 3 }; (match s.hw.blocks.look 0 with | some b => !unitBusy s.hw b 16 && decide (3 ≤ s.time) | none => false)),
    (let s := onHw (fun h => h.setBlock 0 fun b => { b with scr := storeBytes b.scr 16 (toBytes 16 (5 * 2 ^ 64 + 4)) }) (block (base 8)); (match s.hw.blocks.look 0 with | some b => let w0 := scrRead b 16 8; let w1 := scrRead b 24 8; decide (bits 39 0 w0 = 4 ∧ bits 39 0 w1 = 5 ∧ bits 62 40 w0 = 0 ∧ bits 63 40 w1 = 0) && s.hw.ops.isEmpty | none => false))] : List Bool).all id = true := by
  decide +kernel

/-- States and operands for the hypotheses of CopyCommands: a tile with no handle, an empty tile, one row at the end of the scratchpad, both ways; lane copies; pieces; batches at their limits. -/
theorem test_meets_CopyCommands : ([
    okF Forms.cpy (fl (cls := 3) (d := 5) (a := 6) (b := 7) (tail := ex 8 0 1)) (sr [(6, 2 ^ 52), (7, 65537 * 4)] (block (base 16))) (fun e r => let f := fl (cls := 3) (d := 5) (a := 6) (b := 7) (tail := ex 8 0 1); (let b := (e.sb r).toNat; let x : CopyArgs := { d := (e.sd r).toNat, n := bits 15 0 b, m := bits 31 16 b, g := bits 63 32 b, p := e.pitch r, rot := bits 22 20 f.imm, out := f.op == 1, obj := if bit 19 f.imm then none else some (bits 18 0 f.imm) }; copyCheck e x 0 1 0) == some (1, 6, 0, handleFault 1 0)),
    okF Forms.cpy (fl (cls := 3) (d := 5) (a := 6) (b := 7) (tail := ex 8 (2 ^ 19) 1)) (handle 1 0x400000 8 (sr [(5, 65535), (6, 2 ^ 52), (7, 65536 * 8)] (block (base 16)))) (fun e r => let f := fl (cls := 3) (d := 5) (a := 6) (b := 7) (tail := ex 8 (2 ^ 19) 1); (let b := (e.sb r).toNat; let x : CopyArgs := { d := (e.sd r).toNat, n := bits 15 0 b, m := bits 31 16 b, g := bits 63 32 b, p := e.pitch r, rot := bits 22 20 f.imm, out := f.op == 1, obj := none }; x.empty && roomB e r {} e.hw)),
    okF Forms.cpy (fl (cls := 3) (opt := 1) (d := 5) (a := 6) (b := 7) (tail := ex 8 (2 ^ 19) 1)) (handle 1 0x400000 8 (sr [(5, 32760), (6, 2 ^ 52), (7, 65536 + 8)] (block (base 16)))) (fun e r => let f := fl (cls := 3) (opt := 1) (d := 5) (a := 6) (b := 7) (tail := ex 8 (2 ^ 19) 1); !e.counterFull && !e.acquiring && decide (copiesQueued e.hw e.core < 128) && (let b := (e.sb r).toNat; let x : CopyArgs := { d := (e.sd r).toNat, n := bits 15 0 b, m := bits 31 16 b, g := bits 63 32 b, p := e.pitch r, rot := bits 22 20 f.imm, out := f.op == 1, obj := none }; !x.empty && (copyCheck e x 0 1 0).isNone)),
    okF Forms.cpyg (fl (cls := 0) (d := 5) (a := 6) (b := 7) (tail := ex 8 (2 ^ 19) 1)) (handle 1 0x400000 512 (vr 6 (fun l => 2 ^ 52 + 8 * l) (sr [(7, 8), (8, 8)] (block (base 16))))) (fun e r => let f := fl (cls := 0) (d := 5) (a := 6) (b := 7) (tail := ex 8 (2 ^ 19) 1); !e.counterFull && !e.acquiring && decide (copiesQueued e.hw e.core < 128) && (let x : CopyArgs := { d := (e.sd r).toNat, n := bits 15 0 (e.sb r).toNat, m := 1, g := 0, p := e.pitch r, rot := bits 22 20 f.imm, out := false, obj := none }; x.n == 8 && allLanes.all fun l => (copyCheck e x l (bits 63 52 (e.va r l).toNat) (bits 51 0 (e.va r l).toNat)).isNone)),
    okF Forms.cpys (fl (cls := 0) (d := 5) (a := 6) (b := 7) (tail := ex 8 (2 ^ 19) 1)) (handle 1 0x400000 512 (vr 6 (fun l => 2 ^ 52 + 8 * l) (sr [(7, 0), (8, 8)] (block (base 16))))) (fun e r => let f := fl (cls := 0) (d := 5) (a := 6) (b := 7) (tail := ex 8 (2 ^ 19) 1); (let x : CopyArgs := { d := (e.sd r).toNat, n := bits 15 0 (e.sb r).toNat, m := 1, g := 0, p := e.pitch r, rot := bits 22 20 f.imm, out := true, obj := none }; x.n == 0 && (allLanes.all fun l => (copyCheck e x l (bits 63 52 (e.va r l).toNat) (bits 51 0 (e.va r l).toNat)).isNone)) && roomB e r {} e.hw),
    (let s := poke 0x400000 8 0x0807060504030201 (block (base 8)); let x : Piece := { row := 0, tgt := {}, va := 0x400000, y := 32760, n := 8 }; let c : Copy := { blk := 0, out := false, rot := 0, obj := none, todo := [], overlap := false }; (match pieceTarget s.hw s.mem (op10 (.copy c)) c x with | (.ok tg, h) => tg.space == 0 && (h.blocks.look 0).isSome && x.data.isNone && (match s.hw.blocks.look 0 with | some b => (List.range 8).all fun i => !unitBusy s.hw b (c.at x i) | none => false) | _ => false)),
    (let s := onHw (fun h => h.setBlock 0 fun b => { b with scr := storeBytes b.scr 32760 (toBytes 8 0x0807060504030201) }) (block (base 8)); let x : Piece := { row := 0, tgt := {}, va := 0x400000, y := 32760, n := 8 }; let c : Copy := { blk := 0, out := true, rot := 0, obj := none, todo := [], overlap := false }; let o := op10 (.copy c); (match pieceTarget s.hw s.mem o c x with | (.ok tg, h) => tg.space == 0 && sourcesReady s.hw o && h.ops.isEmpty && !(h.part 0).link.hostLines.contains (lineOf tg.pa) && !lineHeld h 0 (lineOf tg.pa) 10 && (match h.ctx 0 1 with | some cx => !cx.tail.en | none => true) && (match s.hw.blocks.look 0, h.blocks.look 0 with | some b, some b1 => decide (b = b1) && (List.range 8).all fun i => !unitBusy s.hw b (c.at x i) | _, _ => false) | _ => false)),
    (let s := block (base 8); let x : Piece := { row := 0, tgt := {}, va := 0x400000, y := 32764, n := 4, data := some [1, 2, 3, 4] }; let c : Copy := { blk := 0, out := false, rot := 0, obj := none, todo := [], overlap := false }; (match s.hw.blocks.look 0, x.data with | some b, some bs => bs.length == x.n && s.hw.ops.isEmpty && (List.range 4).all fun i => !unitBusy s.hw b (c.at x i) | _, _ => false)),
    (let s := flying { op10 (.copy { blk := 0, out := false, rot := 0, obj := none, todo := [], overlap := false, batch := 1 }) with counts := true } (block (base 8)); (match s.hw.op 10 with | some o => o.chain.isNone && (s.hw.ops.all fun y => !y.after.contains 10) && s.hw.gangs.all (fun g => g.2.paths.all fun q => match q.2.wait with | .barw .. => false | _ => true) | none => false)),
    okS Forms.bclose (sf 4) (onGang (fun g => { g with closed := 2 ^ 32 - 2, openFailed := 2 }) (base 4)) (fun e r => decide (openCount e.hw e.gk e.g < 16) && (let n := e.g.closed + 1; roomB e r (putS r (batchNum n)) (moveHorizon (e.hw.setGang e.gk fun g => { g with closed := n, openFailed := 0, batches := g.batches ++ [{ num := n, failed := g.openFailed }] }) e.gk))),
    okS Forms.bclose (sf 4) (onHw (fun h => { h with ops := (List.range 16).map fun k => { id := k, gk := gk, kind := .copy { blk := 0, out := false, rot := 0, obj := none, todo := [], overlap := false, batch := k + 1 } } }) (onGang (fun g => { g with closed := 16, batches := (List.range 16).map fun k => { num := k + 1 } }) (base 4))) (fun e _ => decide (16 ≤ openCount e.hw e.gk e.g)),
    okF Forms.bwait (fl (cls := 3) (d := 5) (a := 6)) (sr [(6, 2 ^ 32)] (base 8)) (fun e r => decide (2 ^ 32 ≤ (e.sa r).toNat)),
    okF Forms.bwait (fl (cls := 3) (d := 5) (a := 6)) (sr [(6, 3)] (onGang (fun g => { g with closed := 3, horizon := 3, unrep := 65537 }) (base 8))) (fun e r => bwaitMet e.g false 3 && roomB e r (putS r (bwaitValue e.g)) (e.hw.setGang e.gk fun g => { g with unrep := 0 })),
    okF Forms.bwait (fl (cls := 3) (opt := 1) (d := 5) (a := 6)) (sr [(6, 1)] (onGang (fun g => { g with closed := 4, horizon := 2, batches := [⟨3, 0⟩, ⟨4, 0⟩] }) (base 8))) (fun e _ => !bwaitMet e.g true 1)] : List Bool).all id = true := by
  decide +kernel

/-- States and operands for the hypotheses of Chains. -/
theorem test_meets_Chains : ([
    okF Forms.cbrun (fl (cls := 3) (d := 5) (a := 6)) (sr [(6, 2 ^ 57)] (base 8)) (fun e r => decide (2 ^ 57 ≤ (e.sa r).toNat)),
    okF Forms.cbrun (fl (cls := 3) (d := 5) (a := 6)) (sr [(6, 64)] (base 8)) (fun e r => decide ((e.sa r).toNat < 2 ^ 57 ∧ (e.sa r).toNat % 128 ≠ 0)),
    okF Forms.cbrun (fl (cls := 3) (d := 5) (a := 6)) (sr [(6, 128)] (onHw (fun h => setChain (setChain (setChain h 0 1 0 { state := 1 }) 0 1 1 { state := 3 }) 0 1 9 { state := 3 }) (base 8))) (fun e r => let cs : Tab Chain := (e.hw.image e.core e.ctx).chains.filter fun c => c.2.state == 1 || c.2.state == 2; let h0 := e.hw.setImage e.core e.ctx fun i => { i with chains := cs }; decide ((e.sa r).toNat < 2 ^ 57 ∧ (e.sa r).toNat % 128 = 0) && cs.has 0 && !cs.has 1 && roomB e r (putS r 1) (setChain h0 e.core e.ctx 1 { block := e.g.block, launch := e.g.launch, addr := 128, state := 1 })),
    okF Forms.cbrun (fl (cls := 3) (d := 5) (a := 6)) (sr [(6, 128)] (onHw (fun h => (List.range 16).foldl (fun h k => setChain h 0 1 k { state := 2 }) h) (base 8))) (fun e r => !e.counterFull && ((List.range 16).all fun k => match (e.hw.image e.core e.ctx).chains.look k with | some c => c.state == 2 | none => false) && roomB e r (putS r (2 ^ 63)) e.hw),
    (let s := onHw (fun h => setChain h 0 1 15 { state := 1, stop := true, addr := 0x400080 }) (base 8); runsOn s.hw 0 1 && coreUp s.hw 0 && corePart s.hw 0 == some 0 && (match (s.hw.image 0 1).chains.look 15 with | some c => decide (c.state = 1 ∧ c.op = none ∧ c.stop = true) | none => false)),
    (let s := onHw (fun h => setChain h 0 1 15 { state := 1, addr := 2 ^ 40 }) (base 8); runsOn s.hw 0 1 && coreUp s.hw 0 && corePart s.hw 0 == some 0 && (match translate s.hw s.mem 0 1 (2 ^ 40) with | (.error _, _) => true | _ => false)),
    (let s := onHw (fun h => setChain h 0 1 15 { state := 1, addr := 0x400080 }) (poke 0x400080 8 (2 ^ 64 - 1) (base 8)); runsOn s.hw 0 1 && coreUp s.hw 0 && corePart s.hw 0 == some 0 && (match translate s.hw s.mem 0 1 0x400080 with | (.ok y, _) => y.kind == 0 && y.r && blockBad (fun k => (bytesWords 16 (rdBytes s.mem 0 y.pa 128)).getD k 0) | _ => false)),
    (let s := onHw (fun h => setChain h 0 1 15 { state := 1, addr := 0x400080 }) (base 8); runsOn s.hw 0 1 && coreUp s.hw 0 && corePart s.hw 0 == some 0 && (match translate s.hw s.mem 0 1 0x400080 with | (.ok y, _) => y.kind == 0 && y.r && !blockBad (fun k => (bytesWords 16 (rdBytes s.mem 0 y.pa 128)).getD k 0) | _ => false)),
    (let s := onHw (fun h => setChain h 0 1 15 { state := 2, addr := 0x400080, words := [0, 0, 0x40, 0, 0, 0, 0, 0, 0, 0, 0, 0, 0, 0, 0, 1] }) (base 8); runsOn s.hw 0 1 && coreUp s.hw 0 && corePart s.hw 0 == some 0 && (match (s.hw.image 0 1).chains.look 15 with | some c => c.state == 2 | none => false)),
    (let c : Chain := { state := 1, words := [0, 0, 0x40, 0, 1, 0, 0, 0, 0, 0, 0, 0, 0, 0, 0, 0] }; decide (bits 6 5 (c.w 2) = 2 ∧ bits 11 10 (c.w 2) = 0 ∧ c.stop = false) && !chainTest c c.sig.toNat),
    okF Forms.cbsig (fl (cls := 3) (a := 6) (b := 7)) (sr [(6, 16)] (base 8)) (fun e r => (e.chain 16).isNone && roomB e r {} e.hw),
    okF Forms.cbsig (fl (cls := 3) (a := 6) (b := 7)) (sr [(6, 15), (7, 4)] (onHw (fun h => setChain h 0 1 15 { state := 1, sig := 3 }) (base 8))) (fun e r => (match e.chain 15 with | some c => roomB e r {} (setChain e.hw e.core e.ctx 15 { c with sig := c.sig ||| e.sb r }) | none => false)),
    okF Forms.cbstat (fl (cls := 3) (d := 5) (a := 6)) (sr [(6, 15), (7, 4)] (onHw (fun h => setChain h 0 1 15 { state := 3, err := 4, addr := 0x400080 }) (base 8))) (fun e r => (e.chain 15).isSome && roomB e r (putS r (3 * 2 ^ 62 + 0x400080 + 4)) e.hw)] : List Bool).all id = true := by
  decide +kernel

/-- States and operands for the hypotheses of MatrixPasses: the three forms, A in registers among them, with the last tile of the allotment; and each trap. -/
theorem test_meets_MatrixPasses : ([
    okF Forms.mma (fl (ty := .f16) (cls := 3) (d := 0) (a := 6) (b := 7) (tail := ex 0 (2 ^ 19))) (sr [(6, (64 * 2 ^ 19 + 2048 * 2 ^ 38)), (7, (64 * 2 ^ 19 + 2048 * 2 ^ 38) + 8192)] (block (base 16))) (fun e r => let f := fl (ty := .f16) (cls := 3) (d := 0) (a := 6) (b := 7) (tail := ex 0 (2 ^ 19)); let qs := (List.range 4).filter (sliceAct e.act); let inReg := 0 == 0 && f.cl == 2; let nReg := Forms.aRegs f; let m : Pass := { form := 0, ty := f.ty, kg := Forms.kgOf f, z := bit 0 f.op, bt := bit 1 f.op, act := e.act, da := e.sa r, db := e.sb r, dc := e.q.sr r.c, blk := e.g.block, obj := mxObj f, prio := hdrPrio (e.hw.hdr e.g.launch), arrive := clusterCycles e.hw (coreCluster e.core) e.now, todo := qs.map fun q => (q, e.blk.accb + r.d + q), areg := if inReg then some ((List.range nReg).flatMap fun i => allLanes.map fun l => (32 * i + l, e.g.v (r.a + i) l)) else none }; let trap := scratchTrap e ((if inReg then [] else [dBase m.da, dPitch m.da]) ++ [dBase m.db, dPitch m.db] ++ (if inReg then [] else [dTp m.da])) (m.ranges qs) ((if inReg then [] else [(m.da, 4)]) ++ [(m.db, 4)]) m.obj;  (qs.all fun q => decide (r.d + q < e.blk.accn) && !tileForeign e.hw e.core e.ctx (e.blk.accb + r.d + q)) && trap.isNone && !e.acquiring && !reservesFull e.hw e.core && roomB e r {} e.hw),
    okF Forms.mma (fl (ty := .f16) (cls := 2) (d := 0) (a := 2015) (b := 7) (tail := ex 0 (2 ^ 19)) (lua := true)) (sr [(7, (64 * 2 ^ 19 + 2048 * 2 ^ 38) + 8192)] (block (base 16))) (fun e r => let f := fl (ty := .f16) (cls := 2) (d := 0) (a := 2015) (b := 7) (tail := ex 0 (2 ^ 19)) (lua := true); let qs := (List.range 4).filter (sliceAct e.act); let inReg := 0 == 0 && f.cl == 2; let nReg := Forms.aRegs f; let m : Pass := { form := 0, ty := f.ty, kg := Forms.kgOf f, z := bit 0 f.op, bt := bit 1 f.op, act := e.act, da := e.sa r, db := e.sb r, dc := e.q.sr r.c, blk := e.g.block, obj := mxObj f, prio := hdrPrio (e.hw.hdr e.g.launch), arrive := clusterCycles e.hw (coreCluster e.core) e.now, todo := qs.map fun q => (q, e.blk.accb + r.d + q), areg := if inReg then some ((List.range nReg).flatMap fun i => allLanes.map fun l => (32 * i + l, e.g.v (r.a + i) l)) else none }; let trap := scratchTrap e ((if inReg then [] else [dBase m.da, dPitch m.da]) ++ [dBase m.db, dPitch m.db] ++ (if inReg then [] else [dTp m.da])) (m.ranges qs) ((if inReg then [] else [(m.da, 4)]) ++ [(m.db, 4)]) m.obj;  inReg && ((List.range nReg).all fun i => allLanes.all fun l => !vPending e.hw.ops e.gk (r.a + i) l) && (qs.all fun q => decide (r.d + q < e.blk.accn) && !tileForeign e.hw e.core e.ctx (e.blk.accb + r.d + q)) && trap.isNone && !e.acquiring && !reservesFull e.hw e.core && roomB e r {} e.hw),
    okF Forms.mmas (fl (ty := .e4m3) (cls := 3) (d := 0) (a := 6) (b := 7) (tail := ex 8 (2 ^ 19) 1)) (sr [(6, (64 * 2 ^ 19 + 2048 * 2 ^ 38)), (7, (64 * 2 ^ 19 + 2048 * 2 ^ 38) + 8192), (8, 16 * 2 ^ 19 + 512 * 2 ^ 38 + 16384)] (block (base 16))) (fun e r => let f := fl (ty := .e4m3) (cls := 3) (d := 0) (a := 6) (b := 7) (tail := ex 8 (2 ^ 19) 1); let qs := (List.range 4).filter (sliceAct e.act); let inReg := 1 == 0 && f.cl == 2; let nReg := Forms.aRegs f; let m : Pass := { form := 1, ty := f.ty, kg := Forms.kgOf f, z := bit 0 f.op, bt := bit 1 f.op, act := e.act, da := e.sa r, db := e.sb r, dc := e.q.sr r.c, blk := e.g.block, obj := mxObj f, prio := hdrPrio (e.hw.hdr e.g.launch), arrive := clusterCycles e.hw (coreCluster e.core) e.now, todo := qs.map fun q => (q, e.blk.accb + r.d + q), areg := if inReg then some ((List.range nReg).flatMap fun i => allLanes.map fun l => (32 * i + l, e.g.v (r.a + i) l)) else none }; let trap := scratchTrap e ((if inReg then [] else [dBase m.da, dPitch m.da]) ++ [dBase m.db, dPitch m.db] ++ (if inReg then [] else [dTp m.da])) (m.ranges qs) ((if inReg then [] else [(m.da, 4)]) ++ [(m.db, 4)]) m.obj;  (qs.all fun q => decide (r.d + q < e.blk.accn) && !tileForeign e.hw e.core e.ctx (e.blk.accb + r.d + q)) && trap.isNone && !e.acquiring && !reservesFull e.hw e.core && roomB e r {} e.hw),
    okF Forms.mmab (fl (ty := .mx8) (cls := 3) (d := 0) (a := 6) (b := 7) (tail := ex 8 (2 ^ 19) 1)) (sr [(6, (64 * 2 ^ 19 + 2048 * 2 ^ 38)), (7, (64 * 2 ^ 19 + 2048 * 2 ^ 38) + 8192), (8, 16 * 2 ^ 19 + 512 * 2 ^ 38 + 16384)] (block (base 16))) (fun e r => let f := fl (ty := .mx8) (cls := 3) (d := 0) (a := 6) (b := 7) (tail := ex 8 (2 ^ 19) 1); let qs := (List.range 4).filter (sliceAct e.act); let inReg := 2 == 0 && f.cl == 2; let nReg := Forms.aRegs f; let m : Pass := { form := 2, ty := f.ty, kg := Forms.kgOf f, z := bit 0 f.op, bt := bit 1 f.op, act := e.act, da := e.sa r, db := e.sb r, dc := e.q.sr r.c, blk := e.g.block, obj := mxObj f, prio := hdrPrio (e.hw.hdr e.g.launch), arrive := clusterCycles e.hw (coreCluster e.core) e.now, todo := qs.map fun q => (q, e.blk.accb + r.d + q), areg := if inReg then some ((List.range nReg).flatMap fun i => allLanes.map fun l => (32 * i + l, e.g.v (r.a + i) l)) else none }; let trap := scratchTrap e ((if inReg then [] else [dBase m.da, dPitch m.da]) ++ [dBase m.db, dPitch m.db] ++ (if inReg then [] else [dTp m.da])) (m.ranges qs) ((if inReg then [] else [(m.da, 4)]) ++ [(m.db, 4)]) m.obj;  (qs.all fun q => decide (r.d + q < e.blk.accn) && !tileForeign e.hw e.core e.ctx (e.blk.accb + r.d + q)) && trap.isNone && !e.acquiring && !reservesFull e.hw e.core && roomB e r {} e.hw),
    okF Forms.mma (fl (ty := .f16) (cls := 3) (d := 1) (a := 6) (b := 7) (tail := ex 0 (2 ^ 19))) (sr [(6, (64 * 2 ^ 19 + 2048 * 2 ^ 38)), (7, (64 * 2 ^ 19 + 2048 * 2 ^ 38) + 8192)] (block (base 16))) (fun e r => (List.range 4).all (sliceAct e.act) && decide (e.blk.accn ≤ r.d + 3 ∧ r.d + 2 < e.blk.accn)),
    okF Forms.mma (fl (ty := .f16) (cls := 3) (d := 0) (a := 6) (b := 7) (tail := ex 0 (2 ^ 19))) (sr [(6, (64 * 2 ^ 19 + 2048 * 2 ^ 38) + 8), (7, (64 * 2 ^ 19 + 2048 * 2 ^ 38) + 8192)] (block (base 16))) (fun e r => let f := fl (ty := .f16) (cls := 3) (d := 0) (a := 6) (b := 7) (tail := ex 0 (2 ^ 19)); let qs := (List.range 4).filter (sliceAct e.act); let inReg := 0 == 0 && f.cl == 2; let nReg := Forms.aRegs f; let m : Pass := { form := 0, ty := f.ty, kg := Forms.kgOf f, z := bit 0 f.op, bt := bit 1 f.op, act := e.act, da := e.sa r, db := e.sb r, dc := e.q.sr r.c, blk := e.g.block, obj := mxObj f, prio := hdrPrio (e.hw.hdr e.g.launch), arrive := clusterCycles e.hw (coreCluster e.core) e.now, todo := qs.map fun q => (q, e.blk.accb + r.d + q), areg := if inReg then some ((List.range nReg).flatMap fun i => allLanes.map fun l => (32 * i + l, e.g.v (r.a + i) l)) else none }; let trap := scratchTrap e ((if inReg then [] else [dBase m.da, dPitch m.da]) ++ [dBase m.db, dPitch m.db] ++ (if inReg then [] else [dTp m.da])) (m.ranges qs) ((if inReg then [] else [(m.da, 4)]) ++ [(m.db, 4)]) m.obj;  (qs.all fun q => decide (r.d + q < e.blk.accn)) && trap.isSome),
    okF Forms.mma (fl (ty := .f16) (cls := 3) (d := 0) (a := 6) (b := 7) (tail := ex 0 (2 ^ 19))) (onCore (fun k => { k with acctag := [(3, { state := 1, owner := 2 })] }) (sr [(6, (64 * 2 ^ 19 + 2048 * 2 ^ 38)), (7, (64 * 2 ^ 19 + 2048 * 2 ^ 38) + 8192)] (block (base 16)))) (fun e r => let f := fl (ty := .f16) (cls := 3) (d := 0) (a := 6) (b := 7) (tail := ex 0 (2 ^ 19)); let qs := (List.range 4).filter (sliceAct e.act); let inReg := 0 == 0 && f.cl == 2; let nReg := Forms.aRegs f; let m : Pass := { form := 0, ty := f.ty, kg := Forms.kgOf f, z := bit 0 f.op, bt := bit 1 f.op, act := e.act, da := e.sa r, db := e.sb r, dc := e.q.sr r.c, blk := e.g.block, obj := mxObj f, prio := hdrPrio (e.hw.hdr e.g.launch), arrive := clusterCycles e.hw (coreCluster e.core) e.now, todo := qs.map fun q => (q, e.blk.accb + r.d + q), areg := if inReg then some ((List.range nReg).flatMap fun i => allLanes.map fun l => (32 * i + l, e.g.v (r.a + i) l)) else none }; let trap := scratchTrap e ((if inReg then [] else [dBase m.da, dPitch m.da]) ++ [dBase m.db, dPitch m.db] ++ (if inReg then [] else [dTp m.da])) (m.ranges qs) ((if inReg then [] else [(m.da, 4)]) ++ [(m.db, 4)]) m.obj;  (qs.all fun q => decide (r.d + q < e.blk.accn)) && trap.isNone && tileForeign e.hw e.core e.ctx 3)] : List Bool).all id = true := by
  decide +kernel

/-- States and operands for the hypotheses of MatrixGrants. -/
theorem test_meets_MatrixGrants : ([
    (let p : Pass := { form := 0, ty := .f16, kg := 1, z := true, bt := false, act := 0xFFFFFFFF, da := (64 * 2 ^ 19 + 2048 * 2 ^ 38), db := (64 * 2 ^ 19 + 2048 * 2 ^ 38) + 8192, blk := 0, obj := none, prio := 1, arrive := 0, todo := [(0, 0), (1, 1), (2, 2), (3, 3)] }; let s := flying (op10 (.pass p)) (block (base 8)); clusterLive s.hw 0 && (s.hw.cluster 0).goal.isNone && decide ((s.hw.cluster 0).holdTo ≤ s.time) && rampAllows (s.hw.cluster 0) (clusterCycles s.hw 0 s.time) && (match s.hw.op 10 with | some o => !(eligibleOps s.hw o).isEmpty && p.cap.isEmpty && s.hw.ops.all fun y => y.id == 10 | none => false)),
    (let s := block (base 8); s.hw.ops.all fun y => coreCluster y.core != 0 || (eligibleOps s.hw y).isEmpty),
    (let m : Pass := { form := 0, ty := .f16, kg := 1, z := true, bt := false, act := 0x01000000, da := (64 * 2 ^ 19 + 2048 * 2 ^ 38), db := (64 * 2 ^ 19 + 2048 * 2 ^ 38), blk := 0, obj := none, prio := 1, arrive := 0, todo := [], areg := some [] }; m.areg.isSome && inLanes m.act (8 * 3 + 16 % 8)),
    (let p : Pass := { form := 0, ty := .f16, kg := 1, z := true, bt := false, act := 0xFFFFFFFF, da := (64 * 2 ^ 19 + 2048 * 2 ^ 38), db := (64 * 2 ^ 19 + 2048 * 2 ^ 38) + 8192, blk := 0, obj := none, prio := 1, arrive := 0, todo := [], ready := [(3, [(0, 7#32), (1023, 9#32)])] }; let s := flying (op10 (.pass p)) (block (base 8)); (match s.hw.op 10 with | some o => s.hw.ops.all fun y => y.id == o.id && !y.after.contains 10 | none => false))] : List Bool).all id = true := by
  decide +kernel

/-- States and operands for the hypotheses of TileForms: each form at the last tile, waiting behind a pass, beyond the allotment, and at a tile of another context. -/
theorem test_meets_TileForms : ([
    okF Forms.azero (fl (d := 3) (a := 3)) (block (base 8)) (fun e r => let f := fl (d := 3) (a := 3); let ns := rangeTiles f; let ts := ns.map (e.blk.accb + ·); let h := if true then ts.foldl (fun h t => takeTile h e.core e.ctx t) e.hw else e.hw; let h2 := h.setCore e.core fun c => applyTile e.ctx c ts (.azero); let w : Writes := {};  (tileTrap e ns true).isNone && !ts.isEmpty && (ts.all fun t => !tileBusy h e.core t h.nextId) && roomB e r w h2),
    okF Forms.azero (fl (d := 3) (a := 3)) (flying (op10 (.pass { form := 0, ty := .f16, kg := 1, z := true, bt := false, act := 0xFFFFFFFF, da := 0, db := 0, blk := 0, obj := none, prio := 1, arrive := 0, todo := [(3, 3)] })) (block (base 8))) (fun e _ => let f := fl (d := 3) (a := 3); let ns := rangeTiles f; let ts := ns.map (e.blk.accb + ·); let h := if true then ts.foldl (fun h t => takeTile h e.core e.ctx t) e.hw else e.hw;  (tileTrap e ns true).isNone && ts.any fun t => tileBusy h e.core t h.nextId),
    okF Forms.awrite (fl (ty := .f16) (d := 3) (a := 2040) (tail := ex)) (flying (op10 (.pass { form := 0, ty := .f16, kg := 1, z := true, bt := false, act := 0xFFFFFFFF, da := 0, db := 0, blk := 0, obj := none, prio := 1, arrive := 0, todo := [(3, 3)] })) (block (base 16))) (fun e _ => let f := fl (ty := .f16) (d := 3) (a := 2040) (tail := ex); let ts := [e.blk.accb + f.d.toNat]; let h := ts.foldl (fun h t => takeTile h e.core e.ctx t) e.hw; (tileTrap e [f.d.toNat] true).isNone && ts.any fun t => tileBusy h e.core t h.nextId),
    okF Forms.azero (fl (d := 4) (a := 3)) (block (base 8)) (fun e _ => let f := fl (d := 4) (a := 3); (tileTrap e (rangeTiles f) true).isNone && (rangeTiles f).isEmpty),
    okF Forms.azero (fl (d := 4) (a := 4)) (block (base 8)) (fun e _ => let f := fl (d := 4) (a := 4); (tileTrap e (rangeTiles f) true).isSome),
    okF Forms.arel (fl (d := 3) (a := 3)) (block (base 8)) (fun e r => let f := fl (d := 3) (a := 3); let ns := rangeTiles f; let ts := ns.map (e.blk.accb + ·); let h := if false then ts.foldl (fun h t => takeTile h e.core e.ctx t) e.hw else e.hw; let h2 := h.setCore e.core fun c => applyTile e.ctx c ts (.arel); let w : Writes := {};  (tileTrap e ns false).isNone && !ts.isEmpty && (ts.all fun t => !tileBusy h e.core t h.nextId) && roomB e r w h2),
    okF Forms.arel (fl (d := 4) (a := 4)) (block (base 8)) (fun e _ => let f := fl (d := 4) (a := 4); (tileTrap e (rangeTiles f) false).isSome),
    okF Forms.ascale (fl (ty := .f32) (opt := 1) (d := 3) (a := 6) (b := 7)) (block (base 8)) (fun e r => let f := fl (ty := .f32) (opt := 1) (d := 3) (a := 6) (b := 7); let ns := [f.d.toNat]; let ts := ns.map (e.blk.accb + ·); let h := if true then ts.foldl (fun h t => takeTile h e.core e.ctx t) e.hw else e.hw; let h2 := h.setCore e.core fun c => applyTile e.ctx c ts (let col (c : Kind) (n : Nat) : List Nat := allLanes.map fun l => if c = .none then 0 else low32 e c n l; .ascale f.op e.act (col r.sh.a r.a) (col r.sh.b r.b) (col r.sh.c r.c)); let w : Writes := {};  (tileTrap e ns true).isNone && !ts.isEmpty && (ts.all fun t => !tileBusy h e.core t h.nextId) && roomB e r w h2),
    okF Forms.ascale (fl (ty := .f32) (opt := 1) (d := 4) (a := 6) (b := 7)) (block (base 8)) (fun e _ => let f := fl (ty := .f32) (opt := 1) (d := 4) (a := 6) (b := 7); (tileTrap e ([f.d.toNat]) true).isSome),
    okF Forms.ascale (fl (ty := .f32) (opt := 1) (d := 3) (a := 6) (b := 7)) (onCore (fun k => { k with acctag := [(3, { state := 1, owner := 2 })] }) (block (base 8))) (fun e _ => let f := fl (ty := .f32) (opt := 1) (d := 3) (a := 6) (b := 7); (tileTrap e ([f.d.toNat]) true).isSome),
    okF Forms.aread (fl (ty := .e4m3) (d := 2044) (a := 3) (tail := ex)) (block (base 16)) (fun e r => let f := fl (ty := .e4m3) (d := 2044) (a := 3) (tail := ex); let ns := [f.a.toNat]; let ts := ns.map (e.blk.accb + ·); let h := if true then ts.foldl (fun h t => takeTile h e.core e.ctx t) e.hw else e.hw; let h2 := h.setCore e.core fun c => applyTile e.ctx c ts (.aread f.d.toNat f.ty f.op e.act); let w : Writes := { v := areadValues (h2.core e.core) (e.blk.accb + f.a.toNat) f.d.toNat f.ty f.op e.act };  (tileTrap e ns true).isNone && !ts.isEmpty && (ts.all fun t => !tileBusy h e.core t h.nextId) && roomB e r w h2),
    okF Forms.aread (fl (ty := .e4m3) (d := 2044) (a := 3) (tail := ex)) (flying (op10 (.pass { form := 0, ty := .f16, kg := 1, z := true, bt := false, act := 0xFFFFFFFF, da := 0, db := 0, blk := 0, obj := none, prio := 1, arrive := 0, todo := [(3, 3)] })) (block (base 16))) (fun e _ => let f := fl (ty := .e4m3) (d := 2044) (a := 3) (tail := ex); let ns := [f.a.toNat]; let ts := ns.map (e.blk.accb + ·); let h := if true then ts.foldl (fun h t => takeTile h e.core e.ctx t) e.hw else e.hw;  (tileTrap e ns true).isNone && (let ds := (List.range (Forms.tileRegs' f.ty)).map (f.d.toNat + ·); (allocate h e.core e.ctx (e.newV h ds) 0 (ds.map (spillKeyV e.slot))).isSome) && ts.any fun t => tileBusy h e.core t h.nextId),
    okF Forms.aread (fl (ty := .e4m3) (d := 2044) (a := 4) (tail := ex)) (block (base 16)) (fun e _ => let f := fl (ty := .e4m3) (d := 2044) (a := 4) (tail := ex); (tileTrap e ([f.a.toNat]) true).isSome),
    okF Forms.aread (fl (ty := .e4m3) (d := 2044) (a := 3) (tail := ex)) (onCore (fun k => { k with acctag := [(3, { state := 1, owner := 2 })] }) (block (base 16))) (fun e _ => let f := fl (ty := .e4m3) (d := 2044) (a := 3) (tail := ex); (tileTrap e ([f.a.toNat]) true).isSome),
    okF Forms.awrite (fl (ty := .f16) (d := 3) (a := 2040) (tail := ex) (lua := true)) (block (base 16)) (fun e r => let f := fl (ty := .f16) (d := 3) (a := 2040) (tail := ex) (lua := true); let ns := [f.d.toNat]; let ts := ns.map (e.blk.accb + ·); let h := if true then ts.foldl (fun h t => takeTile h e.core e.ctx t) e.hw else e.hw; let h2 := h.setCore e.core fun c => applyTile e.ctx c ts (.awrite f.ty e.act (allLanes.map fun l => if inLanes e.act l then (List.range 32).map fun j => subElem (Ty.width f.ty) (j % (64 / Ty.width f.ty)) (e.g.v (f.a.toNat + j / (64 / Ty.width f.ty)) l) else [])); let w : Writes := { relV := if f.lua then (List.range (Forms.tileRegs' f.ty)).map (f.a.toNat + ·) else [] };  (tileTrap e ns true).isNone && !ts.isEmpty && (ts.all fun t => !tileBusy h e.core t h.nextId) && roomB e r w h2),
    okF Forms.awrite (fl (ty := .f16) (d := 4) (a := 2040) (tail := ex) (lua := true)) (block (base 16)) (fun e _ => let f := fl (ty := .f16) (d := 4) (a := 2040) (tail := ex) (lua := true); (tileTrap e ([f.d.toNat]) true).isSome),
    okF Forms.awrite (fl (ty := .f16) (d := 3) (a := 2040) (tail := ex) (lua := true)) (onCore (fun k => { k with acctag := [(3, { state := 1, owner := 2 })] }) (block (base 16))) (fun e _ => let f := fl (ty := .f16) (d := 3) (a := 2040) (tail := ex) (lua := true); (tileTrap e ([f.d.toNat]) true).isSome)] : List Bool).all id = true := by
  decide +kernel

/-- States and operands for the hypotheses of TileTransfers. -/
theorem test_meets_TileTransfers : ([
    okF Forms.aload (fl (ty := .f16) (cls := 2) (d := 3) (b := 7) (tail := ex 0 (2 ^ 19))) (sr [(7, 64 * 2 ^ 19)] (block (base 16))) (fun e r => let f := fl (ty := .f16) (cls := 2) (d := 3) (b := 7) (tail := ex 0 (2 ^ 19)); let d := e.sb r; let x : Transfer := { load := true, tile := e.blk.accb + r.d, ty := f.ty, mode := f.op, desc := d, blk := e.g.block, obj := mxObj f, todo := List.range (32 * Ty.width f.ty) }; !bit 1 f.ext && decide (r.d < e.blk.accn) && (scratchTrap e [dBase d, dPitch d] ((List.range 32).map fun i => (dBase d + i * dPitch d, x.rowBytes, 4)) [(d, 4)] x.obj).isNone && !tileForeign e.hw e.core e.ctx x.tile && !e.acquiring && !reservesFull e.hw e.core && roomB e r {} e.hw),
    okF Forms.astore (fl (ty := .f32) (cls := 2) (d := 3) (b := 7) (tail := ex 0 (2 ^ 19))) (sr [(7, 32768 - 4096 + 16 + 128 * 2 ^ 19)] (block (base 16))) (fun e r => let f := fl (ty := .f32) (cls := 2) (d := 3) (b := 7) (tail := ex 0 (2 ^ 19)); let d := e.sb r; let x : Transfer := { load := false, tile := e.blk.accb + r.d, ty := f.ty, mode := f.op, desc := d, blk := e.g.block, obj := mxObj f, todo := List.range (32 * Ty.width f.ty) }; !bit 1 f.ext && decide (r.d < e.blk.accn) && (scratchTrap e [dBase d, dPitch d] ((List.range 32).map fun i => (dBase d + i * dPitch d, x.rowBytes, 4)) [(d, 4)] x.obj).isSome),
    okF Forms.astore (fl (ty := .f32) (cls := 2) (d := 4) (b := 7) (tail := ex 0 (2 ^ 19))) (block (base 16)) (fun e r => let f := fl (ty := .f32) (cls := 2) (d := 4) (b := 7) (tail := ex 0 (2 ^ 19)); !bit 1 f.ext && decide (e.blk.accn ≤ r.d)),
    okF Forms.astore (fl (ty := .f32) (cls := 2) (d := 3) (b := 7) (tail := ex 0 0 2)) (block (base 16)) (fun e _ => let f := fl (ty := .f32) (cls := 2) (d := 3) (b := 7) (tail := ex 0 0 2); bit 1 f.ext && !e.sup),
    okF Forms.astore (fl (ty := .f32) (cls := 2) (d := 3) (b := 7) (tail := ex 0 0 2)) (sup (sr [(7, 2048)] (block (base 16)))) (fun e r => let f := fl (ty := .f32) (cls := 2) (d := 3) (b := 7) (tail := ex 0 0 2); bit 1 f.ext && e.sup && decide ((e.sb r).toNat % 4096 ≠ 0)),
    okF Forms.aload (fl (ty := .f32) (cls := 2) (d := 3) (b := 7) (tail := ex 0 0 2)) (sup (sr [(7, partBytes (base 16).hw 0 - 4096)] (block (base 16)))) (fun e r => let f := fl (ty := .f32) (cls := 2) (d := 3) (b := 7) (tail := ex 0 0 2); bit 1 f.ext && e.sup && decide ((e.sb r).toNat % 4096 = 0 ∧ (e.sb r).toNat + 4096 ≤ partBytes e.hw e.part) && !e.acquiring && !reservesFull e.hw e.core && roomB e r {} e.hw),
    (let s := block (base 8); let x : Transfer := { load := false, tile := 3, ty := .f32, mode := 0, desc := word (128 * 2 ^ 19), blk := 0, obj := none, todo := [], img := [(0, 5), (3, 6)] }; x.phys.isNone && s.hw.ops.isEmpty && (s.hw.blocks.look x.blk).isSome),
    (let s := flying (op10 (.atrans { load := false, tile := 3, ty := .f32, mode := 0, desc := 0, blk := 0, obj := none, todo := [], begun := true, w := 7 })) { block (base 8) with time := 9 }; (match s.hw.op 10 with | some o => (s.hw.ops.all fun y => y.id == o.id && !y.after.contains 10) && s.hw.gangs.all (fun g => g.2.paths.all fun q => match q.2.wait with | .barw .. => false | _ => true) | none => false))] : List Bool).all id = true := by
  decide +kernel

/-- States and operands for the hypotheses of TailWindows: wmark with work in flight, with its Tail off and on, and each wait; queries at the oldest and at the current window; each advance. -/
theorem test_meets_TailWindows : ([
    okS Forms.wmarkS (sf) (flying (op10 (.store [{ lane := 0, tgt := {} }] 8)) (base 4)) (fun e _ => let s := flying (op10 (.store [{ lane := 0, tgt := {} }] 8)) (base 4); !fenceDone e.hw e.gk 3 e.hw.nextId s.time),
    okF Forms.wmark (fl (cls := 3) (d := 4)) (base 8) (fun e r => let s := base 8; fenceDone e.hw e.gk 3 e.hw.nextId s.time && !(e.hw.tail e.part e.ctx).en && roomB e r (wmarkWrites r 0) e.hw),
    okS Forms.wmarkS (sf) (onCtx (fun c => { c with tail := { c.tail with en := true, cur := 4, old := 2, bounds := [(2, 70), (3, 80), (4, 90)] } }) (base 4)) (fun e _ => let s := onCtx (fun c => { c with tail := { c.tail with en := true, cur := 4, old := 2, bounds := [(2, 70), (3, 80), (4, 90)] } }) (base 4); fenceDone e.hw e.gk 3 e.hw.nextId s.time && (match e.hw.ctx e.part e.ctx with | some cx => cx.tail.en | none => false)),
    okA (onPath (fun q => { q with state := .parked, wait := .wmark 10 true (some (5, 3)), form := some (regsF Forms.wmark (fl (cls := 3) (d := 4))) }) { base 8 with time := 5 }) placeRef (fun e => let s := onPath (fun q => { q with state := .parked, wait := .wmark 10 true (some (5, 3)), form := some (regsF Forms.wmark (fl (cls := 3) (d := 4))) }) { base 8 with time := 5 }; runsOn s.hw e.core e.ctx && decide (e.q.wait = .wmark 10 true (some (5, 3)) ∧ 5 ≤ s.time) && e.q.form.isSome),
    okA (onPath (fun q => { q with state := .parked, wait := .wmark 10 true (some (6, 3)), form := some (regsF Forms.wmark (fl (cls := 3) (d := 4))) }) { base 8 with time := 5 }) placeRef (fun e => let s := onPath (fun q => { q with state := .parked, wait := .wmark 10 true (some (6, 3)), form := some (regsF Forms.wmark (fl (cls := 3) (d := 4))) }) { base 8 with time := 5 }; runsOn s.hw e.core e.ctx && decide (e.q.wait = .wmark 10 true (some (6, 3)) ∧ s.time < 6) && e.q.form.isSome),
    okF Forms.wquery (fl (cls := 3) (opt := 3) (d := 4)) (base 8) (fun e _ => let f := fl (cls := 3) (opt := 3) (d := 4); decide (f.op ≠ 0 ∧ e.q.wait = .none)),
    okF Forms.wquery (fl (cls := 3) (opt := 0) (d := 4)) (sr [(6, 2)] (base 8)) (fun e r => let s := sr [(6, 2)] (base 8); let x := (e.hw.tail e.part e.ctx).roll s.time; x.en == false && winLe x.old 2 == winLe x.old 2 && roomB e r (putS r 0) e.hw),
    okF Forms.wquery (fl (cls := 3) (opt := 0) (d := 4)) (onCtx (fun c => { c with tail := { c.tail with en := true, cur := 4, old := 2, bounds := [(2, 70), (3, 80), (4, 90)] } }) (sr [(6, 2)] (base 8))) (fun e r => let s := onCtx (fun c => { c with tail := { c.tail with en := true, cur := 4, old := 2, bounds := [(2, 70), (3, 80), (4, 90)] } }) (sr [(6, 2)] (base 8)); let x := (e.hw.tail e.part e.ctx).roll s.time; x.en == true && winLe x.old 2 == true && roomB e r (putS r x.cur) e.hw),
    okF Forms.wquery (fl (cls := 3) (opt := 1) (d := 4)) (onPath (fun q => { q with wait := .go false }) (onCtx (fun c => { c with tail := { c.tail with en := true, cur := 4, old := 2, bounds := [(2, 70), (3, 80), (4, 90)] } }) (sr [(6, 2)] (base 8)))) (fun e r => let s := onPath (fun q => { q with wait := .go false }) (onCtx (fun c => { c with tail := { c.tail with en := true, cur := 4, old := 2, bounds := [(2, 70), (3, 80), (4, 90)] } }) (sr [(6, 2)] (base 8))); decide (e.q.wait = .go false) && (let x := (e.hw.tail e.part e.ctx).roll s.time; x.en == true && winLe x.old 2 == true && roomB e r (putS r x.old) e.hw)),
    okF Forms.wquery (fl (cls := 3) (opt := 2) (d := 4) (a := 6)) (onPath (fun q => { q with wait := .go false }) (onCtx (fun c => { c with tail := { c.tail with en := true, cur := 4, old := 2, bounds := [(2, 70), (3, 80), (4, 90)] } }) (sr [(6, 2)] (base 8)))) (fun e r => let s := onPath (fun q => { q with wait := .go false }) (onCtx (fun c => { c with tail := { c.tail with en := true, cur := 4, old := 2, bounds := [(2, 70), (3, 80), (4, 90)] } }) (sr [(6, 2)] (base 8))); decide (e.q.wait = .go false) && (let x := (e.hw.tail e.part e.ctx).roll s.time; x.en == true && winLe x.old 2 == true && roomB e r (putS r (x.bounds.val 0 2)) e.hw)),
    okF Forms.wquery (fl (cls := 3) (opt := 3) (d := 4)) (onPath (fun q => { q with wait := .go false }) (onCtx (fun c => { c with tail := { c.tail with en := true, cur := 4, old := 2, bounds := [(2, 70), (3, 80), (4, 90)] } }) (sr [(6, 2)] (base 8)))) (fun e r => let s := onPath (fun q => { q with wait := .go false }) (onCtx (fun c => { c with tail := { c.tail with en := true, cur := 4, old := 2, bounds := [(2, 70), (3, 80), (4, 90)] } }) (sr [(6, 2)] (base 8))); decide (e.q.wait = .go false) && (let x := (e.hw.tail e.part e.ctx).roll s.time; x.en == true && winLe x.old 2 == true && roomB e r (putS r x.usedBytes) e.hw)),
    (let s := onPath (fun q => { q with state := .parked, wait := .wmark 10 true none }) (onCtx (fun c => { c with tail := { c.tail with reqs := [.path gk 0] } }) (onCtx (fun c => { c with tail := { c.tail with en := true, cur := 4, old := 2, bounds := [(2, 70), (3, 80), (4, 90)] } }) (base 8))); (match s.hw.ctx 0 1 with | some cx => decide (cx.tail.reqs = [.path gk 0]) && !cx.tail.busy && cx.tail.en | none => false)),
    (let s := onHw (fun h => { h with launches := h.launches.ins 3 { part := 0, ctx := 1, src := .host 0 0, addr := 0, hdr := [], doneAt := none, deps := [] } }) (onCtx (fun c => { c with tail := { c.tail with reqs := [.launch 3], announced := some 77 } }) (onCtx (fun c => { c with tail := { c.tail with en := true, cur := 4, old := 2, bounds := [(2, 70), (3, 80), (4, 90)] } }) (base 8))); (match s.hw.ctx 0 1 with | some cx => decide (cx.tail.reqs = [.launch 3]) && !cx.tail.busy && cx.tail.en | none => false) && (s.hw.launches.look 3).isSome),
    (let s := onCtx (fun c => { c with tail := { c.tail with announced := some 5, cur := 2 ^ 32 - 1 } }) { onCtx (fun c => { c with tail := { c.tail with en := true, cur := 4, old := 2, bounds := [(2, 70), (3, 80), (4, 90)] } }) (base 8) with time := 5 }; (match s.hw.ctx 0 1 with | some cx => decide (cx.tail.announced = some 5 ∧ 5 ≤ s.time) | none => false)),
    (let s := onCtx (fun c => { c with tail := { c.tail with announced := some 6 } }) { onCtx (fun c => { c with tail := { c.tail with en := true, cur := 4, old := 2, bounds := [(2, 70), (3, 80), (4, 90)] } }) (base 8) with time := 5 }; (match s.hw.ctx 0 1 with | some cx => decide (cx.tail.announced = some 6 ∧ s.time < 6) | none => false)),
    (let s := onCtx (fun c => { c with tail := { c.tail with period := 2, timer := 1000 } }) { onCtx (fun c => { c with tail := { c.tail with en := true, cur := 4, old := 2, bounds := [(2, 70), (3, 80), (4, 90)] } }) (base 8) with time := 3000 }; (match s.hw.ctx 0 1 with | some cx => cx.tail.en && !cx.tail.busy && decide (cx.tail.period ≠ 0 ∧ cx.tail.timer + 1000 * cx.tail.period ≤ s.time) | none => false)),
    (let s := onCtx (fun c => { c with tail := { c.tail with period := 2, timer := 1000 } }) { onCtx (fun c => { c with tail := { c.tail with en := true, cur := 4, old := 2, bounds := [(2, 70), (3, 80), (4, 90)] } }) (base 8) with time := 2999 }; (match s.hw.ctx 0 1 with | some cx => cx.tail.en && !cx.tail.busy && decide (cx.tail.period ≠ 0 ∧ s.time < cx.tail.timer + 1000 * cx.tail.period) | none => false)),
    (let s := onCtx (fun c => { c with tail := { c.tail with en := true, cur := 4, old := 2, bounds := [(2, 70), (3, 80), (4, 90)] } }) (base 8); (match s.hw.ctx 0 1 with | some cx => cx.tail.en && !bit 0 (0x0010000000000000 : Nat) | none => false)),
    (let s := base 8; (match s.hw.ctx 0 1 with | some cx => !cx.tail.en && !(readHandle s.hw s.mem 0 1 4095).ok | none => false))] : List Bool).all id = true := by
  decide +kernel

/-- States and operands for the hypotheses of TailReverts. -/
theorem test_meets_TailReverts : ([
    okF Forms.wcfg (fl (cls := 3) (opt := 0) (d := 4) (a := 6) (b := 7)) (sup (sr [(6, 65536)] (base 8))) (fun e r => decide (65536 ≤ (e.sa r).toNat)),
    okF Forms.wcfg (fl (cls := 3) (opt := 0) (d := 4) (a := 6) (b := 7)) (onHw (fun h => h.setPart 0 fun q => { q with contexts := q.contexts.ins 2 { state := .stopped, tail := { en := false, cur := 4, old := 2, busy := false } } }) (sup (sr [(6, 2), (7, 3)] (base 8)))) (fun e r => let s := onHw (fun h => h.setPart 0 fun q => { q with contexts := q.contexts.ins 2 { state := .stopped, tail := { en := false, cur := 4, old := 2, busy := false } } }) (sup (sr [(6, 2), (7, 3)] (base 8))); !((e.hw.tail e.part 2).roll s.time).en && roomB e r (putS r 3) e.hw),
    okF Forms.wcfg (fl (cls := 3) (opt := 1) (d := 4) (a := 6) (b := 7)) (sup (sr [(6, 65536)] (base 8))) (fun e r => decide (65536 ≤ (e.sa r).toNat)),
    okF Forms.wcfg (fl (cls := 3) (opt := 1) (d := 4) (a := 6) (b := 7)) (onHw (fun h => h.setPart 0 fun q => { q with contexts := q.contexts.ins 2 { state := .stopped, tail := { en := false, cur := 4, old := 2, busy := false } } }) (sup (sr [(6, 2), (7, 3)] (base 8)))) (fun e r => let s := onHw (fun h => h.setPart 0 fun q => { q with contexts := q.contexts.ins 2 { state := .stopped, tail := { en := false, cur := 4, old := 2, busy := false } } }) (sup (sr [(6, 2), (7, 3)] (base 8))); !((e.hw.tail e.part 2).roll s.time).en && roomB e r (putS r 3) e.hw),
    okF Forms.wcfg (fl (cls := 3) (opt := 2) (d := 4) (a := 6) (b := 7)) (sup (sr [(6, 65536)] (base 8))) (fun e r => decide (65536 ≤ (e.sa r).toNat)),
    okF Forms.wcfg (fl (cls := 3) (opt := 2) (d := 4) (a := 6) (b := 7)) (onHw (fun h => h.setPart 0 fun q => { q with contexts := q.contexts.ins 2 { state := .stopped, tail := { en := false, cur := 4, old := 2, busy := false } } }) (sup (sr [(6, 2), (7, 3)] (base 8)))) (fun e r => let s := onHw (fun h => h.setPart 0 fun q => { q with contexts := q.contexts.ins 2 { state := .stopped, tail := { en := false, cur := 4, old := 2, busy := false } } }) (sup (sr [(6, 2), (7, 3)] (base 8))); !((e.hw.tail e.part 2).roll s.time).en && roomB e r (putS r 3) e.hw),
    okF Forms.wcfg (fl (cls := 3) (opt := 2) (d := 4) (a := 6) (b := 7)) (onHw (fun h => h.setPart 0 fun q => { q with contexts := q.contexts.ins 2 { state := .stopped, tail := { en := true, cur := 4, old := 2, busy := false } } }) (sup (sr [(6, 2), (7, 1)] (base 8)))) (fun e r => let s := onHw (fun h => h.setPart 0 fun q => { q with contexts := q.contexts.ins 2 { state := .stopped, tail := { en := true, cur := 4, old := 2, busy := false } } }) (sup (sr [(6, 2), (7, 1)] (base 8))); let x := (e.hw.tail e.part 2).roll s.time; let k := (e.sb r).toNat; x.en && !(winLe k x.cur && winLe x.old k) && roomB e r (putS r 2) e.hw),
    okF Forms.wcfg (fl (cls := 3) (opt := 2) (d := 4) (a := 6) (b := 7)) (onHw (fun h => h.setPart 0 fun q => { q with contexts := q.contexts.ins 2 { state := .stopped, tail := { en := true, cur := 4, old := 2, busy := false } } }) (sup (sr [(6, 2), (7, 5)] (base 8)))) (fun e r => let s := onHw (fun h => h.setPart 0 fun q => { q with contexts := q.contexts.ins 2 { state := .stopped, tail := { en := true, cur := 4, old := 2, busy := false } } }) (sup (sr [(6, 2), (7, 5)] (base 8))); let x := (e.hw.tail e.part 2).roll s.time; let k := (e.sb r).toNat; x.en && !(winLe k x.cur && winLe x.old k) && roomB e r (putS r 2) e.hw),
    okF Forms.wcfg (fl (cls := 3) (opt := 2) (d := 4) (a := 6) (b := 7)) (onHw (fun h => h.setPart 0 fun q => { q with contexts := q.contexts.ins 2 { state := .stopped, tail := { en := true, cur := 4, old := 2, busy := false } } }) (sup (sr [(6, 2), (7, 2)] (base 8)))) (fun e r => let s := onHw (fun h => h.setPart 0 fun q => { q with contexts := q.contexts.ins 2 { state := .stopped, tail := { en := true, cur := 4, old := 2, busy := false } } }) (sup (sr [(6, 2), (7, 2)] (base 8))); let x := (e.hw.tail e.part 2).roll s.time; let k := (e.sb r).toNat; let hw := e.hw.setTail e.part 2 fun _ => { x.discard (fun j => !winLe k j) with old := k }; let w : Writes := { s := [(r.d, wcfgResult k 0 0)] }; x.en && winLe k x.cur && winLe x.old k && roomB e r w hw),
    okF Forms.wcfg (fl (cls := 3) (opt := 2) (d := 4) (a := 6) (b := 7)) (onHw (fun h => h.setPart 0 fun q => { q with contexts := q.contexts.ins 2 { state := .stopped, tail := { en := true, cur := 4, old := 2, busy := false } } }) (sup (sr [(6, 2), (7, 4)] (base 8)))) (fun e r => let s := onHw (fun h => h.setPart 0 fun q => { q with contexts := q.contexts.ins 2 { state := .stopped, tail := { en := true, cur := 4, old := 2, busy := false } } }) (sup (sr [(6, 2), (7, 4)] (base 8))); let x := (e.hw.tail e.part 2).roll s.time; let k := (e.sb r).toNat; let hw := e.hw.setTail e.part 2 fun _ => { x.discard (fun j => !winLe k j) with old := k }; let w : Writes := { s := [(r.d, wcfgResult k 0 0)] }; x.en && winLe k x.cur && winLe x.old k && roomB e r w hw),
    okF Forms.wcfg (fl (cls := 3) (d := 4) (a := 6) (b := 7)) (onHw (fun h => h.setPart 0 fun q => { q with contexts := q.contexts.ins 2 { state := .live, tail := { en := true, cur := 4, old := 2, busy := false } } }) (sup (sr [(6, 2), (7, 3)] (base 8)))) (fun e r => let s := onHw (fun h => h.setPart 0 fun q => { q with contexts := q.contexts.ins 2 { state := .live, tail := { en := true, cur := 4, old := 2, busy := false } } }) (sup (sr [(6, 2), (7, 3)] (base 8))); let x := (e.hw.tail e.part 2).roll s.time; let k := (e.sb r).toNat; x.en && !ctxStopped e.hw e.part 2 && roomB e r (putS r 1) e.hw),
    okF Forms.wcfg (fl (cls := 3) (opt := 1) (d := 4) (a := 6) (b := 7)) (onHw (fun h => h.setPart 0 fun q => { q with contexts := q.contexts.ins 2 { state := .stopped, tail := { en := true, cur := 4, old := 2, busy := false } } }) (sup (sr [(6, 2), (7, 5)] (base 8)))) (fun e r => let s := onHw (fun h => h.setPart 0 fun q => { q with contexts := q.contexts.ins 2 { state := .stopped, tail := { en := true, cur := 4, old := 2, busy := false } } }) (sup (sr [(6, 2), (7, 5)] (base 8))); let x := (e.hw.tail e.part 2).roll s.time; let k := (e.sb r).toNat; x.en && ctxStopped e.hw e.part 2 && !winLe k x.cur && roomB e r (putS r 2) e.hw),
    okF Forms.wcfg (fl (cls := 3) (opt := 1) (d := 4) (a := 6) (b := 7)) (onHw (fun h => h.setPart 0 fun q => { q with contexts := q.contexts.ins 2 { state := .stopped, tail := { en := true, cur := 4, old := 2, busy := true } } }) (sup (sr [(6, 2), (7, 4)] (base 8)))) (fun e r => let s := onHw (fun h => h.setPart 0 fun q => { q with contexts := q.contexts.ins 2 { state := .stopped, tail := { en := true, cur := 4, old := 2, busy := true } } }) (sup (sr [(6, 2), (7, 4)] (base 8))); let x := (e.hw.tail e.part 2).roll s.time; let k := (e.sb r).toNat; x.en && ctxStopped e.hw e.part 2 && winLe x.old k && winLe k x.cur && x.busy),
    okF Forms.wcfg (fl (cls := 3) (opt := 0) (d := 4) (a := 6) (b := 7)) (onHw (fun h => h.setPart 0 fun q => { q with contexts := q.contexts.ins 2 { state := .stopped, tail := { en := true, cur := 4, old := 2, busy := false } } }) (sup (sr [(6, 2), (7, 2)] (base 8)))) (fun e r => let s := onHw (fun h => h.setPart 0 fun q => { q with contexts := q.contexts.ins 2 { state := .stopped, tail := { en := true, cur := 4, old := 2, busy := false } } }) (sup (sr [(6, 2), (7, 2)] (base 8))); let x := (e.hw.tail e.part 2).roll s.time; let k := (e.sb r).toNat; x.en && ctxStopped e.hw e.part 2 && winLe x.old k && winLe k x.cur && !x.busy),
    okF Forms.wcfg (fl (cls := 3) (opt := 1) (d := 4) (a := 6) (b := 7)) (onHw (fun h => h.setPart 0 fun q => { q with contexts := q.contexts.ins 2 { state := .stopped, tail := { en := true, cur := 4, old := 2, busy := false } } }) (sup (sr [(6, 2), (7, 2)] (base 8)))) (fun e r => let s := onHw (fun h => h.setPart 0 fun q => { q with contexts := q.contexts.ins 2 { state := .stopped, tail := { en := true, cur := 4, old := 2, busy := false } } }) (sup (sr [(6, 2), (7, 2)] (base 8))); let x := (e.hw.tail e.part 2).roll s.time; let k := (e.sb r).toNat; x.en && ctxStopped e.hw e.part 2 && winLe x.old k && winLe k x.cur && !x.busy),
    (let s := onCtx (fun c => { c with state := .stopped, tail := { c.tail with irrev := [(4, 1)] } }) (onCtx (fun c => { c with tail := { c.tail with en := true, cur := 4, old := 2, bounds := [(2, 70), (3, 80), (4, 90)] } }) (base 8)); let x := ((discardHeld s 0 1).hw.tail 0 1).roll s.time; winLe 3 x.cur && x.irrev.val 0 x.cur != 0 && 3 != winNext x.cur),
    okA (onPath (fun q => { q with state := .parked, wait := .revert 2 3 true 4 (some (9, 5)), form := some (regsF Forms.wcfg (fl (cls := 3) (d := 4))) }) { base 8 with time := 5 }) placeRef (fun e => let s := onPath (fun q => { q with state := .parked, wait := .revert 2 3 true 4 (some (9, 5)), form := some (regsF Forms.wcfg (fl (cls := 3) (d := 4))) }) { base 8 with time := 5 }; runsOn s.hw e.core e.ctx && decide (e.q.wait = .revert 2 3 true 4 (some (9, 5)) ∧ 5 ≤ s.time)),
    okA (onPath (fun q => { q with state := .parked, wait := .revert 2 3 true 4 (some (9, 6)), form := some (regsF Forms.wcfg (fl (cls := 3) (d := 4))) }) { base 8 with time := 5 }) placeRef (fun e => let s := onPath (fun q => { q with state := .parked, wait := .revert 2 3 true 4 (some (9, 6)), form := some (regsF Forms.wcfg (fl (cls := 3) (d := 4))) }) { base 8 with time := 5 }; runsOn s.hw e.core e.ctx && decide (e.q.wait = .revert 2 3 true 4 (some (9, 6)) ∧ s.time < 6))] : List Bool).all id = true := by
  decide +kernel

/-- States and operands for the hypotheses of TrapForms. -/
theorem test_meets_TrapForms : ([
    okS Forms.trapS (sf 255) (base 4) (fun _ _ => true),
    okF Forms.trap (fl (cls := 1) (a := 6)) (sr [(6, 2 ^ 32 + 7)] (base 8)) (fun _ _ => true),
    okF Forms.tret (fl (cls := 3) (opt := 0) (d := 4) (a := 6)) ((sr [(6, 2 ^ 47)] (base 8))) (fun e r => (e.sysTarget (e.sa r)).bad),
    okF Forms.tret (fl (cls := 3) (opt := 0) (d := 4) (a := 6)) ((sr [(6, 2 ^ 30 + 2 * 2 ^ 48)] (base 8))) (fun e r => let x := e.sysTarget (e.sa r); !x.bad && !e.sup && x.ctx != e.ctx),
    okF Forms.tret (fl (cls := 3) (opt := 0) (d := 4) (a := 6)) ((sr [(6, 0xC0000000)] (base 8))) (fun e r => let x := e.sysTarget (e.sa r); !x.bad && x.ctx == e.ctx && decide (e.q.wait = .none)),
    okF Forms.tret (fl (cls := 3) (opt := 0) (d := 4) (a := 6)) (onPath (fun q => { q with wait := .go false }) <| (sr [(6, 0xC0000000 + 3 * 2 ^ 17)] (base 8))) (fun e r => decide (e.q.wait = .go false) && (let x := e.sysTarget (e.sa r); !x.bad && x.ctx == e.ctx && x.gk == e.gk && x.path == 3 && !(e.g.paths.has 3))),
    okF Forms.tret (fl (cls := 3) (opt := 0) (d := 4) (a := 6)) (onPath (fun q => { q with wait := .go false }) <| (sr [(6, 0xC0000000)] (base 8))) (fun e r => decide (e.q.wait = .go false) && (let x := e.sysTarget (e.sa r); !x.bad && x.path == 0 && x.gk == e.gk && e.q.trap.isNone && roomB e r (putS r 2) e.hw)),
    okF Forms.tret (fl (cls := 3) (opt := 0) (d := 4) (a := 6)) (onPath (fun q => { q with wait := .go false }) <| onGang (fun g => { g with paths := g.paths.ins 3 { state := .stopped, mask := 0xF0, pc := 0x500100, trap := some { cause := 5, level := 1, next := 0x500108, resume := 0x500100 } } }) (sr [(6, 0xC0000000 + 3 * 2 ^ 17)] (base 8))) (fun e _ => decide (e.q.wait = .go false) && ((match e.hw.gangs.look e.gk with | some g => (match g.paths.look 3 with | some y => decide (y.state = .stopped) && (match y.trap with | some t => t.cause == 5 && t.level == 1 | none => false) | none => false) | none => false) && !e.sup)),
    okF Forms.tret (fl (cls := 3) (opt := 0) (d := 4) (a := 6)) (onPath (fun q => { q with wait := .go false }) <| onGang (fun g => { g with paths := g.paths.ins 3 { state := .stopped, mask := 0xF0, pc := 0x500100, trap := some { cause := 5, level := 0, next := 0x500108, resume := 0x500100 } } }) (sr [(6, 0xC0000000 + 3 * 2 ^ 17)] (base 8))) (fun e r => decide (e.q.wait = .go false) && ((match e.hw.gangs.look e.gk with | some g => (match g.paths.look 3 with | some y => decide (y.state = .stopped) && (match y.trap with | some t => t.cause == 5 && t.level == 0 | none => false) | none => false) | none => false) && roomB e r (putS r 0) e.hw)),
    okF Forms.tret (fl (cls := 3) (opt := 0) (d := 4) (a := 6)) (onPath (fun q => { q with wait := .go false }) <| sup <| onGang (fun g => { g with paths := g.paths.ins 3 { state := .stopped, mask := 0xF0, pc := 0x500100, trap := some { cause := 10, level := 1, next := 0x500108, resume := 0x500100 } } }) (sr [(6, 0xC0000000 + 3 * 2 ^ 17)] (base 8))) (fun e r => decide (e.q.wait = .go false) && ((match e.hw.gangs.look e.gk with | some g => (match g.paths.look 3 with | some y => decide (y.state = .stopped) && (match y.trap with | some t => t.cause == 10 && t.level == 1 | none => false) | none => false) | none => false) && e.sup && roomB e r (putS r 0) e.hw)),
    okF Forms.tret (fl (cls := 3) (opt := 1) (d := 4) (a := 6)) (onPath (fun q => { q with wait := .go false }) <| onGang (fun g => { g with paths := g.paths.ins 3 { state := .stopped, mask := 0xF0, pc := 0x500100, trap := some { cause := 4, level := 0, next := 0x500108, resume := 0x500100 } } }) (sr [(6, 0xC0000000 + 3 * 2 ^ 17)] (base 8))) (fun e r => decide (e.q.wait = .go false) && ((match e.hw.gangs.look e.gk with | some g => (match g.paths.look 3 with | some y => decide (y.state = .stopped) && (match y.trap with | some t => t.cause == 4 && t.level == 0 | none => false) | none => false) | none => false) && roomB e r (putS r 2) e.hw)),
    okF Forms.tret (fl (cls := 3) (opt := 1) (d := 4) (a := 6)) (onPath (fun q => { q with wait := .go false }) <| onGang (fun g => { g with paths := g.paths.ins 3 { state := .stopped, mask := 0xF0, pc := 0x500100, trap := some { cause := 5, level := 0, next := 0x500108, resume := 0x500100 } } }) (sr [(6, 0xC0000000 + 3 * 2 ^ 17)] (base 8))) (fun e r => decide (e.q.wait = .go false) && ((match e.hw.gangs.look e.gk with | some g => (match g.paths.look 3 with | some y => decide (y.state = .stopped) && (match y.trap with | some t => t.cause == 5 && t.level == 0 | none => false) | none => false) | none => false) && roomB e r (putS r 0) e.hw)),
    okF Forms.tret (fl (cls := 3) (opt := 2) (d := 4) (a := 6)) (onPath (fun q => { q with wait := .go false }) <| onGang (fun g => { g with paths := g.paths.ins 3 { state := .stopped, mask := 0xF0, pc := 0x500100, trap := some { cause := 5, level := 0, next := 0x500108, resume := 0x500100 } } }) (sr [(6, 0xC0000000 + 3 * 2 ^ 17)] (base 8))) (fun e r => decide (e.q.wait = .go false) && ((match e.hw.gangs.look e.gk with | some g => (match g.paths.look 3 with | some y => decide (y.state = .stopped) && (match y.trap with | some t => t.cause == 5 && t.level == 0 | none => false) | none => false) | none => false) && roomB e r (putS r 0) e.hw)),
    (let s := onGang (fun g => { g with paths := g.paths.ins 3 { state := .stopped, mask := 0xF0, pc := 0x500100, trap := some { cause := 5, level := 0, next := 0x500108, resume := 0x500100 } } }) (base 8); (match s.hw.gangs.look gk with | some g => (match g.paths.look 3 with | some q => !q.folded | none => false) | none => false))] : List Bool).all id = true := by
  decide +kernel

/-- States and operands for the hypotheses of TrapEntry: with room in the context's ring, with none, and with the supervisor ring for a context whose ring is off. -/
theorem test_meets_TrapEntry : ([
    okE (base 8) (fun e => let s := base 8; (s.hw.part e.part).link.hostLines.isEmpty && !e.q.folded),
    okE (onCtx (fun c => { c with ring := { base := 0x600000, en := true } }) (base 8)) (fun e => let s := onCtx (fun c => { c with ring := { base := 0x600000, en := true } }) (base 8); !(causeSup 5 || gkCtx e.gk == (s.hw.part e.part).sup) && (match s.hw.ctx e.part (gkCtx e.gk) with | some x => x.ring.en == true | none => false)),
    okE (onPart (fun q => { q with sring := { base := 0x600000, en := true } }) (base 8)) (fun e => let s := onPart (fun q => { q with sring := { base := 0x600000, en := true } }) (base 8); !(causeSup 5 || gkCtx e.gk == (s.hw.part e.part).sup) && (match s.hw.ctx e.part (gkCtx e.gk) with | some x => x.ring.en == false | none => false)),
    okE (poke 0x600000 8 16 (onCtx (fun c => { c with ring := { base := 0x600000, en := true } }) (base 8))) (fun e => let s := poke 0x600000 8 16 (onCtx (fun c => { c with ring := { base := 0x600000, en := true } }) (base 8)); !(causeSup 5 || gkCtx e.gk == (s.hw.part e.part).sup) && decide (2 ^ 4 ≤ (latestNat s.mem s.hw 0 0x600000 8 + 2 ^ 64 - rdNat s.mem 0 0x600008 8) % 2 ^ 64)),
    okE (sup (base 8)) (fun e => let s := sup (base 8); gkCtx e.gk == (s.hw.part e.part).sup && !(s.hw.part e.part).sring.en)] : List Bool).all id = true := by
  decide +kernel

/-- States and operands for the hypotheses of SystemRegisters. -/
theorem test_meets_SystemRegisters : ([
    okF Forms.rsys (fl (cls := 3) (d := 4) (a := 6) (b := 7)) (sr [(6, 2 ^ 29)] (base 8)) (fun e r => (e.sysTarget (e.sa r)).bad),
    okF Forms.wsys (fl (cls := 3) (d := 4) (a := 6) (b := 7)) (sr [(6, 2 ^ 21)] (base 8)) (fun e r => (e.sysTarget (e.sa r)).bad),
    okF Forms.rsys (fl (cls := 3) (d := 4) (a := 6) (b := 7)) (sr [(6, 0xC0000000), (7, 4096)] (base 8)) (fun e r => !(e.sysTarget (e.sa r)).bad && (sysReg 4096).isNone),
    okF Forms.wsys (fl (cls := 3) (d := 4) (a := 6) (tail := ex 0 0x460)) (sr [(6, 0xC0000000)] (base 16)) (fun e r => !(e.sysTarget (e.sa r)).bad && (sysReg 0x460).isNone),
    okF Forms.rsys (fl (cls := 3) (d := 4) (a := 6) (tail := ex 0 0x10)) (sr [(6, 0xC0000000)] (base 16)) (fun e r => userDenied e .context false false (e.sysTarget (e.sa r)) && decide (sysReg 0x10 = some (.context, false))),
    okF Forms.rsys (fl (cls := 3) (d := 4) (a := 6) (tail := ex)) (sr [(6, 0xC0000000)] (base 16)) (fun e r => !userDenied e .context true false (e.sysTarget (e.sa r)) && decide (sysReg 0 = some (.context, true)) && roomB e r (putS r (readSys e.hw e.part e.now 0 .context (e.sysTarget (e.sa r)))) e.hw),
    okF Forms.wsys (fl (cls := 3) (d := 4) (a := 6) (tail := ex 0 0x300)) (sup (sr [(6, 0x80000000 + 5 * 128)] (base 16))) (fun e r => (let x := e.sysTarget (e.sa r); !x.bad && decide (sysReg 0x300 = some (.core, true)) && !userDenied e .core true true x && otherCore e .core x) && decide (e.q.wait = .none)),
    okF Forms.wsys (fl (cls := 3) (d := 4) (a := 6) (tail := ex 0 0x300)) (onPath (fun q => { q with wait := .go false }) (sup (sr [(6, 0x80000000 + 5 * 128)] (base 16)))) (fun e r => let s := onPath (fun q => { q with wait := .go false }) (sup (sr [(6, 0x80000000 + 5 * 128)] (base 16))); (let x := e.sysTarget (e.sa r); !x.bad && decide (sysReg 0x300 = some (.core, true)) && !userDenied e .core true true x && otherCore e .core x) && decide (e.q.wait = .go false) && roomB e r {} (writeSys e.hw s.mem e.part e.now 0x300 .core (e.sysTarget (e.sa r)) (e.sd r).toNat)),
    okF Forms.rsys (fl (cls := 3) (d := 4) (a := 6) (tail := ex 0 0x300)) (sup (sr [(6, 0x80000000 + 5 * 128)] (base 16))) (fun e r => (let x := e.sysTarget (e.sa r); !x.bad && decide (sysReg 0x300 = some (.core, true)) && !userDenied e .core true false x && otherCore e .core x) && decide (e.q.wait = .none)),
    okF Forms.rsys (fl (cls := 3) (d := 4) (a := 6) (tail := ex 0 0x300)) (onPath (fun q => { q with wait := .go false }) (sup (sr [(6, 0x80000000 + 5 * 128)] (base 16)))) (fun e r => (let x := e.sysTarget (e.sa r); !x.bad && decide (sysReg 0x300 = some (.core, true)) && !userDenied e .core true false x && otherCore e .core x) && decide (e.q.wait = .go false) && roomB e r (putS r 0) e.hw),
    okF Forms.wsys (fl (cls := 3) (d := 4) (a := 6) (tail := ex 0 0x10)) (sup (sr [(4, 2 ^ 39 + 2 ^ 17 + 1), (6, 0xC0000000)] (base 16))) (fun e r => let s := sup (sr [(4, 2 ^ 39 + 2 ^ 17 + 1), (6, 0xC0000000)] (base 16)); (let x := e.sysTarget (e.sa r); !userDenied e .context false true x && roomB e r {} (writeSys e.hw s.mem e.part e.now 0x10 .context x (e.sd r).toNat))),
    okE (base 8) (fun e => !e.sup && (e.sysTarget (word (2 * 2 ^ 48))).ctx != e.ctx),
    (let s := base 8; let x : SysTarget := { bad := false, ctx := 1, core := 1023, slot := 0, path := 0 }; !coreNamed s.hw 0 x.core && (0x300 : Nat) != 0),
    (let s := base 8; let x : SysTarget := { bad := false, ctx := 1, core := 0, slot := 0, path := 0 }; (s.hw.ctx 0 x.ctx).isSome),
    (let s := base 8; (s.hw.part 0).present && (s.hw.ctx 0 0xFFFE).isNone && decide ((s.hw.part 0).contexts.length < 4096) && (s.hw.ctx 0 1).isSome),
    (let s := base 8; corePart s.hw 0 == some 0 && (s.hw.ctx 0 1).isSome && slotUse s.hw 0 1 == 0),
    (let s := onHw (fun h => h.setImage 0 1 fun i => { i with spilled := [(2 ^ 20, 4352)] }) (sr [(5, 0)] (base 8)); corePart s.hw 0 == some 0 && (s.hw.ctx 0 1).isSome && slotUse s.hw 0 1 != 0),
    (let s := base 8; !tilePending s.hw 863 191 && (s.hw.core 863).tagWrites.isEmpty)] : List Bool).all id = true := by
  decide +kernel

/-- States and operands for the hypotheses of ContextCommands. -/
theorem test_meets_ContextCommands1 : ([
    okF Forms.cstop (fl (cls := 3) (d := 4) (a := 6)) (sup (sr [(6, 2 ^ 32)] (onHw (fun h => h.setPart 0 fun q => { q with contexts := q.contexts.ins 2 { state := .live } }) (base 8)))) (fun e r => (e.sysTarget (e.sa r)).bad),
    okF Forms.cstop (fl (cls := 3) (d := 4) (a := 6)) (sup (sr [(6, 3 * 2 ^ 48)] (onHw (fun h => h.setPart 0 fun q => { q with contexts := q.contexts.ins 2 { state := .live } }) (base 8)))) (fun e r => let x := e.sysTarget (e.sa r); !x.bad && (e.hw.ctx e.part x.ctx).isNone && roomB e r (putS r 3) e.hw),
    okF Forms.cstop (fl (cls := 3) (d := 4) (a := 6)) (sup (sr [(6, 0xC0000000)] (onHw (fun h => h.setPart 0 fun q => { q with contexts := q.contexts.ins 2 { state := .live } }) (base 8)))) (fun e r => let x := e.sysTarget (e.sa r); !x.bad && (e.hw.ctx e.part x.ctx).isSome && x.ctx == (e.hw.part e.part).sup && roomB e r (putS r 4) e.hw),
    okF Forms.cstop (fl (cls := 3) (d := 4) (a := 6)) (sup (sr [(6, 2 * 2 ^ 48)] (onHw (fun h => h.setPart 0 fun q => { q with contexts := q.contexts.ins 2 { state := .killing } }) (base 8)))) (fun e r => (match e.hw.ctx e.part (e.sysTarget (e.sa r)).ctx with | some c => decide (c.state = .killing) | none => false) && (e.sysTarget (e.sa r)).ctx != (e.hw.part e.part).sup && roomB e r (putS r 1) (e.hw)),
    okF Forms.cstop (fl (cls := 3) (d := 4) (a := 6)) (sup (sr [(6, 2 * 2 ^ 48)] (onHw (fun h => h.setPart 0 fun q => { q with contexts := q.contexts.ins 2 { state := .live } }) (base 8)))) (fun e r => (match e.hw.ctx e.part (e.sysTarget (e.sa r)).ctx with | some c => decide (c.state = .live) | none => false) && (e.sysTarget (e.sa r)).ctx != (e.hw.part e.part).sup),
    okF Forms.cstop (fl (cls := 3) (d := 4) (a := 6)) (sup (sr [(6, 2 * 2 ^ 48)] (onHw (fun h => h.setPart 0 fun q => { q with contexts := q.contexts.ins 2 { state := .stopped } }) (base 8)))) (fun e r => (match e.hw.ctx e.part (e.sysTarget (e.sa r)).ctx with | some c => decide (c.state = .stopped) | none => false) && (e.sysTarget (e.sa r)).ctx != (e.hw.part e.part).sup && roomB e r (putS r 0) (e.hw)),
    okF Forms.cstop (fl (cls := 3) (d := 4) (a := 6)) (sup (sr [(6, 2 * 2 ^ 48)] (onHw (fun h => h.setPart 0 fun q => { q with contexts := q.contexts.ins 2 { state := .stopping } }) (base 8)))) (fun e r => (match e.hw.ctx e.part (e.sysTarget (e.sa r)).ctx with | some c => decide (c.state = .stopping) | none => false) && (e.sysTarget (e.sa r)).ctx != (e.hw.part e.part).sup),
    okF Forms.cresume (fl (cls := 3) (d := 4) (a := 6)) (sup (sr [(6, 2 ^ 32)] (onHw (fun h => h.setPart 0 fun q => { q with contexts := q.contexts.ins 2 { state := .live } }) (base 8)))) (fun e r => (e.sysTarget (e.sa r)).bad),
    okF Forms.cresume (fl (cls := 3) (d := 4) (a := 6)) (sup (sr [(6, 3 * 2 ^ 48)] (onHw (fun h => h.setPart 0 fun q => { q with contexts := q.contexts.ins 2 { state := .live } }) (base 8)))) (fun e r => let x := e.sysTarget (e.sa r); !x.bad && (e.hw.ctx e.part x.ctx).isNone && roomB e r (putS r 3) e.hw),
    okF Forms.cresume (fl (cls := 3) (d := 4) (a := 6)) (sup (sr [(6, 2 * 2 ^ 48)] (onHw (fun h => h.setPart 0 fun q => { q with contexts := q.contexts.ins 2 { state := .killing } }) (base 8)))) (fun e r => (match e.hw.ctx e.part (e.sysTarget (e.sa r)).ctx with | some c => decide (c.state = .killing) | none => false) && (e.sysTarget (e.sa r)).ctx != (e.hw.part e.part).sup && roomB e r (putS r 1) (e.hw)),
    okF Forms.cresume (fl (cls := 3) (d := 4) (a := 6)) (sup (sr [(6, 2 * 2 ^ 48)] (onHw (fun h => h.setPart 0 fun q => { q with contexts := q.contexts.ins 2 { state := .live } }) (base 8)))) (fun e r => (match e.hw.ctx e.part (e.sysTarget (e.sa r)).ctx with | some c => decide (c.state = .live) | none => false) && (e.sysTarget (e.sa r)).ctx != (e.hw.part e.part).sup && roomB e r (putS r 2) (e.hw)),
    okF Forms.cresume (fl (cls := 3) (d := 4) (a := 6)) (sup (sr [(6, 2 * 2 ^ 48)] (onHw (fun h => h.setPart 0 fun q => { q with contexts := q.contexts.ins 2 { state := .stopped } }) (base 8)))) (fun e r => (match e.hw.ctx e.part (e.sysTarget (e.sa r)).ctx with | some c => decide (c.state = .stopped) | none => false) && (e.sysTarget (e.sa r)).ctx != (e.hw.part e.part).sup && roomB e r (putS r 0) ((e.hw.setCtx e.part 2 fun y => { y with state := .live }))),
    okF Forms.cresume (fl (cls := 3) (d := 4) (a := 6)) (sup (sr [(6, 2 * 2 ^ 48)] (onHw (fun h => h.setPart 0 fun q => { q with contexts := q.contexts.ins 2 { state := .stopping } }) (base 8)))) (fun e r => (match e.hw.ctx e.part (e.sysTarget (e.sa r)).ctx with | some c => decide (c.state = .stopping) | none => false) && (e.sysTarget (e.sa r)).ctx != (e.hw.part e.part).sup && roomB e r (putS r 2) (e.hw)),
    okF Forms.ckill (fl (cls := 3) (d := 4) (a := 6)) (sup (sr [(6, 2 ^ 32)] (onHw (fun h => h.setPart 0 fun q => { q with contexts := q.contexts.ins 2 { state := .live } }) (base 8)))) (fun e r => (e.sysTarget (e.sa r)).bad),
    okF Forms.ckill (fl (cls := 3) (d := 4) (a := 6)) (sup (sr [(6, 3 * 2 ^ 48)] (onHw (fun h => h.setPart 0 fun q => { q with contexts := q.contexts.ins 2 { state := .live } }) (base 8)))) (fun e r => let x := e.sysTarget (e.sa r); !x.bad && (e.hw.ctx e.part x.ctx).isNone && roomB e r (putS r 3) e.hw),
    okF Forms.ckill (fl (cls := 3) (d := 4) (a := 6)) (sup (sr [(6, 0xC0000000)] (onHw (fun h => h.setPart 0 fun q => { q with contexts := q.contexts.ins 2 { state := .live } }) (base 8)))) (fun e r => let x := e.sysTarget (e.sa r); !x.bad && (e.hw.ctx e.part x.ctx).isSome && x.ctx == (e.hw.part e.part).sup && roomB e r (putS r 4) e.hw),
    okF Forms.ckill (fl (cls := 3) (d := 4) (a := 6)) (sup (sr [(6, 2 * 2 ^ 48)] (onHw (fun h => h.setPart 0 fun q => { q with contexts := q.contexts.ins 2 { state := .killing } }) (base 8)))) (fun e r => (match e.hw.ctx e.part (e.sysTarget (e.sa r)).ctx with | some c => decide (c.state = .killing) | none => false) && (e.sysTarget (e.sa r)).ctx != (e.hw.part e.part).sup && roomB e r (putS r 1) (e.hw)),
    okF Forms.ckill (fl (cls := 3) (d := 4) (a := 6)) (sup (sr [(6, 2 * 2 ^ 48)] (onHw (fun h => h.setPart 0 fun q => { q with contexts := q.contexts.ins 2 { state := .live } }) (base 8)))) (fun e r => (match e.hw.ctx e.part (e.sysTarget (e.sa r)).ctx with | some c => decide (c.state = .live) | none => false) && (e.sysTarget (e.sa r)).ctx != (e.hw.part e.part).sup),
    okF Forms.ckill (fl (cls := 3) (d := 4) (a := 6)) (sup (sr [(6, 2 * 2 ^ 48)] (onHw (fun h => h.setPart 0 fun q => { q with contexts := q.contexts.ins 2 { state := .stopped } }) (base 8)))) (fun e r => (match e.hw.ctx e.part (e.sysTarget (e.sa r)).ctx with | some c => decide (c.state = .stopped) | none => false) && (e.sysTarget (e.sa r)).ctx != (e.hw.part e.part).sup),
    okF Forms.ckill (fl (cls := 3) (d := 4) (a := 6)) (sup (sr [(6, 2 * 2 ^ 48)] (onHw (fun h => h.setPart 0 fun q => { q with contexts := q.contexts.ins 2 { state := .stopping } }) (base 8)))) (fun e r => (match e.hw.ctx e.part (e.sysTarget (e.sa r)).ctx with | some c => decide (c.state = .stopping) | none => false) && (e.sysTarget (e.sa r)).ctx != (e.hw.part e.part).sup)] : List Bool).all id = true := by
  decide +kernel

/-- The same, continued. -/
theorem test_meets_ContextCommands2 : ([
    okA (onPath (fun q => { q with state := .parked, wait := .command 4 0 2 cmdStop 0, form := some (regsF Forms.cstop (fl (cls := 3) (d := 4))) }) (onHw (fun h => h.setPart 0 fun q => { q with contexts := q.contexts.ins 2 { state := .stopped } }) (base 8))) placeRef (fun e => let s := onPath (fun q => { q with state := .parked, wait := .command 4 0 2 cmdStop 0, form := some (regsF Forms.cstop (fl (cls := 3) (d := 4))) }) (onHw (fun h => h.setPart 0 fun q => { q with contexts := q.contexts.ins 2 { state := .stopped } }) (base 8)); runsOn s.hw e.core e.ctx && decide (e.q.wait = .command 4 0 2 cmdStop 0) && ctxStopped s.hw e.part 2),
    okA (onPath (fun q => { q with state := .parked, wait := .command 4 0 2 cmdStop 0, form := some (regsF Forms.cstop (fl (cls := 3) (d := 4))) }) (onHw (fun h => h.setPart 0 fun q => { q with contexts := q.contexts.ins 2 { state := .stopping } }) (base 8))) placeRef (fun e => let s := onPath (fun q => { q with state := .parked, wait := .command 4 0 2 cmdStop 0, form := some (regsF Forms.cstop (fl (cls := 3) (d := 4))) }) (onHw (fun h => h.setPart 0 fun q => { q with contexts := q.contexts.ins 2 { state := .stopping } }) (base 8)); runsOn s.hw e.core e.ctx && decide (e.q.wait = .command 4 0 2 cmdStop 0) && !ctxStopped s.hw e.part 2),
    okA (onPath (fun q => { q with state := .parked, wait := .command 4 0 2 cmdKill 0, form := some (regsF Forms.cstop (fl (cls := 3) (d := 4))) }) (onHw (fun h => h.setPart 0 fun q => { q with contexts := q.contexts.ins 2 { state := .killing } }) (base 8))) placeRef (fun e => let s := onPath (fun q => { q with state := .parked, wait := .command 4 0 2 cmdKill 0, form := some (regsF Forms.cstop (fl (cls := 3) (d := 4))) }) (onHw (fun h => h.setPart 0 fun q => { q with contexts := q.contexts.ins 2 { state := .killing } }) (base 8)); runsOn s.hw e.core e.ctx && decide (e.q.wait = .command 4 0 2 cmdKill 0) && ctxKilling s.hw e.part 2),
    okA (onPath (fun q => { q with state := .parked, wait := .command 4 0 2 cmdKill 0, form := some (regsF Forms.cstop (fl (cls := 3) (d := 4))) }) (base 8)) placeRef (fun e => let s := onPath (fun q => { q with state := .parked, wait := .command 4 0 2 cmdKill 0, form := some (regsF Forms.cstop (fl (cls := 3) (d := 4))) }) (base 8); runsOn s.hw e.core e.ctx && decide (e.q.wait = .command 4 0 2 cmdKill 0) && !ctxKilling s.hw e.part 2),
    (let s := onHw (fun h => h.setPart 0 fun q => { q with contexts := q.contexts.ins 2 { state := .killing, killAt := 5 } }) { base 8 with time := 5 }; ctxKilling s.hw 0 2 && s.hw.cores.all (fun k => k.2.flipAt.isNone && k.2.moveAt.isNone)),
    (let s := onHw (fun h => h.setPart 0 fun q => { q with contexts := q.contexts.ins 2 { state := .stopping } }) (base 8); (match s.hw.ctx 0 2 with | some x => decide (x.state = .stopping) | none => false) && ctxQuiet s.hw 0 2 && s.hw.cores.all fun k => k.2.flipAt.isNone)] : List Bool).all id = true := by
  decide +kernel

/-- States and operands for the hypotheses of Banks: each command with its core unnamed, a flip under way, a bank busy, free and held; each stage of a swap; a unit, a held store, a held frame. -/
theorem test_meets_Banks1 : ([
    okF Forms.cswap (fl (cls := 3) (opt := 0) (d := 4) (a := 6)) (sup (sr [(6, 2 ^ 32)] (base 8))) (fun e r => (e.sysTarget (e.sa r)).bad),
    okF Forms.cswap (fl (cls := 3) (opt := 0) (d := 4) (a := 6)) (sup (sr [(6, 0x80000000 + 864 * 128)] (base 8))) (fun e r => let x := e.sysTarget (e.sa r); !x.bad && !coreNamed e.hw e.part x.core && roomB e r (putS r 3) e.hw),
    okF Forms.cswap (fl (cls := 3) (opt := 0) (d := 4) (a := 6)) (onCore (fun k => { k with flipAt := some 9 }) (sup (sr [(6, 0xC0000000)] (base 8)))) (fun e r => let x := e.sysTarget (e.sa r); !x.bad && coreNamed e.hw e.part x.core && (e.hw.core x.core).flipAt.isSome),
    okF Forms.cswap (fl (cls := 3) (opt := 1) (d := 4) (a := 6)) (sup (sr [(6, 2 ^ 32)] (base 8))) (fun e r => (e.sysTarget (e.sa r)).bad),
    okF Forms.cswap (fl (cls := 3) (opt := 1) (d := 4) (a := 6)) (sup (sr [(6, 0x80000000 + 864 * 128)] (base 8))) (fun e r => let x := e.sysTarget (e.sa r); !x.bad && !coreNamed e.hw e.part x.core && roomB e r (putS r 3) e.hw),
    okF Forms.cswap (fl (cls := 3) (opt := 1) (d := 4) (a := 6)) (onCore (fun k => { k with flipAt := some 9 }) (sup (sr [(6, 0xC0000000)] (base 8)))) (fun e r => let x := e.sysTarget (e.sa r); !x.bad && coreNamed e.hw e.part x.core && (e.hw.core x.core).flipAt.isSome),
    okF Forms.cswap (fl (cls := 3) (opt := 2) (d := 4) (a := 6) (b := 7)) (sup (sr [(6, 2 ^ 32)] (base 8))) (fun e r => (e.sysTarget (e.sa r)).bad),
    okF Forms.cswap (fl (cls := 3) (opt := 2) (d := 4) (a := 6) (b := 7)) (sup (sr [(6, 0x80000000 + 864 * 128)] (base 8))) (fun e r => let x := e.sysTarget (e.sa r); !x.bad && !coreNamed e.hw e.part x.core && roomB e r (putS r 3) e.hw),
    okF Forms.cswap (fl (cls := 3) (opt := 2) (d := 4) (a := 6) (b := 7)) (onCore (fun k => { k with flipAt := some 9 }) (sup (sr [(6, 0xC0000000)] (base 8)))) (fun e r => let x := e.sysTarget (e.sa r); !x.bad && coreNamed e.hw e.part x.core && (e.hw.core x.core).flipAt.isSome),
    okF Forms.cswap (fl (cls := 3) (opt := 0) (d := 4) (a := 6)) (sup (sr [(6, 0xC0000000), (7, 2)] (onCore (fun k => { k with ctx1 := some 2, st1 := .draining }) (onHw (fun h => h.setPart 0 fun q => { q with contexts := q.contexts.ins 2 { state := .live } }) (base 8))))) (fun e r => let x := e.sysTarget (e.sa r); !x.bad && coreNamed e.hw e.part x.core && (e.hw.core x.core).flipAt.isNone && !(e.hw.core x.core).outPend && bankBusy (e.hw.core x.core).st1 && roomB e r (putS r 1) e.hw),
    okF Forms.cswap (fl (cls := 3) (opt := 0) (d := 4) (a := 6)) (sup (sr [(6, 0xC0000000), (7, 2)] (onCore (fun k => { k with ctx1 := none, st1 := .empty }) (onHw (fun h => h.setPart 0 fun q => { q with contexts := q.contexts.ins 2 { state := .live } }) (base 8))))) (fun e r => let x := e.sysTarget (e.sa r); !x.bad && coreNamed e.hw e.part x.core && (e.hw.core x.core).flipAt.isNone && !(e.hw.core x.core).outPend && x.core == e.core && !bankBusy (e.hw.core x.core).st0 && !bankBusy (e.hw.core x.core).st1),
    okF Forms.cswap (fl (cls := 3) (opt := 0) (d := 4) (a := 6)) (sup (sr [(6, 0x80000000 + 863 * 128)] (base 8))) (fun e r => let x := e.sysTarget (e.sa r); !x.bad && coreNamed e.hw e.part x.core && (e.hw.core x.core).flipAt.isNone && !(e.hw.core x.core).outPend && x.core != e.core && !bankBusy (e.hw.core x.core).st0 && !bankBusy (e.hw.core x.core).st1),
    okF Forms.cswap (fl (cls := 3) (opt := 1) (d := 4) (a := 6)) (sup (sr [(6, 0xC0000000), (7, 2)] (onCore (fun k => { k with ctx1 := some 2, st1 := .draining }) (onHw (fun h => h.setPart 0 fun q => { q with contexts := q.contexts.ins 2 { state := .live } }) (base 8))))) (fun e r => let x := e.sysTarget (e.sa r); !x.bad && coreNamed e.hw e.part x.core && (e.hw.core x.core).flipAt.isNone && !(e.hw.core x.core).outPend && bankCtx e.hw x.core 1 == some 2 && decide (bankState e.hw x.core 1 = .draining)),
    okF Forms.cswap (fl (cls := 3) (opt := 1) (d := 4) (a := 6)) (sup (sr [(6, 0xC0000000), (7, 2)] (onCore (fun k => { k with ctx1 := some 2, st1 := .loaded }) (onHw (fun h => h.setPart 0 fun q => { q with contexts := q.contexts.ins 2 { state := .live } }) (base 8))))) (fun e r => let x := e.sysTarget (e.sa r); !x.bad && coreNamed e.hw e.part x.core && (e.hw.core x.core).flipAt.isNone && !(e.hw.core x.core).outPend && bankCtx e.hw x.core 1 == some 2 && decide (bankState e.hw x.core 1 = .loaded)),
    okF Forms.cswap (fl (cls := 3) (opt := 1) (d := 4) (a := 6)) (sup (sr [(6, 0xC0000000), (7, 2)] (onCore (fun k => { k with ctx1 := some 2, st1 := .spilling }) (onHw (fun h => h.setPart 0 fun q => { q with contexts := q.contexts.ins 2 { state := .live } }) (base 8))))) (fun e r => let x := e.sysTarget (e.sa r); !x.bad && coreNamed e.hw e.part x.core && (e.hw.core x.core).flipAt.isNone && !(e.hw.core x.core).outPend && decide (bankState e.hw x.core 1 ≠ .loaded ∧ bankState e.hw x.core 1 ≠ .draining) && roomB e r (putS r 2) e.hw),
    okF Forms.cswap (fl (cls := 3) (opt := 2) (d := 4) (a := 6) (b := 7)) (sup (sr [(6, 0xC0000000), (7, 65535)] (onCore (fun k => { k with ctx1 := none, st1 := .empty }) (onHw (fun h => h.setPart 0 fun q => { q with contexts := q.contexts.ins 2 { state := .live } }) (base 8))))) (fun e r => let x := e.sysTarget (e.sa r); !x.bad && coreNamed e.hw e.part x.core && (e.hw.core x.core).flipAt.isNone && !(e.hw.core x.core).outPend && (e.hw.ctx e.part ((e.sb r).toNat % 65536)).isNone && roomB e r (putS r 3) e.hw),
    okF Forms.cswap (fl (cls := 3) (opt := 2) (d := 4) (a := 6) (b := 7)) (sup (sr [(6, 0xC0000000), (7, 2)] (onCore (fun k => { k with ctx1 := some 2, st1 := .loaded }) (onHw (fun h => h.setPart 0 fun q => { q with contexts := q.contexts.ins 2 { state := .live } }) (base 8))))) (fun e r => let x := e.sysTarget (e.sa r); !x.bad && coreNamed e.hw e.part x.core && (e.hw.core x.core).flipAt.isNone && !(e.hw.core x.core).outPend && (e.hw.ctx e.part 2).isSome && decide (bankState e.hw x.core 1 ≠ .empty) && roomB e r (putS r 2) e.hw),
    okF Forms.cswap (fl (cls := 3) (opt := 2) (d := 4) (a := 6) (b := 7)) (onHw (fun h => h.setImage 0 2 fun i => { i with csave := 0x700000, place := .saved }) (poke 0x700000 8 (2 ^ 63 + 2 * 2 ^ 32) (sup (sr [(6, 0xC0000000), (7, 2)] (onCore (fun k => { k with ctx1 := none, st1 := .empty }) (onHw (fun h => h.setPart 0 fun q => { q with contexts := q.contexts.ins 2 { state := .live } }) (base 8))))))) (fun e r => let s := onHw (fun h => h.setImage 0 2 fun i => { i with csave := 0x700000, place := .saved }) (poke 0x700000 8 (2 ^ 63 + 2 * 2 ^ 32) (sup (sr [(6, 0xC0000000), (7, 2)] (onCore (fun k => { k with ctx1 := none, st1 := .empty }) (onHw (fun h => h.setPart 0 fun q => { q with contexts := q.contexts.ins 2 { state := .live } }) (base 8)))))); let x := e.sysTarget (e.sa r); !x.bad && coreNamed e.hw e.part x.core && (e.hw.core x.core).flipAt.isNone && !(e.hw.core x.core).outPend && (e.hw.ctx e.part 2).isSome && decide (bankState e.hw x.core 1 = .empty) && !inBank e.hw x.core 2 && headerValid e.hw s.mem e.part x.core 2),
    (let s := onCore (fun k => { k with flipAt := some 5, swaps := 65535 }) { base 8 with time := 5 }; (bankCtx s.hw 0 1).isNone && (bankCtx s.hw 0 0).isSome),
    okA (onPath (fun q => { q with state := .parked, wait := .command 4 0 2 cmdFlip 5, form := some (regsF Forms.cstop (fl (cls := 3) (d := 4))) }) { base 8 with time := 500 }) placeRef (fun e => let s := onPath (fun q => { q with state := .parked, wait := .command 4 0 2 cmdFlip 5, form := some (regsF Forms.cstop (fl (cls := 3) (d := 4))) }) { base 8 with time := 500 }; runsOn s.hw e.core e.ctx && decide (e.q.wait = .command 4 0 2 cmdFlip 5) && (s.hw.core 0).flipAt.isNone && decide (5 ≤ coreCycles s.hw 0 s.time))] : List Bool).all id = true := by
  decide +kernel

/-- The same, continued. -/
theorem test_meets_Banks2 : ([
    okA (onPath (fun q => { q with state := .parked, wait := .command 4 0 2 cmdFlip 600, form := some (regsF Forms.cstop (fl (cls := 3) (d := 4))) }) { base 8 with time := 5 }) placeRef (fun e => let s := onPath (fun q => { q with state := .parked, wait := .command 4 0 2 cmdFlip 600, form := some (regsF Forms.cstop (fl (cls := 3) (d := 4))) }) { base 8 with time := 5 }; runsOn s.hw e.core e.ctx && decide (e.q.wait = .command 4 0 2 cmdFlip 600) && decide (coreCycles s.hw 0 s.time < 600)),
    okA (onPath (fun q => { q with state := .parked, wait := .command 4 0 2 cmdOut 0, form := some (regsF Forms.cstop (fl (cls := 3) (d := 4))) }) (onCore (fun k => { k with ctx1 := some 2, st1 := .draining }) (onHw (fun h => h.setPart 0 fun q => { q with contexts := q.contexts.ins 2 { state := .live } }) (base 8)))) placeRef (fun e => let s := onPath (fun q => { q with state := .parked, wait := .command 4 0 2 cmdOut 0, form := some (regsF Forms.cstop (fl (cls := 3) (d := 4))) }) (onCore (fun k => { k with ctx1 := some 2, st1 := .draining }) (onHw (fun h => h.setPart 0 fun q => { q with contexts := q.contexts.ins 2 { state := .live } }) (base 8))); runsOn s.hw e.core e.ctx && decide (e.q.wait = .command 4 0 2 cmdOut 0) && bankCtx s.hw 0 1 == some 2 && decide (bankState s.hw 0 1 = .draining)),
    (let s := onCore (fun k => { k with ctx1 := some 2, st1 := .loaded }) (base 8); bankCtx s.hw 0 1 == some 2 && decide (bankState s.hw 0 1 = .loaded) && decide ((s.hw.core 0).act < 2)),
    (let s := onHw (fun h => h.setImage 0 1 fun i => { i with csave := 0x700000, records := [(0, [0, 0, 0, 4], 0)] }) (onCore (fun k => { k with units := [(0, 0)] }) (onBlock (fun b => { b with spb := 0, scr := [(5, 7)] }) (sr [(5, 9)] (vr 6 (fun l => l) (base 8))))); decide (bankOf s.hw 0 1 = 0) && !(heldKeys s.hw 0 1).1.isEmpty && !(heldKeys s.hw 0 1).2.isEmpty && !(heldUnits s.hw 0 0).isEmpty),
    okA (onPath (fun q => { q with state := .parked, wait := .command 4 0 2 cmdOut 0, form := some (regsF Forms.cstop (fl (cls := 3) (d := 4))) }) (onCore (fun k => { k with ctx1 := none, st1 := .empty }) (base 8))) placeRef (fun e => let s := onPath (fun q => { q with state := .parked, wait := .command 4 0 2 cmdOut 0, form := some (regsF Forms.cstop (fl (cls := 3) (d := 4))) }) (onCore (fun k => { k with ctx1 := none, st1 := .empty }) (base 8)); runsOn s.hw e.core e.ctx && decide (e.q.wait = .command 4 0 2 cmdOut 0) && (bankCtx s.hw 0 1).isNone),
    (let s := onPart (fun q => { q with pend := [{ w := 3, addr := 0x10, bytes := [0] }] }) (onHw (fun h => h.setImage 0 2 fun i => { i with csave := 0x700000 }) (onCore (fun k => { k with ctx1 := some 2, st1 := .spilling, moveAt := some 5 }) { base 8 with time := 5 })); corePart s.hw 0 == some 0 && bankCtx s.hw 0 1 == some 2 && decide (bankState s.hw 0 1 = .spilling) && (s.hw.part 0).pend.all (fun y => !y.blocked)),
    (let s := onPart (fun q => { q with pend := [{ w := 3, addr := 0x10, bytes := [0], blocked := true }] }) (onCore (fun k => { k with ctx1 := some 2, st1 := .spilling, moveAt := some 5 }) { base 8 with time := 5 }); corePart s.hw 0 == some 0 && bankCtx s.hw 0 1 == some 2 && decide (bankState s.hw 0 1 = .spilling) && (s.hw.part 0).pend.any (fun y => y.blocked)),
    okA (onPath (fun q => { q with state := .parked, wait := .command 4 0 2 cmdLoad 0, form := some (regsF Forms.cstop (fl (cls := 3) (d := 4))) }) (onCore (fun k => { k with ctx1 := some 2, st1 := .loading }) (base 8))) placeRef (fun e => let s := onPath (fun q => { q with state := .parked, wait := .command 4 0 2 cmdLoad 0, form := some (regsF Forms.cstop (fl (cls := 3) (d := 4))) }) (onCore (fun k => { k with ctx1 := some 2, st1 := .loading }) (base 8)); runsOn s.hw e.core e.ctx && decide (e.q.wait = .command 4 0 2 cmdLoad 0) && bankCtx s.hw 0 1 == some 2 && decide (bankState s.hw 0 1 = .loading)),
    okA (onPath (fun q => { q with state := .parked, wait := .command 4 0 2 cmdLoad 0, form := some (regsF Forms.cstop (fl (cls := 3) (d := 4))) }) (onCore (fun k => { k with ctx1 := some 2, st1 := .loaded }) (base 8))) placeRef (fun e => let s := onPath (fun q => { q with state := .parked, wait := .command 4 0 2 cmdLoad 0, form := some (regsF Forms.cstop (fl (cls := 3) (d := 4))) }) (onCore (fun k => { k with ctx1 := some 2, st1 := .loaded }) (base 8)); runsOn s.hw e.core e.ctx && decide (e.q.wait = .command 4 0 2 cmdLoad 0) && decide (bankState s.hw 0 1 ≠ .loading)),
    (let s := onHw (fun h => h.setImage 0 2 fun i => { i with place := .saved, csave := 0x700000 }) (onCore (fun k => { k with ctx1 := some 2, st1 := .loading, moveAt := some 5 }) { base 8 with time := 5 }); corePart s.hw 0 == some 0 && bankCtx s.hw 0 1 == some 2 && decide (bankState s.hw 0 1 = .loading) && decide ((s.hw.image 0 2).place = .saved) && areaBytes s.mem 0 0x700000 == (s.hw.image 0 2).area),
    (let s := onCore (fun k => { k with ctx1 := some 2, st1 := .draining }) (onHw (fun h => h.setPart 0 fun q => { q with contexts := q.contexts.ins 2 { state := .live } }) (base 8)); corePart s.hw 0 == some 0 && bankCtx s.hw 0 1 == some 2 && decide (bankState s.hw 0 1 = .draining) && workDone s.hw 0 0 2),
    (let s := poke 0x400000 4 9 (flying { op10 (.store [{ lane := 3, tgt := { pa := 0x400000 }, val := 7, st := 5 }] 4) with held := true } (base 8)); (s.hw.ops.all fun y => match y.kind with | .partialSum _ _ _ _ c => !c | _ => true) && (match s.hw.op 10 with | some o => o.held && o.chain.isNone && clear s.hw o { lane := 3, tgt := { pa := 0x400000 }, val := 7, st := 5 } 4 false && (match s.hw.ctx 0 1 with | some cx => !cx.tail.en | none => true) && (s.hw.gangs.look o.gk).isSome | none => false)),
    (let s := onCore (fun k => { k with frames := [⟨none, List.replicate 16 5⟩] }) (onPart (fun q => { q with sring := { base := 0x600000, en := true, posted := 2 ^ 32 - 1 } }) (base 8)); corePart s.hw 0 == some 0 && (s.hw.cores.all fun k => k.1 == 0 || k.2.frames.isEmpty)),
    (let s := onCore (fun k => { k with frames := [⟨none, List.replicate 16 5⟩] }) (base 8); corePart s.hw 0 == some 0 && (s.hw.cores.all fun k => k.1 == 0 || k.2.frames.isEmpty) && !(s.hw.part 0).sring.en),
    (let s := onHw (fun h => h.setImage 0 1 fun i => { i with records := [(0, [0, 0, 0, 450], 0)] }) (onCore (fun k => { k with xchg := 65535, units := [(14, 1)] }) (base 8)); let k := s.hw.core 0; k.units.look 14 == some 1 && corePart s.hw 0 == some 0 && k.act == 0 && (heldUnits s.hw 0 0).contains 14)] : List Bool).all id = true := by
  decide +kernel

end Sys2Proof.Tests
end

section
/-! SUPPORT. The scope chapter's statements: the state after reset (00_scope R8), the registers of queues and writes through the
register window (04_launch R73-R76; 00_scope R7, R9), and lost blocks that are bound again (20_power R395). -/

namespace Sys2Proof.Machine

open Sys2Proof

/-! ## Reset -/

/-- A function that is not brought up reads as all ones (00_scope R8). -/
theorem windowRead_down {hw : Hw} (h : hw.pkg.up = false) (p off : Nat) : windowRead hw p off = 2 ^ 64 - 1 := by
  simp [windowRead, h]

/-- Settles O53: memory is empty, hence canonical, each table of the machine is empty, so that every part of it reads its default, and the
package is down. -/
theorem resetState : Obligations.ResetState := by
  unfold Obligations.ResetState
  have hpart : ∀ p, State.reset.hw.part p = {} := fun _ => rfl
  have hcore : ∀ k, State.reset.hw.core k = {} := fun _ => rfl
  refine ⟨memWf_nil, rfl, fun _ _ => rfl, rfl, rfl, rfl, rfl, rfl, rfl, rfl, fun p => ?_, fun _ => ⟨rfl, rfl⟩, fun k => ?_⟩
  · rw [hpart]
    exact ⟨rfl, rfl, rfl, rfl, rfl, fun _ => rfl, windowRead_down rfl p⟩
  · rw [banksEmpty, hcore]
    exact ⟨rfl, rfl⟩

/-! ## What a change of one partition leaves -/

@[simp] theorem Hw.part_setPart_same (hw : Hw) (p : Nat) (f : Part → Part) : (hw.setPart p f).part p = f (hw.part p) := by
  simp [Hw.part, Hw.setPart, Tab.val]

@[simp] theorem Hw.part_send (hw : Hw) (k p : Nat) (ws : List Nat) (j : Nat) : (hw.send k p ws).part j = hw.part j := rfl

@[simp] theorem Hw.queue_setQueue_same (hw : Hw) (p n : Nat) (f : Queue → Queue) :
    ((hw.setQueue p n f).part p).queue n = f ((hw.part p).queue n) := by
  simp [Hw.setQueue, Part.queue, Tab.val]

@[simp] theorem Hw.pend_setQueue_same (hw : Hw) (p n : Nat) (f : Queue → Queue) :
    ((hw.setQueue p n f).part p).pend = (hw.part p).pend := by simp [Hw.setQueue]

theorem noteWinErr_if_gangs (c : Prop) [Decidable c] (hw : Hw) (p : Nat) : (if c then noteWinErr hw p else hw).gangs = hw.gangs := by
  split <;> rfl
theorem noteWinErr_if_blocks (c : Prop) [Decidable c] (hw : Hw) (p : Nat) : (if c then noteWinErr hw p else hw).blocks = hw.blocks := by
  split <;> rfl
/-- Counting a rejected access, where it is counted, changes no queue. -/
theorem noteWinErr_if_queue (c : Prop) [Decidable c] (hw : Hw) (p n : Nat) :
    ((if c then noteWinErr hw p else hw).part p).queue n = (hw.part p).queue n := by
  split
  · simp [noteWinErr, Part.queue]
  · rfl

/-- A machine that differs in neither gangs nor blocks is reached quietly. -/
theorem quiet_with {s : State} {hw : Hw} (hg : hw.gangs = s.hw.gangs) (hb : hw.blocks = s.hw.blocks) : Quiet s (s.with hw) :=
  ⟨rfl, rfl, hg, hb⟩

/-! ## Words the device writes -/

/-- Machine b is machine a after writes ws of partition p were given to memory: they are pending there, in their order, and gangs
and blocks are as they were. -/
structure Posted (p : Nat) (a b : Hw) (ws : List PWrite) : Prop where
  part : b.part p = { a.part p with pend := (a.part p).pend ++ ws }
  gangs : b.gangs = a.gangs
  blocks : b.blocks = a.blocks

theorem Posted.refl (p : Nat) (a : Hw) : Posted p a a [] := ⟨by simp, rfl, rfl⟩

theorem Posted.trans {p : Nat} {a b c : Hw} {v w : List PWrite} (h : Posted p a b v) (k : Posted p b c w) : Posted p a c (v ++ w) :=
  ⟨by rw [k.part, h.part]; simp, k.gangs.trans h.gangs, k.blocks.trans h.blocks⟩

theorem posted_draw (p : Nat) (hw : Hw) : Posted p hw hw.draw.2 [] := ⟨by simp [Hw.part], rfl, rfl⟩

theorem Posted.pend {p : Nat} {a b : Hw} {ws : List PWrite} (h : Posted p a b ws) : (b.part p).pend = (a.part p).pend ++ ws := by
  rw [h.part]

theorem Posted.queue {p : Nat} {a b : Hw} {ws : List PWrite} (h : Posted p a b ws) (n : Nat) :
    (b.part p).queue n = (a.part p).queue n := by rw [h.part]; rfl

/-- Asking the host for a line changes no partition, gang or block. -/
theorem posted_snoop (hw : Hw) (p a : Nat) : Posted p hw (snoop hw p a) [] := by
  unfold snoop
  split
  · exact ⟨by simp, rfl, rfl⟩
  · exact .refl p hw

/-- A word that the device writes behind all others is pending at its address (18_contexts R348). -/
theorem posted_devWriteLast (hw : Hw) (p t a v : Nat) :
    ∃ y : PWrite, Posted p hw (devWriteLast hw p t a v) [y] ∧ y.addr = a ∧ y.bytes = toBytes 8 v :=
  ⟨_, (posted_snoop hw p a).trans ⟨Hw.part_setPart_same .., rfl, rfl⟩, rfl, rfl⟩

/-- The words of the device's own queue state (04_launch R75; log 102): one write for each index, at its place from address a on. -/
theorem posted_foldl_drawn (p t a : Nat) (is : List Nat) (hw : Hw) :
    ∃ ws, Posted p hw (is.foldl (fun h i => devWriteLast h.draw.2 p t (a + 8 * i) (h.draw.1 % 2 ^ 64)) hw) ws ∧
      ws.map (·.addr) = is.map fun i => a + 8 * i := by
  induction is generalizing hw with
  | nil => exact ⟨[], .refl p hw, rfl⟩
  | cons i is ih =>
    obtain ⟨y, hy, ya, -⟩ := posted_devWriteLast hw.draw.2 p t (a + 8 * i) (hw.draw.1 % 2 ^ 64)
    obtain ⟨ws, hws, wa⟩ := ih (devWriteLast hw.draw.2 p t (a + 8 * i) (hw.draw.1 % 2 ^ 64))
    exact ⟨y :: ws, ((posted_draw p hw).trans hy).trans hws, by simp [ya, wa]⟩

/-! ## The events and their meanings -/

theorem exec_queueSwitchOut (fn q : Nat) (s : State) : exec (.queueSwitchOut fn q) s = execQueueSwitchOut fn q s := rfl
theorem exec_queueSwitchIn (fn q : Nat) (s : State) : exec (.queueSwitchIn fn q) s = execQueueSwitchIn fn q s := rfl
theorem exec_qtailWrite (fn q : Nat) (v : Word) (s : State) : exec (.qtailWrite fn q v) s = execQtailWrite fn q v s := rfl
theorem exec_qcfgWrite (fn q : Nat) (v : Word) (s : State) : exec (.qcfgWrite fn q v) s = execQcfgWrite fn q v s := rfl
theorem exec_registerWrite (fn off size : Nat) (v : Word) (s : State) :
    exec (.registerWrite fn off size v) s = execRegisterWrite fn off size v s := rfl
theorem exec_blockRelaunch (n : Nat) (s : State) : exec (.blockRelaunch n) s = execBlockRelaunch n s := rfl

/-! ## Queues that are switched out and in -/

theorem switchOut_freezes {fn q : Nat} {s : State} (en : ((s.hw.part fn).queue q).en = true) (st : ((s.hw.part fn).queue q).state = 0) :
    exec (.queueSwitchOut fn q) s = .next (s.with (s.hw.setQueue fn q fun x => { x with state := 1 })) := by
  simp [exec_queueSwitchOut, execQueueSwitchOut, en, st]

theorem switchOut_holds {fn q : Nat} {s : State} (h : ((s.hw.part fn).queue q).en = false ∨ 2 ≤ ((s.hw.part fn).queue q).state) :
    Holds (.queueSwitchOut fn q) s := by
  unfold Holds
  rcases h with en | st
  · simp [exec_queueSwitchOut, execQueueSwitchOut, en]
  · have h0 : ((s.hw.part fn).queue q).state ≠ 0 := by omega
    have h1 : ((s.hw.part fn).queue q).state ≠ 1 := by omega
    simp [exec_queueSwitchOut, execQueueSwitchOut, h0, h1]

/-- What a frozen queue has in its save area when it is out: TAIL, PROG, and six words of the device's own (04_launch R75). -/
theorem posted_saveQueue (hw : Hw) (fn t a tail prog : Nat) :
    ∃ y z l, Posted fn hw ((List.range 6).foldl (fun h i => devWriteLast h.draw.2 fn t (a + 16 + 8 * i) (h.draw.1 % 2 ^ 64))
        (devWriteLast (devWriteLast hw fn t a tail) fn t (a + 8) prog)) (y :: z :: l) ∧
      y.addr = a ∧ y.bytes = toBytes 8 tail ∧ z.addr = a + 8 ∧ z.bytes = toBytes 8 prog ∧
      l.map (·.addr) = (List.range 6).map fun i => a + 16 + 8 * i := by
  obtain ⟨y, hy, ya, yb⟩ := posted_devWriteLast hw fn t a tail
  obtain ⟨z, hz, za, zb⟩ := posted_devWriteLast (devWriteLast hw fn t a tail) fn t (a + 8) prog
  obtain ⟨l, hl, la⟩ := posted_foldl_drawn fn t (a + 16) (List.range 6) (devWriteLast (devWriteLast hw fn t a tail) fn t (a + 8) prog)
  exact ⟨y, z, l, (hy.trans hz).trans hl, ya, yb, za, zb, la⟩

theorem switchOut_saves {fn q : Nat} {s : State} (en : ((s.hw.part fn).queue q).en = true) (st : ((s.hw.part fn).queue q).state = 1) :
    ∃ t, exec (.queueSwitchOut fn q) s = .next t ∧ Quiet s t ∧ (t.hw.part fn).queue q = { (s.hw.part fn).queue q with state := 2 } ∧
      ∀ a, saveArea s.hw s.mem fn ((s.hw.part fn).queue q) = some a → ∃ y z l, (t.hw.part fn).pend = (s.hw.part fn).pend ++ y :: z :: l ∧
        y.addr = a ∧ y.bytes = toBytes 8 ((s.hw.part fn).queue q).tail ∧ z.addr = a + 8 ∧
        z.bytes = toBytes 8 ((s.hw.part fn).queue q).prog ∧ l.map (·.addr) = (List.range 6).map fun i => a + 16 + 8 * i := by
  have h0 : ¬ (!((s.hw.part fn).queue q).en) = true := by simp [en]
  have h1 : ((s.hw.part fn).queue q).state ≠ 0 := by simp [st]
  simp only [exec_queueSwitchOut, execQueueSwitchOut, if_neg h0, if_neg h1, if_pos st]
  cases ha : saveArea s.hw s.mem fn ((s.hw.part fn).queue q) with
  | none => exact ⟨_, rfl, quiet_with rfl rfl, by simp, nofun⟩
  | some a =>
    obtain ⟨y, z, l, P, W⟩ := posted_saveQueue s.hw fn s.time a ((s.hw.part fn).queue q).tail ((s.hw.part fn).queue q).prog
    refine ⟨_, rfl, quiet_with P.gangs P.blocks, ?_, fun a' e => ?_⟩
    · rw [State.with_hw, Hw.queue_setQueue_same, P.queue]
    · cases e
      exact ⟨y, z, l, by rw [State.with_hw, Hw.pend_setQueue_same, P.pend], W⟩

theorem switchIn_holds {fn q : Nat} {s : State} (h : ((s.hw.part fn).queue q).state ≠ 2) : Holds (.queueSwitchIn fn q) s := by
  simp [Holds, exec_queueSwitchIn, execQueueSwitchIn, h]

theorem switchIn_reloads {fn q : Nat} {s : State} (h : ((s.hw.part fn).queue q).state = 2) :
    ∃ t, exec (.queueSwitchIn fn q) s = .next t ∧ Quiet s t ∧ ((t.hw.part fn).queue q).state = 0 ∧
      ((t.hw.part fn).queue q).prog = ((s.hw.part fn).queue q).prog ∧
      (∀ a, saveArea s.hw s.mem fn ((s.hw.part fn).queue q) = some a →
        ((t.hw.part fn).queue q).tail = latestNat s.mem s.hw fn a 8 % 2 ^ 32) ∧
      (saveArea s.hw s.mem fn ((s.hw.part fn).queue q) = none → ((t.hw.part fn).queue q).tail = ((s.hw.part fn).queue q).tail) := by
  simp only [exec_queueSwitchIn, execQueueSwitchIn, h, ne_eq, not_true_eq_false, if_false]
  refine ⟨_, rfl, quiet_with rfl rfl, ?_⟩
  rw [State.with_hw, Hw.queue_setQueue_same]
  exact ⟨rfl, rfl, fun a ha => by rw [ha], fun ha => by rw [ha]⟩

/-! ## Writes through the register window -/

theorem windowWrite_open {s : State} {fn : Nat} (o : WindowOpen s fn) (body : Out) : windowWrite fn s body = body := by
  simp [windowWrite, o.up, o.present, o.past, o.still]

/-- A write of QTAIL (04_launch R75, R76): TAIL takes it, and a queue that is out or going out has it in its save area too. -/
theorem qtailWrite_open {fn q : Nat} {v : Word} {s : State} (o : WindowOpen s fn) (hq : q < 64) :
    ∃ t, exec (.qtailWrite fn q v) s = .next t ∧ Quiet s t ∧
      (t.hw.part fn).queue q = { (s.hw.part fn).queue q with tail := v.toNat % 2 ^ 32 } ∧
      (((s.hw.part fn).queue q).state ≠ 1 → ((s.hw.part fn).queue q).state ≠ 2 → (t.hw.part fn).pend = (s.hw.part fn).pend) ∧
      ∀ a, ((s.hw.part fn).queue q).state = 1 ∨ ((s.hw.part fn).queue q).state = 2 →
        saveArea s.hw s.mem fn ((s.hw.part fn).queue q) = some a →
        ∃ y, (t.hw.part fn).pend = (s.hw.part fn).pend ++ [y] ∧ y.addr = a ∧ y.bytes = toBytes 8 (v.toNat % 2 ^ 32) := by
  have hq' : ¬ 64 ≤ q := by omega
  simp only [exec_qtailWrite, execQtailWrite, windowWrite_open o, if_neg hq']
  by_cases out : ((s.hw.part fn).queue q).state = 1 ∨ ((s.hw.part fn).queue q).state = 2
  · simp only [if_pos out]
    cases ha : saveArea s.hw s.mem fn ((s.hw.part fn).queue q) with
    | none => exact ⟨_, rfl, quiet_with rfl rfl, by simp, by simp, nofun⟩
    | some a =>
      obtain ⟨y, P, W⟩ := posted_devWriteLast s.hw fn s.time a (v.toNat % 2 ^ 32)
      refine ⟨_, rfl, quiet_with P.gangs P.blocks, ?_, fun h1 h2 => absurd out (by simp [h1, h2]), fun a' _ e => ?_⟩
      · rw [State.with_hw, Hw.queue_setQueue_same, P.queue]
      · cases e
        exact ⟨y, by rw [State.with_hw, Hw.pend_setQueue_same, P.pend], W⟩
  · simp only [if_neg out]
    exact ⟨_, rfl, quiet_with rfl rfl, by simp, by simp, fun _ h => absurd h out⟩

/-- A write of QCFG (04_launch R74): an enabled queue takes EN alone; one that is enabled by it starts at TAIL. -/
theorem qcfgWrite_open {fn q : Nat} {v : Word} {s : State} (o : WindowOpen s fn) (hq : q < 64) :
    ∃ t, exec (.qcfgWrite fn q v) s = .next t ∧ Quiet s t ∧
      let x := (s.hw.part fn).queue q
      let y := (t.hw.part fn).queue q
      y.en = bit 0 v.toNat ∧ y.tail = x.tail ∧ y.base = x.base ∧
        (x.en = true → y.ctx = x.ctx ∧ y.log2n = x.log2n ∧ y.prog = x.prog ∧ y.state = x.state) ∧
        (x.en = false → y.ctx = bits 63 48 v.toNat ∧ y.log2n = max 4 (bits 7 4 v.toNat) ∧
          (bit 0 v.toNat = true → y.prog = x.tail ∧ y.state = 0) ∧ (bit 0 v.toNat = false → y.prog = x.prog)) := by
  have hq' : ¬ 64 ≤ q := by omega
  simp only [exec_qcfgWrite, execQcfgWrite, windowWrite_open o, if_neg hq']
  refine ⟨_, rfl, quiet_with (noteWinErr_if_gangs ..) (noteWinErr_if_blocks ..), ?_⟩
  rw [State.with_hw, Hw.queue_setQueue_same, noteWinErr_if_queue]
  refine ⟨rfl, rfl, rfl, fun en => ?_, fun en => ?_⟩
  · simp [en]
  · refine ⟨by simp [en], by simp [en], fun h => ?_, fun h => ?_⟩ <;> simp [en, h]

/-- A narrow or misaligned write has no effect but to be counted (00_scope R9; 19_links R364). -/
theorem registerWrite_narrow {fn off size : Nat} {v : Word} {s : State} (o : WindowOpen s fn) (h : size ≠ 8 ∨ off % 8 ≠ 0) :
    exec (.registerWrite fn off size v) s = .next (s.with (noteWinErr s.hw fn)) := by
  simp only [exec_registerWrite, execRegisterWrite, if_pos h, windowWrite_open o]

/-- The offsets below 0x1000 whose writes have rows of their own, whole or for some of their values (00_scope R7). -/
def ownRows : List Nat := [0x0108, 0x0200, 0x0208, 0x0300, 0x0730, 0x0738, 0x0600, 0x0700]

/-- A register below 0x1000 without a row of its own takes what `writeLow` says (00_scope R7). -/
theorem registerWrite_low {fn off : Nat} {v : Word} {s : State} (o : WindowOpen s fn) (ha : off % 8 = 0) (hl : off < 0x1000)
    (hr : off ∉ ownRows) :
    exec (.registerWrite fn off 8 v) s = .next (s.with (writeLow s.hw fn off v.toNat)) := by
  have hn : ¬ (8 ≠ 8 ∨ off % 8 ≠ 0) := by omega
  simp only [exec_registerWrite, execRegisterWrite, if_neg hn, if_pos hl]
  split
  case h_9 => exact windowWrite_open o _
  all_goals simp [ownRows] at hr

/-- Such a write, where it changes its partition alone. -/
theorem registerWrite_setPart {fn off : Nat} {v : Word} {s : State} {f : Part → Part} (o : WindowOpen s fn) (ha : off % 8 = 0)
    (hl : off < 0x1000) (hr : off ∉ ownRows)
    (hf : writeLow s.hw fn off v.toNat = s.hw.setPart fn f) :
    ∃ t, exec (.registerWrite fn off 8 v) s = .next t ∧ Quiet s t ∧ t.hw.part fn = f (s.hw.part fn) := by
  refine ⟨_, registerWrite_low o ha hl hr, ?_⟩
  rw [hf]
  exact ⟨quiet_with rfl rfl, Hw.part_setPart_same ..⟩

/-- WINERR (19_links R364). -/
theorem writeLow_winerr (hw : Hw) (p v : Nat) :
    writeLow hw p 0x0048 v = hw.setPart p fun q => { q with link := { q.link with winerr := bits 31 0 v } } := rfl

/-- EXPWIN (19_links R373). -/
theorem writeLow_expwin (hw : Hw) (p v : Nat) :
    writeLow hw p 0x0118 v = hw.setPart p fun q => { q with link := { q.link with expSize := bits 59 40 v, expBase := bits 39 20 v } } := rfl

/-- The staged map of PTBND (22_partitions R409). -/
theorem writeLow_ptbnd (hw : Hw) (p v : Nat) : writeLow hw p 0x0708 v = hw.setPart p fun q => { q with stage := bits 5 0 v } := rfl

theorem regIdx_at {base step n k : Nat} (hs : 0 < step) (h : k < n) : regIdx base step n (base + step * k) = some k := by
  have : step * k < step * n := Nat.mul_lt_mul_of_pos_left h hs
  rw [regIdx, if_pos (by omega), Nat.add_sub_cancel_left, Nat.mul_div_cancel_left k hs]

theorem regIdx_above {base step n off : Nat} (h : base + step * n ≤ off) : regIdx base step n off = none := by
  rw [regIdx, if_neg (by omega)]

/-- Breakpoint words stand from 0x0400 on (21_observe R406). -/
theorem writeLow_bp (hw : Hw) (p v : Nat) {n : Nat} (h : n < 32) :
    writeLow hw p (0x0400 + 8 * n) v = hw.setPart p fun q => { q with bps := q.bps.put 0 n (debugWord false n v) } := by
  unfold writeLow
  split
  case h_13 => rw [regIdx_above (by omega), regIdx_at (by omega) h]
  all_goals omega

/-- Watchpoint words stand from 0x0500 on (21_observe R406). -/
theorem writeLow_wp (hw : Hw) (p v : Nat) {n : Nat} (h : n < 16) :
    writeLow hw p (0x0500 + 8 * n) v = hw.setPart p fun q => { q with wps := q.wps.put 0 n (debugWord true n v) } := by
  unfold writeLow
  split
  case h_13 => rw [regIdx_above (by omega), regIdx_above (by omega), regIdx_at (by omega) h]
  all_goals omega

/-! ## Clearing records -/

/-- Clearing records leads from machine a to b: gangs, launches and partitions are as they were. -/
structure OnlyRecords (a b : Hw) : Prop where
  gangs : b.gangs = a.gangs
  launches : b.launches = a.launches
  parts : b.parts = a.parts

theorem OnlyRecords.trans {a b c : Hw} (h : OnlyRecords a b) (k : OnlyRecords b c) : OnlyRecords a c :=
  ⟨k.gangs.trans h.gangs, k.launches.trans h.launches, k.parts.trans h.parts⟩

theorem onlyRecords_clearRecord (hw : Hw) (core c : Nat) (x : Nat × List Nat × Nat) : OnlyRecords hw (clearRecord hw core c x) := by
  simp only [clearRecord]
  split <;> exact ⟨rfl, rfl, rfl⟩

theorem onlyRecords_clearAll (rs : List (Nat × Nat × Nat × List Nat × Nat)) (hw : Hw) :
    OnlyRecords hw (rs.foldl (fun h x => clearRecord h x.1 x.2.1 (x.2.2.1, x.2.2.2.1, x.2.2.2.2)) hw) := by
  induction rs generalizing hw with
  | nil => exact ⟨rfl, rfl, rfl⟩
  | cons x rs ih => exact (onlyRecords_clearRecord hw ..).trans (ih _)

/-- A filter that goes by keys alone takes entries out of a table and uncovers no other. -/
theorem look_of_look_filter {α : Type} {f : Nat × α → Bool} (hf : ∀ k v w, f (k, v) = f (k, w)) {t : Tab α} {k : Nat} {v : α}
    (h : Tab.look (t.filter f) k = some v) : t.look k = some v := by
  induction t with
  | nil => cases h
  | cons e t ih =>
    obtain ⟨j, w⟩ := e
    have kept : f (k, v) = true := (List.mem_filter.1 (look_mem h)).2
    by_cases hj : j = k
    · subst hj
      rw [List.filter_cons, if_pos ((hf j w v).trans kept)] at h
      simpa [Tab.look] using h
    · have later : Tab.look (t.filter f) k = some v := by
        rw [List.filter_cons] at h
        split at h
        · simpa [Tab.look, hj] using h
        · exact h
      simpa [Tab.look, hj] using ih later

/-- Dropping blocks of a launch ends gangs and changes no other. -/
theorem dropBlocks_gangs {hw : Hw} {n : Nat} {these : Nat → Bool} {gk : Nat} {g : Gang}
    (h : (dropBlocks hw n these).gangs.look gk = some g) : hw.gangs.look gk = some g := by
  simp only [dropBlocks] at h
  rw [(onlyRecords_clearAll _ _).gangs] at h
  exact look_of_look_filter (fun _ _ _ => rfl) h

/-- Dropping no block ends no gang. -/
theorem dropBlocks_none_gangs (hw : Hw) (n : Nat) : (dropBlocks hw n fun _ => false).gangs = hw.gangs := by
  simp only [dropBlocks]
  rw [(onlyRecords_clearAll _ _).gangs]
  refine List.filter_eq_self.2 fun g _ => ?_
  split <;> simp

/-- Dropping no block clears no record, so that every block stays. -/
theorem dropBlocks_none_blocks (hw : Hw) (n : Nat) : (dropBlocks hw n fun _ => false).blocks = hw.blocks := by
  have recs : (hw.images.flatMap fun i => (i.2.records.filter fun r => r.2.2 == n && false).map fun r =>
      (i.1 / 65536, i.1 % 65536, r)) = [] := by simp
  simp only [dropBlocks]
  rw [recs]
  rfl

/-! ## Lost blocks -/

/-- A launch that is gone has no lost blocks to bind again (20_power R395). -/
theorem blockRelaunch_gone {n : Nat} {s : State} (h : s.hw.launches.look n = none) :
    ∃ t, exec (.blockRelaunch n) s = .next t ∧ Quiet s t ∧
      t.hw.pkg.lostBlocks = s.hw.pkg.lostBlocks.filter fun b => b.1 != n := by
  simp only [exec_blockRelaunch, execBlockRelaunch, h]
  exact ⟨_, rfl, quiet_with rfl rfl, rfl⟩

/-- The block words that a launch has lost. -/
def lostOf (hw : Hw) (n : Nat) : List Nat := (hw.pkg.lostBlocks.filter fun b => b.1 == n).map (·.2)
/-- The machine in which a launch's losses are settled. -/
def lossSettled (hw : Hw) (n : Nat) : Hw :=
  { hw with pkg := { hw.pkg with lostBlocks := hw.pkg.lostBlocks.filter fun b => b.1 != n } }

theorem blockRelaunch_holds {n : Nat} {s : State} {l : Launch} (hl : s.hw.launches.look n = some l) (h : lostOf s.hw n = []) :
    Holds (.blockRelaunch n) s := by
  rw [lostOf] at h
  simp only [Holds, exec_blockRelaunch, execBlockRelaunch, hl, h, List.isEmpty_nil, Bool.true_or, if_true]

/-- A relaunch waits only for operations of ended gangs of its launch: where there are none, nothing holds it up. -/
theorem any_left_behind_eq_false {ops : List Op} {n : Nat} (h : ∀ o ∈ ops, o.launch ≠ n ∨ o.gk ≠ deadGang) (f g : Op → Bool) :
    (ops.any fun o => o.launch == n && o.gk == deadGang && f o && g o) = false := by
  refine List.any_eq_false.2 fun o ho => ?_
  rcases h o ho with h | h <;> simp [h]

/-- A launch whose lost blocks have a place is bound again in part (20_power R395): every lost block is unbound and not ended; gangs only
end, and none does without cluster groups. -/
theorem blockRelaunch_again {n : Nat} {s : State} {l : Launch} (hl : s.hw.launches.look n = some l) (hne : lostOf s.hw n ≠ [])
    (hops : ∀ o ∈ s.hw.ops, o.launch ≠ n ∨ o.gk ≠ deadGang) (can : canRelaunch (lossSettled s.hw n) l = true) :
    ∃ t l', exec (.blockRelaunch n) s = .next t ∧ t.mem = s.mem ∧ t.time = s.time ∧ (hdrC3 l.hdr = false → Quiet s t) ∧
      (∀ gk g, t.hw.gangs.look gk = some g → s.hw.gangs.look gk = some g) ∧ t.hw.launches.look n = some l' ∧
      (∀ b ∈ lostOf s.hw n, b ∉ l'.bound ∧ b ∉ l'.ended) ∧
      (hdrC3 l.hdr = false → ∀ b, b ∉ lostOf s.hw n → (b ∈ l'.bound ↔ b ∈ l.bound)) := by
  have ne : (lostOf s.hw n).isEmpty = false := by simpa using hne
  simp only [exec_blockRelaunch, execBlockRelaunch, hl]
  rw [← lostOf, ← lossSettled, ne, any_left_behind_eq_false hops, can]
  simp only [Bool.or_self, Bool.not_true, Bool.false_eq_true, if_false]
  refine ⟨_, _, rfl, rfl, rfl, fun c3 => ?_, fun gk g hg => dropBlocks_gangs (hw := lossSettled s.hw n) hg, Tab.look_ins_same ..,
    fun b hb => ?_, fun c3 b hb => ?_⟩
  · have noOther : (fun b => ((lostOf s.hw n).contains b || (hdrC3 l.hdr && (lostOf s.hw n).any fun x => sameGroup l.hdr x b)) &&
        !(lostOf s.hw n).contains b) = fun _ => false := by funext b; simp [c3]
    rw [noOther]
    exact quiet_with (dropBlocks_none_gangs ..) (dropBlocks_none_blocks ..)
  · simp [hb]
  · simp [c3, hb]

theorem writeStatus_gangs (hw : Hw) (p t q pa code : Nat) : (writeStatus hw p t q pa code).gangs = hw.gangs := by
  obtain ⟨y, P, -⟩ := posted_devWriteLast hw p t (pa + 0xC0) code
  rw [← P.gangs]
  simp only [writeStatus]
  split <;> rfl

/-- A STATUS word is pending at its place in the slot (04_launch R72). -/
theorem writeStatus_pend (hw : Hw) (p t q pa code : Nat) :
    ∃ y : PWrite, ((writeStatus hw p t q pa code).part p).pend = (hw.part p).pend ++ [y] ∧ y.addr = pa + 0xC0 ∧
      y.bytes = toBytes 8 code := by
  obtain ⟨y, P, W⟩ := posted_devWriteLast hw p t (pa + 0xC0) code
  refine ⟨y, ?_, W⟩
  rw [← P.pend]
  simp only [writeStatus]
  split
  · rw [Hw.part_setPart_same]
  · rfl

/-- A launch that ends early is gone, ends no gang by itself, and has its code in the STATUS word of its slot (04_launch R86). -/
theorem endLaunch_spec {hw : Hw} {n : Nat} {l : Launch} (hl : hw.launches.look n = some l) (t code : Nat) :
    (endLaunch hw t n code).launches.look n = none ∧ (endLaunch hw t n code).gangs = hw.gangs ∧
      ∀ q slot, l.src = .host q slot → ∃ w, w ∈ ((endLaunch hw t n code).part l.part).pend ∧ w.addr = l.slotPa + 0xC0 ∧
        w.bytes = toBytes 8 code := by
  simp only [endLaunch, hl]
  refine ⟨Tab.look_del_same .., ?_, fun q slot hs => ?_⟩
  · cases l.src with
    | host q slot => exact writeStatus_gangs ..
    | device num => rfl
  · obtain ⟨y, hy, W⟩ := writeStatus_pend hw l.part t q l.slotPa code
    have mem : y ∈ ((writeStatus hw l.part t q l.slotPa code).part l.part).pend := by simp [hy]
    rw [hs]
    exact ⟨y, mem, W⟩

/-- The machine in which the gangs of a launch have ended, and with them the operations that do not outlive them (20_power R395). -/
def gangsEnded (hw : Hw) (n : Nat) : Hw :=
  { hw with gangs := hw.gangs.filter fun g => g.2.launch != n, ops := hw.ops.filter fun o => o.launch != n || o.kind.outlives }

/-- A launch whose lost blocks have no place ends with 0x86, and its gangs with it (20_power R395). -/
theorem blockRelaunch_ends {n : Nat} {s : State} {l : Launch} (hl : s.hw.launches.look n = some l) (hne : lostOf s.hw n ≠ [])
    (hops : ∀ o ∈ s.hw.ops, o.launch ≠ n ∨ o.gk ≠ deadGang) (can : canRelaunch (lossSettled s.hw n) l = false) :
    ∃ t, exec (.blockRelaunch n) s = .next t ∧ t.mem = s.mem ∧ t.hw.launches.look n = none ∧
      (∀ gk g, t.hw.gangs.look gk = some g → g.launch ≠ n) ∧
      ∀ q slot, l.src = .host q slot → ∃ w, w ∈ (t.hw.part l.part).pend ∧ w.addr = l.slotPa + 0xC0 ∧ w.bytes = toBytes 8 0x86 := by
  have ne : (lostOf s.hw n).isEmpty = false := by simpa using hne
  simp only [exec_blockRelaunch, execBlockRelaunch, hl]
  rw [← lostOf, ← lossSettled, ne, any_left_behind_eq_false hops, can]
  simp only [Bool.or_self, Bool.not_false, Bool.false_eq_true, if_false, if_true]
  have R := onlyRecords_clearAll ((lossSettled s.hw n).images.flatMap fun i =>
    (i.2.records.filter fun r => r.2.2 == n).map fun r => (i.1 / 65536, i.1 % 65536, r)) (gangsEnded (lossSettled s.hw n) n)
  obtain ⟨gone, gangs, status⟩ := endLaunch_spec (R.launches ▸ hl) s.time 0x86
  refine ⟨_, rfl, rfl, gone, fun gk g hg => ?_, status⟩
  have left : (gangsEnded (lossSettled s.hw n) n).gangs.look gk = some g :=
    (congrArg (Tab.look · gk) (gangs.trans R.gangs)).symm.trans hg
  simpa using (List.mem_filter.1 (look_mem left)).2

/-- Settles O48, operation by operation: the queue's two switches, the writes of TAIL and the configuration, the window's other registers,
and the relaunch of lost blocks in its three outcomes. -/
theorem queueRegisters : Obligations.QueueRegisters := by
  unfold Obligations.QueueRegisters
  refine ⟨fun fn q s => ⟨switchOut_freezes, switchOut_saves, switchOut_holds, switchIn_holds, switchIn_reloads⟩,
    fun fn q v s o hq => ⟨qtailWrite_open o hq, qcfgWrite_open o hq⟩, fun fn off size v s o => ⟨fun h => ?_, ?_⟩,
    fun n s => blockRelaunch_gone, fun n s l => fun hl => ⟨blockRelaunch_holds hl, fun hne hops =>
      ⟨blockRelaunch_again hl hne hops, blockRelaunch_ends hl hne hops⟩⟩⟩
  · exact ⟨_, registerWrite_narrow o h, quiet_with rfl rfl, Hw.part_setPart_same ..⟩
  · rintro rfl
    refine ⟨?_, ?_, ?_, fun n hn => ?_, fun n hn => ?_⟩ <;> rintro rfl
    · obtain ⟨t, ht, hq, hp⟩ := registerWrite_setPart o (by decide) (by decide) (by decide) (writeLow_winerr s.hw fn v.toNat)
      exact ⟨t, ht, hq, by rw [hp]⟩
    · obtain ⟨t, ht, hq, hp⟩ := registerWrite_setPart o (by decide) (by decide) (by decide) (writeLow_expwin s.hw fn v.toNat)
      exact ⟨t, ht, hq, by rw [hp], by rw [hp]⟩
    · obtain ⟨t, ht, hq, hp⟩ := registerWrite_setPart o (by decide) (by decide) (by decide) (writeLow_ptbnd s.hw fn v.toNat)
      exact ⟨t, ht, hq, by rw [hp]⟩
    · obtain ⟨t, ht, hq, hp⟩ := registerWrite_setPart o (by omega) (by omega) (by simp [ownRows]; omega) (writeLow_bp s.hw fn v.toNat hn)
      exact ⟨t, ht, hq, by simp [hp, Tab.val_put]⟩
    · obtain ⟨t, ht, hq, hp⟩ := registerWrite_setPart o (by omega) (by omega) (by simp [ownRows]; omega) (writeLow_wp s.hw fn v.toNat hn)
      exact ⟨t, ht, hq, by simp [hp, Tab.val_put]⟩

end Sys2Proof.Machine
end

section
/-! SUPPORT. Encodings: reading a field back from the word made of fields (02_formats R26-R36), and that the opcode map names each form
once (R50), so that decoding inverts encoding. -/

namespace Sys2Proof

open Sys2Proof.Machine

/-! ## Fields of a word

The library's lemmas on the fields of `hi ++ lo`, stated so that `simp` also finds them where the width of the whole is a numeral. -/

/-- A field that lies in the low part of a word. -/
theorem extract_append_low {v w i k : Nat} (hi : BitVec v) (lo : BitVec w) (h : i + k ≤ w) :
    (@HAppend.hAppend (BitVec v) (BitVec w) (no_index (BitVec (v + w))) _ hi lo).extractLsb' i k = lo.extractLsb' i k :=
  BitVec.extractLsb'_append_eq_of_add_le h
/-- A field that lies in the high part of a word. -/
theorem extract_append_high {v w i k : Nat} (hi : BitVec v) (lo : BitVec w) (h : w ≤ i) :
    (@HAppend.hAppend (BitVec v) (BitVec w) (no_index (BitVec (v + w))) _ hi lo).extractLsb' i k = hi.extractLsb' (i - w) k :=
  BitVec.extractLsb'_append_eq_of_le h
/-- A bit of a word made of two parts. -/
theorem getLsbD_append_parts {v w i : Nat} (hi : BitVec v) (lo : BitVec w) :
    (@HAppend.hAppend (BitVec v) (BitVec w) (no_index (BitVec (v + w))) _ hi lo).getLsbD i =
      if i < w then lo.getLsbD i else hi.getLsbD (i - w) := BitVec.getLsbD_append

/-- The fields of a header's word are those of the header (Table FM-7). -/
theorem headerOf_headWord (h : Header) : headerOf (0#64 ++ headWord h) = h := by
  simp [headerOf, headWord, extract_append_low, extract_append_high, getLsbD_append_parts, -BitVec.getLsbD_eq_getElem]

/-- The fields of an S word are those it was made of (R34). -/
theorem sfieldsOf_swordOf (fm : SForm) (f : SFields) : sfieldsOf (0#96 ++ swordOf fm f) = f := by
  simp [sfieldsOf, swordOf, extract_append_low, extract_append_high, getLsbD_append_parts, -BitVec.getLsbD_eq_getElem]

/-- The fields of a W, L or X word are those it was made of (Tables FM-2, FM-4; R32). -/
theorem fieldsOf_stripOf (fm : Form) (f : Fields) : fieldsOf (tailOf f.tail ++ stripOf fm f) f.ty = f := by
  obtain ⟨cls, opt, fsel, lud, lub, lua, b, a, d, ty, tail⟩ := f
  cases tail <;>
    simp [fieldsOf, stripOf, tailOf, Fields.lenCode, extract_append_low, extract_append_high, getLsbD_append_parts,
      -BitVec.getLsbD_eq_getElem]

/-! ## Type codes -/

/-- A type's code names it (Table FM-5). -/
theorem tyOfCode_tyCode (t : Ty) : Forms.tyOfCode (tyCode t) = some t := by cases t <;> rfl
/-- A type's code fits its field. -/
theorem tyCode_lt (t : Ty) : tyCode t < 2 ^ 6 := by cases t <;> decide

/-! ## The opcode map -/

/-- Only a clause header reads as one. -/
theorem view_head_con {i : Instr} {h : Header} (hv : view i = .head h) : i = .beginClause h := by
  cases i <;> cases hv
  rfl
/-- Each S instruction is made by its form (Table FM-6). -/
theorem view_s_con {i : Instr} {fm : SForm} {f : SFields} (h : view i = .s fm f) : fm.con f = i := by
  cases i <;> cases h <;> rfl
/-- The map names the form of each S instruction by its major and minor (R34, R50). -/
theorem view_s_find {i : Instr} {fm : SForm} {f : SFields} (h : view i = .s fm f) :
    (Forms.sformList.find? fun x => x.maj == fm.maj && x.min == fm.min) = some fm := by
  cases i <;> cases h <;> rfl
/-- The map names the form of each W, L or X instruction by its major and minor (R50). -/
theorem view_w_find {i : Instr} {fm : Form} {f : Fields} (h : view i = .w fm f) :
    (Forms.formList.find? fun x => x.maj == fm.maj && x.min == fm.min) = some fm := by
  cases i <;> cases h <;> rfl

/-- The majors and minors of the S forms fit their fields, and none is the major of a header. -/
theorem sformList_fits : ∀ fm ∈ Forms.sformList, 0 < fm.maj ∧ fm.maj < 2 ^ 7 ∧ fm.min < 2 ^ 3 := by decide
/-- The majors and minors of the W, L and X forms fit their fields, and none is the major of a header. -/
theorem formList_fits : ∀ fm ∈ Forms.formList, 0 < fm.maj ∧ fm.maj < 2 ^ 7 ∧ fm.min < 2 ^ 6 := by decide +kernel

/-! ## Decoding -/

theorem lenCode_lt (f : Fields) : 0 < f.lenCode ∧ f.lenCode < 4 := by
  unfold Fields.lenCode
  split <;> decide

/-- A header decodes to itself (R36). -/
theorem decode_head {h : Header} (ok : headIllegal h = false) : decode (0#64 ++ headWord h) = .ok (.beginClause h) := by
  have hlen : (0#64 ++ headWord h).extractLsb' 0 2 = 1#2 := by simp [headWord, extract_append_low]
  have hmaj : (0#64 ++ headWord h).extractLsb' 2 7 = 0#7 := by simp [headWord, extract_append_low, extract_append_high]
  have hrsv : (0#64 ++ headWord h).extractLsb' 46 18 = 0#18 := by simp [headWord, extract_append_low, extract_append_high]
  simp [decode, decodeHead, hlen, hmaj, hrsv, headerOf_headWord, ok]

/-- An S word decodes to what its form makes of its fields (R34). -/
theorem decode_s {fm : SForm} {f : SFields} (hfind : (Forms.sformList.find? fun x => x.maj == fm.maj && x.min == fm.min) = some fm)
    (hill : fm.illegal f = false) (hrsv : fm.reserved f = false) : decode (0#96 ++ swordOf fm f) = .ok (fm.con f) := by
  obtain ⟨pos, maj, min⟩ := sformList_fits fm (List.mem_of_find?_eq_some hfind)
  have hlen : (0#96 ++ swordOf fm f).extractLsb' 0 2 = 0#2 := by simp [swordOf, extract_append_low]
  have hmaj : (0#96 ++ swordOf fm f).extractLsb' 2 7 = BitVec.ofNat 7 fm.maj := by
    simp [swordOf, extract_append_low, extract_append_high]
  have hmin : (0#96 ++ swordOf fm f).extractLsb' 9 3 = BitVec.ofNat 3 fm.min := by
    simp [swordOf, extract_append_low, extract_append_high]
  simp only [decode, decodeS, hlen, hmaj, hmin, BitVec.toNat_ofNat, Nat.mod_eq_of_lt maj, Nat.mod_eq_of_lt min, pos.ne', hfind,
    sfieldsOf_swordOf, hill, hrsv, if_false, if_true, Bool.false_eq_true, Nat.zero_mod]

/-- A W, L or X word decodes to what its form makes of its fields (R28, R32, R33). -/
theorem decode_w {fm : Form} {f : Fields} (hfind : (Forms.formList.find? fun x => x.maj == fm.maj && x.min == fm.min) = some fm)
    (hill : fm.illegal f = false) (hrsv : fm.reserved f = false) : decode (tailOf f.tail ++ stripOf fm f) = .ok (fm.con f) := by
  obtain ⟨pos, maj, min⟩ := formList_fits fm (List.mem_of_find?_eq_some hfind)
  have hlen : (tailOf f.tail ++ stripOf fm f).extractLsb' 0 2 = BitVec.ofNat 2 f.lenCode := by simp [stripOf, extract_append_low]
  have hmaj : (tailOf f.tail ++ stripOf fm f).extractLsb' 2 7 = BitVec.ofNat 7 fm.maj := by
    simp [stripOf, extract_append_low, extract_append_high]
  have hmin : (tailOf f.tail ++ stripOf fm f).extractLsb' 9 6 = BitVec.ofNat 6 fm.min := by
    simp [stripOf, extract_append_low, extract_append_high]
  have hty : (tailOf f.tail ++ stripOf fm f).extractLsb' 15 6 = BitVec.ofNat 6 (tyCode f.ty) := by
    simp [stripOf, extract_append_low, extract_append_high]
  obtain ⟨long, short⟩ := lenCode_lt f
  simp only [decode, decodeW, hlen, hmaj, hmin, hty, BitVec.toNat_ofNat, Nat.mod_eq_of_lt maj, Nat.mod_eq_of_lt min,
    Nat.mod_eq_of_lt (tyCode_lt f.ty), Nat.mod_eq_of_lt short, pos.ne', long.ne', hfind, tyOfCode_tyCode, fieldsOf_stripOf, hill, hrsv,
    if_false, Bool.false_eq_true]

/-- Decoding inverts encoding: the instruction's form is the one the map names, and its fields read back. -/
theorem decode_encode {i : Instr} (h : wellFormed i = true) : decode (encode i) = .ok i := by
  unfold wellFormed at h
  unfold encode
  cases hv : view i with
  | head hd =>
    simp only [hv, Bool.not_eq_true'] at h
    rw [view_head_con hv]
    exact decode_head h
  | s fm f =>
    simp only [hv, Bool.and_eq_true, Bool.not_eq_true'] at h
    rw [← view_s_con hv]
    exact decode_s (view_s_find hv) h.1 h.2
  | w fm f =>
    simp only [hv, Bool.and_eq_true, Bool.not_eq_true', decide_eq_true_eq] at h
    obtain ⟨⟨hill, hrsv⟩, hcon⟩ := h
    rw [← hcon]
    exact decode_w (view_w_find hv) hill hrsv
  | event => simp [hv] at h

/-- Settles O56: decoding inverts encoding. -/
theorem encodeDecode : Obligations.EncodeDecode := fun _ => decode_encode

/-- A word of the opcode table that holds a well-formed instruction's encoding stands for it. -/
theorem decodeTableWord_of_encode {nbits w : Nat} {i : Instr} (ok : wellFormed i = true)
    (hw : BitVec.ofNat 128 (ofBytes ((tableBytes nbits w).take 16)) = encode i) : decodeTableWord nbits w = some i := by
  simp only [decodeTableWord, decodeBytes, hw, decode_encode ok]

/-- Settles O60: the words are the encodings of their instructions, but for the word 0, whose major is no S form's. -/
theorem wordsDecode : Obligations.WordsDecode :=
  ⟨decodeTableWord_of_encode (by decide) (by decide), decodeTableWord_of_encode (by decide) (by decide),
    decodeTableWord_of_encode (by decide) (by decide), decodeTableWord_of_encode (by decide) (by decide),
    decodeTableWord_of_encode (by decide) (by decide), by decide⟩

end Sys2Proof
end

section
/-! SUPPORT. Clauses and transfers: how a path begins a clause (02_formats R37, R38, R41, R45) and how uniform branches, calls and returns
move a whole path (05_paths R105, R106). -/

namespace Sys2Proof.Machine

open Sys2Proof

/-! ## Clause headers -/

/-- A path that is not folded is seen as it stands in the table. -/
theorem env_path {s : State} {e : Env} (h : env s = some e) (hf : e.q.folded = false) : e.g.paths.look e.p = some e.q := by
  obtain ⟨-, -, q, hq, hs⟩ := env_spec h
  have hqf : q.folded = false := by
    rw [hs, seenAs] at hf
    split at hf <;> exact hf
  rw [hs, seenAs, hqf]
  exact hq

/-- The checks of a header that its path makes when it reaches it (R38, R44). -/
theorem headIllegal_eq (h : Header) : headIllegal h =
    (h.clen == 0 || (decide (h.seta.toNat ≥ 12) && h.seta != 15) || (decide (h.setb.toNat ≥ 12) && h.setb != 15)) := by
  have flag : ∀ x : BitVec 4, [12, 13, 14].contains x.toNat = (decide (x.toNat ≥ 12) && x != 15) := by decide
  have len : (h.clen.toNat == 0) = (h.clen == 0) := by rw [Bool.eq_iff_iff]; simp [← BitVec.toNat_inj]
  rw [headIllegal, flag, flag, len]

/-- Whether the count of some WAIT flag of a header is not zero (R45). -/
def waits (e : Env) (h : Header) : Bool := (bitList 12 h.wait.toNat).any fun k => decide (flagCount e.hw.ops e.gk k ≠ 0)

theorem waits_iff {e : Env} {h : Header} :
    waits e h = true ↔ ∃ k, k < 12 ∧ h.wait.getLsbD k = true ∧ flagCount e.hw.ops e.gk k ≠ 0 := by
  simp [waits, bitList, BitVec.getLsbD]

/-- At a legal header a path whose WAIT flags count stays where it is. -/
theorem execBeginClause_waits {h : Header} {s : State} {e : Env} (he : env s = some e) (hin : e.q.cl.inside = false)
    (hl : headIllegal h = false) (hw : waits e h = true) : execBeginClause h s = .next s := by
  rw [headIllegal_eq, Bool.or_assoc] at hl
  rw [waits] at hw
  simp only [execBeginClause, he, hin, hl, hw, Bool.false_or, Bool.or_assoc, Bool.false_eq_true, if_false, if_true]

/-- At a legal header a path whose WAIT flags count nothing begins the clause, alone where no path can merge with it. -/
theorem execBeginClause_begins {h : Header} {s : State} {e : Env} (he : env s = some e) (hin : e.q.cl.inside = false)
    (hl : headIllegal h = false) (hw : waits e h = false)
    (alone : h.rejoin = true → ∀ x ∈ e.g.paths, x.1 = e.p ∨ mergeable e.q x.2 = false) :
    execBeginClause h s = .next (s.with (begun e.hw e.gk e.p e.core e.now h)) := by
  have nobody : (h.rejoin && !(e.g.paths.filter fun x => x.1 != e.p && mergeable e.q x.2).isEmpty) = false := by
    cases hr : h.rejoin with
    | false => rfl
    | true => simpa [or_iff_not_imp_left] using alone hr
  rw [headIllegal_eq, Bool.or_assoc] at hl
  rw [waits] at hw
  simp only [execBeginClause, he, hin, hl, hw, nobody, Bool.false_or, Bool.or_assoc, Bool.false_eq_true, if_false]

/-- The clause that a header begins is over behind the header just where its length is one unit (R37). -/
theorem clause_after_header (c : Clause) (pc : Word) (n : BitVec 6) (hn : n ≠ 0) (hc : c.inside = true)
    (hfin : c.fin = pc + word (8 * n.toNat)) : c.after (pc + 8) = { c with inside := decide (1 < n.toNat) } := by
  have pos : n.toNat ≠ 0 := by simpa [← BitVec.toNat_inj] using hn
  have small : 8 * n.toNat < 2 ^ 64 := by omega
  have ends : (pc + 8 == c.fin) = !decide (1 < n.toNat) := by
    rw [Bool.eq_iff_iff, beq_iff_eq, hfin, BitVec.add_right_inj, ← BitVec.toNat_inj, word, BitVec.toNat_ofNat, Nat.mod_eq_of_lt small]
    change 8 = 8 * n.toNat ↔ _
    simp only [Bool.not_eq_true', decide_eq_false_iff_not]
    omega
  simp only [Clause.after, hc, ends, Bool.true_and]
  cases decide (1 < n.toNat) with
  | false => rfl
  | true => cases c; cases hc; rfl

/-- A path that begins a clause stands behind its header, with the clause's end, flags and stall (R37, R38, R41). -/
theorem begun_path {hw : Hw} {gk p core now : Nat} {h : Header} {g : Gang} {q : Path} (hg : hw.gangs.look gk = some g)
    (hq : g.paths.look p = some q) (hf : q.folded = false) (hn : h.clen ≠ 0) :
    ∃ g' q', (begun hw gk p core now h).gangs.look gk = some g' ∧ g'.vregs = g.vregs ∧ g'.nest = g.nest ∧
      (∀ i, i ≠ p → g'.paths.look i = g.paths.look i) ∧ g'.paths.look p = some q' ∧
      q' = { q with
        pc := q.pc + 8, stallTo := coreCycles hw core now + h.stall.toNat, skipBp := false
        cl := { inside := decide (1 < h.clen.toNat), sync := (hw.core core).syncs.length, fin := q.pc + word (8 * h.clen.toNat)
                seta := h.seta.toNat, setb := h.setb.toNat, yld := h.yld } } := by
  have A := fun cl => sendLanes_path hq hf (groupOf g q) (q.pc + 8) cl id
  rw [begun, setGang_look, if_pos rfl, hg]
  simp only [Option.map_some, hq]
  refine ⟨_, _, rfl, ?_, ?_, fun i hi => ?_, by rw [Tab.look_upd, if_pos rfl, A]; rfl, ?_⟩
  · simp [sendLanes, hq, hf]
  · simp [sendLanes, hq, hf]
  · simp [sendLanes, hq, hf, Tab.look_upd, hi, Tab.look_ins]
  · rw [clause_after_header _ _ _ hn rfl rfl]
    rfl

/-- Settles O9: a path with no count to wait for begins the clause alone; one with a count stays. -/
theorem clauseBegins : Obligations.ClauseBegins := by
  unfold Obligations.ClauseBegins
  intro h s e he hin hf hl
  obtain ⟨hs, hg, -⟩ := env_spec he
  refine ⟨fun zero alone => ?_, fun some => execBeginClause_waits he hin hl (waits_iff.2 some)⟩
  have hw : waits e h = false := by
    rw [← Bool.not_eq_true, waits_iff]
    rintro ⟨k, hk, hb, hc⟩
    exact hc (zero k hk hb)
  have hn : h.clen ≠ 0 := by
    rw [headIllegal_eq] at hl
    intro h0
    simp [h0] at hl
  obtain ⟨g', q', look, vregs, nest, others, path, rfl⟩ := begun_path (core := e.core) (now := e.now) hg (env_path he hf) hf hn
  subst hs
  exact ⟨_, g', _, execBeginClause_begins he hin hl hw alone, rfl, rfl, onlyGang_setGang .., rfl, look, vregs, nest, others, path, rfl, rfl,
    rfl, rfl, rfl, rfl⟩

/-! ## Transfers -/

/-- A control-flow form that passes its checks carries out its body. -/
theorem issueC_ok {fm : Form} {f : Fields} {s : State} {e : Env} (h : IssuesC fm f s e) (body : Env → Regs → Res) :
    issueC fm f s body = .next (s.with (e.finish (regsF fm f) (body e (regsF fm f)))) :=
  issue_ok h.here h.place (by simp) h.ready

/-- An instruction whose body sends its whole path to an address transfers it there. -/
theorem transfers_of_moved {i : Instr} {s : State} {e : Env} {r : Regs} {w : Writes} {pc : Word} {dep : Nat → Nat} {x : Res}
    (he : env s = some e) (hx : exec i s = .next (s.with (e.finish r x))) (hm : x = .moved w (e.goto pc dep e.hw))
    (room : Room e r w (e.goto pc dep e.hw)) : Transfers i s e r w pc dep e.hw := by
  subst hm
  refine ⟨_, hx, ?_⟩
  rw [← env_state he]
  exact moved_done room (env_gang he)

/-- An instruction whose body raises a cause traps. -/
theorem traps_of_trap {i : Instr} {s : State} {e : Env} {r : Regs} {t : Trap} {x : Res} (hx : exec i s = .next (s.with (e.finish r x)))
    (ht : x = .trap t) : Traps i s e t := by
  subst ht
  exact hx

/-- A target that is not 8-byte aligned is bad with cause 0x08 (R38). -/
theorem badTarget_unaligned {t : Word} (h : t.toNat % 8 ≠ 0) (m : Lanes) : badTarget t m = some { cause := 0x08, hit := m } := by
  simp [badTarget, h]
/-- An aligned target past 2^57 is bad with cause 0x07 (R100). -/
theorem badTarget_far {t : Word} (h : t.toNat % 8 = 0) (far : 2 ^ 57 ≤ t.toNat) (m : Lanes) :
    badTarget t m = some { cause := 0x07, info := 3, fault := t.toNat, hit := m } := by
  simp only [badTarget, h, far, ne_eq, not_true_eq_false, if_true, if_false]

theorem jump_good {e : Env} {t : Word} (h : badTarget t e.act = none) (w : Writes) (dep : Nat → Nat) (hw : Hw) :
    e.jump w t dep hw = .moved w (e.goto t dep hw) := by
  simp only [Env.jump, h]
theorem jump_bad {e : Env} {t : Word} {x : Trap} (h : badTarget t e.act = some x) (w : Writes) (dep : Nat → Nat) (hw : Hw) :
    e.jump w t dep hw = .trap x := by
  simp only [Env.jump, h]

/-- What brs does when it issues (R105). -/
theorem exec_brs {f : Fields} {s : State} {e : Env} (h : IssuesC Forms.brs f s e) :
    exec (.brs f) s = .next (s.with (e.finish (regsF Forms.brs f)
      (if cond e (regsF Forms.brs f) f.op 0 then e.jump {} (e.target f.lit) id e.hw else e.fall f.len {} e.hw))) :=
  issueC_ok h fun e r => if cond e r f.op 0 then e.jump {} (e.target f.lit) id e.hw else e.fall r.len {} e.hw

/-- What call does where a lane is active (R106): with a good target it calls, unless it is too deep. -/
theorem exec_call_active {f : Fields} {s : State} {e : Env} (h : IssuesC Forms.call f s e) (ha : e.act ≠ 0)
    (ht : badTarget (e.target f.lit) e.act = none) : exec (.call f) s = .next (s.with (e.finish (regsF Forms.call f)
      (if e.deepest ≥ 63 then nestTrap e.act
      else .moved { s := [((regsF Forms.call f).d, e.clauseEnd f.len)] } (e.goto (e.target f.lit) (· + 1) e.hw)))) := by
  simp only [exec, execCall, issueC_ok h, ha, ht, if_false]
  rfl
/-- With no lane active call goes on at the clause end (R106). -/
theorem exec_call_idle {f : Fields} {s : State} {e : Env} (h : IssuesC Forms.call f s e) (ha : e.act = 0) :
    exec (.call f) s = .next (s.with (e.finish (regsF Forms.call f) (e.fall f.len {} e.hw))) := by
  simp only [exec, execCall, issueC_ok h, ha, if_true]
  rfl

/-- What ret does when it issues (R106). -/
theorem exec_ret {f : SFields} {s : State} {e : Env} (he : env s = some e) (hp : e.badPlace 4 true 0 = false)
    (hr : e.ready (regsS Forms.ret f) = true) : exec (.ret f) s =
      .next (s.with (e.finish (regsS Forms.ret f) (e.jump {} (e.sa (regsS Forms.ret f)) (· - 1) e.hw))) :=
  issue_ok he hp (by simp) hr

/-- Settles O13: each form's body, once it issues, sends the whole path or raises the cause of its target. -/
theorem callsReturns : Obligations.CallsReturns := by
  unfold Obligations.CallsReturns
  refine ⟨⟨fun f s e h => ⟨fun hc ht => ?_, fun hc => ?_⟩, fun f s e h ha => ⟨fun ht hd => ?_, fun ht hd => ?_⟩,
    fun f s e he hp hr ht => ?_, fun f s e h ha => ?_⟩, fun f s e h hc => ⟨fun hu => ?_, fun hu far => ?_⟩,
    fun f s e he hp hr => ⟨fun hu => ?_, fun hu far => ?_⟩⟩
  · exact transfers_of_moved h.here (exec_brs h) (by rw [hc, if_pos rfl, jump_good ht])
  · exact transfers_of_moved h.here (exec_brs h) (by rw [hc]; rfl)
  · exact transfers_of_moved h.here (exec_call_active h ha ht) (if_neg (Nat.not_le.2 hd))
  · exact traps_of_trap (exec_call_active h ha ht) (if_pos hd)
  · exact transfers_of_moved he (exec_ret he hp hr) (jump_good ht ..)
  · exact transfers_of_moved h.here (exec_call_idle h ha) rfl
  · exact traps_of_trap (exec_brs h) (by rw [hc, if_pos rfl, jump_bad (badTarget_unaligned hu _)])
  · exact traps_of_trap (exec_brs h) (by rw [hc, if_pos rfl, jump_bad (badTarget_far hu far _)])
  · exact traps_of_trap (exec_ret he hp hr) (jump_bad (badTarget_unaligned hu _) ..)
  · exact traps_of_trap (exec_ret he hp hr) (jump_bad (badTarget_far hu far _) ..)

end Sys2Proof.Machine
end

section
/-! SUPPORT. Turns: what a turn of the machine runs, what a path fetches and reaches (02_formats R37, R47-R52; 17_tail R335), and that time
passes by what the turn says (13_consistency R249). -/

namespace Sys2Proof.Machine

open Sys2Proof

/-! ## Turns -/

/-- A turn that the agenda lists, on a machine with supply (R37). -/
theorem step_listed {s : State} {dt : Nat} {w : What} {r : List Turn} (ha : s.agenda = ⟨dt, w⟩ :: r) (hp : s.hw.pkg.powered = true) :
    step s = settleTurn (passTime { s with agenda := r } dt) (runTurn true w (passTime { s with agenda := r } dt)) := by
  simp only [step, advance, takeTurn, ha, hp, Bool.not_true, Bool.false_and, Bool.false_eq_true, if_false]

/-- A turn of the open order, on a machine with supply. -/
theorem step_unlisted {s : State} (ha : s.agenda = []) (hp : s.hw.pkg.powered = true) :
    step s = settleTurn (passTime { s with turns := s.turns + 1 } (Config.nextTurn s.turns).dt)
      (runTurn false (Config.nextTurn s.turns).what (passTime { s with turns := s.turns + 1 } (Config.nextTurn s.turns).dt)) := by
  simp only [step, advance, takeTurn, ha, hp, Bool.not_true, Bool.false_and, Bool.false_eq_true, if_false]

theorem runTurn_event {i : Instr} (h : view i = .event) (listed : Bool) (s : State) : runTurn listed (.event i) s = exec i s := by
  simp only [runTurn, h]

theorem runTurn_issue (q : PathRef) (s : State) : runTurn true (.issue q) s = issuePath q s := rfl
theorem runTurn_slot (listed : Bool) (core sched : Nat) (s : State) : runTurn listed (.slot core sched) s = .next (slotTurn core sched s) := rfl

/-! ## A path's turn -/

section
variable {s : State} {q : PathRef} {e e' : Env} {h : Hw} {f : Fetched × Hw} (he : envAt s q = some e) (hm : e.mayIssue = true)
  (hg : stepGate s e = (true, h)) (hf : e.fetch s.mem h = f) (he' : env ((s.with f.2).aim q f.1) = some e')
include he hm hg hf he'

/-- A path that may issue traps at the byte that it could not fetch (R47). -/
theorem issuePath_unfetched {a : Nat} (hb : f.1.bad = some a) : issuePath q s = .next (((s.with f.2).aim q f.1).with
    (e'.trap { cause := 0x04, fault := a, hit := e'.act, straddle := some (straddleOf e'.q.pc.toNat f.1.len) })) := by
  subst hf
  simp only [issuePath, he, hm, hg, he', hb, Bool.not_true, Bool.false_eq_true, if_false]
/-- A path that may issue reaches the instruction that it fetched. -/
theorem issuePath_fetched (hb : f.1.bad = none) : issuePath q s = reach ((s.with f.2).aim q f.1) e' := by
  subst hf
  simp only [issuePath, he, hm, hg, he', hb, Bool.not_true, Bool.false_eq_true, if_false]
end

/-- Where no breakpoint acts the path runs what it fetched (21_observe R407). -/
theorem reach_runs {s : State} {e : Env} (he : env s = some e)
    (hb : e.q.skipBp = true ∨ breakHit (s.hw.part e.part) e.ctx e.q.pc.toNat e.act = none) : reach s e = runFetched s e := by
  rw [← env_state he] at hb
  have : (if e.q.skipBp then none else breakHit (e.hw.part e.part) e.ctx e.q.pc.toNat e.act) = none := by
    split
    · rfl
    · exact hb.resolve_left ‹_›
  simp only [reach, this]

/-- An encoding of cause 0x02 raises 0x01 or 0x02, by its place (R52). -/
theorem reservedCause_cases (e : Env) (w : BitVec 128) (n : Nat) : reservedCause e w n = 0x01 ∨ reservedCause e w n = 0x02 := by
  unfold reservedCause
  split <;> split <;> simp

/-- What a running instruction changes goes into the step log alone (17_tail R335). -/
theorem runLogged_frame {s t : State} {i : Instr} (e : Env) (h : exec i s = .next t) :
    ∃ hw, runLogged s e i = .next (t.with hw) ∧ SameButLogs t.hw hw := by
  simp only [runLogged, h]
  by_cases hu : unlogged i = true
  · exact ⟨t.hw, by rw [if_pos hu]; rfl, rfl, fun _ => .refl _⟩
  · exact ⟨noteStep e.part e.gk e.p s.hw t.hw, by rw [if_neg hu], logStep_frame ..⟩

/-! ## Fetch -/

/-- Every value a word has held is the one it holds now or one that a landed write replaced (R49). -/
theorem versions_mem {now : BitVec 32} {ws : List WordVer} {x : Nat × BitVec 32} (h : x ∈ versions now ws) :
    x.2 = now ∨ ∃ w ∈ ws, x.2 = w.old := by
  induction ws generalizing now with
  | nil => exact .inl (by rw [List.mem_singleton.1 h])
  | cons w ws ih =>
    rcases List.mem_cons.1 h with rfl | h
    · exact .inl rfl
    · rcases ih h with h | ⟨y, hy, h⟩
      · exact .inr ⟨w, List.mem_cons_self .., h⟩
      · exact .inr ⟨y, List.mem_cons_of_mem _ hy, h⟩

theorem versions_head (now : BitVec 32) (ws : List WordVer) : ∃ n vs, versions now ws = (n, now) :: vs ∧ ∀ x r, ws = x :: r → n = x.seq := by
  cases ws with
  | nil => exact ⟨0, [], rfl, by simp⟩
  | cons w ws => exact ⟨w.seq, versions w.old ws, rfl, fun x r h => by cases h; rfl⟩

/-- The values older than the newest that a fetch may still return, past the write low (R48, R49). -/
def olderThan (low n : Nat) (vs : List (Nat × BitVec 32)) : List (Nat × BitVec 32) :=
  if n ≤ low then [] else (vs.filter fun x => decide (low < x.1)) ++ ((vs.find? fun x => decide (x.1 ≤ low)).map fun x => [x]).getD []

theorem olderThan_eq (low n : Nat) (vs : List (Nat × BitVec 32)) : olderThan low n vs = if n ≤ low then [] else
    (vs.filter fun x => decide (low < x.1)) ++ ((vs.find? fun x => decide (x.1 ≤ low)).map fun x => [x]).getD [] := rfl
theorem olderThan_sub {low n : Nat} {vs : List (Nat × BitVec 32)} {x : Nat × BitVec 32} (h : x ∈ olderThan low n vs) : x ∈ vs := by
  unfold olderThan at h
  split at h
  · cases h
  rcases List.mem_append.1 h with h | h
  · exact (List.mem_filter.1 h).1
  · cases hf : vs.find? fun x => decide (x.1 ≤ low) with
    | none => rw [hf] at h; cases h
    | some y =>
      rw [hf] at h
      rw [List.mem_singleton.1 h]
      exact List.mem_of_find?_eq_some hf

/-- A fetch from a page of device memory that permits execution gives a value the word has held, and the present one where R48 lets it miss no
write (R48, R49). -/
theorem fetchWord_executes {m : Tab Memory} {p core ctx n va : Nat} {hw h : Hw} {t : Trans} (ht : translate hw m p ctx va = (.ok t, h))
    (hk : t.kind = 0) (hx : t.x = true) :
    ∃ w, (fetchWord m p core ctx n va hw).1 = some w ∧
      (w = BitVec.ofNat 32 (rdNat m p t.pa 4) ∨ ∃ x ∈ (h.part p).hist.val [] (t.pa / 4), w = x.old) ∧
      (∀ x r, (h.part p).hist.val [] (t.pa / 4) = x :: r →
        x.seq ≤ syncedWrite (h.core core).syncs n ((h.part p).hist.val [] (t.pa / 4)) → w = BitVec.ofNat 32 (rdNat m p t.pa 4)) := by
  generalize hnow : BitVec.ofNat 32 (rdNat m p t.pa 4) = now
  generalize hws : (h.part p).hist.val [] (t.pa / 4) = ws
  obtain ⟨k, vs, hv, hseq⟩ := versions_head now ws
  generalize hlow : Nat.max (syncedWrite (h.core core).syncs n ws) ((h.core core).seen.val 0 (t.pa / 4)) = low
  have fetched : ∃ v ∈ (k, now) :: olderThan low k vs, (fetchWord m p core ctx n va hw).1 = some v.2 := by
    simp only [fetchWord, ht, hk, hx, hnow, hws, hv, hlow, ← olderThan_eq, ne_eq, not_true_eq_false, Bool.not_true, Bool.false_eq_true,
      or_self, if_false]
    split
    · exact ⟨_, List.mem_cons_self .., rfl⟩
    · have lt : h.draw.1 % ((olderThan low k vs).length + 1) < ((k, now) :: olderThan low k vs).length := Nat.mod_lt _ (Nat.succ_pos _)
      exact ⟨_, List.getD_eq_getElem _ _ lt ▸ List.getElem_mem lt, rfl⟩
  obtain ⟨v, hmem, hget⟩ := fetched
  refine ⟨v.2, hget, versions_mem (ws := ws) ?_, fun x r hr hle => ?_⟩
  · rw [hv]
    rcases List.mem_cons.1 hmem with rfl | hmem
    · exact List.mem_cons_self ..
    · exact List.mem_cons_of_mem _ (olderThan_sub hmem)
  · have : olderThan low k vs = [] := if_pos (hlow ▸ hseq x r hr ▸ hle.trans (Nat.le_max_left ..))
    rw [this] at hmem
    rw [List.mem_singleton.1 hmem]

/-- A page that is not of device memory, or does not permit execution, gives no word (R47). -/
theorem fetchWord_refused {m : Tab Memory} {p core ctx n va : Nat} {hw h : Hw} {t : Trans} (ht : translate hw m p ctx va = (.ok t, h))
    (hk : t.kind ≠ 0 ∨ t.x = false) : (fetchWord m p core ctx n va hw).1 = none := by
  simp only [fetchWord, ht, Bool.not_eq_true', hk, if_true]
/-- An address that does not translate gives no word (R47). -/
theorem fetchWord_untranslated {m : Tab Memory} {p core ctx n va : Nat} {hw h : Hw} {l : Nat} (ht : translate hw m p ctx va = (.error l, h)) :
    (fetchWord m p core ctx n va hw).1 = none := by
  simp only [fetchWord, ht]

/-! ## Time -/

theorem foldl_time {α : Type} {f : State → α → State} (hf : ∀ s x, (f s x).time = s.time) (l : List α) (s : State) :
    (l.foldl f s).time = s.time := by
  induction l generalizing s with
  | nil => rfl
  | cons x l ih => rw [List.foldl_cons, ih, hf]

@[simp] theorem mergeGroup_time (s : State) (gk : Nat) (ms : List Member) : (mergeGroup s gk ms).time = s.time := by
  unfold mergeGroup
  split <;> rfl
@[simp] theorem rejoinDeadlock_time (s : State) (gk : Nat) (g : Gang) : (rejoinDeadlock s gk g).time = s.time := by
  simp only [rejoinDeadlock]
  split <;> rfl
/-- Evaluating the waiting groups of a gang takes no time. -/
@[simp] theorem settleRejoin_time (gk n : Nat) (s : State) : (settleRejoin gk n s).time = s.time := by
  induction n generalizing s with
  | zero => rfl
  | succ n ih =>
    unfold settleRejoin
    split
    · rfl
    split
    · rw [ih, mergeGroup_time]
    · split
      · exact rejoinDeadlock_time ..
      · rfl
@[simp] theorem wakeContext_time (s : State) (core c : Nat) : (wakeContext s core c).time = s.time :=
  foldl_time (fun s gk => settleRejoin_time gk 40 s) ..
@[simp] theorem doFlip_time (s : State) (core : Nat) : (doFlip s core).time = s.time := by
  simp only [doFlip]
  split
  · exact wakeContext_time ..
  · rfl
@[simp] theorem endMove_time (s : State) (core : Nat) : (endMove s core).time = s.time := by
  simp only [endMove]
  split
  · split <;> rfl
  · rfl
  · rfl
/-- What is over at a moment takes no time itself. -/
@[simp] theorem tick_time (s : State) : (tick s).time = s.time := by
  simp only [tick, State.with_time]
  exact (foldl_time (fun s (x : Nat × Nat) => State.with_time s (endKill s x.1 x.2)) ..).trans
    ((foldl_time (fun s (k : Nat × Core) => endMove_time s k.1) ..).trans (foldl_time (fun s (k : Nat × Core) => doFlip_time s k.1) ..))
/-- Time passes by what the turn says. -/
theorem passTime_time (s : State) (dt : Nat) : (passTime s dt).time = s.time + dt := by
  simp only [passTime, State.with_time, tick_time]
  rfl

/-- Settles O57, clause by clause: each kind of turn, what a path that fetches then does, what is logged, what a fetch gives, and time. -/
theorem stepRuns : Obligations.StepRuns := by
  unfold Obligations.StepRuns
  refine ⟨fun s dt i r ha hv hp => ?_, fun s dt q r ha hp => ?_, fun s e i t h => runLogged_frame e h, fun s dt core sched r ha hp => ?_,
    fun s ha hp dt i hn hv => ?_, fun m p core ctx n va hw t h ht => ?_, fun m p core ctx n va hw l h ht => fetchWord_untranslated ht,
    passTime_time⟩
  · rw [step_listed ha hp, runTurn_event hv]
  · intro s1 e h f e' he hm hg hf he'
    have hstep : step s = settleTurn s1 (issuePath q s1)  := by rw [step_listed ha hp, runTurn_issue]
    refine ⟨fun a hb => by rw [hstep, issuePath_unfetched he hm hg hf he' hb], fun hb hbp => ?_⟩
    rw [issuePath_fetched he hm hg hf he' hb, reach_runs he' hbp, runFetched] at hstep
    refine ⟨fun i hi => ?_, fun hi => ?_, fun n hi => ⟨_, reservedCause_cases e' f.1.insn n, ?_⟩⟩
    all_goals
      rw [hstep]
      simp only [State.aim, hi]
  · rw [step_listed ha hp, runTurn_slot]
  · rw [step_unlisted ha hp, hn, runTurn_event hv]
  · intro now ws
    exact ⟨fetchWord_refused ht, fetchWord_executes ht⟩

end Sys2Proof.Machine
end

section
/-! SUPPORT. What the issue checks miss of a form's privilege: .phys of aload is restricted to the supervisor by a bit of EXT and not by
its form (16_matrix R321), so that the form's own privilege does not say what the instruction checks. -/

namespace Sys2Proof.Machine

open Sys2Proof

/-- The fields of an aload.phys of physical tile 0 from the address in s7. -/
def physLoad : Fields :=
  { cls := 2, opt := 0, fsel := 0, lud := false, lub := false, lua := false, b := 7, a := 0, d := 0, ty := .f32, tail := .x 0 false 0 2 }

/-- A path of a context that is not the supervisor, at an aload.phys that ends its clause, while a load into s7 is in flight. -/
def physWaiting : State :=
  let w := encode (.aload physLoad)
  let s := (State.reset.withFetchWord 128 w.toNat).aim placeRef { len := 16, insn := w }
  s.with { s.hw with ops := [{ id := 1, ctx := placeCtx, gk := gangKey 0 placeCtx 0, paths := 1, dst := .scal 7 1 0, kind := .load [] .i64 }] }

/-- The state of the placed path after an outcome. -/
def placedState (s : State) (o : Out) : Option PState := (markOf (after s o) placeRef).map (·.state)

/-- The aload.phys is well formed and stands where it may, its form is open to every context, and its operand is not there: yet it does not
wait for the operand, since its path traps for its privilege. -/
theorem physWaiting_traps : wellFormed (.aload physLoad) = true ∧ ∃ e, env physWaiting = some e ∧
    e.badPlace physLoad.len false physLoad.fsel.toNat = false ∧ e.ready (regsF Forms.aload physLoad) = false ∧
    placedState physWaiting (exec (.aload physLoad) physWaiting) = some .stopped ∧
    placedState physWaiting (.next (physWaiting.with (e.awaitOperands (regsF Forms.aload physLoad)))) = some .parked := by
  refine ⟨by decide +kernel, ?_⟩
  have h : (env physWaiting).any (fun e => decide (e.badPlace physLoad.len false physLoad.fsel.toNat = false ∧
      e.ready (regsF Forms.aload physLoad) = false ∧ placedState physWaiting (exec (.aload physLoad) physWaiting) = some .stopped ∧
      placedState physWaiting (.next (physWaiting.with (e.awaitOperands (regsF Forms.aload physLoad)))) = some .parked)) = true := by
    decide +kernel
  obtain ⟨e, he, hp⟩ := (Option.any_eq_true _ _).1 h
  exact ⟨e, he, of_decide_eq_true hp⟩

/-- Refutes O59: aload with .phys outside the supervisor traps with cause 0x03 though its form is not restricted, where the statement has it
wait for an operand that is not there (R52, 16_matrix R321). -/
theorem not_issueGuards : ¬ Obligations.IssueGuards := by
  unfold Obligations.IssueGuards
  rintro ⟨guards, -⟩
  obtain ⟨-, e, he, place, ready, stopped, parked⟩ := physWaiting_traps
  obtain ⟨-, -, waits⟩ := guards (.aload physLoad) Forms.aload physLoad physWaiting e rfl (by simp) he
  obtain ⟨await, -⟩ := waits place (fun h => nomatch h) (by simp)
  rw [await ready, parked] at stopped
  exact absurd stopped (by decide)

end Sys2Proof.Machine
end

section
/-! SUPPORT. Launches and counters: what glaunch, gsig, gcount and gwait do when they issue, the gwaits that a write wakes, and the launch
that the lead Phobos takes from a device queue (04_launch R87, R88). -/

namespace Sys2Proof.Machine

open Sys2Proof

/-! ## What comes of an issuing form

Instruction i has issued with outcome x: each outcome says what i did. -/

section
variable {i : Instr} {s : State} {e : Env} {r : Regs} {x : Res} (he : env s = some e) (hx : exec i s = .next (s.with (e.finish r x)))
include he hx

theorem holds_of_hold (h : x = .hold) : Holds i s := by
  subst h
  rw [← env_state he] at hx ⊢
  exact hx

theorem retires_of_done {w : Writes} {hw : Hw} (h : x = .done w hw) (room : Room e r w hw) : Retires i s e r w hw := by
  subst h
  refine ⟨_, hx, ?_⟩
  rw [← env_state he]
  exact retired_any room

omit he in
theorem stays_of_stay {hw : Hw} (h : x = .stay hw) : Stays i s e r hw := by
  subst h
  intro h' room
  refine ⟨?_, waitRoom_frame room⟩
  simpa only [Env.finish, room] using hx

/-- A form that starts an operation waits for it, or goes on (02_formats R43; 12_handles R230). -/
theorem starts_of_start {op : Op} {blocking : Bool} {hw : Hw} (h : x = e.start r op blocking hw) : Starts i s e r op blocking hw := by
  subst h
  cases blocking with
  | false => exact retires_of_done he hx rfl
  | true =>
    intro h' room
    refine stays_of_stay hx ?_
    simp only [Env.start, if_true, room]

end

/-! ## glaunch -/

/-- The operation of a glaunch of the header with words ws at va: the launch is on its way with ARGS replaced, or without a header where the
device queue is full (R87). -/
def glaunchOp (e : Env) (r : Regs) (ws : List Nat) (va : Nat) : Op :=
  { e.newOp r (.glaunch (if 1024 ≤ queuedLaunches e.hw e.part e.ctx then [] else ws.set 8 (e.sa r).toNat) (word va)) with
    entry := true, dst := e.dest r }

/-- The machine in which one more entry of the waiting table of the core has been in use. -/
def entryNoted (hw : Hw) (core : Nat) : Hw := hw.setCore core fun c => { c with wtPeak := max c.wtPeak (waitEntries hw core + 1) }

/-- What a glaunch does at a header address that its handle admits (R87). -/
def glaunchAt (e : Env) (r : Regs) (va : Nat) : Res :=
  match readHeader e va with
  | .error l => .trap { cause := 0x07, info := l.1, fault := va, hit := e.act }
  | .ok (ws, pas, hw) =>
    match e.watch hw true false true [(0, va, 192)] with
    | .error x => x
    | .ok hw =>
      if pas.any fun pa => !clear e.hw { glaunchOp e r ws va with id := 0 } { lane := 0, tgt := { pa := pa } } 64 true then .hold
      else .done { ops := [glaunchOp e r ws va] } (entryNoted hw e.core)

theorem glaunchAt_unmapped {e : Env} {va : Nat} {l : Nat × Nat} (h : readHeader e va = .error l) (r : Regs) :
    glaunchAt e r va = .trap { cause := 0x07, info := l.1, fault := va, hit := e.act } := by
  simp only [glaunchAt, h]

/-- A header that is read, with no earlier write of the path still on its way to it, is launched. -/
theorem glaunchAt_read {e : Env} {r : Regs} {va : Nat} {ws pas : List Nat} {hw hw' : Hw} (h : readHeader e va = .ok (ws, pas, hw))
    (hwatch : e.watch hw true false true [(0, va, 192)] = .ok hw')
    (hclear : ∀ pa ∈ pas, clear e.hw { glaunchOp e r ws va with id := 0 } { lane := 0, tgt := { pa := pa } } 64 true = true) :
    glaunchAt e r va = .done { ops := [glaunchOp e r ws va] } (entryNoted hw' e.core) := by
  have none : (pas.any fun pa => !clear e.hw { glaunchOp e r ws va with id := 0 } { lane := 0, tgt := { pa := pa } } 64 true) = false :=
    List.any_eq_false.2 fun pa hpa => by simpa using hclear pa hpa
  simp only [glaunchAt, h, hwatch, none, Bool.false_eq_true, if_false]

/-- What a glaunch does that names handle n, which reads hd, with offset o: the handle is checked before the header (R87). -/
def glaunchBy (e : Env) (r : Regs) (n o : Nat) (hd : Handle) : Res :=
  if e.tableFull then .hold
  else if handleBad e.hw e.part e.ctx n { spaces := fun sp => sp == 0, r := true, width := 192 } hd then
    .trap { cause := 0x06, fault := handleFault n o, hit := e.act }
  else if hd.len < o + 192 then .trap { cause := 0x05, fault := handleFault n o, hit := e.act }
  else if (hd.base + o) % 64 ≠ 0 then .trap { cause := 0x08, fault := hd.base + o, hit := e.act }
  else glaunchAt e r (hd.base + o)

theorem exec_glaunch {f : Fields} {s : State} {e : Env} (h : Issues Forms.glaunch f s e) :
    exec (.glaunch f) s = .next (s.with (e.finish (regsF Forms.glaunch f) (glaunchBy e (regsF Forms.glaunch f) f.hIdx
      (offSum f.hOff (e.sb (regsF Forms.glaunch f)).toNat 0) (readHandle e.hw s.mem e.part e.ctx f.hIdx)))) := by
  obtain rfl := env_state h.here
  exact issueF_ok h fun _ _ => _

section
variable {e : Env} {r : Regs} {n o : Nat} {hd : Handle}

theorem glaunchBy_full (h : e.tableFull = true) : glaunchBy e r n o hd = .hold := if_pos h

variable (free : e.tableFull = false)
include free

theorem glaunchBy_bad (h : handleBad e.hw e.part e.ctx n { spaces := fun sp => sp == 0, r := true, width := 192 } hd = true) :
    glaunchBy e r n o hd = .trap { cause := 0x06, fault := handleFault n o, hit := e.act } := by
  simp only [glaunchBy, free, h, Bool.false_eq_true, if_false, if_true]

variable (good : handleBad e.hw e.part e.ctx n { spaces := fun sp => sp == 0, r := true, width := 192 } hd = false)
include good

theorem glaunchBy_short (h : hd.len < o + 192) :
    glaunchBy e r n o hd = .trap { cause := 0x05, fault := handleFault n o, hit := e.act } := by
  simp only [glaunchBy, free, good, h, Bool.false_eq_true, if_false, if_true]

variable (long : o + 192 ≤ hd.len)
include long

theorem glaunchBy_unaligned (h : (hd.base + o) % 64 ≠ 0) :
    glaunchBy e r n o hd = .trap { cause := 0x08, fault := hd.base + o, hit := e.act } := by
  simp only [glaunchBy, free, good, Nat.not_lt.2 long, h, Bool.false_eq_true, if_false, if_true, ne_eq, not_false_eq_true]

theorem glaunchBy_aligned (h : (hd.base + o) % 64 = 0) : glaunchBy e r n o hd = glaunchAt e r (hd.base + o) := by
  simp only [glaunchBy, free, good, Nat.not_lt.2 long, h, Bool.false_eq_true, if_false, ne_eq, not_true_eq_false]

end

/-! ## gsig and gcount -/

section
variable {fm : Form} {f : Fields} {s : State} {e : Env} (h : Issues fm f s e) (hc : e.counterFull = false) (add : Bool)
include h hc

/-- gsig and gcount do what stops the check of their counter (R88). -/
theorem counterForm_stop {x : Res} (hk : e.checkWord (e.sa (regsF fm f)).toNat true true = .stop x) :
    counterForm fm f s add = .next (s.with (e.finish (regsF fm f) x)) := by
  simp only [counterForm, issueF_ok h, hc, hk, Bool.false_eq_true, if_false]

variable {es : List Elem} {hw : Hw} (hk : e.checkWord (e.sa (regsF fm f)).toNat true true = .ok es hw)
include hk

/-- gsig and gcount wait for their release part (R88; 14_atomics R267). -/
theorem counterForm_waits {sc b : Nat} (hr : e.releasing false = some (sc, b)) :
    counterForm fm f s add = .next (s.with (e.finish (regsF fm f) (.stay (e.park (regsF fm f) .parked (.release sc b) e.hw)))) := by
  simp only [counterForm, issueF_ok h, hc, hk, hr, Bool.false_eq_true, if_false]

/-- Behind their release part gsig and gcount start the access to their counter (R88). -/
theorem counterForm_starts (hr : e.releasing false = none) :
    counterForm fm f s add = .next (s.with (e.finish (regsF fm f) (e.start (regsF fm f)
      { e.newOp (regsF fm f) (.counter { es.headD { lane := 0, tgt := {} } with val := e.sb (regsF fm f) } add) with
        counts := true, dst := e.dest (regsF fm f) } (!add) hw))) := by
  simp only [counterForm, issueF_ok h, hc, hk, hr, Bool.false_eq_true, if_false]

end

/-- A form whose meaning is that of gsig and gcount checks its counter, waits for its release part, and starts. -/
theorem counterForm_rules {fm : Form} {i : Instr} {f : Fields} {s : State} {e : Env} {add : Bool} (hi : exec i s = counterForm fm f s add)
    (h : Issues fm f s e) :
    let r := regsF fm f
    (∀ t, e.counterFull = false → e.checkWord (e.sa r).toNat true true = .stop (.trap t) → Traps i s e t) ∧
    ∀ es hw, e.counterFull = false → e.checkWord (e.sa r).toNat true true = .ok es hw →
      (∀ sc b, e.releasing false = some (sc, b) → Parks i s e r .parked (.release sc b) e.hw) ∧
      (e.releasing false = none → Starts i s e r
        { e.newOp r (.counter { es.headD { lane := 0, tgt := {} } with val := e.sb r } add) with counts := true, dst := e.dest r } (!add) hw) :=
  ⟨fun _ hc hk => traps_of_trap (hi.trans (counterForm_stop h hc add hk)) rfl,
    fun _ _ hc hk => ⟨fun _ _ hr => stays_of_stay (hi.trans (counterForm_waits h hc add hk hr)) rfl,
      fun hr => starts_of_start h.here (hi.trans (counterForm_starts h hc add hk hr)) rfl⟩⟩

/-! ## gwait -/

/-- Whether an earlier access of the path to the counter at pa is still to be performed, or its write to become visible (R88; 13_consistency
R250). -/
def counterAwaited (e : Env) (pa : Nat) : Bool :=
  counterBusy e.hw e.gk e.p pa || (e.hw.part e.part).pend.any fun w => w.gk == e.gk && bit e.p w.paths &&
    decide (w.addr < pa + 8) && decide (pa < w.addr + w.bytes.length)

/-- What gwait does at a counter that it may read: it retires where the test holds, else it parks (R88). -/
def gwaitTest (e : Env) (r : Regs) (pa : Nat) (hw : Hw) : Res :=
  if !counterAwaited e pa && decide ((e.sb r).toNat ≤ rdNat e.s.mem e.part pa 8) then .done (putS r (rdNat e.s.mem e.part pa 8)) hw
  else .stay (notePeak (e.park r .parked (.gwait pa (e.sb r) r.d) hw) e.core)

theorem gwaitTest_met {e : Env} {r : Regs} {pa : Nat} (hb : counterAwaited e pa = false) (hv : (e.sb r).toNat ≤ rdNat e.s.mem e.part pa 8)
    (hw : Hw) : gwaitTest e r pa hw = .done (putS r (rdNat e.s.mem e.part pa 8)) hw := by
  simp only [gwaitTest, hb, hv, Bool.not_false, decide_true, Bool.and_self, if_true]

theorem gwaitTest_unmet {e : Env} {r : Regs} {pa : Nat} (h : counterAwaited e pa = true ∨ rdNat e.s.mem e.part pa 8 < (e.sb r).toNat)
    (hw : Hw) : gwaitTest e r pa hw = .stay (notePeak (e.park r .parked (.gwait pa (e.sb r) r.d) hw) e.core) := by
  refine if_neg ?_
  rcases h with h | h
  · simp [h]
  · simp [Nat.not_le.2 h]

section
variable {f : Fields} {s : State} {e : Env} (h : Issues Forms.gwait f s e)
include h

theorem exec_gwait_full (hf : e.tableFull = true) : exec (.gwait f) s = .next (s.with (e.finish (regsF Forms.gwait f) .hold)) := by
  simp only [exec, execGwait, issueF_ok h, hf, if_true]

variable (hf : e.tableFull = false)
include hf

theorem exec_gwait_stop {x : Res} (hk : e.checkWord (e.sa (regsF Forms.gwait f)).toNat true false = .stop x) :
    exec (.gwait f) s = .next (s.with (e.finish (regsF Forms.gwait f) x)) := by
  simp only [exec, execGwait, issueF_ok h, hf, hk, Bool.false_eq_true, if_false]

theorem exec_gwait_ok {es : List Elem} {hw : Hw} (hk : e.checkWord (e.sa (regsF Forms.gwait f)).toNat true false = .ok es hw) :
    exec (.gwait f) s = .next (s.with (e.finish (regsF Forms.gwait f)
      (gwaitTest e (regsF Forms.gwait f) (es.headD { lane := 0, tgt := {} }).tgt.pa hw))) := by
  simp only [exec, execGwait, issueF_ok h, hf, hk, Bool.false_eq_true, if_false]
  rfl

end

/-! ## Forms that go on from their wait -/

/-- Where its instruction stands does not matter to what an instruction writes. -/
theorem WroteGang.of_cursor {e : Env} {s : State} {r : Regs} {w : Writes} {ops : List Op} {g g' : Gang}
    (W : WroteGang { e with s := s } r w ops g g') : WroteGang e r w ops g g' :=
  ⟨W.v, W.vFrame, W.vRel, W.s, W.sFrame, W.sRel, W.paths, W.fexc, W.srng, W.srngW, W.nest, W.wid, W.tag, W.exited⟩

/-- The form that a path waits at retires (13_consistency R257). -/
theorem retireParked_retired {s : State} {q : PathRef} {e : Env} (he : envAt s q = some e) {r : Regs} (hr : e.q.form = some r)
    {w : Writes} {hw : Hw} (room : Room e r w hw) : Retired e r w hw (s.with (e.retireParked w hw)) := by
  have hs : e.s = { s with cur := { s.cur with q := q } } := env_state he
  have R := retired_any (e := { e with s := { e.s with cur := { e.s.cur with len := r.len, insn := e.q.insn } } }) room
  simp only [Env.retireParked, hr]
  refine ⟨by rw [hs]; rfl, by rw [hs]; rfl, R.only, R.ops, fun g hg => ?_, R.path⟩
  obtain ⟨g', look, W⟩ := R.gang g hg
  exact ⟨g', look, W.of_cursor⟩

theorem gwaitWake_holds {s : State} {q : PathRef} {e : Env} (he : envAt s q = some e)
    (h : (∀ d v, e.q.wait ≠ .woken d v) ∨ runsOn s.hw e.core e.ctx = false) : Holds (.gwaitWake q) s := by
  simp only [Holds, exec, execGwaitWake, he]
  split
  case h_1 d v hwait => rw [h.resolve_left fun none => none d v hwait]; rfl
  case h_2 => rfl

theorem gwaitWake_resumes {s : State} {q : PathRef} {e : Env} (he : envAt s q = some e) {d : Nat} {v : Word} (hw : e.q.wait = .woken d v)
    (runs : runsOn s.hw e.core e.ctx = true) : Resumes (.gwaitWake q) s e { s := [(d, v)] } s.hw := by
  intro r hr room
  refine ⟨_, ?_, retireParked_retired he hr room⟩
  simp only [exec, execGwaitWake, he, hw, runs, if_true]

/-! ## Woken gwaits -/

/-- An entry of a table whose values are changed, each by its key. -/
theorem look_map_keyed {α : Type} (f : Nat → α → α) (t : Tab α) (k : Nat) :
    Tab.look (t.map fun x => (x.1, f x.1 x.2)) k = (t.look k).map (f k) := by
  induction t with
  | nil => rfl
  | cons x t ih =>
    obtain ⟨j, v⟩ := x
    by_cases h : j = k
    · simp [Tab.look, h]
    · simpa [Tab.look, h] using ih

/-- Path k of gang gk after a write to the counters that sel selects (R88). -/
def wokenPath (m : Tab Memory) (p : Nat) (hw : Hw) (sel : Nat → Bool) (gk k : Nat) (q : Path) : Path :=
  match q.wait with
  | .gwait pa thr d =>
    if sel pa ∧ thr.toNat ≤ rdNat m p pa 8 ∧ !counterBusy hw gk k pa then { q with wait := .woken d (word (rdNat m p pa 8)) } else q
  | _ => q

/-- Gang gk after such a write. -/
def wokenGang (m : Tab Memory) (p : Nat) (hw : Hw) (sel : Nat → Bool) (gk : Nat) (g : Gang) : Gang :=
  if g.part = p then { g with paths := g.paths.map fun x => (x.1, wokenPath m p hw sel gk x.1 x.2) } else g

section
variable {m : Tab Memory} {p : Nat} {hw : Hw} {sel : Nat → Bool} {gk k : Nat} {q : Path}

theorem wokenPath_met {pa d : Nat} {thr : Word} (hq : q.wait = .gwait pa thr d) (hs : sel pa = true) (hv : thr.toNat ≤ rdNat m p pa 8)
    (hb : counterBusy hw gk k pa = false) : wokenPath m p hw sel gk k q = { q with wait := .woken d (word (rdNat m p pa 8)) } := by
  simp only [wokenPath, hq, hs, hv, hb, Bool.not_false, and_self, if_true]

theorem wokenPath_unmet {pa d : Nat} {thr : Word} (hq : q.wait = .gwait pa thr d) (hv : rdNat m p pa 8 < thr.toNat) :
    wokenPath m p hw sel gk k q = q := by
  simp only [wokenPath, hq, Nat.not_le.2 hv, false_and, and_false, if_false]

theorem wokenPath_other (hq : ∀ pa thr d, q.wait ≠ .gwait pa thr d) : wokenPath m p hw sel gk k q = q := by
  unfold wokenPath
  split
  case h_1 pa thr d h => exact absurd h (hq pa thr d)
  case h_2 => rfl

end

/-- Waking gwaits changes each path by itself. -/
theorem wakeCounter_gangs (m : Tab Memory) (p : Nat) (hw : Hw) (sel : Nat → Bool) :
    (wakeCounter m p hw sel).gangs = hw.gangs.map fun g => (g.1, wokenGang m p hw sel g.1 g.2) := by
  simp only [wakeCounter, wokenGang]
  refine List.map_congr_left fun g _ => ?_
  split
  · congr 3
    funext x
    split
    case h_1 pa thr d h =>
      simp only [wokenPath, h]
      split <;> rfl
    case h_2 h => rw [wokenPath_other h]
  · rfl

/-- A path of a partition after a write that wakes gwaits there. -/
theorem wakeCounter_path (m : Tab Memory) {hw : Hw} (sel : Nat → Bool) {gk k : Nat} {g : Gang} {q : Path}
    (hg : hw.gangs.look gk = some g) (hq : g.paths.look k = some q) :
    ∃ g', (wakeCounter m g.part hw sel).gangs.look gk = some g' ∧ g'.paths.look k = some (wokenPath m g.part hw sel gk k q) ∧
      g'.vregs = g.vregs := by
  refine ⟨wokenGang m g.part hw sel gk g, ?_, ?_, ?_⟩
  · rw [wakeCounter_gangs, look_map_keyed, hg]
    rfl
  · simp only [wokenGang, if_true, look_map_keyed, hq]
    rfl
  · simp only [wokenGang, if_true]

/-! ## The device queue -/

/-- A change of a partition that leaves its contexts leaves every context. -/
theorem Hw.ctx_setPart {f : Part → Part} (hf : ∀ q, (f q).contexts = q.contexts) (hw : Hw) (p : Nat) : (hw.setPart p f).ctx = hw.ctx := by
  funext i c
  simp only [Hw.ctx, Hw.setPart, Hw.part, Tab.val_ins]
  split
  · subst_vars
    rw [hf]
  · rfl

theorem Hw.ctx_setCtx_same (hw : Hw) (p c : Nat) (f : Context → Context) : (hw.setCtx p c f).ctx p c = (hw.ctx p c).map f := by
  simp [Hw.ctx, Hw.setCtx, Tab.look_upd]

theorem Hw.ctx_free {a b : Hw} (h : a.ctx = b.ctx) (n : Nat) : ({ a with free := n } : Hw).ctx = b.ctx := h

/-- A translation changes no context. -/
theorem translate_ctx (hw : Hw) (m : Tab Memory) (p c va : Nat) : (translate hw m p c va).2.ctx = hw.ctx := by
  unfold translate
  split
  · rfl
  extract_lets use known fresh add d
  have hadd : ∀ e, (add e).ctx = hw.ctx := fun e => by
    simp only [add]
    split
    · exact Hw.ctx_setPart (by intro; rfl) hw p
    · rfl
  clear_value known fresh
  split
  · exact hadd _
  · rfl
  · extract_lets same hw' i
    have hnew : hw'.ctx = hw.ctx := by
      refine Hw.ctx_free ?_ _
      split
      · split
        · rfl
        · exact hadd _
      · rfl
    split
    · rfl
    · exact hnew

/-- Translating a counter's address changes no context. -/
theorem counterAt_ctx (hw : Hw) (m : Tab Memory) (p c va : Nat) : (counterAt hw m p c va).2.ctx = hw.ctx := by
  have h := translate_ctx hw m p c va
  simp only [counterAt]
  split
  · rfl
  split
  · rfl
  split <;> rename_i ht <;> rw [ht] at h
  · split <;> exact h
  · exact h

theorem foldl_ctx {α β : Type} {f : β × Hw → α → β × Hw} (hf : ∀ x k, (f x k).2.ctx = x.2.ctx) (l : List α) (x : β × Hw) :
    (l.foldl f x).2.ctx = x.2.ctx := by
  induction l generalizing x with
  | nil => rfl
  | cons k l ih => rw [List.foldl_cons, ih, hf]

/-- Checking a header and accepting its launch changes no context. -/
theorem takeHeader_ctx (hw : Hw) (m : Tab Memory) (p c : Nat) (src : LaunchSrc) (addr : Word) (pa : Nat) (h : List Nat) :
    (takeHeader hw m p c src addr pa h).2.ctx = hw.ctx := by
  unfold takeHeader
  split
  · rfl
  extract_lets d ds
  have kept : ds.2.ctx = hw.ctx := by
    refine (foldl_ctx (fun x k => ?_) (List.range 4) (some [], d.2)).trans (counterAt_ctx ..)
    have hk := counterAt_ctx x.2 m p c (hdrDep h k).1
    split
    · rfl
    split <;> rename_i e <;> rw [e] at hk <;> exact hk
  clear_value ds
  split
  · split <;> exact kept
  · exact kept

section
variable {id : Nat} {s : State} {o : Op} {c : Context} {hdr : List Nat} {addr : Word} (ho : s.hw.op id = some o)
  (hk : o.kind = .glaunch hdr addr) (hc : s.hw.ctx o.part o.ctx = some c) (hl : c.state ≠ .killing)
include ho hk hc hl

/-- A launch that found the device queue full is refused (R87). -/
theorem deviceQueueTake_full (he : hdr = []) : exec (.deviceQueueTake id) s = .next (landOp s o fun _ => word 0x84) := by
  simp only [exec, execDeviceQueueTake, ho, hk, hc, hl, he, List.isEmpty_nil, if_false, if_true]

variable (he : hdr ≠ [])
include he

/-- A launch whose header is refused answers its status (R87). -/
theorem deviceQueueTake_refused
    (hx : (takeHeader s.hw s.mem o.part o.ctx (.device c.nextNum) addr 0 hdr).1 ≠ 1) :
    exec (.deviceQueueTake id) s =
      let x := takeHeader s.hw s.mem o.part o.ctx (.device c.nextNum) addr 0 hdr
      .next (landOp (s.with x.2) o fun _ => word x.1) := by
  have ne : hdr.isEmpty = false := by simpa using he
  simp only [exec, execDeviceQueueTake, ho, hk, hc, hl, ne, hx, Bool.false_eq_true, if_false]

/-- A launch that is accepted answers its number, and the next one takes the next number (R87). -/
theorem deviceQueueTake_accepted
    (hx : (takeHeader s.hw s.mem o.part o.ctx (.device c.nextNum) addr 0 hdr).1 = 1) :
    exec (.deviceQueueTake id) s =
      let x := takeHeader s.hw s.mem o.part o.ctx (.device c.nextNum) addr 0 hdr
      let h := x.2.setCtx o.part o.ctx fun c => { c with nextNum := if c.nextNum = 0xFFFFFFFF then 1 else c.nextNum + 1 }
      .next (landOp (s.with h) o fun _ => word (c.nextNum * 2 ^ 32 + 1)) := by
  have ne : hdr.isEmpty = false := by simpa using he
  simp only [exec, execDeviceQueueTake, ho, hk, hc, hl, ne, hx, Bool.false_eq_true, if_false, if_true]

end

/-! ## The statement -/

/-- Settles O46: each form's checks and waits as they are met, the gwaits that a write wakes, and the launch taken from the device queue. -/
theorem launchForms : Obligations.LaunchForms := by
  unfold Obligations.LaunchForms
  refine ⟨fun f s e h => ?_, ?_, fun f s e h => ⟨fun full => ?_, fun t free hk => ?_, fun es hw free hk => ⟨fun hb hv => ?_, fun hb => ?_⟩⟩,
    fun q s e he => ⟨gwaitWake_holds he, fun d v => gwaitWake_resumes he⟩, ?_, ?_⟩
  · have hx := exec_glaunch h
    refine ⟨fun full => holds_of_hold h.here hx (glaunchBy_full full), fun free => ⟨fun bad => traps_of_trap hx (glaunchBy_bad free bad),
      fun good short => traps_of_trap hx (glaunchBy_short free good short),
      fun good long odd => traps_of_trap hx (glaunchBy_unaligned free good long odd), fun good long even => ?_⟩⟩
    rw [glaunchBy_aligned free good long even] at hx
    exact ⟨fun l unmapped => traps_of_trap hx (glaunchAt_unmapped unmapped _),
      fun ws pas hw hw' read watch hclear => retires_of_done h.here hx (glaunchAt_read read watch hclear)⟩
  · intro fm con add form f s e h
    have hi : exec (con f) s = counterForm fm f s add := by
      rcases form with ⟨rfl, rfl, rfl⟩ | ⟨rfl, rfl, rfl⟩ <;> rfl
    exact counterForm_rules hi h
  · exact holds_of_hold h.here (exec_gwait_full h full) rfl
  · exact traps_of_trap (exec_gwait_stop h free hk) rfl
  · obtain rfl := env_state h.here
    exact retires_of_done h.here (exec_gwait_ok h free hk) (gwaitTest_met hb hv hw)
  · obtain rfl := env_state h.here
    exact stays_of_stay (exec_gwait_ok h free hk) (gwaitTest_unmet hb hw)
  · rintro m p w hw gk g k q hg hq rfl
    obtain ⟨g', look, path, vregs⟩ := wakeCounter_path m (fun pa => decide (w.addr < pa + 8) && decide (pa < w.addr + w.bytes.length)) hg hq
    refine ⟨g', _, look, path, vregs, fun pa thr d hwait lo hi met idle => ?_, fun pa thr d hwait unmet => ?_, wokenPath_other⟩
    · exact wokenPath_met hwait (by simp [lo, hi]) met idle
    · exact wokenPath_unmet hwait unmet
  · intro id s o c hdr addr ho hk hc hl
    refine ⟨deviceQueueTake_full ho hk hc hl, deviceQueueTake_refused ho hk hc hl, fun ne ok => ?_⟩
    refine ⟨_, deviceQueueTake_accepted ho hk hc hl ne ok, rfl, rfl, fun c' hc' => ?_⟩
    rw [Hw.ctx_setCtx_same, takeHeader_ctx, hc] at hc'
    cases hc'
    rfl

end Sys2Proof.Machine
end

section
/-! SUPPORT. Lane sets: which lanes the sets that a form computes hold (00_scope R4). -/

namespace Sys2Proof.Machine

open Sys2Proof

theorem inLanes_lt {m : Lanes} {l : Nat} (h : inLanes m l = true) : l < 32 := BitVec.lt_of_getLsbD h

theorem mem_lanes_iff {m : Lanes} {l : Nat} : l ∈ lanes m ↔ inLanes m l = true :=
  mem_lanes.trans ⟨And.right, fun h => ⟨inLanes_lt h, h⟩⟩

theorem lanes_nodup (m : Lanes) : (lanes m).Nodup := List.nodup_range.filter _

/-- Lane sets with the same lanes are the same. -/
theorem lanes_ext {m n : Lanes} (h : ∀ l, inLanes m l = inLanes n l) : m = n := BitVec.eq_of_getLsbD_eq fun l _ => h l

theorem exists_lane {m : Lanes} (h : m ≠ 0) : ∃ l, inLanes m l = true := by
  by_contra none
  refine h (lanes_ext fun l => ?_)
  simpa [inLanes] using fun hl => none ⟨l, hl⟩

theorem inLanes_zero (l : Nat) : inLanes 0 l = false := BitVec.getLsbD_zero

theorem ne_zero_of_lane {m : Lanes} {l : Nat} (h : inLanes m l = true) : m ≠ 0 := fun h0 => by
  rw [h0, inLanes_zero] at h
  cases h

@[simp] theorem inLanes_and (m n : Lanes) (l : Nat) : inLanes (m &&& n) l = (inLanes m l && inLanes n l) := BitVec.getLsbD_and

@[simp] theorem inLanes_or (m n : Lanes) (l : Nat) : inLanes (m ||| n) l = (inLanes m l || inLanes n l) := BitVec.getLsbD_or

theorem inLanes_diff (m n : Lanes) (l : Nat) : inLanes (m &&& ~~~n) l = (inLanes m l && !inLanes n l) := by
  rw [inLanes_and]
  cases hm : inLanes m l with
  | false => rfl
  | true => simp only [Bool.true_and, inLanes, BitVec.getLsbD_not, inLanes_lt hm, decide_true]

/-- The bits of the sum of the powers of two that satisfy f are those that satisfy f. -/
theorem testBit_sumWhere (f : Nat → Bool) (n l : Nat) :
    ((List.range n).foldl (fun n l => if f l then n + 2 ^ l else n) 0).testBit l = (decide (l < n) && f l) := by
  have small : ∀ n, (List.range n).foldl (fun n l => if f l then n + 2 ^ l else n) 0 < 2 ^ n := by
    intro n
    induction n with
    | zero => simp
    | succ n ih =>
      rw [List.range_succ, List.foldl_append, List.foldl_cons, List.foldl_nil, Nat.pow_succ]
      split <;> omega
  induction n with
  | zero => simp
  | succ n ih =>
    rw [List.range_succ, List.foldl_append, List.foldl_cons, List.foldl_nil]
    rcases Nat.lt_trichotomy l n with hl | rfl | hl
    · have : l < n + 1 := by omega
      split
      · rw [Nat.add_comm, Nat.testBit_two_pow_add_gt hl, ih]
        simp [hl, this]
      · rw [ih]
        simp [hl, this]
    · have top := Nat.testBit_lt_two_pow (small l)
      split <;> rename_i hf
      · rw [Nat.add_comm, Nat.testBit_two_pow_add_eq, top]
        simp [hf]
      · simp [top, hf]
    · have : ¬ l < n + 1 := by omega
      have lt := small (n + 1)
      rw [List.range_succ, List.foldl_append, List.foldl_cons, List.foldl_nil] at lt
      rw [Nat.testBit_lt_two_pow (Nat.lt_of_lt_of_le lt (Nat.pow_le_pow_right (by omega) hl))]
      simp [this]

theorem inLanes_where (f : Nat → Bool) (l : Nat) : inLanes (lanesWhere f) l = (decide (l < 32) && f l) := by
  rw [inLanes, lanesWhere, BitVec.getLsbD_ofNat, allLanes, testBit_sumWhere, ← Bool.and_assoc, Bool.and_self]

/-- The lanes of a set that satisfy f. -/
theorem inLanes_where_and (m : Lanes) (f : Nat → Bool) (l : Nat) :
    inLanes (lanesWhere fun l => inLanes m l && f l) l = (inLanes m l && f l) := by
  rw [inLanes_where]
  cases hm : inLanes m l with
  | false => simp
  | true => simp [inLanes_lt hm]

/-- The active lanes are those of the group that are not turned off (R94, R100). -/
theorem inLanes_act (e : Env) (l : Nat) : inLanes e.act l = (inLanes e.grp l && nestOf e.g l == 0) := inLanes_where_and ..

theorem mem_acts {e : Env} {l : Nat} : l ∈ e.acts ↔ inLanes e.act l = true := mem_lanes_iff

end Sys2Proof.Machine
end

section
/-! SUPPORT. Structured forms: the nesting counters that if, else, endif and the loop forms write, and where their path goes (05_paths
R101, R102). -/

namespace Sys2Proof.Machine

open Sys2Proof

/-! ## Nesting counters -/

theorem setNest_append (g : Gang) (a b : List (Nat × Nat)) : setNest g (a ++ b) = setNest (setNest g a) b := by
  simp only [setNest, List.foldl_append]

theorem nestOf_setNest_cons (g : Gang) (x : Nat × Nat) (l : Nat) : nestOf (setNest g [x]) l = if l = x.1 then x.2 else nestOf g l :=
  Tab.val_put ..

/-- Counters that f gives lanes of a list, each lane its own, are what those lanes then read. -/
theorem nestOf_setNest {f : Nat → Option (Nat × Nat)} (own : ∀ l x, f l = some x → x.1 = l) (g : Gang) (ls : List Nat) (l : Nat) :
    nestOf (setNest g (ls.filterMap f)) l = if l ∈ ls then ((f l).map (·.2)).getD (nestOf g l) else nestOf g l := by
  induction ls generalizing g with
  | nil => rfl
  | cons k ls ih =>
    cases hk : f k with
    | none =>
      rw [List.filterMap_cons_none hk, ih]
      by_cases hl : l = k
      · subst hl; simp [hk]
      · simp [hl]
    | some x =>
      obtain ⟨i, v⟩ := x
      obtain rfl := own k _ hk
      rw [List.filterMap_cons_some hk, ← List.singleton_append, setNest_append, ih, nestOf_setNest_cons]
      by_cases hl : l = i
      · subst hl; simp [hk]
      · simp [hl]

/-- Counters that f gives the lanes of a set, each lane its own. -/
theorem nestOf_setNest_lanes {f : Nat → Option (Nat × Nat)} (own : ∀ l x, f l = some x → x.1 = l) (g : Gang) (m : Lanes) (l : Nat) :
    nestOf (setNest g ((lanes m).filterMap f)) l = if inLanes m l then ((f l).map (·.2)).getD (nestOf g l) else nestOf g l := by
  simp only [nestOf_setNest own, mem_lanes_iff]

theorem mem_liveAfter {m : Lanes} {cs : List (Nat × Nat)} {g : Gang} {l : Nat} :
    l ∈ liveAfter m cs g ↔ inLanes m l = true ∧ nestOf (setNest g cs) l = 0 := by
  simp [liveAfter, List.mem_filter, mem_lanes_iff]

theorem liveAfter_isEmpty_false {m : Lanes} {cs : List (Nat × Nat)} {g : Gang}
    (h : ∃ l, l < 32 ∧ inLanes m l = true ∧ nestOf (setNest g cs) l = 0) : (liveAfter m cs g).isEmpty = false := by
  obtain ⟨l, -, hl⟩ := h
  exact List.isEmpty_eq_false_iff_exists_mem.2 ⟨l, mem_liveAfter.2 hl⟩

theorem liveAfter_isEmpty_true {m : Lanes} {cs : List (Nat × Nat)} {g : Gang}
    (h : ∀ l, l < 32 → inLanes m l = true → nestOf (setNest g cs) l ≠ 0) : (liveAfter m cs g).isEmpty = true := by
  rw [List.isEmpty_iff, List.eq_nil_iff_forall_not_mem]
  intro l hl
  obtain ⟨hm, hz⟩ := mem_liveAfter.1 hl
  exact h l (inLanes_lt hm) hm hz

/-! ## Where a structured form goes -/

theorem setGang_congr {hw : Hw} {gk : Nat} {g : Gang} (hg : hw.gangs.look gk = some g) {f f' : Gang → Gang} (h : f g = f' g) :
    hw.setGang gk f = hw.setGang gk f' := by
  simp only [Hw.setGang, Tab.upd, hg, h]

/-- The counters that a structured form leaves. -/
def nestAfter (e : Env) (cs : List (Nat × Nat)) : Tab Nat := (setNest e.g cs).nest

theorem setNest_nested {e : Env} (hg : e.hw.gangs.look e.gk = some e.g) (cs : List (Nat × Nat)) :
    e.hw.setGang e.gk (setNest · cs) = e.nested (nestAfter e cs) := setGang_congr hg rfl

section
variable {i : Instr} {s : State} {e : Env} {r : Regs} {x : Res} (he : env s = some e) (hx : exec i s = .next (s.with (e.finish r x)))
include he hx

/-- An instruction whose body moves its path, whatever else it changed, transfers it. -/
theorem transfers_of_goto {w : Writes} {pc : Word} {dep : Nat → Nat} {hw : Hw} (hg : (hw.gangs.look e.gk).isSome)
    (hm : x = .moved w (e.goto pc dep hw)) (room : Room e r w (e.goto pc dep hw)) : Transfers i s e r w pc dep hw := by
  subst hm
  refine ⟨_, hx, ?_⟩
  rw [← env_state he]
  exact moved_done room hg

theorem flows_of_moved {cs : List (Nat × Nat)} {w : Writes} {cnt : Nat → Nat} {pc : Word}
    (hm : x = .moved w (e.goto pc id (e.nested (nestAfter e cs)))) (hn : ∀ l, nestOf (setNest e.g cs) l = cnt l) :
    Flows i s e r w cnt pc := by
  have hg : ((e.nested (nestAfter e cs)).gangs.look e.gk).isSome := by
    rw [Env.nested, setGang_look, if_pos rfl, (env_spec he).2.1]
    rfl
  exact ⟨_, hn, transfers_of_goto he hx hg hm⟩

/-- A structured form that does not go to its target goes on at the clause end. -/
theorem flows_on {cs : List (Nat × Nat)} {w : Writes} {cnt : Nat → Nat} {takes : Bool} {t : Word} (hm : x = e.structured r cs w takes t)
    (hn : ∀ l, nestOf (setNest e.g cs) l = cnt l) (ht : takes = false) : Flows i s e r w cnt (e.clauseEnd r.len) := by
  subst ht
  refine flows_of_moved he hx ?_ hn
  rw [hm, Env.structured, setNest_nested (env_spec he).2.1]
  rfl

/-- A structured form that goes to its target, a good one. -/
theorem flows_to {cs : List (Nat × Nat)} {w : Writes} {cnt : Nat → Nat} {takes : Bool} {t : Word} (hm : x = e.structured r cs w takes t)
    (hn : ∀ l, nestOf (setNest e.g cs) l = cnt l) (ht : takes = true) (good : badTarget t e.act = none) : Flows i s e r w cnt t := by
  subst ht
  refine flows_of_moved he hx ?_ hn
  rw [hm, Env.structured, setNest_nested (env_spec he).2.1]
  exact jump_good good ..

/-- A structured form that goes to its target where it leaves no lane of its group running (R101). -/
theorem flows_unless_live {cs : List (Nat × Nat)} {cnt : Nat → Nat} {t : Word}
    (hm : x = e.structured r cs {} (liveAfter e.grp cs e.g).isEmpty t) (hn : ∀ l, nestOf (setNest e.g cs) l = cnt l) :
    ((∃ l, l < 32 ∧ inLanes e.grp l = true ∧ cnt l = 0) → Flows i s e r {} cnt (e.clauseEnd r.len)) ∧
      ((∀ l, l < 32 → inLanes e.grp l = true → cnt l ≠ 0) → badTarget t e.act = none → Flows i s e r {} cnt t) := by
  obtain rfl : nestOf (setNest e.g cs) = cnt := funext hn
  exact ⟨fun live => flows_on he hx hm hn (liveAfter_isEmpty_false live), fun dead => flows_to he hx hm hn (liveAfter_isEmpty_true dead)⟩

end

/-! ## if, else, endif -/

/-- The counters that if writes (R101). -/
def ifCounters (e : Env) (r : Regs) (opt : Nat) : List (Nat × Nat) := (lanes e.grp).filterMap fun l =>
  if nestOf e.g l > 0 then some (l, nestOf e.g l + 1) else if cond e r opt l then none else some (l, 1)

theorem nestOf_ifCounters (e : Env) (r : Regs) (opt l : Nat) : nestOf (setNest e.g (ifCounters e r opt)) l =
    if inLanes e.grp l then (if 0 < nestOf e.g l then nestOf e.g l + 1 else if cond e r opt l then 0 else 1) else nestOf e.g l := by
  rw [ifCounters, nestOf_setNest_lanes (by grind)]
  grind

/-- The counters that else writes (R101). -/
def elseCounters (e : Env) : List (Nat × Nat) := (lanes e.grp).filterMap fun l =>
  if nestOf e.g l = 0 then some (l, 1) else if nestOf e.g l = 1 then some (l, 0) else none

theorem nestOf_elseCounters (e : Env) (l : Nat) : nestOf (setNest e.g (elseCounters e)) l =
    if inLanes e.grp l then (if nestOf e.g l = 0 then 1 else if nestOf e.g l = 1 then 0 else nestOf e.g l) else nestOf e.g l := by
  rw [elseCounters, nestOf_setNest_lanes (by grind)]
  grind

/-- The counters that endif writes (R101). -/
def endifCounters (e : Env) : List (Nat × Nat) := (lanes e.grp).filterMap fun l =>
  if nestOf e.g l > 0 then some (l, nestOf e.g l - 1) else none

theorem nestOf_endifCounters (e : Env) (l : Nat) : nestOf (setNest e.g (endifCounters e)) l =
    if inLanes e.grp l then nestOf e.g l - 1 else nestOf e.g l := by
  rw [endifCounters, nestOf_setNest_lanes (by grind)]
  grind

/-- What if does when it issues (R101). -/
theorem exec_if {f : Fields} {s : State} {e : Env} (h : IssuesC Forms.ifOp f s e) :
    exec (.ifOp f) s = .next (s.with (e.finish (regsF Forms.ifOp f)
      (if (lanes e.grp).any fun l => nestOf e.g l == 63 then nestTrap (lanesWhere fun l => inLanes e.grp l && nestOf e.g l == 63)
      else e.structured (regsF Forms.ifOp f) (ifCounters e (regsF Forms.ifOp f) f.op) {}
        (liveAfter e.grp (ifCounters e (regsF Forms.ifOp f) f.op) e.g).isEmpty (e.target f.lit)))) := by
  simp only [exec, execIf, issueC_ok h]
  rfl

/-- What else does when it issues (R101). -/
theorem exec_else {f : Fields} {s : State} {e : Env} (h : IssuesC Forms.elseOp f s e) :
    exec (.elseOp f) s = .next (s.with (e.finish (regsF Forms.elseOp f) (e.structured (regsF Forms.elseOp f) (elseCounters e) {}
      (liveAfter e.grp (elseCounters e) e.g).isEmpty (e.target f.lit)))) := by
  simp only [exec, execElse, issueC_ok h]
  rfl

/-- endif reads no register. -/
theorem ready_endif (e : Env) (f : SFields) : e.ready (regsS Forms.endif f) = true := by
  simp [Env.ready, regsS, Forms.endif, Env.avail]

/-- What endif does when it issues (R101). -/
theorem exec_endif {f : SFields} {s : State} {e : Env} (he : env s = some e) (hp : e.badPlace 4 false 0 = false) :
    exec (.endif f) s = .next (s.with (e.finish (regsS Forms.endif f) (.done {} (e.nested (nestAfter e (endifCounters e)))))) := by
  rw [← setNest_nested (env_spec he).2.1]
  exact issue_ok he hp (by simp) (ready_endif e f)

/-- Settles O11: the counters that each form writes, read lane by lane, say whether a lane is left. -/
theorem ifElse : Obligations.IfElse := by
  unfold Obligations.IfElse
  refine ⟨fun f s e h no63 => ?_, fun f s e h => flows_unless_live h.here (exec_else h) rfl (nestOf_elseCounters e),
    fun f s e h some63 => ?_, fun f s e he hp => ?_⟩
  · have deep : ((lanes e.grp).any fun l => nestOf e.g l == 63) = false := List.any_eq_false.2 fun l hl => by
      simpa using no63 l (mem_lanes.1 hl).1 (mem_lanes.1 hl).2
    exact flows_unless_live h.here (exec_if h) (by rw [deep]; rfl) (nestOf_ifCounters e _ _)
  · obtain ⟨l, hl, hm, hn⟩ := some63
    have deep : ((lanes e.grp).any fun l => nestOf e.g l == 63) = true :=
      List.any_eq_true.2 ⟨l, mem_lanes.2 ⟨hl, hm⟩, by simpa using hn⟩
    exact ⟨_, traps_of_trap (exec_if h) (by rw [if_pos deep]; rfl), inLanes_where_and _ _⟩
  · exact ⟨_, nestOf_endifCounters e, retires_of_done he (exec_endif he hp) rfl⟩

end Sys2Proof.Machine
end

section
/-! SUPPORT. Loops: the nesting counters that loop, break, cont, endloop and loopn write, and whether their path goes round again (05_paths
R102). -/

namespace Sys2Proof.Machine

open Sys2Proof

/-! ## loop, break, cont -/

/-- The counters that loop writes (R102). -/
def loopCounters (e : Env) : List (Nat × Nat) := (lanes e.grp).filterMap fun l =>
  if nestOf e.g l > 0 then some (l, nestOf e.g l + 2) else none

theorem nestOf_loopCounters (e : Env) (l : Nat) : nestOf (setNest e.g (loopCounters e)) l =
    if inLanes e.grp l && decide (0 < nestOf e.g l) then nestOf e.g l + 2 else nestOf e.g l := by
  rw [loopCounters, nestOf_setNest_lanes (by grind)]
  grind

/-- The counters that break and cont write: v in each active lane that meets the condition (R102). -/
def leaveCounters (e : Env) (r : Regs) (opt v : Nat) : List (Nat × Nat) := e.acts.filterMap fun l =>
  if cond e r opt l then some (l, v) else none

theorem nestOf_leaveCounters (e : Env) (r : Regs) (opt v l : Nat) : nestOf (setNest e.g (leaveCounters e r opt v)) l =
    if inLanes e.act l && cond e r opt l then v else nestOf e.g l := by
  rw [leaveCounters, Env.acts, nestOf_setNest_lanes (by grind)]
  grind

/-- With no lane active loop goes to its target (R102). -/
theorem exec_loop_idle {f : Fields} {s : State} {e : Env} (h : IssuesC Forms.loop f s e) (ha : e.act = 0) :
    exec (.loop f) s = .next (s.with (e.finish (regsF Forms.loop f) (e.jump {} (e.target f.lit) id e.hw))) := by
  simp only [exec, execLoop, issueC_ok h, ha, if_true]

/-- What loop does where a lane is active (R102). -/
theorem exec_loop_active {f : Fields} {s : State} {e : Env} (h : IssuesC Forms.loop f s e) (ha : e.act ≠ 0) :
    exec (.loop f) s = .next (s.with (e.finish (regsF Forms.loop f)
      (if (lanes e.grp).any fun l => decide (nestOf e.g l > 61) then
        nestTrap (lanesWhere fun l => inLanes e.grp l && decide (nestOf e.g l > 61))
      else e.structured (regsF Forms.loop f) (loopCounters e) {} false 0))) := by
  simp only [exec, execLoop, issueC_ok h, ha, if_false]
  rfl

section
variable {fm : Form} {f : Fields} {s : State} {e : Env} (h : IssuesC fm f s e)
include h

/-- What break and cont do when they issue (R102). -/
theorem leaveLoop_issued (v : Nat) : leaveLoop fm f s v = .next (s.with (e.finish (regsF fm f)
    (if 63 < v then nestTrap e.act else e.structured (regsF fm f) (leaveCounters e (regsF fm f) f.op v) {} false 0))) := by
  simp only [leaveLoop, issueC_ok h]
  rfl

variable {i : Instr} {v : Nat} (hi : exec i s = leaveLoop fm f s v)
include hi

theorem leaveLoop_flows (hv : v ≤ 63) : Flows i s e (regsF fm f) {}
    (fun l => if inLanes e.act l && cond e (regsF fm f) f.op l then v else nestOf e.g l) (e.clauseEnd (regsF fm f).len) :=
  flows_on h.here (hi.trans (leaveLoop_issued h v)) (if_neg (Nat.not_lt.2 hv)) (nestOf_leaveCounters e _ _ v) rfl

theorem leaveLoop_traps (hv : 63 < v) : Traps i s e { cause := 0x0B, hit := e.act } :=
  traps_of_trap (hi.trans (leaveLoop_issued h v)) (if_pos hv)

end

/-- k of break and cont is the low 6 bits of their literal (R100). -/
theorem levels_eq (n : Nat) : bits 5 0 n = n % 64 := by simp [bits]

theorem exec_break (f : Fields) (s : State) : exec (.breakOp f) s = leaveLoop Forms.breakOp f s (f.lit % 64 + 2) := by
  rw [← levels_eq]
  rfl

theorem exec_cont (f : Fields) (s : State) : exec (.cont f) s = leaveLoop Forms.cont f s (f.lit % 64 + 1) := by
  rw [← levels_eq]
  rfl

/-! ## endloop from its second line -/

/-- The counters that a loop's end writes where no lane goes round again (R102). -/
def outCounters (m : Lanes) (g : Gang) : List (Nat × Nat) := (lanes m).filterMap fun l =>
  if nestOf g l = 2 then some (l, 0) else if nestOf g l ≥ 3 then some (l, nestOf g l - 2) else none

theorem nestOf_outCounters (m : Lanes) (g : Gang) (l : Nat) : nestOf (setNest g (outCounters m g)) l =
    if inLanes m l && decide (2 ≤ nestOf g l) then nestOf g l - 2 else nestOf g l := by
  rw [outCounters, nestOf_setNest_lanes (by grind)]
  grind

section
variable {e : Env} {r : Regs} {f : Fields} {cs : List (Nat × Nat)} {w : Writes}

theorem loopEnd_again (live : (liveAfter e.grp cs e.g).isEmpty = false) :
    e.loopEnd r f cs w = e.structured r cs w true (e.target f.lit) := by
  simp only [Env.loopEnd, live, Bool.not_false, if_true]

theorem loopEnd_out (dead : (liveAfter e.grp cs e.g).isEmpty = true) :
    e.loopEnd r f cs w = e.structured r (cs ++ outCounters e.grp (setNest e.g cs)) w false 0 := by
  simp only [Env.loopEnd, dead, Bool.not_true, Bool.false_eq_true, if_false]
  rfl

variable {i : Instr} {s : State} {x : Res} (he : env s = some e) (hx : exec i s = .next (s.with (e.finish r x)))
  (hm : x = e.loopEnd r f cs w) {cnt : Nat → Nat} (hn : ∀ l, nestOf (setNest e.g cs) l = cnt l)
include he hx hm hn

/-- With a lane of the group running, a loop's end goes to its target, a good one. -/
theorem flows_again (live : ∃ l, l < 32 ∧ inLanes e.grp l = true ∧ cnt l = 0) (good : badTarget (e.target f.lit) e.act = none) :
    Flows i s e r w cnt (e.target f.lit) := by
  obtain rfl : nestOf (setNest e.g cs) = cnt := funext hn
  exact flows_to he hx (hm.trans (loopEnd_again (liveAfter_isEmpty_false live))) hn rfl good

/-- With every lane of the group turned off twice over, a loop's end lowers the counters and goes on. -/
theorem flows_out (dead : ∀ l, l < 32 → inLanes e.grp l = true → 2 ≤ cnt l) :
    Flows i s e r w (fun l => if inLanes e.grp l then cnt l - 2 else cnt l) (e.clauseEnd r.len) := by
  obtain rfl : nestOf (setNest e.g cs) = cnt := funext hn
  have off : (liveAfter e.grp cs e.g).isEmpty = true := liveAfter_isEmpty_true fun l hl hm => by have := dead l hl hm; omega
  refine flows_on he hx (hm.trans (loopEnd_out off)) (fun l => ?_) rfl
  rw [setNest_append, nestOf_outCounters]
  cases hm : inLanes e.grp l with
  | false => rfl
  | true => simp [dead l (inLanes_lt hm) hm]

end

theorem nestOf_continued (e : Env) (l : Nat) : nestOf (setNest e.g (continued e)) l =
    if inLanes e.grp l && nestOf e.g l == 1 then 0 else nestOf e.g l := by
  rw [continued, nestOf_setNest_lanes (by grind)]
  grind

/-- What endloop does when it issues (R102). -/
theorem exec_endloop {f : Fields} {s : State} {e : Env} (h : IssuesC Forms.endloop f s e) :
    exec (.endloop f) s = .next (s.with (e.finish (regsF Forms.endloop f) (e.loopEnd (regsF Forms.endloop f) f (continued e) {}))) :=
  issueC_ok h fun e r => e.loopEnd r f (continued e) {}

/-! ## loopn -/

/-- Whether a lane counts at loopn: it runs, or has been continued (R102). -/
def countsAt (e : Env) (l : Nat) : Bool := inLanes e.grp l && decide (nestOf e.g l ≤ 1)
/-- Whether the count of a lane lets it leave at loopn (R102). -/
def leavesAt (e : Env) (r : Regs) (l : Nat) : Bool :=
  if r.sh.a = .v then decide ((e.g.v r.a l).toNat ≤ 1) else decide ((e.q.sr r.a).toNat ≤ 1)
/-- What loopn writes of its count (R102). -/
def countWrites (e : Env) (r : Regs) : Writes :=
  if r.sh.a = .v then
    { v := ((lanes e.grp).filter (countsAt e)).map fun l => (32 * r.a + l, if leavesAt e r l then 0 else e.g.v r.a l - 1) }
  else if (lanes e.grp).any (countsAt e) then { s := [(r.a, if leavesAt e r 0 then 0 else e.q.sr r.a - 1)] } else {}
/-- The counters of the lanes that leave at loopn (R102). -/
def leftCounters (e : Env) (leaves : Nat → Bool) : List (Nat × Nat) :=
  ((lanes e.grp).filter (countsAt e)).filterMap fun l => if leaves l then some (l, 2) else none

theorem liveAfter_continued (e : Env) : liveAfter e.grp (continued e) e.g = (lanes e.grp).filter (countsAt e) := by
  refine List.filter_congr fun l hl => ?_
  have hm := mem_lanes_iff.1 hl
  rw [nestOf_continued, countsAt, hm, Bool.true_and, Bool.true_and]
  grind

theorem nestOf_leftCounters (e : Env) (leaves : Nat → Bool) (l : Nat) :
    nestOf (setNest e.g (continued e ++ leftCounters e leaves)) l =
      if countsAt e l then (if leaves l then 2 else 0) else nestOf e.g l := by
  rw [setNest_append, leftCounters, nestOf_setNest (by grind), nestOf_continued]
  simp only [List.mem_filter, mem_lanes_iff, countsAt]
  grind

/-- What loopn does when it issues and the counts it reads are there (R102). -/
theorem exec_loopn {f : Fields} {s : State} {e : Env} (h : IssuesC Forms.loopn f s e)
    (there : (regsF Forms.loopn f).sh.a = .v → ∀ l, l < 32 → countsAt e l = true →
      vPending e.hw.ops e.gk (regsF Forms.loopn f).a l = false) :
    exec (.loopn f) s = .next (s.with (e.finish (regsF Forms.loopn f) (e.loopEnd (regsF Forms.loopn f) f
      (continued e ++ leftCounters e (leavesAt e (regsF Forms.loopn f))) (countWrites e (regsF Forms.loopn f))))) := by
  simp only [exec, execLoopn, issueC_ok h, liveAfter_continued]
  generalize regsF Forms.loopn f = r at there ⊢
  by_cases hv : r.sh.a = .v
  · have free : (((lanes e.grp).filter (countsAt e)).all fun l => !vPending e.hw.ops e.gk r.a l) = true := by
      simp only [List.all_eq_true, List.mem_filter, Bool.not_eq_true']
      exact fun l hl => there hv l (mem_lanes.1 hl.1).1 hl.2
    simp only [hv, free, if_true, leftCounters, leavesAt, countWrites, decide_eq_true_eq]
  · simp only [hv, if_false, leftCounters, leavesAt, countWrites]
    by_cases none : (lanes e.grp).filter (countsAt e) = []
    · have idle : (lanes e.grp).any (countsAt e) = false := by simpa [List.filter_eq_nil_iff] using none
      simp [none, idle]
    · have some : (lanes e.grp).any (countsAt e) = true := by simpa [List.filter_eq_nil_iff] using none
      by_cases last : (e.q.sr r.a).toNat ≤ 1
      · simp [none, some, last, Env.sa]
      · simp [none, some, last, Env.sa]

section
variable {f : Fields} {s : State} {e : Env} (h : IssuesC Forms.loopn f s e)
  (there : (regsF Forms.loopn f).sh.a = .v → ∀ l, l < 32 → countsAt e l = true →
    vPending e.hw.ops e.gk (regsF Forms.loopn f).a l = false)
include h there

/-- loopn goes round again where a lane that counts does not leave (R102). -/
theorem loopn_again (stays : ∃ l, l < 32 ∧ countsAt e l = true ∧ leavesAt e (regsF Forms.loopn f) l = false)
    (good : badTarget (e.target f.lit) e.act = none) : Flows (.loopn f) s e (regsF Forms.loopn f) (countWrites e (regsF Forms.loopn f))
      (fun l => if countsAt e l then (if leavesAt e (regsF Forms.loopn f) l then 2 else 0) else nestOf e.g l) (e.target f.lit) := by
  obtain ⟨l, hl, counts, stay⟩ := stays
  have hm : inLanes e.grp l = true := (Bool.and_eq_true_iff.1 counts).1
  refine flows_again h.here (exec_loopn h there) rfl (nestOf_leftCounters e _) ⟨l, hl, hm, ?_⟩ good
  simp only [counts, stay, if_true, Bool.false_eq_true, if_false]

/-- loopn goes on behind the loop where every lane that counts leaves (R102). -/
theorem loopn_out (leave : ∀ l, l < 32 → countsAt e l = true → leavesAt e (regsF Forms.loopn f) l = true) :
    Flows (.loopn f) s e (regsF Forms.loopn f) (countWrites e (regsF Forms.loopn f)) (fun l => if inLanes e.grp l then
      (if countsAt e l then (if leavesAt e (regsF Forms.loopn f) l then 2 else 0) else nestOf e.g l) - 2 else nestOf e.g l)
      (e.clauseEnd (regsF Forms.loopn f).len) := by
  have left (l : Nat) : nestOf (setNest e.g (continued e ++ leftCounters e (leavesAt e (regsF Forms.loopn f)))) l =
      if countsAt e l then 2 else nestOf e.g l := by
    rw [nestOf_leftCounters]
    split
    · rw [leave l (inLanes_lt (Bool.and_eq_true_iff.1 ‹_›).1) ‹_›, if_pos rfl]
    · rfl
  have out := flows_out h.here (exec_loopn h there) rfl left fun l _ hm => by
    simp only [countsAt, hm, Bool.true_and, decide_eq_true_eq]
    split <;> omega
  convert out using 2 with l
  cases hm : inLanes e.grp l with
  | false => simp [countsAt, hm]
  | true =>
    by_cases counts : countsAt e l = true
    · simp [counts, leave l (inLanes_lt hm) counts]
    · simp [counts]

end

/-- Settles O12: the counters that each form writes, read lane by lane, say which lanes are left; loopn is endloop with the counts before
it. -/
theorem loops : Obligations.Loops := by
  unfold Obligations.Loops
  refine ⟨fun f s e h ha low => ?_, fun f s e h hv => leaveLoop_flows h (exec_break f s) hv,
    fun f s e h hv => leaveLoop_flows h (exec_cont f s) hv, fun f s e h => ⟨fun live good => ?_, fun dead => ?_⟩, fun f s e h => ?_,
    fun f s e h => ⟨fun ha good room => ?_, fun ha deep => ?_⟩, fun f s e h hv => leaveLoop_traps h (exec_break f s) hv,
    fun f s e h hv => leaveLoop_traps h (exec_cont f s) hv⟩
  · have shallow : ((lanes e.grp).any fun l => decide (nestOf e.g l > 61)) = false := List.any_eq_false.2 fun l hl => by
      simpa using low l (mem_lanes.1 hl).1 (mem_lanes.1 hl).2
    exact flows_on (t := 0) h.here (exec_loop_active h ha) (by rw [shallow]; rfl) (nestOf_loopCounters e) rfl
  · obtain ⟨l, hl, hm, low⟩ := live
    refine flows_again h.here (exec_endloop h) rfl (nestOf_continued e) ⟨l, hl, hm, ?_⟩ good
    simp only [hm, Bool.true_and, beq_iff_eq]
    split <;> omega
  · have same : ∀ l, nestOf (setNest e.g (continued e)) l = nestOf e.g l := fun l => by
      rw [nestOf_continued, if_neg]
      intro one
      simp only [Bool.and_eq_true, beq_iff_eq] at one
      have := dead l (inLanes_lt one.1) one.1
      omega
    exact flows_out h.here (exec_endloop h) rfl same dead
  · exact fun there => ⟨loopn_again h there, loopn_out h there⟩
  · exact transfers_of_goto h.here (exec_loop_idle h ha) (env_gang h.here) (jump_good good ..) room
  · obtain ⟨l, hl, hm, hn⟩ := deep
    have some : ((lanes e.grp).any fun l => decide (nestOf e.g l > 61)) = true :=
      List.any_eq_true.2 ⟨l, mem_lanes.2 ⟨hl, hm⟩, by simpa using hn⟩
    exact ⟨_, traps_of_trap (exec_loop_active h ha) (by rw [if_pos some]; rfl), inLanes_where_and _ _⟩

end Sys2Proof.Machine
end

section
/-! SUPPORT. Divisions: groups that share the lanes of a path, and the path-table entries that they take (05_paths R104; 06_registers R131). -/

namespace Sys2Proof.Machine

open Sys2Proof

/-! ## Groups -/

theorem lowLane_mem {m : Lanes} (h : m ≠ 0) : inLanes m (lowLane m) = true := by
  obtain ⟨l, hl⟩ := exists_lane h
  cases hm : lanes m with
  | nil => rw [← mem_lanes_iff, hm] at hl; cases hl
  | cons k ls => exact mem_lanes_iff.1 (by rw [lowLane, hm]; exact List.mem_cons_self ..)

/-- Groups that share the lanes of a set among them, no lane in two. -/
structure Shares (m : Lanes) (gs : List Group') : Prop where
  within : ∀ x ∈ gs, ∀ l, inLanes x.m l = true → inLanes m l = true
  covers : ∀ l, inLanes m l = true → ∃ x ∈ gs, inLanes x.m l = true
  apart : gs.Pairwise fun x y => ∀ l, inLanes x.m l = true → inLanes y.m l = false

theorem shares_one (x : Group') : Shares x.m [x] :=
  ⟨fun y hy l hl => by rwa [List.mem_singleton.1 hy] at hl, fun l hl => ⟨x, List.mem_singleton_self x, hl⟩, List.pairwise_singleton ..⟩

/-- One more group holds the lanes that are left. -/
theorem Shares.snoc {m n : Lanes} {gs : List Group'} (S : Shares m gs) (sub : ∀ l, inLanes m l = true → inLanes n l = true) {y : Group'}
    (hy : y.m = n &&& ~~~m) : Shares n (gs ++ [y]) := by
  have hy (l : Nat) : inLanes y.m l = (inLanes n l && !inLanes m l) := by rw [hy, inLanes_diff]
  refine ⟨fun x hx l hl => ?_, fun l hl => ?_, List.pairwise_append.2 ⟨S.apart, List.pairwise_singleton .., fun x hx z hz l hl => ?_⟩⟩
  · rcases List.mem_append.1 hx with hx | hx
    · exact sub l (S.within x hx l hl)
    · rw [List.mem_singleton.1 hx, hy, Bool.and_eq_true] at hl
      exact hl.1
  · by_cases hm : inLanes m l = true
    · obtain ⟨x, hx, hxl⟩ := S.covers l hm
      exact ⟨x, List.mem_append_left _ hx, hxl⟩
    · exact ⟨y, by simp, by simp [hy, hl, hm]⟩
  · rw [List.mem_singleton.1 hz, hy, S.within x hx l hl]
    simp

/-- Two groups with no lane in common share the lanes of both. -/
theorem shares_two {m : Lanes} {x y : Group'} (apart : x.m &&& y.m = 0) (all : x.m ||| y.m = m) : Shares m [x, y] := by
  have either (l : Nat) : inLanes m l = (inLanes x.m l || inLanes y.m l) := by rw [← inLanes_or, all]
  refine (shares_one x).snoc (fun l hl => by rw [either, hl, Bool.true_or]) (lanes_ext fun l => ?_)
  have one : (inLanes x.m l && inLanes y.m l) = false := by rw [← inLanes_and, apart, inLanes_zero]
  rw [inLanes_diff, either]
  revert one
  cases inLanes x.m l <;> simp

/-- Groups that hold the lanes of a set by a key. -/
theorem shares_keys {m : Lanes} {ks : List Nat} (nodup : ks.Nodup) {G : Nat → Group'} {key : Nat → Nat}
    (hG : ∀ k l, inLanes (G k).m l = (inLanes m l && key l == k)) (hk : ∀ l, inLanes m l = true → key l ∈ ks) : Shares m (ks.map G) := by
  refine ⟨fun x hx l hl => ?_, fun l hl => ⟨G (key l), List.mem_map_of_mem (hk l hl), by simp [hG, hl]⟩,
    List.pairwise_map.2 (nodup.imp fun {a b} hab l hl => ?_)⟩
  · obtain ⟨k, -, rfl⟩ := List.mem_map.1 hx
    rw [hG, Bool.and_eq_true] at hl
    exact hl.1
  · rw [hG, Bool.and_eq_true, beq_iff_eq] at hl
    rw [hG, hl.2, beq_false_of_ne hab, Bool.and_false]

/-- The groups of a division that hold lanes. -/
def filled (gs : List Group') : List Group' := gs.filter fun x => x.m != 0
/-- The groups that hold the lowest lane of the issuing group: those that keep the entry (R104). -/
def lowGroups (e : Env) (gs : List Group') : List Group' := (filled gs).filter fun x => inLanes x.m (lowLane e.grp)
/-- The other groups, in the order of their lowest lanes (R104). -/
def otherGroups (e : Env) (gs : List Group') : List Group' :=
  (lanes e.grp).filterMap fun l => (filled gs).find? fun x => lowLane x.m == l && !inLanes x.m (lowLane e.grp)

theorem mem_filled {gs : List Group'} {x : Group'} : x ∈ filled gs ↔ x ∈ gs ∧ x.m ≠ 0 := by simp [filled, List.mem_filter]

/-- Each element found by its key, key after key, is the list in another order. -/
theorem filterMap_find_perm {α : Type} {k : α → Nat} {xs : List α} {ks : List Nat} (hx : (xs.map k).Nodup) (hk : ks.Nodup)
    (h : ∀ x ∈ xs, k x ∈ ks) : (ks.filterMap fun i => xs.find? fun x => k x == i).Perm xs := by
  have found {i : Nat} {x : α} : xs.find? (fun x => k x == i) = some x ↔ x ∈ xs ∧ k x = i := by
    refine ⟨fun hf => ⟨List.mem_of_find?_eq_some hf, by simpa using List.find?_some hf⟩, fun ⟨hmem, hki⟩ => ?_⟩
    cases hf : xs.find? (fun x => k x == i) with
    | none => exact absurd (by simpa using hki) (List.find?_eq_none.1 hf x hmem)
    | some y =>
      have hy : k y = i := by simpa using List.find?_some hf
      rw [List.inj_on_of_nodup_map hx (List.mem_of_find?_eq_some hf) hmem (hy.trans hki.symm)]
  refine (List.perm_ext_iff_of_nodup (hk.filterMap fun i j x hi hj => ?_) (List.Nodup.of_map _ hx)).2 fun x => ?_
  · exact (found.1 hi).2.symm.trans (found.1 hj).2
  · simp only [List.mem_filterMap, found]
    exact ⟨fun ⟨i, _, hx, _⟩ => hx, fun hx => ⟨k x, h x hx, hx, rfl⟩⟩

section
variable {e : Env} {gs : List Group'} (S : Shares e.grp gs)
include S

theorem otherGroups_perm : (otherGroups e gs).Perm ((filled gs).filter fun x => !inLanes x.m (lowLane e.grp)) := by
  have found (l : Nat) : ((filled gs).find? fun x => lowLane x.m == l && !inLanes x.m (lowLane e.grp)) =
      ((filled gs).filter fun x => !inLanes x.m (lowLane e.grp)).find? fun x => lowLane x.m == l := by
    rw [List.find?_filter]
    congr 1
    funext x
    rw [Bool.and_comm, Bool.decide_and, Bool.decide_eq_true, Bool.decide_eq_true]
  simp only [otherGroups, found]
  have lows : ((filled gs).map fun x => lowLane x.m).Nodup := by
    refine List.pairwise_map.2 ((S.apart.filter _).imp_of_mem fun {x y} hx hy apart same => ?_)
    have := apart _ (lowLane_mem (mem_filled.1 hx).2)
    rw [same, lowLane_mem (mem_filled.1 hy).2] at this
    cases this
  refine filterMap_find_perm (lows.sublist (List.filter_sublist.map _)) (lanes_nodup _) fun x hx => ?_
  obtain ⟨hgs, hm⟩ := mem_filled.1 (List.mem_filter.1 hx).1
  exact mem_lanes_iff.2 (S.within x hgs _ (lowLane_mem hm))

theorem mem_otherGroups {x : Group'} : x ∈ otherGroups e gs ↔ x ∈ gs ∧ x.m ≠ 0 ∧ inLanes x.m (lowLane e.grp) = false := by
  rw [(otherGroups_perm S).mem_iff]
  simp [mem_filled, and_assoc]

theorem lowGroups_length_le : (lowGroups e gs).length ≤ 1 := by
  have apart : (lowGroups e gs).Pairwise fun x y => ∀ l, inLanes x.m l = true → inLanes y.m l = false := (S.apart.filter _).filter _
  have low : ∀ x ∈ lowGroups e gs, inLanes x.m (lowLane e.grp) = true := fun x hx => (List.mem_filter.1 hx).2
  match h : lowGroups e gs with
  | [] => exact Nat.zero_le _
  | [_] => exact Nat.le_refl _
  | x :: y :: _ =>
    rw [h] at apart low
    have := (List.pairwise_cons.1 apart).1 y (by simp) _ (low x (by simp))
    rw [low y (by simp)] at this
    cases this

/-- All groups that hold lanes but one take new entries (R104). -/
theorem otherGroups_length : (otherGroups e gs).length = (filled gs).length - 1 := by
  have parts : (filled gs).length = (lowGroups e gs).length + (otherGroups e gs).length := by
    rw [(otherGroups_perm S).length_eq]
    exact List.length_eq_length_filter_add _
  have le := lowGroups_length_le S
  by_cases none : filled gs = []
  · rw [none, List.length_nil] at parts ⊢
    omega
  · obtain ⟨x, hx⟩ := List.exists_mem_of_ne_nil _ none
    obtain ⟨hgs, hm⟩ := mem_filled.1 hx
    have ne : e.grp ≠ 0 := ne_zero_of_lane (S.within x hgs _ (lowLane_mem hm))
    obtain ⟨y, hy, hyl⟩ := S.covers _ (lowLane_mem ne)
    have : y ∈ lowGroups e gs := List.mem_filter.2 ⟨mem_filled.2 ⟨hy, ne_zero_of_lane hyl⟩, hyl⟩
    have := List.length_pos_of_mem this
    omega

end

/-! ## Entries -/

/-- Path q' is a new entry for group x, a copy of path q (R104): its lanes, PC and DEPTH, and every scalar of q but the one x writes. -/
structure Placed (q : Path) (parent : Nat) (x : Group') (q' : Path) : Prop where
  mask : q'.mask = x.m
  pc : q'.pc = x.pc
  cl : q'.cl = {}
  state : q'.state = .ready
  depth : q'.depth = q.depth + x.up
  parent : q'.parent = parent
  copied : x.sw = none → q'.sregs = q.sregs
  written : ∀ kv, x.sw = some kv → ∃ n, q'.sregs = q.sregs.ins kv.1 ⟨kv.2, n⟩

theorem GangAs.images {gk : Nat} {a b c : Hw} {g g' : Gang} (h : GangAs gk a b g g') (k : SameButImages b c) : GangAs gk a c g g' := by
  obtain ⟨only, bare, old, new⟩ := h
  rw [k]
  exact ⟨⟨only.pkg, only.parts, only.cores, only.clusters, only.blocks, only.launches, only.sent, only.others⟩, bare, old, new⟩

/-- Sharing the slots of spilled scalars changes nothing else (06_registers R131). -/
theorem shareSlots_frame (hw : Hw) (gk p i : Nat) : SameButImages hw (shareSlots hw gk p i) := by
  unfold shareSlots
  split <;> rfl

/-- One group is placed: the gang differs in that entry. -/
theorem placeGroup_spec {hw : Hw} {gk : Nat} {g : Gang} (hg : hw.gangs.look gk = some g) (q : Path) (p i parent : Nat) (x : Group') :
    ∃ t q', GangAs gk hw (placeGroup hw gk q p i parent x) g { g with paths := t } ∧ (∀ j, j ≠ i → t.look j = g.paths.look j) ∧
      t.look i = some q' ∧ Placed q parent x q' := by
  let q1 : Path := { q with
    mask := x.m, pc := x.pc, cl := {}, depth := q.depth + x.up, parent := parent, age := 0, state := .ready, folded := false, wmask := 0,
    wait := .none, trap := none, stallTo := 0, holdReq := q.holdReq && p == i }
  have A := (gangAs_setGang (fun g => { g with paths := g.paths.ins i q1 }) hg).images (shareSlots_frame _ gk p i)
  cases hs : x.sw with
  | none =>
    refine ⟨_, q1, by simpa only [placeGroup, hs] using A, fun j hj => Tab.look_ins_other _ _ hj, Tab.look_ins_same .., ?_⟩
    exact { mask := rfl, pc := rfl, cl := rfl, state := rfl, depth := rfl, parent := rfl, copied := fun _ => rfl,
            written := fun kv h => by rw [hs] at h; cases h }
  | some kv =>
    refine ⟨_, _, by simpa only [placeGroup, hs] using A.trans (gangAs_writeS (p := i) kv A.new), fun j hj => ?_,
      by rw [Tab.look_upd, if_pos rfl, Tab.look_ins_same]; rfl, ?_⟩
    · rw [Tab.look_upd, if_neg hj, Tab.look_ins_other _ _ hj]
    · exact { mask := rfl, pc := rfl, cl := rfl, state := rfl, depth := rfl, parent := rfl, copied := fun h => (by rw [hs] at h; cases h),
              written := fun kv' h => by rw [hs] at h; cases h; exact ⟨_, rfl⟩ }

/-- A group with the entry it takes and the PARENT it gets there. -/
structure NewEntry where
  x : Group'
  entry : Nat
  parent : Nat

/-- Groups are placed, each in an entry of its own. -/
theorem foldl_placeGroup {gk : Nat} (q : Path) (p : Nat) (L : List NewEntry) {hw : Hw} {g : Gang} (hg : hw.gangs.look gk = some g)
    (nodup : (L.map NewEntry.entry).Nodup) :
    ∃ t, GangAs gk hw (L.foldl (fun h y => placeGroup h gk q p y.entry y.parent y.x) hw) g { g with paths := t } ∧
      (∀ j, j ∉ L.map NewEntry.entry → t.look j = g.paths.look j) ∧
      ∀ y ∈ L, ∃ q', t.look y.entry = some q' ∧ Placed q y.parent y.x q' := by
  induction L generalizing hw g with
  | nil => exact ⟨g.paths, .refl hg, fun _ _ => rfl, fun _ h => nomatch h⟩
  | cons y L ih =>
    obtain ⟨t1, q1, A1, other1, look1, placed1⟩ := placeGroup_spec hg q p y.entry y.parent y.x
    obtain ⟨new, nodup⟩ := List.nodup_cons.1 nodup
    obtain ⟨t, A, other, placed⟩ := ih A1.new nodup
    refine ⟨t, A1.trans A, fun j hj => ?_, fun z hz => ?_⟩
    · rw [List.map_cons, List.mem_cons, not_or] at hj
      rw [other j hj.2, other1 j hj.1]
    · rcases List.mem_cons.1 hz with rfl | hz
      · exact ⟨q1, (other _ new).trans look1, placed1⟩
      · exact placed z hz

/-- The places of the groups of a division: the entry of the path, then the free ones from the lowest (R104). -/
def newEntries (e : Env) (gs : List Group') : List NewEntry :=
  (lowGroups e gs).map (fun x => ⟨x, e.p, e.q.parent⟩) ++ ((otherGroups e gs).zip (freeEntries e.g)).map fun x => ⟨x.1, x.2, e.p⟩

/-- Operations and writes under way follow the new paths as they followed the one that divides (13_consistency R250). -/
def inherited (e : Env) (hw : Hw) (gs : List Group') : Hw :=
  ((otherGroups e gs).zip (freeEntries e.g)).foldl (fun h x => inheritOps h e.gk e.part e.p x.2) hw

theorem inherited_frame (e : Env) (hw : Hw) (gs : List Group') :
    (inherited e hw gs).gangs = hw.gangs ∧ (inherited e hw gs).blocks = hw.blocks := by
  unfold inherited
  generalize (otherGroups e gs).zip (freeEntries e.g) = L
  induction L generalizing hw with
  | nil => exact ⟨rfl, rfl⟩
  | cons x L ih => exact ih (inheritOps hw e.gk e.part e.p x.2)

/-- The words that a division writes to the fold array: each lane of a group gets what c makes of its word (R114). -/
def foldWords (c : Group' → FoldLane → FoldLane) (gs : List Group') (t : Tab FoldLane) : Tab FoldLane :=
  gs.foldl (fun t x => (lanes x.m).foldl (fun t l => t.ins l (c x (t.val {} l))) t) t
/-- A group of a folded path writes its scalar to the path (R115). -/
def writeGroup (e : Env) (hw : Hw) (x : Group') : Hw :=
  match x.sw with
  | some kv => writeS hw e.gk e.p kv
  | none => hw
/-- The scalars that the groups of a folded path write, and the entry it then shows (R114, R115). -/
def foldedTail (e : Env) (gs : List Group') (hw : Hw) : Hw := (gs.foldl (writeGroup e) hw).setGang e.gk fun g => refold g e.p

theorem foldl_writeGroup (e : Env) (gs : List Group') (hw : Hw) :
    gs.foldl (writeGroup e) hw = (gs.filterMap Group'.sw).foldl (fun h kv => writeS h e.gk e.p kv) hw := by
  induction gs generalizing hw with
  | nil => rfl
  | cons x gs ih =>
    rw [List.foldl_cons, ih, writeGroup]
    cases hs : x.sw with
    | none => rw [List.filterMap_cons_none hs]
    | some kv => rw [List.filterMap_cons_some hs, List.foldl_cons]

/-- The gang of a path that has just become folded, each lane at the PC of its group (R114). -/
def foldPath (e : Env) (gs : List Group') (g : Gang) : Gang := { g with
  paths := g.paths.ins e.p { e.q with folded := true, cl := {}, age := 0 }
  foldArr := foldWords (fun x _ => { depth := e.q.depth + x.up, pc := x.pc }) gs g.foldArr }

/-- A path that is not folded divides into entries, folds, or needs more entries than are free (R104, R114). -/
theorem divide_unfolded {e : Env} (hf : e.q.folded = false) (hw : Hw) (gs : List Group') : e.divide hw gs =
    if (otherGroups e gs).length ≤ (freeEntries e.g).length then
      .ok ((newEntries e gs).foldl (fun h y => placeGroup h e.gk e.q e.p y.entry y.parent y.x) (inherited e hw gs))
    else if e.g.fold then .ok (foldedTail e (filled gs) (hw.setGang e.gk (foldPath e (filled gs))))
    else .error (otherGroups e gs).length := by
  simp only [Env.divide, hf, Bool.false_eq_true, if_false, newEntries, List.foldl_append, List.foldl_map]
  rfl

/-- What a division writes to a lane's word of a path that is folded (R114). -/
def redirect (x : Group') (w : FoldLane) : FoldLane :=
  { w with pc := x.pc, depth := w.depth + x.up, cl := {}, wait := .none, wmask := 0 }

/-- A folded path divides within its entry (R114). -/
theorem divide_folded {e : Env} (hf : e.q.folded = true) (hw : Hw) (gs : List Group') : e.divide hw gs =
    .ok (foldedTail e (filled gs) ((filled gs).foldl (fun h x => h.setGang e.gk fun g => { g with
      foldArr := (lanes x.m).foldl (fun t l => t.ins l (redirect x (t.val {} l))) g.foldArr }) hw)) := by
  simp only [Env.divide, hf, if_true]
  rfl

/-! ## What finishing a division does -/

/-- The register effects of an instruction leave the fold array alone. -/
theorem commit_foldArr {e : Env} {r : Regs} {w : Writes} {hw h : Hw} {g g' : Gang} (hc : commit e r w hw = some h)
    (hg : hw.gangs.look e.gk = some g) (hg' : h.gangs.look e.gk = some g') : g'.foldArr = g.foldArr := by
  simp only [commit] at hc
  split at hc
  · cases hc
  rename_i h0 ha
  have hg0 : h0.gangs.look e.gk = some g := by rw [commitRoom_frame ha]; exact hg
  obtain ⟨t1, A1, -⟩ := foldl_releaseV (m := e.act) (r.relV ++ w.relV) hg0
  obtain ⟨t2, A2, -⟩ := foldl_releaseS (p := e.p) r.relS A1.new
  obtain ⟨t4, A4, -⟩ := foldl_writeS (p := e.p) w.s (foldl_writeV w.v A2.new).new
  generalize List.foldl (fun h x => writeS h e.gk e.p x) _ w.s = h4 at A4 hc
  have A5 := gangAs_setGang (fun g => { g with
      fexc := w.ex.foldl (fun t x => if x.2 = 0 then t else t.ins x.1 (t.val 0 x.1 ||| x.2)) g.fexc
      srng := w.rng.foldl (fun t x => t.ins x.1 x.2) g.srng }) A4.new
  generalize hl : logStep _ e.part e.gk e.p _ = h6 at hc
  have L : SameButLogs _ h6 := hl ▸ logStep_frame ..
  obtain rfl := Option.some.inj hc
  have := ((congrArg (Tab.look · e.gk) L.gangs).trans A5.new).symm.trans hg'
  cases this
  rfl

/-- An instruction that has placed its paths itself, and writes nothing, releases its registers and is done. -/
theorem finish_moved {e : Env} (r : Regs) {h : Hw} {g : Gang} (hg : h.gangs.look e.gk = some g) :
    OnlyGang e.gk h (e.finish r (.moved {} h)) ∧ ∃ g', (e.finish r (.moved {} h)).gangs.look e.gk = some g' ∧
      WroteGang e r {} h.ops g g' ∧ g'.foldArr = g.foldArr ∧
      ∀ q, g.paths.look e.p = some q → ∃ x, g'.paths.look e.p = some (ageless (q.regs x)) := by
  obtain ⟨h1, hc⟩ := Option.isSome_iff_exists.1 (show (commit e r {} h).isSome from room_nil rfl rfl rfl rfl)
  obtain ⟨only, -, g1, hg1, W, -, hs⟩ := commit_spec hc hg
  have A := gangAs_setGang (fun g => { g with paths := g.paths.upd e.p ageless }) hg1
  have L : SameButLogs (e.setPath h1 ageless) (e.finish r (.moved {} h)) := by
    simp only [Env.finish, hc]
    exact finStep_frame ..
  have fold : g1.foldArr = g.foldArr := commit_foldArr hc hg hg1
  refine ⟨(only.trans A.only).trans (L.only _), _, (congrArg (Tab.look · e.gk) L.gangs).trans A.new,
    moved_wroteGang W (movedGang_upd g1 ageless fun _ => rfl), fold, fun q hq => ?_⟩
  obtain ⟨x, hx⟩ := hs q hq
  exact ⟨x, by rw [Tab.look_upd, if_pos rfl, hx]; rfl⟩

/-! ## Groups in entries of their own -/

section
variable {e : Env} {gs : List Group'} (S : Shares e.grp gs) (enough : (otherGroups e gs).length ≤ (freeEntries e.g).length)

theorem mem_freeEntries {g : Gang} {i : Nat} : i ∈ freeEntries g ↔ i < 16 ∧ g.paths.look i = none := by
  simp [freeEntries, List.mem_filter, Tab.has]

theorem newEntries_entry : (newEntries e gs).map NewEntry.entry =
    (lowGroups e gs).map (fun _ => e.p) ++ ((otherGroups e gs).zip (freeEntries e.g)).map Prod.snd := by
  simp only [newEntries, List.map_append, List.map_map]
  rfl

include enough in
/-- Each group that does not keep the entry has a free one. -/
theorem mem_newEntries_other {x : Group'} (hx : x ∈ otherGroups e gs) : ∃ i ∈ freeEntries e.g, ⟨x, i, e.p⟩ ∈ newEntries e gs := by
  rw [← List.map_fst_zip enough, List.mem_map] at hx
  obtain ⟨y, hy, rfl⟩ := hx
  exact ⟨y.2, (List.of_mem_zip hy).2, List.mem_append_right _ (List.mem_map.2 ⟨y, hy, rfl⟩)⟩

/-- The group of the lowest lane keeps the entry. -/
theorem mem_newEntries_low {x : Group'} (hx : x ∈ lowGroups e gs) : ⟨x, e.p, e.q.parent⟩ ∈ newEntries e gs :=
  List.mem_append_left _ (List.mem_map.2 ⟨x, hx, rfl⟩)

theorem entry_of_newEntries {i : Nat} (h : i ∈ (newEntries e gs).map NewEntry.entry) : i = e.p ∨ i ∈ freeEntries e.g := by
  rw [newEntries_entry, List.mem_append] at h
  rcases h with h | h
  · obtain ⟨_, -, rfl⟩ := List.mem_map.1 h
    exact .inl rfl
  · obtain ⟨y, hy, rfl⟩ := List.mem_map.1 h
    exact .inr (List.of_mem_zip hy).2

variable (here : e.g.paths.look e.p = some e.q)

include here in
theorem entry_ne_of_free {i : Nat} (h : i ∈ freeEntries e.g) : i ≠ e.p := by
  rintro rfl
  rw [(mem_freeEntries.1 h).2] at here
  cases here

theorem map_snd_zip_sublist {α β : Type} (l : List α) (k : List β) : ((l.zip k).map Prod.snd).Sublist k := by
  induction l generalizing k with
  | nil => simp
  | cons x l ih =>
    cases k with
    | nil => simp
    | cons y k => exact (ih k).cons_cons y

include S here in
theorem newEntries_nodup : ((newEntries e gs).map NewEntry.entry).Nodup := by
  rw [newEntries_entry]
  refine List.nodup_append.2 ⟨?_, List.Nodup.sublist (map_snd_zip_sublist _ _) (List.nodup_range.filter _), fun i hi j hj => ?_⟩
  · match h : lowGroups e gs, lowGroups_length_le S with
    | [], _ => exact List.nodup_nil
    | [_], _ => exact List.nodup_singleton _
  · obtain ⟨_, -, rfl⟩ := List.mem_map.1 hi
    obtain ⟨y, hy, rfl⟩ := List.mem_map.1 hj
    exact (entry_ne_of_free here (List.of_mem_zip hy).2).symm

end

section
variable {e : Env} {gs : List Group'} (S : Shares e.grp gs) (here : e.g.paths.look e.p = some e.q) {hw : Hw}
  (hg : hw.gangs.look e.gk = some e.g)
include S here hg

/-- The gang of a path that has divided: every group is in its entry, and the other entries are as they were (R104). -/
theorem divided_entries : ∃ t,
    GangAs e.gk (inherited e hw gs) ((newEntries e gs).foldl (fun h y => placeGroup h e.gk e.q e.p y.entry y.parent y.x) (inherited e hw gs))
      e.g { e.g with paths := t } ∧
    (∀ j, j ∉ (newEntries e gs).map NewEntry.entry → t.look j = e.g.paths.look j) ∧
    ∀ y ∈ newEntries e gs, ∃ q', t.look y.entry = some q' ∧ Placed e.q y.parent y.x q' :=
  foldl_placeGroup e.q e.p _ (by rw [(inherited_frame e hw gs).1]; exact hg) (newEntries_nodup S here)

end

/-- What a group's entry holds of the scalars that the instruction does not release. -/
theorem Placed.scalars {q q' : Path} {parent n : Nat} {x : Group'} (h : Placed q parent x q') {t : Tab SReg}
    (ht : t.look n = q'.sregs.look n) : match x.sw with
      | some kv => (q'.regs t).sr n = if n = kv.1 then kv.2 else q.sr n
      | none => t.look n = q.sregs.look n := by
  cases hs : x.sw with
  | none => exact ht.trans (by rw [h.copied hs])
  | some kv =>
    obtain ⟨i, hi⟩ := h.written kv hs
    simp only [Path.sr, Path.regs, ht, hi, Tab.look_ins]
    by_cases hn : n = kv.1
    · simp only [hn, if_true]
    · simp only [hn, if_false]

/-- A path that is not folded, with entries enough, divides (R104). -/
theorem divided_of_split {s : State} {e : Env} {gs : List Group'} (he : env s = some e) (S : Shares e.grp gs) (hf : e.q.folded = false)
    (enough : (otherGroups e gs).length ≤ (freeEntries e.g).length) {hw : Hw} (images : SameButImages e.hw hw) (r : Regs) :
    Divided e r gs (e.s.with (e.finish r (e.split hw gs))) := by
  have here := env_path he hf
  have hg : hw.gangs.look e.gk = some e.g := by rw [images]; exact (env_spec he).2.1
  obtain ⟨t, A, other, placed⟩ := divided_entries S here hg
  rw [Env.split, divide_unfolded hf, if_pos enough]
  obtain ⟨only, g', look, W, -, path⟩ := finish_moved r A.new
  obtain ⟨gangs, blocks⟩ := inherited_frame e hw gs
  have only := A.only.trans only
  refine ⟨rfl, rfl, fun k hk => ?_, ?_, g', look, W.nest, W.exited, fun k hk => W.vFrame k rfl (by simpa using hk), fun i q hq hi => ?_,
    fun x hx hm => ?_⟩
  · exact (only.others k hk).trans (by rw [gangs, images])
  · exact only.blocks.trans (by rw [blocks, images])
  · refine (W.paths i hi).trans ((other i fun hn => ?_).trans hq)
    rcases entry_of_newEntries hn with h | h
    · exact hi h
    · rw [(mem_freeEntries.1 h).2] at hq
      cases hq
  · cases low : inLanes x.m (lowLane e.grp) with
    | true =>
      obtain ⟨q', hq', P⟩ := placed _ (mem_newEntries_low (List.mem_filter.2 ⟨mem_filled.2 ⟨hx, hm⟩, low⟩))
      obtain ⟨regs, hregs⟩ := path q' hq'
      exact ⟨e.p, _, hregs, by simp, by simp, P.mask, P.pc, P.cl, P.state, P.depth,
        fun n hn => P.scalars (W.sFrame _ _ hq' hregs n rfl hn)⟩
    | false =>
      obtain ⟨i, hi, hmem⟩ := mem_newEntries_other enough ((mem_otherGroups S).2 ⟨hx, hm, low⟩)
      have ne := entry_ne_of_free here hi
      obtain ⟨q', hq', P⟩ := placed _ hmem
      obtain ⟨lt, free⟩ := mem_freeEntries.1 hi
      exact ⟨i, q', (W.paths i ne).trans hq', by simp [ne], fun _ => ⟨free, lt, P.parent⟩, P.mask, P.pc, P.cl, P.state, P.depth,
        fun n _ => P.scalars rfl⟩

end Sys2Proof.Machine
end

section
/-! SUPPORT. Folds: where the lanes of a folded path stand, and what an instruction that divides its path comes to with entries enough and with
too few (05_paths R104, R114). -/

namespace Sys2Proof.Machine

open Sys2Proof

/-! ## Folds -/

/-- The PC at which lane l of path q of a gang stands: its own where the path is folded (R114). -/
def standsAt (g : Gang) (q : Path) (l : Nat) : Word := if q.folded then (g.foldArr.val {} l).pc else q.pc

theorem standsAt_folded {q : Path} (h : q.folded = true) (g : Gang) (l : Nat) : standsAt g q l = (g.foldArr.val {} l).pc := if_pos h

/-- Recomputing what a folded entry shows leaves its lanes where they stand, folded or not (R114). -/
theorem refold_stands {g : Gang} {p : Nat} {q : Path} (hq : g.paths.look p = some q) (hf : q.folded = true) :
    ∃ q', (refold g p).paths.look p = some q' ∧ q'.mask = q.mask ∧
      ∀ l, inLanes q.mask l = true → standsAt (refold g p) q' l = (g.foldArr.val {} l).pc := by
  simp only [refold, hq, hf, Bool.not_true, Bool.false_eq_true, if_false]
  split
  case h_1 none => exact ⟨q, hq, rfl, fun l _ => standsAt_folded hf g l⟩
  case h_2 l0 ls all =>
    split
    case isTrue same =>
      refine ⟨_, Tab.look_ins_same .., ?_, fun l hl => ?_⟩
      · simp only [unfold]
        split <;> rfl
      · simp only [Bool.and_eq_true, List.all_eq_true] at same
        have := same.1.1 l (mem_lanes_iff.2 hl)
        simp only [beq_iff_eq] at this
        rw [this.1]
        simp only [standsAt, unfold]
        split <;> rfl
    case isFalse =>
      split
      · split
        · exact ⟨q, hq, rfl, fun l _ => standsAt_folded hf g l⟩
        · exact ⟨_, Tab.look_ins_same .., rfl, fun l _ => standsAt_folded rfl _ l⟩
      · exact ⟨_, Tab.look_ins_same .., rfl, fun l _ => standsAt_folded rfl _ l⟩

/-- Words that are set in the fold array, lane after lane: each listed lane gets what c makes of its word. -/
theorem val_setWords (c : FoldLane → FoldLane) (ls : List Nat) (t : Tab FoldLane) (l : Nat) :
    (l ∉ ls → (ls.foldl (fun t l => t.ins l (c (t.val {} l))) t).val {} l = t.val {} l) ∧
      (l ∈ ls → ∃ w, (ls.foldl (fun t l => t.ins l (c (t.val {} l))) t).val {} l = c w) := by
  induction ls generalizing t with
  | nil => exact ⟨fun _ => rfl, fun h => nomatch h⟩
  | cons k ls ih =>
    obtain ⟨out, inn⟩ := ih (t.ins k (c (t.val {} k)))
    refine ⟨fun h => ?_, fun h => ?_⟩
    · rw [List.mem_cons, not_or] at h
      rw [List.foldl_cons, out h.2, Tab.val_ins, if_neg h.1]
    · by_cases hl : l ∈ ls
      · exact inn hl
      · obtain rfl : l = k := (List.mem_cons.1 h).resolve_right hl
        exact ⟨_, by rw [List.foldl_cons, out hl, Tab.val_ins, if_pos rfl]⟩

/-- The lanes of a group get what c makes of their words for that group, since no other group holds them (R114). -/
theorem val_foldWords (c : Group' → FoldLane → FoldLane) {gs : List Group'}
    (apart : gs.Pairwise fun x y => ∀ l, inLanes x.m l = true → inLanes y.m l = false) (t : Tab FoldLane) {x : Group'} (hx : x ∈ gs) {l : Nat}
    (hl : inLanes x.m l = true) : ∃ w, (foldWords c gs t).val {} l = c x w := by
  have spared : ∀ (gs : List Group') (t : Tab FoldLane), (∀ y ∈ gs, inLanes y.m l = false) → (foldWords c gs t).val {} l = t.val {} l := by
    intro gs
    induction gs with
    | nil => exact fun _ _ => rfl
    | cons y gs ih =>
      intro t h
      refine (ih _ fun z hz => h z (List.mem_cons_of_mem _ hz)).trans ((val_setWords (c y) _ t l).1 fun hy => ?_)
      rw [mem_lanes_iff, h y (List.mem_cons_self ..)] at hy
      cases hy
  induction gs generalizing t with
  | nil => cases hx
  | cons y gs ih =>
    obtain ⟨first, apart⟩ := List.pairwise_cons.1 apart
    rcases List.mem_cons.1 hx with rfl | hx
    · obtain ⟨w, hw⟩ := (val_setWords (c x) (lanes x.m) t l).2 (mem_lanes_iff.2 hl)
      exact ⟨w, (spared gs _ fun z hz => first z hz l hl).trans hw⟩
    · exact ih apart _ hx

/-- Setting the words group by group is setting them all in one gang. -/
theorem foldl_setWords (c : Group' → FoldLane → FoldLane) (gs : List Group') {gk : Nat} {hw : Hw} {g : Gang} (hg : hw.gangs.look gk = some g) :
    (gs.foldl (fun h x => h.setGang gk fun g => { g with
      foldArr := (lanes x.m).foldl (fun t l => t.ins l (c x (t.val {} l))) g.foldArr }) hw).gangs.look gk =
      some { g with foldArr := foldWords c gs g.foldArr } := by
  induction gs generalizing hw g with
  | nil => exact hg
  | cons x gs ih =>
    exact ih (gangAs_setGang (fun g => { g with foldArr := (lanes x.m).foldl (fun t l => t.ins l (c x (t.val {} l))) g.foldArr }) hg).new

/-- The gang of a folded path after its groups wrote their scalars and its entry was recomputed: the lanes stand where they stood. -/
theorem foldedTail_stands (e : Env) (gs : List Group') {hw : Hw} {g : Gang} {q : Path} (hg : hw.gangs.look e.gk = some g)
    (hq : g.paths.look e.p = some q) (hf : q.folded = true) :
    ∃ g' q', (foldedTail e gs hw).gangs.look e.gk = some g' ∧ g'.nest = g.nest ∧ (∀ i, i ≠ e.p → g'.paths.look i = g.paths.look i) ∧
      g'.paths.look e.p = some q' ∧ q'.mask = q.mask ∧ ∀ l, inLanes q.mask l = true → standsAt g' q' l = (g.foldArr.val {} l).pc := by
  obtain ⟨t, A, other, -, path⟩ := foldl_writeS (p := e.p) (gs.filterMap Group'.sw) hg
  obtain ⟨x, hx, -⟩ := path q hq
  obtain ⟨q', look, mask, stands⟩ := refold_stands (g := { g with paths := t }) hx hf
  have M := movedGang_refold { g with paths := t } e.p
  refine ⟨_, q', ?_, ?_, fun i hi => (M.other i hi).trans (other i hi), look, mask, stands⟩
  · rw [foldedTail, foldl_writeGroup, setGang_look, if_pos rfl, A.new]
    rfl
  · obtain ⟨t', x', h⟩ := M.rest
    rw [h]

theorem seenAs_folded (g : Gang) (q : Path) : (seenAs g q).folded = q.folded := by
  unfold seenAs
  split <;> rfl
theorem seenAs_mask (g : Gang) (q : Path) : (seenAs g q).mask = q.mask := by
  unfold seenAs
  split <;> rfl

/-- The lanes that move together are lanes of their path. -/
theorem mask_of_grp {e : Env} {l : Nat} (h : inLanes e.grp l = true) : inLanes e.q.mask l = true := by
  unfold Env.grp groupOf at h
  split at h
  · split at h
    · exact (Bool.and_eq_true_iff.1 (inLanes_and .. ▸ h)).2
    · rw [inLanes_where_and] at h
      exact (Bool.and_eq_true_iff.1 h).1
  · exact h

/-- A gang whose path e.p, folded, has its lanes at the PCs of groups gs, as an instruction that folds leaves it before its entry is
recomputed. -/
structure Redirected (e : Env) (gs : List Group') (g : Gang) : Prop where
  nest : g.nest = e.g.nest
  other : ∀ i, i ≠ e.p → g.paths.look i = e.g.paths.look i
  path : ∃ q, g.paths.look e.p = some q ∧ q.folded = true ∧ q.mask = e.q.mask
  stand : ∀ x ∈ gs, ∀ l, inLanes x.m l = true → (g.foldArr.val {} l).pc = x.pc

/-- An instruction that folds its path, or finds it folded, leaves each group at its PC (R114). -/
theorem folded_of_redirected {e : Env} {gs : List Group'} (S : Shares e.grp gs) {hw : Hw} {g : Gang} (hg : hw.gangs.look e.gk = some g)
    (R : Redirected e gs g) (r : Regs) : Folded e gs (e.s.with (e.finish r (.moved {} (foldedTail e (filled gs) hw)))) := by
  obtain ⟨q, hq, hf, hmask⟩ := R.path
  obtain ⟨g1, q1, look, nest, other, path, mask, stands⟩ := foldedTail_stands e (filled gs) hg hq hf
  obtain ⟨-, g2, look2, W, foldArr, regs⟩ := finish_moved r look
  obtain ⟨x, hx⟩ := regs q1 path
  refine ⟨rfl, rfl, g2, _, look2, W.nest.trans (nest.trans R.nest), fun i hi => (W.paths i hi).trans ((other i hi).trans (R.other i hi)), hx,
    mask.trans hmask, fun y hy l _ hl => ?_⟩
  have inMask : inLanes q.mask l = true := hmask ▸ mask_of_grp (S.within y hy l hl)
  have := (stands l inMask).trans (R.stand y hy l hl)
  rwa [standsAt, ← foldArr] at this

section
variable {s : State} {e : Env} {gs : List Group'} (he : env s = some e) (S : Shares e.grp gs) {hw : Hw} (images : SameButImages e.hw hw)
  (r : Regs)
include he S images

/-- A folded path divides within its entry (R114). -/
theorem folded_of_split (hf : e.q.folded = true) : Folded e gs (e.s.with (e.finish r (e.split hw gs))) := by
  obtain ⟨-, hg, q, hq, seen⟩ := env_spec he
  have hg : hw.gangs.look e.gk = some e.g := by rw [images]; exact hg
  rw [Env.split, divide_folded hf]
  refine folded_of_redirected S (foldl_setWords redirect (filled gs) hg) ⟨rfl, fun _ _ => rfl, ⟨q, hq, ?_, ?_⟩, fun x hx l hl => ?_⟩ r
  · rw [← hf, seen, seenAs_folded]
  · rw [seen, seenAs_mask]
  · obtain ⟨w, hw⟩ := val_foldWords redirect (S.apart.filter _) e.g.foldArr (mem_filled.2 ⟨hx, ne_zero_of_lane hl⟩) hl
    exact congrArg FoldLane.pc hw

/-- With too few entries free and FOLD set a path folds (R114). -/
theorem folds_of_split (hf : e.q.folded = false) (few : ¬ (otherGroups e gs).length ≤ (freeEntries e.g).length) (fold : e.g.fold = true) :
    Folded e gs (e.s.with (e.finish r (e.split hw gs))) := by
  have hg : hw.gangs.look e.gk = some e.g := by rw [images]; exact (env_spec he).2.1
  rw [Env.split, divide_unfolded hf, if_neg few, if_pos fold]
  refine folded_of_redirected S (gangAs_setGang (foldPath e (filled gs)) hg).new ⟨rfl, fun i hi => Tab.look_ins_other _ _ hi,
    ⟨_, Tab.look_ins_same .., rfl, rfl⟩, fun x hx l hl => ?_⟩ r
  obtain ⟨w, hw⟩ := val_foldWords (fun x _ => { depth := e.q.depth + x.up, pc := x.pc }) (S.apart.filter _) e.g.foldArr
    (mem_filled.2 ⟨hx, ne_zero_of_lane hl⟩) hl
  exact congrArg FoldLane.pc hw

/-- An instruction that divides its path into groups splits it, folds it, or traps (R104). -/
theorem splits_of_split {i : Instr} {x : Res} (hx : exec i s = .next (s.with (e.finish r x))) (hm : x = e.split hw gs) :
    Splits i s e r gs := by
  subst hm
  obtain rfl := env_state he
  have count : ∀ k, (otherGroups e gs).length ≤ k ↔ (filled gs).length ≤ k + 1 := fun k => by rw [otherGroups_length S]; omega
  refine ⟨fun hf le => ⟨_, hx, divided_of_split he S hf ((count _).2 le) images r⟩, fun h => ⟨_, hx, ?_⟩, fun hf lt off => ?_⟩
  · rcases h with hf | ⟨lt, on⟩
    · exact folded_of_split he S images r hf
    · cases hf : e.q.folded with
      | true => exact folded_of_split he S images r hf
      | false => exact folds_of_split he S images r hf (fun le => Nat.not_le.2 lt ((count _).1 le)) on
  · have few : ¬ (otherGroups e gs).length ≤ (freeEntries e.g).length := fun le => Nat.not_le.2 lt ((count _).1 le)
    refine traps_of_trap hx ?_
    rw [Env.split, divide_unfolded hf, if_neg few, off, if_neg Bool.false_ne_true, otherGroups_length S]
    rfl

end

end Sys2Proof.Machine
end

section
/-! SUPPORT. Divergent forms: the groups that bra, brx, callx and split make (05_paths R105, R107, R108). -/

namespace Sys2Proof.Machine

open Sys2Proof

/-! ## A division in two -/

/-- A path that is not folded and divides into two groups, the first with its lowest lane, keeps the first, and the second is in the lowest free
entry (R104). -/
theorem divide_two {s : State} {e : Env} {x y : Group'} {n : Nat} {free : List Nat} {h : Hw} (he : env s = some e) (hf : e.q.folded = false)
    (S : Shares e.grp [x, y]) (hx : x.m ≠ 0) (hy : y.m ≠ 0) (low : inLanes x.m (lowLane e.grp) = true) (hfree : freeEntries e.g = n :: free)
    (hd : e.divide e.hw [x, y] = .ok h) :
    ∃ t q1 q2, h.gangs.look e.gk = some { e.g with paths := t } ∧ (∀ i, i ≠ e.p → i ≠ n → t.look i = e.g.paths.look i) ∧
      t.look e.p = some q1 ∧ Placed e.q e.q.parent x q1 ∧ t.look n = some q2 ∧ Placed e.q e.p y q2 := by
  have high : inLanes y.m (lowLane e.grp) = false := (List.pairwise_cons.1 S.apart).1 y (List.mem_singleton_self y) _ low
  have full : filled [x, y] = [x, y] := by
    simp only [filled, List.filter_cons, bne_iff_ne.2 hx, bne_iff_ne.2 hy, if_true, List.filter_nil]
  have others : otherGroups e [x, y] = [y] := List.perm_singleton.1 (by simpa [full, low, high] using otherGroups_perm S)
  have lows : lowGroups e [x, y] = [x] := by simp [lowGroups, full, low, high]
  have entries : newEntries e [x, y] = [⟨x, e.p, e.q.parent⟩, ⟨y, n, e.p⟩] := by simp [newEntries, others, lows, hfree]
  rw [divide_unfolded hf, if_pos (by simp [others, hfree])] at hd
  obtain ⟨t, A, other, placed⟩ := divided_entries S (env_path he hf) (env_spec he).2.1
  rw [Except.ok.inj hd] at A
  simp only [entries, List.map_cons, List.map_nil, List.mem_cons, List.not_mem_nil, or_false, not_or] at other placed
  obtain ⟨q1, h1, P1⟩ := placed _ (.inl rfl)
  obtain ⟨q2, h2, P2⟩ := placed _ (.inr rfl)
  exact ⟨t, q1, q2, A.new, fun i hi hn => other i ⟨hi, hn⟩, h1, P1, h2, P2⟩

/-! ## bra -/

/-- The lanes that bra sends to its target (R105). -/
def takenLanes (e : Env) (r : Regs) (opt : Nat) : Lanes := lanesWhere fun l => inLanes e.act l && cond e r opt l

theorem grp_of_act {e : Env} {l : Nat} (h : inLanes e.act l = true) : inLanes e.grp l = true := by
  rw [inLanes_act] at h
  exact (Bool.and_eq_true_iff.1 h).1

/-- Whether a target is bad does not hang on the lanes that name it. -/
theorem badTarget_good {t : Word} {m : Lanes} (h : badTarget t m = none) (n : Lanes) : badTarget t n = none := by
  unfold badTarget at h ⊢
  split at h
  · cases h
  · rename_i aligned
    split at h
    · cases h
    · rename_i near
      rw [if_neg aligned, if_neg near]

/-- What bra does when its target is a good one (R105). -/
theorem exec_bra {f : Fields} {s : State} {e : Env} (h : IssuesC Forms.bra f s e) (good : badTarget (e.target f.lit) e.act = none) :
    exec (.bra f) s = .next (s.with (e.finish (regsF Forms.bra f) (e.split e.hw
      [⟨takenLanes e (regsF Forms.bra f) f.op, e.target f.lit, 0, none⟩,
        ⟨e.grp &&& ~~~takenLanes e (regsF Forms.bra f) f.op, e.clauseEnd (regsF Forms.bra f).len, 0, none⟩]))) := by
  simp only [exec, execBra, issueC_ok h, badTarget_good good, ite_self]
  rfl

/-! ## brx and callx -/

theorem mem_dedup {l : List Nat} {k : Nat} : k ∈ dedup l ↔ k ∈ l := by
  induction l with
  | nil => rfl
  | cons x l ih =>
    by_cases hk : k = x
    · simp [dedup, hk]
    · simp [dedup, hk, ih]
theorem dedup_nodup (l : List Nat) : (dedup l).Nodup := by
  induction l with
  | nil => exact List.nodup_nil
  | cons x l ih => exact List.nodup_cons.2 ⟨by simp, ih.filter _⟩

theorem inLanes_namers (e : Env) (r : Regs) (t l : Nat) : inLanes (namers e r t) l = (inLanes e.act l && (e.va r l).toNat == t) :=
  inLanes_where_and ..

theorem mem_targets {e : Env} {r : Regs} {t : Nat} : t ∈ targets e r ↔ ∃ l, inLanes e.act l = true ∧ (e.va r l).toNat = t := by
  simp only [targets, mem_dedup, List.mem_map, mem_acts]

theorem xGroups_shares (e : Env) (r : Regs) (call : Bool) : Shares e.grp (xGroups e r call) := by
  have named : Shares e.act ((targets e r).map fun t =>
      ⟨namers e r t, word t, b2n call, if call then some (r.d, e.clauseEnd r.len) else none⟩) :=
    shares_keys (dedup_nodup _) (inLanes_namers e r) fun l hl => mem_targets.2 ⟨l, hl, rfl⟩
  exact named.snoc (fun _ => grp_of_act) rfl

theorem mem_xGroups {e : Env} {r : Regs} {call : Bool} {x : Group'} (hx : x ∈ xGroups e r call) :
    (∃ t ∈ targets e r, x = ⟨namers e r t, word t, b2n call, if call then some (r.d, e.clauseEnd r.len) else none⟩) ∨
      x = ⟨e.grp &&& ~~~e.act, e.clauseEnd r.len, 0, none⟩ := by
  rcases List.mem_append.1 hx with hx | hx
  · obtain ⟨t, ht, rfl⟩ := List.mem_map.1 hx
    exact .inl ⟨t, ht, rfl⟩
  · exact .inr (List.mem_singleton.1 hx)

/-- The groups of brx and callx are those of the targets, and the lanes that are off at the clause end (R107). -/
theorem xGroups_byTarget (e : Env) (r : Regs) (call : Bool) : ByTarget e r (xGroups e r call) := by
  refine ⟨fun x hx _ => ?_, fun l _ hl => (xGroups_shares e r call).covers l hl⟩
  rcases mem_xGroups hx with ⟨t, ht, rfl⟩ | rfl
  · obtain ⟨k, -, rfl⟩ := mem_targets.1 ht
    refine .inl fun l _ => ?_
    rw [inLanes_namers, word, BitVec.ofNat_toNat, BitVec.setWidth_eq]
    congr 1
    rw [Bool.eq_iff_iff, beq_iff_eq, beq_iff_eq, BitVec.toNat_inj]
  · exact .inr ⟨rfl, rfl⟩

/-- Where every active lane names a good target, brx and callx raise no cause for one (R107). -/
theorem xTrap_none {e : Env} {r : Regs}
    (good : ∀ l, l < 32 → inLanes e.act l = true → (e.va r l).toNat % 8 = 0 ∧ (e.va r l).toNat < 2 ^ 57) : xTrap e r = none := by
  have aligned : (lanesWhere fun l => inLanes e.act l && (e.va r l).toNat % 8 != 0) = 0 := lanes_ext fun l => by
    rw [inLanes_where_and, inLanes_zero, Bool.and_eq_false_imp]
    exact fun hl => by simp [(good l (inLanes_lt hl) hl).1]
  have near : (lanesWhere fun l => inLanes e.act l && decide (2 ^ 57 ≤ (e.va r l).toNat)) = 0 := lanes_ext fun l => by
    rw [inLanes_where_and, inLanes_zero, Bool.and_eq_false_imp]
    exact fun hl => decide_eq_false (Nat.not_le.2 (good l (inLanes_lt hl) hl).2)
  simp only [xTrap, aligned, near, ne_eq, not_true_eq_false, if_false]

/-- What brx does with good targets (R107). -/
theorem exec_brx {f : Fields} {s : State} {e : Env} (h : IssuesC Forms.brx f s e) (good : xTrap e (regsF Forms.brx f) = none) :
    exec (.brx f) s = .next (s.with (e.finish (regsF Forms.brx f) (e.split e.hw (xGroups e (regsF Forms.brx f) false)))) := by
  simp only [exec, execBrx, issueC_ok h, good]

/-- How many entries a division lacks does not hang on the rest of the machine. -/
theorem divide_error {e : Env} {a : Hw} {gs : List Group'} {n : Nat} (h : e.divide a gs = .error n) (b : Hw) : e.divide b gs = .error n := by
  cases hf : e.q.folded with
  | true => rw [divide_folded hf] at h; cases h
  | false =>
    rw [divide_unfolded hf] at h ⊢
    split at h
    · cases h
    · rename_i few
      split at h
      · cases h
      · rename_i off
        rw [if_neg few, if_neg off]
        exact congrArg Except.error (Except.error.inj h)

section
variable {f : Fields} {s : State} {e : Env} (h : IssuesC Forms.callx f s e) (good : xTrap e (regsF Forms.callx f) = none)
include h good

/-- What callx does with good targets where it is not too deep and its return addresses have room (R107; 06_registers R128). -/
theorem exec_callx {hw : Hw} (shallow : e.deepest < 63) (room : allocate e.hw e.core e.ctx 0 (callEntries e (regsF Forms.callx f))
      [spillKeyS e.slot e.p ((regsF Forms.callx f).d / 32)] = some hw) :
    exec (.callx f) s = .next (s.with (e.finish (regsF Forms.callx f) (e.split hw (xGroups e (regsF Forms.callx f) true)))) := by
  have ok : ¬ (e.deepest ≥ 63 ∧ e.act ≠ 0) := fun deep => Nat.not_le.2 shallow deep.1
  simp only [exec, execCallx, issueC_ok h, good, if_neg ok]
  cases hd : e.divide e.hw (xGroups e (regsF Forms.callx f) true) with
  | error n => simp only [Env.split, divide_error hd hw]
  | ok _ => simp only [room]

/-- callx that is too deep (R107). -/
theorem exec_callx_deep (deep : 63 ≤ e.deepest) (active : e.act ≠ 0) :
    exec (.callx f) s = .next (s.with (e.finish (regsF Forms.callx f) (nestTrap e.act))) := by
  have both : e.deepest ≥ 63 ∧ e.act ≠ 0 := ⟨deep, active⟩
  simp only [exec, execCallx, issueC_ok h, good, if_pos both]

end

/-! ## split -/

/-- The key by which split groups a lane (R108). -/
def splitKey (e : Env) (r : Regs) (opt l : Nat) : Nat := if opt = 1 then l / 8 else (e.va r l).toNat % 16
/-- The lanes of split's group of key k: those that are off join the group of the lowest active lane (R108). -/
def splitLanes (e : Env) (r : Regs) (opt k : Nat) : Lanes :=
  lanesWhere fun l => inLanes e.grp l && (if inLanes e.act l then splitKey e r opt l == k else k == splitKey e r opt (lowLane e.act))
/-- The groups of split where a lane is active (R108). -/
def splitGroups (e : Env) (r : Regs) (opt : Nat) : List Group' :=
  (dedup (e.acts.map (splitKey e r opt))).map fun k => ⟨splitLanes e r opt k, e.clauseEnd r.len, 0, none⟩

theorem inLanes_splitLanes (e : Env) (r : Regs) (opt k l : Nat) : inLanes (splitLanes e r opt k) l = (inLanes e.grp l &&
    (if inLanes e.act l then splitKey e r opt l == k else k == splitKey e r opt (lowLane e.act))) := inLanes_where_and ..

theorem mem_splitKeys {e : Env} {r : Regs} {opt k : Nat} :
    k ∈ dedup (e.acts.map (splitKey e r opt)) ↔ ∃ l, inLanes e.act l = true ∧ splitKey e r opt l = k := by
  simp only [mem_dedup, List.mem_map, mem_acts]

theorem splitGroups_shares {e : Env} (active : e.act ≠ 0) (r : Regs) (opt : Nat) : Shares e.grp (splitGroups e r opt) := by
  refine shares_keys (dedup_nodup _) (key := fun l => splitKey e r opt (if inLanes e.act l then l else lowLane e.act)) (fun k l => ?_)
    fun l _ => mem_splitKeys.2 ⟨_, ?_, rfl⟩
  · rw [inLanes_splitLanes]
    split
    · rfl
    · rw [BEq.comm]
  · split
    · assumption
    · exact lowLane_mem active

/-- What split does where a lane is active (R108). -/
theorem exec_split_active {f : Fields} {s : State} {e : Env} (h : IssuesC Forms.split f s e) (active : e.act ≠ 0) :
    exec (.split f) s = .next (s.with (e.finish (regsF Forms.split f) (e.split e.hw (splitGroups e (regsF Forms.split f) f.op)))) := by
  simp only [exec, execSplit, issueC_ok h, active, if_false]
  rfl
/-- With no lane active split makes one group (R108). -/
theorem exec_split_idle {f : Fields} {s : State} {e : Env} (h : IssuesC Forms.split f s e) (idle : e.act = 0) :
    exec (.split f) s = .next (s.with (e.finish (regsF Forms.split f)
      (e.split e.hw [⟨e.grp, e.clauseEnd (regsF Forms.split f).len, 0, none⟩]))) := by
  simp only [exec, execSplit, issueC_ok h, idle, if_true]

/-! ## The statement -/

/-- Settles O14: the groups of each form share the lanes of the issuing group, and a path divides into groups that do. -/
theorem pathDivision : Obligations.PathDivision := by
  unfold Obligations.PathDivision
  refine ⟨fun s e m1 m2 pc1 pc2 n rest h he hf h1 h2 apart all low free hd => ?_, fun f s e h good => ?_, fun f s e h good => ?_,
    fun f s e h shallow good => ?_, fun f s e h deep active good => traps_of_trap (exec_callx_deep h good deep active) rfl,
    fun f s e h active => ?_, fun f s e h idle => ?_⟩
  · have grp : e.grp = e.q.mask := by simp [Env.grp, groupOf, hf]
    have S : Shares e.grp [⟨m1, pc1, 0, none⟩, ⟨m2, pc2, 0, none⟩] := shares_two apart (all.trans grp.symm)
    obtain ⟨t, q1, q2, look, other, look1, P1, look2, P2⟩ := divide_two he hf S h1 h2 (grp ▸ low) free hd
    exact ⟨_, q1, q2, look, rfl, rfl, other, look1, P1.mask, P1.pc, P1.state, P1.cl, P1.copied rfl, P1.depth, look2, P2.mask, P2.pc, P2.state,
      P2.cl, P2.copied rfl, P2.depth, P2.parent⟩
  · have S := (shares_one ⟨takenLanes e (regsF Forms.bra f) f.op, e.target f.lit, 0, none⟩).snoc (n := e.grp)
      (fun l hl => grp_of_act (Bool.and_eq_true_iff.1 ((inLanes_where_and ..).symm.trans hl)).1)
      (y := ⟨_, e.clauseEnd (regsF Forms.bra f).len, 0, none⟩) rfl
    exact ⟨_, inLanes_where_and _ _, splits_of_split h.here S (.refl _) _ (exec_bra h good) rfl⟩
  · refine ⟨_, fun x hx => ?_, xGroups_byTarget e _ false,
      splits_of_split h.here (xGroups_shares e _ false) (.refl _) _ (exec_brx h (xTrap_none good)) rfl⟩
    rcases mem_xGroups hx with ⟨t, -, rfl⟩ | rfl <;> exact ⟨rfl, rfl⟩
  · intro r room
    obtain ⟨hw, room⟩ := Option.isSome_iff_exists.1 room
    refine ⟨_, fun x hx => ?_, xGroups_byTarget e r true,
      splits_of_split h.here (xGroups_shares e r true) (roomFor_frame room) _ (exec_callx h (xTrap_none good) shallow room) rfl⟩
    rcases mem_xGroups hx with ⟨t, -, rfl⟩ | rfl
    · exact .inl ⟨rfl, rfl⟩
    · refine .inr ⟨rfl, rfl, lanes_ext fun l => ?_⟩
      rw [inLanes_and, inLanes_diff, inLanes_zero]
      cases inLanes e.act l <;> simp
  · intro key
    have S := splitGroups_shares active (regsF Forms.split f) f.op
    refine ⟨_, fun x hx => ?_, fun x hx => ?_, fun l _ hl => S.covers l (grp_of_act hl),
      splits_of_split h.here S (.refl _) _ (exec_split_active h active) rfl⟩
    · obtain ⟨k, -, rfl⟩ := List.mem_map.1 hx
      exact ⟨rfl, rfl, rfl⟩
    · obtain ⟨k, hk, rfl⟩ := List.mem_map.1 hx
      obtain ⟨l0, hl0, rfl⟩ := mem_splitKeys.1 hk
      exact ⟨l0, inLanes_lt hl0, hl0, inLanes_splitLanes e _ _ _⟩
  · exact splits_of_split h.here (shares_one ⟨e.grp, _, 0, none⟩) (.refl _) _ (exec_split_idle h idle) rfl

end Sys2Proof.Machine
end

section
/-! SUPPORT. Registers: moves, literals, selects, special registers and releases (06_registers R132-R138; 04_launch R89). -/

namespace Sys2Proof.Machine

open Sys2Proof

/-! ## Lane-wise forms -/

/-- A lane-wise form retires with its results wherever it may issue. -/
theorem byLane_of_lanewise {fm : Form} {con : Fields → Instr} {g : Fields → Env → Regs → Nat → Word}
    (hx : ∀ f s, exec (con f) s = lanewise fm f s (g f)) : ByLane fm con g := fun f s e h room => by
  rw [Retires, hx]
  exact lanewise_done h (roomD_put room _)

/-- A lane-wise S form whose result is a copies it. -/
theorem copiesS_of_lanewiseS {fm : SForm} {con : SFields → Instr} (hx : ∀ f s, exec (con f) s = lanewiseS fm f s fun _ a => a) :
    CopiesS fm con := fun f s e h room => by
  rw [Retires, hx]
  exact lanewiseS_done h (roomD_put room _)

/-- A lane-wise form whose result is made element by element gives each element what is computed for it (R119, R160). -/
theorem byElement_of_lanewise {fm : Form} {con : Fields → Instr} {P : Fields → Srcs → Nat → Prop}
    {g : Fields → Env → Regs → Nat → Word}
    (hx : ∀ f s, exec (con f) s = lanewise fm f s (g f))
    (hP : ∀ f e l j, j < 64 / Ty.width f.ty → P f (srcs fm f e l j) (subElem (Ty.width f.ty) j (g f e (regsF fm f) l))) :
    ByElement fm con P := fun f s e _ h room => by
  refine ⟨g f e (regsF fm f), hP f e, ?_⟩
  rw [Retires, hx]
  exact lanewise_done h (roomD_put room _)

/-- What a select gives lane l of d (R136). -/
def selected (f : Fields) (e : Env) (r : Regs) (l : Nat) : Word :=
  zip3Elems (Ty.width f.ty) (fun c x y => if (c != 0) != (f.op == 1) then x else y) (e.vd r l) (e.va r l) (e.vb r f l)

theorem select_eq (d opt x y : Nat) : (if (d != 0) != (opt == 1) then x else y) = if d ≠ 0 ↔ opt ≠ 1 then x else y := by
  refine if_congr ?_ rfl rfl
  rw [bne_iff_ne, ne_eq, Bool.eq_iff_iff, bne_iff_ne, beq_iff_eq]
  tauto

/-- Each element of a select is that of a or b, as the element of the old d and OPT have it (R136). -/
theorem subElem_selected {f : Fields} {j : Nat} (hj : j < 64 / Ty.width f.ty) (e : Env) (l : Nat) :
    subElem (Ty.width f.ty) j (selected f e (regsF Forms.sel f) l) =
      if (srcs Forms.sel f e l j).d ≠ 0 ↔ f.op ≠ 1 then (srcs Forms.sel f e l j).a else (srcs Forms.sel f e l j).b := by
  rw [selected, subElem_zip3Elems (width_pos f.ty) hj, select_eq]
  refine Nat.mod_eq_of_lt ?_
  split <;> exact subElem_lt (width_pos f.ty) _

/-! ## Special registers -/

/-- Values inserted for the lanes of a list, each lane its own. -/
theorem val_foldl_ins {α : Type} (d : α) (v : Nat → α) (ls : List Nat) (t : Tab α) (l : Nat) :
    (ls.foldl (fun t l => t.ins l (v l)) t).val d l = if l ∈ ls then v l else t.val d l := by
  induction ls generalizing t with
  | nil => rfl
  | cons k ls ih =>
    rw [List.foldl_cons, ih, Tab.val_ins]
    by_cases hl : l = k
    · subst hl; simp
    · simp [hl]

/-- %fexc after a write to it: the active lanes hold the low five bits of their values (R132). -/
def fexcWritten (e : Env) (r : Regs) : Tab Nat := e.acts.foldl (fun t l => t.ins l ((e.va r l).toNat % 32)) e.g.fexc

theorem val_fexcWritten (e : Env) (r : Regs) (l : Nat) :
    (fexcWritten e r).val 0 l = if inLanes e.act l then (e.va r l).toNat % 32 else e.g.fexc.val 0 l := by
  simp only [fexcWritten, val_foldl_ins, mem_acts]

/-- What swrite does when it issues (R132, R138). -/
theorem exec_swrite {f : Fields} {s : State} {e : Env} (h : Issues Forms.swrite f s e) :
    exec (.swrite f) s = .next (s.with (e.finish (regsF Forms.swrite f) (if f.d.toNat = 0x30 then
      .done {} (e.hw.setGang e.gk fun g => { g with fexc := fexcWritten e (regsF Forms.swrite f) })
    else .done { rng := e.acts.map fun l =>
      (l, if e.va (regsF Forms.swrite f) l = 0 then 1 else e.va (regsF Forms.swrite f) l) } e.hw))) := by
  have set := setGang_congr (env_spec h.here).2.1
    (f := fun g => { g with fexc := fexcWritten e (regsF Forms.swrite f) })
    (f' := fun g => { g with fexc := e.acts.foldl (fun t l => t.ins l ((e.va (regsF Forms.swrite f) l).toNat % 32)) g.fexc }) rfl
  change execSwrite f s = _
  rw [set, execSwrite, issueF_ok h]
  rfl

/-! ## Releases -/

/-- The fields of a form that only releases, as it issues: no class is read (R137). -/
def unread (r : Regs) : Regs := { r with sh := {}, lua := false, lub := false, lud := false }

theorem ready_unread (e : Env) (r : Regs) : e.ready (unread r) = true := by
  simp [Env.ready, unread, Env.avail]

/-- A form that only releases carries out its body wherever it stands well, with a lane active. -/
theorem releaseForm_ok {fm : Form} {f : Fields} {s : State} {e : Env} (he : env s = some e)
    (place : e.badPlace f.len false f.fsel.toNat = false) (active : e.act ≠ 0) (body : Env → Regs → Res) :
    releaseForm fm f s body = .next (s.with (e.finish (unread (regsF fm f)) (body e (regsF fm f)))) :=
  (issue_ok he place (by simp) (ready_unread e _)).trans (by rw [if_neg active])

/-- What vrel does when it issues (R137). -/
theorem exec_vrel {f : Fields} {s : State} {e : Env} (he : env s = some e) (place : e.badPlace f.len false f.fsel.toNat = false)
    (active : e.act ≠ 0) : exec (.vrel f) s = .next (s.with (e.finish (unread (regsF Forms.vrel f))
      (if (regsF Forms.vrel f).sh.a = .s then .done {} (releaseS e.hw e.gk e.p f.a.toNat) else .done { relV := [f.a.toNat] } e.hw))) :=
  releaseForm_ok he place active fun e r =>
    if r.sh.a = .s then .done {} (releaseS e.hw e.gk e.p r.a) else .done { relV := [r.a] } e.hw

/-- What vzero does when it issues (R137). -/
theorem exec_vzero {f : Fields} {s : State} {e : Env} (he : env s = some e) (place : e.badPlace f.len false f.fsel.toNat = false)
    (active : e.act ≠ 0) : exec (.vzero f) s = .next (s.with (e.finish (unread (regsF Forms.vzero f)) (.done
      { relV := (dedup (liveV e.g ++ awaitedV e.hw e.gk e.g)).filter fun n => decide (f.d.toNat ≤ n) && decide (n ≤ f.a.toNat) }
      e.hw))) :=
  releaseForm_ok he place active fun e r =>
    .done { relV := (dedup (liveV e.g ++ awaitedV e.hw e.gk e.g)).filter fun n => decide (r.d ≤ n) && decide (n ≤ r.a) } e.hw

/-- Settles O8: each lane-wise form's result, lane by lane or element by element, and what the other forms do when they issue. -/
theorem registerMoves : Obligations.RegisterMoves := by
  unfold Obligations.RegisterMoves
  refine ⟨⟨byLane_of_lanewise fun f s => rfl, byLane_of_lanewise fun f s => rfl, copiesS_of_lanewiseS fun f s => rfl,
    copiesS_of_lanewiseS fun f s => rfl, byLane_of_lanewise fun f s => rfl, ?sel, byLane_of_lanewise fun f s => rfl,
    byLane_of_lanewise fun f s => ?wid⟩, fun f s e h hd _ => ?fexc, fun f s e h hd _ => ?srng,
    fun f s e he place active => ⟨fun vector room => ?vrel, fun scalar room => ?srel⟩, fun f s e he place active room => ?vzero⟩
  case sel => exact byElement_of_lanewise (g := selected) (fun f s => rfl) fun f e l j hj => subElem_selected hj e l
  case wid =>
    change execWid f s = _
    unfold execWid
    -- field 0 of a work identifier is its low five bits (04_launch R66)
    exact congrArg (lanewise Forms.wid f s) (funext fun e => funext fun _ => funext fun l => rfl)
  case fexc =>
    exact ⟨fexcWritten e (regsF Forms.swrite f), fun l _ => val_fexcWritten ..,
      retires_of_done h.here (exec_swrite h) (if_pos hd) (room_nil rfl rfl rfl rfl)⟩
  case srng => exact retires_of_done h.here (exec_swrite h) (if_neg hd) (room_nil rfl rfl rfl rfl)
  case vrel => exact retires_of_done he (exec_vrel he place active) (if_neg vector) room
  case srel => exact retires_of_done he (exec_vrel he place active) (if_pos scalar) room
  case vzero => exact retires_of_done he (exec_vzero he place active) rfl room

end Sys2Proof.Machine
end

section
/-! SUPPORT. Operations that end: where the result of an operation that no path waits for is written (06_registers R123; 12_handles R230). -/

namespace Sys2Proof.Machine

open Sys2Proof

/-! ## Logs -/

theorem SameButLogs.refl (a : Hw) : SameButLogs a a := ⟨rfl, fun _ => .refl _⟩
theorem SameButLogs.trans {a b c : Hw} (h : SameButLogs a b) (k : SameButLogs b c) : SameButLogs a c :=
  ⟨by rw [k.rest, h.rest], fun p => (h.parts p).trans (k.parts p)⟩

/-- Logging what an operation does changes the logs alone (17_tail R334). -/
theorem logOp_frame (hw : Hw) (o : Op) (f : StepLog → StepLog) : SameButLogs hw (logOp hw o f) := by
  unfold logOp
  generalize bitList 16 o.paths = ps
  induction ps generalizing hw with
  | nil => exact .refl _
  | cons p ps ih => exact (logStep_frame ..).trans (ih _)

theorem logDest_frame (hw : Hw) (o : Op) : SameButLogs hw (logDest hw o) := logOp_frame ..

/-! ## Results that land -/

/-- An operation that ends, where no path of its gang waits for it, is gone, and its result lands in its destination. -/
theorem landOp_unawaited {s : State} {o : Op} {g : Gang} (hg : s.hw.gangs.look o.gk = some g) (unawaited : waiterOf g o.id = none)
    (v : Nat → Word) : landOp s o v = s.with (landDest (logDest (s.hw.endOp o.id) o) o.gk o.dst v) := by
  simp only [landOp, hg, unawaited]
  rfl

theorem onlyGang_endOp (hw : Hw) (id gk : Nat) : OnlyGang gk hw (hw.endOp id) := onlyGang_ops (.refl gk hw) _ hw.nextId hw.phys

section
variable {α : Type} (c : Nat → Bool) (v : Nat → α) (r : Nat)

/-- The lanes ls of register r in a table after a result landed: those that c releases are gone, the others hold their values. -/
def landedLanes (ls : List Nat) (t : Tab α) : Tab α :=
  ls.foldl (fun t l => if c l then t.del (32 * r + l) else t.ins (32 * r + l) (v l)) t

theorem look_landedLane (t : Tab α) (l k : Nat) : (if c l then t.del (32 * r + l) else t.ins (32 * r + l) (v l)).look k =
    if k = 32 * r + l then (if c l then none else some (v l)) else t.look k := by
  cases c l
  · exact Tab.look_ins ..
  · exact Tab.look_del ..

theorem landedLanes_frame (ls : List Nat) (t : Tab α) {k : Nat} (h : ∀ l ∈ ls, k ≠ 32 * r + l) :
    (landedLanes c v r ls t).look k = t.look k := by
  induction ls generalizing t with
  | nil => rfl
  | cons i ls ih =>
    obtain ⟨hi, h⟩ := List.forall_mem_cons.1 h
    exact (ih _ h).trans ((look_landedLane ..).trans (if_neg hi))

theorem landedLanes_mem {ls : List Nat} (t : Tab α) {l : Nat} (h : l ∈ ls) :
    (landedLanes c v r ls t).look (32 * r + l) = if c l then none else some (v l) := by
  induction ls generalizing t with
  | nil => cases h
  | cons i ls ih =>
    by_cases hl : l ∈ ls
    · exact ih _ hl
    · obtain rfl := (List.mem_cons.1 h).resolve_right hl
      refine (landedLanes_frame c v r ls _ fun j hj e => hl ?_).trans ((look_landedLane ..).trans (if_pos rfl))
      rwa [Nat.add_left_cancel e]
end

/-- Entries of a table changed one after another, each once. -/
theorem look_foldl_upd {α : Type} (f : Nat → α → α) {ks : List Nat} (hk : ks.Nodup) (t : Tab α) (k : Nat) :
    (ks.foldl (fun t k => t.upd k (f k)) t).look k = if k ∈ ks then (t.look k).map (f k) else t.look k := by
  induction ks generalizing t with
  | nil => rfl
  | cons i ks ih =>
    obtain ⟨hi, hk⟩ := List.nodup_cons.1 hk
    rw [List.foldl_cons, ih hk, Tab.look_upd]
    by_cases h : k = i
    · subst h; simp [hi]
    · simp [h]

/-- Paths of a gang changed one after another. -/
theorem foldl_setPath {gk : Nat} (f : Nat → Path → Path) (ps : List Nat) {a : Hw} {g : Gang} (h : a.gangs.look gk = some g) :
    GangAs gk a (ps.foldl (fun x p => setPath x gk p (f p)) a) g { g with paths := ps.foldl (fun t p => t.upd p (f p)) g.paths } ∧
      (ps.foldl (fun x p => setPath x gk p (f p)) a).ops = a.ops := by
  induction ps generalizing a g with
  | nil => exact ⟨.refl h, rfl⟩
  | cons p ps ih =>
    have first := gangAs_setGang (fun g => { g with paths := g.paths.upd p (f p) }) h
    obtain ⟨rest, ops⟩ := ih first.new
    exact ⟨first.trans rest, ops⟩

theorem mem_bitList {n v k : Nat} : k ∈ bitList n v ↔ k < n ∧ v.testBit k = true := by simp [bitList]
theorem bitList_nodup (n v : Nat) : (bitList n v).Nodup := List.nodup_range.filter _

/-- What a result for scalar r makes of path p: r is gone where rel releases it, else it holds x. -/
def landedScalar (r rel : Nat) (x : SReg) (p : Nat) (q : Path) : Path :=
  { q with sregs := if bit p rel then q.sregs.del r else q.sregs.ins r x }

theorem landedScalar_frame {r n : Nat} (h : n ≠ r) (rel : Nat) (x : SReg) (p : Nat) (q : Path) :
    (landedScalar r rel x p q).sregs.look n = q.sregs.look n := by
  unfold landedScalar
  cases bit p rel
  · exact Tab.look_ins_other _ _ h
  · exact Tab.look_del_other _ h

theorem landedScalar_held {rel p : Nat} (h : rel.testBit p = false) (r : Nat) (x : SReg) (q : Path) : (landedScalar r rel x p q).sr r = x.v := by
  simp [landedScalar, bit, h, Path.sr]

theorem landedScalar_released {rel p : Nat} (h : rel.testBit p = true) (r : Nat) (x : SReg) (q : Path) :
    (landedScalar r rel x p q).sregs.look r = none := by
  simp [landedScalar, bit, h]

section
variable {hw : Hw} {gk : Nat} {g : Gang} (hg : hw.gangs.look gk = some g)
include hg

/-- A vector result changes the lanes it reaches, and nothing else (R123). -/
theorem landDest_vec (r : Nat) (m rel : Lanes) (v : Nat → Word) : GangAs gk hw (landDest hw gk (.vec r m rel) v) g
    { g with vregs := landedLanes (inLanes rel) v r (lanes m) g.vregs } :=
  gangAs_setGang (fun g => { g with vregs := landedLanes (inLanes rel) v r (lanes m) g.vregs }) hg

/-- A scalar result changes the scalar of the paths it reaches, and nothing else (R123). -/
theorem landDest_scal (r ps rel : Nat) (v : Nat → Word) : ∃ x : SReg, x.v = v 0 ∧
    GangAs gk hw (landDest hw gk (.scal r ps rel) v) g
      { g with paths := (bitList 16 ps).foldl (fun t p => t.upd p (landedScalar r rel x p)) g.paths } ∧
    (landDest hw gk (.scal r ps rel) v).ops = hw.ops := by
  obtain ⟨A, ops⟩ := foldl_setPath (landedScalar r rel ⟨v 0, hw.phys⟩) (bitList 16 ps) hg
  exact ⟨⟨v 0, hw.phys⟩, rfl, ⟨onlyGang_ops A.only _ _ (hw.phys + 1), A.bare, hg, A.new⟩, ops⟩
end

/-- Settles O24: logging changes no register, and a result lands lane by lane, or path by path. -/
theorem operationEnds : Obligations.OperationEnds := by
  unfold Obligations.OperationEnds
  intro s o v g hg unawaited
  rw [landOp_unawaited hg unawaited]
  have L := logDest_frame (s.hw.endOp o.id) o
  have only := (onlyGang_endOp s.hw o.id o.gk).trans (L.only o.gk)
  have hg' := (congrArg (Tab.look · o.gk) L.gangs).trans hg
  refine ⟨rfl, rfl, ?_⟩
  cases hd : o.dst with
  | none => exact ⟨L.ops, only, g, hg', rfl, rfl, fun _ => rfl, nofun, nofun⟩
  | vec r m rel =>
    have A := landDest_vec hg' r m rel v
    refine ⟨L.ops, only.trans A.only, _, A.new, rfl, rfl, nofun, ?_, nofun⟩
    rintro _ _ _ ⟨⟩
    refine ⟨rfl, fun l _ hm hr => ?_, fun l _ hm hr => ?_, fun k hk => ?_⟩
    · exact (landedLanes_mem _ v r g.vregs (mem_lanes_iff.2 hm)).trans (if_neg (Bool.eq_false_iff.1 hr))
    · exact (landedLanes_mem _ v r g.vregs (mem_lanes_iff.2 hm)).trans (if_pos hr)
    · exact landedLanes_frame _ v r _ g.vregs fun l hl => hk l (mem_lanes.1 hl).1 (mem_lanes.1 hl).2
  | scal r ps rel =>
    obtain ⟨x, hx, A, ops⟩ := landDest_scal hg' r ps rel v
    refine ⟨ops.trans L.ops, only.trans A.only, _, A.new, rfl, rfl, nofun, nofun, ?_⟩
    rintro _ _ _ ⟨⟩
    refine ⟨rfl, fun p q hq => ?_⟩
    have look := look_foldl_upd (landedScalar r rel x) (bitList_nodup 16 ps) g.paths p
    rw [hq] at look
    by_cases hp : p ∈ bitList 16 ps
    · rw [if_pos hp] at look
      exact ⟨_, look, rfl, rfl, rfl, fun n hn => landedScalar_frame hn rel x p q,
        fun _ _ hr => (landedScalar_held hr r x q).trans hx, fun _ _ hr => landedScalar_released hr r x q,
        fun out => absurd (mem_bitList.1 hp).2 (Bool.eq_false_iff.1 out)⟩
    · rw [if_neg hp] at look
      exact ⟨q, look, rfl, rfl, rfl, fun _ _ => rfl, fun small reached => absurd (mem_bitList.2 ⟨small, reached⟩) hp,
        fun small reached => absurd (mem_bitList.2 ⟨small, reached⟩) hp, fun _ => rfl⟩

end Sys2Proof.Machine
end

section
/-! SUPPORT. Floating arithmetic: forms whose elements are each computed from their sources and rounded once (07_numbers R148-R153; 09_float
R173, R176, R179, R180, R189). -/

namespace Sys2Proof.Machine

open Sys2Proof

/-- A floating form whose elements are computed from their sources by q retires with them, and they meet what q meets (R173). -/
theorem byRounding_of_fpForm {fm : Form} {con : Fields → Instr} {P : Fields → Srcs → Word → Rnd → Prop}
    {q : Fields → Srcs → Word → Rnd} (hx : ∀ f s, exec (con f) s = fpForm fm f s fun e _ l j st => q f (srcs fm f e l j) st)
    (hP : ∀ f x st, P f x st (q f x st)) : ByRounding fm con P := fun f s e _ h room => by
  refine ⟨fun l j st => q f (srcs fm f e l j) st, fun l j st => hP f _ st, ?_⟩
  rw [Retires, hx]
  exact fpForm_done h (fun e _ l j st => q f (srcs fm f e l j) st) room

/-- A floating form whose elements are computed from their sources by q retires with what q gives. -/
theorem byRounding_eq {fm : Form} {con : Fields → Instr} {q : Fields → Srcs → Word → Rnd}
    (hx : ∀ f s, exec (con f) s = fpForm fm f s fun e _ l j st => q f (srcs fm f e l j) st) :
    ByRounding fm con fun f x st y => y = q f x st := byRounding_of_fpForm hx fun _ _ _ => rfl

/-- The addend of fma, element j: that of c in X, and of the old d in W (R180). -/
theorem subElem_addend (f : Fields) (e : Env) (l j : Nat) :
    subElem (Ty.width f.ty) j (if f.isX then e.vc (regsF Forms.fma f) l else e.vd (regsF Forms.fma f) l) =
      if f.isX then (srcs Forms.fma f e l j).c else (srcs Forms.fma f e l j).d := by
  cases f.isX <;> rfl

/-- What fma computes, element by element (R180). -/
theorem exec_fma (f : Fields) (s : State) : exec (.fma f) s = fpForm Forms.fma f s fun e _ l j st =>
    rndWith f.ty f.op st (exsumP [(fv f.ty (srcs Forms.fma f e l j).a, fv f.ty (srcs Forms.fma f e l j).b)]
      [fv f.ty (if f.isX then (srcs Forms.fma f e l j).c else (srcs Forms.fma f e l j).d)]) := by
  simp only [← subElem_addend]
  rfl

/-- Settles O3: each form's meaning is its exact result, rounded once by rndWith. -/
theorem floatArithmetic : Obligations.FloatArithmetic :=
  ⟨byRounding_eq fun _ _ => rfl, byRounding_eq fun _ _ => rfl, byRounding_eq fun _ _ => rfl, byRounding_eq exec_fma,
    byRounding_eq fun _ _ => rfl, byRounding_eq fun _ _ => rfl, byRounding_eq fun _ _ => rfl⟩

end Sys2Proof.Machine
end

section
/-! SUPPORT. Transcendental forms: the special cases of Table FP-4 (09_float R190). -/

namespace Sys2Proof.Machine

open Sys2Proof

/-! ## What a rounding leaves of the generator -/

/-- Only the stochastic mode draws (R148, R153). -/
theorem roundFin_s {mode : Nat} (hm : mode ≠ 4) (f : Fmt) (s : Word) (neg : Bool) (n : Nat) (e : Int) :
    (f.roundFin mode s neg n e).s = s := by
  simp only [Fmt.roundFin, hm, false_and, if_false, apply_ite Rnd.s, ite_self]

theorem round_s {mode : Nat} (hm : mode ≠ 4) (f : Fmt) (s : Word) (v : Val) : (f.round mode s v).s = s := by
  cases v with
  | nan => simp only [Fmt.round]; split <;> rfl
  | inf neg => simp only [Fmt.round]; split <;> rfl
  | fin neg n e =>
    simp only [Fmt.round]
    split
    · rfl
    · exact roundFin_s hm f s neg n e

theorem rndWith_s (t : Ty) (s : Word) (x : Val × Nat) : (rndWith t 0 s x).s = s := round_s (by decide) _ s x.1

/-! ## Results that the format holds -/

/-- Past .f32 a transcendental form rounds its value once (R190). -/
theorem transc_narrow {t : Ty} (h : t ≠ .f32) (form b inp : Nat) (st : Word) (y : Val) :
    transc t form b inp st y = rndWith t 0 st (y, 0) := by
  unfold transc
  split
  · exact absurd rfl h
  · rfl

theorem transc_s (t : Ty) (form b inp : Nat) (st : Word) (y : Val) : (transc t form b inp st y).s = st := by
  unfold transc
  split
  · split
    · exact rndWith_s _ st _
    · rfl
  · exact rndWith_s t st _

theorem transc_zero (t : Ty) (form b inp : Nat) (st : Word) (neg : Bool) (e : Int) :
    transc t form b inp st (.fin neg 0 e) = rndWith t 0 st (.fin neg 0 e, 0) := by
  by_cases h : t = .f32
  · subst h; rfl
  · exact transc_narrow h ..

/-- One of either sign is exact in .f32 in every mode. -/
theorem round_f32_one (mode : Nat) (s : Word) (neg : Bool) :
    (Ty.fmt .f32).round mode s (.fin neg 1 0) = ⟨(Ty.fmt .f32).sign neg 0x3F800000, 0, s⟩ := rfl

theorem transc_one (t : Ty) (form b inp : Nat) (st : Word) (neg : Bool) :
    transc t form b inp st (.fin neg 1 0) = rndWith t 0 st (.fin neg 1 0, 0) := by
  by_cases h : t = .f32
  · subst h
    simp only [transc, pickF32, rndWith, round_f32_one, if_true]
    rfl
  · exact transc_narrow h ..

/-! ## One divided by a value (Table FP-4) -/

theorem divVal_one_inf (neg : Bool) : divVal Val.one (.inf neg) = (.fin neg 0 0, 0) := by cases neg <;> rfl
theorem divVal_one_zero (neg : Bool) (e : Int) : divVal Val.one (.fin neg 0 e) = (.inf neg, fxDivZero) := by cases neg <;> rfl
/-- Dividing by a finite value that is not zero raises no flag of its own. -/
theorem divVal_one_fin {n : Nat} (hn : n ≠ 0) (neg : Bool) (e : Int) : (divVal Val.one (.fin neg n e)).2 = 0 := by
  simp only [divVal, Val.one, hn, if_false, one_ne_zero]

/-! ## The forms -/

/-- A one-source floating form whose elements g computes retires with them, and they meet what g meets. -/
theorem byRounding_of_fpOne {fm : Form} {con : Fields → Instr} {P : Fields → Srcs → Word → Rnd → Prop}
    {g : Fields → Nat → Word → Rnd} (hx : ∀ f s, exec (con f) s = fpOne fm f s (g f)) (hP : ∀ f x st, P f x st (g f x.a st)) :
    ByRounding fm con P :=
  byRounding_of_fpForm (q := fun f x st => g f x.a st) hx hP

/-- A form of positive sources answers at zero and at what is below it by itself; where none of its answers draws, it does not draw. -/
theorem positive_special {n : Nat} {neg : Bool} {st : Word} {zero below above : Rnd} (hz : zero.s = st) (hb : below.s = st)
    (ha : above.s = st) : (if n = 0 then zero else if neg then below else above).s = st ∧
      (n = 0 → (if n = 0 then zero else if neg then below else above) = zero) ∧
      (n ≠ 0 → neg = true → (if n = 0 then zero else if neg then below else above) = below) := by
  refine ⟨?_, fun hn => if_pos hn, fun hn sign => (if_neg hn).trans (if_pos sign)⟩
  split
  · exact hz
  · split
    · exact hb
    · exact ha

theorem exec_frcp (f : Fields) (s : State) : exec (.frcp f) s = execFrcp f s := rfl
theorem exec_frsq (f : Fields) (s : State) : exec (.frsq f) s = execFrsq f s := rfl
theorem exec_fexp2 (f : Fields) (s : State) : exec (.fexp2 f) s = execFexp2 f s := rfl
theorem exec_flog2 (f : Fields) (s : State) : exec (.flog2 f) s = execFlog2 f s := rfl
theorem exec_fsin (f : Fields) (s : State) : exec (.fsin f) s = execFsin f s := rfl
theorem exec_fcos (f : Fields) (s : State) : exec (.fcos f) s = execFcos f s := rfl
theorem exec_ftanh (f : Fields) (s : State) : exec (.ftanh f) s = execFtanh f s := rfl

end Sys2Proof.Machine
end

section
/-! SUPPORT. Several elements of a lane: each rounded in order with the lane's generator, the word they make, and what a form writes
that computes one (07_numbers R153; 09_float R173). -/

namespace Sys2Proof.Machine

open Sys2Proof

/-! ## The elements of a lane -/

/-- The generator state that element i of a lane draws from, where g rounds the elements in ascending order from state s (R153). -/
def drawn (g : Nat → Word → Rnd) (s : Word) : Nat → Word
  | 0 => s
  | i + 1 => (g i (drawn g s i)).s

/-- Element i of a lane, rounded. -/
def rounded (g : Nat → Word → Rnd) (s : Word) (i : Nat) : Rnd := g i (drawn g s i)

theorem calcElems_eq (n : Nat) (g : Nat → Word → Rnd) (s : Word) : calcElems n g s =
    ⟨(List.range n).map fun i => (rounded g s i).code, ((List.range n).map fun i => (rounded g s i).fx).foldl (· ||| ·) 0,
      drawn g s n⟩ := by
  induction n with
  | zero => rfl
  | succ n ih =>
    unfold calcElems at ih ⊢
    rw [List.range_succ, List.foldl_append, ih]
    simp [rounded, drawn]

/-- Element i draws from the lane's own state, or from what the element before it left. -/
theorem drawn_eq (g : Nat → Word → Rnd) (s : Word) (i : Nat) : drawn g s i = if i = 0 then s else (rounded g s (i - 1)).s := by
  cases i <;> rfl

/-- Where no element draws, all are rounded from the same state. -/
theorem rounded_undrawn {g : Nat → Word → Rnd} (h : ∀ i st, (g i st).s = st) (s : Word) (i : Nat) : rounded g s i = g i s := by
  have still : drawn g s i = s := by
    induction i with
    | zero => rfl
    | succ i ih => rw [drawn, h, ih]
  rw [rounded, still]

theorem codes_calcElems {n i : Nat} (hi : i < n) (g : Nat → Word → Rnd) (s : Word) :
    (calcElems n g s).codes.getD i 0 = (rounded g s i).code := by
  simp [calcElems_eq, List.getD, hi]

/-- An element of the word that the elements of a lane make. -/
theorem subElem_calcElems {w n i : Nat} (hw : 0 < w) (hn : w * n ≤ 64) (hi : i < n) (g : Nat → Word → Rnd) (s : Word) :
    subElem w i (word (packElems w (calcElems n g s).codes)) = (rounded g s i).code % 2 ^ w := by
  have hl : (calcElems n g s).codes.length = n := by simp [calcElems_eq]
  rw [subElem_pack hw _ (by rwa [hl]) i (by rwa [hl]), codes_calcElems hi]

/-- An element of such a word where none draws. -/
theorem subElem_undrawn {w n i : Nat} (hw : 0 < w) (hn : w * n ≤ 64) (hi : i < n) {g : Nat → Word → Rnd}
    (h : ∀ i st, (g i st).s = st) (s : Word) :
    subElem w i (word (packElems w (calcElems n g s).codes)) = (g i s).code % 2 ^ w := by
  rw [subElem_calcElems hw hn hi, rounded_undrawn h]

/-! ## What such a form writes -/

/-- A lane's elements of width w as the word they make, with their flags and the generator state they leave. -/
def packed (w : Nat) (c : Calc) : Word × Nat × Word := (word (packElems w c.codes), c.fx, c.s)

theorem roundedWrites_eq (f : Fields) (e : Env) (r : Regs) (g : Nat → Nat → Word → Rnd) : roundedWrites f e r g =
    calcWrites e r fun l => packed (Ty.width f.ty) (calcElems (64 / Ty.width f.ty) (g l) (e.g.rng l)) := rfl

/-- Room depends on where results go, not on what they are. -/
theorem room_calcWrites {e : Env} {r : Regs} {c : Nat → Word × Nat × Word} (h : Room e r (calcWrites e r c) e.hw)
    (c' : Nat → Word × Nat × Word) : Room e r (calcWrites e r c') e.hw := by
  refine (room_congr ?_ ?_ ?_).1 h <;> simp only [calcWrites] <;> split <;> simp [Function.comp_def]

/-- Room for d is room for results in d of the class that CLASS gives it. -/
theorem room_calcWrites_of_roomD {e : Env} {fm : Form} {f : Fields} (hd : (fm.sh f).d = dCls f) (h : RoomD e (regsF fm f))
    (c : Nat → Word × Nat × Word) : Room e (regsF fm f) (calcWrites e (regsF fm f) c) e.hw := by
  have hr : (regsF fm f).sh.d = .s ∨ (regsF fm f).sh.d = .v := by
    rw [show (regsF fm f).sh.d = dCls f from hd, dCls]
    split <;> simp
  rcases hr with hr | hr <;> refine (room_congr ?_ ?_ ?_).1 h <;> simp [calcWrites, Env.put, Env.work, hr, Function.comp_def]

/-- A form whose body is done with writes w retires with them. -/
theorem retires_of_issueF {i : Instr} {fm : Form} {f : Fields} {s : State} {e : Env} {body : Env → Regs → Res} {w : Writes}
    (h : Issues fm f s e) (hx : exec i s = issueF fm f s body) (hb : body e (regsF fm f) = .done w e.hw)
    (room : Room e (regsF fm f) w e.hw) : Retires i s e (regsF fm f) w e.hw :=
  retires_of_done h.here (hx.trans (issueF_ok h body)) hb room

/-- A floating form retires wherever there is room for its destination. -/
theorem completes_of_fpForm {fm : Form} {con : Fields → Instr} {g : Fields → Env → Regs → Nat → Nat → Word → Rnd}
    (hx : ∀ f s, exec (con f) s = fpForm fm f s (g f)) (hd : ∀ f, (fm.sh f).d = dCls f) : Completes fm con := fun f s e _ h room => by
  rw [hx]
  refine ⟨_, fpForm_done h (g f) ?_⟩
  rw [roundedWrites_eq]
  exact room_calcWrites_of_roomD (hd f) room _

theorem completes_of_fpOne {fm : Form} {con : Fields → Instr} {g : Fields → Nat → Word → Rnd}
    (hx : ∀ f s, exec (con f) s = fpOne fm f s (g f)) (hd : ∀ f, (fm.sh f).d = dCls f) : Completes fm con :=
  completes_of_fpForm (g := fun f e r l i st => g f (subElem (Ty.width f.ty) i (e.va r l)) st) hx hd

/-! ## fdot -/

/-- The .f32 sum of half j of lane l, with its addend (R183). -/
def dotSum (f : Fields) (e : Env) (l : Nat) : Nat → Word → Rnd := fun j st =>
  let r := regsF Forms.fdot f
  let w := Ty.width f.ty
  let q := 64 / w / 2
  rndWith .f32 f.op st (exsumP ((List.range q).map fun i =>
    (fv f.ty (subElem w (j * q + i) (e.va r l)), fv f.ty (subElem w (j * q + i) (e.vb r f l))))
    [fv .f32 (subElem 32 j (if f.isX then e.vc r l else e.vd r l))])

/-- What fdot writes to lane l, with its flags and what it leaves of the generator. -/
def dotResult (f : Fields) (e : Env) (l : Nat) : Word × Nat × Word := packed 32 (calcElems 2 (dotSum f e l) (e.g.rng l))

theorem exec_fdot (f : Fields) (s : State) : exec (.fdot f) s = execFdot f s := rfl

theorem fdot_retires {f : Fields} {s : State} {e : Env} (h : Issues Forms.fdot f s e)
    (room : Room e (regsF Forms.fdot f) (calcWrites e (regsF Forms.fdot f) (dotResult f e)) e.hw) :
    Retires (.fdot f) s e (regsF Forms.fdot f) (calcWrites e (regsF Forms.fdot f) (dotResult f e)) e.hw := by
  refine retires_of_issueF h (exec_fdot f s) ?_ room
  simp only [calcWrites, List.map_map, Function.comp_def]
  cases (regsF Forms.fdot f).sh.d <;> rfl

theorem fdot_completes : Completes Forms.fdot .fdot := fun f _ _ _ h room => by
  have hd : (Forms.fdot.sh f).d = dCls f := by
    simp only [Forms.fdot, Forms.shAcc]
    split <;> rfl
  exact ⟨_, fdot_retires h (room_calcWrites_of_roomD hd room _)⟩

/-- The flags of a lane of two elements are those of both. -/
theorem calcElems_two_fx (g : Nat → Word → Rnd) (s : Word) : (calcElems 2 g s).fx = (rounded g s 0).fx ||| (rounded g s 1).fx := by
  rw [calcElems_eq]
  simp [List.range_succ]

end Sys2Proof.Machine
end

section
/-! SUPPORT. Conversions: cvt, element by element (09_float R184, R185; 07_numbers R156). -/

namespace Sys2Proof.Machine

open Sys2Proof

/-! ## One element -/

section
variable {st dt : Ty} {opt : Nat} {s : Word} {x : Nat}

theorem convElem_float_float (hd : Ty.isFloat dt = true) (hs : Ty.isFloat st = true) :
    convElem st dt opt s x = (Ty.fmt dt).round opt s (fv st x) := by
  simp only [convElem, Ty.val, hd, hs, if_true, fv]

theorem convElem_int_float (hd : Ty.isFloat dt = true) (hs : Ty.isFloat st = false) :
    convElem st dt opt s x = (Ty.fmt dt).round opt s (Val.ofInt (Ty.int st x)) := by
  simp only [convElem, Ty.val, hd, hs, if_true, Bool.false_eq_true, if_false]

theorem convElem_float_int (hd : Ty.isFloat dt = false) (hs : Ty.isFloat st = true) : convElem st dt opt s x = toInt dt opt s (fv st x) := by
  simp only [convElem, hd, hs, if_true, Bool.false_eq_true, if_false]

theorem convElem_int_int (hd : Ty.isFloat dt = false) (hs : Ty.isFloat st = false) :
    convElem st dt opt s x = ⟨trunc (if opt = 1 then sat (Ty.int st x) dt else Ty.int st x) (Ty.width dt), 0, s⟩ := by
  simp only [convElem, hd, hs, Bool.false_eq_true, if_false]

end

theorem sat_of_mem {v : Int} {t : Ty} (h : ¬ (v < Ty.least t ∨ Ty.most t < v)) : sat v t = v := by
  rw [not_or] at h
  rw [sat, if_neg h.1, if_neg h.2]

/-- A finite value becomes the integer it rounds to, clamped; one that is clamped is invalid, and else one that changed is inexact (R156). -/
theorem toInt_fin (t : Ty) (mode : Nat) (s : Word) (neg : Bool) (n : Nat) (e : Int) :
    toInt t mode s (.fin neg n e) =
      let i := roundInt mode s neg n e
      let v : Int := if neg then -(i.1 : Int) else i.1
      ⟨trunc (sat v t) (Ty.width t), if v < Ty.least t ∨ Ty.most t < v then fxInvalid else if i.2.1 then fxInexact else 0, i.2.2⟩ := by
  simp only [toInt]
  generalize (if neg then -((roundInt mode s neg n e).1 : Int) else (roundInt mode s neg n e).1) = v
  by_cases h : v < Ty.least t ∨ Ty.most t < v
  · rw [if_pos h, if_pos h]
  · rw [if_neg h, if_neg h, sat_of_mem h]

/-! ## A lane -/

theorem width_le (t : Ty) : Ty.width t ≤ 64 := by cases t <;> decide

/-- The width of the elements that cvt converts. -/
def srcWidth (f : Fields) : Nat := Ty.width (Forms.srcTy (bits 5 0 (regsF Forms.cvt f).b))
/-- The part of d that a narrowing conversion writes, or of a that a widening one reads (R184). -/
def cvtPart (f : Fields) : Nat := bits 8 6 (regsF Forms.cvt f).b
/-- How many elements cvt converts in a lane. -/
def cvtCount (f : Fields) : Nat := 64 / max (srcWidth f) (Ty.width f.ty)

/-- Element i of what cvt converts in lane l (R184). -/
def cvtElem (f : Fields) (e : Env) (l : Nat) : Nat → Word → Rnd := fun i s =>
  let r := regsF Forms.cvt f
  convElem (Forms.srcTy (bits 5 0 r.b)) f.ty f.op s
    (subElem (srcWidth f) (if srcWidth f < Ty.width f.ty then cvtPart f * cvtCount f + i else i) (e.va r l))

/-- What cvt writes to lane l, with its flags and what it leaves of the generator. -/
def cvtResult (f : Fields) (e : Env) (l : Nat) : Word × Nat × Word :=
  let r := regsF Forms.cvt f
  cvtLane (Forms.srcTy (bits 5 0 r.b)) f.ty f.op (bits 8 6 r.b) (e.va r l) (e.vd r l) (e.g.rng l)

theorem exec_cvt (f : Fields) (s : State) : exec (.cvt f) s = execCvt f s := rfl

theorem cvt_retires {f : Fields} {s : State} {e : Env} (h : Issues Forms.cvt f s e)
    (room : Room e (regsF Forms.cvt f) (calcWrites e (regsF Forms.cvt f) (cvtResult f e)) e.hw) :
    Retires (.cvt f) s e (regsF Forms.cvt f) (calcWrites e (regsF Forms.cvt f) (cvtResult f e)) e.hw := by
  refine retires_of_issueF h (exec_cvt f s) ?_ room
  simp only [calcWrites, List.map_map, Function.comp_def]
  cases (regsF Forms.cvt f).sh.d <;> rfl

theorem cvt_completes : Completes Forms.cvt .cvt := fun _ _ _ _ h room => ⟨_, cvt_retires h (room_calcWrites_of_roomD rfl room _)⟩

section
variable {f : Fields} {e : Env} {l i : Nat}

theorem cvtCount_pos (f : Fields) : 0 < cvtCount f :=
  Nat.div_pos (max_le (width_le _) (width_le _)) (lt_max_of_lt_right (width_pos f.ty))

/-- A widening conversion makes d of its elements. -/
theorem cvtResult_widened (wide : srcWidth f < Ty.width f.ty) :
    (cvtResult f e l).1 = word (packElems (Ty.width f.ty) (calcElems (cvtCount f) (cvtElem f e l) (e.g.rng l)).codes) := if_pos wide

/-- Any other conversion puts its elements in their part of the old d. -/
theorem cvtResult_placed (narrow : ¬ srcWidth f < Ty.width f.ty) : (cvtResult f e l).1 = mapElems (Ty.width f.ty) fun i =>
    if cvtPart f * cvtCount f ≤ i ∧ i < cvtPart f * cvtCount f + cvtCount f then
      (calcElems (cvtCount f) (cvtElem f e l) (e.g.rng l)).codes.getD (i - cvtPart f * cvtCount f) 0
    else subElem (Ty.width f.ty) i (e.vd (regsF Forms.cvt f) l) := if_neg narrow

theorem subElem_cvtResult_widened (wide : srcWidth f < Ty.width f.ty) (hi : i < cvtCount f) :
    subElem (Ty.width f.ty) i (cvtResult f e l).1 = (rounded (cvtElem f e l) (e.g.rng l) i).code % 2 ^ Ty.width f.ty := by
  rw [cvtResult_widened wide]
  have fits : Ty.width f.ty * cvtCount f ≤ 64 := (Nat.mul_le_mul_right _ (le_max_right ..)).trans (Nat.mul_div_le 64 _)
  exact subElem_calcElems (width_pos f.ty) fits hi ..

theorem subElem_cvtResult_part (narrow : ¬ srcWidth f < Ty.width f.ty) (hi : i < cvtCount f)
    (within : cvtPart f * cvtCount f + i < 64 / Ty.width f.ty) :
    subElem (Ty.width f.ty) (cvtPart f * cvtCount f + i) (cvtResult f e l).1 =
      (rounded (cvtElem f e l) (e.g.rng l) i).code % 2 ^ Ty.width f.ty := by
  rw [cvtResult_placed narrow, subElem_mapElems (width_pos f.ty) within, if_pos ⟨Nat.le_add_right .., Nat.add_lt_add_left hi _⟩,
    Nat.add_sub_cancel_left, codes_calcElems hi]

theorem subElem_cvtResult_kept (narrow : ¬ srcWidth f < Ty.width f.ty) (hi : i < 64 / Ty.width f.ty)
    (out : i < cvtPart f * cvtCount f ∨ cvtPart f * cvtCount f + cvtCount f ≤ i) :
    subElem (Ty.width f.ty) i (cvtResult f e l).1 = subElem (Ty.width f.ty) i (e.vd (regsF Forms.cvt f) l) := by
  rw [cvtResult_placed narrow, subElem_mapElems (width_pos f.ty) hi, if_neg (by omega), Nat.mod_eq_of_lt (subElem_lt (width_pos f.ty) _)]

/-- Element i is put at its place in d, where d has that place. -/
theorem subElem_cvtResult (hi : i < cvtCount f) :
    subElem (Ty.width f.ty) (if srcWidth f < Ty.width f.ty then i else cvtPart f * cvtCount f + i) (cvtResult f e l).1 =
      if srcWidth f < Ty.width f.ty ∨ cvtPart f * cvtCount f + i < 64 / Ty.width f.ty then
        (rounded (cvtElem f e l) (e.g.rng l) i).code % 2 ^ Ty.width f.ty
      else subElem (Ty.width f.ty) (cvtPart f * cvtCount f + i) (cvtResult f e l).1 := by
  by_cases wide : srcWidth f < Ty.width f.ty
  · rw [if_pos wide, if_pos (.inl wide), subElem_cvtResult_widened wide hi]
  · rw [if_neg wide]
    split
    case isTrue within => exact subElem_cvtResult_part wide hi (within.resolve_left wide)
    case isFalse => rfl

/-- A lane's generator is left as the last element leaves it. -/
theorem cvtResult_s (f : Fields) (e : Env) (l : Nat) :
    (cvtResult f e l).2.2 = (rounded (cvtElem f e l) (e.g.rng l) (cvtCount f - 1)).s := by
  have last : (cvtResult f e l).2.2 = drawn (cvtElem f e l) (e.g.rng l) (cvtCount f) := congrArg Calc.s (calcElems_eq ..)
  rw [last, drawn_eq, if_neg (cvtCount_pos f).ne']

end

end Sys2Proof.Machine
end

section
/-! SUPPORT. Block-scaled conversions: cvtq and cvtdq, their scales and what they write (09_float R187, R188; 07_numbers R145). -/

namespace Sys2Proof.Machine

open Sys2Proof

/-! ## The scale of a block -/

/-- Whether a value is NaN or infinite. -/
def isSpecial : Val → Bool
  | .fin .. => false
  | _ => true

/-- The exponent of the leading bit of a value that is finite and not zero. -/
def leadExp : Val → Option Int
  | .fin _ n e => if n = 0 then none else some ((Nat.log2 n : Int) + e)
  | _ => none

/-- The scale byte for the greatest exponent among those of a block's values (R187). -/
def scaleByte (emax : Int) : List Int → Nat
  | [] => 127
  | g :: gs =>
    let v := gs.foldl (fun (m : Int) x => if m < x then x else m) g - emax + 127
    if v < 0 then 0 else if 254 < v then 254 else v.toNat

theorem isSpecial_iff {v : Val} : isSpecial v = true ↔ ∀ neg n e, v ≠ .fin neg n e := by
  cases v <;> simp [isSpecial]

theorem blockScale_eq (emax : Int) (xs : List Val) :
    blockScale emax xs = if xs.any isSpecial then 0xFF else scaleByte emax (xs.filterMap leadExp) := by
  rfl

/-- The scale byte comes from the greatest exponent, clamped. -/
theorem scaleByte_greatest {emax m : Int} {es : List Int} (hm : m ∈ es) (le : ∀ y ∈ es, y ≤ m) :
    (scaleByte emax es : Int) = max 0 (min (m - emax + 127) 254) := by
  cases es with
  | nil => simp at hm
  | cons g gs =>
    have greatest : gs.foldl (fun (m : Int) x => if m < x then x else m) g = m := by
      have fold : (fun (m : Int) x => if m < x then x else m) = max := by
        funext a b
        rw [max_def_lt]
      have := List.max?_eq_some_iff.2 ⟨hm, le⟩
      rw [List.max?_cons', Option.some.injEq] at this
      rw [fold, this]
    simp only [scaleByte, greatest]
    split
    · omega
    · split <;> omega

/-! ## Writes of a list of lanes -/

theorem lastWrite_append {α : Type} (a b : List (Nat × α)) (k : Nat) : lastWrite (a ++ b) k = (lastWrite b k).or (lastWrite a k) := by
  simp [lastWrite, List.find?_append, Option.map_or]

theorem lastWrite_absent {α : Type} {l : List (Nat × α)} {k : Nat} (h : ∀ x ∈ l, x.1 ≠ k) : lastWrite l k = none := by
  simpa [lastWrite] using fun a b hab => h (a, b) hab

/-- A register written in some lanes holds in each of them what was written there. -/
theorem lastWrite_lane {α : Type} {ls : List Nat} {l : Nat} (h : l ∈ ls) (d : Nat) (v : Nat → α) :
    lastWrite (ls.map fun l => (32 * d + l, v l)) (32 * d + l) = some (v l) := by
  induction ls with
  | nil => simp at h
  | cons k ks ih =>
    rw [List.map_cons, lastWrite_cons]
    by_cases hk : l ∈ ks
    · rw [ih hk]
    · obtain rfl := (List.mem_cons.1 h).resolve_right hk
      rw [lastWrite_absent (by simpa using fun a ha (e : a = l) => hk (e ▸ ha))]
      exact if_pos rfl

/-- What is written in lanes of one register is written in no other. -/
theorem lastWrite_other {α : Type} {ls : List Nat} {c d l : Nat} (hls : ∀ k ∈ ls, k < 32) (hl : l < 32) (h : c ≠ d) (v : Nat → α) :
    lastWrite (ls.map fun l => (32 * c + l, v l)) (32 * d + l) = none := by
  refine lastWrite_absent fun x hx => ?_
  obtain ⟨k, hk, rfl⟩ := List.mem_map.1 hx
  have := hls k hk
  dsimp only
  omega

/-! ## cvtq -/

theorem acts_lt {e : Env} {l : Nat} (h : l ∈ e.acts) : l < 32 := inLanes_lt (mem_acts.1 h)

/-- The source type that a block-scaled conversion names (R187, R188). -/
def mxSource (f : Fields) : Ty := Forms.srcTy (bits 13 8 f.imm)
/-- How many elements a lane of cvtq's source holds. -/
def cvtqFrom (f : Fields) : Nat := 64 / Ty.width (mxSource f)
/-- How many elements a lane of cvtq's destination holds. -/
def cvtqInto (f : Fields) : Nat := 64 / Ty.width (mxElem f.ty)
/-- The first element of the part of d that cvtq writes. -/
def cvtqBase (f : Fields) : Nat := bits 2 0 f.imm * (32 * cvtqFrom f)

/-- Element i of cvtq's source. -/
def cvtqVal (f : Fields) (e : Env) (i : Nat) : Val :=
  fv (mxSource f) (subElem (Ty.width (mxSource f)) (i % cvtqFrom f) (e.g.v (regsF Forms.cvtq f).a (i / cvtqFrom f)))
/-- The values of block b. -/
def cvtqBlock (f : Fields) (e : Env) (b : Nat) : List Val := (List.range 32).map fun i => cvtqVal f e (32 * b + i)
/-- The scale byte of block b, of those that are converted. -/
def cvtqScale (f : Fields) (e : Env) (b : Nat) : Nat :=
  ((List.range (cvtqFrom f)).map fun b => blockScale (if f.ty = .mx8 then 8 else 2) (cvtqBlock f e b)).getD b 0
/-- Element i of lane l of d, of those that cvtq writes. -/
def cvtqElem (f : Fields) (e : Env) (l : Nat) : Nat → Word → Rnd := fun i s =>
  let j := l * cvtqInto f + i - cvtqBase f
  if cvtqScale f e (j / 32) = 0xFF then ⟨0, (match cvtqVal f e j with | .fin .. => 0 | _ => fxInvalid), s⟩
  else (Ty.fmt (mxElem f.ty)).round f.op s ((cvtqVal f e j).scale (127 - (cvtqScale f e (j / 32) : Int)))
/-- The active lanes of d that cvtq writes. -/
def cvtqLanes (f : Fields) (e : Env) : List Nat := e.acts.filter fun l =>
  decide (cvtqBase f / cvtqInto f ≤ l) && decide (l < cvtqBase f / cvtqInto f + 32 * cvtqFrom f / cvtqInto f)
/-- Lane l of the scales after cvtq. -/
def cvtqScales (f : Fields) (e : Env) (l : Nat) : Word :=
  if l < 32 * cvtqInto f / 32 / 8 then
    mapElems 8 fun i => if cvtqBase f / 32 ≤ 8 * l + i ∧ 8 * l + i < cvtqBase f / 32 + cvtqFrom f then
        cvtqScale f e (8 * l + i - cvtqBase f / 32)
      else subElem 8 i (e.g.v (regsF Forms.cvtq f).c l)
  else 0

theorem cvtqWrites_v (f : Fields) (e : Env) : (cvtqWrites f e (regsF Forms.cvtq f)).v =
    ((cvtqLanes f e).map fun l => (32 * (regsF Forms.cvtq f).d + l,
      word (packElems (Ty.width (mxElem f.ty)) (calcElems (cvtqInto f) (cvtqElem f e l) (e.g.rng l)).codes))) ++
    e.acts.map fun l => (32 * (regsF Forms.cvtq f).c + l, cvtqScales f e l) := by
  simp only [cvtqWrites, List.map_map]
  rfl

theorem exec_cvtq (f : Fields) (s : State) : exec (.cvtq f) s = execCvtq f s := rfl

theorem cvtq_retires {f : Fields} {s : State} {e : Env} (h : Issues Forms.cvtq f s e)
    (room : Room e (regsF Forms.cvtq f) (cvtqWrites f e (regsF Forms.cvtq f)) e.hw) :
    Retires (.cvtq f) s e (regsF Forms.cvtq f) (cvtqWrites f e (regsF Forms.cvtq f)) e.hw :=
  retires_of_issueF h (exec_cvtq f s) rfl room

section
variable {f : Fields} {e : Env} {b l i : Nat}

theorem cvtqScale_eq (hb : b < cvtqFrom f) : cvtqScale f e b = if (cvtqBlock f e b).any isSpecial then 0xFF
    else scaleByte (if f.ty = .mx8 then 8 else 2) ((cvtqBlock f e b).filterMap leadExp) := by
  rw [← blockScale_eq]
  simp [cvtqScale, List.getD, hb]

theorem mem_cvtqBlock {v : Val} : v ∈ cvtqBlock f e b ↔ ∃ i, i < 32 ∧ cvtqVal f e (32 * b + i) = v := by
  simp [cvtqBlock]

/-- A block that holds a NaN or an infinity has the scale of no number. -/
theorem cvtqScale_special (hb : b < cvtqFrom f) (h : ∃ i, i < 32 ∧ ∀ neg n g, cvtqVal f e (32 * b + i) ≠ .fin neg n g) :
    cvtqScale f e b = 0xFF := by
  obtain ⟨i, hi, hv⟩ := h
  rw [cvtqScale_eq hb, if_pos (List.any_eq_true.2 ⟨_, mem_cvtqBlock.2 ⟨i, hi, rfl⟩, isSpecial_iff.2 hv⟩)]

/-- Any other block's scale is that of its greatest exponent. -/
theorem cvtqScale_finite (hb : b < cvtqFrom f) (h : ∀ i, i < 32 → ¬ ∀ neg n g, cvtqVal f e (32 * b + i) ≠ .fin neg n g) :
    cvtqScale f e b = scaleByte (if f.ty = .mx8 then 8 else 2) ((cvtqBlock f e b).filterMap leadExp) := by
  rw [cvtqScale_eq hb, if_neg]
  rw [List.any_eq_true]
  rintro ⟨v, hv, special⟩
  obtain ⟨i, hi, rfl⟩ := mem_cvtqBlock.1 hv
  exact h i hi (isSpecial_iff.1 special)

theorem mem_leadExps {y : Int} : y ∈ (cvtqBlock f e b).filterMap leadExp ↔
    ∃ i, i < 32 ∧ leadExp (cvtqVal f e (32 * b + i)) = some y := by
  simp [cvtqBlock, List.mem_filterMap]

theorem cvtqScale_zeros (hb : b < cvtqFrom f) (h : ∀ i, i < 32 → ¬ ∀ neg n g, cvtqVal f e (32 * b + i) ≠ .fin neg n g)
    (hz : ∀ i, i < 32 → leadExp (cvtqVal f e (32 * b + i)) = none) : cvtqScale f e b = 127 := by
  have none : (cvtqBlock f e b).filterMap leadExp = [] := List.eq_nil_iff_forall_not_mem.2 fun y hy => by
    obtain ⟨i, hi, hs⟩ := mem_leadExps.1 hy
    cases (hz i hi).symm.trans hs
  rw [cvtqScale_finite hb h, none, scaleByte]

theorem cvtqScale_greatest (hb : b < cvtqFrom f) (h : ∀ i, i < 32 → ¬ ∀ neg n g, cvtqVal f e (32 * b + i) ≠ .fin neg n g) {m : Int}
    (hm : ∃ i, i < 32 ∧ leadExp (cvtqVal f e (32 * b + i)) = some m)
    (le : ∀ i y, i < 32 → leadExp (cvtqVal f e (32 * b + i)) = some y → y ≤ m) :
    (cvtqScale f e b : Int) = max 0 (min (m - (if f.ty = .mx8 then 8 else 2) + 127) 254) := by
  rw [cvtqScale_finite hb h]
  refine scaleByte_greatest (mem_leadExps.2 hm) fun y hy => ?_
  obtain ⟨i, hi, hs⟩ := mem_leadExps.1 hy
  exact le i y hi hs

/-- Past the part of d that it converts to, cvtq writes nothing of d. -/
theorem cvtqWrites_outside (hc : (regsF Forms.cvtq f).c ≠ (regsF Forms.cvtq f).d) (hl : l < 32)
    (out : l < cvtqBase f / cvtqInto f ∨ cvtqBase f / cvtqInto f + 32 * cvtqFrom f / cvtqInto f ≤ l) :
    lastWrite (cvtqWrites f e (regsF Forms.cvtq f)).v (32 * (regsF Forms.cvtq f).d + l) = none := by
  rw [cvtqWrites_v, lastWrite_append, lastWrite_other (fun _ => acts_lt) hl hc, Option.none_or]
  refine lastWrite_absent fun x hx same => ?_
  obtain ⟨k, hk, rfl⟩ := List.mem_map.1 hx
  obtain rfl : k = l := by simpa using same
  simp only [cvtqLanes, List.mem_filter, Bool.and_eq_true, decide_eq_true_eq] at hk
  omega

/-- Within that part it writes each active lane. -/
theorem cvtqWrites_inside (hc : (regsF Forms.cvtq f).c ≠ (regsF Forms.cvtq f).d) (ha : inLanes e.act l = true)
    (lo : cvtqBase f / cvtqInto f ≤ l) (hi : l < cvtqBase f / cvtqInto f + 32 * cvtqFrom f / cvtqInto f) :
    lastWrite (cvtqWrites f e (regsF Forms.cvtq f)).v (32 * (regsF Forms.cvtq f).d + l) =
      some (word (packElems (Ty.width (mxElem f.ty)) (calcElems (cvtqInto f) (cvtqElem f e l) (e.g.rng l)).codes)) := by
  have hm : l ∈ cvtqLanes f e := List.mem_filter.2 ⟨mem_acts.2 ha, by simp [lo, hi]⟩
  rw [cvtqWrites_v, lastWrite_append, lastWrite_other (fun _ => acts_lt) (inLanes_lt ha) hc, Option.none_or, lastWrite_lane hm]

theorem cvtqWrites_scales (ha : inLanes e.act l = true) :
    lastWrite (cvtqWrites f e (regsF Forms.cvtq f)).v (32 * (regsF Forms.cvtq f).c + l) = some (cvtqScales f e l) := by
  rw [cvtqWrites_v, lastWrite_append, lastWrite_lane (mem_acts.2 ha), Option.some_or]

/-- In every mode but the stochastic one the elements of a lane are rounded from one state. -/
theorem cvtqElem_undrawn (hop : f.op ≠ 4) (i : Nat) (s : Word) : (cvtqElem f e l i s).s = s := by
  simp only [cvtqElem]
  split
  · rfl
  · exact round_s hop ..

/-- Element i of lane l of d, the element j of the source: zero in a block of no number, else the source rounded to its block's scale. -/
theorem subElem_cvtqElem (hop : f.op ≠ 4) (hi : i < cvtqInto f) : subElem (Ty.width (mxElem f.ty)) i
    (word (packElems (Ty.width (mxElem f.ty)) (calcElems (cvtqInto f) (cvtqElem f e l) (e.g.rng l)).codes)) =
      let j := l * cvtqInto f + i - cvtqBase f
      if cvtqScale f e (j / 32) = 0xFF then 0
      else ((Ty.fmt (mxElem f.ty)).round f.op (e.g.rng l) ((cvtqVal f e j).scale (127 - (cvtqScale f e (j / 32) : Int)))).code %
        2 ^ Ty.width (mxElem f.ty) := by
  rw [subElem_undrawn (n := cvtqInto f) (width_pos _) (Nat.mul_div_le ..) hi (cvtqElem_undrawn hop)]
  simp only [cvtqElem]
  split
  · exact Nat.zero_mod _
  · rfl

/-- A byte of the scales: that of a block that is converted, the old one of any other, and zero past them all. -/
theorem subElem_cvtqScales (hi : i < 8) : subElem 8 i (cvtqScales f e l) = if cvtqInto f / 8 ≤ l then 0
    else if cvtqBase f / 32 ≤ 8 * l + i ∧ 8 * l + i < cvtqBase f / 32 + cvtqFrom f then cvtqScale f e (8 * l + i - cvtqBase f / 32) % 256
    else subElem 8 i (e.g.v (regsF Forms.cvtq f).c l) := by
  rw [cvtqScales, Nat.mul_div_cancel_left _ (by decide)]
  by_cases past : cvtqInto f / 8 ≤ l
  · rw [if_neg (by omega), if_pos past]
    simp [subElem, bits]
  · rw [if_pos (by omega), if_neg past, subElem_mapElems (by decide) hi]
    split
    · rfl
    · exact Nat.mod_eq_of_lt (subElem_lt (by decide) _)

end

/-! ## cvtdq -/

/-- Element i of lane l of d after cvtdq (R188). -/
def cvtdqElem (f : Fields) (e : Env) (l : Nat) : Nat → Word → Rnd := fun i s =>
  let r := regsF Forms.cvtdq f
  let w := Ty.width (mxElem (mxSource f))
  let j := bits 2 0 f.imm * (32 * (64 / Ty.width f.ty)) + 64 / Ty.width f.ty * l + i
  (Ty.fmt f.ty).round f.op s (mxVal (mxSource f) (subElem 8 (j / 32 % 8) (e.g.v r.c (j / 32 / 8)))
    (subElem w (j % (64 / w)) (e.g.v r.a (j / (64 / w)))))

theorem cvtdqWrites_v (f : Fields) (e : Env) : (cvtdqWrites f e (regsF Forms.cvtdq f)).v =
    e.acts.map fun l => (32 * (regsF Forms.cvtdq f).d + l,
      word (packElems (Ty.width f.ty) (calcElems (64 / Ty.width f.ty) (cvtdqElem f e l) (e.g.rng l)).codes)) := by
  simp only [cvtdqWrites, List.map_map]
  rfl

theorem exec_cvtdq (f : Fields) (s : State) : exec (.cvtdq f) s = execCvtdq f s := rfl

theorem cvtdq_retires {f : Fields} {s : State} {e : Env} (h : Issues Forms.cvtdq f s e)
    (room : Room e (regsF Forms.cvtdq f) (cvtdqWrites f e (regsF Forms.cvtdq f)) e.hw) :
    Retires (.cvtdq f) s e (regsF Forms.cvtdq f) (cvtdqWrites f e (regsF Forms.cvtdq f)) e.hw :=
  retires_of_issueF h (exec_cvtdq f s) rfl room

theorem cvtdq_completes : Completes Forms.cvtdq .cvtdq := fun f _ e _ h room => by
  refine ⟨_, cvtdq_retires h ((room_congr ?_ ?_ ?_).1 room)⟩
  · rw [cvtdqWrites_v, List.map_map]
    exact List.map_map
  · rfl
  · rfl

theorem subElem_cvtdqElem {f : Fields} {i : Nat} (hop : f.op ≠ 4) (hi : i < 64 / Ty.width f.ty) (e : Env) (l : Nat) :
    subElem (Ty.width f.ty) i (word (packElems (Ty.width f.ty) (calcElems (64 / Ty.width f.ty) (cvtdqElem f e l) (e.g.rng l)).codes)) =
      (cvtdqElem f e l i (e.g.rng l)).code % 2 ^ Ty.width f.ty :=
  subElem_undrawn (width_pos _) (Nat.mul_div_le ..) hi (fun _ _ => round_s hop ..) _

end Sys2Proof.Machine
end

section
/-! SUPPORT. The special cases of the transcendental forms, with dot products and conversions (09_float R183-R188, R190; 07_numbers R145,
R156). -/

namespace Sys2Proof.Machine

open Sys2Proof

/-- Settles O5: by the kind of value each transcendental form meets, and by what each element of a dot product or conversion rounds. -/
theorem floatSpecials : Obligations.FloatSpecials := by
  unfold Obligations.FloatSpecials
  refine ⟨⟨byRounding_of_fpOne exec_frcp fun f x st => ?frcp, byRounding_of_fpOne exec_frsq fun f x st => ?frsq,
    byRounding_of_fpOne exec_fexp2 fun f x st => ?fexp2, byRounding_of_fpOne exec_flog2 fun f x st => ?flog2,
    byRounding_of_fpOne exec_fsin fun f x st => ?fsin, byRounding_of_fpOne exec_fcos fun f x st => ?fcos,
    byRounding_of_fpOne exec_ftanh fun f x st => ?ftanh⟩, fun f s e h _ room => ?fdot,
    fun f s e h _ _ room => ?cvt, fun f s e h _ _ room => ?cvtq, fun f s e h _ room => ?cvtdq,
    completes_of_fpOne exec_frcp fun _ => rfl, completes_of_fpOne exec_frsq fun _ => rfl,
    completes_of_fpOne exec_fexp2 fun _ => rfl, completes_of_fpOne exec_flog2 fun _ => rfl, completes_of_fpOne exec_fsin fun _ => rfl,
    completes_of_fpOne exec_fcos fun _ => rfl, completes_of_fpOne exec_ftanh fun _ => rfl, fdot_completes, cvt_completes,
    cvtdq_completes, fun f s e h _ _ room => ⟨_, cvtq_retires h room⟩⟩
  case frcp =>
    cases fv f.ty x.a with
    | nan => rfl
    | inf neg =>
      simp only [divVal_one_inf, if_true]
      exact transc_zero ..
    | fin neg n e =>
      by_cases hn : n = 0
      · subst hn
        simp only [divVal_one_zero]
        exact ⟨rndWith_s .., fun _ => rfl, fun h => absurd rfl h⟩
      · simp only [divVal_one_fin hn, if_true]
        refine ⟨transc_s .., fun h => absurd h hn, fun _ narrow => ?_⟩
        rw [transc_narrow narrow, ← divVal_one_fin hn]
  case frsq =>
    cases fv f.ty x.a with
    | nan => rfl
    | inf neg => rfl
    | fin neg n e => exact positive_special (rndWith_s ..) (rndWith_s ..) (transc_s ..)
  case fexp2 =>
    cases fv f.ty x.a with
    | nan => rfl
    | inf neg => rfl
    | fin neg n e => exact ⟨transc_s .., by rintro rfl; exact transc_one ..⟩
  case flog2 =>
    cases fv f.ty x.a with
    | nan => rfl
    | inf neg => rfl
    | fin neg n e => exact positive_special (rndWith_s ..) (rndWith_s ..) (transc_s ..)
  case fsin =>
    cases fv f.ty x.a with
    | nan => rfl
    | inf neg => rfl
    | fin neg n e => exact ⟨transc_s .., by rintro rfl; exact transc_zero ..⟩
  case fcos =>
    cases fv f.ty x.a with
    | nan => rfl
    | inf neg => rfl
    | fin neg n e => exact ⟨transc_s .., by rintro rfl; exact transc_one ..⟩
  case ftanh =>
    cases fv f.ty x.a with
    | nan => rfl
    | inf neg => exact transc_one ..
    | fin neg n e => exact ⟨transc_s .., by rintro rfl; exact transc_zero ..⟩
  case fdot =>
    intro r w q half z0 z1
    refine ⟨dotResult f e, fdot_retires h (room_calcWrites room _), fun l => ⟨?_, ?_, ?_, ?_⟩⟩
    · exact subElem_calcElems (by decide) (by decide) (by decide) _ _
    · exact subElem_calcElems (by decide) (by decide) (by decide) _ _
    · exact calcElems_two_fx (dotSum f e l) (e.g.rng l)
    · rfl
  case cvt =>
    intro r st ws wd n k src conv
    refine ⟨cvtResult f e, fun l => rounded (cvtElem f e l) (e.g.rng l), cvt_retires h (room_calcWrites room _),
      fun l => ⟨fun i hi => ⟨?_, ?_⟩, fun narrow i hi out => ?_, ?_, ?_⟩⟩
    · rw [← drawn_eq]
      refine ⟨convElem_float_float, convElem_int_float, fun hd hs => ?_, convElem_int_int⟩
      have z : rounded (cvtElem f e l) (e.g.rng l) i = toInt f.ty f.op (drawn (cvtElem f e l) (e.g.rng l) i) (fv st (src l i)) :=
        convElem_float_int hd hs
      cases hv : fv st (src l i) with
      | nan => exact z.trans (by rw [hv]; rfl)
      | inf neg => exact z.trans (by rw [hv]; rfl)
      | fin neg m g =>
        rw [hv, toInt_fin] at z
        exact ⟨congrArg Rnd.s z, congrArg Rnd.code z, congrArg Rnd.fx z⟩
    · exact subElem_cvtResult hi
    · exact subElem_cvtResult_kept narrow hi out
    · exact congrArg Calc.fx (calcElems_eq ..)
    · exact cvtResult_s f e l
  case cvtq =>
    intro r st et emax ea ed at' x lg special
    have hlg : lg = leadExp := by
      funext v
      cases v <;> rfl
    refine ⟨_, cvtqScale f e, cvtq_retires h room, rfl, rfl, rfl, fun b hb => ⟨cvtqScale_special hb, fun finite => ?_⟩,
      fun hc l hl ha => ⟨cvtqWrites_outside hc hl, fun lo hi hop => ⟨_, cvtqWrites_inside hc ha lo hi, fun i => subElem_cvtqElem hop⟩,
        _, cvtqWrites_scales ha, fun i => subElem_cvtqScales⟩⟩
    rw [hlg]
    exact ⟨cvtqScale_zeros hb finite, fun m => cvtqScale_greatest hb finite⟩
  case cvtdq =>
    intro r st et ed es j scale
    refine ⟨_, cvtdq_retires h room, rfl, rfl, rfl, fun l _ ha => ⟨_, ?_, fun hop i hi => subElem_cvtdqElem hop hi e l⟩⟩
    rw [cvtdqWrites_v]
    exact lastWrite_lane (mem_acts.2 ha) ..

end Sys2Proof.Machine
end

section
/-! SUPPORT. Integers of w bits: their two's-complement readings, truncation and saturation (00_scope Table SC-3; 07_numbers R140). -/

namespace Sys2Proof.Machine

open Sys2Proof

/-! ## Truncation -/

/-- Truncation gives the pattern of an integer. -/
theorem trunc_eq_toNat (v : Int) (w : Nat) : trunc v w = (BitVec.ofInt w v).toNat := by
  rw [BitVec.toNat_ofInt]
  push_cast
  rfl

theorem trunc_cast (v : Int) (w : Nat) : (trunc v w : Int) = v % 2 ^ w :=
  Int.toNat_of_nonneg (Int.emod_nonneg v (by positivity))

theorem trunc_mod (v : Int) (w : Nat) : trunc v w % 2 ^ w = trunc v w := by rw [trunc_eq_toNat, BitVec.toNat_mod_cancel]

/-- Integers congruent modulo 2^w truncate alike. -/
theorem trunc_eq_of_modEq {v : Int} {n w : Nat} (h : v ≡ n [ZMOD 2 ^ w]) : trunc v w = n % 2 ^ w := by
  zify
  rw [trunc_cast]
  exact h

theorem trunc_natCast (n w : Nat) : trunc (n : Int) w = n % 2 ^ w := trunc_eq_of_modEq rfl

theorem trunc_neg_one (w : Nat) : trunc (-1) w = 2 ^ w - 1 := by
  rw [trunc_eq_toNat, ← BitVec.toNat_allOnes, ← BitVec.neg_one_eq_allOnes, BitVec.ofInt_neg]
  rfl

/-! ## Sign extension -/

theorem two_pow_split {w : Nat} (hw : 0 < w) : (2 : Int) ^ w = 2 * 2 ^ (w - 1) := by rw [← pow_succ', Nat.sub_add_cancel hw]

/-- Sign extension reads a pattern in two's complement. -/
theorem sext_eq_toInt (x w : Nat) : sext x w = (BitVec.ofNat w x).toInt := by
  rcases Nat.eq_zero_or_pos w with rfl | hw
  · exact (BitVec.toInt_zero_length _).symm
  have := two_pow_split hw
  rw [sext, if_neg hw.ne', BitVec.toInt_eq_toNat_cond, BitVec.toNat_ofNat]
  push_cast
  exact if_congr (by zify; omega) rfl rfl

theorem sext_bounds (x w : Nat) : -2 ^ (w - 1) ≤ sext x w ∧ sext x w < 2 ^ (w - 1) := by
  rw [sext_eq_toInt]
  exact ⟨BitVec.le_toInt _, BitVec.toInt_lt⟩

theorem sext_modEq (x w : Nat) : sext x w ≡ x [ZMOD 2 ^ w] := by
  have h := Int.bmod_emod (x := x) (m := 2 ^ w)
  rw [sext_eq_toInt, BitVec.toInt_ofNat']
  exact_mod_cast h

/-- A value of w bits survives truncation and sign extension. -/
theorem sext_trunc {w : Nat} (hw : 0 < w) {v : Int} (hl : -2 ^ (w - 1) ≤ v) (hu : v < 2 ^ (w - 1)) : sext (trunc v w) w = v := by
  rw [sext_eq_toInt, trunc_eq_toNat, BitVec.ofNat_toNat, BitVec.setWidth_eq]
  exact BitVec.toInt_ofInt_eq_self hw hl hu

/-- Bits of a sign-extended pattern: those past its m bits are copies of the last. -/
theorem testBit_trunc_sext {m w k : Nat} (hk : k < w) (x : Nat) :
    (trunc (sext x m) w).testBit k = (x % 2 ^ m).testBit (if k < m then k else m - 1) := by
  rw [trunc_eq_toNat, sext_eq_toInt, BitVec.testBit_toNat]
  refine (BitVec.getLsbD_signExtend ..).trans ?_
  rw [decide_eq_true hk, BitVec.msb_eq_getLsbD_last, ← BitVec.testBit_toNat, ← BitVec.testBit_toNat, BitVec.toNat_ofNat]
  split <;> rfl

/-! ## The reading of a type -/

theorem Ty.int_modEq (t : Ty) (x : Nat) : Ty.int t x ≡ x [ZMOD 2 ^ Ty.width t] := by
  unfold Ty.int
  split
  · exact sext_modEq x _
  · push_cast
    exact Int.mod_modEq ..

theorem Ty.int_bounds (t : Ty) (x : Nat) : Ty.least t ≤ Ty.int t x ∧ Ty.int t x ≤ Ty.most t := by
  unfold Ty.int Ty.least Ty.most
  split
  · have := sext_bounds x (Ty.width t)
    omega
  · push_cast
    have hp : (0 : Int) < 2 ^ Ty.width t := by positivity
    exact ⟨Int.emod_nonneg _ hp.ne', Int.le_sub_one_of_lt (Int.emod_lt_of_pos _ hp)⟩

/-- A type has 2^w values. -/
theorem Ty.most_eq (t : Ty) : Ty.most t = Ty.least t + 2 ^ Ty.width t - 1 := by
  have := two_pow_split (width_pos t)
  unfold Ty.least Ty.most
  split <;> omega

/-- Zero is a value of every type. -/
@[simp] theorem Ty.int_zero (t : Ty) : Ty.int t 0 = 0 := by simp [Ty.int, sext]

theorem Ty.most_nonneg (t : Ty) : 0 ≤ Ty.most t := by simpa using (Ty.int_bounds t 0).2
theorem Ty.least_nonpos (t : Ty) : Ty.least t ≤ 0 := by simpa using (Ty.int_bounds t 0).1

/-- A value of a type survives truncation. -/
theorem Ty.int_trunc {t : Ty} {v : Int} (h : Ty.least t ≤ v ∧ v ≤ Ty.most t) : Ty.int t (trunc v (Ty.width t)) = v := by
  unfold Ty.least Ty.most at h
  unfold Ty.int
  cases signed : Ty.signed t
  · simp only [signed, Bool.false_eq_true, if_false] at *
    rw [trunc_mod, trunc_cast, Int.emod_eq_of_lt h.1 (by omega)]
  · simp only [signed, if_true] at *
    exact sext_trunc (width_pos t) h.1 (by omega)

/-- A pattern is what its reading truncates to. -/
theorem trunc_int {t : Ty} {x : Nat} (hx : x < 2 ^ Ty.width t) : trunc (Ty.int t x) (Ty.width t) = x := by
  rw [trunc_eq_of_modEq (Ty.int_modEq t x), Nat.mod_eq_of_lt hx]

/-- Only the zero pattern reads as 0. -/
theorem Ty.int_eq_zero {t : Ty} {x : Nat} (hx : x < 2 ^ Ty.width t) : Ty.int t x = 0 ↔ x = 0 := by
  refine ⟨fun h => ?_, fun h => by rw [h, Ty.int_zero]⟩
  rw [← trunc_int hx, h]
  rfl

/-! ## Saturation -/

theorem sat_bounds (v : Int) (t : Ty) : Ty.least t ≤ sat v t ∧ sat v t ≤ Ty.most t := by
  have := (Ty.least_nonpos t).trans (Ty.most_nonneg t)
  unfold sat
  split
  · exact ⟨le_rfl, this⟩
  · split <;> omega

/-- A clamped value survives truncation. -/
theorem Ty.int_trunc_sat (v : Int) (t : Ty) : Ty.int t (trunc (sat v t) (Ty.width t)) = sat v t :=
  Ty.int_trunc (sat_bounds v t)

end Sys2Proof.Machine
end

section
/-! SUPPORT. Forms that compute each element of d from its sources: they retire with what their function gives (08_integer R160, R164). -/

namespace Sys2Proof.Machine

open Sys2Proof

/-- Sources of w bits. -/
structure Srcs.Fits (w : Nat) (x : Srcs) : Prop where
  a : x.a < 2 ^ w
  b : x.b < 2 ^ w
  c : x.c < 2 ^ w
  d : x.d < 2 ^ w

theorem srcs_fits (fm : Form) (f : Fields) (e : Env) (l j : Nat) : (srcs fm f e l j).Fits (Ty.width f.ty) :=
  ⟨subElem_lt (width_pos _) _, subElem_lt (width_pos _) _, subElem_lt (width_pos _) _, subElem_lt (width_pos _) _⟩

/-- The sources of element j in lane l, whichever register fields r names. -/
def srcsAt (f : Fields) (e : Env) (r : Regs) (l j : Nat) : Srcs :=
  { a := subElem (Ty.width f.ty) j (e.va r l), b := subElem (Ty.width f.ty) j (e.vb r f l), c := subElem (Ty.width f.ty) j (e.vc r l),
    d := subElem (Ty.width f.ty) j (e.vd r l), lane := e.vb r f l }

theorem srcsAt_regsF (fm : Form) (f : Fields) (e : Env) (l j : Nat) : srcsAt f e (regsF fm f) l j = srcs fm f e l j := rfl

/-- A form whose elements are computed from their sources by q retires with them, and they meet what q meets (R160). -/
theorem byElement_of_elems {fm : Form} {con : Fields → Instr} {P : Fields → Srcs → Nat → Prop} {q : Fields → Srcs → Nat}
    (hx : ∀ f s, exec (con f) s = lanewise fm f s fun e r l => mapElems (Ty.width f.ty) fun j => q f (srcsAt f e r l j))
    (hP : ∀ f x, x.Fits (Ty.width f.ty) → P f x (q f x % 2 ^ Ty.width f.ty)) : ByElement fm con P :=
  byElement_of_lanewise hx fun f e l j hj => by
    rw [subElem_mapElems (width_pos _) hj, srcsAt_regsF]
    exact hP f _ (srcs_fits ..)

/-- A two-source form on bit patterns (R164, R165). -/
theorem byElement_of_patTwo {fm : Form} {con : Fields → Instr} {P : Fields → Srcs → Nat → Prop}
    {g : Fields → Nat → Nat → Nat → Nat}
    (hx : ∀ f s, exec (con f) s = patTwo fm f s (g f))
    (hP : ∀ f x, x.Fits (Ty.width f.ty) → P f x (g f (Ty.width f.ty) x.a x.b % 2 ^ Ty.width f.ty)) : ByElement fm con P :=
  byElement_of_elems (q := fun f x => g f (Ty.width f.ty) x.a x.b) hx hP

/-- A one-source form on bit patterns (R166). -/
theorem byElement_of_patOne {fm : Form} {con : Fields → Instr} {P : Fields → Srcs → Nat → Prop} {g : Fields → Nat → Nat → Nat}
    (hx : ∀ f s, exec (con f) s = patOne fm f s (g f))
    (hP : ∀ f x, x.Fits (Ty.width f.ty) → P f x (g f (Ty.width f.ty) x.a % 2 ^ Ty.width f.ty)) : ByElement fm con P :=
  byElement_of_elems (q := fun f x => g f (Ty.width f.ty) x.a) hx hP

/-- A form that computes a value from its sources and truncates it (R164, R167). -/
theorem byElement_of_value {fm : Form} {con : Fields → Instr} {P : Fields → Srcs → Nat → Prop} {g : Fields → Srcs → Int}
    (hx : ∀ f s, exec (con f) s = lanewise fm f s fun e r l =>
      mapElems (Ty.width f.ty) fun j => trunc (g f (srcsAt f e r l j)) (Ty.width f.ty))
    (hP : ∀ f x, x.Fits (Ty.width f.ty) → P f x (trunc (g f x) (Ty.width f.ty))) : ByElement fm con P :=
  byElement_of_elems (q := fun f x => trunc (g f x) (Ty.width f.ty)) hx fun f x h => by
    rw [trunc_mod]
    exact hP f x h

/-- A two-source form on values, truncated (R164). -/
theorem byElement_of_intTwo {fm : Form} {con : Fields → Instr} {P : Fields → Srcs → Nat → Prop}
    {g : Fields → Ty → Int → Int → Int}
    (hx : ∀ f s, exec (con f) s = intTwo fm f s (g f))
    (hP : ∀ f x, x.Fits (Ty.width f.ty) → P f x (trunc (g f f.ty (Ty.int f.ty x.a) (Ty.int f.ty x.b)) (Ty.width f.ty))) :
    ByElement fm con P :=
  byElement_of_value (g := fun f x => g f f.ty (Ty.int f.ty x.a) (Ty.int f.ty x.b)) hx hP

theorem styWidth_pos (sty : BitVec 2) : 0 < styWidth sty := by decide +revert

/-- An S form whose elements g computes from those of the old d and a retires with them, and they meet what q meets (R34). -/
theorem byElementS_of_patTwoS {fm : SForm} {con : SFields → Instr} {P : Nat → Nat → Nat → Nat → Prop} {g : Nat → Nat → Nat → Nat}
    (hx : ∀ f s, exec (con f) s = patTwoS fm f s g)
    (hP : ∀ w d a, 0 < w → d < 2 ^ w → a < 2 ^ w → P w d a (g w d a % 2 ^ w)) : ByElementS fm con P := fun f s e h room => by
  have hw := styWidth_pos f.sty
  refine ⟨fun l => zipElems (styWidth f.sty) (g (styWidth f.sty)) (e.vd (regsS fm f) l) (e.va (regsS fm f) l), fun l j hj => ?_, ?_⟩
  · rw [subElem_zipElems hw hj]
    exact hP _ _ _ hw (subElem_lt hw _) (subElem_lt hw _)
  · rw [Retires, hx]
    exact lanewiseS_done h (roomD_put room _)

end Sys2Proof.Machine
end

section
/-! SUPPORT. Integer arithmetic: sums, products and quotients modulo 2^w and saturated (08_integer R164, R166, R167, Tables IN-2, IN-3). -/

namespace Sys2Proof.Machine

open Sys2Proof

/-! ## What Table IN-2 computes -/

theorem fnSub_cast {w x y : Nat} (hy : y < 2 ^ w) : ((fnSub w x y % 2 ^ w : Nat) : Int) = (x - y : Int) % 2 ^ w := by
  rw [fnSub, Nat.mod_mod, Int.natCast_mod, Nat.cast_sub (by omega)]
  push_cast
  rw [add_sub_right_comm, Int.add_emod_right]

/-- The distance of two values of a type fits w bits, whatever its sign (R164). -/
theorem trunc_natAbs_int_sub (t : Ty) (x y : Nat) :
    trunc ((Ty.int t x - Ty.int t y).natAbs : Int) (Ty.width t) = (Ty.int t x - Ty.int t y).natAbs := by
  have hx := Ty.int_bounds t x
  have hy := Ty.int_bounds t y
  have := Ty.most_eq t
  rw [trunc_natCast, Nat.mod_eq_of_lt]
  zify
  rw [abs_lt]
  omega

/-- So does an absolute value (R166). -/
theorem trunc_natAbs_int (t : Ty) (x : Nat) : trunc ((Ty.int t x).natAbs : Int) (Ty.width t) = (Ty.int t x).natAbs := by
  simpa using trunc_natAbs_int_sub t x 0

/-- A value clamped where the form is .sat (R164, R166, R167). -/
def optSat (f : Fields) (v : Int) : Int := if f.op = 1 then sat v f.ty else v

/-- With .sat an element reads as the clamped value, and else it is what the value truncates to. -/
theorem trunc_optSat {f : Fields} {v : Int} {n : Nat} (h : trunc v (Ty.width f.ty) = n) :
    if f.op = 1 then Ty.int f.ty (trunc (optSat f v) (Ty.width f.ty)) = sat v f.ty else trunc (optSat f v) (Ty.width f.ty) = n := by
  unfold optSat
  split
  · exact Ty.int_trunc_sat ..
  · exact h

theorem Ty.int_trunc_min (t : Ty) (x y : Nat) :
    Ty.int t (trunc (if Ty.int t x ≤ Ty.int t y then Ty.int t x else Ty.int t y) (Ty.width t)) = min (Ty.int t x) (Ty.int t y) := by
  have hx := Ty.int_bounds t x
  have hy := Ty.int_bounds t y
  rw [← min_def]
  exact Ty.int_trunc ⟨le_min hx.1 hy.1, min_le_of_left_le hx.2⟩

theorem Ty.int_trunc_max (t : Ty) (x y : Nat) :
    Ty.int t (trunc (if Ty.int t x ≤ Ty.int t y then Ty.int t y else Ty.int t x) (Ty.width t)) = max (Ty.int t x) (Ty.int t y) := by
  have hx := Ty.int_bounds t x
  have hy := Ty.int_bounds t y
  rw [← max_def]
  exact Ty.int_trunc ⟨le_max_of_le_left hx.1, max_le hx.2 hy.2⟩

/-! ## Products -/

/-- A wrapped product with addend depends on the bit patterns alone (R164, R167). -/
theorem trunc_mul_add (t : Ty) (x y u : Nat) :
    trunc (Ty.int t x * Ty.int t y + Ty.int t u) (Ty.width t) = (x * y + u) % 2 ^ Ty.width t :=
  trunc_eq_of_modEq (by push_cast; exact ((Ty.int_modEq t x).mul (Ty.int_modEq t y)).add (Ty.int_modEq t u))

theorem trunc_mul (t : Ty) (x y : Nat) : trunc (Ty.int t x * Ty.int t y) (Ty.width t) = x * y % 2 ^ Ty.width t := by
  simpa using trunc_mul_add t x y 0

/-- The high half of a product is a value of the type (R164). -/
theorem Ty.int_trunc_mulh (t : Ty) (x y : Nat) :
    Ty.int t (trunc (Ty.int t x * Ty.int t y / 2 ^ Ty.width t) (Ty.width t)) = Ty.int t x * Ty.int t y / 2 ^ Ty.width t := by
  refine Ty.int_trunc ?_
  have hx := Ty.int_bounds t x
  have hy := Ty.int_bounds t y
  have hp : (0 : Int) < 2 ^ Ty.width t := by positivity
  rw [Int.le_ediv_iff_mul_le hp, ← Int.lt_add_one_iff (b := Ty.most t), Int.ediv_lt_iff_lt_mul hp]
  unfold Ty.least Ty.most at *
  cases signed : Ty.signed t
  · simp only [signed, Bool.false_eq_true, if_false, zero_mul, sub_add_cancel] at *
    exact ⟨mul_nonneg hx.1 hy.1, mul_lt_mul'' (by omega) (by omega) hx.1 hy.1⟩
  · simp only [signed, if_true] at *
    have hs := two_pow_split (width_pos t)
    have hq : (0 : Int) < 2 ^ (Ty.width t - 1) := by positivity
    have h : |Ty.int t x * Ty.int t y| ≤ 2 ^ (Ty.width t - 1) * 2 ^ (Ty.width t - 1) := by
      rw [abs_mul]
      exact mul_le_mul (abs_le.2 (by omega)) (abs_le.2 (by omega)) (abs_nonneg _) hq.le
    have := abs_le.1 h
    constructor <;> nlinarith

/-! ## Quotients -/

theorem tmod_nonpos {x : Int} (y : Int) (hx : x ≤ 0) : x.tmod y ≤ 0 := by
  have := Int.tmod_nonneg y (Int.neg_nonneg_of_nonpos hx)
  rw [Int.neg_tmod] at this
  omega

/-- A remainder of two values of a type is a value of the type: it has the sign of the dividend, or is 0 (Table IN-3). -/
theorem Ty.int_trunc_tmod (t : Ty) (x y : Nat) :
    Ty.int t (trunc ((Ty.int t x).tmod (Ty.int t y)) (Ty.width t)) = (Ty.int t x).tmod (Ty.int t y) := by
  refine Ty.int_trunc ?_
  have hx := Ty.int_bounds t x
  have h0 := Ty.least_nonpos t
  have h1 := Ty.most_nonneg t
  have hm : ((Ty.int t x).tmod (Ty.int t y)).natAbs ≤ (Ty.int t x).natAbs := by
    rw [Int.natAbs_tmod]
    exact Nat.mod_le ..
  rcases le_total 0 (Ty.int t x) with h | h
  · have := Int.tmod_nonneg (Ty.int t y) h
    omega
  · have := tmod_nonpos (Ty.int t y) h
    omega

theorem trunc_fnDiv {t : Ty} {x y : Nat} (hy : y < 2 ^ Ty.width t) :
    if y = 0 then trunc (fnDiv t (Ty.int t x) (Ty.int t y)) (Ty.width t) = 2 ^ Ty.width t - 1
    else trunc (fnDiv t (Ty.int t x) (Ty.int t y)) (Ty.width t) = trunc ((Ty.int t x).tdiv (Ty.int t y)) (Ty.width t) := by
  simp only [fnDiv, Ty.int_eq_zero hy]
  split
  · exact trunc_neg_one _
  · rfl

theorem trunc_fnRem {t : Ty} {x y : Nat} (hx : x < 2 ^ Ty.width t) (hy : y < 2 ^ Ty.width t) :
    if y = 0 then trunc (fnRem t (Ty.int t x) (Ty.int t y)) (Ty.width t) = x
    else Ty.int t (trunc (fnRem t (Ty.int t x) (Ty.int t y)) (Ty.width t)) = (Ty.int t x).tmod (Ty.int t y) := by
  simp only [fnRem, Ty.int_eq_zero hy, ← Int.tmod_def]
  split
  · exact trunc_int hx
  · exact Ty.int_trunc_tmod ..

/-! ## The statement -/

/-- Settles O1: each form's function, read through trunc and the reading of its type. -/
theorem integerArithmetic : Obligations.IntegerArithmetic := by
  unfold Obligations.IntegerArithmetic
  refine ⟨⟨byElement_of_patTwo (g := fun _ => fnAdd) (fun _ _ => rfl) fun _ _ _ => Nat.mod_mod ..,
      byElement_of_patTwo (g := fun _ => fnSub) (fun _ _ => rfl) fun _ _ h => fnSub_cast h.b,
      byElementS_of_patTwoS (g := fnAdd) (fun _ _ => rfl) fun _ _ _ _ _ _ => Nat.mod_mod ..,
      byElementS_of_patTwoS (g := fnSub) (fun _ _ => rfl) fun _ _ _ _ _ ha => fnSub_cast ha⟩,
    ⟨byElement_of_intTwo (g := fun _ t x y => sat (x + y) t) (fun _ _ => rfl) fun _ _ _ => Ty.int_trunc_sat ..,
      byElement_of_intTwo (g := fun _ t x y => sat (x - y) t) (fun _ _ => rfl) fun _ _ _ => Ty.int_trunc_sat ..,
      byElement_of_intTwo (g := fun _ _ x y => (x - y).natAbs) (fun _ _ => rfl) fun _ _ _ => trunc_natAbs_int_sub ..,
      byElement_of_intTwo (g := fun _ _ x y => if x ≤ y then x else y) (fun _ _ => rfl) fun _ _ _ => Ty.int_trunc_min ..,
      byElement_of_intTwo (g := fun _ _ x y => if x ≤ y then y else x) (fun _ _ => rfl) fun _ _ _ => Ty.int_trunc_max ..,
      byElement_of_value (g := fun f x => optSat f (Ty.int f.ty x.a).natAbs) (fun _ _ => rfl) fun _ _ _ =>
        trunc_optSat (trunc_natAbs_int ..)⟩,
    byElement_of_value (g := fun f x => optSat f (Ty.int f.ty x.a * Ty.int f.ty x.b)) (fun _ _ => rfl) fun _ _ _ =>
      trunc_optSat (trunc_mul ..),
    byElement_of_intTwo (g := fun _ t x y => x * y / 2 ^ Ty.width t) (fun _ _ => rfl) fun _ _ _ => Ty.int_trunc_mulh ..,
    byElement_of_value (g := fun f x => optSat f (Ty.int f.ty x.a * Ty.int f.ty x.b + Ty.int f.ty x.c)) (fun _ _ => rfl) fun _ _ _ =>
      trunc_optSat (trunc_mul_add ..),
    byElement_of_intTwo (g := fun _ => fnDiv) (fun _ _ => rfl) fun _ _ h => trunc_fnDiv h.b,
    byElement_of_intTwo (g := fun _ => fnRem) (fun _ _ => rfl) fun _ _ h => trunc_fnRem h.a h.b⟩

end Sys2Proof.Machine
end

section
/-! SUPPORT. Bits of patterns: shifts and rotations, counts, bit order and bit fields (08_integer R165, R166, R168). -/

namespace Sys2Proof.Machine

open Sys2Proof

/-- A pattern of w bits has none from bit w. -/
theorem testBit_of_le {w x k : Nat} (hx : x < 2 ^ w) (hk : w ≤ k) : x.testBit k = false :=
  Nat.testBit_lt_two_pow (hx.trans_le (Nat.pow_le_pow_right two_pos hk))

/-- A truncated pattern has its bits below w. -/
theorem testBit_mod_of_lt {w k : Nat} (hk : k < w) (x : Nat) : (x % 2 ^ w).testBit k = x.testBit k := by
  rw [Nat.testBit_mod_two_pow, decide_eq_true hk, Bool.true_and]

/-! ## Bitwise forms -/

theorem testBit_and_mod {w x y : Nat} (hy : y < 2 ^ w) (k : Nat) : ((x &&& y) % 2 ^ w).testBit k = (x.testBit k && y.testBit k) := by
  rw [Nat.mod_eq_of_lt (Nat.and_lt_two_pow x hy), Nat.testBit_and]

theorem testBit_or_mod {w x y : Nat} (hx : x < 2 ^ w) (hy : y < 2 ^ w) (k : Nat) :
    ((x ||| y) % 2 ^ w).testBit k = (x.testBit k || y.testBit k) := by
  rw [Nat.mod_eq_of_lt (Nat.or_lt_two_pow hx hy), Nat.testBit_or]

theorem testBit_xor_mod {w x y : Nat} (hx : x < 2 ^ w) (hy : y < 2 ^ w) (k : Nat) :
    ((x ^^^ y) % 2 ^ w).testBit k = (x.testBit k ^^ y.testBit k) := by
  rw [Nat.mod_eq_of_lt (Nat.xor_lt_two_pow hx hy), Nat.testBit_xor]

theorem testBit_not {w x : Nat} (hx : x < 2 ^ w) (k : Nat) : (2 ^ w - 1 - x).testBit k = (decide (k < w) && !x.testBit k) := by
  rw [Nat.sub_sub, Nat.add_comm 1, Nat.testBit_two_pow_sub_succ hx]

theorem testBit_andn {w x y : Nat} (hx : x < 2 ^ w) (hy : y < 2 ^ w) (k : Nat) :
    ((x &&& (2 ^ w - 1 - y)) % 2 ^ w).testBit k = (x.testBit k && !y.testBit k) := by
  rw [Nat.mod_eq_of_lt (Nat.and_lt_two_pow _ (by omega)), Nat.testBit_and, testBit_not hy]
  by_cases hk : k < w
  · simp [hk]
  · simp [testBit_of_le hx (not_lt.1 hk)]

/-! ## Shifts -/

theorem fnShl_mod (w x k : Nat) : fnShl w x k % 2 ^ w = if k < w then x * 2 ^ k % 2 ^ w else 0 := by
  unfold fnShl
  split
  · rw [Nat.mod_mod, Nat.shiftLeft_eq]
  · exact Nat.zero_mod _

theorem fnShr_mod {w x : Nat} (hx : x < 2 ^ w) (k : Nat) : fnShr w x k % 2 ^ w = x / 2 ^ k := by
  unfold fnShr
  split
  · rw [Nat.shiftRight_eq_div_pow, Nat.mod_eq_of_lt ((Nat.div_le_self ..).trans_lt hx)]
  · rw [Nat.zero_mod, Nat.div_eq_of_lt (hx.trans_le (Nat.pow_le_pow_right two_pos (not_lt.1 ‹_›)))]

/-- An arithmetic shift divides the signed reading, rounding down (R165). -/
theorem sext_fnSar {w : Nat} (hw : 0 < w) (x k : Nat) : sext (fnSar w x k % 2 ^ w) w = sext x w / 2 ^ min k w := by
  obtain ⟨hl, hu⟩ := sext_bounds x w
  have hp : (0 : Int) < 2 ^ min k w := by positivity
  have hm : (if k < w then k else w) = min k w := by split <;> omega
  rw [fnSar, hm, trunc_mod]
  refine sext_trunc hw ?_ ?_
  · rw [Int.le_ediv_iff_mul_le hp]
    nlinarith
  · rw [Int.ediv_lt_iff_lt_mul hp]
    nlinarith

/-- Bit k of a pattern rotated left by j is the bit j below it, around the width. -/
theorem testBit_rotate {w x j k : Nat} (hx : x < 2 ^ w) (hj : j < w) (hk : k < w) :
    ((x <<< j ||| x >>> (w - j)) % 2 ^ w).testBit k = x.testBit ((k + (w - j)) % w) := by
  rw [testBit_mod_of_lt hk, Nat.testBit_or, Nat.testBit_shiftLeft, Nat.testBit_shiftRight]
  by_cases h : j ≤ k
  · have hi : k + (w - j) = k - j + w := by omega
    have high : x.testBit (w - j + k) = false := testBit_of_le hx (by omega)
    rw [hi, Nat.add_mod_right, Nat.mod_eq_of_lt (by omega), high]
    simp [h]
  · rw [Nat.mod_eq_of_lt (by omega), Nat.add_comm (w - j)]
    simp [h]

theorem testBit_fnRot {right : Bool} {w x y k : Nat} (hw : 0 < w) (hx : x < 2 ^ w) (hk : k < w) :
    (fnRot right w x y % 2 ^ w).testBit k = x.testBit ((if right = true then k + y % w else k + (w - y % w)) % w) := by
  have hy := Nat.mod_lt y hw
  cases right
  · simpa [fnRot] using testBit_rotate hx hy hk
  · have h := testBit_rotate hx (Nat.mod_lt (w - y % w) hw) hk
    simp only [fnRot, if_true, Nat.mod_mod]
    rw [h]
    congr 1
    rcases Nat.eq_zero_or_pos (y % w) with h0 | h0
    · simp [h0]
    · rw [Nat.mod_eq_of_lt (by omega : w - y % w < w), Nat.sub_sub_self hy.le]

/-! ## Counts -/

theorem popBits_eq (n x : Nat) : popBits n x = ((List.range n).filter fun k => x.testBit k).length := by
  induction n with
  | zero => rfl
  | succ n ih =>
    rw [popBits, ih, List.range_succ, List.filter_append, List.length_append]
    cases h : x.testBit n <;> simp [h, b2n]

theorem popBits_le (n x : Nat) : popBits n x ≤ n := by
  rw [popBits_eq]
  exact (List.length_filter_le ..).trans_eq (List.length_range ..)

theorem fnClz_le (w x : Nat) : fnClz w x ≤ w := by
  unfold fnClz
  split <;> omega

/-- The greatest set bit of a pattern is the one below its leading zeros (R166). -/
theorem fnClz_spec {w x : Nat} (hx : x < 2 ^ w) : (∀ k, w - fnClz w x ≤ k → x.testBit k = false) ∧
    (fnClz w x < w → x.testBit (w - 1 - fnClz w x) = true) := by
  by_cases h : x = 0
  · simp [fnClz, h]
  · have hl : x.log2 < w := (Nat.log2_lt h).2 hx
    rw [fnClz, if_neg h]
    refine ⟨fun k hk => testBit_of_le Nat.lt_log2_self (by omega), fun _ => ?_⟩
    rw [show w - 1 - (w - 1 - x.log2) = x.log2 by omega]
    exact Nat.testBit_log2 h

theorem ctzFrom_le (n x : Nat) : ctzFrom n x ≤ n := by
  induction n generalizing x with
  | zero => rfl
  | succ n ih =>
    have := ih (x / 2)
    unfold ctzFrom
    split <;> omega

/-- The least set bit below n is the one above the trailing zeros (R166). -/
theorem ctzFrom_spec (n x : Nat) : (∀ k, k < ctzFrom n x → x.testBit k = false) ∧
    (ctzFrom n x < n → x.testBit (ctzFrom n x) = true) := by
  induction n generalizing x with
  | zero => simp [ctzFrom]
  | succ n ih =>
    obtain ⟨zeros, set⟩ := ih (x / 2)
    unfold ctzFrom
    split
    · simp [*]
    · refine ⟨fun k hk => ?_, fun hn => ?_⟩
      · cases k with
        | zero => simpa using ‹¬ x % 2 = 1›
        | succ k => rw [Nat.testBit_succ]; exact zeros k (by omega)
      · rw [Nat.add_comm 1, Nat.testBit_succ]
        exact set (by omega)

/-- Reversing n bits onto acc: bit k is bit n − 1 − k of x, and acc stands above (R166). -/
theorem testBit_revBits (n x acc k : Nat) :
    (revBits n x acc).testBit k = if k < n then x.testBit (n - 1 - k) else acc.testBit (k - n) := by
  induction n generalizing x acc with
  | zero => simp [revBits]
  | succ n ih =>
    have hb : x % 2 < 2 ^ 1 := Nat.mod_lt _ two_pos
    have h2 := Nat.testBit_two_pow_mul_add acc hb (k - n)
    rw [pow_one] at h2
    rw [revBits, ih, h2, ← Nat.testBit_succ]
    rcases lt_trichotomy k n with h | rfl | h
    · rw [if_pos h, if_pos (by omega)]
      congr 1
      omega
    · simp
    · rw [if_neg (by omega), if_neg (by omega), if_neg (by omega), Nat.sub_sub]

/-! ## Bit fields -/

/-- Bits of a number after its m bits from lo have been replaced. -/
theorem testBit_setBits {lo m : Nat} (hm : 0 < m) (v n k : Nat) :
    (setBits (lo + m - 1) lo v n).testBit k = if lo ≤ k ∧ k < lo + m then v.testBit (k - lo) else n.testBit k := by
  have low : n % 2 ^ lo < 2 ^ lo := Nat.mod_lt _ (Nat.two_pow_pos lo)
  have field : v % 2 ^ m < 2 ^ m := Nat.mod_lt _ (Nat.two_pow_pos m)
  have parts : n = n / 2 ^ lo % 2 ^ m * 2 ^ lo + (2 ^ lo * (2 ^ m * (n / 2 ^ lo / 2 ^ m)) + n % 2 ^ lo) := by
    rw [← add_assoc, mul_comm _ (2 ^ lo), ← mul_add, Nat.mod_add_div, Nat.div_add_mod]
  have set : setBits (lo + m - 1) lo v n = 2 ^ lo * (2 ^ m * (n / 2 ^ lo / 2 ^ m) + v % 2 ^ m) + n % 2 ^ lo := by
    rw [setBits, bits, show lo + m - 1 + 1 - lo = m by omega, Nat.shiftRight_eq_div_pow, Nat.sub_eq_of_eq_add' parts]
    ring
  rw [set, Nat.testBit_two_pow_mul_add _ low, Nat.testBit_two_pow_mul_add _ field, ← Nat.testBit_add, ← Nat.testBit_add]
  rcases lt_or_ge k lo with h | h
  · rw [if_pos h, if_neg (by omega), testBit_mod_of_lt h]
  rw [if_neg (by omega)]
  rcases lt_or_ge k (lo + m) with h' | h'
  · rw [if_pos (by omega), if_pos ⟨h, h'⟩, testBit_mod_of_lt (by omega)]
  · rw [if_neg (by omega), if_neg (by omega)]
    congr 1
    omega

/-- Bits of a number after bfi (R168). -/
theorem testBit_fnBfi (w pos len base ins k : Nat) : (fnBfi w pos len base ins).testBit k =
    if pos ≤ k ∧ k < pos + bfLen w pos len then ins.testBit (k - pos) else base.testBit k := by
  by_cases hm : bfLen w pos len = 0
  · simp only [fnBfi, hm, if_true, Nat.add_zero]
    rw [if_neg (by omega)]
  · simp only [fnBfi, hm, if_false]
    exact testBit_setBits (Nat.pos_of_ne_zero hm) ..

theorem testBit_fnBfe {t : Ty} {pos len x k : Nat} (hk : k < Ty.width t) : (fnBfe t pos len x).testBit k =
    if k < bfLen (Ty.width t) pos len then x.testBit (pos + k)
    else Ty.signed t && decide (0 < bfLen (Ty.width t) pos len) && x.testBit (pos + (bfLen (Ty.width t) pos len - 1)) := by
  simp only [fnBfe]
  generalize bfLen (Ty.width t) pos len = m
  have field : ∀ i, i < m → (x >>> pos % 2 ^ m).testBit i = x.testBit (pos + i) := fun i hi => by
    rw [testBit_mod_of_lt hi, Nat.testBit_shiftRight]
  rcases Nat.eq_zero_or_pos m with rfl | hm
  · simp
  rw [if_neg hm.ne']
  cases Ty.signed t
  · rw [if_neg Bool.false_ne_true, Nat.testBit_mod_two_pow, Nat.testBit_shiftRight]
    split <;> simp [*]
  · rw [if_pos rfl, testBit_trunc_sext hk, Nat.mod_mod]
    split
    · exact field k ‹_›
    · simp [hm, field (m - 1) (by omega)]

end Sys2Proof.Machine
end

section
/-! SUPPORT. Bitwise forms, shifts, counts, bit fields, comparison and lea, each retired with what its function gives (08_integer R164-R166,
R168-R170). -/

namespace Sys2Proof.Machine

open Sys2Proof

/-! ## Counts and comparison -/

/-- A count of the bits of an element fits the element (R166). -/
theorem count_mod {w n : Nat} (h : n ≤ w) : n % 2 ^ w = n := Nat.mod_eq_of_lt (h.trans_lt Nat.lt_two_pow_self)

theorem maskOf_mod (w : Nat) (b : Bool) : maskOf w b % 2 ^ w = if b = true then 2 ^ w - 1 else 0 := by
  unfold maskOf
  split
  · exact Nat.mod_eq_of_lt (Nat.sub_lt (Nat.two_pow_pos w) one_pos)
  · exact Nat.zero_mod _

/-! ## Bit fields -/

/-- The control of a bit-field form: IMM in X, else the whole of source b (R168). -/
def fieldCtl (f : Fields) (x : Srcs) : Nat := if f.isX then f.imm else x.lane.toNat

theorem bits_pos (c : Nat) : bits 7 0 c = c % 256 := rfl
theorem bits_len (c : Nat) : bits 15 8 c = c / 256 % 256 := congrArg (· % 256) (Nat.shiftRight_eq_div_pow c 8)

/-! ## The statement -/

/-- Settles O2: each form's function, bit by bit. -/
theorem integerLogic : Obligations.IntegerLogic := by
  unfold Obligations.IntegerLogic
  refine ⟨⟨byElement_of_patTwo (g := fun _ _ x y => x &&& y) (fun _ _ => rfl) fun _ _ h => testBit_and_mod h.b,
      byElement_of_patTwo (g := fun _ _ x y => x ||| y) (fun _ _ => rfl) fun _ _ h => testBit_or_mod h.a h.b,
      byElement_of_patTwo (g := fun _ _ x y => x ^^^ y) (fun _ _ => rfl) fun _ _ h => testBit_xor_mod h.a h.b,
      byElement_of_patTwo (g := fun _ w x y => x &&& (2 ^ w - 1 - y)) (fun _ _ => rfl) fun _ _ h => testBit_andn h.a h.b,
      byElement_of_patOne (g := fun _ w x => 2 ^ w - 1 - x) (fun _ _ => rfl) fun f x h k hk => ?not,
      byElementS_of_patTwoS (g := fun _ x y => x &&& y) (fun _ _ => rfl) fun _ _ _ _ _ ha => testBit_and_mod ha,
      byElementS_of_patTwoS (g := fun _ x y => x ||| y) (fun _ _ => rfl) fun _ _ _ _ hd ha => testBit_or_mod hd ha,
      byElementS_of_patTwoS (g := fun _ x y => x ^^^ y) (fun _ _ => rfl) fun _ _ _ _ hd ha => testBit_xor_mod hd ha⟩,
    ⟨byElement_of_patTwo (g := fun _ => fnShl) (fun _ _ => rfl) fun _ _ _ => fnShl_mod ..,
      byElement_of_patTwo (g := fun _ => fnShr) (fun _ _ => rfl) fun _ _ h => fnShr_mod h.a _,
      byElement_of_patTwo (g := fun _ => fnSar) (fun _ _ => rfl) fun _ _ _ => sext_fnSar (width_pos _) ..,
      byElement_of_patTwo (g := fun f => fnRot (f.op == 1)) (fun _ _ => rfl) fun f x h k hk => ?rot,
      byElementS_of_patTwoS (g := fnShl) (fun _ _ => rfl) fun _ _ _ _ _ _ => fnShl_mod ..,
      byElementS_of_patTwoS (g := fnShr) (fun _ _ => rfl) fun _ _ _ _ hd _ => fnShr_mod hd _,
      byElementS_of_patTwoS (g := fnSar) (fun _ _ => rfl) fun _ _ _ hw _ _ => sext_fnSar hw ..⟩,
    ⟨byElement_of_patOne (g := fun _ => popBits) (fun _ _ => rfl) fun _ _ _ => (count_mod (popBits_le ..)).trans (popBits_eq ..),
      byElement_of_patOne (g := fun _ => fnClz) (fun _ _ => rfl) fun f x h => ?clz,
      byElement_of_patOne (g := fun _ => ctzFrom) (fun _ _ => rfl) fun f x h => ?ctz,
      byElement_of_patOne (g := fun _ w x => revBits w x 0) (fun _ _ => rfl) fun f x h k hk => ?brev,
      byElement_of_elems (q := fun f x => fnBfe f.ty (bits 7 0 (fieldCtl f x)) (bits 15 8 (fieldCtl f x)) x.a) (fun _ _ => rfl)
        fun f x h k hk => ?bfe,
      byElement_of_elems (q := fun f x => fnBfi (Ty.width f.ty) (bits 7 0 (fieldCtl f x)) (bits 15 8 (fieldCtl f x)) x.d x.a)
        (fun _ _ => rfl) fun f x h k hk => ?bfi⟩,
    byElement_of_elems (q := fun f x => maskOf (Ty.width f.ty) (intPred f.op (Ty.int f.ty x.a) (Ty.int f.ty x.b))) (fun _ _ => rfl)
      fun _ _ _ => maskOf_mod ..,
    byLane_of_lanewise fun _ _ => rfl⟩
  case not =>
    rw [testBit_mod_of_lt hk, testBit_not h.a, decide_eq_true hk, Bool.true_and]
  case rot =>
    rw [testBit_fnRot (width_pos _) h.a hk]
    simp only [beq_iff_eq]
  case clz =>
    rw [count_mod (fnClz_le ..)]
    exact ⟨fnClz_le .., fnClz_spec h.a⟩
  case ctz =>
    rw [count_mod (ctzFrom_le ..)]
    exact ⟨ctzFrom_le .., ctzFrom_spec ..⟩
  case brev =>
    rw [testBit_mod_of_lt hk, testBit_revBits, if_pos hk]
  case bfe =>
    rw [testBit_mod_of_lt hk, bits_pos, bits_len]
    exact testBit_fnBfe hk
  case bfi =>
    rw [testBit_mod_of_lt hk, bits_pos, bits_len]
    exact testBit_fnBfi ..

end Sys2Proof.Machine
end

section
/-! SUPPORT. Selection among codes: the order of fmin and fmax, codes and their signs, frnd, and the class codes (09_float R177, R178, R181,
R182, R186). -/

namespace Sys2Proof.Machine

open Sys2Proof

/-! ## The order of values -/

theorem leastExp_swap (d : Int) (x y : Val) : leastExp d [x, y] = leastExp d [y, x] := by
  cases x <;> cases y <;> simp only [leastExp]
  case fin.fin => split_ifs <;> omega

theorem cmp_swap (x y : Val) : y.cmp x = -x.cmp y := by
  simp only [Val.cmp, leastExp_swap 0 y x]
  split_ifs <;> omega

/-- No two values each lie below the other, as −0 lies below +0 (R177). -/
theorem minLess_asymm {x y : Val} (h : minLess x y = true) : minLess y x = false := by
  have swap := cmp_swap x y
  simp only [minLess, Bool.or_eq_true, Bool.and_eq_true, decide_eq_true_eq, Bool.not_eq_true'] at h
  rcases h with lt | ⟨⟨⟨eq, -⟩, hx⟩, hy⟩
  · simp only [minLess, show ¬ y.cmp x < 0 by omega, show y.cmp x ≠ 0 by omega, decide_false, Bool.false_and, Bool.or_false]
  · simp only [minLess, show ¬ y.cmp x < 0 by omega, hx, hy, decide_false, Bool.and_false, Bool.false_and, Bool.or_false]

theorem minLess_irrefl (x : Val) : minLess x x = false := by
  by_contra h
  exact h (minLess_asymm (Bool.eq_true_of_not_eq_false h))

/-! ## Codes of a format -/

theorem fmt_bits_pos (t : Ty) : 0 < (Ty.fmt t).bits := by cases t <;> decide

/-- The bits of a code above its format's width carry nothing (R144). -/
theorem fv_mod (t : Ty) (c : Nat) : fv t (c % 2 ^ (Ty.fmt t).bits) = fv t c := by
  have hb := fmt_bits_pos t
  have sign : (c % 2 ^ (Ty.fmt t).bits).testBit ((Ty.fmt t).bits - 1) = c.testBit ((Ty.fmt t).bits - 1) :=
    testBit_mod_of_lt (by omega) c
  have mag : c % 2 ^ (Ty.fmt t).bits % 2 ^ ((Ty.fmt t).bits - 1) = c % 2 ^ ((Ty.fmt t).bits - 1) :=
    Nat.mod_mod_of_dvd _ (pow_dvd_pow 2 (Nat.sub_le ..))
  simp only [fv, Fmt.val, sign, mag]

/-- A NaN's magnitude lies past that of every finite value (R143). -/
theorem top_lt_of_isNan {t : Ty} {c : Nat} (h : (fv t c).isNan = true) : (Ty.fmt t).top < c % 2 ^ ((Ty.fmt t).bits - 1) := by
  by_contra le
  simp only [fv, Fmt.val, if_neg le] at h
  split at h <;> exact Bool.false_ne_true h

/-- A format narrower than its sub-element has no code past its finite values (R143, R144). -/
theorem fmt_fills (t : Ty) : Ty.width t ≤ (Ty.fmt t).bits ∨ 2 ^ ((Ty.fmt t).bits - 1) ≤ (Ty.fmt t).top + 1 := by
  cases t <;> decide

/-- Where a format has a NaN, its codes fill their sub-elements: a source beside a NaN is kept whole. -/
theorem code_mod_of_isNan {t : Ty} {x c : Nat} (hn : (fv t x).isNan = true) (hc : c < 2 ^ Ty.width t) :
    c % 2 ^ (Ty.fmt t).bits = c := by
  have past := top_lt_of_isNan hn
  have := Nat.mod_lt x (Nat.two_pow_pos ((Ty.fmt t).bits - 1))
  have fills := (fmt_fills t).resolve_right (by omega)
  exact Nat.mod_eq_of_lt (hc.trans_le (Nat.pow_le_pow_right two_pos fills))

/-! ## fmin and fmax -/

section
variable {t : Ty} {a b : Nat}

/-- The source that is picked of two numbers. -/
def picked (t : Ty) (max : Bool) (a b : Nat) : Nat :=
  if minLess (fv t a) (fv t b) != max then a else if minLess (fv t b) (fv t a) != max then b else a

/-- fmin and fmax answer by which of their sources are NaN (R177). -/
theorem fminmax_eq (t : Ty) (max : Bool) (a b : Nat) : fminmax t max a b =
    if (fv t a).isNan && (fv t b).isNan then (Ty.fmt t).nan.getD 0
    else if (fv t a).isNan then b % 2 ^ (Ty.fmt t).bits
    else if (fv t b).isNan then a % 2 ^ (Ty.fmt t).bits
    else picked t max a b % 2 ^ (Ty.fmt t).bits := by
  simp only [picked, apply_ite (· % 2 ^ (Ty.fmt t).bits)]
  rfl

theorem fminmax_nan_nan (max : Bool) (ha : (fv t a).isNan = true) (hb : (fv t b).isNan = true) :
    fminmax t max a b = (Ty.fmt t).nan.getD 0 := by
  simp only [fminmax_eq, ha, hb, Bool.and_self, if_true]

theorem fminmax_nan_left (max : Bool) (fits : b < 2 ^ Ty.width t) (ha : (fv t a).isNan = true) (hb : (fv t b).isNan = false) :
    fminmax t max a b = b := by
  simp only [fminmax_eq, ha, hb, Bool.and_false, Bool.false_eq_true, if_true, if_false, code_mod_of_isNan ha fits]

theorem fminmax_nan_right (max : Bool) (fits : a < 2 ^ Ty.width t) (ha : (fv t a).isNan = false) (hb : (fv t b).isNan = true) :
    fminmax t max a b = a := by
  simp only [fminmax_eq, ha, hb, Bool.false_and, Bool.false_eq_true, if_true, if_false, code_mod_of_isNan hb fits]

theorem fminmax_numbers (max : Bool) (ha : (fv t a).isNan = false) (hb : (fv t b).isNan = false) :
    fminmax t max a b = picked t max a b % 2 ^ (Ty.fmt t).bits := by
  simp only [fminmax_eq, ha, hb, Bool.and_self, Bool.false_eq_true, if_false]

theorem picked_source (t : Ty) (max : Bool) (a b : Nat) : picked t max a b = a ∨ picked t max a b = b := by
  unfold picked
  split
  · exact .inl rfl
  · split
    · exact .inr rfl
    · exact .inl rfl

/-- Neither source lies below the lesser. -/
theorem picked_least (t : Ty) (a b : Nat) :
    minLess (fv t a) (fv t (picked t false a b)) = false ∧ minLess (fv t b) (fv t (picked t false a b)) = false := by
  simp only [picked, Bool.bne_false]
  split
  · exact ⟨minLess_irrefl _, minLess_asymm ‹_›⟩
  · next ab =>
    split
    · exact ⟨Bool.eq_false_of_not_eq_true ab, minLess_irrefl _⟩
    · next ba => exact ⟨minLess_irrefl _, Bool.eq_false_of_not_eq_true ba⟩

/-- Neither source lies above the greater. -/
theorem picked_greatest (t : Ty) (a b : Nat) :
    minLess (fv t (picked t true a b)) (fv t a) = false ∧ minLess (fv t (picked t true a b)) (fv t b) = false := by
  simp only [picked, Bool.bne_true, Bool.not_eq_true']
  split
  · exact ⟨minLess_irrefl _, ‹_›⟩
  · next ab =>
    have ba := minLess_asymm (Bool.eq_true_of_not_eq_false ab)
    rw [if_pos ba]
    exact ⟨ba, minLess_irrefl _⟩

/-- Of two numbers a source is answered, and its value is that of the source picked (R177). -/
theorem fminmax_source (max : Bool) (ha : (fv t a).isNan = false) (hb : (fv t b).isNan = false) :
    fminmax t max a b = a % 2 ^ (Ty.fmt t).bits ∨ fminmax t max a b = b % 2 ^ (Ty.fmt t).bits := by
  rw [fminmax_numbers max ha hb]
  exact (picked_source t max a b).imp (congrArg (· % _)) (congrArg (· % _))

theorem fv_fminmax (max : Bool) (ha : (fv t a).isNan = false) (hb : (fv t b).isNan = false) :
    fv t (fminmax t max a b) = fv t (picked t max a b) := by
  rw [fminmax_numbers max ha hb, fv_mod]

end

/-! ## Signs -/

theorem signOp_nan {t : Ty} {x : Nat} (g : Bool → Bool) (h : (fv t x).isNan = true) : signOp t g x = (Ty.fmt t).nan.getD 0 := if_pos h

theorem signOp_number {t : Ty} {x : Nat} (g : Bool → Bool) (h : (fv t x).isNan = false) : signOp t g x =
    (Ty.fmt t).sign (g (x.testBit ((Ty.fmt t).bits - 1))) (x % 2 ^ ((Ty.fmt t).bits - 1)) :=
  if_neg (Bool.not_eq_true _ ▸ h)

section
variable {f : Fmt} {mag : Nat}

/-- A code made of a sign and a magnitude holds just these (R141). -/
theorem Fmt.sign_eq (f : Fmt) (neg : Bool) (mag : Nat) : f.sign neg mag = mag + 2 ^ (f.bits - 1) * neg.toNat := by
  cases neg
  · rfl
  · exact congrArg (mag + ·) (mul_one _).symm

theorem Fmt.sign_mod (neg : Bool) (h : mag < 2 ^ (f.bits - 1)) : f.sign neg mag % 2 ^ (f.bits - 1) = mag := by
  rw [Fmt.sign_eq, Nat.add_mul_mod_self_left, Nat.mod_eq_of_lt h]

theorem Fmt.sign_lt (neg : Bool) (hf : 0 < f.bits) (h : mag < 2 ^ (f.bits - 1)) : f.sign neg mag < 2 ^ f.bits := by
  have : 2 ^ f.bits = 2 ^ (f.bits - 1) * 2 := by rw [← pow_succ, Nat.sub_add_cancel hf]
  have := neg.toNat_le
  rw [Fmt.sign_eq]
  nlinarith

theorem Fmt.testBit_sign (neg : Bool) (h : mag < 2 ^ (f.bits - 1)) : (f.sign neg mag).testBit (f.bits - 1) = neg := by
  rw [Fmt.sign_eq, Nat.testBit_eq_decide_div_mod_eq, Nat.add_mul_div_left _ _ (Nat.two_pow_pos _), Nat.div_eq_of_lt h]
  cases neg <;> rfl

end

/-! ## frnd -/

section
variable {t : Ty} {mode x : Nat} {st : Word}

theorem frndElem_fin {neg : Bool} {n : Nat} {e : Int} (h : fv t x = .fin neg n e) : frndElem t mode st x =
    ⟨((Ty.fmt t).round 0 st (.fin neg (roundInt mode st neg n e).1 0)).code,
      if (roundInt mode st neg n e).2.1 then fxInexact else 0, (roundInt mode st neg n e).2.2⟩ := by
  unfold fv at h
  simp only [frndElem, h]

/-- A NaN or an infinity is its own integral value (R186). -/
theorem frndElem_special {v : Val} (hv : isSpecial v = true) (h : fv t x = v) :
    frndElem t mode st x = ⟨((Ty.fmt t).round 0 st v).code, 0, st⟩ := by
  unfold fv at h
  cases v with
  | nan => simp only [frndElem, h]
  | inf neg => simp only [frndElem, h]
  | fin => exact absurd hv Bool.false_ne_true

end

/-! ## Class codes -/

theorem classOf_le (f : Fmt) (x : Val) : classOf f x ≤ 8 := by
  cases x with
  | nan => exact le_rfl
  | inf neg => simp only [classOf]; split <;> omega
  | fin neg n e => simp only [classOf]; split_ifs <;> omega

theorem four_le_width (t : Ty) : 4 ≤ Ty.width t := by cases t <;> decide

/-- Every class code fits every sub-element (R182). -/
theorem classOf_mod (t : Ty) (f : Fmt) (x : Val) : classOf f x % 2 ^ Ty.width t = classOf f x :=
  Nat.mod_eq_of_lt ((classOf_le f x).trans_lt (lt_of_lt_of_le (by decide) (Nat.pow_le_pow_right two_pos (four_le_width t))))

/-! ## The statement -/

/-- A two-source floating form whose elements g computes retires with them, and they meet what g meets of sources that fit. -/
theorem byRounding_of_fpTwo {fm : Form} {con : Fields → Instr} {P : Fields → Srcs → Word → Rnd → Prop}
    {g : Fields → Nat → Nat → Word → Rnd} (hx : ∀ f s, exec (con f) s = fpTwo fm f s (g f))
    (hP : ∀ f x st, x.Fits (Ty.width f.ty) → P f x st (g f x.a x.b st)) : ByRounding fm con P := fun f s e _ h room => by
  refine ⟨fun l j st => g f (srcs fm f e l j).a (srcs fm f e l j).b st, fun l j st => hP f _ st (srcs_fits ..), ?_⟩
  rw [Retires, hx]
  exact fpForm_done h _ room

theorem exec_fmin (f : Fields) (s : State) : exec (.fmin f) s = execFmin f s := rfl
theorem exec_fmax (f : Fields) (s : State) : exec (.fmax f) s = execFmax f s := rfl
theorem exec_fabs (f : Fields) (s : State) : exec (.fabs f) s = execFabs f s := rfl
theorem exec_fneg (f : Fields) (s : State) : exec (.fneg f) s = execFneg f s := rfl
theorem exec_frnd (f : Fields) (s : State) : exec (.frnd f) s = execFrnd f s := rfl

/-- Settles O4: fmin and fmax by which sources are NaN, fabs and fneg by their source, frnd by the kind of value, fcmp and fclass by
what their function gives. -/
theorem floatSelection : Obligations.FloatSelection := by
  unfold Obligations.FloatSelection
  refine ⟨⟨byRounding_of_fpTwo exec_fmin fun f x st fits => ?fmin, byRounding_of_fpTwo exec_fmax fun f x st fits => ?fmax,
      byRounding_of_fpOne exec_fabs fun f x st => ?fabs, byRounding_of_fpOne exec_fneg fun f x st => ?fneg⟩,
    byRounding_of_fpOne exec_frnd fun f x st => ?frnd,
    byElement_of_elems (q := fun f x => maskOf (Ty.width f.ty) (fltPred f.op (fv f.ty x.a) (fv f.ty x.b))) (fun _ _ => rfl)
      fun _ _ _ => maskOf_mod ..,
    byElement_of_elems (q := fun f x => classOf (Ty.fmt f.ty) (fv f.ty x.a)) (fun _ _ => rfl) fun _ _ _ => classOf_mod ..⟩
  case fmin =>
    exact ⟨rfl, rfl, fminmax_nan_left _ fits.b, fminmax_nan_right _ fits.a, fminmax_nan_nan _,
      fun ha hb => ⟨fminmax_source _ ha hb, fv_fminmax _ ha hb ▸ picked_least ..⟩⟩
  case fmax =>
    exact ⟨rfl, rfl, fminmax_nan_left _ fits.b, fminmax_nan_right _ fits.a, fminmax_nan_nan _,
      fun ha hb => ⟨fminmax_source _ ha hb, fv_fminmax _ ha hb ▸ picked_greatest ..⟩⟩
  case fabs => exact ⟨rfl, rfl, rfl⟩
  case fneg =>
    refine ⟨rfl, rfl, ?_⟩
    split
    · exact signOp_nan _ ‹_›
    · next number =>
      have mag := Nat.mod_lt x.a (Nat.two_pow_pos ((Ty.fmt f.ty).bits - 1))
      simp only [signOp_number _ (Bool.eq_false_of_not_eq_true number)]
      exact ⟨Fmt.sign_lt _ (fmt_bits_pos _) mag, Fmt.sign_mod _ mag, Fmt.testBit_sign _ mag⟩
  case frnd =>
    cases hv : fv f.ty x.a with
    | nan => rw [frndElem_special rfl hv]; exact ⟨rfl, rfl, rfl⟩
    | inf neg => rw [frndElem_special rfl hv]; exact ⟨rfl, rfl, rfl⟩
    | fin neg n e => rw [frndElem_fin hv]; exact ⟨rfl, rfl, rfl⟩

end Sys2Proof.Machine
end

section
/-! SUPPORT. Votes and shuffles over the active lanes: the lanes they read and the word they make (10_lanes R191, R196, R200, R201). -/

namespace Sys2Proof.Machine

open Sys2Proof

/-! ## Lane-wise forms that read other lanes -/

/-- A lane-wise form retires with its results, and each active lane's meets what is shown of it. -/
theorem byLaneP_of_lanewise {fm : Form} {con : Fields → Instr} {P : Fields → Env → Regs → Nat → Word → Prop}
    {g : Fields → Env → Regs → Nat → Word} (hx : ∀ f s, exec (con f) s = lanewise fm f s (g f))
    (hP : ∀ f e r l, P f e r l (g f e r l)) : ByLaneP fm con P := fun f s e h room =>
  ⟨g f e (regsF fm f), fun l _ _ => hP f e _ l, byLane_of_lanewise hx f s e h room⟩

theorem contains_acts (e : Env) (l : Nat) : e.acts.contains l = inLanes e.act l := by
  rw [Bool.eq_iff_iff, List.contains_iff_mem, mem_acts]

/-! ## Votes and masks -/

theorem some_lane_true (e : Env) (r : Regs) : decide (0 < (trueLanes e r).length) = e.acts.any fun l => e.va r l != 0 := by
  rw [Bool.eq_iff_iff, decide_eq_true_iff, trueLanes, List.length_filter_pos_iff, List.any_eq_true]

theorem every_lane_true (e : Env) (r : Regs) : ((trueLanes e r).length == e.acts.length) = e.acts.all fun l => e.va r l != 0 := by
  rw [Bool.eq_iff_iff, beq_iff_eq, trueLanes, List.length_filter_eq_length_iff, List.all_eq_true]

theorem no_lane_true (e : Env) (r : Regs) : ((trueLanes e r).length == 0) = e.acts.all fun l => e.va r l == 0 := by
  rw [Bool.eq_iff_iff, beq_iff_eq, trueLanes, List.length_eq_zero_iff, List.filter_eq_nil_iff, List.all_eq_true]
  simp only [bne_iff_ne, not_not, beq_iff_eq]

/-- What vote tells of the active lanes (R196). -/
def voteOf (e : Env) (r : Regs) : Nat → Bool
  | 0 => e.acts.any fun l => e.va r l != 0
  | 1 => e.acts.all fun l => e.va r l != 0
  | 2 => e.acts.all fun l => e.va r l == e.va r (lowLane e.act)
  | 3 => e.acts.all fun l => e.va r l == 0
  | _ => decide (e.acts.length < 2 * (e.acts.filter fun l => e.va r l != 0).length)

theorem exec_vote (f : Fields) (s : State) : exec (.vote f) s = lanewise Forms.vote f s fun e r _ => allOnes (voteOf e r f.op) := by
  change execVote f s = _
  unfold execVote pathForm
  refine congrArg (lanewise Forms.vote f s) (funext fun e => funext fun r => funext fun _ => congrArg allOnes ?_)
  match f.op with
  | 0 => exact some_lane_true e r
  | 1 => exact every_lane_true e r
  | 2 => rfl
  | 3 => exact no_lane_true e r
  | _ + 4 => rfl

/-- A set of lanes as a mask, zero-extended (R196). -/
theorem getLsbD_mask (p : Nat → Bool) (k : Nat) : (word (lanesWhere p).toNat).getLsbD k = (decide (k < 32) && p k) := by
  rw [← inLanes_where, word, BitVec.getLsbD_ofNat, BitVec.testBit_toNat, inLanes]
  cases hb : (lanesWhere p).getLsbD k with
  | false => exact Bool.and_false _
  | true => simpa using (BitVec.lt_of_getLsbD hb).trans (by decide : 32 < 64)

/-- The mask of the active lanes that satisfy p. -/
theorem getLsbD_mask_acts {q : Nat → Bool} {e : Env} {p : Nat → Bool} (h : ∀ m, q m = (inLanes e.act m && p m)) (k : Nat) :
    (word (lanesWhere q).toNat).getLsbD k = (inLanes e.act k && p k) := by
  rw [getLsbD_mask, h]
  cases hk : inLanes e.act k with
  | false => simp
  | true => simp [inLanes_lt hk]

theorem contains_trueLanes (e : Env) (r : Regs) (m : Nat) : (trueLanes e r).contains m = (inLanes e.act m && e.va r m != 0) := by
  rw [Bool.eq_iff_iff, List.contains_iff_mem, trueLanes, List.mem_filter, mem_acts, Bool.and_eq_true]

/-! ## Shuffles -/

theorem shuffleLane_some (e : Env) (r : Regs) (f : Fields) (l m : Nat) :
    shuffleLane e r f l (some m) = if inLanes e.act m then e.va r m else fallback e r f l := by
  simp only [shuffleLane, contains_acts]

/-- A lane m that is the source only if it exists (p) and lies in the segment (q). -/
theorem shuffleLane_guarded (e : Env) (r : Regs) (f : Fields) (l m : Nat) (p q : Prop) [Decidable p] [Decidable q] :
    shuffleLane e r f l (if p ∧ q then some m else none) = if p ∧ q ∧ inLanes e.act m then e.va r m else fallback e r f l := by
  by_cases h : p ∧ q
  · simp [h, shuffleLane_some]
  · rw [if_neg h, if_neg fun k => h ⟨k.1, k.2.1⟩]; rfl

theorem shiftSrc_up (f : Fields) (l : Nat) : shiftSrc f true l =
    if bits 4 0 f.imm ≤ l ∧ (l - bits 4 0 f.imm) / (32 >>> bits 10 8 f.imm) = l / (32 >>> bits 10 8 f.imm) then
      some (l - bits 4 0 f.imm) else none := by
  by_cases h : bits 4 0 f.imm ≤ l <;> simp [shiftSrc, h]

theorem shiftSrc_down (f : Fields) (l : Nat) : shiftSrc f false l =
    if l + bits 4 0 f.imm < 32 ∧ (l + bits 4 0 f.imm) / (32 >>> bits 10 8 f.imm) = l / (32 >>> bits 10 8 f.imm) then
      some (l + bits 4 0 f.imm) else none := by
  by_cases h : l + bits 4 0 f.imm < 32 <;> simp [shiftSrc, h]

theorem exec_ballot (f : Fields) (s : State) : exec (.ballot f) s = lanewise Forms.ballot f s fun e r _ =>
    word (lanesWhere fun l => (trueLanes e r).contains l).toNat := rfl
theorem exec_elect (f : Fields) (s : State) : exec (.elect f) s = execElect f s := rfl
theorem exec_match (f : Fields) (s : State) : exec (.matchOp f) s = execMatch f s := rfl
theorem exec_pwidth (f : Fields) (s : State) : exec (.pwidth f) s = execPwidth f s := rfl
theorem exec_shfl (f : Fields) (s : State) : exec (.shfl f) s = execShfl f s := rfl
theorem exec_shfx (f : Fields) (s : State) : exec (.shfx f) s = execShfx f s := rfl
theorem exec_shfup (f : Fields) (s : State) : exec (.shfup f) s = execShfup f s := rfl
theorem exec_shfdn (f : Fields) (s : State) : exec (.shfdn f) s = execShfdn f s := rfl
theorem exec_bcast (f : Fields) (s : State) : exec (.bcast f) s = execBcast f s := rfl

/-- Settles O6: each form's word, lane by lane, by which lanes it reads. -/
theorem laneVotes : Obligations.LaneVotes := by
  unfold Obligations.LaneVotes
  refine ⟨⟨byLaneP_of_lanewise exec_vote fun _ _ _ _ => rfl,
      byLaneP_of_lanewise exec_ballot fun _ e r _ => getLsbD_mask_acts (contains_trueLanes e r),
      byLaneP_of_lanewise exec_elect fun _ _ _ _ => rfl,
      byLaneP_of_lanewise exec_match fun _ e _ _ => getLsbD_mask_acts fun m => congrArg (· && _) (contains_acts e m),
      byLaneP_of_lanewise exec_pwidth fun _ _ _ _ => rfl⟩,
    byLaneP_of_lanewise exec_shfl fun _ _ _ _ => shuffleLane_some ..,
    byLaneP_of_lanewise exec_shfx fun _ _ _ _ j hj => ?shfx,
    byLaneP_of_lanewise exec_shfup fun _ _ _ _ => ?shfup,
    byLaneP_of_lanewise exec_shfdn fun _ _ _ _ => ?shfdn,
    byLaneP_of_lanewise exec_bcast fun _ _ _ _ => ?bcast⟩
  case shfx =>
    simp only [subElem_mapElems (width_pos _) hj, contains_acts]
    refine Nat.mod_eq_of_lt ?_
    split <;> exact subElem_lt (width_pos _) _
  case shfup => rw [shiftSrc_up, shuffleLane_guarded]
  case shfdn => rw [shiftSrc_down, shuffleLane_guarded]
  case bcast =>
    simp only [contains_acts]
    split
    · intro j hj
      rw [spread, subElem_mapElems (width_pos _) hj, Nat.mod_eq_of_lt (subElem_lt (width_pos _) _)]
    · rfl

end Sys2Proof.Machine
end

section
/-! SUPPORT. Reductions and scans over the active lanes: the values that combining in ascending order gives (10_lanes R198, Table XL-2). -/

namespace Sys2Proof.Machine

open Sys2Proof

theorem acts_ascending (e : Env) : e.acts.Pairwise (· < ·) := List.pairwise_lt_range.filter _

section
variable (o : Nat) (t : Ty) (mode : Nat) (excl : Bool) (x : Nat → Nat)

/-- The elements x of lanes combined with acc, in the order of the list (R198). -/
def combOnto (acc : Nat) (ls : List Nat) : Nat := ls.foldl (fun acc l => (combElem o t mode acc (x l)).1) acc

/-- The elements x of a list of lanes combined in its order, or id where there are none (R198). -/
def combined (id : Nat) : List Nat → Nat
  | [] => id
  | l0 :: ls => combOnto o t mode x (x l0) ls

/-- What a scan gives each lane of a list whose elements are combined with acc (R198). -/
def scanned : Nat → List Nat → List (Nat × Nat)
  | _, [] => []
  | acc, l :: ls => (l, if excl then acc else combOnto o t mode x acc [l]) :: scanned (combOnto o t mode x acc [l]) ls

/-- What a scan carries from step to step: what the lanes so far received, the value, the flags, and how many lanes are left. -/
abbrev ScanAcc := List (Nat × Nat) × Nat × List (Nat × Nat) × Nat

/-- One step of a scan, for lane l (R198). -/
def scanStep (a : ScanAcc) (l : Nat) : ScanAcc :=
  let c := if excl && a.2.2.2 == 1 then (a.2.1, 0) else combElem o t mode a.2.1 (x l)
  (a.1 ++ [(l, if excl then a.2.1 else c.1)], c.1, a.2.2.1 ++ [(l, c.2)], a.2.2.2 - 1)

variable {o t mode excl x}

/-- Without exclusion every step combines. -/
theorem scanStep_inclusive (a : ScanAcc) (l : Nat) :
    (scanStep o t mode false x a l).2.1 = combOnto o t mode x a.2.1 [l] := rfl

/-- A reduction ends with all elements combined (R198). -/
theorem foldl_scanStep_value (ls : List Nat) (a : ScanAcc) :
    (ls.foldl (scanStep o t mode false x) a).2.1 = combOnto o t mode x a.2.1 ls := by
  induction ls generalizing a with
  | nil => rfl
  | cons l ls ih => rw [List.foldl_cons, ih, scanStep_inclusive]; rfl

theorem scanElem_value (ls : List Nat) : (scanElem o t mode false x ls).2.1 = combined o t mode x 0 ls := by
  cases ls with
  | nil => rfl
  | cons l0 ls => exact foldl_scanStep_value ls _

/-- The steps give what a scan gives; in an exclusive one the last lane's element, which is not combined, would only have reached lanes
after it (R198). -/
theorem foldl_scanStep_lanes (ls : List Nat) (r : List (Nat × Nat)) (acc : Nat) (fl : List (Nat × Nat)) :
    (ls.foldl (scanStep o t mode excl x) (r, acc, fl, ls.length)).1 = r ++ scanned o t mode excl x acc ls := by
  induction ls generalizing r acc fl with
  | nil => simp [scanned]
  | cons l ls ih =>
    rw [List.foldl_cons, scanned]
    by_cases last : (excl && ls.length + 1 == 1) = true
    · obtain ⟨hx, hl⟩ := Bool.and_eq_true_iff.1 last
      obtain rfl : ls = [] := by simpa using hl
      simp [scanStep, hx, scanned]
    · simp only [scanStep, List.length_cons, if_neg last, Nat.add_sub_cancel, ih, List.append_assoc]
      rfl

theorem scanElem_lanes (l0 : Nat) (ls : List Nat) : (scanElem o t mode excl x (l0 :: ls)).1 =
    (l0, if excl then combId o t else x l0) :: scanned o t mode excl x (x l0) ls := foldl_scanStep_lanes ls _ _ _

/-- Whether a scan combines lane m into what lane l receives (R198). -/
def combines (excl : Bool) (l m : Nat) : Bool := if excl then decide (m < l) else decide (m ≤ l)

/-- The lowest lane of an ascending list receives its own element, or in an exclusive scan none. -/
theorem filter_combines_lowest {l : Nat} {ls : List Nat} (above : ∀ m ∈ ls, l < m) :
    (l :: ls).filter (combines excl l) = if excl then [] else [l] := by
  have others : ls.filter (combines excl l) = [] := List.filter_eq_nil_iff.2 fun m hm => by
    have := above m hm
    cases excl <;> simp [combines] <;> omega
  rw [List.filter_cons, others]
  cases excl <;> simp [combines]

theorem filter_combines_below {k l : Nat} (below : k < l) (ls : List Nat) :
    (k :: ls).filter (combines excl l) = k :: ls.filter (combines excl l) :=
  List.filter_cons_of_pos (by cases excl <;> simp [combines, below, below.le])

theorem val_head (v : Nat) (ls : List (Nat × Nat)) (l : Nat) : Tab.val 0 ((l, v) :: ls) l = v := by
  rw [Tab.val, Tab.look, if_pos rfl, Option.getD_some]

theorem val_tail {k l : Nat} (h : k ≠ l) (v : Nat) (ls : List (Nat × Nat)) : Tab.val 0 ((k, v) :: ls) l = Tab.val 0 ls l := by
  rw [Tab.val, Tab.look, if_neg h, Tab.val]

/-- Each lane of an ascending list receives acc combined with the elements that a scan combines into it. -/
theorem val_scanned {ls : List Nat} (asc : ls.Pairwise (· < ·)) {l : Nat} (hl : l ∈ ls) (acc : Nat) :
    Tab.val 0 (scanned o t mode excl x acc ls) l = combOnto o t mode x acc (ls.filter (combines excl l)) := by
  induction ls generalizing acc with
  | nil => cases hl
  | cons k ls ih =>
    obtain ⟨above, asc⟩ := List.pairwise_cons.1 asc
    rcases List.mem_cons.1 hl with rfl | hl
    · rw [filter_combines_lowest above, scanned, val_head]
      cases excl <;> rfl
    · rw [filter_combines_below (above l hl), scanned, val_tail (above l hl).ne]
      exact ih asc hl _

/-- Each lane of an ascending list receives the elements that a scan combines into it, combined (R198). -/
theorem val_scanElem {ls : List Nat} (asc : ls.Pairwise (· < ·)) {l : Nat} (hl : l ∈ ls) :
    Tab.val 0 (scanElem o t mode excl x ls).1 l = combined o t mode x (combId o t) (ls.filter (combines excl l)) := by
  cases ls with
  | nil => cases hl
  | cons k ls =>
    obtain ⟨above, asc⟩ := List.pairwise_cons.1 asc
    rw [scanElem_lanes]
    rcases List.mem_cons.1 hl with rfl | hl
    · rw [filter_combines_lowest above, val_head]
      cases excl <;> rfl
    · rw [filter_combines_below (above l hl), val_tail (above l hl).ne]
      exact val_scanned asc hl _

/-! ## Flags -/

/-- No operator on an integer or pattern raises a flag (Table XL-2). -/
theorem combElem_flags (ht : Ty.isFloat t = false) (acc y : Nat) : (combElem o t mode acc y).2 = 0 := by
  unfold combElem
  rw [if_neg (ne_true_of_eq_false ht)]

theorem foldl_scanStep_flags (ht : Ty.isFloat t = false) (ls : List Nat) (a : ScanAcc)
    (ha : ∀ y ∈ a.2.2.1, y.2 = 0) : ∀ y ∈ (ls.foldl (scanStep o t mode excl x) a).2.2.1, y.2 = 0 := by
  induction ls generalizing a with
  | nil => exact ha
  | cons l ls ih =>
    refine ih _ fun y hy => ?_
    rcases List.mem_append.1 hy with hy | hy
    · exact ha y hy
    · obtain rfl := List.mem_singleton.1 hy
      dsimp only
      split
      · rfl
      · exact combElem_flags ht ..

theorem scanElem_flags (ht : Ty.isFloat t = false) (ls : List Nat) : ∀ y ∈ (scanElem o t mode excl x ls).2.2, y.2 = 0 := by
  cases ls with
  | nil => simp [scanElem]
  | cons l0 ls => exact foldl_scanStep_flags ht ls _ (by simp)

end

/-- Lanes have no flags where no step raised one. -/
theorem flagsByLane_none {fs : List (Nat × Nat)} (h : ∀ y ∈ fs, y.2 = 0) (acts : List Nat) : ∀ y ∈ flagsByLane acts fs, y.2 = 0 := by
  intro y hy
  obtain ⟨l, -, rfl⟩ := List.mem_map.1 hy
  refine List.foldlRecOn (motive := (· = 0)) fs _ rfl fun n hn z hz => ?_
  rw [hn, h z hz]
  exact ite_self 0

/-! ## The forms -/

/-- Room for d is room for any values in d, whatever flags are raised. -/
theorem roomD_flags {e : Env} {r : Regs} (h : RoomD e r) (x : Nat → Word) (ex : List (Nat × Nat)) :
    Room e r { e.put r x with ex := ex } e.hw := by
  refine (room_congr ?_ ?_ ?_).1 (roomD_put h x) <;> rfl

/-- What lred or scan finds at element j of the active lanes (R198). -/
def scanAt (f : Fields) (e : Env) (r : Regs) (excl : Bool) (j : Nat) : List (Nat × Nat) × Nat × List (Nat × Nat) :=
  scanElem (bits 2 0 f.b.toNat) f.ty f.op excl (fun l => subElem (Ty.width f.ty) j (e.va r l)) e.acts

/-- The flags of all elements, by lane. -/
def scanFlags (f : Fields) (e : Env) (r : Regs) (excl : Bool) : List (Nat × Nat) :=
  flagsByLane e.acts (((List.range (64 / Ty.width f.ty)).map (scanAt f e r excl)).flatMap (·.2.2))

theorem scanFlags_none {f : Fields} (ht : Ty.isFloat f.ty = false) (e : Env) (r : Regs) (excl : Bool) :
    ∀ y ∈ scanFlags f e r excl, y.2 = 0 := by
  refine flagsByLane_none (fun y hy => ?_) _
  obtain ⟨z, hz, hy⟩ := List.mem_flatMap.1 hy
  obtain ⟨j, -, rfl⟩ := List.mem_map.1 hz
  exact scanElem_flags ht _ y hy

theorem exec_lred (f : Fields) (s : State) : exec (.lred f) s = execLred f s := rfl
theorem exec_scan (f : Fields) (s : State) : exec (.scan f) s = execScan f s := rfl

theorem lred_retires {f : Fields} {s : State} {e : Env} (h : Issues Forms.lred f s e) (room : RoomD e (regsF Forms.lred f)) :
    Retires (.lred f) s e (regsF Forms.lred f) { e.put (regsF Forms.lred f) (fun _ => mapElems (Ty.width f.ty) fun j =>
      canon f.ty (scanAt f e (regsF Forms.lred f) false j).2.1) with ex := scanFlags f e (regsF Forms.lred f) false } e.hw := by
  refine retires_of_issueF h (exec_lred f s) ?_ (roomD_flags room _ _)
  dsimp only
  rw [List.map_map]
  rfl

theorem scan_retires {f : Fields} {s : State} {e : Env} (h : Issues Forms.scan f s e) (room : RoomD e (regsF Forms.scan f)) :
    Retires (.scan f) s e (regsF Forms.scan f) { e.put (regsF Forms.scan f) (fun l => mapElems (Ty.width f.ty) fun j =>
      canon f.ty (Tab.val 0 (scanAt f e (regsF Forms.scan f) (bit 3 f.b.toNat) j).1 l)) with
        ex := scanFlags f e (regsF Forms.scan f) (bit 3 f.b.toNat) } e.hw := by
  refine retires_of_issueF h (exec_scan f s) ?_ (roomD_flags room _ _)
  simp only [List.map_map]
  rfl

end Sys2Proof.Machine
end

section
/-! SUPPORT. Compaction and intersection over the active lanes: ranks in an ascending list, and the first position of a key (10_lanes R199,
R202). -/

namespace Sys2Proof.Machine

open Sys2Proof

/-! ## Compaction -/

/-- An element of an ascending list stands at the place that counts those below it, which are what an exclusive scan combines into it. -/
theorem getElem?_rank {ls : List Nat} (asc : ls.Pairwise (· < ·)) {m : Nat} (hm : m ∈ ls) :
    ls[(ls.filter fun k => decide (k < m)).length]? = some m := by
  induction ls with
  | nil => cases hm
  | cons k ls ih =>
    obtain ⟨above, asc⟩ := List.pairwise_cons.1 asc
    rcases List.mem_cons.1 hm with rfl | hm
    · rw [show (m :: ls).filter (fun k => decide (k < m)) = [] from filter_combines_lowest (excl := true) above]
      rfl
    · rw [show (k :: ls).filter (fun k => decide (k < m)) = _ from filter_combines_below (excl := true) (above m hm) ls,
        List.length_cons, List.getElem?_cons_succ]
      exact ih asc hm

/-- Whether compact picks lane m (R199). -/
def picks (e : Env) (r : Regs) (m : Nat) : Bool := inLanes e.act m && e.reg r.sh.b r.b m != 0

/-- Lane l's rank within the active lanes (R197, R199). -/
def rankOf (e : Env) (l : Nat) : Nat := (e.acts.filter fun m => decide (m < l)).length

/-- What compact gives lane l (R199). -/
def compacted (f : Fields) (e : Env) (r : Regs) (l : Nat) : Word :=
  match (e.acts.filter (picks e r))[rankOf e l]? with
  | some m => e.va r m
  | none => if f.op = 1 then e.vd r l else 0

theorem filter_picks (e : Env) (r : Regs) : e.acts.filter (fun m => e.reg r.sh.b r.b m != 0) = e.acts.filter (picks e r) :=
  List.filter_congr fun m hm => by rw [picks, mem_acts.1 hm, Bool.true_and]

theorem exec_compact (f : Fields) (s : State) : exec (.compact f) s = lanewise Forms.compact f s (compacted f) := by
  change execCompact f s = _
  unfold execCompact
  simp only [filter_picks]
  rfl

/-- A lane receives the picked lane that has as many picked lanes below it as the lane's rank. -/
theorem compacted_picked {f : Fields} {e : Env} {r : Regs} {l m : Nat} (hm : picks e r m = true)
    (hr : (e.acts.filter fun k => decide (k < m) && picks e r k).length = rankOf e l) : compacted f e r l = e.va r m := by
  have mem : m ∈ e.acts.filter (picks e r) := List.mem_filter.2 ⟨mem_acts.2 (Bool.and_eq_true_iff.1 hm).1, hm⟩
  have here := getElem?_rank ((acts_ascending e).filter _) mem
  rw [List.filter_filter, hr] at here
  simp only [compacted, here]

/-- A lane whose rank is past the picked lanes keeps d or receives 0. -/
theorem compacted_past {f : Fields} {e : Env} {r : Regs} {l : Nat} (h : (e.acts.filter (picks e r)).length ≤ rankOf e l) :
    compacted f e r l = if f.op = 1 then e.vd r l else 0 := by
  simp only [compacted, List.getElem?_eq_none h]

/-! ## Intersection -/

section
variable (f : Fields) (e : Env) (r : Regs)

/-- The element of b at a position (R202). -/
def keyAt (p : Nat) : Nat :=
  subElem (Ty.width f.ty) (p % (64 / Ty.width f.ty)) (e.reg r.sh.b r.b (p / (64 / Ty.width f.ty)))

/-- The padding key, which never matches (R202). -/
def padKey : Nat := 2 ^ Ty.width f.ty - 1

/-- The position and the key of element i of lane m of b, unless it is padding (R202). -/
def pairAt (m i : Nat) : Option (Nat × Nat) :=
  let k := subElem (Ty.width f.ty) i (e.reg r.sh.b r.b m)
  if k = padKey f then none else some (m * (64 / Ty.width f.ty) + i, k)

/-- The positions and keys of b that are not padding (R202). -/
def pairs : List (Nat × Nat) := e.acts.flatMap fun m => (List.range (64 / Ty.width f.ty)).filterMap (pairAt f e r m)

/-- What isect finds for a key: the first position that holds it, or padding (R202). -/
def found (k : Nat) : Nat := if k = padKey f then padKey f else match (pairs f e r).find? fun y => y.2 == k with
  | some y => y.1
  | none => padKey f

variable {f e r}

theorem pairAt_eq_some {m i : Nat} {y : Nat × Nat} : pairAt f e r m i = some y ↔
    m * (64 / Ty.width f.ty) + i = y.1 ∧ subElem (Ty.width f.ty) i (e.reg r.sh.b r.b m) = y.2 ∧ y.2 ≠ padKey f := by
  obtain ⟨p, k⟩ := y
  simp only [pairAt]
  split
  · simp_all
  · simp only [Option.some.injEq, Prod.mk.injEq]
    exact ⟨fun ⟨hp, hk⟩ => ⟨hp, hk, hk ▸ ‹_›⟩, fun ⟨hp, hk, _⟩ => ⟨hp, hk⟩⟩

/-- The lane of a position (R202). -/
theorem position_lane {n m i : Nat} (hi : i < n) : (m * n + i) / n = m := by
  rw [Nat.add_comm, Nat.add_mul_div_right _ _ (by omega), Nat.div_eq_of_lt hi, Nat.zero_add]

/-- The pairs of b: its active positions with their keys, except padding. -/
theorem mem_pairs {y : Nat × Nat} : y ∈ pairs f e r ↔
    inLanes e.act (y.1 / (64 / Ty.width f.ty)) = true ∧ keyAt f e r y.1 = y.2 ∧ y.2 ≠ padKey f := by
  have hn : 0 < 64 / Ty.width f.ty := Nat.div_pos (width_le _) (width_pos _)
  simp only [pairs, List.mem_flatMap, List.mem_filterMap, List.mem_range, mem_acts, pairAt_eq_some]
  constructor
  · rintro ⟨m, hm, i, hi, hp, hk⟩
    rw [← hp, keyAt, position_lane hi, Nat.mul_add_mod_of_lt hi]
    exact ⟨hm, hk⟩
  · rintro ⟨hm, hk⟩
    exact ⟨_, hm, _, Nat.mod_lt y.1 hn, Nat.div_add_mod' .., hk⟩

/-- The pairs stand in ascending order of their positions. -/
theorem pairs_ascending : (pairs f e r).Pairwise fun y z => y.1 < z.1 := by
  refine List.pairwise_flatMap.2 ⟨fun m _ => ?_, (acts_ascending e).imp fun {m m'} below y hy z hz => ?_⟩
  · refine List.Pairwise.filterMap _ (fun i i' below y hy z hz => ?_) List.pairwise_lt_range
    rw [← (pairAt_eq_some.1 hy).1, ← (pairAt_eq_some.1 hz).1]
    exact Nat.add_lt_add_left below _
  · obtain ⟨i, hi, hy⟩ := List.mem_filterMap.1 hy
    obtain ⟨i', -, hz⟩ := List.mem_filterMap.1 hz
    rw [← (pairAt_eq_some.1 hy).1, ← (pairAt_eq_some.1 hz).1]
    calc m * (64 / Ty.width f.ty) + i < (m + 1) * (64 / Ty.width f.ty) := by
          rw [Nat.succ_mul]
          exact Nat.add_lt_add_left (List.mem_range.1 hi) _
      _ ≤ m' * (64 / Ty.width f.ty) := Nat.mul_le_mul_right _ below
      _ ≤ _ := Nat.le_add_right ..

/-- The first of an ascending list that meets p stands no later than any other that does. -/
theorem find?_least {ls : List (Nat × Nat)} (asc : ls.Pairwise fun y z => y.1 < z.1) {p : Nat × Nat → Bool} {y z : Nat × Nat}
    (hy : ls.find? p = some y) (hz : z ∈ ls) (hp : p z = true) : y.1 ≤ z.1 := by
  obtain ⟨-, before, after, rfl, none⟩ := List.find?_eq_some_iff_append.1 hy
  rcases List.mem_append.1 hz with hz | hz
  · have := none z hz
    rw [hp] at this
    cases this
  · rcases List.mem_cons.1 hz with rfl | hz
    · exact le_rfl
    · exact ((List.pairwise_cons.1 (List.pairwise_append.1 asc).2.1).1 z hz).le

theorem found_pad : found f e r (padKey f) = padKey f := if_pos rfl

/-- A key is found at a pair of b that has it, the first of them, or not at all. -/
theorem found_cases {k : Nat} (hk : k ≠ padKey f) :
    (found f e r k = padKey f ∧ ∀ y ∈ pairs f e r, y.2 ≠ k) ∨
    (∃ y ∈ pairs f e r, y.2 = k ∧ found f e r k = y.1 ∧ ∀ z ∈ pairs f e r, z.2 = k → y.1 ≤ z.1) := by
  rw [found, if_neg hk]
  cases hf : (pairs f e r).find? fun y => y.2 == k with
  | none => exact .inl ⟨rfl, fun y hy => by simpa using List.find?_eq_none.1 hf y hy⟩
  | some y =>
    have key : y.2 = k := by simpa using List.find?_some hf
    exact .inr ⟨y, List.mem_of_find?_eq_some hf, key, rfl, fun z hz h => find?_least pairs_ascending hf hz (beq_iff_eq.2 h)⟩

theorem found_absent {k : Nat} (h : ∀ p, inLanes e.act (p / (64 / Ty.width f.ty)) = true → keyAt f e r p ≠ k) :
    found f e r k = padKey f := by
  by_cases hk : k = padKey f
  · rw [hk, found_pad]
  rcases found_cases hk with ⟨hf, -⟩ | ⟨y, hy, rfl, -⟩
  · exact hf
  · obtain ⟨act, key, -⟩ := mem_pairs.1 hy
    exact absurd key (h _ act)

theorem found_first {k p : Nat} (hk : k ≠ padKey f) (act : inLanes e.act (p / (64 / Ty.width f.ty)) = true) (key : keyAt f e r p = k)
    (least : ∀ p' < p, inLanes e.act (p' / (64 / Ty.width f.ty)) = true → keyAt f e r p' ≠ k) : found f e r k = p := by
  have mem : (p, k) ∈ pairs f e r := mem_pairs.2 ⟨act, key, hk⟩
  rcases found_cases hk with ⟨-, none⟩ | ⟨y, hy, rfl, hf, first⟩
  · exact absurd rfl (none _ mem)
  · obtain ⟨act', key', -⟩ := mem_pairs.1 hy
    rw [hf]
    exact (first _ mem rfl).antisymm (not_lt.1 fun below => least _ below act' key')

/-- A position in a lane is below 32 n (R202). -/
theorem position_lt {p n : Nat} {m : Lanes} (hn : 0 < n) (h : inLanes m (p / n) = true) : p < 32 * n :=
  (Nat.div_lt_iff_lt_mul hn).1 (inLanes_lt h)

/-- What is found fits an element of a type of isect (R202). -/
theorem found_lt (ht : f.ty ∈ Forms.isect.tys) (k : Nat) : found f e r k < 2 ^ Ty.width f.ty := by
  have pad : padKey f < 2 ^ Ty.width f.ty := Nat.sub_lt (Nat.two_pow_pos _) Nat.one_pos
  by_cases hk : k = padKey f
  · rwa [hk, found_pad]
  rcases found_cases hk with ⟨hf, -⟩ | ⟨y, hy, -, hf, -⟩
  · rwa [hf]
  · rw [hf]
    have fits : ∀ t ∈ Forms.isect.tys, 0 < 64 / Ty.width t ∧ 32 * (64 / Ty.width t) < 2 ^ Ty.width t := by decide
    exact (position_lt (fits _ ht).1 (mem_pairs.1 hy).1).trans (fits _ ht).2

/-- What isect gives lane l (R202). -/
def matched (f : Fields) (e : Env) (r : Regs) (l : Nat) : Word :=
  mapElems (Ty.width f.ty) fun i => found f e r (subElem (Ty.width f.ty) i (e.va r l))

theorem subElem_matched (ht : f.ty ∈ Forms.isect.tys) {j : Nat} (hj : j < 64 / Ty.width f.ty) (l : Nat) :
    subElem (Ty.width f.ty) j (matched f e r l) = found f e r (subElem (Ty.width f.ty) j (e.va r l)) := by
  rw [matched, subElem_mapElems (width_pos _) hj, Nat.mod_eq_of_lt (found_lt ht _)]

/-- How many keys of the active lanes were found (R202). -/
def matchCount (f : Fields) (e : Env) (r : Regs) : Nat :=
  (e.acts.map fun l => ((List.range (64 / Ty.width f.ty)).filter fun j =>
    subElem (Ty.width f.ty) j (matched f e r l) != padKey f).length).sum

/-- Counting the positions found counts the elements that are not padding. -/
theorem count_found (ht : f.ty ∈ Forms.isect.tys) :
    ((e.acts.map fun l => (l, (List.range (64 / Ty.width f.ty)).map fun i => found f e r (subElem (Ty.width f.ty) i (e.va r l)))).flatMap
      fun x => x.2.filter (· != padKey f)).length = matchCount f e r := by
  rw [List.length_flatMap, List.map_map, matchCount]
  refine congrArg List.sum (List.map_congr_left fun l _ => ?_)
  rw [Function.comp_apply, List.filter_map, List.length_map]
  refine congrArg List.length (List.filter_congr fun j hj => ?_)
  rw [Function.comp_apply, subElem_matched ht (List.mem_range.1 hj)]

end

/-- What isect writes: x in each active lane of d, and the count n in c (R202). -/
def isectWrites (e : Env) (r : Regs) (x : Nat → Word) (n : Word) : Writes :=
  { v := e.acts.map fun l => (32 * r.d + l, x l), s := [(r.c, n)] }

theorem room_isectWrites {e : Env} {r : Regs} {x : Nat → Word} {n : Word} (h : Room e r (isectWrites e r x n) e.hw)
    (x' : Nat → Word) (n' : Word) : Room e r (isectWrites e r x' n') e.hw := by
  refine (room_congr ?_ ?_ ?_).1 h <;> simp [isectWrites, Function.comp_def]

theorem exec_isect (f : Fields) (s : State) : exec (.isect f) s = execIsect f s := rfl

theorem isect_retires {f : Fields} {s : State} {e : Env} (ht : f.ty ∈ Forms.isect.tys) (h : Issues Forms.isect f s e)
    (room : Room e (regsF Forms.isect f) (isectWrites e (regsF Forms.isect f) (fun _ => 0) 0) e.hw) :
    Retires (.isect f) s e (regsF Forms.isect f) (isectWrites e (regsF Forms.isect f) (matched f e (regsF Forms.isect f))
      (word (matchCount f e (regsF Forms.isect f)))) e.hw := by
  refine retires_of_issueF h (exec_isect f s) ?_ (room_isectWrites room ..)
  rw [isectWrites, ← count_found ht]
  simp only [List.map_map]
  rfl

/-- Settles O7: lred and scan by what combining in ascending order gives, compact by ranks, isect by the first position of a key. -/
theorem laneReductions : Obligations.LaneReductions := by
  unfold Obligations.LaneReductions
  refine ⟨fun f s e h room => ?lred, fun f s e h room => ?scan,
    byLaneP_of_lanewise exec_compact fun f e r l => ⟨fun m _ => compacted_picked, compacted_past⟩,
    fun f s e ht h => ?isect⟩
  case lred =>
    refine ⟨_, _, fun j hj => ?_, fun ht => scanFlags_none ht e _ _, lred_retires h room⟩
    rw [subElem_mapElems (width_pos _) hj, scanAt, scanElem_value]
    rfl
  case scan =>
    refine ⟨_, _, fun l j _ act hj => ?_, fun ht => scanFlags_none ht e _ _, scan_retires h room⟩
    rw [subElem_mapElems (width_pos _) hj, scanAt, val_scanElem (acts_ascending e) (mem_acts.2 act)]
    rfl
  case isect =>
    intro r w n pad here b room
    refine ⟨matched f e r, fun l j _ _ hj => ?_, isect_retires ht h room⟩
    rw [subElem_matched ht hj]
    have active {p : Nat} (act : inLanes e.act (p / n) = true) : here p :=
      ⟨position_lt (Nat.div_pos (width_le _) (width_pos _)) act, act⟩
    exact ⟨fun hk => (congrArg _ hk).trans found_pad, fun _ none => found_absent fun p act => none p (active act),
      fun p hk hp key least => found_first hk hp.2 key fun p' below act => least p' below (active act)⟩

end Sys2Proof.Machine
end

section
/-! SUPPORT. Bytes of a block's scratchpad, and what room for registers depends on (11_scratchpad R212; 06_registers R127, R128). -/

namespace Sys2Proof.Machine

open Sys2Proof

/-! ## Stores in order -/

@[simp] theorem length_toBytes (k n : Nat) : (toBytes k n).length = k := by
  induction k generalizing n with
  | zero => rfl
  | succ k ih => simp [toBytes, ih]

/-- A table of bytes after byte strings are stored in it, one after another. -/
def storeAll (l : List (Nat × List Byte)) (t : Tab Byte) : Tab Byte := l.foldl (fun t x => storeBytes t x.1 x.2) t

theorem storeAll_uncovered {l : List (Nat × List Byte)} (t : Tab Byte) {y : Nat} (h : ∀ x ∈ l, y < x.1 ∨ x.1 + x.2.length ≤ y) :
    (storeAll l t).val 0 y = t.val 0 y := by
  induction l generalizing t with
  | nil => rfl
  | cons x l ih =>
    obtain ⟨hx, h⟩ := List.forall_mem_cons.1 h
    exact (ih _ h).trans ((val_storeBytes ..).trans (if_neg (by omega)))

theorem storeAll_last (l : List (Nat × List Byte)) (t : Tab Byte) (i : Nat) (x : Nat × List Byte) (k : Nat) (hx : l[i]? = some x)
    (hk : k < x.2.length)
    (later : ∀ (j : Nat) (z : Nat × List Byte), i < j → l[j]? = some z → x.1 + k < z.1 ∨ z.1 + z.2.length ≤ x.1 + k) :
    (storeAll l t).val 0 (x.1 + k) = x.2.getD k 0 := by
  induction l generalizing t i with
  | nil => cases hx
  | cons y l ih =>
    cases i with
    | succ i => exact ih _ i hx fun j z hj hz => later (j + 1) z (by omega) hz
    | zero =>
      cases hx
      have rest : ∀ z ∈ l, x.1 + k < z.1 ∨ z.1 + z.2.length ≤ x.1 + k := fun z hz => by
        obtain ⟨j, hj⟩ := List.mem_iff_getElem?.1 hz
        exact later (j + 1) z (by omega) hj
      refine (storeAll_uncovered _ rest).trans ((val_storeBytes ..).trans ?_)
      rw [if_pos ⟨by omega, by omega⟩, Nat.add_sub_cancel_left]

theorem stored_storeAll (l : List (Nat × List Byte)) (t : Tab Byte) : Stored t (storeAll l t) l :=
  ⟨fun _ h => storeAll_uncovered t h, fun i x k => storeAll_last l t i x k⟩

/-- A block in which byte strings are stored one after another differs in its scratchpad alone. -/
theorem foldl_scrStore {α : Type} (y : α → Nat) (bs : α → List Byte) (ls : List α) (b : Block) :
    ls.foldl (fun b x => scrStore b (y x) (bs x)) b = { b with scr := storeAll (ls.map fun x => (y x, bs x)) b.scr } := by
  induction ls generalizing b with
  | nil => rfl
  | cons x ls ih => exact ih _

/-! ## Machines that differ in logs, and in a block -/

theorem SameButLogs.setBlock {a b : Hw} (h : SameButLogs a b) (k : Nat) (f : Block → Block) : SameButLogs (a.setBlock k f) (b.setBlock k f) := by
  obtain ⟨rest, parts⟩ := h
  exact ⟨by rw [rest]; rfl, parts⟩

theorem SameButLogs.blocks {a b : Hw} (h : SameButLogs a b) : b.blocks = a.blocks := by rw [h.rest]

/-- What an instruction did is the same on a machine that differs in the logs alone. -/
theorem Retired.of_logs {e : Env} {r : Regs} {w : Writes} {a b : Hw} {t : State} (R : Retired e r w b t) (L : SameButLogs a b) :
    Retired e r w a t := by
  obtain ⟨mem, time, only, ops, gang, path⟩ := R
  rw [L.ops] at ops gang
  rw [L.gangs] at gang path
  exact ⟨mem, time, (L.only e.gk).trans only, ops, gang, path⟩

theorem setBlock_congr {hw : Hw} {k : Nat} {b : Block} (hb : hw.blocks.look k = some b) {f g : Block → Block} (h : f b = g b) :
    hw.setBlock k f = hw.setBlock k g := by
  simp only [Hw.setBlock, Tab.upd, hb, h]

/-- A block that is in place, after byte strings are stored in its scratchpad. -/
theorem setBlock_stores {α : Type} {hw : Hw} {k : Nat} {b : Block} (hb : hw.blocks.look k = some b) (y : α → Nat) (bs : α → List Byte)
    (ls : List α) : hw.setBlock k (fun b => ls.foldl (fun b x => scrStore b (y x) (bs x)) b) =
      hw.setBlock k fun c => { c with scr := storeAll (ls.map fun x => (y x, bs x)) b.scr } := setBlock_congr hb (foldl_scrStore ..)

/-! ## Room for registers -/

/-- A machine with other partitions and blocks. -/
def Hw.around (hw : Hw) (ps : Tab Part) (bs : Tab Block) : Hw := { hw with parts := ps, blocks := bs }

theorem bind_map_congr {k : Hw → Hw} {x y : Option Hw} {f g : Hw → Option Hw} (hx : x = y.map k) (hf : ∀ h, f (k h) = (g h).map k) :
    x.bind f = (y.bind g).map k := by
  subst hx
  cases y with
  | none => rfl
  | some h => exact hf h

section
variable (ps : Tab Part) (bs : Tab Block)

theorem evict_around (core ctx : Nat) (sc must : Bool) (busy : List Nat) {full : Hw → Bool} (hf : ∀ h, full (h.around ps bs) = full h)
    (n : Nat) (hw : Hw) :
    evict (hw.around ps bs) core ctx sc must busy full n = (evict hw core ctx sc must busy full n).map (·.around ps bs) := by
  induction n generalizing hw with
  | zero => rfl
  | succ n ih =>
    simp only [evict, hf]
    cases full hw with
    | false => rfl
    | true =>
      simp only [Bool.not_true, Bool.false_eq_true, if_false]
      rw [apply_ite (Option.map _), apply_ite (Option.map _), apply_ite (Option.map _), ← ih]
      rfl

theorem makeRoom_around (hw : Hw) (core ctx : Nat) (busy : List Nat) (v s : Nat) :
    makeRoom (hw.around ps bs) core ctx busy v s = (makeRoom hw core ctx busy v s).map (·.around ps bs) :=
  bind_map_congr (evict_around ps bs _ _ _ _ _ (fun _ => rfl) _ hw) fun h => evict_around ps bs _ _ _ _ _ (fun _ => rfl) _ h

theorem reload_around (hw : Hw) (core ctx : Nat) (touch : List Nat) :
    reload (hw.around ps bs) core ctx touch = (reload hw core ctx touch).around ps bs := by
  simp only [reload]
  rw [apply_ite (Hw.around · ps bs)]
  rfl

/-- Room for registers does not depend on partitions and blocks. -/
theorem roomFor_around (hw : Hw) (core ctx cv cs v s : Nat) (touch : List Nat) :
    roomFor (hw.around ps bs) core ctx cv cs v s touch = (roomFor hw core ctx cv cs v s touch).map (·.around ps bs) := by
  have evicted (c : Prop) [Decidable c] (sc : Bool) (busy : List Nat) (full : Hw → Bool) (hf : ∀ h, full (h.around ps bs) = full h) (n : Nat)
      (h : Hw) : (if c then some (h.around ps bs) else evict (h.around ps bs) core ctx sc false busy full n) =
        (if c then some h else evict h core ctx sc false busy full n).map (·.around ps bs) := by
    rw [apply_ite (Option.map _), ← evict_around ps bs _ _ _ _ _ hf, Option.map_some]
  simp only [roomFor, reload_around]
  exact bind_map_congr (makeRoom_around ps bs ..) fun h =>
    bind_map_congr (evicted _ _ _ _ (fun _ => rfl) _ h) fun h => evicted _ _ _ _ (fun _ => rfl) _ h

theorem room_around {e : Env} {r : Regs} {w : Writes} {hw : Hw} : Room e r w (hw.around ps bs) ↔ Room e r w hw := by
  have h := congrArg Option.isSome (roomFor_around ps bs hw e.core e.ctx 4096 8192 (e.newV hw (w.v.map (·.1 / 32) ++ dstV w.ops))
    (e.newS hw (w.s.map (·.1) ++ dstS w.ops)) (touched e r w))
  rw [Option.isSome_map] at h
  rw [Room, Room, commit_isSome, commit_isSome]
  exact iff_of_eq (congrArg (· = true) h)

end

end Sys2Proof.Machine
end

section
/-! SUPPORT. Scratchpad loads, stores and atomics: which accesses trap and what the others do (11_scratchpad R209-R214; 14_atomics R278). -/

namespace Sys2Proof.Machine

open Sys2Proof

/-! ## Causes -/

/-- The lowest of ascending numbers that meet p comes first among those that do. -/
theorem filter_lowest {ls : List Nat} (asc : ls.Pairwise (· < ·)) {p : Nat → Bool} {k : Nat} (hk : k ∈ ls) (hp : p k = true)
    (low : ∀ l ∈ ls, l < k → p l = false) : ∃ rest, ls.filter p = k :: rest := by
  have mem : k ∈ ls.filter p := List.mem_filter.2 ⟨hk, hp⟩
  have asc' := asc.filter p
  cases h : ls.filter p with
  | nil => rw [h] at mem; cases mem
  | cons a rest =>
    rw [h] at mem asc'
    rcases List.mem_cons.1 mem with rfl | later
    · exact ⟨rest, rfl⟩
    · obtain ⟨ha, pa⟩ := List.mem_filter.1 (h ▸ List.mem_cons_self : a ∈ ls.filter p)
      rw [low a ha (List.rel_of_pairwise_cons asc' later)] at pa
      cases pa

/-- The lanes that a cause of a scratchpad access names are the active ones that meet it. -/
theorem inLanes_offenders (e : Env) (p : Nat → Bool) (l : Nat) :
    inLanes (lanesWhere fun k => (e.acts.filter p).contains k) l = (inLanes e.act l && p l) := by
  rw [← inLanes_where_and]
  refine congrArg (fun f => inLanes (lanesWhere f) l) (funext fun k => ?_)
  rw [Bool.eq_iff_iff, List.contains_iff_mem, List.mem_filter, mem_acts, Bool.and_eq_true]

section
variable {e : Env} {addr : Nat → Nat} {n : Nat} {out : Nat → Bool}

theorem scrTrap_none (h : ∀ l, inLanes e.act l = true → addr l % n = 0 ∧ out (addr l) = false) : scrTrap e addr n out = none := by
  have aligned : (e.acts.filter fun l => addr l % n != 0) = [] :=
    List.filter_eq_nil_iff.2 fun l hl => by simp [(h l (mem_acts.1 hl)).1]
  have inside : (e.acts.filter fun l => out (addr l)) = [] :=
    List.filter_eq_nil_iff.2 fun l hl => by simp [(h l (mem_acts.1 hl)).2]
  simp only [scrTrap, aligned, inside]

/-- A misaligned access reports the lowest misaligned lane (R212). -/
theorem scrTrap_misaligned {k : Nat} (hk : inLanes e.act k = true) (bad : addr k % n ≠ 0)
    (low : ∀ l, l < k → inLanes e.act l = true → addr l % n = 0) :
    ∃ hit, (∀ l, inLanes hit l = (inLanes e.act l && addr l % n != 0)) ∧
      scrTrap e addr n out = some { cause := 0x08, fault := scrFault (addr k), hit := hit } := by
  obtain ⟨rest, first⟩ := filter_lowest (p := fun l => addr l % n != 0) (acts_ascending e) (mem_acts.2 hk) (by simpa using bad)
    fun l hl hlt => by simpa using low l hlt (mem_acts.1 hl)
  refine ⟨_, inLanes_offenders e fun l => addr l % n != 0, ?_⟩
  simp only [scrTrap, first]

/-- An aligned access beyond the bounds reports the lowest lane that is (R212). -/
theorem scrTrap_outside {k : Nat} (hk : inLanes e.act k = true) (bad : out (addr k) = true)
    (aligned : ∀ l, inLanes e.act l = true → addr l % n = 0) (low : ∀ l, l < k → inLanes e.act l = true → out (addr l) = false) :
    ∃ hit, (∀ l, inLanes hit l = (inLanes e.act l && out (addr l))) ∧
      scrTrap e addr n out = some { cause := 0x05, fault := scrFault (addr k), hit := hit } := by
  have none : (e.acts.filter fun l => addr l % n != 0) = [] :=
    List.filter_eq_nil_iff.2 fun l hl => by simp [aligned l (mem_acts.1 hl)]
  obtain ⟨rest, first⟩ := filter_lowest (p := fun l => out (addr l)) (acts_ascending e) (mem_acts.2 hk) bad
    fun l hl hlt => low l hlt (mem_acts.1 hl)
  refine ⟨_, inLanes_offenders e fun l => out (addr l), ?_⟩
  simp only [scrTrap, none, first]

end

/-! ## Accesses to the issuing block -/

section
variable {fm : Form} {f : Fields} {s : State} {e : Env} (h : Issues fm f s e) {write : Bool} {body : Env → Regs → (Nat → Nat) → Hw → Res}
include h

theorem scrForm_traps {t : Trap}
    (ht : scrTrap e (scrAddr e (regsF fm f) f) (Ty.width f.ty / 8) (fun x => decide (e.scrBytes < x + Ty.width f.ty / 8)) = some t) :
    scrForm fm f s write body = .next (s.with (e.finish (regsF fm f) (.trap t))) := by
  simp only [scrForm, issueF_ok h, ht]

/-- An access whose lanes are aligned, inside the block and in no unit that is being exchanged takes place (R206, R212). -/
theorem scrForm_runs (free : e.acquiring = false)
    (fits : ∀ l, l < 32 → inLanes e.act l = true → scrAddr e (regsF fm f) f l % (Ty.width f.ty / 8) = 0 ∧
      scrAddr e (regsF fm f) f l + Ty.width f.ty / 8 ≤ e.scrBytes ∧
      unitBusy e.hw e.blk (swz (scrAddr e (regsF fm f) f l) (rotOf f)) = false) :
    let y (l : Nat) : Nat := swz (scrAddr e (regsF fm f) f l) (rotOf f)
    scrForm fm f s write body =
      .next (s.with (e.finish (regsF fm f) (body e (regsF fm f) y (touchScr e.hw e.g.block (e.acts.map y) write)))) := by
  have fits' l (hl : inLanes e.act l = true) := fits l (inLanes_lt hl) hl
  have safe := scrTrap_none (e := e) (addr := scrAddr e (regsF fm f) f) (n := Ty.width f.ty / 8)
    (out := fun x => decide (e.scrBytes < x + Ty.width f.ty / 8)) fun l hl => ⟨(fits' l hl).1, by simpa using (fits' l hl).2.1⟩
  have idle : (e.acts.any fun l => unitBusy e.hw e.blk (swz (scrAddr e (regsF fm f) f l) (rotOf f))) = false :=
    List.any_eq_false.2 fun l hl => by simp [(fits' l (mem_acts.1 hl)).2.2]
  simp only [scrForm, issueF_ok h, safe, free, idle, Bool.or_self, Bool.false_eq_true, if_false]

/-- A form that writes the scratchpad of its block retires, and then the waits for a barrier object are looked at (14_atomics R285). -/
theorem scrForm_writes {i : Instr} {w : Writes} {ys : List Nat} {n : Nat} {hw : Hw} {F : Block → Block} {x : Out}
    (hi : exec i s = thenWake s x)
    (hx : x = .next (s.with (e.finish (regsF fm f) (.done w ((e.noteScr n ys hw).setBlock e.g.block F)))))
    (room : Room e (regsF fm f) w hw) :
    ∃ t, Retired e (regsF fm f) w (hw.setBlock e.g.block F) t ∧ exec i s = .next (wakeBarw t e.g.block) := by
  have L : SameButLogs (hw.setBlock e.g.block F) ((e.noteScr n ys hw).setBlock e.g.block F) := (logStep_frame ..).setBlock ..
  have room' : Room e (regsF fm f) w ((e.noteScr n ys hw).setBlock e.g.block F) := by
    rw [L.rest]
    exact (room_around (hw := hw) _ _).2 room
  have R := (retired_any room').of_logs L
  rw [env_state h.here] at R
  exact ⟨_, R, by rw [hi, hx]; simp only [thenWake, h.here]⟩

end

/-! ## Atomics -/

section
variable (g : Nat → Nat → Option Nat) (y : Nat → Nat) (n : Nat)

/-- A block after lane l has performed its atomic: g gives what is stored in place of the value found, if anything (R278). -/
def atomStep (b : Block) (l : Nat) : Block :=
  match g l (scrRead b (y l) n) with
  | some v => scrStore b (y l) (toBytes n v)
  | none => b

/-- A block after the lanes ls have performed their atomics, one after another. -/
def atomBlock (ls : List Nat) (b : Block) : Block := ls.foldl (atomStep g y n) b

/-- Each lane's atomic acts on what those before it left. -/
theorem atomBlock_take {ls : List Nat} (b : Block) {i l : Nat} (h : ls[i]? = some l) :
    atomBlock g y n (ls.take (i + 1)) b = atomStep g y n (atomBlock g y n (ls.take i) b) l := by
  rw [List.take_add_one, h, atomBlock, List.foldl_append]
  rfl

/-- What a scratchpad atomic makes of its block, of the values z it finds and of the offsets it writes, lane by lane. -/
def atomAcc (z : Nat → Nat → Nat × Word) (x : Block × List (Nat × Word) × List Nat) (l : Nat) : Block × List (Nat × Word) × List Nat :=
  match g l (scrRead x.1 (y l) n) with
  | some v => (scrStore x.1 (y l) (toBytes n v), x.2.1 ++ [z l (scrRead x.1 (y l) n)], x.2.2 ++ [y l])
  | none => (x.1, x.2.1 ++ [z l (scrRead x.1 (y l) n)], x.2.2)

theorem atomAcc_spec (z : Nat → Nat → Nat × Word) (x : Block × List (Nat × Word) × List Nat) (l : Nat) :
    (atomAcc g y n z x l).1 = atomStep g y n x.1 l ∧ (atomAcc g y n z x l).2.1 = x.2.1 ++ [z l (scrRead x.1 (y l) n)] := by
  unfold atomAcc atomStep
  cases g l (scrRead x.1 (y l) n) <;> exact ⟨rfl, rfl⟩

theorem foldl_atomAcc (z : Nat → Nat → Nat × Word) (ls : List Nat) (x : Block × List (Nat × Word) × List Nat) :
    (ls.foldl (atomAcc g y n z) x).1 = atomBlock g y n ls x.1 ∧
      (ls.foldl (atomAcc g y n z) x).2.1 =
        x.2.1 ++ ls.mapIdx fun i l => z l (scrRead (atomBlock g y n (ls.take i) x.1) (y l) n) := by
  induction ls generalizing x with
  | nil => exact ⟨rfl, (List.append_nil _).symm⟩
  | cons l ls ih =>
    obtain ⟨block, vals⟩ := atomAcc_spec g y n z x l
    obtain ⟨ihb, ihv⟩ := ih (atomAcc g y n z x l)
    rw [block] at ihb ihv
    refine ⟨ihb, ihv.trans ?_⟩
    rw [vals, List.mapIdx_cons, List.append_assoc]
    rfl

end

/-- A scratchpad atomic acts lane by lane on what the lane before left, and its old values are its result (R278). -/
theorem satomForm_retires {fm : Form} {i : Instr} {f : Fields} {s : State} {e : Env} (g : Env → Regs → Nat → Nat → Option Nat)
    (hi : exec i s = satomForm fm f s g) (h : Issues fm f s e) (free : e.acquiring = false)
    (fits : ∀ l, l < 32 → inLanes e.act l = true → scrAddr e (regsF fm f) f l % (Ty.width f.ty / 8) = 0 ∧
      scrAddr e (regsF fm f) f l + Ty.width f.ty / 8 ≤ e.scrBytes ∧
      unitBusy e.hw e.blk (swz (scrAddr e (regsF fm f) f l) (rotOf f)) = false) :
    let r := regsF fm f
    let n := Ty.width f.ty / 8
    let y (l : Nat) : Nat := swz (scrAddr e r f l) (rotOf f)
    let hw := touchScr e.hw e.g.block (e.acts.map y) true
    Room e r { v := e.acts.map fun l => (32 * r.d + l, 0) } hw →
    ∃ (b : Nat → Block) (t : State), b 0 = hw.blocks.val {} e.g.block ∧
      (∀ i l, e.acts[i]? = some l → b (i + 1) = match g e r l (scrRead (b i) (y l) n) with
        | some v => scrStore (b i) (y l) (toBytes n v)
        | none => b i) ∧
      Retired e r { v := e.acts.mapIdx fun i l => (32 * r.d + l, loadValue f.ty (scrRead (b i) (y l) n)) }
        (hw.setBlock e.g.block fun _ => b e.acts.length) t ∧
      exec i s = .next (wakeBarw t e.g.block) := by
  intro r n y hw room
  let b0 := hw.blocks.val {} e.g.block
  let z (l old : Nat) : Nat × Word := (32 * r.d + l, loadValue f.ty old)
  let x := e.acts.foldl (atomAcc (g e r) y n z) (b0, [], [])
  obtain ⟨block, vals⟩ : x.1 = atomBlock (g e r) y n e.acts b0 ∧
    x.2.1 = e.acts.mapIdx fun i l => z l (scrRead (atomBlock (g e r) y n (e.acts.take i) b0) (y l) n) := foldl_atomAcc ..
  have room' : Room e r { v := x.2.1 } hw := by
    refine (room_congr (w' := { v := e.acts.map fun l => (32 * r.d + l, 0) }) ?_ ?_ ?_).2 room
    · rw [vals]
      exact List.ext_getElem? fun i => by simp [z, Function.comp_def]
    · rfl
    · rfl
  obtain ⟨t, R, ht⟩ := scrForm_writes (w := { v := x.2.1 }) (ys := x.2.2) (F := fun _ => x.1) h hi (scrForm_runs h free fits) room'
  rw [block, vals] at R
  refine ⟨fun i => atomBlock (g e r) y n (e.acts.take i) b0, t, rfl, fun i l hl => atomBlock_take (g e r) y n b0 hl, ?_, ht⟩
  simpa only [List.take_length] using R

/-! ## Cluster accesses -/

/-- Numbers put together by ascending rank, below rank n. -/
theorem flatMap_rank {ls : List Nat} (k : Nat → Nat) (n : Nat) :
    ((List.range n).flatMap fun i => ls.filter fun l => k l == i).Perm (ls.filter fun l => decide (k l < n)) ∧
      ((List.range n).flatMap fun i => ls.filter fun l => k l == i).Pairwise fun a b => k a ≤ k b := by
  induction n with
  | zero => simp
  | succ n ih =>
    obtain ⟨perm, sorted⟩ := ih
    have next {l : Nat} (hl : l ∈ ls.filter fun l => k l == n) : k l = n := by simpa using (List.mem_filter.1 hl).2
    have earlier {l : Nat} (hl : l ∈ (List.range n).flatMap fun i => ls.filter fun l => k l == i) : k l < n := by
      simpa using (List.mem_filter.1 (perm.mem_iff.1 hl)).2
    rw [List.range_succ, List.flatMap_append, List.flatMap_singleton]
    refine ⟨(perm.append_right _).trans ?_, List.pairwise_append.2 ⟨sorted, List.pairwise_of_forall_mem_list fun a ha b hb => ?_, ?_⟩⟩
    · have split := List.filter_append_perm (fun l => decide (k l < n)) (ls.filter fun l => decide (k l < n + 1))
      rw [List.filter_filter, List.filter_filter] at split
      have low : (fun l => decide (k l < n) && decide (k l < n + 1)) = fun l => decide (k l < n) := funext fun l => by
        rw [← Bool.decide_and]; exact decide_eq_decide.2 (by omega)
      have top : (fun l => (!decide (k l < n)) && decide (k l < n + 1)) = fun l => k l == n := funext fun l => by
        rw [Bool.eq_iff_iff, Bool.and_eq_true, Bool.not_eq_true', decide_eq_false_iff_not, decide_eq_true_iff, beq_iff_eq]; omega
      rwa [low, top] at split
    · rw [next ha, next hb]
    · intro a ha b hb
      rw [next hb]
      exact (earlier ha).le

/-- Lanes in the order of the ranks they name are the same lanes. -/
theorem byRank_perm {ls : List Nat} {y : Nat → Nat × Nat} (h : ∀ l ∈ ls, (y l).1 < 256) : (byRank ls y).Perm ls := by
  have perm := (flatMap_rank (ls := ls) (fun l => (y l).1) 256).1
  rwa [List.filter_eq_self.2 fun l hl => decide_eq_true (h l hl)] at perm

theorem byRank_ascending (ls : List Nat) (y : Nat → Nat × Nat) : (byRank ls y).Pairwise fun a b => (y a).1 ≤ (y b).1 :=
  (flatMap_rank (ls := ls) (fun l => (y l).1) 256).2

/-- A cluster access whose lanes are aligned and name bytes of blocks of the group starts (R212, R214). -/
theorem clusterForm_runs {fm : Form} {f : Fields} {s : State} {e : Env} (h : Issues fm f s e) {body : Env → Regs → (Nat → Nat × Nat) → Res}
    (free : e.acquiring = false)
    (fits : ∀ l, l < 32 → inLanes e.act l = true → scrAddr e (regsF fm f) f l % (Ty.width f.ty / 8) = 0 ∧
      clusterOut e (scrAddr e (regsF fm f) f l) (Ty.width f.ty / 8) = false) :
    clusterForm fm f s body = .next (s.with (e.finish (regsF fm f) (body e (regsF fm f) fun l =>
      (bits 26 19 (scrAddr e (regsF fm f) f l), swz (bits 18 0 (scrAddr e (regsF fm f) f l)) (rotOf f))))) := by
  have safe := scrTrap_none (e := e) (addr := scrAddr e (regsF fm f) f) (n := Ty.width f.ty / 8)
    (out := fun x => clusterOut e x (Ty.width f.ty / 8)) fun l hl => fits l (inLanes_lt hl) hl
  simp only [clusterForm, issueF_ok h, safe, free, Bool.false_eq_true, if_false]

/-! ## The statement -/

/-- An access meets no background copy where none reads or writes the block (R218). -/
theorem touchScrOf_alone {self : Nat} {hw : Hw} {bk : Nat} (h : NoCopies self hw bk) (ys : List Nat) (write : Bool) :
    touchScrOf self hw bk ys write = hw := by
  refine if_pos ?_
  rw [List.isEmpty_iff, List.filter_eq_nil_iff]
  intro id hid
  obtain ⟨o, ho, sel⟩ := List.mem_filterMap.1 hid
  have alone := h o ho
  rw [bne_iff_ne]
  intro other
  split at sel
  case h_5 => cases sel
  all_goals
    rename_i hk
    obtain ⟨meets, same⟩ := Option.ite_none_right_eq_some.1 sel
    cases same
    simp only [hk] at alone
    have apart := alone other
    tauto

theorem exec_lds (f : Fields) (s : State) : exec (.lds f) s = scrForm Forms.lds f s false fun e r y hw =>
    .done (e.put r fun l => loadValue f.ty (scrRead (hw.blocks.val {} e.g.block) (y l) (Ty.width f.ty / 8))) hw := rfl
theorem exec_sts (f : Fields) (s : State) : exec (.sts f) s = thenWake s (scrForm Forms.sts f s true fun e r y hw =>
    .done {} ((e.noteScr (Ty.width f.ty / 8) (e.acts.map y) hw).setBlock e.g.block fun b =>
      e.acts.foldl (fun b l => scrStore b (y l) (toBytes (Ty.width f.ty / 8) (e.vd r l).toNat)) b)) := rfl
theorem exec_ldc (f : Fields) (s : State) : exec (.ldc f) s = clusterForm Forms.ldc f s fun e r y =>
    .done { ops := [{ e.newOp r (.ldc ((byRank e.acts y).map fun l => (l, (y l).1, (y l).2)) [] f.ty) with dst := e.dest r }] } e.hw := rfl
theorem exec_stc (f : Fields) (s : State) : exec (.stc f) s = clusterForm Forms.stc f s fun e r y =>
    .done { ops := [e.newOp r (.stc ((byRank e.acts y).map fun l => (l, (y l).1, (y l).2, e.vd r l)) (Ty.width f.ty / 8))] } e.hw := rfl
theorem exec_satom (f : Fields) (s : State) : exec (.satom f) s = satomForm Forms.satom f s fun e r l old =>
    some (atomNew (Forms.satomOp f) f.ty old ((e.vd r l).toNat % 2 ^ Ty.width f.ty)) := rfl
theorem exec_scas (f : Fields) (s : State) : exec (.scas f) s = satomForm Forms.scas f s fun e r l old =>
    if old = (e.vd r l).toNat % 2 ^ Ty.width f.ty then some ((e.vc r l).toNat % 2 ^ Ty.width f.ty) else none := rfl

/-- Settles O16: which lanes trap is read off the checks; lds, ldc and stc retire with what they read or start; sts stores lane after lane,
and the atomics act on what the lane before left. -/
theorem scratchAccess : Obligations.ScratchAccess := by
  unfold Obligations.ScratchAccess
  have rank (x : Nat) : bits 26 19 x < 256 := Nat.mod_lt _ (by decide)
  refine ⟨⟨fun f s e h => ⟨fun free fits => ?_, fun k _ hk bad low => ?_, fun k _ hk bad aligned low => ?_⟩, fun f s e h => ?_,
      fun self hw bk ys write alone => touchScrOf_alone alone ys write⟩,
    fun f s e h => ?_, fun f s e h => ?_, ?_⟩
  · exact retires_of_done h.here ((exec_lds f s).trans (scrForm_runs h free fits)) rfl
  · obtain ⟨hit, lanes, trap⟩ := scrTrap_misaligned (out := fun x => decide (e.scrBytes < x + Ty.width f.ty / 8)) hk bad low
    exact ⟨hit, lanes, traps_of_trap ((exec_lds f s).trans (scrForm_traps h trap)) rfl⟩
  · obtain ⟨hit, lanes, trap⟩ := scrTrap_outside (out := fun x => decide (e.scrBytes < x + Ty.width f.ty / 8)) hk (by simpa using bad)
      (fun l hl => aligned l (inLanes_lt hl) hl) fun l hl act => by simpa using low l hl act
    exact ⟨hit, lanes, traps_of_trap ((exec_lds f s).trans (scrForm_traps h trap)) rfl⟩
  · intro r n x free fits
    refine ⟨_, (byRank_perm fun l _ => rank (x l)).map _, List.pairwise_map.2 (byRank_ascending e.acts _), fun room => ?_⟩
    exact retires_of_done h.here ((exec_ldc f s).trans (clusterForm_runs h free fits)) rfl room
  · intro r n y free fits hw b hb
    obtain ⟨t, R, ht⟩ := scrForm_writes h (exec_sts f s) (scrForm_runs h free fits) (room_nil rfl rfl rfl rfl)
    rw [setBlock_stores hb y (fun l => toBytes n (e.vd r l).toNat) e.acts] at R
    exact ⟨_, t, stored_storeAll _ b.scr, R, ht⟩
  · intro r n x free fits
    refine ⟨_, (byRank_perm fun l _ => rank (x l)).map _,
      List.pairwise_map.2 (byRank_ascending e.acts fun l => (bits 26 19 (x l), swz (bits 18 0 (x l)) (rotOf f))), fun room => ?_⟩
    exact retires_of_done h.here ((exec_stc f s).trans (clusterForm_runs h free fits)) rfl room
  · rintro fm con g (⟨rfl, rfl, rfl⟩ | ⟨rfl, rfl, rfl⟩) f s e h r n y free fits
    · exact satomForm_retires _ (exec_satom f s) h free fits
    · exact satomForm_retires _ (exec_scas f s) h free fits

end Sys2Proof.Machine
end

section
/-! SUPPORT. Background copies and cluster accesses of the scratchpad (11_scratchpad R214-R218). -/

namespace Sys2Proof.Machine

open Sys2Proof

/-! ## Copies that start -/

theorem exec_scopy (f : Fields) (s : State) : exec (.scopy f) s = copyForm Forms.scopy f s true := rfl
theorem exec_sfill (f : Fields) (s : State) : exec (.sfill f) s = copyForm Forms.sfill f s false := rfl

/-- A copy or a fill inside the block, aligned where something is rotated, that meets no unit being exchanged starts in the background
(R206, R216-R218). -/
theorem copyForm_starts {fm : Form} {f : Fields} {s : State} {e : Env} (h : Issues fm f s e) (src : Bool) :
    let r := regsF fm f
    let d := (e.sd r).toNat
    let a := (e.sa r).toNat
    let n := (e.sb r).toNat
    d + n ≤ e.scrBytes → (src = true → a + n ≤ e.scrBytes) → n ≠ 0 → e.acquiring = false → copiesOn e.hw e.core < 32 →
    (∀ y ∈ rotated d (bits 2 0 f.imm) n, unitBusy e.hw e.blk y = false) →
    (src = true → ∀ y ∈ rotated a (bits 5 3 f.imm) n, unitBusy e.hw e.blk y = false) →
    (bits 2 0 f.imm = 0 ∧ bits 5 3 f.imm = 0 ∨ d % 16 = 0 ∧ (src = true → a % 16 = 0) ∧ n % 16 = 0) →
    copyForm fm f s src = .next (s.with (e.finish r (.done { ops := [e.newOp r (.scopy e.g.block
      (if src then some (a, bits 5 3 f.imm) else none) (e.sa r) d (bits 2 0 f.imm) n [] [])] } e.hw))) := by
  intro r d a n into out some free few idle idle' rot
  have aligned : ((bits 2 0 f.imm != 0 || bits 5 3 f.imm != 0) && (d % 16 != 0 || (src && a % 16 != 0) || n % 16 != 0)) = false := by
    rcases rot with ⟨k, k'⟩ | ⟨hd, ha, hn⟩
    · simp [k, k']
    · cases src <;> simp_all
  have inside : (src && decide (e.scrBytes < a + n)) = false := by cases src <;> simp_all
  have still : ((rotated d (bits 2 0 f.imm) n).any (unitBusy e.hw e.blk)) = false :=
    List.any_eq_false.2 fun y hy => by simp [idle y hy]
  have still' : (src && (rotated a (bits 5 3 f.imm) n).any (unitBusy e.hw e.blk)) = false := by
    cases src with
    | false => rfl
    | true => exact List.any_eq_false.2 fun y hy => by simp [idle' rfl y hy]
  have lacks : decide (32 ≤ copiesOn e.hw e.core) = false := by simpa using few
  rw [copyForm, issueF_ok h]
  simp only [show (e.sd (regsF fm f)).toNat = d from rfl, show (e.sa (regsF fm f)).toNat = a from rfl,
    show (e.sb (regsF fm f)).toNat = n from rfl, aligned, inside, still, still', lacks, free, some, Nat.not_lt.2 into, Bool.or_self,
    Bool.false_eq_true, if_false]
  rfl

/-! ## Copies that end -/

theorem val_of_look {hw : Hw} {bk : Nat} {b : Block} (h : hw.blocks.look bk = some b) : hw.blocks.val {} bk = b := by
  rw [Tab.val, h]; rfl

/-- The offsets that a copy takes its source from (R216). -/
def sourceBytes (src : Option (Nat × Nat)) (len : Nat) : List Nat :=
  match src with
  | some (a, ks) => rotated a ks len
  | none => []

/-- The end of a copy stores what its source holds in the destination words not yet written (R217). -/
theorem finishCopy_eq (b : Block) (src : Option (Nat × Nat)) (fill : Word) (dst kd len : Nat) (cap : Tab Byte) (wrote : List Nat) :
    finishCopy b src fill dst kd len cap wrote =
      ((List.range len).filter fun i => !wrote.contains (swz (dst + i) kd / 4)).foldl
        (fun c i => scrStore c (swz (dst + i) kd) [copySrc b src fill dst i cap]) b := by
  rw [finishCopy, List.foldl_map, List.foldl_filter]
  refine congrArg (fun f => List.foldl f b (List.range len)) (funext fun c => funext fun i => ?_)
  cases wrote.contains (swz (dst + i) kd / 4) <;> rfl

/-- A copy ends, once no unit it names is being exchanged (R206, R217, R218). -/
theorem exec_scopyComplete {id : Nat} {s : State} {o : Op} {blk : Nat} {src : Option (Nat × Nat)} {fill : Word} {dst kd len : Nat}
    {cap : Tab Byte} {wrote : List Nat} {b : Block} (ho : s.hw.op id = some o) (hk : o.kind = .scopy blk src fill dst kd len cap wrote)
    (hb : s.hw.blocks.look blk = some b) (idle : ∀ y ∈ rotated dst kd len ++ sourceBytes src len, unitBusy s.hw b y = false) :
    let h := touchScrOf id (touchScrOf id s.hw blk (sourceBytes src len) false) blk (rotated dst kd len) true
    h.op id = some o →
    exec (.scopyComplete id) s = .next (reopen (wakeBarw (landOp (s.with ((noteScr o blk ((rotated dst kd len).filter fun y =>
      !wrote.contains (y / 4)) h).setBlock blk fun b => finishCopy b src fill dst kd len cap wrote)) o fun _ => 0) blk) o.block) := by
  intro h still
  have at' := val_of_look hb
  have ready : ((rotated dst kd len ++ sourceBytes src len).any (unitBusy s.hw b)) = false :=
    List.any_eq_false.2 fun y hy => by simp [idle y hy]
  show execScopyComplete id s = _
  cases src
  all_goals
    simp only [h, sourceBytes] at ready still ⊢
    simp only [execScopyComplete, ho, hk, at', ready, still, Bool.false_eq_true, if_false]

/-! ## Cluster accesses -/

section
variable {α : Type} (k : α → Nat) (v : α → Word)

theorem val_insEach_other {ls : List α} {l : Nat} (h : ∀ x ∈ ls, k x ≠ l) (t : Tab Word) :
    (ls.foldl (fun t x => t.ins (k x) (v x)) t).val 0 l = t.val 0 l := by
  induction ls generalizing t with
  | nil => rfl
  | cons x ls ih =>
    obtain ⟨hx, h⟩ := List.forall_mem_cons.1 h
    exact (ih h _).trans ((Tab.val_ins ..).trans (if_neg hx.symm))

theorem val_insEach {ls : List α} (apart : (ls.map k).Nodup) (t : Tab Word) {x : α} (hx : x ∈ ls) :
    (ls.foldl (fun t x => t.ins (k x) (v x)) t).val 0 (k x) = v x := by
  induction ls generalizing t with
  | nil => cases hx
  | cons y ls ih =>
    obtain ⟨hy, apart⟩ := List.nodup_cons.1 apart
    rcases List.mem_cons.1 hx with rfl | later
    · have after : ∀ z ∈ ls, k z ≠ k x := fun z hz same => hy (List.mem_map.2 ⟨z, hz, same⟩)
      exact (val_insEach_other k v after _).trans ((Tab.val_ins ..).trans (if_pos rfl))
    · exact ih apart _ later

end

/-- Lanes still to be served after those that name a rank. -/
theorem isEmpty_others {α : Type} {rank : α → Nat} {n : Nat} {ls : List α} :
    ((ls.filter fun x => rank x != n).isEmpty = true) ↔ ∀ x ∈ ls, rank x = n := by
  simp [List.isEmpty_iff, List.filter_eq_nil_iff]

theorem any_of_rank {α : Type} {rank : α → Nat} {n : Nat} {ls : List α} {p : α → Bool} (h : ∀ x ∈ ls, rank x = n → p x = false) :
    ((ls.filter fun x => rank x == n).any p) = false := by
  simpa [List.any_eq_false] using h

/-- A cluster access performed at block bk for the lanes that name its rank: what it has read, and the machine then (R215). -/
def clusterRead (hw : Hw) (bk rank : Nat) (todo : List (Nat × Nat × Nat)) (got : Tab Word) (ty : Ty) : Tab Word :=
  (todo.filter fun x => x.2.1 == rank).foldl
    (fun t x => t.ins x.1 (loadValue ty (scrRead (hw.blocks.val {} bk) x.2.2 (Ty.width ty / 8)))) got

/-- The bytes that the lanes that name a rank store there. -/
def clusterWritten (rank n : Nat) (todo : List (Nat × Nat × Nat × Word)) : List (Nat × List Byte) :=
  (todo.filter fun x => x.2.1 == rank).map fun x => (x.2.2.1, toBytes n x.2.2.2.toNat)

/-- No access that comes before o has still to reach a rank (R214). -/
theorem none_before {hw : Hw} {o : Op} {id rank : Nat} (turn : ∀ x ∈ hw.ops, x.id ∈ o.after → x.id ≠ id → reaches x.kind rank = false) :
    (hw.ops.any fun x => o.after.contains x.id && x.id != id && reaches x.kind rank) = false :=
  List.any_eq_false.2 fun x hx => by have := turn x hx; simp_all

section
variable {id : Nat} {s : State} {o : Op} {b0 : Block} {rank bk : Nat} {b : Block} (ho : s.hw.op id = some o)
  (h0 : s.hw.blocks.look o.block = some b0) (hr : nextRank o.kind = some rank) (hg : groupBlock s.hw b0 rank = some bk)
  (hb : s.hw.blocks.look bk = some b) (turn : ∀ x ∈ s.hw.ops, x.id ∈ o.after → x.id ≠ id → reaches x.kind rank = false)
  (runs : runsOn s.hw b.core b.ctx = true)
include ho h0 hr hg hb turn runs

/-- A cluster load reads for the lanes that name the block reached, and ends when no lane is left (R214, R215). -/
theorem exec_ldcComplete_ldc {todo : List (Nat × Nat × Nat)} {got : Tab Word} {ty : Ty} (hk : o.kind = .ldc todo got ty)
    (idle : ∀ x ∈ todo, x.2.1 = rank → unitBusy s.hw b x.2.2 = false) :
    let h := touchScr s.hw bk ((todo.filter fun x => x.2.1 == rank).map (·.2.2)) false
    exec (.ldcComplete id) s = if (todo.filter fun x => x.2.1 != rank).isEmpty then
        .next (reopen (landOp (s.with h) o fun l => (clusterRead h bk rank todo got ty).val 0 l) o.block)
      else .next (s.with (h.setOp id fun x =>
        { x with kind := .ldc (todo.filter fun x => x.2.1 != rank) (clusterRead h bk rank todo got ty) ty })) := by
  have at' := val_of_look hb
  have served := none_before turn
  show execLdcComplete id s = _
  rw [hk] at hr
  simp only [execLdcComplete, ho, hk, hr, h0, Option.bind_some, hg, at', served, runs, any_of_rank idle, Bool.not_true, Bool.or_self,
    Bool.false_eq_true, if_false, clusterRead]

/-- A cluster store writes for the lanes that name the block reached, and ends when no lane is left (R214, R215). -/
theorem exec_ldcComplete_stc {todo : List (Nat × Nat × Nat × Word)} {n : Nat} (hk : o.kind = .stc todo n)
    (idle : ∀ x ∈ todo, x.2.1 = rank → unitBusy s.hw b x.2.2.1 = false) :
    let h := touchScr s.hw bk ((todo.filter fun x => x.2.1 == rank).map (·.2.2.1)) true
    ∀ b1, h.blocks.look bk = some b1 → ∃ h1, SameButLogs h h1 ∧
      let h' := h1.setBlock bk fun b => { b with scr := storeAll (clusterWritten rank n todo) b1.scr }
      exec (.ldcComplete id) s = if (todo.filter fun x => x.2.1 != rank).isEmpty then
          .next (reopen (wakeBarw (landOp (s.with h') o fun _ => 0) bk) o.block)
        else .next (wakeBarw (s.with (h'.setOp id fun x => { x with kind := .stc (todo.filter fun x => x.2.1 != rank) n })) bk) := by
  intro h b1 hb1
  have at' := val_of_look hb
  have served := none_before turn
  have L : SameButLogs h (noteScr o bk ((todo.filter fun x => x.2.1 == rank).flatMap fun x => (List.range n).map (x.2.2.1 + ·)) h) :=
    logOp_frame ..
  refine ⟨_, L, ?_⟩
  have stores := setBlock_stores (L.blocks ▸ hb1 : Tab.look _ bk = some b1) (fun x : Nat × Nat × Nat × Word => x.2.2.1)
    (fun x => toBytes n x.2.2.2.toNat) (todo.filter fun x => x.2.1 == rank)
  intro h'
  rw [show h' = _ from stores.symm]
  show execLdcComplete id s = _
  rw [hk] at hr
  simp only [execLdcComplete, ho, hk, hr, h0, Option.bind_some, hg, at', served, runs, any_of_rank idle, Bool.not_true, Bool.or_self,
    Bool.false_eq_true, if_false, h]

end

/-! ## The statement -/

/-- Settles O17: starts are read off the checks; an end stores byte after byte what its source holds; a cluster access serves the lanes that
name the rank it has reached. -/
theorem scratchCopies : Obligations.ScratchCopies := by
  unfold Obligations.ScratchCopies
  refine ⟨fun f s e h => ?_, fun f s e h => ?_, ?_, ?_⟩
  · intro r d a n op into out some free few idle rot room
    have start := copyForm_starts h true into (fun _ => out) some free few (fun y hy => idle y (List.mem_append_left _ hy))
      (fun _ y hy => idle y (List.mem_append_right _ hy)) (by simpa using rot)
    exact retires_of_done h.here ((exec_scopy f s).trans start) rfl room
  · intro r d n op into some free few idle rot room
    have start := copyForm_starts h false into (fun no => nomatch no) some free few idle (fun no => nomatch no) (by simpa using rot)
    exact retires_of_done h.here ((exec_sfill f s).trans start) rfl room
  · intro id s o blk src fill dst kd len cap wrote b ho hk hb from' idle h b1 hb1 still
    have L := logOp_frame h o (StepLog.bytes (h.blocks.val {} blk) blk ((rotated dst kd len).filter fun y => !wrote.contains (y / 4)))
    refine ⟨_, _, stored_storeAll _ b1.scr, L, (exec_scopyComplete ho hk hb idle still).trans ?_⟩
    have stores := setBlock_congr (f := fun b => finishCopy b src fill dst kd len cap wrote) (g := fun b => { b with scr := _ })
      (L.blocks ▸ hb1) ((finishCopy_eq ..).trans (foldl_scrStore ..))
    rw [← stores]
    rfl
  · intro id s o b0 rank bk b ho h0 hr hg hb turn runs
    refine ⟨fun todo got ty hk idle apart => ?_, fun todo n hk idle => ?_⟩
    · intro h
      have read := exec_ldcComplete_ldc ho h0 hr hg hb turn runs hk idle
      have mine {x : Nat × Nat × Nat} (hx : x ∈ todo) (at' : x.2.1 = rank) : x ∈ todo.filter fun x => x.2.1 == rank :=
        List.mem_filter.2 ⟨hx, beq_iff_eq.2 at'⟩
      refine ⟨clusterRead h bk rank todo got ty, fun x hx at' => ?_, fun l other => ?_, fun ⟨x, hx, left⟩ => ?_, fun all => ?_⟩
      · exact val_insEach _ _ (apart.sublist (List.filter_sublist.map _)) got (mine hx at')
      · exact val_insEach_other _ _ (fun x hx => other x (List.mem_filter.1 hx).1 (beq_iff_eq.1 (List.mem_filter.1 hx).2)) got
      · exact read.trans (if_neg fun none => left (isEmpty_others.1 none x hx))
      · exact read.trans (if_pos (isEmpty_others.2 all))
    · intro h b1 hb1
      obtain ⟨h1, L, wrote⟩ := exec_ldcComplete_stc ho h0 hr hg hb turn runs hk idle b1 hb1
      refine ⟨_, h1, stored_storeAll _ b1.scr, L, fun ⟨x, hx, left⟩ => ?_, fun all => ?_⟩
      · exact wrote.trans (if_neg fun none => left (isEmpty_others.1 none x hx))
      · exact wrote.trans (if_pos (isEmpty_others.2 all))

end Sys2Proof.Machine
end

section
/-! SUPPORT. A held operation whose element names no lane stays held (18_contexts R353). -/

namespace Sys2Proof.Machine

open Sys2Proof

/-- The element of a held store that names lane 32, where lanes end at 31. -/
def pastLanesElem : Elem := { lane := 32, tgt := {}, st := 5 }

/-- A held store of that element alone. -/
def pastLanes : Op := { id := 1, kind := .store [pastLanesElem] 8, held := true }

/-- A machine with nothing but that store and the gang it is of, which has no path. -/
def pastLanesState : State := { State.reset with hw := { ops := [pastLanes], gangs := [(0, {})] } }

/-- The end of the hold performs the elements of lanes 0 to 31, and so leaves this store in flight. -/
theorem pastLanes_stays : exec (.heldOperationComplete 1) pastLanesState = .next pastLanesState := rfl

theorem pastLanes_clear : clear pastLanesState.hw pastLanes pastLanesElem 8 false = true := by decide

theorem pastLanes_only : ∀ y ∈ pastLanesState.hw.ops, ∀ a b c d, y.kind ≠ .partialSum a b c d true := by
  intro y hy
  cases List.mem_singleton.1 hy
  intro a b c d same
  cases same

/-- An operation that no path waits for and that has ended is no longer in flight. -/
theorem ended_not_in_flight {s : State} {o : Op} {g : Gang} (hg : s.hw.gangs.look o.gk = some g) (unawaited : waiterOf g o.id = none)
    (v : Nat → Word) : ∀ x ∈ (landOp s o v).hw.ops, x.id ≠ o.id := by
  obtain ⟨-, -, ops, -⟩ := operationEnds s o v g hg unawaited
  intro x hx
  rw [ops] at hx
  simpa using (List.mem_filter.1 hx).2

/-- Refutes O41: the clause of a held operation's end lets the held element name any lane, and a held store of lane 32 is not ended, since the
arm performs lanes 0 to 31 alone. -/
theorem not_banks : ¬ Obligations.Banks := by
  unfold Obligations.Banks
  rintro ⟨-, -, -, -, -, -, -, -, -, -, held, -⟩
  obtain ⟨h, o', p, g', ends, id', gk', -, -, -, -, gang, paths, -⟩ := held 1 pastLanesState pastLanes pastLanesElem 8 {}
    rfl rfl rfl rfl rfl rfl pastLanes_clear rfl (fun cx none => nomatch none) rfl pastLanes_only
  have stays := Host.Outcome.next.inj (pastLanes_stays.symm.trans ends)
  have unawaited : waiterOf g' o'.id = none := by rw [waiterOf, paths]; rfl
  have ended := ended_not_in_flight (s := pastLanesState.with h) (gk' ▸ gang) unawaited (fun _ => 0)
  rw [← stays] at ended
  exact ended pastLanes (List.mem_singleton_self _) id'.symm

end Sys2Proof.Machine
end

section
/-! SUPPORT. The order of the checks of an access: the first order of R226 that some lane meets gives the cause, and the lanes that meet it the
hit mask (12_handles R226). -/

namespace Sys2Proof.Machine

open Sys2Proof

/-! ## The least of a list -/

theorem minOr_le_of_mem {d k : Nat} {l : List Nat} (h : k ∈ l) : minOr d l ≤ k := by
  induction l generalizing d with
  | nil => cases h
  | cons x l ih =>
    rcases List.mem_cons.1 h with rfl | h
    · exact Nat.min_le_left ..
    · exact (Nat.min_le_right ..).trans (ih h)

theorem le_minOr {d k : Nat} {l : List Nat} (hd : k ≤ d) (h : ∀ x ∈ l, k ≤ x) : k ≤ minOr d l := by
  induction l generalizing d with
  | nil => exact hd
  | cons x l ih =>
    obtain ⟨hx, h⟩ := List.forall_mem_cons.1 h
    exact Nat.le_min.2 ⟨hx, ih hx h⟩

/-! ## The first order that is met -/

/-- The order of R226 at which the checks of lanes stop, or 9. -/
def firstOrder (cs : List (Ref × LaneChk)) : Nat := minOr 9 (cs.filterMap fun x => x.2.bad.map (·.1))

theorem firstOrder_eq {cs : List (Ref × LaneChk)} {k : Nat} (h9 : k < 9) (met : ∃ x ∈ cs, ∃ b, x.2.bad = some b ∧ b.1 = k)
    (least : ∀ x ∈ cs, ∀ b, x.2.bad = some b → k ≤ b.1) : firstOrder cs = k := by
  obtain ⟨x, hx, b, hb, rfl⟩ := met
  refine Nat.le_antisymm (minOr_le_of_mem (List.mem_filterMap.2 ⟨x, hx, by rw [hb]; rfl⟩)) (le_minOr h9.le fun n hn => ?_)
  obtain ⟨y, hy, hn⟩ := List.mem_filterMap.1 hn
  obtain ⟨c, hc, rfl⟩ := Option.map_eq_some_iff.1 hn
  exact least y hy c hc

/-- Whether the checks of a lane stop at order k. -/
def meets (k : Nat) (x : Ref × LaneChk) : Bool := match x.2.bad with | some b => b.1 == k | none => false

theorem meets_iff {k : Nat} {x : Ref × LaneChk} : meets k x = true ↔ ∃ b, x.2.bad = some b ∧ b.1 = k := by
  unfold meets
  cases x.2.bad <;> simp

/-- The checks of lanes that stop at an order raise its cause for the lanes that meet it, or for the path as a whole (R226). -/
theorem check_stops {e : Env} {n : Need} {refs : List Ref} {k : Nat} (h9 : k < 9)
    (first : firstOrder (laneChecks e.hw e.s.mem e.part e.ctx n refs).1 = k) (scalar : Bool) :
    ∃ info fault, e.check n scalar refs = .stop (.trap {
      cause := orderCause k, info := info, fault := fault
      hit := if scalar then e.act else
        lanesWhere fun l => ((laneChecks e.hw e.s.mem e.part e.ctx n refs).1.filter (meets k)).any fun x => x.1.lane == l }) := by
  subst first
  exact ⟨_, _, (if_neg h9.ne : e.check n scalar refs = _)⟩

theorem inLanes_meeting {cs : List (Ref × LaneChk)} {k l : Nat} (hl : l < 32) :
    inLanes (lanesWhere fun l => (cs.filter (meets k)).any fun x => x.1.lane == l) l = true ↔
      ∃ x ∈ cs, x.1.lane = l ∧ ∃ b, x.2.bad = some b ∧ b.1 = k := by
  simp [inLanes_where, hl, meets_iff, and_left_comm, and_comm]

/-! ## The orders of a lane that its handle entry decides -/

section
variable {hw : Hw} {p c : Nat} {n : Need} {x : Ref} (m : Tab Memory)

theorem laneCheck_bad (bad : handleBad hw p c x.h n (readHandle hw m p c x.h) = true) :
    (laneCheck hw m p c n x).1.bad = some (1, 0, handleFault x.h x.o) := by
  simp only [laneCheck, bad, if_true]

theorem laneCheck_long (good : handleBad hw p c x.h n (readHandle hw m p c x.h) = false)
    (long : (readHandle hw m p c x.h).len < x.o + n.width) : (laneCheck hw m p c n x).1.bad = some (2, 0, handleFault x.h x.o) := by
  simp only [laneCheck, good, long, if_true, if_false, Bool.false_eq_true]

theorem laneCheck_unaligned (good : handleBad hw p c x.h n (readHandle hw m p c x.h) = false)
    (fits : x.o + n.width ≤ (readHandle hw m p c x.h).len) (off : ((readHandle hw m p c x.h).base + x.o) % n.width ≠ 0) :
    (laneCheck hw m p c n x).1.bad = some (3, 0, (readHandle hw m p c x.h).base + x.o) := by
  simp only [laneCheck, good, Nat.not_lt.2 fits, off, if_false, Bool.false_eq_true, ne_eq, not_false_eq_true, if_true]

end

/-- Settles O19: the least order that is met, its cause and its lanes; and the first three orders, which the handle entry decides. -/
theorem accessOrder : Obligations.AccessOrder := by
  unfold Obligations.AccessOrder
  refine ⟨fun e n scalar refs k h9 met least => ?_, fun hw m p c n x => laneCheck_bad m, fun hw m p c n x => laneCheck_long m,
    fun hw m p c n x => laneCheck_unaligned m⟩
  obtain ⟨info, fault, stops⟩ := check_stops h9 (firstOrder_eq h9 met least) scalar
  refine ⟨info, fault, _, stops, fun once => by rw [once]; rfl, fun each l hl => ?_⟩
  rw [each]
  exact inLanes_meeting hl

end Sys2Proof.Machine
end

section
/-! SUPPORT. System registers: rsys and wsys, and the register rows of the window (18_contexts R341-R344, R358; 12_handles R221). -/

namespace Sys2Proof.Machine

open Sys2Proof

/-! ## Forms that a unit answers -/

/-- A core after one of its numbers of waiting-table entries is noted is the same but for the greatest of them. -/
theorem core_setPeak (hw : Hw) (core n k : Nat) :
    (hw.setCore core fun c => { c with wtPeak := max c.wtPeak n }).core k =
      { hw.core k with wtPeak := ((hw.setCore core fun c => { c with wtPeak := max c.wtPeak n }).core k).wtPeak } := by
  simp only [Hw.core, Hw.setCore, Tab.val_ins]
  split
  · subst_vars; rfl
  · rfl

/-- A form that asks its unit waits for the answer (R358). -/
theorem asks_of_asks {i : Instr} {s : State} {e : Env} {r : Regs} {tab : Bool} {body : Res}
    (hx : exec i s = .next (s.with (e.finish r (e.asks r tab body)))) (first : ¬ e.answered) : Asks i s e r tab := by
  intro free
  have parks : ∀ b, (tab && decide (waitEntries e.hw e.core ≥ 512)) = b → b = false := fun b hb => by
    subst hb
    cases tab with
    | false => rfl
    | true => simpa using free rfl
  have stay : e.asks r tab body = .stay (e.park r .parked (.query (e.now + e.hw.draw.1) tab)
      (if tab then e.hw.draw.2.setCore e.core fun c => { c with wtPeak := Nat.max c.wtPeak (waitEntries e.hw.draw.2 e.core + 1) } else e.hw.draw.2)) := by
    unfold Env.asks
    split
    case h_1 t ht => exact absurd ⟨t, ht⟩ first
    case h_2 => rw [parks _ rfl]; rfl
  refine ⟨_, ?_, fun k => ?_, stays_of_stay hx stay⟩
  · cases tab <;> rfl
  · cases tab with
    | false => rfl
    | true => exact core_setPeak e.hw.draw.2 e.core _ k

theorem asks_answered {e : Env} (h : e.answered) (r : Regs) (tab : Bool) (body : Res) : e.asks r tab body = body := by
  obtain ⟨t, ht⟩ := h
  simp only [Env.asks, ht]

/-! ## rsys and wsys -/

/-- The number of the register that rsys or wsys names (R358). -/
def regNumber (f : Fields) (e : Env) (r : Regs) : Nat := if f.isX then bits 11 0 f.imm else (e.sb r).toNat

/-- What rsys or wsys comes to that may reach its register: it does act, once another core has answered (R358). -/
def reachSys (e : Env) (r : Regs) (sc : Scope) (x : SysTarget) (act : Res) : Res := if otherCore e sc x then e.asks r false act else act

section
variable {fm : Form} {f : Fields} {s : State} {e : Env} {i : Instr} {write : Bool} {act : Env → Regs → Nat → Scope → SysTarget → Res}
  (h : Issues fm f s e) (hi : exec i s = sysForm fm f s write fun e r n sc x => reachSys e r sc x (act e r n sc x))
include h hi

theorem sysForm_badTarget (bad : (e.sysTarget (e.sa (regsF fm f))).bad = true) : Traps i s e { cause := 0x06, hit := e.act } :=
  traps_of_trap (hi.trans (issueF_ok h _)) (if_pos bad)

variable (good : (e.sysTarget (e.sa (regsF fm f))).bad = false)
include good

theorem sysForm_unassigned (none : sysReg (regNumber f e (regsF fm f)) = none) : Traps i s e { cause := 0x01, hit := e.act } := by
  refine traps_of_trap (hi.trans (issueF_ok h _)) ?_
  simp only [good, Bool.false_eq_true, if_false]
  rw [regNumber] at none
  rw [none]

variable {sc : Scope} {reads : Bool} (reg : sysReg (regNumber f e (regsF fm f)) = some (sc, reads))
include reg

theorem sysForm_denied (denied : userDenied e sc reads write (e.sysTarget (e.sa (regsF fm f))) = true) :
    Traps i s e { cause := 0x03, hit := e.act } := by
  refine traps_of_trap (hi.trans (issueF_ok h _)) ?_
  simp only [good, Bool.false_eq_true, if_false]
  rw [regNumber] at reg
  rw [reg]
  exact if_pos denied

variable (allowed : userDenied e sc reads write (e.sysTarget (e.sa (regsF fm f))) = false)
include allowed

theorem sysForm_reaches : exec i s = .next (s.with (e.finish (regsF fm f) (reachSys e (regsF fm f) sc (e.sysTarget (e.sa (regsF fm f)))
    (act e (regsF fm f) (regNumber f e (regsF fm f)) sc (e.sysTarget (e.sa (regsF fm f))))))) := by
  refine (hi.trans (issueF_ok h _)).trans ?_
  simp only [good, Bool.false_eq_true, if_false]
  rw [regNumber] at reg ⊢
  rw [reg]
  simp only [allowed, Bool.false_eq_true, if_false]

theorem sysForm_asks (other : otherCore e sc (e.sysTarget (e.sa (regsF fm f))) = true) (first : ¬ e.answered) :
    Asks i s e (regsF fm f) false := by
  have reached := sysForm_reaches h hi good reg allowed
  rw [reachSys, if_pos other] at reached
  exact asks_of_asks reached first

theorem sysForm_acts (now : otherCore e sc (e.sysTarget (e.sa (regsF fm f))) = false ∨ e.answered) :
    exec i s = .next (s.with (e.finish (regsF fm f)
      (act e (regsF fm f) (regNumber f e (regsF fm f)) sc (e.sysTarget (e.sa (regsF fm f)))))) := by
  have reached := sysForm_reaches h hi good reg allowed
  rcases now with here | told
  · rwa [reachSys, here] at reached
  · rwa [reachSys, asks_answered told, ite_self] at reached

end

theorem exec_rsys (f : Fields) (s : State) : exec (.rsys f) s = sysForm Forms.rsys f s false fun e r n sc x =>
    reachSys e r sc x (.done (putS r (readSys e.hw e.part e.now n sc x)) e.hw) := rfl
theorem exec_wsys (f : Fields) (s : State) : exec (.wsys f) s = sysForm Forms.wsys f s true fun e r n sc x =>
    reachSys e r sc x (.done {} (writeSys e.hw e.s.mem e.part e.now n sc x (e.sd r).toNat)) := rfl

/-! ## What a user context may reach -/

theorem userDenied_sup {e : Env} (h : e.sup = true) (sc : Scope) (reads write : Bool) (x : SysTarget) :
    userDenied e sc reads write x = false := by simp [userDenied, h]

theorem userDenied_write {e : Env} (h : e.sup = false) (sc : Scope) (reads : Bool) (x : SysTarget) :
    userDenied e sc reads true x = true := by simp [userDenied, h]

theorem userDenied_hidden {e : Env} (h : e.sup = false) (sc : Scope) (write : Bool) (x : SysTarget) :
    userDenied e sc false write x = true := by simp [userDenied, h]

/-- A user context reaches no register of another context (R344). -/
theorem userDenied_foreign {e : Env} (h : e.sup = false) {sc : Scope} (hp : sc ≠ .partition) (hc : sc ≠ .core) {x : SysTarget}
    (other : x.ctx ≠ e.ctx) (reads write : Bool) : userDenied e sc reads write x = true := by
  have ne : (x.ctx != e.ctx) = true := by simpa using other
  cases sc <;> simp_all [userDenied]

/-! ## Contexts of a machine that is changed -/

theorem Hw.part_setPart_other {hw : Hw} {p k : Nat} (h : k ≠ p) (f : Part → Part) : (hw.setPart p f).part k = hw.part k := by
  simp only [Hw.part, Hw.setPart, Tab.val_ins, h, if_false]
theorem Hw.part_setCtx_other {hw : Hw} {p k : Nat} (h : k ≠ p) (c : Nat) (f : Context → Context) : (hw.setCtx p c f).part k = hw.part k :=
  Hw.part_setPart_other h _
theorem Hw.ctx_setCtx_other {hw : Hw} {c k : Nat} (h : k ≠ c) (p : Nat) (f : Context → Context) : (hw.setCtx p c f).ctx p k = hw.ctx p k := by
  simp only [Hw.ctx, Hw.setCtx, Hw.part_setPart_same, Tab.look_upd, h, if_false]

/-! ## Reads and writes -/

/-- The scopes whose registers lie on a core. -/
theorem onCore_of_ne {sc : Scope} (h1 : sc ≠ .context) (h2 : sc ≠ .partition) :
    (sc == .ctxCore || sc == .core || sc == .gang || sc == .path) = true := by
  cases sc <;> simp_all

/-- A target whose core names none of the partition's reads all ones and ignores writes (R344). -/
theorem sys_unnamed {hw : Hw} {p n : Nat} {sc : Scope} {x : SysTarget} (h1 : sc ≠ .context) (h2 : sc ≠ .partition)
    (h : coreNamed hw p x.core = false) (m : Tab Memory) (t v : Nat) :
    readSys hw p t n sc x = 2 ^ 64 - 1 ∧ writeSys hw m p t n sc x v = hw := by
  simp only [readSys, writeSys, onCore_of_ne h1 h2, h, Bool.not_false, Bool.and_true, if_true, and_self]

section
variable {hw : Hw} {p n : Nat} {x : SysTarget} {c : Context} (hc : hw.ctx p x.ctx = some c) (hn : n ≠ 0)
include hc hn

theorem writeSys_context (m : Tab Memory) (t v : Nat) :
    writeSys hw m p t n .context x v = writeCtxReg hw m p t x.ctx x.core n v := by
  simp only [writeSys, hc, hn, Option.isSome_some, if_true, if_false]
  rfl

omit hc in
theorem readSys_context (t : Nat) : readSys hw p t n .context x = readCtxReg hw p t x.ctx x.core n := by
  simp only [readSys, hn, if_false]
  rfl

end

theorem readCtxReg_htbase {hw : Hw} {p c : Nat} {x : Context} (h : hw.ctx p c = some x) (t core : Nat) :
    readCtxReg hw p t c core 0x010 = x.htbase := by simp only [readCtxReg, h]
theorem readCtxReg_ptroot {hw : Hw} {p c : Nat} {x : Context} (h : hw.ctx p c = some x) (t core : Nat) :
    readCtxReg hw p t c core 0x011 = x.ptroot := by simp only [readCtxReg, h]

/-- A write of HTBASE or PTROOT is read back, and changes nothing beside it (12_handles R221). -/
theorem writeSys_base {hw : Hw} {p : Nat} {x : SysTarget} {c : Context} (hc : hw.ctx p x.ctx = some c) {n : Nat}
    (hn : n = 0x010 ∨ n = 0x011) (m : Tab Memory) (t v : Nat) :
    let h := writeSys hw m p t n .context x v
    readSys h p t n .context x = bits 39 17 v * 2 ^ 17 ∧ OnlyParts hw h ∧
      (∀ k, k ≠ x.ctx → h.ctx p k = hw.ctx p k) ∧ ∀ k, k ≠ p → h.part k = hw.part k := by
  have same (f : Context → Context) : (hw.setCtx p x.ctx f).ctx p x.ctx = some (f c) := by rw [Hw.ctx_setCtx_same, hc]; rfl
  rcases hn with rfl | rfl
  · rw [writeSys_context hc (by decide)]
    exact ⟨(readSys_context (by decide) t).trans (readCtxReg_htbase (same _) t _), rfl, fun k hk => Hw.ctx_setCtx_other hk p _,
      fun k hk => Hw.part_setCtx_other hk _ _⟩
  · rw [writeSys_context hc (by decide)]
    exact ⟨(readSys_context (by decide) t).trans (readCtxReg_ptroot (same _) t _), rfl, fun k hk => Hw.ctx_setCtx_other hk p _,
      fun k hk => Hw.part_setCtx_other hk _ _⟩

/-- A write of TRAPCFG: while EN is 1 only EN changes (R348). -/
theorem writeSys_trapcfg {hw : Hw} {p : Nat} {x : SysTarget} {c : Context} (hc : hw.ctx p x.ctx = some c) (m : Tab Memory) (t v : Nat) :
    (writeSys hw m p t 0x030 .context x v).ctx p x.ctx = some { c with ring := c.ring.write v } := by
  rw [writeSys_context hc (by decide)]
  exact (Hw.ctx_setCtx_same ..).trans (by rw [hc]; rfl)

theorem Ring.write_enabled {r : Ring} (h : r.en = true) (v : Nat) : r.write v = { r with en := bit 8 v } := if_pos h
theorem Ring.write_disabled {r : Ring} (h : r.en = false) (v : Nat) :
    r.write v = { r with base := bits 63 40 v * 2 ^ 16, en := bit 8 v, log2n := max 4 (bits 3 0 v) } := by simp [Ring.write, h]

theorem Ring.write_rules (r : Ring) (v : Nat) : (r.write v).en = bit 8 v ∧ (r.write v).posted = r.posted ∧ (r.write v).esc = r.esc ∧
    (r.en = true → (r.write v).base = r.base ∧ (r.write v).log2n = r.log2n) ∧
    (r.en = false → (r.write v).base = bits 63 40 v * 2 ^ 16 ∧ (r.write v).log2n = max 4 (bits 3 0 v)) := by
  cases h : r.en with
  | true => rw [Ring.write_enabled h]; exact ⟨rfl, rfl, rfl, fun _ => ⟨rfl, rfl⟩, nofun⟩
  | false => rw [Ring.write_disabled h]; exact ⟨rfl, rfl, rfl, nofun, fun _ => ⟨rfl, rfl⟩⟩

/-! ## The register rows of the window -/

/-- A context becomes live where there is room for it, and every other context is as it was (R341). -/
theorem makeLive_spec (hw : Hw) (p c : Nat) :
    (makeLive hw p c).gangs = hw.gangs ∧ (makeLive hw p c).blocks = hw.blocks ∧
      (c ≠ 0xFFFF → hw.ctx p c = none → (hw.part p).contexts.length < 4096 → (makeLive hw p c).ctx p c = some {}) ∧
      (∀ x, hw.ctx p c = some x → (makeLive hw p c).ctx p c = some x) ∧ ∀ k, k ≠ c → (makeLive hw p c).ctx p k = hw.ctx p k := by
  unfold makeLive
  split
  case isTrue full =>
    refine ⟨rfl, rfl, fun named absent room => ?_, fun _ h => h, fun _ _ => rfl⟩
    rw [absent] at full
    exact absurd full (by simp [named, room])
  case isFalse free =>
    obtain ⟨-, absent, -⟩ := not_or.1 free |>.imp_right not_or.1
    have inserted (k : Nat) (im : Tab Image) : ({ hw.setPart p fun q => { q with contexts := q.contexts.ins c {} } with images := im } : Hw).ctx p k =
        if k = c then some {} else hw.ctx p k := by
      change ((hw.setPart p fun q => { q with contexts := q.contexts.ins c {} }).part p).contexts.look k = _
      rw [Hw.part_setPart_same]
      exact Tab.look_ins ..
    refine ⟨rfl, rfl, fun _ _ _ => (inserted c _).trans (if_pos rfl), fun x hx => ?_, fun k hk => (inserted k _).trans (if_neg hk)⟩
    rw [hx] at absent
    exact absurd rfl absent

/-- A write of CTXCTL makes its context live (R341). -/
theorem ctxctlWrite_rules (fn ctx : Nat) (v : Word) (s : State) : ∃ t, exec (.ctxctlWrite fn ctx v) s = .next t ∧ Quiet s t ∧
    (bit 0 v.toNat = false → t = s) ∧
    (bit 0 v.toNat = true → (s.hw.part fn).present = true → ctx ≠ 0xFFFF → s.hw.ctx fn ctx = none →
      (s.hw.part fn).contexts.length < 4096 → t.hw.ctx fn ctx = some {}) ∧
    (∀ c, s.hw.ctx fn ctx = some c → t.hw.ctx fn ctx = some c) ∧ ∀ k, k ≠ ctx → t.hw.ctx fn k = s.hw.ctx fn k := by
  obtain ⟨gangs, blocks, live, old, other⟩ := makeLive_spec s.hw fn ctx
  refine ⟨_, rfl, ?_⟩
  cases on : bit 0 v.toNat && (s.hw.part fn).present with
  | true =>
    have set := (Bool.and_eq_true_iff.1 on).1
    exact ⟨quiet_with gangs blocks, fun clear => absurd (set.symm.trans clear) (by decide), fun _ _ => live, old, other⟩
  | false =>
    refine ⟨quiet_with rfl rfl, fun _ => rfl, fun set present => ?_, fun _ h => h, fun _ _ => rfl⟩
    rw [set, present] at on
    cases on

/-- A row of the window that changes one context is quiet, and the context is as it says. -/
theorem quiet_setCtx {s : State} {p c : Nat} {x : Context} (hx : s.hw.ctx p c = some x) (f : Context → Context) :
    Quiet s (s.with (s.hw.setCtx p c f)) ∧ (s.with (s.hw.setCtx p c f)).hw.ctx p c = some (f x) :=
  ⟨quiet_with rfl rfl, (Hw.ctx_setCtx_same ..).trans (by rw [hx]; rfl)⟩

theorem Hw.image_setImage_same (hw : Hw) (core ctx : Nat) (f : Image → Image) : (hw.setImage core ctx f).image core ctx = f (hw.image core ctx) := by
  simp only [Hw.image, Hw.setImage, Tab.val_ins, if_true]

/-- A write of SPLBASE takes effect while no slot is in use (06_registers R130). -/
theorem splbaseWrite_rules {core ctx : Nat} {s : State} {p : Nat} {c : Context} (hp : corePart s.hw core = some p) (hc : s.hw.ctx p ctx = some c)
    (v : Word) : ∃ t, exec (.splbaseWrite core ctx v) s = .next t ∧ Quiet s t ∧
      (slotUse s.hw core ctx = 0 → t.hw.image core ctx = { s.hw.image core ctx with splBase := bits 39 16 v.toNat * 2 ^ 16 }) ∧
      (slotUse s.hw core ctx ≠ 0 → t.hw.image core ctx = s.hw.image core ctx) := by
  have acts : exec (.splbaseWrite core ctx v) s = .next (s.with (writeSplbase s.hw core ctx v.toNat)) := by
    simp only [exec, execSplbaseWrite, hp, hc, Option.isSome_some, if_true]
  refine ⟨_, acts, ?_⟩
  unfold writeSplbase
  split
  case isTrue none => exact ⟨quiet_with rfl rfl, fun _ => Hw.image_setImage_same .., fun used => absurd none used⟩
  case isFalse used => exact ⟨quiet_with rfl rfl, fun none => absurd none used, fun _ => rfl⟩

/-! ## Accumulator tags -/

theorem Hw.core_setCore_same (hw : Hw) (k : Nat) (f : Core → Core) : (hw.setCore k f).core k = f (hw.core k) := by
  simp only [Hw.core, Hw.setCore, Tab.val_ins, if_true]

/-- A tag that takes a value whose state is not 3 changes, alone among those of its core (16_matrix R314). -/
theorem tagOf_setAccTag {hw : Hw} {core v : Nat} (h : bits 63 62 v ≠ 3) (t k : Nat) : tagOf (setAccTag hw core t v) core k =
    if k = t then { tagOf hw core t with state := bits 63 62 v, owner := bits 47 32 v } else tagOf hw core k := by
  simp only [tagOf, setAccTag, h, if_false, setTag, Hw.core_setCore_same, Tab.val_ins]

/-- A write of an accumulator tag with no operation on its tile takes effect (16_matrix R314). -/
theorem acctagWrite_rules {core tile : Nat} {s : State} (hc : core < 864) (ht : tile < 192) (free : tilePending s.hw core tile = false)
    (unasked : ∀ x ∈ (s.hw.core core).tagWrites, x.1 ≠ tile) (v : Word) : ∃ t, exec (.acctagWrite core tile v) s = .next t ∧ Quiet s t ∧
      (bits 63 62 v.toNat = 3 → (t.hw.core core).acctag = (s.hw.core core).acctag) ∧
      (bits 63 62 v.toNat ≠ 3 → (tagOf t.hw core tile).state = bits 63 62 v.toNat ∧ (tagOf t.hw core tile).owner = bits 47 32 v.toNat ∧
        (tagOf t.hw core tile).fresh = (tagOf s.hw core tile).fresh ∧ ∀ k, k ≠ tile → tagOf t.hw core k = tagOf s.hw core k) := by
  have first : (s.hw.core core).tagWrites.find? (fun x => x.1 == tile) = none := List.find?_eq_none.2 (by simpa using unasked)
  let h := s.hw.setCore core fun k => { k with tagWrites := k.tagWrites.erase (tile, v.toNat) }
  have acts : exec (.acctagWrite core tile v) s = .next (s.with (setAccTag h core tile v.toNat)) := by
    simp only [exec, execAcctagWrite, first, free, Nat.not_le.2 hc, Nat.not_le.2 ht, decide_false, Bool.not_true, Bool.or_self,
      Bool.false_eq_true, if_false]
    rfl
  have tags : (h.core core).acctag = (s.hw.core core).acctag := by rw [Hw.core_setCore_same]
  have old (k : Nat) : tagOf h core k = tagOf s.hw core k := by rw [tagOf, tags]; rfl
  have quiet : Quiet s (s.with (setAccTag h core tile v.toNat)) := by
    unfold setAccTag
    split <;> exact quiet_with rfl rfl
  refine ⟨_, acts, quiet, fun three => ?_, fun other => ?_⟩
  · rw [State.with_hw, setAccTag, if_pos three]
    exact tags
  · have written := tagOf_setAccTag (hw := h) (core := core) other tile
    exact ⟨by rw [State.with_hw, written, if_pos rfl], by rw [State.with_hw, written, if_pos rfl],
      by rw [State.with_hw, written, if_pos rfl, old], fun k hk => by rw [State.with_hw, written, if_neg hk, old]⟩

/-- Settles O39: the checks of rsys and wsys and what they read and write; then each row of the window. -/
theorem systemRegisters : Obligations.SystemRegisters := by
  unfold Obligations.SystemRegisters
  refine ⟨fun fm con write which f s e h => ?_, fun e sc reads x sup => ⟨userDenied_sup sup .., userDenied_sup sup ..⟩,
    fun e sc reads x user => ⟨userDenied_write user .., fun hidden => by rw [hidden]; exact userDenied_hidden user ..⟩,
    fun e x user other => ⟨userDenied_foreign user (by decide) (by decide) other .., userDenied_foreign user (by decide) (by decide) other ..,
      userDenied_foreign user (by decide) (by decide) other .., userDenied_foreign user (by decide) (by decide) other ..⟩,
    fun hw m p t n sc x v _ h1 h2 unnamed => sys_unnamed h1 h2 unnamed m t v, fun hw m p t x v c hc n hn => writeSys_base hc hn m t v,
    fun hw m p t x v c hc => ⟨_, writeSys_trapcfg hc m t v, Ring.write_rules c.ring v⟩, ctxctlWrite_rules,
    fun fn ctx v s c hc => ⟨⟨_, rfl, quiet_setCtx hc _⟩, ⟨_, rfl, quiet_setCtx hc _⟩⟩,
    fun core ctx v s p c hp hc => splbaseWrite_rules hp hc v, fun core tile v s hc ht free unasked => acctagWrite_rules hc ht free unasked v⟩
  rcases which with ⟨rfl, rfl, rfl⟩ | ⟨rfl, rfl, rfl⟩
  · have hi := exec_rsys f s
    exact ⟨sysForm_badTarget h hi, sysForm_unassigned h hi, fun sc reads good reg => ⟨sysForm_denied h hi good reg,
      sysForm_asks h hi good reg, fun allowed now => ⟨fun _ => retires_of_done h.here (sysForm_acts h hi good reg allowed now) rfl, nofun⟩⟩⟩
  · have hi := exec_wsys f s
    refine ⟨sysForm_badTarget h hi, sysForm_unassigned h hi, fun sc reads good reg => ⟨sysForm_denied h hi good reg,
      sysForm_asks h hi good reg, fun allowed now => ⟨nofun, fun _ => ?_⟩⟩⟩
    have acts := retires_of_done h.here (sysForm_acts h hi good reg allowed now) rfl
    rw [env_state h.here] at acts
    exact acts

end Sys2Proof.Machine
end

section
/-! SUPPORT. Global loads, stores, gathers, scatters and prefetches: the operations they start, and the replies of loads from device memory
(12_handles R225-R235; 13_consistency R247). -/

namespace Sys2Proof.Machine

open Sys2Proof

/-! ## Forms that start an operation -/

/-- What a load or gather needs of its handle and page (R229, R240). -/
def loadNeed (f : Fields) (r : Regs) : Need :=
  { spaces := fun sp => sp != 4 && (r.fsel == 0 || sp == 0), r := true, width := Ty.width f.ty / 8, rd := true }
/-- The operation of a load or gather of elements es (R229, R231). -/
def loadOp (e : Env) (r : Regs) (f : Fields) (es : List Elem) : Op :=
  { e.newOp r (.load (es.map fun x => { x with w := e.now + 1 }) f.ty) with entry := true, dst := e.dest r }

/-- A load or gather traps where its checks do, and else starts its operation (R229, R230, R233). -/
theorem loadForm_rules {fm : Form} {f : Fields} {s : State} {e : Env} {i : Instr} {refs : Env → Regs → List Ref}
    (hi : exec i s = loadForm fm f s refs) (h : Issues fm f s e) (free : e.tableFull = false) :
    let r := regsF fm f
    (∀ es hw, e.check (loadNeed f r) (r.sh.d == .s) (refs e r) = .ok es hw → Starts i s e r (loadOp e r f es) (r.fsel == 0)
      (hw.setCore e.core fun c => { c with wtPeak := Nat.max c.wtPeak (waitEntries hw e.core + 1) })) ∧
    ∀ t, e.check (loadNeed f r) (r.sh.d == .s) (refs e r) = .stop (.trap t) → Traps i s e t := by
  have issued := hi.trans (issueF_ok h _)
  simp only [free, Bool.false_eq_true, if_false] at issued
  refine ⟨fun es hw passed => ?_, fun t stopped => ?_⟩
  · rw [loadNeed] at passed
    simp only [passed] at issued
    exact starts_of_start h.here issued rfl
  · rw [loadNeed] at stopped
    simp only [stopped] at issued
    exact traps_of_trap issued rfl

/-- What a store or scatter needs of its handle and page (R232, R240). -/
def storeNeed (f : Fields) : Need := { spaces := fun _ => true, w := true, width := Ty.width f.ty / 8, wr := true }
/-- The operation of a store or scatter of elements es, the machine otherwise as hw (R232). -/
def storeOp (e : Env) (r : Regs) (f : Fields) (es : List Elem) (hw : Hw) : Op :=
  { e.newOp r (.store (lastWriters (es.map fun x => { x with val := word ((e.vd r x.lane).toNat % 2 ^ (8 * (Ty.width f.ty / 8))) }))
      (Ty.width f.ty / 8)) with counts := true, id := hw.nextId }

/-- A store or scatter traps where its checks do, and else starts its operation and goes on (R232, R233). -/
theorem storeForm_rules {fm : Form} {f : Fields} {s : State} {e : Env} {i : Instr} {refs : Env → Regs → List Ref}
    (hi : exec i s = storeForm fm f s refs) (h : Issues fm f s e) (free : e.counterFull = false) :
    let r := regsF fm f
    (∀ es hw, e.check (storeNeed f) (r.sh.d == .s) (refs e r) = .ok es hw → Room e r { ops := [storeOp e r f es hw] } hw →
      Retires i s e r { ops := [storeOp e r f es hw] } hw) ∧
    ∀ t, e.check (storeNeed f) (r.sh.d == .s) (refs e r) = .stop (.trap t) → Traps i s e t := by
  have issued := hi.trans (issueF_ok h _)
  simp only [free, Bool.false_eq_true, if_false] at issued
  refine ⟨fun es hw passed => ?_, fun t stopped => ?_⟩
  · rw [storeNeed] at passed
    simp only [passed] at issued
    exact retires_of_done h.here issued rfl
  · rw [storeNeed] at stopped
    simp only [stopped] at issued
    exact traps_of_trap issued rfl

/-! ## What reading leaves -/

/-- Machine b is machine a but for the translations and leases its partitions have given and the counter of open choices. -/
structure OnlyUse (a b : Hw) : Prop where
  rest : b = { a with parts := b.parts, free := b.free }
  pend : ∀ p, (b.part p).pend = (a.part p).pend

theorem OnlyUse.refl (a : Hw) : OnlyUse a a := ⟨rfl, fun _ => rfl⟩
theorem OnlyUse.trans {a b c : Hw} (h : OnlyUse a b) (k : OnlyUse b c) : OnlyUse a c :=
  ⟨by rw [k.rest, h.rest], fun p => (k.pend p).trans (h.pend p)⟩
theorem OnlyUse.withFree {a b : Hw} (h : OnlyUse a b) (n : Nat) : OnlyUse a { b with free := n } :=
  ⟨by rw [h.rest], h.pend⟩
theorem OnlyUse.ops {a b : Hw} (h : OnlyUse a b) : b.ops = a.ops := by rw [h.rest]
theorem OnlyUse.gangs {a b : Hw} (h : OnlyUse a b) : b.gangs = a.gangs := by rw [h.rest]
theorem OnlyUse.blocks {a b : Hw} (h : OnlyUse a b) : b.blocks = a.blocks := by rw [h.rest]
theorem OnlyUse.sent {a b : Hw} (h : OnlyUse a b) : b.sent = a.sent := by rw [h.rest]

theorem onlyUse_setPart (hw : Hw) (p : Nat) {f : Part → Part} (hf : ∀ q, (f q).pend = q.pend) : OnlyUse hw (hw.setPart p f) := by
  refine ⟨rfl, fun k => ?_⟩
  by_cases h : k = p
  · rw [h, Hw.part_setPart_same, hf]
  · rw [Hw.part_setPart_other h]

theorem onlyUse_translate (hw : Hw) (m : Tab Memory) (p c va : Nat) : OnlyUse hw (translate hw m p c va).2 := by
  unfold translate
  split
  · exact .refl _
  extract_lets use known fresh add d
  have added : ∀ e, OnlyUse hw (add e) := fun e => by
    simp only [add]
    split
    · exact onlyUse_setPart hw p fun _ => rfl
    · exact .refl _
  clear_value known fresh
  split
  · exact added _
  · exact .refl _
  · extract_lets same src hw' i
    have chosen : OnlyUse hw hw' := by
      refine OnlyUse.withFree ?_ _
      simp only [src]
      split
      · split
        · exact .refl _
        · exact added _
      · exact .refl _
    split
    · exact .refl _
    · exact chosen

theorem onlyUse_laneCheck (hw : Hw) (m : Tab Memory) (p c : Nat) (n : Need) (x : Ref) : OnlyUse hw (laneCheck hw m p c n x).2 := by
  have used := onlyUse_translate hw m p c ((readHandle hw m p c x.h).base + x.o)
  unfold laneCheck
  extract_lets hd va k ex
  by_cases bad : handleBad hw p c x.h n hd
  · rw [if_pos bad]; exact .refl _
  by_cases long : hd.len < x.o + n.width
  · rw [if_neg bad, if_pos long]; exact .refl _
  by_cases off : va % n.width ≠ 0
  · rw [if_neg bad, if_neg long, if_pos off]; exact .refl _
  by_cases ungranted : hd.space = 3 ∧ hd.tgt < 1024 ∧ ex.state ≠ 1
  · rw [if_neg bad, if_neg long, if_neg off, if_pos ungranted]; exact .refl _
  by_cases down : (hd.space = 1 ∨ hd.space = 2 ∨ hd.space = 4) ∧ !targetUp k { space := hd.space, peer := hd.peer } 0
  · rw [if_neg bad, if_neg long, if_neg off, if_neg ungranted, if_pos down]; exact .refl _
  rw [if_neg bad, if_neg long, if_neg off, if_neg ungranted, if_neg down]
  split
  case h_1 found => rw [found] at used; exact used
  case h_2 found =>
    rw [found] at used
    split
    · exact OnlyUse.withFree (.refl _) _
    · exact used

theorem onlyUse_laneChecks (m : Tab Memory) (p c : Nat) (n : Need) (refs : List Ref) (hw : Hw) :
    OnlyUse hw (laneChecks hw m p c n refs).2 := by
  induction refs generalizing hw with
  | nil => exact .refl _
  | cons x xs ih => exact (onlyUse_laneCheck hw m p c n x).trans (ih _)

/-- A lease changes no write that is pending (13_consistency R248). -/
theorem onlyUse_grantLease (hw : Hw) (p t : Nat) (e : Elem) : OnlyUse hw (grantLease hw p t e) := by
  have drawn : OnlyUse hw hw.draw.2 := .withFree (.refl _) _
  simp only [grantLease]
  split
  · exact .refl _
  split
  · exact drawn
  · exact drawn.trans (onlyUse_setPart _ _ fun _ => rfl)

theorem onlyUse_foldl {α : Type} {f : Hw → α → Hw} (hf : ∀ h x, OnlyUse h (f h x)) (l : List α) (hw : Hw) : OnlyUse hw (l.foldl f hw) := by
  induction l generalizing hw with
  | nil => exact .refl _
  | cons x l ih => exact (hf hw x).trans (ih _)

/-- A prefetch leaves translations and leases, and nothing else (R235). -/
theorem onlyUse_prefetch (e : Env) (f : Fields) (r : Regs) : OnlyUse e.hw (e.prefetch f r) := by
  refine (onlyUse_laneChecks ..).trans (onlyUse_foldl (fun h x => ?_) _ _)
  split
  · exact onlyUse_grantLease ..
  · exact .refl _

/-! ## Replies from device memory -/

theorem ofBytes_lt (bs : List Byte) : ofBytes bs < 256 ^ bs.length := by
  induction bs with
  | nil => decide
  | cons b bs ih =>
    have := b.isLt
    rw [ofBytes, List.length_cons, Nat.pow_succ]
    omega

/-- A number of at most eight bytes of memory is one word. -/
theorem toNat_word_rdNat (m : Tab Memory) (p a : Nat) {n : Nat} (h : n ≤ 8) : (word (rdNat m p a n)).toNat = rdNat m p a n := by
  have bound : rdNat m p a n < 256 ^ n := by
    simpa [rdNat, rdBytes] using ofBytes_lt (rdBytes m p a n)
  exact Nat.mod_eq_of_lt (bound.trans_le (Nat.pow_le_pow_right (by decide : 0 < 256) h))

/-- Whether an element may be performed depends on the operations in flight and the pending writes. -/
theorem clear_onlyUse {a b : Hw} (h : OnlyUse a b) (o : Op) (e : Elem) (n : Nat) (read : Bool) : clear b o e n read = clear a o e n read := by
  simp only [clear, h.ops, h.pend]

/-- An element of a load once its bytes of device memory are read (R229). -/
def loadedElem (m : Tab Memory) (o : Op) (e : Elem) : Elem := { e with st := 1, val := word (rdNat m o.part e.tgt.pa o.kind.width) }

theorem readElem_device (m : Tab Memory) (t : Nat) {o : Op} (x : Option Word) {hw : Hw} {e : Elem} (new : e.st = 0) (device : e.tgt.space = 0)
    (free : clear hw o e o.kind.width true = true) : readElem m t o x hw e = (loadedElem m o e, grantLease hw o.part t e) := by
  simp only [readElem, new, device, free, if_true]
  rfl

/-- The elements of a load from device memory are all performed by a reply that names their lanes (R229, R247). -/
theorem mapElemsSel_device {m : Tab Memory} {t : Nat} {o : Op} {sel : Lanes} {data : List Word} {hw0 : Hw} {es : List Elem}
    (ready : ∀ x ∈ es, x.st = 0 ∧ x.tgt.space = 0 ∧ inLanes sel x.lane = true ∧ clear hw0 o x o.kind.width true = true) (i : Nat) {hw : Hw}
    (use : OnlyUse hw0 hw) : ∃ h, mapElemsSel (inLanes sel) data (readElem m t o) i hw es = (es.map (loadedElem m o), h) ∧ OnlyUse hw0 h := by
  induction es generalizing i hw with
  | nil => exact ⟨hw, rfl, use⟩
  | cons x es ih =>
    obtain ⟨⟨new, device, named, free⟩, ready⟩ := List.forall_mem_cons.1 ready
    obtain ⟨h, rest, last⟩ := ih ready (i + 1) (use.trans (onlyUse_grantLease hw o.part t x))
    refine ⟨h, ?_, last⟩
    have read := readElem_device m t data[i]? new device ((clear_onlyUse use ..).trans free)
    simp only [mapElemsSel, named, if_true, read, rest, List.map_cons]

theorem elemVal_loaded {m : Tab Memory} {o : Op} {es : List Elem} {l : Nat} {x : Elem} (h : es.find? (fun x => x.lane == l) = some x)
    (f : Word → Word) : elemVal (es.map (loadedElem m o)) f l = f (word (rdNat m o.part x.tgt.pa o.kind.width)) := by
  have found : (es.map (loadedElem m o)).find? (fun x => x.lane == l) = some (loadedElem m o x) := by
    rw [List.find?_map]
    exact congrArg (Option.map (loadedElem m o)) h
  simp only [elemVal, found]
  rfl

theorem id_of_op {hw : Hw} {id : Nat} {o : Op} (h : hw.op id = some o) : o.id = id := by
  simpa using List.find?_some h

/-- Replacing an operation by one of its number keeps the numbers of the operations in flight. -/
theorem ids_setOp (hw : Hw) {id : Nat} (o : Op) (h : o.id = id) : (hw.setOp id fun _ => o).ops.map (·.id) = hw.ops.map (·.id) := by
  simp only [Hw.setOp, List.map_map]
  refine List.map_congr_left fun x _ => ?_
  simp only [Function.comp]
  split
  · rename_i same; rw [h, same]
  · rfl

/-- A reply that names every lane of a load from device memory ends it with the values that memory holds (R229, R230, R247). -/
theorem loadReply_ends {id : Nat} {sel : Lanes} {data : List Word} {s : State} {o : Op} {es : List Elem} {ty : Ty} (ho : s.hw.op id = some o)
    (hk : o.kind = .load es ty) (unchained : o.chain = none)
    (ready : ∀ x ∈ es, x.st = 0 ∧ x.tgt.space = 0 ∧ inLanes sel x.lane = true ∧ clear s.hw o x (Ty.width ty / 8) true = true) :
    ∃ h, OnlyUse s.hw h ∧ exec (.loadReply id sel data) s =
      let o' := { o with kind := .load (es.map (loadedElem s.mem o)) ty }
      .next (landOp (s.with (h.setOp id fun _ => o')) o' (elemVal (es.map (loadedElem s.mem o)) fun v => loadValue ty v.toNat)) := by
  have width : o.kind.width = Ty.width ty / 8 := by rw [hk]; rfl
  obtain ⟨h, performed, use⟩ := mapElemsSel_device (m := s.mem) (t := s.time) (data := data) (width ▸ ready) 0 (.refl s.hw)
  refine ⟨h, use, ?_⟩
  have done : allDone (es.map (loadedElem s.mem o)) = true := by simp [allDone, loadedElem]
  have none_fails : ((es.map (loadedElem s.mem o)).any fun e => e.st == 2) = false := by simp [loadedElem]
  simp only [exec, execLoadReply, ho, hk, performed, done, none_fails, unchained, Option.isSome_none, Bool.not_true, Bool.or_self,
    Bool.false_eq_true, if_false]

/-- Settles O18: loads and gathers, stores and scatters, prefetches, and the replies of loads from device memory. -/
theorem globalAccess : Obligations.GlobalAccess := by
  unfold Obligations.GlobalAccess
  refine ⟨fun fm con refs which f s e h free => ?_, fun fm con refs which f s e h free => ?_, fun f s e h => ?_,
    fun id sel data s o es ty ho hk unchained ready => ?_⟩
  · rcases which with ⟨rfl, rfl, rfl⟩ | ⟨rfl, rfl, rfl⟩
    · exact loadForm_rules (refs := fun e r => e.refs r f r.b) rfl h free
    · exact loadForm_rules (refs := fun e r => e.gathRefs r f) rfl h free
  · rcases which with ⟨rfl, rfl, rfl⟩ | ⟨rfl, rfl, rfl⟩
    · exact storeForm_rules (refs := fun e r => e.refs r f r.b) rfl h free
    · exact storeForm_rules (refs := fun e r => e.gathRefs r f) rfl h free
  · have use := onlyUse_prefetch e f (regsF Forms.pref f)
    have issued : exec (.pref f) s = _ := issueF_ok h fun e r => .done {} (e.prefetch f r)
    exact ⟨use.rest, use.pend, retires_of_done h.here issued rfl (room_nil rfl rfl rfl rfl)⟩
  · have number := id_of_op ho
    obtain ⟨h, use, ends⟩ := loadReply_ends ho hk unchained ready (data := data)
    refine ⟨_, _, _, ends, rfl, rfl, rfl, use.gangs, use.blocks, use.sent, ?_, use.pend, fun l x hx => ?_⟩
    · exact (ids_setOp h { o with kind := .load (es.map (loadedElem s.mem o)) ty } number).trans (by rw [use.ops])
    · have width : o.kind.width = Ty.width ty / 8 := by rw [hk]; rfl
      rw [elemVal_loaded hx, width, toNat_word_rdNat _ _ _ (Nat.div_le_of_le_mul (width_le ty))]

end Sys2Proof.Machine
end

section
/-! SUPPORT. What changes committed memory: no instruction and no event changes time, the agenda or a byte of device memory, but for those that
lose power or shape and an hset that retires (13_consistency R248, R249; 12_handles R238). -/

namespace Sys2Proof.Machine

open Sys2Proof

/-! ## States that agree in time and memory -/

/-- State t has the time, the agenda and the device memory of s; bytes from 2^60 on are the bridge's host sectors (14_atomics R269). -/
structure Steady (s t : State) : Prop where
  time : t.time = s.time
  agenda : t.agenda = s.agenda
  bytes : ∀ p a, a < 2 ^ 60 → rdByte t.mem p a = rdByte s.mem p a

theorem Steady.refl (s : State) : Steady s s := ⟨rfl, rfl, fun _ _ _ => rfl⟩
theorem Steady.trans {a b c : State} (h : Steady a b) (k : Steady b c) : Steady a c :=
  ⟨k.time.trans h.time, k.agenda.trans h.agenda, fun p x hx => (k.bytes p x hx).trans (h.bytes p x hx)⟩

/-- A state with another machine in it has the same time and memory. -/
theorem steady_with (s : State) (h : Hw) : Steady s (s.with h) := ⟨rfl, rfl, fun _ _ _ => rfl⟩
theorem Steady.with {s t : State} (h : Steady s t) (hw : Hw) : Steady s (t.with hw) := h.trans (steady_with t hw)

theorem steady_ite {s a b : State} {c : Prop} [Decidable c] (ha : Steady s a) (hb : Steady s b) : Steady s (if c then a else b) := by
  split
  · exact ha
  · exact hb

theorem steady_foldl {α : Type} {f : State → α → State} (hf : ∀ s x, Steady s (f s x)) (l : List α) (s : State) : Steady s (l.foldl f s) := by
  induction l generalizing s with
  | nil => exact .refl s
  | cons x l ih => exact (hf s x).trans (ih _)

/-- Outcome o answers no state but those that agree with s in time and memory. -/
def Keeps (s : State) (o : Out) : Prop := ∀ t, o = .next t → Steady s t

theorem keeps_next {s t : State} (h : Steady s t) : Keeps s (.next t) := fun _ e => Host.Outcome.next.inj e ▸ h
theorem keeps_with (s : State) (h : Hw) : Keeps s (.next (s.with h)) := keeps_next (steady_with s h)
theorem keeps_same (s : State) : Keeps s (.next s) := keeps_next (.refl s)
theorem Keeps.of_steady {s t : State} {o : Out} (h : Steady s t) (k : Keeps t o) : Keeps s o := fun u e => h.trans (k u e)

/-! ## Instructions

An instruction that issues changes the machine alone. -/

theorem keeps_issue (s : State) (r : Regs) (ends sup : Bool) (body : Env → Res) : Keeps s (issue s r ends sup body) := by
  unfold issue
  split
  · exact keeps_same s
  split
  · exact keeps_with _ _
  split
  · exact keeps_with _ _
  split <;> exact keeps_with _ _

/-- What follows an outcome keeps time and memory where its next step does. -/
theorem keeps_then {s : State} {o : Out} {g : State → Out} (hg : ∀ t, Keeps t (g t)) :
    Keeps s o → Keeps s (match o with | .next t => g t | o => o) := by
  intro issued
  cases o with
  | next t => exact (hg t).of_steady (issued t rfl)
  | fault r => exact issued
  | refused r => exact issued

/-! ## Operations that end -/

theorem steady_landOp (s : State) (o : Op) (v : Nat → Word) : Steady s (landOp s o v) := by
  simp only [landOp]
  split
  · split <;> exact steady_with ..
  · exact steady_with ..

theorem steady_failWaiter (s : State) (o : Op) (es : List Elem) : Steady s (failWaiter s o es) := by
  simp only [failWaiter]
  split
  · exact steady_with ..
  split
  · exact steady_with ..
  split
  · exact steady_with ..
  split <;> exact steady_with ..

theorem steady_acquireAt (s : State) (o : Op) (w : Nat) (v : Nat → Word) : Steady s (acquireAt s o w v) := by
  unfold acquireAt
  split
  · exact steady_landOp ..
  · exact steady_with ..

theorem steady_retireAt (s : State) (gk p : Nat) (w : Writes) : Steady s (retireAt s gk p w) := by
  unfold retireAt
  split
  · exact steady_with ..
  · exact .refl s

/-! ## Rejoins -/

theorem steady_mergeGroup (s : State) (gk : Nat) (ms : List Member) : Steady s (mergeGroup s gk ms) := by
  unfold mergeGroup
  split
  · exact .refl s
  · exact steady_with ..

theorem steady_rejoinDeadlock (s : State) (gk : Nat) (g : Gang) : Steady s (rejoinDeadlock s gk g) := by
  simp only [rejoinDeadlock]
  split
  · exact .refl s
  · exact steady_with ..

theorem steady_settleRejoin (gk n : Nat) (s : State) : Steady s (settleRejoin gk n s) := by
  induction n generalizing s with
  | zero => exact .refl s
  | succ n ih =>
    unfold settleRejoin
    split
    · exact .refl s
    split
    · exact (steady_mergeGroup ..).trans (ih _)
    · split
      · exact steady_rejoinDeadlock ..
      · exact .refl s

/-! ## Barriers -/

theorem steady_releaseGang (s : State) (gk : Nat) (w : Wait) : Steady s (releaseGang s gk w) := by
  unfold releaseGang
  split
  · exact .refl s
  refine steady_foldl (fun s x => ?_) _ s
  split
  · split
    · exact steady_with ..
    · exact .refl s
  · split
    · exact steady_retireAt ..
    · exact .refl s

theorem steady_releaseWaves (s : State) (b core : Nat) (w : Wait) : Steady s (releaseWaves s b core w) := by
  unfold releaseWaves
  extract_lets c gs n
  refine steady_foldl (fun s x => ?_) _ s
  split
  · exact steady_releaseGang ..
  · exact steady_with ..

theorem steady_openBlock (s : State) (bk : Nat) : Steady s (openBlock s bk) := by
  unfold openBlock
  split
  · exact .refl s
  split
  · exact .refl s
  · exact (steady_with ..).trans (steady_releaseWaves ..)

theorem steady_openNamed (s : State) (bk n : Nat) : Steady s (openNamed s bk n) := by
  simp only [openNamed]
  split
  · exact .refl s
  split
  · exact .refl s
  · exact (steady_with ..).trans (steady_releaseWaves ..)

theorem steady_reopen (s : State) (bk : Nat) : Steady s (reopen s bk) :=
  (steady_openBlock s bk).trans (steady_foldl (fun s n => steady_openNamed s bk n) _ _)

theorem steady_wakeBarw (s : State) (bk : Nat) : Steady s (wakeBarw s bk) := by
  refine steady_foldl (fun s x => steady_foldl (fun s q => ?_) _ s) _ s
  split
  · split
    · exact steady_retireAt ..
    · exact .refl s
  · exact .refl s

/-! ## Lanes that end -/

theorem steady_endLanes (s : State) (gk p : Nat) (m : Lanes) : Steady s (endLanes s gk p m) := by
  unfold endLanes
  split
  · exact .refl s
  extract_lets h1 empty h2 s3 s4
  have left : Steady s s4 :=
    ((steady_with s h2).trans ((steady_with ..).trans (steady_reopen ..))).trans (steady_settleRejoin gk 40 s3)
  split
  · split
    · exact left.with _
    · exact left
  · exact left

/-! ## Engines -/

theorem steady_wakeBwait (s : State) (gk : Nat) : Steady s (wakeBwait s gk) := by
  unfold wakeBwait
  split
  · exact .refl s
  refine steady_foldl (fun s p => ?_) _ s
  split
  · split
    · split
      · exact steady_with ..
      · exact .refl s
    · exact .refl s
  · exact .refl s

theorem steady_finishCopyOp (s : State) (o : Op) (c : Copy) : Steady s (finishCopyOp s o c) :=
  ((steady_landOp ..).with _).trans (steady_wakeBwait ..)

theorem steady_landTile (s : State) (o : Op) (ts : List Nat) (k : TileOp) : Steady s (landTile s o ts k) := by
  unfold landTile
  extract_lets h0 h1 h2
  split
  · split
    · cases k <;> exact steady_with ..
    · exact steady_with ..
  · exact steady_with ..

theorem steady_runTiles (core n : Nat) (s : State) : Steady s (runTiles core n s) := by
  induction n generalizing s with
  | zero => exact .refl s
  | succ n ih =>
    unfold runTiles
    split
    · split
      · exact (steady_landTile ..).trans (ih _)
      · exact .refl s
    · exact .refl s

theorem steady_startBlock (core bank idx : Nat) (s : State) : Steady s (startBlock core bank idx s) := by
  unfold startBlock
  split
  · exact .refl s
  split
  · exact .refl s
  split
  · exact .refl s
  split
  · exact .refl s
  · exact steady_with ..

/-! ## Links, power and partitions -/

/-- The bridge's copies of host sectors stand from 2^60 on. -/
theorem rdByte_bridge (m : Tab Memory) (p pa : Nat) (bs : List Byte) (q : Nat) {a : Nat} (h : a < 2 ^ 60) :
    rdByte (m.put [] p (storeBytes (memOf m p) (bridgeAddr pa) bs)) q a = rdByte m q a := by
  rw [rdByte_store, if_neg]
  rintro ⟨-, low, -⟩
  exact absurd (low.trans_lt h) (Nat.not_lt.2 (Nat.le_add_right ..))

theorem steady_releaseSector (s : State) (p sec : Nat) (b : Bool) : Steady s (releaseSector s p sec b) := by
  simp only [releaseSector]
  refine ⟨?_, ?_, fun q a h => ?_⟩
  · simp only
  · simp only
  · rw [rdByte_bridge _ _ _ _ _ h]

theorem steady_dropSectors (s : State) (p : Nat) : Steady s (dropSectors s p) :=
  ((steady_with ..).trans (steady_foldl (fun s k => steady_releaseSector s p k false) _ _)).with _

theorem steady_loseHost (s : State) (p : Nat) : Steady s (loseHost s p) :=
  ((steady_with ..).with _).trans (steady_dropSectors ..)

theorem steady_fmcrStep (s : State) (p op g st : Nat) : Steady s (fmcrStep s p op g st) := by
  refine steady_foldl (fun s o => ?_) _ s
  split
  · split
    · dsimp only
      split
      · exact (steady_with ..).trans (steady_landOp ..)
      · exact steady_with ..
    · exact .refl s
  · exact .refl s

theorem steady_parkDie (die : Nat) (s : State) : Steady s (parkDie die s) := by
  unfold parkDie
  extract_lets cs ok
  split
  · exact .refl s
  · exact steady_with ..

theorem steady_faultPartition (s : State) (p : Nat) : Steady s (faultPartition s p) :=
  (steady_foldl (fun s _ => (steady_with s _).with _) _ s).with _

/-! ## Waits that are over -/

theorem steady_wakeAcquire (s : State) (e : Env) (id t : Nat) : Steady s (wakeAcquire s e id t) := by
  unfold wakeAcquire
  split
  · exact .refl s
  split
  · exact (steady_with ..).trans (steady_landOp ..)
  · exact .refl s

theorem steady_wakeDrain (s : State) (e : Env) (ids : List Nat) (c : Nat) (va : Option Nat) (ps : List (Nat × Nat)) (d : Nat) :
    Steady s (wakeDrain s e ids c va ps d) := by
  unfold wakeDrain
  split
  · exact .refl s
  extract_lets old r
  split
  · exact steady_with ..
  split <;> exact steady_with ..

theorem steady_wakeAside (s : State) (e : Env) : Steady s (wakeAside s e) := by
  unfold wakeAside
  split
  · exact steady_wakeAcquire ..
  · split
    · exact .refl s
    · exact steady_with ..
  · exact steady_wakeDrain ..
  · exact .refl s

/-- A path that waits for no table entry goes on without a change to memory. -/
theorem steady_wakeRunning {s : State} {e : Env} (other : ∀ a v t, e.q.wait ≠ .table a v t) : Steady s (wakeRunning s e) := by
  unfold wakeRunning
  split
  case h_14 a v t h => exact absurd h (other a v t)
  case h_1 | h_2 | h_3 | h_4 | h_5 | h_6 | h_15 => exact steady_ite (steady_with ..) (.refl s)
  case h_7 | h_8 | h_9 | h_10 => exact steady_with ..
  case h_11 => exact steady_wakeAcquire ..
  case h_12 => exact steady_ite (.refl s) (steady_with ..)
  case h_13 => exact steady_wakeDrain ..
  case h_16 => exact .refl s

/-- An hset that retires changes the eight bytes of its word (12_handles R238). -/
theorem wakeTable_rules (s : State) (e : Env) (a : Nat) (v : Word) (w : Nat) :
    (wakeTable s e a v w).time = s.time ∧ (wakeTable s e a v w).agenda = s.agenda ∧
      ∀ p x, (p = e.part → x < a ∨ a + 8 ≤ x) → rdByte (wakeTable s e a v w).mem p x = rdByte s.mem p x := by
  simp only [wakeTable]
  split
  · exact ⟨rfl, rfl, fun _ _ _ => rfl⟩
  · refine ⟨rfl, rfl, fun p x outside => ?_⟩
    refine (rdByte_store ..).trans (if_neg ?_)
    rw [length_toBytes]
    rintro ⟨same, (low : a ≤ x), (high : x < a + 8)⟩
    have := outside same
    omega

/-! ## Instructions that do more than issue -/

theorem keeps_thenWake {s : State} {o : Out} (h : Keeps s o) : Keeps s (thenWake s o) := by
  unfold thenWake
  split
  · exact keeps_next ((h _ rfl).trans (steady_wakeBarw ..))
  · exact h

/-- A form whose second step opens a barrier of the block. -/
theorem keeps_opening {s : State} {o : Out} {f : State → Env → State} (hf : ∀ t e, Steady t (f t e)) :
    Keeps s o → Keeps s (match o with | .next t => (match env s with | some e => .next (f t e) | none => .next t) | o => o) := by
  refine keeps_then fun t => ?_
  cases env s with
  | some e => exact keeps_next (hf t e)
  | none => exact keeps_same t

theorem keeps_beginClause (h : Header) (s : State) : Keeps s (execBeginClause h s) := by
  unfold execBeginClause
  split
  · exact keeps_same s
  split
  · exact keeps_with _ _
  split
  · exact keeps_same s
  extract_lets others d ms
  split
  · split <;> exact keeps_with _ _
  · exact keeps_with _ _

theorem keeps_rejoinWith (f : Fields) (s : State) (m : Env → Regs → Lanes) : Keeps s (rejoinWith f s m) := by
  refine keeps_then (fun t => ?_) (keeps_issue _ _ _ _ _)
  cases env t with
  | some e => exact keeps_next (steady_settleRejoin ..)
  | none => exact keeps_same t

theorem keeps_exit (f : SFields) (s : State) : Keeps s (execExit f s) := by
  have moved := keeps_issue s (regsS Forms.exit f) true false fun e => .moved {} (e.goto (e.clauseEnd 4) id e.hw)
  unfold execExit
  split
  · exact keeps_same s
  split
  · exact moved
  refine keeps_then (fun t => ?_) moved
  split
  · exact keeps_same t
  · exact keeps_next (steady_endLanes ..)

theorem keeps_bar (f : Fields) (s : State) : Keeps s (execBar f s) :=
  keeps_opening (fun t e => steady_openBlock t e.g.block) (keeps_issue _ _ _ _ _)

theorem keeps_namedForm (fm : Form) (f : Fields) (s : State) (body : Env → Regs → Res) : Keeps s (namedForm fm f s body) :=
  keeps_opening (fun t e => steady_openNamed t e.g.block ((e.sa (regsF fm f)).toNat % 16)) (keeps_issue _ _ _ _ _)

/-! ## Writes to the window -/

theorem keeps_windowWrite {fn : Nat} {s : State} {body : Out} (h : Keeps s body) : Keeps s (windowWrite fn s body) := by
  simp only [windowWrite]
  split
  · exact keeps_same s
  split
  · exact keeps_with _ _
  · exact h

/-! ## Events that end operations -/

section
variable {s t : State} (h : Steady s t)
include h

theorem Steady.land (o : Op) (v : Nat → Word) : Steady s (landOp t o v) := h.trans (steady_landOp ..)
theorem Steady.fail (o : Op) (es : List Elem) : Steady s (failWaiter t o es) := h.trans (steady_failWaiter ..)
theorem Steady.acquire (o : Op) (w : Nat) (v : Nat → Word) : Steady s (acquireAt t o w v) := h.trans (steady_acquireAt ..)
theorem Steady.reopen (bk : Nat) : Steady s (reopen t bk) := h.trans (steady_reopen ..)
theorem Steady.barw (bk : Nat) : Steady s (wakeBarw t bk) := h.trans (steady_wakeBarw ..)
theorem Steady.tiles (core n : Nat) : Steady s (runTiles core n t) := h.trans (steady_runTiles ..)

end

theorem keeps_deviceQueueTake (id : Nat) (s : State) : Keeps s (execDeviceQueueTake id s) := by
  unfold execDeviceQueueTake
  split
  case h_2 => exact keeps_same s
  split
  case h_2 => exact keeps_same s
  split
  · exact keeps_same s
  split
  · exact keeps_next (steady_landOp ..)
  extract_lets r h
  split
  · exact keeps_next ((steady_with ..).land ..)
  · exact keeps_next ((steady_with ..).land ..)

theorem keeps_ldcComplete (id : Nat) (s : State) : Keeps s (execLdcComplete id s) := by
  unfold execLdcComplete
  split
  · exact keeps_same s
  split
  case h_2 => exact keeps_same s
  split
  · exact keeps_same s
  extract_lets b early
  split
  · exact keeps_same s
  split
  case h_1 =>
    extract_lets mine h b' got' rest
    split
    · exact keeps_same s
    split
    · exact keeps_next (((steady_with ..).land ..).reopen _)
    · exact keeps_with _ _
  case h_2 =>
    extract_lets mine h rest
    split
    · exact keeps_same s
    split
    · exact keeps_next ((((steady_with ..).land ..).barw _).reopen _)
    · exact keeps_next ((steady_with ..).barw _)
  case h_3 => exact keeps_same s

theorem keeps_scopyComplete (id : Nat) (s : State) : Keeps s (execScopyComplete id s) := by
  unfold execScopyComplete
  split
  case h_2 => exact keeps_same s
  split
  case h_2 => exact keeps_same s
  extract_lets b from' h
  split
  · exact keeps_same s
  split
  case h_2 => exact keeps_same s
  split
  · exact keeps_next ((((steady_with ..).land ..).barw _).reopen _)
  · exact keeps_same s

theorem keeps_loadReply (id : Nat) (sel : Lanes) (data : List Word) (s : State) : Keeps s (execLoadReply id sel data s) := by
  unfold execLoadReply
  split
  case h_2 => exact keeps_same s
  split
  case h_2 => exact keeps_same s
  extract_lets r o' s'
  have read : Steady s s' := steady_with ..
  split
  · exact keeps_next read
  split
  · exact keeps_next (read.fail ..)
  · exact keeps_next (read.land ..)

theorem keeps_hflushComplete (id : Nat) (s : State) : Keeps s (execHflushComplete id s) := by
  unfold execHflushComplete
  split
  case h_2 => exact keeps_same s
  split
  case h_2 => exact keeps_same s
  extract_lets secs waits
  split
  · exact keeps_same s
  · exact keeps_next ((steady_foldl (fun s k => steady_releaseSector ..) _ _).land ..)

theorem keeps_writeArrival (id : Nat) (sel : Lanes) (s : State) : Keeps s (execWriteArrival id sel s) := by
  unfold execWriteArrival
  split
  · extract_lets go r
    split
    · exact keeps_with _ _
    · exact keeps_same s
  · exact keeps_same s

theorem keeps_writeWReturn (id : Nat) (s : State) : Keeps s (execWriteWReturn id s) := by
  unfold execWriteWReturn
  split
  case h_2 => exact keeps_same s
  extract_lets es dev back es' h o' s'
  have returned : Steady s s' := steady_with ..
  split
  case h_1 | h_2 => exact keeps_next (steady_ite (returned.land ..) returned)
  case h_3 => exact keeps_next (steady_ite (returned.land ..) (.refl s))
  case h_4 =>
    split
    · exact keeps_same s
    split
    · exact keeps_next (returned.land ..)
    · exact keeps_next (returned.acquire ..)
  case h_5 => exact keeps_same s

theorem keeps_atomicReply (id : Nat) (data : List Word) (s : State) : Keeps s (execAtomicReply id data s) := by
  unfold execAtomicReply
  split
  case h_2 => exact keeps_same s
  split
  case h_2 => exact keeps_same s
  extract_lets r0 lanesOut r o' s' s2 waits w
  have replied : Steady s s' := steady_with ..
  have returned : Steady s s2 := replied.with _
  split
  · exact keeps_next replied
  split
  · exact keeps_next (returned.fail ..)
  · exact keeps_next (steady_ite (returned.acquire ..) (steady_ite returned (steady_ite ((returned.with _).land ..) (returned.land ..))))

theorem keeps_redPartialArrival (id : Nat) (s : State) : Keeps s (execRedPartialArrival id s) := by
  unfold execRedPartialArrival
  split
  case h_2 => exact keeps_same s
  split
  case h_2 => exact keeps_same s
  extract_lets n before line arm
  split
  · exact keeps_same s
  split
  · exact keeps_with _ _
  split
  · exact keeps_with _ _
  extract_lets mine full
  split <;> exact keeps_with _ _

theorem keeps_objectUpdate (id : Nat) (s : State) : Keeps s (execObjectUpdate id s) := by
  unfold execObjectUpdate
  split
  case h_2 => exact keeps_same s
  split
  case h_2 => exact keeps_same s
  extract_lets held
  split
  · exact keeps_same s
  · exact keeps_next (((steady_with ..).land ..).barw _)

theorem keeps_copyComplete (id : Nat) (data : List Byte) (s : State) : Keeps s (execCopyComplete id data s) := by
  unfold execCopyComplete
  split
  case h_2 => exact keeps_same s
  split
  case h_2 => exact keeps_same s
  extract_lets due c1 d i k mine rest ys touched r src x y h s1
  have moved : Steady s s1 := (steady_with ..).barw _
  split
  · split
    · exact keeps_next (moved.trans (steady_finishCopyOp ..))
    · exact keeps_next moved
  · exact keeps_next moved

theorem keeps_passComplete (id : Nat) (s : State) : Keeps s (execPassComplete id s) := by
  unfold execPassComplete
  split
  case h_2 => exact keeps_same s
  split
  case h_2 => exact keeps_same s
  extract_lets h1 h2 h3 s1
  have stored : Steady s s1 := (steady_with ..).tiles ..
  split
  · split
    · exact keeps_next (stored.land ..)
    · exact keeps_next stored
  · exact keeps_next stored

theorem keeps_atransferComplete (id : Nat) (s : State) : Keeps s (execAtransferComplete id s) := by
  unfold execAtransferComplete
  split
  case h_2 => exact keeps_same s
  split
  case h_2 => exact keeps_same s
  split
  · exact keeps_same s
  extract_lets h0 x1 b d i n mv src x2 full apply h1 pay x3 h2 s1
  have moved : Steady s s1 := ((steady_with ..).tiles ..).barw _
  split
  · exact keeps_same s
  split
  · split
    · exact keeps_next (moved.land ..)
    · exact keeps_next moved
  · exact keeps_next moved

theorem keeps_poolPublication (fn ext : Nat) (op : Option Nat) (v : Word) (s : State) : Keeps s (execPoolPublication fn ext op v s) := by
  unfold execPoolPublication
  extract_lets k x
  split
  · exact keeps_same s
  split
  · exact keeps_with _ _
  split
  · exact keeps_same s
  extract_lets mine
  split
  · exact keeps_same s
  split
  · exact keeps_same s
  · exact keeps_next (steady_ite ((steady_with ..).land ..) (steady_with ..))

theorem keeps_fmcrTimeout (op : Nat) (s : State) : Keeps s (execFmcrTimeout op s) := by
  unfold execFmcrTimeout
  split
  · split
    · split
      · exact keeps_next ((steady_with ..).land ..)
      · exact keeps_same s
    · exact keeps_same s
  · exact keeps_same s

/-- A held operation goes on as its kind does (18_contexts R351). -/
theorem keeps_heldOperationComplete (id : Nat) (s : State) : Keeps s (execHeldOperationComplete id s) := by
  unfold execHeldOperationComplete
  extract_lets s1
  refine Keeps.of_steady (t := s1) (steady_with ..) ?_
  split
  case h_2 => exact keeps_same s1
  split
  · exact keeps_same s1
  split
  · exact keeps_copyComplete id [] s1
  · exact keeps_redPartialArrival id s1
  · exact keeps_atomicReply id [] s1
  · exact keeps_loadReply id (BitVec.allOnes 32) [] s1
  · exact keeps_then (g := execWriteWReturn id) (keeps_writeWReturn id) (keeps_writeArrival id (BitVec.allOnes 32) s1)

/-! ## Events of barriers, links, members and power -/

theorem keeps_barrierReleaseWave (core ctx block bar : Nat) (s : State) : Keeps s (execBarrierReleaseWave core ctx block bar s) := by
  refine keeps_next (steady_foldl (fun s x => ?_) _ s)
  exact steady_ite (steady_foldl (fun s t => steady_ite (steady_releaseGang ..) (.refl s)) _ s) (.refl s)

theorem keeps_ownershipGrant (fn sec : Nat) (excl : Bool) (data : List Byte) (s : State) : Keeps s (execOwnershipGrant fn sec excl data s) := by
  simp only [execOwnershipGrant]
  split
  · exact keeps_next ⟨rfl, rfl, fun q _ h => rdByte_bridge _ _ _ _ q h⟩
  · exact keeps_same s

theorem keeps_sectorRelease (fn sec : Nat) (s : State) : Keeps s (execSectorRelease fn sec s) := by
  simp only [execSectorRelease]
  split
  · split
    · exact keeps_next (steady_releaseSector ..)
    · exact keeps_same s
  · exact keeps_same s

theorem keeps_hostSnoop (fn sec : Nat) (s : State) : Keeps s (execHostSnoop fn sec s) := by
  unfold execHostSnoop
  split
  · exact keeps_same s
  · exact keeps_next ((steady_releaseSector ..).with _)

theorem keeps_hostLinkDown (s : State) : Keeps s (execHostLinkDown s) := keeps_next (steady_foldl (fun s p => steady_loseHost s p) _ s)

theorem keeps_hostRead (fn addr len : Nat) (cxl win : Bool) (s : State) : Keeps s (execHostRead fn addr len cxl win s) := by
  unfold execHostRead
  split
  · unfold readMemory
    split
    · exact keeps_with _ _
    · exact keeps_same s
  · extract_lets q h0 v h
    split
    · exact keeps_same s
    · exact keeps_with _ _

theorem keeps_markerReturn (fn group : Nat) (s : State) : Keeps s (execMarkerReturn fn group s) := by
  unfold execMarkerReturn
  split
  · exact keeps_next (steady_fmcrStep ..)
  · exact keeps_same s

theorem keeps_fibreGroupLocked (fn group : Nat) (s : State) : Keeps s (execFibreGroupLocked fn group s) := by
  unfold execFibreGroupLocked
  split
  · exact keeps_same s
  · exact keeps_next (steady_fmcrStep ..)

theorem keeps_memberLost (fn group : Nat) (s : State) : Keeps s (execMemberLost fn group s) := by
  unfold execMemberLost
  extract_lets v h waits
  split
  · exact keeps_same s
  refine keeps_next ((steady_with s h).trans (steady_foldl (fun s x => ?_) _ _))
  split
  · exact steady_with ..
  · exact .refl s

theorem keeps_uncorrectableError (cls inst : Nat) (s : State) : Keeps s (execUncorrectableError cls inst s) := by
  unfold execUncorrectableError
  split
  · exact keeps_same s
  split
  · exact keeps_next (steady_ite (steady_with ..) (.refl s))
  · split
    · exact keeps_next (steady_faultPartition ..)
    · exact keeps_same s
  · exact keeps_with _ _
  · extract_lets carried
    split
    · exact keeps_same s
    · exact keeps_with _ _

theorem keeps_qtailWrite (fn q : Nat) (v : Word) (s : State) : Keeps s (execQtailWrite fn q v s) := by
  refine keeps_windowWrite ?_
  extract_lets x t h
  split
  · exact keeps_same s
  · exact keeps_with _ _

theorem keeps_qcfgWrite (fn q : Nat) (v : Word) (s : State) : Keeps s (execQcfgWrite fn q v s) := by
  refine keeps_windowWrite ?_
  extract_lets x n c en h
  split
  · exact keeps_same s
  · exact keeps_with _ _

theorem keeps_resync (fn : Nat) (v : Word) (s : State) : Keeps s (execResync fn v s) := by
  refine keeps_windowWrite ?_
  extract_lets a h n h1 h2
  split <;> exact keeps_with _ _

theorem keeps_attest (fn : Nat) (v : Word) (nonce : List Byte) (s : State) : Keeps s (execAttest fn v nonce s) := by
  refine keeps_windowWrite ?_
  extract_lets a h d sig ws
  split <;> exact keeps_with _ _

/-- A write of any register of the window changes the machine alone (20_launch R73). -/
theorem keeps_registerWrite (fn off size : Nat) (v : Word) (s : State) : Keeps s (execRegisterWrite fn off size v s) := by
  have plain (h : Hw) : Keeps s (windowWrite fn s (.next (s.with h))) := keeps_windowWrite (keeps_with _ _)
  unfold execRegisterWrite
  split
  · exact plain _
  split
  · split
    case h_1 | h_2 | h_3 | h_4 => exact plain _
    case h_5 => exact keeps_resync fn v s
    case h_6 => exact Keeps.of_steady (steady_with s (draws s.hw 4).2) (keeps_attest fn v _ _)
    case h_7 => split <;> exact plain _
    case h_8 => split <;> exact plain _
    case h_9 => exact plain _
  split
  · split
    · exact keeps_qcfgWrite fn _ v s
    split
    · exact keeps_qtailWrite fn _ v s
    · exact plain _
  split
  · exact plain _
  split
  · split <;> exact plain _
  · exact plain _

/-! ## Every instruction and event -/

/-- No instruction and no event changes time or memory, but for the reset, the loss of supply and of shape, and the wait of an hset that is over
(13_consistency R248, R249; 12_handles R238). -/
theorem keeps_exec {i : Instr} (s : State) (reset : ∀ b, i ≠ .powerOnReset b) (cut : ∀ a b c, i ≠ .thermalCut a b c)
    (shape : i ≠ .reshapeComplete) (wait : ∀ q, i ≠ .fenceRetire q) : Keeps s (exec i s) := by
  cases i
  case nop | yield | endif | ret | ifOp | elseOp | loop | breakOp | cont | endloop | loopn | bra | brs | call | brx | callx | split | movS |
    mov | movsS | movs | movl | sel | vrel | vzero | sread | swrite | glaunch | gsig | gwait | gcount | wid | addS | subS | andS | orS |
    xorS | shlS | shrS | sarS | add | sub | and | or | xor | shl | shr | sar | adds | subs | absd | min | max | andn | rot | abs | not |
    mul | mulh | mad | div | rem | bfe | bfi | popc | clz | ctz | brev | cmp | lea | fadd | fsub | fmul | fmin | fmax | fabs | fneg |
    fscale | fma | fcmp | fclass | fdot | cvt | frnd | cvtq | cvtdq | frcp | frsq | fsqrt | fdiv | fexp2 | flog2 | fsin | fcos | ftanh |
    vote | ballot | elect | pwidth | matchOp | shfl | shfx | shfup | shfdn | bcast | lred | scan | compact | isect | lds | ldc | stc |
    scopy | sfill | ld | st | gath | scat | pref | hflush | hget | hset | xlat | xlatInv | xlatAll | icinv | fence | sfence | wdone |
    twait | twaitL | tnow | atom | cas | red | redflush | barw | cpy | cpyg | cpys | bclose | bwait | cbrun | cbsig | cbstat | mma | mmas |
    mmab | azero | ascale | arel | aload | astore | aread | awrite | wmarkS | wmark | wquery | wcfgRevert | wcfgForce | wcfgDrop | trapS |
    trap | tret | rsys | wsys | cswapFlip | cswapOut | cswapIn | ckill | cstop | cresume | fsig | fwait | fmcrDrain | fmcrDark |
    fmcrRelock | fmcrRoute | fmcrGroup | fmcrQuery | trc | cnt | cntSnap | cntSaved => exact keeps_issue _ _ _ _ _
  case beginClause h => exact keeps_beginClause h s
  case rejoin | rejoinL => exact keeps_rejoinWith _ s _
  case exit f => exact keeps_exit f s
  case sts | satom | scas => exact keeps_thenWake (keeps_issue _ _ _ _ _)
  case bar f => exact keeps_bar f s
  case nbar | barx => exact keeps_namedForm _ _ s _
  case deviceQueueTake => exact keeps_deviceQueueTake _ s
  case ldcComplete => exact keeps_ldcComplete _ s
  case scopyComplete => exact keeps_scopyComplete _ s
  case loadReply => exact keeps_loadReply _ _ _ s
  case hflushComplete => exact keeps_hflushComplete _ s
  case writeArrival => exact keeps_writeArrival _ _ s
  case writeWReturn => exact keeps_writeWReturn _ s
  case hostRead => exact keeps_hostRead _ _ _ _ _ s
  case atomicReply => exact keeps_atomicReply _ _ s
  case ownershipGrant => exact keeps_ownershipGrant _ _ _ _ s
  case sectorRelease => exact keeps_sectorRelease _ _ s
  case redPartialArrival => exact keeps_redPartialArrival _ s
  case barrierReleaseWave core ctx block bar => exact keeps_barrierReleaseWave core ctx block bar s
  case objectUpdate => exact keeps_objectUpdate _ s
  case copyComplete => exact keeps_copyComplete _ _ s
  case passComplete => exact keeps_passComplete _ s
  case atransferComplete => exact keeps_atransferComplete _ s
  case heldOperationComplete => exact keeps_heldOperationComplete _ s
  case hostLinkDown => exact keeps_hostLinkDown s
  case hostSnoop => exact keeps_hostSnoop _ _ s
  case poolPublication => exact keeps_poolPublication _ _ _ _ s
  case markerReturn => exact keeps_markerReturn _ _ s
  case memberLost => exact keeps_memberLost _ _ s
  case uncorrectableError => exact keeps_uncorrectableError _ _ s
  case fibreGroupLocked => exact keeps_fibreGroupLocked _ _ s
  case fmcrTimeout => exact keeps_fmcrTimeout _ s
  case qtailWrite => exact keeps_qtailWrite _ _ _ s
  case qcfgWrite => exact keeps_qcfgWrite _ _ _ s
  case registerWrite => exact keeps_registerWrite _ _ _ _ s
  case resync => exact keeps_resync _ _ s
  case attest => exact keeps_attest _ _ _ s
  case blockStart => exact keeps_next (steady_startBlock ..)
  case diePark => exact keeps_next (steady_parkDie ..)
  case fabidWrite | pwceilWrite | clpstWrite | parkctlWrite | counterTake | trcfgWrite | dbgholdHold | dbgholdRelease | ptcmdQuiesce |
    ptcmdRelease | ptcmdReshape =>
    exact keeps_windowWrite (keeps_with _ _)
  case windowBoundary | ctxctlWrite | htbaseWrite | ptrootWrite | tlctlWrite | colourFail | traceDrain | quiesceComplete | hostLinkActive =>
    exact keeps_with _ _
  -- Every branch of what follows answers the state itself, or the state with another machine in it.
  case pageWalk | acctagWrite | splbaseWrite | bankDrainDone | unitExchange | phobosBankEmpty | windowAdvanceRequest | tailTimer |
    twaitExpiry | gwaitWake | frameRetry =>
    simp only [exec, execPageWalk, execAcctagWrite, execSplbaseWrite, execBankDrainDone, execUnitExchange, execPhobosBankEmpty,
      execWindowAdvanceRequest, execTailTimer, execTwaitExpiry, execGwaitWake, execFrameRetry]
    repeat' split
    all_goals exact keeps_with _ _
  case launchTake | launchEligible | bindRecord | blockEnd | launchComplete | blockRelaunch | queueSwitchOut | queueSwitchIn | chainBlock |
    chainRetest | passGrant =>
    simp only [exec, execLaunchTake, execLaunchEligible, execBindRecord, execBlockEnd, execLaunchComplete, execBlockRelaunch,
      execQueueSwitchOut, execQueueSwitchIn, execChainBlock, execChainRetest, execPassGrant]
    repeat' split
    all_goals exact keeps_with _ _
  case hostWrite | poolExtentRelease | poolExtentGrant | peerRequest | fabricRequestTimeout | fibreLockLoss | mcrDelivery |
    triggerReceived | backInvalidateResponse =>
    simp only [exec, execHostWrite, execPoolExtentRelease, execPoolExtentGrant, execPeerRequest, execFabricRequestTimeout,
      execFibreLockLoss, execMcrDelivery, execTriggerReceived, execBackInvalidateResponse]
    repeat' split
    all_goals exact keeps_with _ _
  case ceilingInterval | pstateTransitionDone | thermalCap | overCurrent | dieUnpark | correctableError =>
    simp only [exec, execCeilingInterval, execPstateTransitionDone, execThermalCap, execOverCurrent, execDieUnpark, execCorrectableError]
    repeat' split
    all_goals exact keeps_with _ _
  case powerOnReset b => exact absurd rfl (reset b)
  case thermalCut a b c => exact absurd rfl (cut a b c)
  case reshapeComplete => exact absurd rfl shape
  case fenceRetire q => exact absurd rfl (wait q)

/-- Address a of partition p lies outside the word that the path q waits to write with an hset. -/
def OutsideWait (s : State) (q : PathRef) (p a : Nat) : Prop :=
  ∀ e x v w, envAt s q = some e → e.q.wait = .table x v w → p = e.part → a < x ∨ x + 8 ≤ a

/-- State t agrees with s in time, agenda and the bytes of device memory outside the word that the path q waits to write. -/
structure SteadyOutside (q : PathRef) (s t : State) : Prop where
  time : t.time = s.time
  agenda : t.agenda = s.agenda
  bytes : ∀ p a, a < 2 ^ 60 → OutsideWait s q p a → rdByte t.mem p a = rdByte s.mem p a

theorem Steady.outside {s t : State} (h : Steady s t) (q : PathRef) : SteadyOutside q s t := ⟨h.time, h.agenda, fun p a ha _ => h.bytes p a ha⟩

/-- The wait of a path that is over leaves time as it is, and memory but for the word of an hset that retires (12_handles R238). -/
theorem fenceRetire_outside {q : PathRef} {s t : State} (h : exec (.fenceRetire q) s = .next t) : SteadyOutside q s t := by
  simp only [exec, execFenceRetire] at h
  split at h
  case h_2 => exact (Host.Outcome.next.inj h ▸ Steady.refl s : Steady s t).outside q
  case h_1 e he =>
    have ht := Host.Outcome.next.inj h
    split at ht
    case isFalse => exact (ht ▸ steady_wakeAside s e).outside q
    by_cases table : ∃ x v w, e.q.wait = .table x v w
    · obtain ⟨x, v, w, hw⟩ := table
      rw [wakeRunning, hw] at ht
      obtain ⟨time, agenda, bytes⟩ := wakeTable_rules s e x v w
      subst ht
      exact ⟨time, agenda, fun p a _ outside => bytes p a (outside e x v w he hw)⟩
    · exact (ht ▸ steady_wakeRunning fun x v w hw => table ⟨x, v, w, hw⟩ : Steady s t).outside q

/-- A reshape leaves time as it is. -/
theorem reshapeComplete_time {s t : State} (h : exec .reshapeComplete s = .next t) : t.time = s.time ∧ t.agenda = s.agenda := by
  simp only [exec, execReshapeComplete] at h
  split at h <;> cases h <;> exact ⟨rfl, rfl⟩

/-- Settles O55: every instruction and event but four leaves time and memory alone; a reshape leaves time, and the end of a wait all but the
word of an hset. -/
theorem onlyTimeStores : Obligations.OnlyTimeStores := by
  unfold Obligations.OnlyTimeStores
  intro i s t h reset cut
  by_cases shape : i = .reshapeComplete
  · subst shape
    exact ⟨(reshapeComplete_time h).1, (reshapeComplete_time h).2, fun ne => absurd rfl ne⟩
  by_cases wait : ∃ q, i = .fenceRetire q
  · obtain ⟨q, rfl⟩ := wait
    obtain ⟨time, agenda, bytes⟩ := fenceRetire_outside h
    exact ⟨time, agenda, fun _ p a ha outside => bytes p a ha fun e x v w => outside q e x v w rfl⟩
  have kept := keeps_exec s reset cut shape (fun q hq => wait ⟨q, hq⟩) t h
  exact ⟨kept.time, kept.agenda, fun _ p a ha _ => kept.bytes p a ha⟩

end Sys2Proof.Machine
end

section
/-! SUPPORT. The machine goes on: what an operation, a barrier or an engine does changes nothing of the state but its machine; every
instruction, event and turn answers a next state, whose memory has its canonical form if that of the state before had it (13_consistency
R249). -/

namespace Sys2Proof.Machine

open Sys2Proof

/-! ## States that differ in their machine -/

/-- State t is s but for its machine. -/
def HwOnly (s t : State) : Prop := t = s.with t.hw

theorem HwOnly.refl (s : State) : HwOnly s s := rfl
theorem hwOnly_with (s : State) (h : Hw) : HwOnly s (s.with h) := rfl
theorem HwOnly.trans {a b c : State} (h : HwOnly a b) (k : HwOnly b c) : HwOnly a c := by
  unfold HwOnly at *
  rw [k, h]
  rfl
theorem HwOnly.with {s t : State} (h : HwOnly s t) (hw : Hw) : HwOnly s (t.with hw) := h.trans (hwOnly_with t hw)
theorem HwOnly.mem {s t : State} (h : HwOnly s t) : t.mem = s.mem := by rw [h]; rfl
theorem HwOnly.time {s t : State} (h : HwOnly s t) : t.time = s.time := by rw [h]; rfl

theorem hwOnly_ite {s a b : State} {c : Prop} [Decidable c] (ha : HwOnly s a) (hb : HwOnly s b) : HwOnly s (if c then a else b) := by
  split
  · exact ha
  · exact hb

theorem hwOnly_foldl {α : Type} {f : State → α → State} (hf : ∀ s x, HwOnly s (f s x)) (l : List α) (s : State) : HwOnly s (l.foldl f s) := by
  induction l generalizing s with
  | nil => rfl
  | cons x l ih => exact (hf s x).trans (ih _)

/-! ## Operations that end, rejoins and barriers -/

theorem hwOnly_landOp (s : State) (o : Op) (v : Nat → Word) : HwOnly s (landOp s o v) := by
  simp only [landOp]
  repeat' split
  all_goals rfl

theorem hwOnly_failWaiter (s : State) (o : Op) (es : List Elem) : HwOnly s (failWaiter s o es) := by
  simp only [failWaiter]
  repeat' split
  all_goals rfl

theorem hwOnly_acquireAt (s : State) (o : Op) (w : Nat) (v : Nat → Word) : HwOnly s (acquireAt s o w v) :=
  hwOnly_ite (hwOnly_landOp ..) (hwOnly_with ..)

theorem hwOnly_retireAt (s : State) (gk p : Nat) (w : Writes) : HwOnly s (retireAt s gk p w) := by
  unfold retireAt
  split <;> rfl

theorem hwOnly_mergeGroup (s : State) (gk : Nat) (ms : List Member) : HwOnly s (mergeGroup s gk ms) := by
  unfold mergeGroup
  split <;> rfl

theorem hwOnly_rejoinDeadlock (s : State) (gk : Nat) (g : Gang) : HwOnly s (rejoinDeadlock s gk g) := by
  simp only [rejoinDeadlock]
  split <;> rfl

theorem hwOnly_settleRejoin (gk n : Nat) (s : State) : HwOnly s (settleRejoin gk n s) := by
  induction n generalizing s with
  | zero => rfl
  | succ n ih =>
    unfold settleRejoin
    split
    · rfl
    split
    · exact (hwOnly_mergeGroup ..).trans (ih _)
    · exact hwOnly_ite (hwOnly_rejoinDeadlock ..) (.refl s)

theorem hwOnly_releaseGang (s : State) (gk : Nat) (w : Wait) : HwOnly s (releaseGang s gk w) := by
  unfold releaseGang
  split
  · rfl
  refine hwOnly_foldl (fun s x => ?_) _ s
  split
  · exact hwOnly_ite (hwOnly_with ..) (.refl s)
  · exact hwOnly_ite (hwOnly_retireAt ..) (.refl s)

theorem hwOnly_releaseWaves (s : State) (b core : Nat) (w : Wait) : HwOnly s (releaseWaves s b core w) :=
  hwOnly_foldl (fun s _ => hwOnly_ite (hwOnly_releaseGang s ..) (hwOnly_with ..)) _ s

theorem hwOnly_openBlock (s : State) (bk : Nat) : HwOnly s (openBlock s bk) := by
  unfold openBlock
  split
  · rfl
  · exact hwOnly_ite (.refl s) ((hwOnly_with ..).trans (hwOnly_releaseWaves ..))

theorem hwOnly_openNamed (s : State) (bk n : Nat) : HwOnly s (openNamed s bk n) := by
  simp only [openNamed]
  split
  · rfl
  · exact hwOnly_ite (.refl s) ((hwOnly_with ..).trans (hwOnly_releaseWaves ..))

theorem hwOnly_reopen (s : State) (bk : Nat) : HwOnly s (reopen s bk) :=
  (hwOnly_openBlock s bk).trans (hwOnly_foldl (fun s n => hwOnly_openNamed s bk n) _ _)

theorem hwOnly_wakeBarw (s : State) (bk : Nat) : HwOnly s (wakeBarw s bk) := by
  refine hwOnly_foldl (fun s x => hwOnly_foldl (fun s q => ?_) _ s) _ s
  split
  · exact hwOnly_ite (hwOnly_retireAt ..) (.refl s)
  · rfl

theorem hwOnly_endLanes (s : State) (gk p : Nat) (m : Lanes) : HwOnly s (endLanes s gk p m) := by
  unfold endLanes
  split
  · rfl
  extract_lets h1 empty h2 s3 s4
  have left : HwOnly s s4 :=
    ((hwOnly_with s h2).trans ((hwOnly_with ..).trans (hwOnly_reopen ..))).trans (hwOnly_settleRejoin gk 40 s3)
  split
  · exact hwOnly_ite (left.with _) left
  · exact left

/-! ## Engines, links and partitions -/

theorem hwOnly_wakeBwait (s : State) (gk : Nat) : HwOnly s (wakeBwait s gk) := by
  unfold wakeBwait
  split
  · rfl
  refine hwOnly_foldl (fun s p => ?_) _ s
  split
  · split
    · exact hwOnly_ite (hwOnly_with ..) (.refl s)
    · rfl
  · rfl

theorem hwOnly_finishCopyOp (s : State) (o : Op) (c : Copy) : HwOnly s (finishCopyOp s o c) :=
  ((hwOnly_landOp ..).with _).trans (hwOnly_wakeBwait ..)

theorem hwOnly_landTile (s : State) (o : Op) (ts : List Nat) (k : TileOp) : HwOnly s (landTile s o ts k) := by
  simp only [landTile]
  split
  · split
    · cases k <;> rfl
    · rfl
  · rfl

theorem hwOnly_runTiles (core n : Nat) (s : State) : HwOnly s (runTiles core n s) := by
  induction n generalizing s with
  | zero => rfl
  | succ n ih =>
    unfold runTiles
    split
    · split
      · exact (hwOnly_landTile ..).trans (ih _)
      · rfl
    · rfl

theorem hwOnly_startBlock (core bank idx : Nat) (s : State) : HwOnly s (startBlock core bank idx s) := by
  unfold startBlock
  repeat' split
  all_goals rfl

theorem hwOnly_fmcrStep (s : State) (p op g st : Nat) : HwOnly s (fmcrStep s p op g st) := by
  refine hwOnly_foldl (fun s o => ?_) _ s
  split
  · split
    · dsimp only
      exact hwOnly_ite ((hwOnly_with ..).trans (hwOnly_landOp ..)) (hwOnly_with ..)
    · rfl
  · rfl

theorem hwOnly_parkDie (die : Nat) (s : State) : HwOnly s (parkDie die s) := hwOnly_ite (.refl s) (hwOnly_with ..)

theorem hwOnly_faultPartition (s : State) (p : Nat) : HwOnly s (faultPartition s p) :=
  (hwOnly_foldl (fun s _ => (hwOnly_with s _).with _) _ s).with _

/-! ## Waits that are over -/

theorem hwOnly_wakeAcquire (s : State) (e : Env) (id t : Nat) : HwOnly s (wakeAcquire s e id t) := by
  unfold wakeAcquire
  split
  · rfl
  split
  · exact (hwOnly_with ..).trans (hwOnly_landOp ..)
  · rfl

theorem hwOnly_wakeDrain (s : State) (e : Env) (ids : List Nat) (c : Nat) (va : Option Nat) (ps : List (Nat × Nat)) (d : Nat) :
    HwOnly s (wakeDrain s e ids c va ps d) := by
  simp only [wakeDrain]
  repeat' split
  all_goals rfl

theorem hwOnly_wakeAside (s : State) (e : Env) : HwOnly s (wakeAside s e) := by
  unfold wakeAside
  split
  · exact hwOnly_wakeAcquire ..
  · exact hwOnly_ite (.refl s) (hwOnly_with ..)
  · exact hwOnly_wakeDrain ..
  · rfl

/-- Of the waits of a path that runs, only that of an hset changes more than the machine (12_handles R238). -/
theorem hwOnly_wakeRunning {s : State} {e : Env} (other : ∀ a v t, e.q.wait ≠ .table a v t) : HwOnly s (wakeRunning s e) := by
  unfold wakeRunning
  split
  case h_14 a v t h => exact absurd h (other a v t)
  case h_1 | h_2 | h_3 | h_4 | h_5 | h_6 | h_15 => exact hwOnly_ite (hwOnly_with ..) (.refl s)
  case h_7 | h_8 | h_9 | h_10 => rfl
  case h_11 => exact hwOnly_wakeAcquire ..
  case h_12 => exact hwOnly_ite (.refl s) (hwOnly_with ..)
  case h_13 => exact hwOnly_wakeDrain ..
  case h_16 => rfl

/-! ## Time -/

theorem hwOnly_wakeContext (s : State) (core c : Nat) : HwOnly s (wakeContext s core c) :=
  (hwOnly_with ..).trans (hwOnly_foldl (fun s gk => hwOnly_settleRejoin gk 40 s) _ _)

theorem hwOnly_doFlip (s : State) (core : Nat) : HwOnly s (doFlip s core) := by
  simp only [doFlip]
  split
  · exact (hwOnly_with ..).trans (hwOnly_wakeContext ..)
  · rfl

theorem hwOnly_endMove (s : State) (core : Nat) : HwOnly s (endMove s core) := by
  simp only [endMove]
  repeat' split
  all_goals rfl

theorem hwOnly_tick (s : State) : HwOnly s (tick s) :=
  (((hwOnly_foldl (fun s (k : Nat × Core) => hwOnly_doFlip s k.1) _ s).trans
    (hwOnly_foldl (fun s (k : Nat × Core) => hwOnly_endMove s k.1) _ _)).trans
    (hwOnly_foldl (fun s (x : Nat × Nat) => hwOnly_with s (endKill s x.1 x.2)) _ _)).with _

/-! ## Outcomes that go on -/

/-- State t has its memory in canonical form if s has. -/
structure Kept (s t : State) : Prop where
  inv : s.Inv → t.Inv

theorem HwOnly.kept {s t : State} (h : HwOnly s t) : Kept s t := ⟨fun inv => by rwa [State.Inv, h.mem]⟩
theorem Kept.trans {a b c : State} (h : Kept a b) (k : Kept b c) : Kept a c := ⟨k.inv ∘ h.inv⟩
theorem kept_foldl {α : Type} {f : State → α → State} (hf : ∀ s x, Kept s (f s x)) (l : List α) (s : State) : Kept s (l.foldl f s) := by
  induction l generalizing s with
  | nil => exact ⟨id⟩
  | cons x l ih => exact (hf s x).trans (ih _)

/-- Outcome o is a next state, and has its memory in canonical form if s has. -/
def GoesOn (s : State) (o : Out) : Prop := ∃ t, o = .next t ∧ Kept s t

theorem goesOn_next {s t : State} (h : Kept s t) : GoesOn s (.next t) := ⟨t, rfl, h⟩
theorem HwOnly.goesOn {s t : State} (h : HwOnly s t) : GoesOn s (.next t) := goesOn_next h.kept
theorem goesOn_with (s : State) (h : Hw) : GoesOn s (.next (s.with h)) := (hwOnly_with s h).goesOn
theorem goesOn_same (s : State) : GoesOn s (.next s) := goesOn_with s s.hw
theorem GoesOn.of_kept {s t : State} {o : Out} (h : Kept s t) : GoesOn t o → GoesOn s o
  | ⟨u, ho, k⟩ => ⟨u, ho, h.trans k⟩
theorem goesOn_ite {s : State} {a b : Out} {c : Prop} [Decidable c] (ha : GoesOn s a) (hb : GoesOn s b) :
    GoesOn s (if c then a else b) := by
  split
  · exact ha
  · exact hb

/-- What follows an outcome goes on where its next step does. -/
theorem goesOn_then {s : State} {o : Out} {g : State → Out} (hg : ∀ t, GoesOn t (g t)) :
    GoesOn s o → GoesOn s (match o with | .next t => g t | o => o)
  | ⟨t, ho, k⟩ => by subst ho; exact (hg t).of_kept k

/-! ## Instructions -/

theorem goesOn_issue (s : State) (r : Regs) (ends sup : Bool) (body : Env → Res) : GoesOn s (issue s r ends sup body) := by
  unfold issue
  repeat' split
  all_goals exact goesOn_with _ _

theorem goesOn_thenWake {s : State} {o : Out} : GoesOn s o → GoesOn s (thenWake s o)
  | ⟨t, ho, k⟩ => by
    subst ho
    unfold thenWake
    split
    · next t' e h _ =>
      cases h
      exact goesOn_next (k.trans (hwOnly_wakeBarw ..).kept)
    · exact goesOn_next k

/-- A form whose second step opens a barrier of the block. -/
theorem goesOn_opening {s : State} {o : Out} {f : State → Env → State} (hf : ∀ t e, HwOnly t (f t e)) :
    GoesOn s o → GoesOn s (match o with | .next t => (match env s with | some e => .next (f t e) | none => .next t) | o => o) := by
  refine goesOn_then fun t => ?_
  cases env s with
  | some e => exact (hf t e).goesOn
  | none => exact goesOn_same t

theorem goesOn_beginClause (h : Header) (s : State) : GoesOn s (execBeginClause h s) := by
  simp only [execBeginClause]
  repeat' split
  all_goals exact goesOn_with _ _

theorem goesOn_rejoinWith (f : Fields) (s : State) (m : Env → Regs → Lanes) : GoesOn s (rejoinWith f s m) := by
  refine goesOn_then (fun t => ?_) (goesOn_issue _ _ _ _ _)
  cases env t with
  | some e => exact (hwOnly_settleRejoin ..).goesOn
  | none => exact goesOn_same t

theorem goesOn_exit (f : SFields) (s : State) : GoesOn s (execExit f s) := by
  have moved := goesOn_issue s (regsS Forms.exit f) true false fun e => .moved {} (e.goto (e.clauseEnd 4) id e.hw)
  unfold execExit
  split
  · exact goesOn_same s
  split
  · exact moved
  refine goesOn_then (fun t => ?_) moved
  exact goesOn_ite (goesOn_same t) (hwOnly_endLanes ..).goesOn

theorem goesOn_bar (f : Fields) (s : State) : GoesOn s (execBar f s) :=
  goesOn_opening (fun t e => hwOnly_openBlock t e.g.block) (goesOn_issue _ _ _ _ _)

theorem goesOn_namedForm (fm : Form) (f : Fields) (s : State) (body : Env → Regs → Res) : GoesOn s (namedForm fm f s body) :=
  goesOn_opening (fun t e => hwOnly_openNamed t e.g.block ((e.sa (regsF fm f)).toNat % 16)) (goesOn_issue _ _ _ _ _)

/-! ## Operations in flight -/

section
variable {s t : State} (h : HwOnly s t)
include h

theorem HwOnly.land (o : Op) (v : Nat → Word) : HwOnly s (landOp t o v) := h.trans (hwOnly_landOp ..)
theorem HwOnly.fail (o : Op) (es : List Elem) : HwOnly s (failWaiter t o es) := h.trans (hwOnly_failWaiter ..)
theorem HwOnly.acquire (o : Op) (w : Nat) (v : Nat → Word) : HwOnly s (acquireAt t o w v) := h.trans (hwOnly_acquireAt ..)
theorem HwOnly.reopen (bk : Nat) : HwOnly s (reopen t bk) := h.trans (hwOnly_reopen ..)
theorem HwOnly.barw (bk : Nat) : HwOnly s (wakeBarw t bk) := h.trans (hwOnly_wakeBarw ..)
theorem HwOnly.tiles (core n : Nat) : HwOnly s (runTiles core n t) := h.trans (hwOnly_runTiles ..)

end

theorem goesOn_deviceQueueTake (id : Nat) (s : State) : GoesOn s (execDeviceQueueTake id s) := by
  unfold execDeviceQueueTake
  split
  case h_2 => exact goesOn_same s
  split
  case h_2 => exact goesOn_same s
  split
  · exact goesOn_same s
  split
  · exact (hwOnly_landOp ..).goesOn
  extract_lets r h
  exact goesOn_ite ((hwOnly_with ..).land ..).goesOn ((hwOnly_with ..).land ..).goesOn

theorem goesOn_ldcComplete (id : Nat) (s : State) : GoesOn s (execLdcComplete id s) := by
  unfold execLdcComplete
  split
  · exact goesOn_same s
  split
  case h_2 => exact goesOn_same s
  split
  · exact goesOn_same s
  extract_lets b early
  split
  · exact goesOn_same s
  split
  case h_1 =>
    extract_lets mine h b' got' rest
    split
    · exact goesOn_same s
    · exact goesOn_ite (((hwOnly_with ..).land ..).reopen _).goesOn (goesOn_with _ _)
  case h_2 =>
    extract_lets mine h rest
    split
    · exact goesOn_same s
    · exact goesOn_ite ((((hwOnly_with ..).land ..).barw _).reopen _).goesOn ((hwOnly_with ..).barw _).goesOn
  case h_3 => exact goesOn_same s

theorem goesOn_scopyComplete (id : Nat) (s : State) : GoesOn s (execScopyComplete id s) := by
  unfold execScopyComplete
  split
  case h_2 => exact goesOn_same s
  split
  case h_2 => exact goesOn_same s
  extract_lets b from' h
  split
  · exact goesOn_same s
  split
  case h_2 => exact goesOn_same s
  split
  · exact ((((hwOnly_with ..).land ..).barw _).reopen _).goesOn
  · exact goesOn_same s

theorem goesOn_loadReply (id : Nat) (sel : Lanes) (data : List Word) (s : State) : GoesOn s (execLoadReply id sel data s) := by
  unfold execLoadReply
  split
  case h_2 => exact goesOn_same s
  split
  case h_2 => exact goesOn_same s
  extract_lets r o' s'
  have read : HwOnly s s' := hwOnly_with ..
  exact goesOn_ite read.goesOn (goesOn_ite (read.fail ..).goesOn (read.land ..).goesOn)

theorem kept_releaseSector (s : State) (p sec : Nat) (b : Bool) : Kept s (releaseSector s p sec b) := ⟨releaseSector_wf s p sec b⟩

theorem goesOn_hflushComplete (id : Nat) (s : State) : GoesOn s (execHflushComplete id s) := by
  unfold execHflushComplete
  split
  case h_2 => exact goesOn_same s
  split
  case h_2 => exact goesOn_same s
  extract_lets secs waits
  split
  · exact goesOn_same s
  · exact goesOn_next ((kept_foldl (fun s k => kept_releaseSector ..) _ _).trans (hwOnly_landOp ..).kept)

theorem goesOn_writeArrival (id : Nat) (sel : Lanes) (s : State) : GoesOn s (execWriteArrival id sel s) := by
  unfold execWriteArrival
  split
  · exact goesOn_ite (goesOn_with _ _) (goesOn_same s)
  · exact goesOn_same s

theorem goesOn_writeWReturn (id : Nat) (s : State) : GoesOn s (execWriteWReturn id s) := by
  unfold execWriteWReturn
  split
  case h_2 => exact goesOn_same s
  extract_lets es dev back es' h o' s'
  have returned : HwOnly s s' := hwOnly_with ..
  split
  case h_1 | h_2 => exact (hwOnly_ite (returned.land ..) returned).goesOn
  case h_3 => exact (hwOnly_ite (returned.land ..) (.refl s)).goesOn
  case h_4 => exact goesOn_ite (goesOn_same s) (goesOn_ite (returned.land ..).goesOn (returned.acquire ..).goesOn)
  case h_5 => exact goesOn_same s

theorem goesOn_atomicReply (id : Nat) (data : List Word) (s : State) : GoesOn s (execAtomicReply id data s) := by
  unfold execAtomicReply
  split
  case h_2 => exact goesOn_same s
  split
  case h_2 => exact goesOn_same s
  extract_lets r0 lanesOut r o' s' s2 waits w
  have replied : HwOnly s s' := hwOnly_with ..
  have returned : HwOnly s s2 := replied.with _
  refine goesOn_ite replied.goesOn (goesOn_ite (returned.fail ..).goesOn (HwOnly.goesOn ?_))
  exact hwOnly_ite (returned.acquire ..) (hwOnly_ite returned (hwOnly_ite ((returned.with _).land ..) (returned.land ..)))

theorem goesOn_redPartialArrival (id : Nat) (s : State) : GoesOn s (execRedPartialArrival id s) := by
  unfold execRedPartialArrival
  split
  case h_2 => exact goesOn_same s
  split
  case h_2 => exact goesOn_same s
  extract_lets n before line arm
  split
  · exact goesOn_same s
  split
  · exact goesOn_with _ _
  split
  · exact goesOn_with _ _
  · extract_lets mine full
    split <;> exact goesOn_with _ _

theorem goesOn_objectUpdate (id : Nat) (s : State) : GoesOn s (execObjectUpdate id s) := by
  unfold execObjectUpdate
  split
  case h_2 => exact goesOn_same s
  split
  case h_2 => exact goesOn_same s
  extract_lets held
  split
  · exact goesOn_same s
  · exact (((hwOnly_with ..).land ..).barw _).goesOn

theorem goesOn_copyComplete (id : Nat) (data : List Byte) (s : State) : GoesOn s (execCopyComplete id data s) := by
  unfold execCopyComplete
  split
  case h_2 => exact goesOn_same s
  split
  case h_2 => exact goesOn_same s
  extract_lets due c1 d i k mine rest ys touched r src x y h s1
  have moved : HwOnly s s1 := (hwOnly_with ..).barw _
  split
  · exact goesOn_ite (moved.trans (hwOnly_finishCopyOp ..)).goesOn moved.goesOn
  · exact moved.goesOn

theorem goesOn_passComplete (id : Nat) (s : State) : GoesOn s (execPassComplete id s) := by
  unfold execPassComplete
  split
  case h_2 => exact goesOn_same s
  split
  case h_2 => exact goesOn_same s
  extract_lets h1 h2 h3 s1
  have stored : HwOnly s s1 := (hwOnly_with ..).tiles ..
  split
  · split
    · exact (stored.land ..).goesOn
    · exact stored.goesOn
  · exact stored.goesOn

theorem goesOn_atransferComplete (id : Nat) (s : State) : GoesOn s (execAtransferComplete id s) := by
  unfold execAtransferComplete
  split
  case h_2 => exact goesOn_same s
  split
  case h_2 => exact goesOn_same s
  split
  · exact goesOn_same s
  extract_lets h0 x1 b d i n mv src x2 full apply h1 pay x3 h2 s1
  have moved : HwOnly s s1 := ((hwOnly_with ..).tiles ..).barw _
  split
  · exact goesOn_same s
  split
  · split
    · exact (moved.land ..).goesOn
    · exact moved.goesOn
  · exact moved.goesOn

theorem goesOn_poolPublication (fn ext : Nat) (op : Option Nat) (v : Word) (s : State) : GoesOn s (execPoolPublication fn ext op v s) := by
  unfold execPoolPublication
  extract_lets k x
  split
  · exact goesOn_same s
  split
  · exact goesOn_with _ _
  split
  · exact goesOn_same s
  extract_lets mine
  split
  · exact goesOn_same s
  split
  · exact goesOn_same s
  · exact (hwOnly_ite ((hwOnly_with ..).land ..) (hwOnly_with ..)).goesOn

theorem goesOn_fmcrTimeout (op : Nat) (s : State) : GoesOn s (execFmcrTimeout op s) := by
  unfold execFmcrTimeout
  split
  · split
    · exact goesOn_ite ((hwOnly_with ..).land ..).goesOn (goesOn_same s)
    · exact goesOn_same s
  · exact goesOn_same s

/-- A held operation goes on as its kind does (18_contexts R351). -/
theorem goesOn_heldOperationComplete (id : Nat) (s : State) : GoesOn s (execHeldOperationComplete id s) := by
  unfold execHeldOperationComplete
  extract_lets s1
  refine GoesOn.of_kept (t := s1) (hwOnly_with ..).kept ?_
  split
  case h_2 => exact goesOn_same s1
  split
  · exact goesOn_same s1
  split
  · exact goesOn_copyComplete id [] s1
  · exact goesOn_redPartialArrival id s1
  · exact goesOn_atomicReply id [] s1
  · exact goesOn_loadReply id (BitVec.allOnes 32) [] s1
  · exact goesOn_then (g := execWriteWReturn id) (goesOn_writeWReturn id) (goesOn_writeArrival id (BitVec.allOnes 32) s1)

/-! ## Barriers, the host, links and power -/

theorem goesOn_barrierReleaseWave (core ctx block bar : Nat) (s : State) : GoesOn s (execBarrierReleaseWave core ctx block bar s) := by
  refine (hwOnly_foldl (fun s x => ?_) _ s).goesOn
  exact hwOnly_ite (hwOnly_foldl (fun s t => hwOnly_ite (hwOnly_releaseGang ..) (.refl s)) _ s) (.refl s)

theorem goesOn_ownershipGrant (fn sec : Nat) (excl : Bool) (data : List Byte) (s : State) :
    GoesOn s (execOwnershipGrant fn sec excl data s) :=
  goesOn_ite (goesOn_next ⟨fun inv => memWf_store inv ..⟩) (goesOn_same s)

theorem goesOn_sectorRelease (fn sec : Nat) (s : State) : GoesOn s (execSectorRelease fn sec s) := by
  simp only [execSectorRelease]
  split
  · exact goesOn_ite (goesOn_next (kept_releaseSector ..)) (goesOn_same s)
  · exact goesOn_same s

theorem goesOn_hostSnoop (fn sec : Nat) (s : State) : GoesOn s (execHostSnoop fn sec s) :=
  goesOn_ite (goesOn_same s) (goesOn_next ((kept_releaseSector ..).trans (hwOnly_with ..).kept))

theorem kept_dropSectors (s : State) (p : Nat) : Kept s (dropSectors s p) :=
  ((hwOnly_with ..).kept.trans (kept_foldl (fun s k => kept_releaseSector s p k false) _ _)).trans (hwOnly_with ..).kept

theorem kept_loseHost (s : State) (p : Nat) : Kept s (loseHost s p) := ((hwOnly_with ..).with _).kept.trans (kept_dropSectors ..)

theorem goesOn_hostLinkDown (s : State) : GoesOn s (execHostLinkDown s) := goesOn_next (kept_foldl (fun s p => kept_loseHost s p) _ s)

theorem goesOn_hostRead (fn addr len : Nat) (cxl win : Bool) (s : State) : GoesOn s (execHostRead fn addr len cxl win s) := by
  unfold execHostRead
  split
  · unfold readMemory
    split
    · exact goesOn_with _ _
    · exact goesOn_same s
  · exact goesOn_ite (goesOn_same s) (goesOn_with _ _)

theorem goesOn_markerReturn (fn group : Nat) (s : State) : GoesOn s (execMarkerReturn fn group s) :=
  goesOn_ite (hwOnly_fmcrStep ..).goesOn (goesOn_same s)

theorem goesOn_fibreGroupLocked (fn group : Nat) (s : State) : GoesOn s (execFibreGroupLocked fn group s) :=
  goesOn_ite (goesOn_same s) (hwOnly_fmcrStep ..).goesOn

theorem goesOn_memberLost (fn group : Nat) (s : State) : GoesOn s (execMemberLost fn group s) := by
  unfold execMemberLost
  extract_lets v h waits
  split
  · exact goesOn_same s
  refine ((hwOnly_with s h).trans (hwOnly_foldl (fun s x => ?_) _ _)).goesOn
  split <;> rfl

theorem goesOn_uncorrectableError (cls inst : Nat) (s : State) : GoesOn s (execUncorrectableError cls inst s) := by
  unfold execUncorrectableError
  split
  · exact goesOn_same s
  split
  · exact (hwOnly_ite (hwOnly_with ..) (.refl s)).goesOn
  · split
    · exact (hwOnly_faultPartition ..).goesOn
    · exact goesOn_same s
  · exact goesOn_with _ _
  · extract_lets carried
    split
    · exact goesOn_same s
    · exact goesOn_with _ _

/-! ## Writes to the window -/

theorem goesOn_windowWrite {fn : Nat} {s : State} {body : Out} (h : GoesOn s body) : GoesOn s (windowWrite fn s body) :=
  goesOn_ite (goesOn_same s) (goesOn_ite (goesOn_with _ _) h)

theorem goesOn_qtailWrite (fn q : Nat) (v : Word) (s : State) : GoesOn s (execQtailWrite fn q v s) :=
  goesOn_windowWrite (goesOn_ite (goesOn_same s) (goesOn_with _ _))

theorem goesOn_qcfgWrite (fn q : Nat) (v : Word) (s : State) : GoesOn s (execQcfgWrite fn q v s) :=
  goesOn_windowWrite (goesOn_ite (goesOn_same s) (goesOn_with _ _))

theorem goesOn_resync (fn : Nat) (v : Word) (s : State) : GoesOn s (execResync fn v s) :=
  goesOn_windowWrite (goesOn_ite (goesOn_with _ _) (goesOn_with _ _))

theorem goesOn_attest (fn : Nat) (v : Word) (nonce : List Byte) (s : State) : GoesOn s (execAttest fn v nonce s) :=
  goesOn_windowWrite (goesOn_ite (goesOn_with _ _) (goesOn_with _ _))

theorem goesOn_registerWrite (fn off size : Nat) (v : Word) (s : State) : GoesOn s (execRegisterWrite fn off size v s) := by
  have plain (h : Hw) : GoesOn s (windowWrite fn s (.next (s.with h))) := goesOn_windowWrite (goesOn_with _ _)
  unfold execRegisterWrite
  split
  · exact plain _
  split
  · split
    case h_1 | h_2 | h_3 | h_4 => exact plain _
    case h_5 => exact goesOn_resync fn v s
    case h_6 => exact GoesOn.of_kept (hwOnly_with s (draws s.hw 4).2).kept (goesOn_attest fn v _ _)
    case h_7 | h_8 => split <;> exact plain _
    case h_9 => exact plain _
  split
  · exact goesOn_ite (goesOn_qcfgWrite fn _ v s) (goesOn_ite (goesOn_qtailWrite fn _ v s) (plain _))
  split
  · exact plain _
  split
  · exact goesOn_ite (plain _) (plain _)
  · exact plain _

/-! ## Changes of memory -/

theorem kept_wakeTable (s : State) (e : Env) (a : Nat) (v : Word) (w : Nat) : Kept s (wakeTable s e a v w) := by
  simp only [wakeTable]
  split
  · exact ⟨id⟩
  · exact ⟨fun inv => landWrite_wf e.part (s.mem, s.hw) _ inv⟩

theorem goesOn_fenceRetire (q : PathRef) (s : State) : GoesOn s (execFenceRetire q s) := by
  unfold execFenceRetire
  split
  case h_2 => exact goesOn_same s
  case h_1 e he =>
    split
    case isFalse => exact (hwOnly_wakeAside s e).goesOn
    by_cases table : ∃ x v w, e.q.wait = .table x v w
    · obtain ⟨x, v, w, hw⟩ := table
      rw [wakeRunning, hw]
      exact goesOn_next (kept_wakeTable s e x v w)
    · exact (hwOnly_wakeRunning fun x v w hw => table ⟨x, v, w, hw⟩).goesOn

theorem goesOn_reshapeComplete (s : State) : GoesOn s (execReshapeComplete s) := by
  unfold execReshapeComplete
  split
  · exact goesOn_same s
  · exact goesOn_next ⟨fun inv => memWf_filter inv _⟩

/-! ## Every instruction and event -/

/-- Every instruction and event answers a next state, and keeps the canonical form of memory. -/
theorem goesOn_exec (i : Instr) (s : State) : GoesOn s (exec i s) := by
  cases i
  case nop | yield | endif | ret | ifOp | elseOp | loop | breakOp | cont | endloop | loopn | bra | brs | call | brx | callx | split | movS |
    mov | movsS | movs | movl | sel | vrel | vzero | sread | swrite | glaunch | gsig | gwait | gcount | wid | addS | subS | andS | orS |
    xorS | shlS | shrS | sarS | add | sub | and | or | xor | shl | shr | sar | adds | subs | absd | min | max | andn | rot | abs | not |
    mul | mulh | mad | div | rem | bfe | bfi | popc | clz | ctz | brev | cmp | lea | fadd | fsub | fmul | fmin | fmax | fabs | fneg |
    fscale | fma | fcmp | fclass | fdot | cvt | frnd | cvtq | cvtdq | frcp | frsq | fsqrt | fdiv | fexp2 | flog2 | fsin | fcos | ftanh |
    vote | ballot | elect | pwidth | matchOp | shfl | shfx | shfup | shfdn | bcast | lred | scan | compact | isect | lds | ldc | stc |
    scopy | sfill | ld | st | gath | scat | pref | hflush | hget | hset | xlat | xlatInv | xlatAll | icinv | fence | sfence | wdone |
    twait | twaitL | tnow | atom | cas | red | redflush | barw | cpy | cpyg | cpys | bclose | bwait | cbrun | cbsig | cbstat | mma | mmas |
    mmab | azero | ascale | arel | aload | astore | aread | awrite | wmarkS | wmark | wquery | wcfgRevert | wcfgForce | wcfgDrop | trapS |
    trap | tret | rsys | wsys | cswapFlip | cswapOut | cswapIn | ckill | cstop | cresume | fsig | fwait | fmcrDrain | fmcrDark |
    fmcrRelock | fmcrRoute | fmcrGroup | fmcrQuery | trc | cnt | cntSnap | cntSaved => exact goesOn_issue _ _ _ _ _
  case beginClause h => exact goesOn_beginClause h s
  case rejoin | rejoinL => exact goesOn_rejoinWith _ s _
  case exit f => exact goesOn_exit f s
  case sts | satom | scas => exact goesOn_thenWake (goesOn_issue _ _ _ _ _)
  case bar f => exact goesOn_bar f s
  case nbar | barx => exact goesOn_namedForm _ _ s _
  case deviceQueueTake => exact goesOn_deviceQueueTake _ s
  case ldcComplete => exact goesOn_ldcComplete _ s
  case scopyComplete => exact goesOn_scopyComplete _ s
  case loadReply => exact goesOn_loadReply _ _ _ s
  case hflushComplete => exact goesOn_hflushComplete _ s
  case writeArrival => exact goesOn_writeArrival _ _ s
  case writeWReturn => exact goesOn_writeWReturn _ s
  case hostRead => exact goesOn_hostRead _ _ _ _ _ s
  case atomicReply => exact goesOn_atomicReply _ _ s
  case ownershipGrant => exact goesOn_ownershipGrant _ _ _ _ s
  case sectorRelease => exact goesOn_sectorRelease _ _ s
  case redPartialArrival => exact goesOn_redPartialArrival _ s
  case barrierReleaseWave core ctx block bar => exact goesOn_barrierReleaseWave core ctx block bar s
  case objectUpdate => exact goesOn_objectUpdate _ s
  case copyComplete => exact goesOn_copyComplete _ _ s
  case passComplete => exact goesOn_passComplete _ s
  case atransferComplete => exact goesOn_atransferComplete _ s
  case heldOperationComplete => exact goesOn_heldOperationComplete _ s
  case hostLinkDown => exact goesOn_hostLinkDown s
  case hostSnoop => exact goesOn_hostSnoop _ _ s
  case poolPublication => exact goesOn_poolPublication _ _ _ _ s
  case markerReturn => exact goesOn_markerReturn _ _ s
  case memberLost => exact goesOn_memberLost _ _ s
  case uncorrectableError => exact goesOn_uncorrectableError _ _ s
  case fibreGroupLocked => exact goesOn_fibreGroupLocked _ _ s
  case fmcrTimeout => exact goesOn_fmcrTimeout _ s
  case qtailWrite => exact goesOn_qtailWrite _ _ _ s
  case qcfgWrite => exact goesOn_qcfgWrite _ _ _ s
  case registerWrite => exact goesOn_registerWrite _ _ _ _ s
  case resync => exact goesOn_resync _ _ s
  case attest => exact goesOn_attest _ _ _ s
  case blockStart => exact (hwOnly_startBlock ..).goesOn
  case diePark => exact (hwOnly_parkDie ..).goesOn
  case fenceRetire q => exact goesOn_fenceRetire q s
  case reshapeComplete => exact goesOn_reshapeComplete s
  case powerOnReset | thermalCut => exact goesOn_ite (goesOn_same s) (goesOn_next ⟨fun _ => memWf_nil⟩)
  case fabidWrite | pwceilWrite | clpstWrite | parkctlWrite | counterTake | trcfgWrite | dbgholdHold | dbgholdRelease | ptcmdQuiesce |
    ptcmdRelease | ptcmdReshape =>
    exact goesOn_windowWrite (goesOn_with _ _)
  case windowBoundary | ctxctlWrite | htbaseWrite | ptrootWrite | tlctlWrite | colourFail | traceDrain | quiesceComplete | hostLinkActive =>
    exact goesOn_with _ _
  -- Every branch of what follows answers the state itself, or the state with another machine in it.
  case pageWalk | acctagWrite | splbaseWrite | bankDrainDone | unitExchange | phobosBankEmpty | windowAdvanceRequest | tailTimer |
    twaitExpiry | gwaitWake | frameRetry =>
    simp only [exec, execPageWalk, execAcctagWrite, execSplbaseWrite, execBankDrainDone, execUnitExchange, execPhobosBankEmpty,
      execWindowAdvanceRequest, execTailTimer, execTwaitExpiry, execGwaitWake, execFrameRetry]
    repeat' split
    all_goals exact goesOn_with _ _
  case launchTake | launchEligible | bindRecord | blockEnd | launchComplete | blockRelaunch | queueSwitchOut | queueSwitchIn | chainBlock |
    chainRetest | passGrant =>
    simp only [exec, execLaunchTake, execLaunchEligible, execBindRecord, execBlockEnd, execLaunchComplete, execBlockRelaunch,
      execQueueSwitchOut, execQueueSwitchIn, execChainBlock, execChainRetest, execPassGrant]
    repeat' split
    all_goals exact goesOn_with _ _
  case hostWrite | poolExtentRelease | poolExtentGrant | peerRequest | fabricRequestTimeout | fibreLockLoss | mcrDelivery |
    triggerReceived | backInvalidateResponse =>
    simp only [exec, execHostWrite, execPoolExtentRelease, execPoolExtentGrant, execPeerRequest, execFabricRequestTimeout,
      execFibreLockLoss, execMcrDelivery, execTriggerReceived, execBackInvalidateResponse]
    repeat' split
    all_goals exact goesOn_with _ _
  case ceilingInterval | pstateTransitionDone | thermalCap | overCurrent | dieUnpark | correctableError =>
    simp only [exec, execCeilingInterval, execPstateTransitionDone, execThermalCap, execOverCurrent, execDieUnpark, execCorrectableError]
    repeat' split
    all_goals exact goesOn_with _ _

/-! ## Turns -/

/-- The state that an outcome leaves has its memory in canonical form if the one before had. -/
theorem GoesOn.after {s : State} {o : Out} : GoesOn s o → Kept s (after s o)
  | ⟨t, ho, k⟩ => by subst ho; exact k

theorem goesOn_runLogged (s : State) (e : Env) (i : Instr) : GoesOn s (runLogged s e i) := by
  obtain ⟨t, ht, kept⟩ := goesOn_exec i s
  simp only [runLogged, ht]
  exact goesOn_next (kept.trans (hwOnly_ite (.refl t) (hwOnly_with ..)).kept)

theorem goesOn_runFetched (s : State) (e : Env) : GoesOn s (runFetched s e) := by
  unfold runFetched
  split
  · exact goesOn_runLogged s e _
  · exact goesOn_with _ _
  · exact goesOn_with _ _

theorem goesOn_reach (s : State) (e : Env) : GoesOn s (reach s e) := by
  unfold reach
  split
  · exact goesOn_runFetched s e
  split
  · exact goesOn_with _ _
  · extract_lets t
    refine GoesOn.of_kept (t := t) (hwOnly_with ..).kept ?_
    split
    · exact goesOn_runFetched t _
    · exact goesOn_same t
  · exact goesOn_with _ _

theorem kept_aim (s : State) (q : PathRef) (f : Fetched) : Kept s (s.aim q f) := ⟨id⟩

theorem goesOn_issuePath (q : PathRef) (s : State) : GoesOn s (issuePath q s) := by
  unfold issuePath
  split
  · exact goesOn_same s
  split
  · exact goesOn_same s
  extract_lets g
  split
  · exact goesOn_with _ _
  next f t _ =>
  refine GoesOn.of_kept (t := t) ((hwOnly_with s f.2).kept.trans (kept_aim ..)) ?_
  split
  · exact goesOn_same t
  split
  · exact goesOn_with _ _
  · exact goesOn_reach t _

theorem kept_issuePath (s : State) (q : PathRef) : Kept s (after s (issuePath q s)) := (goesOn_issuePath q s).after

theorem kept_parkAwaiting (s : State) (qs : List PathRef) : Kept s (parkAwaiting s qs) := by
  refine kept_foldl (fun s q => ?_) qs s
  dsimp only
  split
  · exact kept_issuePath s q
  · exact ⟨id⟩

theorem hwOnly_askSteps (s : State) (qs : List PathRef) : HwOnly s (askSteps s qs) := by
  refine hwOnly_foldl (fun s q => ?_) qs s
  split
  · exact hwOnly_ite (hwOnly_ite (.refl s) (hwOnly_with ..)) (.refl s)
  · rfl

theorem kept_issueAll (s : State) (core sched : Nat) (qs : List PathRef) : Kept s (issueAll s core sched qs) :=
  (kept_foldl kept_issuePath _ s).trans (hwOnly_with ..).kept

/-- A scheduler's opportunity keeps the form of memory. -/
theorem kept_opportunity (s : State) (core ctx sched : Nat) : Kept s (opportunity s core ctx sched) := by
  unfold opportunity
  extract_lets s1 s2 s2' cands s3 s4
  have headers : Kept s1 s2 := by
    refine kept_foldl (fun s q => ?_) _ s1
    split
    · exact kept_issuePath s q
    · exact ⟨id⟩
  have asked : Kept s s3 := (((hwOnly_with ..).kept.trans headers).trans (kept_parkAwaiting s2 _)).trans (hwOnly_askSteps s2' cands).kept
  have counted : Kept s s4 := asked.trans (hwOnly_ite (hwOnly_with ..) (.refl s3)).kept
  split
  · exact counted
  · exact counted.trans (kept_issueAll ..)

theorem kept_slotTurn (core sched : Nat) (s : State) : Kept s (slotTurn core sched s) := by
  unfold slotTurn
  split
  · exact ⟨id⟩
  split
  · exact kept_opportunity ..
  · exact ⟨id⟩

theorem hwOnly_phobosSwap (op core ctx : Nat) (s : State) : HwOnly s (phobosSwap op core ctx s) := by
  simp only [phobosSwap]
  repeat' split
  all_goals rfl

theorem goesOn_runTurn (listed : Bool) (w : What) (s : State) : GoesOn s (runTurn listed w s) := by
  cases w with
  | slot core sched => exact goesOn_next (kept_slotTurn core sched s)
  | issue q => exact goesOn_ite (goesOn_issuePath q s) (goesOn_next (kept_slotTurn q.core (slotSched q.slot) s))
  | event i =>
    show GoesOn s (match view i with | .event => exec i s | _ => .next s)
    split
    · exact goesOn_exec i s
    · exact goesOn_same s
  | phobos op core ctx => exact (hwOnly_phobosSwap op core ctx s).goesOn

theorem kept_settle (s : State) (dt : Nat) : Kept s (settle s dt) := ⟨settle_wf s dt⟩

theorem kept_passTime (s : State) (dt : Nat) : Kept s (passTime s dt) :=
  ((((hwOnly_with s _).with _).kept.trans (kept_settle _ dt)).trans ((hwOnly_with ..).trans (hwOnly_tick _)).kept).trans (hwOnly_with ..).kept

theorem hwOnly_startDue (s : State) : HwOnly s (startDue s) :=
  hwOnly_foldl (fun s (x : Nat × Nat × Nat) => hwOnly_startBlock x.1 x.2.1 x.2.2 s) _ s

theorem hwOnly_parkDue (s : State) : HwOnly s (parkDue s) :=
  hwOnly_ite (.refl s) (hwOnly_foldl (fun s d => hwOnly_parkDie d s) _ s)

theorem hwOnly_wakeOperands (s : State) : HwOnly s (wakeOperands s) := by
  refine hwOnly_foldl (fun s q => ?_) _ s
  split
  · exact hwOnly_ite (hwOnly_with ..) (.refl s)
  · rfl

theorem hwOnly_noteSteps (s t : State) : HwOnly t (noteSteps s t) := by
  refine hwOnly_foldl (fun u x => (hwOnly_with u (stepAfter x.1 x.2 s.hw u.hw)).trans ?_) _ t
  unfold stepRetire
  split
  · exact hwOnly_ite (hwOnly_with ..) (.refl _)
  · rfl

theorem goesOn_settleTurn {s a : State} {o : Out} : GoesOn a o → GoesOn a (settleTurn s o)
  | ⟨t, ho, kept⟩ => by
    subst ho
    have due := ((hwOnly_with t (retireDoomed t.hw t.time)).trans (hwOnly_startDue _)).trans (hwOnly_parkDue _)
    exact goesOn_next (kept.trans ((((due.with _).with _).trans (hwOnly_wakeOperands _)).trans (hwOnly_noteSteps s _)).kept)

theorem kept_takeTurn (s : State) : Kept s (takeTurn s).2.2 := by
  unfold takeTurn
  split <;> exact ⟨id⟩

/-- Every turn answers a next state, and keeps the canonical form of memory. -/
theorem goesOn_step (s : State) : GoesOn s (step s) := by
  unfold step advance
  extract_lets x t
  refine GoesOn.of_kept (kept_takeTurn s) (goesOn_ite (goesOn_same _) ?_)
  exact goesOn_settleTurn (GoesOn.of_kept (kept_passTime _ t.dt) (goesOn_runTurn x.1 t.what _))

/-! ## The statements -/

/-- Settles O54: whatever a turn does to memory, it stores bytes or takes partitions out, and both keep the form. -/
theorem invariantKept : Obligations.InvariantKept := by
  unfold Obligations.InvariantKept
  intro s t inv h
  obtain ⟨u, hu, kept⟩ := goesOn_step s
  exact Host.Outcome.next.inj (hu.symm.trans h) ▸ kept.inv inv

/-- Settles O58: every arm answers a next state, and so does every turn. -/
theorem nothingStops : Obligations.NothingStops := by
  unfold Obligations.NothingStops
  refine ⟨fun i s => ?_, fun s => ?_⟩
  · obtain ⟨t, ht, -⟩ := goesOn_exec i s
    exact ⟨t, ht⟩
  · obtain ⟨t, ht, -⟩ := goesOn_step s
    exact ⟨t, ht⟩

end Sys2Proof.Machine
end

section
/-! SUPPORT. Fences and time: the forms that wait for writes and for Orrery time, and the ends of their waits (13_consistency
R253-R257). -/

namespace Sys2Proof.Machine

open Sys2Proof

/-! ## Forms that retire or wait -/

section
variable {i : Instr} {s : State} {e : Env} {r : Regs} {done : Bool} {w : Wait} {v : Writes} (he : env s = some e)
  (hx : exec i s = .next (s.with (e.finish r (waitForm e r done w v))))
include hx

include he in
theorem waitForm_retires (h : done = true) (room : Room e r v e.hw) : Retires i s e r v e.hw :=
  retires_of_done he hx (if_pos h) room

theorem waitForm_parks (h : done = false) : Parks i s e r .parked w e.hw :=
  stays_of_stay hx (if_neg (by simp [h]))

end

theorem fence_rules {f : SFields} {s : State} {e : Env} (h : IssuesS Forms.fence f s e) :
    (fenceDone e.hw e.gk f.d.toNat e.hw.nextId e.now = true →
      Retires (.fence f) s e (regsS Forms.fence f) {} (fenceOver e.hw e.part e.gk f.d.toNat e.hw.nextId)) ∧
    (fenceDone e.hw e.gk f.d.toNat e.hw.nextId e.now = false →
      Parks (.fence f) s e (regsS Forms.fence f) .parked (.fence f.d.toNat e.hw.nextId) e.hw) :=
  have issued := (show exec (.fence f) s = execFence f s from rfl).trans (issueS_ok h _)
  ⟨fun met => retires_of_done h.here issued (if_pos met) (room_nil rfl rfl rfl rfl),
    fun waits => stays_of_stay issued (if_neg (by simp [waits]))⟩

theorem twait_rules {f : Fields} {s : State} {e : Env} {i : Instr} (h : Issues Forms.twait f s e) (hi : exec i s = twaitForm f s) {t : Word}
    (ht : t = e.sa (regsF Forms.twait f) + word f.lit + (if f.op = 1 then word s.time else 0)) :
    (t.toNat ≤ s.time → Retires i s e (regsF Forms.twait f) {} e.hw) ∧
      (s.time < t.toNat → Parks i s e (regsF Forms.twait f) .parked (.twait t) e.hw) := by
  have now : e.now = s.time := by rw [Env.now, env_state h.here]
  have time : twaitTime e (regsF Forms.twait f) f = t := by
    rw [ht, twaitTime, now]
    split <;> simp
  have issued := hi.trans (issueF_ok h _)
  rw [time, now] at issued
  exact ⟨fun come => waitForm_retires h.here issued (by simpa using come) (room_nil rfl rfl rfl rfl),
    fun ahead => waitForm_parks issued (by simpa using ahead)⟩

theorem tnow_rules {f : Fields} {s : State} {e : Env} (h : Issues Forms.tnow f s e) :
    let r := regsF Forms.tnow f
    (f.op = 0 ∨ fenceDone e.hw e.gk 0 e.hw.nextId s.time = true → Room e r (putS r s.time) e.hw →
      Retires (.tnow f) s e r (putS r s.time) e.hw) ∧
    (f.op ≠ 0 → fenceDone e.hw e.gk 0 e.hw.nextId s.time = false →
      Parks (.tnow f) s e r .parked (.tnow e.hw.nextId r.d) e.hw) := by
  have now : e.now = s.time := by rw [Env.now, env_state h.here]
  have issued := (show exec (.tnow f) s = execTnow f s from rfl).trans (issueF_ok h _)
  rw [now] at issued
  exact ⟨fun met => waitForm_retires h.here issued (by simpa using met),
    fun op waits => waitForm_parks issued (by simp [op, waits])⟩

/-! ## Ends of waits -/

section
variable {q : PathRef} {s : State} {e : Env} (he : envAt s q = some e)
include he

/-- What retires the form that a path waits at resumes the path. -/
theorem resumes_of_retireParked {i : Instr} {w : Writes} {hw : Hw} (h : exec i s = .next (s.with (e.retireParked w hw))) :
    Resumes i s e w hw :=
  fun _ hr room => ⟨_, h, retireParked_retired he hr room⟩

theorem exec_twaitExpiry {t : Word} (hw : e.q.wait = .twait t) : exec (.twaitExpiry q) s =
    if t.toNat ≤ s.time ∧ runsOn s.hw e.core e.ctx = true then .next (s.with (e.retireParked {} s.hw)) else .next s := by
  simp only [exec, execTwaitExpiry, he, hw]

theorem exec_fenceRetire (runs : runsOn s.hw e.core e.ctx = true) : exec (.fenceRetire q) s = .next (wakeRunning s e) := by
  simp only [exec, execFenceRetire, he, runs, if_true]

/-- A path whose wait tests what has come about goes on behind its form, or waits on. -/
theorem fenceRetire_rules (runs : runsOn s.hw e.core e.ctx = true) {done : Bool} {w : Writes} {hw : Hw}
    (h : wakeRunning s e = if done = true then s.with (e.retireParked w hw) else s) :
    (done = true → Resumes (.fenceRetire q) s e w hw) ∧ (done = false → Holds (.fenceRetire q) s) := by
  have run := (exec_fenceRetire he runs).trans (congrArg _ h)
  exact ⟨fun met => resumes_of_retireParked he (run.trans (by rw [if_pos met])), fun waits => run.trans (by rw [if_neg (by simp [waits])])⟩

end

/-! ## What fences wait for and note -/

/-- A fence of a scope waits for no more than one of a wider scope (Table MO-2). -/
theorem fenceOp_of_le {sc sc' : Nat} (h : sc ≤ sc') {o : Op} (wide : fenceOp sc' o = true) : fenceOp sc o = true := by
  have narrow : ∀ n (b : Bool), (decide (sc' < n) || b) = true → (decide (sc < n) || b) = true := by
    intro n b
    simp only [Bool.or_eq_true, decide_eq_true_eq]
    exact Or.imp_left fun lt => Nat.lt_of_le_of_lt h lt
  simp only [fenceOp, Bool.and_eq_true] at wide ⊢
  obtain ⟨⟨⟨⟨⟨load, back⟩, w1⟩, w2⟩, w3⟩, w4⟩ := wide
  exact ⟨⟨⟨⟨⟨load, back⟩, narrow _ _ w1⟩, narrow _ _ w2⟩, narrow _ _ w3⟩, narrow _ _ w4⟩

theorem fenceDone_of_le {hw : Hw} {gk sc sc' b t : Nat} (h : sc ≤ sc') (wide : fenceDone hw gk sc' b t = true) :
    fenceDone hw gk sc b t = true := by
  simp only [fenceDone, Bool.and_eq_true, List.all_eq_true] at wide ⊢
  exact ⟨fun o ho => fenceOp_of_le h (wide.1 o ho), wide.2⟩

/-- A fence that retires notes the bound of what it covered with its gang, if it covered stores for a later icinv (02_formats R48). -/
theorem fenceOver_spec (hw : Hw) (part gk sc b : Nat) :
    ∃ q : Part, fenceOver hw part gk sc b = (if sc < 3 then hw else hw.setPart part fun _ => q) ∧
      q = { hw.part part with fenced := q.fenced } ∧ b ≤ q.fenced.val 0 gk ∧
      ∀ k, k ≠ gk → q.fenced.look k = (hw.part part).fenced.look k :=
  ⟨{ hw.part part with fenced := (hw.part part).fenced.ins gk (Nat.max b ((hw.part part).fenced.val 0 gk)) }, rfl, rfl,
    by rw [Tab.val_ins, if_pos rfl]; exact Nat.le_max_left .., fun k hk => Tab.look_ins_other _ _ hk⟩

/-- Settles O23: each form's outcome follows its test, each wait ends by the same test, and the tests of a narrower scope are among those of
a wider one. -/
theorem fencesAndTime : Obligations.FencesAndTime := by
  refine ⟨fun f s e h => fence_rules h, fun f s e h => ?_, fun f s e h => ?_, fun f s e h => ?_, fun f s e h => tnow_rules h,
    fun q s e t he hw => ?_, fun q s e he runs => ⟨fun sc b hw => ?_, fun b hw => ?_, fun b d hw => ?_, fun b d hw => ?_⟩,
    fun hw gk sc sc' b t => fenceDone_of_le, fenceOver_spec⟩
  · have issued := (show exec (.sfence f) s = execSfence f s from rfl).trans (issueS_ok h _)
    exact ⟨fun met => waitForm_retires h.here issued met (room_nil rfl rfl rfl rfl), waitForm_parks issued⟩
  · have issued := (show exec (.wdone f) s = execWdone f s from rfl).trans (issueS_ok h _)
    exact ⟨waitForm_retires h.here issued, waitForm_parks issued⟩
  · rintro r t i (rfl | rfl)
    · exact twait_rules h rfl rfl
    · exact twait_rules h rfl rfl
  · have run := exec_twaitExpiry he hw
    refine ⟨fun come runs => resumes_of_retireParked he (run.trans (if_pos ⟨come, runs⟩)), fun h => run.trans (if_neg ?_)⟩
    rintro ⟨come, runs⟩
    rcases h with h | h
    · exact absurd come (Nat.not_le.2 h)
    · exact absurd runs (by simp [h])
  all_goals exact fenceRetire_rules he runs (by simp only [wakeRunning, hw])

end Sys2Proof.Machine
end

section
/-! SUPPORT. Host sectors at the bridge (14_atomics R269, R270). -/

namespace Sys2Proof.Machine

open Sys2Proof

/-- A host access to a sector that the bridge has asked for is granted with its bytes (14_atomics R269). -/
theorem exec_ownershipGrant {fn sec : Nat} {data : List Byte} {s : State} (cxl : (s.hw.part fn).link.cxl = true)
    (reach : (s.hw.part fn).link.hostReach = true) (len : data.length = 64) (new : (s.hw.part fn).link.sectors.has sec = false)
    (room : (s.hw.part fn).link.sectors.length < 8192) (wants : wantsSector s.hw fn sec = true) :
    exec (.ownershipGrant fn sec true data) s = .next { s with
      hw := s.hw.setPart fn fun q => { q with link := { q.link with sectors := q.link.sectors.ins sec (1, s.time) } }
      mem := s.mem.put [] fn (storeBytes (memOf s.mem fn) (bridgeAddr (64 * sec)) data) } := by
  simp only [exec, execOwnershipGrant, cxl, reach, len, new, room, wants, beq_self_eq_true, decide_true, Bool.not_false, Bool.and_self, if_true]

theorem sectorGranted {fn sec : Nat} {data : List Byte} {s : State} (cxl : (s.hw.part fn).link.cxl = true)
    (reach : (s.hw.part fn).link.hostReach = true) (len : data.length = 64) (new : (s.hw.part fn).link.sectors.has sec = false)
    (room : (s.hw.part fn).link.sectors.length < 8192) (wants : wantsSector s.hw fn sec = true) :
    ∃ t, exec (.ownershipGrant fn sec true data) s = .next t ∧ t.time = s.time ∧ t.hw.gangs = s.hw.gangs ∧ t.hw.ops = s.hw.ops ∧
      (t.hw.part fn).link.sectors.look sec = some (1, s.time) ∧
      (∀ k, k ≠ sec → (t.hw.part fn).link.sectors.look k = (s.hw.part fn).link.sectors.look k) ∧
      (∀ k, k < 64 → rdByte t.mem fn (bridgeAddr (64 * sec) + k) = data.getD k 0) ∧
      (∀ p a, (p ≠ fn ∨ a < bridgeAddr (64 * sec) ∨ bridgeAddr (64 * sec) + 64 ≤ a) → rdByte t.mem p a = rdByte s.mem p a) := by
  refine ⟨_, exec_ownershipGrant cxl reach len new room wants, rfl, rfl, rfl, ?_, fun k hk => ?_, fun k hk => ?_, fun p a out => ?_⟩
  · rw [Hw.part_setPart_same, Tab.look_ins_same]
  · rw [Hw.part_setPart_same, Tab.look_ins_other _ _ hk]
  · rw [rdByte_store, if_pos ⟨rfl, by omega, by omega⟩, Nat.add_sub_cancel_left]
  · rw [rdByte_store, if_neg (by rintro ⟨rfl, low, high⟩; omega)]

theorem releaseSector_mem (s : State) (p sec : Nat) (b : Bool) : (releaseSector s p sec b).mem =
    s.mem.put [] p (storeBytes (memOf s.mem p) (bridgeAddr (64 * sec)) (List.replicate 64 0)) := by
  simp only [releaseSector]

/-- What a released sector leaves: the bridge has it no more, and where it was modified its bytes are sent to the host (R270). -/
theorem releaseSector_spec {s : State} {fn sec : Nat} {x : Nat × Nat} (held : (s.hw.part fn).link.sectors.look sec = some x) :
    let t := releaseSector s fn sec true
    t.hw.gangs = s.hw.gangs ∧ (t.hw.part fn).link.sectors.look sec = none ∧
      (∀ k, k ≠ sec → (t.hw.part fn).link.sectors.look k = (s.hw.part fn).link.sectors.look k) ∧
      t.hw.sent = s.hw.sent ++ (if x.1 = 2 then
        [⟨1, fn, [64 * sec] ++ bytesWords 8 (rdBytes s.mem fn (bridgeAddr (64 * sec)) 64)⟩] else []) ∧
      ∀ p a, (p ≠ fn ∨ a < bridgeAddr (64 * sec) ∨ bridgeAddr (64 * sec) + 64 ≤ a) → rdByte t.mem p a = rdByte s.mem p a := by
  let ws := [64 * sec] ++ bytesWords 8 (rdBytes s.mem fn (bridgeAddr (64 * sec)) 64)
  have back : (releaseSector s fn sec true).hw = (if x.1 = 2 then s.hw.send 1 fn ws else s.hw).setPart fn fun q =>
      { q with link := { q.link with sectors := q.link.sectors.del sec } } := by
    obtain ⟨k, u⟩ := x
    by_cases two : k = 2
    · subst two
      simp only [releaseSector, held, if_true, ws]
    · simp only [releaseSector, held, if_neg two]
      split
      case h_1 eq => exact absurd (Prod.mk.inj (Option.some.inj eq)).1 two
      case h_2 => rfl
  have part : (releaseSector s fn sec true).hw.part fn = { s.hw.part fn with
      link := { (s.hw.part fn).link with sectors := (s.hw.part fn).link.sectors.del sec } } := by
    rw [back, Hw.part_setPart_same]
    split <;> rfl
  refine ⟨?_, ?_, fun k hk => ?_, ?_, fun p a out => ?_⟩
  · rw [back]
    split <;> rfl
  · rw [part, Tab.look_del_same]
  · rw [part, Tab.look_del_other _ hk]
  · rw [back]
    split
    · rfl
    · exact (List.append_nil _).symm
  · rw [releaseSector_mem, rdByte_store, List.length_replicate]
    exact if_neg fun h => out.elim (· h.1) fun out => by omega

theorem exec_sectorRelease {fn sec : Nat} {s : State} {x : Nat × Nat} (held : (s.hw.part fn).link.sectors.look sec = some x)
    (idle : sectorBusy s.hw fn sec = false) (full : 8192 ≤ (s.hw.part fn).link.sectors.length)
    (oldest : ∀ y ∈ (s.hw.part fn).link.sectors, x.2 ≤ y.2.2) :
    exec (.sectorRelease fn sec) s = .next (releaseSector s fn sec true) := by
  have least : ((s.hw.part fn).link.sectors.all fun y => decide (x.2 ≤ y.2.2)) = true := by simpa using oldest
  simp only [exec, execSectorRelease, held, full, least, idle, decide_true, Bool.not_false, Bool.and_self, if_true]

theorem exec_hostSnoop {fn sec : Nat} {s : State} (idle : sectorBusy s.hw fn sec = false) :
    exec (.hostSnoop fn sec) s = .next ((releaseSector s fn sec true).with ((releaseSector s fn sec true).hw.send 4 fn [sec])) := by
  simp only [exec, execHostSnoop, idle, Bool.and_false, Bool.false_eq_true, if_false]

/-- Settles O26: a grant stores the sector's bytes, a release sends them where they were modified and clears the bridge's copy. -/
theorem hostSectors : Obligations.HostSectors := by
  refine ⟨fun fn sec data s => sectorGranted, ?_⟩
  rintro i fn sec s x tail held idle (⟨rfl, rfl⟩ | ⟨rfl, rfl, full, oldest⟩)
  all_goals obtain ⟨gangs, gone, others, sent, bytes⟩ := releaseSector_spec held
  · have run := exec_hostSnoop idle
    generalize releaseSector s fn sec true = u at *
    exact ⟨_, run, gangs, gone, others, congrArg (· ++ [_]) sent, bytes⟩
  · exact ⟨_, exec_sectorRelease held idle full oldest, gangs, gone, others, by rw [sent, List.append_nil], bytes⟩

end Sys2Proof.Machine
end

section
/-! SUPPORT. Writes that reach their home slice: the W that a line gives, and what a write of a context leaves pending
(13_consistency R248). -/

namespace Sys2Proof.Machine

open Sys2Proof

/-! ## The W of a write -/

/-- The greatest of a start and the measures of the elements that count is at least each of them. -/
theorem le_foldl_maxIf {α : Type} (c : α → Prop) [DecidablePred c] (f : α → Nat) (l : List α) (m : Nat) :
    m ≤ l.foldl (fun m x => if c x then Nat.max m (f x) else m) m ∧
      ∀ x ∈ l, c x → f x ≤ l.foldl (fun m x => if c x then Nat.max m (f x) else m) m := by
  induction l generalizing m with
  | nil => exact ⟨Nat.le_refl m, fun x hx => absurd hx List.not_mem_nil⟩
  | cons y l ih =>
    obtain ⟨start, each⟩ := ih (if c y then Nat.max m (f y) else m)
    have grows : m ≤ if c y then Nat.max m (f y) else m := by
      split
      · exact Nat.le_max_left ..
      · exact Nat.le_refl m
    refine ⟨grows.trans start, fun x hx cx => ?_⟩
    rcases List.mem_cons.1 hx with rfl | hx
    · refine Nat.le_trans ?_ start
      rw [if_pos cx]
      exact Nat.le_max_right ..
    · exact each x hx cx

/-- A W lies past the time, past every lease of the line, and past every W that the line has given (R248 item 3). -/
theorem assignW_spec (q : Part) (line t : Nat) : t + 2 ≤ assignW q line t ∧ q.leases.val 0 line + 2 ≤ assignW q line t ∧
    ∀ p ∈ q.pend, orderUnit p.addr = line → p.w < assignW q line t := by
  obtain ⟨-, each⟩ := le_foldl_maxIf (fun w : PWrite => orderUnit w.addr = line) (·.w) q.pend 0
  have time : t ≤ Nat.max t (q.leases.val 0 line) := Nat.le_max_left ..
  have lease : q.leases.val 0 line ≤ Nat.max t (q.leases.val 0 line) := Nat.le_max_right ..
  simp only [assignW]
  refine ⟨?_, ?_, fun p hp hl => ?_⟩
  · split <;> omega
  · split <;> omega
  · have := each p hp hl
    split <;> omega

/-! ## Writes of operations -/

/-- Machine h is hw after a write of operation o, with bytes bs for address a, has taken its W at time t. -/
structure Took (o : Op) (t a : Nat) (bs : List Byte) (hw h : Hw) : Prop where
  pend : ∃ p, (h.part o.part).pend = (hw.part o.part).pend ++ [p] ∧ p.w = assignW (hw.part o.part) (orderUnit a) t ∧ p.addr = a ∧
    p.bytes = bs ∧ p.gk = o.gk ∧ p.paths = o.paths
  gangs : h.gangs = hw.gangs
  ops : h.ops = hw.ops
  blocks : h.blocks = hw.blocks

theorem snoop_ops (hw : Hw) (p a : Nat) : (snoop hw p a).ops = hw.ops := by
  unfold snoop
  split <;> rfl

theorem putWrite_took (hw : Hw) (o : Op) (t a : Nat) (bs : List Byte) :
    Took o t a bs hw (putWrite hw o.part t a bs o.id o.gk o.paths).2 := by
  have asked := posted_snoop hw o.part a
  have pend : ((putWrite hw o.part t a bs o.id o.gk o.paths).2.part o.part).pend = (hw.part o.part).pend ++
      [⟨assignW (hw.part o.part) (orderUnit a) t, a, bs, o.id, o.gk, o.paths, none, 0, false, false, lineBlocked hw o.part a, false, false⟩] := by
    simp only [putWrite, Hw.part_setPart_same, asked.pend, List.append_nil]
  exact ⟨⟨_, pend, rfl, rfl, rfl, rfl, rfl⟩, asked.gangs, snoop_ops .., asked.blocks⟩

/-- The window that a context is in changes nothing of whether it has a Tail. -/
theorem TailSt.roll_en (t : Nat) (x : TailSt) : (x.roll t).en = x.en := by
  unfold TailSt.roll
  split
  · split <;> rfl
  · rfl

/-- No earlier write of the line has the W and the address of one that takes its W now. -/
theorem not_twin {q : Part} {w : PWrite} (hw : w ∈ q.pend) {o a t : Nat} :
    ¬(w.id = o ∧ w.w = assignW q (orderUnit a) t ∧ w.addr = a) := by
  rintro ⟨-, same, rfl⟩
  exact absurd ((assignW_spec q (orderUnit w.addr) t).2.2 w hw rfl) (by omega)

/-- A write of an operation that needs no record takes its W: no other is its line's, and no Tail holds it. -/
theorem ctxWrite_takes {hw : Hw} {o : Op} {a : Nat} (free : lineHeld hw o.part (lineOf a) o.id = false)
    (off : ∀ cx, hw.ctx o.part o.ctx = some cx → cx.tail.en = false) (m : Tab Memory) (t va : Nat) (bs : List Byte) :
    ∃ h, ctxWrite hw m t o a va bs = (some (assignW (hw.part o.part) (orderUnit a) t), h) ∧ Took o t a bs hw h := by
  obtain ⟨⟨p, pend, pw, pa, pb, pg, pp⟩, gangs, ops, blocks⟩ := putWrite_took hw o t a bs
  let f (w : PWrite) : PWrite := if w.id = o.id ∧ w.w = assignW (hw.part o.part) (orderUnit a) t ∧ w.addr = a then
    { w with tctx := some o.ctx, va := va, prog := !o.kind.isEngine, blocked := hostHolds hw o.part a } else w
  have old : (hw.part o.part).pend.map f = (hw.part o.part).pend := by
    refine (List.map_congr_left fun w hw => ?_).trans (List.map_id _)
    exact if_neg (not_twin hw)
  have new : ∀ {α : Type} (g : PWrite → α), (∀ w c v x b, g { w with tctx := c, va := v, prog := x, blocked := b } = g w) → g (f p) = g p := by
    intro α g hg
    simp only [f]
    split
    · exact hg ..
    · rfl
  refine ⟨(putWrite hw o.part t a bs o.id o.gk o.paths).2.setPart o.part fun q => { q with pend := q.pend.map f }, ?_, ⟨f p, ?_, (new (·.w) fun _ _ _ _ _ => rfl).trans pw, (new (·.addr) fun _ _ _ _ _ => rfl).trans pa,
    (new (·.bytes) fun _ _ _ _ _ => rfl).trans pb, (new (·.gk) fun _ _ _ _ _ => rfl).trans pg,
    (new (·.paths) fun _ _ _ _ _ => rfl).trans pp⟩, gangs, ops, blocks⟩
  · simp only [ctxWrite, free, Bool.false_and, Bool.false_eq_true, if_false]
    split
    case h_1 => rfl
    case h_2 cx hcx =>
      simp only [needsRecord, TailSt.roll_en, off cx hcx, Bool.false_and, Bool.not_false, Bool.true_or, if_true]
      rfl
  · simp only [Hw.part_setPart_same, pend, List.map_append, old, List.map_cons, List.map_nil]

/-- An element of an operation for a line that the host does not hold is performed at its home slice: it reads what the line holds and
takes its W, whether or not it writes. -/
theorem arriveElem_device {m : Tab Memory} {t : Nat} {o : Op} {hw : Hw} {x : Elem} (fresh : x.st = 0) (device : x.tgt.space = 0)
    (ready : clear hw o x o.kind.width false = true) (home : (hw.part o.part).link.hostLines.contains (lineOf x.tgt.pa) = false)
    (free : lineHeld hw o.part (lineOf x.tgt.pa) o.id = false) (off : ∀ cx, hw.ctx o.part o.ctx = some cx → cx.tail.en = false)
    (plain : o.kind.arms = false) :
    let y := elemEffect o.kind x (latestNat m hw o.part x.tgt.pa o.kind.width)
    ∃ h, arriveElem m o t hw x =
        ({ x with st := 1, w := assignW (hw.part o.part) (orderUnit x.tgt.pa) t, val := y.2 }, h) ∧
      Took o t x.tgt.pa (match y.1 with | some z => toBytes o.kind.width z | none => []) hw h := by
  extract_lets y
  have arrive : arriveElem m o t hw x = arriveDevice m t o hw x := by
    simp only [arriveElem, fresh, ready, device]
    rfl
  rw [arrive]
  simp only [arriveDevice, home, plain, Bool.false_eq_true, if_false]
  cases effect : y.1 with
  | none =>
    exact ⟨(putWrite hw o.part t x.tgt.pa [] o.id o.gk o.paths).2, rfl, putWrite_took ..⟩
  | some z =>
    obtain ⟨h, wrote, took⟩ := ctxWrite_takes free off m t x.va (toBytes o.kind.width z)
    refine ⟨h, ?_, took⟩
    simp only [wrote]
    rfl

/-- An operation of one element has it performed in no order. -/
theorem mapInOrder_single (atomic : Bool) {sel : Elem → Bool} (f : Hw → Elem → Elem × Hw) (hw : Hw) {e : Elem} (h : sel e = true) :
    mapInOrder atomic sel f [] hw [e] = ([(f hw e).1], (f hw e).2) := by
  simp only [mapInOrder, h, List.any_nil, Bool.and_false, Bool.not_false, Bool.and_self, if_true]

/-- Operation id after it has been changed. -/
theorem op_setOp_same {hw h : Hw} {id : Nat} {o : Op} (ops : h.ops = hw.ops) (ho : hw.op id = some o) {f : Op → Op} (hf : (f o).id = id) :
    (h.setOp id f).op id = some (f o) := by
  have number : o.id = id := id_of_op ho
  unfold Hw.op at *
  unfold Hw.setOp
  rw [ops]
  revert ho
  induction hw.ops with
  | nil => intro ho; cases ho
  | cons x l ih =>
    intro ho
    by_cases hx : x.id = id
    · obtain rfl : x = o := by simpa [hx] using ho
      simp [hf, number]
    · have rest : l.find? (fun o => o.id == id) = some o := by simpa [hx] using ho
      simpa [hx] using ih rest

end Sys2Proof.Machine
end

section
/-! SUPPORT. Atomics: how atom and cas issue, what a reply performs, and the wait of an acquire (14_atomics R264-R268). -/

namespace Sys2Proof.Machine

open Sys2Proof

/-! ## atom and cas issue -/

/-- The comparands of the elements of a form, by lane. -/
def comparands (c : Nat → Option Word) (es : List Elem) : Tab Word :=
  es.foldl (fun t x => match c x.lane with | some v => Tab.ins t x.lane v | none => t) []

theorem look_foldl_comparand (c : Nat → Option Word) (es : List Elem) (t : Tab Word) (l : Nat) :
    (es.foldl (fun t x => match c x.lane with | some v => Tab.ins t x.lane v | none => t) t).look l =
      if ∃ x ∈ es, x.lane = l ∧ (c l).isSome then c l else t.look l := by
  induction es generalizing t with
  | nil => simp
  | cons x es ih =>
    rw [List.foldl_cons, ih]
    by_cases later : ∃ y ∈ es, y.lane = l ∧ (c l).isSome
    · obtain ⟨y, hy, hl⟩ := later
      rw [if_pos ⟨y, hy, hl⟩, if_pos ⟨y, List.mem_cons_of_mem _ hy, hl⟩]
    · rw [if_neg later]
      by_cases here : x.lane = l
      · subst here
        cases hc : c x.lane with
        | none => simp
        | some v => simp
      · have none : ¬∃ y ∈ x :: es, y.lane = l ∧ (c l).isSome := by
          rintro ⟨y, hy, hl⟩
          rcases List.mem_cons.1 hy with rfl | hy
          · exact here hl.1
          · exact later ⟨y, hy, hl⟩
        rw [if_neg none]
        split
        · exact Tab.look_ins_other _ _ (Ne.symm here)
        · rfl

theorem look_comparands (c : Nat → Option Word) (es : List Elem) :
    (∀ x ∈ es, ∀ v, c x.lane = some v → (comparands c es).look x.lane = some v) ∧ (∀ l, c l = none → (comparands c es).look l = none) := by
  refine ⟨fun x hx v hv => ?_, fun l hl => ?_⟩
  · rw [comparands, look_foldl_comparand, if_pos ⟨x, hx, rfl, by rw [hv]; rfl⟩, hv]
  · rw [comparands, look_foldl_comparand, hl]
    simp

/-- What an atomic form reads and writes: elements of its width in device memory, in host memory that is cached, or at a peer. -/
def atomicNeed (e : Env) (f : Fields) : Need :=
  { spaces := fun sp => sp == 0 || (sp == 1 && (e.hw.part e.part).link.cxl) || sp == 2, a := true, width := Ty.width f.ty / 8, rd := true, wr := true }

section
variable {fm : Form} {f : Fields} {s : State} {e : Env} {op : Nat} {nr : Bool} {cmp : Env → Regs → Nat → Option Word} {i : Instr}
  (hi : exec i s = atomicForm fm f s op nr cmp) (h : Issues fm f s e) (free : e.counterFull = false)
include hi h free

theorem atomicForm_traps {t : Trap} (bad : e.check (atomicNeed e f) (f.cl == 3) (e.refs (regsF fm f) f (regsF fm f).c) = .stop (.trap t)) :
    Traps i s e t := by
  refine traps_of_trap (hi.trans (issueF_ok h _)) ?_
  unfold atomicNeed at bad
  simp only [free, bad, Bool.false_eq_true, if_false]

variable {es : List Elem} {hw : Hw} (ok : e.check (atomicNeed e f) (f.cl == 3) (e.refs (regsF fm f) f (regsF fm f).c) = .ok es hw)
include ok

theorem atomicForm_parks (rel : bit 6 f.ext = true) {sc b : Nat} (waits : e.releasing (es.any fun x => x.tgt.space == 2) = some (sc, b)) :
    Parks i s e (regsF fm f) .parked (.release sc b) e.hw := by
  refine stays_of_stay (hi.trans (issueF_ok h _)) ?_
  unfold atomicNeed at ok
  simp only [free, ok, rel, waits, Bool.false_eq_true, if_false, if_true]

theorem atomicForm_starts (rel : bit 6 f.ext = false ∨ e.releasing (es.any fun x => x.tgt.space == 2) = none) :
    Starts i s e (regsF fm f) { e.newOp (regsF fm f) (.atomic
        (es.map fun x => { x with val := word ((e.vb (regsF fm f) f x.lane).toNat % 2 ^ (8 * (Ty.width f.ty / 8))) }) op f.ty
        (comparands (cmp e (regsF fm f)) es) (bit 5 f.ext) nr) with
      counts := true, dst := if nr then .none else e.dest (regsF fm f) } ((regsF fm f).fsel == 0 && !nr) hw := by
  refine starts_of_start h.here (hi.trans (issueF_ok h _)) ?_
  have past : (if bit 6 f.ext then e.releasing (es.any fun x => x.tgt.space == 2) else none) = none := by
    rcases rel with rel | rel
    · rw [rel]; rfl
    · rw [rel, ite_self]
  unfold atomicNeed at ok
  simp only [free, ok, past, Bool.false_eq_true, if_false]
  rfl

end

/-! ## Ws that return -/

/-- The Ws of an operation's performed elements return to its gang, which keeps the greatest W (13_consistency R248, R255). -/
theorem returnWs_spec {o : Op} {es : List Elem} (back : ∀ x ∈ es, x.st = 1 ∧ x.tgt.space = 0) (t : Nat) {hw : Hw} {g : Gang}
    (hg : hw.gangs.look o.gk = some g) :
    ∃ gs g', returnWs hw o es t = { hw with gangs := gs } ∧ gs.look o.gk = some g' ∧ g'.paths = g.paths ∧ g'.vregs = g.vregs ∧
      g'.maxW = (es.map (·.w)).foldl Nat.max g.maxW := by
  induction es generalizing hw g with
  | nil => exact ⟨hw.gangs, g, rfl, hg, rfl, rfl, rfl⟩
  | cons x es ih =>
    obtain ⟨st, space⟩ := back x List.mem_cons_self
    have note : returnWs hw o (x :: es) t = returnWs (noteW hw o.gk o.id x.w t) o es t := by
      simp only [returnWs, List.foldl_cons, st, space, beq_self_eq_true, Bool.and_self, if_true]
    obtain ⟨gs, g', same, look, paths, vregs, maxW⟩ := ih (fun y hy => back y (List.mem_cons_of_mem _ hy))
      (hw := noteW hw o.gk o.id x.w t) (by rw [noteW, Hw.setGang, Tab.look_upd, if_pos rfl, hg]; rfl)
    exact ⟨gs, g', note.trans same, look, paths, vregs, maxW⟩

/-! ## Replies -/

theorem mapElemsSel_none {sel : Nat → Bool} (none : ∀ l, sel l = false) (data : List Word) (f : Option Word → Hw → Elem → Elem × Hw) (n : Nat)
    (hw : Hw) (es : List Elem) : mapElemsSel sel data f n hw es = (es, hw) := by
  induction es with
  | nil => rfl
  | cons x es ih => simp only [mapElemsSel, none, Bool.false_eq_true, if_false, ih]

theorem atomicVal_single {o : Op} {es : List Elem} {op : Nat} {ty : Ty} {cs : Tab Word} {acq nr : Bool} (h : o.kind = .atomic es op ty cs acq nr)
    (y : Elem) : atomicVal o [y] y.lane = loadValue ty y.val.toNat := by
  simp [atomicVal, h, elemVal]

/-- What atomic operator op, or cas, leaves in place of old, if it writes: y against comparand c (14_atomics R266). -/
def atomicNew (op : Nat) (ty : Ty) (old y : Nat) (c : Word) : Option Nat :=
  if op = 10 then (if old = c.toNat % 2 ^ Ty.width ty then some y else none) else some (atomNew op ty old y)

theorem elemEffect_atomic (es : List Elem) (op : Nat) (ty : Ty) (cs : Tab Word) (acq nr : Bool) (x : Elem) (old : Nat) :
    elemEffect (.atomic es op ty cs acq nr) x old =
      (atomicNew op ty old (x.val.toNat % 2 ^ Ty.width ty) (cs.val 0 x.lane), word old) := by
  by_cases ten : op = 10
  · simp [elemEffect, atomicNew, atomWrite, ten]
  · simp [elemEffect, atomicNew, atomWrite, ten]

/-- An atomic after its one element has been performed as y. -/
def Op.performed (o : Op) (y : Elem) : Op := { o with kind := o.kind.withElems [y], held := o.held && [y].any fun e => e.st == 5 }

/-- A reply to an atomic whose one element its home slice performs: the W returns, and the form ends, at W + 2 for an acquire that a path
waits for. -/
theorem atomicReply_single {id : Nat} {s : State} {o : Op} {x y : Elem} {op : Nat} {ty : Ty} {cs : Tab Word} {acq nr : Bool} {h : Hw} {g : Gang}
    (ho : s.hw.op id = some o) (hk : o.kind = .atomic [x] op ty cs acq nr) (chain : o.chain = none)
    (performed : arriveElem s.mem o s.time s.hw x = (y, h)) (st : y.st = 1) (device : y.tgt.space = 0) (late : s.time + 2 ≤ y.w)
    (hg : h.gangs.look o.gk = some g) (data : List Word) :
    ∃ gs g', gs.look o.gk = some g' ∧ g'.paths = g.paths ∧ g'.vregs = g.vregs ∧ g'.maxW = Nat.max g.maxW y.w ∧
      let o' := o.performed y
      let h' := { h.setOp id fun _ => o' with gangs := gs }
      exec (.atomicReply id data) s = .next (if acq then (if (waiterOf g id).isSome then acquireAt (s.with h') o' y.w (atomicVal o' [y])
        else s.with h') else landOp (s.with h') o' (atomicVal o' [y])) := by
  have order : mapInOrder true (fun _ => true) (arriveElem s.mem o s.time) [] s.hw [x] = ([y], h) := by
    rw [mapInOrder_single _ _ _ rfl, performed]
  obtain ⟨gs, g', back, look, paths, vregs, maxW⟩ := returnWs_spec (o := o.performed y) (es := [y]) (by simpa using ⟨st, device⟩) s.time
    (hw := h.setOp id fun _ => o.performed y) hg
  refine ⟨gs, g', look, paths, vregs, by simpa using maxW, ?_⟩
  have waiter : waiterOf g' id = waiterOf g id := by rw [waiterOf, waiterOf, paths]
  have local' : ([y].filter fun e => e.tgt.space == 2 && e.st == 0).map (·.lane) = [] := by simp [device]
  have most : maxOf (([y].filter fun e => e.tgt.space != 2).map (·.w)) = y.w := by simp [maxOf, device]
  have done : allDone [y] = true := by simp [allDone, st]
  have fails : ([y].any fun e => e.st == 2) = false := by simp [st]
  have some_w : y.w ≠ 0 := by omega
  have due : s.time < y.w + 2 := by omega
  simp only [exec, execAtomicReply, ho, hk, order, local', mapElemsSel_none (fun l => List.contains_nil)]
  rw [← hk, show ({ o with kind := o.kind.withElems [y], held := o.held && [y].any fun e => e.st == 5 } : Op) = o.performed y from rfl]
  have look' : gs.look o.gk = some g' := look
  simp only [done, chain, State.with, back, look', fails, most, waiter, some_w, due, Bool.and_false, Bool.false_eq_true, if_false, Bool.not_true,
    Option.isSome_none, Bool.or_self, ne_eq, not_false_eq_true, decide_true, Bool.and_true]
  cases acq
  · rfl
  · cases (waiterOf g id).isSome <;> rfl

/-- A path that waits for operation id waits for its acquire at time t (14_atomics R267). -/
def awaitAcquire (id t : Nat) (q : Path) : Path := if q.wait = .op id then { q with wait := .acquire id t } else q

/-- An acquire that is not yet due leaves its path waiting until it is (14_atomics R267). -/
theorem acquireAt_waits {s : State} {o : Op} {w : Nat} {g : Gang} (due : s.time < w + 2) (hg : s.hw.gangs.look o.gk = some g) (v : Nat → Word) :
    ∃ g', acquireAt s o w v = s.with { s.hw with gangs := s.hw.gangs.ins o.gk g' } ∧
      g'.vregs = g.vregs ∧ ∀ p q, g.paths.look p = some q → ∃ q', g'.paths.look p = some q' ∧
        (q.wait = .op o.id → q' = { q with wait := .acquire o.id (w + 2) }) ∧ (q.wait ≠ .op o.id → q' = q) := by
  refine ⟨{ g with paths := g.paths.map fun x => (x.1, awaitAcquire o.id (w + 2) x.2) }, ?_, rfl, fun p q hq =>
    ⟨awaitAcquire o.id (w + 2) q, ?_, fun waits => if_pos waits, fun other => if_neg other⟩⟩
  · rw [acquireAt, if_neg (by omega), Tab.upd, hg]
    rfl
  · exact (look_map_keyed (fun _ => awaitAcquire o.id (w + 2)) g.paths p).trans (by rw [hq]; rfl)

/-- Settles O25: both forms issue alike; the one element of a reply takes its W at its home slice, and its W returns with the reply. -/
theorem atomics : Obligations.Atomics := by
  refine ⟨fun fm con op nr cmp which f s e h free => ?_, ?_, fun s o w v g due hg => acquireAt_waits due hg v⟩
  · extract_lets r k n need
    have hi : exec (con f) s = atomicForm fm f s (op f) (nr f) cmp := by
      rcases which with ⟨rfl, rfl, rfl, rfl, rfl⟩ | ⟨rfl, rfl, rfl, rfl, rfl⟩ <;> rfl
    refine ⟨fun t bad => atomicForm_traps hi h free bad, fun es hw ok => ⟨fun rel => ⟨comparands (cmp e r) es, ?_, ?_, ?_⟩,
      fun rel sc b waits => atomicForm_parks hi h free ok rel waits⟩⟩
    · exact (look_comparands (cmp e r) es).1
    · exact (look_comparands (cmp e r) es).2
    · exact atomicForm_starts hi h free ok rel
  · intro id data s o x op ty cmp acq nr g ho hk chain plain fresh device ready home free off hg n old y w new
    have number := id_of_op ho
    have width : o.kind.width = n := by rw [hk]; rfl
    obtain ⟨h, performed, ⟨p, pend, pw, pa, pb, -, -⟩, gangs, ops⟩ := arriveElem_device (m := s.mem) (t := s.time) fresh device
      (by rw [width]; exact ready) home free off (by rw [hk]; unfold OpKind.arms; split <;> simp_all)
    rw [hk, elemEffect_atomic, ← hk, width] at performed pb
    obtain ⟨gs, g', look, paths, vregs, maxW, run⟩ := atomicReply_single ho hk chain performed rfl device (assignW_spec ..).1
      (by rw [gangs]; exact hg) data
    refine ⟨_, _, _, p, g', run, rfl, rfl, rfl, atomicVal_single (by rw [Op.performed, hk]; rfl) _, pend, pw, pa, pb, look, maxW, paths, vregs⟩

end Sys2Proof.Machine
end

section
/-! SUPPORT. Writes of operations and of the host to device memory: their Ws, what they leave pending, and what the host reads
(13_consistency R248, R255, R261; 19_links R365). -/

namespace Sys2Proof.Machine

open Sys2Proof

/-! ## Stores -/

theorem writeArrival_single {id : Nat} {sel : Lanes} {s : State} {o : Op} {x y : Elem} {n : Nat} {h : Hw} (ho : s.hw.op id = some o)
    (hk : o.kind = .store [x] n) (lane : inLanes sel x.lane = true) (performed : arriveElem s.mem o s.time s.hw x = (y, h)) :
    exec (.writeArrival id sel) s = .next (s.with (h.setOp id (·.performed y))) := by
  have order : mapInOrder (OpKind.store [x] n).isAtomic (fun e => inLanes sel e.lane) (arriveElem s.mem o s.time) [] s.hw [x] = ([y], h) := by
    rw [mapInOrder_single _ _ _ lane, performed]
  simp only [exec, execWriteArrival, ho, hk, OpKind.elems, order, if_true]
  rfl

/-- A store's element that reaches its home slice takes its W there (13_consistency R248). -/
theorem storeArrives {id : Nat} {sel : Lanes} {s : State} {o : Op} {x : Elem} {n : Nat} (ho : s.hw.op id = some o)
    (hk : o.kind = .store [x] n) (lane : inLanes sel x.lane = true) (fresh : x.st = 0) (device : x.tgt.space = 0)
    (ready : clear s.hw o x n false = true) (home : (s.hw.part o.part).link.hostLines.contains (lineOf x.tgt.pa) = false)
    (free : lineHeld s.hw o.part (lineOf x.tgt.pa) o.id = false) (off : ∀ cx, s.hw.ctx o.part o.ctx = some cx → cx.tail.en = false) :
    let w := assignW (s.hw.part o.part) (orderUnit x.tgt.pa) s.time
    ∃ t p o', exec (.writeArrival id sel) s = .next t ∧ (t.hw.part o.part).pend = (s.hw.part o.part).pend ++ [p] ∧ p.w = w ∧
      p.addr = x.tgt.pa ∧ p.bytes = toBytes n x.val.toNat ∧ p.gk = o.gk ∧ p.paths = o.paths ∧ t.mem = s.mem ∧ t.time = s.time ∧
      t.hw.gangs = s.hw.gangs ∧ t.hw.op id = some o' ∧ o'.kind = .store [{ x with st := 1, w := w }] n := by
  have width : o.kind.width = n := by rw [hk]; rfl
  obtain ⟨h, performed, ⟨p, pend, pw, pa, pb, pg, pp⟩, gangs, ops⟩ := arriveElem_device (m := s.mem) (t := s.time) fresh device
    (by rw [width]; exact ready) home free off (by rw [hk]; rfl)
  rw [width] at pb
  rw [hk] at performed pb
  exact ⟨_, p, _, writeArrival_single ho hk lane performed, pend, pw, pa, pb, pg, pp, rfl, rfl, gangs,
    op_setOp_same ops ho (f := (·.performed _)) (id_of_op (o := o) ho), by rw [Op.performed, hk]; rfl⟩

theorem foldl_max_spec (ws : List Nat) (m : Nat) : m ≤ ws.foldl Nat.max m ∧ (∀ w ∈ ws, w ≤ ws.foldl Nat.max m) ∧
    (ws.foldl Nat.max m = m ∨ ws.foldl Nat.max m ∈ ws) := by
  induction ws generalizing m with
  | nil => exact ⟨Nat.le_refl m, fun w hw => absurd hw List.not_mem_nil, .inl rfl⟩
  | cons x ws ih =>
    obtain ⟨start, each, is⟩ := ih (Nat.max m x)
    refine ⟨(Nat.le_max_left m x).trans start, fun w hw => ?_, ?_⟩
    · rcases List.mem_cons.1 hw with rfl | hw
      · exact (Nat.le_max_right m w).trans start
      · exact each w hw
    · rcases is with is | is
      · rw [List.foldl_cons, is]
        rcases Nat.le_total m x with le | le
        · exact .inr (by rw [show Nat.max m x = x from Nat.max_eq_right le]; exact List.mem_cons_self)
        · exact .inl (Nat.max_eq_left le)
      · exact .inr (List.mem_cons_of_mem _ is)

/-- A store all of whose elements have a W ends when they return, and its gang keeps the greatest (13_consistency R255). -/
theorem storeReturns {id : Nat} {s : State} {o : Op} {es : List Elem} {n : Nat} {g : Gang} (ho : s.hw.op id = some o)
    (hk : o.kind = .store es n) (chain : o.chain = none) (back : ∀ x ∈ es, x.st = 1 ∧ x.tgt.space = 0) (hg : s.hw.gangs.look o.gk = some g) :
    ∃ h o' g', exec (.writeWReturn id) s = .next (landOp (s.with h) o' fun _ => 0) ∧ o'.id = o.id ∧ o'.gk = o.gk ∧
      h.gangs.look o.gk = some g' ∧ g'.paths = g.paths ∧ g'.vregs = g.vregs ∧ g.maxW ≤ g'.maxW ∧ (∀ x ∈ es, x.w ≤ g'.maxW) ∧
      (g'.maxW = g.maxW ∨ ∃ x ∈ es, g'.maxW = x.w) := by
  obtain ⟨gs, g', noted, look, paths, vregs, maxW⟩ := returnWs_spec back s.time hg
  obtain ⟨least, each, is⟩ := foldl_max_spec (es.map (·.w)) g.maxW
  rw [← maxW] at least each is
  have dev : (es.any fun e => e.st == 1 && e.tgt.space == 0) = !es.isEmpty := by
    cases es with
    | nil => rfl
    | cons x es => simp [back x List.mem_cons_self]
  have h_eq : (if (!es.isEmpty) = true then returnWs s.hw o es s.time else s.hw) = { s.hw with gangs := gs } := by
    rw [← noted]
    cases es <;> rfl
  have all : es.map (fun e => if (e.st == 1 && (e.tgt.space == 0) == !es.isEmpty && !isPublication (s.hw.part o.part).link e n &&
      (e.tgt.space != 2 || peerSends (s.hw.part o.part).link e.tgt.peer)) = true then { e with st := 3 } else e) =
      es.map fun e => { e with st := 3 } := by
    refine List.map_congr_left fun x hx => ?_
    have some_x : es.isEmpty = false := by
      cases es with
      | nil => cases hx
      | cons => rfl
    simp [back x hx, some_x, isPublication]
  have done : allDone (es.map fun e => { e with st := 3 }) = true := by simp [allDone]
  have ended : ((es.map fun e => { e with st := 3 }).any fun e => e.st == 1) = false := by simp
  let o' : Op := { o with kind := o.kind.withElems (es.map fun e => { e with st := 3 }) }
  refine ⟨({ s.hw with gangs := gs } : Hw).setOp id fun _ => o', o', g', ?_, rfl, rfl, look, paths, vregs, least,
    fun x hx => each x.w (List.mem_map_of_mem hx), is.imp_right fun mem => ?_⟩
  · simp only [exec, execWriteWReturn, ho, hk, OpKind.elems, OpKind.width, dev, all, done, ended, chain, h_eq, Bool.not_false,
      Option.isNone_none, Bool.and_self, if_true, o']
  · obtain ⟨x, hx, eq⟩ := List.mem_map.1 mem
    exact ⟨x, hx, eq.symm⟩

/-! ## Writes of the host -/

/-- Machine b is machine a after writes l of the host at time t in partition p; strict ones take their W behind every earlier one
(13_consistency R261). -/
structure HostWrote (p t : Nat) (strict : Bool) (a b : Hw) (l : List PWrite) : Prop where
  part : b.part p = { a.part p with pend := (a.part p).pend ++ l, hostW := (b.part p).hostW, hostAll := (b.part p).hostAll }
  others : ∀ q, q ≠ p → b.part q = a.part q
  gangs : b.gangs = a.gangs
  ops : b.ops = a.ops
  launches : b.launches = a.launches
  grows : (a.part p).hostAll ≤ (b.part p).hostAll ∧ (a.part p).hostW ≤ (b.part p).hostW
  each : ∀ w ∈ l, t + 2 ≤ w.w ∧ w.w ≤ (b.part p).hostAll ∧ (strict = true → (a.part p).hostAll ≤ w.w ∧ w.w ≤ (b.part p).hostW)
  waits : ∀ w ∈ l, w.blocked = true → lineHeld a p (lineOf w.addr) 0 = true

theorem HostWrote.refl (p t : Nat) (strict : Bool) (a : Hw) : HostWrote p t strict a a [] :=
  ⟨by simp, fun _ _ => rfl, rfl, rfl, rfl, ⟨Nat.le_refl _, Nat.le_refl _⟩, fun _ h => absurd h List.not_mem_nil, fun _ h => absurd h List.not_mem_nil⟩

/-- Which lines a Tail holds depends on the operations and launches alone. -/
theorem lineHeld_congr {a b : Hw} (ops : b.ops = a.ops) (launches : b.launches = a.launches) (p line id : Nat) :
    lineHeld b p line id = lineHeld a p line id := by rw [lineHeld, lineHeld, ops, launches]

theorem HostWrote.trans {p t : Nat} {strict : Bool} {a b c : Hw} {l m : List PWrite} (h : HostWrote p t strict a b l)
    (k : HostWrote p t strict b c m) : HostWrote p t strict a c (l ++ m) where
  part := by rw [k.part, h.part]; simp
  others q hq := (k.others q hq).trans (h.others q hq)
  gangs := k.gangs.trans h.gangs
  ops := k.ops.trans h.ops
  launches := k.launches.trans h.launches
  grows := ⟨h.grows.1.trans k.grows.1, h.grows.2.trans k.grows.2⟩
  each w hw := by
    rcases List.mem_append.1 hw with hw | hw
    · obtain ⟨time, all, strict⟩ := h.each w hw
      exact ⟨time, all.trans k.grows.1, fun st => ⟨(strict st).1, (strict st).2.trans k.grows.2⟩⟩
    · obtain ⟨time, all, strict⟩ := k.each w hw
      exact ⟨time, all, fun st => ⟨h.grows.1.trans (strict st).1, (strict st).2⟩⟩
  waits w hw b := by
    rcases List.mem_append.1 hw with hw | hw
    · exact h.waits w hw b
    · rw [← lineHeld_congr h.ops h.launches]
      exact k.waits w hw b

/-- One piece of a host write takes its W. -/
def hostPiece (p t : Nat) (strict : Bool) (h : Hw) (x : Nat × List Byte) : Hw :=
  let r := putHost h p (if strict then Nat.max t ((h.part p).hostAll - 2) else t) x.1 x.2
  r.2.setPart p fun q => { q with hostW := (if strict then Nat.max q.hostW r.1 else q.hostW), hostAll := Nat.max q.hostAll r.1 }

theorem outsideWrite_host (hw : Hw) (p t a : Nat) (bs : List Byte) (strict : Bool) :
    outsideWrite hw p t a bs strict true = (linePieces (bs.length / 128 + 2) a bs).foldl (hostPiece p t strict) hw := rfl

theorem hostPiece_wrote (p t : Nat) (strict : Bool) (h : Hw) (x : Nat × List Byte) :
    ∃ w : PWrite, HostWrote p t strict h (hostPiece p t strict h x) [w] ∧ w.addr = x.1 ∧ w.bytes = x.2 := by
  let t' := if strict then Nat.max t ((h.part p).hostAll - 2) else t
  let W := assignW (h.part p) (orderUnit x.1) t'
  let w : PWrite := { w := W, addr := x.1, bytes := x.2, blocked := lineHeld h p (lineOf x.1) 0 }
  have part : (hostPiece p t strict h x).part p = { h.part p with
      pend := (h.part p).pend ++ [w]
      hostW := if strict then Nat.max (h.part p).hostW W else (h.part p).hostW
      hostAll := Nat.max (h.part p).hostAll W } := by
    simp only [hostPiece, putHost, Hw.part_setPart_same, w, W, t']
  have late : t' + 2 ≤ W := (assignW_spec ..).1
  have time : t ≤ t' := by
    simp only [t']
    split
    · exact Nat.le_max_left ..
    · exact Nat.le_refl t
  refine ⟨w, ⟨by rw [part], fun q hq => ?_, rfl, rfl, rfl, ?_, ?_, ?_⟩, rfl, rfl⟩
  · simp only [hostPiece, putHost, Hw.part_setPart_other hq]
  · rw [part]
    refine ⟨Nat.le_max_left .., ?_⟩
    dsimp only
    split
    · exact Nat.le_max_left ..
    · exact Nat.le_refl _
  · rw [part]
    refine List.forall_mem_singleton.2 ⟨(Nat.add_le_add_right time 2).trans late, Nat.le_max_right .., fun st => ⟨?_, ?_⟩⟩
    · have past : (h.part p).hostAll - 2 ≤ t' := by
        simp only [t', st, if_true]
        exact Nat.le_max_right ..
      show (h.part p).hostAll ≤ W
      omega
    · simp only [st, if_true]
      exact Nat.le_max_right ..
  · exact List.forall_mem_singleton.2 id

theorem hostPieces_wrote (p t : Nat) (strict : Bool) (xs : List (Nat × List Byte)) (h : Hw) :
    ∃ l, HostWrote p t strict h (xs.foldl (hostPiece p t strict) h) l ∧ l.map (fun w => (w.addr, w.bytes)) = xs := by
  induction xs generalizing h with
  | nil => exact ⟨[], .refl .., rfl⟩
  | cons x xs ih =>
    obtain ⟨w, wrote, addr, bytes⟩ := hostPiece_wrote p t strict h x
    obtain ⟨l, rest, pieces⟩ := ih (hostPiece p t strict h x)
    exact ⟨w :: l, wrote.trans rest, by simp [addr, bytes, pieces]⟩

/-- The byte at y after pieces xs, over b. -/
def piecesByte (y : Nat) (xs : List (Nat × List Byte)) (b : Byte) : Byte :=
  xs.foldl (fun b x => (if x.1 ≤ y then x.2[y - x.1]? else none).getD b) b

theorem foldl_byte (y : Nat) (l : List PWrite) (b : Byte) :
    l.foldl (fun b w => (w.byte y).getD b) b = piecesByte y (l.map fun w => (w.addr, w.bytes)) b := by
  rw [piecesByte, List.foldl_map]
  rfl

/-- A byte string after which its pieces hold the same bytes (R261). -/
theorem piecesByte_linePieces (y k a : Nat) (bs : List Byte) (b : Byte) (fuel : bs.length + a % 128 ≤ 128 * k) :
    piecesByte y (linePieces k a bs) b = if a ≤ y ∧ y < a + bs.length then bs.getD (y - a) 0 else b := by
  induction k generalizing a bs b with
  | zero =>
    have none : bs = [] := List.eq_nil_of_length_eq_zero (by omega)
    subst none
    exact (if_neg (by simp)).symm
  | succ k ih =>
    cases bs with
    | nil => exact (if_neg (by simp)).symm
    | cons c cs =>
      generalize hbs : c :: cs = bs at fuel
      have some_bs : bs.isEmpty = false := by rw [← hbs]; rfl
      rw [linePieces, some_bs]
      simp only [Bool.false_eq_true, if_false]
      generalize hn : 128 - a % 128 = n
      rw [piecesByte, List.foldl_cons, ← piecesByte, ih (a + n) _ _ (by rw [List.length_drop]; omega), List.length_drop]
      by_cases low : y < a
      · rw [if_neg (by omega), if_neg (by omega), if_neg (by omega)]
        rfl
      by_cases here : y < a + n
      · rw [if_neg (by omega), if_pos (by omega), List.getElem?_take_of_lt (by omega)]
        by_cases inside : y < a + bs.length
        · rw [if_pos ⟨by omega, inside⟩, List.getD_eq_getElem?_getD, List.getElem?_eq_getElem (by omega)]
          rfl
        · rw [if_neg (by omega), List.getElem?_eq_none (by omega)]
          rfl
      · by_cases inside : y < a + bs.length
        · rw [if_pos (by omega), if_pos (by omega), List.getD_eq_getElem?_getD, List.getD_eq_getElem?_getD, List.getElem?_drop]
          congr 2
          omega
        · have beyond : (bs.take n)[y - a]? = none := List.getElem?_eq_none (by rw [List.length_take]; omega)
          rw [if_neg (by omega), beyond, ite_self, if_neg (by omega)]
          rfl

/-- A host write to device memory: its bytes follow all that is pending, and other partitions stay as they were (R261). -/
theorem outsideWrite_wrote (hw : Hw) (p t a : Nat) (bs : List Byte) (strict : Bool) :
    ∃ l, HostWrote p t strict hw (outsideWrite hw p t a bs strict true) l ∧ ∀ m y,
      latestByte m ((outsideWrite hw p t a bs strict true).part p).pend p y =
        if a ≤ y ∧ y < a + bs.length then bs.getD (y - a) 0 else latestByte m (hw.part p).pend p y := by
  rw [outsideWrite_host]
  obtain ⟨l, wrote, pieces⟩ := hostPieces_wrote p t strict (linePieces (bs.length / 128 + 2) a bs) hw
  refine ⟨l, wrote, fun m y => ?_⟩
  rw [wrote.part, latestByte, List.foldl_append, foldl_byte y l, pieces, piecesByte_linePieces y _ a bs _ (by omega)]
  rfl

theorem hostWrites {fn addr : Nat} {data : List Byte} {cxl ro : Bool} {s : State} (present : (s.hw.part fn).present = true)
    (active : (s.hw.part fn).link.active = true) (inside : addr + data.length ≤ partBytes s.hw fn)
    (coherent : cxl = true → (s.hw.part fn).link.cxl = true) :
    ∃ t, exec (.hostWrite fn addr data cxl ro) s = .next t ∧ t.mem = s.mem ∧ t.time = s.time ∧ t.hw.gangs = s.hw.gangs ∧
      (∀ p, p ≠ fn → t.hw.part p = s.hw.part p) ∧
      (∀ a, latestByte t.mem (t.hw.part fn).pend fn a =
        if addr ≤ a ∧ a < addr + data.length then data.getD (a - addr) 0 else latestByte s.mem (s.hw.part fn).pend fn a) ∧
      ∃ l, (t.hw.part fn).pend = (s.hw.part fn).pend ++ l ∧ ∀ p ∈ l, s.time + 2 ≤ p.w ∧
        p.w ≤ (t.hw.part fn).hostAll ∧
        (ro = false ∨ cxl = true → (s.hw.part fn).hostAll ≤ p.w ∧ p.w ≤ (t.hw.part fn).hostW) := by
  have way : (!cxl || (s.hw.part fn).link.cxl) = true := by
    cases cxl with
    | false => rfl
    | true => rw [coherent rfl]; rfl
  obtain ⟨l, wrote, latest⟩ := outsideWrite_wrote s.hw fn s.time addr data (!ro || cxl)
  refine ⟨s.with (outsideWrite s.hw fn s.time addr data (!ro || cxl) true), ?_, rfl, rfl, wrote.gangs, wrote.others, latest s.mem, l, ?_,
    fun p hp => ?_⟩
  · simp only [exec, execHostWrite, present, active, inside, way, decide_true, Bool.and_self, if_true]
  · exact congrArg (·.pend) wrote.part
  · obtain ⟨time, all, strict⟩ := wrote.each p hp
    exact ⟨time, all, fun h => strict (by simpa using h)⟩

end Sys2Proof.Machine
end

section
/-! SUPPORT. What the host reads of device memory, what it gives back of the lines it holds, and the writes that waited for them
(13_consistency R248, R261; 19_links R365). -/

namespace Sys2Proof.Machine

open Sys2Proof

/-! ## Reads of the host -/

/-- The lines that n bytes at an address take in. -/
def linesOf (addr n : Nat) : List Nat :=
  (List.range (n / 128 + 2)).filterMap fun i => if (lineOf addr + i) * 128 < addr + n then some (lineOf addr + i) else none

theorem mem_linesOf {addr n a : Nat} (low : addr ≤ a) (high : a < addr + n) : lineOf a ∈ linesOf addr n := by
  have here : lineOf addr + (lineOf a - lineOf addr) = lineOf a := by unfold lineOf; omega
  refine List.mem_filterMap.2 ⟨lineOf a - lineOf addr, List.mem_range.2 (by unfold lineOf; omega), ?_⟩
  rw [here, if_pos (by unfold lineOf; omega)]

section
variable {fn addr len : Nat} {s : State} (present : (s.hw.part fn).present = true) (active : (s.hw.part fn).link.active = true)
  (inside : addr + len ≤ partBytes s.hw fn) (past : (s.hw.part fn).hostAll ≤ s.time)
include present active inside past

/-- A host read is answered with the bytes that every observer sees (13_consistency R261). -/
theorem exec_hostRead {cxl : Bool} (coherent : cxl = true → (s.hw.part fn).link.cxl = true) : exec (.hostRead fn addr len cxl false) s =
    .next (s.with ((s.hw.send 3 fn (addr :: (rdBytes s.mem fn addr len).map (·.toNat))).setPart fn fun q => { q with link := { q.link with
      hostLines := q.link.hostLines ++ (if cxl then linesOf addr len else []).filter fun l => !q.link.hostLines.contains l } })) := by
  have way : (!cxl || (s.hw.part fn).link.cxl) = true := by
    cases cxl with
    | false => rfl
    | true => rw [coherent rfl]; rfl
  simp only [exec, execHostRead, Bool.not_false, if_true, readMemory, present, active, inside, past, way, decide_true, Bool.and_self]
  rfl

theorem hostReads : ∃ t, exec (.hostRead fn addr len false false) s = .next t ∧ t.mem = s.mem ∧ t.hw.gangs = s.hw.gangs ∧
    t.hw.sent = s.hw.sent ++ [⟨3, fn, addr :: (rdBytes s.mem fn addr len).map (·.toNat)⟩] :=
  ⟨_, exec_hostRead present active inside past (by simp), rfl, rfl, rfl⟩

/-- What the host reads through CXL.mem it holds (19_links R365). -/
theorem hostReadsLines (cxl : (s.hw.part fn).link.cxl = true) : ∃ t, exec (.hostRead fn addr len true false) s = .next t ∧ t.mem = s.mem ∧
    t.hw.sent = s.hw.sent ++ [⟨3, fn, addr :: (rdBytes s.mem fn addr len).map (·.toNat)⟩] ∧
    (∀ a, addr ≤ a → a < addr + len → lineOf a ∈ (t.hw.part fn).link.hostLines) ∧
    (∀ l, l ∈ (s.hw.part fn).link.hostLines → l ∈ (t.hw.part fn).link.hostLines) := by
  refine ⟨_, exec_hostRead present active inside past fun _ => cxl, rfl, rfl, fun a low high => ?_, fun l hl => ?_⟩
  · simp only [State.with, Hw.part_setPart_same, if_true, List.mem_append, List.mem_filter]
    by_cases held : lineOf a ∈ (s.hw.part fn).link.hostLines
    · exact .inl held
    · exact .inr ⟨mem_linesOf low high, by simpa using held⟩
  · simp only [State.with, Hw.part_setPart_same, List.mem_append]
    exact .inl hl

end

/-! ## Writes that waited for their lines -/

/-- One waiting write, as unblock takes it. -/
def unblockOne (p t : Nat) (h : Hw) (w : PWrite) : Hw :=
  if lineBlocked h p w.addr || ((h.part p).pend.takeWhile (· != w)).any (fun x => x.blocked && (w.last || orderUnit x.addr == orderUnit w.addr)) then h
  else h.setPart p fun q => { q with pend := q.pend.erase w ++ [{ w with
    blocked := false, last := false, w := assignW (h.part p) (orderUnit w.addr) (if w.last then lastPend h p t else t) }] }

theorem unblock_eq (hw : Hw) (p t : Nat) : unblock hw p t = ((hw.part p).pend.filter (·.blocked)).foldl (unblockOne p t) hw := rfl

theorem lastPend_ge (hw : Hw) (p t : Nat) : t ≤ lastPend hw p t := by
  have h := (foldl_max_spec ((hw.part p).pend.map (·.w)) t).1
  rwa [List.foldl_map] at h

/-- A write pending after unblock was pending, or is one that waited, with a W of its own (R248). -/
theorem mem_unblockOne {p t : Nat} {h : Hw} {w w' : PWrite} (hw' : w' ∈ ((unblockOne p t h w).part p).pend) :
    w' ∈ (h.part p).pend ∨ t + 2 ≤ w'.w ∧ w'.blocked = false ∧ w'.full = w.full ∧ w'.addr = w.addr ∧ w'.bytes = w.bytes := by
  unfold unblockOne at hw'
  split at hw'
  · exact .inl hw'
  · rw [Hw.part_setPart_same] at hw'
    rcases List.mem_append.1 hw' with old | new
    · exact .inl (List.mem_of_mem_erase old)
    · obtain rfl := List.mem_singleton.1 new
      refine .inr ⟨?_, rfl, rfl, rfl, rfl⟩
      refine Nat.le_trans ?_ (assignW_spec ..).1
      split
      · exact Nat.add_le_add_right (lastPend_ge ..) 2
      · exact Nat.le_refl _

theorem mem_foldl_unblockOne {p t : Nat} {ws : List PWrite} {h : Hw} {w' : PWrite} (hw' : w' ∈ ((ws.foldl (unblockOne p t) h).part p).pend) :
    w' ∈ (h.part p).pend ∨ ∃ w ∈ ws, t + 2 ≤ w'.w ∧ w'.blocked = false ∧ w'.full = w.full ∧ w'.addr = w.addr ∧ w'.bytes = w.bytes := by
  induction ws generalizing h with
  | nil => exact .inl hw'
  | cons w ws ih =>
    rcases ih hw' with first | ⟨v, hv, is⟩
    · exact (mem_unblockOne first).imp_right fun is => ⟨w, List.mem_cons_self, is⟩
    · exact .inr ⟨v, List.mem_cons_of_mem _ hv, is⟩

theorem mem_unblock {hw : Hw} {p t : Nat} {w' : PWrite} (hw' : w' ∈ ((unblock hw p t).part p).pend) : w' ∈ (hw.part p).pend ∨
    ∃ w ∈ (hw.part p).pend, w.blocked = true ∧ t + 2 ≤ w'.w ∧ w'.blocked = false ∧ w'.full = w.full ∧ w'.addr = w.addr ∧ w'.bytes = w.bytes := by
  rw [unblock_eq] at hw'
  refine (mem_foldl_unblockOne hw').imp_right ?_
  rintro ⟨w, hw, is⟩
  obtain ⟨mem, blocked⟩ := List.mem_filter.1 hw
  exact ⟨w, mem, blocked, is⟩

/-- Where every waiting write's line stays blocked, none gets its W. -/
theorem unblock_blocked {hw : Hw} {p : Nat} (h : ∀ w ∈ (hw.part p).pend, w.blocked = true → lineBlocked hw p w.addr = true) (t : Nat) :
    unblock hw p t = hw := by
  rw [unblock_eq]
  have each : ∀ w ∈ (hw.part p).pend.filter (·.blocked), lineBlocked hw p w.addr = true := fun w hw =>
    h w (List.mem_filter.1 hw).1 (List.mem_filter.1 hw).2
  revert each
  induction (hw.part p).pend.filter (·.blocked) with
  | nil => exact fun _ => rfl
  | cons w ws ih =>
    intro each
    rw [List.foldl_cons, unblockOne, each w List.mem_cons_self]
    exact ih fun v hv => each v (List.mem_cons_of_mem _ hv)

/-! ## Lines that the host gives back -/

/-- Elements that are not selected stay, and so does the machine. -/
theorem mapInOrder_none {atomic : Bool} {sel : Elem → Bool} {f : Hw → Elem → Elem × Hw} {es : List Elem} (h : ∀ e ∈ es, sel e = false)
    (before : List Elem) (hw : Hw) : mapInOrder atomic sel f before hw es = (es, hw) := by
  induction es generalizing before with
  | nil => rfl
  | cons e es ih =>
    simp only [mapInOrder, h e List.mem_cons_self, Bool.false_and, Bool.false_eq_true, if_false, ih fun x hx => h x (List.mem_cons_of_mem _ hx)]

/-- No partial of partition fn is held for its rank (14_atomics R276). -/
def NoneHeld (fn : Nat) (ops : List Op) : Prop := ∀ o ∈ ops, o.part = fn → ∀ x a b c, o.kind ≠ .partialSum x a b c true

theorem combineLines_none {fn : Nat} {hw : Hw} (h : NoneHeld fn hw.ops) (m : Tab Memory) (t : Nat) : combineLines m t fn hw = hw := by
  have none : (hw.ops.filterMap fun o => match o.kind with
      | .partialSum e _ _ _ true => if o.part = fn then some (lineOf e.tgt.pa) else none
      | _ => none) = [] := by
    refine List.filterMap_eq_nil_iff.2 fun o ho => ?_
    split
    case h_1 e a b c hk => exact if_neg fun hp => h o ho hp e a b c hk
    case h_2 => rfl
  rw [combineLines]
  erw [none]
  rfl

/-- Other elements make no partial held. -/
theorem withElems_held {k : OpKind} {es : List Elem} (h : ∀ x a b c, k ≠ .partialSum x a b c true) (x : Elem) (a : Nat) (b : Ty) (c : Option Nat) :
    k.withElems es ≠ .partialSum x a b c true := by
  cases k with
  | partialSum e op ty rank held =>
    intro eq
    simp only [OpKind.withElems, OpKind.partialSum.injEq] at eq
    exact h e op ty rank (by rw [eq.2.2.2.2])
  | _ => simp [OpKind.withElems]

/-- The operations of partition fn that wait for a line perform their elements for it (19_links R365). -/
def lineBack (m : Tab Memory) (t fn line : Nat) (h : Hw) (o : Op) : Hw :=
  if o.part = fn then
    let r := mapInOrder o.kind.isAtomic (fun e => e.st == 4 && lineOf e.tgt.pa == line)
      (fun hw e => arriveDevice m t o hw { e with st := 0 }) [] h o.kind.elems
    r.2.setOp o.id fun x => { x with kind := x.kind.withElems r.1 }
  else h

/-- Operations none of which waits for a line of the host go on as they are. -/
theorem foldl_lineBack {m : Tab Memory} {t fn line : Nat} {os : List Op} (none : ∀ o ∈ os, o.part = fn → ∀ x ∈ o.kind.elems, x.st ≠ 4) {h : Hw}
    (held : NoneHeld fn h.ops) : ∃ ops, os.foldl (lineBack m t fn line) h = { h with ops := ops } ∧ NoneHeld fn ops := by
  induction os generalizing h with
  | nil => exact ⟨h.ops, rfl, held⟩
  | cons o os ih =>
    have rest := fun x hx => none x (List.mem_cons_of_mem _ hx)
    rw [List.foldl_cons]
    by_cases hp : o.part = fn
    · have idle : ∀ e ∈ o.kind.elems, (e.st == 4 && lineOf e.tgt.pa == line) = false := fun e he => by
        simp [none o List.mem_cons_self hp e he]
      have one : lineBack m t fn line h o = h.setOp o.id fun x => { x with kind := x.kind.withElems o.kind.elems } := by
        simp only [lineBack, hp, if_true, mapInOrder_none idle]
      have held' : NoneHeld fn (h.setOp o.id fun x => { x with kind := x.kind.withElems o.kind.elems }).ops := by
        intro y hy hyp
        obtain ⟨z, hz, rfl⟩ := List.mem_map.1 hy
        by_cases same : z.id = o.id
        · rw [if_pos same] at hyp ⊢
          exact withElems_held (held z hz hyp)
        · rw [if_neg same] at hyp ⊢
          exact held z hz hyp
      rw [one]
      obtain ⟨ops, eq, hops⟩ := ih rest held'
      exact ⟨ops, eq, hops⟩
    · rw [lineBack, if_neg hp]
      exact ih rest held

/-- The machine in which the host has given a line back. -/
def lineReturned (s : State) (fn line : Nat) : Hw :=
  s.hw.setPart fn fun q => { q with link := { q.link with hostLines := q.link.hostLines.filter fun l => l != line } }

theorem exec_backInvalidateResponse {fn line : Nat} {data : List Byte} {s : State} (holds : line ∈ (s.hw.part fn).link.hostLines)
    (len : data.length ≤ 128) : exec (.backInvalidateResponse fn line data) s =
    let h1 := unblock (if data.isEmpty then lineReturned s fn line else
      outsideWrite (lineReturned s fn line) fn s.time (128 * line) data true true) fn s.time
    .next (s.with (combineLines s.mem s.time fn (h1.ops.foldl (lineBack s.mem s.time fn line) h1))) := by
  have has : (s.hw.part fn).link.hostLines.contains line = true := by simpa using holds
  simp only [exec, execBackInvalidateResponse, has, len, decide_true, Bool.and_self, if_true]
  rfl

/-- A line comes back from the host with what the host has changed (19_links R365). -/
theorem lineGivenBack {fn line : Nat} {data : List Byte} {s : State} (holds : line ∈ (s.hw.part fn).link.hostLines) (len : data.length ≤ 128)
    (idle : ∀ o ∈ s.hw.ops, o.part = fn → ∀ x ∈ o.kind.elems, x.st ≠ 4) (sure : ∀ w ∈ (s.hw.part fn).pend, w.blocked = false)
    (unheld : NoneHeld fn s.hw.ops) :
    ∃ t, exec (.backInvalidateResponse fn line data) s = .next t ∧ t.mem = s.mem ∧ line ∉ (t.hw.part fn).link.hostLines ∧
      (∀ l, l ≠ line → (l ∈ (t.hw.part fn).link.hostLines ↔ l ∈ (s.hw.part fn).link.hostLines)) ∧
      ∀ a, latestByte t.mem (t.hw.part fn).pend fn a =
        if 128 * line ≤ a ∧ a < 128 * line + data.length then data.getD (a - 128 * line) 0
        else latestByte s.mem (s.hw.part fn).pend fn a := by
  obtain ⟨h1, l, wrote, latest, back⟩ : ∃ h1 l, HostWrote fn s.time true (lineReturned s fn line) h1 l ∧
      (∀ m y, latestByte m (h1.part fn).pend fn y = if 128 * line ≤ y ∧ y < 128 * line + data.length then data.getD (y - 128 * line) 0
        else latestByte m ((lineReturned s fn line).part fn).pend fn y) ∧
      (if data.isEmpty then lineReturned s fn line else outsideWrite (lineReturned s fn line) fn s.time (128 * line) data true true) = h1 := by
    cases data with
    | nil => exact ⟨_, [], .refl .., fun m y => (if_neg (by simp)).symm, rfl⟩
    | cons b bs =>
      obtain ⟨l, wrote, latest⟩ := outsideWrite_wrote (lineReturned s fn line) fn s.time (128 * line) (b :: bs) true
      exact ⟨_, l, wrote, latest, rfl⟩
  have part0 : (lineReturned s fn line).part fn = { s.hw.part fn with link := { (s.hw.part fn).link with
      hostLines := (s.hw.part fn).link.hostLines.filter fun l => l != line } } := Hw.part_setPart_same ..
  have blocked : ∀ w ∈ (h1.part fn).pend, w.blocked = true → lineBlocked h1 fn w.addr = true := by
    intro w hw waits
    rw [wrote.part, part0] at hw
    rcases List.mem_append.1 hw with old | new
    · exact absurd waits (by rw [sure w old]; decide)
    · rw [lineBlocked, lineHeld_congr wrote.ops wrote.launches, wrote.waits w new waits, Bool.or_true]
  have ops1 : h1.ops = s.hw.ops := wrote.ops
  obtain ⟨ops, performed, none⟩ := foldl_lineBack (m := s.mem) (t := s.time) (line := line) (ops1 ▸ idle) (h := h1) (ops1 ▸ unheld)
  have run := exec_backInvalidateResponse holds len
  simp only [back, unblock_blocked blocked, performed] at run
  rw [combineLines_none none] at run
  have lines : (h1.part fn).link.hostLines = (s.hw.part fn).link.hostLines.filter fun l => l != line := by rw [wrote.part, part0]
  refine ⟨_, run, rfl, ?_, fun k hk => ?_, fun a => (latest s.mem a).trans (by rw [part0])⟩
  · show line ∉ (h1.part fn).link.hostLines
    simp [lines]
  · show k ∈ (h1.part fn).link.hostLines ↔ _
    simp [lines, hk]

/-- Settles O21: a W lies past all that its line has given; the machine after a write, a return or a host's access is the one before it with
the pending writes that this brings. -/
theorem writeOrder : Obligations.WriteOrder := by
  refine ⟨assignW_spec, fun id sel s o x n ho hk lane fresh device ready home free off => storeArrives ho hk lane fresh device ready home free off,
    fun id s o es n g ho hk chain back hg => storeReturns ho hk chain back hg,
    fun fn addr data cxl ro s present active inside coherent => hostWrites present active inside coherent,
    fun fn addr len s present active inside past => hostReads present active inside past,
    fun fn addr len s present active inside past cxl => hostReadsLines present active inside past cxl,
    fun fn line data s holds len idle sure unheld => lineGivenBack holds len idle sure unheld, fun hw p t w' hw' => ?_⟩
  refine (mem_unblock hw').imp_right ?_
  rintro ⟨w, mem, blocked, late, own, -, addr, bytes⟩
  exact ⟨late, own, w, mem, blocked, addr, bytes⟩

end Sys2Proof.Machine
end

section
/-! SUPPORT. Time passes: in each partition exactly the writes whose W has come become visible, and no other partition's memory or pending
writes change (13_consistency R249). -/

namespace Sys2Proof.Machine

open Sys2Proof

/-! ## What the writes of one partition leave of the others -/

/-- Machine b is machine a but for what writes of partition p that become visible change: the partition's pending writes and what fetches
have seen, and gangs; contexts, operations and launches stay. -/
structure LandsIn (p : Nat) (a b : Hw) : Prop where
  ops : b.ops = a.ops
  launches : b.launches = a.launches
  others : ∀ q, q ≠ p → b.part q = a.part q
  contexts : (b.part p).contexts = (a.part p).contexts
  link : (b.part p).link = (a.part p).link

theorem LandsIn.refl (p : Nat) (a : Hw) : LandsIn p a a := ⟨rfl, rfl, fun _ _ => rfl, rfl, rfl⟩
theorem LandsIn.trans {p : Nat} {a b c : Hw} (h : LandsIn p a b) (k : LandsIn p b c) : LandsIn p a c :=
  ⟨k.ops.trans h.ops, k.launches.trans h.launches, fun q hq => (k.others q hq).trans (h.others q hq), k.contexts.trans h.contexts,
    k.link.trans h.link⟩
/-- The contexts of every partition stay. -/
theorem LandsIn.ctx {p : Nat} {a b : Hw} (h : LandsIn p a b) (q c : Nat) : b.ctx q c = a.ctx q c := by
  by_cases hq : q = p
  · rw [hq, Hw.ctx, h.contexts]; rfl
  · rw [Hw.ctx, h.others q hq]; rfl

theorem landsIn_setPart (p : Nat) (hw : Hw) {f : Part → Part} (hc : ∀ q, (f q).contexts = q.contexts) (hl : ∀ q, (f q).link = q.link) :
    LandsIn p hw (hw.setPart p f) :=
  ⟨rfl, rfl, fun _ hq => Hw.part_setPart_other hq f, by rw [Hw.part_setPart_same, hc], by rw [Hw.part_setPart_same, hl]⟩

/-- Machine b is machine a but for gangs and open choices. -/
def GangsOnly (a b : Hw) : Prop := b = { a with gangs := b.gangs, free := b.free }

theorem GangsOnly.refl (a : Hw) : GangsOnly a a := rfl
theorem GangsOnly.trans {a b c : Hw} (h : GangsOnly a b) (k : GangsOnly b c) : GangsOnly a c := by
  unfold GangsOnly at *
  rw [k, h]
theorem GangsOnly.foldl {α : Type} {f : Hw → α → Hw} (hf : ∀ h x, GangsOnly h (f h x)) (l : List α) (hw : Hw) : GangsOnly hw (l.foldl f hw) := by
  induction l generalizing hw with
  | nil => rfl
  | cons x l ih => exact (hf hw x).trans (ih _)
theorem GangsOnly.lands {a b : Hw} (h : GangsOnly a b) (p : Nat) : LandsIn p a b := by
  unfold GangsOnly at h
  rw [h]
  exact ⟨rfl, rfl, fun _ _ => rfl, rfl, rfl⟩
theorem GangsOnly.part {a b : Hw} (h : GangsOnly a b) (p : Nat) : b.part p = a.part p := by
  unfold GangsOnly at h
  rw [h]
  rfl

theorem gangsOnly_storeSlot (w : PWrite) (core ctx : Nat) (hw : Hw) (x : Nat × Nat) : GangsOnly hw (storeSlot w core ctx hw x) := by
  unfold storeSlot
  dsimp only
  split
  · rfl
  split
  · split <;> rfl
  · refine .foldl (fun h i => ?_) _ hw
    split
    · rfl
    · split <;> rfl

theorem gangsOnly_storeSlots (p : Nat) (w : PWrite) (hw : Hw) : GangsOnly hw (storeSlots p w hw) := by
  unfold storeSlots
  split
  · rfl
  · refine .foldl (fun h i => ?_) _ hw
    split
    · rfl
    · exact .foldl (fun h x => gangsOnly_storeSlot ..) _ h

theorem gangsOnly_wakeCounter (m : Tab Memory) (p : Nat) (hw : Hw) (sel : Nat → Bool) : GangsOnly hw (wakeCounter m p hw sel) := rfl

/-! ## Writes that land -/

/-- No context has a Tail. -/
def TailsOff (hw : Hw) : Prop := ∀ p c cx, hw.ctx p c = some cx → cx.tail.en = false

theorem TailsOff.of_lands {p : Nat} {a b : Hw} (off : TailsOff a) (h : LandsIn p a b) : TailsOff b :=
  fun q c cx hcx => off q c cx (by rw [← h.ctx]; exact hcx)

theorem recordLine_off {hw : Hw} (off : TailsOff hw) (m : Tab Memory) (p : Nat) (w : PWrite) : recordLine hw m p w = hw := by
  unfold recordLine
  split
  · rfl
  · split
    · rfl
    · next _ cx hcx => simp [off p _ cx hcx]

theorem landFull_off {hw : Hw} (off : TailsOff hw) (p : Nat) (w : PWrite) : landFull hw p w = none := by
  unfold landFull
  split
  · rfl
  · split
    · rfl
    · next _ cx hcx => simp [off p _ cx hcx]

theorem keepWords_lands (m m' : Tab Memory) (p : Nat) (w : PWrite) (hw : Hw) :
    LandsIn p hw (keepWords m m' p w hw) ∧ ((keepWords m m' p w hw).part p).pend = (hw.part p).pend :=
  ⟨landsIn_setPart p hw (fun _ => rfl) fun _ => rfl, by rw [keepWords, Hw.part_setPart_same]⟩

theorem landWrite_lands {p : Nat} {x : Tab Memory × Hw} (off : TailsOff x.2) (w : PWrite) :
    LandsIn p x.2 (landWrite p x w).2 ∧ ((landWrite p x w).2.part p).pend = (x.2.part p).pend := by
  simp only [landWrite, recordLine_off off]
  generalize x.1.put [] p (storeBytes (memOf x.1 p) w.addr w.bytes) = m
  obtain ⟨kept, pend⟩ := keepWords_lands x.1 m p w (wakeCounters m p w x.2)
  have slots := gangsOnly_storeSlots p w (keepWords x.1 m p w (wakeCounters m p w x.2))
  refine ⟨((gangsOnly_wakeCounter ..).lands p).trans (kept.trans (slots.lands p)), ?_⟩
  rw [slots.part, pend]
  rfl

theorem landWrite_byte (p : Nat) (x : Tab Memory × Hw) (w : PWrite) (q a : Nat) :
    rdByte (landWrite p x w).1 q a = if q = p then (w.byte a).getD (rdByte x.1 q a) else rdByte x.1 q a := by
  rw [show (landWrite p x w).1 = x.1.put [] p (storeBytes (memOf x.1 p) w.addr w.bytes) from rfl, rdByte_store, PWrite.byte]
  by_cases hq : q = p
  · by_cases low : w.addr ≤ a
    · by_cases high : a < w.addr + w.bytes.length
      · rw [if_pos ⟨hq, low, high⟩, if_pos hq, if_pos low, List.getElem?_eq_getElem (by omega), List.getD_eq_getElem?_getD,
          List.getElem?_eq_getElem (by omega)]
        rfl
      · rw [if_neg (fun h => high h.2.2), if_pos hq, if_pos low, List.getElem?_eq_none (by omega)]
        rfl
    · rw [if_neg (fun h => low h.2.1), if_pos hq, if_neg low]
      rfl
  · rw [if_neg (fun h => hq h.1), if_neg hq]

/-! ## A partition's writes that are due -/

/-- Whether the W of a write has come at time t. -/
def PWrite.due (t : Nat) (w : PWrite) : Bool := decide (w.w ≤ t) && !w.blocked

/-- One write whose W has come, as settlePart takes it. -/
def landDue (t p : Nat) (x : Tab Memory × Hw) (w : PWrite) : Tab Memory × Hw :=
  let stay (h : Hw) : Hw := h.setPart p fun q => { q with pend := q.pend ++ [{ w with w := t + 1, full := true }] }
  if (x.2.part p).pend.any fun y => y.full && orderUnit y.addr == orderUnit w.addr then (x.1, stay x.2)
  else match landFull x.2 p w with
    | none => landWrite p x w
    | some c =>
      let a := landPolicy x.2 x.1 t p c w
      if a.1 then landWrite p (x.1, a.2) w else (x.1, stay a.2)

/-- The machine of a partition once its due writes are taken out. -/
def dueTaken (t p : Nat) (h : Hw) : Hw := h.setPart p fun q => { q with pend := q.pend.filter fun w => !w.due t }

theorem settlePart_eq (t p : Nat) (m : Tab Memory) (hw : Hw) : settlePart t p m hw =
    let h0 := unblock hw p t
    let due := (h0.part p).pend.filter (PWrite.due t)
    let r := if due.isEmpty then (m, h0) else due.foldl (landDue t p) (m, dueTaken t p h0)
    (r.1, if anyGwait r.2 p then wakeCounter r.1 p r.2 fun _ => true else r.2) := rfl

/-- Without Tails every due write lands, one after another (13_consistency R249). -/
theorem foldl_landDue (t p : Nat) (ws : List PWrite) {x : Tab Memory × Hw} (off : TailsOff x.2) (none : ∀ w ∈ (x.2.part p).pend, w.full = false) :
    LandsIn p x.2 (ws.foldl (landDue t p) x).2 ∧ ∀ q a, rdByte (ws.foldl (landDue t p) x).1 q a =
      if q = p then ws.foldl (fun b w => (w.byte a).getD b) (rdByte x.1 q a) else rdByte x.1 q a := by
  induction ws generalizing x with
  | nil => exact ⟨.refl .., fun q a => (ite_self _).symm⟩
  | cons w ws ih =>
    have room : ((x.2.part p).pend.any fun y => y.full && orderUnit y.addr == orderUnit w.addr) = false :=
      List.any_eq_false.2 fun y hy => by simp [none y hy]
    have one : landDue t p x w = landWrite p x w := by
      simp only [landDue, room, Bool.false_eq_true, if_false, landFull_off off]
    obtain ⟨lands, pend⟩ := landWrite_lands off w
    obtain ⟨rest, bytes⟩ := ih (x := landWrite p x w) (off.of_lands lands) (by rw [pend]; exact none)
    rw [List.foldl_cons, one]
    refine ⟨lands.trans rest, fun q a => ?_⟩
    rw [bytes, landWrite_byte]
    by_cases hq : q = p
    · simp only [if_pos hq, List.foldl_cons]
    · simp only [if_neg hq]

/-! ## Writes that waited for their lines -/

theorem unblockOne_lands (p t : Nat) (h : Hw) (w : PWrite) : LandsIn p h (unblockOne p t h w) := by
  unfold unblockOne
  split
  · exact .refl ..
  · exact landsIn_setPart p h (fun _ => rfl) fun _ => rfl

theorem foldl_unblockOne_lands (p t : Nat) (ws : List PWrite) (h : Hw) : LandsIn p h (ws.foldl (unblockOne p t) h) := by
  induction ws generalizing h with
  | nil => exact .refl ..
  | cons w ws ih => exact (unblockOne_lands ..).trans (ih _)

theorem unblock_lands (hw : Hw) (p t : Nat) : LandsIn p hw (unblock hw p t) := foldl_unblockOne_lands ..

/-- Which writes get a W depends on the partition, and on what Tails hold. -/
theorem unblockOne_congr {p t : Nat} {a b : Hw} (part : b.part p = a.part p) (ops : b.ops = a.ops) (launches : b.launches = a.launches) (w : PWrite) :
    (unblockOne p t b w).part p = (unblockOne p t a w).part p := by
  have blocked : lineBlocked b p w.addr = lineBlocked a p w.addr := by
    rw [lineBlocked, lineBlocked, hostHolds, hostHolds, part, lineHeld_congr ops launches]
  unfold unblockOne lastPend
  rw [blocked, part]
  split
  · exact part
  · rw [Hw.part_setPart_same, Hw.part_setPart_same, part]

theorem foldl_unblockOne_congr {p t : Nat} (ws : List PWrite) {a b : Hw} (part : b.part p = a.part p) (ops : b.ops = a.ops)
    (launches : b.launches = a.launches) : (ws.foldl (unblockOne p t) b).part p = (ws.foldl (unblockOne p t) a).part p := by
  induction ws generalizing a b with
  | nil => exact part
  | cons w ws ih =>
    have la := unblockOne_lands p t a w
    have lb := unblockOne_lands p t b w
    exact ih (unblockOne_congr part ops launches w) (by rw [la.ops, lb.ops, ops]) (by rw [la.launches, lb.launches, launches])

theorem unblock_congr {p : Nat} {a b : Hw} (part : b.part p = a.part p) (ops : b.ops = a.ops) (launches : b.launches = a.launches) (t : Nat) :
    (unblock b p t).part p = (unblock a p t).part p := by
  rw [unblock_eq, unblock_eq, part]
  exact foldl_unblockOne_congr _ part ops launches

/-! ## Partitions settle one after another -/

/-- The byte at a of partition p once its writes that are due at t in machine h have become visible. -/
def settledByte (h : Hw) (t p a : Nat) (b : Byte) : Byte :=
  (((unblock h p t).part p).pend.filter (PWrite.due t)).foldl (fun b w => (w.byte a).getD b) b

theorem settlePart_lands {t p : Nat} {m : Tab Memory} {hw : Hw} (off : TailsOff hw) (none : ∀ w ∈ (hw.part p).pend, w.full = false) :
    LandsIn p hw (settlePart t p m hw).2 ∧ ∀ q a, rdByte (settlePart t p m hw).1 q a =
      if q = p then settledByte hw t p a (rdByte m q a) else rdByte m q a := by
  have free := unblock_lands hw p t
  have none' : ∀ w ∈ ((unblock hw p t).part p).pend, w.full = false := fun w hw' => by
    rcases mem_unblock hw' with old | ⟨v, hv, -, -, -, full, -⟩
    · exact none w old
    · rw [full]; exact none v hv
  rw [settlePart_eq]
  extract_lets h0 due r
  obtain ⟨lands, bytes⟩ : LandsIn p hw r.2 ∧ ∀ q a, rdByte r.1 q a = if q = p then settledByte hw t p a (rdByte m q a) else rdByte m q a := by
    cases hd : due with
    | nil =>
      have is : r = (m, h0) := by simp only [r, hd, List.isEmpty_nil, if_true]
      rw [is]
      refine ⟨free, fun q a => ?_⟩
      rw [settledByte, show ((unblock hw p t).part p).pend.filter (PWrite.due t) = [] from hd]
      exact (ite_self _).symm
    | cons w ws =>
      have is : r = due.foldl (landDue t p) (m, dueTaken t p h0) := by simp [r, hd]
      rw [is]
      have taken : LandsIn p h0 (dueTaken t p h0) := landsIn_setPart p h0 (fun _ => rfl) fun _ => rfl
      obtain ⟨landed, bytes⟩ := foldl_landDue t p due (x := (m, dueTaken t p h0)) ((off.of_lands free).of_lands taken) (by
        simp only [dueTaken, Hw.part_setPart_same]
        exact fun w hw' => none' w (List.mem_filter.1 hw').1)
      exact ⟨free.trans (taken.trans landed), bytes⟩
  refine ⟨lands.trans ?_, bytes⟩
  dsimp only
  split
  · exact (gangsOnly_wakeCounter ..).lands p
  · exact .refl ..

/-- Each partition settles once, by what it held before any did. -/
theorem foldl_settlePart (t : Nat) {ps : List Nat} (once : ps.Nodup) {m : Tab Memory} {hw : Hw} (off : TailsOff hw)
    (none : ∀ p ∈ ps, ∀ w ∈ (hw.part p).pend, w.full = false) (p a : Nat) :
    rdByte (ps.foldl (fun x p => settlePart t p x.1 x.2) (m, hw)).1 p a = if p ∈ ps then settledByte hw t p a (rdByte m p a) else rdByte m p a := by
  induction ps generalizing m hw with
  | nil => rfl
  | cons q ps ih =>
    obtain ⟨new, once⟩ := List.nodup_cons.1 once
    obtain ⟨lands, bytes⟩ := settlePart_lands (m := m) (t := t) off (none q List.mem_cons_self)
    have apart : ∀ k ∈ ps, k ≠ q := fun k hk eq => new (eq ▸ hk)
    show rdByte (ps.foldl _ (settlePart t q m hw)).1 p a = _
    generalize settlePart t q m hw = x at lands bytes ⊢
    obtain ⟨m', hw'⟩ := x
    refine (ih once (off.of_lands lands) fun k hk => ?_).trans ?_
    · rw [lands.others k (apart k hk)]
      exact none k (List.mem_cons_of_mem _ hk)
    · rw [bytes]
      by_cases hp : p ∈ ps
      · rw [if_pos hp, if_neg (apart p hp), if_pos (List.mem_cons_of_mem _ hp), settledByte,
          unblock_congr (lands.others p (apart p hp)) lands.ops lands.launches]
        rfl
      · rw [if_neg hp]
        by_cases hq : p = q
        · rw [if_pos hq, if_pos (hq ▸ List.mem_cons_self), hq]
        · rw [if_neg hq, if_neg (by simp [hq, hp])]

theorem above_lt {α : Type} {lo : Nat} {t : Tab α} (h : Tab.above lo t = true) : ∀ k ∈ t.map (·.1), lo < k := by
  induction t generalizing lo with
  | nil => simp
  | cons x t ih =>
    obtain ⟨j, v⟩ := x
    simp only [Tab.above, Bool.and_eq_true, decide_eq_true_eq] at h
    simp only [List.map_cons, List.forall_mem_cons]
    exact ⟨h.1, fun k hk => h.1.trans (ih h.2 k hk)⟩

theorem above_nodup {α : Type} {lo : Nat} {t : Tab α} (h : Tab.above lo t = true) : (t.map (·.1)).Nodup := by
  induction t generalizing lo with
  | nil => exact List.nodup_nil
  | cons x t ih =>
    obtain ⟨j, v⟩ := x
    simp only [Tab.above, Bool.and_eq_true, decide_eq_true_eq] at h
    exact List.nodup_cons.2 ⟨fun mem => absurd (above_lt h.2 j mem) (Nat.lt_irrefl j), ih h.2⟩

/-- A table in canonical form lists each key once. -/
theorem wf_nodup {α : Type} {t : Tab α} (h : Tab.wf t = true) : (t.map (·.1)).Nodup := by
  cases t with
  | nil => exact List.nodup_nil
  | cons x t =>
    obtain ⟨j, v⟩ := x
    exact List.nodup_cons.2 ⟨fun mem => absurd (above_lt h j mem) (Nat.lt_irrefl j), above_nodup h⟩

theorem look_none_of_not_listed {α : Type} {t : Tab α} {k : Nat} (h : k ∉ t.map (·.1)) : t.look k = none := by
  cases hl : t.look k with
  | none => rfl
  | some v => exact absurd (List.mem_map_of_mem (f := (·.1)) (look_mem hl)) h

/-- A partition that is not listed has nothing to settle. -/
theorem settledByte_unlisted {hw : Hw} {p : Nat} (h : p ∉ hw.parts.map (·.1)) (t a : Nat) (b : Byte) : settledByte hw t p a b = b := by
  have part : hw.part p = {} := by rw [Hw.part, Tab.val, look_none_of_not_listed h]; rfl
  have same : unblock hw p t = hw := unblock_blocked (by rw [part]; exact fun w hw' => absurd hw' List.not_mem_nil) t
  rw [settledByte, same, part]
  rfl

/-- Settles O22: the partitions settle one after another, each by what it held, and without Tails each of its due writes lands. -/
theorem writesBecomeVisible : Obligations.WritesBecomeVisible := by
  refine fun s dt canon => ⟨rfl, fun off none p a => ?_⟩
  refine (foldl_settlePart (s.time + dt) (wf_nodup canon) off (fun q _ => none q) p a).trans ?_
  split
  · rfl
  · next h => exact (settledByte_unlisted h ..).symm

end Sys2Proof.Machine
end

section
/-! SUPPORT. Barriers: arrivals that wait, barriers that open, waves of a release, and barrier objects (14_atomics R279-R285). -/

namespace Sys2Proof.Machine

open Sys2Proof

/-! ## Forms that wait -/

/-- A form without a destination that waits leaves the machine as its body made it. -/
theorem finish_stay {e : Env} {r : Regs} (h : r.sh.dW = false) (hw : Hw) : e.finish r (.stay hw) = hw := by
  simp only [Env.finish, Env.waitRoom, h, Bool.and_false, Bool.false_and, Bool.false_eq_true, if_false]

theorem exec_bar {f : Fields} {s : State} {e : Env} (h : Issues Forms.bar f s e) : exec (.bar f) s =
    .next (openBlock (s.with (e.finish (regsF Forms.bar f)
      (if (lanes e.q.mask).any fun l => nestOf e.g l != 0 then barTrap e
      else if blockExpected e.blk < e.blk.bar.arrived.length + (arriving e).length then barTrap e
      else .stay (waitBar e (regsF Forms.bar f) .bar (e.hw.setBlock e.g.block fun b => { b with
        bar := { b.bar with arrived := b.bar.arrived ++ arriving e, after := b.bar.after ++ scratchOps e } }))))) e.g.block) := by
  simp only [exec, execBar, issueF_ok h, h.here]

theorem bar_rules {f : Fields} {s : State} {e : Env} (h : Issues Forms.bar f s e) :
    let r := regsF Forms.bar f
    ((∃ l, l < 32 ∧ inLanes e.q.mask l = true ∧ nestOf e.g l ≠ 0) ∨ blockExpected e.blk < e.blk.bar.arrived.length + (arriving e).length →
      exec (.bar f) s = .next (openBlock (s.with (e.trap { cause := 0x14, hit := e.act })) e.g.block)) ∧
    ((∀ l, l < 32 → inLanes e.q.mask l = true → nestOf e.g l = 0) → e.blk.bar.arrived.length + (arriving e).length ≤ blockExpected e.blk →
      exec (.bar f) s = .next (openBlock (s.with (waitBar e r .bar (e.hw.setBlock e.g.block fun b =>
        { b with bar := { b.bar with arrived := b.bar.arrived ++ arriving e, after := b.bar.after ++ scratchOps e } }))) e.g.block)) := by
  have nested : ((lanes e.q.mask).any fun l => nestOf e.g l != 0) = true ↔ ∃ l, l < 32 ∧ inLanes e.q.mask l = true ∧ nestOf e.g l ≠ 0 := by
    simp [mem_lanes, and_assoc]
  refine ⟨fun bad => (exec_bar h).trans ?_, fun flat room => (exec_bar h).trans ?_⟩
  · have traps : (if (lanes e.q.mask).any fun l => nestOf e.g l != 0 then barTrap e
        else if blockExpected e.blk < e.blk.bar.arrived.length + (arriving e).length then barTrap e
        else .stay (waitBar e (regsF Forms.bar f) .bar (e.hw.setBlock e.g.block fun b => { b with
          bar := { b.bar with arrived := b.bar.arrived ++ arriving e, after := b.bar.after ++ scratchOps e } }))) = barTrap e := by
      by_cases nest : ((lanes e.q.mask).any fun l => nestOf e.g l != 0) = true
      · rw [if_pos nest]
      · rw [if_neg nest, if_pos (bad.resolve_left fun some => nest (nested.2 some))]
    rw [traps]
    rfl
  · have nest : ¬((lanes e.q.mask).any fun l => nestOf e.g l != 0) = true := fun some => by
      obtain ⟨l, hl, mask, ne⟩ := nested.1 some
      exact ne (flat l hl mask)
    rw [if_neg nest, if_neg (Nat.not_lt.2 room), finish_stay rfl]

theorem exec_named {fm : Form} {f : Fields} {s : State} {e : Env} (h : Issues fm f s e) (body : Env → Regs → Res) : namedForm fm f s body =
    .next (openNamed (s.with (e.finish (regsF fm f) (if namedBad e (regsF fm f) then barTrap e else body e (regsF fm f)))) e.g.block
      ((e.sa (regsF fm f)).toNat % 16)) := by
  simp only [namedForm, issueF_ok h, h.here]

theorem named_traps {fm : Form} {f : Fields} {s : State} {e : Env} {i : Instr} {body : Env → Regs → Res} (hi : exec i s = namedForm fm f s body)
    (h : Issues fm f s e) (bad : namedBad e (regsF fm f) = true) :
    exec i s = .next (openNamed (s.with (e.trap { cause := 0x14, hit := e.act })) e.g.block ((e.sa (regsF fm f)).toNat % 16)) := by
  rw [hi, exec_named h, if_pos bad]
  rfl

theorem named_arrives {fm : Form} {f : Fields} {s : State} {e : Env} {i : Instr} {body : Env → Regs → Res} (hi : exec i s = namedForm fm f s body)
    (h : Issues fm f s e) (good : namedBad e (regsF fm f) = false) :
    exec i s = .next (openNamed (s.with (e.finish (regsF fm f) (body e (regsF fm f)))) e.g.block ((e.sa (regsF fm f)).toNat % 16)) := by
  rw [hi, exec_named h, if_neg (by simp [good])]

/-- An arrival at a named barrier adds its lanes to those arrived under one count (R279). -/
theorem arriveNamed_spec {e : Env} {r : Regs} {b : Block} (hb : e.hw.blocks.look e.g.block = some b) (good : namedBad e r = false) :
    ∃ b' x, (arriveNamed e r).blocks.look e.g.block = some b' ∧ b'.nbars.look ((e.sa r).toNat) = some x ∧
      x.arrived = (b.nbars.val {} (e.sa r).toNat).arrived ++ arriving e ∧ x.declared = (e.sb r).toNat ∧
      ∀ k, k ≠ (e.sa r).toNat → b'.nbars.look k = b.nbars.look k := by
  have blk : e.blk = b := by rw [Env.blk, Tab.val, hb]; rfl
  simp only [namedBad, blk, Bool.or_eq_false_iff, decide_eq_false_iff_not] at good
  obtain ⟨⟨⟨⟨few, -⟩, -⟩, agrees⟩, -⟩ := good
  have own : (e.sa r).toNat % 16 = (e.sa r).toNat := Nat.mod_eq_of_lt (Nat.lt_of_not_le few)
  rw [own] at agrees
  have look : ∀ f, (e.hw.setBlock e.g.block f).blocks.look e.g.block = some (f b) := fun f => by
    rw [Hw.setBlock, Tab.look_upd, if_pos rfl, hb]; rfl
  rw [arriveNamed, look]
  simp only [own]
  refine ⟨_, _, rfl, Tab.look_ins_same .., rfl, ?_, fun k hk => Tab.look_ins_other _ _ hk⟩
  dsimp only
  split
  · rfl
  · next some =>
      rw [Bool.eq_false_iff.2 some, Bool.not_false, Bool.true_and] at agrees
      simpa using agrees

/-! ## What a release leaves -/

/-- A path that waits at its form retires without a change of any block. -/
theorem retireAt_blocks (s : State) (gk p : Nat) : (retireAt s gk p {}).hw.blocks = s.hw.blocks := by
  unfold retireAt
  split
  next e he =>
    cases hr : e.q.form with
    | none =>
      rw [Env.retireParked, hr]
      have hs : e.s = { s with cur := { s.cur with q := ⟨gkCore gk, gkCtx gk, gkSlot gk, p⟩ } } := env_state he
      show e.hw.blocks = _
      rw [Env.hw, hs]
    | some r =>
      have hs : e.s = { s with cur := { s.cur with q := ⟨gkCore gk, gkCtx gk, gkSlot gk, p⟩ } } := env_state he
      refine (retireParked_retired he hr (room_nil (hw := e.hw) rfl rfl rfl rfl)).only.blocks.trans ?_
      rw [Env.hw, hs]
  next => rfl

theorem releaseForms_blocks (hw : Hw) (gk p : Nat) (rs : List Regs) : (releaseForms hw gk p rs).blocks = hw.blocks := by
  have one : ∀ (ns : List Nat) (h : Hw), (ns.foldl (fun h n => releaseS h gk p n) h).blocks = h.blocks := by
    intro ns
    induction ns with
    | nil => exact fun _ => rfl
    | cons n ns ih => exact fun h => (ih _).trans (releaseS_blocks ..)
  unfold releaseForms
  induction rs generalizing hw with
  | nil => rfl
  | cons r rs ih => exact (ih _).trans (one ..)

/-- What keeps blocks at every element keeps them throughout. -/
theorem foldl_blocks {α : Type} {f : State → α → State} (hf : ∀ s x, (f s x).hw.blocks = s.hw.blocks) (l : List α) (s : State) :
    (l.foldl f s).hw.blocks = s.hw.blocks := by
  induction l generalizing s with
  | nil => rfl
  | cons x l ih => exact (ih _).trans (hf s x)

theorem releaseGang_blocks (s : State) (gk : Nat) (w : Wait) : (releaseGang s gk w).hw.blocks = s.hw.blocks := by
  unfold releaseGang
  split
  · rfl
  · refine foldl_blocks (fun s x => ?_) _ s
    split
    · split
      · exact (finStep_frame ..).blocks.trans (releaseForms_blocks ..)
      · rfl
    · split
      · exact retireAt_blocks ..
      · rfl

theorem releaseWaves_blocks (s : State) (b core : Nat) (w : Wait) : (releaseWaves s b core w).hw.blocks = s.hw.blocks := by
  refine foldl_blocks (fun s x => ?_) _ s
  refine (apply_ite (fun t : State => t.hw.blocks) ..).trans ?_
  rw [releaseGang_blocks, markReleased]
  exact ite_self _

theorem addOps_blocks (hw : Hw) (os : List Op) : (hw.addOps os).blocks = hw.blocks := by
  unfold Hw.addOps
  induction os generalizing hw with
  | nil => rfl
  | cons o os ih => exact ih _

theorem drainPart_blocks (first : Nat) (hw : Hw) (gk : Nat) : (drainPart first hw gk).blocks = hw.blocks := by
  unfold drainPart
  split
  · rfl
  · exact addOps_blocks ..

theorem drainGangs_blocks (hw : Hw) (gs : List (Nat × Gang)) : (drainGangs hw gs).blocks = hw.blocks := by
  have each : ∀ (first : Nat) (gs : List (Nat × Gang)) (h : Hw), (gs.foldl (fun h g => drainPart first h g.1) h).blocks = h.blocks := by
    intro first gs
    induction gs with
    | nil => exact fun _ => rfl
    | cons g gs ih => exact fun h => (ih _).trans (drainPart_blocks ..)
  exact each ..

/-! ## Barriers that open -/

theorem openBlock_shut {s : State} {bk : Nat} {b : Block} (hb : s.hw.blocks.look bk = some b)
    (h : b.bar.arrived.length < blockExpected b ∨ underWay s.hw b.bar.after = true) : openBlock s bk = s := by
  unfold openBlock
  rw [hb]
  exact if_pos (by rcases h with h | h <;> simp [h])

/-- A block barrier that opens starts a new phase, for which the lanes that have ended since no longer count (R279, R282). -/
theorem openBlock_opens {s : State} {bk : Nat} {b : Block} (hb : s.hw.blocks.look bk = some b) (some_b : b.bar.arrived ≠ [])
    (full : blockExpected b ≤ b.bar.arrived.length) (done : underWay s.hw b.bar.after = false) :
    ∃ b', (openBlock s bk).hw.blocks.look bk = some b' ∧ b'.bar = {} ∧ b'.gone = b.gone ++ b.goneNext ∧ b'.goneNext = [] := by
  refine ⟨{ b with bar := {}, gone := b.gone ++ b.goneNext, goneNext := [] }, ?_, rfl, rfl, rfl⟩
  have opens : (b.bar.arrived.isEmpty || decide (b.bar.arrived.length < blockExpected b) || underWay s.hw b.bar.after) = false := by
    simp [done, some_b, full]
  simp only [openBlock, hb, opens, Bool.false_eq_true, if_false]
  rw [releaseWaves_blocks]
  refine (congrArg (·.look bk) (drainGangs_blocks ..)).trans ?_
  rw [Hw.setBlock, Tab.look_upd, if_pos rfl, hb]
  rfl

/-! ## Waves -/

theorem releaseWave_single {core ctx bk bar : Nat} {s : State} {gk : Nat} {g : Gang} {t : Nat} (gangs : blockGangs s.hw bk = [(gk, g)])
    (hcore : gkCore gk = core) (hctx : gkCtx gk = ctx) (times : waveTimes g = [t]) : exec (.barrierReleaseWave core ctx bk bar) s =
      .next (if t ≤ coreCycles s.hw core s.time then releaseGang s gk (.released t) else s) := by
  simp only [exec, execBarrierReleaseWave, gangs, List.foldl_cons, List.foldl_nil, hcore, hctx, times, and_self, if_true]

/-! ## barw -/

section
variable {f : Fields} {s : State} {e : Env} (h : Issues Forms.barw f s e)
include h

theorem barw_misaligned (bad : (e.sa (regsF Forms.barw f)).toNat % 16 ≠ 0) :
    Traps (.barw f) s e { cause := 0x08, fault := scrFault (e.sa (regsF Forms.barw f)).toNat, hit := e.act } :=
  traps_of_trap ((show exec (.barw f) s = execBarw f s from rfl).trans (issueF_ok h _)) (if_pos bad)

variable (good : (e.sa (regsF Forms.barw f)).toNat % 16 = 0)
include good

theorem barw_outside (bad : e.scrBytes < (e.sa (regsF Forms.barw f)).toNat + 16) :
    Traps (.barw f) s e { cause := 0x05, fault := scrFault (e.sa (regsF Forms.barw f)).toNat, hit := e.act } :=
  traps_of_trap ((show exec (.barw f) s = execBarw f s from rfl).trans (issueF_ok h _)) ((if_neg (not_not.2 good)).trans (if_pos bad))

variable (inside : (e.sa (regsF Forms.barw f)).toNat + 16 ≤ e.scrBytes) (still : e.acquiring = false)
  (free : unitBusy e.hw e.blk (e.sa (regsF Forms.barw f)).toNat = false)
include inside still free

/-- barw reads the object's PHASE and waits while it is the one given (R285). -/
theorem barw_reads :
    let r := regsF Forms.barw f
    let a := (e.sa r).toNat
    let ph := bit 0 (e.sb r).toNat
    let h := touchScr e.hw e.g.block [a, a + 4] false
    (bit 63 (objWord h e.g.block a) ≠ ph → Retires (.barw f) s e r {} h) ∧
    (bit 63 (objWord h e.g.block a) = ph → Parks (.barw f) s e r .barrier (.barw a ph) h) := by
  intro r a ph t
  have issued := (show exec (.barw f) s = execBarw f s from rfl).trans (issueF_ok h _)
  have pass : ¬(e.acquiring || unitBusy e.hw e.blk a) = true := by simp only [a, r, still, free]; decide
  rw [if_neg (not_not.2 good), if_neg (Nat.not_lt.2 inside), if_neg pass] at issued
  exact ⟨fun flipped => retires_of_done h.here issued (if_pos flipped) (room_nil rfl rfl rfl rfl),
    fun same => stays_of_stay issued (if_neg (not_not.2 same))⟩

end

/-! ## Barrier objects -/

theorem exec_objectUpdate {id : Nat} {s : State} {o : Op} {blk obj n t : Nat} {b : Block} (ho : s.hw.op id = some o)
    (hk : o.kind = .update blk obj n t) (hb : s.hw.blocks.look blk = some b) (due : t ≤ s.time) (free : unitBusy s.hw b obj = false) :
    exec (.objectUpdate id) s = .next (wakeBarw (landOp (s.with (updateObject s.hw o blk obj n)) o fun _ => 0) blk) := by
  simp only [exec, execObjectUpdate, ho, hk, hb, free, Nat.not_lt.2 due, decide_false, Bool.or_self, Bool.false_eq_true, if_false]

theorem ofBytes_toBytes (k n : Nat) : ofBytes (toBytes k n) = n % 256 ^ k := by
  induction k generalizing n with
  | zero => rw [Nat.pow_zero, Nat.mod_one]; rfl
  | succ k ih =>
    rw [toBytes, ofBytes, ih, BitVec.toNat_ofNat]
    exact (Nat.mod_mul (a := 256) (b := 256 ^ k) (x := n)).symm.trans (by rw [Nat.pow_succ'])

/-- A number stored in scratchpad is read again. -/
theorem scrRead_scrStore (b : Block) (y k v : Nat) : scrRead (scrStore b y (toBytes k v)) y k = v % 256 ^ k := by
  rw [← ofBytes_toBytes, scrRead]
  congr 1
  refine List.ext_getElem (by simp) fun i hi _ => ?_
  have lt : i < (toBytes k v).length := by simpa using hi
  simp only [List.getElem_map, List.getElem_range, scrStore]
  rw [val_storeBytes, if_pos ⟨Nat.le_add_right .., by omega⟩, Nat.add_sub_cancel_left, List.getD_eq_getElem?_getD, List.getElem?_eq_getElem lt]
  rfl

theorem scrRead_lt (b : Block) (y k : Nat) : scrRead b y k < 256 ^ k := by
  have h := ofBytes_lt ((List.range k).map fun i => b.scr.val 0 (y + i))
  rwa [List.length_map, List.length_range] at h

theorem bit_eq_decide (k n : Nat) : bit k n = decide (n / 2 ^ k % 2 = 1) := Nat.testBit_eq_decide_div_mod_eq

/-- A PENDING that an update does not use up goes down by its bytes (R284). -/
theorem objCount_less {w0 n : Nat} (h : n < bits 39 0 w0) (reload k : Nat) : objCount (k + 1) w0 reload n = (w0 - n, 0) := if_pos h

/-- A PENDING used up just so is reloaded, and PHASE flips (R284). -/
theorem objCount_equal {w0 reload : Nat} (lt : w0 < 2 ^ 64) (mid : bits 62 40 w0 = 0) (some_n : bits 39 0 w0 ≠ 0) (some_r : reload ≠ 0)
    (small : reload < 2 ^ 40) :
    ∃ w, objCount (bits 39 0 w0 + 1) w0 reload (bits 39 0 w0) = (w, 0) ∧ w < 2 ^ 64 ∧ bits 39 0 w = reload ∧ bit 63 w = !bit 63 w0 := by
  let w := (w0 - bits 39 0 w0 + reload + 2 ^ 63) % 2 ^ 64
  have low : ∀ n, bits 39 0 n = n % 2 ^ 40 := fun n => rfl
  have middle : w0 / 2 ^ 40 % 2 ^ 23 = 0 := by
    rw [← mid, bits, Nat.shiftRight_eq_div_pow]
  have pending : bits 39 0 w = reload := by
    simp only [w, low]
    omega
  obtain ⟨k, hk⟩ := Nat.exists_eq_succ_of_ne_zero some_n
  refine ⟨w, ?_, Nat.mod_lt _ (by decide), pending, ?_⟩
  · rw [objCount, if_neg (Nat.lt_irrefl _), Nat.sub_self]
    show objCount (bits 39 0 w0) w reload 0 = _
    rw [hk, objCount_less (by rw [pending]; exact Nat.pos_of_ne_zero some_r), Nat.sub_zero]
  · simp only [bit_eq_decide, w, low]
    by_cases top : w0 / 2 ^ 63 % 2 = 1
    · rw [decide_eq_true top]
      exact decide_eq_false (by omega)
    · rw [decide_eq_false top]
      exact decide_eq_true (by omega)

/-- Where no copy is under way in the block, an update of a sound object stores its counted word and nothing else (R284). -/
theorem updateObject_stores {hw : Hw} {o : Op} {blk obj n : Nat} {b : Block} (hb : hw.blocks.look blk = some b) (alone : NoCopies 0 hw blk)
    (pending : bits 39 0 (scrRead b obj 8) ≠ 0) (reload : bits 39 0 (scrRead b (obj + 8) 8) ≠ 0) (mid : bits 62 40 (scrRead b obj 8) = 0)
    (high : bits 63 40 (scrRead b (obj + 8) 8) = 0) :
    (updateObject hw o blk obj n).blocks.look blk =
      some (scrStore b obj (toBytes 8 (objCount (n + 1) (scrRead b obj 8) (bits 39 0 (scrRead b (obj + 8) 8)) n).1)) := by
  have here : hw.blocks.val b blk = b := by rw [Tab.val, hb]; rfl
  have touched : touchScr hw blk [obj, obj + 4, obj + 8, obj + 12] true = hw := touchScrOf_alone alone ..
  have noted : (noteScr o blk ((List.range 8).map (obj + ·)) hw).blocks = hw.blocks := (logOp_frame ..).blocks
  unfold updateObject
  rw [hb]
  simp only [touched, here, pending, reload, mid, high, ne_eq, not_true_eq_false, or_self, if_false]
  rw [Hw.setBlock, Tab.look_upd, if_pos rfl, noted, hb]
  rfl

theorem updateObject_counts {hw : Hw} {o : Op} {blk obj n : Nat} {b : Block} (hb : hw.blocks.look blk = some b) (alone : NoCopies 0 hw blk) :
    let w0 := scrRead b obj 8
    let w1 := scrRead b (obj + 8) 8
    bits 39 0 w0 ≠ 0 → bits 39 0 w1 ≠ 0 → bits 62 40 w0 = 0 → bits 63 40 w1 = 0 →
    ∃ b', (updateObject hw o blk obj n).blocks.look blk = some b' ∧
      (n < bits 39 0 w0 → scrRead b' obj 8 = w0 - n) ∧
      (n = bits 39 0 w0 → bits 39 0 (scrRead b' obj 8) = bits 39 0 w1 ∧ bit 63 (scrRead b' obj 8) = !bit 63 w0) ∧
      ∀ y, (y < obj ∨ obj + 8 ≤ y) → b'.scr.val 0 y = b.scr.val 0 y := by
  intro w0 w1 pending reload mid high
  refine ⟨_, updateObject_stores hb alone pending reload mid high, fun less => ?_, fun equal => ?_, fun y out => ?_⟩
  · rw [objCount_less less, scrRead_scrStore]
    exact Nat.mod_eq_of_lt (Nat.lt_of_le_of_lt (Nat.sub_le ..) (scrRead_lt b obj 8))
  · obtain ⟨w, count, lt, low, phase⟩ := objCount_equal (scrRead_lt b obj 8) mid pending reload (Nat.mod_lt _ (by decide))
    rw [scrRead_scrStore, equal, count, show w % 256 ^ 8 = w from Nat.mod_eq_of_lt lt]
    exact ⟨low, phase⟩
  · refine (val_storeBytes ..).trans (if_neg ?_)
    rw [length_toBytes]
    omega

/-- Settles O28: arrivals wait in a machine that a form without destination leaves as it is, and no release changes a block. -/
theorem barriers : Obligations.Barriers := by
  refine ⟨fun f s e h => bar_rules h, fun s bk b hb => ⟨openBlock_shut hb, openBlock_opens hb⟩,
    fun f s e h => ⟨named_traps rfl h, fun good => (named_arrives rfl h good).trans (by rw [finish_stay rfl])⟩,
    fun f s e h => ⟨named_traps rfl h, fun good => ⟨_, ?_, named_arrives rfl h good⟩⟩, fun e r b hb good => arriveNamed_spec hb good,
    fun core ctx bk bar s gk g t gangs hcore hctx times => ⟨fun due => ?_, fun early => ?_⟩,
    fun f s e h => ⟨barw_misaligned h, barw_outside h, barw_reads h⟩,
    fun id s o blk obj n t b ho hk hb due free => exec_objectUpdate ho hk hb due free,
    fun hw o blk obj n b hb alone => updateObject_counts hb alone⟩
  · have R := retired_any (e := e) (r := regsF Forms.barx f) (w := {}) (hw := arriveNamed e (regsF Forms.barx f)) (room_nil rfl rfl rfl rfl)
    rwa [env_state h.here] at R
  · rw [releaseWave_single gangs hcore hctx times, if_pos due]
  · rw [Holds, releaseWave_single gangs hcore hctx times, if_neg (Nat.not_le.2 early)]

end Sys2Proof.Machine
end

section
/-! SUPPORT. Copies: forms that queue commands, pieces that move, commands that end, and batches (15_copies R286-R295). -/

namespace Sys2Proof.Machine

open Sys2Proof

/-! ## Forms -/

/-- A form that waits for an acquire, or finds the queue full, does not queue a command. -/
theorem queueCopy_room {e : Env} (still : e.acquiring = false) (room : copiesQueued e.hw e.core < 128) :
    (e.acquiring || decide (128 ≤ copiesQueued e.hw e.core)) = false := by
  rw [still, decide_eq_false (Nat.not_le.2 room)]
  rfl

/-- The pieces of a reference of a copy form. -/
def copyPieces (e : Env) (x : CopyArgs) (lanewise : Bool) (a : Ref) : List Piece :=
  let hd := readHandle e.hw e.s.mem e.part e.ctx a.h
  let tgt : Target := { space := hd.space, peer := hd.peer, tgt := hd.tgt }
  if lanewise then rowPieces a.lane tgt (x.n / 4 + 1) (hd.base + a.o) (x.d + a.lane * x.p) x.n else tilePieces x tgt (hd.base + a.o)

/-- The command of a copy form. -/
def copyCommand (e : Env) (x : CopyArgs) (lanewise : Bool) (refs : List Ref) : Copy :=
  { blk := e.g.block, out := x.out, rot := x.rot, obj := x.obj, todo := refs.flatMap (copyPieces e x lanewise)
    overlap := lanewise || x.overlap, batch := e.g.closed + 1 }

section
variable {e : Env} (still : e.acquiring = false) (room : copiesQueued e.hw e.core < 128) (r : Regs) {x : CopyArgs} {lanewise : Bool}
include still room

/-- A copy form whose references all pass queues its command, or for an empty tile does nothing (R289, R291). -/
theorem queueCopy_passes {refs : List Ref} (pass : ∀ a ∈ refs, copyCheck e x (if lanewise then a.lane else 0) a.h a.o = none) :
    queueCopy e r x lanewise refs = if x.empty then .done {} e.hw else if e.counterFull then .hold else
      e.start r { e.newOp r (.copy (copyCommand e x lanewise refs)) with counts := true } e.stepped e.hw := by
  have none : (refs.filterMap fun a => (copyCheck e x (if lanewise then a.lane else 0) a.h a.o).map fun b => (a.lane, b)) = [] :=
    List.filterMap_eq_nil_iff.2 fun a ha => by rw [pass a ha]; rfl
  simp only [queueCopy, queueCopy_room still room, none, List.filter_nil, Bool.false_eq_true, if_false]
  rfl

theorem queueCopy_fails {a : Ref} {k c i t : Nat} (bad : copyCheck e x 0 a.h a.o = some (k, c, i, t)) :
    queueCopy e r x false [a] = .trap { cause := c, info := i, fault := t, hit := e.act } := by
  have first : minOr 9 [k] = k := Nat.min_self k
  simp only [queueCopy, queueCopy_room still room, Bool.false_eq_true, if_false, List.filterMap_cons, List.filterMap_nil, bad, Option.map_some,
    List.map_cons, List.map_nil, first, List.filter_cons, List.filter_nil, beq_self_eq_true, if_true]

end

theorem cpy_rules {f : Fields} {s : State} {e : Env} (h : Issues Forms.cpy f s e) (still : e.acquiring = false)
    (room : copiesQueued e.hw e.core < 128) :
    let r := regsF Forms.cpy f
    let b := (e.sb r).toNat
    let a := (e.sa r).toNat
    let x : CopyArgs := { d := (e.sd r).toNat, n := bits 15 0 b, m := bits 31 16 b, g := bits 63 32 b, p := e.pitch r
                          rot := bits 22 20 f.imm, out := f.op == 1, obj := if bit 19 f.imm then none else some (bits 18 0 f.imm) }
    let hd := readHandle e.hw s.mem e.part e.ctx (bits 63 52 a)
    (∀ k c i t, copyCheck e x 0 (bits 63 52 a) (bits 51 0 a) = some (k, c, i, t) → k < 9 →
      Traps (.cpy f) s e { cause := c, info := i, fault := t, hit := e.act }) ∧
    (copyCheck e x 0 (bits 63 52 a) (bits 51 0 a) = none → x.empty = true → Retires (.cpy f) s e r {} e.hw) ∧
    (copyCheck e x 0 (bits 63 52 a) (bits 51 0 a) = none → x.empty = false → e.counterFull = false →
      Starts (.cpy f) s e r { e.newOp r (.copy
        { blk := e.g.block, out := x.out, rot := x.rot, obj := x.obj, overlap := x.overlap, batch := e.g.closed + 1
          todo := tilePieces x { space := hd.space, peer := hd.peer, tgt := hd.tgt } (hd.base + bits 51 0 a) }) with counts := true }
        e.stepped e.hw) := by
  intro r b a x hd
  have issued := (show exec (.cpy f) s = execCpy f s from rfl).trans (issueF_ok h _)
  refine ⟨fun k c i t bad _ => traps_of_trap issued (queueCopy_fails still room r bad), fun pass empty => ?_, fun pass some_x free => ?_⟩
  · refine retires_of_done h.here issued ((queueCopy_passes still room r ?_).trans (if_pos empty)) (room_nil rfl rfl rfl rfl)
    exact List.forall_mem_singleton.2 pass
  · refine starts_of_start h.here issued ((queueCopy_passes still room r ?_).trans ((if_neg ?_).trans ((if_neg ?_).trans ?_)))
    · exact List.forall_mem_singleton.2 pass
    · exact Bool.eq_false_iff.1 some_x
    · exact Bool.eq_false_iff.1 free
    · simp only [copyCommand, copyPieces, List.flatMap_cons, List.flatMap_nil, List.append_nil, Bool.false_or, Bool.false_eq_true, if_false,
        env_state h.here]
      rfl

theorem lanesCopy_rules {fm : Form} {i : Instr} {f : Fields} {s : State} {e : Env} {out : Bool} (hi : exec i s = lanesCopy fm f s out)
    (h : Issues fm f s e) (still : e.acquiring = false) (room : copiesQueued e.hw e.core < 128) :
    let r := regsF fm f
    let x : CopyArgs := { d := (e.sd r).toNat, n := bits 15 0 (e.sb r).toNat, m := 1, g := 0, p := e.pitch r
                          rot := bits 22 20 f.imm, out := out, obj := if bit 19 f.imm then none else some (bits 18 0 f.imm) }
    let hd (l : Nat) : Handle := readHandle e.hw s.mem e.part e.ctx (bits 63 52 (e.va r l).toNat)
    (∀ l, l < 32 → inLanes e.act l = true → copyCheck e x l (bits 63 52 (e.va r l).toNat) (bits 51 0 (e.va r l).toNat) = none) →
    (x.n = 0 → Retires i s e r {} e.hw) ∧
    (x.n ≠ 0 → e.counterFull = false →
      Starts i s e r { e.newOp r (.copy
        { blk := e.g.block, out := out, rot := x.rot, obj := x.obj, overlap := true, batch := e.g.closed + 1
          todo := e.acts.flatMap fun l => rowPieces l { space := (hd l).space, peer := (hd l).peer, tgt := (hd l).tgt } (x.n / 4 + 1)
            ((hd l).base + bits 51 0 (e.va r l).toNat) (x.d + l * x.p) x.n }) with counts := true } e.stepped e.hw) := by
  intro r x hd pass
  have issued := hi.trans (issueF_ok h _)
  have passes := queueCopy_passes still room r (x := x) (lanewise := true)
    (refs := e.acts.map fun l => ⟨l, bits 63 52 (e.va r l).toNat, bits 51 0 (e.va r l).toNat⟩) (by
      intro a ha
      obtain ⟨l, hl, rfl⟩ := List.mem_map.1 ha
      exact pass l (mem_lanes.1 hl).1 (mem_lanes.1 hl).2)
  refine ⟨fun zero => ?_, fun some_n free => ?_⟩
  · exact retires_of_done h.here issued (passes.trans (if_pos (by simp [CopyArgs.empty, zero]))) (room_nil rfl rfl rfl rfl)
  · refine starts_of_start h.here issued (passes.trans ((if_neg ?_).trans ((if_neg (Bool.eq_false_iff.1 free)).trans ?_)))
    · simpa [CopyArgs.empty, x] using some_n
    · simp only [copyCommand, copyPieces, List.flatMap_map, Bool.true_or, if_true, env_state h.here]
      rfl

/-! ## Pieces -/

/-- Without overlap every byte of a piece reaches its destination (R289). -/
theorem live_of_not_overlap {c : Copy} (h : c.overlap = false) (x : Piece) (i : Nat) : c.live x i = true := by rw [Copy.live, h]; rfl

theorem noteRow_of_not_overlap {c : Copy} (h : c.overlap = false) (x : Piece) : c.noteRow x = c := by rw [Copy.noteRow, h]; rfl

/-- Without overlap the bytes of a piece make one run. -/
theorem runs_of_not_overlap {c : Copy} (h : c.overlap = false) (b : Block) (x : Piece) (k i : Nat) :
    c.runs b x (k + 1) i = [(i, (List.range (k + 1)).map fun j => c.src b x (i + j))] := by
  induction k generalizing i with
  | zero => simp [Copy.runs, live_of_not_overlap h]
  | succ k ih =>
    rw [Copy.runs, ih]
    simp only [live_of_not_overlap h, Bool.not_true, Bool.false_eq_true, if_false, if_true]
    rw [List.range_succ_eq_map (n := k + 1)]
    simp only [List.map_cons, List.map_map, Nat.add_zero, Function.comp_def, Nat.succ_eq_add_one]
    simp only [Nat.add_assoc, Nat.add_comm 1]

section
variable {m : Tab Memory} {t : Nat} {o : Op} {c : Copy} {x : Piece} {data : List Byte} {hw : Hw} {b : Block}
  (hb : hw.blocks.look c.blk = some b) (idle : ∀ i, i < x.n → unitBusy hw b (c.at x i) = false)
include hb idle

theorem units_idle : ((List.range x.n).map (c.at x)).any (unitBusy hw (hw.blocks.val {} c.blk)) = false := by
  rw [val_of_look hb, List.any_map]
  exact List.any_eq_false.2 fun i hi => by simpa using idle i (List.mem_range.1 hi)

section
variable {h : Hw} {tg : Target} (target : pieceTarget hw m o c x = (.ok tg, h)) (device : tg.space = 0) (new : x.data = none)
include target device new

/-- An inward piece of device memory is read whole (R292). -/
theorem movePiece_reads (inward : c.out = false) : movePiece m t o c x data hw = (readWords x (rdBytes m o.part tg.pa x.n), c, h) := by
  simp only [movePiece, units_idle hb idle, inward, Bool.false_and, Bool.or_self, Bool.false_eq_true, if_false, new, target, device, if_true]

/-- An outward piece to device memory writes the bytes that its scratchpad holds (R292). -/
theorem movePiece_writes (hb' : h.blocks.look c.blk = some b) (outward : c.out = true) (apart : c.overlap = false) (live : c.cap = [])
    (some_n : 0 < x.n) (ready : sourcesReady hw o = true) (alone : NoCopies o.id h c.blk)
    (home : (h.part o.part).link.hostLines.contains (lineOf tg.pa) = false) (free : lineHeld h o.part (lineOf tg.pa) o.id = false)
    (off : ∀ cx, h.ctx o.part o.ctx = some cx → cx.tail.en = false) :
    ∃ c' h' p, movePiece m t o c x data hw = ([], c', h') ∧ p ∈ (h'.part o.part).pend ∧ p.addr = tg.pa ∧
      p.bytes = (List.range x.n).map (fun i => b.scr.val 0 (c.at x i)) ∧ t + 2 ≤ p.w := by
  have bytes : ((List.range x.n).map fun j => c.src b x (0 + j)) = (List.range x.n).map fun i => b.scr.val 0 (c.at x i) := by
    refine List.map_congr_left fun i _ => ?_
    rw [Nat.zero_add, Copy.src, live]
    rfl
  obtain ⟨k, hk⟩ := Nat.exists_eq_succ_of_ne_zero (Nat.pos_iff_ne_zero.1 some_n)
  have run : c.runs b x x.n 0 = [(0, (List.range x.n).map fun i => b.scr.val 0 (c.at x i))] := by
    rw [← bytes, hk]
    exact runs_of_not_overlap apart b x k 0
  obtain ⟨h', wrote, ⟨p, pend, pw, pa, pb, -, -⟩, -, -⟩ := ctxWrite_takes free off m t (x.va + 0) ((List.range x.n).map fun i => b.scr.val 0 (c.at x i))
  let q : PWrite := if p.id = o.id then { p with paths := 0 } else p
  have move : ∃ c' , movePiece m t o c x data hw = ([], c', h'.setPart o.part fun q => { q with
      pend := q.pend.map fun w => if w.id = o.id then { w with paths := 0 } else w }) := by
    refine ⟨(c.noteRow x).count x.n (some (Nat.max (assignW (h.part o.part) (orderUnit tg.pa) t) 0)), ?_⟩
    simp only [movePiece, units_idle hb idle, outward, ready, Bool.not_true, Bool.and_false, Bool.or_self, Bool.false_eq_true, if_false, new,
      target, if_true, touchScrOf_alone alone, val_of_look hb', run, List.foldl_cons, List.foldl_nil, writeRun, device, Nat.add_zero, home]
    rw [Nat.add_zero] at wrote
    simp only [wrote]
    rfl
  obtain ⟨c', move⟩ := move
  refine ⟨c', _, q, move, ?_, ?_, ?_, ?_⟩
  · rw [Hw.part_setPart_same]
    exact List.mem_map.2 ⟨p, by rw [pend]; simp, rfl⟩
  · simp only [q]
    split <;> exact pa
  · simp only [q]
    split <;> exact pb
  · have late := (assignW_spec (h.part o.part) (orderUnit tg.pa) t).1
    rw [← pw] at late
    simp only [q]
    split <;> exact late

end

/-- The words of an inward piece that has been read are written to scratchpad, and nothing else (R292). -/
theorem movePiece_stores {bs : List Byte} (read : x.data = some bs) (len : bs.length = x.n) (inward : c.out = false) (apart : c.overlap = false)
    (alone : NoCopies o.id hw c.blk) :
    ∃ c' h' b', movePiece m t o c x data hw = ([], c', h') ∧ c'.owed = c.owed + x.n ∧ c'.failed = c.failed ∧ c'.todo = c.todo ∧
      h'.gangs = hw.gangs ∧ (∀ p, SamePart (hw.part p) (h'.part p)) ∧ h'.blocks.look c.blk = some b' ∧
      Stored b.scr b'.scr ((List.range x.n).map fun i => (c.at x i, [bs.getD i 0])) := by
  have noted : SameButLogs hw (noteScr o c.blk (((List.range x.n).filter fun i => c.live x i).map (c.at x)) hw) := logOp_frame ..
  have each : ∀ (l : List (Nat × Byte)) (b : Block), l.foldl (fun b y => if c.live x y.1 then scrStore b (c.at x y.1) [y.2] else b) b =
      { b with scr := storeAll (l.map fun y => (c.at x y.1, [y.2])) b.scr } := by
    intro l b
    rw [← foldl_scrStore]
    simp only [live_of_not_overlap apart, if_true]
  have bytes : ((List.range x.n).zip bs).map (fun y => (c.at x y.1, [y.2])) = (List.range x.n).map fun i => (c.at x i, [bs.getD i 0]) := by
    refine List.ext_getElem (by simp [len]) fun i hi hi' => ?_
    have lt : i < bs.length := by simpa [len] using hi'
    simp [List.getElem?_eq_getElem lt]
  let hold (b : Block) : Block := { b with scr := storeAll ((List.range x.n).map fun i => (c.at x i, [bs.getD i 0])) b.scr }
  have kept := noted.setBlock c.blk hold
  refine ⟨c.count x.n none, (noteScr o c.blk (((List.range x.n).filter fun i => c.live x i).map (c.at x)) hw).setBlock c.blk hold, hold b, ?_, rfl,
    rfl, rfl, noted.gangs, noted.parts, ?_, stored_storeAll ..⟩
  · simp only [movePiece, units_idle hb idle, inward, Bool.false_and, Bool.or_self, Bool.false_eq_true, if_false, read, touchScrOf_alone alone,
      noteRow_of_not_overlap apart, each, bytes]
    rfl
  · rw [kept.blocks, Hw.setBlock, Tab.look_upd, if_pos rfl, hb]
    rfl

end

/-! ## Commands that end -/

/-- A block where no path waits for an object wakes none. -/
theorem wakeBarw_none {s : State} (h : ∀ g ∈ s.hw.gangs, ∀ q ∈ g.2.paths, ∀ off ph, q.2.wait ≠ .barw off ph) (bk : Nat) : wakeBarw s bk = s := by
  have paths : ∀ (ps : List (Nat × Path)) (gk : Nat), (∀ q ∈ ps, ∀ off ph, q.2.wait ≠ .barw off ph) → ps.foldl (fun s q => match q.2.wait with
      | .barw off ph => if q.2.state = .barrier ∧ runsOn s.hw (gkCore gk) (gkCtx gk) ∧ bit 63 (objWord s.hw bk off) ≠ ph then retireAt s gk q.1 {} else s
      | _ => s) s = s := by
    intro ps gk none
    induction ps with
    | nil => rfl
    | cons q ps ih =>
      rw [List.foldl_cons]
      split
      · next off ph wait => exact absurd wait (none q List.mem_cons_self off ph)
      · exact ih fun y hy => none y (List.mem_cons_of_mem _ hy)
  have gangs : ∀ gs : List (Nat × Gang), (∀ g ∈ gs, ∀ q ∈ g.2.paths, ∀ off ph, q.2.wait ≠ .barw off ph) →
      gs.foldl (fun s x => x.2.paths.foldl (fun s q => match q.2.wait with
        | .barw off ph => if q.2.state = .barrier ∧ runsOn s.hw (gkCore x.1) (gkCtx x.1) ∧ bit 63 (objWord s.hw bk off) ≠ ph then retireAt s x.1 q.1 {} else s
        | _ => s) s) s = s := by
    intro gs none
    induction gs with
    | nil => rfl
    | cons g gs ih =>
      rw [List.foldl_cons, paths g.2.paths g.1 (none g List.mem_cons_self)]
      exact ih fun y hy => none y (List.mem_cons_of_mem _ hy)
  exact gangs _ fun g hg => h g (List.mem_filter.1 hg).1

/-- A command that owes its object nothing is paid. -/
theorem payObject_paid {c : Copy} (h : c.owed = 0) (hw : Hw) (t : Nat) (o : Op) (now : Bool) : payObject hw t o c now = (c, hw) := by
  have same : ({ c with owed := 0 } : Copy) = c := by rw [← h]
  unfold payObject
  split
  · rw [same]
  · exact if_pos (.inl h)

/-- A command with nothing left to move, to pass and to count ends (R287). -/
theorem copyEnds {id : Nat} {data : List Byte} {s : State} {o : Op} {c : Copy} (ho : s.hw.op id = some o) (hk : o.kind = .copy c)
    (chain : o.chain = none) (todo : c.todo = []) (landing : c.landing = []) (owed : c.owed = 0)
    (paid : ∀ y ∈ s.hw.ops, y.after.contains id = true → ∀ a b k t, y.kind ≠ .update a b k t)
    (unawaited : ∀ g ∈ s.hw.gangs, ∀ q ∈ g.2.paths, ∀ off ph, q.2.wait ≠ .barw off ph) :
    ∃ h o' c', exec (.copyComplete id data) s = .next (finishCopyOp (s.with h) o' c') ∧ o'.id = o.id ∧ o'.gk = o.gk ∧ o'.dst = o.dst ∧
      c'.batch = c.batch ∧ c'.failed = c.failed ∧ h.gangs = s.hw.gangs ∧ h.blocks = s.hw.blocks := by
  have same : ({ c with landing := c.landing.filter fun x => !decide (x.1 + 2 ≤ s.time),
                        owed := c.owed + ((c.landing.filter fun x => decide (x.1 + 2 ≤ s.time)).map fun x => x.2).sum } : Copy) = c := by
    obtain ⟨⟩ := c
    simp only at landing owed
    subst landing owed
    rfl
  let o' : Op := { o with kind := .copy c, held := o.held && c.todo.any fun p => p.st == 5 }
  let h : Hw := s.hw.setOp id fun o => { o with kind := .copy c, held := o.held && c.todo.any fun p => p.st == 5 }
  have after : copyOver h id c = true := by
    unfold copyOver
    simp only [todo, landing, owed, List.isEmpty_nil, beq_self_eq_true, Bool.and_self, Bool.true_and, Bool.not_eq_true']
    refine List.any_eq_false.2 fun y hy => ?_
    obtain ⟨z, hz, rfl⟩ := List.mem_map.1 hy
    split
    · simp
    · cases hz' : z.after.contains id with
      | false => simp
      | true =>
        have other := paid z hz hz'
        split
        · next a b k t hu => exact absurd hu (other a b k t)
        · simp
  have op' : h.op id = some o' := op_setOp_same rfl ho (id_of_op (o := o) ho)
  refine ⟨h, o', c, ?_, rfl, rfl, rfl, rfl, rfl, rfl, rfl⟩
  simp only [exec, execCopyComplete, ho, hk, same]
  simp only [todo, List.isEmpty_nil, if_true, payObject_paid owed]
  rw [← todo, wakeBarw_none (s := s.with h) unawaited]
  simp only [State.with, op', after, chain, Option.isNone_none, Bool.and_self, if_true]

/-! ## Batches -/

theorem bclose_rules {f : SFields} {s : State} {e : Env} (h : IssuesS Forms.bclose f s e) :
    let r := regsS Forms.bclose f
    let n := e.g.closed + 1
    let hw := moveHorizon (e.hw.setGang e.gk fun g =>
      { g with closed := n, openFailed := 0, batches := g.batches ++ [{ num := n, failed := g.openFailed }] }) e.gk
    (16 ≤ openCount e.hw e.gk e.g → Holds (.bclose f) s) ∧
    (openCount e.hw e.gk e.g < 16 → Room e r (putS r (batchNum n)) hw → Retires (.bclose f) s e r (putS r (batchNum n)) hw) := by
  intro r n hw
  have issued := (show exec (.bclose f) s = execBclose f s from rfl).trans (issueS_ok h _)
  exact ⟨fun full => holds_of_hold h.here issued (if_pos full), fun room => retires_of_done h.here issued (if_neg (Nat.not_le.2 room))⟩

theorem bwait_rules {f : Fields} {s : State} {e : Env} (h : Issues Forms.bwait f s e) :
    let r := regsF Forms.bwait f
    let n := (e.sa r).toNat
    let left := f.op == 1
    let bad := !left && n != 0 && (decide (2 ^ 32 ≤ n) || (decide (e.g.closed < 2 ^ 32 - 1) && decide (e.g.closed < n)))
    (bad = true → Traps (.bwait f) s e { cause := 0x14, hit := e.act }) ∧
    (bad = false → bwaitMet e.g left n = true →
      let hw := e.hw.setGang e.gk fun g => { g with unrep := 0 }
      Room e r (putS r (bwaitValue e.g)) hw → Retires (.bwait f) s e r (putS r (bwaitValue e.g)) hw) ∧
    (bad = false → bwaitMet e.g left n = false → Parks (.bwait f) s e r .parked (.bwait left n r.d) e.hw) := by
  intro r n left bad
  have issued := (show exec (.bwait f) s = execBwait f s from rfl).trans (issueF_ok h _)
  exact ⟨fun is => traps_of_trap issued (if_pos is),
    fun good met => retires_of_done h.here issued ((if_neg (Bool.eq_false_iff.1 good)).trans (if_pos met)),
    fun good unmet => stays_of_stay issued ((if_neg (Bool.eq_false_iff.1 good)).trans (if_neg (Bool.eq_false_iff.1 unmet)))⟩

theorem batchNum_spec (n : Nat) : batchNum (n + 1) ≠ 0 ∧ batchNum (n + 1) < 2 ^ 32 := by
  simp only [batchNum, Nat.add_one_ne_zero, if_false, Nat.add_sub_cancel]
  omega

/-- In the first 2^31 batches a number is met when the horizon has reached it (R295). -/
theorem bwaitMet_spec {g : Gang} {n : Nat} (pos : 0 < n) (early : g.horizon < 2 ^ 31) :
    (n ≤ g.horizon → bwaitMet g false n = true) ∧ (g.horizon < n → n < 2 ^ 31 → bwaitMet g false n = false) := by
  have own : batchNum g.horizon = g.horizon := by
    unfold batchNum
    split <;> omega
  have some_n : (n == 0) = false := by simpa using Nat.pos_iff_ne_zero.1 pos
  simp only [bwaitMet, withinHorizon, own, some_n, Bool.false_or, Bool.false_eq_true, if_false]
  exact ⟨fun le => decide_eq_true (by omega), fun gt lt => decide_eq_false (by omega)⟩

/-- Settles O29: a form's references are checked before its command is queued, a piece moves by its target, and the horizon answers. -/
theorem copyCommands : Obligations.CopyCommands := by
  refine ⟨⟨fun f s e h still room => cpy_rules h still room, fun fm con out which f s e h still room => ?_,
    fun m t o c x data hw h tg b target device hb hb' idle new => ⟨movePiece_reads hb idle target device new, movePiece_writes hb idle target device new hb'⟩,
    fun m t o c x data bs hw b read len inward apart hb idle alone => movePiece_stores hb idle read len inward apart alone,
    fun id data s o c ho hk chain todo landing owed paid none => copyEnds ho hk chain todo landing owed paid none⟩,
    fun f s e h => bclose_rules h, fun f s e h => bwait_rules h, batchNum_spec, fun g n pos early => bwaitMet_spec pos early⟩
  refine lanesCopy_rules (out := out) ?_ h still room
  rcases which with ⟨rfl, rfl, rfl⟩ | ⟨rfl, rfl, rfl⟩ <;> rfl

end Sys2Proof.Machine
end

section
/-! SUPPORT. Descriptor chains: the forms that start, signal and ask, and the steps of a chain (15_copies R296-R301). -/

namespace Sys2Proof.Machine

open Sys2Proof

/-! ## cbrun -/

/-- The chains of a core's context that have not ended. -/
def liveChains (e : Env) : Tab Chain := (e.hw.image e.core e.ctx).chains.filter fun c => c.2.state == 1 || c.2.state == 2
/-- The machine without the chains that have ended. -/
def chainsKept (e : Env) : Hw := e.hw.setImage e.core e.ctx fun i => { i with chains := liveChains e }

section
variable {f : Fields} {s : State} {e : Env} (h : Issues Forms.cbrun f s e)
include h

theorem exec_cbrun : exec (.cbrun f) s = .next (s.with (e.finish (regsF Forms.cbrun f)
    (let r := regsF Forms.cbrun f
     let a := (e.sa r).toNat
     if 2 ^ 57 ≤ a then .trap { cause := 0x07, info := 3, hit := e.act }
     else if a % 128 ≠ 0 then .trap { cause := 0x08, hit := e.act }
     else match (List.range 16).find? fun k => !(liveChains e).has k with
      | none => .done (putS r (2 ^ 63)) (chainsKept e)
      | some k => .done (putS r k) (setChain (chainsKept e) e.core e.ctx k { block := e.g.block, launch := e.g.launch, addr := a, state := 1 })))) := by
  have kept : (e.hw.setImage e.core e.ctx fun i => { i with chains := i.chains.filter fun c => c.2.state == 1 || c.2.state == 2 }) = chainsKept e := rfl
  have chains : ((chainsKept e).image e.core e.ctx).chains = liveChains e := congrArg Image.chains (Hw.image_setImage_same ..)
  refine ((show exec (.cbrun f) s = execCbrun f s from rfl).trans (issueF_ok h _)).trans ?_
  simp only [kept, chains] <;> rfl

variable (fits : (e.sa (regsF Forms.cbrun f)).toNat < 2 ^ 57) (aligned : (e.sa (regsF Forms.cbrun f)).toNat % 128 = 0)
include fits aligned

/-- cbrun takes the lowest free slot (R299). -/
theorem cbrun_takes {k : Nat} (lt : k < 16) (free : (liveChains e).has k = false) (low : ∀ j, j < k → (liveChains e).has j = true) :
    Answers (.cbrun f) s e (regsF Forms.cbrun f) k (setChain (chainsKept e) e.core e.ctx k
      { block := e.g.block, launch := e.g.launch, addr := (e.sa (regsF Forms.cbrun f)).toNat, state := 1 }) := by
  have found : (List.range 16).find? (fun k => !(liveChains e).has k) = some k := by
    refine List.find?_range_eq_some.2 ⟨by simpa using free, List.mem_range.2 lt, fun j hj => by simpa using low j hj⟩
  refine retires_of_done h.here (exec_cbrun h) ?_
  simp only [Nat.not_le.2 fits, aligned, found, if_false, ne_eq, not_true_eq_false]

theorem cbrun_full (full : ∀ k, k < 16 → (liveChains e).has k = true) :
    Answers (.cbrun f) s e (regsF Forms.cbrun f) (2 ^ 63) (chainsKept e) := by
  have found : (List.range 16).find? (fun k => !(liveChains e).has k) = none :=
    List.find?_eq_none.2 fun k hk => by simpa using full k (List.mem_range.1 hk)
  refine retires_of_done h.here (exec_cbrun h) ?_
  simp only [Nat.not_le.2 fits, aligned, found, if_false, ne_eq, not_true_eq_false]

end

/-! ## Steps of a chain -/

section
variable {core ctx slot : Nat} {s : State} {p : Nat} {c : Chain} (hp : corePart s.hw core = some p)
  (hc : (s.hw.image core ctx).chains.look slot = some c) (runs : runsOn s.hw core ctx = true) (up : coreUp s.hw core = true)
include hp hc runs up

theorem exec_chainRetest (waits : c.state = 2) :
    exec (.chainRetest core ctx slot) s = .next (s.with (chainEval s.hw s.mem p core ctx slot c)) := by
  simp only [exec, execChainRetest, hp, hc, waits, runs, up, and_self, if_true]

variable (going : c.state = 1) (idle : c.op = none)
include going idle

theorem chainBlock_stops (stop : c.stop = true) :
    exec (.chainBlock core ctx slot) s = .next (s.with (setChain s.hw core ctx slot { c with state := 0 })) := by
  simp only [exec, execChainBlock, hp, hc, going, idle, runs, up, stop, ne_eq, not_true_eq_false, if_false, Bool.not_true, Bool.or_self,
    Bool.false_eq_true, if_true]

variable (on : c.stop = false)
include on

theorem chainBlock_unmapped {l : Nat} {h : Hw} (t : translate s.hw s.mem p ctx c.addr = (.error l, h)) :
    exec (.chainBlock core ctx slot) s = .next (s.with (setChain h core ctx slot (c.fail 0x04))) := by
  simp only [exec, execChainBlock, hp, hc, going, idle, runs, up, on, t, ne_eq, not_true_eq_false, if_false, Bool.not_true, Bool.or_self,
    Bool.false_eq_true]

/-- A chain that goes on fetches its block, which is checked before its test (R296-R298). -/
theorem chainBlock_fetches {y : Trans} {h : Hw} (t : translate s.hw s.mem p ctx c.addr = (.ok y, h)) (device : y.kind = 0) (read : y.r = true) :
    let c' := { c with words := bytesWords 16 (rdBytes s.mem p y.pa 128) }
    (blockBad c'.w = true → exec (.chainBlock core ctx slot) s = .next (s.with (setChain h core ctx slot (c'.fail 0x01)))) ∧
    (blockBad c'.w = false → exec (.chainBlock core ctx slot) s = .next (s.with (chainEval h s.mem p core ctx slot c'))) := by
  intro c'
  have fetched : exec (.chainBlock core ctx slot) s = if blockBad c'.w = true then .next (s.with (setChain h core ctx slot (c'.fail 0x01)))
      else .next (s.with (chainEval h s.mem p core ctx slot c')) := by
    simp only [exec, execChainBlock, hp, hc, going, idle, runs, up, on, t, device, read, ne_eq, not_true_eq_false, if_false, Bool.not_true,
      Bool.or_self, Bool.false_eq_true, or_self, c']
  exact ⟨fun bad => fetched.trans (if_pos bad), fun good => fetched.trans (if_neg (Bool.eq_false_iff.1 good))⟩

end

/-- A chain whose signal fails its test waits, where its block says so (R297). -/
theorem chainEval_waits {hw : Hw} {m : Tab Memory} {p core ctx slot : Nat} {c : Chain} (signal : bits 6 5 (c.w 2) = 2)
    (fails : chainTest c c.sig.toNat = false) (waits : bits 11 10 (c.w 2) = 0) (on : c.stop = false) :
    chainEval hw m p core ctx slot c = setChain hw core ctx slot { c with op := none, test := false, state := 2 } := by
  simp only [chainEval, signal, fails, chainTested, waits, on, Bool.false_eq_true, if_false]

/-! ## cbsig and cbstat -/

section
variable {f : Fields} {s : State} {e : Env}

theorem cbsig_none (h : Issues Forms.cbsig f s e) (none' : e.chain (e.sa (regsF Forms.cbsig f)).toNat = none) :
    Retires (.cbsig f) s e (regsF Forms.cbsig f) {} e.hw := by
  refine retires_of_done h.here ((show exec (.cbsig f) s = execCbsig f s from rfl).trans (issueF_ok h _)) ?_ (room_nil rfl rfl rfl rfl)
  simp only [none']

/-- cbsig reaches a chain of its block: with .stop it ends or is told to, else its signal grows, and a waiting one tests anew (R300). -/
theorem cbsig_some (h : Issues Forms.cbsig f s e) {c : Chain} (hc : e.chain (e.sa (regsF Forms.cbsig f)).toNat = some c) :
    let r := regsF Forms.cbsig f
    let n := (e.sa r).toNat
    let c1 := { c with sig := c.sig ||| e.sb r }
    let hw := if f.op = 1 then setChain e.hw e.core e.ctx n
          (if c.state = 2 then { c with state := 0 } else if c.state = 1 then { c with stop := true } else c)
        else if c.state = 2 then chainEval (setChain e.hw e.core e.ctx n c1) s.mem e.part e.core e.ctx n c1
        else setChain e.hw e.core e.ctx n c1
    Retires (.cbsig f) s e r {} hw := by
  intro r n c1 hw
  refine retires_of_done h.here ((show exec (.cbsig f) s = execCbsig f s from rfl).trans (issueF_ok h _)) ?_ (room_nil rfl rfl rfl rfl)
  simp only [hc, env_state h.here, hw, apply_ite (Res.done {}), r, n, c1]

theorem cbstat_answers (h : Issues Forms.cbstat f s e) :
    let r := regsF Forms.cbstat f
    let v := match e.chain (e.sa r).toNat with
      | none => 0
      | some c => c.state * 2 ^ 62 + bits 56 7 c.addr * 2 ^ 7 + (if c.state = 3 then c.err else 0)
    Answers (.cbstat f) s e r v e.hw := by
  intro r v
  refine retires_of_done h.here ((show exec (.cbstat f) s = execCbstat f s from rfl).trans (issueF_ok h _)) ?_
  cases hc : e.chain (e.sa (regsF Forms.cbstat f)).toNat with
  | none => simp only [v, r, hc]
  | some c => simp only [v, r, hc]

end

/-- Settles O30: cbrun by the slots that chains which have not ended leave, a chain's step by its block, and the other forms by the chain
they name. -/
theorem chains : Obligations.Chains := by
  refine ⟨fun f s e h => ⟨fun far => ?_, fun near bad => ?_, fun near aligned => ⟨fun k lt free low => cbrun_takes h near aligned lt free low,
      fun full => cbrun_full h near aligned full⟩⟩,
    fun core ctx slot s p c hp hc going idle runs up => ⟨chainBlock_stops hp hc runs up going idle, fun on =>
      ⟨fun l h t => chainBlock_unmapped hp hc runs up going idle on t, fun y h t device read => chainBlock_fetches hp hc runs up going idle on t device read⟩⟩,
    fun core ctx slot s p c hp hc waits runs up => exec_chainRetest hp hc runs up waits,
    fun hw m p core ctx slot c signal fails waits on => chainEval_waits signal fails waits on,
    fun f s e h => ⟨cbsig_none h, fun c hc => cbsig_some h hc⟩, fun f s e h => cbstat_answers h⟩
  · exact traps_of_trap (exec_cbrun h) (if_pos far)
  · exact traps_of_trap (exec_cbrun h) ((if_neg (Nat.not_le.2 near)).trans (if_pos bad))

end Sys2Proof.Machine
end

section
/-! SUPPORT. The pass forms: what they check, the tiles they take and the request they queue (16_matrix R302-R312). -/

namespace Sys2Proof.Machine

open Sys2Proof

/-! ## The request a pass form makes -/

/-- Whether the A operand of a pass form lies in vector registers (R309). -/
def passInReg (f : Fields) (form : Nat) : Bool := form == 0 && f.cl == 2
/-- The quarters of which a lane is active (R303). -/
def passQuarters (e : Env) : List Nat := (List.range 4).filter (sliceAct e.act)
/-- The request a pass form queues. -/
def passOf (fm : Form) (f : Fields) (e : Env) (form : Nat) : Pass :=
  let r := regsF fm f
  { form := form, ty := f.ty, kg := Forms.kgOf f, z := bit 0 f.op, bt := bit 1 f.op, act := e.act, da := e.sa r, db := e.sb r
    dc := e.q.sr r.c, blk := e.g.block, obj := mxObj f, prio := hdrPrio (e.hw.hdr e.g.launch)
    arrive := clusterCycles e.hw (coreCluster e.core) e.now, todo := (passQuarters e).map fun q => (q, e.blk.accb + r.d + q)
    areg := if passInReg f form then some ((List.range (Forms.aRegs f)).flatMap fun i => allLanes.map fun l =>
      (32 * i + l, e.g.v (r.a + i) l)) else none }
/-- The trap over the scratchpad operands of a pass form, if any (R311). -/
def passScratchTrap (fm : Form) (f : Fields) (e : Env) (form : Nat) : Option Trap :=
  let m := passOf fm f e form
  scratchTrap e ((if passInReg f form then [] else [dBase m.da, dPitch m.da]) ++ [dBase m.db, dPitch m.db] ++
    (if passInReg f form then [] else [dTp m.da])) (m.ranges (passQuarters e)) ((if passInReg f form then [] else [(m.da, 4)]) ++ [(m.db, 4)]) m.obj
/-- The machine once a pass form has taken its tiles and given up its operand registers. -/
def passTakes (fm : Form) (f : Fields) (e : Env) (form : Nat) : Hw :=
  let r := regsF fm f
  let h1 := (passQuarters e).foldl (fun h q => takeTile h e.core e.ctx (e.blk.accb + r.d + q)) e.hw
  if passInReg f form && r.lua then (List.range (Forms.aRegs f - 1)).foldl (fun h i => releaseV h e.gk (r.a + 1 + i) e.act) h1 else h1

/-- The quarters whose tile lies beyond the allotment of the block (R311). -/
def passFar (fm : Form) (f : Fields) (e : Env) : List Nat := (passQuarters e).filter fun q => decide (e.blk.accn ≤ (regsF fm f).d + q)
/-- The quarters whose tile belongs to another context (R315). -/
def passForeign (fm : Form) (f : Fields) (e : Env) : List Nat :=
  (passQuarters e).filter fun q => tileForeign e.hw e.core e.ctx (e.blk.accb + (regsF fm f).d + q)
/-- The active lanes of the quarters in a list. -/
def quarterLanes (e : Env) (qs : List Nat) : Lanes := lanesWhere fun l => inLanes e.act l && qs.contains (l / 8)

/-- The outcome of a pass form that no acquire and no full table holds (R303, R311, R315). -/
def passOutcome (fm : Form) (f : Fields) (e : Env) (form : Nat) : Res :=
  let r := regsF fm f
  match passFar fm f e with
  | q :: _ => .trap { cause := 0x05, fault := tileFault (r.d + q), hit := quarterLanes e (passFar fm f e) }
  | [] => match passScratchTrap fm f e form with
    | some t => .trap t
    | none => match passForeign fm f e with
      | q :: _ => .trap (foreignTrap (e.blk.accb + r.d + q) (r.d + q) (quarterLanes e (passForeign fm f e)))
      | [] => e.start r (e.newOp r (.pass (passOf fm f e form))) e.stepped (passTakes fm f e form)

section
variable {i : Instr} {fm : Form} {f : Fields} {s : State} {e : Env} {form : Nat} (hi : exec i s = passForm fm f s form) (h : Issues fm f s e)
  (free : e.acquiring = false) (room : reservesFull e.hw e.core = false)
include hi h free room

theorem exec_pass : exec i s = .next (s.with (e.finish (regsF fm f) (passOutcome fm f e form))) := by
  refine (hi.trans (issueF_ok h _)).trans ?_
  simp only [free, room]
  rfl

omit hi h free room in
theorem active_in_quarter {l : Nat} (on : inLanes e.act l = true) : l < 32 ∧ l / 8 ∈ passQuarters e := by
  have lt : l < 32 := by
    by_contra far
    rw [inLanes, BitVec.getLsbD_of_ge _ _ (Nat.not_lt.1 far)] at on
    cases on
  refine ⟨lt, List.mem_filter.2 ⟨List.mem_range.2 (by omega), List.any_eq_true.2 ⟨l % 8, List.mem_range.2 (by omega), ?_⟩⟩⟩
  rwa [Nat.div_add_mod]

omit hi h free room in
theorem quarterLanes_far (l : Nat) : inLanes (quarterLanes e (passFar fm f e)) l =
    (inLanes e.act l && decide (e.blk.accn ≤ (regsF fm f).d + l / 8)) := by
  rw [quarterLanes, inLanes_where]
  cases on : inLanes e.act l with
  | false => simp
  | true =>
    obtain ⟨lt, among⟩ := active_in_quarter on
    by_cases far : e.blk.accn ≤ (regsF fm f).d + l / 8
    · simp [lt, far, passFar, among]
    · simp [lt, far, passFar]

/-- The lowest tile beyond the allotment is the one the trap names (R311). -/
theorem pass_traps_far {q : Nat} (mem : q ∈ passQuarters e) (far : e.blk.accn ≤ (regsF fm f).d + q)
    (low : ∀ q', q' ∈ passQuarters e → q' < q → (regsF fm f).d + q' < e.blk.accn) :
    Traps i s e { cause := 0x05, fault := tileFault ((regsF fm f).d + q), hit := quarterLanes e (passFar fm f e) } := by
  have least : ∃ rest, passFar fm f e = q :: rest := by
    have mem' : q ∈ passFar fm f e := List.mem_filter.2 ⟨mem, decide_eq_true far⟩
    have asc : (passFar fm f e).Pairwise (· < ·) := (List.pairwise_lt_range.filter _).filter _
    cases hl : passFar fm f e with
    | nil => simp [hl] at mem'
    | cons x rest =>
      rw [hl] at mem' asc
      obtain rfl | later := List.mem_cons.1 mem'
      · exact ⟨rest, rfl⟩
      · have here : x ∈ passFar fm f e := hl ▸ List.mem_cons_self
        obtain ⟨xq, xfar⟩ := List.mem_filter.1 here
        have := low x xq (List.rel_of_pairwise_cons asc later)
        have := of_decide_eq_true xfar
        omega
  obtain ⟨rest, hl⟩ := least
  refine traps_of_trap (exec_pass hi h free room) ?_
  simp only [passOutcome, hl]

section
variable (near : ∀ q, q ∈ passQuarters e → (regsF fm f).d + q < e.blk.accn)
include near

theorem exec_pass_near : exec i s = .next (s.with (e.finish (regsF fm f) (match passScratchTrap fm f e form with
    | some t => .trap t
    | none => match passForeign fm f e with
      | q :: _ => .trap (foreignTrap (e.blk.accb + (regsF fm f).d + q) ((regsF fm f).d + q) (quarterLanes e (passForeign fm f e)))
      | [] => e.start (regsF fm f) (e.newOp (regsF fm f) (.pass (passOf fm f e form))) e.stepped (passTakes fm f e form)))) := by
  have nil : passFar fm f e = [] := List.filter_eq_nil_iff.2 fun q hq far => absurd (of_decide_eq_true far) (Nat.not_le.2 (near q hq))
  rw [exec_pass hi h free room, passOutcome]
  simp only [nil]

theorem pass_traps_scratch {t : Trap} (trap : passScratchTrap fm f e form = some t) : Traps i s e t :=
  traps_of_trap (exec_pass_near hi h free room near) (by simp only [trap])

theorem pass_traps_foreign (ok : passScratchTrap fm f e form = none)
    (foreign : ∃ q, q ∈ passQuarters e ∧ tileForeign e.hw e.core e.ctx (e.blk.accb + (regsF fm f).d + q) = true) :
    ∃ n hit, Traps i s e (foreignTrap (e.blk.accb + (regsF fm f).d + n) ((regsF fm f).d + n) hit) := by
  obtain ⟨q, hq, own⟩ := foreign
  have mem : q ∈ passForeign fm f e := List.mem_filter.2 ⟨hq, own⟩
  cases hl : passForeign fm f e with
  | nil => simp [hl] at mem
  | cons x rest =>
    refine ⟨x, quarterLanes e (passForeign fm f e), traps_of_trap (exec_pass_near hi h free room near) ?_⟩
    simp only [ok, hl]

theorem pass_starts (ok : passScratchTrap fm f e form = none)
    (own : ∀ q, q ∈ passQuarters e → tileForeign e.hw e.core e.ctx (e.blk.accb + (regsF fm f).d + q) = false) :
    Starts i s e (regsF fm f) (e.newOp (regsF fm f) (.pass (passOf fm f e form))) e.stepped (passTakes fm f e form) := by
  have nil : passForeign fm f e = [] := List.filter_eq_nil_iff.2 fun q hq => by simp [own q hq]
  refine starts_of_start h.here (exec_pass_near hi h free room near) ?_
  simp only [ok, nil]

end

end

/-- Settles O31: the checks of a pass form in their order, and the request it queues where none of them traps. -/
theorem matrixPasses : Obligations.MatrixPasses := by
  rintro fm con form which f s e h free room r inReg nReg qs m trap -
  have hi : exec (con f) s = passForm fm f s form := by
    obtain ⟨rfl, rfl, rfl⟩ | ⟨rfl, rfl, rfl⟩ | ⟨rfl, rfl, rfl⟩ := which <;> rfl
  exact ⟨fun q hq far low => ⟨_, quarterLanes_far, pass_traps_far hi h free room hq far low⟩,
    fun near => ⟨fun t ht => pass_traps_scratch hi h free room near ht, fun ok foreign => pass_traps_foreign hi h free room near ok foreign,
      fun ok own => pass_starts hi h free room near ok own⟩⟩

end Sys2Proof.Machine
end

section
/-! SUPPORT. The arbiter's grants, the result of a quarter operation, and the application of results to tiles (16_matrix R304-R312). -/

namespace Sys2Proof.Machine

open Sys2Proof

/-! ## What a grant changes -/

/-- Machines that differ at most in logs, cores and operations. -/
def GrantOnly (a b : Hw) : Prop := b = { a with parts := b.parts, cores := b.cores, ops := b.ops }

theorem GrantOnly.trans {a b c : Hw} (h : GrantOnly a b) (k : GrantOnly b c) : GrantOnly a c := by
  unfold GrantOnly at *
  rw [k, h]
theorem GrantOnly.setCore (a : Hw) (k : Nat) (f : Core → Core) : GrantOnly a (a.setCore k f) := rfl
theorem GrantOnly.setOp (a : Hw) (id : Nat) (f : Op → Op) : GrantOnly a (a.setOp id f) := rfl
theorem SameButLogs.grantOnly {a b : Hw} (h : SameButLogs a b) : GrantOnly a b := by
  unfold GrantOnly
  rw [h.rest]
theorem takeTile_only (a : Hw) (core c t : Nat) : GrantOnly a (takeTile a core c t) := by
  unfold takeTile
  split <;> rfl
theorem takeTile_ops (a : Hw) (core c t : Nat) : (takeTile a core c t).ops = a.ops := by
  unfold takeTile
  split <;> rfl
theorem noteTiles_frame (o : Op) (a b : Hw) : SameButLogs b (noteTiles o a b) := logOp_frame ..

/-- No operation of a machine copies from or to a block's scratchpad. -/
def NoScopies (hw : Hw) (blk : Nat) : Prop := ∀ y ∈ hw.ops, ∀ src fill dst kd len cap wr, y.kind ≠ .scopy blk src fill dst kd len cap wr

theorem touchScrOf_read {self : Nat} {hw : Hw} {blk : Nat} (h : NoScopies hw blk) (ys : List Nat) : touchScrOf self hw blk ys false = hw := by
  unfold touchScrOf
  refine if_pos (List.isEmpty_iff.2 (List.filter_eq_nil_iff.2 fun k hk => ?_))
  obtain ⟨o, ho, kind⟩ := List.mem_filterMap.1 hk
  split at kind
  · split at kind
    · next b src fill dst kd len cap wr hkind same => exact (h o ho src fill dst kd len cap wr (same ▸ hkind)).elim
    · cases kind
  all_goals simp at kind

theorem op_mem {hw : Hw} {id : Nat} {o : Op} (h : hw.op id = some o) : o ∈ hw.ops := List.mem_of_find?_eq_some h

/-- A request with one more quarter granted (R305). -/
def Pass.granted (m : Pass) (x : Nat × Nat) (v : List (Nat × BitVec 32)) : Pass :=
  { m with todo := m.todo.filter (fun y => y != x), ready := m.ready ++ [(x.2, v)], owed := m.owed + m.bytes }

/-- A grant makes the result of its quarter ready and changes nothing else but the tile it takes. -/
theorem grantQuarter_grants {a : Hw} {o : Op} {m : Pass} (ho : a.op o.id = some o) (kind : o.kind = .pass m) (cap : m.cap = [])
    (none' : NoScopies a m.blk) (x : Nat × Nat) :
    ∃ v, GrantOnly a (grantQuarter a o.id x) ∧ NoScopies (grantQuarter a o.id x) m.blk ∧
      (grantQuarter a o.id x).op o.id = some { o with kind := .pass (m.granted x v) } := by
  let h := noteTiles o a (takeTile a o.core o.ctx x.2)
  have ops : h.ops = a.ops := (noteTiles_frame ..).ops.trans (takeTile_ops ..)
  have only : GrantOnly a h := (takeTile_only ..).trans (noteTiles_frame ..).grantOnly
  let v := m.quarter (a.blocks.val {} m.blk) 0 x.1 (tileElem (h.core o.core) x.2)
  have eq : grantQuarter a o.id x = h.setOp o.id fun o => { o with kind := .pass (m.granted x v) } := by
    simp only [grantQuarter, ho, kind, touchScrOf_read none', cap, List.isEmpty_nil, if_true, Pass.granted, v, h]
  rw [eq]
  refine ⟨v, only.trans (.setOp ..), fun y hy => ?_, op_setOp_same ops ho rfl⟩
  obtain ⟨z, hz, rfl⟩ := List.mem_map.1 hy
  split
  · exact fun _ _ _ _ _ _ _ => OpKind.noConfusion
  · exact none' z (ops ▸ hz)

/-- Grants of one request, one after the other (R305). -/
theorem grants_fold (xs : List (Nat × Nat)) {a : Hw} {o : Op} {m : Pass} (ho : a.op o.id = some o) (kind : o.kind = .pass m)
    (cap : m.cap = []) (none' : NoScopies a m.blk) :
    ∃ o' m', GrantOnly a (xs.foldl (fun h x => grantQuarter h o.id x) a) ∧
      (xs.foldl (fun h x => grantQuarter h o.id x) a).op o.id = some o' ∧ o'.kind = .pass m' ∧
      m'.todo = m.todo.filter (fun y => !xs.contains y) ∧ m'.ready.map (·.1) = m.ready.map (·.1) ++ xs.map (·.2) := by
  induction xs generalizing a o m with
  | nil => exact ⟨o, m, rfl, ho, kind, by simp, by simp⟩
  | cons x xs ih =>
    obtain ⟨v, only, none1, op1⟩ := grantQuarter_grants ho kind cap none' x
    obtain ⟨o', m', only', op', kind', todo, ready⟩ := ih (o := { o with kind := .pass (m.granted x v) }) (m := m.granted x v) op1 rfl cap none1
    refine ⟨o', m', only.trans only', op', kind', todo.trans ?_, ready.trans ?_⟩
    · rw [Pass.granted, List.filter_filter]
      refine List.filter_congr fun y _ => ?_
      simp [bne, beq_eq_decide, Bool.and_comm]
    · simp [Pass.granted]

/-- Counting passes of cores leaves the rest of the machine. -/
theorem setCores_only (ks : List Nat) (f : Nat → Core → Core) (a : Hw) :
    GrantOnly a (ks.foldl (fun h k => h.setCore k (f k)) a) ∧ (ks.foldl (fun h k => h.setCore k (f k)) a).ops = a.ops := by
  induction ks generalizing a with
  | nil => exact ⟨rfl, rfl⟩
  | cons k ks ih =>
    obtain ⟨only, ops⟩ := ih (a.setCore k (f k))
    exact ⟨(GrantOnly.setCore ..).trans only, ops⟩

/-! ## The arbiter -/

/-- The requests of a cluster with an eligible quarter. -/
def requests (hw : Hw) (cluster : Nat) : List (Op × Pass) :=
  hw.ops.filterMap fun o => if coreCluster o.core = cluster ∧ !(eligibleOps hw o).isEmpty then
    (match o.kind with | .pass m => some (o, m) | _ => none) else none

theorem pickRequest_same {n : Nat} {y : Op × Pass} {xs : List (Op × Pass)} (all : ∀ x ∈ xs, x = y) (some' : xs ≠ []) :
    pickRequest n xs = some y := by
  induction xs with
  | nil => exact absurd rfl some'
  | cons x xs ih =>
    have here : x = y := all x List.mem_cons_self
    by_cases last : xs = []
    · rw [last, here]
      rfl
    · rw [pickRequest, ih (fun x hx => all x (List.mem_cons_of_mem _ hx)) last, here]
      exact if_neg (lt_irrefl _)

theorem requests_nil {hw : Hw} {cluster : Nat} (idle : ∀ y ∈ hw.ops, coreCluster y.core ≠ cluster ∨ eligibleOps hw y = []) :
    requests hw cluster = [] := by
  refine List.filterMap_eq_nil_iff.2 fun y hy => if_neg fun ⟨at', busy⟩ => ?_
  obtain away | empty := idle y hy
  · exact away at'
  · simp [empty] at busy

/-- Nothing happens where no request has an eligible quarter. -/
theorem exec_passGrant_idle {cluster : Nat} {s : State} (idle : ∀ y ∈ s.hw.ops, coreCluster y.core ≠ cluster ∨ eligibleOps s.hw y = []) :
    Holds (.passGrant cluster) s := by
  show execPassGrant cluster s = .next s
  have pick : pickRequest (clusterCycles s.hw cluster s.time) (requests s.hw cluster) = none := by rw [requests_nil idle]; rfl
  unfold execPassGrant
  dsimp only
  split
  · rfl
  · next o m h => cases pick.symm.trans h

section
variable {cluster : Nat} {s : State} {o : Op} {m : Pass} (ho : s.hw.op o.id = some o) (kind : o.kind = .pass m)
  (here : coreCluster o.core = cluster) (some' : eligibleOps s.hw o ≠ [])
  (alone : ∀ y ∈ s.hw.ops, y = o ∨ coreCluster y.core ≠ cluster ∨ eligibleOps s.hw y = [])
include ho kind here some' alone

theorem requests_alone : (∀ x ∈ requests s.hw cluster, x = (o, m)) ∧ requests s.hw cluster ≠ [] := by
  refine ⟨fun x hx => ?_, List.ne_nil_of_mem (a := (o, m)) (List.mem_filterMap.2 ⟨o, op_mem ho, ?_⟩)⟩
  · obtain ⟨y, hy, got⟩ := List.mem_filterMap.1 hx
    split at got
    · next busy =>
      obtain rfl | away | empty := alone y hy
      · rw [kind] at got
        exact (Option.some.inj got).symm
      · exact absurd busy.1 away
      · simp [empty] at busy
    · cases got
  · rw [if_pos ⟨here, by simpa using some'⟩, kind]

variable (cap : m.cap = []) (none' : NoScopies s.hw m.blk) (live : clusterLive s.hw cluster = true)
  (steady : (s.hw.cluster cluster).goal = none) (free : (s.hw.cluster cluster).holdTo ≤ s.time)
  (ramp : rampAllows (s.hw.cluster cluster) (clusterCycles s.hw cluster s.time) = true)
include cap none' live steady free ramp

/-- The arbiter grants up to four eligible quarters of the only request there is (R304, R305). -/
theorem exec_passGrant_grants :
    ∃ t o' m', exec (.passGrant cluster) s = .next t ∧ t.mem = s.mem ∧ t.hw.gangs = s.hw.gangs ∧ t.hw.blocks = s.hw.blocks ∧
      t.hw.op o.id = some o' ∧ o'.kind = .pass m' ∧ m'.todo = m.todo.filter (fun y => !((eligibleOps s.hw o).take 4).contains y) ∧
      m'.ready.map (·.1) = m.ready.map (·.1) ++ ((eligibleOps s.hw o).take 4).map (·.2) ∧
      (t.hw.cluster cluster).lastPass = clusterCycles s.hw cluster s.time := by
  obtain ⟨all, any⟩ := requests_alone ho kind here some' alone
  have pick := pickRequest_same (n := clusterCycles s.hw cluster s.time) all any
  have others : ((requests s.hw cluster).filter fun x => x.1.id != o.id && x.1.block == o.block && sameB m x.2) = [] :=
    List.filter_eq_nil_iff.2 fun x hx => by simp [all x hx]
  obtain ⟨o', m', only, op', kind', todo, ready⟩ := grants_fold ((eligibleOps s.hw o).take 4) ho kind cap none'
  have places : (((eligibleOps s.hw o).map fun x => (o.id, o.core, x)).take 4).foldl (fun h x => grantQuarter h x.1 x.2.2) s.hw =
      ((eligibleOps s.hw o).take 4).foldl (fun h x => grantQuarter h o.id x) s.hw := by
    rw [← List.map_take, List.foldl_map]
  show ∃ t o' m', execPassGrant cluster s = .next t ∧ _
  unfold execPassGrant
  dsimp only
  generalize hr : List.filterMap _ s.hw.ops = reqs
  obtain rfl : requests s.hw cluster = reqs := hr
  rw [pick]
  simp only [live, steady, Nat.not_lt.2 free, ramp, others, List.flatMap_nil, List.append_nil, places, Bool.not_true, Option.isSome_none,
    decide_false, Bool.or_false, Bool.false_eq_true, if_false]
  generalize hb : ((eligibleOps s.hw o).take 4).foldl (fun h x => grantQuarter h o.id x) s.hw = b at only op' ⊢
  generalize dedup _ = ks
  obtain ⟨only2, ops2⟩ := setCores_only ks (fun k x => { x with
    passes := (x.passes + 1) % 2 ^ 32
    fused := if 2 ≤ ((List.map (fun x => (o.id, o.core, x)) (eligibleOps s.hw o)).take 4).length then
      (x.fused + (((List.map (fun x => (o.id, o.core, x)) (eligibleOps s.hw o)).take 4).filter fun y => y.2.1 == k).length) % 65536 else x.fused }) b
  generalize ks.foldl _ b = c at only2 ops2 ⊢
  have frame := only.trans only2
  refine ⟨_, o', m', rfl, rfl, ?_, ?_, ?_, kind', todo, ready, ?_⟩
  · show c.gangs = _
    rw [frame]
  · show c.blocks = _
    rw [frame]
  · show c.ops.find? _ = _
    rw [ops2]
    exact op'
  · show ((c.setCluster cluster _).cluster cluster).lastPass = _
    rw [Hw.cluster, Hw.setCluster, Tab.val_ins, if_pos rfl]
    rfl

end

/-- Machines that differ in logs alone have the same cores. -/
theorem SameButLogs.core {a b : Hw} (h : SameButLogs a b) (k : Nat) : b.core k = a.core k := by
  rw [h.rest]
  rfl

/-! ## The result of a quarter operation -/

theorem mem_quarter {m : Pass} {b : Block} {use q : Nat} {old : Nat → Nat → BitVec 32} {i j : Nat} (hi : i < 32) (hj : j < 32)
    (on : m.areg.isSome = true → inLanes m.act (8 * q + i % 8) = true) : (32 * i + j, m.result b use q i j (old i j)) ∈ m.quarter b use q old := by
  refine List.mem_flatMap.2 ⟨i, List.mem_range.2 hi, ?_⟩
  rw [if_neg]
  · exact List.mem_map.2 ⟨j, List.mem_range.2 hj, rfl⟩
  · intro off
    obtain ⟨reg, out⟩ := Bool.and_eq_true_iff.1 off
    simp [on reg] at out

/-- A pass of form 0 with one K-group adds one exact sum, rounded once, to the element (R158, R310). -/
theorem result_plain {m : Pass} (form : m.form = 0) (kg : m.kg = 1) (b : Block) (use q i j : Nat) (old : BitVec 32) :
    m.result b use q i j old =
      let f := Ty.fmt .f32
      let sum := (f.round 0 0 (exsumP ((List.range 32).map fun k =>
        (fv m.elem (m.aCode b use q i k), fv m.elem (m.bCode b use k j))) []).1).code
      BitVec.ofNat 32 (f.round 0 0 (exsum [f.val (if m.z then 0 else old.toNat), f.val sum] false false).1).code := by
  have terms : m.term b use q i j 0 = fun k => (fv m.elem (m.aCode b use q i k), fv m.elem (m.bCode b use k j)) := by
    funext k
    unfold Pass.term
    rw [form]
    simp only [Nat.mul_zero, Nat.zero_add]
  simp only [Pass.result, kg, form, List.range_one, List.foldl_cons, List.foldl_nil, terms]
  rfl

/-! ## Results applied to tiles -/

/-- Stores into a table at places apart: each place stored holds its value, every other place is as it was. -/
theorem val_putAll {α : Type} [DecidableEq α] (d : α) (f : Nat → Nat) (inj : Function.Injective f) {xs : List (Nat × α)} (t : Tab α)
    (apart : (xs.map (·.1)).Nodup) :
    (∀ k v, (k, v) ∈ xs → (xs.foldl (fun m x => m.put d (f x.1) x.2) t).val d (f k) = v) ∧
    (∀ n, (∀ x ∈ xs, n ≠ f x.1) → (xs.foldl (fun m x => m.put d (f x.1) x.2) t).val d n = t.val d n) := by
  induction xs generalizing t with
  | nil => exact ⟨fun k v h => by simp at h, fun n _ => rfl⟩
  | cons x xs ih =>
    rw [List.map_cons, List.nodup_cons] at apart
    obtain ⟨fresh, apart⟩ := apart
    obtain ⟨stored, kept⟩ := ih (t.put d (f x.1) x.2) apart
    refine ⟨fun k v hk => ?_, fun n hn => ?_⟩
    · obtain here | later := List.mem_cons.1 hk
      · subst here
        refine (kept _ fun y hy same => fresh ?_).trans (by rw [Tab.val_put, if_pos rfl])
        exact List.mem_map.2 ⟨y, hy, (inj same).symm⟩
      · exact stored k v later
    · refine (kept n fun y hy => hn y (List.mem_cons_of_mem _ hy)).trans ?_
      rw [Tab.val_put, if_neg (hn x List.mem_cons_self)]

section
variable {c : Core} {t : Nat} {xs : List (Nat × BitVec 32)} (apart : (xs.map (·.1)).Nodup)
include apart

theorem tileElem_stored {i j : Nat} {v : BitVec 32} (mem : (32 * i + j, v) ∈ xs) : tileElem (tileStore c t xs) t i j = v := by
  have h := (val_putAll 0 (1024 * t + ·) (fun a b h => Nat.add_left_cancel h) c.tiles apart).1 _ _ mem
  rw [tileElem, Nat.add_assoc]
  exact h

theorem tileElem_kept (small : ∀ x ∈ xs, x.1 < 1024) {u i j : Nat} (hi : i < 32) (hj : j < 32)
    (away : u ≠ t ∨ ∀ v, (32 * i + j, v) ∉ xs) : tileElem (tileStore c t xs) u i j = tileElem c u i j := by
  refine (val_putAll 0 (1024 * t + ·) (fun a b h => Nat.add_left_cancel h) c.tiles apart).2 _ fun x hx same => ?_
  have := small x hx
  obtain other | none' := away
  · omega
  · by_cases hu : u = t
    · refine none' x.2 ?_
      rwa [show 32 * i + j = x.1 by omega]
    · omega

end

/-! ## The end of a request -/

theorem runTiles_idle {core n : Nat} {s : State} (idle : ∀ y ∈ s.hw.ops, y.core = core → ∀ a b, y.kind ≠ .tile a b) : runTiles core n s = s := by
  cases n with
  | zero => rfl
  | succ n =>
    have none' : (s.hw.ops.find? fun o => o.core == core &&
        (match o.kind with | .tile ts _ => ts.all fun t => !tileBusy s.hw core t o.id | _ => false)) = none := by
      refine List.find?_eq_none.2 fun y hy found => ?_
      obtain ⟨at', tile⟩ := Bool.and_eq_true_iff.1 found
      split at tile
      · next ts k kind => exact idle y hy (beq_iff_eq.1 at') ts k kind
      · cases tile
    rw [runTiles]
    split
    · next o h => cases none'.symm.trans h
    · rfl

theorem owesUpdate_none {hw : Hw} {id : Nat} (none' : ∀ y ∈ hw.ops, y.after.contains id = true → ∀ a b k u, y.kind ≠ .update a b k u) :
    owesUpdate hw id = false := by
  refine List.any_eq_false.2 fun y hy owed => ?_
  obtain ⟨waits, upd⟩ := Bool.and_eq_true_iff.1 owed
  split at upd
  · next a b k u kind => exact none' y hy waits a b k u kind
  · cases upd

section
variable {id : Nat} {s : State} {o : Op} {m : Pass} {t : Nat} {xs : List (Nat × BitVec 32)} (ho : s.hw.op id = some o) (kind : o.kind = .pass m)
  (done : m.todo = []) (obj : m.obj = none) (ready : m.ready = [(t, xs)])
  (tiles : ∀ y ∈ s.hw.ops, y.core = o.core → ∀ a b, y.kind ≠ .tile a b)
  (updates : ∀ y ∈ s.hw.ops, y.after.contains id = true → ∀ a b k u, y.kind ≠ .update a b k u)
include ho kind done obj ready tiles updates

/-- The last result of a request is applied, and the request ends (R306, R312). -/
theorem exec_passComplete_ends :
    exec (.passComplete id) s = .next (landOp (s.with ((noteTiles o s.hw (s.hw.setCore o.core fun c => tileStore c t xs)).setOp id fun o =>
      { o with kind := .pass { m with ready := [], owed := 0 } })) { o with kind := .pass { m with ready := [], owed := 0 } } fun _ => 0) := by
  let h1 := noteTiles o s.hw (s.hw.setCore o.core fun c => tileStore c t xs)
  let h2 := h1.setOp id fun o => { o with kind := .pass { m with ready := [], owed := 0 } }
  have ops : h1.ops = s.hw.ops := (noteTiles_frame ..).ops
  have number : o.id = id := id_of_op ho
  have op2 : h2.op id = some { o with kind := .pass { m with ready := [], owed := 0 } } := op_setOp_same ops ho number
  have old : ∀ y ∈ h2.ops, (∃ m', y.kind = .pass m') ∨ y ∈ s.hw.ops := fun y hy => by
    obtain ⟨z, hz, rfl⟩ := List.mem_map.1 hy
    split
    · exact .inl ⟨_, rfl⟩
    · exact .inr (ops ▸ hz)
  have idle : runTiles o.core s.hw.ops.length (s.with h2) = s.with h2 := runTiles_idle fun y hy at' a b tile => by
    obtain ⟨m', pass⟩ | mem := old y hy
    · cases pass.symm.trans tile
    · exact tiles y mem at' a b tile
  have settled : owesUpdate h2 id = false := owesUpdate_none fun y hy waits a b k u upd => by
    obtain ⟨m', pass⟩ | mem := old y hy
    · cases pass.symm.trans upd
    · exact updates y mem waits a b k u upd
  have pay : ∀ n, payInto h2 s.time o m.blk m.obj n = h2 := fun n => by rw [obj]; rfl
  show execPassComplete id s = _
  unfold execPassComplete
  simp only [ho, kind, ready, List.foldl_cons, List.foldl_nil]
  rw [pay, idle]
  have over' : (m.todo.isEmpty && !owesUpdate h2 id) = true := by rw [done, settled]; rfl
  refine (if_pos over').trans ?_
  split
  · next o' h =>
    obtain rfl := Option.some.inj (h.symm.trans op2)
    rfl
  · next h => cases h.symm.trans op2

end

/-- Settles O32: the one request of a cluster is the one picked, its quarters are granted in turn, and its last result ends it. -/
theorem matrixGrants : Obligations.MatrixGrants := by
  refine ⟨fun cluster s o m ho kind here any cap alone scopies live steady free ramp =>
      exec_passGrant_grants ho kind here any alone cap scopies live steady free ramp,
    fun cluster s idle => exec_passGrant_idle idle, fun m b use q old i j hi hj on => mem_quarter hi hj on,
    fun m b use q i j old form kg => result_plain form kg b use q i j old,
    fun id s o m t xs ho kind done obj ready apart small tiles updates => ?_⟩
  have logs := noteTiles_frame o s.hw (s.hw.setCore o.core fun c => tileStore c t xs)
  have cores : ∀ k, ((noteTiles o s.hw (s.hw.setCore o.core fun c => tileStore c t xs)).setOp id fun o =>
      { o with kind := .pass { m with ready := [], owed := 0 } }).core k = (s.hw.setCore o.core fun c => tileStore c t xs).core k := fun k =>
    logs.core k
  have mine := (cores o.core).trans (Hw.core_setCore_same ..)
  refine ⟨_, _, exec_passComplete_ends ho kind done obj ready tiles updates, rfl, rfl, rfl, logs.gangs, logs.blocks, logs.parts,
    fun k hk => (cores k).trans ?_, fun i j v hi hj mem => ?_, fun u i j hi hj away => ?_⟩
  · rw [Hw.setCore, Hw.core, Tab.val_ins, if_neg hk]
    rfl
  · rw [mine]
    exact tileElem_stored apart mem
  · rw [mine]
    exact tileElem_kept apart small hi hj away

end Sys2Proof.Machine
end

section
/-! SUPPORT. The accumulator forms: their checks and their order, and what they leave in their tiles (16_matrix R306, R314-R319). -/

namespace Sys2Proof.Machine

open Sys2Proof

/-! ## The outcome of a form on tiles -/

/-- What a form on tiles writes when it applies to them, on core c. -/
def tileWrites (r : Regs) (ts : List Nat) (k : TileOp) (c : Core) : Writes :=
  match k with
  | .aread d ty mode act => { v := areadValues c (ts.headD 0) d ty mode act }
  | .awrite ty .. => { relV := if r.lua then (List.range (Forms.tileRegs' ty)).map (r.a + ·) else [] }
  | _ => {}
/-- The machine once a form has taken its tiles. -/
def tilesTaken (e : Env) (ts : List Nat) (use : Bool) : Hw := if use then ts.foldl (fun h t => takeTile h e.core e.ctx t) e.hw else e.hw
/-- The machine in which a form waits for its tiles, with operation id for it. -/
def tileQueued (e : Env) (r : Regs) (ts : List Nat) (k : TileOp) (id : Nat) (h : Hw) : Hw :=
  { h with ops := h.ops ++ [{ e.newOp { r with fsel := 0 } (.tile ts k) with id := id }], nextId := h.nextId + 1 }
/-- The registers an aread is to write. -/
def areadRegs (d : Nat) (ty : Ty) : List Nat := (List.range (Forms.tileRegs' ty)).map (d + ·)

section
variable {e : Env} {r : Regs} {ns ts : List Nat} {use : Bool} {k : TileOp} (hts : ns.map (e.blk.accb + ·) = ts)
  (ok : tileTrap e ns use = none)
include hts ok

theorem tileForm_empty (none' : ts = []) : tileForm e r ns use k = .done {} e.hw := by
  unfold tileForm
  simp only [ok, hts, none', List.isEmpty_nil, if_true]

variable (some' : ts ≠ [])
include some'

/-- A form whose tiles nothing earlier is still to change applies at once (R306). -/
theorem tileForm_applies (free : ∀ t ∈ ts, tileBusy (tilesTaken e ts use) e.core t (tilesTaken e ts use).nextId = false) :
    tileForm e r ns use k =
      let h := (tilesTaken e ts use).setCore e.core fun c => applyTile e.ctx c ts k
      .done (tileWrites r ts k (h.core e.core)) h := by
  have idle : (ts.any fun t => tileBusy (tilesTaken e ts use) e.core t (tilesTaken e ts use).nextId) = false :=
    List.any_eq_false.2 fun t ht => by rw [free t ht]; exact Bool.false_ne_true
  have any : ts.isEmpty = false := by simpa using some'
  unfold tileForm
  simp only [ok, hts, any, Bool.false_eq_true, if_false]
  rw [show (if use = true then ts.foldl (fun h t => takeTile h e.core e.ctx t) e.hw else e.hw) = tilesTaken e ts use from rfl, idle]
  cases k <;> rfl

/-- A form with a busy tile waits; an aread first makes room for its registers (R306, R319). -/
theorem tileForm_waits (busy : ∃ t ∈ ts, tileBusy (tilesTaken e ts use) e.core t (tilesTaken e ts use).nextId = true)
    (room : ∀ d ty mode act, k = .aread d ty mode act → (allocate (tilesTaken e ts use) e.core e.ctx
      (e.newV (tilesTaken e ts use) (areadRegs d ty)) 0 ((areadRegs d ty).map (spillKeyV e.slot))).isSome = true) :
    ∃ h1, SameButImages (tilesTaken e ts use) h1 ∧ tileForm e r ns use k =
      .stay (e.park r .ready (.op (tilesTaken e ts use).nextId) (tileQueued e r ts k (tilesTaken e ts use).nextId h1)) := by
  have waits : (ts.any fun t => tileBusy (tilesTaken e ts use) e.core t (tilesTaken e ts use).nextId) = true := List.any_eq_true.2 busy
  have any : ts.isEmpty = false := by simpa using some'
  have form : tileForm e r ns use k = match k with
      | .aread d ty .. => match allocate (tilesTaken e ts use) e.core e.ctx (e.newV (tilesTaken e ts use) (areadRegs d ty)) 0
            ((areadRegs d ty).map (spillKeyV e.slot)) with
        | some h => .stay (e.park r .ready (.op (tilesTaken e ts use).nextId) (tileQueued e r ts k (tilesTaken e ts use).nextId h))
        | none => .trap e.spill13
      | _ => .stay (e.park r .ready (.op (tilesTaken e ts use).nextId)
          (tileQueued e r ts k (tilesTaken e ts use).nextId (tilesTaken e ts use))) := by
    unfold tileForm
    simp only [ok, hts, any, Bool.false_eq_true, if_false]
    rw [show (if use = true then ts.foldl (fun h t => takeTile h e.core e.ctx t) e.hw else e.hw) = tilesTaken e ts use from rfl, waits]
    cases k <;> rfl
  rw [form]
  split
  · next d ty mode act room =>
    obtain ⟨h1, got⟩ := Option.isSome_iff_exists.1 (room d ty mode act rfl)
    exact ⟨h1, roomFor_frame got, by rw [got]⟩
  · exact ⟨_, .refl _, rfl⟩

end

section
variable {i : Instr} {fm : Form} {f : Fields} {s : State} {e : Env} (h : Issues fm f s e) {ns : List Nat} {use : Bool} {k : TileOp}
  (hi : exec i s = .next (s.with (e.finish (regsF fm f) (tileForm e (regsF fm f) ns use k))))
include h hi

omit h in
theorem tile_traps {t : Trap} (trap : tileTrap e ns use = some t) : Traps i s e t := by
  refine traps_of_trap hi ?_
  unfold tileForm
  rw [trap]

/-- The four outcomes of a form on tiles (R306, R315, R317-R319). -/
theorem tileForm_rules {ts : List Nat} (hts : ns.map (e.blk.accb + ·) = ts) {w : Core → Writes} (hw : ∀ c, w c = tileWrites (regsF fm f) ts k c) {P : Prop}
    (aread : ∀ d ty mode act, k = .aread d ty mode act → P ∧ d = f.d.toNat ∧ ty = f.ty) :
    (∀ t, tileTrap e ns use = some t → Traps i s e t) ∧
    (tileTrap e ns use = none → ts = [] → Retires i s e (regsF fm f) {} e.hw) ∧
    (tileTrap e ns use = none → ts ≠ [] →
      (∃ t ∈ ts, tileBusy (tilesTaken e ts use) e.core t (tilesTaken e ts use).nextId = true) →
      (P → (allocate (tilesTaken e ts use) e.core e.ctx (e.newV (tilesTaken e ts use) (areadRegs f.d.toNat f.ty)) 0
        ((areadRegs f.d.toNat f.ty).map (spillKeyV e.slot))).isSome = true) →
      ∃ h1, SameButImages (tilesTaken e ts use) h1 ∧ Parks i s e (regsF fm f) .ready (.op (tilesTaken e ts use).nextId)
        (tileQueued e (regsF fm f) ts k (tilesTaken e ts use).nextId h1)) ∧
    (tileTrap e ns use = none → ts ≠ [] → (∀ t ∈ ts, tileBusy (tilesTaken e ts use) e.core t (tilesTaken e ts use).nextId = false) →
      let h' := (tilesTaken e ts use).setCore e.core fun c => applyTile e.ctx c ts k
      Room e (regsF fm f) (w (h'.core e.core)) h' → Retires i s e (regsF fm f) (w (h'.core e.core)) h') := by
  refine ⟨fun t trap => tile_traps hi trap,
    fun ok none' => retires_of_done h.here hi (tileForm_empty hts ok none') (room_nil rfl rfl rfl rfl),
    fun ok some' busy room => ?_, fun ok some' free => ?_⟩
  · obtain ⟨h1, images, stay⟩ := tileForm_waits (r := regsF fm f) (k := k) hts ok some' busy fun d ty mode act hk => by
      obtain ⟨p, rfl, rfl⟩ := aread d ty mode act hk
      exact room p
    exact ⟨h1, images, stays_of_stay hi stay⟩
  · intro h' room
    refine retires_of_done h.here hi ?_ room
    rw [tileForm_applies hts ok some' free, hw]

end

/-! ## Tiles after a form -/

theorem look_filter_keys {α : Type} (p : Nat → Bool) (t : Tab α) (k : Nat) :
    Tab.look (t.filter fun x => p x.1) k = if p k then t.look k else none := by
  induction t with
  | nil => simp [Tab.look]
  | cons x t ih =>
    rw [List.filter_cons]
    by_cases here : x.1 = k
    · subst here
      by_cases keep : p x.1 = true
      · simp [keep, Tab.look]
      · rw [if_neg keep, ih, if_neg keep, if_neg keep]
    · have skip : Tab.look (x :: t) k = Tab.look t k := by simp [Tab.look, here]
      rw [skip]
      split
      · rw [← ih]
        simp [Tab.look, here]
      · exact ih

theorem tileElem_tileZero (k : Core) (t : Nat) {u i j : Nat} (hi : i < 32) (hj : j < 32) :
    tileElem (tileZero k t) u i j = if u = t then 0 else tileElem k u i j := by
  have tile : (1024 * u + 32 * i + j) / 1024 = u := by omega
  unfold tileElem tileZero Tab.val
  dsimp only
  rw [look_filter_keys fun n => n / 1024 != t]
  by_cases same : u = t
  · subst same
    simp [tile]
  · simp [tile, same]

theorem tileElem_azero (c : Nat) (k : Core) (ts : List Nat) {u i j : Nat} (hi : i < 32) (hj : j < 32) :
    tileElem (applyTile c k ts .azero) u i j = if u ∈ ts then 0 else tileElem k u i j := by
  show tileElem (ts.foldl tileZero k) u i j = _
  induction ts generalizing k with
  | nil => simp
  | cons t ts ih =>
    rw [List.foldl_cons, ih, tileElem_tileZero k t hi hj]
    by_cases same : u = t <;> by_cases later : u ∈ ts <;> simp [same, later]

/-- arel leaves every tile's elements, and changes the tag of its tile alone (R314, R317). -/
theorem tag_arel (c : Nat) (k : Core) (t u : Nat) :
    (applyTile c k [t] .arel).tiles = k.tiles ∧ (applyTile c k [t] .arel).acctag.val {} u = if u = t then
      (let a := k.acctag.val {} t
       if a.state = 0 then a else if a.owner = c then { a with state := 0, fresh := false } else { a with fresh := true })
      else k.acctag.val {} u :=
  ⟨rfl, Tab.val_ins ..⟩

/-- The elements of the active rows of a tile, with a value for each. -/
def rowsOf (act : Lanes) (v : Nat → Nat → BitVec 32) : List (Nat × BitVec 32) :=
  (lanes act).flatMap fun i => (List.range 32).map fun j => (32 * i + j, v i j)

theorem mem_rowsOf {act : Lanes} {v : Nat → Nat → BitVec 32} {x : Nat × BitVec 32} :
    x ∈ rowsOf act v ↔ ∃ i j, inLanes act i = true ∧ j < 32 ∧ x = (32 * i + j, v i j) := by
  simp only [rowsOf, List.mem_flatMap, mem_lanes_iff, List.mem_map, List.mem_range]
  exact ⟨fun ⟨i, hi, j, hj, hx⟩ => ⟨i, j, hi, hj, hx.symm⟩, fun ⟨i, j, hi, hj, hx⟩ => ⟨i, hi, j, hj, hx.symm⟩⟩

theorem rowsOf_apart (act : Lanes) (v : Nat → Nat → BitVec 32) : ((rowsOf act v).map (·.1)).Nodup := by
  rw [rowsOf, List.map_flatMap, List.nodup_flatMap]
  refine ⟨fun i _ => ?_, (lanes_nodup act).imp fun {a b} differ => ?_⟩
  · rw [List.map_map]
    exact List.nodup_range.map fun a b same => Nat.add_left_cancel (show 32 * i + a = 32 * i + b from same)
  · simp only [Function.onFun, List.map_map]
    refine List.disjoint_left.2 fun n ha hb => ?_
    obtain ⟨j, hj, rfl⟩ := List.mem_map.1 ha
    obtain ⟨j', hj', same⟩ := List.mem_map.1 hb
    have hj := List.mem_range.1 hj
    have hj' := List.mem_range.1 hj'
    have same : 32 * b + j' = 32 * a + j := same
    omega

theorem rowsOf_small {act : Lanes} {v : Nat → Nat → BitVec 32} : ∀ x ∈ rowsOf act v, x.1 < 1024 := by
  intro x hx
  obtain ⟨i, j, hi, hj, rfl⟩ := mem_rowsOf.1 hx
  have := (mem_lanes.1 (mem_lanes_iff.2 hi)).1
  show 32 * i + j < 1024
  omega

/-- A form that stores the active rows of a tile: the elements of those rows hold their values, every other is as it was. -/
theorem tileElem_rows (k : Core) (t : Nat) (act : Lanes) (v : Nat → Nat → BitVec 32) {i j : Nat} (hi : i < 32) (hj : j < 32) :
    (inLanes act i = true → tileElem (tileStore k t (rowsOf act v)) t i j = v i j) ∧
    (inLanes act i = false → tileElem (tileStore k t (rowsOf act v)) t i j = tileElem k t i j) ∧
    ∀ u, u ≠ t → tileElem (tileStore k t (rowsOf act v)) u i j = tileElem k u i j := by
  refine ⟨fun on => tileElem_stored (rowsOf_apart ..) (mem_rowsOf.2 ⟨i, j, on, hj, rfl⟩),
    fun off => tileElem_kept (rowsOf_apart ..) rowsOf_small hi hj (.inr fun x mem => ?_),
    fun u other => tileElem_kept (rowsOf_apart ..) rowsOf_small hi hj (.inl other)⟩
  obtain ⟨i', j', on, hj', same⟩ := mem_rowsOf.1 mem
  have same : 32 * i + j = 32 * i' + j' := congrArg Prod.fst same
  have row : i' = i := by omega
  rw [row, off] at on
  cases on

/-- Settles O33: the outcomes of a form on tiles are those of its operation, and each operation stores the rows it says. -/
theorem tileForms : Obligations.TileForms := by
  refine ⟨fun f s i fm ns use k w which e h _ => ?_, fun c k ts u i j hi hj => tileElem_azero c k ts hi hj, fun c k t u => ?_,
    fun c k t mode act r s u i j hi hj => ?_, fun c k t ty act vals i j hi hj => ?_⟩
  · obtain ⟨rfl, rfl, rfl, rfl, rfl, rfl⟩ | ⟨rfl, rfl, rfl, rfl, rfl, rfl⟩ | ⟨rfl, rfl, rfl, rfl, rfl, rfl⟩ |
      ⟨rfl, rfl, rfl, rfl, rfl, rfl⟩ | ⟨rfl, rfl, rfl, rfl, rfl, rfl⟩ := which
    · exact tileForm_rules h ((show exec (.azero f) s = execAzero f s from rfl).trans (issueF_ok h _)) rfl (fun _ => rfl)
        fun _ _ _ _ hk => TileOp.noConfusion hk
    · exact tileForm_rules h ((show exec (.arel f) s = execArel f s from rfl).trans (issueF_ok h _)) rfl (fun _ => rfl)
        fun _ _ _ _ hk => TileOp.noConfusion hk
    · exact tileForm_rules h ((show exec (.ascale f) s = execAscale f s from rfl).trans (issueF_ok h _)) rfl (fun _ => rfl)
        fun _ _ _ _ hk => TileOp.noConfusion hk
    · exact tileForm_rules h ((show exec (.aread f) s = execAread f s from rfl).trans (issueF_ok h _)) rfl (fun _ => rfl)
        fun d ty mode act hk => by
          obtain ⟨rfl, rfl, rfl, rfl⟩ := TileOp.aread.inj hk
          exact ⟨rfl, rfl, rfl⟩
    · exact tileForm_rules h ((show exec (.awrite f) s = execAwrite f s from rfl).trans (issueF_ok h _)) rfl (fun _ => rfl)
        fun _ _ _ _ hk => TileOp.noConfusion hk
  · obtain ⟨tiles, tag⟩ := tag_arel c k t u
    refine ⟨tiles, fun other => ?_, fun same live own => ?_, fun same live foreign => ?_⟩
    · rw [tag, if_neg other]
    · subst same
      rw [tag, if_pos rfl]
      simp only [live, own, if_true, if_false]
    · subst same
      rw [tag, if_pos rfl]
      simp only [live, foreign, if_false, and_self]
  · exact tileElem_rows k t act (fun i j =>
      let x := (fv .f32 (tileElem k t i j).toNat).mul (fv .f32 (r.getD i 0))
      let y := x.1.mul (fv .f32 (s.getD j 0))
      BitVec.ofNat 32 ((Ty.fmt .f32).round mode 0 (exsum [y.1, fv .f32 (u.getD j 0)] (x.1.isNan || y.1.isNan) (x.2 || y.2)).1).code) hi hj
  · exact tileElem_rows k t act (fun i j => BitVec.ofNat 32 ((Ty.fmt .f32).round 0 0 (fv ty ((vals.getD i []).getD j 0))).code) hi hj

end Sys2Proof.Machine
end

section
/-! SUPPORT. The Tail's windows: marks, queries, requests and boundaries (17_tail R324-R333). -/

namespace Sys2Proof.Machine

open Sys2Proof

/-! ## Changes of one path and of one Tail -/

theorem Tab.ins_ins_same {α : Type} (t : Tab α) (k : Nat) (v w : α) : (t.ins k v).ins k w = t.ins k w := by
  induction t with
  | nil => simp [Tab.ins]
  | cons x t ih =>
    obtain ⟨j, u⟩ := x
    by_cases same : j = k
    · simp [Tab.ins, same]
    · by_cases before : k < j
      · simp [Tab.ins, same, before]
      · simp [Tab.ins, same, before, ih]

theorem Tab.upd_upd_same {α : Type} (t : Tab α) (k : Nat) (f g : α → α) : (t.upd k f).upd k g = t.upd k (g ∘ f) := by
  unfold Tab.upd
  cases h : t.look k with
  | none => simp only [h]
  | some v => simp only [Tab.look_ins_same, Tab.ins_ins_same, Function.comp]

theorem setPath_again (hw : Hw) (gk p : Nat) (f g : Path → Path) : setPath (setPath hw gk p f) gk p g = setPath hw gk p (g ∘ f) := by
  unfold setPath Hw.setGang
  dsimp only
  rw [Tab.upd_upd_same]
  simp only [Function.comp_def, Tab.upd_upd_same]

theorem Hw.setCtx_congr {hw : Hw} {p c : Nat} {cx : Context} (hc : hw.ctx p c = some cx) {f g : Context → Context} (h : f cx = g cx) :
    hw.setCtx p c f = hw.setCtx p c g := by
  have hc : (hw.part p).contexts.look c = some cx := hc
  simp only [Hw.setCtx, Hw.setPart, Tab.upd, hc, h]

theorem Hw.tail_of_ctx {hw : Hw} {p c : Nat} {cx : Context} (hc : hw.ctx p c = some cx) : hw.tail p c = cx.tail := by
  simp only [Hw.tail, hc]
theorem Hw.ctx_setTail {hw : Hw} {p c : Nat} {cx : Context} (hc : hw.ctx p c = some cx) (f : TailSt → TailSt) :
    (hw.setTail p c f).ctx p c = some { cx with tail := f cx.tail } := by
  rw [Hw.setTail, Hw.ctx_setCtx_same, hc]
  rfl

/-! ## wmark -/

/-- A path that parks for the answer and asks the control parks on the machine in which the control is asked. -/
theorem park_askWmark (e : Env) (r : Regs) (b : Nat) {cx : Context} (hc : e.hw.ctx e.part e.ctx = some cx) :
    askWmark e b (e.park r .parked (.wmark b true none) e.hw) =
      e.park r .parked (.wmark b true none) (e.hw.setCtx e.part e.ctx fun c => { c with tail := cx.tail.ask (.path e.gk e.p) }) := by
  have once : (e.setPath (e.park r .parked (.wmark b true none) e.hw) fun q => { q with wait := .wmark b true none }) =
      e.park r .parked (.wmark b true none) e.hw := setPath_again ..
  have tail : (e.hw.setTail e.part e.ctx fun x => x.ask (.path e.gk e.p)) =
      e.hw.setCtx e.part e.ctx fun c => { c with tail := cx.tail.ask (.path e.gk e.p) } := Hw.setCtx_congr hc rfl
  rw [askWmark, once, ← tail]
  rfl

theorem wmark_marks {i : Instr} {s : State} {e : Env} {r : Regs} (he : env s = some e)
    (hx : exec i s = .next (s.with (e.finish r (wmarkBody e r)))) : MarksWindow i s e r := by
  have now : e.now = s.time := by rw [Env.now, env_state he]
  refine ⟨fun waits => stays_of_stay hx ?_, fun met off room => retires_of_done he hx ?_ room, fun met cx hc on => ?_⟩
  · unfold wmarkBody
    rw [now]
    exact if_neg (by simp [waits])
  · unfold wmarkBody
    rw [now]
    exact (if_pos met).trans (if_pos (by rw [off]; rfl))
  · refine ⟨cx.tail.ask (.path e.gk e.p), ?_, ?_, ?_, stays_of_stay hx ?_⟩
    · rw [TailSt.ask, if_pos on]
    · rw [TailSt.ask, if_pos on]
    · rw [TailSt.ask, if_pos on]
      exact on
    · rw [← park_askWmark e r _ hc]
      unfold wmarkBody
      rw [now]
      exact (if_pos met).trans (if_neg (by rw [Hw.tail_of_ctx hc, on]; exact Bool.false_ne_true))

theorem wmark_resumes {q : PathRef} {s : State} {e : Env} {b t k : Nat} {r : Regs} (he : envAt s q = some e)
    (runs : runsOn s.hw e.core e.ctx = true) (wait : e.q.wait = .wmark b true (some (t, k))) (form : e.q.form = some r) :
    (t ≤ s.time → Resumes (.fenceRetire q) s e (wmarkWrites r k) s.hw) ∧ (s.time < t → Holds (.fenceRetire q) s) := by
  have same : e.s = { s with cur := { s.cur with q := q } } := env_state he
  have wake : wakeRunning s e = if decide (t ≤ s.time) = true then s.with (e.retireParked (wmarkWrites r k) s.hw) else s := by
    simp only [wakeRunning, wait, wakeWmark, form, Env.now, Env.hw, same]
    by_cases come : t ≤ s.time <;> simp [come]
  obtain ⟨goes, stays⟩ := fenceRetire_rules he runs wake
  exact ⟨fun come => goes (decide_eq_true come), fun ahead => stays (decide_eq_false (Nat.not_le.2 ahead))⟩

/-! ## wquery -/

/-- What wquery answers where the Tail is on (R333). -/
def wqueryValue (f : Fields) (x : TailSt) (k : Nat) : Nat :=
  match f.op with
  | 0 => x.cur
  | 1 => x.old
  | 2 => if winLe x.old k && winLe k x.cur then x.bounds.val 0 k else match x.announced with
    | some b => if k = winNext x.cur then b else 0
    | none => 0
  | _ => x.usedBytes

section
variable {f : Fields} {s : State} {e : Env} (h : Issues Forms.wquery f s e)
include h

theorem exec_wquery :
    let r := regsF Forms.wquery f
    let x := (e.hw.tail e.part e.ctx).roll s.time
    let res : Res := .done (putS r (if x.en then wqueryValue f x ((e.sa r).toNat % 2 ^ 32) else 0)) e.hw
    exec (.wquery f) s = .next (s.with (e.finish r (if f.op = 0 then res else e.asks r false res))) := by
  have now : s.time = e.now := by rw [Env.now, env_state h.here]
  rw [now]
  exact (show exec (.wquery f) s = execWquery f s from rfl).trans (issueF_ok h _)

theorem wquery_rules :
    let r := regsF Forms.wquery f
    let x := (e.hw.tail e.part e.ctx).roll s.time
    let k := (e.sa r).toNat % 2 ^ 32
    (f.op ≠ 0 → ¬ e.answered → Asks (.wquery f) s e r false) ∧
    (f.op = 0 ∨ e.answered →
      (x.en = false → Answers (.wquery f) s e r 0 e.hw) ∧
      (x.en = true → Answers (.wquery f) s e r (wqueryValue f x k) e.hw)) := by
  intro r x k
  have issued := exec_wquery h
  refine ⟨fun op first => asks_of_asks (issued.trans (by rw [if_neg op])) first, fun may => ?_⟩
  have answers : exec (.wquery f) s = .next (s.with (e.finish r (.done (putS r (if x.en then wqueryValue f x k else 0)) e.hw))) := by
    refine issued.trans ?_
    by_cases op : f.op = 0
    · rw [if_pos op]
    · rw [if_neg op, asks_answered (may.resolve_left op)]
  exact ⟨fun off => retires_of_done h.here answers (by rw [off]; rfl), fun on => retires_of_done h.here answers (by rw [if_pos on])⟩

end

/-! ## Requests and boundaries -/

theorem TailSt.roll_reqs (t : Nat) (x : TailSt) (rs : List AdvReq) : ({ x with reqs := rs } : TailSt).roll t = { x.roll t with reqs := rs } := by
  unfold TailSt.roll
  dsimp only
  split
  · split <;> rfl
  · rfl

/-- A request joins the boundary announced, or announces one 256 ns ahead (R329). -/
theorem TailSt.request_eq (t : Nat) (x : TailSt) : x.request t =
    (winNext (x.roll t).cur, (x.roll t).announced.getD (t + 256), { x.roll t with announced := some ((x.roll t).announced.getD (t + 256)) }) := by
  unfold TailSt.request
  dsimp only
  cases h : (x.roll t).announced with
  | none => rfl
  | some b =>
    dsimp only [Option.getD]
    rw [← h]

section
variable {fn ctx : Nat} {s : State} {cx : Context} (hc : s.hw.ctx fn ctx = some cx)
include hc

/-- The Tail once the one request there was is taken. -/
def TailSt.asked (t : Nat) (x : TailSt) : TailSt := { x.roll t with reqs := [], announced := some ((x.roll t).announced.getD (t + 256)) }

/-- A path once the control has answered its wmark with boundary b and window k (R332). -/
def answerWmark (b k : Nat) (q : Path) : Path :=
  match q.wait with
  | .wmark n true none => { q with wait := .wmark n true (some (b + 2, k)) }
  | _ => q

/-- The one request on its way is taken, and its asker answered (R329, R330). -/
theorem exec_windowAdvance {q : AdvReq} (one : cx.tail.reqs = [q]) (free : cx.tail.busy = false) (on : cx.tail.en = true) :
    let y := cx.tail.roll s.time
    let b := y.announced.getD (s.time + 256)
    let h := s.hw.setTail fn ctx fun _ => cx.tail.asked s.time
    exec (.windowAdvanceRequest fn ctx) s = .next (s.with (match q with
      | .path gk p => setPath h gk p (answerWmark b (winNext y.cur))
      | .launch id => { h with launches := h.launches.upd id fun l => { l with floor := b } }
      | .step => h.setTail fn ctx fun y => { y with stepAt := some (b + 2) }
      | .plain => h)) := by
  intro y b h
  show execWindowAdvanceRequest fn ctx s = _
  unfold execWindowAdvanceRequest
  rw [Hw.tail_of_ctx hc]
  dsimp only
  rw [if_neg (by simp [one, free])]
  simp only [if_pos on, one, List.length_singleton, if_true, Nat.zero_mod, List.getD_cons_zero, List.take_zero, List.nil_append,
    Nat.zero_add, List.drop_one, List.tail_cons, TailSt.request_eq, TailSt.roll_reqs]
  cases q <;> rfl

theorem windowAdvance_rules {q : AdvReq} (one : cx.tail.reqs = [q]) (free : cx.tail.busy = false) (on : cx.tail.en = true) :
    let y := cx.tail.roll s.time
    let b := y.announced.getD (s.time + 256)
    ∃ t cx', exec (.windowAdvanceRequest fn ctx) s = .next t ∧ t.mem = s.mem ∧ t.hw.ctx fn ctx = some cx' ∧ cx'.tail.announced = some b ∧
      cx'.tail.cur = y.cur ∧ cx'.tail.reqs = [] ∧
      (∀ gk p g pa n, q = .path gk p → s.hw.gangs.look gk = some g → g.paths.look p = some pa → pa.wait = .wmark n true none →
        ∃ g' pa', t.hw.gangs.look gk = some g' ∧ g'.paths.look p = some pa' ∧ pa'.wait = .wmark n true (some (b + 2, winNext y.cur))) ∧
      (∀ id l, q = .launch id → s.hw.launches.look id = some l → t.hw.launches.look id = some { l with floor := b }) := by
  intro y b
  have run := exec_windowAdvance hc one free on
  have ctx1 := Hw.ctx_setTail hc fun _ => cx.tail.asked s.time
  cases q with
  | path gk p =>
    refine ⟨_, { cx with tail := cx.tail.asked s.time }, run, rfl, ctx1, rfl, rfl, rfl, fun gk' p' g pa n same hg hp wait => ?_,
      fun _ _ no => AdvReq.noConfusion no⟩
    obtain ⟨rfl, rfl⟩ := AdvReq.path.inj same
    refine ⟨{ g with paths := g.paths.upd p (answerWmark b (winNext y.cur)) }, { pa with wait := .wmark n true (some (b + 2, winNext y.cur)) },
      ?_, ?_, rfl⟩
    · exact (setGang_look ..).trans (by rw [if_pos rfl]; exact congrArg (Option.map _) hg)
    · rw [Tab.look_upd, if_pos rfl, hp, Option.map_some, answerWmark, wait]
  | launch id =>
    refine ⟨_, { cx with tail := cx.tail.asked s.time }, run, rfl, ctx1, rfl, rfl, rfl, fun _ _ _ _ _ no => AdvReq.noConfusion no,
      fun id' l same hl => ?_⟩
    obtain rfl := AdvReq.launch.inj same
    exact (Tab.look_upd ..).trans (by rw [if_pos rfl]; exact congrArg (Option.map _) hl)
  | step =>
    exact ⟨_, { cx with tail := { cx.tail.asked s.time with stepAt := some (b + 2) } }, run, rfl, Hw.ctx_setTail ctx1 _, rfl, rfl, rfl,
      fun _ _ _ _ _ no => AdvReq.noConfusion no, fun _ _ no => AdvReq.noConfusion no⟩
  | plain =>
    exact ⟨_, { cx with tail := cx.tail.asked s.time }, run, rfl, ctx1, rfl, rfl, rfl, fun _ _ _ _ _ no => AdvReq.noConfusion no,
      fun _ _ no => AdvReq.noConfusion no⟩

theorem windowBoundary_rules {b : Nat} (next : cx.tail.announced = some b) :
    ∃ t cx', exec (.windowBoundary fn ctx) s = .next t ∧ t.mem = s.mem ∧ t.hw.gangs = s.hw.gangs ∧ t.hw.ctx fn ctx = some cx' ∧
      (b ≤ s.time → cx'.tail.cur = winNext cx.tail.cur ∧ cx'.tail.announced = none ∧ cx'.tail.bounds.look (winNext cx.tail.cur) = some b) ∧
      (s.time < b → cx' = cx) := by
  refine ⟨_, { cx with tail := cx.tail.roll s.time }, rfl, rfl, rfl, Hw.ctx_setTail hc _, fun come => ?_, fun ahead => ?_⟩
  · have rolled : cx.tail.roll s.time = { cx.tail with
        cur := winNext cx.tail.cur, announced := none, bounds := cx.tail.bounds.ins (winNext cx.tail.cur) b } := by
      rw [TailSt.roll, next]
      exact if_pos come
    rw [rolled]
    exact ⟨rfl, rfl, Tab.look_ins_same ..⟩
  · rw [TailSt.roll, next]
    dsimp only
    rw [if_neg (Nat.not_le.2 ahead)]

theorem tailTimer_rules (on : cx.tail.en = true) (period : cx.tail.period ≠ 0) (free : cx.tail.busy = false) :
    (cx.tail.timer + 1000 * cx.tail.period ≤ s.time →
      ∃ t cx', exec (.tailTimer fn ctx) s = .next t ∧ t.hw.ctx fn ctx = some cx' ∧ cx'.tail.timer = cx.tail.timer + 1000 * cx.tail.period ∧
        cx'.tail.announced = some ((cx.tail.roll s.time).announced.getD (s.time + 256))) ∧
    (s.time < cx.tail.timer + 1000 * cx.tail.period → Holds (.tailTimer fn ctx) s) := by
  have run : exec (.tailTimer fn ctx) s = execTailTimer fn ctx s := rfl
  rw [execTailTimer, Hw.tail_of_ctx hc] at run
  dsimp only at run
  refine ⟨fun due => ?_, fun early => run.trans (if_neg (by simp [early]))⟩
  rw [if_pos (by simp [on, period, due])] at run
  refine ⟨_, _, run, Hw.ctx_setTail hc _, rfl, ?_⟩
  simp only [TailSt.advance, on, free, TailSt.request_eq, Bool.not_true, Bool.false_and, Bool.false_eq_true, if_false]

/-! ## Writes of TLCTL -/

theorem tlctl_off {v : Word} (on : cx.tail.en = true) (off : bit 0 v.toNat = false) :
    ∃ t cx', exec (.tlctlWrite fn ctx v) s = .next t ∧ t.mem = s.mem ∧ t.hw.gangs = s.hw.gangs ∧ t.hw.ctx fn ctx = some cx' ∧
      cx'.tail.en = false ∧ cx'.tail.shares = [] ∧ cx'.tail.handle = cx.tail.handle := by
  have run : exec (.tlctlWrite fn ctx v) s = .next (s.with (writeTlctl s.hw s.mem fn s.time ctx v.toNat)) := rfl
  simp only [writeTlctl, hc, on, off, Bool.not_false, Bool.and_self, if_true] at run
  exact ⟨_, _, run, rfl, rfl, Hw.ctx_setTail hc _, rfl, rfl, rfl⟩

theorem tlctl_refused {v : Word} (off : cx.tail.en = false) (on : bit 0 v.toNat = true)
    (bad : (readHandle s.hw s.mem fn ctx (bits 63 52 v.toNat)).ok = false) :
    ∃ t cx', exec (.tlctlWrite fn ctx v) s = .next t ∧ t.hw.ctx fn ctx = some cx' ∧ cx'.tail.en = false ∧ cx'.tail.err = true ∧
      cx'.tail.handle = bits 63 52 v.toNat := by
  have run : exec (.tlctlWrite fn ctx v) s = .next (s.with (writeTlctl s.hw s.mem fn s.time ctx v.toNat)) := rfl
  simp only [writeTlctl, hc, on, off, bad, Bool.not_true, Bool.not_false, Bool.and_self, Bool.true_or, Bool.false_eq_true,
    if_false, if_true] at run
  exact ⟨_, _, run, Hw.ctx_setTail hc _, rfl, rfl, rfl⟩

end

/-- Settles O35: wmark and wquery by what the control answers, and each step of the control by the Tail it leaves. -/
theorem tailWindows : Obligations.TailWindows := by
  refine ⟨fun f s e h => wmark_marks h.here ((show exec (.wmarkS f) s = execWmarkS f s from rfl).trans (issueS_ok h _)),
    fun f s e h => wmark_marks h.here ((show exec (.wmark f) s = execWmark f s from rfl).trans (issueF_ok h _)),
    fun q s e b t k r he runs wait form => wmark_resumes he runs wait form, fun f s e h => ?_,
    fun fn ctx s cx q hc one free on => windowAdvance_rules hc one free on, fun fn ctx s cx b hc next => windowBoundary_rules hc next,
    fun fn ctx s cx hc on period free => tailTimer_rules hc on period free, fun fn ctx v s cx hc on off => tlctl_off hc on off,
    fun fn ctx v s cx hc off on bad => tlctl_refused hc off on bad⟩
  obtain ⟨asks, answers⟩ := wquery_rules h
  refine ⟨asks, fun may => ?_⟩
  obtain ⟨off, on⟩ := answers may
  refine ⟨off, fun en op => ?_, fun en op => ?_, fun en op first last => ?_, fun en op => ?_⟩
  all_goals have value := on en; simp only [wqueryValue, op] at value
  · exact value
  · exact value
  · simp only [first, last, Bool.and_self, if_true] at value
    exact value
  · exact value

end Sys2Proof.Machine
end

section
/-! SUPPORT. wcfg: its status words, dropping windows, and reverts (17_tail R338, R339). -/

namespace Sys2Proof.Machine

open Sys2Proof

/-! ## wcfg -/

section
variable {f : Fields} {s : State} {e : Env} (h : Issues Forms.wcfg f s e) {i : Instr} {body : Env → Regs → TailSt → Nat → Nat → Res}
  (hi : exec i s = wcfgForm f s body)
include h hi

theorem wcfg_traps (bad : 65536 ≤ (e.sa (regsF Forms.wcfg f)).toNat ∨ 2 ^ 32 ≤ (e.sb (regsF Forms.wcfg f)).toNat) :
    Traps i s e { cause := 0x02, hit := e.act } :=
  traps_of_trap (hi.trans (issueF_ok h _)) (if_pos bad)

section
variable (ctx : (e.sa (regsF Forms.wcfg f)).toNat < 65536) (window : (e.sb (regsF Forms.wcfg f)).toNat < 2 ^ 32)
include ctx window

theorem exec_wcfg :
    let r := regsF Forms.wcfg f
    let x := (e.hw.tail e.part (e.sa r).toNat).roll s.time
    exec i s = .next (s.with (e.finish r (if !x.en then .done (putS r 3) e.hw else body e r x (e.sb r).toNat (e.sa r).toNat))) := by
  have now : s.time = e.now := by rw [Env.now, env_state h.here]
  rw [now]
  have issued := hi.trans (issueF_ok h _)
  rw [if_neg (not_or.2 ⟨Nat.not_le.2 ctx, Nat.not_le.2 window⟩)] at issued
  exact issued

/-- A context whose Tail is off has nothing to revert or drop: status 3 (R338). -/
theorem wcfg_off (off : ((e.hw.tail e.part (e.sa (regsF Forms.wcfg f)).toNat).roll s.time).en = false) :
    Answers i s e (regsF Forms.wcfg f) 3 e.hw :=
  retires_of_done h.here (exec_wcfg h hi ctx window) (if_pos (by rw [off]; rfl))

theorem exec_wcfg_on (on : ((e.hw.tail e.part (e.sa (regsF Forms.wcfg f)).toNat).roll s.time).en = true) :
    let r := regsF Forms.wcfg f
    exec i s = .next (s.with (e.finish r (body e r ((e.hw.tail e.part (e.sa r).toNat).roll s.time) (e.sb r).toNat (e.sa r).toNat))) := by
  have run := exec_wcfg h hi ctx window
  dsimp only at run
  rw [if_neg (by rw [on]; exact Bool.false_ne_true)] at run
  exact run

end

end

section
variable {f : Fields} {s : State} {e : Env} (h : Issues Forms.wcfg f s e)
  (ctx : (e.sa (regsF Forms.wcfg f)).toNat < 65536) (window : (e.sb (regsF Forms.wcfg f)).toNat < 2 ^ 32)
  {x : TailSt} (hx : (e.hw.tail e.part (e.sa (regsF Forms.wcfg f)).toNat).roll s.time = x) (on : x.en = true)
include h ctx window hx on

/-- wcfg.drop discards the windows before one that the Tail retains (R338). -/
theorem wcfgDrop_rules :
    let r := regsF Forms.wcfg f
    let k := (e.sb r).toNat
    (winLe k x.cur = false ∨ winLe x.old k = false → Answers (.wcfgDrop f) s e r 2 e.hw) ∧
    (winLe k x.cur = true → winLe x.old k = true →
      let hw := e.hw.setTail e.part (e.sa r).toNat fun _ => { x.discard (fun j => !winLe k j) with old := k }
      let w : Writes := { s := [(r.d, wcfgResult k 0 0)] }
      Room e r w hw → Retires (.wcfgDrop f) s e r w hw) := by
  have issued := exec_wcfg_on h (show exec (.wcfgDrop f) s = execWcfgDrop f s from rfl) ctx window (hx ▸ on)
  dsimp only at issued
  rw [hx] at issued
  refine ⟨fun out => ?_, fun last first => ?_⟩
  · rw [if_pos (by obtain out | out := out <;> simp [out])] at issued
    exact retires_of_done h.here issued rfl
  · rw [if_neg (by simp [last, first])] at issued
    exact retires_of_done h.here issued rfl

/-- wcfg.revert and wcfg.force go back to a window of a stopped context, once no other revert works (R338, R339). -/
theorem wcfgBack_rules {i : Instr} {force : Bool} (hi : exec i s = wcfgBack f s force) :
    let r := regsF Forms.wcfg f
    let c := (e.sa r).toNat
    let k := (e.sb r).toNat
    (ctxStopped e.hw e.part c = false → Answers i s e r 1 e.hw) ∧
    (ctxStopped e.hw e.part c = true → (winLe x.old k = false ∨ winLe k x.cur = false) → Answers i s e r 2 e.hw) ∧
    (ctxStopped e.hw e.part c = true → winLe x.old k = true → winLe k x.cur = true → x.busy = true → Holds i s) ∧
    (ctxStopped e.hw e.part c = true → winLe x.old k = true → winLe k x.cur = true → x.busy = false →
      Parks i s e r .parked (.revert c k force r.d none) (e.hw.setTail e.part c fun _ => { x with busy := true })) := by
  have issued := exec_wcfg_on h hi ctx window (hx ▸ on)
  dsimp only at issued
  rw [hx] at issued
  refine ⟨fun goes => retires_of_done h.here issued (if_pos (by rw [goes]; rfl)), fun stopped out => retires_of_done h.here issued ?_,
    fun stopped first last busy => holds_of_hold h.here issued ?_, fun stopped first last free => stays_of_stay issued ?_⟩
  · rw [if_neg (by simp [stopped]), if_pos]
    obtain out | out := out <;> simp [out]
  · rw [if_neg (by simp [stopped]), if_neg (by simp [first, last]), if_pos busy]
  · rw [if_neg (by simp [stopped]), if_neg (by simp [first, last]), if_neg (by simp [free])]

end

/-! ## The walk and its end -/

/-- A revert without force stops at a current window that has irreversible effects: it goes back no window (R339). -/
theorem doRevert_stops {s : State} {p c k : Nat} (last : winLe k (((discardHeld s p c).hw.tail p c).roll s.time).cur = true)
    (irrev : (((discardHeld s p c).hw.tail p c).roll s.time).irrev.val 0 (((discardHeld s p c).hw.tail p c).roll s.time).cur ≠ 0)
    (before : k ≠ winNext (((discardHeld s p c).hw.tail p c).roll s.time).cur) :
    doRevert s p c k false = (wcfgResult (winNext (((discardHeld s p c).hw.tail p c).roll s.time).cur) 0 4, s.time, discardHeld s p c) := by
  unfold doRevert
  dsimp only
  generalize discardHeld s p c = s1 at *
  generalize (s1.hw.tail p c).roll s.time = x at *
  have walk : ∀ n, revertWalk p x k false (n + 1) x.cur (winNext x.cur) 0 s.time s1 = (winNext x.cur, 0, s.time, s1) := fun n => by
    rw [revertWalk, if_neg (by simp [last])]
    exact if_pos ⟨irrev, rfl⟩
  simp only [walk, before.symm, if_true, if_false]

theorem revert_resumes {q : PathRef} {s : State} {e : Env} {c k d t : Nat} {force : Bool} {v : Word} (he : envAt s q = some e)
    (runs : runsOn s.hw e.core e.ctx = true) (wait : e.q.wait = .revert c k force d (some (v, t))) :
    (t ≤ s.time → Resumes (.fenceRetire q) s e { s := [(d, v)] } (endRevert s.hw e.part s.time c)) ∧
    (s.time < t → Holds (.fenceRetire q) s) := by
  have wake : wakeRunning s e =
      if decide (t ≤ s.time) = true then s.with (e.retireParked { s := [(d, v)] } (endRevert s.hw e.part s.time c)) else s := by
    simp only [wakeRunning, wait, wakeRevert]
    by_cases come : t ≤ s.time <;> simp [come]
  obtain ⟨goes, stays⟩ := fenceRetire_rules he runs wake
  exact ⟨fun come => goes (decide_eq_true come), fun ahead => stays (decide_eq_false (Nat.not_le.2 ahead))⟩

theorem exec_wcfgRevert (f : Fields) (s : State) : exec (.wcfgRevert f) s = wcfgBack f s false := rfl
theorem exec_wcfgForce (f : Fields) (s : State) : exec (.wcfgForce f) s = wcfgBack f s true := rfl
theorem wcfgBack_form (f : Fields) (s : State) (force : Bool) : ∃ body, wcfgBack f s force = wcfgForm f s body := ⟨_, rfl⟩
theorem wcfgDrop_form (f : Fields) (s : State) : ∃ body, exec (.wcfgDrop f) s = wcfgForm f s body :=
  ⟨_, show exec (.wcfgDrop f) s = execWcfgDrop f s from rfl⟩

/-- Settles O36: the outcomes of wcfg by the window it names, the walk that stops at once, and the wait for its end. -/
theorem tailReverts : Obligations.TailReverts := by
  refine ⟨fun f s e h => ?_, ?_, fun q s e c k force d v t he runs wait => revert_resumes he runs wait⟩
  · intro r c k x i which
    have kinds : i = .wcfgDrop f ∨ ∃ force, (force = true ↔ i = .wcfgForce f) ∧ exec i s = wcfgBack f s force := by
      obtain rfl | rfl | rfl := which
      · exact .inr ⟨false, ⟨fun no => Bool.noConfusion no, fun no => Instr.noConfusion no⟩, exec_wcfgRevert f s⟩
      · exact .inr ⟨true, ⟨fun _ => rfl, fun _ => rfl⟩, exec_wcfgForce f s⟩
      · exact .inl rfl
    obtain ⟨body, hi⟩ : ∃ body, exec i s = wcfgForm f s body := by
      obtain drop | ⟨force, _, back⟩ := kinds
      · exact drop ▸ wcfgDrop_form f s
      · exact back ▸ wcfgBack_form f s force
    refine ⟨fun bad => wcfg_traps h hi bad, fun ctx window => ⟨wcfg_off h hi ctx window, fun on drop => ?_, fun on back => ?_⟩⟩
    · subst drop
      exact wcfgDrop_rules h ctx window rfl on
    · obtain ⟨force, kind, hf⟩ := kinds.resolve_left back
      obtain ⟨goes, out, busy, free⟩ := wcfgBack_rules h ctx window rfl on hf
      exact ⟨goes, out, busy, fun stopped first last idle => ⟨force, kind, free stopped first last idle⟩⟩
  · intro s p c k x last irrev before
    have walk := doRevert_stops last irrev before
    exact ⟨congrArg Prod.fst walk, congrArg (fun y => y.2.2) walk⟩

end Sys2Proof.Machine
end

section
/-! SUPPORT. trap and tret (18_contexts R343, R349). -/

namespace Sys2Proof.Machine

open Sys2Proof

/-! ## tret -/

/-- The path a tret names, if it is there. -/
def tretPath (e : Env) (x : SysTarget) : Option Path :=
  if coreNamed e.hw e.part x.core then (e.hw.gangs.look x.gk).bind fun g => g.paths.look x.path else none
/-- The outcome of a tret that is applied (R349). -/
def tretOutcome (f : Fields) (e : Env) (r : Regs) (x : SysTarget) : Res :=
  match tretPath e x with
  | none => .done (putS r 3) e.hw
  | some q =>
    match q.trap with
    | none => .done (putS r 2) e.hw
    | some t =>
      if q.state ≠ .stopped then .done (putS r 2) e.hw
      else if !e.sup && t.level != 0 then .trap { cause := 0x03, hit := e.act }
      else .done (putS r (doTret e.s x.gk x.path q t f.op).1) (doTret e.s x.gk x.path q t f.op).2

section
variable {f : Fields} {s : State} {e : Env} (h : Issues Forms.tret f s e)
include h

theorem exec_tret :
    let r := regsF Forms.tret f
    let x := e.sysTarget (e.sa r)
    exec (.tret f) s = .next (s.with (e.finish r (if x.bad then targetTrap e
      else if !e.sup && x.ctx != e.ctx then .trap { cause := 0x03, hit := e.act } else e.asks r false (tretOutcome f e r x)))) :=
  (show exec (.tret f) s = execTret f s from rfl).trans (issueF_ok h _)

theorem tret_traps_target (bad : (e.sysTarget (e.sa (regsF Forms.tret f))).bad = true) : Traps (.tret f) s e { cause := 0x06, hit := e.act } :=
  traps_of_trap (exec_tret h) (if_pos bad)

theorem tret_traps_context (ok : (e.sysTarget (e.sa (regsF Forms.tret f))).bad = false) (user : e.sup = false)
    (other : (e.sysTarget (e.sa (regsF Forms.tret f))).ctx ≠ e.ctx) : Traps (.tret f) s e { cause := 0x03, hit := e.act } :=
  traps_of_trap (exec_tret h) ((if_neg (by simp [ok])).trans (if_pos (by simp [user, other])))

variable (ok : (e.sysTarget (e.sa (regsF Forms.tret f))).bad = false)
  (may : e.sup = true ∨ (e.sysTarget (e.sa (regsF Forms.tret f))).ctx = e.ctx)
include ok may

theorem exec_tret_asks :
    let r := regsF Forms.tret f
    exec (.tret f) s = .next (s.with (e.finish r (e.asks r false (tretOutcome f e r (e.sysTarget (e.sa r)))))) := by
  have run := exec_tret h
  have mine : ¬ (!e.sup && (e.sysTarget (e.sa (regsF Forms.tret f))).ctx != e.ctx) = true := by
    obtain sup | own := may
    · simp [sup]
    · simp [own]
  dsimp only at run
  rw [if_neg (by simp [ok]), if_neg mine] at run
  exact run

theorem tret_asks (first : ¬ e.answered) : Asks (.tret f) s e (regsF Forms.tret f) false := asks_of_asks (exec_tret_asks h ok may) first

variable (answered : e.answered)
include answered

theorem exec_tret_answered :
    let r := regsF Forms.tret f
    exec (.tret f) s = .next (s.with (e.finish r (tretOutcome f e r (e.sysTarget (e.sa r))))) := by
  have run := exec_tret_asks h ok may
  dsimp only at run
  rwa [asks_answered answered] at run

theorem tret_absent (absent : tretPath e (e.sysTarget (e.sa (regsF Forms.tret f))) = none) :
    Answers (.tret f) s e (regsF Forms.tret f) 3 e.hw :=
  retires_of_done h.here (exec_tret_answered h ok may answered) (by simp only [tretOutcome, absent])

section
variable {y : Path} (there : tretPath e (e.sysTarget (e.sa (regsF Forms.tret f))) = some y)
include there

theorem tret_running (runs : y.trap = none ∨ y.state ≠ .stopped) : Answers (.tret f) s e (regsF Forms.tret f) 2 e.hw := by
  refine retires_of_done h.here (exec_tret_answered h ok may answered) ?_
  simp only [tretOutcome, there]
  cases trap : y.trap with
  | none => rfl
  | some t => exact if_pos (runs.resolve_left (by rw [trap]; exact Option.some_ne_none t))

variable {t : TrapRec} (trap : y.trap = some t) (stopped : y.state = .stopped)
include trap stopped

theorem tret_traps_level (user : e.sup = false) (level : t.level ≠ 0) : Traps (.tret f) s e { cause := 0x03, hit := e.act } := by
  refine traps_of_trap (exec_tret_answered h ok may answered) ?_
  simp only [tretOutcome, there, trap, stopped, ne_eq, not_true_eq_false, if_false]
  exact if_pos (by simp [user, level])

/-- tret on a stopped path of its level returns as it says (R349). -/
theorem tret_returns (level : e.sup = true ∨ t.level = 0) {n : Nat} {hw : Hw}
    (does : doTret e.s (e.sysTarget (e.sa (regsF Forms.tret f))).gk (e.sysTarget (e.sa (regsF Forms.tret f))).path y t f.op = (n, hw)) :
    Answers (.tret f) s e (regsF Forms.tret f) n hw := by
  refine retires_of_done h.here (exec_tret_answered h ok may answered) ?_
  simp only [tretOutcome, there, trap, stopped, ne_eq, not_true_eq_false, if_false, does]
  refine if_neg ?_
  obtain sup | own := level
  · simp [sup]
  · simp [own]

end

end

/-! ## What a return does -/

/-- A path once the rejoin deadlock of its group is over (05_paths R112). -/
def deadlockOver (group : Nat) (q : Path) : Path :=
  match q.trap with
  | some r => if r.cause = 0x0A ∧ r.group = group ∧ q.state = .stopped then
      { q with state := .ready, age := 0, pc := if q.folded then q.pc else r.resume, trap := none, wait := .none } else q
  | none => q

theorem resumeDeadlock_paths {hw : Hw} {gk : Nat} {g : Gang} (hg : hw.gangs.look gk = some g) (group : Nat) :
    ∃ g', (resumeDeadlock hw gk group).gangs.look gk = some g' ∧ ∀ i, g'.paths.look i = (g.paths.look i).map (deadlockOver group) := by
  refine ⟨_, (setGang_look ..).trans (by rw [if_pos rfl, hg, Option.map_some]), fun i => ?_⟩
  rw [← look_map_keyed fun _ => deadlockOver group]
  refine congrArg (fun t => Tab.look t i) (List.map_congr_left fun x _ => ?_)
  unfold deadlockOver
  cases x.2.trap with
  | none => rfl
  | some r => exact (apply_ite (Prod.mk x.1) ..).symm

theorem deadlockOver_goes {group : Nat} {z : Path} {k : TrapRec} (trap : z.trap = some k) (cause : k.cause = 0x0A) (same : k.group = group)
    (stopped : z.state = .stopped) : deadlockOver group z =
      { z with state := .ready, age := 0, pc := if z.folded then z.pc else k.resume, trap := none, wait := .none } := by
  unfold deadlockOver
  rw [trap]
  exact if_pos ⟨cause, same, stopped⟩

theorem deadlockOver_stays {group : Nat} {z : Path} (runs : z.trap = none ∨ z.state ≠ .stopped) : deadlockOver group z = z := by
  unfold deadlockOver
  cases trap : z.trap with
  | none => rfl
  | some k => exact if_neg fun ⟨_, _, stopped⟩ => (runs.resolve_left (by rw [trap]; exact Option.some_ne_none k)) stopped

/-- A stopped path of one lane group goes on at an address (R349). -/
theorem resumeAt_spec {hw : Hw} {gk p : Nat} {pc : Word} {g : Gang} {q : Path} (hg : hw.gangs.look gk = some g) (hq : g.paths.look p = some q)
    (plain : q.folded = false) :
    OnlyGang gk hw (resumeAt hw gk p pc) ∧ ∃ g', (resumeAt hw gk p pc).gangs.look gk = some g' ∧
      (∀ i, i ≠ p → g'.paths.look i = g.paths.look i) ∧ g'.vregs = g.vregs ∧
      g'.paths.look p = some { q with state := .ready, trap := none, wait := .none, age := 0, pc := pc
                                      skipBp := q.skipBp && pc == q.pc, skipWp := q.skipWp && pc == q.pc
                                      cl := if pc = q.pc then q.cl else q.cl.after pc } := by
  have seen : seenAs g q = q := by simp [seenAs, plain]
  refine ⟨onlyGang_setGang .., _, (setGang_look ..).trans (by rw [if_pos rfl, hg, Option.map_some]), ?_⟩
  dsimp only
  rw [hq]
  dsimp only
  rw [seen]
  by_cases same : pc = q.pc
  · rw [if_pos ⟨same, by rw [plain]; rfl⟩, if_pos same, same]
    exact ⟨fun i hi => Tab.look_ins_other _ _ hi, rfl, Tab.look_ins_same ..⟩
  · rw [if_neg fun both => same both.1, if_neg same]
    simp only [sendLanes, Tab.look_ins_same, plain, Bool.false_eq_true, if_false, id, and_true]
    exact fun i hi => (Tab.look_ins_other _ _ hi).trans (Tab.look_ins_other _ _ hi)

/-- Settles O37: tret by the checks it makes in order, and what each of its operations makes of the path it names. -/
theorem trapForms : Obligations.TrapForms := by
  refine ⟨fun f s e h => traps_of_trap ((show exec (.trapS f) s = execTrapS f s from rfl).trans (issueS_ok h _)) rfl,
    fun f s e h => traps_of_trap ((show exec (.trap f) s = execTrap f s from rfl).trans (issueF_ok h _)) rfl, fun f s e h => ?_,
    fun hw gk p pc g q hg hq plain => resumeAt_spec hg hq plain⟩
  refine ⟨fun bad => tret_traps_target h bad, fun ok user other => tret_traps_context h ok user other,
    fun ok may first => tret_asks h ok may first, fun ok may answered => ⟨fun absent => tret_absent h ok may answered absent,
      fun y there runs => tret_running h ok may answered there runs,
      fun y t there trap stopped user level => tret_traps_level h ok may answered there trap stopped user level,
      fun y t there trap stopped level => ?_⟩⟩
  have same : e.s = s := env_state h.here
  have returns := fun {n : Nat} {hw : Hw} => tret_returns (n := n) (hw := hw) h ok may answered there trap stopped level
  refine ⟨fun op cause => returns ?_, fun op cause g hg => ?_, fun op cause => returns ?_, fun op c4 cA => returns ?_, fun op => returns ?_⟩
  · simp only [doTret, op, cause, if_false]
    rfl
  · obtain ⟨g', look, paths⟩ := resumeDeadlock_paths hg t.group
    refine ⟨_, g', returns ?_, onlyGang_setGang .., look, fun i z hz => ⟨deadlockOver t.group z, ?_, fun k tr ca gr st => ?_, fun runs => ?_⟩⟩
    · simp only [doTret, op, cause, if_true]
      rfl
    · rw [paths, hz, Option.map_some]
    · exact deadlockOver_goes tr ca gr st
    · exact deadlockOver_stays runs
  · simp only [doTret, op, cause]
    rfl
  · simp only [doTret, op, c4, cA, or_self, if_false]
    rfl
  · simp only [doTret, op]
    rfl

end Sys2Proof.Machine
end

section
/-! SUPPORT. Trap entry: the frame of a trap, its ring, and the path that stops (18_contexts R345-R348). -/

namespace Sys2Proof.Machine

open Sys2Proof

/-! ## The device's own writes -/

/-- Machine b is machine a after the device wrote ws to memory of partition p: it may have asked the host for the lines it holds. -/
structure DevWrote (p : Nat) (a b : Hw) (ws : List PWrite) : Prop where
  part : b.part p = { a.part p with pend := (a.part p).pend ++ ws }
  rest : b = { a with parts := b.parts, free := b.free, sent := b.sent }
  sent : (a.part p).link.hostLines = [] → b.sent = a.sent

theorem DevWrote.trans {p : Nat} {a b c : Hw} {v w : List PWrite} (h : DevWrote p a b v) (k : DevWrote p b c w) : DevWrote p a c (v ++ w) := by
  refine ⟨by rw [k.part, h.part]; simp, by rw [k.rest, h.rest], fun none' => (k.sent ?_).trans (h.sent none')⟩
  rw [h.part]
  exact none'

theorem devWrote_snoop (p : Nat) (hw : Hw) (a : Nat) : DevWrote p hw (snoop hw p a) [] := by
  refine ⟨(posted_snoop hw p a).part, ?_, fun none' => ?_⟩
  · unfold snoop
    split <;> rfl
  · unfold snoop
    rw [if_neg (by simp [hostHolds, none'])]

theorem devWrote_pend (p : Nat) (hw : Hw) (y : PWrite) : DevWrote p hw (hw.setPart p fun q => { q with pend := q.pend ++ [y] }) [y] :=
  ⟨Hw.part_setPart_same .., rfl, fun _ => rfl⟩

theorem devWrote_draw (p : Nat) (hw : Hw) : DevWrote p hw hw.draw.2 [] := ⟨by simp [Hw.part], rfl, fun _ => rfl⟩

theorem devWrote_putWrite (hw : Hw) (p t a : Nat) (bs : List Byte) :
    ∃ y : PWrite, DevWrote p hw (putWrite hw p t a bs 0 0 0).2 [y] ∧ y.addr = a ∧ y.bytes = bs :=
  ⟨_, (devWrote_snoop p hw a).trans (devWrote_pend ..), rfl, rfl⟩

/-- The device writes each of its words at its place (R348). -/
theorem devWrite_wrote (vs : List Nat) (hw : Hw) (p t a : Nat) :
    ∃ l, DevWrote p hw (devWrite hw p t a vs) l ∧ ∀ i, i < vs.length → ∃ y ∈ l, y.addr = a + 8 * i ∧ y.bytes = toBytes 8 (vs.getD i 0) := by
  induction vs generalizing hw a with
  | nil => exact ⟨[], ⟨by simp [devWrite], rfl, fun _ => rfl⟩, fun i hi => absurd hi (Nat.not_lt_zero i)⟩
  | cons v vs ih =>
    obtain ⟨y, first, addr, bytes⟩ := devWrote_putWrite hw.draw.2 p (t + hw.draw.1 % 1000) a (toBytes 8 v)
    obtain ⟨l, later, each⟩ := ih (putWrite hw.draw.2 p (t + hw.draw.1 % 1000) a (toBytes 8 v) 0 0 0).2 (a + 8)
    refine ⟨y :: l, ((devWrote_draw p hw).trans first).trans later, fun i hi => ?_⟩
    cases i with
    | zero => exact ⟨y, List.mem_cons_self, addr, bytes⟩
    | succ i =>
      obtain ⟨z, hz, za, zb⟩ := each i (Nat.lt_of_succ_lt_succ hi)
      exact ⟨z, List.mem_cons_of_mem _ hz, za.trans (by omega), zb⟩

/-- The word the device writes last takes a W past every write that has one (R348). -/
theorem devWriteLast_wrote (hw : Hw) (p t a v : Nat) :
    ∃ y : PWrite, DevWrote p hw (devWriteLast hw p t a v) [y] ∧ y.addr = a ∧ y.bytes = toBytes 8 v ∧ ∀ x ∈ (hw.part p).pend, x.w < y.w := by
  refine ⟨_, (devWrote_snoop p hw a).trans (devWrote_pend ..), rfl, rfl, fun x hx => ?_⟩
  have last : x.w ≤ lastPend hw p t := by
    obtain ⟨-, each, -⟩ := foldl_max_spec ((hw.part p).pend.map PWrite.w) t
    rw [List.foldl_map] at each
    exact each x.w (List.mem_map_of_mem hx)
  have past := (assignW_spec (hw.part p) (orderUnit a) (lastPend hw p t)).1
  show x.w < assignW (hw.part p) (orderUnit a) (lastPend hw p t)
  omega

/-! ## Frames -/

/-- Whether a ring of partition p has no room for a frame, or is off (R348). -/
def ringFull (m : Tab Memory) (hw : Hw) (p : Nat) (ring : Ring) : Bool :=
  !ring.en || decide (2 ^ ring.log2n ≤ (latestNat m hw p ring.base 8 + 2 ^ 64 - rdNat m p (ring.base + 8) 8) % 2 ^ 64)

theorem postFrame_full {m : Tab Memory} {hw : Hw} {p : Nat} {ring : Ring} (full : ringFull m hw p ring = true) (t : Nat) (ws : List Nat) :
    postFrame hw m p t ring ws = none := by
  unfold postFrame
  by_cases on : ring.en = true
  · rw [if_neg (by simp [on])]
    exact if_pos (by simpa [ringFull, on] using full)
  · exact if_pos (by simp [on])

/-- A frame that has room is written word by word, and the producer word last (R348). -/
theorem postFrame_posts {m : Tab Memory} {hw : Hw} {p : Nat} {ring : Ring} (room : ringFull m hw p ring = false) (t : Nat) (ws : List Nat) :
    let prod := latestNat m hw p ring.base 8
    ∃ h l w, postFrame hw m p t ring ws = some h ∧ DevWrote p hw h (l ++ [w]) ∧
      w.addr = ring.base ∧ w.bytes = toBytes 8 ((prod + 1) % 2 ^ 64) ∧ (∀ y ∈ l ++ (hw.part p).pend, y.w < w.w) ∧
      ∀ i, i < (frameWords ws prod).length → ∃ y ∈ l, y.addr = ring.frameAt prod + 8 * i ∧ y.bytes = toBytes 8 ((frameWords ws prod).getD i 0) := by
  intro prod
  obtain ⟨l, words, each⟩ := devWrite_wrote (frameWords ws prod) hw p t (ring.frameAt prod)
  obtain ⟨w, last, addr, bytes, past⟩ := devWriteLast_wrote (devWrite hw p t (ring.frameAt prod) (frameWords ws prod)) p t ring.base ((prod + 1) % 2 ^ 64)
  obtain ⟨on, less⟩ := Bool.or_eq_false_iff.1 room
  refine ⟨_, l, w, ?_, words.trans last, addr, bytes, fun y hy => past y ?_, each⟩
  · unfold postFrame
    rw [if_neg (by rw [on]; exact Bool.false_ne_true)]
    exact if_neg (of_decide_eq_false less)
  · rw [words.part]
    exact List.mem_append.2 ((List.mem_append.1 hy).symm)

/-- Machine b is machine a after a frame of words ws went to a ring: written there, or where it has no room held by the core for its
retry under context c (R348). -/
structure Delivers (m : Tab Memory) (p core : Nat) (ring : Ring) (c : Option Nat) (ws : List Nat) (a b : Hw) : Prop where
  rest : b = { a with parts := b.parts, cores := b.cores, free := b.free, sent := b.sent }
  sent : (a.part p).link.hostLines = [] → b.sent = a.sent
  posted : ringFull m a p ring = false → b.cores = a.cores ∧ ∃ l w, (b.part p).pend = (a.part p).pend ++ l ++ [w] ∧
    w.addr = ring.base ∧ w.bytes = toBytes 8 ((latestNat m a p ring.base 8 + 1) % 2 ^ 64) ∧ (∀ y ∈ l ++ (a.part p).pend, y.w < w.w) ∧
    ∀ i, i < (frameWords ws (latestNat m a p ring.base 8)).length →
      ∃ y ∈ l, y.addr = ring.frameAt (latestNat m a p ring.base 8) + 8 * i ∧
        y.bytes = toBytes 8 ((frameWords ws (latestNat m a p ring.base 8)).getD i 0)
  held : ringFull m a p ring = true → (b.part p).pend = (a.part p).pend ∧
    ∃ f, (b.core core).frames = (a.core core).frames ++ [f] ∧ f.ctx = c ∧ f.words = ws

/-- A frame is posted, and what is counted for it touches no pending write, or it is held. -/
theorem delivers_of_post (m : Tab Memory) (p t core : Nat) (ring : Ring) (c : Option Nat) (ws : List Nat) (a : Hw) {after : Hw → Hw}
    (rest : ∀ h, after h = { h with parts := (after h).parts }) (pend : ∀ h, ((after h).part p).pend = (h.part p).pend) :
    Delivers m p core ring c ws a (match postFrame a m p t ring ws with
      | some h => after h
      | none => a.setCore core fun k => { k with frames := k.frames ++ [⟨c, ws⟩] }) := by
  cases full : ringFull m a p ring with
  | true =>
    rw [postFrame_full full]
    refine ⟨rfl, fun _ => rfl, fun no => Bool.noConfusion (full.symm.trans no), fun _ => ⟨rfl, ⟨c, ws⟩, ?_, rfl, rfl⟩⟩
    exact congrArg Core.frames (Hw.core_setCore_same ..)
  | false =>
    obtain ⟨h, l, w, post, wrote, addr, bytes, past, each⟩ := postFrame_posts full t ws
    rw [post]
    refine ⟨by dsimp only; rw [rest, wrote.rest], fun none' => ?_, fun _ => ⟨?_, l, w, ?_, addr, bytes, past, each⟩,
      fun no => Bool.noConfusion (full.symm.trans no)⟩
    · exact (congrArg Hw.sent (rest h)).trans (wrote.sent none')
    · dsimp only
      rw [rest, wrote.rest]
    · rw [pend, wrote.part, ← List.append_assoc]

/-- What is counted before a frame is delivered touches no pending write. -/
theorem Delivers.after {m : Tab Memory} {p core : Nat} {ring : Ring} {c : Option Nat} {ws : List Nat} {z a b : Hw}
    (rest : a = { z with parts := a.parts }) (pend : (a.part p).pend = (z.part p).pend) (link : (a.part p).link = (z.part p).link)
    (h : Delivers m p core ring c ws a b) : Delivers m p core ring c ws z b := by
  have cores : a.cores = z.cores := by rw [rest]
  have core' : a.core core = z.core core := by rw [Hw.core, cores, Hw.core]
  have prod : latestNat m a p ring.base 8 = latestNat m z p ring.base 8 := by rw [latestNat, latestNat, pend]
  have full : ringFull m a p ring = ringFull m z p ring := by rw [ringFull, ringFull, prod]
  obtain ⟨brest, sent, posted, held⟩ := h
  rw [full, prod, pend, cores] at posted
  rw [full, pend, core'] at held
  refine ⟨by rw [brest, rest], fun none' => (sent (by rw [link]; exact none')).trans (by rw [rest]), posted, held⟩

/-! ## The delivery of a frame -/

/-- A frame of 16 words with its LEVEL and its place in the ring. -/
def levelled (ws : List Nat) (lvl : Nat) : List Nat := ws.set 1 (ws.getD 1 0 + lvl * 2 ^ 46)
/-- The ring of a context. -/
def ownRing (hw : Hw) (p ctx : Nat) : Ring := match hw.ctx p ctx with | some x => x.ring | none => {}

theorem levelled_zero (ws : List Nat) : levelled ws 0 = ws := by
  match ws with
  | [] => rfl
  | [_] => rfl
  | _ :: b :: _ => simp [levelled]

section
variable (hw : Hw) (m : Tab Memory) (p t core ctx : Nat) (ws : List Nat)

theorem deliver_own_eq (on : (ownRing hw p ctx).en = true) :
    deliver hw m p t core ctx false ws = (0, match postFrame hw m p t (ownRing hw p ctx) ws with
      | some h => h.setCtx p ctx fun c => { c with ring := c.ring.post }
      | none => hw.setCore core fun k => { k with frames := k.frames ++ [⟨some ctx, ws⟩] }) := by
  have may : (!false && (ownRing hw p ctx).en) = true := by simp [on]
  unfold deliver
  exact if_pos may

/-- The machine once an escalated frame is counted in its context's ring. -/
def escCounted : Hw := hw.setCtx p ctx fun c => { c with ring := { c.ring with esc := (c.ring.esc + 1) % 2 ^ 16 } }

theorem deliver_escalates_eq (off : (ownRing hw p ctx).en = false) :
    deliver hw m p t core ctx false ws = (2, match postFrame (escCounted hw p ctx) m p t (hw.part p).sring (levelled ws 2) with
      | some h => h.setPart p fun q => { q with sring := q.sring.post }
      | none => (escCounted hw p ctx).setCore core fun k => { k with frames := k.frames ++ [⟨none, levelled ws 2⟩] }) := by
  have may : ¬ (!false && (ownRing hw p ctx).en) = true := by simp [off]
  unfold deliver
  exact if_neg may

theorem deliver_own {sup : Bool} (user : sup = false) (on : (ownRing hw p ctx).en = true) :
    (deliver hw m p t core ctx sup ws).1 = 0 ∧
      Delivers m p core (ownRing hw p ctx) (some ctx) ws hw (deliver hw m p t core ctx sup ws).2 := by
  rw [user, deliver_own_eq hw m p t core ctx ws on]
  exact ⟨rfl, delivers_of_post m p t core _ (some ctx) ws hw (after := fun h => h.setCtx p ctx fun c => { c with ring := c.ring.post })
    (fun _ => rfl) fun h => by rw [Hw.setCtx, Hw.part_setPart_same]⟩

theorem deliver_sup {sup : Bool} (priv : sup = true) :
    (deliver hw m p t core ctx sup ws).1 = 1 ∧
      Delivers m p core (hw.part p).sring none (levelled ws 1) hw (deliver hw m p t core ctx sup ws).2 := by
  subst priv
  exact ⟨rfl, delivers_of_post m p t core _ none _ hw (after := fun h => h.setPart p fun q => { q with sring := q.sring.post })
    (fun _ => rfl) fun h => by rw [Hw.part_setPart_same]⟩

theorem deliver_escalates {sup : Bool} (user : sup = false) (off : (ownRing hw p ctx).en = false) :
    (deliver hw m p t core ctx sup ws).1 = 2 ∧
      Delivers m p core (hw.part p).sring none (levelled ws 2) hw (deliver hw m p t core ctx sup ws).2 := by
  have part : (escCounted hw p ctx).part p = { hw.part p with contexts := ((escCounted hw p ctx).part p).contexts } := by
    simp only [escCounted, Hw.setCtx, Hw.part_setPart_same]
  rw [user, deliver_escalates_eq hw m p t core ctx ws off]
  refine ⟨rfl, Delivers.after (a := escCounted hw p ctx) rfl (by rw [part]) (by rw [part]) ?_⟩
  exact delivers_of_post m p t core _ none _ _ (after := fun h => h.setPart p fun q => { q with sring := q.sring.post })
    (fun _ => rfl) fun h => by rw [Hw.part_setPart_same]

end

/-! ## The path that stops -/

/-- The frame of a trap, but for its LEVEL and its place in the ring (Table CX-3). -/
def trapWords (s : State) (e : Env) (t : Trap) : List Nat := trapFrame s e.gk e.p e.g e.q t s.cur.len s.cur.insn.toNat
/-- Whether a trap of a path goes to the supervisor's ring by its cause or its context (R346). -/
def trapSup (s : State) (e : Env) (t : Trap) : Bool := causeSup t.cause || gkCtx e.gk == (s.hw.part e.part).sup
/-- The machine once the frame of a trap is delivered, and its LEVEL. -/
def trapDelivery (s : State) (e : Env) (t : Trap) : Nat × Hw :=
  deliver s.hw s.mem e.part s.time (gkCore e.gk) (gkCtx e.gk) (trapSup s e t) (trapWords s e t)
/-- The frame of a trap with its LEVEL and its place in the ring (Table CX-3). -/
def trapEntryWords (s : State) (e : Env) (t : Trap) (lvl seq : Nat) : List Nat :=
  let ins := if t.cause = 0x04 then 0 else s.cur.insn.toNat % 2 ^ (8 * s.cur.len)
  [ t.hit.toNat * 2 ^ 32 + siblings e.g e.p * 2 ^ 16 + e.q.parent * 2 ^ 12 + e.p * 2 ^ 8 + t.cause,
    gkCtx e.gk * 2 ^ 48 + gangId s.hw e.gk + lvl * 2 ^ 46, e.q.pc.toNat, t.straddle.getD e.q.pc.toNat, t.fault % 2 ^ 64,
    windowOf s.hw e.part (gkCtx e.gk) s.time * 2 ^ 32 + e.q.depth * 2 ^ 10, s.time % 2 ^ 64, e.g.tag.toNat,
    seq % 2 ^ 32 * 2 ^ 32 + t.info % 2 ^ 32, bits 63 0 ins, bits 127 64 ins, 0, 0, 0, 0, 0 ]

/-- A path that a trap of level lvl has stopped, its group holding lanes m (R345, R349). -/
def trapped (s : State) (e : Env) (t : Trap) (m : Lanes) (lvl : Nat) (x : Path) : Path :=
  let next := e.q.pc + word s.cur.len
  { x with
    state := .stopped, wait := .none, form := none, moving := if e.q.folded then m else 0
    skipBp := x.skipBp || t.cause == 0x0D, skipWp := x.skipWp || t.cause == 0x0E
    trap := some (TrapRec.mk t.cause lvl next (if t.cause = 0x15 then next else e.q.pc) 0) }

theorem env_part {s : State} {e : Env} (h : env s = some e) : e.part = e.g.part := by
  simp only [env] at h
  split at h
  · cases h
  · split at h
    · cases h
    · cases h
      rfl

section
variable {s : State} {e : Env} (he : env s = some e) (t : Trap)
include he

theorem trapWords_held (lvl : Nat) : levelled (trapWords s e t) lvl = trapEntryWords s e t lvl 0 := by
  simp only [levelled, trapWords, trapFrame, trapEntryWords, List.set, List.getD_cons_succ, List.getD_cons_zero, frameWin, env_part he,
    Nat.zero_mod, Nat.zero_mul, Nat.zero_add]

theorem trapWords_posted (lvl seq : Nat) : frameWords (levelled (trapWords s e t) lvl) seq = trapEntryWords s e t lvl seq := by
  have low : ∀ n, bits 31 0 n = n % 2 ^ 32 := fun n => by simp [bits]
  rw [trapWords_held he]
  simp only [frameWords, trapEntryWords, List.set, List.getD_cons_succ, List.getD_cons_zero, low, Nat.zero_mod, Nat.zero_mul, Nat.zero_add,
    Nat.mod_mod]

theorem trap_eq : ∃ m, e.trap t = setPath (trapDelivery s e t).2 e.gk e.p (trapped s e t m (trapDelivery s e t).1) := by
  obtain ⟨hs, hg, q, hq, seen⟩ := env_spec he
  have hw : e.hw = s.hw := by rw [Env.hw, hs]
  refine ⟨groupOf e.g q, ?_⟩
  unfold Env.trap takeTrap
  rw [hg]
  dsimp only
  rw [hq]
  dsimp only
  rw [← seen, hs, hw, ← env_part he]
  rfl

/-- A path that traps stops with what a return needs; the rest of its gang stays (R345, R349). -/
theorem trapped_path {m : Lanes} {lvl : Nat} {h : Hw} (gangs : h.gangs = s.hw.gangs) :
    let next := e.q.pc + word s.cur.len
    ∃ g' q' k, (setPath h e.gk e.p (trapped s e t m lvl)).gangs.look e.gk = some g' ∧ g' = { e.g with paths := g'.paths } ∧
      (∀ i, i ≠ e.p → g'.paths.look i = e.g.paths.look i) ∧ g'.paths.look e.p = some q' ∧ q'.state = .stopped ∧
      q'.mask = e.q.mask ∧ q'.sregs = e.q.sregs ∧ (e.q.folded = false → q'.pc = e.q.pc ∧ q'.cl = e.q.cl ∧ q'.depth = e.q.depth) ∧
      q'.trap = some k ∧ k.cause = t.cause ∧ k.next = next ∧ k.resume = (if t.cause = 0x15 then next else e.q.pc) := by
  intro next
  obtain ⟨hs, hg, q, hq, seen⟩ := env_spec he
  have hg' : h.gangs.look e.gk = some e.g := by
    rw [gangs, ← hs]
    exact hg
  have same : e.q.mask = q.mask ∧ e.q.sregs = q.sregs ∧ e.q.folded = q.folded := by
    rw [seen, seenAs]
    split <;> exact ⟨rfl, rfl, rfl⟩
  refine ⟨{ e.g with paths := e.g.paths.upd e.p (trapped s e t m lvl) }, trapped s e t m lvl q, _, ?_, rfl, fun i hi => ?_, ?_, rfl,
    same.1.symm, same.2.1.symm, fun plain => ?_, rfl, rfl, rfl, rfl⟩
  · exact (setGang_look ..).trans (by rw [if_pos rfl, hg']; rfl)
  · exact (Tab.look_upd ..).trans (if_neg hi)
  · exact (Tab.look_upd ..).trans (by rw [if_pos rfl, hq]; rfl)
  · have : e.q = q := by
      rw [seen, seenAs, if_neg]
      simp [← same.2.2, plain]
    rw [this]
    exact ⟨rfl, rfl, rfl⟩

omit he in
/-- The frame of a trap goes to the ring of its level (R346, R348). -/
theorem trap_delivers {lvl : Nat} {ring : Ring} {c : Option Nat}
    (which : (lvl = 0 ∧ trapSup s e t = false ∧ (ownRing s.hw e.part (gkCtx e.gk)).en = true ∧ ring = ownRing s.hw e.part (gkCtx e.gk) ∧
        c = some (gkCtx e.gk)) ∨
      (lvl = 1 ∧ trapSup s e t = true ∧ ring = (s.hw.part e.part).sring ∧ c = none) ∨
      (lvl = 2 ∧ trapSup s e t = false ∧ (ownRing s.hw e.part (gkCtx e.gk)).en = false ∧ ring = (s.hw.part e.part).sring ∧ c = none)) :
    Delivers s.mem e.part (gkCore e.gk) ring c (levelled (trapWords s e t) lvl) s.hw (trapDelivery s e t).2 := by
  obtain ⟨rfl, user, on, rfl, rfl⟩ | ⟨rfl, priv, rfl, rfl⟩ | ⟨rfl, user, off, rfl, rfl⟩ := which
  · rw [levelled_zero]
    exact (deliver_own s.hw s.mem e.part s.time (gkCore e.gk) (gkCtx e.gk) _ user on).2
  · exact (deliver_sup s.hw s.mem e.part s.time (gkCore e.gk) (gkCtx e.gk) _ priv).2
  · exact (deliver_escalates s.hw s.mem e.part s.time (gkCore e.gk) (gkCtx e.gk) _ user off).2

omit he in
/-- A frame goes to some ring, whatever its trap. -/
theorem trap_delivered (s : State) (e : Env) (t : Trap) :
    ∃ ring c ws, Delivers s.mem e.part (gkCore e.gk) ring c ws s.hw (trapDelivery s e t).2 := by
  cases sup : trapSup s e t with
  | true => exact ⟨_, _, _, (deliver_sup s.hw s.mem e.part s.time (gkCore e.gk) (gkCtx e.gk) _ sup).2⟩
  | false => cases on : (ownRing s.hw e.part (gkCtx e.gk)).en with
    | true => exact ⟨_, _, _, (deliver_own s.hw s.mem e.part s.time (gkCore e.gk) (gkCtx e.gk) _ sup on).2⟩
    | false => exact ⟨_, _, _, (deliver_escalates s.hw s.mem e.part s.time (gkCore e.gk) (gkCtx e.gk) _ sup on).2⟩

end

/-- Settles O38: the machine of a trap is that of its frame's delivery but for the path that stops. -/
theorem trapEntry : Obligations.TrapEntry := by
  intro s e t he h next
  obtain ⟨m, eq⟩ := trap_eq he t
  obtain ⟨ring0, c0, ws0, D⟩ := trap_delivered s e t
  have gangs : (trapDelivery s e t).2.gangs = s.hw.gangs := by rw [D.rest]
  have eq : h = setPath (trapDelivery s e t).2 e.gk e.p (trapped s e t m (trapDelivery s e t).1) := eq
  rw [eq]
  clear_value h
  refine ⟨⟨?_, ?_, ?_, ?_, D.sent, ?_, ?_, fun k hk => ?_⟩, trapped_path he t gangs, fun lvl ring c => ?_⟩
  · exact (setPath_ops ..).trans (by rw [D.rest])
  · exact (setPath_blocks ..).trans (by rw [D.rest])
  · exact (setPath_launches ..).trans (by rw [D.rest])
  · exact (setPath_images ..).trans (by rw [D.rest])
  · exact (setPath_clusters ..).trans (by rw [D.rest])
  · exact (setPath_pkg ..).trans (by rw [D.rest])
  · exact (setGang_look ..).trans (by rw [if_neg hk, gangs])
  intro sup own which prod cons ins frame queue full
  have L := trap_delivers t which
  refine ⟨fun room => ?_, fun none' => ?_⟩
  · obtain ⟨cores, l, w, pend, addr, bytes, past, each⟩ := L.posted room
    rw [trapWords_posted he] at each
    exact ⟨cores, l, w, pend, addr, bytes, past, each⟩
  · obtain ⟨pend, f, frames, ctx, words⟩ := L.held none'
    exact ⟨pend, f, frames, ctx, words.trans (trapWords_held he t lvl)⟩

end Sys2Proof.Machine
end

section
/-! SUPPORT. cstop, cresume and ckill; what a kill takes away, and the ends that time brings (18_contexts R356, R357). -/

namespace Sys2Proof.Machine

open Sys2Proof

/-! ## Machines with the same live contexts -/

/-- Machine b has the package of a, and the same contexts are live in it. -/
structure SameLive (a b : Hw) : Prop where
  pkg : b.pkg = a.pkg
  live : ∀ p c, (b.ctx p c).isSome = (a.ctx p c).isSome

theorem SameLive.refl (a : Hw) : SameLive a a := ⟨rfl, fun _ _ => rfl⟩
theorem SameLive.trans {a b c : Hw} (h : SameLive a b) (k : SameLive b c) : SameLive a c :=
  ⟨k.pkg.trans h.pkg, fun p x => (k.live p x).trans (h.live p x)⟩

theorem sameLive_of_parts {a b : Hw} (pkg : b.pkg = a.pkg) (parts : b.parts = a.parts) : SameLive a b :=
  ⟨pkg, fun p c => by rw [Hw.ctx, Hw.ctx, Hw.part, Hw.part, parts]⟩
theorem sameLive_setPart (a : Hw) (p : Nat) {f : Part → Part} (hf : ∀ q, (f q).contexts = q.contexts) : SameLive a (a.setPart p f) :=
  ⟨rfl, fun i c => by rw [Hw.ctx_setPart hf]⟩

theorem Hw.ctx_setCtx (a : Hw) (p c : Nat) (f : Context → Context) (i x : Nat) :
    (a.setCtx p c f).ctx i x = if i = p ∧ x = c then (a.ctx p c).map f else a.ctx i x := by
  by_cases hp : i = p
  · subst hp
    by_cases hc : x = c
    · subst hc
      rw [Hw.ctx_setCtx_same, if_pos ⟨rfl, rfl⟩]
    · rw [Hw.ctx_setCtx_other hc, if_neg fun both => hc both.2]
  · rw [if_neg fun both => hp both.1, Hw.ctx, Hw.part_setCtx_other hp]
    rfl

theorem sameLive_setCtx (a : Hw) (p c : Nat) (f : Context → Context) : SameLive a (a.setCtx p c f) := by
  refine ⟨rfl, fun i x => ?_⟩
  rw [Hw.ctx_setCtx]
  split
  · next both =>
    obtain ⟨rfl, rfl⟩ := both
    exact Option.isSome_map
  · rfl

theorem OnlyGang.sameLive {gk : Nat} {a b : Hw} (h : OnlyGang gk a b) : SameLive a b := by
  refine ⟨h.pkg, fun p c => ?_⟩
  have same := congrArg Option.isSome ((h.parts p).ctx c)
  simpa only [Option.isSome_map, Hw.ctx] using same

theorem sameLive_pend (a : Hw) (p : Nat) (ys : List PWrite) : SameLive a (a.setPart p fun q => { q with pend := q.pend ++ ys }) :=
  sameLive_setPart a p fun _ => rfl
theorem sameLive_draw (a : Hw) : SameLive a a.draw.2 := sameLive_of_parts rfl rfl
theorem sameLive_snoop (a : Hw) (p x : Nat) : SameLive a (snoop a p x) := by
  unfold snoop
  split
  · exact sameLive_of_parts rfl rfl
  · exact .refl a
theorem sameLive_putWrite (a : Hw) (p t x : Nat) (bs : List Byte) (id gk ps : Nat) : SameLive a (putWrite a p t x bs id gk ps).2 :=
  (sameLive_snoop ..).trans (sameLive_pend ..)
theorem sameLive_devWriteLast (a : Hw) (p t x v : Nat) : SameLive a (devWriteLast a p t x v) :=
  (sameLive_snoop ..).trans (sameLive_pend ..)
theorem sameLive_devWrite (vs : List Nat) (a : Hw) (p t x : Nat) : SameLive a (devWrite a p t x vs) := by
  induction vs generalizing a x with
  | nil => exact .refl a
  | cons v vs ih => exact ((sameLive_draw a).trans (sameLive_putWrite a.draw.2 p (t + a.draw.1 % 1000) x (toBytes 8 v) 0 0 0)).trans (ih _ (x + 8))

/-! ## Traps and operations that end -/

theorem sameLive_postFrame {a b : Hw} {m : Tab Memory} {p t : Nat} {r : Ring} {ws : List Nat} (h : postFrame a m p t r ws = some b) : SameLive a b := by
  unfold postFrame at h
  split at h
  · cases h
  · dsimp only at h
    split at h
    · cases h
    · cases h
      exact (sameLive_devWrite ..).trans (sameLive_devWriteLast ..)

theorem sameLive_post (a : Hw) (m : Tab Memory) (p t core : Nat) (r : Ring) (f : HeldFrame) (ws : List Nat) {after : Hw → Hw}
    (live : ∀ h, SameLive h (after h)) : SameLive a (match postFrame a m p t r ws with
      | some h => after h
      | none => a.setCore core fun k => { k with frames := k.frames ++ [f] }) := by
  cases got : postFrame a m p t r ws with
  | none => exact sameLive_of_parts rfl rfl
  | some h => exact (sameLive_postFrame got).trans (live h)

theorem sameLive_sring (a : Hw) (p : Nat) : SameLive a (a.setPart p fun q => { q with sring := q.sring.post }) := sameLive_setPart a p fun _ => rfl

theorem sameLive_deliver (a : Hw) (m : Tab Memory) (p t core c : Nat) (sup : Bool) (ws : List Nat) : SameLive a (deliver a m p t core c sup ws).2 := by
  cases sup with
  | true => exact sameLive_post a m p t core _ ⟨none, levelled ws 1⟩ _ fun h => sameLive_sring h p
  | false => cases on : (ownRing a p c).en with
    | true =>
      rw [deliver_own_eq a m p t core c ws on]
      exact sameLive_post a m p t core _ ⟨some c, ws⟩ _ fun h => sameLive_setCtx h p c _
    | false =>
      rw [deliver_escalates_eq a m p t core c ws on]
      exact (sameLive_setCtx ..).trans (sameLive_post _ m p t core _ ⟨none, levelled ws 2⟩ _ fun h => sameLive_sring h p)

theorem sameLive_trap (e : Env) (t : Trap) : SameLive e.hw (e.trap t) := by
  unfold Env.trap takeTrap
  split
  · exact .refl _
  · split
    · exact .refl _
    · exact (sameLive_deliver ..).trans (sameLive_of_parts rfl rfl)

/-- A form that retires from its wait leaves the contexts live that are live. -/
theorem sameLive_retireParked (e : Env) (w : Writes) : SameLive e.hw (e.retireParked w e.hw) := by
  unfold Env.retireParked
  cases e.q.form with
  | none => exact .refl _
  | some r =>
    dsimp only
    cases got : commit { e with s := { e.s with cur := { e.s.cur with len := r.len, insn := e.q.insn } } } r w e.hw with
    | none =>
      simp only [Env.finish, got]
      exact sameLive_trap { e with s := { e.s with cur := { e.s.cur with len := r.len, insn := e.q.insn } } } _
    | some h =>
      exact (retired_any (e := { e with s := { e.s with cur := { e.s.cur with len := r.len, insn := e.q.insn } } }) (by rw [got]; rfl)).only.sameLive

theorem sameLive_setPaths (ps : List Nat) (gk : Nat) (f : Nat → Path → Path) (a : Hw) :
    SameLive a (ps.foldl (fun h p => setPath h gk p (f p)) a) := by
  induction ps generalizing a with
  | nil => exact .refl a
  | cons p ps ih => exact SameLive.trans (b := setPath a gk p (f p)) (sameLive_of_parts rfl rfl) (ih _)

theorem sameLive_landDest (a : Hw) (gk : Nat) (d : Dest) (v : Nat → Word) : SameLive a (landDest a gk d v) := by
  cases d with
  | none => exact .refl a
  | vec r m rel => exact sameLive_of_parts rfl rfl
  | scal r ps rel => exact (sameLive_setPaths (bitList 16 ps) gk _ a).trans (sameLive_of_parts rfl rfl)

theorem sameLive_landOp (s : State) (o : Op) (v : Nat → Word) : SameLive s.hw (landOp s o v).hw := by
  have dropped : SameLive s.hw { s.hw with ops := s.hw.ops.filter fun x => x.id != o.id } := sameLive_of_parts rfl rfl
  unfold landOp
  dsimp only
  split
  · split
    · next e he =>
      have same : e.hw = { s.hw with ops := s.hw.ops.filter fun x => x.id != o.id } := congrArg State.hw (env_state he)
      refine dropped.trans ?_
      rw [← same]
      exact sameLive_retireParked ..
    · exact dropped
  · exact dropped.trans (((logDest_frame ..).only 0).sameLive.trans (sameLive_landDest ..))

theorem sameLive_ite {c : Prop} [Decidable c] {a : Hw} {x y : State} (hx : SameLive a x.hw) (hy : SameLive a y.hw) :
    SameLive a (if c then x else y).hw := by
  split
  · exact hx
  · exact hy

theorem sameLive_dropHeld (s : State) (o : Op) : SameLive s.hw (dropHeld s o).hw := by
  unfold dropHeld
  dsimp only
  split
  · exact sameLive_of_parts rfl rfl
  · refine sameLive_ite (SameLive.trans ?_ (sameLive_landOp ..)) ?_
    · exact sameLive_of_parts rfl rfl
    · exact sameLive_of_parts rfl rfl

theorem sameLive_foldl {α : Type} {f : State → α → State} (hf : ∀ s x, SameLive s.hw (f s x).hw) (l : List α) (s : State) :
    SameLive s.hw (l.foldl f s).hw := by
  induction l generalizing s with
  | nil => exact .refl _
  | cons x l ih => exact (hf s x).trans (ih _)

theorem sameLive_discardHeld (s : State) (p c : Nat) : SameLive s.hw (discardHeld s p c).hw := by
  have filtered := sameLive_setPart s.hw p (f := fun q => { q with pend := q.pend.filter fun w => !(w.full && w.tctx == some c) }) fun _ => rfl
  unfold discardHeld
  dsimp only
  refine filtered.trans (SameLive.trans ?_ (sameLive_foldl (fun s o => ?_) _ _))
  · exact sameLive_of_parts rfl rfl
  · split
    · exact sameLive_dropHeld ..
    · exact .refl _

/-! ## What a kill takes away -/

/-- Machines that differ in cores alone. -/
def OnlyCores (a b : Hw) : Prop := b = { a with cores := b.cores }

theorem OnlyCores.trans {a b c : Hw} (h : OnlyCores a b) (k : OnlyCores b c) : OnlyCores a c := by
  unfold OnlyCores at *
  rw [k, h]

theorem killOnCore_only (a : Hw) (core c : Nat) : OnlyCores a (killOnCore a core c) := by
  have bank : ∀ h : Hw, ∀ b, OnlyCores h (emptyBank h core b) := fun _ _ => rfl
  have first : OnlyCores a (if (a.core core).ctx0 = some c then emptyBank a core 0 else a) := by
    split
    · exact bank a 0
    · rfl
  have second : ∀ h, OnlyCores h (if (a.core core).ctx1 = some c then emptyBank h core 1 else h) := fun h => by
    split
    · exact bank h 1
    · rfl
  exact (first.trans (second _)).trans rfl

theorem killOnCores_only (ks : List Nat) (c : Nat) (a : Hw) : OnlyCores a (ks.foldl (fun h k => killOnCore h k c) a) := by
  induction ks generalizing a with
  | nil => rfl
  | cons k ks ih => exact (killOnCore_only a k c).trans (ih _)

theorem OnlyCores.sameLive {a b : Hw} (h : OnlyCores a b) : SameLive a b := sameLive_of_parts (by rw [h]) (by rw [h])

theorem corePart_of_pkg {a b : Hw} (pkg : b.pkg = a.pkg) (k : Nat) : corePart b k = corePart a k := by
  rw [corePart, corePart, thirdPart, thirdPart, pkg]

/-- The machine as a kill takes it up: nothing of the context is held, and its Tail is off (R357). -/
def killStart (s : State) (p c : Nat) : Hw := (discardHeld s p c).hw.setTail p c TailSt.off
/-- The machine once the context is off the cores of its partition. -/
def killCores (s : State) (p c : Nat) : Hw :=
  (((killStart s p c).cores.map (·.1)).filter fun k => corePart (killStart s p c) k == some p).foldl (fun h k => killOnCore h k c) (killStart s p c)

theorem sameLive_killCores (s : State) (p c : Nat) : SameLive s.hw (killCores s p c) :=
  ((sameLive_discardHeld s p c).trans (sameLive_setCtx ..)).trans (killOnCores_only ..).sameLive

theorem doKill_eq (s : State) (p c : Nat) : doKill s p c = { (killCores s p c).setPart p fun q => { q with
      pend := q.pend.map fun w => if w.tctx = some c then { w with tctx := none, paths := 0 } else w } with
    gangs := (killCores s p c).gangs.filter fun g => !(gkCtx g.1 == c && corePart (killStart s p c) (gkCore g.1) == some p)
    blocks := (killCores s p c).blocks.filter fun b => !(b.2.part == p && b.2.ctx == c)
    images := (killCores s p c).images.filter fun i => !(i.1 % 65536 == c && corePart (killCores s p c) (i.1 / 65536) == some p)
    ops := (killCores s p c).ops.filterMap fun o => if o.part = p ∧ o.ctx = c then
      (if o.kind.outlives then some { o with
        ctx := 0xFFFF, gk := deadGang, paths := 0, flags := [], counts := false, dst := .none, chain := none, held := false } else none)
      else some o } := rfl

theorem sameLive_doKill (s : State) (p c : Nat) : SameLive s.hw (doKill s p c) := by
  rw [doKill_eq]
  refine (sameLive_killCores s p c).trans (SameLive.trans (sameLive_setPart _ p (f := fun q => { q with
    pend := q.pend.map fun w => if w.tctx = some c then { w with tctx := none, paths := 0 } else w }) fun _ => rfl) (sameLive_of_parts rfl rfl))

/-- A kill leaves no gang, block, operation or image of its context (R357). -/
theorem doKill_takes (s : State) (p c : Nat) :
    let h := doKill s p c
    (∀ gk, gkCtx gk = c → corePart h (gkCore gk) = some p → h.gangs.look gk = none) ∧
    (∀ k b, h.blocks.look k = some b → b.part ≠ p ∨ b.ctx ≠ c) ∧
    (∀ o ∈ h.ops, o.part = p → o.ctx = c → c = 0xFFFF) ∧
    (∀ k, k % 65536 = c → corePart h (k / 65536) = some p → h.images.look k = none) := by
  intro h
  have start : (killStart s p c).pkg = s.hw.pkg := ((sameLive_discardHeld s p c).trans (sameLive_setCtx ..)).pkg
  have cores : (killCores s p c).pkg = s.hw.pkg := (sameLive_killCores s p c).pkg
  have last : h.pkg = s.hw.pkg := (sameLive_doKill s p c).pkg
  have eq : h = doKill s p c := rfl
  clear_value h
  refine ⟨fun gk ctx core => ?_, fun k b hb => ?_, fun o ho part ctx => ?_, fun k ctx core => ?_⟩
  · rw [corePart_of_pkg (last.trans start.symm)] at core
    rw [eq, doKill_eq]
    dsimp only
    rw [look_filter_keys fun gk => !(gkCtx gk == c && corePart (killStart s p c) (gkCore gk) == some p), if_neg]
    simp [ctx, core]
  · rw [eq, doKill_eq] at hb
    have kept := (List.mem_filter.1 (look_mem hb)).2
    by_contra both
    obtain ⟨part, ctx⟩ := not_or.1 both
    simp [not_not.1 part, not_not.1 ctx] at kept
  · rw [eq, doKill_eq] at ho
    obtain ⟨z, hz, got⟩ := List.mem_filterMap.1 ho
    split at got
    · split at got
      · cases got
        exact ctx.symm
      · cases got
    · next other =>
      cases got
      exact absurd ⟨part, ctx⟩ other
  · rw [corePart_of_pkg (last.trans cores.symm)] at core
    rw [eq, doKill_eq]
    dsimp only
    rw [look_filter_keys fun k => !(k % 65536 == c && corePart (killCores s p c) (k / 65536) == some p), if_neg]
    simp [ctx, core]

theorem startKill_kills {s : State} {p c : Nat} {x : Context} (hx : s.hw.ctx p c = some x) :
    ∃ y, (startKill s p c).ctx p c = some y ∧ y.state = .killing ∧ s.time ≤ y.killAt := by
  have there : ((doKill s p c).ctx p c).isSome = true := by rw [(sameLive_doKill s p c).live, hx]; rfl
  obtain ⟨z, hz⟩ := Option.isSome_iff_exists.1 there
  refine ⟨_, (Hw.ctx_setCtx_same ..).trans (congrArg (Option.map _) hz), rfl, Nat.le_add_right ..⟩

/-! ## The commands -/

section
variable {fm : Form} {f : Fields} {s : State} {e : Env} (h : Issues fm f s e) {i : Instr} {guard : Bool} {body : Env → Regs → Nat → Context → Res}
  (hi : exec i s = ctxForm fm f s guard body)
include h hi

theorem ctxForm_traps (bad : (e.sysTarget (e.sa (regsF fm f))).bad = true) : Traps i s e { cause := 0x06, hit := e.act } :=
  traps_of_trap (hi.trans (issueF_ok h _)) (if_pos bad)

variable (ok : (e.sysTarget (e.sa (regsF fm f))).bad = false)
include ok

theorem exec_ctxForm : exec i s = .next (s.with (e.finish (regsF fm f) (match e.hw.ctx e.part (e.sysTarget (e.sa (regsF fm f))).ctx with
    | none => .done (putS (regsF fm f) 3) e.hw
    | some c =>
      if guard && (e.sysTarget (e.sa (regsF fm f))).ctx == (e.hw.part e.part).sup then .done (putS (regsF fm f) 4) e.hw
      else if c.state = .killing then .done (putS (regsF fm f) 1) e.hw
      else body e (regsF fm f) (e.sysTarget (e.sa (regsF fm f))).ctx c))) := by
  have issued := hi.trans (issueF_ok h _)
  rw [if_neg (by simp [ok])] at issued
  exact issued

theorem ctxForm_absent (absent : e.hw.ctx e.part (e.sysTarget (e.sa (regsF fm f))).ctx = none) : Answers i s e (regsF fm f) 3 e.hw :=
  retires_of_done h.here (exec_ctxForm h hi ok) (by rw [absent])

section
variable {c : Context} (hc : e.hw.ctx e.part (e.sysTarget (e.sa (regsF fm f))).ctx = some c)
include hc

theorem ctxForm_sup (guarded : guard = true) (sup : (e.sysTarget (e.sa (regsF fm f))).ctx = (e.hw.part e.part).sup) :
    Answers i s e (regsF fm f) 4 e.hw := by
  refine retires_of_done h.here (exec_ctxForm h hi ok) ?_
  rw [hc]
  exact if_pos (by simp [guarded, sup])

variable (may : guard = false ∨ (e.sysTarget (e.sa (regsF fm f))).ctx ≠ (e.hw.part e.part).sup)
include may

theorem exec_ctxForm_may : exec i s = .next (s.with (e.finish (regsF fm f)
    (if c.state = .killing then .done (putS (regsF fm f) 1) e.hw
      else body e (regsF fm f) (e.sysTarget (e.sa (regsF fm f))).ctx c))) := by
  have run := exec_ctxForm h hi ok
  rw [hc] at run
  dsimp only at run
  rwa [if_neg (by obtain open' | other := may <;> simp [*])] at run

theorem ctxForm_killing (killing : c.state = .killing) : Answers i s e (regsF fm f) 1 e.hw :=
  retires_of_done h.here (exec_ctxForm_may h hi ok hc may) (if_pos killing)

theorem exec_ctxForm_acts (lives : c.state ≠ .killing) :
    exec i s = .next (s.with (e.finish (regsF fm f) (body e (regsF fm f) (e.sysTarget (e.sa (regsF fm f))).ctx c))) := by
  have run := exec_ctxForm_may h hi ok hc may
  rwa [if_neg lives] at run

end

end

section
variable {f : Fields} {s : State} {e : Env}

theorem cstop_rules (h : Issues Forms.cstop f s e) (ok : (e.sysTarget (e.sa (regsF Forms.cstop f))).bad = false) {c : Context}
    (hc : e.hw.ctx e.part (e.sysTarget (e.sa (regsF Forms.cstop f))).ctx = some c)
    (may : true = false ∨ (e.sysTarget (e.sa (regsF Forms.cstop f))).ctx ≠ (e.hw.part e.part).sup) :
    let r := regsF Forms.cstop f
    let x := (e.sysTarget (e.sa r)).ctx
    (c.state = .stopped → Answers (.cstop f) s e r 0 e.hw) ∧
    (c.state = .live ∨ c.state = .stopping → Parks (.cstop f) s e r .parked (.command r.d 0 x cmdStop 0)
      (e.hw.setCtx e.part x fun y => { y with state := .stopping })) := by
  have acts := exec_ctxForm_acts h (show exec (.cstop f) s = execCstop f s from rfl) ok hc may
  refine ⟨fun stopped => retires_of_done h.here (acts (by rw [stopped]; exact CState.noConfusion)) (if_pos stopped), fun going => ?_⟩
  have stops : stopCtx e.hw e.part (e.sysTarget (e.sa (regsF Forms.cstop f))).ctx =
      e.hw.setCtx e.part (e.sysTarget (e.sa (regsF Forms.cstop f))).ctx fun y => { y with state := .stopping } :=
    Hw.setCtx_congr hc (by obtain live | stopping := going <;> simp [*])
  rw [← stops]
  refine stays_of_stay (acts ?_) (if_neg ?_)
  · obtain live | stopping := going <;> simp [*]
  · obtain live | stopping := going <;> simp [*]

theorem cresume_rules (h : Issues Forms.cresume f s e) (ok : (e.sysTarget (e.sa (regsF Forms.cresume f))).bad = false) {c : Context}
    (hc : e.hw.ctx e.part (e.sysTarget (e.sa (regsF Forms.cresume f))).ctx = some c)
    (may : false = false ∨ (e.sysTarget (e.sa (regsF Forms.cresume f))).ctx ≠ (e.hw.part e.part).sup) :
    let r := regsF Forms.cresume f
    (c.state = .stopped → Answers (.cresume f) s e r 0 (e.hw.setCtx e.part (e.sysTarget (e.sa r)).ctx fun y => { y with state := .live })) ∧
    (c.state ≠ .stopped → c.state ≠ .killing → Answers (.cresume f) s e r 2 e.hw) := by
  have acts := exec_ctxForm_acts h (show exec (.cresume f) s = execCresume f s from rfl) ok hc may
  exact ⟨fun stopped => retires_of_done h.here (acts (by rw [stopped]; exact CState.noConfusion)) (if_neg (not_not.2 stopped)),
    fun going lives => retires_of_done h.here (acts lives) (if_pos going)⟩

theorem ckill_parks (h : Issues Forms.ckill f s e) (ok : (e.sysTarget (e.sa (regsF Forms.ckill f))).bad = false) {c : Context}
    (hc : e.hw.ctx e.part (e.sysTarget (e.sa (regsF Forms.ckill f))).ctx = some c)
    (may : true = false ∨ (e.sysTarget (e.sa (regsF Forms.ckill f))).ctx ≠ (e.hw.part e.part).sup) (lives : c.state ≠ .killing) :
    let r := regsF Forms.ckill f
    Parks (.ckill f) s e r .parked (.command r.d 0 (e.sysTarget (e.sa r)).ctx cmdKill 0) (startKill s e.part (e.sysTarget (e.sa r)).ctx) := by
  have acts := exec_ctxForm_acts h (show exec (.ckill f) s = execCkill f s from rfl) ok hc may lives
  rw [env_state h.here] at acts
  exact stays_of_stay acts rfl

end

/-! ## Ends of waits -/

theorem command_stop {q : PathRef} {s : State} {e : Env} {d core c t : Nat} (h : Commands s q e d core c cmdStop t) :
    (ctxStopped s.hw e.part c = true → Resumes (.fenceRetire q) s e { s := [(d, 0)] } s.hw) ∧
    (ctxStopped s.hw e.part c = false → Holds (.fenceRetire q) s) :=
  fenceRetire_rules h.here h.runs (by
    simp only [wakeRunning, h.wait, wakeCommand, cmdStop]
    exact apply_ite s.with ..)

theorem command_kill {q : PathRef} {s : State} {e : Env} {d core c t : Nat} (h : Commands s q e d core c cmdKill t) :
    (ctxKilling s.hw e.part c = true → Holds (.fenceRetire q) s) ∧
    (ctxKilling s.hw e.part c = false → Resumes (.fenceRetire q) s e { s := [(d, 0)] } s.hw) := by
  obtain ⟨over', waits⟩ := fenceRetire_rules h.here h.runs (done := !ctxKilling s.hw e.part c) (w := { s := [(d, 0)] }) (hw := s.hw) (by
    simp only [wakeRunning, h.wait, wakeCommand, cmdKill]
    cases ctxKilling s.hw e.part c <;> rfl)
  exact ⟨fun killing => waits (by rw [killing]; rfl), fun gone => over' (by rw [gone]; rfl)⟩

/-! ## What time brings -/

theorem sameLive_writeStatus (a : Hw) (p t q pa code : Nat) : SameLive a (writeStatus a p t q pa code) := by
  unfold writeStatus
  dsimp only
  split
  · exact (sameLive_devWriteLast ..).trans (sameLive_setPart _ p (f := fun x => { x with vectors := x.vectors ++ [(q, pa + 0xC0)] }) fun _ => rfl)
  · exact sameLive_devWriteLast ..
theorem sameLive_freeLaunch (a : Hw) (n : Nat) : SameLive a (freeLaunch a n) := sameLive_of_parts rfl rfl

theorem sameLive_endLaunch (a : Hw) (t n code : Nat) : SameLive a (endLaunch a t n code) := by
  unfold endLaunch
  split
  · exact .refl a
  · refine SameLive.trans ?_ (sameLive_freeLaunch ..)
    split
    · exact sameLive_writeStatus ..
    · exact .refl a

/-- The end of a kill takes its context away and makes none live (R357). -/
theorem endKill_ctx (s : State) (p c : Nat) :
    (endKill s p c).ctx p c = none ∧ ∀ i x, s.hw.ctx i x = none → (endKill s p c).ctx i x = none := by
  have ended : ∀ (ls : List (Nat × Launch)) (a : Hw), SameLive a (ls.foldl (fun h l => endLaunch h s.time l.1 0x85) a) := fun ls => by
    induction ls with
    | nil => exact .refl
    | cons l ls ih => exact fun a => (sameLive_endLaunch ..).trans (ih _)
  have told : ∀ (gs : List Nat) (a : Hw), SameLive a (gs.foldl (fun h g => h.send 6 p [g, s.time]) a) := fun gs => by
    induction gs with
    | nil => exact .refl
    | cons g gs ih => exact fun a => SameLive.trans (b := a.send 6 p [g, s.time]) (sameLive_of_parts rfl rfl) (ih _)
  obtain ⟨h2, live, eq⟩ : ∃ h2, SameLive s.hw h2 ∧ endKill s p c =
      h2.setPart p fun q => { q with contexts := q.contexts.del c, tcache := q.tcache.filter fun k => k.1 / 2 ^ 41 != c } := by
    refine ⟨_, ?_, rfl⟩
    split
    · exact (ended ..).trans (told ..)
    · exact ended ..
  rw [eq]
  refine ⟨?_, fun i x absent => ?_⟩
  · rw [Hw.ctx, Hw.part_setPart_same]
    exact Tab.look_del_same ..
  · have gone : h2.ctx i x = none := by
      rw [← Option.not_isSome_iff_eq_none, live.live, absent]
      exact Bool.false_ne_true
    by_cases hi : i = p
    · subst hi
      rw [Hw.ctx, Hw.part_setPart_same]
      by_cases hx : x = c
      · subst hx
        exact Tab.look_del_same ..
      · exact (Tab.look_del_other _ hx).trans gone
    · rw [Hw.ctx, Hw.part_setPart_other hi]
      exact gone

/-- The kills that are over at a time, of all contexts of a machine. -/
def killsOver (hw : Hw) (t : Nat) : List (Nat × Nat) := hw.parts.flatMap fun p => p.2.contexts.filterMap fun c =>
  if c.2.state = .killing ∧ c.2.killAt ≤ t then some (p.1, c.1) else none
/-- The stopping contexts of a machine that have become quiet. -/
def stopsOver (hw : Hw) : List (Nat × Nat) := hw.parts.flatMap fun p => p.2.contexts.filterMap fun c =>
  if c.2.state = .stopping ∧ ctxQuiet hw p.1 c.1 then some (p.1, c.1) else none
/-- Contexts that have become quiet are stopped. -/
def stopAll (hw : Hw) (xs : List (Nat × Nat)) : Hw := xs.foldl (fun h x => h.setCtx x.1 x.2 fun c => { c with state := .stopped }) hw
/-- Kills end one after another. -/
def endKills (s : State) (xs : List (Nat × Nat)) : State := xs.foldl (fun s x => s.with (endKill s x.1 x.2)) s

theorem part_listed {hw : Hw} {p c : Nat} {x : Context} (hx : hw.ctx p c = some x) : ∃ q, (p, q) ∈ hw.parts ∧ (c, x) ∈ q.contexts := by
  cases hq : hw.parts.look p with
  | none => simp [Hw.ctx, Hw.part, Tab.val, hq] at hx
  | some q =>
    refine ⟨q, look_mem hq, look_mem ?_⟩
    simpa [Hw.ctx, Hw.part, Tab.val, hq] using hx

/-- Whether the flip of a core is over (R351). -/
def flipDue (s : State) (k : Nat × Core) : Bool := match k.2.flipAt with | some n => decide (n ≤ coreCycles s.hw k.1 s.time) | none => false
/-- Whether a spill or load of a core is over (R355). -/
def moveDue (s : State) (k : Nat × Core) : Bool := match k.2.moveAt with | some t => decide (t ≤ s.time) | none => false

theorem tick_eq (s : State) : tick s =
    let s1 := (s.hw.cores.filter (flipDue s)).foldl (fun s k => doFlip s k.1) s
    let s2 := (s1.hw.cores.filter (moveDue s)).foldl (fun s k => endMove s k.1) s1
    let s3 := endKills s2 (killsOver s2.hw s.time)
    s3.with (stopAll s3.hw (stopsOver s3.hw)) := rfl

theorem tick_still {s : State} (still : ∀ k ∈ s.hw.cores, k.2.flipAt = none ∧ k.2.moveAt = none) :
    tick s = (endKills s (killsOver s.hw s.time)).with
      (stopAll (endKills s (killsOver s.hw s.time)).hw (stopsOver (endKills s (killsOver s.hw s.time)).hw)) := by
  have flips : s.hw.cores.filter (flipDue s) = [] := List.filter_eq_nil_iff.2 fun k hk => by simp [flipDue, (still k hk).1]
  have moves : s.hw.cores.filter (moveDue s) = [] := List.filter_eq_nil_iff.2 fun k hk => by simp [moveDue, (still k hk).2]
  rw [tick_eq, flips]
  simp only [List.foldl_nil, moves]

theorem endKills_absent (xs : List (Nat × Nat)) {s : State} {p c : Nat} (absent : s.hw.ctx p c = none) : (endKills s xs).hw.ctx p c = none := by
  induction xs generalizing s with
  | nil => exact absent
  | cons x xs ih => exact ih ((endKill_ctx s x.1 x.2).2 p c absent)

theorem endKills_gone {xs : List (Nat × Nat)} {p c : Nat} (mem : (p, c) ∈ xs) (s : State) : (endKills s xs).hw.ctx p c = none := by
  induction xs generalizing s with
  | nil => exact absurd mem List.not_mem_nil
  | cons x xs ih =>
    obtain rfl | later := List.mem_cons.1 mem
    · exact endKills_absent xs (endKill_ctx s p c).1
    · exact ih later _

theorem stopAll_live (xs : List (Nat × Nat)) (a : Hw) : SameLive a (stopAll a xs) := by
  induction xs generalizing a with
  | nil => exact .refl a
  | cons x xs ih => exact (sameLive_setCtx ..).trans (ih _)

theorem stopAll_stays (xs : List (Nat × Nat)) {a : Hw} {p c : Nat} (stopped : ctxStopped a p c = true) : ctxStopped (stopAll a xs) p c = true := by
  induction xs generalizing a with
  | nil => exact stopped
  | cons x xs ih =>
    refine ih ?_
    unfold ctxStopped at stopped ⊢
    rw [Hw.ctx_setCtx]
    by_cases same : p = x.1 ∧ c = x.2
    · rw [if_pos same, ← same.1, ← same.2]
      cases hx : a.ctx p c with
      | none => simp [hx] at stopped
      | some y => rfl
    · rw [if_neg same]
      exact stopped

theorem stopAll_stops {xs : List (Nat × Nat)} {p c : Nat} (mem : (p, c) ∈ xs) {a : Hw} (there : (a.ctx p c).isSome = true) :
    ctxStopped (stopAll a xs) p c = true := by
  induction xs generalizing a with
  | nil => exact absurd mem List.not_mem_nil
  | cons x xs ih =>
    obtain rfl | later := List.mem_cons.1 mem
    · refine stopAll_stays xs ?_
      obtain ⟨y, hy⟩ := Option.isSome_iff_exists.1 there
      unfold ctxStopped
      rw [Hw.ctx_setCtx_same, hy]
      rfl
    · exact ih later (((sameLive_setCtx ..).live p c).trans there)

section
variable {s : State} {p c : Nat} {x : Context} (hx : s.hw.ctx p c = some x) (still : ∀ k ∈ s.hw.cores, k.2.flipAt = none ∧ k.2.moveAt = none)
include hx still

theorem tick_kills (killing : x.state = .killing) (due : x.killAt ≤ s.time) : (tick s).hw.ctx p c = none := by
  obtain ⟨q, hq, hc⟩ := part_listed hx
  have mem : (p, c) ∈ killsOver s.hw s.time :=
    List.mem_flatMap.2 ⟨(p, q), hq, List.mem_filterMap.2 ⟨(c, x), hc, if_pos ⟨killing, due⟩⟩⟩
  rw [tick_still still]
  show (stopAll (endKills s (killsOver s.hw s.time)).hw _).ctx p c = none
  rw [← Option.not_isSome_iff_eq_none, (stopAll_live ..).live, endKills_gone mem]
  exact Bool.false_ne_true

theorem tick_stops (stopping : x.state = .stopping) (quiet : ctxQuiet s.hw p c = true)
    (none' : ∀ y ∈ s.hw.parts, ∀ z ∈ y.2.contexts, z.2.state ≠ .killing) : ctxStopped (tick s).hw p c = true := by
  obtain ⟨q, hq, hc⟩ := part_listed hx
  have kills : killsOver s.hw s.time = [] := by
    refine List.flatMap_eq_nil_iff.2 fun y hy => List.filterMap_eq_nil_iff.2 fun z hz => if_neg fun both => none' y hy z hz both.1
  have mem : (p, c) ∈ stopsOver s.hw :=
    List.mem_flatMap.2 ⟨(p, q), hq, List.mem_filterMap.2 ⟨(c, x), hc, if_pos ⟨stopping, quiet⟩⟩⟩
  rw [tick_still still, kills]
  exact stopAll_stops mem (a := s.hw) (by rw [hx]; rfl)

end

/-- Settles O40: each command by the state of the context it names, the kill by what it filters out, and the ends by their lists. -/
theorem contextCommands : Obligations.ContextCommands := by
  refine ⟨?_, fun s p c x hx => startKill_kills hx, fun s p c => doKill_takes s p c, fun q s e d core c t h => command_stop h,
    fun q s e d core c t h => command_kill h, fun s p c x hx still => ⟨tick_kills hx still, tick_stops hx still⟩⟩
  rintro fm con guard (⟨rfl, rfl, rfl⟩ | ⟨rfl, rfl, rfl⟩ | ⟨rfl, rfl, rfl⟩) f s e h
  · have hi : exec (.cstop f) s = execCstop f s := rfl
    refine ⟨ctxForm_traps h hi, ctxForm_absent h hi, fun c ok hc => ⟨ctxForm_sup h hi ok hc, fun may => ?_⟩⟩
    obtain ⟨stopped, going⟩ := cstop_rules h ok hc may
    exact ⟨ctxForm_killing h hi ok hc may, fun _ => stopped, fun _ => going, fun no => Instr.noConfusion no, fun no => Instr.noConfusion no,
      fun no => Instr.noConfusion no⟩
  · have hi : exec (.cresume f) s = execCresume f s := rfl
    refine ⟨ctxForm_traps h hi, ctxForm_absent h hi, fun c ok hc => ⟨ctxForm_sup h hi ok hc, fun may => ?_⟩⟩
    obtain ⟨stopped, going⟩ := cresume_rules h ok hc may
    exact ⟨ctxForm_killing h hi ok hc may, fun no => Instr.noConfusion no, fun no => Instr.noConfusion no, fun _ => stopped, fun _ => going,
      fun no => Instr.noConfusion no⟩
  · have hi : exec (.ckill f) s = execCkill f s := rfl
    refine ⟨ctxForm_traps h hi, ctxForm_absent h hi, fun c ok hc => ⟨ctxForm_sup h hi ok hc, fun may => ?_⟩⟩
    exact ⟨ctxForm_killing h hi ok hc may, fun no => Instr.noConfusion no, fun no => Instr.noConfusion no, fun no => Instr.noConfusion no,
      fun no => Instr.noConfusion no, fun _ lives => ckill_parks h ok hc may lives⟩

end Sys2Proof.Machine
end

section
/-! SUPPORT. The host link, FABID and pool extents (19_links R367-R373). -/

namespace Sys2Proof.Machine

open Sys2Proof

/-! ## Changes of the links of one partition -/

theorem Hw.part_setLink_same (a : Hw) (p : Nat) (f : LinkSt → LinkSt) : (a.setLink p f).part p = { a.part p with link := f (a.part p).link } :=
  Hw.part_setPart_same ..
theorem Hw.part_setLink_other {a : Hw} {p k : Nat} (h : k ≠ p) (f : LinkSt → LinkSt) : (a.setLink p f).part k = a.part k :=
  Hw.part_setPart_other h _

/-- Machine b is machine a but for operations and the counts of dropped writes of partition p. -/
structure DropsOnly (p : Nat) (a b : Hw) : Prop where
  rest : b = { a with parts := b.parts, ops := b.ops }
  part : ∃ w x y z, b.part p = { a.part p with link := { (a.part p).link with dropHost := w, dropPeer := x, dropPool := y, dropMcr := z } }
  other : ∀ k, k ≠ p → b.part k = a.part k

theorem failElems_drops (a : Hw) (p : Nat) (f : Op → Elem → Bool) : DropsOnly p a (failElems a p f) := by
  unfold failElems
  refine ⟨rfl, ⟨_, _, _, _, (Tab.val_ins ..).trans (if_pos rfl)⟩, fun k hk => (Tab.val_ins ..).trans (if_neg hk)⟩

theorem failDown_drops (a : Hw) (p : Nat) : DropsOnly p a (failDown a p) := failElems_drops ..

theorem DropsOnly.gangs {p : Nat} {a b : Hw} (h : DropsOnly p a b) : b.gangs = a.gangs := by rw [h.rest]
theorem DropsOnly.blocks {p : Nat} {a b : Hw} (h : DropsOnly p a b) : b.blocks = a.blocks := by rw [h.rest]
theorem DropsOnly.sent {p : Nat} {a b : Hw} (h : DropsOnly p a b) : b.sent = a.sent := by rw [h.rest]
theorem DropsOnly.pend {p : Nat} {a b : Hw} (h : DropsOnly p a b) : (b.part p).pend = (a.part p).pend := by
  obtain ⟨w, x, y, z, part⟩ := h.part
  rw [part]
/-- What of a link no count of dropped writes changes. -/
theorem DropsOnly.link {p : Nat} {a b : Hw} (h : DropsOnly p a b) {α : Type} (f : LinkSt → α)
    (hf : ∀ k w x y z, f { k with dropHost := w, dropPeer := x, dropPool := y, dropMcr := z } = f k) : f (b.part p).link = f (a.part p).link := by
  obtain ⟨w, x, y, z, part⟩ := h.part
  rw [part]
  exact hf ..

/-! ## The host link -/

/-- A partition whose host is gone (R367): the bridge holds no sector of it and no write for one. -/
structure HostGone (q : Part) : Prop where
  active : q.link.active = false
  hostok : q.link.hostok = false
  reach : q.link.hostReach = false
  sectors : ∀ sec, q.link.sectors.look sec = none
  pend : ∀ w ∈ q.pend, w.addr < 2 ^ 60

/-- State t is s but for partition p, memory and operations. -/
structure OnlyPartOf (p : Nat) (s t : State) : Prop where
  steady : Steady s t
  gangs : t.hw.gangs = s.hw.gangs
  blocks : t.hw.blocks = s.hw.blocks
  other : ∀ k, k ≠ p → t.hw.part k = s.hw.part k

theorem OnlyPartOf.refl (p : Nat) (s : State) : OnlyPartOf p s s := ⟨.refl s, rfl, rfl, fun _ _ => rfl⟩
theorem OnlyPartOf.trans {p : Nat} {a b c : State} (h : OnlyPartOf p a b) (k : OnlyPartOf p b c) : OnlyPartOf p a c :=
  ⟨h.steady.trans k.steady, k.gangs.trans h.gangs, k.blocks.trans h.blocks, fun i hi => (k.other i hi).trans (h.other i hi)⟩
theorem onlyPartOf_setPart (p : Nat) (s : State) (f : Part → Part) : OnlyPartOf p s (s.with (s.hw.setPart p f)) :=
  ⟨steady_with .., rfl, rfl, fun _ hk => Hw.part_setPart_other hk _⟩
theorem DropsOnly.onlyPartOf {p : Nat} {s : State} {b : Hw} (h : DropsOnly p s.hw b) : OnlyPartOf p s (s.with b) :=
  ⟨steady_with .., h.gangs, h.blocks, h.other⟩

/-- A sector that is dropped leaves the bridge, and nothing is sent (R367). -/
theorem releaseSector_drops (s : State) (p sec : Nat) : OnlyPartOf p s (releaseSector s p sec false) ∧
    (releaseSector s p sec false).hw.part p =
      { s.hw.part p with link := { (s.hw.part p).link with sectors := (s.hw.part p).link.sectors.del sec } } := by
  have hw : (releaseSector s p sec false).hw =
      s.hw.setPart p fun q => { q with link := { q.link with sectors := q.link.sectors.del sec } } := by
    simp only [releaseSector, Bool.false_eq_true, if_false]
    split <;> rfl
  refine ⟨⟨steady_releaseSector .., ?_, ?_, fun k hk => ?_⟩, ?_⟩
  · rw [hw]
    rfl
  · rw [hw]
    rfl
  · rw [hw, Hw.part_setPart_other hk]
  · rw [hw, Hw.part_setPart_same]

theorem releaseSectors_drop (ks : List Nat) (s : State) (p : Nat) :
    OnlyPartOf p s (ks.foldl (fun s k => releaseSector s p k false) s) ∧ ∃ secs : Tab (Nat × Nat),
      (ks.foldl (fun s k => releaseSector s p k false) s).hw.part p = { s.hw.part p with link := { (s.hw.part p).link with sectors := secs } } ∧
      ∀ sec, sec ∈ ks ∨ (s.hw.part p).link.sectors.look sec = none → secs.look sec = none := by
  induction ks generalizing s with
  | nil => exact ⟨.refl p s, (s.hw.part p).link.sectors, rfl, fun sec h => h.resolve_left List.not_mem_nil⟩
  | cons k ks ih =>
    obtain ⟨first, part1⟩ := releaseSector_drops s p k
    obtain ⟨later, secs, part2, gone⟩ := ih (releaseSector s p k false)
    rw [List.foldl_cons]
    refine ⟨first.trans later, secs, part2.trans (by rw [part1]), fun sec h => gone sec ?_⟩
    rw [part1]
    obtain mem | absent := h
    · obtain rfl | mem := List.mem_cons.1 mem
      · exact .inr (Tab.look_del_same ..)
      · exact .inl mem
    · by_cases same : sec = k
      · exact .inr (by rw [same]; exact Tab.look_del_same ..)
      · exact .inr ((Tab.look_del_other _ same).trans absent)

theorem not_listed_of_keys {α : Type} {t : Tab α} {k : Nat} (h : k ∉ t.keys) : t.look k = none := by
  cases hl : t.look k with
  | none => rfl
  | some v => exact absurd (List.mem_map_of_mem (look_mem hl)) h

/-- A partition loses its host and nothing else (R367). -/
theorem loseHost_spec (s : State) (p : Nat) : OnlyPartOf p s (loseHost s p) ∧ HostGone ((loseHost s p).hw.part p) := by
  let h1 := s.hw.setLink p fun k => { k with active := false, hostok := false, hostReach := false }
  let h2 := failDown h1 p
  let h3 := h2.setPart p fun q => { q with pend := q.pend.filter fun w => decide (w.addr < 2 ^ 60) }
  let secs := (h2.part p).link.sectors
  let s4 := secs.keys.foldl (fun s k => releaseSector s p k false) (s.with h3)
  have drops : DropsOnly p h1 h2 := failDown_drops h1 p
  have eq : loseHost s p = s4.with (s4.hw.setLink p fun k =>
    { k with dropHost := (k.dropHost + (secs.filter fun x => x.2.1 == 2).length) % 65536 }) := rfl
  obtain ⟨w, x, y, z, part2⟩ := drops.part
  have part1 : h1.part p = { s.hw.part p with link := { (s.hw.part p).link with active := false, hostok := false, hostReach := false } } :=
    Hw.part_setLink_same ..
  have part3 : h3.part p = { h2.part p with pend := (h2.part p).pend.filter fun w => decide (w.addr < 2 ^ 60) } := Hw.part_setPart_same ..
  obtain ⟨only4, left, part4, gone⟩ := releaseSectors_drop secs.keys (s.with h3) p
  have only : OnlyPartOf p s s4 :=
    (((onlyPartOf_setPart p s _).trans (drops.onlyPartOf (s := s.with h1))).trans (onlyPartOf_setPart p (s.with h2) _)).trans only4
  have link3 : ((s.with h3).hw.part p).link.sectors = secs := by
    show (h3.part p).link.sectors = secs
    rw [part3]
  rw [eq]
  refine ⟨only.trans (onlyPartOf_setPart ..), ?_⟩
  have part5 : (s4.with (s4.hw.setLink p fun k =>
      { k with dropHost := (k.dropHost + (secs.filter fun x => x.2.1 == 2).length) % 65536 })).hw.part p = _ := Hw.part_setLink_same ..
  rw [part5, part4]
  have part3' : (s.with h3).hw.part p = _ := part3
  rw [part3', part2, part1]
  refine ⟨rfl, rfl, rfl, fun sec => gone sec ?_, fun w hw => of_decide_eq_true (List.mem_filter.1 hw).2⟩
  rw [link3]
  exact (Classical.em (sec ∈ secs.keys)).imp_right not_listed_of_keys

theorem loseHosts_spec (ps : List Nat) (s : State) :
    Steady s (ps.foldl loseHost s) ∧ (ps.foldl loseHost s).hw.gangs = s.hw.gangs ∧ (ps.foldl loseHost s).hw.blocks = s.hw.blocks ∧
      ∀ p, p ∈ ps ∨ HostGone (s.hw.part p) → HostGone ((ps.foldl loseHost s).hw.part p) := by
  induction ps generalizing s with
  | nil =>
    rw [List.foldl_nil]
    exact ⟨.refl s, rfl, rfl, fun p h => h.resolve_left List.not_mem_nil⟩
  | cons p ps ih =>
    obtain ⟨only, goes⟩ := loseHost_spec s p
    obtain ⟨steady, gangs, blocks, gone⟩ := ih (loseHost s p)
    rw [List.foldl_cons]
    refine ⟨only.steady.trans steady, gangs.trans only.gangs, blocks.trans only.blocks, fun k h => gone k ?_⟩
    by_cases same : k = p
    · exact .inr (by rw [same]; exact goes)
    · obtain mem | already := h
      · exact .inl ((List.mem_cons.1 mem).resolve_left same)
      · exact .inr (by rw [only.other k same]; exact already)

/-- The partitions that are present. -/
def presentParts (hw : Hw) : List Nat := (hw.parts.filter fun p => p.2.present).map (·.1)

theorem mem_presentParts {hw : Hw} {p : Nat} {q : Part} (hq : hw.parts.look p = some q) (there : q.present = true) : p ∈ presentParts hw :=
  List.mem_map.2 ⟨(p, q), List.mem_filter.2 ⟨look_mem hq, there⟩, rfl⟩

theorem hostLinkDown_rules (s : State) :
    ∃ t, exec .hostLinkDown s = .next t ∧ t.time = s.time ∧ t.hw.gangs = s.hw.gangs ∧ t.hw.blocks = s.hw.blocks ∧
      (∀ p a, a < 2 ^ 60 → rdByte t.mem p a = rdByte s.mem p a) ∧
      ∀ p q, s.hw.parts.look p = some q → q.present = true →
        let k := (t.hw.part p).link
        k.active = false ∧ k.hostok = false ∧ k.hostReach = false ∧ (∀ sec, k.sectors.look sec = none) ∧
          ∀ w ∈ (t.hw.part p).pend, w.addr < 2 ^ 60 := by
  obtain ⟨steady, gangs, blocks, gone⟩ := loseHosts_spec (presentParts s.hw) s
  refine ⟨_, rfl, steady.time, gangs, blocks, steady.bytes, fun p q hq there => ?_⟩
  obtain ⟨active, hostok, reach, sectors, pend⟩ := gone p (.inl (mem_presentParts hq there))
  exact ⟨active, hostok, reach, sectors, pend⟩

/-- The links of partitions become active, one after another (R367). -/
def activateAll (ps : List Nat) (a : Hw) : Hw := ps.foldl (fun h p => h.setLink p fun k => { k with active := true }) a

theorem activateAll_spec (ps : List Nat) (a : Hw) :
    (activateAll ps a).gangs = a.gangs ∧ (activateAll ps a).blocks = a.blocks ∧
      ∀ p, ((activateAll ps a).part p).link.hostReach = (a.part p).link.hostReach ∧
        (p ∈ ps ∨ (a.part p).link.active = true → ((activateAll ps a).part p).link.active = true) := by
  induction ps generalizing a with
  | nil => exact ⟨rfl, rfl, fun p => ⟨rfl, fun h => h.resolve_left List.not_mem_nil⟩⟩
  | cons p ps ih =>
    obtain ⟨gangs, blocks, each⟩ := ih (a.setLink p fun k => { k with active := true })
    refine ⟨gangs, blocks, fun k => ?_⟩
    obtain ⟨reach, active⟩ := each k
    by_cases same : k = p
    · subst same
      rw [Hw.part_setLink_same] at reach active
      exact ⟨reach, fun _ => active (.inr rfl)⟩
    · rw [Hw.part_setLink_other same] at reach active
      exact ⟨reach, fun h => active (h.imp_left fun mem => (List.mem_cons.1 mem).resolve_left same)⟩

theorem hostLinkActive_rules (s : State) :
    ∃ t, exec .hostLinkActive s = .next t ∧ Quiet s t ∧ ∀ p q, s.hw.parts.look p = some q → q.present = true →
      (t.hw.part p).link.active = true ∧ (t.hw.part p).link.hostReach = q.link.hostReach := by
  obtain ⟨gangs, blocks, each⟩ := activateAll_spec (presentParts s.hw) s.hw
  refine ⟨s.with (activateAll (presentParts s.hw) s.hw), rfl, ⟨rfl, rfl, gangs, blocks⟩, fun p q hq there => ?_⟩
  obtain ⟨reach, active⟩ := each p
  have part : s.hw.part p = q := by rw [Hw.part, Tab.val, hq]; rfl
  exact ⟨active (.inl (mem_presentParts hq there)), reach.trans (by rw [part])⟩

theorem fabidWrite_rules {fn : Nat} {v : Word} {s : State} (o : WindowOpen s fn) :
    let k := (s.hw.part fn).link
    ∃ t, exec (.fabidWrite fn v) s = .next t ∧ Quiet s t ∧
      let y := (t.hw.part fn).link
      y.fen = bit 31 v.toNat ∧ y.hostok = (bit 30 v.toNat && k.active) ∧ y.hostReach = (k.hostReach || y.hostok) ∧
        y.devno = (if k.fen = true then k.devno else bits 16 0 v.toNat) ∧ y.routes = k.routes ∧ y.mcr = k.mcr := by
  have drops := failDown_drops (s.hw.setLink fn fun k => writeFabid k v.toNat) fn
  obtain ⟨w, x, y, z, part⟩ := drops.part
  refine ⟨_, (show exec (.fabidWrite fn v) s = execFabidWrite fn v s from rfl).trans (windowWrite_open o _),
    ⟨rfl, rfl, drops.gangs, drops.blocks⟩, ?_⟩
  dsimp only [State.with]
  rw [part, Hw.part_setLink_same]
  exact ⟨rfl, rfl, rfl, rfl, rfl, rfl⟩

/-! ## Pool extents -/

theorem extent_setExtent (a : Hw) (p n : Nat) (f : PoolExt → PoolExt) (k : Nat) :
    extent ((setExtent a p n f).part p).link k = if k = n then f (extent (a.part p).link n) else extent (a.part p).link k := by
  unfold setExtent
  rw [Hw.part_setLink_same]
  exact Tab.val_ins ..

theorem DropsOnly.extent {p : Nat} {a b : Hw} (h : DropsOnly p a b) (n : Nat) :
    extent (b.part p).link n = Machine.extent (a.part p).link n := h.link (fun k => Machine.extent k n) fun _ _ _ _ _ => rfl

section
variable {fn ext : Nat} {s : State}

theorem poolExtentRelease_rules (near : ext < 1024) :
    let x := extent (s.hw.part fn).link ext
    (x.state = 1 → ∃ t, exec (.poolExtentRelease fn ext) s = .next t ∧ Quiet s t ∧
      extent (t.hw.part fn).link ext = { x with state := 2 } ∧ t.hw.sent = s.hw.sent) ∧
    (x.state = 2 → extentBusy s.hw fn ext = false → ∃ t, exec (.poolExtentRelease fn ext) s = .next t ∧ Quiet s t ∧
      extent (t.hw.part fn).link ext = { x with state := 3 } ∧ t.hw.sent = s.hw.sent ++ [⟨7, fn, [ext]⟩]) ∧
    (x.state ≠ 1 → (x.state ≠ 2 ∨ extentBusy s.hw fn ext = true) → Holds (.poolExtentRelease fn ext) s) := by
  intro x
  have run : exec (.poolExtentRelease fn ext) s = execPoolExtentRelease fn ext s := rfl
  unfold execPoolExtentRelease at run
  rw [if_neg (Nat.not_le.2 near)] at run
  refine ⟨fun granted => ?_, fun revoking idle => ?_, fun other busy => ?_⟩
  · have drops := failDown_drops (setExtent s.hw fn ext fun x => { x with state := 2 }) fn
    rw [if_pos granted] at run
    exact ⟨_, run, ⟨rfl, rfl, drops.gangs, drops.blocks⟩, (drops.extent ext).trans ((extent_setExtent ..).trans (if_pos rfl)), drops.sent⟩
  · rw [if_neg (by rw [revoking]; decide), if_pos ⟨revoking, by rw [idle]; rfl⟩] at run
    exact ⟨_, run, ⟨rfl, rfl, rfl, rfl⟩,
      (extent_setExtent s.hw fn ext (fun x => { x with state := 3 }) ext).trans (if_pos rfl), rfl⟩
  · rw [if_neg other, if_neg] at run
    · exact run
    · rintro ⟨revoking, idle⟩
      obtain no | yes := busy
      · exact no revoking
      · simp [yes] at idle

theorem poolExtentGrant_rules {v0 v1 : Word} (near : ext < 1024) (present : (s.hw.part fn).present = true) :
    let x := extent (s.hw.part fn).link ext
    x.state ≠ 1 → x.state ≠ 2 → ∃ t, exec (.poolExtentGrant fn ext v0 v1) s = .next t ∧ Quiet s t ∧
      let y := extent (t.hw.part fn).link ext
      y.base = bits 51 16 v0.toNat ∧ y.state = 1 ∧ y.shared = bit 61 v1.toNat ∧ y.gen = (x.gen + 1) % 65536 ∧ y.size = bits 31 0 v1.toNat ∧
        ∀ n, n ≠ ext → extent (t.hw.part fn).link n = extent (s.hw.part fn).link n := by
  intro x one two
  have run : exec (.poolExtentGrant fn ext v0 v1) s = execPoolExtentGrant fn ext v0 v1 s := rfl
  unfold execPoolExtentGrant at run
  have open' : ¬ (1024 ≤ ext ∨ x.state = 1 ∨ x.state = 2 ∨ (!(s.hw.part fn).present) = true) := by
    simp [Nat.not_le.2 near, one, two, present]
  rw [if_neg open'] at run
  have drops := failDown_drops (setExtent s.hw.draw.2 fn ext fun x =>
      { base := bits 51 16 v0.toNat, state := 1, shared := bit 61 v1.toNat, gen := (x.gen + 1) % 65536, size := bits 31 0 v1.toNat
        seq := bits 63 32 s.hw.draw.1, tag := bits 31 0 s.hw.draw.1 }) fn
  refine ⟨_, run, ⟨rfl, rfl, drops.gangs, drops.blocks⟩, ?_⟩
  have mine := (drops.extent ext).trans ((extent_setExtent ..).trans (if_pos rfl))
  dsimp only [State.with]
  rw [mine]
  exact ⟨rfl, rfl, rfl, rfl, rfl, fun n hn => (drops.extent n).trans ((extent_setExtent ..).trans (if_neg hn))⟩

section
variable (granted : (extent (s.hw.part fn).link ext).state = 1) (shared : (extent (s.hw.part fn).link ext).shared = true)
include granted shared

theorem poolPublication_other (v : Word) :
    let x := extent (s.hw.part fn).link ext
    ∃ t, exec (.poolPublication fn ext none v) s = .next t ∧ Quiet s t ∧
      let y := extent (t.hw.part fn).link ext
      (bits 63 32 v.toNat = (x.seq + 1) % 2 ^ 32 → y = { x with seq := bits 63 32 v.toNat, tag := bits 31 0 v.toNat }) ∧
      (bits 63 32 v.toNat ≠ (x.seq + 1) % 2 ^ 32 → y = x) := by
  intro x
  have run : exec (.poolPublication fn ext none v) s = execPoolPublication fn ext none v s := rfl
  unfold execPoolPublication at run
  rw [if_neg (by simp [granted, shared])] at run
  refine ⟨_, run, ⟨rfl, rfl, rfl, rfl⟩, ?_⟩
  dsimp only [State.with]
  rw [extent_setExtent, if_pos rfl, publish]
  exact ⟨fun next => by rw [if_pos next], fun other => by rw [if_neg other]⟩

theorem poolPublication_own (v : Word) {id : Nat} {o : Op} {z : Elem} (ho : s.hw.op id = some o) (part : o.part = fn)
    (kind : o.kind = .store [z] 8) (chain : o.chain = none) (st : z.st = 1) (space : z.tgt.space = 3) (tgt : z.tgt.tgt = ext) (pa : z.tgt.pa = 0) :
    ∃ h o', exec (.poolPublication fn ext (some id) v) s = .next (landOp (s.with h) o' fun _ => 0) ∧ o'.id = o.id ∧ o'.gk = o.gk ∧
      h.gangs = s.hw.gangs ∧
      (extent (h.part fn).link ext).result =
        some (bits 63 32 z.val.toNat, if bits 63 32 z.val.toNat = ((extent (s.hw.part fn).link ext).seq + 1) % 2 ^ 32 then 0 else 1) := by
  let x := extent (s.hw.part fn).link ext
  let r := publish x z.val.toNat
  let h := setExtent s.hw fn ext fun _ => { r.2 with result := some (bits 63 32 z.val.toNat, if r.1 then 0 else 1) }
  let o' : Op := { o with kind := .store [{ z with st := 3 }] 8 }
  have mine : (z.st == 1 && z.tgt.tgt == ext && isPublication (s.hw.part fn).link z 8) = true := by
    simp [isPublication, st, space, tgt, pa, shared]
  have run : exec (.poolPublication fn ext (some id) v) s = .next (landOp (s.with (h.setOp id fun _ => o')) o' fun _ => 0) := by
    show execPoolPublication fn ext (some id) v s = _
    unfold execPoolPublication
    rw [if_neg (by simp [granted, shared])]
    simp only [ho, kind, OpKind.elems, OpKind.width, List.find?_cons, mine, if_neg (not_not.2 part), List.map_cons, List.map_nil,
      beq_self_eq_true, if_true, OpKind.withElems, allDone, List.all_cons, List.all_nil, List.any_cons, List.any_nil]
    rw [if_pos (by rw [chain]; decide)]
  have result : extent (h.part fn).link ext = { r.2 with result := some (bits 63 32 z.val.toNat, if r.1 then 0 else 1) } :=
    (extent_setExtent ..).trans (if_pos rfl)
  refine ⟨_, o', run, rfl, rfl, rfl, ?_⟩
  show (extent (h.part fn).link ext).result = _
  rw [result]
  simp only [r, publish]
  split <;> simp_all

end

end

/-- Settles O42: each event by the links it changes, beside which only operations and counts of dropped writes change. -/
theorem poolAndHost : Obligations.PoolAndHost :=
  ⟨hostLinkDown_rules, hostLinkActive_rules, fun _ _ _ o => fabidWrite_rules o, fun _ _ _ near => poolExtentRelease_rules near,
    fun _ _ _ _ _ near present => poolExtentGrant_rules near present, fun _ _ v _ granted shared => poolPublication_other granted shared v,
    fun _ _ v _ _ _ _ granted shared ho part kind chain st space tgt pa =>
      poolPublication_own granted shared v ho part kind chain st space tgt pa⟩

end Sys2Proof.Machine
end

section
/-! SUPPORT. fmcr and the fabric groups, and requests of peers (19_links R373-R377, R383). -/

namespace Sys2Proof.Machine

open Sys2Proof

/-! ## Status words and states of groups -/

theorem fmcrStatus_spec (k : LinkSt) (gs ok : List Nat) : ((∃ g ∈ gs, bit g k.fgroups = false) → fmcrStatus k gs ok = 3) ∧
    ((∀ g ∈ gs, bit g k.fgroups = true) → (∃ g ∈ gs, groupState k g ∉ ok) → fmcrStatus k gs ok = 2) ∧
    ((∀ g ∈ gs, bit g k.fgroups = true) → (∀ g ∈ gs, groupState k g ∈ ok) → fmcrStatus k gs ok = 0) := by
  have mine : (gs.any fun g => !bit g k.fgroups) = true ↔ ∃ g ∈ gs, bit g k.fgroups = false := by simp
  have wrong : (gs.any fun g => !ok.contains (groupState k g)) = true ↔ ∃ g ∈ gs, groupState k g ∉ ok := by simp
  unfold fmcrStatus
  refine ⟨fun other => if_pos (mine.2 other), fun all bad => ?_, fun all good => ?_⟩
  all_goals rw [if_neg fun any => by obtain ⟨g, hg, off⟩ := mine.1 any; exact Bool.noConfusion (off.symm.trans (all g hg))]
  · exact if_pos (wrong.2 bad)
  · exact if_neg fun any => by obtain ⟨g, hg, off⟩ := wrong.1 any; exact off (good g hg)

theorem val_groups (st : Nat) (gs : List Nat) (t : Tab Group) (g : Nat) :
    (Tab.val {} (gs.foldl (fun t g => t.ins g { state := st }) t) g).state = if g ∈ gs then st else (Tab.val {} t g).state := by
  induction gs generalizing t with
  | nil => exact (if_neg List.not_mem_nil).symm
  | cons x gs ih =>
    rw [List.foldl_cons, ih, Tab.val_ins]
    by_cases later : g ∈ gs
    · rw [if_pos later, if_pos (List.mem_cons_of_mem _ later)]
    · rw [if_neg later]
      by_cases here : g = x
      · rw [if_pos here, if_pos (here ▸ List.mem_cons_self)]
      · rw [if_neg here, if_neg (by simp [here, later])]

theorem groupState_setGroups (hw : Hw) (p st : Nat) (gs : List Nat) (g : Nat) :
    groupState ((setGroups hw p st gs).part p).link g = if g ∈ gs then st else groupState (hw.part p).link g := by
  unfold setGroups
  rw [Hw.part_setLink_same]
  exact val_groups ..

/-! ## The forms -/

section
variable {f : Fields} {s : State} {e : Env} (h : Issues Forms.fmcr f s e)
include h

/-- fmcr.drain and fmcr.relock answer a status, or wait for the markers or locks of their groups (R376). -/
theorem fmcrWait_rules {i : Instr} {op : Nat} {ok : List Nat} (run : exec i s = fmcrWait f s op ok) :
    let r := regsF Forms.fmcr f
    let gs := bitList 16 ((e.sa r).toNat % 65536)
    let st := fmcrStatus (e.hw.part e.part).link gs ok
    (st ≠ 0 ∨ gs = [] → Answers i s e r st e.hw) ∧
    (st = 0 → gs ≠ [] → Starts i s e r { e.newOp r (.fmcr op gs gs s.time) with dst := e.dest r } true
      (if op = 0 then gs.foldl (fun h g => h.send 15 e.part [g, s.time]) e.hw else beginRelock e.hw e.part op gs)) := by
  intro r gs st
  have issued := run.trans (issueF_ok h _)
  refine ⟨fun now => retires_of_done h.here issued (if_pos (now.imp_right List.isEmpty_iff.2)), fun good some => ?_⟩
  refine starts_of_start h.here issued ((if_neg ?_).trans ?_)
  · rintro (bad | empty)
    · exact bad good
    · exact some (List.isEmpty_iff.1 empty)
  · rw [Env.now, env_state h.here]
    by_cases drain : op = 0
    · subst drain
      rfl
    · dsimp only
      rw [if_neg drain, if_neg drain]

theorem fmcrDark_rules :
    let r := regsF Forms.fmcr f
    let gs := bitList 16 ((e.sa r).toNat % 65536)
    let st := fmcrStatus (e.hw.part e.part).link gs [1]
    (st ≠ 0 → Answers (.fmcrDark f) s e r st e.hw) ∧ (st = 0 → Answers (.fmcrDark f) s e r 0 (setGroups e.hw e.part 2 gs)) := by
  intro r gs st
  have issued := (show exec (.fmcrDark f) s = execFmcrDark f s from rfl).trans (issueF_ok h _)
  refine ⟨fun bad => retires_of_done h.here issued ?_, fun good => retires_of_done h.here issued ?_⟩
  · exact congrArg (Res.done _) (if_neg bad)
  · show Res.done (putS r st) (if st = 0 then setGroups e.hw e.part 2 gs else e.hw) = _
    rw [if_pos good, good]

theorem fmcrRoute_rules :
    let r := regsF Forms.fmcr f
    let v := (e.sb r).toNat
    (2 ^ 17 ≤ (e.sa r).toNat → Answers (.fmcrRoute f) s e r 2 e.hw) ∧
    ((e.sa r).toNat < 2 ^ 17 → Answers (.fmcrRoute f) s e r ((e.hw.part e.part).link.routes.val 0 (e.sa r).toNat)
      (failDown (e.hw.setLink e.part fun k =>
        { k with routes := k.routes.put 0 (e.sa r).toNat (b2n (bit 63 v) * 2 ^ 63 + bits 35 32 v * 2 ^ 32 + bits 15 0 v) }) e.part)) := by
  intro r v
  have issued := (show exec (.fmcrRoute f) s = execFmcrRoute f s from rfl).trans (issueF_ok h _)
  exact ⟨fun far => retires_of_done h.here issued (if_pos far), fun near => retires_of_done h.here issued (if_neg (Nat.not_le.2 near))⟩

theorem fmcrGroup_rules :
    let r := regsF Forms.fmcr f
    let k := (e.hw.part e.part).link
    (4096 ≤ (e.sa r).toNat → Answers (.fmcrGroup f) s e r 2 e.hw) ∧
    ((e.sa r).toNat < 4096 → ∃ h, Answers (.fmcrGroup f) s e r (k.mcr.val 0 (e.sa r).toNat) h ∧ OnlyParts e.hw h ∧
      let v := (e.sb r).toNat
      let g := (e.sa r).toNat
      let y := (h.part e.part).link.mcr.val 0 g
      (mcrPair (bits 61 59 v) (bits 58 53 v) = true → y = setBits 62 62 0 v) ∧
        (mcrPair (bits 61 59 v) (bits 58 53 v) = false → y = setBits 63 63 0 (setBits 62 62 0 v)) ∧ delivOf h e.part g = 0 ∧
        ∀ n, n ≠ g → (h.part e.part).link.mcr.val 0 n = k.mcr.val 0 n ∧ delivOf h e.part n = delivOf e.hw e.part n) := by
  intro r k
  have issued := (show exec (.fmcrGroup f) s = execFmcrGroup f s from rfl).trans (issueF_ok h _)
  refine ⟨fun far => retires_of_done h.here issued (if_pos far), fun near =>
    ⟨_, retires_of_done h.here issued (if_neg (Nat.not_le.2 near)), rfl, ?_⟩⟩
  intro v g y
  have mcr : y = if mcrPair (bits 61 59 v) (bits 58 53 v) = true then setBits 62 62 0 v else setBits 63 63 0 (setBits 62 62 0 v) := by
    simp only [y, Hw.part_setLink_same, Tab.val_put]
    exact if_pos rfl
  refine ⟨fun pair => mcr.trans (if_pos pair), fun pair => mcr.trans (if_neg (by rw [pair]; exact Bool.false_ne_true)), ?_, fun n hn => ⟨?_, ?_⟩⟩
  · rw [delivOf, Hw.part_setLink_same, Tab.val]
    dsimp only
    rw [Tab.look_del_same]
    rfl
  · rw [Hw.part_setLink_same]
    exact (Tab.val_put ..).trans (if_neg hn)
  · rw [delivOf, Hw.part_setLink_same, Tab.val]
    dsimp only
    rw [Tab.look_del_other _ hn]
    rfl

theorem fmcrQuery_answers : Answers (.fmcrQuery f) s e (regsF Forms.fmcr f) (groupStates (e.hw.part e.part).link) e.hw :=
  retires_of_done h.here ((show exec (.fmcrQuery f) s = execFmcrQuery f s from rfl).trans (issueF_ok h _)) rfl

end

/-! ## The ends of what the forms wait for -/

section
variable {s : State} {o : Op} {op : Nat} {gs left : List Nat} {t0 : Nat}

theorem fmcrStep_single {p g st : Nat} (only : fmcrFor s.hw p op g = [o]) (ho : s.hw.op o.id = some o) (kind : o.kind = .fmcr op gs left t0) :
    fmcrStep s p op g st = if (left.filter (· != g)).isEmpty = true
      then landOp (s.with (setGroups s.hw p st (if op = 0 then gs.filter (groupCarries (s.hw.part p).link) else gs))) o fun _ => 0
      else s.with (s.hw.setOp o.id fun o => { o with kind := .fmcr op gs (left.filter (· != g)) t0 }) := by
  unfold fmcrStep
  rw [only, List.foldl_cons, List.foldl_nil]
  simp only [ho, kind]

/-- A group of a waiting form is ready: the form lands with it, or waits for the groups it still has left (R376). -/
theorem fmcrStep_rules {i : Instr} {p g st : Nat} (run : exec i s = .next (fmcrStep s p op g st)) (only : fmcrFor s.hw p op g = [o])
    (ho : s.hw.op o.id = some o) (kind : o.kind = .fmcr op gs left t0) :
    ((∀ x ∈ left, x = g) → exec i s = .next (landOp (s.with
      (setGroups s.hw p st (if op = 0 then gs.filter (groupCarries (s.hw.part p).link) else gs))) o fun _ => 0)) ∧
    ((∃ x ∈ left, x ≠ g) → ∃ t o', exec i s = .next t ∧ Quiet s t ∧ t.hw.op o.id = some o' ∧
      o'.kind = .fmcr op gs (left.filter (· != g)) t0 ∧ t.hw.parts = s.hw.parts) := by
  have done : (left.filter (· != g)).isEmpty = true ↔ ∀ x ∈ left, x = g := by simp
  rw [fmcrStep_single only ho kind] at run
  refine ⟨fun all => run.trans (by rw [if_pos (done.2 all)]), fun ⟨x, hx, other⟩ => ?_⟩
  rw [if_neg fun all => other (done.1 all x hx)] at run
  exact ⟨_, _, run, ⟨rfl, rfl, rfl, rfl⟩,
    op_setOp_same rfl ho (f := fun o => { o with kind := .fmcr op gs (left.filter (· != g)) t0 }) rfl, rfl, rfl⟩

theorem markerReturn_steps {fn group : Nat} (carries : groupCarries (s.hw.part fn).link group = true) :
    exec (.markerReturn fn group) s = .next (fmcrStep s fn 0 group 1) := by
  simp only [exec, execMarkerReturn, carries, if_true]

theorem fibreGroupLocked_steps {fn group : Nat} (dark : groupCarries (s.hw.part fn).link group = false)
    (sound : s.hw.pkg.health.retired.contains (3, group) = false) :
    exec (.fibreGroupLocked fn group) s = .next (fmcrStep s fn 2 group 0) := by
  simp only [exec, execFibreGroupLocked, dark, sound, Bool.or_self, Bool.false_eq_true, if_false]

theorem fmcrTimeout_rules {id : Nat} (ho : s.hw.op id = some o) (kind : o.kind = .fmcr op gs left t0) :
    (t0 + 1000000 ≤ s.time → exec (.fmcrTimeout id) s = .next (landOp (s.with (endRelock s.hw o.part op gs)) o fun _ => 1)) ∧
    (s.time < t0 + 1000000 → Holds (.fmcrTimeout id) s) := by
  have run : exec (.fmcrTimeout id) s =
      if t0 + 1000000 ≤ s.time then .next (landOp (s.with (endRelock s.hw o.part op gs)) o fun _ => 1) else .next s := by
    simp only [exec, execFmcrTimeout, ho, kind]
  exact ⟨fun late => run.trans (if_pos late), fun early => run.trans (if_neg (Nat.not_le.2 early))⟩

end

/-! ## Requests that end -/

theorem DropsOnly.refl (p : Nat) (a : Hw) : DropsOnly p a a := ⟨rfl, ⟨_, _, _, _, rfl⟩, fun _ _ => rfl⟩
theorem DropsOnly.trans {p : Nat} {a b c : Hw} (h : DropsOnly p a b) (k : DropsOnly p b c) : DropsOnly p a c := by
  obtain ⟨w, x, y, z, second⟩ := k.part
  obtain ⟨w', x', y', z', first⟩ := h.part
  exact ⟨by rw [k.rest, h.rest], ⟨w, x, y, z, by rw [second, first]⟩, fun i hi => (k.other i hi).trans (h.other i hi)⟩

theorem setOp_drops (a : Hw) (p id : Nat) (f : Op → Op) : DropsOnly p a (a.setOp id f) := ⟨rfl, ⟨_, _, _, _, rfl⟩, fun _ _ => rfl⟩

theorem noteDrop_drops (a : Hw) (p space : Nat) : DropsOnly p a (noteDrop a p space) :=
  ⟨rfl, ⟨_, _, _, _, Hw.part_setPart_same ..⟩, fun _ hk => Hw.part_setPart_other hk _⟩

theorem abandon_drops (o : Op) (c : Copy) (x : Piece) (cause : Nat) (a : Hw) : DropsOnly o.part a (abandon o c x cause a).2 := by
  unfold abandon
  dsimp only
  split
  · exact noteDrop_drops ..
  · exact .refl ..

theorem abandonAll_drops (o : Op) (cause : Nat) (ps : List Piece) (y : Copy × Hw) :
    DropsOnly o.part y.2 (ps.foldl (fun (y : Copy × Hw) x => abandon o y.1 x cause y.2) y).2 := by
  induction ps generalizing y with
  | nil => exact .refl ..
  | cons x ps ih => exact (abandon_drops o y.1 x cause y.2).trans (ih _)

/-- What every step of a fold keeps to, the whole fold keeps to. -/
theorem foldl_rel {α β : Type} {R : α → α → Prop} (refl : ∀ a, R a a) (trans : ∀ {a b c}, R a b → R b c → R a c) {f : α → β → α}
    (each : ∀ a x, R a (f a x)) (xs : List β) (a : α) : R a (xs.foldl f a) := by
  induction xs generalizing a with
  | nil => exact refl a
  | cons x xs ih => exact trans (each a x) (ih _)

theorem failPieces_drops (a : Hw) (p : Nat) (pick : Op → Copy → List Piece) : DropsOnly p a (failPieces a p pick) := by
  refine foldl_rel (R := DropsOnly p) (DropsOnly.refl p) DropsOnly.trans (fun h o => ?_) _ _
  dsimp only
  split
  · next c kind =>
    by_cases here : o.part = p
    · split
      · exact .refl ..
      · rw [← here]
        exact (abandonAll_drops o 0x10 (pick o c) ({ c with todo := c.todo.filter fun x => !(pick o c).contains x }, h)).trans (setOp_drops ..)
    · rw [if_pos (.inl here)]
      exact .refl ..
  · exact .refl ..

/-- Where no piece of a command is chosen none is abandoned. -/
theorem failPieces_none {a : Hw} {p : Nat} {pick : Op → Copy → List Piece} (idle : ∀ o ∈ a.ops, ∀ c, o.kind = .copy c → pick o c = []) :
    failPieces a p pick = a := by
  unfold failPieces
  refine List.foldlRecOn _ _ (motive := fun h => h = a) rfl fun h same o ho => ?_
  subst same
  split
  · next c kind => rw [if_pos (.inr (by rw [idle o ho c kind]; rfl))]
  · rfl

/-! ## Groups that lose lock -/

theorem loseGroup_spec (a : Hw) (p g : Nat) : (loseGroup a p g).gangs = a.gangs ∧ (loseGroup a p g).blocks = a.blocks ∧
    ∀ n, groupState ((loseGroup a p g).part p).link n = if n = g then 3 else groupState (a.part p).link n := by
  have groups : ∀ {b c : Hw}, DropsOnly p b c → ∀ n, groupState (c.part p).link n = groupState (b.part p).link n :=
    fun drops n => drops.link (fun k => groupState k n) fun _ _ _ _ _ => rfl
  have carried : ∃ b : Hw, (if groupState (a.part p).link g = 0 then failCarried a p g else a) = b ∧ b.gangs = a.gangs ∧
      b.blocks = a.blocks ∧ ∀ n, groupState (b.part p).link n = groupState (a.part p).link n := by
    refine ⟨_, rfl, ?_⟩
    split
    · have drops := (failPieces_drops a.draw.2 p fun _ c =>
        (c.fabric (a.part p).link fun x => carrier (a.part p).link x == some g).take
          (a.draw.1 % ((c.fabric (a.part p).link fun x => carrier (a.part p).link x == some g).length + 1))).trans
        (failElems_drops _ p fun o e => onItsWay (a.part p).link o e && carrier (a.part p).link e.tgt.peer == some g)
      exact ⟨drops.gangs, drops.blocks, fun n => (groups drops n :)⟩
    · exact ⟨rfl, rfl, fun _ => rfl⟩
  obtain ⟨b, hb, gangs, blocks, state⟩ := carried
  have drops := failDown_drops (setGroups b p 3 [g]) p
  have eq : loseGroup a p g = failDown (setGroups b p 3 [g]) p := by rw [← hb]; rfl
  rw [eq]
  refine ⟨drops.gangs.trans gangs, drops.blocks.trans blocks, fun n => (groups drops n).trans ?_⟩
  rw [groupState_setGroups, state]
  simp only [List.mem_singleton]

theorem fibreLockLoss_rules (fn group : Nat) (s : State) (small : group < 16) (mine : bit group (s.hw.part fn).link.fgroups = true) :
    (groupCarries (s.hw.part fn).link group = true → ∃ t, exec (.fibreLockLoss fn group) s = .next t ∧ Quiet s t ∧
      groupState (t.hw.part fn).link group = 3 ∧
      ∀ g, g ≠ group → groupState (t.hw.part fn).link g = groupState (s.hw.part fn).link g) ∧
    (groupCarries (s.hw.part fn).link group = false → Holds (.fibreLockLoss fn group) s) := by
  have run : exec (.fibreLockLoss fn group) s =
      if groupCarries (s.hw.part fn).link group = true then .next (s.with (loseGroup s.hw fn group)) else .next s := by
    simp only [exec, execFibreLockLoss, mine, small, decide_true, Bool.true_and]
  obtain ⟨gangs, blocks, state⟩ := loseGroup_spec s.hw fn group
  refine ⟨fun live => ⟨_, run.trans (if_pos live), ⟨rfl, rfl, gangs, blocks⟩, (state group).trans (if_pos rfl), fun g hg => (state g).trans (if_neg hg)⟩,
    fun dark => run.trans (if_neg (by rw [dark]; exact Bool.false_ne_true))⟩

/-! ## A request that goes unanswered -/

theorem OpKind.withElems_elems (k : OpKind) : k.withElems k.elems = k := by cases k <;> rfl

/-- An operation after some of its elements have failed. -/
theorem op_failElems {a : Hw} {p id : Nat} {f : Op → Elem → Bool} {o : Op} (ho : a.op id = some o) :
    (failElems a p f).op id = some (if o.part = p then
      { o with kind := o.kind.withElems (o.kind.elems.map fun e =>
        if ((e.st == 0 || (e.st == 1 && o.kind.posts) || e.st == 5) && f o e) = true then { e with st := 2 } else e) } else o) := by
  unfold Hw.op failElems at *
  dsimp only
  rw [List.find?_map, Function.comp_def]
  have ids : ∀ o : Op, ((if o.part = p then
      { o with kind := o.kind.withElems (o.kind.elems.map fun e =>
        if ((e.st == 0 || (e.st == 1 && o.kind.posts) || e.st == 5) && f o e) = true then { e with st := 2 } else e) } else o).id == id) = (o.id == id) := by
    intro o
    split <;> rfl
  simp only [ids, ho, Option.map_some]

theorem op_failElems_other {a : Hw} {p id : Nat} {f : Op → Elem → Bool} {o : Op} (ho : a.op id = some o) (spared : ∀ e, f o e = false) :
    (failElems a p f).op id = some o := by
  rw [op_failElems ho]
  simp only [spared, Bool.and_false, Bool.false_eq_true, if_false, List.map_id', OpKind.withElems_elems, ite_self]

theorem fabricRequestTimeout_ends {id : Nat} {s : State} {o : Op} {x : Elem} {ty : Ty} (ho : s.hw.op id = some o)
    (single : ∀ y ∈ s.hw.ops, y.id = id → y = o) (kind : o.kind = .load [x] ty) (fresh : x.st = 0) (sent : x.w ≠ 0) (peer : x.tgt.space = 2)
    (sends : peerSends (s.hw.part o.part).link x.tgt.peer = true) (late : x.w + 100000 ≤ s.time) :
    ∃ t o', exec (.fabricRequestTimeout id) s = .next t ∧ Quiet s t ∧ t.hw.op id = some o' ∧ o'.kind = .load [{ x with st := 2 }] ty ∧
      ∀ n y, n ≠ id → s.hw.op n = some y → t.hw.op n = some y := by
  let pick (e : Elem) : Bool := decide (e.w + 100000 ≤ s.time + 1)
  let f (y : Op) (e : Elem) : Bool := y.id == id && onItsWay (s.hw.part o.part).link y e && pick e
  have number : o.id = id := id_of_op ho
  have ended : endRequests s.hw o.part id pick (fun _ => true) = failElems s.hw o.part f := by
    have idle : failPieces s.hw o.part (fun y c => if y.id = id then (c.fabric (s.hw.part o.part).link fun _ => true).take 1 else []) = s.hw := by
      refine failPieces_none fun y hy c copy => if_neg fun same => ?_
      rw [single y hy same, kind] at copy
      cases copy
    unfold endRequests
    dsimp only
    rw [idle]
  have run : exec (.fabricRequestTimeout id) s = .next (s.with (failElems s.hw o.part f)) := by
    rw [← ended]
    simp only [exec, execFabricRequestTimeout, ho, kind, if_true]
    rfl
  have drops := failElems_drops s.hw o.part f
  have chosen : f o x = true := by
    have due : pick x = true := decide_eq_true (by omega)
    simp [f, due, onItsWay, number, peer, sends, fresh, sent]
  refine ⟨_, _, run, ⟨rfl, rfl, drops.gangs, drops.blocks⟩, op_failElems ho, ?_, fun n y hn hy => op_failElems_other hy fun e => ?_⟩
  · rw [if_pos rfl]
    simp [kind, OpKind.elems, OpKind.withElems, chosen, fresh]
  · have other : (y.id == id) = false := by rw [id_of_op hy]; simpa using hn
    simp [f, other]

/-! ## Requests of peers -/

/-- Machine b is machine a after a peer's writes ws to memory of partition p. -/
structure PeerWrote (p : Nat) (a b : Hw) (ws : List PWrite) : Prop where
  part : ∃ n, b.part p = { a.part p with pend := (a.part p).pend ++ ws, hostAll := n }
  rest : b = { a with parts := b.parts, free := b.free, sent := b.sent }
  sent : (a.part p).link.hostLines = [] → b.sent = a.sent

theorem PeerWrote.refl (p : Nat) (a : Hw) : PeerWrote p a a [] := ⟨⟨_, by rw [List.append_nil]⟩, rfl, fun _ => rfl⟩
theorem PeerWrote.trans {p : Nat} {a b c : Hw} {v w : List PWrite} (h : PeerWrote p a b v) (k : PeerWrote p b c w) : PeerWrote p a c (v ++ w) := by
  obtain ⟨m, first⟩ := h.part
  obtain ⟨n, second⟩ := k.part
  refine ⟨⟨n, by rw [second, first, List.append_assoc]⟩, by rw [k.rest, h.rest], fun none' => (k.sent ?_).trans (h.sent none')⟩
  rw [first]
  exact none'

/-- One piece of a peer's store takes its W (R373). -/
def peerPiece (p t : Nat) (h : Hw) (x : Nat × List Byte) : Hw :=
  (putWrite h p t x.1 x.2 0 0 0).2.setPart p fun q => { q with hostAll := Nat.max q.hostAll (putWrite h p t x.1 x.2 0 0 0).1 }

theorem outsideWrite_peer (hw : Hw) (p t a : Nat) (bs : List Byte) :
    outsideWrite hw p t a bs false false = (linePieces (bs.length / 128 + 2) a bs).foldl (peerPiece p t) hw := rfl

theorem peerPiece_wrote (p t : Nat) (h : Hw) (x : Nat × List Byte) : ∃ w, PeerWrote p h (peerPiece p t h x) [w] ∧ w.addr = x.1 ∧ w.bytes = x.2 := by
  obtain ⟨y, wrote, addr, bytes⟩ := devWrote_putWrite h p t x.1 x.2
  refine ⟨y, ⟨⟨Nat.max (h.part p).hostAll (putWrite h p t x.1 x.2 0 0 0).1, ?_⟩, ?_, wrote.sent⟩, addr, bytes⟩
  · unfold peerPiece
    rw [Hw.part_setPart_same, wrote.part]
  · unfold peerPiece
    rw [Hw.setPart, wrote.rest]

theorem peerPieces_wrote (p t : Nat) (xs : List (Nat × List Byte)) (h : Hw) :
    ∃ l, PeerWrote p h (xs.foldl (peerPiece p t) h) l ∧ l.map (fun w => (w.addr, w.bytes)) = xs := by
  induction xs generalizing h with
  | nil => exact ⟨[], .refl .., rfl⟩
  | cons x xs ih =>
    obtain ⟨w, wrote, addr, bytes⟩ := peerPiece_wrote p t h x
    obtain ⟨l, rest, pieces⟩ := ih (peerPiece p t h x)
    exact ⟨w :: l, wrote.trans rest, by rw [List.map_cons, addr, bytes, pieces]⟩

section
variable {fn : Nat} {s : State} (present : (s.hw.part fn).present = true)
include present

theorem exec_peerRequest_load (a n : Nat) : exec (.peerRequest fn (.load a n)) s = if exported s.hw fn a n = true
    then .next (s.with (s.hw.send 8 fn (a :: (rdBytes s.mem fn a n).map (·.toNat)))) else .next (s.with (s.hw.send 9 fn [])) := by
  simp only [exec, execPeerRequest, present, Bool.not_true, Bool.false_eq_true, if_false]

theorem peerLoad_rules (a n : Nat) :
    (exported s.hw fn a n = true → exec (.peerRequest fn (.load a n)) s =
      .next (s.with (s.hw.send 8 fn (a :: (rdBytes s.mem fn a n).map (·.toNat))))) ∧
    (exported s.hw fn a n = false → exec (.peerRequest fn (.load a n)) s = .next (s.with (s.hw.send 9 fn []))) :=
  ⟨fun yes => (exec_peerRequest_load present a n).trans (if_pos yes),
    fun no => (exec_peerRequest_load present a n).trans (if_neg (by rw [no]; exact Bool.false_ne_true))⟩

theorem exec_peerRequest_store (a : Nat) (bs : List Byte) : exec (.peerRequest fn (.store a bs)) s = if exported s.hw fn a bs.length = true
    then .next (s.with ((outsideWrite s.hw fn s.time a bs false false).send 8 fn [a])) else .next (s.with (s.hw.send 9 fn [])) := by
  simp only [exec, execPeerRequest, present, Bool.not_true, Bool.false_eq_true, if_false]

theorem peerStore_rules (a : Nat) (bs : List Byte) (none' : (s.hw.part fn).link.hostLines = []) :
    (exported s.hw fn a bs.length = false → exec (.peerRequest fn (.store a bs)) s = .next (s.with (s.hw.send 9 fn []))) ∧
    (exported s.hw fn a bs.length = true → ∃ t, exec (.peerRequest fn (.store a bs)) s = .next t ∧ Quiet s t ∧
      t.hw.sent = s.hw.sent ++ [⟨8, fn, [a]⟩] ∧
      ∀ b, latestByte t.mem (t.hw.part fn).pend fn b =
        if a ≤ b ∧ b < a + bs.length then bs.getD (b - a) 0 else latestByte s.mem (s.hw.part fn).pend fn b) := by
  refine ⟨fun no => (exec_peerRequest_store present a bs).trans (if_neg (by rw [no]; exact Bool.false_ne_true)),
    fun yes => ⟨_, (exec_peerRequest_store present a bs).trans (if_pos yes), ?_⟩⟩
  obtain ⟨l, wrote, pieces⟩ := peerPieces_wrote fn s.time (linePieces (bs.length / 128 + 2) a bs) s.hw
  rw [← outsideWrite_peer] at wrote
  obtain ⟨n, part⟩ := wrote.part
  have pend : ((outsideWrite s.hw fn s.time a bs false false).part fn).pend = (s.hw.part fn).pend ++ l := by rw [part]
  refine ⟨⟨rfl, rfl, ?_, ?_⟩, congrArg (· ++ [(⟨8, fn, [a]⟩ : Sent)]) (wrote.sent none'), fun b => ?_⟩
  · show (outsideWrite s.hw fn s.time a bs false false).gangs = _
    rw [wrote.rest]
  · show (outsideWrite s.hw fn s.time a bs false false).blocks = _
    rw [wrote.rest]
  · show latestByte s.mem ((outsideWrite s.hw fn s.time a bs false false).part fn).pend fn b = _
    rw [pend, latestByte, List.foldl_append, foldl_byte b l, pieces, piecesByte_linePieces b _ a bs _ (by omega)]
    rfl

section
variable {a op : Nat} {ty : Ty} (wide : 0 < Ty.width ty / 8) (aligned : a % (Ty.width ty / 8) = 0) (admits : op = 10 ∨ Forms.atomAdmits op ty = true)
  (mine : exported s.hw fn a (Ty.width ty / 8) = true)
include wide aligned admits mine

/-- A peer's atomic that may be served reads the line as it now is, or arms it (R373). -/
theorem exec_peerRequest_atomic (y c : Word) : exec (.peerRequest fn (.atomic a op ty y c)) s =
    if op = 9 then
      .next (s.with ((s.hw.setPart fn fun q => { q with
        arms := q.arms.put 0 (lineOf a) (armNew ((s.hw.part fn).arms.val 0 (lineOf a)) y.toNat (lineHolds s.hw fn (lineOf a))) }).send 8 fn
          [a, (s.hw.part fn).arms.val 0 (lineOf a)]))
    else
      .next (s.with (Hw.send (match atomWrite op ty (latestNat s.mem s.hw fn a (Ty.width ty / 8)) (y.toNat % 2 ^ Ty.width ty)
          (if op = 10 then some c else none) with
        | some v => (putWrite s.hw fn s.time a (toBytes (Ty.width ty / 8) v) 0 0 0).2
        | none => s.hw) 8 fn [a, latestNat s.mem s.hw fn a (Ty.width ty / 8)])) := by
  have served : ¬ (Ty.width ty / 8 = 0 ∨ a % (Ty.width ty / 8) ≠ 0 ∨ (!(decide (op = 10 ∨ Forms.atomAdmits op ty = true))) = true) := by
    simp [Nat.ne_of_gt wide, aligned, admits]
  have here : ¬ (!(s.hw.part fn).present) = true := by simp [present]
  have free : ¬ (!exported s.hw fn a (Ty.width ty / 8)) = true := by simp [mine]
  exact (if_neg here).trans ((if_neg (by simpa using served)).trans (if_neg free))

end

theorem peerArm_rules {a : Nat} {ty : Ty} (y c : Word) (wide : 0 < Ty.width ty / 8) (aligned : a % (Ty.width ty / 8) = 0)
    (admits : Forms.atomAdmits 9 ty = true) (mine : exported s.hw fn a (Ty.width ty / 8) = true) :
    let old := (s.hw.part fn).arms.val 0 (lineOf a)
    ∃ t, exec (.peerRequest fn (.atomic a 9 ty y c)) s = .next t ∧ Quiet s t ∧ t.hw.sent = s.hw.sent ++ [⟨8, fn, [a, old]⟩] ∧
      (t.hw.part fn).arms.val 0 (lineOf a) = armNew old y.toNat (lineHolds s.hw fn (lineOf a)) ∧ (t.hw.part fn).pend = (s.hw.part fn).pend := by
  intro old
  have part := Hw.part_setPart_same s.hw fn fun q => { q with arms := q.arms.put 0 (lineOf a) (armNew old y.toNat (lineHolds s.hw fn (lineOf a))) }
  refine ⟨_, (exec_peerRequest_atomic present wide aligned (.inr admits) mine y c).trans (if_pos rfl), ⟨rfl, rfl, rfl, rfl⟩, rfl, ?_, ?_⟩
  · exact (congrArg (fun q : Part => q.arms.val 0 (lineOf a)) part).trans ((Tab.val_put ..).trans (if_pos rfl))
  · exact (congrArg Part.pend part :)

theorem peerAtomic_rules {a op : Nat} {ty : Ty} (y c : Word) (none' : (s.hw.part fn).link.hostLines = []) (wide : 0 < Ty.width ty / 8)
    (aligned : a % (Ty.width ty / 8) = 0) (plain : op ≠ 9) (admits : op = 10 ∨ Forms.atomAdmits op ty = true)
    (mine : exported s.hw fn a (Ty.width ty / 8) = true) :
    ∃ t, exec (.peerRequest fn (.atomic a op ty y c)) s = .next t ∧ Quiet s t ∧
      t.hw.sent = s.hw.sent ++ [⟨8, fn, [a, latestNat s.mem s.hw fn a (Ty.width ty / 8)]⟩] := by
  refine ⟨_, (exec_peerRequest_atomic present wide aligned admits mine y c).trans (if_neg plain), ?_⟩
  split
  · next v _ =>
    obtain ⟨_, wrote, _⟩ := devWrote_putWrite s.hw fn s.time a (toBytes (Ty.width ty / 8) v)
    refine ⟨⟨rfl, rfl, ?_, ?_⟩, congrArg (· ++ _) (wrote.sent none')⟩
    · show (putWrite s.hw fn s.time a (toBytes (Ty.width ty / 8) v) 0 0 0).2.gangs = _
      rw [wrote.rest]
    · show (putWrite s.hw fn s.time a (toBytes (Ty.width ty / 8) v) 0 0 0).2.blocks = _
      rw [wrote.rest]
  · exact ⟨⟨rfl, rfl, rfl, rfl⟩, rfl⟩

end

/-- Settles O43: forms by their statuses, groups by the states that are set, requests by the elements that fail, and a peer's by what is sent. -/
theorem fabricGroups : Obligations.FabricGroups := by
  refine ⟨fmcrStatus_spec, fun f s e h => ?_, groupState_setGroups, ?_, fun _ _ _ _ _ _ _ => fmcrTimeout_rules, fibreLockLoss_rules,
    fun _ _ _ _ _ => fabricRequestTimeout_ends, fun _ a n _ present => peerLoad_rules present a n,
    fun _ a bs _ present none' => peerStore_rules present a bs none',
    fun _ _ _ y c _ present wide aligned admits mine => peerArm_rules present y c wide aligned admits mine,
    fun _ _ _ _ y c _ present none' wide aligned plain admits mine => peerAtomic_rules present y c none' wide aligned plain admits mine⟩
  · intro r k gs
    obtain ⟨darkBad, darkGood⟩ := fmcrDark_rules h
    obtain ⟨routeFar, routeNear⟩ := fmcrRoute_rules h
    obtain ⟨groupFar, groupNear⟩ := fmcrGroup_rules h
    refine ⟨?_, darkBad, darkGood, routeFar, routeNear, groupFar, groupNear, fmcrQuery_answers h⟩
    rintro i op ok (⟨rfl, rfl, rfl⟩ | ⟨rfl, rfl, rfl⟩)
    · exact fmcrWait_rules h rfl
    · exact fmcrWait_rules h rfl
  · rintro i fn group op st s o gs left t0 (⟨rfl, rfl, rfl, carries⟩ | ⟨rfl, rfl, rfl, dark, sound⟩) only ho kind
    · exact fmcrStep_rules (markerReturn_steps carries) only ho kind
    · exact fmcrStep_rules (fibreGroupLocked_steps dark sound) only ho kind

end Sys2Proof.Machine
end

section
/-! SUPPORT. Multicast-reduce groups: fsig, fwait, rounds and lost members (19_links R378-R382). -/

namespace Sys2Proof.Machine

open Sys2Proof

/-! ## fsig and fwait -/

/-- What fsig needs of its handle (R381). -/
def fsigNeed : Need := { spaces := fun sp => sp == 2, a := true, width := 8, rd := true, wr := true }

theorem fsig_rules {f : Fields} {s : State} {e : Env} (h : Issues Forms.fsig f s e) (free : e.counterFull = false) :
    let r := regsF Forms.fsig f
    let refs : List Ref := [⟨lowLane e.act, f.hIdx, f.hOff⟩]
    (∀ t, e.check fsigNeed true refs = .stop (.trap t) → Traps (.fsig f) s e t) ∧
    (∀ es hw, e.check fsigNeed true refs = .ok es hw →
      (∀ sc b, e.releasing true = some (sc, b) → Parks (.fsig f) s e r .parked (.release sc b) e.hw) ∧
      (e.releasing true = none →
        let x := es.headD { lane := 0, tgt := {} }
        let w : Writes := { ops := [{ e.newOp r (.fsig { x with val := e.sa r }) with counts := true, id := hw.nextId }] }
        Room e r w hw → Retires (.fsig f) s e r w hw)) := by
  intro r refs
  have issued := (show exec (.fsig f) s = execFsig f s from rfl).trans (issueF_ok h _)
  dsimp only at issued
  rw [if_neg (by rw [free]; exact Bool.false_ne_true)] at issued
  refine ⟨fun t bad => ?_, fun es hw ok => ⟨fun sc b waits => ?_, fun clear => ?_⟩⟩
  · exact traps_of_trap issued (by unfold fsigNeed at bad; simp only [refs] at bad; rw [bad])
  · exact stays_of_stay issued (by unfold fsigNeed at ok; simp only [refs] at ok; rw [ok]; simp only [waits]; rfl)
  · exact retires_of_done h.here issued (by unfold fsigNeed at ok; simp only [refs] at ok; rw [ok]; simp only [clear]; rfl)

/-- Whether a handle names a group that is valid (R382). -/
def NamesGroup (e : Env) (s : State) (h : Nat) : Prop :=
  let x := readHandle e.hw s.mem e.part e.ctx h
  h < 4096 ∧ x.ok = true ∧ x.space = 4 ∧ x.tgt < 4096 ∧ bit 63 ((e.hw.part e.part).link.mcr.val 0 x.tgt) = true

/-- fwait in the order of its checks (R382). -/
theorem fwait_rules {f : Fields} {s : State} {e : Env} (h : Issues Forms.fwait f s e) :
    let r := regsF Forms.fwait f
    let n := (e.sa r).toNat
    let g := (readHandle e.hw s.mem e.part e.ctx n).tgt
    let k := (e.hw.part e.part).link
    (¬ NamesGroup e s n → Traps (.fwait f) s e { cause := 0x06, hit := e.act }) ∧
    (NamesGroup e s n → k.fen = false → Traps (.fwait f) s e { cause := 0x10, hit := e.act }) ∧
    (NamesGroup e s n → k.fen = true → groupLost e.hw e.part g = true → Traps (.fwait f) s e { cause := 0x12, info := g, hit := e.act }) ∧
    (NamesGroup e s n → k.fen = true → groupLost e.hw e.part g = false →
      ((e.sb r).toNat ≤ delivOf e.hw e.part g → Answers (.fwait f) s e r (delivOf e.hw e.part g) e.hw) ∧
      (delivOf e.hw e.part g < (e.sb r).toNat → Parks (.fwait f) s e r .parked (.fwait (e.sb r) g r.d) e.hw)) := by
  intro r n g k
  have issued := (show exec (.fwait f) s = execFwait f s from rfl).trans (issueF_ok h _)
  rw [env_state h.here] at issued
  have bad : (4096 ≤ n ∨ (!(readHandle e.hw s.mem e.part e.ctx n).ok) = true ∨ (readHandle e.hw s.mem e.part e.ctx n).space ≠ 4 ∨ 4096 ≤ g ∨
      (!bit 63 (k.mcr.val 0 g)) = true) ↔ ¬ NamesGroup e s n := by
    simp only [NamesGroup, g, k, not_and_or, Nat.not_lt, Bool.not_eq_true', Bool.not_eq_true, ne_eq]
  have on : ∀ b : Bool, b = true → ¬ (!b) = true := fun b hb => by rw [hb]; exact Bool.false_ne_true
  refine ⟨fun no => traps_of_trap issued (if_pos (bad.2 no)), fun yes off => ?_, fun yes fen lost => ?_, fun yes fen there => ⟨fun met => ?_, fun early => ?_⟩⟩
  · exact traps_of_trap issued ((if_neg fun no => bad.1 no yes).trans (if_pos (by rw [off]; rfl)))
  · exact traps_of_trap issued ((if_neg fun no => bad.1 no yes).trans ((if_neg (on _ fen)).trans (if_pos lost)))
  · exact retires_of_done h.here issued ((if_neg fun no => bad.1 no yes).trans ((if_neg (on _ fen)).trans
      ((if_neg (by rw [there]; exact Bool.false_ne_true)).trans (if_pos met))))
  · exact stays_of_stay issued ((if_neg fun no => bad.1 no yes).trans ((if_neg (on _ fen)).trans
      ((if_neg (by rw [there]; exact Bool.false_ne_true)).trans (if_neg (Nat.not_le.2 early)))))

/-- The wait of fwait: a lost group traps, and deliveries that have come end it (R379, R382). -/
theorem fwaitWait_rules {q : PathRef} {s : State} {e : Env} {thr : Word} {g d : Nat} (he : envAt s q = some e)
    (runs : runsOn s.hw e.core e.ctx = true) (wait : e.q.wait = .fwait thr g d) :
    (groupLost s.hw e.part g = true → exec (.fenceRetire q) s =
      .next (s.with (e.trapParked s.hw { cause := 0x12, info := g, hit := e.act }))) ∧
    (groupLost s.hw e.part g = false → thr.toNat ≤ delivOf s.hw e.part g →
      Resumes (.fenceRetire q) s e { s := [(d, word (delivOf s.hw e.part g))] } s.hw) ∧
    (groupLost s.hw e.part g = false → delivOf s.hw e.part g < thr.toNat → Holds (.fenceRetire q) s) := by
  have hw : e.hw = s.hw := by rw [Env.hw, env_state he]
  have run : exec (.fenceRetire q) s = .next (s.with (wakeFwait e thr g d)) := by
    rw [exec_fenceRetire he runs, wakeRunning, wait]
  unfold wakeFwait at run
  rw [hw] at run
  have there : groupLost s.hw e.part g = false → ¬ groupLost s.hw e.part g = true := fun no => by rw [no]; exact Bool.false_ne_true
  refine ⟨fun lost => run.trans (by rw [if_pos lost]; rfl), fun no met => resumes_of_retireParked he (run.trans ?_), fun no early => run.trans ?_⟩
  · rw [if_neg (there no), if_pos met]
  · rw [if_neg (there no), if_neg (Nat.not_le.2 early)]
    rfl

/-! ## The combining tree -/

theorem length_combPairs (op : Nat) (ty : Ty) (l : List Nat) : (combPairs op ty l).length = (l.length + 1) / 2 := by
  induction l using combPairs.induct with
  | case1 x y r ih =>
    rw [combPairs, List.length_cons, ih, List.length_cons, List.length_cons]
    omega
  | case2 l short =>
    match l, short with
    | [], _ => simp [combPairs]
    | [x], _ => simp [combPairs]
    | x :: y :: r, short => exact absurd rfl (short x y r)

/-- A tree with rounds enough needs no more (R378). -/
theorem combTree_succ (op : Nat) (ty : Ty) (k : Nat) (l : List Nat) (few : l.length ≤ 2 ^ k) : combTree op ty (k + 1) l = combTree op ty k l := by
  induction k generalizing l with
  | zero => exact if_pos few
  | succ k ih =>
    rw [combTree, combTree]
    refine if_congr Iff.rfl rfl (ih _ ?_)
    rw [length_combPairs]
    omega

theorem combTree_rounds (op : Nat) (ty : Ty) (k : Nat) (l : List Nat) (few : l.length ≤ 2 ^ (k + 1)) :
    combTree op ty (k + 1) l = if l.length ≤ 1 then l.headD 0 else combTree op ty (k + 1) (combPairs op ty l) := by
  rw [combTree_succ op ty k (combPairs op ty l) (by rw [length_combPairs]; omega), combTree]

/-! ## Rounds -/

/-- A write that takes its W is pending, under the number it was given (13_consistency R248). -/
theorem putWrite_pends (hw : Hw) (p t a : Nat) (bs : List Byte) (id : Nat) :
    ∃ w : PWrite, (putWrite hw p t a bs id 0 0).2.part p = { hw.part p with pend := (hw.part p).pend ++ [w] } ∧ w.addr = a ∧ w.bytes = bs ∧
      w.id = id ∧ w.w = assignW (hw.part p) (orderUnit a) t ∧ (putWrite hw p t a bs id 0 0).2.nextId = hw.nextId ∧
      (putWrite hw p t a bs id 0 0).2.gangs = hw.gangs ∧ (putWrite hw p t a bs id 0 0).2.blocks = hw.blocks := by
  have asked := posted_snoop hw p a
  have next : (snoop hw p a).nextId = hw.nextId := by
    unfold snoop
    split <;> rfl
  refine ⟨{ w := assignW (hw.part p) (orderUnit a) t, addr := a, bytes := bs, id := id, gk := 0, paths := 0, blocked := lineBlocked hw p a }, ?_,
    rfl, rfl, rfl, rfl, next, asked.gangs, asked.blocks⟩
  simp only [putWrite, Hw.part_setPart_same, asked.part, List.append_nil]

/-- A combined write is noted with its group, to be counted (R378). -/
theorem noteDelivery_part (h : Hw) (p : Nat) (x : Nat × Nat) :
    let h' := { h with nextId := h.nextId + 1 }.setLink p fun k => { k with delivAt := k.delivAt ++ [x] }
    let q := h'.part p
    q.pend = (h.part p).pend ∧ q.link.delivAt = (h.part p).link.delivAt ++ [x] ∧ q.link.deliv = (h.part p).link.deliv ∧
      h'.gangs = h.gangs ∧ h'.blocks = h.blocks := by
  intro h' q
  have part : q = { h.part p with link := { (h.part p).link with delivAt := (h.part p).link.delivAt ++ [x] } } := Hw.part_setLink_same ..
  rw [part]
  exact ⟨rfl, rfl, rfl, rfl, rfl⟩

/-- A round that is complete is delivered as one write, whose W will count it (R378). -/
theorem mcrDelivery_writes {fn group off : Nat} {data : List Byte} {s : State} {ty : Ty} (fen : (s.hw.part fn).link.fen = true)
    (valid : bit 63 ((s.hw.part fn).link.mcr.val 0 group) = true) (there : bit 62 ((s.hw.part fn).link.mcr.val 0 group) = false)
    (type : Forms.tyOfCode (bits 58 53 ((s.hw.part fn).link.mcr.val 0 group)) = some ty) (wide : 0 < Ty.width ty / 8)
    (all : data.length = (bits 52 41 ((s.hw.part fn).link.mcr.val 0 group) + 1) * (Ty.width ty / 8)) (aligned : off % (Ty.width ty / 8) = 0)
    (inside : off + Ty.width ty / 8 ≤ bits 28 20 ((s.hw.part fn).link.mcr.val 0 group) * 2 ^ 20)
    (mine : bits 19 0 ((s.hw.part fn).link.mcr.val 0 group) * 2 ^ 20 + off + Ty.width ty / 8 ≤ partBytes s.hw fn) :
    let k := (s.hw.part fn).link
    let v := k.mcr.val 0 group
    let m := bits 52 41 v + 1
    let n := Ty.width ty / 8
    let a := bits 19 0 v * 2 ^ 20 + off
    ∃ t p, exec (.mcrDelivery fn group off data) s = .next t ∧ Quiet s t ∧ (t.hw.part fn).pend = (s.hw.part fn).pend ++ [p] ∧
      p.addr = a ∧ p.bytes = toBytes n (canon ty (combTree (bits 61 59 v) ty 12 (contributions n m data))) ∧ p.id = s.hw.nextId ∧
      p.w = assignW (s.hw.part fn) (orderUnit a) s.time ∧ t.hw.nextId = s.hw.nextId + 1 ∧
      (t.hw.part fn).link.delivAt = k.delivAt ++ [(group, s.hw.nextId)] ∧ (t.hw.part fn).link.deliv = k.deliv := by
  intro k v m n a
  let x := canon ty (combTree (bits 61 59 v) ty 12 (contributions n m data))
  let h := (putWrite s.hw fn s.time a (toBytes n x) s.hw.nextId 0 0).2
  let t := s.with ({ h with nextId := h.nextId + 1 }.setLink fn fun k => { k with delivAt := k.delivAt ++ [(group, s.hw.nextId)] })
  have good : (k.fen && bit 63 v && !bit 62 v && data.length == m * n && decide (0 < n) && off % n == 0 && decide (off + n ≤ bits 28 20 v * 2 ^ 20) &&
      decide (a + n ≤ partBytes s.hw fn)) = true := by
    simp only [k, v, m, n, a, fen, valid, there, all, wide, aligned, inside, mine, decide_true, beq_self_eq_true, Bool.not_false, Bool.and_self]
  have run : exec (.mcrDelivery fn group off data) s = .next t := by
    show execMcrDelivery fn group off data s = _
    unfold execMcrDelivery
    simp only [type]
    exact if_pos good
  obtain ⟨p, part, addr, bytes, id, pw, next, gangs, blocks⟩ := putWrite_pends s.hw fn s.time a (toBytes n x) s.hw.nextId
  obtain ⟨pend, delivAt, deliv, gangs', blocks'⟩ := noteDelivery_part h fn (group, s.hw.nextId)
  exact ⟨t, p, run, quiet_with (gangs'.trans gangs) (blocks'.trans blocks), pend.trans (by rw [part]), addr, bytes, id, pw, congrArg (· + 1) next,
    delivAt.trans (by rw [part]), deliv.trans (by rw [part])⟩

/-- A partition after the combined writes whose W has passed are counted (R378). -/
def countedPart (q : Part) : Part :=
  let due := q.link.delivAt.filter fun x => !(q.pend.any fun w => w.id == x.2)
  if due.isEmpty then q
  else { q with link := { q.link with
    deliv := due.foldl (fun d x => d.ins x.1 ((d.val 0 x.1 + 1) % 2 ^ 64)) q.link.deliv
    delivAt := q.link.delivAt.filter fun x => !due.contains x } }

theorem part_countDeliveries (hw : Hw) (p : Nat) : (countDeliveries hw).part p = countedPart (hw.part p) := by
  have parts : (countDeliveries hw).parts = hw.parts.map fun x => (x.1, countedPart x.2) := by
    refine List.map_congr_left fun x _ => ?_
    simp only [countedPart]
    split <;> rfl
  rw [Hw.part, parts, Tab.val, look_map_keyed fun _ => countedPart, Hw.part, Tab.val]
  cases hw.parts.look p <;> rfl

theorem countDeliveries_rules {hw : Hw} {p g i : Nat} (one : (hw.part p).link.delivAt = [(g, i)]) :
    ((∀ w ∈ (hw.part p).pend, w.id ≠ i) → delivOf (countDeliveries hw) p g = (delivOf hw p g + 1) % 2 ^ 64) ∧
    ((∃ w ∈ (hw.part p).pend, w.id = i) → delivOf (countDeliveries hw) p g = delivOf hw p g) ∧
    ∀ n, n ≠ g → delivOf (countDeliveries hw) p n = delivOf hw p n := by
  have waits : ((hw.part p).pend.any fun w => w.id == i) = true ↔ ∃ w ∈ (hw.part p).pend, w.id = i := by simp
  have count : ∀ n, delivOf (countDeliveries hw) p n =
      if ((hw.part p).pend.any fun w => w.id == i) = true then delivOf hw p n
      else if n = g then (delivOf hw p g + 1) % 2 ^ 64 else delivOf hw p n := by
    intro n
    rw [delivOf, part_countDeliveries, countedPart]
    dsimp only
    rw [one]
    cases hany : (hw.part p).pend.any fun w => w.id == i with
    | true => simp [hany, delivOf]
    | false =>
      simp only [List.filter_cons, hany, Bool.not_false, if_true, List.filter_nil, List.isEmpty_cons, Bool.false_eq_true, if_false,
        List.foldl_cons, List.foldl_nil]
      exact Tab.val_ins ..
  refine ⟨fun due => (count g).trans ((if_neg fun any => ?_).trans (if_pos rfl)), fun pending => (count g).trans (if_pos (waits.2 pending)),
    fun n hn => (count n).trans ?_⟩
  · obtain ⟨w, hw, same⟩ := waits.1 any
    exact due w hw same
  · rw [if_neg hn, ite_self]

/-! ## Lost members -/

/-- A member-lost notice marks its group, which a path that waits on it sees (R379). -/
theorem memberLost_rules (fn group : Nat) (s : State) :
    (bit 63 ((s.hw.part fn).link.mcr.val 0 group) = false ∨ (s.hw.part fn).link.fen = false → Holds (.memberLost fn group) s) ∧
    (bit 63 ((s.hw.part fn).link.mcr.val 0 group) = true → (s.hw.part fn).link.fen = true →
      (∀ g ∈ s.hw.gangs, ∀ q ∈ g.2.paths, ∀ a b c, q.2.wait ≠ .fwait a b c) →
      ∃ t, exec (.memberLost fn group) s = .next t ∧ Quiet s t ∧ groupLost t.hw fn group = true ∧
        ∀ n, n ≠ group → (t.hw.part fn).link.mcr.val 0 n = (s.hw.part fn).link.mcr.val 0 n) := by
  have run : exec (.memberLost fn group) s = execMemberLost fn group s := rfl
  unfold execMemberLost at run
  refine ⟨fun off => run.trans (if_pos ?_), fun valid fen idle => ?_⟩
  · obtain off | off := off
    · rw [off]
      rfl
    · rw [off, Bool.not_false, Bool.or_true]
  · rw [if_neg (by rw [valid, fen]; exact Bool.false_ne_true)] at run
    let h := s.hw.setLink fn fun k => { k with mcr := k.mcr.put 0 group (setBits 62 62 1 ((s.hw.part fn).link.mcr.val 0 group)) }
    have still : exec (.memberLost fn group) s = .next (s.with h) := by
      rw [run]
      dsimp only
      rw [List.flatMap_eq_nil_iff.2]
      · rfl
      · refine fun g hg => List.filterMap_eq_nil_iff.2 fun q hq => ?_
        split
        · next wait => exact absurd wait (idle g hg q hq _ _ _)
        · rfl
    have mcr : ∀ n, ((s.with h).hw.part fn).link.mcr.val 0 n =
        if n = group then setBits 62 62 1 ((s.hw.part fn).link.mcr.val 0 group) else (s.hw.part fn).link.mcr.val 0 n := by
      intro n
      show (h.part fn).link.mcr.val 0 n = _
      simp only [h, Hw.part_setLink_same]
      exact Tab.val_put ..
    refine ⟨_, still, ⟨rfl, rfl, rfl, rfl⟩, ?_, fun n hn => (mcr n).trans (if_neg hn)⟩
    rw [groupLost, mcr, if_pos rfl]
    exact testBit_setBits (lo := 62) (m := 1) (by decide) 1 _ 62

/-- Settles O44: fsig and fwait by the order of their checks, rounds by the one write each leaves, and a lost group by its mark. -/
theorem multicast : Obligations.Multicast := by
  refine ⟨fun f s e h => ?_, fun f s e h => fwait_rules h, fun q s e thr g d he runs wait => fwaitWait_rules he runs wait,
    fun fn group off data s ty => mcrDelivery_writes, fun _ _ _ => rfl, fun _ _ _ _ _ => rfl, fun op ty l few => combTree_rounds op ty 11 l few,
    fun hw p g i => countDeliveries_rules, memberLost_rules⟩
  exact ⟨fun t free => (fsig_rules h free).1 t, fun es hw free => (fsig_rules h free).2 es hw⟩

end Sys2Proof.Machine
end

section
/-! SUPPORT. Slot counters, trace, triggers and debug holds (21_observe R398-R408). -/

namespace Sys2Proof.Machine

open Sys2Proof

theorem Hw.cluster_setCluster (a : Hw) (k : Nat) (f : Cluster → Cluster) (j : Nat) :
    (a.setCluster k f).cluster j = if j = k then f (a.cluster k) else a.cluster j := Tab.val_ins ..
theorem Hw.cluster_setCluster_same (a : Hw) (k : Nat) (f : Cluster → Cluster) : (a.setCluster k f).cluster k = f (a.cluster k) :=
  (a.cluster_setCluster k f k).trans (if_pos rfl)
theorem Hw.part_setTrace_same (a : Hw) (p : Nat) (f : Trace → Trace) : (a.setTrace p f).part p = { a.part p with trace := f (a.part p).trace } :=
  Hw.part_setPart_same ..

/-! ## Counters -/

theorem look_insEach {α : Type} (f : Nat → α) (ks : List Nat) (t : Tab α) (k : Nat) :
    (ks.foldl (fun t i => t.ins i (f i)) t).look k = if k ∈ ks then some (f k) else t.look k := by
  induction ks generalizing t with
  | nil => exact (if_neg List.not_mem_nil).symm
  | cons x ks ih =>
    rw [List.foldl_cons, ih, Tab.look_ins]
    by_cases later : k ∈ ks
    · rw [if_pos later, if_pos (List.mem_cons_of_mem _ later)]
    · rw [if_neg later]
      by_cases here : k = x
      · subst here
        rw [if_pos rfl, if_pos List.mem_cons_self]
      · rw [if_neg here, if_neg (by simp [here, later])]

/-- What a capture keeps of a core: its ten counters and the time (R399). -/
theorem capturedWord_capture (hw : Hw) (core t i : Nat) : (i ≤ 9 → capturedWord (capture' hw core t) core i = slotCounter hw core t i) ∧
    capturedWord (capture' hw core t) core 10 = t := by
  have look : ∀ k, ((capture' hw core t).core core).captured.look k =
      if k ∈ List.range 10 then some (slotCounter hw core t k) else Tab.look [(10, t)] k := by
    intro k
    rw [capture', Hw.core_setCore_same]
    dsimp only
    rw [← List.map_prod_left_eq_zip, List.foldl_map]
    exact look_insEach ..
  refine ⟨fun small => ?_, ?_⟩
  · rw [capturedWord, Tab.val, look, if_pos (List.mem_range.2 (by omega))]
    rfl
  · rw [capturedWord, Tab.val, look, if_neg (by simp)]
    rfl

section
variable {f : Fields} {s : State} {e : Env} (h : Issues Forms.cnt f s e)
include h

theorem cnt_rules :
    let r := regsF Forms.cnt f
    let i := (e.sa r).toNat % 16
    (i ≤ 9 → Answers (.cnt f) s e r (slotCounter e.hw e.core s.time i) e.hw) ∧ (9 < i → Answers (.cnt f) s e r 0 e.hw) := by
  intro r i
  have issued := (show exec (.cnt f) s = execCnt f s from rfl).trans (issueF_ok h _)
  rw [Env.now, env_state h.here] at issued
  exact ⟨fun small => retires_of_done h.here issued (by dsimp only; rw [if_neg (Nat.not_lt.2 small)]),
    fun large => retires_of_done h.here issued (by dsimp only; rw [if_pos large])⟩

theorem cntSnap_answers : Answers (.cntSnap f) s e (regsF Forms.cnt f) s.time (capture' e.hw e.core s.time) := by
  have issued := (show exec (.cntSnap f) s = execCntSnap f s from rfl).trans (issueF_ok h _)
  rw [Env.now, env_state h.here] at issued
  exact retires_of_done h.here issued rfl

theorem cntSaved_rules :
    let r := regsF Forms.cnt f
    let i := (e.sa r).toNat % 16
    (i ≤ 9 → Answers (.cntSaved f) s e r (capturedWord e.hw e.core i) e.hw) ∧ (9 < i → Answers (.cntSaved f) s e r 0 e.hw) := by
  intro r i
  have issued := (show exec (.cntSaved f) s = execCntSaved f s from rfl).trans (issueF_ok h _)
  exact ⟨fun small => retires_of_done h.here issued (by dsimp only; rw [if_neg (Nat.not_lt.2 small)]),
    fun large => retires_of_done h.here issued (by dsimp only; rw [if_pos large])⟩

end

theorem counterTake_rules {fn core : Nat} {s : State} (o : WindowOpen s fn) :
    (corePart s.hw core = some fn → exec (.counterTake fn core) s = .next (s.with (capture' s.hw core s.time))) ∧
    (corePart s.hw core ≠ some fn → ∃ t, exec (.counterTake fn core) s = .next t ∧ Quiet s t ∧ t.hw.cores = s.hw.cores ∧
      (t.hw.part fn).link.winerr = ((s.hw.part fn).link.winerr + 1) % 2 ^ 32) := by
  have run := (show exec (.counterTake fn core) s = execCounterTake fn core s from rfl).trans (windowWrite_open o _)
  refine ⟨fun mine => run.trans (by rw [if_pos mine]), fun other => ?_⟩
  rw [if_neg other] at run
  refine ⟨_, run, quiet_with rfl rfl, rfl, ?_⟩
  exact congrArg (fun q : Part => q.link.winerr) (Hw.part_setPart_same ..)

/-! ## Records -/

section
variable {hw : Hw} {p core t : Nat} {ws : List Nat} (on : traceOff (hw.part p) t = false)
include on

theorem addTrace_kept (room : (hw.cluster (coreCluster core)).trace.length < 2048) (first : (hw.cluster (coreCluster core)).lost = 0) :
    let c := hw.cluster (coreCluster core)
    ((addTrace hw p core t ws).cluster (coreCluster core)).trace = c.trace ++ [ws.set 6 (c.seq * 2 ^ 32 + ws.getD 6 0)] ∧
      ((addTrace hw p core t ws).cluster (coreCluster core)).seq = (c.seq + 1) % 2 ^ 32 := by
  intro c
  have new : (addTrace hw p core t ws).cluster (coreCluster core) =
      { c with trace := c.trace ++ [ws.set 6 (c.seq * 2 ^ 32 + ws.getD 6 0)], seq := (c.seq + 1) % 2 ^ 32, lost := 0 } := by
    unfold addTrace
    rw [if_neg (by rw [on]; exact Bool.false_ne_true)]
    dsimp only
    rw [if_neg (Nat.not_le.2 room), Hw.cluster_setCluster_same, if_pos first, List.append_nil]
  rw [new]
  exact ⟨rfl, rfl⟩

theorem addTrace_dropped (full : 2048 ≤ (hw.cluster (coreCluster core)).trace.length) :
    let c := hw.cluster (coreCluster core)
    (addTrace hw p core t ws).cluster (coreCluster core) = { c with lost := c.lost + 1 } ∧
      ((addTrace hw p core t ws).part p).trace.ovfLost = ((hw.part p).trace.ovfLost + 1) % 2 ^ 32 := by
  intro c
  unfold addTrace
  rw [if_neg (by rw [on]; exact Bool.false_ne_true)]
  dsimp only
  rw [if_pos full]
  exact ⟨(hw.cluster_setCluster_same (coreCluster core) fun c => { c with lost := c.lost + 1 } :), congrArg (fun q : Part => q.trace.ovfLost) (Hw.part_setPart_same ..)⟩

end

/-- Machine b is machine a after trace records were made in partition p: nothing of what is frozen, armed or triggered changes. -/
structure Recorded (p : Nat) (a b : Hw) : Prop where
  rest : b = { a with parts := b.parts, clusters := b.clusters, free := b.free }
  part : ∃ x y z, b.part p = { a.part p with trace := { (a.part p).trace with ovfLost := x, ioLost := y, holding := z } }

theorem Recorded.refl (p : Nat) (a : Hw) : Recorded p a a := ⟨rfl, _, _, _, rfl⟩
theorem Recorded.trans {p : Nat} {a b c : Hw} (h : Recorded p a b) (k : Recorded p b c) : Recorded p a c := by
  obtain ⟨x, y, z, second⟩ := k.part
  obtain ⟨x', y', z', first⟩ := h.part
  exact ⟨by rw [k.rest, h.rest], x, y, z, by rw [second, first]⟩
theorem recorded_setTrace (p : Nat) (a : Hw) (x y : Nat) (z : List (List Nat)) {f : Trace → Trace}
    (hf : f (a.part p).trace = { (a.part p).trace with ovfLost := x, ioLost := y, holding := z }) :
    Recorded p a (a.setTrace p f) := ⟨rfl, x, y, z, (Hw.part_setTrace_same ..).trans (by rw [hf])⟩
theorem recorded_setCluster (p : Nat) (a : Hw) (k : Nat) (f : Cluster → Cluster) : Recorded p a (a.setCluster k f) := ⟨rfl, _, _, _, rfl⟩
theorem recorded_draw (p : Nat) (a : Hw) : Recorded p a a.draw.2 := ⟨rfl, _, _, _, rfl⟩

theorem recorded_addTrace (a : Hw) (p core t : Nat) (ws : List Nat) : Recorded p a (addTrace a p core t ws) := by
  unfold addTrace
  split
  · exact .refl ..
  · dsimp only
    split
    · exact (recorded_setCluster p a (coreCluster core) fun c => { c with lost := c.lost + 1 }).trans
        (recorded_setTrace p _ _ _ _ (f := fun x => { x with ovfLost := (x.ovfLost + 1) % 2 ^ 32 }) rfl)
    · exact recorded_setCluster ..

theorem recorded_addIoTrace (a : Hw) (p t : Nat) (ws : List Nat) : Recorded p a (addIoTrace a p t ws) := by
  unfold addIoTrace
  split
  · exact .refl ..
  · dsimp only
    split <;> split
    case isTrue.isTrue | isTrue.isFalse | isFalse.isTrue =>
      apply recorded_setTrace
      rfl
    case isFalse.isFalse =>
      refine (recorded_draw p a).trans ?_
      apply recorded_setTrace
      rfl

/-! ## Triggers -/

theorem freeze_spec (cut : Nat) (x : Trace) :
    (x.arm = true → x.frozen = false → (freeze cut x).frozen = true ∧ (freeze cut x).cutoff = (cut + 1000 * x.post) % 2 ^ 64) ∧
    (x.arm = false ∨ x.frozen = true → freeze cut x = x) ∧ (freeze cut x).triggers = x.triggers := by
  unfold freeze
  refine ⟨fun arm go => ?_, fun still => if_neg ?_, ?_⟩
  · rw [if_pos (by rw [arm, go]; rfl)]
    exact ⟨rfl, rfl⟩
  · obtain off | already := still
    · simp [off]
    · simp [already]
  · split <;> rfl

theorem triggerReceived_rules (fn dev : Nat) (origin : Word) (s : State) :
    ((s.hw.part fn).link.fen = false → Holds (.triggerReceived fn dev origin) s) ∧
    ((s.hw.part fn).link.fen = true → ∃ t, exec (.triggerReceived fn dev origin) s = .next t ∧ Quiet s t ∧
      let x := (s.hw.part fn).trace
      let y := (t.hw.part fn).trace
      (x.arm = true → x.frozen = false → y.frozen = true ∧ y.cutoff = (s.time + 1000 * x.post) % 2 ^ 64) ∧
        (x.arm = false ∨ x.frozen = true → y.frozen = x.frozen ∧ y.cutoff = x.cutoff)) := by
  have run : exec (.triggerReceived fn dev origin) s = execTriggerReceived fn dev origin s := rfl
  unfold execTriggerReceived at run
  refine ⟨fun off => run.trans (if_pos (by rw [off]; rfl)), fun on => ?_⟩
  rw [if_neg (by rw [on]; exact Bool.false_ne_true)] at run
  have made := recorded_addIoTrace s.hw fn s.time [2 * 2 ^ 60, s.time, 0, 0, 0, 0, dev % 2 ^ 17, origin.toNat]
  obtain ⟨o, i, r, part⟩ := made.part
  refine ⟨_, run, quiet_with ?_ ?_, ?_⟩
  · show (addIoTrace s.hw fn s.time _).gangs = _
    rw [made.rest]
  · show (addIoTrace s.hw fn s.time _).blocks = _
    rw [made.rest]
  · intro x y
    have trace : y = freeze s.time { x with ovfLost := o, ioLost := i, holding := r } :=
      (congrArg Part.trace (Hw.part_setTrace_same ..)).trans (by rw [part])
    obtain ⟨freezes, stays, -⟩ := freeze_spec s.time { x with ovfLost := o, ioLost := i, holding := r }
    refine ⟨fun arm go => ?_, fun still => ?_⟩
    · rw [trace]
      exact freezes arm go
    · rw [trace, stays still]
      exact ⟨rfl, rfl⟩

theorem foldl_send (kind p : Nat) (f : Nat × Nat → List Nat) (xs : List (Nat × Nat)) (a : Hw) :
    xs.foldl (fun h x => h.send kind p (f x)) a = { a with sent := a.sent ++ xs.map fun x => ⟨kind, p, f x⟩ } := by
  induction xs generalizing a with
  | nil => simp
  | cons x xs ih =>
    rw [List.foldl_cons, ih]
    simp [Hw.send]

/-- Triggers are sent where a group carries them, and kept where one will (R405; 19_links R374). -/
theorem sendTriggers_spec (a : Hw) (p : Nat) :
    let k := (a.part p).link
    let ts := (a.part p).trace.triggers
    sendTriggers a p = { a with parts := (sendTriggers a p).parts, sent := (sendTriggers a p).sent } ∧
    (sendTriggers a p).sent = a.sent ++ (ts.filter fun x => peerSends k x.1).map (fun x => ⟨12, p, [x.1, x.2]⟩) ∧
    (sendTriggers a p).part p =
      { a.part p with trace := { (a.part p).trace with triggers := ts.filter fun x => peerReach k x.1 && !peerSends k x.1 } } := by
  intro k ts
  unfold sendTriggers
  dsimp only
  split
  · next empty =>
    have none' : ts = [] := List.isEmpty_iff.1 empty
    refine ⟨rfl, by rw [none']; simp, ?_⟩
    rw [none', List.filter_nil, ← none']
  · rw [foldl_send 12 p fun x => [x.1, x.2]]
    exact ⟨rfl, rfl, Hw.part_setTrace_same ..⟩

/-- The machine after a trc that sends triggers, whose own record is in machine a (R400, R405). -/
def triggered (e : Env) (a : Hw) : Hw :=
  let dsts := (triggerDsts (e.hw.part e.part).trace).filter fun d => peerReach (e.hw.part e.part).link d
  let sent := sendTriggers (a.setTrace e.part fun x => { x with triggers := x.triggers ++ dsts.map fun d => (d, e.now) }) e.part
  (addIoTrace sent e.part e.now
    [5 * 2 ^ 60 + e.p * 2 ^ 56 + e.ctx * 2 ^ 32 + e.act.toNat, e.now, e.q.pc.toNat % 2 ^ 57, gangId e.hw e.gk, 0, e.g.tag.toNat, 0, 0]).setTrace
    e.part (freeze e.now)

theorem triggered_spec (e : Env) {a : Hw} (made : Recorded e.part e.hw a) :
    let k := (e.hw.part e.part).link
    let x := (e.hw.part e.part).trace
    let ts := x.triggers ++ ((triggerDsts x).filter fun d => peerReach k d).map fun d => (d, e.now)
    (triggered e a).gangs = e.hw.gangs ∧ (triggered e a).ops = e.hw.ops ∧
      (triggered e a).sent = e.hw.sent ++ (ts.filter fun x => peerSends k x.1).map (fun x => ⟨12, e.part, [x.1, x.2]⟩) ∧
      ((triggered e a).part e.part).trace.triggers = (ts.filter fun x => peerReach k x.1 && !peerSends k x.1) ∧
      (x.arm = true → ((triggered e a).part e.part).trace.frozen = true) := by
  intro k x ts
  obtain ⟨l, i, r, part1⟩ := made.part
  let b := a.setTrace e.part fun y => { y with triggers := y.triggers ++ ((triggerDsts x).filter fun d => peerReach k d).map fun d => (d, e.now) }
  have part2 : b.part e.part = { e.hw.part e.part with trace := { x with ovfLost := l, ioLost := i, holding := r, triggers := ts } } := by
    show (a.setTrace e.part _).part e.part = _
    rw [Hw.part_setTrace_same, part1]
  obtain ⟨rest3, sent3, part3⟩ := sendTriggers_spec b e.part
  rw [part2] at sent3 part3
  have made4 := recorded_addIoTrace (sendTriggers b e.part) e.part e.now
    [5 * 2 ^ 60 + e.p * 2 ^ 56 + e.ctx * 2 ^ 32 + e.act.toNat, e.now, e.q.pc.toNat % 2 ^ 57, gangId e.hw e.gk, 0, e.g.tag.toNat, 0, 0]
  obtain ⟨l', i', r', part4⟩ := made4.part
  rw [part3] at part4
  let y : Trace := { x with ovfLost := l', ioLost := i', holding := r', triggers := ts.filter fun x => peerReach k x.1 && !peerSends k x.1 }
  have part5 : ((triggered e a).part e.part).trace = freeze e.now y :=
    (congrArg Part.trace (Hw.part_setTrace_same ..)).trans (by rw [part4])
  obtain ⟨freezes, stays, keeps⟩ := freeze_spec e.now y
  refine ⟨?_, ?_, ?_, by rw [part5]; exact keeps, fun arm => ?_⟩
  · show (addIoTrace (sendTriggers b e.part) e.part e.now _).gangs = _
    rw [made4.rest, rest3]
    show a.gangs = _
    rw [made.rest]
  · show (addIoTrace (sendTriggers b e.part) e.part e.now _).ops = _
    rw [made4.rest, rest3]
    show a.ops = _
    rw [made.rest]
  · show (addIoTrace (sendTriggers b e.part) e.part e.now _).sent = _
    rw [made4.rest, sent3]
    show a.sent ++ _ = _
    rw [made.rest]
  · rw [part5]
    cases go : x.frozen with
    | false => exact (freezes arm go).1
    | true => exact (congrArg Trace.frozen (stays (.inr go))).trans go

theorem trc_rules {f : Fields} {s : State} {e : Env} (h : Issues Forms.trc f s e) :
    let r := regsF Forms.trc f
    let h := e.traceRec e.hw 1 e.act.toNat ((e.sb r).toNat % 65536) (e.sa r).toNat
    let k := (s.hw.part e.part).link
    let ts := (s.hw.part e.part).trace.triggers ++
      ((triggerDsts (s.hw.part e.part).trace).filter fun d => peerReach k d).map fun d => (d, s.time)
    (f.op = 0 → Retires (.trc f) s e r {} h) ∧
    (f.op ≠ 0 → ∃ h', Retires (.trc f) s e r {} h' ∧ h'.gangs = s.hw.gangs ∧ h'.ops = s.hw.ops ∧
      h'.sent = s.hw.sent ++ (ts.filter fun x => peerSends k x.1).map (fun x => ⟨12, e.part, [x.1, x.2]⟩) ∧
      (h'.part e.part).trace.triggers = (ts.filter fun x => peerReach k x.1 && !peerSends k x.1) ∧
      ((s.hw.part e.part).trace.arm = true → (h'.part e.part).trace.frozen = true)) := by
  intro r a k ts
  have issued := (show exec (.trc f) s = execTrc f s from rfl).trans (issueF_ok h _)
  have spec := triggered_spec e (a := a) (recorded_addTrace ..)
  rw [show e.hw = s.hw by rw [Env.hw, env_state h.here], show e.now = s.time by rw [Env.now, env_state h.here]] at spec
  exact ⟨fun zero => retires_of_done h.here issued (if_pos zero) (room_nil rfl rfl rfl rfl), fun trig =>
    ⟨triggered e a, retires_of_done h.here issued (if_neg trig) (room_nil rfl rfl rfl rfl), spec⟩⟩

/-! ## The ring -/

theorem ringRecord_spec (a : Hw) (p : Nat) :
    ringRecord a p = { a with parts := (ringRecord a p).parts, sent := (ringRecord a p).sent } := by
  unfold ringRecord
  dsimp only
  split
  · rfl
  · split <;> rfl

theorem traceDrain_idle {fn cluster : Nat} {s : State} (other : drainTurn s.hw fn ≠ some cluster) :
    ∃ t, exec (.traceDrain fn cluster) s = .next t ∧ Quiet s t ∧ t.hw.clusters = s.hw.clusters := by
  have run : exec (.traceDrain fn cluster) s = .next (s.with (ringRecord s.hw fn)) := by
    show execTraceDrain fn cluster s = _
    unfold execTraceDrain
    split
    · rw [if_neg fun h => other h.1]
    · rfl
  refine ⟨_, run, quiet_with ?_ ?_, ?_⟩
  · rw [ringRecord_spec]
  · rw [ringRecord_spec]
  · show (ringRecord s.hw fn).clusters = _
    rw [ringRecord_spec]

theorem traceDrain_drains {fn cluster : Nat} {s : State} {r : List Nat} {rs : List (List Nat)} (front : (s.hw.cluster cluster).trace = r :: rs)
    (turn : drainTurn s.hw fn = some cluster) (idle : (s.hw.part fn).trace.holding = []) (go : (s.hw.part fn).trace.frozen = false)
    (short : r.length ≤ 8) (hardware : r.getD 0 0 / 2 ^ 60 ≠ 1)
    (room : ((s.hw.part fn).trace.prod + 2 ^ 32 - (s.hw.part fn).trace.cons) % 2 ^ 32 < 2 ^ ((s.hw.part fn).trace.log2n + 10)) :
    let x := (s.hw.part fn).trace
    ∃ t, exec (.traceDrain fn cluster) s = .next t ∧ Quiet s t ∧ (t.hw.cluster cluster).trace = rs ∧ (t.hw.part fn).trace.turn = cluster + 1 ∧
      t.hw.sent = s.hw.sent ++ [⟨11, fn, (x.base + 64 * (x.prod % 2 ^ (x.log2n + 10))) :: r⟩] ∧
      (t.hw.part fn).trace.prod = (x.prod + 1) % 2 ^ 32 := by
  intro x
  let a := s.hw.setCluster cluster fun c => { c with trace := rs }
  let b := (a.setTrace fn fun x => { x with holding := [r] }).setTrace fn fun x => { x with turn := cluster + 1 }
  have ninth : r.getD 8 0 = 0 := List.getD_eq_default _ _ short
  have accepted : acceptRecord a fn s.time cluster r = a.setTrace fn fun x => { x with holding := [r] } := by
    have frozen : (a.part fn).trace.frozen = false := go
    have held : (a.part fn).trace.holding = [] := idle
    simp only [acceptRecord, frozen, ninth, Bool.false_and, Bool.not_false, ne_eq, not_true_eq_false, decide_false, Bool.and_true,
      Bool.false_eq_true, if_false, if_true, List.take_of_length_le short, Bool.true_and, beq_iff_eq, hardware]
    rw [Hw.setTrace, Hw.setTrace, Hw.setPart, Hw.setPart, held]
    rfl
  have part : b.part fn = { s.hw.part fn with trace := { x with holding := [r], turn := cluster + 1 } } := by
    show ((a.setTrace fn _).setTrace fn _).part fn = _
    rw [Hw.part_setTrace_same, Hw.part_setTrace_same]
    rfl
  have ring : ringRecord b fn = (b.send 11 fn ((x.base + 64 * (x.prod % 2 ^ (x.log2n + 10))) :: r)).setTrace fn fun x =>
      { x with holding := [], prod := (x.prod + 1) % 2 ^ 32 } := by
    unfold ringRecord
    rw [part]
    dsimp only
    rw [if_neg (Nat.not_le.2 room)]
  have run : exec (.traceDrain fn cluster) s = .next (s.with (ringRecord b fn)) := by
    show execTraceDrain fn cluster s = _
    unfold execTraceDrain
    rw [front]
    dsimp only
    rw [if_pos ⟨turn, by rw [idle, ninth]; decide⟩, accepted]
  rw [ring] at run
  have part' := (Hw.part_setTrace_same (b.send 11 fn ((x.base + 64 * (x.prod % 2 ^ (x.log2n + 10))) :: r)) fn fun x =>
    { x with holding := [], prod := (x.prod + 1) % 2 ^ 32 })
  have sentPart : (b.send 11 fn ((x.base + 64 * (x.prod % 2 ^ (x.log2n + 10))) :: r)).part fn = _ := part
  rw [sentPart] at part'
  refine ⟨_, run, quiet_with rfl rfl, ?_, congrArg (fun q : Part => q.trace.turn) part', rfl, congrArg (fun q : Part => q.trace.prod) part'⟩
  show (a.cluster cluster).trace = rs
  rw [Hw.cluster_setCluster_same]

/-! ## TRCFG -/

/-- Machine b has the gangs and blocks of machine a. -/
def SameGangs (a b : Hw) : Prop := b.gangs = a.gangs ∧ b.blocks = a.blocks

theorem SameGangs.refl (a : Hw) : SameGangs a a := ⟨rfl, rfl⟩
theorem SameGangs.trans {a b c : Hw} (h : SameGangs a b) (k : SameGangs b c) : SameGangs a c := ⟨k.1.trans h.1, k.2.trans h.2⟩

theorem sameGangs_ite {c : Prop} [Decidable c] {a b b' : Hw} (yes : SameGangs a b) (no : SameGangs a b') : SameGangs a (if c then b else b') := by
  split
  · exact yes
  · exact no

theorem sameGangs_putWrite (a : Hw) (p t x : Nat) (bs : List Byte) (id gk ps : Nat) : SameGangs a (putWrite a p t x bs id gk ps).2 :=
  ⟨(posted_snoop a p x).gangs, (posted_snoop a p x).blocks⟩

theorem sameGangs_putRecord (a : Hw) (p t : Nat) (x : TailSt) (off : Nat) (ws : List Nat) : SameGangs a (putRecord a p t x off ws) := by
  unfold putRecord
  exact (show SameGangs a a.draw.2 from ⟨rfl, rfl⟩).trans (foldl_rel SameGangs.refl SameGangs.trans (fun _ _ => sameGangs_putWrite ..) _ _)

theorem sameGangs_keepRecord (a : Hw) (p c t j : Nat) (r : TailRec) (off : Nat) (ws : List Nat) : SameGangs a (keepRecord a p c t j r off ws) := by
  unfold keepRecord
  split
  · exact .refl a
  · exact (sameGangs_putRecord ..).trans ⟨rfl, rfl⟩

theorem sameGangs_irreversible (a : Hw) (p c t va code peer : Nat) : SameGangs a (irreversible a p c t va code peer) := by
  unfold irreversible
  split
  · exact .refl a
  · split
    · exact .refl a
    · exact sameGangs_ite (SameGangs.trans ⟨rfl, rfl⟩ (sameGangs_keepRecord ..)) ⟨rfl, rfl⟩

theorem sameGangs_acceptRecord (a : Hw) (p t k : Nat) (ws : List Nat) : SameGangs a (acceptRecord a p t k ws) := by
  unfold acceptRecord
  dsimp only
  split
  · exact SameGangs.trans ⟨rfl, rfl⟩ (sameGangs_irreversible ..)
  · exact ⟨rfl, rfl⟩

theorem sameGangs_gateCluster (a : Hw) (p t k : Nat) : SameGangs a (gateCluster a p t k) := by
  unfold gateCluster
  exact (show SameGangs a (a.setCluster k fun c => { c with trace := [] }) from ⟨rfl, rfl⟩).trans
    (foldl_rel SameGangs.refl SameGangs.trans (fun _ _ => sameGangs_acceptRecord ..) _ _)

theorem trcfgWrite_rules {fn : Nat} {v : Word} {s : State} (o : WindowOpen s fn) :
    ∃ t, exec (.trcfgWrite fn v) s = .next t ∧ Quiet s t ∧ (t.hw.part fn).trace.base = bits 63 12 v.toNat * 4096 ∧
      (t.hw.part fn).trace.log2n = bits 11 8 v.toNat ∧ (t.hw.part fn).trace.en = bit 0 v.toNat := by
  have run := (show exec (.trcfgWrite fn v) s = execTrcfgWrite fn v s from rfl).trans (windowWrite_open o _)
  have drained : SameGangs s.hw (if bit 0 v.toNat = true then s.hw else
      (partClusters s.hw fn).foldl (fun h k => gateCluster h fn s.time k) s.hw) := by
    split
    · exact .refl _
    · exact foldl_rel SameGangs.refl SameGangs.trans (fun _ _ => sameGangs_gateCluster ..) _ _
  obtain ⟨gangs, blocks⟩ := drained
  refine ⟨_, run, quiet_with gangs blocks, ?_, ?_, ?_⟩
  · exact congrArg (fun q : Part => q.trace.base) (Hw.part_setTrace_same ..)
  · exact congrArg (fun q : Part => q.trace.log2n) (Hw.part_setTrace_same ..)
  · exact congrArg (fun q : Part => q.trace.en) (Hw.part_setTrace_same ..)

/-! ## Holds -/

section
variable {fn : Nat} {v : Word} {s : State}

theorem status_putHold (a : Hw) (p v st : Nat) : ((putHold a p v st).part p).hold.status = st :=
  congrArg (fun q : Part => q.hold.status) (Hw.part_setPart_same ..)

theorem putHold_quiet (s : State) (p v st : Nat) : ∃ t, (.next (s.with (putHold s.hw p v st)) : Out) = .next t ∧ Quiet s t ∧ (t.hw.part p).hold.status = st :=
  ⟨_, rfl, quiet_with rfl rfl, status_putHold ..⟩

theorem putHold_path {gk p : Nat} {g : Gang} {q : Path} (hg : s.hw.gangs.look gk = some g) (hq : g.paths.look p = some q) (f : Path → Path) (fn v st : Nat) :
    ∃ t g', (.next (s.with (putHold (setPath s.hw gk p f) fn v st)) : Out) = .next t ∧ t.mem = s.mem ∧ (t.hw.part fn).hold.status = st ∧
      t.hw.gangs.look gk = some g' ∧ g'.paths.look p = some (f q) := by
  refine ⟨_, { g with paths := g.paths.upd p f }, rfl, rfl, status_putHold .., ?_, ?_⟩
  · exact (setGang_look ..).trans (by rw [if_pos rfl, hg]; rfl)
  · exact (Tab.look_upd ..).trans (by rw [if_pos rfl, hq]; rfl)

theorem holdTarget_look {a : Hw} {p n gk k : Nat} {q : Path} (h : holdTarget a p n = some (gk, k, q)) :
    ∃ g, a.gangs.look gk = some g ∧ g.paths.look k = some q := by
  unfold holdTarget at h
  dsimp only at h
  split at h
  · cases h
  · obtain ⟨g, hg, found⟩ := Option.bind_eq_some_iff.1 h
    obtain ⟨q', hq, same⟩ := Option.map_eq_some_iff.1 found
    cases same
    exact ⟨g, hg, hq⟩

variable (o : WindowOpen s fn)
include o

theorem dbghold_misses (none' : holdTarget s.hw fn v.toNat = none) (i : Instr) (which : i = .dbgholdHold fn v ∨ i = .dbgholdRelease fn v) :
    ∃ t, exec i s = .next t ∧ Quiet s t ∧ (t.hw.part fn).hold.status = 1 := by
  have run : exec i s = .next (s.with (putHold s.hw fn v.toNat 1)) := by
    obtain rfl | rfl := which
    · refine (show exec (.dbgholdHold fn v) s = execDbgholdHold fn v s from rfl).trans ((windowWrite_open o _).trans ?_)
      rw [none']
    · refine (show exec (.dbgholdRelease fn v) s = execDbgholdRelease fn v s from rfl).trans ((windowWrite_open o _).trans ?_)
      rw [none']
  rw [run]
  exact putHold_quiet ..

variable {gk p : Nat} {q : Path} (target : holdTarget s.hw fn v.toNat = some (gk, p, q))
include target

theorem dbgholdHold_rules :
    (q.state = .ready → q.wait.inOrder = false → ∃ t g' , exec (.dbgholdHold fn v) s = .next t ∧ t.mem = s.mem ∧ (t.hw.part fn).hold.status = 0 ∧
      t.hw.gangs.look gk = some g' ∧ g'.paths.look p = some { q with state := .held }) ∧
    (q.state = .parked ∨ q.state = .barrier ∨ q.state = .ready ∧ q.wait.inOrder = true → ∃ t g', exec (.dbgholdHold fn v) s = .next t ∧ t.mem = s.mem ∧
      (t.hw.part fn).hold.status = 0 ∧ t.hw.gangs.look gk = some g' ∧ g'.paths.look p = some { q with holdReq := true }) ∧
    (q.state = .stopped ∨ q.state = .held ∨ q.state = .rejoin →
      ∃ t, exec (.dbgholdHold fn v) s = .next t ∧ Quiet s t ∧ (t.hw.part fn).hold.status = 2) := by
  obtain ⟨g, hg, hq⟩ := holdTarget_look target
  have run := (show exec (.dbgholdHold fn v) s = execDbgholdHold fn v s from rfl).trans (windowWrite_open o _)
  rw [target] at run
  dsimp only at run
  refine ⟨fun ready free => ?_, fun waits => ?_, fun other => ?_⟩
  · rw [ready] at run
    rw [run]
    obtain ⟨t, g', ht, mem, status, gang, path⟩ := putHold_path hg hq
      (fun q => if q.wait.inOrder then { q with holdReq := true } else { q with state := .held }) fn v.toNat 0
    rw [if_neg (by rw [free]; exact Bool.false_ne_true)] at path
    exact ⟨t, g', ht, mem, status, gang, path⟩
  · obtain parked | barrier | ⟨ready, waits⟩ := waits
    · rw [parked] at run
      rw [run]
      exact putHold_path hg hq (fun q => { q with holdReq := true }) fn v.toNat 0
    · rw [barrier] at run
      rw [run]
      exact putHold_path hg hq (fun q => { q with holdReq := true }) fn v.toNat 0
    · rw [ready] at run
      rw [run]
      obtain ⟨t, g', ht, mem, status, gang, path⟩ := putHold_path hg hq
        (fun q => if q.wait.inOrder then { q with holdReq := true } else { q with state := .held }) fn v.toNat 0
      rw [if_pos waits] at path
      exact ⟨t, g', ht, mem, status, gang, path⟩
  · obtain state | state | state := other
    all_goals
      rw [state] at run
      rw [run]
      exact putHold_quiet ..

theorem dbgholdRelease_rules :
    (q.state = .held → ∃ t g', exec (.dbgholdRelease fn v) s = .next t ∧ t.mem = s.mem ∧ (t.hw.part fn).hold.status = 0 ∧
      t.hw.gangs.look gk = some g' ∧ g'.paths.look p = some { q with state := .ready, holdReq := false, age := 0 }) ∧
    (q.state ≠ .held → ∃ t, exec (.dbgholdRelease fn v) s = .next t ∧ Quiet s t ∧ (t.hw.part fn).hold.status = 2) := by
  obtain ⟨g, hg, hq⟩ := holdTarget_look target
  have run := (show exec (.dbgholdRelease fn v) s = execDbgholdRelease fn v s from rfl).trans (windowWrite_open o _)
  rw [target] at run
  dsimp only at run
  refine ⟨fun held => ?_, fun other => ?_⟩
  · rw [if_pos held] at run
    rw [run]
    exact putHold_path hg hq (fun q => { q with state := .ready, holdReq := false, age := 0 }) fn v.toNat 0
  · rw [if_neg other] at run
    rw [run]
    exact putHold_quiet ..

end

/-- Whether a path that is asked to hold is held now (R408). -/
def heldNow (q : Path) : Bool := q.holdReq && q.state == .ready && !q.wait.inOrder
/-- A gang whose paths that are held now are held. -/
def holdGang (g : Gang) : Gang :=
  if g.paths.any fun q => heldNow q.2 then
    { g with paths := g.paths.map fun q => (q.1, if heldNow q.2 then { q.2 with state := .held, holdReq := false } else q.2) } else g

theorem takeHolds_gangs (hw : Hw) : (takeHolds hw).gangs = hw.gangs.map fun g => (g.1, holdGang g.2) := by
  refine List.map_congr_left fun g _ => ?_
  have paths : (g.2.paths.map fun q => if heldNow q.2 then (q.1, { q.2 with state := .held, holdReq := false }) else q) =
      g.2.paths.map fun q => (q.1, if heldNow q.2 then { q.2 with state := .held, holdReq := false } else q.2) :=
    List.map_congr_left fun q _ => by split <;> rfl
  unfold holdGang
  rw [← paths]
  by_cases some' : (g.2.paths.any fun q => heldNow q.2) = true
  · rw [if_pos some']
    exact if_pos some'
  · rw [if_neg some']
    exact if_neg some'

theorem takeHolds_path {hw : Hw} {gk p : Nat} {g : Gang} {q : Path} (hg : hw.gangs.look gk = some g) (hq : g.paths.look p = some q) :
    ∃ g', (takeHolds hw).gangs.look gk = some g' ∧ g'.vregs = g.vregs ∧
      g'.paths.look p = some (if q.holdReq = true ∧ q.state = .ready ∧ q.wait.inOrder = false then { q with state := .held, holdReq := false } else q) := by
  have now : heldNow q = true ↔ q.holdReq = true ∧ q.state = .ready ∧ q.wait.inOrder = false := by simp [heldNow, and_assoc]
  refine ⟨holdGang g, ?_, ?_, ?_⟩
  · rw [takeHolds_gangs, look_map_keyed fun _ => holdGang, hg]
    rfl
  · unfold holdGang
    split <;> rfl
  · rw [← if_congr now rfl rfl]
    unfold holdGang
    by_cases some' : (g.paths.any fun q => heldNow q.2) = true
    · rw [if_pos some']
      dsimp only
      rw [look_map_keyed fun _ q => if heldNow q then { q with state := .held, holdReq := false } else q, hq]
      rfl
    · rw [if_neg some', hq, if_neg fun held => some' (List.any_eq_true.2 ⟨(p, q), look_mem hq, held⟩)]

/-- Settles O45: counters by what a capture keeps, records by the words they append, triggers and holds by the states they set. -/
theorem observation : Obligations.Observation := by
  refine ⟨fun f s e h => trc_rules h, fun hw p core t ws => addTrace_kept, fun f s e h => ?_, fun hw core t i => capturedWord_capture hw core t i,
    fun fn core s o => counterTake_rules o, fun hw p core t ws => addTrace_dropped, fun fn cluster s => traceDrain_idle,
    fun fn cluster s r rs => traceDrain_drains, fun fn v s o => trcfgWrite_rules o, triggerReceived_rules,
    fun fn v s o => ⟨dbghold_misses o, fun gk p q target => ?_⟩, fun hw gk g p q => takeHolds_path⟩
  · obtain ⟨small, large⟩ := cnt_rules h
    exact ⟨small, large, cntSnap_answers h, cntSaved_rules h⟩
  · obtain ⟨now, later, never⟩ := dbgholdHold_rules o target
    exact ⟨now, later, never, dbgholdRelease_rules o target⟩

end Sys2Proof.Machine
end

section
/-! SUPPORT. The ceiling loop and performance states (20_power R385-R390). -/

namespace Sys2Proof.Machine

open Sys2Proof

/-! ## Changes of clusters -/

theorem Hw.cluster_setCluster_other (a : Hw) {k j : Nat} (h : j ≠ k) (f : Cluster → Cluster) : (a.setCluster k f).cluster j = a.cluster j :=
  (a.cluster_setCluster k f j).trans (if_neg h)

/-- Machine b is machine a but for its clusters. -/
def OnlyClusters (a b : Hw) : Prop := b = { a with clusters := b.clusters }

theorem OnlyClusters.refl (a : Hw) : OnlyClusters a a := rfl
theorem OnlyClusters.trans {a b c : Hw} (h : OnlyClusters a b) (k : OnlyClusters b c) : OnlyClusters a c := by
  unfold OnlyClusters at *
  rw [k, h]
theorem OnlyClusters.sameGangs {a b : Hw} (h : OnlyClusters a b) : SameGangs a b := by
  unfold OnlyClusters at h
  rw [h]
  exact ⟨rfl, rfl⟩
theorem OnlyClusters.pkg {a b : Hw} (h : OnlyClusters a b) : b.pkg = a.pkg := by
  unfold OnlyClusters at h
  rw [h]

/-- Clusters changed one after another, as what is read of them shows it; P is what each change keeps and relies on. -/
theorem read_foldl_clusters {α : Type} (P : Hw → Prop) {f : Hw → Nat → Hw} (read : Cluster → α) (g : Nat → α → α) (keeps : ∀ h k, P h → P (f h k))
    (here : ∀ h k, P h → read ((f h k).cluster k) = g k (read (h.cluster k))) (other : ∀ h k j, j ≠ k → (f h k).cluster j = h.cluster j)
    {ks : List Nat} (once : ks.Nodup) {a : Hw} (ha : P a) (j : Nat) :
    read ((ks.foldl f a).cluster j) = if j ∈ ks then g j (read (a.cluster j)) else read (a.cluster j) := by
  induction ks generalizing a with
  | nil => exact (if_neg List.not_mem_nil).symm
  | cons k ks ih =>
    obtain ⟨fresh, once⟩ := List.nodup_cons.1 once
    rw [List.foldl_cons, ih once (keeps a k ha)]
    by_cases same : j = k
    · subst same
      rw [if_neg fresh, if_pos List.mem_cons_self, here a j ha]
    · rw [other a k j same]
      exact if_congr (by simp [same]) rfl rfl

theorem read_foldl_cluster {α : Type} {f : Hw → Nat → Hw} (read : Cluster → α) (g : α → α)
    (here : ∀ h k, read ((f h k).cluster k) = g (read (h.cluster k))) (other : ∀ h k j, j ≠ k → (f h k).cluster j = h.cluster j)
    {ks : List Nat} (once : ks.Nodup) (a : Hw) (j : Nat) :
    read ((ks.foldl f a).cluster j) = if j ∈ ks then g (read (a.cluster j)) else read (a.cluster j) :=
  read_foldl_clusters (fun _ => True) read (fun _ => g) (fun _ _ _ => trivial) (fun h k _ => here h k) other once trivial j

theorem allLive_nodup (hw : Hw) : (allLive hw).Nodup := List.nodup_range.filter _

/-! ## Performance states -/

theorem retarget_keeps {α : Type} (read : Cluster → α) (same : ∀ c cycles at' goal, read { c with cycles := cycles, cycleAt := at', goal := goal } = read c)
    (t : Nat) (c : Cluster) : read (retarget t c) = read c := by
  unfold retarget
  split
  · rfl
  · exact same c _ _ _

/-- A transition begins towards an effective state that is new, after its latency (R385, R386). -/
theorem retarget_goal {c : Cluster} (t : Nat) (idle : c.goal = none) :
    (effState c = c.cur → retarget t c = c) ∧
    (effState c ≠ c.cur → c.shut = false → c.retired = false → c.fail = false →
      (retarget t c).goal = some (effState c, t + if onHigh c.cur = onHigh (effState c) then 100 else 150)) := by
  unfold retarget
  refine ⟨fun same => if_pos (by simp [same]), fun new shut retired fail => ?_⟩
  rw [if_neg (by simp [idle, new, shut, retired, fail])]

theorem cluster_setReq (a : Hw) (t k : Nat) (f : Cluster → Cluster) :
    (setReq a t k f).cluster k = if clusterLive a k = true then retarget t (f (a.cluster k)) else f (a.cluster k) :=
  Hw.cluster_setCluster_same ..
theorem cluster_setReq_other (a : Hw) (t : Nat) {k j : Nat} (h : j ≠ k) (f : Cluster → Cluster) : (setReq a t k f).cluster j = a.cluster j :=
  Hw.cluster_setCluster_other a h _
theorem onlyClusters_setReq (a : Hw) (t k : Nat) (f : Cluster → Cluster) : OnlyClusters a (setReq a t k f) := rfl

/-- What a request leaves in a cluster, but for the transition it may begin. -/
theorem setReq_keeps {α : Type} (read : Cluster → α) (same : ∀ c cycles at' goal, read { c with cycles := cycles, cycleAt := at', goal := goal } = read c)
    (a : Hw) (t k : Nat) (f : Cluster → Cluster) : read ((setReq a t k f).cluster k) = read (f (a.cluster k)) := by
  rw [cluster_setReq]
  split
  · exact retarget_keeps read same ..
  · rfl

theorem pstateTransitionDone_rules (k : Nat) (s : State) : ((s.hw.cluster k).goal = none → Holds (.pstateTransitionDone k) s) ∧
    ∀ g u, (s.hw.cluster k).goal = some (g, u) → (s.time < u → Holds (.pstateTransitionDone k) s) ∧
      (u ≤ s.time → (s.hw.cluster k).offSince = none → ∃ t, exec (.pstateTransitionDone k) s = .next t ∧ Quiet s t ∧ (t.hw.cluster k).cur = g ∧
        (t.hw.cluster k).trans = ((s.hw.cluster k).trans + 1) % 2 ^ 32 ∧ effState (t.hw.cluster k) = effState (s.hw.cluster k) ∧
        (effState (s.hw.cluster k) = g → (t.hw.cluster k).goal = none) ∧ ∀ j, j ≠ k → t.hw.cluster j = s.hw.cluster j) := by
  have run : exec (.pstateTransitionDone k) s = execPstateTransitionDone k s := rfl
  unfold execPstateTransitionDone at run
  refine ⟨fun still => by rw [still] at run; exact run, fun g u goal => ⟨fun early => ?_, fun due up => ?_⟩⟩
  · rw [goal] at run
    exact run.trans (if_pos early)
  · rw [goal] at run
    let c : Cluster := { s.hw.cluster k with goal := none, cur := g, trans := ((s.hw.cluster k).trans + 1) % 2 ^ 32 }
    have new : (s.hw.setCluster k (endTransition s.time)).cluster k = retarget u c := by
      rw [Hw.cluster_setCluster_same, endTransition, goal]
      exact if_neg (by simp [Nat.not_lt.2 due, up])
    refine ⟨_, run.trans (if_neg (Nat.not_lt.2 due)), quiet_with rfl rfl, ?_, ?_, ?_, fun there => ?_, fun j hj => Hw.cluster_setCluster_other _ hj _⟩
    · exact (congrArg Cluster.cur new).trans (retarget_keeps (·.cur) (fun _ _ _ _ => rfl) u c)
    · exact (congrArg Cluster.trans new).trans (retarget_keeps (·.trans) (fun _ _ _ _ => rfl) u c)
    · exact (congrArg effState new).trans (retarget_keeps effState (fun _ _ _ _ => rfl) u c)
    · exact (congrArg Cluster.goal new).trans (congrArg Cluster.goal ((retarget_goal u rfl).1 there))

theorem thermalCap_rules (k temp : Nat) (s : State) (small : k < 216) : ∃ t, exec (.thermalCap k temp) s = .next t ∧ Quiet s t ∧
    (105 ≤ temp → (t.hw.cluster k).thot = true) ∧ (temp ≤ 100 → (t.hw.cluster k).thot = false) ∧
    (100 < temp → temp < 105 → (t.hw.cluster k).thot = (s.hw.cluster k).thot) ∧
    (t.hw.cluster k).req = (s.hw.cluster k).req ∧ (t.hw.cluster k).cur = (s.hw.cluster k).cur := by
  let f (c : Cluster) : Cluster := { c with thot := if 105 ≤ temp then true else if temp ≤ 100 then false else c.thot }
  have run : exec (.thermalCap k temp) s = .next (s.with (setReq s.hw s.time k f)) := if_pos small
  have thot : ((setReq s.hw s.time k f).cluster k).thot = if 105 ≤ temp then true else if temp ≤ 100 then false else (s.hw.cluster k).thot :=
    setReq_keeps (·.thot) (fun _ _ _ _ => rfl) s.hw s.time k f
  refine ⟨_, run, quiet_with rfl rfl, fun hot => thot.trans (if_pos hot), fun cool => thot.trans ?_, fun warm mild => thot.trans ?_, ?_, ?_⟩
  · rw [if_neg (by omega), if_pos cool]
  · rw [if_neg (by omega), if_neg (by omega)]
  · exact setReq_keeps (·.req) (fun _ _ _ _ => rfl) s.hw s.time k f
  · exact setReq_keeps (·.cur) (fun _ _ _ _ => rfl) s.hw s.time k f

/-- A host write that names nothing of its function counts in WINERR (19_links R364). -/
theorem noteWinErr_winerr (hw : Hw) (p : Nat) : ((noteWinErr hw p).part p).link.winerr = ((hw.part p).link.winerr + 1) % 2 ^ 32 :=
  congrArg (fun q : Part => q.link.winerr) (Hw.part_setPart_same ..)

section
variable {fn k : Nat} {v : Word} {s : State} (o : WindowOpen s fn)
include o

theorem clpstWrite_rules :
    (k < 216 → thirdPart s.hw (k / 72) = some fn → ∃ t, exec (.clpstWrite fn k v) s = .next t ∧ Quiet s t ∧
      (t.hw.cluster k).req = bits 2 0 v.toNat ∧ (t.hw.cluster k).trans = bits 63 32 v.toNat ∧ (t.hw.cluster k).cur = (s.hw.cluster k).cur ∧
      (clusterLive s.hw k = true → (s.hw.cluster k).goal = none → effState (t.hw.cluster k) ≠ (s.hw.cluster k).cur →
        (t.hw.cluster k).goal = some (effState (t.hw.cluster k),
          s.time + if onHigh (s.hw.cluster k).cur = onHigh (effState (t.hw.cluster k)) then 100 else 150))) ∧
    (216 ≤ k ∨ thirdPart s.hw (k / 72) ≠ some fn → ∃ t, exec (.clpstWrite fn k v) s = .next t ∧ Quiet s t ∧ t.hw.clusters = s.hw.clusters ∧
      (t.hw.part fn).link.winerr = ((s.hw.part fn).link.winerr + 1) % 2 ^ 32) := by
  have run := (show exec (.clpstWrite fn k v) s = execClpstWrite fn k v s from rfl).trans (windowWrite_open o _)
  refine ⟨fun small mine => ?_, fun other => ?_⟩
  · rw [if_pos ⟨small, mine⟩] at run
    let f (c : Cluster) : Cluster := { c with trans := bits 63 32 v.toNat, req := bits 2 0 v.toNat }
    have eff : effState ((setReq s.hw s.time k f).cluster k) = effState (f (s.hw.cluster k)) :=
      setReq_keeps effState (fun _ _ _ _ => rfl) s.hw s.time k f
    refine ⟨_, run, quiet_with rfl rfl, ?_, ?_, ?_, fun live idle new => ?_⟩
    · exact setReq_keeps (·.req) (fun _ _ _ _ => rfl) s.hw s.time k f
    · exact setReq_keeps (·.trans) (fun _ _ _ _ => rfl) s.hw s.time k f
    · exact setReq_keeps (·.cur) (fun _ _ _ _ => rfl) s.hw s.time k f
    · have new : effState (f (s.hw.cluster k)) ≠ (s.hw.cluster k).cur := fun same => new (eff.trans same)
      obtain ⟨⟨⟨shut, retired⟩, fail⟩, -⟩ : (((s.hw.cluster k).shut = false ∧ (s.hw.cluster k).retired = false) ∧
          (s.hw.cluster k).fail = false) ∧ bit (k / 24) s.hw.pkg.parked = false := by simpa [clusterLive] using live
      show ((setReq s.hw s.time k f).cluster k).goal = some (effState ((setReq s.hw s.time k f).cluster k), _ + if _ = onHigh
        (effState ((setReq s.hw s.time k f).cluster k)) then _ else _)
      rw [eff, cluster_setReq, if_pos live]
      exact (retarget_goal (c := f (s.hw.cluster k)) s.time idle).2 new shut retired fail
  · rw [if_neg fun both => other.elim (Nat.not_le.2 both.1) fun no => no both.2] at run
    exact ⟨_, run, quiet_with rfl rfl, rfl, noteWinErr_winerr ..⟩

theorem pwceilWrite_rules :
    (fn = 0 → bits 7 0 v.toNat ≤ 192 → ∃ t, exec (.pwceilWrite fn v) s = .next t ∧ Quiet s t ∧ t.hw.parts = s.hw.parts ∧
      t.hw.pkg.ceiling.excess = bits 63 48 v.toNat ∧
      t.hw.pkg.ceiling.staged.getD t.hw.pkg.ceiling.code = bits 7 0 v.toNat ∧ t.hw.pkg.ceiling.code = s.hw.pkg.ceiling.code) ∧
    (fn ≠ 0 ∨ 192 < bits 7 0 v.toNat → ∃ t, exec (.pwceilWrite fn v) s = .next t ∧ Quiet s t ∧ t.hw.pkg = s.hw.pkg ∧
      (t.hw.part fn).link.winerr = ((s.hw.part fn).link.winerr + 1) % 2 ^ 32) := by
  have run := (show exec (.pwceilWrite fn v) s = execPwceilWrite fn v s from rfl).trans (windowWrite_open o _)
  refine ⟨fun zero small => ?_, fun other => ?_⟩
  · rw [if_pos ⟨zero, small⟩] at run
    refine ⟨_, run, quiet_with rfl rfl, rfl, rfl, ?_, rfl⟩
    dsimp only [State.with]
    split
    · next same => exact same.symm
    · rfl
  · rw [if_neg fun both => other.elim (fun no => no both.1) fun no => Nat.not_le.2 no both.2] at run
    exact ⟨_, run, quiet_with rfl rfl, rfl, noteWinErr_winerr ..⟩

end

/-! ## The ceiling loop -/

/-- The ceiling registers at a boundary: a staged code takes effect, and measurements count from its settling on (R388, R389). -/
def ceilingTaken (x : Ceiling) (power : Nat) : Ceiling :=
  match x.staged with
  | some c => { x with code := c, staged := none, settle := 10, history := [] }
  | none => if 0 < x.settle then { x with settle := x.settle - 1 } else { x with history := (power :: x.history).take 1000 }
/-- The ceiling registers after a boundary at which the power was measured (R389). -/
def ceilingMeasured (x : Ceiling) (power : Nat) : Ceiling :=
  let y := ceilingTaken x power
  { y with last := x.last + 1000, pmeas := power % 65536, excess := if ceilingW y.code < power then (y.excess + 1) % 65536 else y.excess }
/-- A machine with other ceiling registers. -/
def Hw.putCeiling (hw : Hw) (x : Ceiling) : Hw := { hw with pkg := { hw.pkg with ceiling := x } }
/-- The caps of the live clusters change together (R388). -/
def moveCaps (hw : Hw) (t : Nat) (f : Nat → Nat) : Hw := (allLive hw).foldl (fun h k => setReq h t k fun c => { c with cap := f c.cap }) hw
/-- The live clusters are held, where the loop holds them at all (R388). -/
def holdOn (hw : Hw) (t n : Nat) : Hw := if n = 0 then hw else holdAll hw t n

theorem ceilingMeasured_spec (x : Ceiling) (power : Nat) :
    let y := ceilingMeasured x power
    let c := ceilingW (x.staged.getD x.code)
    y.last = x.last + 1000 ∧ y.pmeas = power % 65536 ∧ y.code = x.staged.getD x.code ∧ y.staged = none ∧ y.hold = x.hold ∧
      (c < power → y.excess = (x.excess + 1) % 65536) ∧ (power ≤ c → y.excess = x.excess) ∧
      (x.staged = none → x.settle = 0 → y.settle = 0 ∧ y.history = (power :: x.history).take 1000) := by
  have taken : (ceilingTaken x power).code = x.staged.getD x.code ∧ (ceilingTaken x power).staged = none ∧ (ceilingTaken x power).hold = x.hold ∧
      (ceilingTaken x power).excess = x.excess := by
    unfold ceilingTaken
    split
    · next staged => rw [staged]; exact ⟨rfl, rfl, rfl, rfl⟩
    · next staged => split <;> exact ⟨by rw [staged]; rfl, staged, rfl, rfl⟩
  obtain ⟨code, staged, hold, excess⟩ := taken
  intro y c
  have counted : y.excess = if c < power then (x.excess + 1) % 65536 else x.excess := by
    show (if ceilingW (ceilingTaken x power).code < power then ((ceilingTaken x power).excess + 1) % 65536 else (ceilingTaken x power).excess) = _
    rw [code, excess]
  refine ⟨rfl, rfl, code, staged, hold, fun above => counted.trans (if_pos above), fun below => counted.trans (if_neg (Nat.not_lt.2 below)),
    fun none' settled => ?_⟩
  have same : ceilingTaken x power = { x with history := (power :: x.history).take 1000 } := by
    unfold ceilingTaken
    rw [none']
    exact if_neg (by omega)
  show (ceilingTaken x power).settle = 0 ∧ (ceilingTaken x power).history = _
  rw [same]
  exact ⟨settled, rfl⟩

theorem exec_ceilingInterval (power : Nat) (s : State) :
    let x := s.hw.pkg.ceiling
    let y := ceilingMeasured x power
    let c := ceilingW (ceilingTaken x power).code
    exec (.ceilingInterval power) s =
      if s.time < x.last + 1000 ∨ (!s.hw.pkg.up) = true then .next s
      else if c < power then
        if ((allLive s.hw).any fun k => decide ((s.hw.cluster k).cap < 7)) = true then
          .next (s.with (holdOn ((moveCaps s.hw s.time fun n => if n < 7 then n + 1 else n).putCeiling y) s.time y.hold))
        else .next (s.with (holdAll (s.hw.putCeiling { y with hold := loopHold power c }) s.time (loopHold power c)))
      else if power + 50 ≤ c ∧ y.settle = 0 ∧ y.history ≠ [] ∧ meanAtMost y.history (c - 50) = true then
        if y.hold = 0 then .next (s.with ((moveCaps s.hw s.time fun n => n - 1).putCeiling y))
        else .next (s.with (s.hw.putCeiling { y with hold := 0 }))
      else .next (s.with (holdOn (s.hw.putCeiling y) s.time y.hold)) := rfl

/-- A cluster that is held from time t for n ns. -/
def holdFirst (t n : Nat) (c : Cluster) : Cluster := { holdClock t (t + n) c with holdTo := t + n }
theorem holdAll_eq (a : Hw) (t n : Nat) : holdAll a t n = (allLive a).foldl (fun h k => h.setCluster k (holdFirst t n)) a := rfl

theorem onlyClusters_holdAll (a : Hw) (t n : Nat) : OnlyClusters a (holdAll a t n) := by
  rw [holdAll_eq]
  exact foldl_rel OnlyClusters.refl OnlyClusters.trans (f := fun h k => h.setCluster k (holdFirst t n)) (fun _ _ => rfl) _ _
theorem onlyClusters_holdOn (a : Hw) (t n : Nat) : OnlyClusters a (holdOn a t n) := by
  unfold holdOn
  split
  · exact .refl a
  · exact onlyClusters_holdAll ..
theorem onlyClusters_moveCaps (a : Hw) (t : Nat) (f : Nat → Nat) : OnlyClusters a (moveCaps a t f) :=
  foldl_rel OnlyClusters.refl OnlyClusters.trans (fun _ _ => onlyClusters_setReq ..) _ _

theorem cap_moveCaps {a : Hw} {k : Nat} (live : k ∈ allLive a) (t : Nat) (f : Nat → Nat) :
    ((moveCaps a t f).cluster k).cap = f (a.cluster k).cap :=
  (read_foldl_cluster (·.cap) f (fun h k => setReq_keeps (·.cap) (fun _ _ _ _ => rfl) h t k fun c => { c with cap := f c.cap })
    (fun h _ _ hj => cluster_setReq_other h t hj _) (allLive_nodup a) a k).trans (if_pos live)

theorem cap_holdOn (a : Hw) (t n k : Nat) : ((holdOn a t n).cluster k).cap = (a.cluster k).cap := by
  unfold holdOn
  split
  · rfl
  · rw [holdAll_eq]
    exact (read_foldl_cluster (·.cap) id (fun h k => (congrArg Cluster.cap (h.cluster_setCluster_same k (holdFirst t n)) :))
      (fun h _ _ hj => Hw.cluster_setCluster_other h hj _) (allLive_nodup a) a k).trans (ite_self _)

theorem holdTo_holdAll {a : Hw} {k : Nat} (live : k ∈ allLive a) (t n : Nat) : ((holdAll a t n).cluster k).holdTo = t + n := by
  rw [holdAll_eq]
  exact (read_foldl_cluster (·.holdTo) (fun _ => t + n) (fun h k => congrArg Cluster.holdTo (h.cluster_setCluster_same k (holdFirst t n)))
    (fun h _ _ hj => Hw.cluster_setCluster_other h hj _) (allLive_nodup a) a k).trans (if_pos live)

/-- What a boundary of the loop leaves of machine a in machine b, with the live clusters of a (R388, R389). -/
def CeilingStep (a : Hw) (now power : Nat) (b : Hw) : Prop :=
  let x := a.pkg.ceiling
  let y := b.pkg.ceiling
  let code := x.staged.getD x.code
  let c := ceilingW code
  y.last = x.last + 1000 ∧ y.pmeas = power % 65536 ∧ y.code = code ∧ y.staged = none ∧
  (c < power → y.excess = (x.excess + 1) % 65536) ∧ (power ≤ c → y.excess = x.excess) ∧
  (c < power → (∃ k ∈ allLive a, (a.cluster k).cap < 7) → y.hold = x.hold ∧ ∀ k ∈ allLive a,
    (b.cluster k).cap = if (a.cluster k).cap < 7 then (a.cluster k).cap + 1 else (a.cluster k).cap) ∧
  (c < power → (∀ k ∈ allLive a, 7 ≤ (a.cluster k).cap) → y.hold = loopHold power c ∧
    ∀ k ∈ allLive a, (b.cluster k).holdTo = now + loopHold power c) ∧
  (x.staged = none → x.settle = 0 → power + 50 ≤ c → meanAtMost ((power :: x.history).take 1000) (c - 50) = true →
    y.hold = 0 ∧ (x.hold = 0 → ∀ k ∈ allLive a, (b.cluster k).cap = (a.cluster k).cap - 1) ∧ (x.hold ≠ 0 → b.clusters = a.clusters))

section
variable {a b : Hw} {now power n : Nat} (regs : b.pkg.ceiling = { ceilingMeasured a.pkg.ceiling power with hold := n })
include regs

/-- Above the ceiling with a cap to raise. -/
theorem ceilingStep_raised (exceeds : ceilingW (a.pkg.ceiling.staged.getD a.pkg.ceiling.code) < power) (kept : n = a.pkg.ceiling.hold)
    (low : ∃ k ∈ allLive a, (a.cluster k).cap < 7)
    (caps : ∀ k ∈ allLive a, (b.cluster k).cap = if (a.cluster k).cap < 7 then (a.cluster k).cap + 1 else (a.cluster k).cap) :
    CeilingStep a now power b := by
  obtain ⟨last, pmeas, code, staged, -, above, below, -⟩ := ceilingMeasured_spec a.pkg.ceiling power
  unfold CeilingStep
  rw [regs]
  refine ⟨last, pmeas, code, staged, above, below, fun _ _ => ⟨kept, caps⟩, fun _ all => ?_, fun _ _ far _ => absurd exceeds (by omega)⟩
  obtain ⟨k, live, small⟩ := low
  exact absurd (all k live) (Nat.not_le.2 small)

/-- Above the ceiling with every cap at its end. -/
theorem ceilingStep_held (exceeds : ceilingW (a.pkg.ceiling.staged.getD a.pkg.ceiling.code) < power)
    (holds : n = loopHold power (ceilingW (a.pkg.ceiling.staged.getD a.pkg.ceiling.code)))
    (full : ¬ ∃ k ∈ allLive a, (a.cluster k).cap < 7) (clocks : ∀ k ∈ allLive a, (b.cluster k).holdTo = now + n) : CeilingStep a now power b := by
  obtain ⟨last, pmeas, code, staged, -, above, below, -⟩ := ceilingMeasured_spec a.pkg.ceiling power
  unfold CeilingStep
  rw [regs]
  refine ⟨last, pmeas, code, staged, above, below, fun _ low => absurd low full, fun _ _ => ⟨holds, ?_⟩, fun _ _ far _ => absurd exceeds (by omega)⟩
  rw [← holds]
  exact clocks

/-- At most at the ceiling. -/
theorem ceilingStep_below (within : ¬ ceilingW (a.pkg.ceiling.staged.getD a.pkg.ceiling.code) < power)
    (eases : a.pkg.ceiling.staged = none → a.pkg.ceiling.settle = 0 → power + 50 ≤ ceilingW (a.pkg.ceiling.staged.getD a.pkg.ceiling.code) →
      meanAtMost ((power :: a.pkg.ceiling.history).take 1000) (ceilingW (a.pkg.ceiling.staged.getD a.pkg.ceiling.code) - 50) = true →
      n = 0 ∧ (a.pkg.ceiling.hold = 0 → ∀ k ∈ allLive a, (b.cluster k).cap = (a.cluster k).cap - 1) ∧
        (a.pkg.ceiling.hold ≠ 0 → b.clusters = a.clusters)) : CeilingStep a now power b := by
  obtain ⟨last, pmeas, code, staged, -, above, below, -⟩ := ceilingMeasured_spec a.pkg.ceiling power
  unfold CeilingStep
  rw [regs]
  exact ⟨last, pmeas, code, staged, above, below, fun no => absurd no within, fun no => absurd no within, eases⟩

end

/-- The machine after a boundary of the loop. -/
theorem ceilingInterval_steps {power : Nat} {s : State} (due : s.hw.pkg.ceiling.last + 1000 ≤ s.time) (up : s.hw.pkg.up = true) :
    ∃ h, exec (.ceilingInterval power) s = .next (s.with h) ∧ SameGangs s.hw h ∧ CeilingStep s.hw s.time power h := by
  have run := exec_ceilingInterval power s
  dsimp only at run
  rw [if_neg (by rw [up]; rintro (early | off); exacts [Nat.not_lt.2 due early, Bool.false_ne_true off])] at run
  obtain ⟨-, -, code, -, hold, -, -, settled⟩ := ceilingMeasured_spec s.hw.pkg.ceiling power
  have code' : (ceilingTaken s.hw.pkg.ceiling power).code = s.hw.pkg.ceiling.staged.getD s.hw.pkg.ceiling.code := code
  rw [code'] at run
  have low : ((allLive s.hw).any fun k => decide ((s.hw.cluster k).cap < 7)) = true ↔ ∃ k ∈ allLive s.hw, (s.hw.cluster k).cap < 7 := by simp
  by_cases exceeds : ceilingW (s.hw.pkg.ceiling.staged.getD s.hw.pkg.ceiling.code) < power
  · rw [if_pos exceeds] at run
    by_cases some' : ∃ k ∈ allLive s.hw, (s.hw.cluster k).cap < 7
    · rw [if_pos (low.2 some')] at run
      have moved := (onlyClusters_moveCaps s.hw s.time fun n => if n < 7 then n + 1 else n).sameGangs
      have held := onlyClusters_holdOn ((moveCaps s.hw s.time fun n => if n < 7 then n + 1 else n).putCeiling
        (ceilingMeasured s.hw.pkg.ceiling power)) s.time (ceilingMeasured s.hw.pkg.ceiling power).hold
      refine ⟨_, run, SameGangs.trans (b := (moveCaps s.hw s.time fun n => if n < 7 then n + 1 else n).putCeiling _) moved held.sameGangs,
        ceilingStep_raised (congrArg Pkg.ceiling held.pkg) exceeds hold some' fun k live => ?_⟩
      exact (cap_holdOn ..).trans (cap_moveCaps live s.time fun n => if n < 7 then n + 1 else n)
    · rw [if_neg (mt low.1 some')] at run
      have held := onlyClusters_holdAll (s.hw.putCeiling { ceilingMeasured s.hw.pkg.ceiling power with
        hold := loopHold power (ceilingW (s.hw.pkg.ceiling.staged.getD s.hw.pkg.ceiling.code)) }) s.time
        (loopHold power (ceilingW (s.hw.pkg.ceiling.staged.getD s.hw.pkg.ceiling.code)))
      exact ⟨_, run, held.sameGangs, ceilingStep_held (congrArg Pkg.ceiling held.pkg) exceeds rfl some' fun k live =>
        holdTo_holdAll (a := s.hw.putCeiling { ceilingMeasured s.hw.pkg.ceiling power with
          hold := loopHold power (ceilingW (s.hw.pkg.ceiling.staged.getD s.hw.pkg.ceiling.code)) }) live s.time _⟩
  · rw [if_neg exceeds] at run
    split at run
    · next far =>
      split at run
      · next free =>
        exact ⟨_, run, (onlyClusters_moveCaps s.hw s.time fun n => n - 1).sameGangs, ceilingStep_below rfl exceeds fun _ _ _ _ =>
          ⟨free, fun _ k live => cap_moveCaps live s.time fun n => n - 1, fun no => absurd (hold.symm.trans free) no⟩⟩
      · next free =>
        exact ⟨_, run, ⟨rfl, rfl⟩, ceilingStep_below rfl exceeds fun _ _ _ _ => ⟨rfl, fun no => absurd (hold.trans no) free, fun _ => rfl⟩⟩
    · next far =>
      have held := onlyClusters_holdOn (s.hw.putCeiling (ceilingMeasured s.hw.pkg.ceiling power)) s.time (ceilingMeasured s.hw.pkg.ceiling power).hold
      refine ⟨_, run, held.sameGangs, ceilingStep_below (congrArg Pkg.ceiling held.pkg) exceeds fun none' settle margin mean => absurd ?_ far⟩
      obtain ⟨settle', history⟩ := settled none' settle
      rw [settle', history]
      exact ⟨margin, rfl, List.cons_ne_nil _ _, mean⟩

theorem ceilingInterval_holds {power : Nat} {s : State} (wait : s.time < s.hw.pkg.ceiling.last + 1000 ∨ s.hw.pkg.up = false) :
    Holds (.ceilingInterval power) s :=
  (exec_ceilingInterval power s).trans (if_pos (wait.imp_right fun down => by rw [down]; rfl))

/-- Settles O49: the loop's branches by the registers and caps each leaves, states by the transition that a change of request begins. -/
theorem powerStates : Obligations.PowerStates :=
  ⟨fun power s => ⟨ceilingInterval_holds, fun due up => by
      obtain ⟨h, run, ⟨gangs, blocks⟩, moved⟩ := ceilingInterval_steps due up
      exact ⟨_, run, quiet_with gangs blocks, moved⟩⟩,
    pstateTransitionDone_rules, thermalCap_rules, fun _ _ _ _ o => clpstWrite_rules o, fun _ _ _ o => pwceilWrite_rules o⟩

end Sys2Proof.Machine
end

section
/-! SUPPORT. Parking, over-current and the thermal cut (20_power R392-R397). -/

namespace Sys2Proof.Machine

open Sys2Proof

/-! ## Bits of sums and differences -/

/-- Numbers that share no bit add without carries. -/
theorem add_eq_or_of_disjoint {a b : Nat} (apart : a &&& b = 0) : a + b = a ||| b := by
  have small : ∀ n, n ≤ a + b → n < 2 ^ (a + b + 1) := fun n hn => (Nat.lt_succ_of_le hn).trans Nat.lt_two_pow_self
  have sum := BitVec.add_eq_or_of_and_eq_zero (BitVec.ofNat (a + b + 1) a) (BitVec.ofNat (a + b + 1) b)
    (by rw [← BitVec.ofNat_and, apart])
  rw [← BitVec.ofNat_add, ← BitVec.ofNat_or] at sum
  have nat := congrArg BitVec.toNat sum
  rwa [BitVec.toNat_ofNat, BitVec.toNat_ofNat, Nat.mod_eq_of_lt (small _ (Nat.le_refl _)), Nat.mod_eq_of_lt
    (Nat.or_lt_two_pow (small a (Nat.le_add_right a b)) (small b (Nat.le_add_left b a)))] at nat

theorem testBit_add_of_disjoint {a b : Nat} (apart : ∀ k, a.testBit k = true → b.testBit k = false) (k : Nat) :
    (a + b).testBit k = (a.testBit k || b.testBit k) := by
  rw [add_eq_or_of_disjoint, Nat.testBit_or]
  refine Nat.eq_of_testBit_eq fun i => ?_
  rw [Nat.testBit_and, Nat.zero_testBit]
  cases ha : a.testBit i with
  | false => rfl
  | true => rw [apart i ha, Bool.and_false]

theorem testBit_sub_of_subset {a b : Nat} (within : ∀ k, b.testBit k = true → a.testBit k = true) (k : Nat) :
    (a - b).testBit k = (a.testBit k && !b.testBit k) := by
  have parts : (a ^^^ b) + b = a := by
    rw [add_eq_or_of_disjoint]
    all_goals
      refine Nat.eq_of_testBit_eq fun i => ?_
      have := within i
      cases hb : b.testBit i <;> cases ha : a.testBit i <;> simp_all
  rw [show a - b = a ^^^ b by omega, Nat.testBit_xor]
  have := within k
  cases hb : b.testBit k <;> cases ha : a.testBit k <;> simp_all

theorem testBit_add_two_pow {a d : Nat} (clear : a.testBit d = false) (k : Nat) : (a + 2 ^ d).testBit k = (decide (k = d) || a.testBit k) := by
  rw [testBit_add_of_disjoint, Nat.testBit_two_pow, Bool.or_comm]
  · exact congrArg (· || _) (decide_eq_decide.2 eq_comm)
  · intro i hi
    rw [Nat.testBit_two_pow]
    exact decide_eq_false fun same => Bool.false_ne_true (clear.symm.trans (same ▸ hi))

theorem testBit_sub_two_pow {a d : Nat} (set : a.testBit d = true) (k : Nat) : (a - 2 ^ d).testBit k = (decide (k ≠ d) && a.testBit k) := by
  rw [testBit_sub_of_subset, Nat.testBit_two_pow, Bool.and_comm]
  · rw [decide_not, show decide (d = k) = decide (k = d) from decide_eq_decide.2 eq_comm]
  · intro i hi
    rw [Nat.testBit_two_pow] at hi
    exact of_decide_eq_true hi ▸ set

/-! ## Parking -/

theorem parkctlWrite_rules {fn : Nat} {v : Word} {s : State} (o : WindowOpen s fn) :
    ∃ t, exec (.parkctlWrite fn v) s = .next t ∧ Quiet s t ∧ t.hw.clusters = s.hw.clusters ∧
      ∀ d, d < 9 → (bit d (partDies s.hw fn) = true → bit d t.hw.pkg.parkReq = bit d v.toNat) ∧
        (bit d (partDies s.hw fn) = false → bit d t.hw.pkg.parkReq = bit d s.hw.pkg.parkReq) := by
  let m := partDies s.hw fn
  let r := bits 8 0 v.toNat
  let h := if (r &&& m) = r then s.hw else noteWinErr s.hw fn
  let a := s.hw.pkg.parkReq
  have run : exec (.parkctlWrite fn v) s = .next (s.with { h with pkg := { h.pkg with parkReq := h.pkg.parkReq - (h.pkg.parkReq &&& m) + (r &&& m) } }) :=
    (show exec (.parkctlWrite fn v) s = execParkctlWrite fn v s from rfl).trans (windowWrite_open o _)
  have same : SameGangs s.hw h ∧ h.clusters = s.hw.clusters ∧ h.pkg = s.hw.pkg := by
    simp only [h]
    split <;> exact ⟨⟨rfl, rfl⟩, rfl, rfl⟩
  obtain ⟨⟨gangs, blocks⟩, clusters, pkg⟩ := same
  have left : ∀ k, (a - (a &&& m)).testBit k = (a.testBit k && !m.testBit k) := by
    intro k
    rw [testBit_sub_of_subset fun i hi => ?_, Nat.testBit_and]
    · cases a.testBit k <;> rfl
    · rw [Nat.testBit_and] at hi
      exact (Bool.and_eq_true_iff.1 hi).1
  have new : ∀ k, (a - (a &&& m) + (r &&& m)).testBit k = if m.testBit k = true then r.testBit k else a.testBit k := by
    intro k
    rw [testBit_add_of_disjoint, left, Nat.testBit_and]
    · cases m.testBit k <;> simp
    · intro i hi
      rw [left] at hi
      rw [Nat.testBit_and, Bool.eq_false_of_not_eq_true' (Bool.and_eq_true_iff.1 hi).2, Bool.and_false]
  refine ⟨_, run, quiet_with gangs blocks, clusters, fun d hd => ?_⟩
  have read : bit d (h.pkg.parkReq - (h.pkg.parkReq &&& m) + (r &&& m)) = if m.testBit d = true then r.testBit d else a.testBit d := by
    rw [pkg]
    exact new d
  refine ⟨fun mine => read.trans ((if_pos mine).trans ?_), fun other => read.trans (if_neg (ne_true_of_eq_false other))⟩
  show (v.toNat >>> 0 % 2 ^ 9).testBit d = v.toNat.testBit d
  rw [testBit_mod_of_lt hd, Nat.shiftRight_zero]

/-- Whether a die may park (R393). -/
def canPark (die : Nat) (s : State) : Bool :=
  decide (die < 9) && bit die s.hw.pkg.parkReq && !bit die s.hw.pkg.parked && (dieClusters die).all fun k =>
    (s.hw.cluster k).trace.isEmpty && (clusterCores k).all fun c =>
      banksEmpty s.hw c && (s.hw.core c).acctag.all fun t => t.2.state == 0 || t.2.state == 2

/-- The machine in which a die has just been parked. -/
def withParked (hw : Hw) (die : Nat) : Hw := { hw with pkg := { hw.pkg with parked := hw.pkg.parked + 2 ^ die } }

theorem exec_diePark (die : Nat) (s : State) : exec (.diePark die) s = .next (if (!canPark die s) = true then s
    else s.with ((dieClusters die).foldl (fun h k => h.setCluster k (stopSlots s.time)) (withParked s.hw die))) := rfl

theorem diePark_parks {die : Nat} {s : State} (small : die < 9) (asked : bit die s.hw.pkg.parkReq = true) (up : bit die s.hw.pkg.parked = false)
    (idle : ∀ k ∈ dieClusters die, (s.hw.cluster k).trace = [] ∧ ∀ c ∈ clusterCores k, banksEmpty s.hw c = true ∧
      ∀ t ∈ (s.hw.core c).acctag, t.2.state = 0 ∨ t.2.state = 2) :
    ∃ t, exec (.diePark die) s = .next t ∧ Quiet s t ∧ t.hw.cores = s.hw.cores ∧
      ∀ d, bit d t.hw.pkg.parked = (decide (d = die) || bit d s.hw.pkg.parked) := by
  have can : canPark die s = true := by
    simp only [canPark, small, asked, up, decide_true, Bool.not_false, Bool.and_self, Bool.true_and, List.all_eq_true, Bool.and_eq_true,
      List.isEmpty_iff, Bool.or_eq_true, beq_iff_eq]
    exact idle
  have run := exec_diePark die s
  rw [if_neg (by rw [can]; exact Bool.false_ne_true)] at run
  have stopped : OnlyClusters (withParked s.hw die) ((dieClusters die).foldl (fun h k => h.setCluster k (stopSlots s.time)) (withParked s.hw die)) :=
    foldl_rel OnlyClusters.refl OnlyClusters.trans (f := fun h k => h.setCluster k (stopSlots s.time)) (fun _ _ => rfl) _ _
  refine ⟨_, run, quiet_with stopped.sameGangs.1 stopped.sameGangs.2, ?_, fun d => ?_⟩
  · dsimp only [State.with]
    rw [stopped]
    rfl
  · dsimp only [State.with]
    rw [stopped.pkg]
    exact testBit_add_two_pow up d

theorem diePark_holds {die : Nat} {s : State} (not : bit die s.hw.pkg.parkReq = false ∨ bit die s.hw.pkg.parked = true) : Holds (.diePark die) s := by
  have cannot : canPark die s = false := by
    obtain off | off := not <;> simp [canPark, off]
  exact (exec_diePark die s).trans (congrArg _ (if_pos (by rw [cannot]; rfl)))

/-- A core as a die that comes back has it (R393). -/
def freshCore (x : Core) : Core := { x with units := [], acctag := [], tiles := [], syncs := [], seen := [] }
/-- A cluster as a die that comes back has it (R393). -/
def freshCluster (t : Nat) (c : Cluster) : Cluster := if c.shut || c.retired || c.fail then c else { startSlots t c with cur := 7, goal := none }
/-- One cluster of a die comes back. -/
def unparkCluster (t : Nat) (h : Hw) (k : Nat) : Hw := setReq ((clusterCores k).foldl (fun h c => h.setCore c freshCore) h) t k (freshCluster t)

theorem exec_dieUnpark (die : Nat) (s : State) : exec (.dieUnpark die) s = if (!bit die s.hw.pkg.parked || bit die s.hw.pkg.parkReq) = true then .next s
    else .next (s.with ((dieClusters die).foldl (unparkCluster s.time) { s.hw with pkg := { s.hw.pkg with parked := s.hw.pkg.parked - 2 ^ die } })) := rfl

/-- What each change brings about and no other undoes holds of all at the end. -/
theorem foldl_each {α β : Type} {f : α → β → α} (Q : α → β → Prop) (does : ∀ a x, Q (f a x) x) (keeps : ∀ a x y, Q a y → Q (f a x) y)
    (xs : List β) (a : α) : ∀ y, y ∈ xs ∨ Q a y → Q (xs.foldl f a) y := by
  induction xs generalizing a with
  | nil => exact fun y h => h.resolve_left List.not_mem_nil
  | cons x xs ih =>
    intro y h
    refine ih (f a x) y ?_
    obtain mem | already := h
    · obtain rfl | mem := List.mem_cons.1 mem
      · exact .inr (does a y)
      · exact .inl mem
    · exact .inr (keeps a x y already)

theorem Hw.core_setCore_other (a : Hw) {k j : Nat} (h : j ≠ k) (f : Core → Core) : (a.setCore k f).core j = a.core j :=
  (Tab.val_ins ..).trans (if_neg h)

/-- Whether a core is as reset but for its banks. -/
def Fresh (h : Hw) (c : Nat) : Prop := (h.core c).units = [] ∧ (h.core c).acctag = [] ∧ (h.core c).syncs = []

theorem fresh_setCore (h : Hw) (c : Nat) : Fresh (h.setCore c freshCore) c := by
  unfold Fresh
  rw [Hw.core_setCore_same]
  exact ⟨rfl, rfl, rfl⟩

theorem fresh_setCore_keeps (h : Hw) (c d : Nat) (fresh : Fresh h d) : Fresh (h.setCore c freshCore) d := by
  by_cases same : d = c
  · rw [same]
    exact fresh_setCore h c
  · unfold Fresh
    rw [Hw.core_setCore_other h same]
    exact fresh

theorem fresh_unparkCluster (t : Nat) (h : Hw) (k c : Nat) (which : c ∈ clusterCores k ∨ Fresh h c) : Fresh (unparkCluster t h k) c :=
  foldl_each Fresh fresh_setCore fresh_setCore_keeps (clusterCores k) h c which

theorem foldl_setCore_clusters (f : Core → Core) (cs : List Nat) (h : Hw) : (cs.foldl (fun h c => h.setCore c f) h).clusters = h.clusters ∧
    (cs.foldl (fun h c => h.setCore c f) h).pkg = h.pkg ∧ SameGangs h (cs.foldl (fun h c => h.setCore c f) h) := by
  induction cs generalizing h with
  | nil => exact ⟨rfl, rfl, .refl h⟩
  | cons c cs ih =>
    obtain ⟨clusters, pkg, gangs⟩ := ih (h.setCore c f)
    exact ⟨clusters, pkg, gangs⟩

theorem unparkCluster_frame (t : Nat) (h : Hw) (k : Nat) : (unparkCluster t h k).pkg = h.pkg ∧ SameGangs h (unparkCluster t h k) ∧
    ∀ j, j ≠ k → (unparkCluster t h k).cluster j = h.cluster j := by
  obtain ⟨clusters, pkg, gangs⟩ := foldl_setCore_clusters freshCore (clusterCores k) h
  refine ⟨pkg, gangs, fun j hj => (cluster_setReq_other _ t hj _).trans ?_⟩
  rw [Hw.cluster, clusters, Hw.cluster]

theorem unpark_fresh (t : Nat) (ks : List Nat) (a : Hw) {k c : Nat} (hk : k ∈ ks) (hc : c ∈ clusterCores k) : Fresh (ks.foldl (unparkCluster t) a) c :=
  foldl_each (f := unparkCluster t) (fun h k => ∀ c ∈ clusterCores k, Fresh h c) (fun h k c hc => fresh_unparkCluster t h k c (.inl hc))
    (fun h x _ fresh c hc => fresh_unparkCluster t h x c (.inr (fresh c hc))) ks a k (.inl hk) c hc

/-- The failure marks of a cluster and its state. -/
def marks (c : Cluster) : Bool × Bool × Bool × Nat := (c.shut, c.retired, c.fail, c.cur)

theorem marks_unparkCluster (t : Nat) (h : Hw) (k : Nat) : marks ((unparkCluster t h k).cluster k) =
    if ((marks (h.cluster k)).1 || (marks (h.cluster k)).2.1 || (marks (h.cluster k)).2.2.1) = true then marks (h.cluster k)
    else ((marks (h.cluster k)).1, (marks (h.cluster k)).2.1, (marks (h.cluster k)).2.2.1, 7) := by
  obtain ⟨clusters, -, -⟩ := foldl_setCore_clusters freshCore (clusterCores k) h
  have cluster : ((clusterCores k).foldl (fun h c => h.setCore c freshCore) h).cluster k = h.cluster k := by rw [Hw.cluster, clusters, Hw.cluster]
  refine (setReq_keeps marks (fun _ _ _ _ => rfl) _ t k _).trans ?_
  rw [cluster]
  unfold freshCluster
  show marks (if ((h.cluster k).shut || (h.cluster k).retired || (h.cluster k).fail) = true then _ else _) =
    if ((h.cluster k).shut || (h.cluster k).retired || (h.cluster k).fail) = true then _ else _
  split
  · rfl
  · unfold startSlots
    split <;> rfl

theorem dieClusters_nodup (die : Nat) : (dieClusters die).Nodup := List.nodup_range.map (add_right_injective _)

theorem dieUnpark_rules {die : Nat} {s : State} (parked : bit die s.hw.pkg.parked = true) (clear : bit die s.hw.pkg.parkReq = false) :
    ∃ t, exec (.dieUnpark die) s = .next t ∧ Quiet s t ∧ (∀ d, bit d t.hw.pkg.parked = (decide (d ≠ die) && bit d s.hw.pkg.parked)) ∧
      ∀ k ∈ dieClusters die, (∀ c ∈ clusterCores k, (t.hw.core c).units = [] ∧ (t.hw.core c).acctag = [] ∧ (t.hw.core c).syncs = []) ∧
        ((s.hw.cluster k).shut = false → (s.hw.cluster k).retired = false → (s.hw.cluster k).fail = false → (t.hw.cluster k).cur = 7) := by
  have run := exec_dieUnpark die s
  rw [if_neg (by rw [parked, clear]; exact Bool.false_ne_true)] at run
  generalize hb : ({ s.hw with pkg := { s.hw.pkg with parked := s.hw.pkg.parked - 2 ^ die } } : Hw) = b at run
  have frame : ((dieClusters die).foldl (unparkCluster s.time) b).pkg = b.pkg ∧ SameGangs b ((dieClusters die).foldl (unparkCluster s.time) b) := by
    refine List.foldlRecOn _ _ (motive := fun h => h.pkg = b.pkg ∧ SameGangs b h) ⟨rfl, .refl b⟩ fun h ih k _ => ?_
    obtain ⟨pkg, gangs, -⟩ := unparkCluster_frame s.time h k
    exact ⟨pkg.trans ih.1, ih.2.trans gangs⟩
  obtain ⟨pkg, gangs, blocks⟩ := frame
  have start : b.gangs = s.hw.gangs ∧ b.blocks = s.hw.blocks ∧ b.pkg.parked = s.hw.pkg.parked - 2 ^ die ∧ ∀ k, b.cluster k = s.hw.cluster k := by
    rw [← hb]
    exact ⟨rfl, rfl, rfl, fun _ => rfl⟩
  obtain ⟨gangs0, blocks0, parked0, cluster0⟩ := start
  have fresh : ∀ k ∈ dieClusters die, ∀ c ∈ clusterCores k, Fresh ((dieClusters die).foldl (unparkCluster s.time) b) c := fun k hk c hc =>
    unpark_fresh s.time (dieClusters die) b hk hc
  have read := read_foldl_cluster marks (fun m => if (m.1 || m.2.1 || m.2.2.1) = true then m else (m.1, m.2.1, m.2.2.1, 7))
    (marks_unparkCluster s.time) (fun h k j hj => (unparkCluster_frame s.time h k).2.2 j hj) (dieClusters_nodup die) b
  generalize (dieClusters die).foldl (unparkCluster s.time) b = r at *
  refine ⟨_, run, quiet_with (gangs.trans gangs0) (blocks.trans blocks0), fun d => ?_, fun k hk => ⟨fresh k hk, fun shut retired fail => ?_⟩⟩
  · dsimp only [State.with]
    rw [pkg, parked0]
    exact testBit_sub_two_pow parked d
  · have mine := read k
    rw [if_pos hk, cluster0] at mine
    have sound : ((s.hw.cluster k).shut || (s.hw.cluster k).retired || (s.hw.cluster k).fail) = false := by rw [shut, retired, fail]; rfl
    exact (congrArg (·.2.2.2) mine).trans (congrArg (fun m : Bool × Bool × Bool × Nat => m.2.2.2) (if_neg (ne_true_of_eq_false sound)))

/-! ## Lost clusters -/

/-- Machine b is machine a after cores for which C holds have lost what they held (R394). -/
structure LostCores (C : Nat → Prop) (a b : Hw) : Prop where
  pkg : ∃ l, b.pkg = { a.pkg with lostBlocks := l }
  kept : ∀ gk, ¬ C (gkCore gk) → b.gangs.look gk = a.gangs.look gk
  gone : ∀ gk n, C (gkCore gk) → (a.image (gkCore gk) (gkCtx gk)).place = .bank n → b.gangs.look gk = none
  stays : ∀ gk, a.gangs.look gk = none → b.gangs.look gk = none
  images : ∀ c x, x < 65536 → ¬ C c → b.image c x = a.image c x

theorem gkCtx_lt (gk : Nat) : gkCtx gk < 65536 := Nat.mod_lt _ (by decide)

theorem LostCores.trans {C D : Nat → Prop} {a b c : Hw} (h : LostCores C a b) (k : LostCores D b c) : LostCores (fun x => C x ∨ D x) a c := by
  obtain ⟨l, first⟩ := h.pkg
  obtain ⟨m, second⟩ := k.pkg
  refine ⟨⟨m, by rw [second, first]⟩, fun gk no => ?_, fun gk n some' place => ?_, fun gk none' => k.stays gk (h.stays gk none'), fun x i hi no => ?_⟩
  · exact (k.kept gk fun d => no (.inr d)).trans (h.kept gk fun c => no (.inl c))
  · by_cases first : C (gkCore gk)
    · exact k.stays gk (h.gone gk n first place)
    · exact k.gone gk n (some'.resolve_left first) (by rw [h.images _ _ (gkCtx_lt gk) first]; exact place)
  · exact (k.images x i hi fun d => no (.inr d)).trans (h.images x i hi fun c => no (.inl c))

theorem LostCores.congr {C D : Nat → Prop} {a b : Hw} (h : LostCores C a b) (same : ∀ x, C x ↔ D x) : LostCores D a b := by
  obtain rfl : C = D := funext fun x => propext (same x)
  exact h

theorem lostCores_of_same {a b : Hw} (pkg : b.pkg = a.pkg) (gangs : b.gangs = a.gangs) (images : b.images = a.images) : LostCores (fun _ => False) a b :=
  ⟨⟨a.pkg.lostBlocks, pkg⟩, fun _ _ => by rw [gangs], fun _ _ no => no.elim, fun _ none' => by rw [gangs]; exact none',
    fun _ _ _ _ => by rw [Hw.image, images, Hw.image]⟩

theorem look_filter_of_kept {α : Type} {f : Nat × α → Bool} {t : Tab α} {k : Nat} (kept : ∀ v, f (k, v) = true) : Tab.look (t.filter f) k = t.look k := by
  induction t with
  | nil => rfl
  | cons x t ih =>
    obtain ⟨i, v⟩ := x
    rw [List.filter_cons]
    by_cases here : i = k
    · subst here
      rw [if_pos (kept v)]
      simp [Tab.look]
    · have skip : Tab.look ((i, v) :: t) k = Tab.look t k := by simp [Tab.look, here]
      rw [skip]
      split
      · rw [← ih]
        simp [Tab.look, here]
      · exact ih

theorem loseCore_lost (a : Hw) (core : Nat) : LostCores (· = core) a (loseCore a core) := by
  have gangs : ∀ gk, (loseCore a core).gangs.look gk = if (!(gkCore gk == core &&
      (match (a.image core (gkCtx gk)).place with | .bank _ => true | _ => false))) = true then a.gangs.look gk else none := fun gk => look_filter_keys (fun gk =>
    !(gkCore gk == core && (match (a.image core (gkCtx gk)).place with | .bank _ => true | _ => false))) a.gangs gk
  refine ⟨⟨_, rfl⟩, fun gk other => (gangs gk).trans (if_pos (by simp [other])), fun gk n same place => (gangs gk).trans (if_neg ?_),
    fun gk none' => (gangs gk).trans (by rw [none', ite_self]), fun c x hx other => ?_⟩
  · rw [← same, place]
    simp
  · have key : imgKey c x / 65536 = c := by unfold imgKey; omega
    have far : (imgKey c x / 65536 == core) = false := by rw [key]; simpa using other
    have look : (loseCore a core).images.look (imgKey c x) = a.images.look (imgKey c x) := look_filter_of_kept fun v => by simp [far]
    rw [Hw.image, Tab.val, look]
    rfl

theorem loseCores_lost (cs : List Nat) (a : Hw) : LostCores (· ∈ cs) a (cs.foldl loseCore a) ∧ (cs.foldl loseCore a).clusters = a.clusters := by
  induction cs generalizing a with
  | nil => exact ⟨(lostCores_of_same rfl rfl rfl).congr fun x => by simp, rfl⟩
  | cons c cs ih =>
    obtain ⟨lost, clusters⟩ := ih (loseCore a c)
    exact ⟨((loseCore_lost a c).trans lost).congr fun x => List.mem_cons.symm, clusters⟩

theorem loseTrace_lost (a : Hw) (p t k : Nat) : LostCores (fun _ => False) a (loseTrace a p t k) ∧ ((loseTrace a p t k).cluster k).trace = [] ∧
    ∀ j, j ≠ k → (loseTrace a p t k).cluster j = a.cluster j := by
  unfold loseTrace
  dsimp only
  split
  · exact ⟨lostCores_of_same rfl rfl rfl, congrArg Cluster.trace (a.cluster_setCluster_same k fun c => { c with trace := [] }),
      fun j hj => (Hw.cluster_setCluster_other a hj fun c => { c with trace := [] } :)⟩
  · exact ⟨lostCores_of_same rfl rfl rfl, congrArg Cluster.trace (a.cluster_setCluster_same k fun c => { c with trace := [] }),
      fun j hj => (Hw.cluster_setCluster_other a hj fun c => { c with trace := [] } :)⟩

/-- A cluster that is lost (R394): its cores lose what they hold, and its trace records are gone. -/
theorem loseCluster_spec (a : Hw) (t k : Nat) (f : Cluster → Cluster) :
    LostCores (· ∈ clusterCores k) a (loseCluster a t k f) ∧ (∀ j, j ≠ k → (loseCluster a t k f).cluster j = a.cluster j) ∧
    ∃ c, (loseCluster a t k f).cluster k = { stopSlots t (f c) with goal := none } ∧ ((thirdPart a (k / 72)).isSome = true → c.trace = []) := by
  obtain ⟨lost, clusters⟩ := loseCores_lost (clusterCores k) a
  let b := (clusterCores k).foldl loseCore a
  obtain ⟨l, pkg⟩ := lost.pkg
  have third : thirdPart b (k / 72) = thirdPart a (k / 72) := by rw [thirdPart, thirdPart, pkg]
  have traced : ∃ h, (match thirdPart b (k / 72) with | some p => loseTrace b p t k | none => b) = h ∧ LostCores (fun _ => False) b h ∧
      (∀ j, j ≠ k → h.cluster j = b.cluster j) ∧ ((thirdPart a (k / 72)).isSome = true → (h.cluster k).trace = []) := by
    rw [third]
    cases thirdPart a (k / 72) with
    | none => exact ⟨b, rfl, lostCores_of_same rfl rfl rfl, fun _ _ => rfl, fun no => Bool.noConfusion no⟩
    | some p =>
      obtain ⟨same, trace, other⟩ := loseTrace_lost b p t k
      exact ⟨_, rfl, same, other, fun _ => trace⟩
  obtain ⟨h, eq, same, other, trace⟩ := traced
  have run : loseCluster a t k f = h.setCluster k fun c => { stopSlots t (f c) with goal := none } := by
    rw [← eq]
    rfl
  rw [run]
  have last : LostCores (fun _ => False) h (h.setCluster k fun c => { stopSlots t (f c) with goal := none }) := lostCores_of_same rfl rfl rfl
  refine ⟨((lost.trans same).trans last).congr fun x => by simp, fun j hj => ?_, h.cluster k,
    h.cluster_setCluster_same k _, trace⟩
  rw [Hw.cluster_setCluster_other h hj, other j hj, Hw.cluster, clusters, Hw.cluster]

/-- Clusters that are shut one after another (R394). -/
def shutClusters (t : Nat) (ks : List Nat) (a : Hw) : Hw := ks.foldl (fun h k => loseCluster h t k fun c => { c with shut := true }) a

theorem shutClusters_lost (t : Nat) (ks : List Nat) (a : Hw) : LostCores (fun c => ∃ k ∈ ks, c ∈ clusterCores k) a (shutClusters t ks a) := by
  unfold shutClusters
  induction ks generalizing a with
  | nil => exact (lostCores_of_same rfl rfl rfl).congr fun x => by simp
  | cons k ks ih => exact ((loseCluster_spec a t k _).1.trans (ih _)).congr fun x => by simp

theorem shutClusters_clusters {ks : List Nat} (once : ks.Nodup) (t : Nat) (a : Hw) :
    (∀ k ∈ ks, ((shutClusters t ks a).cluster k).shut = true ∧ ((shutClusters t ks a).cluster k).goal = none ∧
      ((thirdPart a (k / 72)).isSome = true → ((shutClusters t ks a).cluster k).trace = [])) ∧
    ∀ k, k ∉ ks → (shutClusters t ks a).cluster k = a.cluster k := by
  unfold shutClusters
  induction ks generalizing a with
  | nil => exact ⟨fun k h => absurd h List.not_mem_nil, fun _ _ => rfl⟩
  | cons x ks ih =>
    obtain ⟨fresh, once⟩ := List.nodup_cons.1 once
    obtain ⟨lost, other, c, new, trace⟩ := loseCluster_spec a t x fun c => { c with shut := true }
    obtain ⟨l, pkg⟩ := lost.pkg
    obtain ⟨done, left⟩ := ih once (loseCluster a t x fun c => { c with shut := true })
    refine ⟨fun k hk => ?_, fun k hk => ?_⟩
    · obtain rfl | hk := List.mem_cons.1 hk
      · rw [List.foldl_cons, left k fresh, new]
        exact ⟨rfl, rfl, trace⟩
      · obtain ⟨shut, goal, gone⟩ := done k hk
        exact ⟨shut, goal, fun some' => gone (by rw [thirdPart, pkg]; exact some')⟩
    · obtain ⟨ne, hk⟩ := not_or.1 (mt List.mem_cons.2 hk)
      exact (left k hk).trans (other k ne)

theorem mem_clusterCores {c k : Nat} : c ∈ clusterCores k ↔ coreCluster c = k := by
  unfold clusterCores coreCluster
  simp only [List.mem_map, List.mem_range]
  exact ⟨fun ⟨i, hi, eq⟩ => by omega, fun eq => ⟨c % 4, by omega, by omega⟩⟩

/-- The clusters of a quadrant; quad is 4 × die + quadrant. -/
def quadClusters (quad : Nat) : List Nat := (List.range 6).map fun i => 24 * (quad / 4) + 6 * (quad % 4) + i

theorem quadClusters_nodup (quad : Nat) : (quadClusters quad).Nodup := List.nodup_range.map (add_right_injective _)

/-- An over-current event of a quadrant is noted (R394). -/
def noteShut (quad : Nat) (h : Hw) : Hw := { h with pkg := { h.pkg with ocShut := h.pkg.ocShut + 2 ^ quad, ocEvents := (h.pkg.ocEvents + 1) % 65536 } }

theorem exec_overCurrent (quad : Nat) (s : State) : exec (.overCurrent quad) s =
    if 36 ≤ quad ∨ bit quad s.hw.pkg.ocShut = true ∨ (!s.hw.pkg.up) = true then .next s
    else .next (s.with (noteShut quad (shutClusters s.time (quadClusters quad) s.hw))) := rfl

theorem overCurrent_rules (quad : Nat) (s : State) :
    let ks := quadClusters quad
    (36 ≤ quad ∨ bit quad s.hw.pkg.ocShut = true ∨ s.hw.pkg.up = false → Holds (.overCurrent quad) s) ∧
    (quad < 36 → bit quad s.hw.pkg.ocShut = false → s.hw.pkg.up = true → ∃ t, exec (.overCurrent quad) s = .next t ∧ t.mem = s.mem ∧
      t.time = s.time ∧ bit quad t.hw.pkg.ocShut = true ∧ t.hw.pkg.ocEvents = (s.hw.pkg.ocEvents + 1) % 65536 ∧
      (∀ k ∈ ks, (t.hw.cluster k).shut = true ∧ (t.hw.cluster k).goal = none ∧
        ((thirdPart s.hw (k / 72)).isSome = true → (t.hw.cluster k).trace = [])) ∧
      (∀ k, k ∉ ks → t.hw.cluster k = s.hw.cluster k) ∧
      (∀ gk, coreCluster (gkCore gk) ∉ ks → t.hw.gangs.look gk = s.hw.gangs.look gk) ∧
      (∀ gk b, coreCluster (gkCore gk) ∈ ks → (s.hw.image (gkCore gk) (gkCtx gk)).place = .bank b → t.hw.gangs.look gk = none)) := by
  intro ks
  have run := exec_overCurrent quad s
  refine ⟨fun no => run.trans (if_pos (no.imp_right fun h => h.imp_right fun down => by rw [down]; rfl)), fun small on up => ?_⟩
  rw [if_neg (by simp [Nat.not_le.2 small, on, up])] at run
  have lost := shutClusters_lost s.time ks s.hw
  obtain ⟨shut, left⟩ := shutClusters_clusters (quadClusters_nodup quad) s.time s.hw
  obtain ⟨l, pkg⟩ := lost.pkg
  have mine : ∀ c, (∃ k ∈ ks, c ∈ clusterCores k) ↔ coreCluster c ∈ ks := fun c => by simp [mem_clusterCores]
  generalize shutClusters s.time (quadClusters quad) s.hw = b at *
  refine ⟨_, run, rfl, rfl, ?_, ?_, shut, left, fun gk other => lost.kept gk (mt (mine _).1 other), fun gk n here place =>
    lost.gone gk n ((mine _).2 here) place⟩
  · dsimp only [State.with, noteShut]
    rw [pkg]
    refine (testBit_add_two_pow on quad).trans ?_
    rw [decide_eq_true rfl, Bool.true_or]
  · dsimp only [State.with, noteShut]
    rw [pkg]

/-! ## The cut -/

theorem thermalCut_rules (reason chiplet quad : Nat) (s : State) :
    (s.hw.pkg.powered = false ∨ reason = 0 ∨ 2 < reason → Holds (.thermalCut reason chiplet quad) s) ∧
    (s.hw.pkg.powered = true → reason = 1 ∨ reason = 2 → ∃ t, exec (.thermalCut reason chiplet quad) s = .next t ∧ t.mem = [] ∧
      t.time = s.time ∧ t.hw.pkg.powered = false ∧ t.hw.pkg.cutValid = true ∧ t.hw.pkg.cutReason = reason ∧
      t.hw.pkg.cutChiplet = (if reason = 1 then chiplet % 32 else 0x1F) ∧ t.hw.pkg.cuts = (s.hw.pkg.cuts + 1) % 65536 ∧
      t.hw.pkg.cutTime = s.time ∧ t.hw.gangs = [] ∧ t.hw.ops = [] ∧ t.hw.launches = []) := by
  have run : exec (.thermalCut reason chiplet quad) s = execThermalCut reason chiplet quad s := rfl
  unfold execThermalCut at run
  refine ⟨fun no => run.trans (if_pos (no.imp_left fun off => by rw [off]; rfl)), fun on which => ?_⟩
  rw [if_neg (by rw [on]; rintro (off | zero | large); exacts [Bool.false_ne_true off, by omega, by omega])] at run
  exact ⟨_, run, rfl, rfl, rfl, rfl, rfl, rfl, rfl, rfl, rfl, rfl, rfl⟩

/-- Without supply only power-on reset moves the machine (R396). -/
theorem step_unpowered {s : State} (off : s.hw.pkg.powered = false) (other : isPowerOn (takeTurn s).2.1.what = false) :
    step s = .next (takeTurn s).2.2 := by
  have same : (takeTurn s).2.2.hw = s.hw := by
    unfold takeTurn
    split <;> rfl
  exact if_pos (by rw [same, off, other]; rfl)

/-- Settles O50: parking by the bits it sets, a shut quadrant by the cores and clusters that are lost, the cut by the always-on fields. -/
theorem powerLoss : Obligations.PowerLoss :=
  ⟨fun _ _ _ o => parkctlWrite_rules o, fun _ _ small asked up idle => diePark_parks small asked up idle, fun _ _ => diePark_holds,
    fun _ _ parked clear => dieUnpark_rules parked clear, overCurrent_rules, thermalCut_rules, fun _ off other => step_unpowered off other⟩

end Sys2Proof.Machine
end

section
/-! SUPPORT. Quiesce, release and reshape; routes of Orrery colours (19_links R359-R362; 22_partitions R410-R412, R415). -/

namespace Sys2Proof.Machine

open Sys2Proof

/-! ## Commands of PTCMD -/

theorem Hw.setPart_setPart (a : Hw) (p : Nat) (f g : Part → Part) : (a.setPart p f).setPart p g = a.setPart p fun q => g (f q) := by
  show { a with parts := (a.parts.ins p (f (a.part p))).ins p (g ((a.setPart p f).part p)) } = _
  rw [Hw.part_setPart_same, Tab.ins_ins_same]
  rfl

/-- Partitions read that a reshape is under way (R411). -/
def reshapeMarks (ps : List Nat) (a : Hw) : Hw := ps.foldl (fun h p => h.setPart p fun q => { q with ptstatus := 0xFF }) a

theorem reshapeMarks_spec (ps : List Nat) (a : Hw) : SameGangs a (reshapeMarks ps a) ∧ (reshapeMarks ps a).pkg = a.pkg ∧
    ∀ p, p ∈ ps ∨ (a.part p).ptstatus = 0xFF → ((reshapeMarks ps a).part p).ptstatus = 0xFF := by
  unfold reshapeMarks
  induction ps generalizing a with
  | nil => exact ⟨.refl a, rfl, fun p h => h.resolve_left List.not_mem_nil⟩
  | cons x ps ih =>
    obtain ⟨gangs, pkg, marked⟩ := ih (a.setPart x fun q => { q with ptstatus := 0xFF })
    refine ⟨gangs, pkg, fun p h => marked p ?_⟩
    by_cases same : p = x
    · rw [same, Hw.part_setPart_same]
      exact .inr rfl
    · rw [Hw.part_setPart_other same]
      exact h.imp_left fun mem => (List.mem_cons.1 mem).resolve_left same

section
variable {fn : Nat} {s : State} (o : WindowOpen s fn)
include o

theorem ptcmdQuiesce_sets : exec (.ptcmdQuiesce fn) s = .next (s.with (s.hw.setPart fn fun q => { q with ptop := 1, ptstatus := 0, quiesce := true })) := by
  refine (show exec (.ptcmdQuiesce fn) s = execPtcmdQuiesce fn s from rfl).trans ((windowWrite_open o _).trans ?_)
  rw [putCmd, Hw.setPart_setPart]

theorem ptcmdRelease_rules :
    let q := s.hw.part fn
    (q.quiesce = true → q.faulted = false → exec (.ptcmdRelease fn) s =
      .next (s.with (s.hw.setPart fn fun q => { q with ptop := 2, ptstatus := 0, quiesce := false, quiesced := false }))) ∧
    (q.quiesce = false ∨ q.faulted = true → exec (.ptcmdRelease fn) s =
      .next (s.with (s.hw.setPart fn fun q => { q with ptop := 2, ptstatus := 2 }))) := by
  intro q
  have run := (show exec (.ptcmdRelease fn) s = execPtcmdRelease fn s from rfl).trans (windowWrite_open o _)
  refine ⟨fun still sound => run.trans ?_, fun no => run.trans ?_⟩
  · rw [if_pos (by simp only [q] at still sound; rw [still, sound]; rfl), putCmd, Hw.setPart_setPart]
  · rw [if_neg]
    · rfl
    · obtain no | no := no <;> simp only [q] at no <;> simp [no]

theorem exec_ptcmdReshape : exec (.ptcmdReshape fn) s =
    let m := mapOf (s.hw.part fn).stage
    let ps := affected s.hw fn m
    .next (s.with (
      if s.hw.pkg.reshape.isSome = true then noteWinErr s.hw fn
      else if (!shapeOk m) = true then putCmd s.hw fn 3 4
      else if (ps.any fun p => (List.range 64).any (queueBusy s.hw p)) = true then putCmd s.hw fn 3 1
      else if (ps.any fun p => !(s.hw.part p).quiesced) = true then putCmd s.hw fn 3 2
      else ps.foldl (fun h p => h.setPart p fun q => { q with ptstatus := 0xFF })
        ((putCmd s.hw fn 3 0xFF).setPkg fun k => { k with reshape := some (fn, m) }))) :=
  (show exec (.ptcmdReshape fn) s = execPtcmdReshape fn s from rfl).trans (windowWrite_open o _)

/-- A reshape is refused in the order of its statuses, or begins (R411). -/
theorem ptcmdReshape_rules (free : s.hw.pkg.reshape = none) :
    let m := mapOf (s.hw.part fn).stage
    let ps := affected s.hw fn m
    (shapeOk m = false → exec (.ptcmdReshape fn) s = .next (s.with (s.hw.setPart fn fun q => { q with ptop := 3, ptstatus := 4 }))) ∧
    (shapeOk m = true → (∃ p ∈ ps, ∃ n, n < 64 ∧ queueBusy s.hw p n = true) →
      exec (.ptcmdReshape fn) s = .next (s.with (s.hw.setPart fn fun q => { q with ptop := 3, ptstatus := 1 }))) ∧
    (shapeOk m = true → (∀ p ∈ ps, ∀ n, n < 64 → queueBusy s.hw p n = false) → (∃ p ∈ ps, (s.hw.part p).quiesced = false) →
      exec (.ptcmdReshape fn) s = .next (s.with (s.hw.setPart fn fun q => { q with ptop := 3, ptstatus := 2 }))) ∧
    (shapeOk m = true → (∀ p ∈ ps, ∀ n, n < 64 → queueBusy s.hw p n = false) → (∀ p ∈ ps, (s.hw.part p).quiesced = true) →
      ∃ t, exec (.ptcmdReshape fn) s = .next t ∧ Quiet s t ∧ t.hw.pkg.reshape = some (fn, m) ∧
        ∀ p ∈ fn :: ps, (t.hw.part p).ptstatus = 0xFF) := by
  intro m ps
  have run := exec_ptcmdReshape o
  dsimp only at run
  rw [if_neg (by rw [free]; exact Bool.false_ne_true)] at run
  have busy : (ps.any fun p => (List.range 64).any (queueBusy s.hw p)) = true ↔ ∃ p ∈ ps, ∃ n, n < 64 ∧ queueBusy s.hw p n = true := by simp
  have stirs : (ps.any fun p => !(s.hw.part p).quiesced) = true ↔ ∃ p ∈ ps, (s.hw.part p).quiesced = false := by simp
  have idle : (∀ p ∈ ps, ∀ n, n < 64 → queueBusy s.hw p n = false) → ¬ (ps.any fun p => (List.range 64).any (queueBusy s.hw p)) = true := by
    intro all some'
    obtain ⟨p, hp, n, hn, yes⟩ := busy.1 some'
    exact Bool.false_ne_true ((all p hp n hn).symm.trans yes)
  have shaped : shapeOk m = true → ¬ (!shapeOk m) = true := fun yes => by rw [yes]; exact Bool.false_ne_true
  refine ⟨fun no => ?_, fun yes some' => ?_, fun yes none' some' => ?_, fun yes none' all => ?_⟩
  · rw [if_pos (by rw [no]; rfl)] at run
    exact run
  · rw [if_neg (shaped yes), if_pos (busy.2 some')] at run
    exact run
  · rw [if_neg (shaped yes), if_neg (idle none'), if_pos (stirs.2 some')] at run
    exact run
  · have still : ¬ (ps.any fun p => !(s.hw.part p).quiesced) = true := by
      intro some'
      obtain ⟨p, hp, no⟩ := stirs.1 some'
      exact Bool.false_ne_true (no.symm.trans (all p hp))
    rw [if_neg (shaped yes), if_neg (idle none'), if_neg still] at run
    let start := (putCmd s.hw fn 3 0xFF).setPkg fun k => { k with reshape := some (fn, m) }
    have first : (start.part fn).ptstatus = 0xFF :=
      congrArg Part.ptstatus (Hw.part_setPart_same s.hw fn fun q => { q with ptop := 3, ptstatus := 0xFF })
    obtain ⟨⟨gangs, blocks⟩, pkg, marked⟩ := reshapeMarks_spec ps start
    refine ⟨_, run, quiet_with gangs blocks, congrArg Pkg.reshape pkg, fun p hp => marked p ?_⟩
    obtain rfl | hp := List.mem_cons.1 hp
    · exact .inr first
    · exact .inl hp

end

theorem quiesceComplete_rules (fn : Nat) (s : State) :
    ((s.hw.part fn).quiesce = true → allEmpty s.hw fn = true →
      exec (.quiesceComplete fn) s = .next (s.with (s.hw.setPart fn fun q => { q with quiesced := true }))) ∧
    ((s.hw.part fn).quiesce = false ∨ allEmpty s.hw fn = false → Holds (.quiesceComplete fn) s) := by
  have run : exec (.quiesceComplete fn) s = .next (s.with (if ((s.hw.part fn).quiesce && allEmpty s.hw fn) = true
      then s.hw.setPart fn fun q => { q with quiesced := true } else s.hw)) := rfl
  refine ⟨fun asked empty => run.trans ?_, fun no => run.trans ?_⟩
  · rw [if_pos (by rw [asked, empty]; rfl)]
  · rw [if_neg (by obtain no | no := no <;> simp [no])]
    rfl

/-- Phobos empties a bank that has nothing left (26_prog_merge R434). -/
theorem phobosBankEmpty_empties {core bank : Nat} {s : State} {p c : Nat} (part : corePart s.hw core = some p) (ctx : bankCtx s.hw core bank = some c)
    (asked : (s.hw.part p).quiesce = true) (small : bank < 2) (records : (s.hw.image core c).records = []) (table : (s.hw.image core c).ltable = [])
    (done : workDone s.hw p core c = true) (units : ∀ u ∈ (s.hw.core core).units, u.2 ≠ bank) (calm : bankBusy (bankState s.hw core bank) = false)
    (flip : (s.hw.core core).flipAt = none) :
    ∃ t, exec (.phobosBankEmpty core bank) s = .next t ∧ Quiet s t ∧ bankCtx t.hw core bank = none ∧
      bankState t.hw core bank = .empty ∧ (t.hw.image core c).place = .away ∧ t.hw.parts = s.hw.parts := by
  have loose : ((s.hw.core core).units.any fun u => u.2 == bank) = false := by simpa using units
  have run : exec (.phobosBankEmpty core bank) s =
      .next (s.with ((emptyBank s.hw core bank).setImage core c fun i => { i with place := .away })) := by
    simp only [exec, execPhobosBankEmpty, part, ctx, asked, small, records, table, done, loose, calm, flip, decide_true, List.isEmpty_nil,
      Bool.not_false, Option.isNone_none, Bool.and_self, if_true]
  have empty : ((emptyBank s.hw core bank).core core) = _ := Hw.core_setCore_same ..
  refine ⟨_, run, quiet_with rfl rfl, ?_, ?_, congrArg Image.place (Hw.image_setImage_same ..), rfl⟩
  · show (if bank = 0 then ((emptyBank s.hw core bank).core core).ctx0 else ((emptyBank s.hw core bank).core core).ctx1) = none
    rw [empty]
    split <;> rfl
  · show (if bank = 0 then ((emptyBank s.hw core bank).core core).st0 else ((emptyBank s.hw core bank).core core).st1) = .empty
    rw [empty]
    split <;> rfl

/-! ## Routes -/

/-- Machine b is machine a but for routes, retirements and the clusters they doom; no pair has gained or lost a colour (R361). -/
structure RoutesOnly (a b : Hw) : Prop where
  rest : b = { a with pkg := b.pkg, clusters := b.clusters, free := b.free }
  pkg : ∃ x y, b.pkg = { a.pkg with orrt := x, health := y }
  low : ∀ n, bits 1 0 (b.pkg.orrt.val 3 n) = bits 1 0 (a.pkg.orrt.val 3 n)
  retired : ∀ x ∈ a.pkg.health.retired, x ∈ b.pkg.health.retired

theorem RoutesOnly.refl (a : Hw) : RoutesOnly a a := ⟨rfl, ⟨_, _, rfl⟩, fun _ => rfl, fun _ h => h⟩
theorem RoutesOnly.trans {a b c : Hw} (h : RoutesOnly a b) (k : RoutesOnly b c) : RoutesOnly a c := by
  obtain ⟨x, y, first⟩ := h.pkg
  obtain ⟨x', y', second⟩ := k.pkg
  exact ⟨by rw [k.rest, h.rest], ⟨x', y', by rw [second, first]⟩, fun n => (k.low n).trans (h.low n), fun z hz => k.retired z (h.retired z hz)⟩
theorem RoutesOnly.sameGangs {a b : Hw} (h : RoutesOnly a b) : SameGangs a b := by
  rw [h.rest]
  exact ⟨rfl, rfl⟩

theorem bits_low (n : Nat) : bits 1 0 n = n % 2 ^ 2 := by rw [bits, Nat.shiftRight_zero]

/-- A field above the colours changes none of them. -/
theorem low_setBits {lo m : Nat} (above : 2 ≤ lo) (hm : 0 < m) (v n : Nat) : bits 1 0 (setBits (lo + m - 1) lo v n) = bits 1 0 n := by
  rw [bits_low, bits_low]
  refine Nat.eq_of_testBit_eq fun i => ?_
  rw [Nat.testBit_mod_two_pow, Nat.testBit_mod_two_pow, testBit_setBits hm]
  by_cases small : i < 2
  · rw [if_neg (by omega)]
  · simp [small]

theorem kept_setOrrt (a : Hw) (i j : Nat) (f : Nat → Nat) (n : Nat) :
    (setOrrt a i j f).pkg.orrt.val 3 n = if n = 32 * i + j then f (a.pkg.orrt.val 3 (32 * i + j)) else a.pkg.orrt.val 3 n := Tab.val_put ..

theorem routesOnly_setOrrt (a : Hw) (i j : Nat) {f : Nat → Nat} (low : ∀ v, bits 1 0 (f v) = bits 1 0 v) : RoutesOnly a (setOrrt a i j f) := by
  refine ⟨rfl, ⟨_, _, rfl⟩, fun n => ?_, fun _ h => h⟩
  rw [kept_setOrrt]
  split
  · next here => rw [low, here]
  · rfl

theorem routesOnly_reroute (a : Hw) (i j : Nat) : RoutesOnly a (reroute a i j) := by
  have low : ∀ k b v, bits 1 0 (setBits 45 41 k (setBits 4 4 b v)) = bits 1 0 v := fun k b v =>
    (low_setBits (lo := 41) (m := 5) (by omega) (by omega) ..).trans (low_setBits (lo := 4) (m := 1) (by omega) (by omega) ..)
  unfold reroute
  dsimp only
  split
  · exact routesOnly_setOrrt a i j fun v => low ..
  · exact routesOnly_setOrrt a i j fun v => low ..

theorem routesOnly_clusters {a b : Hw} (h : OnlyClusters a b) : RoutesOnly a b := by
  unfold OnlyClusters at h
  rw [h]
  exact ⟨rfl, ⟨_, _, rfl⟩, fun _ => rfl, fun _ h => h⟩

theorem routesOnly_retireChiplet (a : Hw) (k : Nat) : RoutesOnly a (retireChiplet a k) := by
  have noted : RoutesOnly a (a.setPkg fun x => { x with health := { x.health with
      retired := x.health.retired ++ [(4, k)], retiredCount := (x.health.retiredCount + 1) % 65536 } }) :=
    ⟨rfl, ⟨_, _, rfl⟩, fun _ => rfl, fun _ h => List.mem_append_left _ h⟩
  unfold retireChiplet
  dsimp only
  split
  · exact noted.trans (routesOnly_clusters (foldl_rel OnlyClusters.refl OnlyClusters.trans
      (f := fun h c => h.setCluster c fun x => { x with doomed := true }) (fun _ _ => rfl) _ _))
  · exact noted

theorem routesOnly_retireCut (a : Hw) (x : Nat × Nat) : RoutesOnly a (retireCut a x) := by
  unfold retireCut
  dsimp only
  split
  · exact RoutesOnly.trans (b := a.draw.2) ⟨rfl, ⟨_, _, rfl⟩, fun _ => rfl, fun _ h => h⟩ (routesOnly_retireChiplet ..)
  · exact .refl a

theorem routesOnly_repairRoute (a : Hw) (x : Nat × Nat) : RoutesOnly a (repairRoute a x) := by
  unfold repairRoute
  dsimp only
  split
  · exact routesOnly_reroute ..
  · exact .refl a

theorem routesOnly_settleRoutes (a : Hw) : RoutesOnly a (settleRoutes a) :=
  (foldl_rel RoutesOnly.refl RoutesOnly.trans routesOnly_repairRoute _ a).trans (foldl_rel RoutesOnly.refl RoutesOnly.trans routesOnly_retireCut _ _)

/-! ## The end of a reshape -/

section
variable (a : Hw) (fn : Nat) (m : List Nat)

/-- The thirds a reshape clears (R412). -/
def reshapeThirds : List Nat := (affected a fn m).flatMap (thirdsOf a.pkg.map)
/-- The partitions that are as at reset after it: those it affects, and those that take one of their thirds (R412). -/
def reshapeParts : List Nat :=
  affected a fn m ++ (List.range 3).filter fun p => !(affected a fn m).contains p && (thirdsOf m p).any fun t => (reshapeThirds a fn m).contains t
/-- The machine without what the thirds held (R412). -/
def reshapeCleared : Hw :=
  let ts := reshapeThirds a fn m
  let ps := reshapeParts a fn m
  let gone := (a.launches.filter fun l => ps.contains l.2.part).map (·.1)
  { a with
    pkg := { a.pkg with map := m, reshape := none, mapShown := false, lostBlocks := a.pkg.lostBlocks.filter fun b => !gone.contains b.1 }
    cores := a.cores.map fun k => if ts.contains (coreThird k.1) then (k.1, coreCleared k.2) else k
    clusters := a.clusters.map fun k => if ts.contains (k.1 / 72) then (k.1, { k.2 with trace := [], seq := 0, lost := 0 }) else k
    images := a.images.filter fun i => !ts.contains (coreThird (i.1 / 65536))
    gangs := a.gangs.filter fun g => !ps.contains g.2.part
    blocks := a.blocks.filter fun b => !ps.contains b.2.part
    launches := a.launches.filter fun l => !ps.contains l.2.part
    ops := a.ops.filter fun o => !ps.contains o.part }
/-- The machine with its new functions (R412). -/
def reshapeMapped : Hw := (reshapeParts a fn m).foldl (fun h p => h.setPart p (reshaped a m p)) (reshapeCleared a fn m)
/-- The machine with the routes that the new boundaries allow (R361, R412). -/
def reshapeRouted : Hw :=
  let b := reshapeMapped a fn m
  settleRoutes ((b.pkg.orrt.filter fun x => orrtEn a (x.1 / 32) (x.1 % 32) != orrtEn b (x.1 / 32) (x.1 % 32)).foldl
    (fun h x => reroute h (x.1 / 32) (x.1 % 32)) b)
/-- A function presents itself (R412). -/
def presentPart (h : Hw) (p : Nat) : Hw := if (h.part p).present then h.setPart p fun q => { q with ptstatus := 0 } else h
/-- The machine once a reshape has completed. -/
def reshapeOver : Hw := (List.range 3).foldl presentPart (reshapeRouted a fn m)

end

theorem exec_reshapeComplete {s : State} {fn : Nat} {m : List Nat} (pending : s.hw.pkg.reshape = some (fn, m)) :
    exec .reshapeComplete s = .next { s with mem := s.mem.filter fun x => !(reshapeParts s.hw fn m).contains x.1, hw := reshapeOver s.hw fn m } := by
  show execReshapeComplete s = _
  unfold execReshapeComplete
  rw [pending]
  rfl

section
variable (a : Hw) (fn : Nat) (m : List Nat)

theorem reshapeParts_nodup : (reshapeParts a fn m).Nodup := by
  refine List.nodup_append.2 ⟨List.nodup_range.filter _, List.nodup_range.filter _, fun p hp q hq same => ?_⟩
  subst same
  have out := (List.mem_filter.1 hq).2
  simp [hp] at out

theorem reshapeParts_lt {p : Nat} (hp : p ∈ reshapeParts a fn m) : p < 3 := by
  obtain hp | hp := List.mem_append.1 hp
  · exact List.mem_range.1 (List.mem_filter.1 hp).1
  · exact List.mem_range.1 (List.mem_filter.1 hp).1

/-- Machine b is machine a but for partitions. -/
theorem onlyParts_foldl {f : Hw → Nat → Hw} (each : ∀ h p, OnlyParts h (f h p)) (ps : List Nat) (a : Hw) : OnlyParts a (ps.foldl f a) :=
  foldl_rel (R := OnlyParts) (fun _ => rfl) (fun {x y z} h k => by unfold OnlyParts at *; rw [k, h]) each ps a

/-- Partitions changed one after another, each once. -/
theorem part_foldl {f : Hw → Nat → Hw} (g : Nat → Part → Part) (here : ∀ h p, (f h p).part p = g p (h.part p))
    (other : ∀ h p k, k ≠ p → (f h p).part k = h.part k) {ps : List Nat} (once : ps.Nodup) (a : Hw) (k : Nat) :
    (ps.foldl f a).part k = if k ∈ ps then g k (a.part k) else a.part k := by
  induction ps generalizing a with
  | nil => exact (if_neg List.not_mem_nil).symm
  | cons p ps ih =>
    obtain ⟨fresh, once⟩ := List.nodup_cons.1 once
    rw [List.foldl_cons, ih once]
    by_cases same : k = p
    · subst same
      rw [if_neg fresh, if_pos List.mem_cons_self, here]
    · rw [other a p k same]
      exact if_congr (by simp [same]) rfl rfl

/-- A partition whose function presents itself. -/
def presented (q : Part) : Part := if q.present then { q with ptstatus := 0 } else q

theorem presentPart_spec (h : Hw) (p : Nat) : OnlyParts h (presentPart h p) ∧ (presentPart h p).part p = presented (h.part p) ∧
    ∀ k, k ≠ p → (presentPart h p).part k = h.part k := by
  unfold presentPart presented
  split
  · exact ⟨rfl, Hw.part_setPart_same .., fun k hk => Hw.part_setPart_other hk _⟩
  · exact ⟨rfl, rfl, fun _ _ => rfl⟩

/-- The machine but for partitions and routes is the one that was cleared. -/
theorem reshapeOver_rest : ∃ x y, (reshapeOver a fn m).pkg = { (reshapeCleared a fn m).pkg with orrt := x, health := y } ∧
    (reshapeOver a fn m).gangs = (reshapeCleared a fn m).gangs ∧ (reshapeOver a fn m).ops = (reshapeCleared a fn m).ops ∧
    (reshapeOver a fn m).cores = (reshapeCleared a fn m).cores := by
  have mapped : OnlyParts (reshapeCleared a fn m) (reshapeMapped a fn m) :=
    onlyParts_foldl (f := fun h p => h.setPart p (reshaped a m p)) (fun _ _ => rfl) _ _
  have routed : RoutesOnly (reshapeMapped a fn m) (reshapeRouted a fn m) :=
    (foldl_rel RoutesOnly.refl RoutesOnly.trans (f := fun h (x : Nat × Nat) => reroute h (x.1 / 32) (x.1 % 32))
      (fun h x => routesOnly_reroute ..) _ _).trans (routesOnly_settleRoutes _)
  have over' : OnlyParts (reshapeRouted a fn m) (reshapeOver a fn m) := onlyParts_foldl (fun h p => (presentPart_spec h p).1) _ _
  obtain ⟨x, y, pkg⟩ := routed.pkg
  unfold OnlyParts at mapped over'
  refine ⟨x, y, ?_, ?_, ?_, ?_⟩
  · rw [over']
    dsimp only
    rw [pkg, mapped]
  · rw [over', routed.rest, mapped]
  · rw [over', routed.rest, mapped]
  · rw [over', routed.rest, mapped]

theorem reshapeOver_part (p : Nat) : (reshapeOver a fn m).part p =
    if p < 3 then presented (if p ∈ reshapeParts a fn m then reshaped a m p (a.part p) else a.part p) else a.part p := by
  have over' : (reshapeOver a fn m).part p = if p ∈ List.range 3 then presented ((reshapeRouted a fn m).part p) else (reshapeRouted a fn m).part p :=
    part_foldl (fun _ => presented) (fun h p => (presentPart_spec h p).2.1) (fun h p => (presentPart_spec h p).2.2) List.nodup_range _ p
  have routed : RoutesOnly (reshapeMapped a fn m) (reshapeRouted a fn m) :=
    (foldl_rel RoutesOnly.refl RoutesOnly.trans (f := fun h (x : Nat × Nat) => reroute h (x.1 / 32) (x.1 % 32))
      (fun h x => routesOnly_reroute ..) _ _).trans (routesOnly_settleRoutes _)
  have same : (reshapeRouted a fn m).part p = (reshapeMapped a fn m).part p := by rw [routed.rest]; rfl
  have mapped : (reshapeMapped a fn m).part p = if p ∈ reshapeParts a fn m then reshaped a m p (a.part p) else a.part p :=
    part_foldl (f := fun h p => h.setPart p (reshaped a m p)) (reshaped a m) (fun h p => Hw.part_setPart_same ..)
      (fun h p k hk => Hw.part_setPart_other hk _) (reshapeParts_nodup a fn m) (reshapeCleared a fn m) p
  rw [over', same, mapped]
  by_cases small : p < 3
  · rw [if_pos (List.mem_range.2 small), if_pos small]
  · rw [if_neg (mt List.mem_range.1 small), if_neg small, if_neg (mt (reshapeParts_lt a fn m) small)]

/-- A core of a third that was reshaped holds no context. -/
theorem reshapeCleared_banks {core : Nat} (mine : coreThird core ∈ reshapeThirds a fn m) : banksEmpty (reshapeCleared a fn m) core = true := by
  have cores : (reshapeCleared a fn m).cores = a.cores.map fun k =>
      (k.1, (fun i k => if (reshapeThirds a fn m).contains (coreThird i) then coreCleared k else k) k.1 k.2) := by
    refine List.map_congr_left fun k _ => ?_
    dsimp only
    split <;> rfl
  have inside : (reshapeThirds a fn m).contains (coreThird core) = true := List.contains_iff_mem.2 mine
  rw [banksEmpty, Hw.core, Tab.val, cores, look_map_keyed fun i k => if (reshapeThirds a fn m).contains (coreThird i) then coreCleared k else k]
  cases a.cores.look core with
  | none => rfl
  | some k =>
    simp only [Option.map_some, inside, if_true]
    rfl

end

/-- A reshape completes: what its partitions held is gone, and its functions are as at reset (R412). -/
theorem reshapeComplete_completes {s : State} {fn : Nat} {m : List Nat} (pending : s.hw.pkg.reshape = some (fn, m)) :
    let ts := reshapeThirds s.hw fn m
    let ps := reshapeParts s.hw fn m
    ∃ t, exec .reshapeComplete s = .next t ∧ t.time = s.time ∧ t.hw.pkg.map = m ∧ t.hw.pkg.reshape = none ∧
      (∀ p, p ∉ ps → t.hw.part p = (if p < 3 ∧ (s.hw.part p).present = true then { s.hw.part p with ptstatus := 0 } else s.hw.part p) ∧
        ∀ a, rdByte t.mem p a = rdByte s.mem p a) ∧
      (∀ p ∈ ps, (∀ a, rdByte t.mem p a = 0) ∧ (t.hw.part p).present = !(thirdsOf m p).isEmpty ∧ (t.hw.part p).contexts = [] ∧
        (t.hw.part p).pend = [] ∧ (t.hw.part p).quiesced = false ∧ (t.hw.part p).ptstatus = 0 ∧ (t.hw.part p).stage = mapWord m ∧
        (t.hw.part p).gen = ((s.hw.part p).gen + 1) % 65536) ∧
      (∀ gk g, t.hw.gangs.look gk = some g → g.part ∉ ps) ∧ (∀ o ∈ t.hw.ops, o.part ∉ ps) ∧
      (∀ core, coreThird core ∈ ts → banksEmpty t.hw core = true) := by
  intro ts ps
  obtain ⟨x, y, pkg, gangs, ops, cores⟩ := reshapeOver_rest s.hw fn m
  have byte : ∀ p a, rdByte (s.mem.filter fun x => !ps.contains x.1) p a = if p ∈ ps then 0 else rdByte s.mem p a := by
    intro p a
    have mem : memOf (s.mem.filter fun x => !ps.contains x.1) p = if p ∈ ps then [] else memOf s.mem p := by
      rw [memOf, Tab.val, look_filter_keys (fun k => !ps.contains k)]
      by_cases hp : p ∈ ps
      · rw [if_pos hp, if_neg (by simp [hp])]
        rfl
      · rw [if_neg hp, if_pos (by simp [hp])]
        rfl
    rw [rdByte, mem]
    split <;> rfl
  have outside : ∀ {p : Nat}, (!ps.contains p) = true → p ∉ ps := fun h mem => by simp [mem] at h
  have run := exec_reshapeComplete pending
  have parts := reshapeOver_part s.hw fn m
  have empty : ∀ core, coreThird core ∈ ts → banksEmpty (reshapeCleared s.hw fn m) core = true := fun core => reshapeCleared_banks s.hw fn m
  have kept : (∀ gk g, (reshapeCleared s.hw fn m).gangs.look gk = some g → g.part ∉ ps) ∧ ∀ o ∈ (reshapeCleared s.hw fn m).ops, o.part ∉ ps :=
    ⟨fun gk g hg => outside (List.mem_filter.1 (look_mem hg)).2, fun o ho => outside (List.mem_filter.1 ho).2⟩
  have new : (reshapeCleared s.hw fn m).pkg.map = m ∧ (reshapeCleared s.hw fn m).pkg.reshape = none := ⟨rfl, rfl⟩
  generalize reshapeOver s.hw fn m = b at *
  generalize reshapeCleared s.hw fn m = c at *
  refine ⟨_, run, rfl, ?_, ?_, fun p hp => ⟨?_, fun a => (byte p a).trans (if_neg hp)⟩,
    fun p hp => ⟨fun a => (byte p a).trans (if_pos hp), ?_⟩, fun gk g hg => ?_, fun o ho => ?_, fun core mine => ?_⟩
  · exact (congrArg Pkg.map pkg).trans new.1
  · exact (congrArg Pkg.reshape pkg).trans new.2
  · dsimp only
    rw [parts, if_neg hp, presented]
    by_cases small : p < 3
    · rw [if_pos small]
      exact if_congr (by simp [small]) rfl rfl
    · rw [if_neg small, if_neg fun both => small both.1]
  · dsimp only
    rw [parts, if_pos (reshapeParts_lt s.hw fn m hp), if_pos hp, presented]
    split <;> exact ⟨rfl, rfl, rfl, rfl, rfl, rfl, rfl⟩
  · exact kept.1 gk g (by rw [← gangs]; exact hg)
  · exact kept.2 o (by rw [← ops]; exact ho)
  · rw [banksEmpty, Hw.core, cores]
    exact empty core mine

/-- Settles O51: each command by the registers it sets, and the end of a reshape by what is left of each partition. -/
theorem partitionCommands : Obligations.PartitionCommands := by
  refine ⟨fun fn s o => ?_, fun fn s => (quiesceComplete_rules fn s).1, fun fn s => (quiesceComplete_rules fn s).2,
    fun core bank s p c => phobosBankEmpty_empties, fun s none' => ?_, fun s fn m pending => reshapeComplete_completes pending⟩
  · intro q
    obtain ⟨released, refused⟩ := ptcmdRelease_rules o
    exact ⟨ptcmdQuiesce_sets o, released, refused, ptcmdReshape_rules o⟩
  · show execReshapeComplete s = _
    unfold execReshapeComplete
    rw [none']

end Sys2Proof.Machine
end

section
/-! SUPPORT. Errors and retirement, RESYNC, attestation, bring-up and lost colours (19_links R359-R362; 22_partitions R413-R419). -/

namespace Sys2Proof.Machine

open Sys2Proof

/-! ## Lost colours -/

theorem setOrrt_frame (a : Hw) (i j : Nat) (f : Nat → Nat) : SameGangs a (setOrrt a i j f) ∧ (setOrrt a i j f).pkg.health = a.pkg.health :=
  ⟨⟨rfl, rfl⟩, rfl⟩

/-- What is kept of a pair once its colour c has failed (R359, R360). -/
def colourLost (c v : Nat) : Nat := setBits 39 24 (bits 39 24 v + 1) (setBits c c 0 v)

theorem failColour_lost {a : Hw} {i j c : Nat} (pair : i ≠ j) (hi : i < 22) (hj : j < 22) (hc : c < 2) (works : bit c (orrtKept a i j) = true) :
    RoutesOnly (setOrrt a i j (colourLost c)) (failColour a i j c) := by
  have run : failColour a i j c = settleRoutes (reroute (setOrrt a i j (colourLost c)) i j) := if_neg (by
    rintro (same | far | far | far | dead)
    · exact pair same
    · omega
    · omega
    · omega
    · rw [works] at dead
      exact Bool.false_ne_true dead)
  rw [run]
  exact (routesOnly_reroute ..).trans (routesOnly_settleRoutes _)

theorem failColour_none {a : Hw} {i j c : Nat} (none' : i = j ∨ 22 ≤ i ∨ 22 ≤ j ∨ 2 ≤ c ∨ bit c (orrtKept a i j) = false) : failColour a i j c = a :=
  if_pos (none'.imp_right fun h => h.imp_right fun h => h.imp_right fun h => h.imp_right fun dead => by rw [dead]; rfl)

theorem failColour_frame (a : Hw) (i j c : Nat) : SameGangs a (failColour a i j c) ∧
    ∀ x ∈ a.pkg.health.retired, x ∈ (failColour a i j c).pkg.health.retired := by
  by_cases none' : i = j ∨ 22 ≤ i ∨ 22 ≤ j ∨ 2 ≤ c ∨ bit c (orrtKept a i j) = false
  · rw [failColour_none none']
    exact ⟨.refl a, fun _ h => h⟩
  · simp only [not_or, Nat.not_le, Bool.not_eq_false] at none'
    obtain ⟨pair, hi, hj, hc, works⟩ := none'
    have lost := failColour_lost pair hi hj hc works
    obtain ⟨gangs, health⟩ := setOrrt_frame a i j (colourLost c)
    exact ⟨gangs.trans lost.sameGangs, fun x hx => lost.retired x (by rw [health]; exact hx)⟩

theorem testBit_colourLost {c k : Nat} (small : k < 2) (v : Nat) : (colourLost c v).testBit k = if k = c then false else v.testBit k := by
  have upper := testBit_setBits (lo := 24) (m := 16) (by decide) (bits 39 24 v + 1) (setBits c c 0 v) k
  have lower := testBit_setBits (lo := c) (m := 1) (by decide) 0 v k
  rw [if_neg (by omega)] at upper
  rw [Nat.add_sub_cancel, Nat.zero_testBit] at lower
  exact upper.trans (lower.trans (if_congr (by omega) rfl rfl))

theorem testBit_of_low {a b k : Nat} (same : bits 1 0 a = bits 1 0 b) (small : k < 2) : a.testBit k = b.testBit k := by
  rw [bits_low, bits_low] at same
  rw [← testBit_mod_of_lt small a, same, testBit_mod_of_lt small]

theorem colourFail_rules (i j c : Nat) (s : State) :
    (i = j ∨ 22 ≤ i ∨ 22 ≤ j ∨ 2 ≤ c ∨ bit c (orrtKept s.hw i j) = false → Holds (.colourFail i j c) s) ∧
    (i ≠ j → i < 22 → j < 22 → c < 2 → bit c (orrtKept s.hw i j) = true → ∃ t, exec (.colourFail i j c) s = .next t ∧ Quiet s t ∧
      bit c (orrtKept t.hw i j) = false ∧ bit (1 - c) (orrtKept t.hw i j) = bit (1 - c) (orrtKept s.hw i j) ∧
      ∀ a b, b < 32 → (a ≠ i ∨ b ≠ j) → bits 1 0 (orrtKept t.hw a b) = bits 1 0 (orrtKept s.hw a b)) := by
  have run : exec (.colourFail i j c) s = .next (s.with (failColour s.hw i j c)) := rfl
  refine ⟨fun none' => run.trans (by rw [failColour_none none']; rfl), fun pair hi hj hc works => ?_⟩
  have lost := failColour_lost pair hi hj hc works
  generalize failColour s.hw i j c = h at run lost
  have low : ∀ a b, bits 1 0 (orrtKept h a b) = bits 1 0 (orrtKept (setOrrt s.hw i j (colourLost c)) a b) := fun a b => lost.low (32 * a + b)
  have here : orrtKept (setOrrt s.hw i j (colourLost c)) i j = colourLost c (orrtKept s.hw i j) := by
    rw [orrtKept, kept_setOrrt, if_pos rfl, orrtKept]
  have others : ∀ a b, b < 32 → (a ≠ i ∨ b ≠ j) → orrtKept (setOrrt s.hw i j (colourLost c)) a b = orrtKept s.hw a b := by
    intro a b hb other
    rw [orrtKept, kept_setOrrt, if_neg (by omega), orrtKept]
  obtain ⟨gangs, blocks⟩ := (setOrrt_frame s.hw i j (colourLost c)).1.trans lost.sameGangs
  refine ⟨_, run, quiet_with gangs blocks, ?_, ?_, fun a b hb other => ?_⟩
  · exact (testBit_of_low (low i j) hc).trans (by rw [here, testBit_colourLost hc, if_pos rfl])
  · exact (testBit_of_low (low i j) (by omega)).trans (by rw [here, testBit_colourLost (by omega), if_neg (by omega)]; rfl)
  · exact (low a b).trans (by rw [others a b hb other])

/-! ## Errors -/

theorem DropsOnly.pkg {p : Nat} {a b : Hw} (h : DropsOnly p a b) : b.pkg = a.pkg := by rw [h.rest]
theorem setGroups_pkg (a : Hw) (p st : Nat) (gs : List Nat) : (setGroups a p st gs).pkg = a.pkg := rfl
theorem draw_pkg (a : Hw) : a.draw.2.pkg = a.pkg := rfl

theorem failCarried_pkg (a : Hw) (p g : Nat) : (failCarried a p g).pkg = a.pkg := by
  unfold failCarried
  dsimp only
  rw [(failElems_drops ..).pkg, (failPieces_drops ..).pkg, draw_pkg]

theorem loseGroup_pkg (a : Hw) (p g : Nat) : (loseGroup a p g).pkg = a.pkg := by
  unfold loseGroup
  dsimp only
  rw [(failDown_drops ..).pkg, setGroups_pkg]
  split
  · exact failCarried_pkg ..
  · rfl

/-- What a retirement changes (Table PT-2). -/
theorem retireEffect_spec (a : Hw) (cls inst : Nat) : SameGangs a (retireEffect a cls inst) ∧
    (∀ x ∈ a.pkg.health.retired, x ∈ (retireEffect a cls inst).pkg.health.retired) ∧
    (cls = 0 → ((retireEffect a cls inst).cluster inst).doomed = true) ∧
    (cls < 2 → (retireEffect a cls inst).pkg = a.pkg) := by
  unfold retireEffect
  split
  · exact ⟨⟨rfl, rfl⟩, fun _ h => h, fun _ => congrArg Cluster.doomed (a.cluster_setCluster_same inst fun c => { c with doomed := true }), fun _ => rfl⟩
  · obtain ⟨gangs, retired⟩ := failColour_frame a (inst / 42) ((inst / 42 + inst % 42 / 2 + 1) % 22) (inst % 2)
    exact ⟨gangs, retired, fun no => absurd no (by decide), fun no => absurd no (by decide)⟩
  · have frame : SameGangs a (((a.parts.filter fun p => bit inst p.2.link.fgroups).map (·.1)).foldl (fun h p => loseGroup h p inst) a) ∧
        (((a.parts.filter fun p => bit inst p.2.link.fgroups).map (·.1)).foldl (fun h p => loseGroup h p inst) a).pkg = a.pkg :=
      foldl_rel (R := fun a b => SameGangs a b ∧ b.pkg = a.pkg) (f := fun h p => loseGroup h p inst) (fun _ => ⟨.refl _, rfl⟩)
        (fun h k => ⟨h.1.trans k.1, k.2.trans h.2⟩) (fun h p => by
          obtain ⟨gangs, blocks, -⟩ := loseGroup_spec h p inst
          exact ⟨⟨gangs, blocks⟩, loseGroup_pkg ..⟩) _ a
    obtain ⟨gangs, pkg⟩ := frame
    exact ⟨gangs, fun _ h => by rw [pkg]; exact h, fun no => absurd no (by decide), fun _ => pkg⟩
  · next other _ _ => exact ⟨.refl a, fun _ h => h, fun zero => absurd zero other, fun _ => rfl⟩

/-- The error history with one more error (R413). -/
def noteError (x : Health) (cls inst t : Nat) : Health := { x with events := x.events ++ [(cls, inst, t)] }

theorem threshold_noteError (x : Health) (cls inst t : Nat) : threshold (noteError x cls inst t) cls = threshold x cls := by
  unfold threshold
  split <;> rfl

/-- What fails is retired (R413). -/
def retireNote (x : Health) (cls inst : Nat) : Health := { x with retired := x.retired ++ [(cls, inst)], retiredCount := (x.retiredCount + 1) % 65536 }

theorem correctableError_rules {cls inst : Nat} {s : State} (there : instanceOk cls inst = true) (up : s.hw.pkg.up = true) :
    let x := s.hw.pkg.health
    let n := errorsIn { x with events := x.events ++ [(cls, inst, s.time)] } s.time (fun c i => c == cls && i == inst)
    (threshold x cls = 0 ∨ x.retired.contains (cls, inst) = true ∨ n < threshold x cls → exec (.correctableError cls inst) s =
      .next (s.with { s.hw with pkg := { s.hw.pkg with health := { x with events := x.events ++ [(cls, inst, s.time)] } } })) ∧
    (threshold x cls ≠ 0 → x.retired.contains (cls, inst) = false → threshold x cls ≤ n →
      ∃ t, exec (.correctableError cls inst) s = .next t ∧ Quiet s t ∧ (cls, inst) ∈ t.hw.pkg.health.retired ∧
        (cls = 0 → (t.hw.cluster inst).doomed = true) ∧ (cls < 2 → t.hw.pkg.health.retiredCount = (x.retiredCount + 1) % 65536)) := by
  intro x n
  let y := noteError x cls inst s.time
  have run : exec (.correctableError cls inst) s = .next (s.with (
      if threshold y cls = 0 ∨ x.retired.contains (cls, inst) = true ∨ n < threshold y cls
      then { s.hw with pkg := { s.hw.pkg with health := y } }
      else retireEffect { s.hw with pkg := { s.hw.pkg with health := retireNote y cls inst } } cls inst)) :=
    if_pos (by rw [there, up]; rfl)
  rw [threshold_noteError] at run
  refine ⟨fun keep => by rw [if_pos keep] at run; exact run, fun armed live many => ?_⟩
  rw [if_neg (by rintro (zero | already | few); exacts [armed zero, Bool.false_ne_true (live.symm.trans already), Nat.not_lt.2 many few])] at run
  obtain ⟨⟨gangs, blocks⟩, retired, doomed, pkg⟩ :=
    retireEffect_spec { s.hw with pkg := { s.hw.pkg with health := retireNote y cls inst } } cls inst
  generalize retireEffect { s.hw with pkg := { s.hw.pkg with health := retireNote y cls inst } } cls inst = h at *
  exact ⟨_, run, quiet_with gangs blocks, retired _ (List.mem_append_right _ (List.mem_singleton.2 rfl)), doomed,
    fun low => congrArg (fun k : Pkg => k.health.retiredCount) (pkg low)⟩

theorem retireDoomed_retires {hw : Hw} {k : Nat} (t : Nat) (doomed : (hw.cluster k).doomed = true) (idle : ∀ c ∈ clusterCores k, banksEmpty hw c = true) :
    ((retireDoomed hw t).cluster k).retired = true ∧ (retireDoomed hw t).gangs = hw.gangs := by
  unfold retireDoomed
  refine ⟨?_, (foldl_rel OnlyClusters.refl OnlyClusters.trans
    (f := fun h k => h.setCluster k fun c => stopSlots t { c with retired := true, goal := none }) (fun _ _ => rfl) _ hw).sameGangs.1⟩
  refine foldl_each (fun (h : Hw) k => (h.cluster k).retired = true)
    (f := fun h k => h.setCluster k fun c => stopSlots t { c with retired := true, goal := none }) (fun h k => ?_) (fun h x k old => ?_) _ hw k ?_
  · rw [Hw.cluster_setCluster_same]
    rfl
  · rw [Hw.cluster_setCluster]
    split
    · rfl
    · exact old
  · cases retired : (hw.cluster k).retired with
    | true => exact .inr rfl
    | false =>
      refine .inl ?_
      cases hk : hw.clusters.look k with
      | none =>
        rw [Hw.cluster, Tab.val, hk] at doomed
        cases doomed
      | some c =>
        have same : hw.cluster k = c := by rw [Hw.cluster, Tab.val, hk]; rfl
        rw [same] at doomed retired
        exact List.mem_map.2 ⟨(k, c), List.mem_filter.2 ⟨look_mem hk, by simpa [doomed, retired] using idle⟩, rfl⟩

theorem uncorrectableError_cluster {inst : Nat} {s : State} (small : inst < 216) (up : s.hw.pkg.up = true) (live : clusterLive s.hw inst = true) :
    ∃ t, exec (.uncorrectableError 0 inst) s = .next t ∧ t.mem = s.mem ∧ t.time = s.time ∧ (t.hw.cluster inst).retired = true ∧
      ∀ k, k ≠ inst → t.hw.cluster k = s.hw.cluster k := by
  have run : exec (.uncorrectableError 0 inst) s = .next (s.with (loseCluster s.hw s.time inst fun c => { c with retired := true })) := by
    simp only [exec, execUncorrectableError, instanceOk, small, up, live, decide_true, Bool.not_true, Bool.or_self, Bool.false_eq_true, if_false, if_true]
  obtain ⟨-, other, c, new, -⟩ := loseCluster_spec s.hw s.time inst fun c => { c with retired := true }
  generalize (loseCluster s.hw s.time inst fun c => { c with retired := true }) = h at *
  exact ⟨_, run, rfl, rfl, congrArg Cluster.retired new, other⟩

theorem uncorrectableError_slice {inst : Nat} {s : State} {p : Nat} (small : inst < 192) (up : s.hw.pkg.up = true)
    (third : thirdPart s.hw (inst / 64) = some p) (none' : (s.hw.part p).contexts = []) :
    exec (.uncorrectableError 1 inst) s =
      .next (s.with ((s.hw.setPart p fun q => { q with quiesce := true, quiesced := true, faulted := true }).send 10 p [])) := by
  have faults : faultPartition s p = s.with ((s.hw.setPart p fun q => { q with quiesce := true, quiesced := true, faulted := true }).send 10 p []) := by
    unfold faultPartition
    rw [none']
    rfl
  rw [← faults]
  simp only [exec, execUncorrectableError, instanceOk, small, up, third, decide_true, Bool.not_true, Bool.or_self, Bool.false_eq_true, if_false]

/-! ## RESYNC and attestation -/

section
variable {fn : Nat} {v : Word} {s : State} (o : WindowOpen s fn)
include o

theorem resync_rules : ∃ t, exec (.resync fn v) s = .next t ∧ Quiet s t ∧
    (t.hw.part fn).resyncAddr = bits 63 12 v.toNat * 4096 ∧ (bit 0 v.toNat = false → t.hw.sent = s.hw.sent) ∧
    (bit 0 v.toNat = true → let a := bits 63 12 v.toNat * 4096
      let n := ((s.hw.part fn).resyncs + 1) % 2 ^ 32
      (t.hw.part fn).resyncs = n ∧ t.hw.sent = s.hw.sent ++
        [⟨13, fn, a :: (resyncWords s.hw fn s.time).flatMap fun w => [w.1, w.2]⟩, ⟨13, fn, [a, 0, 2 ^ 32 + n]⟩]) := by
  have run := (show exec (.resync fn v) s = execResync fn v s from rfl).trans (windowWrite_open o _)
  generalize resyncWords s.hw fn s.time = ws at *
  cases go : bit 0 v.toNat with
  | false =>
    rw [if_pos (by rw [go]; rfl)] at run
    exact ⟨_, run, quiet_with rfl rfl, congrArg Part.resyncAddr (Hw.part_setPart_same ..), fun _ => rfl, fun no => Bool.noConfusion no⟩
  | true =>
    rw [if_neg (by rw [go]; exact Bool.false_ne_true)] at run
    dsimp only at run
    rw [Hw.setPart_setPart] at run
    have part := Hw.part_setPart_same s.hw fn fun q =>
      { q with resyncAddr := bits 63 12 v.toNat * 4096, resyncs := ((s.hw.part fn).resyncs + 1) % 2 ^ 32 }
    refine ⟨_, run, quiet_with rfl rfl, congrArg Part.resyncAddr part, fun no => Bool.noConfusion no, fun _ => ⟨congrArg Part.resyncs part, ?_⟩⟩
    exact List.append_assoc ..

theorem attest_reports {nonce : List Byte} (long : nonce.length = 32) (go : bit 0 v.toNat = true) : ∃ t ws, exec (.attest fn v nonce) s = .next t ∧ Quiet s t ∧
    t.hw.sent = s.hw.sent ++ [⟨14, fn, (bits 63 12 v.toNat * 4096 + 0x100) :: ws⟩] ∧ ws.length = 480 ∧ ws.getD 1 0 = s.time ∧
    ws.getD 2 0 = pkginv s.hw fn ∧ (ws.drop 3).take 4 = bytesWords 4 nonce := by
  have run := (show exec (.attest fn v nonce) s = execAttest fn v nonce s from rfl).trans (windowWrite_open o _)
  rw [if_neg (by rw [go, long]; decide)] at run
  refine ⟨_, _, run, quiet_with rfl rfl, rfl, ?_, rfl, rfl, ?_⟩
  · simp [draws, bytesWords]
  · simp [bytesWords]

end

/-! ## Bring-up -/

theorem look_map_pairs {α : Type} (f : Nat → α) (ks : List Nat) (k : Nat) :
    Tab.look (ks.map fun i => (i, f i)) k = if k ∈ ks then some (f k) else none := by
  induction ks with
  | nil => exact (if_neg List.not_mem_nil).symm
  | cons i ks ih =>
    rw [List.map_cons]
    by_cases here : i = k
    · subst here
      simp [Tab.look]
    · simp [Tab.look, here, ih, Ne.symm here]

/-- A partition at power-on (R419). -/
def bootPart (b : Board) (k : Pkg) (lost p : Nat) : Part :=
  let ts := thirdsOf b.map p
  let here := !ts.isEmpty && b.genuine
  { present := here, stepping := b.stepping % 256, sup := if here then b.supctx.getD p 0xFFFF else 0xFFFF, stage := mapWord b.map
    trace := { gateLost := lost }
    link := { active := b.linkUp, cxl := b.cxl, hostReach := b.linkUp, fgroups := if here then fibUnion k ts else 0 } }
/-- The machine at power-on (R417, R419). -/
def bootHw (b : Board) (a : Hw) : Hw :=
  { pkg := bootPkg b a.pkg, parts := (List.range 3).map fun p => (p, bootPart b (bootPkg b a.pkg) (a.part p).trace.gateLost p)
    clusters := (List.range 216).map fun c => (c, bootCluster b c), nextId := a.nextId, free := a.free, phys := a.phys, sent := a.sent }

theorem exec_powerOnReset (b : Board) (s : State) : exec (.powerOnReset b) s = if (!shapeOk b.map) = true then .next s
    else .next { s with time := 0, mem := [], hw := bootHw b s.hw } := rfl

theorem bootHw_part (b : Board) (a : Hw) {p : Nat} (small : p < 3) :
    (bootHw b a).part p = bootPart b (bootPkg b a.pkg) (a.part p).trace.gateLost p := by
  rw [Hw.part, Tab.val, bootHw, look_map_pairs (fun p => bootPart b (bootPkg b a.pkg) (a.part p).trace.gateLost p), if_pos (List.mem_range.2 small)]
  rfl

theorem bootHw_cluster (b : Board) (a : Hw) {k : Nat} (small : k < 216) : (bootHw b a).cluster k = bootCluster b k := by
  rw [Hw.cluster, Tab.val, bootHw, look_map_pairs, if_pos (List.mem_range.2 small)]
  rfl

theorem bootCluster_spec (b : Board) (k : Nat) : (bootCluster b k).cur = 7 ∧ (bootCluster b k).req = b.req % 8 := by
  unfold bootCluster
  dsimp only
  split
  · exact ⟨rfl, rfl⟩
  · exact ⟨retarget_keeps (·.cur) (fun _ _ _ _ => rfl) .., retarget_keeps (·.req) (fun _ _ _ _ => rfl) ..⟩

theorem powerOnReset_boots {b : Board} (s : State) (shape : shapeOk b.map = true) :
    ∃ t, exec (.powerOnReset b) s = .next t ∧ t.time = 0 ∧ t.mem = [] ∧ t.hw.gangs = [] ∧ t.hw.ops = [] ∧
      t.hw.launches = [] ∧ t.hw.pkg.powered = true ∧ t.hw.pkg.up = b.genuine ∧ t.hw.pkg.map = b.map ∧
      t.hw.pkg.ceiling.code = min 192 b.ceiling ∧ t.hw.pkg.cuts = s.hw.pkg.cuts ∧ t.hw.pkg.cutValid = s.hw.pkg.cutValid ∧
      t.hw.pkg.cutTime = s.hw.pkg.cutTime ∧
      (∀ p, p < 3 → (t.hw.part p).present = (!(thirdsOf b.map p).isEmpty && b.genuine) ∧ (t.hw.part p).contexts = [] ∧
        (t.hw.part p).trace.gateLost = (s.hw.part p).trace.gateLost) ∧
      (∀ k, k < 216 → (t.hw.cluster k).cur = 7 ∧ (t.hw.cluster k).req = b.req % 8) := by
  refine ⟨_, (exec_powerOnReset b s).trans (if_neg (by rw [shape]; exact Bool.false_ne_true)), rfl, rfl, rfl, rfl, rfl, rfl, rfl, rfl, rfl, rfl, rfl, rfl,
    fun p small => ?_, fun k small => ?_⟩
  · dsimp only
    rw [bootHw_part b s.hw small]
    exact ⟨rfl, rfl, rfl⟩
  · dsimp only
    rw [bootHw_cluster b s.hw small]
    exact bootCluster_spec b k

/-- Settles O52: errors by what each class retires, RESYNC and ATTEST by what they send, bring-up field by field, a colour by the bit it clears. -/
theorem deviceHealth : Obligations.DeviceHealth :=
  ⟨fun _ _ _ there up => correctableError_rules there up, fun _ t _ doomed idle => retireDoomed_retires t doomed idle,
    fun _ _ small up live => uncorrectableError_cluster small up live, fun _ _ _ small up third none' => uncorrectableError_slice small up third none',
    fun _ _ _ o => resync_rules o, fun _ _ _ _ o long go => attest_reports o long go,
    fun b s shape => (exec_powerOnReset b s).trans (if_pos (by rw [shape]; rfl)), fun _ s shape => powerOnReset_boots s shape, colourFail_rules⟩

end Sys2Proof.Machine
end

section
/-! SUPPORT. Headers, host queues, dependences and vectors of launches (04_launch R70-R77; 19_links R363). -/

namespace Sys2Proof.Machine

open Sys2Proof

/-! ## Headers -/

theorem counterAt_unused (hw : Hw) (m : Tab Memory) (p c : Nat) : counterAt hw m p c 0 = (some none, hw) := by simp [counterAt]

theorem takeHeader_malformed {h : List Nat} (bad : hdrBad h = true) (hw : Hw) (m : Tab Memory) (p c : Nat) (src : LaunchSrc) (addr : Word) (pa : Nat) :
    takeHeader hw m p c src addr pa h = (0x81, hw) := if_pos bad

/-- A launch as it is accepted from a header that uses no counters (R69). -/
def plainLaunch (p c : Nat) (src : LaunchSrc) (addr : Word) (pa : Nat) (h : List Nat) : Launch :=
  { part := p, ctx := c, src := src, addr := addr, hdr := h, doneAt := none, deps := [], slotPa := pa }

/-- A well-formed header that uses no counters is accepted where its blocks fit (R70, R71). -/
theorem takeHeader_plain {h : List Nat} (good : hdrBad h = false) (done : hdrDone h = 0) (deps : ∀ k, k < 4 → (hdrDep h k).1 = 0)
    (hw : Hw) (m : Tab Memory) (p c : Nat) (src : LaunchSrc) (addr : Word) (pa : Nat) :
    takeHeader hw m p c src addr pa h = if fitStatus hw p h = 1 then
      (1, { hw with launches := hw.launches.ins hw.nextId (plainLaunch p c src addr pa h), nextId := hw.nextId + 1 }) else (fitStatus hw p h, hw) := by
  have unused : ∀ {d : Nat}, d = 0 → ∀ hw, counterAt hw m p c d = (some none, hw) := fun zero hw => zero ▸ counterAt_unused hw m p c
  simp only [takeHeader, good, unused done, List.range, List.range.loop, List.foldl, unused (deps 0 (by decide)), unused (deps 1 (by decide)),
    unused (deps 2 (by decide)), unused (deps 3 (by decide)), Bool.false_eq_true, if_false]
  rfl

/-! ## Translations leave the queues -/

/-- A change of a partition that leaves its queues leaves every queue. -/
theorem Hw.queue_setPart {f : Part → Part} (hf : ∀ q, (f q).queues = q.queues) (hw : Hw) (p k : Nat) :
    ((hw.setPart p f).part k).queues = (hw.part k).queues := by
  by_cases here : k = p
  · rw [here, Hw.part_setPart_same, hf]
  · rw [Hw.part_setPart_other here]

theorem translate_queues (hw : Hw) (m : Tab Memory) (p c va k : Nat) : ((translate hw m p c va).2.part k).queues = (hw.part k).queues := by
  unfold translate
  split
  · rfl
  extract_lets use known fresh add d
  have added : ∀ e, ((add e).part k).queues = (hw.part k).queues := fun e => by
    simp only [add]
    split
    · exact Hw.queue_setPart (f := fun q => { q with tcache := q.tcache.ins (tKey c va) (e :: q.tcache.val [] (tKey c va)) }) (fun _ => rfl) hw p k
    · rfl
  clear_value known fresh
  split
  · exact added _
  · rfl
  · extract_lets same chosen i
    have new : (chosen.part k).queues = (hw.part k).queues := by
      have source : ∀ b : Hw, (b.part k).queues = (hw.part k).queues → (({ b with free := d.2.free } : Hw).part k).queues = (hw.part k).queues :=
        fun _ h => h
      refine source _ ?_
      split
      · split
        · rfl
        · exact added _
      · rfl
    split
    · rfl
    · exact new

theorem counterAt_queues (hw : Hw) (m : Tab Memory) (p c va k : Nat) : ((counterAt hw m p c va).2.part k).queues = (hw.part k).queues := by
  have translated := translate_queues hw m p c va k
  simp only [counterAt]
  split
  · rfl
  split
  · rfl
  split <;> rename_i found <;> rw [found] at translated
  · split <;> exact translated
  · exact translated

/-- Checking a header and accepting its launch changes no queue. -/
theorem takeHeader_queues (hw : Hw) (m : Tab Memory) (p c : Nat) (src : LaunchSrc) (addr : Word) (pa : Nat) (h : List Nat) (k : Nat) :
    ((takeHeader hw m p c src addr pa h).2.part k).queues = (hw.part k).queues := by
  unfold takeHeader
  split
  · rfl
  extract_lets d ds
  have kept : (ds.2.part k).queues = (hw.part k).queues := by
    refine (foldl_rel (R := fun x y : Option (List (Nat × Nat)) × Hw => (y.2.part k).queues = (x.2.part k).queues) (fun _ => rfl)
      (fun h g => g.trans h) (fun x i => ?_) _ _).trans (counterAt_queues hw m p c (hdrDone h) k)
    have looked := counterAt_queues x.2 m p c (hdrDep h i).1 k
    split
    · rfl
    split <;> rename_i found <;> rw [found] at looked <;> exact looked
  clear_value ds
  split
  · split <;> exact kept
  · exact kept

/-! ## Host queues -/

/-- The slots that a queue has to be taken (R74). -/
def Queue.waiting (x : Queue) : Nat := (x.tail + 2 ^ 32 - x.prog) % 2 ^ 32
/-- The address of the next slot of a queue. -/
def Queue.slotVa (x : Queue) : Nat := x.base + 256 * (x.prog % 2 ^ x.log2n)
/-- The queue stops with an error at a slot that the device cannot use (R74). -/
def queueError (s : State) (fn q : Nat) : Out := .next (s.with (s.hw.setQueue fn q fun x => { x with xerr := true, state := 3 }))
/-- The next slot of a queue, at translation t in machine h, is taken: its header is checked, and its STATUS word written (R74). -/
def takeSlot (s : State) (fn q : Nat) (t : Trans) (h : Hw) : Out :=
  let x := (s.hw.part fn).queue q
  let r := takeHeader h s.mem fn x.ctx (.host q (x.prog % 2 ^ x.log2n)) (word x.slotVa) t.pa (bytesWords 24 (rdBytes s.mem fn t.pa 192))
  .next (s.with ((writeStatus r.2 fn s.time q t.pa r.1).setQueue fn q fun x => { x with prog := (x.prog + 1) % 2 ^ 32 }))

theorem exec_launchTake (fn q : Nat) (s : State) : exec (.launchTake fn q) s =
    let x := (s.hw.part fn).queue q
    if !(s.hw.part fn).present || !decide (q < 64) || !x.en || x.state != 0 || x.waiting == 0 || (s.hw.part fn).quiesce then .next s
    else if 2 ^ x.log2n < x.waiting then .next (s.with (s.hw.setQueue fn q fun x => { x with ovf := true, state := 3 }))
    else match s.hw.ctx fn x.ctx with
      | none => queueError s fn q
      | some c =>
        if c.state = .killing then .next s
        else match translate s.hw s.mem fn x.ctx x.slotVa with
          | (.error _, _) => queueError s fn q
          | (.ok t, h) => if t.kind ≠ 0 ∨ !t.r ∨ !t.w then queueError s fn q else takeSlot s fn q t h := rfl

theorem launchTake_holds {fn q : Nat} {s : State} (h : ((s.hw.part fn).queue q).en = false ∨ ((s.hw.part fn).queue q).state ≠ 0 ∨
    ((s.hw.part fn).queue q).waiting = 0 ∨ (s.hw.part fn).quiesce = true) : Holds (.launchTake fn q) s := by
  refine (exec_launchTake fn q s).trans (if_pos ?_)
  rcases h with h | h | h | h <;> simp [h]

/-- A queue from which the device takes slots: it runs, slots wait, and its partition is not quiesced (R74). -/
structure Takes (s : State) (fn q : Nat) : Prop where
  present : (s.hw.part fn).present = true
  inRange : q < 64
  enabled : ((s.hw.part fn).queue q).en = true
  runs : ((s.hw.part fn).queue q).state = 0
  waits : ((s.hw.part fn).queue q).waiting ≠ 0
  unquiesced : (s.hw.part fn).quiesce = false

section
variable {fn q : Nat} {s : State} (k : Takes s fn q)
include k

theorem Takes.exec : exec (.launchTake fn q) s =
    let x := (s.hw.part fn).queue q
    if 2 ^ x.log2n < x.waiting then .next (s.with (s.hw.setQueue fn q fun x => { x with ovf := true, state := 3 }))
    else match s.hw.ctx fn x.ctx with
      | none => queueError s fn q
      | some c =>
        if c.state = .killing then .next s
        else match translate s.hw s.mem fn x.ctx x.slotVa with
          | (.error _, _) => queueError s fn q
          | (.ok t, h) => if t.kind ≠ 0 ∨ !t.r ∨ !t.w then queueError s fn q else takeSlot s fn q t h := by
  refine (exec_launchTake fn q s).trans (if_neg ?_)
  simp [k.present, k.inRange, k.enabled, k.runs, k.waits, k.unquiesced]

/-- More slots than the queue has are an overflow (R74). -/
theorem Takes.overflows (h : 2 ^ ((s.hw.part fn).queue q).log2n < ((s.hw.part fn).queue q).waiting) :
    Machine.exec (.launchTake fn q) s = .next (s.with (s.hw.setQueue fn q fun x => { x with ovf := true, state := 3 })) :=
  k.exec.trans (if_pos h)

variable (fits : ((s.hw.part fn).queue q).waiting ≤ 2 ^ ((s.hw.part fn).queue q).log2n)
include fits

theorem Takes.no_context (none' : s.hw.ctx fn ((s.hw.part fn).queue q).ctx = none) : Machine.exec (.launchTake fn q) s = queueError s fn q := by
  refine k.exec.trans ((if_neg (by omega)).trans ?_)
  rw [none']

variable {c : Context} (hc : s.hw.ctx fn ((s.hw.part fn).queue q).ctx = some c) (alive : c.state ≠ .killing)
include hc alive

theorem Takes.untranslated {l : Nat} {h : Hw} (ht : translate s.hw s.mem fn ((s.hw.part fn).queue q).ctx ((s.hw.part fn).queue q).slotVa = (.error l, h)) :
    Machine.exec (.launchTake fn q) s = queueError s fn q := by
  refine k.exec.trans ((if_neg (by omega)).trans ?_)
  simp only [hc, if_neg alive, ht]

variable {t : Trans} {h : Hw} (ht : translate s.hw s.mem fn ((s.hw.part fn).queue q).ctx ((s.hw.part fn).queue q).slotVa = (.ok t, h))
include ht

theorem Takes.unusable (bad : t.kind ≠ 0 ∨ t.r = false ∨ t.w = false) : Machine.exec (.launchTake fn q) s = queueError s fn q := by
  refine k.exec.trans ((if_neg (by omega)).trans ?_)
  simp only [hc, if_neg alive, ht]
  exact if_pos (by simpa using bad)

theorem Takes.slot (device : t.kind = 0) (read : t.r = true) (write : t.w = true) : Machine.exec (.launchTake fn q) s = takeSlot s fn q t h := by
  refine k.exec.trans ((if_neg (by omega)).trans ?_)
  simp only [hc, if_neg alive, ht]
  exact if_neg (by simp [device, read, write])
end

theorem writeStatus_launches (hw : Hw) (p t q pa code : Nat) : (writeStatus hw p t q pa code).launches = hw.launches := by
  simp only [writeStatus, devWriteLast, snoop]
  split <;> split <;> rfl

theorem writeStatus_queue (hw : Hw) (p t q pa code n : Nat) : ((writeStatus hw p t q pa code).part p).queue n = (hw.part p).queue n := by
  obtain ⟨y, posted, -⟩ := posted_devWriteLast hw p t (pa + 0xC0) code
  rw [← posted.queue]
  simp only [writeStatus]
  split
  · rw [Hw.part_setPart_same]
    rfl
  · rfl

/-- A slot that is taken advances PROG and has its status pending in its STATUS word (R72, R74). -/
theorem takeSlot_spec (s : State) (fn q : Nat) (t : Trans) {va : Nat} {h : Hw} {l : Except Nat Trans}
    (ht : translate s.hw s.mem fn ((s.hw.part fn).queue q).ctx va = (l, h)) :
    let x := (s.hw.part fn).queue q
    let r := takeHeader h s.mem fn x.ctx (.host q (x.prog % 2 ^ x.log2n)) (word x.slotVa) t.pa (bytesWords 24 (rdBytes s.mem fn t.pa 192))
    ∃ y w, takeSlot s fn q t h = .next y ∧ y.mem = s.mem ∧ y.hw.launches = r.2.launches ∧ y.hw.gangs = r.2.gangs ∧
      ((y.hw.part fn).queue q).prog = (x.prog + 1) % 2 ^ 32 ∧ (y.hw.part fn).pend = (r.2.part fn).pend ++ [w] ∧
      w.addr = t.pa + 0xC0 ∧ w.bytes = toBytes 8 r.1 := by
  extract_lets x r
  obtain ⟨w, pend, addr, bytes⟩ := writeStatus_pend r.2 fn s.time q t.pa r.1
  have same : ((writeStatus r.2 fn s.time q t.pa r.1).part fn).queue q = x := by
    rw [writeStatus_queue]
    have queues : (r.2.part fn).queues = (s.hw.part fn).queues := (takeHeader_queues ..).trans (by
      have := translate_queues s.hw s.mem fn ((s.hw.part fn).queue q).ctx va fn
      rwa [ht] at this)
    simp only [x, Part.queue, queues]
  have launches := writeStatus_launches r.2 fn s.time q t.pa r.1
  have gangs := writeStatus_gangs r.2 fn s.time q t.pa r.1
  have taken : takeSlot s fn q t h =
      .next (s.with ((writeStatus r.2 fn s.time q t.pa r.1).setQueue fn q fun x => { x with prog := (x.prog + 1) % 2 ^ 32 })) := rfl
  rw [taken]
  clear taken
  clear_value r x
  generalize writeStatus r.2 fn s.time q t.pa r.1 = g at *
  refine ⟨_, w, rfl, rfl, launches, gangs, ?_, (Hw.pend_setQueue_same ..).trans pend, addr, bytes⟩
  rw [State.with_hw, Hw.queue_setQueue_same, same]

/-- What the device takes from its queues (R74, R75). -/
theorem launchTake_rules (fn q : Nat) (s : State) :
    let x := (s.hw.part fn).queue q
    (x.en = false ∨ x.state ≠ 0 ∨ x.waiting = 0 ∨ (s.hw.part fn).quiesce = true → Holds (.launchTake fn q) s) ∧
    ((s.hw.part fn).present = true → q < 64 → x.en = true → x.state = 0 → x.waiting ≠ 0 → (s.hw.part fn).quiesce = false →
      (2 ^ x.log2n < x.waiting → exec (.launchTake fn q) s = .next (s.with (s.hw.setQueue fn q fun x => { x with ovf := true, state := 3 }))) ∧
      (x.waiting ≤ 2 ^ x.log2n → s.hw.ctx fn x.ctx = none →
        exec (.launchTake fn q) s = .next (s.with (s.hw.setQueue fn q fun x => { x with xerr := true, state := 3 }))) ∧
      (∀ c l h, x.waiting ≤ 2 ^ x.log2n → s.hw.ctx fn x.ctx = some c → c.state ≠ .killing → translate s.hw s.mem fn x.ctx x.slotVa = (.error l, h) →
        exec (.launchTake fn q) s = .next (s.with (s.hw.setQueue fn q fun x => { x with xerr := true, state := 3 }))) ∧
      (∀ c t h, x.waiting ≤ 2 ^ x.log2n → s.hw.ctx fn x.ctx = some c → c.state ≠ .killing → translate s.hw s.mem fn x.ctx x.slotVa = (.ok t, h) →
        t.kind ≠ 0 ∨ t.r = false ∨ t.w = false →
        exec (.launchTake fn q) s = .next (s.with (s.hw.setQueue fn q fun x => { x with xerr := true, state := 3 }))) ∧
      (∀ c t h, x.waiting ≤ 2 ^ x.log2n → s.hw.ctx fn x.ctx = some c → c.state ≠ .killing → translate s.hw s.mem fn x.ctx x.slotVa = (.ok t, h) →
        t.kind = 0 → t.r = true → t.w = true →
        let r := takeHeader h s.mem fn x.ctx (.host q (x.prog % 2 ^ x.log2n)) (word x.slotVa) t.pa (bytesWords 24 (rdBytes s.mem fn t.pa 192))
        ∃ y w, exec (.launchTake fn q) s = .next y ∧ y.mem = s.mem ∧ y.hw.launches = r.2.launches ∧ y.hw.gangs = r.2.gangs ∧
          ((y.hw.part fn).queue q).prog = (x.prog + 1) % 2 ^ 32 ∧ (y.hw.part fn).pend = (r.2.part fn).pend ++ [w] ∧
          w.addr = t.pa + 0xC0 ∧ w.bytes = toBytes 8 r.1)) := by
  refine ⟨launchTake_holds, fun present inRange enabled runs waits unquiesced => ?_⟩
  have k : Takes s fn q := ⟨present, inRange, enabled, runs, waits, unquiesced⟩
  refine ⟨k.overflows, k.no_context, fun c l h fits hc alive ht => k.untranslated fits hc alive ht,
    fun c t h fits hc alive ht => k.unusable fits hc alive ht, fun c t h fits hc alive ht device read write => ?_⟩
  rw [k.slot fits hc alive ht device read write]
  exact takeSlot_spec s fn q t ht

/-! ## Eligibility -/

theorem exec_launchEligible (n : Nat) (s : State) : exec (.launchEligible n) s = execLaunchEligible n s := rfl

/-- A launch keeps the dependences that are not met, and is eligible with none left (R77). -/
theorem launchEligible_rules {n : Nat} {s : State} {l : Launch} (hl : s.hw.launches.look n = some l) :
    (l.eligible = true → Holds (.launchEligible n) s) ∧
    (l.eligible = false →
      let left := l.deps.filter fun d => decide (rdNat s.mem l.part d.1 8 < d.2)
      ∃ t l', exec (.launchEligible n) s = .next t ∧ Quiet s t ∧ t.hw.launches.look n = some l' ∧ l'.deps = left ∧
        l'.eligible = left.isEmpty ∧ l'.hdr = l.hdr ∧ l'.bound = l.bound ∧ l'.ended = l.ended) := by
  rw [Holds, exec_launchEligible]
  simp only [execLaunchEligible, hl]
  refine ⟨fun yes => if_pos yes, fun no => ?_⟩
  rw [if_neg (by simp [no])]
  generalize (l.deps.filter fun d => decide (rdNat s.mem l.part d.1 8 < d.2)) = left
  cases left with
  | cons d ds => exact ⟨_, { l with deps := d :: ds }, rfl, quiet_with rfl rfl, Tab.look_ins_same .., rfl, no, rfl, rfl, rfl⟩
  | nil =>
    simp only [List.isEmpty_nil, Bool.not_true, Bool.false_eq_true, if_false]
    cases s.hw.ctx l.part l.ctx with
    | none => exact ⟨_, { l with deps := [], eligible := true, floor := 0 }, rfl, quiet_with rfl rfl, Tab.look_ins_same .., rfl, rfl, rfl, rfl, rfl⟩
    | some c =>
      by_cases advances : (c.tail.en && c.tail.launch) = true
      · simp only [if_pos advances]
        exact ⟨_, { l with deps := [], eligible := true, floor := 2 ^ 64 }, rfl, quiet_with rfl rfl, Tab.look_ins_same .., rfl, rfl, rfl, rfl, rfl⟩
      · simp only [if_neg advances]
        exact ⟨_, { l with deps := [], eligible := true, floor := 0 }, rfl, quiet_with rfl rfl, Tab.look_ins_same .., rfl, rfl, rfl, rfl, rfl⟩

/-! ## Vectors -/

/-- The first vector that waits is signalled where no write of its STATUS word is pending: it goes out, or is left pending where it is
masked (19_links R363). -/
theorem signalVectors_first {hw : Hw} {p q a : Nat} {r : List (Nat × Nat)} (hv : (hw.part p).vectors = (q, a) :: r) :
    ((∃ w ∈ (hw.part p).pend, w.covers a 8 = true) → signalVectors p 1 hw = hw) ∧
    ((∀ w ∈ (hw.part p).pend, w.covers a 8 = false) →
      ((signalVectors p 1 hw).part p).vectors = r ∧
      (bit 32 (msixWord hw p (2 * q + 1)) = true → (signalVectors p 1 hw).sent = hw.sent ∧ bit q ((signalVectors p 1 hw).part p).pba = true) ∧
      (bit 32 (msixWord hw p (2 * q + 1)) = false → (signalVectors p 1 hw).sent = hw.sent ++
        [⟨5, p, [q, msixWord hw p (2 * q), bits 31 0 (msixWord hw p (2 * q + 1))]⟩])) := by
  refine ⟨fun ⟨w, mem, covers⟩ => ?_, fun clear => ?_⟩
  · simp only [signalVectors, hv]
    exact if_pos (List.any_eq_true.2 ⟨w, mem, covers⟩)
  · have free : ((hw.part p).pend.any fun w => w.covers a 8) = false := List.any_eq_false.2 fun w mem => by simp [clear w mem]
    have words : ∀ n, msixWord (hw.setPart p fun x => { x with vectors := r }) p n = msixWord hw p n := fun n => by
      simp only [msixWord, Hw.part_setPart_same]
    have first : signalVectors p 1 hw = signalVector (hw.setPart p fun x => { x with vectors := r }) p q := by
      simp only [signalVectors, hv, free, Bool.false_eq_true, if_false]
    rw [first]
    simp only [signalVector, words]
    cases masked : bit 32 (msixWord hw p (2 * q + 1))
    · exact ⟨(congrArg Part.vectors (Hw.part_setPart_same hw p fun x => { x with vectors := r }) :), nofun, fun _ => rfl⟩
    · refine ⟨?_, fun _ => ⟨rfl, ?_⟩, nofun⟩
      · simp
      · simp [bit]

end Sys2Proof.Machine
end

section
/-! SUPPORT. Bind records: when Phobos writes one, and when the core rejects it (04_launch R68, R78, R81-R83). -/

namespace Sys2Proof.Machine

open Sys2Proof

/-! ## A bank that is filled -/

theorem fillBank_records (hw : Hw) (core bank c : Nat) : ((fillBank hw core bank c).image core c).records = (hw.image core c).records := by
  unfold fillBank
  split
  · rfl
  · rw [Hw.image_setImage_same]
    rfl

theorem fillBank_rejects (hw : Hw) (core bank c : Nat) : ((fillBank hw core bank c).core core).rejects = (hw.core core).rejects := by
  unfold fillBank
  split
  · rfl
  · have kept : ∀ (a : Hw) f g, ((a.setCore core f).setImage core c g).core core = f (a.core core) := fun a f g => Hw.core_setCore_same a core f
    rw [kept]
    split <;> rfl

/-- Giving a bank a context changes no gang, block or launch. -/
theorem fillBank_rest (hw : Hw) (core bank c : Nat) : (fillBank hw core bank c).gangs = hw.gangs ∧ (fillBank hw core bank c).blocks = hw.blocks ∧
    (fillBank hw core bank c).launches = hw.launches := by
  unfold fillBank
  split <;> exact ⟨rfl, rfl, rfl⟩

/-! ## Records -/

theorem exec_bindRecord {core bank idx : Nat} {words : List Word} {n : Nat} {s : State} {l : Launch} (hl : s.hw.launches.look n = some l) :
    exec (.bindRecord core bank idx words n) s =
      let w := words.map (·.toNat)
      let h := (fillBank s.hw core bank l.ctx).setImage core l.ctx fun i => { i with ltable := i.ltable.ins (recLidx w) n }
      if !recGood s.hw core bank idx w n l then .next s
      else if recBad ((s.hw.image core l.ctx).records.vals.map (·.1)) (hdrExt l.hdr 1) w then
        .next (s.with (h.setCore core fun k => { k with rejects := k.rejects + 1 }))
      else .next (s.with { h.setImage core l.ctx fun i => { i with records := i.records.ins idx (w, n) } with
          launches := h.launches.ins n { l with bound := w.getD 0 0 :: l.bound } }) := by
  simp only [exec, execBindRecord, hl]

/-- A record that Phobos may write gives the launch its entry; the core rejects it, or the block is bound by it (R81-R83). -/
theorem bindRecord_rules {core bank idx : Nat} {words : List Word} {n : Nat} {s : State} {l : Launch} (hl : s.hw.launches.look n = some l) :
    let im := s.hw.image core l.ctx
    let w := words.map (·.toNat)
    (recGood s.hw core bank idx w n l = false → Holds (.bindRecord core bank idx words n) s) ∧
    (recGood s.hw core bank idx w n l = true → ∃ t, exec (.bindRecord core bank idx words n) s = .next t ∧ Quiet s t ∧
      (t.hw.image core l.ctx).ltable.look (recLidx w) = some n ∧
      (recBad (im.records.vals.map (·.1)) (hdrExt l.hdr 1) w = true → (t.hw.image core l.ctx).records = im.records ∧
        t.hw.launches = s.hw.launches ∧ (t.hw.core core).rejects = (s.hw.core core).rejects + 1) ∧
      (recBad (im.records.vals.map (·.1)) (hdrExt l.hdr 1) w = false → (t.hw.image core l.ctx).records.look idx = some (w, n) ∧
        (∀ k, k ≠ idx → (t.hw.image core l.ctx).records.look k = im.records.look k) ∧
        t.hw.launches.look n = some { l with bound := w.getD 0 0 :: l.bound })) := by
  extract_lets im w
  have records := fillBank_records s.hw core bank l.ctx
  have rejects := fillBank_rejects s.hw core bank l.ctx
  obtain ⟨gangs, blocks, launches⟩ := fillBank_rest s.hw core bank l.ctx
  rw [Holds, exec_bindRecord hl]
  dsimp only
  refine ⟨fun bad => if_pos (by rw [bad]; rfl), fun good => ?_⟩
  rw [if_neg (by rw [good]; decide)]
  generalize fillBank s.hw core bank l.ctx = h at *
  split
  case isTrue bad =>
    have image : ∀ f, ((h.setImage core l.ctx fun i => { i with ltable := i.ltable.ins (recLidx w) n }).setCore core f).image core l.ctx =
        { h.image core l.ctx with ltable := (h.image core l.ctx).ltable.ins (recLidx w) n } :=
      fun f => Hw.image_setImage_same h core l.ctx fun i => { i with ltable := i.ltable.ins (recLidx w) n }
    have counted : ∀ f, ((h.setImage core l.ctx fun i => { i with ltable := i.ltable.ins (recLidx w) n }).setCore core f).core core =
        f (h.core core) := fun f => Hw.core_setCore_same ..
    refine ⟨_, rfl, quiet_with gangs blocks, ?_, fun _ => ⟨?_, launches, ?_⟩, fun fine => absurd bad (by rw [fine]; decide)⟩
    · rw [State.with_hw, image]
      exact Tab.look_ins_same ..
    · rw [State.with_hw, image]
      exact records
    · rw [State.with_hw, counted]
      exact congrArg (· + 1) rejects
  case isFalse fine =>
    have image : ∀ x, ((h.setImage core l.ctx fun i => { i with ltable := i.ltable.ins (recLidx w) n }).setImage core l.ctx fun i =>
        { i with records := i.records.ins idx x }).image core l.ctx =
        { h.image core l.ctx with ltable := (h.image core l.ctx).ltable.ins (recLidx w) n, records := (h.image core l.ctx).records.ins idx x } := fun x => by
      rw [Hw.image_setImage_same, Hw.image_setImage_same]
    refine ⟨_, rfl, quiet_with gangs blocks, ?_, fun bad => absurd bad fine, fun _ => ⟨?_, fun k other => ?_, Tab.look_ins_same ..⟩⟩
    · exact (congrArg (fun i : Image => i.ltable.look (recLidx w)) (image (w, n)) :).trans (Tab.look_ins_same ..)
    · exact (congrArg (fun i : Image => i.records.look idx) (image (w, n)) :).trans (Tab.look_ins_same ..)
    · refine (congrArg (fun i : Image => i.records.look k) (image (w, n)) :).trans ?_
      rw [records]
      exact Tab.look_ins_other _ _ other

/-- What keeps Phobos from writing a record: it disagrees with the header, a more urgent block waits, the context is going, or its cluster
group is on another cluster (R68, R78, R81). -/
theorem recGood_refused {hw : Hw} {core bank idx : Nat} {w : List Nat} {n : Nat} {l : Launch}
    (h : (recAcc w).2 ≠ hdrAcc l.hdr ∨ (recScr w).2 ≠ hdrScr l.hdr ∨ outranked hw core bank l = true ∨
      (∀ c, hw.ctx l.part l.ctx = some c → c.state = .killing) ∨
      (hdrC3 l.hdr = true ∧ ∃ x ∈ boundOn hw n fun b => sameGroup l.hdr b (w.getD 0 0), coreCluster x.1 ≠ coreCluster core)) :
    recGood hw core bank idx w n l = false := by
  rcases h with acc | scr | urgent | going | ⟨c3, x, mem, far⟩
  · have differs : ((recAcc w).2 == hdrAcc l.hdr) = false := beq_false_of_ne acc
    simp only [recGood, differs, Bool.and_false, Bool.false_and]
  · have differs : ((recScr w).2 == hdrScr l.hdr) = false := beq_false_of_ne scr
    simp only [recGood, differs, Bool.and_false, Bool.false_and]
  · simp only [recGood, urgent, Bool.not_true, Bool.and_false, Bool.false_and]
  · cases hc : hw.ctx l.part l.ctx with
    | none => simp only [recGood, hc, Bool.and_false, Bool.false_and]
    | some c => simp only [recGood, hc, going c hc, ne_eq, not_true_eq_false, decide_false, Bool.and_false, Bool.false_and]
  · have apart : ((boundOn hw n fun b => sameGroup l.hdr b (w.getD 0 0)).all fun x => coreCluster x.1 == coreCluster core) = false :=
      List.all_eq_false.2 ⟨x, mem, by simpa using far⟩
    simp only [recGood, c3, apart, Bool.not_true, Bool.or_self, Bool.and_false, Bool.false_and]

/-- Two ranges meet where they have a number in common. -/
theorem meet_iff (a b : Nat × Nat) : meet a b = true ↔ ∃ k ∈ (List.range a.2).map (a.1 + ·), k ∈ (List.range b.2).map (b.1 + ·) := by
  have within : ∀ (r : Nat × Nat) k, k ∈ (List.range r.2).map (r.1 + ·) ↔ r.1 ≤ k ∧ k < r.1 + r.2 := fun r k => by
    simp only [List.mem_map, List.mem_range]
    exact ⟨fun ⟨i, hi, e⟩ => by omega, fun ⟨lo, hi⟩ => ⟨k - r.1, by omega, by omega⟩⟩
  simp only [meet, within, Bool.and_eq_true, bne_iff_ne, decide_eq_true_eq]
  refine ⟨fun ⟨⟨⟨ha, hb⟩, hab⟩, hba⟩ => ⟨max a.1 b.1, by omega, by omega⟩, fun ⟨k, ⟨_, _⟩, _, _⟩ => by omega⟩

/-- When a core rejects a record (R82): wrong number of slots, ranges out of bounds, or what another record of its bank has. -/
theorem recBad_iff (os : List (List Nat)) (ext1 : Nat) (w : List Nat) : recBad os ext1 w = true ↔
    (recSlots w).length ≠ ext1 ∨ 192 < (recAcc w).1 + (recAcc w).2 ∨ 15 < (recScr w).1 + (recScr w).2 ∨
      ∃ o ∈ os, (∃ k ∈ recSlots o, k ∈ recSlots w) ∨ (∃ k ∈ recTiles o, k ∈ recTiles w) ∨ ∃ k ∈ recUnits o, k ∈ recUnits w := by
  simp only [recBad, Bool.or_eq_true, List.any_eq_true, bne_iff_ne, decide_eq_true_eq, List.contains_iff_mem, meet_iff, recTiles, recUnits, or_assoc]

end Sys2Proof.Machine
end

section
/-! SUPPORT. Blocks that start: what holds them back, and their gangs (04_launch R68, R79, R80, R82). -/

namespace Sys2Proof.Machine

open Sys2Proof

/-! ## What is in place -/

/-- The block of a record as it starts (R82). -/
def blockAt (core c : Nat) (w : List Nat) (n : Nat) (l : Launch) : Block :=
  { part := l.part, core := core, ctx := c, launch := n, blk := word (w.getD 0 0), slots := recSlots w, ext1 := hdrExt l.hdr 1
    spb := (recScr w).1, spn := (recScr w).2, accb := (recAcc w).1, accn := (recAcc w).2, started := true }
/-- The gangs of a block as they start, by their keys (R82). -/
def gangsAt (hw : Hw) (core c : Nat) (w : List Nat) (n : Nat) (l : Launch) : List (Nat × Gang) :=
  ((List.range (recSlots w).length).zip (recSlots w)).map fun x =>
    (gangKey core c x.2, startGang l.part c n hw.nextId x.1 (w.getD 0 0) l (hw.phys + 2 * x.1))
/-- A core as a block of a record starts on it: its tiles and its units are the block's. -/
def coreAt (bank c : Nat) (w : List Nat) (k : Core) : Core :=
  let k1 := (recTiles w).foldl (tagStart c) k
  { k1 with units := (recUnits w).foldl (fun t u => t.ins u bank) k1.units }
/-- The machine as the block of a record starts, before room is made for it. -/
def blockBegun (s : State) (core bank c : Nat) (w : List Nat) (n : Nat) (l : Launch) : Hw :=
  let h := s.hw.setCore core (coreAt bank c w)
  { h with blocks := h.blocks.ins s.hw.nextId (blockAt core c w n l), nextId := s.hw.nextId + 1, phys := h.phys + 2 * (recSlots w).length
           gangs := (gangsAt s.hw core c w n l).foldl (fun t x => t.ins x.1 x.2) h.gangs
           launches := h.launches.ins n { l with starts := l.starts.ins (2 * coreCluster core + bank) s.time } }

section
variable {core bank idx : Nat} {s : State} {c : Nat} {w : List Nat} {n : Nat} {l : Launch} (hb : bankCtx s.hw core bank = some c)
  (hr : (s.hw.image core c).records.look idx = some (w, n)) (hl : s.hw.launches.look n = some l)
include hb hr hl

theorem exec_blockStart : exec (.blockStart core bank idx) s = .next (if startable s core bank c w n l then
    s.with ((makeRoom (blockBegun s core bank c w n l) core c [] 4096 8192).getD (blockBegun s core bank c w n l)) else s) := by
  simp only [exec, execBlockStart, startBlock, hb, hr, hl]
  cases startable s core bank c w n l <;> rfl

/-- A block waits while those it has to be resident with are not all bound (R68, R80). -/
theorem blockStart_waits (apart : together s.hw n l (w.getD 0 0) = false) : Holds (.blockStart core bank idx) s := by
  refine (exec_blockStart hb hr hl).trans ?_
  simp only [startable, apart, Bool.and_false, Bool.false_and, Bool.false_eq_true, if_false]
end

theorem together_unbound {hw : Hw} {n : Nat} {l : Launch} (b : Nat) (co : bit 32 (hdrWord l.hdr 1) = true) (h : l.bound.length ≠ blockCount l.hdr) :
    together hw n l b = false := by
  have short : (l.bound.length == blockCount l.hdr) = false := beq_false_of_ne h
  simp only [together, co, short, Bool.not_true, Bool.false_and, Bool.or_self]

theorem together_group {hw : Hw} {n : Nat} {l : Launch} {b : Nat} (c3 : hdrC3 l.hdr = true)
    (h : (l.bound.filter fun x => sameGroup l.hdr x b).length ≠ hdrExt l.hdr 2) : together hw n l b = false := by
  have short : ((l.bound.filter fun x => sameGroup l.hdr x b).length == hdrExt l.hdr 2) = false := beq_false_of_ne h
  simp only [together, c3, short, Bool.not_true, Bool.false_and, Bool.or_self, Bool.and_false]

/-! ## Its gangs -/

/-- A list of writes leaves a key that it writes one of its values, and any other key as it was. -/
theorem look_foldl_ins_cases {α : Type} (l : List (Nat × α)) (t : Tab α) (k : Nat) :
    (k ∈ l.map (·.1) → ∃ v, (k, v) ∈ l ∧ (l.foldl (fun t x => t.ins x.1 x.2) t).look k = some v) ∧
    (k ∉ l.map (·.1) → (l.foldl (fun t x => t.ins x.1 x.2) t).look k = t.look k) := by
  induction l generalizing t with
  | nil => exact ⟨fun mem => absurd mem List.not_mem_nil, fun _ => rfl⟩
  | cons x l ih =>
    obtain ⟨later, unwritten⟩ := ih (t.ins x.1 x.2)
    by_cases again : k ∈ l.map (·.1)
    · obtain ⟨v, mem, look⟩ := later again
      exact ⟨fun _ => ⟨v, List.mem_cons_of_mem _ mem, look⟩, fun no => absurd (List.mem_cons_of_mem _ again) no⟩
    · refine ⟨fun mem => ?_, fun no => (unwritten again).trans (Tab.look_ins_other _ _ fun e => no (e ▸ List.mem_cons_self))⟩
      obtain rfl := (List.mem_cons.1 mem).resolve_right again
      exact ⟨x.2, List.mem_cons_self, (unwritten again).trans (Tab.look_ins_same ..)⟩

theorem gangsAt_keys (hw : Hw) (core c : Nat) (w : List Nat) (n : Nat) (l : Launch) :
    (gangsAt hw core c w n l).map (·.1) = (recSlots w).map (gangKey core c) := by
  rw [gangsAt, List.map_map]
  refine Eq.trans ?_ (congrArg (List.map (gangKey core c)) (List.map_snd_zip (l₁ := List.range (recSlots w).length) (by simp)))
  rw [List.map_map]
  rfl

/-- The gangs of a block have slots of their own, and others stay (R82). -/
theorem blockBegun_gangs (s : State) (core bank c : Nat) (w : List Nat) (n : Nat) (l : Launch) :
    (∀ k ∈ recSlots w, ∃ i, (blockBegun s core bank c w n l).gangs.look (gangKey core c k) =
      some (startGang l.part c n s.hw.nextId i (w.getD 0 0) l (s.hw.phys + 2 * i))) ∧
    ∀ gk, (∀ k ∈ recSlots w, gk ≠ gangKey core c k) → (blockBegun s core bank c w n l).gangs.look gk = s.hw.gangs.look gk := by
  have written : ∀ k, k ∈ (gangsAt s.hw core c w n l).map (·.1) ↔ ∃ j ∈ recSlots w, gangKey core c j = k := fun k => by
    rw [gangsAt_keys, List.mem_map]
  refine ⟨fun k hk => ?_, fun gk other => ?_⟩
  · obtain ⟨g, mem, look⟩ := (look_foldl_ins_cases (gangsAt s.hw core c w n l) s.hw.gangs (gangKey core c k)).1 ((written _).2 ⟨k, hk, rfl⟩)
    obtain ⟨⟨i, j⟩, -, e⟩ := List.mem_map.1 mem
    obtain rfl := (Prod.mk.inj e).2
    exact ⟨i, look⟩
  · refine (look_foldl_ins_cases (gangsAt s.hw core c w n l) s.hw.gangs gk).2 fun mem => ?_
    obtain ⟨j, hj, e⟩ := (written _).1 mem
    exact other j hj e.symm

/-- Room that is made changes images alone. -/
theorem roomMade_frame (hw : Hw) (core ctx : Nat) (busy : List Nat) (v k : Nat) :
    SameButImages hw ((makeRoom hw core ctx busy v k).getD hw) := by
  cases made : makeRoom hw core ctx busy v k with
  | none => exact SameButImages.refl hw
  | some h => exact makeRoom_frame made

section
variable {core bank idx : Nat} {s : State} {c : Nat} {w : List Nat} {n : Nat} {l : Launch}

/-- What a block needs to start (R79, R80, R82; 11_scratchpad R206). -/
theorem startable_of (with' : together s.hw n l (w.getD 0 0) = true) (act : (s.hw.core core).act = bank) (still : (s.hw.core core).flipAt = none)
    (up : coreUp s.hw core = true) (runs : ctxRuns s.hw l.part c = true) (due : w.getD 1 0 ≤ s.time) (eligible : l.eligible = true)
    (floor : l.floor ≤ s.time) (new : recBlock s.hw core c n w = none)
    (spaced : ∀ t, l.starts.look (2 * coreCluster core + bank) = some t → t + bits 61 46 (hdrWord l.hdr 1) ≤ s.time)
    (slots : ∀ k ∈ recSlots w, slotTaken s.hw (gangKey core c k) = false)
    (units : ∀ u ∈ recUnits w, ∀ b, (s.hw.core core).units.look u = some b → b = bank) : startable s core bank c w n l = true := by
  have freeSlots : ((recSlots w).all fun k => !slotTaken s.hw (gangKey core c k)) = true := List.all_eq_true.2 fun k hk => by rw [slots k hk]; rfl
  have ownUnits : ((recUnits w).all fun u => match (s.hw.core core).units.look u with | some b => b == bank | none => true) = true := by
    refine List.all_eq_true.2 fun u hu => ?_
    split
    · next b hb => exact beq_iff_eq.2 (units u hu b hb)
    · rfl
  have since : (match l.starts.look (2 * coreCluster core + bank) with | some t => decide (t + bits 61 46 (hdrWord l.hdr 1) ≤ s.time) | none => true) = true := by
    split
    · next t ht => exact decide_eq_true (spaced t ht)
    · rfl
  rw [startable]
  simp only [with', act, still, up, runs, due, eligible, floor, new, freeSlots, beq_self_eq_true, Option.isNone_none, decide_true, Bool.true_and,
    Bool.and_true]
  exact Bool.and_eq_true_iff.2 ⟨since, ownUnits⟩

/-- A block that can starts: it is in place, its gangs are at their entry, and every other gang stays (R82). -/
theorem blockStart_starts (hb : bankCtx s.hw core bank = some c) (hr : (s.hw.image core c).records.look idx = some (w, n))
    (hl : s.hw.launches.look n = some l) (can : startable s core bank c w n l = true) :
    ∃ t b, exec (.blockStart core bank idx) s = .next t ∧ t.mem = s.mem ∧ t.time = s.time ∧ t.hw.ops = s.hw.ops ∧
      t.hw.blocks.look s.hw.nextId = some b ∧ b.launch = n ∧ b.core = core ∧ b.ctx = c ∧ b.blk = word (w.getD 0 0) ∧ b.slots = recSlots w ∧
      (b.accb, b.accn) = recAcc w ∧ (b.spb, b.spn) = recScr w ∧ b.scr = [] ∧
      (∀ k ∈ recSlots w, ∃ g q, t.hw.gangs.look (gangKey core c k) = some g ∧ g.block = s.hw.nextId ∧ g.launch = n ∧
        g.tag = word (hdrWord l.hdr 9) ∧ g.vregs = [] ∧ g.exited = 0 ∧ g.paths = [(0, q)] ∧ q.pc = word (hdrWord l.hdr 0) ∧
        q.mask = BitVec.allOnes 32 ∧ q.state = .ready ∧ q.cl.inside = false ∧ q.sr 0 = word (hdrWord l.hdr 8) ∧ q.sr 1 = l.addr) ∧
      (∀ gk, (∀ k ∈ recSlots w, gk ≠ gangKey core c k) → t.hw.gangs.look gk = s.hw.gangs.look gk) := by
  have acts := exec_blockStart hb hr hl
  rw [if_pos can] at acts
  have frame := roomMade_frame (blockBegun s core bank c w n l) core c [] 4096 8192
  generalize (makeRoom (blockBegun s core bank c w n l) core c [] 4096 8192).getD (blockBegun s core bank c w n l) = h at acts frame
  obtain ⟨own, others⟩ := blockBegun_gangs s core bank c w n l
  have gangs : h.gangs = (blockBegun s core bank c w n l).gangs := by rw [frame]
  have blocks : h.blocks = (blockBegun s core bank c w n l).blocks := by rw [frame]
  have ops : h.ops = (blockBegun s core bank c w n l).ops := by rw [frame]
  refine ⟨_, blockAt core c w n l, acts, rfl, rfl, ops, ?_, rfl, rfl, rfl, rfl, rfl, rfl, rfl, rfl, fun k hk => ?_, fun gk other => ?_⟩
  · rw [State.with_hw, blocks]
    exact Tab.look_ins_same ..
  · obtain ⟨i, look⟩ := own k hk
    refine ⟨startGang l.part c n s.hw.nextId i (w.getD 0 0) l (s.hw.phys + 2 * i), _, ?_, rfl, rfl, rfl, rfl, rfl, rfl, rfl, rfl, rfl, rfl, rfl, rfl⟩
    rw [State.with_hw, gangs]
    exact look
  · rw [State.with_hw, gangs]
    exact others gk other
end

end Sys2Proof.Machine
end

section
/-! SUPPORT. Blocks that end: their records are cleared (04_launch R90; 11_scratchpad R207). -/

namespace Sys2Proof.Machine

open Sys2Proof

/-! ## One record -/

/-- Clearing a record takes it out of its image. -/
theorem clearRecord_records (hw : Hw) (core c : Nat) (x : Nat × List Nat × Nat) :
    ((clearRecord hw core c x).image core c).records = (hw.image core c).records.del x.1 := by
  have image : ∀ f, ((hw.setImage core c fun i => { i with records := i.records.del x.1 }).setCore core f).image core c =
      { hw.image core c with records := (hw.image core c).records.del x.1 } :=
    fun f => Hw.image_setImage_same hw core c fun i => { i with records := i.records.del x.1 }
  unfold clearRecord
  extract_lets w bank h
  have cleared : (h.image core c).records = (hw.image core c).records.del x.1 := by simp only [h, image]
  clear_value h
  split
  · exact cleared
  · exact cleared

/-- Clearing a record takes out its block, if it has started one. -/
theorem clearRecord_blocks (hw : Hw) (core c : Nat) (x : Nat × List Nat × Nat) : (clearRecord hw core c x).blocks =
    match recBlock hw core c x.2.2 x.2.1 with | some bk => hw.blocks.del bk | none => hw.blocks := by
  unfold clearRecord
  extract_lets w bank h
  have same : recBlock h core c x.2.2 w = recBlock hw core c x.2.2 x.2.1 := rfl
  rw [same]
  cases recBlock hw core c x.2.2 x.2.1 <;> rfl

theorem look_del_none {α : Type} {t : Tab α} {k : Nat} (h : t.look k = none) (j : Nat) : (t.del j).look k = none := by
  rw [Tab.look_del]
  split
  · rfl
  · exact h

theorem clearRecord_blocks_none {hw : Hw} {k : Nat} (h : hw.blocks.look k = none) (core c : Nat) (x : Nat × List Nat × Nat) :
    (clearRecord hw core c x).blocks.look k = none := by
  rw [clearRecord_blocks]
  cases recBlock hw core c x.2.2 x.2.1 with
  | some bk => exact look_del_none h bk
  | none => exact h

/-! ## All records of a block -/

/-- Clearing records of one image: those records are gone, and no record or block comes. -/
theorem clearRecords_spec (core c : Nat) (rs : List (Nat × List Nat × Nat)) (hw : Hw) :
    let h := rs.foldl (fun h x => clearRecord h core c x) hw
    OnlyRecords hw h ∧ (∀ k, hw.blocks.look k = none → h.blocks.look k = none) ∧
      ∀ k, (hw.image core c).records.look k = none ∨ k ∈ rs.map (·.1) → (h.image core c).records.look k = none := by
  induction rs generalizing hw with
  | nil => exact ⟨⟨rfl, rfl, rfl⟩, fun k h => h, fun k h => h.resolve_right List.not_mem_nil⟩
  | cons x rs ih =>
    obtain ⟨only, blocks, records⟩ := ih (clearRecord hw core c x)
    refine ⟨(onlyRecords_clearRecord hw core c x).trans only, fun k h => blocks k (clearRecord_blocks_none h core c x), fun k h => records k ?_⟩
    rw [clearRecord_records]
    rcases h with before | mem
    · exact .inl (look_del_none before x.1)
    · rcases List.mem_cons.1 mem with rfl | mem
      · exact .inl (Tab.look_del_same ..)
      · exact .inr mem

/-- The block of a record is one of those in place, on the core, of the context and with the word of the record. -/
theorem recBlock_some {hw : Hw} {core c n bk : Nat} {w : List Nat} (h : recBlock hw core c n w = some bk) :
    ∃ b, (bk, b) ∈ hw.blocks ∧ b.core = core ∧ b.ctx = c ∧ b.launch = n ∧ b.blk.toNat = w.getD 0 0 := by
  obtain ⟨⟨i, b⟩, found, rfl⟩ := Option.map_eq_some_iff.1 h
  have here := List.find?_some found
  simp only [Bool.and_eq_true, beq_iff_eq] at here
  obtain ⟨⟨⟨hc, hx⟩, hn⟩, hw⟩ := here
  exact ⟨b, List.mem_of_find?_eq_some found, hc, hx, hn, hw⟩

/-- The records of a block of launch n whose word is v. -/
def recordsOf (im : Image) (n v : Nat) : List (Nat × List Nat × Nat) := im.records.filter fun r => r.2.2 == n && r.2.1.getD 0 0 == v

section
variable {core bank idx : Nat} {s : State} {c : Nat} {w : List Nat} {n : Nat} {l : Launch} {bk : Nat} {b : Block}
  (hb : bankCtx s.hw core bank = some c) (hr : (s.hw.image core c).records.look idx = some (w, n)) (hl : s.hw.launches.look n = some l)
  (hk : recBlock s.hw core c n w = some bk) (single : hdrC3 l.hdr = false)
  (mine : (s.hw.blocks.filter fun x => x.2.launch == n && x.1 == bk) = [(bk, b)])
include hb hr hl hk single mine

/-- The end of a block that is in no cluster group. -/
theorem exec_blockEnd : exec (.blockEnd core bank idx) s = if !blockOver s.hw bk then .next s else
    .next (s.with { (recordsOf (s.hw.image b.core b.ctx) n b.blk.toNat).foldl (fun h x => clearRecord h b.core b.ctx x) s.hw with
      launches := ((recordsOf (s.hw.image b.core b.ctx) n b.blk.toNat).foldl (fun h x => clearRecord h b.core b.ctx x) s.hw).launches.ins n
        { l with ended := l.ended ++ [b.blk.toNat] } }) := by
  have acts : exec (.blockEnd core bank idx) s = execBlockEnd core bank idx s := rfl
  rw [acts]
  simp only [execBlockEnd, hb, hr, hl, hk, single, Bool.false_and, Bool.or_false, mine, Bool.false_eq_true, if_false, List.length_singleton, bne_self_eq_false,
    List.all_cons, List.all_nil, Bool.and_true, Bool.false_or, List.flatMap_cons, List.flatMap_nil, List.append_nil, List.foldl_map, List.map_cons, List.map_nil]
  rfl

theorem blockEnd_waits (busy : blockOver s.hw bk = false) : Holds (.blockEnd core bank idx) s :=
  (exec_blockEnd hb hr hl hk single mine).trans (if_pos (by rw [busy]; rfl))

/-- A block that is over is gone with its record, and its launch has it among those that ended (R90). -/
theorem blockEnd_clears (over' : blockOver s.hw bk = true) :
    ∃ t l', exec (.blockEnd core bank idx) s = .next t ∧ t.mem = s.mem ∧ t.hw.gangs = s.hw.gangs ∧
      t.hw.blocks.look bk = none ∧ (t.hw.image core c).records.look idx = none ∧ t.hw.launches.look n = some l' ∧
      l'.ended = l.ended ++ [b.blk.toNat] := by
  have acts := exec_blockEnd hb hr hl hk single mine
  rw [if_neg (by rw [over']; decide)] at acts
  obtain ⟨b', mem, hcore, hctx, hn, hblk⟩ := recBlock_some hk
  have same : (bk, b') ∈ [(bk, b)] := mine ▸ List.mem_filter.2 ⟨mem, by simp [hn]⟩
  obtain rfl := (Prod.mk.inj (List.mem_singleton.1 same)).2
  rw [hcore, hctx] at acts
  have record : (idx, w, n) ∈ recordsOf (s.hw.image core c) n b'.blk.toNat := List.mem_filter.2 ⟨look_mem hr, by simp [hblk]⟩
  have each : ∀ r ∈ recordsOf (s.hw.image core c) n b'.blk.toNat, recBlock s.hw core c r.2.2 r.2.1 = some bk := fun r hr => by
    have mark := (List.mem_filter.1 hr).2
    simp only [Bool.and_eq_true, beq_iff_eq] at mark
    rw [← hk, recBlock, recBlock, mark.1, mark.2, hblk]
  generalize recordsOf (s.hw.image core c) n b'.blk.toNat = rs at acts record each
  obtain ⟨only, -, records⟩ := clearRecords_spec core c rs s.hw
  have gone : (rs.foldl (fun h x => clearRecord h core c x) s.hw).blocks.look bk = none := by
    cases rs with
    | nil => exact absurd record List.not_mem_nil
    | cons x rs =>
      refine (clearRecords_spec core c rs _).2.1 bk ?_
      rw [clearRecord_blocks, each x List.mem_cons_self]
      exact Tab.look_del_same ..
  have cleared := records idx (.inr (List.mem_map.2 ⟨_, record, rfl⟩))
  generalize rs.foldl (fun h x => clearRecord h core c x) s.hw = h at *
  exact ⟨_, { l with ended := l.ended ++ [b'.blk.toNat] }, acts, rfl, only.gangs, gone, cleared, Tab.look_ins_same .., rfl⟩
end

end Sys2Proof.Machine
end

section
/-! SUPPORT. Launches from their queue to completion (04_launch R70-R85, R90). -/

namespace Sys2Proof.Machine

open Sys2Proof

/-! ## The end of a launch -/

/-- Whether the context of a launch is being killed. -/
def LaunchKilling (s : State) (l : Launch) : Prop := ∃ c, s.hw.ctx l.part l.ctx = some c ∧ c.state = .killing
/-- The machine in which a finished launch has asked for a window of its Tail (17_tail R330). -/
def windowAsked (s : State) (l : Launch) : Hw :=
  match s.hw.ctx l.part l.ctx with
  | some c => if c.tail.launch then s.hw.setCtx l.part l.ctx fun c => { c with tail := c.tail.ask .plain } else s.hw
  | none => s.hw
/-- The machine in which a finished launch of a host queue has its CTIME and its STATUS on their way (R85). -/
def reported (s : State) (l : Launch) : Hw :=
  match l.src with
  | .host q _ => writeStatus (devWriteLast (windowAsked s l) l.part s.time (l.slotPa + 0xC8) s.time) l.part s.time q l.slotPa 2
  | .device _ => windowAsked s l
/-- The write of a launch that adds 1 to its DONE counter. -/
def doneOp (s : State) (l : Launch) (a : Nat) : Op :=
  { id := s.hw.nextId, part := l.part, ctx := l.ctx, held := l.doneHeld, kind := .counter { lane := 0, tgt := { pa := a } } true }

theorem windowAsked_rest (s : State) (l : Launch) : (windowAsked s l).gangs = s.hw.gangs ∧ (windowAsked s l).blocks = s.hw.blocks ∧
    (windowAsked s l).launches = s.hw.launches ∧ ((windowAsked s l).part l.part).pend = (s.hw.part l.part).pend ∧
    ((windowAsked s l).part l.part).vectors = (s.hw.part l.part).vectors := by
  unfold windowAsked
  split
  · split
    · exact ⟨rfl, rfl, rfl, by rw [Hw.setCtx, Hw.part_setPart_same], by rw [Hw.setCtx, Hw.part_setPart_same]⟩
    · exact ⟨rfl, rfl, rfl, rfl, rfl⟩
  · exact ⟨rfl, rfl, rfl, rfl, rfl⟩

/-- CTIME and STATUS of a slot, in this order, and behind them the vector of the queue (R72, R85). -/
theorem slotReported (h : Hw) (p t q pa : Nat) :
    let y := writeStatus (devWriteLast h p t (pa + 0xC8) t) p t q pa 2
    (y.gangs = h.gangs ∧ y.blocks = h.blocks ∧ y.launches = h.launches) ∧ (y.part p).vectors = (h.part p).vectors ++ [(q, pa + 0xC0)] ∧
      ∃ x z : PWrite, (y.part p).pend = (h.part p).pend ++ [x, z] ∧ x.addr = pa + 0xC8 ∧ x.bytes = toBytes 8 t ∧
        z.addr = pa + 0xC0 ∧ z.bytes = toBytes 8 2 ∧ x.w < z.w := by
  obtain ⟨x, first, xa, xb, -⟩ := devWriteLast_wrote h p t (pa + 0xC8) t
  obtain ⟨z, second, za, zb, past⟩ := devWriteLast_wrote (devWriteLast h p t (pa + 0xC8) t) p t (pa + 0xC0) 2
  have both := first.trans second
  have status : writeStatus (devWriteLast h p t (pa + 0xC8) t) p t q pa 2 = (devWriteLast (devWriteLast h p t (pa + 0xC8) t) p t (pa + 0xC0) 2).setPart p
      fun x => { x with vectors := x.vectors ++ [(q, pa + 0xC0)] } := by
    simp only [writeStatus, true_or, if_true]
  have order := past x (by rw [first.part]; simp)
  rw [status]
  generalize devWriteLast (devWriteLast h p t (pa + 0xC8) t) p t (pa + 0xC0) 2 = g at both
  refine ⟨⟨?_, ?_, ?_⟩, ?_, x, z, ?_, xa, xb, za, zb, order⟩
  · exact (congrArg Hw.gangs both.rest :)
  · exact (congrArg Hw.blocks both.rest :)
  · exact (congrArg Hw.launches both.rest :)
  · rw [Hw.part_setPart_same, both.part]
  · rw [Hw.part_setPart_same, both.part]
    rfl

theorem reported_rest (s : State) (l : Launch) : (reported s l).gangs = s.hw.gangs ∧ (reported s l).blocks = s.hw.blocks ∧
    (reported s l).launches = s.hw.launches := by
  obtain ⟨gangs, blocks, launches, -⟩ := windowAsked_rest s l
  unfold reported
  split
  · next q _ _ =>
    obtain ⟨⟨g, b, n⟩, -⟩ := slotReported (windowAsked s l) l.part s.time q l.slotPa
    exact ⟨g.trans gangs, b.trans blocks, n.trans launches⟩
  · exact ⟨gangs, blocks, launches⟩

section
variable {n : Nat} {s : State} {l : Launch} (hl : s.hw.launches.look n = some l)
include hl

/-- A launch that still has something left, or whose context is being killed, does not complete (R85). -/
theorem launchComplete_waits (h : launchOver s.hw n l = false ∨ LaunchKilling s l) : Holds (.launchComplete n) s := by
  have acts : exec (.launchComplete n) s = execLaunchComplete n s := rfl
  rw [Holds, acts]
  simp only [execLaunchComplete, hl]
  refine if_pos ?_
  rcases h with busy | ⟨c, hc, killing⟩
  · rw [busy]; rfl
  · rw [hc]
    simp [killing]

variable (over' : launchOver s.hw n l = true) (alive : ¬ LaunchKilling s l)
include over' alive

/-- A launch that is over: it is reported when its DONE, if it has one, has counted it, and else counts (R85). -/
theorem exec_launchComplete :
    (l.doneAt = none → exec (.launchComplete n) s = .next (s.with (freeLaunch (reported s l) n))) ∧
    (∀ a w, l.doneAt = some a → l.doneW = some w →
      exec (.launchComplete n) s = if w ≤ s.time then .next (s.with (freeLaunch (reported s l) n)) else .next s) ∧
    ∀ a, l.doneAt = some a → l.doneW = none → exec (.launchComplete n) s =
      if hostHolds s.hw l.part a then .next (s.with (snoop s.hw l.part a)) else
        match ctxWrite s.hw s.mem (lastPend s.hw l.part s.time) (doneOp s l a) a (hdrDone l.hdr)
          (toBytes 8 ((latestNat s.mem s.hw l.part a 8 + 1) % 2 ^ 64)) with
        | (some w, h) => .next (s.with { h with launches := h.launches.ins n { l with doneW := some w, doneHeld := false }, nextId := h.nextId + 1 })
        | (none, h) => .next (s.with { h with launches := h.launches.ins n { l with doneHeld := true, donePa := a }, nextId := h.nextId + 1 }) := by
  have going : (match s.hw.ctx l.part l.ctx with | some c => decide (c.state = .killing) | none => false) = false := by
    split
    · next c hc => exact decide_eq_false fun killing => alive ⟨c, hc, killing⟩
    · rfl
  have acts : exec (.launchComplete n) s = execLaunchComplete n s := rfl
  rw [acts]
  simp only [execLaunchComplete, hl]
  rw [if_neg (by rw [over']; exact fun h => absurd (going.symm.trans h) (by decide))]
  refine ⟨fun none' => ?_, fun a w ha hw => ?_, fun a ha hw => ?_⟩
  · rw [none']; rfl
  · rw [ha, hw]; rfl
  · rw [ha, hw]; rfl

/-- A launch that is reported is gone from every table, and its slot and its vector say so (R85). -/
theorem launchComplete_reports (h : l.doneAt = none ∨ ∃ w, l.doneW = some w ∧ w ≤ s.time) : ∃ t, exec (.launchComplete n) s = .next t ∧ Quiet s t ∧
    t.hw.launches.look n = none ∧ (∀ k, k ≠ n → t.hw.launches.look k = s.hw.launches.look k) ∧
    (∀ i ∈ t.hw.images, ∀ x ∈ i.2.ltable, x.2 ≠ n) ∧
    (∀ q slot, l.src = .host q slot → (t.hw.part l.part).vectors = (s.hw.part l.part).vectors ++ [(q, l.slotPa + 0xC0)] ∧
      ∃ x y, (t.hw.part l.part).pend = (s.hw.part l.part).pend ++ [x, y] ∧ x.addr = l.slotPa + 0xC8 ∧ x.bytes = toBytes 8 s.time ∧
        y.addr = l.slotPa + 0xC0 ∧ y.bytes = toBytes 8 2 ∧ x.w < y.w) := by
  obtain ⟨unused, counted, -⟩ := exec_launchComplete hl over' alive
  have acts : exec (.launchComplete n) s = .next (s.with (freeLaunch (reported s l) n)) := by
    cases ha : l.doneAt with
    | none => exact unused ha
    | some a =>
      obtain ⟨w, hw, due⟩ := h.resolve_left (by rw [ha]; nofun)
      exact (counted a w ha hw).trans (if_pos due)
  obtain ⟨gangs, blocks, launches⟩ := reported_rest s l
  refine ⟨_, acts, quiet_with gangs blocks, Tab.look_del_same .., fun k other => ?_, fun i hi x hx => ?_, fun q slot src => ?_⟩
  · exact (Tab.look_del_other _ other).trans (by rw [launches])
  · obtain ⟨j, -, rfl⟩ := List.mem_map.1 hi
    simpa using (List.mem_filter.1 hx).2
  · obtain ⟨-, -, -, pend, vectors⟩ := windowAsked_rest s l
    have slot : reported s l = writeStatus (devWriteLast (windowAsked s l) l.part s.time (l.slotPa + 0xC8) s.time) l.part s.time q l.slotPa 2 := by
      rw [reported, src]
    obtain ⟨-, signalled, written⟩ := slotReported (windowAsked s l) l.part s.time q l.slotPa
    rw [← slot, vectors] at signalled
    rw [← slot, pend] at written
    exact ⟨signalled, written⟩

/-- A launch whose DONE line no other holds counts itself there (R85; 13_consistency R248). -/
theorem launchComplete_counts {a : Nat} (ha : l.doneAt = some a) (hw : l.doneW = none) (home : hostHolds s.hw l.part a = false)
    (free : lineHeld s.hw l.part (lineOf a) s.hw.nextId = false) (off : ∀ c, s.hw.ctx l.part l.ctx = some c → c.tail.en = false) :
    ∃ t p, exec (.launchComplete n) s = .next t ∧ Quiet s t ∧ (t.hw.part l.part).pend = (s.hw.part l.part).pend ++ [p] ∧ p.addr = a ∧
      p.bytes = toBytes 8 ((latestNat s.mem s.hw l.part a 8 + 1) % 2 ^ 64) ∧
      t.hw.launches.look n = some { l with doneW := some p.w, doneHeld := false } := by
  obtain ⟨-, -, counting⟩ := exec_launchComplete hl over' alive
  obtain ⟨h, took, ⟨p, pend, pw, pa, pb, -, -⟩, gangs, -, blocks⟩ := ctxWrite_takes (o := doneOp s l a) free off s.mem (lastPend s.hw l.part s.time) (hdrDone l.hdr)
    (toBytes 8 ((latestNat s.mem s.hw l.part a 8 + 1) % 2 ^ 64))
  have acts := (counting a ha hw).trans (if_neg (by rw [home]; decide))
  rw [took] at acts
  exact ⟨_, p, acts, quiet_with gangs blocks, pend, pa, pb, (Tab.look_ins_same ..).trans (by rw [pw])⟩
end

/-- Settles O47: what is checked, taken, bound, started, ended and reported, each at its place. -/
theorem launchFlow : Obligations.LaunchFlow := by
  unfold Obligations.LaunchFlow
  refine ⟨fun hw m p c src addr pa h => ⟨fun bad => takeHeader_malformed bad .., fun good done deps => ?_⟩,
    fun fn q s => by simpa only [Queue.waiting, Queue.slotVa] using launchTake_rules fn q s,
    fun n s l hl => launchEligible_rules hl, fun core bank idx words n s l hl => bindRecord_rules hl, fun hw core bank idx w n l h => recGood_refused h,
    recBad_iff, fun core bank idx s c w n l hb hr hl => ?_, fun core bank idx s c w n l bk b hb hr hl hk single mine =>
      ⟨blockEnd_waits hb hr hl hk single mine, blockEnd_clears hb hr hl hk single mine⟩,
    fun n s l hl => ?_, fun hw p q a r hv => signalVectors_first hv⟩
  · rw [takeHeader_plain good done deps]
    refine ⟨?_, fun refused => ?_, fun accepted => ?_⟩
    · split
      · next accepted => exact accepted.symm
      · rfl
    · rw [if_neg refused]
    · rw [if_pos accepted]
      rfl
  · exact ⟨fun co unbound => blockStart_waits hb hr hl (together_unbound _ co unbound),
      fun c3 few => blockStart_waits hb hr hl (together_group c3 few),
      fun with' act still up runs due eligible floor new spaced slots units =>
        blockStart_starts hb hr hl (startable_of with' act still up runs due eligible floor new spaced slots units)⟩
  · refine ⟨launchComplete_waits hl, fun over' alive => ⟨launchComplete_reports hl over' alive, fun a w ha hw early => ?_, fun a ha hw held => ?_,
      fun a ha hw home free off => launchComplete_counts hl over' alive ha hw home free off⟩⟩
    · obtain ⟨-, counted, -⟩ := exec_launchComplete hl over' alive
      exact (counted a w ha hw).trans (if_neg (by omega))
    · obtain ⟨-, -, counting⟩ := exec_launchComplete hl over' alive
      exact (counting a ha hw).trans (if_pos held)

end Sys2Proof.Machine
end
